-- ==== Sys2Proof/Word.lean ====
section
/-!
DEFINITION. The words of the block: bytes, registers, step numbers. Bits are numbered with bit 0 the least
significant (R7 of 00_scope.md).
-/
namespace Sys2Proof

/-- One byte of device memory, of a payload or of an image. -/
abbrev Byte := BitVec 8
/-- A 16-bit field: a status code, an opcode, an event code. -/
abbrev Half := BitVec 16
/-- A 32-bit register or the bits of an FP32 value. -/
abbrev Word := BitVec 32
/-- A 64-bit counter, a seed, a step number. -/
abbrev Quad := BitVec 64

end Sys2Proof
end

