-- ==== Sys2Proof/Machine/Data.lean ====
section
/-!
DEFINITION. The data of a program and of a step: formats (Table 2.4), descriptors (Table 2.3), operation records
(Table 2.6), tensors with their side data, statistics (Table 6.1), plans (Tables 6.4, 6.5), tracker state (Tables 6.9,
6.10), coefficient tables (Tables 9.1 to 9.3) and topologies (Tables 10.2 to 10.4). Plain data only.
-/
namespace Sys2Proof.Machine

/-- The element formats of Table 2.4. -/
inductive Elem where
  | w1 | wt | w2 | i4 | f4 | i8 | u8 | f8a | f8b | bf16 | fp32 | e8m0 | ix32 | bit1
  deriving DecidableEq, Repr

/-- A format code: an element format, plain or block-scaled (bit 7 of the code). -/
structure Fmt where
  elem : Elem
  b32 : Bool
  deriving DecidableEq, Repr

/-- One channel-scale entry (Table 3.6). -/
structure ChanEnt where
  scale : Word
  zp : Nat
  const : Bool
  cval : Word
  deriving DecidableEq, Repr

/-- A tensor descriptor (Table 2.3). -/
structure Desc where
  id : Nat
  rank : Nat
  fmtCode : Nat
  role : Nat
  zpMode : Nat
  shape : List Nat
  order : List Nat
  bdim : Nat
  cdim : Nat
  tileOuter : Nat
  tileInner : Nat
  scaleId : Nat
  cset : Nat
  rot : Nat
  qctl : Nat
  rotSeed : Nat
  addr : Nat
  deriving DecidableEq, Repr

/-- An operation record (Table 2.6). -/
structure OpRec where
  opcode : Nat
  layer : Nat
  flags : Nat
  nIn : Nat
  nOut : Nat
  ins : List Nat
  outs : List Nat
  param : List Byte
  /-- a NORM record that leaves IN[1] unused and gives its bias in IN[2] (log 74) -/
  biasOnly : Bool
  deriving DecidableEq, Repr

/-- A program image: header (Table 2.2), descriptors, records. -/
structure Program where
  version : Nat
  nLayers : Nat
  vmax : List Nat
  descs : List Desc
  ops : List OpRec
  deriving DecidableEq, Repr

/-- A tensor: its format in force, its logical extents, its element codes in logical order (dimension 0 outermost), its
block scales in the logical order of its scale tensor, and the outlier words of each block in the same order. -/
structure Tensor where
  fmt : Fmt
  shape : List Nat
  codes : List Nat
  scales : List Nat
  outl : List (List Nat)
  deriving DecidableEq, Repr

/-- The statistics of a tensor (Table 6.1). SUMSQ is kept exactly, as an integer times a power of two. -/
structure Stats where
  n : Nat
  zeros : Nat
  sats : Nat
  nonfin : Nat
  amax : Word
  sqM : Nat
  sqE : Int
  shed : Nat
  ovf : Nat
  inputsFinite : Bool
  deriving DecidableEq, Repr

/-- The statistics of one tensor of a step: whose they are, and of which micro-batch. -/
structure StatEnt where
  desc : Nat
  layer : Nat
  mb : Nat
  /-- 0 none, 1 W, 2 A, 3 G, 4 Y (Table 6.2) -/
  role : Nat
  /-- phase in which it was gathered: 0 FWD, 1 BWD -/
  phase : Nat
  stats : Stats
  deriving DecidableEq, Repr

/-- A plan entry of one layer (Table 6.5); ladders without their end markers. -/
structure PlanEnt where
  w : List Nat
  a : List Nat
  g : List Nat
  fold : List Nat
  satMax : Nat
  ovfMax : Nat
  jumpExp : Nat
  jumpPolicy : Nat
  calExp : Nat
  hold : Nat
  deriving DecidableEq, Repr

/-- An installed plan (Table 6.4). -/
structure Plan where
  tag : Nat
  stormHalt : Bool
  layers : List PlanEnt
  deriving DecidableEq, Repr

/-- The history of one tracker role (R159): AMAX ring, RMS average (none: unset), count and head. -/
structure RoleHist where
  hist : List Word
  e : Option Word
  count : Nat
  head : Nat
  deriving DecidableEq, Repr

/-- The tracker entry of one layer (Table 6.10): the roles W, A, G, Y in order. -/
structure Tracker where
  rf : Nat
  rg : Nat
  cleanF : Nat
  cleanG : Nat
  coldLeft : Nat
  fellBack : Bool
  roles : List RoleHist
  deriving DecidableEq, Repr

/-- A coefficient entry (Table 9.2). -/
structure Coeff where
  beta1 : Word
  beta2 : Word
  eps1 : Word
  eps2 : Word
  d : Word
  a0 : Word
  a1 : Word
  a2 : Word
  lambda : Word
  floor : Word
  flags : Nat
  deriving DecidableEq, Repr

/-- A weight record (Table 9.3). -/
structure WeightRec where
  desc : Nat
  entry : Nat
  frozen : Bool
  maskAddr : Nat
  deriving DecidableEq, Repr

/-- The optimiser state of one weight (Tables 9.5, 9.6): where M, r or v, and c lie in device memory; 0 when not kept. -/
structure OptState where
  desc : Nat
  entry : Nat
  layout : Nat
  rows : Nat
  cols : Nat
  mAddr : Nat
  sAddr : Nat
  cAddr : Nat
  deriving DecidableEq, Repr

/-- A coefficient table as installed. -/
structure CoeffTable where
  entries : List Coeff
  weights : List WeightRec
  dirAddr : Nat
  deriving DecidableEq, Repr

/-- A module entry of the topology (Table 10.3). -/
structure ModEnt where
  board : Nat
  slot : Nat
  pbr : Nat
  fabricBase : Nat
  deriving DecidableEq, Repr

/-- A group entry (Table 10.4). -/
structure GroupEnt where
  group : Nat
  ranks : List Nat
  deriving DecidableEq, Repr

/-- A declared topology (Table 10.2). -/
structure Topology where
  myRank : Nat
  jobId : Nat
  dataGroup : Nat
  splitGroup : Nat
  splitMin : Nat
  timeoutMs : Nat
  coolant : Nat
  modules : List ModEnt
  groups : List GroupEnt
  deriving DecidableEq, Repr

/-- A cadence beacon (Table 10.7). -/
structure Beacon where
  jobId : Nat
  board : Nat
  slot : Nat
  hold : Bool
  ramping : Bool
  declared : Bool
  cadence : Nat
  pending : Nat
  holdMax : Nat
  rampTarget : Nat
  pendingStep : Nat
  deriving DecidableEq, Repr

/-- The closing-exchange record of one module (Table 10.6), its rung bytes after it. -/
structure ClosingRec where
  version : Nat
  nLayers : Nat
  nonfin : Bool
  fail : Bool
  storm : Bool
  tplusMin : Nat
  tplusMax : Nat
  failRank : Nat
  nonfinRank : Nat
  cadMin : Nat
  cadMax : Nat
  rungs : List Nat
  deriving DecidableEq, Repr

/-- A placement hint on a record (Table 2.10). -/
structure Hint where
  record : Nat
  /-- 0 QUARTERS, 1 TOWERS, 3 COLOCATE; 2 when only PIN would stand (never stored) -/
  kind : Nat
  arg0 : Nat
  arg1 : Nat
  pin : Bool
  deriving DecidableEq, Repr

/-- A value with its special-value lane (R89): NaN, an infinity with its sign, or `(-1)^neg * m * 2^e` exactly. -/
inductive XV where
  | nan
  | inf (neg : Bool)
  | fin (neg : Bool) (m : Nat) (e : Int)
  deriving DecidableEq, Repr

/-- One work item (R27): an output tile of one operation with the range of its spans from `lo` below `hi`, its record, micro-batch
and phase (0 FWD, 1 BWD, 2 deferred), whether it is a deferred weight-gradient product (R211), its pin, its step, its turn among the
items of its record, and whether it writes the output tile once that is folded (R31, R264; log 9). -/
structure Item where
  step : Nat
  slot : Nat
  record : Nat
  mb : Nat
  phase : Nat
  deferred : Bool
  tile : Nat
  tiles : Nat
  lo : Nat
  hi : Nat
  pinned : Bool
  turn : Nat
  holds : Bool
  deriving DecidableEq, Repr

end Sys2Proof.Machine
end

