-- ==== Sys2Proof/Syntax.lean ====
section
/-!
DEFINITION. The commands of the block: one constructor for each row of spec/opcode_table.json, with the row's operands.
The operands of a command carry what the world outside the block decides: what host memory answers, the error patterns
that a read meets, what a sensor shows (log 8, log 20). Plain data only.
-/
namespace Sys2Proof

open Sys2Proof.Machine

/-- What one beat returns other than what was stored: its device address, and for each die the XOR of its symbol (R283,
R284; log 20). -/
structure BeatErr where
  addr : Nat
  syms : List (Nat × Nat)
  deriving DecidableEq, Repr

/-- What a cell returns to one read of a march: the background, the element, the operation within the element, the bit (R301, R302). -/
structure MarchRead where
  background : Nat
  element : Nat
  op : Nat
  value : Bool
  deriving DecidableEq, Repr

/-- A place that a march tests: one bit of an SRAM word or of an Onyx symbol. `scratch` marks a spire scratchpad bank (Table 11.5). -/
structure CellBit where
  unit : Nat
  scratch : Bool
  bank : Nat
  die : Nat
  row : Nat
  bit : Nat
  deriving DecidableEq, Repr

/-- A cell that does not always hold what a march writes: what it returns to the reads listed. To every other read, and at every
other cell, the expected bit comes back. -/
structure MarchBit where
  cell : CellBit
  reads : List MarchRead
  deriving DecidableEq, Repr

/-- One failing bit that a march finds, with the element and the background of its first failure (Table 11.8). -/
structure MarchFail where
  unit : Nat
  scratch : Bool
  bank : Nat
  die : Nat
  row : Nat
  bit : Nat
  element : Nat
  background : Nat
  deriving DecidableEq, Repr

/-- What ends a fuse write as a loss of power does (R407). -/
inductive LossBy where
  | supply | overVoltage | trip | reset (perst : Bool)
  deriving DecidableEq, Repr

/-- How a fuse write ends (R406, R407). -/
inductive FuseEnd where
  /-- every slot verified and committed -/
  | committed
  /-- a slot fails its verification in the intent phase -/
  | intentFailed
  /-- the commit bits fail their verification -/
  | commitFailed
  /-- the supply is lost, or a reset that acts as its loss arrives, with `n` slots begun -/
  | lost (n : Nat) (cause : LossBy)
  deriving DecidableEq, Repr

/-- One act of an extension's code (R383). -/
inductive ExtAct where
  | readMem (addr len : Nat) (errs : List BeatErr)
  | writeMem (addr : Nat) (bytes : List Byte)
  | readReg (addr : Nat)
  | rom (opcode : Nat) (payload : List Byte) (cache : Option (List Byte)) (errs : List BeatErr)
      (fails : List MarchBit) (fuse : FuseEnd)
  /-- an access that R383 forbids: fuses, the Keep, Belfry settings, a closed register -/
  | forbidden
  | finish (status : Nat) (data : List Byte)
  deriving DecidableEq, Repr

/-- When a mailbox command that Beryl has taken ends: in the step that submits it, in a later one, or in a later one with its fuse
write already in the intent or the commit phase (R350, R406, R410; log 80). -/
inductive Flight where
  | now | later | begun
  deriving DecidableEq, Repr

/-- What the world answers while a mailbox command runs. -/
structure Env where
  /-- the image in host memory, none when the read completes with an error (R339) -/
  cache : Option (List Byte)
  /-- the beats of device memory that read with errors -/
  errs : List BeatErr
  /-- the cells that a march finds to differ -/
  fails : List MarchBit
  fuse : FuseEnd
  /-- tamper inputs that become active while a fuse write is in its intent or commit phase (R415) -/
  tamper : List Nat
  acts : List ExtAct
  /-- words of the I/O die's SRAM that a preserving march reads as uncorrectable, as (bank, word) (R303) -/
  sram : List (Nat × Nat)
  /-- a word of the mailbox's host-interface buffer that reads as uncorrectable when Beryl takes the command, as (bank, word)
  (Table 11.6) -/
  buf : Option (Nat × Nat)
  flight : Flight
  deriving DecidableEq, Repr

/-- A submission: steps 2 and 3 of R349. -/
structure Sub where
  mbx : Nat
  len : Nat
  tag : Word
  payload : List Byte
  env : Env
  deriving DecidableEq, Repr

/-- What a start-up phase found (Table 17.1, Table 17.2). -/
structure PhaseReport where
  /-- the phase overran its time (Table 17.9) -/
  overrun : Bool
  workingBad : Bool
  keepBad : Bool
  /-- phase 3: the SRAM cells that the march finds to differ -/
  fails : List MarchBit
  /-- phase 4: a stack that failed training three times -/
  stackBad : Option Nat
  /-- phase 5: entry k holds, per tower, the counts of its monitors with its quarter at k trim steps (R332) -/
  readings : List (List (Nat × List Nat))
  /-- phase 6: what the world answers to the commands that wait in the mailboxes -/
  envs : List Env
  deriving DecidableEq, Repr

/-- The alias of a register access (Table 13.3). -/
inductive Alias where
  | base | set | clr | tgl
  deriving DecidableEq, Repr

/-- One unit's 1 microsecond report (R316): its cycles, and of the slots that no bubble suppressed how many issued and how many
belong to spires whose operands may be missing; forward and backward cell products and vector operations; Jasper bytes read and
written; and the cycles for which a stream without a credit has waited. A tower's products are those that its work gives (log 8). -/
structure Activity where
  cycles : Nat
  issued : Nat
  starved : Nat
  fwd : Nat
  bwd : Nat
  vec : Nat
  rdBytes : Nat
  wrBytes : Nat
  stall : Nat
  deriving DecidableEq, Repr

/-- Where traffic enters and leaves the mesh: a tower, a port of a stack (R11), the I/O port of a column (R12). -/
inductive Node where
  | tower (t : Nat)
  | stackPort (stack port : Nat)
  | ioPort (x : Nat)
  deriving DecidableEq, Repr

/-- A transaction on the mesh (R22 to R24): its plane (false requests, true data), its two ends, the epoch that it carries where its
sender sent it, or the request that it answers was sent, before now (none: now), the bytes that its slots of the dual-port window hold,
and the transfers that the tower has read out of the window before. -/
structure MeshTx where
  plane : Bool
  src : Node
  dst : Node
  epoch : Option Word
  data : List Byte
  taken : Nat
  deriving DecidableEq, Repr

/-- What a control-ring message carries (R13). -/
inductive RingMsg where
  | bubble | epoch | config
  deriving DecidableEq, Repr

/-- What a tower reads when a Jasper request returns (R189): the number of its stream, the landing slot, the epoch that the stack
echoes (R427), the sequence number found in the slot, what strikes the next burst on its way to the spire as (byte offset, XOR), the
error patterns of the beats read, and a word of the landing buffer that reads as uncorrectable, as (bank, word). -/
structure Response where
  stream : Nat
  slot : Nat
  epoch : Word
  seq : Nat
  flips : List (Nat × Byte)
  errs : List BeatErr
  sram : Option (Nat × Nat)
  deriving DecidableEq, Repr

/-- What a far-end gather returns besides its pieces (R189, R199): the epoch echoed, the sequence number found in the slot, what strikes
the next burst, and the error patterns of the beats read. -/
structure FarReturn where
  epoch : Word
  seq : Nat
  flips : List (Nat × Byte)
  errs : List BeatErr
  deriving DecidableEq, Repr

/-- The error patterns that an update pass meets: of beats, and of a word of an update-engine buffer as (stack, bank, word). -/
structure PassErr where
  errs : List BeatErr
  buffer : Option (Nat × Nat × Nat)
  deriving DecidableEq, Repr

/-- A Campanile message header (Table 10.5) with its payload, and what its flit or route carries beside it (R265): the job and the rank it
goes to. -/
structure Message where
  kind : Nat
  coll : Nat
  group : Nat
  srcRank : Nat
  stepLo : Nat
  seq : Nat
  chunk : Nat
  len : Nat
  flags : Nat
  cadence : Nat
  check : Nat
  jobId : Nat
  dest : Nat
  payload : List Byte
  deriving DecidableEq, Repr

/-- Where a message goes astray or its data read fails (Table 11.3, Table 11.6). -/
inductive XferFault where
  | none | device (errs : List BeatErr) | staging (bank word : Nat)
  deriving DecidableEq, Repr

/-- LINK_DOWN: the link, this module's links to board-mates whose own links to its far end are in service, and how many of the messages
that have left over the link, the last ones, are not acknowledged (R257, R278; log 8). -/
structure LinkLoss where
  link : Nat
  mates : List Nat
  unacked : Nat
  deriving DecidableEq, Repr

/-- A junction reading: unit code of BLF_TJ.UNIT and signed temperature. -/
structure Junction where
  unit : Nat
  temp : Int
  deriving DecidableEq, Repr

/-- A voltage and a current (Table 12.1), in millivolts and milliamperes. -/
structure Reading where
  mv : Nat
  ma : Nat
  deriving DecidableEq, Repr

/-- Where an SRAM word lies (Table 11.6); of a tower, in a spire scratchpad or in tower memory (Table 11.5). -/
inductive SramPlace where
  | tower (t : Nat) (scratch : Bool) | engine (stack : Nat) | staging | hostBuf (mbx : Nat) | working | keep
  deriving DecidableEq, Repr

/-- A word of a tower's SRAM that its own work reads, with the bits of the 72-bit word that have flipped (R297, R299). -/
structure SramErr where
  scratch : Bool
  bank : Nat
  word : Nat
  flips : List Nat
  deriving DecidableEq, Repr

/-- A start of a work item: the tower, and the words of its SRAM that read with errors as it starts. -/
structure WorkStart where
  tower : Nat
  srams : List SramErr
  deriving DecidableEq, Repr

/-- A 32-bit read of BAR0 or a longer one, `len` bytes from a byte address (R343). -/
structure Access where
  addr : Nat
  len : Nat
  deriving DecidableEq, Repr

/-- A read of JSP_OUTST_PEAK of a tower with its byte enables (R343). -/
structure PeakRead where
  tower : Nat
  be : Nat
  deriving DecidableEq, Repr

/-- The words that a write of BAR0 carries: one, or two when it spans two locations; the byte enables of the second follow those of
the first (R343). -/
structure WData where
  lo : Word
  hi : Option Word
  deriving DecidableEq, Repr

/-- A transfer on the management bus (R442): a read-word, with its packet error code wanted or not, or a write-word with the packet
error code that came with it. -/
inductive SmbusOp where
  | read (pec : Bool)
  | write (value : Half) (pec : Option Byte)
  deriving DecidableEq, Repr

/-- Which layer operation: layer, micro-batch, phase (0 FWD, 1 BWD). -/
structure LayerOp where
  layer : Nat
  mb : Nat
  phase : Nat
  deriving DecidableEq, Repr

/-- A stop of a layer operation, and the words of SRAM, by tower, whose reads fail as it stops (Table 11.6). -/
structure LayerHalt where
  op : LayerOp
  srams : List (Nat × SramErr)
  deriving DecidableEq, Repr

/-- The commands of the block, in the order of spec/opcode_table.json. -/
inductive Instr where
  | identify (c : Sub)
  | getCaps (c : Sub)
  | readLog (c : Sub)
  | setTopology (c : Sub)
  | setCadence (c : Sub)
  | setPowerCap (c : Sub)
  | loadPlan (c : Sub)
  | loadCoeff (c : Sub)
  | loadTrackers (c : Sub)
  | saveTrackers (c : Sub)
  | placeHint (c : Sub)
  | loadProgram (c : Sub)
  | runStep (c : Sub)
  | setStepSize (c : Sub)
  | abortStep (c : Sub)
  | retirePage (c : Sub)
  | retireBank (c : Sub)
  | scrubCtrl (c : Sub)
  | marchTest (c : Sub)
  | belfryStatus (c : Sub)
  | clearDivergence (c : Sub)
  | attest (c : Sub)
  | lifecycleAdvance (c : Sub)
  | fuseLedger (c : Sub)
  | loadExtension (c : Sub)
  | extensionCommand (opcode : Nat) (c : Sub)
  | extensionTimeout
  | resetUnit (c : Sub)
  | unitStatus (c : Sub)
  | mailboxWriteWhileOwned (addr : Nat) (value : Word)
  | registerWrite (addr : Nat) (value : WData) (be : Nat) (env : Env)
  | counterLowRead (a : Access)
  | jspOutstPeakRead (r : PeakRead)
  | reservedAddressRead (a : Access)
  | reservedAddressWrite (addr : Nat) (value : WData) (be : Nat)
  | forbiddenRegisterAccess (a : Access) (write : Option WData)
  | twrUtilCtrlFreeze (tower : Nat) (al : Alias) (value : Word)
  | twrUtilCtrlClear (tower : Nat) (al : Alias) (value : Word)
  | jspCtrlFreeze (tower : Nat) (al : Alias) (value : Word)
  | jspCtrlClear (tower : Nat) (al : Alias) (value : Word)
  | eccDieErase (stack : Nat) (al : Alias) (value : Word)
  | eccBucketCfg (al : Alias) (value : Word)
  | evtCtrlEn (al : Alias) (value : Word)
  | evtTail (al : Alias) (value : Word)
  | keepTamperClear (al : Alias) (value : Word)
  | msixUnmask (vector : Nat)
  | smbusWriteWord (code : Nat) (op : SmbusOp)
  | smbusAlertResponse
  | hostMemRead (addr : Nat) (errs : List BeatErr)
  | hostMemWrite (addr : Nat) (bytes : List Byte)
  | unorderedIoWrite (addr : Nat) (bytes : List Byte)
  | backInvalidationResponse (line : Nat)
  | spdmRequest (bytes : List Byte)
  | keyExchange (bytes : List Byte)
  | ideKm (session : Nat) (cachemem : Bool) (toHost : Bool) (bytes : List Byte)
  | cdatRead (bytes : List Byte)
  | powerGood
  | startupPhaseEnd (r : PhaseReport)
  | powerLoss
  | overVoltage
  | thermalTrip
  | conventionalReset (perst : Bool)
  | functionLevelReset
  | supplyWarn (mv : Nat)
  | supplyResume (lowest : Nat) (micros : Nat)
  | thermalSample (readings : List Junction)
  | thermalCapStep
  | towerActivityReport (unit : Nat) (a : Activity)
  | fastLoopPeriod
  | slowLoopPeriod
  | regulatorSettled
  | droopDetect (tower : Nat)
  | droopWindowEnd (tower : Nat) (stillLow : Bool)
  | droopCalibration
  | ageingMonitorRead (counts : List (Nat × List Nat))
  | cadenceHold (cause : Nat) (tower : Nat)
  | holdClear (cause : Nat)
  | beaconSend
  | beaconReceive (link : Nat) (b : Beacon)
  | linkDegraded (link : Nat) (replays : Nat)
  | linkDown (loss : LinkLoss)
  | linkRetrain (link : Nat)
  | controlRingMessage (unit : Nat) (m : RingMsg)
  | meshTransaction (x : MeshTx)
  | stepBarrier
  | stepBarrierTimeout
  | workItemStart (w : WorkStart)
  | workItemRetire (tower : Nat) (index : Nat)
  | stealRequest (thief victim : Nat) (epoch : Word)
  | stealReply (thief : Nat)
  | stealTimeout (thief : Nat)
  | jasperResponse (tower : Nat) (r : Response)
  | farEndGather (tower : Nat) (stream : Nat) (slot : Nat) (r : FarReturn)
  | writeAck (tower : Nat) (stream : Nat) (slot : Nat)
  | layerStop (h : LayerHalt)
  | layerRestart (op : LayerOp)
  | layerOperationComplete (op : LayerOp)
  | lossComplete (mb : Nat)
  | microBatchRetire (mb : Nat)
  | campanileData (m : Message) (f : XferFault)
  | doorbell (slot : Nat) (m : Message) (errs : List BeatErr)
  | credit (m : Message)
  | closing (m : Message) (r : ClosingRec)
  | fabricWriteCompletion (rank : Nat) (ok : Bool)
  | collTimeout (seq : Nat)
  | check
  | update (layer : Nat)
  | updatePass (layer : Nat) (e : PassErr)
  | layerCommit (layer : Nat)
  | commit
  | eventPublish
  | writeBack (stack : Nat)
  | patrolScrub (stack : Nat) (errs : List BeatErr)
  | backgroundWindow
  | bucketLeak
  | sramScrub (place : SramPlace) (bank word : Nat) (flips : List Nat)
  | towerFault (tower : Nat) (cause : Nat)
  | tamper (inputs : List Nat)
  | perstDeassertion
  | cxlLinkUp
  | routerFault (tower : Nat)
  | tamperInputInactive (input : Nat)
  | msixEnable (enable fmask : Bool)
  | ideDisable
  | hdmDecoderProgram (base size : Nat)
  | powerMeasurementSample (converters rails : List Reading)
  | freshBeaconWaitExpiry
  deriving DecidableEq, Repr

end Sys2Proof
end

