-- ==== Sys2Proof/Machine/Bits.lean ====
section
/-!
DEFINITION. Byte order, bit fields and the checks over bytes that the spec names: little-endian fields (R7), the
CRC-32 of Table 6.9 (R182), the CRC-8 of Table 5.7 (R150), and the arithmetic of GF(2^16) with the polynomial
x^16 + x^12 + x^3 + x + 1 (R283).
-/
namespace Sys2Proof.Machine

/-- Bits `[lo + width - 1 : lo]` of a number. -/
def bitField (n lo width : Nat) : Nat := (n >>> lo) % 2 ^ width

/-- The number that little-endian bytes spell (R7). -/
def ofLe : List Byte → Nat
  | [] => 0
  | b :: bs => b.toNat + 256 * ofLe bs

/-- `k` little-endian bytes of a number (R7). -/
def toLe : Nat → Nat → List Byte
  | 0, _ => []
  | k + 1, n => BitVec.ofNat 8 n :: toLe k (n / 256)

/-- `k` bytes of a list from an offset; bytes beyond the end read as zero. -/
def sliceB (bs : List Byte) (off k : Nat) : List Byte :=
  (bs.drop off).take k ++ List.replicate (k - ((bs.drop off).take k).length) 0

/-- The little-endian field of `k` bytes at an offset. -/
def fieldLe (bs : List Byte) (off k : Nat) : Nat := ofLe (sliceB bs off k)

/-- True when the `k` bytes at an offset are all zero: a reserved field (R8). -/
def zeroAt (bs : List Byte) (off k : Nat) : Bool := (sliceB bs off k).all (· == 0)

/-- `a / b` rounded up. -/
def ceilDiv (a b : Nat) : Nat := (a + b - 1) / b

/-- `n` rounded up to a multiple of `k`. -/
def roundUp (n k : Nat) : Nat := ceilDiv n k * k

/-- One bit of the reflected CRC-32 with polynomial 0x04C1_1DB7 (R182). -/
def crc32Bit : Nat → Nat → Nat
  | 0, c => c
  | k + 1, c => crc32Bit k (if c % 2 = 1 then (c / 2) ^^^ 0xEDB88320 else c / 2)

/-- The running CRC-32 over bytes. -/
def crc32Go : List Byte → Nat → Nat
  | [], c => c
  | b :: bs, c => crc32Go bs (crc32Bit 8 (c ^^^ b.toNat))

/-- CRC-32, reflected, initial value and final XOR 0xFFFF_FFFF (Table 6.9). -/
def crc32 (bs : List Byte) : Nat := crc32Go bs 0xFFFFFFFF ^^^ 0xFFFFFFFF

/-- One bit of the CRC-8 with polynomial x^8 + x^2 + x + 1, most significant bit first (Table 5.7). -/
def crc8Bit : Nat → Nat → Nat
  | 0, c => c
  | k + 1, c => crc8Bit k (if c ≥ 128 then ((c * 2) % 256) ^^^ 0x07 else c * 2)

/-- CRC-8 over bytes, initial value 0, no final XOR (Table 5.7). -/
def crc8 (bs : List Byte) : Nat := bs.foldl (fun c b => crc8Bit 8 (c ^^^ b.toNat)) 0

/-- Multiplication by α = 0x0002 in the field of R283. -/
def gfDouble (a : Nat) : Nat := if a ≥ 0x8000 then ((a * 2) % 0x10000) ^^^ 0x100B else a * 2

/-- `a · α^k` in the field of R283. -/
def gfMulAlpha : Nat → Nat → Nat
  | 0, a => a
  | k + 1, a => gfMulAlpha k (gfDouble a)

/-- Multiplication in GF(2^16): `k` bits of `b`, most significant first. -/
def gfMulGo : Nat → Nat → Nat → Nat → Nat
  | 0, _, _, acc => acc
  | k + 1, a, b, acc =>
    gfMulGo k a b (gfDouble acc ^^^ (if (b >>> k) % 2 = 1 then a else 0))

/-- Multiplication in the field of R283. -/
def gfMul (a b : Nat) : Nat := gfMulGo 16 a b 0

/-- `a^(2^k - 1)` by square and multiply: with k = 16 less the first factor this is the inverse. -/
def gfInvGo : Nat → Nat → Nat → Nat
  | 0, _, acc => acc
  | k + 1, sq, acc => let sq2 := gfMul sq sq; gfInvGo k sq2 (gfMul acc sq2)

/-- The inverse of a non-zero element: a^(2^16 - 2). -/
def gfInv (a : Nat) : Nat := gfInvGo 15 a 1

/-- Floor of the square root, by bits from the top: `k` is the bit position. -/
def isqrtGo (n : Nat) : Nat → Nat → Nat
  | 0, r => r
  | k + 1, r =>
    let r' := r + 2 ^ k
    isqrtGo n k (if r' * r' ≤ n then r' else r)

/-- Floor of the square root of a natural number. -/
def isqrt (n : Nat) : Nat := isqrtGo n (Nat.log2 n / 2 + 1) 0

/-- A list with position `i` changed by `f`; unchanged beyond the end. -/
def updAt {α : Type} (l : List α) (i : Nat) (f : α → α) : List α := l.modify i f

/-- A list without its repeats, each entry where it first stands. -/
def firstsOf {α : Type} [DecidableEq α] (l : List α) : List α := l.reverse.dedup.reverse

/-- Lexicographic order. -/
def keyLe : List Nat → List Nat → Bool
  | [], _ => true
  | _, [] => false
  | a :: x, b :: y => decide (a < b) || (a == b && keyLe x y)

end Sys2Proof.Machine
end

