-- ==== Sys2Proof/Machine/Num.lean ====
section
/-!
DEFINITION. The number formats of 03_number_formats.md: exact values with the special-value lane (R89), the codes of
Tables 3.1 and 3.2 (R79, R81, R84), rounding on a grid (R96, R97), range and special values by destination (R99,
Table 3.8), and FP32 arithmetic (R90). Codes are numbers, exact values are integers times powers of two.
-/
namespace Sys2Proof.Machine

/-- An exact real number `m * 2^e`. -/
structure Dy where
  m : Int
  e : Int
  deriving DecidableEq, Repr

/-- 2^k for a non-negative exponent, 1 otherwise. -/
def pow2 (k : Int) : Nat := 2 ^ k.toNat

def Dy.zero : Dy := ⟨0, 0⟩

/-- Exact sum. -/
def Dy.add (a b : Dy) : Dy :=
  if a.m = 0 then b
  else if b.m = 0 then a
  else if a.e ≤ b.e then ⟨a.m + b.m * (pow2 (b.e - a.e) : Int), a.e⟩
  else ⟨a.m * (pow2 (a.e - b.e) : Int) + b.m, b.e⟩

def Dy.neg (a : Dy) : Dy := ⟨-a.m, a.e⟩

/-- Exact difference. -/
def Dy.sub (a b : Dy) : Dy := a.add b.neg

/-- Exact product. -/
def Dy.mul (a b : Dy) : Dy := ⟨a.m * b.m, a.e + b.e⟩

/-- Exact comparison `a < b`. -/
def Dy.lt (a b : Dy) : Bool := (a.sub b).m < 0

/-- Exact comparison `a ≤ b`. -/
def Dy.le (a b : Dy) : Bool := (a.sub b).m ≤ 0

def Dy.abs (a : Dy) : Dy := ⟨a.m.natAbs, a.e⟩

/-- An integer as an exact value. -/
def Dy.ofInt (i : Int) : Dy := ⟨i, 0⟩

/-- The exact sum of a list. -/
def Dy.sum (l : List Dy) : Dy := l.foldl Dy.add Dy.zero

/-- The finite part of a value, zero for a special value (R89: "the element's value bits are ignored"). -/
def XV.dy : XV → Dy
  | .fin s m e => ⟨if s then -(m : Int) else m, e⟩
  | _ => Dy.zero

def XV.isFin : XV → Bool
  | .fin _ _ _ => true
  | _ => false

def XV.isZero : XV → Bool
  | .fin _ m _ => m == 0
  | _ => false

/-- The sign of a value; false for NaN. -/
def XV.sgn : XV → Bool
  | .nan => false
  | .inf s => s
  | .fin s _ _ => s

def XV.negate : XV → XV
  | .nan => .nan
  | .inf s => .inf (!s)
  | .fin s m e => .fin (!s) m e

/-- An exact real as a value; zero is +0. -/
def Dy.xv (d : Dy) : XV := .fin (d.m < 0) d.m.natAbs d.e

/-- Exact sum of two values under IEEE 754: NaN and ∞ - ∞ give NaN, an exact zero sum is +0 unless both are -0 (R90). -/
def XV.add : XV → XV → XV
  | .nan, _ => .nan
  | _, .nan => .nan
  | .inf a, .inf b => if a = b then .inf a else .nan
  | .inf a, .fin _ _ _ => .inf a
  | .fin _ _ _, .inf b => .inf b
  | .fin s m e, .fin t n f =>
    if m = 0 ∧ n = 0 then .fin (s && t) 0 0
    else ((XV.fin s m e).dy.add (XV.fin t n f).dy).xv

def XV.sub (a b : XV) : XV := a.add b.negate

/-- Exact product of two values under IEEE 754; 0 × ∞ is NaN (R90, Table 4.6). -/
def XV.mul : XV → XV → XV
  | .nan, _ => .nan
  | _, .nan => .nan
  | .inf a, .inf b => .inf (a != b)
  | .inf a, .fin t n _ => if n = 0 then .nan else .inf (a != t)
  | .fin s m _, .inf b => if m = 0 then .nan else .inf (s != b)
  | .fin s m e, .fin t n f => .fin (s != t) (m * n) (e + f)

/-- Bits of quotients and roots beyond the target: the last bit is sticky, so one later rounding is the rounding of the
exact value. -/
def stickyBits : Nat := 192

/-- `p / q` for naturals as `m * 2^e` with a sticky last bit. -/
def quotSticky (p q : Nat) : Nat × Int :=
  let k := stickyBits + Nat.log2 q
  let n := p * 2 ^ k
  let d := n / q
  (2 * d + (if d * q = n then 0 else 1), -(k : Int) - 1)

/-- `sqrt(m * 2^e)` with a sticky last bit. -/
def sqrtSticky (m : Nat) (e : Int) : Nat × Int :=
  let k : Int := 2 * (stickyBits : Int) + (if e % 2 = 0 then 0 else 1)
  let n := m * pow2 k
  let r := isqrt n
  (2 * r + (if r * r = n then 0 else 1), (e - k) / 2 - 1)

/-- Quotient of two values under IEEE 754: 0/0 and ∞/∞ are NaN, x/0 is ∞ (R90). -/
def XV.div : XV → XV → XV
  | .nan, _ => .nan
  | _, .nan => .nan
  | .inf _, .inf _ => .nan
  | .inf a, .fin t _ _ => .inf (a != t)
  | .fin s _ _, .inf b => .fin (s != b) 0 0
  | .fin s m e, .fin t n f =>
    if n = 0 then (if m = 0 then .nan else .inf (s != t))
    else let (q, k) := quotSticky m n; .fin (s != t) q (e - f + k)

/-- Square root under IEEE 754: of a negative number NaN, of -0 it is -0 (R90). -/
def XV.sqrt : XV → XV
  | .nan => .nan
  | .inf s => if s then .nan else .inf false
  | .fin s m e =>
    if m = 0 then .fin s 0 0
    else if s then .nan
    else let (r, k) := sqrtSticky m e; .fin false r k

/-- A rounding mode of R96 and R97; SR carries the 16 bits that Garnet drew. -/
inductive Rnd where
  | rne
  | sr (r : Nat)
  | rtz
  deriving DecidableEq, Repr

/-- A grid of R96: floating point with its mantissa bits and the exponent of its smallest normal, or the integers. -/
inductive Grid where
  | flt (mb : Nat) (emin : Int)
  | int
  deriving DecidableEq, Repr

/-- The exponent of the grid spacing at the magnitude `m * 2^e` (R96). -/
def Grid.spacing (g : Grid) (m : Nat) (e : Int) : Int :=
  match g with
  | .int => 0
  | .flt mb emin => max ((Nat.log2 m : Int) + e) emin - mb

/-- Does the fraction `rem / 2^sh` above the grid point `lo` round up (R96, R97)? -/
def Rnd.up (r : Rnd) (lo rem sh : Nat) : Bool :=
  match r with
  | .rne => decide (2 * rem > 2 ^ sh) || (decide (2 * rem = 2 ^ sh) && lo % 2 == 1)
  | .sr d => decide (d < rem * 65536 / 2 ^ sh)
  | .rtz => false

/-- The grid point that a mode selects for the magnitude `m * 2^e`: `n * 2^sp` (R96). -/
def roundGrid (g : Grid) (r : Rnd) (m : Nat) (e : Int) : Nat × Int :=
  let sp := g.spacing m e
  if m = 0 then (0, sp)
  else if sp ≤ e then (m * pow2 (e - sp), sp)
  else
    let sh := (sp - e).toNat
    let lo := m / 2 ^ sh
    let rem := m % 2 ^ sh
    (if r.up lo rem sh then lo + 1 else lo, sp)

/-- The lower grid point `lo` of R96 for a magnitude. -/
def gridLo (g : Grid) (m : Nat) (e : Int) : Nat × Int := roundGrid g .rtz m e

/-- A floating-point format of Table 3.2. -/
structure FpFmt where
  mb : Nat
  bias : Nat
  width : Nat
  /-- magnitude code of the largest finite value -/
  maxCode : Nat
  /-- magnitude code of infinity -/
  infCode : Option Nat
  /-- magnitude codes at and above this one are NaN -/
  nanFrom : Option Nat
  /-- the canonical NaN (R83) -/
  nan : Nat
  deriving DecidableEq, Repr

def FpFmt.fp32 : FpFmt := ⟨23, 127, 32, 0x7F7FFFFF, some 0x7F800000, some 0x7F800001, 0x7FC00000⟩
def FpFmt.bf16 : FpFmt := ⟨7, 127, 16, 0x7F7F, some 0x7F80, some 0x7F81, 0x7FC0⟩
def FpFmt.f8a : FpFmt := ⟨3, 7, 8, 0x7E, none, some 0x7F, 0x7F⟩
def FpFmt.f8b : FpFmt := ⟨2, 15, 8, 0x7B, some 0x7C, some 0x7D, 0x7F⟩
def FpFmt.f4 : FpFmt := ⟨1, 1, 4, 0x7, none, none, 0⟩

def FpFmt.grid (f : FpFmt) : Grid := .flt f.mb (1 - f.bias)

/-- The value of a floating-point code (R81). -/
def FpFmt.dec (f : FpFmt) (code : Nat) : XV :=
  let s := decide (code / 2 ^ (f.width - 1) % 2 = 1)
  let mag := code % 2 ^ (f.width - 1)
  if f.infCode = some mag then .inf s
  else if (match f.nanFrom with | some k => decide (k ≤ mag) | none => false) then .nan
  else
    let ex := mag / 2 ^ f.mb
    let mn := mag % 2 ^ f.mb
    if ex = 0 then .fin s mn (1 - (f.bias : Int) - f.mb)
    else .fin s (2 ^ f.mb + mn) ((ex : Int) - f.bias - f.mb)

/-- The magnitude code of a grid point `n * 2^sp` of the format's extended grid. -/
def FpFmt.encMag (f : FpFmt) (n : Nat) (sp : Int) : Nat :=
  if n < 2 ^ f.mb then n
  else n - 2 ^ f.mb + (sp + f.mb + f.bias).toNat * 2 ^ f.mb

/-- The sign bit of a format. -/
def FpFmt.signBit (f : FpFmt) (s : Bool) : Nat := if s then 2 ^ (f.width - 1) else 0

/-- What a conversion stores and how it is counted (Table 3.8): the code, a saturation, a non-finite element. -/
structure Conv where
  code : Nat
  sat : Bool
  nonfin : Bool
  deriving DecidableEq, Repr

/-- Round a value once to FP32 or BF16: range and special values of the first row of Table 3.8. -/
def FpFmt.ieee (f : FpFmt) (r : Rnd) (x : XV) : Nat :=
  match x with
  | .nan => f.nan
  | .inf s => f.signBit s + f.infCode.getD 0
  | .fin s m e =>
    let (n, sp) := roundGrid f.grid r m e
    let c := f.encMag n sp
    f.signBit s + (if c > f.maxCode then f.infCode.getD f.maxCode else c)

/-- CONVERT to FP32 or BF16: an infinity or NaN stored is a non-finite element (R100). -/
def convIeee (f : FpFmt) (r : Rnd) (x : XV) : Conv :=
  let c := f.ieee r x
  ⟨c, false, decide (c % 2 ^ (f.width - 1) > f.maxCode)⟩

/-- CONVERT to F8A or F8B (Table 3.8). -/
def convF8 (f : FpFmt) (r : Rnd) (x : XV) : Conv :=
  match x with
  | .nan => ⟨f.nan, false, true⟩
  | .inf s =>
    match f.infCode with
    | some c => ⟨f.signBit s + c, false, true⟩
    | none => ⟨f.nan, false, true⟩
  | .fin s m e =>
    let (n, sp) := roundGrid f.grid r m e
    let c := f.encMag n sp
    if c > f.maxCode then ⟨f.signBit s + f.maxCode, true, false⟩ else ⟨f.signBit s + c, false, false⟩

/-- The code of an integer in two's complement of `w` bits. -/
def encInt (w : Nat) (i : Int) : Nat := (i % (2 ^ w : Int)).toNat

/-- The integer a two's-complement code of `w` bits stands for. -/
def decInt (w : Nat) (c : Nat) : Int := if c % 2 ^ w ≥ 2 ^ (w - 1) then (c % 2 ^ w : Int) - 2 ^ w else (c % 2 ^ w : Nat)

/-- The integer grid point a mode selects for a finite value (R96). -/
def roundInt (r : Rnd) (s : Bool) (m : Nat) (e : Int) : Int :=
  let n := (roundGrid .int r m e).1
  if s then -(n : Int) else n

/-- CONVERT to I8 (Table 3.8). -/
def convI8 (r : Rnd) (x : XV) : Conv :=
  match x with
  | .nan => ⟨0, true, false⟩
  | .inf s => ⟨if s then 0x80 else 0x7F, true, false⟩
  | .fin s m e =>
    let i := roundInt r s m e
    if i > 127 then ⟨0x7F, true, false⟩ else if i < -128 then ⟨0x80, true, false⟩ else ⟨encInt 8 i, false, false⟩

/-- Resolution of a value to U8 after a zero point is added (last row of Table 3.8). -/
def convU8 (r : Rnd) (zp : Nat) (x : XV) : Conv :=
  match x with
  | .nan => ⟨0, true, false⟩
  | .inf s => ⟨if s then 0 else 255, true, false⟩
  | .fin s m e =>
    let i := roundInt r s m e + zp
    if i > 255 then ⟨255, true, false⟩ else if i < 0 then ⟨0, true, false⟩ else ⟨i.toNat, false, false⟩

/-! ### FP32 values as words -/

/-- The value of an FP32 word. -/
def f32 (w : Word) : XV := FpFmt.fp32.dec w.toNat

/-- A value rounded once to FP32 under RNE (R54, R90). -/
def toF32 (x : XV) : Word := BitVec.ofNat 32 (FpFmt.fp32.ieee .rne x)

/-- A value rounded once to FP32 under a mode. -/
def toF32R (r : Rnd) (x : XV) : Word := BitVec.ofNat 32 (FpFmt.fp32.ieee r x)

def f32add (a b : Word) : Word := toF32 ((f32 a).add (f32 b))
def f32sub (a b : Word) : Word := toF32 ((f32 a).sub (f32 b))
def f32mul (a b : Word) : Word := toF32 ((f32 a).mul (f32 b))
def f32div (a b : Word) : Word := toF32 ((f32 a).div (f32 b))
def f32sqrt (a : Word) : Word := toF32 (f32 a).sqrt

/-- Reciprocal square root: 1/±0 is ±∞, of a negative number NaN, correctly rounded (R54). -/
def XV.rsqrt : XV → XV
  | .nan => .nan
  | .inf s => if s then .nan else .fin false 0 0
  | .fin s m e =>
    if m = 0 then .inf s
    else if s then .nan
    else
      -- 1 / (m * 2^e): the root of 2^(2k) / m with a sticky bit, where e + 2k' keeps the exponent even
      let k := stickyBits + Nat.log2 m
      let odd := e % 2 ≠ 0
      let n := 2 ^ (2 * k + if odd then 1 else 0)
      let r := isqrt (n / m)
      .fin false (2 * r + (if r * r * m = n then 0 else 1)) (-((e + (if odd then 1 else 0)) / 2) - k - 1)

/-- Exact order of two FP32 values; false with a NaN. -/
def XV.lt : XV → XV → Bool
  | .nan, _ => false
  | _, .nan => false
  | .inf a, .inf b => a && !b
  | .inf a, .fin _ _ _ => a
  | .fin _ _ _, .inf b => !b
  | .fin s m e, .fin t n f => (XV.fin s m e).dy.lt (XV.fin t n f).dy

def f32lt (a b : Word) : Bool := (f32 a).lt (f32 b)

/-- The larger of two FP32 values: a NaN propagates, and the maximum of -0 and +0 is +0 (R55, R56). -/
def f32max (a b : Word) : Word :=
  match f32 a, f32 b with
  | .nan, _ => 0x7FC00000
  | _, .nan => 0x7FC00000
  | x, y => if x.lt y then b else if y.lt x then a else if x.sgn then b else a

/-- The smaller of two FP32 values; the minimum of -0 and +0 is -0. -/
def f32min (a b : Word) : Word :=
  match f32 a, f32 b with
  | .nan, _ => 0x7FC00000
  | _, .nan => 0x7FC00000
  | x, y => if x.lt y then a else if y.lt x then b else if x.sgn then a else b

def f32neg (a : Word) : Word := if (f32 a) = .nan then 0x7FC00000 else a ^^^ 0x80000000
def f32abs (a : Word) : Word := if (f32 a) = .nan then 0x7FC00000 else a &&& 0x7FFFFFFF

/-- A natural number as FP32, rounded once. -/
def f32ofNat (n : Nat) : Word := toF32 (.fin false n 0)

def f32isFin (a : Word) : Bool := (f32 a).isFin
def f32isZero (a : Word) : Bool := (f32 a).isZero

/-- +0, 1 and the canonical NaN as FP32 words. -/
def f32zero : Word := 0
def f32one : Word := 0x3F800000
def f32nan : Word := 0x7FC00000
def f32inf : Word := 0x7F800000
def f32ninf : Word := 0xFF800000

/-- The exact mean of exact values, rounded once (R242); +0 for none. -/
def meanDy (sum : Dy) (n : Nat) : XV := if n = 0 then .fin false 0 0 else sum.xv.div (.fin false n 0)

/-- The square root of `sum / n`, rounded once at its use (R155, R242). -/
def rmsDy (sum : Dy) (n : Nat) : XV :=
  if n = 0 then .fin false 0 0
  else
    let (q, k) := quotSticky (sum.m.natAbs * 2 ^ (2 * stickyBits)) n
    (XV.fin false q (sum.e + k - 2 * stickyBits)).sqrt

end Sys2Proof.Machine
end

