-- ==== Sys2Proof/Config.lean ====
section
/-!
DEFINITION. What an implementation fixes and the spec does not state, as constants without a body: nothing can be proved
of their values. Each is named in the assumption log.
-/
namespace Sys2Proof.Config

/-- A free value, applied to the counter of free values that State holds (log 5). -/
opaque freeNat : Nat → Nat

/-- The serial number in fuses (Table 15.2; log 6). -/
opaque serial : Quad

/-- V_q(k), the fused core voltage of quarter q at cadence code k, in tenths of a millivolt (R311; log 11). -/
opaque coreVolt : Nat → Nat → Nat

/-- The fused count that path monitor m of a tower needs at cadence code k (R330; log 11). -/
opaque monitorNeed : Nat → Nat → Nat → Nat

/-- The fused weight of activity count i at cadence code k, in microwatts for one count in a period (R316; log 11). -/
opaque activityWeight : Nat → Nat → Nat

/-- The static power of rail r, in milliwatts, from its voltage and its hottest junction (R316; log 11). -/
opaque staticPower : Nat → Nat → Int → Nat

/-- Spare rows and columns that factory hard repair has used in a bank (R306; log 11). -/
opaque hardRows : Nat → Nat → Nat
opaque hardCols : Nat → Nat → Nat

/-- SHA-512 of the ROM (R378; log 18). -/
opaque romDigest : List Byte

/-- The Wydric manufacturing key and the Wydric extension key held in ROM (R404, R408; log 18). -/
opaque wydricModulus : Nat
opaque extensionModulus : Nat

/-- The owner key hash of the identity that a delivered module holds (R405; log 6). -/
opaque deliveredOwner : List Byte

/-- The 256-bit fuse secret of that identity (R405; log 6). -/
opaque deliveredSecret : List Byte

/-- A secret that the true random number generator gives for an identity slot, and the salt of a signature, from the counter of free
values (R405, R408; log 18). -/
opaque fuseSecret : Nat → List Byte
opaque pssSalt : Nat → List Byte

/-- The bases of the Miller-Rabin rounds in the derivation of the identity key (R409; log 18). -/
opaque primeBase : Nat → Nat

/-- What the key exchange and IDE_KM give a session and an IDE stream (R412, R413; log 19). -/
opaque sessionSecret : List Byte → Nat → List Byte

/-- The transcript that an SPDM signature covers (R408, R412; log 19). -/
opaque spdmTranscript : List Byte → Nat → List Byte

/-- What a SEC-DED word with more than two wrong bits decodes to: 0 no error, 1 corrected, 2 uncorrectable (R297; log 82). -/
opaque secded : List Nat → Nat

/-- Spare rows that factory hard repair has used on an Onyx die of a bank (R306; log 11). -/
opaque hardOnyx : Nat → Nat → Nat → Nat

/-- A byte of a codeword that a write covers and its writer does not give (R282; log 83). -/
opaque padByte : Nat → Nat → Byte

/-- The answer of SPDM 1.2, of IDE_KM and of CDAT where outside standards fix the bytes (R412, R413, R341; log 19). -/
opaque doeAnswer : List Byte → Nat → List Byte

/-- The column of the I/O port through which an access from the I/O die reaches an address (R12; log 86). -/
opaque ioColumn : Nat → Nat

/-- TILE storage: a key of each position, for the outer and inner tile extents, whose order is the storage order (R46; log 13). -/
opaque tilePos : Nat → Nat → List Nat → Nat → Nat

/-- The rows and columns of an output tile and the number of its parts by spans, less one, by record and phase; and the tower of an item
from the towers' sums of the micro-batch before, its record, tile, part and micro-batch (R27, R28, R38; log 9). -/
opaque tileRows : Nat → Nat → Nat
opaque tileCols : Nat → Nat → Nat
opaque spanParts : Nat → Nat → Nat
opaque tileTower : List (List Quad) → Nat → Nat → Nat → Nat → Nat

/-- Does the placer put to sleep a tower that a step has left unused (R28; log 56)? -/
opaque sleepUnused : Nat → Bool

/-- The fields that a member records in the FALLBACK event of a repeat whose condition another member found: cause, descriptor, role,
measured value (R175; log 30). -/
opaque peerCond : Nat → Nat × Nat × Nat × Nat

/-- The choice among the free places for an allocation (R72; log 10). -/
opaque placeChoice : Nat → Nat

/-- A sum whose order the spec does not give (log 15), over the words summed. -/
opaque openSum : List Word → Word

/-- A derivative at a point where the spec states none (log 16): function code, operand bits. -/
opaque openDeriv : Nat → Word → Word

/-- The functions x / (1 + e^(-x)) and x · (1 + erf(x/√2)) / 2 at -∞, where the spec states neither NaN nor the limit (log 16). -/
opaque openFunc : Nat → Word

/-- Does ROUTE rank a NaN logit above every number (R68; log 65)? -/
opaque nanLogitFirst : Bool

/-- The contents of a layer that an update fault left undefined (R228; log 31): the words of its data, and a counter. -/
opaque undefinedWord : Nat → Nat → Word

end Sys2Proof.Config
end

