-- ==== Sys2Proof/Machine/State.lean ====
section
/-!
DEFINITION. The state of the block: everything that INVENTORY.md lists under its State heading, as plain data; the faults
and refusals; and the state right after power-good, at the start of phase 1 (R416).
-/
namespace Sys2Proof.Machine

open Sys2Proof

/-- Why the block would stop with a fault. Nothing in the spec stops the block. -/
inductive Fault where
  /-- Raised by no meaning: the spec has no event that stops the block for good. Safe: no claim rests on it. -/
  | halted
  deriving DecidableEq, Repr

/-- Why a command has no meaning. -/
inductive Refusal where
  /-- Raised by an arm of `exec` whose command has no meaning yet. Safe: the machine stops where the hardware goes on. -/
  | notModelled (mnemonic : String)
  deriving DecidableEq, Repr

/-- A canonical memory: addresses strictly rising, no entry zero; an unlisted address reads zero (R283, R417; log 1). -/
abbrev Memory := List Host.Cell

/-- A 64-bit counter with its shadow (R344). -/
structure Ctr where
  v : Quad
  shadow : Word
  deriving DecidableEq, Repr

/-- One mailbox (Table 13.4). -/
structure Mailbox where
  irqEn : Bool
  code : Half
  own : Bool
  done : Bool
  clobber : Bool
  opcode : Half
  len : Nat
  tag : Word
  payload : Memory
  deriving DecidableEq, Repr

/-- An event record (Table 13.7). -/
structure EvRec where
  seq : Word
  code : Nat
  lost : Bool
  early : Bool
  slot : Nat
  time : Quad
  step : Quad
  source : Nat
  body : List Byte
  deriving DecidableEq, Repr

/-- The event log (Table 13.6, R355 to R358). -/
structure EvtLog where
  base : Quad
  log2 : Nat
  en : Bool
  intEn : Bool
  head : Word
  tail : Word
  lostCount : Word
  badBase : Bool
  badTail : Bool
  earlyLost : Bool
  /-- the early buffer of 256 records, oldest first -/
  early : List EvRec
  /-- records that wait for their ring write, oldest first (R290) -/
  ring : List EvRec
  seq : Word
  /-- the next record written to the ring carries LOST (R357) -/
  lostNext : Bool
  /-- the next record made carries LOST: the early buffer has dropped records (R356) -/
  lostTail : Bool
  /-- a vector-4 message is outstanding (R358) -/
  out4 : Bool
  deriving DecidableEq, Repr

/-- One MSI-X table entry. -/
structure MsixEnt where
  addr : Quad
  data : Word
  masked : Bool
  deriving DecidableEq, Repr

/-- Interrupts (Table 15.3, R354). -/
structure Ints where
  raised : BitVec 10
  enabled : Bool
  fmask : Bool
  table : List MsixEnt
  pending : BitVec 16
  deriving DecidableEq, Repr

/-- Power, start-up and pins (Table 17.1, Table 18.2). -/
structure Power where
  powered : Bool
  perstLow : Bool
  tripped : Bool
  linkUp : Bool
  phase : Nat
  ready : Bool
  halted : Bool
  berylStop : Bool
  time : Ctr
  ioSramBad : Bool
  /-- the HDM decoder of BAR2: base of the host's window and its size, once programmed (R337) -/
  hdm : Option (Nat × Nat)
  smbAlert : BitVec 5
  smbAlertEn : BitVec 5
  /-- the rate in GT/s and the width in lanes that the port's link has trained to (Table 13.1) -/
  rate : Nat
  width : Nat
  deriving DecidableEq, Repr

/-- One slot of the fuse ledger that has been used (Table 16.5): its argument (state code, ceiling, tower), the identity
slot it pairs with, of an identity slot the 256-bit secret and the owner hash, and whether it holds a value in force. -/
structure FuseSlot where
  arg : Nat
  pair : Option Nat
  secret : List Byte
  hash : List Byte
  committed : Bool
  deriving DecidableEq, Repr

/-- The fuse ledger; it survives every reset (R399, R405). -/
structure Fuses where
  life : List FuseSlot
  ident : List FuseSlot
  ceil : List FuseSlot
  tower : List FuseSlot
  deriving DecidableEq, Repr

/-- The state of an IDE stream (R410, R413). -/
inductive IdeState where
  | off | secure | insecure
  deriving DecidableEq, Repr

/-- The RSA identity key pair (R409). -/
structure KeyPair where
  modulus : Nat
  secret : Nat
  deriving DecidableEq, Repr

/-- Keep, tamper and refusal trace (Table 15.5, Table 13.6), SPDM sessions and IDE streams. The Keep's 1 MiB holds the identity key, a
secret for each session and the keys of the IDE streams; a wipe leaves none of them (R410). -/
structure Keep where
  state : Nat
  advanced : Bool
  tamper : BitVec 3
  live : BitVec 3
  /-- inputs that have fired and not gone inactive since (R396) -/
  fired : BitVec 3
  armed : Bool
  wipes : Word
  identity : Option KeyPair
  sessions : List (Nat × List Byte)
  ideKeys : List (List Byte)
  /-- CXL.io toward the module, toward the host; CXL.cachemem toward the module, toward the host -/
  ide : List IdeState
  violCount : Word
  violAddr : BitVec 26
  deriving DecidableEq, Repr

/-- A cause of CADENCE_HOLD with its HOLD_MAX (Table 12.5). -/
structure HoldCause where
  cause : Nat
  max : Nat
  /-- the cause has cleared, and HOLD waits for the cadence (R328) -/
  cleared : Bool
  deriving DecidableEq, Repr

/-- Belfry (Table 12.6 and chapter 12). -/
structure Belfry where
  cap : Nat
  /-- the cap in force since the last fast-loop period (R312) -/
  capEff : Nat
  coolant : Nat
  thermalCap : Nat
  clamp : Bool
  bubble : Nat
  supplyFloor : Bool
  thermalFloor : Bool
  cadence : Nat
  ramping : Bool
  rampTarget : Nat
  /-- an upward ramp waits for the regulators (R324) -/
  settling : Bool
  /-- droop windows were reported in the period now ending -/
  droopSeen : Bool
  /-- the pending cadence of R274 with its effective step -/
  pending : Option (Nat × Quad)
  /-- number of the last accepted step -/
  lastStep : Option Quad
  holds : List HoldCause
  /-- consecutive periods with b = 60 and the power above C_eff, and with b at or below 32 (Table 12.5) -/
  fullPeriods : Nat
  lowPeriods : Nat
  deriving DecidableEq, Repr

/-- Belfry's measurements, estimate and counters (Table 12.6, R310, R316, R319). Powers in milliwatts. -/
structure Measure where
  est : Nat
  raw : Nat
  twr : Nat
  meas : Nat
  /-- sums over the current 1 ms, with their numbers of samples -/
  rawSum : Nat
  rawN : Nat
  measSum : Nat
  measN : Nat
  /-- the 1 ms means of P_meas of the last 10 s, newest first -/
  window : List Nat
  /-- the correction c as a fraction -/
  cNum : Nat
  cDen : Nat
  divergent : Nat
  measOnly : Bool
  vin : Nat
  /-- input voltage and current of the four bus converters; voltage and current of the four core rails, the twelve stack rails and
  the I/O rail (Table 12.1) -/
  converters : List Reading
  rails : List Reading
  /-- energy in picojoules below one millijoule -/
  energyRem : Nat
  energy : Ctr
  droopWin : Ctr
  rampPause : Word
  supplyWarn : Word
  /-- reports of the current period, by unit, and droop windows reported in it -/
  reports : List (Nat × Activity)
  droopCount : Nat
  deriving DecidableEq, Repr

/-- Thermal and ageing state (R322, R331). -/
structure Thermal where
  temp : Int
  unit : Nat
  /-- the hottest junction on each rail: four core, twelve stack, one I/O (R316) -/
  rails : List Int
  above95 : Bool
  /-- a junction is at or above 100, 1 ms steps fall; every junction at or below 97, 1 ms steps rise -/
  falling : Bool
  rising : Bool
  trim : List Nat
  setpoint : List Nat
  /-- consecutive short readings per quarter -/
  short : List Nat
  /-- droop thresholds per quarter (R320), in tenths of a millivolt as the set-points -/
  droopAt : List Nat
  deriving DecidableEq, Repr

/-- A request of a Jasper sub-stream (R185, R198): the sub-stream (0 DATA, 1 SCALE, 2 OUTLIER, 3 SUMS, 4 INDEX1, 5 INDEX2), the
address and bytes of a direct request, the pieces of a far-end request in list order, the logical block index of its first block,
the index entry that drives it or its own first entry, the greatest entry, and the first-level entry that it needs. -/
structure Req where
  sub : Nat
  addr : Nat
  len : Nat
  pieces : List (Nat × Nat)
  block : Nat
  entry : Nat
  last : Nat
  need : Nat
  deriving DecidableEq, Repr

/-- A request on its way: its landing slot, the epoch that it carries and the stack echoes (R427), and the reserved and the shared
credits that it holds (R187, R189). -/
structure OutReq where
  req : Req
  slot : Nat
  epoch : Word
  reserved : Nat
  shared : Nat
  deriving DecidableEq, Repr

/-- What the packer hands to a spire next (R150, R189, R202): a scaled burst of one fibre within one span, or for a format without
bursts the span's share of a fibre with no bytes; SEQ of its first block and the number of its blocks; and the units of 64 bytes of
each sub-stream that must have landed. -/
structure Burst where
  fibre : Nat
  span : Nat
  seq : Nat
  blocks : Nat
  bytes : List Byte
  needs : List (Nat × Nat)
  deriving DecidableEq, Repr

/-- A Jasper stream (R184 to R187): its number in the tower, its kind (Table 7.2, 0 DENSE to 5 WRITE), its descriptor, the item
it serves, requests still to issue and on their way, the landing buffer as (sub-stream, unit of 64 bytes), the bursts still to be
packed, the SEQ that the next burst of each fibre must have, the run-ahead distance and the span slice in bytes (Table 7.3), and the
first index entry that breaks an order condition (R196). -/
structure Stream where
  num : Nat
  kind : Nat
  desc : Nat
  item : Nat
  todo : List Req
  sent : List OutReq
  landed : List (Nat × Nat)
  bursts : List Burst
  expect : List (Nat × Nat)
  dist : Nat
  slice : Nat
  breach : Option Nat
  halted : Bool
  deriving DecidableEq, Repr

/-- One of the two sets of span accumulators of a spire's array as an item fills it (R15, Tables 4.3 and 4.4): the spire, the item's number,
the span, the anchors, the sums with their lanes, the shed count; handed to the fold while the other set fills. -/
structure SpanSet where
  spire : Nat
  item : Nat
  span : Nat
  anchors : List (Option Int)
  sums : List XV
  shed : Nat
  folding : Bool
  deriving DecidableEq, Repr

/-- A started work item with its number in the tower, the valid rows and columns of its tile header (R197), the cells that fuse
to a multiplier for it (R16; 0 when it does not use the forward array), the span that it starts next, and the anchors of that span once
Jasper has delivered them (R200); the spire that it runs on, and whether its output tile stands, folded to its last span (R31). -/
structure Started where
  num : Nat
  item : Item
  spire : Nat
  formed : Bool
  rows : Nat
  cols : Nat
  fuse : Nat
  span : Nat
  anchors : Option (List (Option Int))
  deriving DecidableEq, Repr

/-- What a tower sends (R18): plane, destination, bytes, and the stream and landing slot of a Jasper request. -/
structure Send where
  plane : Bool
  dst : Node
  bytes : Nat
  tag : Option (Nat × Nat)
  deriving DecidableEq, Repr

/-- The counters of one tower (Tables 1.8, 7.8). -/
structure TowerCtrs where
  cycles : Ctr
  issued : Ctr
  pwrBub : Ctr
  droopBub : Ctr
  starved : Ctr
  idle : Ctr
  fwdCells : Ctr
  bwdCells : Ctr
  fwdRem : Nat
  bwdRem : Nat
  stealIn : Word
  stealOut : Word
  staleDrop : Word
  freeze : Bool
  deriving DecidableEq, Repr

/-- The Jasper counters of one tower (Table 7.8). -/
structure JspCtrs where
  rdBytes : Ctr
  wrBytes : Ctr
  farReq : Word
  farPieces : Word
  nullIdx : Word
  outstPeak : Nat
  creditStall : Ctr
  skew : Word
  freeze : Bool
  deriving DecidableEq, Repr

/-- One tower. -/
structure Tower where
  state : Nat
  routerFault : Bool
  admitted : Bool
  epoch : Word
  tj : BitVec 8
  droopWin : Ctr
  /-- tracker entries held: program slot and layer (R160) -/
  entries : List (Nat × Nat)
  ctrs : TowerCtrs
  jsp : JspCtrs
  /-- not-started items, head first (R27) -/
  queue : List Item
  started : List Started
  nextNum : Nat
  streams : List Stream
  /-- the number of the stream last served by the shared credits (R187) -/
  lastServed : Nat
  /-- b at this tower, its place in the 64-cycle frame, cycles of droop windows still to run, a window is open, windows
  started since the last report (R318, R320) -/
  bubble : Nat
  frame : Nat
  droopLeft : Nat
  droopOn : Bool
  droopNew : Nat
  /-- cycles reported and cycles of droop windows, by 1 ms, newest first; the first is still growing (Table 12.5) -/
  droopHist : List (Nat × Nat)
  /-- transfers in the inbound ring and, oldest first, those that wait in the router (R18) -/
  inbound : List MeshTx
  waiting : List MeshTx
  /-- the router's input port served last on the request plane and on the data plane (R25): 0 the tower, 1 west, 2 east, 3 south,
  4 north, 5 a stack, 6 the I/O die -/
  served : Nat × Nat
  /-- transfers in the outbound ring, oldest first (R18) -/
  outbound : List Send
  /-- the sets of span accumulators in use, of the forward and of the backward arrays: two to an array of a spire (R15) -/
  fwdSets : List SpanSet
  bwdSets : List SpanSet
  /-- since the last report a spire has held an item whose operands were not there; a stream has had a request ready and no credit
  (R203, Table 7.8) -/
  starved : Bool
  noCredit : Bool
  /-- forward cell products, backward cell products and vector operations issued since the last report (R35) -/
  fwdWork : Nat
  bwdWork : Nat
  vecWork : Nat
  /-- the cadence code that the tower's own clock has reached (R21) -/
  clock : Nat
  /-- an item of the step has been placed on it (R28) -/
  used : Bool
  /-- a steal exchange (R29): candidates still to try once it has begun, a request awaits its reply, the reply in flight with the
  victim that gives it -/
  candidates : Option (List Nat)
  stealing : Bool
  reply : Option (Nat × List Item)
  /-- writes of TWR_UTIL_CTRL.FREEZE and JSP_CTRL.FREEZE that act when the tower returns (R347) -/
  heldUtil : Option Bool
  heldJsp : Option Bool
  deriving DecidableEq, Repr

/-- A die-erasure register (Table 11.9). -/
structure Erase where
  die : Nat
  valid : Bool
  deriving DecidableEq, Repr

/-- A retired bank. -/
structure Bank where
  stack : Nat
  channel : Nat
  bank : Nat
  deriving DecidableEq, Repr

/-- Bytes of a write that waits: for a back-invalidation response (R338), or as a queued write-back (R286); and the mailbox of the
command that writes them, 4 when none does. -/
structure WaitWrite where
  addr : Nat
  bytes : List Byte
  owner : Nat
  deriving DecidableEq, Repr

/-- One Onyx stack's background state: write-backs queued as stack beat addresses, background bytes of the window, scrub
position and passes completed (R286, R289, R290). -/
structure Stack where
  writeBacks : List WaitWrite
  bg : Nat
  scrubPos : Nat
  passes : Nat
  deriving DecidableEq, Repr

/-- Onyx memory and integrity (Table 11.9, chapter 11). -/
structure Mem where
  cells : Memory
  erase : List Erase
  threshold : Nat
  leakS : Nat
  /-- bucket counters by bank number (stack × 1024 + channel × 32 + bank), zeros unlisted -/
  buckets : Memory
  scrubH : Nat
  scrubOn : Bool
  passes : Half
  ce : Ctr
  ue : Word
  ovf : Word
  lastOvf : Bank
  retiredHit : Word
  bgBytes : Ctr
  sramCe : Word
  sramUe : Word
  pages : List Nat
  banks : List Bank
  /-- soft repairs: failing bits replaced by spares, with 1 row or 2 column -/
  repairs : List (MarchFail × Nat)
  onyx : List Stack
  /-- lines the host may hold, oldest first -/
  snoop : List Nat
  waiting : List WaitWrite
  /-- the mailbox whose command Beryl is running, 4 when none (R338) -/
  writer : Nat
  /-- groups of four regions set to affinity (R193), with the program slot they serve -/
  affine : List (Nat × Nat)
  /-- beats of statistics records that wait in the I/O die for their background writes, oldest first (R157, R290) -/
  telemetry : List WaitWrite
  deriving DecidableEq, Repr

/-- One Ovmen link (R257, Table 14.18). -/
structure Link where
  state : Nat
  lanes : Nat
  replays : Word
  relay : Option Nat
  beacon : Option Beacon
  /-- time of receipt of the beacon -/
  seenAt : Quad
  dropped : Word
  mismatch : Bool
  /-- LINK_DOWN has been recorded and the link has not come up since (R257) -/
  down : Bool
  /-- the pair of slot and board of a disagreeing beacon that TOPOLOGY_MISMATCH has named (R261) -/
  named : Option (Nat × Nat × Nat)
  /-- while the link is down: this module's links to board-mates whose links to its far end are in service (R257) -/
  mates : List Nat
  deriving DecidableEq, Repr

/-- Topology and links. -/
structure Fabric where
  topo : Option Topology
  links : List Link
  fabricDrops : Word
  /-- ranks whose landing slot for this module is waiting for a credit -/
  noCredit : List Nat
  /-- ranks to which a failed write was resent once (R278) -/
  resent : List Nat
  /-- messages whose data writes to another board await their completions, by rank, and those that wait for the slot (R267) -/
  writing : List (Nat × Message)
  outbox : List (Nat × Message)
  deriving DecidableEq, Repr

/-- A device-memory allocation of firmware (R72): of a program (0), a plan's reservation (1), optimiser state (2) or its
directory (3). -/
structure Alloc where
  kind : Nat
  addr : Nat
  len : Nat
  deriving DecidableEq, Repr

/-- A forward copy of a weight (R251), the newest listed first: its format, which of the two areas holds it (R176), and the statistics of R252. Its
codes, scales, outlier slots, group sums and channel entries lie in device memory. -/
structure FwdCopy where
  desc : Nat
  fmt : Fmt
  area : Nat
  stats : Stats
  deriving DecidableEq, Repr

/-- One program slot (R45). -/
structure Slot where
  prog : Option Program
  allocs : List Alloc
  statsAddr : Nat
  statsSet : Nat
  csetDir : Nat
  /-- where the firmware tensors of the program lie, and those of the plan's reservation (R72, R176) -/
  pool : Nat
  reserve : Nat
  /-- channel sets the host fills: set number, address, channels -/
  csets : List (Nat × Nat × Nat)
  plan : Option Plan
  trackers : List Tracker
  widenLeft : Nat
  stormChain : Bool
  /-- halted under R180; halted under R228 -/
  stormHalt : Bool
  faultHalt : Bool
  /-- STEP of the last COMMIT (R369) -/
  commitStep : Option Quad
  coeff : Option CoeffTable
  opt : List OptState
  eta : Option Word
  t : Nat
  versions : List Word
  copies : List FwdCopy
  hints : List Hint
  /-- a PLACE_HINT has come since the last RUN_STEP (R194) -/
  rebind : Bool
  /-- tensors that lie in an affine region: descriptor, half and address (R194) -/
  moved : List (Nat × Nat × Nat)
  lastStep : Option Quad
  /-- layers to requantize before their first run (R424, R173) -/
  stale : List Nat
  deriving DecidableEq, Repr

/-- A tensor that a record has written for one micro-batch of a step: it lies in device memory in this format. The outputs of a
SEQ_RING, which are the shards of every member (R263), stand here themselves. -/
structure Held where
  desc : Nat
  mb : Nat
  fmt : Fmt
  ring : Option Tensor
  /-- the shards that have come into device memory (R264, R266) -/
  shards : List Nat
  deriving DecidableEq, Repr

/-- What one input of one record gives to the gradient of a tensor for one micro-batch, in FP32 words (R73, R215). -/
structure Grad where
  desc : Nat
  mb : Nat
  record : Nat
  input : Nat
  words : List Word
  deriving DecidableEq, Repr

/-- The step gradient of one weight with the micro-batches added (R215), and whether REDUCE has delivered it. -/
structure StepGrad where
  desc : Nat
  words : List Word
  added : Nat
  reduced : Bool
  deriving DecidableEq, Repr

/-- A row of an attention record kept for the backward pass: the log-sum-exp words by (token, head) (R124). -/
structure KeptLse where
  record : Nat
  mb : Nat
  words : List Word
  deriving DecidableEq, Repr

/-- What a record of a layer operation noted until the operation completes (R59, R80, R115): an event code, the record, and
its fields in order of position. -/
structure Note where
  code : Nat
  layer : Nat
  mb : Nat
  phase : Nat
  desc : Nat
  pos : List Nat
  deriving DecidableEq, Repr

/-- One row of the micro-batch table (R51). -/
structure MicroBatch where
  base : Nat
  vars : List Nat
  deriving DecidableEq, Repr

/-- The progress of one layer operation (R33): items retired per record, attempts, stopped. -/
structure LayerProg where
  op : LayerOp
  /-- its first record has begun, with the rungs that it runs in (R33, R174) -/
  begun : Bool
  rf : Nat
  rg : Nat
  /-- completed and judged -/
  done : Bool
  /-- a repeat is wanted: 0 none, 1 after a skew or an SRAM error, 2 a fallback -/
  want : Nat
  /-- Beryl's stop has reached the towers -/
  stopped : Bool
  /-- the one allowance of R299 is spent for this attempt -/
  retried : Bool
  /-- a fallback repeat produced its results -/
  repeated : Bool
  deriving DecidableEq, Repr

/-- The span result of a tile as the fold takes it: the span, the tower that formed it, the values and the products shed. -/
structure SpanResult where
  span : Nat
  tower : Nat
  vals : List XV
  shed : Nat
  deriving DecidableEq, Repr

/-- The fold of one output tile (R31): the tile, what it is a tile of (0 the output, 1 dA, 2 dB of a product), its first row and column with its
valid rows and columns, its spans, the tower that holds the lowest span once that has started, the next span to fold, the results that
wait for an earlier span, the words folded so far (of a product), and the products shed. -/
structure TileFold where
  tile : Nat
  form : Nat
  row : Nat
  col : Nat
  rows : Nat
  cols : Nat
  spans : Nat
  owner : Option Nat
  next : Nat
  waiting : List SpanResult
  acc : List Word
  shed : Nat
  deriving DecidableEq, Repr

/-- Progress of one record for one micro-batch: phase 0 FWD, 1 BWD input gradients, 2 BWD deferred weight gradients
(R211). Items placed, retired, and whether its outputs are complete. -/
structure RecProg where
  record : Nat
  mb : Nat
  phase : Nat
  placed : Nat
  retired : Nat
  folds : List TileFold
  done : Bool
  deriving DecidableEq, Repr

/-- What a collective serves: a record in a phase of a micro-batch (0 FWD, 1 BWD, 2 the partials of dA over split columns, R126), its
statistics, the step gradient of a weight, or the sums of its update. -/
inductive CollUse where
  | record (r mb phase : Nat)
  /-- the statistics of a record that several modules form (R156) -/
  | stats (r mb phase : Nat)
  | weight (desc : Nat)
  /-- exact partial sums of a split weight's update (R246): 0 rows and columns, 1 the sum of r, 2 the squares of u -/
  | sums (desc k : Nat)
  deriving DecidableEq, Repr

/-- One collective of the step that this module has joined (R269 to R273): its kind (Table 10.5; 6 is the sum of returning
ring partials), the bytes it contributes, the chunks received as (rank, chunk, bytes), the chunks sent as (rank, chunk), ranks
treated as failed, and whether this module takes part with FAIL set (R224). -/
structure Coll where
  seq : Nat
  kind : Nat
  group : Nat
  use : CollUse
  mine : List Byte
  parts : List (Nat × Nat × List Byte)
  sent : List (Nat × Nat)
  failed : List Nat
  fail : Bool
  done : Bool
  deriving DecidableEq, Repr

/-- The failure of a step (R224). -/
inductive StepEnd where
  | running
  | failed (status : Nat)
  deriving DecidableEq, Repr

/-- What the precision rules keep of one layer through a step (R165 to R180). -/
structure LayerRung where
  rf : Nat
  rg : Nat
  startF : Nat
  startG : Nat
  /-- a FALLBACK event other than AT_TOP has been recorded (R175) -/
  fell : Bool
  /-- a norm jump of a role of the forward index, of the gradient index (R168) -/
  jumpF : Bool
  jumpG : Bool
  /-- the weight copies have been judged before the first run (cause 6) -/
  begun : Bool
  deriving DecidableEq, Repr

/-- The stage of a step. -/
inductive Stage where
  | barrier | running | reduce | updating | committing
  deriving DecidableEq, Repr

/-- A step in flight (R206 to R229). -/
structure Step where
  slot : Nat
  number : Quad
  seed : Quad
  eta : Word
  abortNonfin : Bool
  /-- T of a SET_T that waits for the step before this one to store its own t (R222) -/
  setT : Option Nat
  mbs : List MicroBatch
  /-- the hints in force at acceptance (R74) -/
  hints : List Hint
  mbx : Nat
  /-- ID_TIME at acceptance and at FWD(0) -/
  accepted : Quad
  stage : Stage
  cadence : Nat
  /-- peers left out of the cadence comparison (R276); fresh-beacon wait has ended -/
  waitOver : Bool
  /-- the check of R276 has passed -/
  checked : Bool
  ended : StepEnd
  rungs : List LayerRung
  held : List Held
  grads : List Grad
  sums : List StepGrad
  lse : List KeptLse
  notes : List Note
  stats : List StatEnt
  layers : List LayerProg
  recs : List RecProg
  /-- items placed that no queue of 256 entries had room for -/
  backlog : List Item
  losses : List (Option Word)
  /-- the eight tower sums of the micro-batch before, by quarter, and the sums when it began (R28, R38) -/
  loads : List (List Quad)
  loadsAt : List (List Quad)
  /-- micro-batches whose LOSS has completed, whose BWD has retired -/
  lossDone : List Nat
  retired : List Nat
  fwdBegun : Nat
  /-- R220, first cause: cause code, layer, micro-batch -/
  nonfin : Option (Nat × Nat × Nat)
  fallbacks : Nat
  rungChanges : Nat
  normJumps : Nat
  stormNow : Bool
  /-- at least one layer runs cold (Table 15.4) -/
  cold : Bool
  colls : List Coll
  /-- the closing exchange (R272): records received, as (rank, chunk, record), and records sent, as (rank, chunk, with FAIL set); its chunks
  are 0 for a module's record, 1 for a board's, 2 for the combined one (log 27) -/
  closing : List (Nat × Nat × ClosingRec)
  closed : List (Nat × Nat × Bool)
  /-- ranks silent when the closing exchange timed out -/
  silent : List Nat
  timedOut : Bool
  combined : Option ClosingRec
  /-- the decision: update or not, status -/
  decided : Option (Bool × Nat)
  /-- update progress: layer, passes done, weights done; committed layers -/
  updBegun : List (Nat × Nat)
  updDone : List Nat
  /-- layers found singular (R247); the layers that an uncorrectable error stopped (R228) -/
  singular : List Nat
  updFault : List Nat
  /-- rungs agreed for the next step, by layer (R169); the clean counts that COMMIT stores -/
  nextRungs : List (Nat × Nat)
  cleans : List (Nat × Nat)
  /-- every eligible layer fell back in this step (R178) -/
  chainNow : Bool
  /-- samples of R394 at FWD(0): the eight counters of each tower in service, and the energy -/
  sample : Option (List (Nat × List Quad) × Quad)
  deriving DecidableEq, Repr

/-- The statistics window (Table 15.4). -/
structure Window where
  seq : Word
  step : Ctr
  status : Nat
  slot : Nat
  updated : Bool
  count : Nat
  elapsed : Ctr
  sums : List Ctr
  fallbacks : Nat
  rungChanges : Nat
  normJumps : Word
  storm : Bool
  cold : Bool
  widenLeft : Nat
  deriving DecidableEq, Repr

/-- The loaded extension (R381 to R385) and the command in flight: its mailbox. -/
structure Extension where
  version : Quad
  cmds : List (Nat × Nat)
  digest : List Byte
  inFlight : Option Nat
  loaded : Bool
  deriving DecidableEq, Repr

/-- A command as Beryl judges it: the mailbox that it completes on (4: none, R383), the mailbox that admits it, MBX_LEN, the
payload of that length, and what the world answers. -/
structure Ask where
  opcode : Nat
  mbx : Nat
  adm : Nat
  len : Nat
  payload : List Byte
  env : Env
  deriving DecidableEq, Repr

/-- A completion that waits for the writes of its command (R338): mailbox, status, data. -/
structure Late where
  mbx : Nat
  status : Nat
  data : List Byte
  deriving DecidableEq, Repr

/-- What an SPDM response says that the spec fixes (R412): the capabilities, the algorithms, or the measurement blocks by index. -/
inductive SpdmSays where
  | caps (names : List String)
  | algs (names : List String)
  | blocks (l : List (Nat × List Byte))
  | count (n : Nat)
  | other
  deriving DecidableEq, Repr

/-- An answer on the host's side of the port or of the management bus. -/
inductive Resp where
  | none
  | data (bytes : List Byte)
  | unsupported
  | poison
  | word (v : Word)
  /-- the completions of the words of one read: none for unsupported request, else the enabled bytes (R343) -/
  | parts (l : List (Option (List Byte)))
  /-- an SPDM response: what it says, and its bytes as SPDM 1.2 frames them -/
  | spdm (content : SpdmSays) (bytes : List Byte)
  /-- a management-bus word, with its packet error code when it was asked for (R442) -/
  | smbus (v : Half) (pec : Option Byte)
  deriving DecidableEq, Repr

/-- What waits to leave by the port while its IDE stream toward the host is Insecure (R413). -/
inductive Posted where
  | answer (stream : Nat) (r : Resp)
  | msix (v : Nat)
  | aer (addr : Nat)
  | snoop (line : Nat)
  deriving DecidableEq, Repr

/-- The way of a message to a rank: a link of the board, a relay of the board, or the fabric under a routing ID at an address
(R257, R266, R267). -/
inductive Route where
  | link (rank l : Nat)
  | relay (rank slot : Nat)
  | fabric (rank pbr addr : Nat)
  deriving DecidableEq, Repr

/-- What the block has put on its pins and ports since reset (log 14). -/
structure Out where
  resp : Resp
  /-- port traffic that an Insecure IDE stream holds, oldest first -/
  stalled : List Posted
  msix : List Nat
  /-- AER messages: the address logged -/
  aer : List Nat
  /-- back-invalidation snoops sent, by line -/
  snoops : List Nat
  beacons : List Beacon
  resends : List Nat
  /-- messages that have left Campanile (R265 to R267), with the way that they took -/
  sent : List (Route × Message)
  deriving DecidableEq, Repr

/-- The state of the block. -/
structure State where
  /-- the commands that wait, first in first out -/
  pending : List Instr
  power : Power
  fuses : Fuses
  keep : Keep
  mailboxes : List Mailbox
  /-- mailboxes whose GO Beryl has not yet taken, in GO order (R350) -/
  goOrder : List Nat
  /-- commands in flight that Beryl has taken and not ended, in the order of taking; `true`: its fuse write has begun -/
  jobs : List (Ask × Bool)
  late : List Late
  ints : Ints
  evt : EvtLog
  belfry : Belfry
  measure : Measure
  thermal : Thermal
  towers : List Tower
  domeEpoch : Word
  mem : Mem
  fabric : Fabric
  slots : List Slot
  /-- oldest first, at most two (R372) -/
  steps : List Step
  window : Window
  ext : Extension
  out : Out
  /-- free values used so far: the model's own (log 5) -/
  freeCtr : Nat
  deriving DecidableEq, Repr

/-! ### Reset -/

def Ctr.zero : Ctr := ⟨0, 0⟩

def Mailbox.reset : Mailbox := ⟨true, 0, false, false, false, 0, 0, 0, []⟩

def EvtLog.reset : EvtLog := ⟨0, 0x0A, false, true, 0, 0, 0, false, false, false, [], [], 0, false, false, false⟩

def Ints.reset : Ints := ⟨0, false, false, List.replicate 16 ⟨0, 0, true⟩, 0⟩

def Power.reset : Power := ⟨true, false, false, false, 1, false, false, false, Ctr.zero, false, none, 0, 0x1F, 0, 0⟩

/-- The ledger of a delivered module (R405, R443; log 6): one life-cycle slot paired with one identity slot. -/
def Fuses.delivered : Fuses := ⟨[⟨1, some 0, [], [], true⟩], [⟨0, none, Config.deliveredSecret, Config.deliveredOwner, true⟩], [], []⟩

def Keep.reset : Keep := ⟨0, false, 0, 0, 0, false, 0, none, [], List.replicate 4 [], List.replicate 4 .off, 0, 0⟩

/-- Belfry at power-up for a given cap (Table 12.6, R274, R322). -/
def Belfry.reset (cap : Nat) : Belfry :=
  ⟨cap, cap, 3, 240, false, 0, false, false, 36, false, 36, false, false, none, none, [], 0, 0⟩

def Measure.reset : Measure :=
  ⟨0, 0, 0, 0, 0, 0, 0, 0, [], 1, 1, 0, false, 0, List.replicate 4 ⟨0, 0⟩, List.replicate 17 ⟨0, 0⟩, 0, Ctr.zero, Ctr.zero, 0, 0, [], 0⟩

def Thermal.reset : Thermal :=
  ⟨0, 0, List.replicate 17 0, false, false, false, List.replicate 4 0, List.replicate 4 0, List.replicate 4 0, List.replicate 4 0⟩

def TowerCtrs.zero : TowerCtrs :=
  ⟨Ctr.zero, Ctr.zero, Ctr.zero, Ctr.zero, Ctr.zero, Ctr.zero, Ctr.zero, Ctr.zero, 0, 0, 0, 0, 0, false⟩

def JspCtrs.zero : JspCtrs := ⟨Ctr.zero, Ctr.zero, 0, 0, 0, 0, Ctr.zero, 0, false⟩

/-- A tower before phase 3 has admitted it. -/
def Tower.reset : Tower :=
  ⟨0, false, false, 0, 0, Ctr.zero, [], TowerCtrs.zero, JspCtrs.zero, [], [], 0, [], 0, 0, 0, 0, false, 0, [], [], [], (0, 0), [], [], [], false, false, 0, 0, 0, 36, false, none, false, none, none, none⟩

def Mem.reset : Mem :=
  ⟨[], List.replicate 12 ⟨0, false⟩, 0x10, 0x0E10, [], 24, true, 0, Ctr.zero, 0, 0, ⟨0, 0, 0⟩, 0, Ctr.zero, 0, 0, [], [],
    [], List.replicate 12 ⟨[], 0, 0, 0⟩, [], [], 4, [], []⟩

def Link.reset : Link := ⟨0, 0, 0, none, none, 0, 0, false, false, none, []⟩

def Fabric.reset : Fabric := ⟨none, List.replicate 7 Link.reset, 0, [], [], [], []⟩

def Slot.reset : Slot :=
  ⟨none, [], 0, 0, 0, 0, 0, [], none, [], 0, false, false, false, none, none, [], none, 0, [], [], [], false, [], none, []⟩

def Window.reset : Window :=
  ⟨0, ⟨0xFFFFFFFFFFFFFFFF, 0xFFFFFFFF⟩, 0, 0, false, 0, Ctr.zero, List.replicate 9 Ctr.zero, 0, 0, 0, false, false, 0⟩

def Extension.reset : Extension := ⟨0, [], [], none, false⟩

def Out.reset : Out := ⟨.none, [], [], [], [], [], [], []⟩

/-- The ceiling in force, in units of 10 W: the least of 240 and every committed slot (R405). -/
def Fuses.ceiling (f : Fuses) : Nat :=
  (f.ceil.filter (·.committed)).foldl (fun a s => min a s.arg) 240

/-- The state at power-good with a given ledger and pending queue (R416, R419). -/
def State.powerUp (q : List Instr) (f : Fuses) : State where
  pending := q
  power := Power.reset
  fuses := f
  keep := Keep.reset
  mailboxes := List.replicate 4 Mailbox.reset
  goOrder := []
  jobs := []
  late := []
  ints := Ints.reset
  evt := EvtLog.reset
  belfry := Belfry.reset (min 120 f.ceiling)
  measure := Measure.reset
  thermal := Thermal.reset
  towers := List.replicate 324 Tower.reset
  domeEpoch := 0
  mem := Mem.reset
  fabric := Fabric.reset
  slots := List.replicate 4 Slot.reset
  steps := []
  window := Window.reset
  ext := Extension.reset
  out := Out.reset
  freeCtr := 0

/-- Right after reset: a delivered module at power-good, start-up in phase 1, no command waiting. -/
def State.reset : State := State.powerUp [] Fuses.delivered

end Sys2Proof.Machine
end

