-- ==== Sys2Proof/Machine/Ops.lean ====
section
/-!
DEFINITION. The named operations that the meanings share: canonical memory, the address decode and the codeword (R192,
R280 to R286), retirement (R293, R294), the snoop filter (R338), interrupts (R354, R392), the event log (R355 to R359),
mailbox completion (R349, R353) and the failing of a step (R224).
-/
namespace Sys2Proof.Machine

open Sys2Proof

abbrev Out' := Host.Outcome State Fault Refusal

/-! ### Canonical memory -/

/-- The byte at an address; an unlisted address reads zero (R283; log 1). -/
def memGet : Memory → Nat → Byte
  | [], _ => 0
  | (k, v) :: r, a => if k = a then v else memGet r a

/-- One byte written; the form of `Memory.wf` is kept. -/
def memSet : Memory → Nat → Byte → Memory
  | [], a, b => if b = 0 then [] else [(a, b)]
  | (k, v) :: r, a, b =>
    if a < k then (if b = 0 then (k, v) :: r else (a, b) :: (k, v) :: r)
    else if a = k then (if b = 0 then r else (a, b) :: r)
    else (k, v) :: memSet r a b

/-- Every listed address is above `lo` (when given), addresses strictly rise, no entry is zero. -/
def wfFrom : Option Nat → Memory → Bool
  | _, [] => true
  | lo, (k, v) :: r => (match lo with | none => true | some l => decide (l < k)) && decide (v ≠ 0) && wfFrom (some k) r

/-- The canonical form. -/
def Memory.wf (m : Memory) : Bool := wfFrom none m

/-- `n` bytes from an address. -/
def memRead (m : Memory) (a : Nat) : Nat → List Byte
  | 0 => []
  | n + 1 => memGet m a :: memRead m (a + 1) n

/-- Bytes written from an address upward. -/
def memWrite (m : Memory) (a : Nat) : List Byte → Memory
  | [] => m
  | b :: bs => memWrite (memSet m a b) (a + 1) bs

/-! ### Address decode -/

/-- The end of the device address space (R192). -/
def devEnd : Nat := 0xC000000000

/-- The landing area (R267). -/
def landBase : Nat := 0xBFA0000000

/-- Where a byte lies (Tables 7.4 and 11.1). -/
structure Place where
  stack : Nat
  port : Nat
  sAddr : Nat
  channel : Nat
  bank : Nat
  row : Nat
  beat : Nat
  deriving DecidableEq, Repr

/-- Is the group of a region set to affinity (R193)? -/
def Mem.affineGroup (m : Mem) (i : Nat) : Bool := m.affine.any fun p => p.1 == i

/-- Stack, port and stack address of a device address (Table 7.4, R280, R281). -/
def Mem.place (m : Mem) (a : Nat) : Place :=
  let r := a / 0x30000000
  let o := a % 0x30000000
  let g := o / 2048
  let i := r / 4
  let q := r % 4
  let (st, port, sa) :=
    if m.affineGroup i then (3 * q + g % 3, g / 3 % 3, i * 0x10000000 + (g / 3) * 2048 + o % 2048)
    else (g % 12, g / 12 % 3, i * 0x10000000 + q * 0x4000000 + (g / 12) * 2048 + o % 2048)
  let sg := sa / 2048
  ⟨st, port, sa, sg % 32, sg / 32 % 32, sg / 1024, sa % 2048 / 32⟩

/-- The device address of a stack address: the inverse of `place`. -/
def Mem.device (m : Mem) (stack sa : Nat) : Nat :=
  let i := sa / 0x10000000
  if m.affineGroup i then
    let so := sa % 0x10000000
    (4 * i + stack / 3) * 0x30000000 + ((so / 2048) * 3 + stack % 3) * 2048 + so % 2048
  else
    let q := sa / 0x4000000 % 4
    let so := sa % 0x4000000
    (4 * i + q) * 0x30000000 + ((so / 2048) * 12 + stack) * 2048 + so % 2048

def Place.bankNo (p : Place) : Nat := p.stack * 1024 + p.channel * 32 + p.bank

/-! ### Retirement -/

/-- Does a device page hold a granule of a retired bank (R294)? -/
def Mem.bankHitsPage (m : Mem) (p : Nat) : Bool :=
  if m.banks.isEmpty then false
  else (List.range 32).any fun k =>
    let l := m.place (p * 65536 + k * 2048)
    m.banks.any fun b => b.stack == l.stack && b.channel == l.channel && b.bank == l.bank

/-- Is a device page retired, by page or by bank (R293, R294)? -/
def Mem.pageRetired (m : Mem) (p : Nat) : Bool := m.pages.contains p || m.bankHitsPage p

/-- Does an extent touch a retired page? -/
def Mem.touchesRetired (m : Mem) (a len : Nat) : Bool :=
  if len = 0 then false
  else
    let lo := a / 65536
    let hi := (a + len - 1) / 65536
    m.pages.any (fun p => lo ≤ p && p ≤ hi) ||
      (!m.banks.isEmpty && (List.range (hi + 1 - lo)).any fun k => m.bankHitsPage (lo + k))

/-! ### The mesh -/

/-- The router at which an endpoint joins the mesh as column and row: a tower at its own; port k of stack j of quarter q at column 0 or
17 and row 9 · (q div 2) + 3 · j + k (R11); an I/O port at row 17 of its column (R12). -/
def nodeAt : Node → Nat × Nat
  | .tower t => (t % 18, t / 18)
  | .stackPort st k => (if st / 3 % 2 = 0 then 0 else 17, 9 * (st / 3 / 2) + 3 * (st % 3) + k)
  | .ioPort x => (x, 17)

/-- The steps from `a` to `b` on one axis, both ends included. -/
def lineOf (a b : Nat) : List Nat :=
  if a ≤ b then (List.range (b - a + 1)).map (a + ·) else (List.range (a - b + 1)).map (a - ·)

/-- The routers that a transaction passes, each with the input port through which it enters: first its own endpoint's, then along x to
the destination column, then along y (R22). -/
def hopsOf (a b : Node) : List (Nat × Nat) :=
  let (x0, y0) := nodeAt a
  let (x1, y1) := nodeAt b
  let own : Nat := match a with | .tower _ => 0 | .stackPort _ _ => 5 | .ioPort _ => 6
  (18 * y0 + x0, own) :: ((lineOf x0 x1).drop 1).map (fun x => (18 * y0 + x, if x0 < x1 then 1 else 2))
    ++ ((lineOf y0 y1).drop 1).map fun y => (18 * y + x1, if y0 < y1 then 3 else 4)

/-- The towers whose routers a transaction passes. -/
def routeOf (a b : Node) : List Nat := (hopsOf a b).map Prod.fst

/-- The input port through which a route enters its last router. -/
def entryPort (a b : Node) : Nat := ((hopsOf a b).getLast?.map Prod.snd).getD 0

/-- Does every router of the route work? The router of a tower out of service forwards as before; no route avoids a failed one
(R26). -/
def State.routeUp (s : State) (a b : Node) : Bool := (routeOf a b).all fun t => !(s.towers.getD t Tower.reset).routerFault

/-- The stack port that serves an address (Table 7.4, R11). -/
def Mem.portOf (m : Mem) (a : Nat) : Node := .stackPort (m.place a).stack (m.place a).port

/-- Does the I/O die reach an address through one of its ports, and the answer come back (R12, R26)? -/
def State.ioReach (s : State) (a : Nat) : Bool :=
  s.towers.all (fun t => !t.routerFault) ||
    (let p : Node := .ioPort (Config.ioColumn a % 18)
     s.routeUp p (s.mem.portOf a) && s.routeUp (s.mem.portOf a) p)

/-! ### The port -/

/-- Does an IDE stream carry traffic (R413)? 0 and 1: CXL.io toward the module and toward the host; 2 and 3: CXL.cachemem. -/
def State.ideUp (s : State) (i : Nat) : Bool := s.keep.ide.getD i .off != IdeState.insecure

/-- The stream by which traffic leaves. -/
def Posted.stream : Posted → Nat
  | .answer k _ => k
  | .msix _ => 1
  | .aer _ => 1
  | .snoop _ => 3

/-- Traffic that leaves. -/
def Out.sendOne (o : Out) : Posted → Out
  | .answer _ r => { o with resp := r }
  | .msix v => { o with msix := o.msix ++ [v] }
  | .aer a => { o with aer := o.aer ++ [a] }
  | .snoop l => { o with snoops := o.snoops ++ [l] }

/-- Traffic leaves by its stream, or waits while that is Insecure (R413). -/
def State.emit (s : State) (p : Posted) : State :=
  { s with out := if s.ideUp p.stream then s.out.sendOne p else { s.out with stalled := s.out.stalled ++ [p] } }

/-- An answer that leaves by a stream. -/
def State.reply (s : State) (stream : Nat) (r : Resp) : State := s.emit (.answer stream r)

/-- An answer at once: DOE, or the management bus. -/
def State.answer (s : State) (r : Resp) : State := { s with out := { s.out with resp := r } }

/-! ### Interrupts -/

/-- Sends the message of a vector, or sets its pending bit while it is masked (R354). -/
def State.message (s : State) (v : Nat) : State :=
  if !s.ints.enabled then s
  else if s.ints.fmask || (s.ints.table.getD v ⟨0, 0, true⟩).masked then
    { s with ints := { s.ints with pending := s.ints.pending ||| (1#16 <<< v) } }
  else s.emit (.msix v)

/-- Latches a cause in INT_RAISED (R392). -/
def State.latch (s : State) (v : Nat) : State :=
  { s with ints := { s.ints with raised := s.ints.raised ||| (1#10 <<< v) } }

/-- A cause of a vector: latched, and its message sent or pended. -/
def State.raise (s : State) (v : Nat) : State := (s.latch v).message v

/-- Sends once every pending message whose vector is no longer masked (R354). -/
def State.flushVector (s : State) (v : Nat) : State :=
  if s.ints.enabled && !s.ints.fmask && !(s.ints.table.getD v ⟨0, 0, true⟩).masked && s.ints.pending.getLsbD v then
    ({ s with ints := { s.ints with pending := s.ints.pending &&& ~~~(1#16 <<< v) } }).emit (.msix v)
  else s

def State.flushAll (s : State) : State := (List.range 10).foldl State.flushVector s

/-! ### Events -/

/-- All ones: no step (Table 13.7). -/
def noStep : Quad := 0xFFFFFFFFFFFFFFFF

/-- The body of an event: each field (width, value) at a multiple of its width (R359). -/
def packFields : List (Nat × Nat) → List Byte → List Byte
  | [], acc => acc ++ List.replicate (32 - acc.length) 0
  | (w, v) :: fs, acc => packFields fs (acc ++ List.replicate (roundUp acc.length w - acc.length) 0 ++ toLe w v)

/-- The 64 bytes of a record (Table 13.7). -/
def EvRec.bytes (r : EvRec) : List Byte :=
  toLe 4 r.seq.toNat ++ toLe 2 r.code ++
    [BitVec.ofNat 8 ((if r.lost then 1 else 0) + if r.early then 2 else 0), BitVec.ofNat 8 r.slot] ++
    toLe 8 r.time.toNat ++ toLe 8 r.step.toNat ++ toLe 2 r.source ++ List.replicate 6 0 ++ r.body

/-- Where an event comes from: slot, step, source unit. -/
structure EvSrc where
  slot : Nat
  step : Quad
  source : Nat
  deriving DecidableEq, Repr

/-- An event of the module: no slot, no step, the I/O die (R360). -/
def EvSrc.module : EvSrc := ⟨0xFF, noStep, 0xFFFF⟩

def EvSrc.tower (t : Nat) : EvSrc := ⟨0xFF, noStep, t⟩
def EvSrc.stack (k : Nat) : EvSrc := ⟨0xFF, noStep, 0x8000 + k⟩

/-- Records an event (R355 to R357): into the ring's queue while EN is 1, else into the early buffer, where a full buffer
drops it. A stopped Beryl records nothing (Table 13.10). -/
def State.event (s : State) (src : EvSrc) (code : Nat) (fields : List (Nat × Nat)) : State :=
  if s.power.berylStop then s
  else
    let e := s.evt
    let r : EvRec := ⟨e.seq, code, false, false, src.slot, s.power.time.v, src.step, src.source, packFields fields []⟩
    let e' :=
      if e.en then { e with seq := e.seq + 1, ring := e.ring ++ [{ r with lost := e.lostTail }], lostTail := false }
      else if e.early.length < 256 then
        { e with seq := e.seq + 1, early := e.early ++ [{ r with early := true, lost := e.lostTail }], lostTail := false }
      else { e with seq := e.seq + 1, lostCount := e.lostCount + 1, earlyLost := true, lostTail := true }
    { s with evt := e' }

/-- A security event: vector 8 besides vector 4 (R414). -/
def State.securityEvent (s : State) (code : Nat) (fields : List (Nat × Nat)) : State :=
  (s.event .module code fields).raise 8

/-- SRAM_UE (Table 11.10). -/
def State.sramEvent (s : State) (src : EvSrc) (unit bank word req : Nat) (work : List (Nat × Nat)) : State :=
  ({ s with mem := { s.mem with sramUe := s.mem.sramUe + 1 } }).event src 0x0503
    ([(2, unit), (1, bank), (4, word), (1, req)] ++ work)

/-! ### Mailboxes -/

def State.mbx (s : State) (n : Nat) : Mailbox := s.mailboxes.getD n Mailbox.reset

/-- One completion: data, length, CODE, DONE and OWN in one update; the cause of vector n is latched, and its message sent when IRQ_EN
is 1 (R349, R353, R354, R392). -/
def State.deliver (s : State) (n : Nat) (status : Nat) (data : List Byte) : State :=
  let s' := { s with
    mailboxes := updAt s.mailboxes n fun m =>
      { m with payload := memWrite m.payload 0 data, len := data.length, code := BitVec.ofNat 16 status, done := true,
               own := false } }
  if (s.mbx n).irqEn then s'.raise n else s'.latch n

/-- Do device writes of the command of a mailbox wait for a back-invalidation response (R338)? -/
def Mem.owes (m : Mem) (n : Nat) : Bool := m.waiting.any fun (w : WaitWrite) => w.owner == n

/-- A command ends: its completion comes at once, or when the last of its device writes has taken place (R338). Number 4 is Beryl's
internal submission of R383, which has no mailbox. -/
def State.complete (s : State) (n : Nat) (status : Nat) (data : List Byte) : State :=
  if n ≥ 4 then s
  else if s.mem.owes n then { s with late := s.late ++ [⟨n, status, data⟩] }
  else s.deliver n status data

/-! ### Status codes (Table 14.2) -/

def stOK : Nat := 0x0000
def stBUSY : Nat := 0x0001
def stBAD_OPCODE : Nat := 0x0010
def stBAD_PARAM : Nat := 0x0011
def stNO_RESOURCE : Nat := 0x0020
def stNO_TOPOLOGY : Nat := 0x0021
def stSCALE_SKEW : Nat := 0x0101
def stNORM_JUMP : Nat := 0x0102
def stABORTED : Nat := 0x0103
def stSTEP_SKEW : Nat := 0x0110
def stNONFINITE_SKIP : Nat := 0x0111
def stPEER_FAILED : Nat := 0x0112
def stBUS_ERROR : Nat := 0x0120
def stPRECISION_STORM : Nat := 0x0130
def stCADENCE_HOLD : Nat := 0x0140
def stLOCKED : Nat := 0x0200
def stAUTH_FAIL : Nat := 0x0201
def stLEDGER_FULL : Nat := 0x0202

/-! ### Time -/

/-- The time base advances by one nanosecond while the block is powered (R391; log 2). -/
def State.tick (s : State) : State :=
  if s.power.powered then
    { s with power := { s.power with time := { s.power.time with v := s.power.time.v + 1 } } }
  else s

/-! ### Free values -/

/-- A free natural number below `n`, and the state with the counter moved on (log 5). -/
def State.free (s : State) (n : Nat) : Nat × State :=
  (Config.freeNat s.freeCtr % n, { s with freeCtr := s.freeCtr + 1 })

/-! ### Towers -/

def State.modTower (s : State) (t : Nat) (f : Tower → Tower) : State := { s with towers := updAt s.towers t f }

def State.tower (s : State) (t : Nat) : Tower := s.towers.getD t Tower.reset

/-- In service: admitted and TWR_STATE 0. -/
def Tower.inService (t : Tower) : Bool := t.admitted && t.state == 0

def State.activeTowers (s : State) : Nat := (s.towers.filter Tower.inService).length

/-- The quarter of a tower: number 18 y + x (R4). -/
def quarterOf (t : Nat) : Nat := (if t % 18 < 9 then 0 else 1) + (if t / 18 < 9 then 0 else 2)

/-- Drops what a tower's queue and Jasper hold of steps that `p` selects (R224, Table 5.8). -/
def Tower.dropItems (p : Item → Bool) (t : Tower) : Tower :=
  let gone := (t.started.filter fun x => p x.item).map Started.num
  { t with
    queue := t.queue.filter fun i => !p i
    started := t.started.filter fun x => !p x.item
    streams := t.streams.filter fun st => !gone.contains st.item
    outbound := t.outbound.filter fun q => match q.tag with
      | some (n, _) => !(t.streams.any fun st => st.num == n && gone.contains st.item)
      | none => true
    fwdSets := t.fwdSets.filter fun q => !gone.contains q.item
    bwdSets := t.bwdSets.filter fun q => !gone.contains q.item
    reply := t.reply.map fun l => (l.1, l.2.filter fun i => !p i) }

/-- A tower without work and without traffic in its window: queue, items, streams, span accumulators and rings are empty. -/
def Tower.emptied (t : Tower) : Tower :=
  { t with
    queue := [], started := [], streams := [], candidates := none, stealing := false, reply := none
    inbound := [], waiting := [], outbound := [], fwdSets := [], bwdSets := []
    starved := false, noCredit := false, fwdWork := 0, bwdWork := 0, vecWork := 0, used := false }

def State.dropItems (s : State) (p : Item → Bool) : State := { s with towers := s.towers.map (Tower.dropItems p) }

/-- The requests of a tower outstanding (R187, R205). -/
def Tower.outstanding (t : Tower) : Nat := (t.streams.map fun x => x.sent.length).foldl (· + ·) 0

/-! ### Steps -/

/-- The step that lies before its CHECK decision: its position in `steps`. -/
def State.earlyIdx (s : State) : Option Nat := s.steps.findIdx? fun p => p.decided.isNone

/-- The step past its decision. -/
def State.lateIdx (s : State) : Option Nat := s.steps.findIdx? fun p => p.decided.isSome

def State.stepRunning (s : State) : Bool := !s.steps.isEmpty

def State.slotRunning (s : State) (n : Nat) : Bool := s.steps.any fun p => p.slot == n

def State.modStep (s : State) (i : Nat) (f : Step → Step) : State := { s with steps := updAt s.steps i f }

def State.modSlot (s : State) (n : Nat) (f : Slot → Slot) : State := { s with slots := updAt s.slots n f }

def State.slot (s : State) (n : Nat) : Slot := s.slots.getD n Slot.reset

/-- A step before its decision fails with its own status, the first one standing; its FWD and BWD work is discarded (R224). -/
def State.failStep (s : State) (i : Nat) (status : Nat) : State :=
  match s.steps[i]? with
  | none => s
  | some p =>
    if p.decided.isSome then s
    else
      let s' := s.modStep i fun q => match q.ended with
        | .running => { q with ended := .failed status }
        | .failed _ => q
      s'.dropItems fun it => it.slot == p.slot && it.step == p.number.toNat

/-- Fails the step before its decision, when there is one. -/
def State.failEarly (s : State) (status : Nat) : State :=
  match s.earlyIdx with
  | none => s
  | some i => s.failStep i status

/-- The source of an event of a step: its slot and number. -/
def Step.src (p : Step) : EvSrc := ⟨p.slot, p.number, 0xFFFF⟩

/-! ### The codeword -/

/-- The two syndromes of an error pattern (R283): a stored codeword has both zero. -/
def syndromes (syms : List (Nat × Nat)) : Nat × Nat :=
  syms.foldl (fun a p => (a.1 ^^^ p.2, a.2 ^^^ gfMulAlpha p.1 p.2)) (0, 0)

/-- The decoding of one beat (Table 11.2). -/
inductive Decode where
  | good
  /-- symbol `k` corrected by XOR with `s0`; `erased`: at the marked die -/
  | corrected (k s0 : Nat) (erased : Bool)
  | bad (s0 s1 : Nat)
  deriving DecidableEq, Repr

/-- Table 11.2, its rows in order. -/
def decodeBeat (mark : Option Nat) (syms : List (Nat × Nat)) : Decode :=
  let (s0, s1) := syndromes syms
  if s0 = 0 ∧ s1 = 0 then .good
  else if s0 ≠ 0 then
    match (List.range 18).find? fun k => gfMulAlpha k s0 == s1 with
    | some k =>
      match mark with
      | none => .corrected k s0 false
      | some f => if k = f then .corrected k s0 true else .bad s0 s1
    | none => .bad s0 s1
  else .bad s0 s1

/-- The data bytes of a beat with symbols changed by XOR. -/
def xorSyms (bs : List Byte) (syms : List (Nat × Nat)) : List Byte :=
  bs.mapIdx fun i b =>
    (syms.filter fun p => p.1 == i / 2).foldl (fun acc p => acc ^^^ BitVec.ofNat 8 (p.2 >>> (8 * (i % 2)))) b

/-- The mark of a stack (R285). -/
def Mem.mark (m : Mem) (stack : Nat) : Option Nat :=
  match m.erase[stack]? with
  | some e => if e.valid then some e.die else none
  | none => none

/-- Requesters of Table 11.10. -/
def rqJasper : Nat := 0
def rqUpdate : Nat := 1
def rqCampanile : Nat := 2
def rqBeryl : Nat := 3
def rqHost : Nat := 4
def rqScrub : Nat := 5
def rqSpire : Nat := 6

/-- A correction counts in the bucket of its bank; above THRESHOLD the bucket overflows (R291). -/
def State.bucketCount (s : State) (p : Place) (die : Nat) : State :=
  let m := s.mem
  let n := (memGet m.buckets p.bankNo).toNat + 1
  if n > m.threshold then
    let s' := { s with mem := { m with
      buckets := memSet m.buckets p.bankNo 0
      ovf := m.ovf + 1
      lastOvf := ⟨p.stack, p.channel, p.bank⟩ } }
    (s'.event (.stack p.stack) 0x0502 [(1, p.stack), (1, p.channel), (1, p.bank), (4, m.threshold), (1, die)]).raise 5
  else { s with mem := { m with buckets := memSet m.buckets p.bankNo (BitVec.ofNat 8 n) } }

/-- A write-back joins its stack's queue; a full queue, or one queued for the beat already, drops it (R286, R309). -/
def State.queueWriteBack (s : State) (stack addr : Nat) (bytes : List Byte) : State :=
  { s with mem := { s.mem with onyx := updAt s.mem.onyx stack fun o =>
      if o.writeBacks.length ≥ 64 || o.writeBacks.any (fun w => w.addr == addr) then o
      else { o with writeBacks := o.writeBacks ++ [⟨addr, bytes, 4⟩] } } }

/-- Does a requester sit on the I/O die: Campanile, Beryl, the host (R12)? -/
def ioSide (req : Nat) : Bool := req == rqCampanile || req == rqBeryl || req == rqHost

/-- One beat read by a requester (R284 to R288, R293): the bytes, or none when the data is uncorrectable or retired, or no route reaches
it from the I/O die (R12, R26; log 86). -/
def State.readBeat (s : State) (req : Nat) (step : Quad) (errs : List BeatErr) (addr : Nat) : Option (List Byte) × State :=
  let b := addr / 32 * 32
  if ioSide req && !s.ioReach b then (none, s)
  else if s.mem.pageRetired (b / 65536) then
    (none, { s with mem := { s.mem with retiredHit := s.mem.retiredHit + 1 } })
  else
    let stored := memRead s.mem.cells b 32
    let p := s.mem.place b
    let syms := match errs.find? (fun e => e.addr / 32 * 32 == b) with | some e => e.syms | none => []
    match decodeBeat (s.mem.mark p.stack) syms with
    | .good => (some (xorSyms stored syms), s)
    | .corrected k s0 erased =>
      let data := xorSyms stored (syms ++ [(k, s0)])
      let s1 := { s with mem := { s.mem with ce := { s.mem.ce with v := s.mem.ce.v + 1 } } }
      if erased then (some data, s)
      else (some data, (s1.bucketCount p k).queueWriteBack p.stack b data)
    | .bad s0 s1 =>
      let s' := { s with mem := { s.mem with ue := s.mem.ue + 1 } }
      (none, s'.event ⟨0xFF, step, 0x8000 + p.stack⟩ 0x0501
        [(8, b), (1, p.stack), (1, p.channel), (1, p.bank), (4, p.row), (1, p.beat), (2, s0), (2, s1), (1, req)])

/-- Beats read in order until one fails. -/
def State.readBeats (s : State) (req : Nat) (step : Quad) (errs : List BeatErr) :
    Nat → Nat → List Byte → Option (List Byte) × State
  | 0, _, acc => (some acc, s)
  | k + 1, b, acc =>
    match s.readBeat req step errs b with
    | (none, s') => (none, s')
    | (some bs, s') => State.readBeats s' req step errs k (b + 32) (acc ++ bs)

/-- `len` bytes of device memory for a requester, in whole beats (R282). -/
def State.readDev (s : State) (req : Nat) (step : Quad) (errs : List BeatErr) (addr len : Nat) :
    Option (List Byte) × State :=
  let b := addr / 32 * 32
  match s.readBeats req step errs (ceilDiv (addr - b + len) 32) b [] with
  | (some bs, s') => (some ((bs.drop (addr - b)).take len), s')
  | (none, s') => (none, s')

/-- A unit reads whole extents: the beats that meet errors, and an extent with a retired page, of which one access fails. Answers whether all
of it could be read (R287, R288, R292, R293). -/
def State.readRuns (s : State) (req : Nat) (step : Quad) (errs : List BeatErr) (runs : List (Nat × Nat)) : Bool × State :=
  let hole := runs.any fun q => s.mem.touchesRetired q.1 q.2
  let s1 := if hole then { s with mem := { s.mem with retiredHit := s.mem.retiredHit + 1 } } else s
  let beats := ((errs.map fun e => e.addr / 32 * 32).dedup).filter fun a => !s.mem.pageRetired (a / 65536)
  beats.foldl (fun (a : Bool × State) b => let q := a.2.readBeat req step errs b; (a.1 && q.1.isSome, q.2)) (!hole, s1)

/-- The owner of a waiting write that is a write-back. -/
def wbOwner : Nat := 5

/-- Whole-codeword write of bytes that lie in one page, or its discard when the page is retired (R282, R293). Write-backs
queued or waiting for a beat written are dropped (R309). -/
def State.putPage (s : State) (addr : Nat) (bytes : List Byte) : State :=
  if bytes.isEmpty then s
  else if s.mem.pageRetired (addr / 65536) then
    { s with mem := { s.mem with retiredHit := s.mem.retiredHit + 1 } }
  else
    let lo := addr / 32 * 32
    let hi := addr + bytes.length
    { s with mem := { s.mem with
      cells := memWrite s.mem.cells addr bytes
      waiting := s.mem.waiting.filter fun (w : WaitWrite) => !(w.owner == wbOwner && decide (lo ≤ w.addr) && decide (w.addr < hi))
      onyx := s.mem.onyx.map fun o =>
        { o with writeBacks := o.writeBacks.filter fun w => !(decide (lo ≤ w.addr) && decide (w.addr < hi)) } } }

/-- Bytes cut at line boundaries of 64 B: (address, bytes) pieces. `fuel` bounds the pieces. -/
def linesOf : Nat → Nat → List Byte → List (Nat × List Byte)
  | 0, _, _ => []
  | fuel + 1, a, bs =>
    if bs.isEmpty then []
    else let k := 64 - a % 64; (a, bs.take k) :: linesOf fuel (a + k) (bs.drop k)

/-- A device write of one line's bytes by an owner: a tracked line is snooped first and the write waits (R338). -/
def State.writeLineBy (s : State) (owner a : Nat) (bs : List Byte) : State :=
  let line := a / 64
  if s.mem.snoop.contains line then
    ({ s with mem := { s.mem with waiting := s.mem.waiting ++ [(⟨a, bs, owner⟩ : WaitWrite)] } }).emit (.snoop line)
  else s.putPage a bs

/-- A device write of one line's bytes by the command that Beryl runs, or by a unit. -/
def State.writeLine (s : State) (a : Nat) (bs : List Byte) : State := s.writeLineBy s.mem.writer a bs

/-- Whole codewords are written (R282): bytes with the rest of the beats that they touch, which is a free value by the write and the
address (log 83). -/
def wholeBeats (c a : Nat) (bs : List Byte) : Nat × List Byte :=
  let lo := a / 32 * 32
  let hi := a + bs.length
  let pad (x n : Nat) : List Byte := (List.range n).map fun k => Config.padByte c (x + k)
  (lo, pad lo (a - lo) ++ bs ++ pad hi (roundUp hi 32 - hi))

/-- A device write of whole beats, line by line (R190, R338). -/
def State.writeBeats (s : State) (addr : Nat) (bytes : List Byte) : State :=
  (linesOf (bytes.length / 64 + 2) addr bytes).foldl (fun s p => s.writeLine p.1 p.2) s

/-- A device write (R190, R282, R338). -/
def State.writeDev (s : State) (addr : Nat) (bytes : List Byte) : State :=
  if bytes.isEmpty then s
  else if addr % 32 = 0 ∧ bytes.length % 32 = 0 then s.writeBeats addr bytes
  else
    let w := wholeBeats s.freeCtr addr bytes
    ({ s with freeCtr := s.freeCtr + 1 }).writeBeats w.1 w.2

/-- A device write by Beryl, Campanile or a board-mate, through an I/O port (R12); it is lost where no route leads (log 86). -/
def State.writeIo (s : State) (addr : Nat) (bytes : List Byte) : State := if s.ioReach addr then s.writeDev addr bytes else s

/-- Device memory as the block's own units see it: writes that wait for the host's answer to a back-invalidation come after what
stands (R338). -/
def Mem.view (m : Mem) : Memory := m.waiting.foldl (fun c (w : WaitWrite) => memWrite c w.addr w.bytes) m.cells

/-- Has every write to these bytes taken place (R190, R338)? -/
def Mem.settled (m : Mem) (addr len : Nat) : Bool :=
  m.waiting.all fun (w : WaitWrite) => !(decide (w.addr < addr + len) && decide (addr < w.addr + w.bytes.length))

/-- Bytes of several pieces, one after another. -/
def memPieces (m : Memory) (ps : List (Nat × Nat)) : List Byte := ps.flatMap fun q => memRead m q.1 q.2

/-- The pieces cut after `n` bytes. -/
def takePieces : Nat → List (Nat × Nat) → List (Nat × Nat)
  | _, [] => []
  | n, (a, l) :: r => if n = 0 then [] else (a, min n l) :: takePieces (n - l) r

/-- The pieces without their first `n` bytes. -/
def dropPieces : Nat → List (Nat × Nat) → List (Nat × Nat)
  | _, [] => []
  | n, (a, l) :: r => if n < l then (a + n, l - n) :: r else dropPieces (n - l) r

/-- Bytes written over pieces, one after another. -/
def State.writePieces (s : State) : List (Nat × Nat) → List Byte → State
  | [], _ => s
  | (a, l) :: r, bs => State.writePieces (s.writeDev a (bs.take l)) r (bs.drop l)

/-! ### Allocations -/

def overlaps (a la b lb : Nat) : Bool := decide (a < b + lb) && decide (b < a + la)

def Alloc.hits (x : Alloc) (a len : Nat) : Bool := overlaps x.addr x.len a len

/-- Every firmware allocation of the program slots. -/
def State.allocs (s : State) : List Alloc := s.slots.flatMap Slot.allocs

/-- What a slot leaves in affine regions is cleared, so that they hold no data (R193; log 10). -/
def State.clearMoved (s : State) (x : Slot) : State :=
  (x.allocs.filter fun a => a.kind == 4).foldl (fun s a => s.writeBeats a.addr (List.replicate a.len 0)) s

/-- Groups of four regions that hold no data, of firmware or host, go back to ALL mode, between steps only (R193; log 10). -/
def State.releaseGroups (s : State) : State :=
  if s.stepRunning then s
  else
    let used (g : Nat × Nat) : Bool := (s.allocs.any fun a => overlaps (g.1 * 0xC0000000) 0xC0000000 a.addr a.len)
      || s.mem.view.any fun (c : Host.Cell) => c.1 / 0xC0000000 == g.1
    { s with mem := { s.mem with affine := s.mem.affine.filter used } }

/-- Is the fabric landing area reserved (R267)? -/
def Topology.manyBoards (t : Topology) : Bool :=
  match t.modules with
  | [] => false
  | m :: ms => ms.any fun x => x.board != m.board

def State.landing (s : State) : Bool := match s.fabric.topo with | some t => t.manyBoards | none => false

/-- The event ring's extent while EN is 1 (R356). -/
def State.ringHits (s : State) (a len : Nat) : Bool :=
  s.evt.en && overlaps s.evt.base.toNat (64 * 2 ^ s.evt.log2) a len

/-! ### Keep -/

/-- Does the Keep serve the commands that need it (R410, Table 11.6)? -/
def State.keepUsable (s : State) : Bool := s.keep.state == 1

/-- The life-cycle state in force (R399). -/
def Fuses.state (f : Fuses) : Nat := ((f.life.filter (·.committed)).getLast?.map FuseSlot.arg).getD 0

/-- The identity slot in force: the latest whose paired life-cycle slot is committed (Table 16.5). -/
def Fuses.identity (f : Fuses) : Option Nat := ((f.life.filter (·.committed)).filterMap FuseSlot.pair).getLast?

/-- Does the state in force hold an identity (Table 16.1)? -/
def Fuses.hasIdentity (f : Fuses) : Bool := f.state != 0 && f.state != 4

/-- Towers fused-retired (Table 16.5). -/
def Fuses.retiredTowers (f : Fuses) : List Nat := (f.tower.filter (·.committed)).map FuseSlot.arg

/-- Slots consumed by writes that hold no value in force (R406). -/
def Fuses.interrupted (f : Fuses) : Nat :=
  let bad (l : List FuseSlot) : Nat := (l.filter fun x => !x.committed).length
  bad f.life + bad f.ceil + bad f.tower + (f.ident.length - (f.life.filter fun x => x.committed && x.pair.isSome).length)

end Sys2Proof.Machine
end

