-- ==== Sys2Proof/Machine/Flags.lean ====
section
/-!
DEFINITION. How a write acts on the fields of a register by their access codes and by the alias it came through (R9,
Table 13.3).
-/
namespace Sys2Proof.Machine

open Sys2Proof

/-- Access codes of fields (R9). -/
inductive Acc where
  | rw | ro | wo | w1c | rc
  deriving DecidableEq, Repr

/-- A field: lowest bit, width, access code. -/
structure Fld where
  lo : Nat
  width : Nat
  acc : Acc
  deriving DecidableEq, Repr

/-- The bits of a field as a mask. -/
def Fld.mask (f : Fld) : Nat := (2 ^ f.width - 1) * 2 ^ f.lo

def rw (lo w : Nat) : Fld := ⟨lo, w, .rw⟩
def ro (lo w : Nat) : Fld := ⟨lo, w, .ro⟩
def wo (lo w : Nat) : Fld := ⟨lo, w, .wo⟩
def w1c (lo w : Nat) : Fld := ⟨lo, w, .w1c⟩
def rc (lo w : Nat) : Fld := ⟨lo, w, .rc⟩

/-- The new contents of one field, in place, and the bits a write-only field receives (Table 13.3). -/
def Fld.write (f : Fld) (al : Alias) (old v : Nat) : Nat × Nat :=
  let m := f.mask
  let o := old &&& m
  let x := v &&& m
  match f.acc with
  | .rw =>
    match al with
    | .base => (x, 0)
    | .set => (o ||| x, 0)
    | .clr => (o &&& (m ^^^ x), 0)
    | .tgl => (o ^^^ x, 0)
  | .w1c =>
    match al with
    | .base | .set => (o &&& (m ^^^ x), 0)
    | _ => (o, 0)
  | .wo =>
    match al with
    | .base | .set => (0, x)
    | _ => (0, 0)
  | _ => (o, 0)

/-- A whole register: the new contents and the write-only bits. Bits of no field read zero. -/
def writeFields (fs : List Fld) (al : Alias) (old v : Nat) : Nat × Nat :=
  fs.foldl (fun acc f => let (n, w) := f.write al old v; (acc.1 ||| n, acc.2 ||| w)) (0, 0)

/-- One bit of a register as a Boolean. -/
def bitOf (n k : Nat) : Bool := n / 2 ^ k % 2 == 1

/-- A Boolean in a bit position. -/
def putBit (b : Bool) (k : Nat) : Nat := if b then 2 ^ k else 0

end Sys2Proof.Machine
end

