-- ==== Sys2Proof/Machine/Operands.lean ====
section
/-!
DEFINITION. BAR0: its decode into block, offset and alias (R342, Table 13.2), the fields of every defined register
(Tables 1.8, 7.8, 11.9, 12.6, 13.4, 13.6, 15.2 to 15.6), what each register holds, and the 64-bit counters with their
shadows (R344).
-/
namespace Sys2Proof.Machine

open Sys2Proof

/-- A BAR0 address without its alias bits. -/
def baseAddr (a : Nat) : Nat := a / 0x10000 * 0x10000 + a % 0x4000

/-- The alias an address lies in. -/
def aliasOf (a : Nat) : Alias :=
  match a % 0x10000 / 0x4000 with
  | 0 => .base
  | 1 => .set
  | 2 => .clr
  | _ => .tgl

/-- The tower whose block holds a base address, and the offset in the block. -/
def towerOf (a : Nat) : Option (Nat × Nat) :=
  if 0x100000 ≤ a ∧ a < 0x1540000 then some ((a - 0x100000) / 0x10000, a % 0x10000) else none

/-- The block address of a tower (Table 13.2). -/
def towerBase (t : Nat) : Nat := 0x100000 + 0x10000 * t

/-- Fields of a tower block (Tables 1.8, 7.8, 15.6). -/
def towerFields (off : Nat) : Option (List Fld) :=
  if off % 4 ≠ 0 then none
  else if off = 0x150 ∨ off = 0x230 then some [rw 0 1, wo 1 1]
  else if off = 0x21C then some [rc 0 10]
  else if off ≤ 0x18 ∨ (0x100 ≤ off ∧ off ≤ 0x148) ∨ (0x200 ≤ off ∧ off ≤ 0x228) then some [ro 0 32]
  else none

/-- Fields of the registers that follow the mailbox control words (Table 13.4). -/
def mbxFields (off : Nat) : Option (List Fld) :=
  if off = 0x000 then some [wo 0 1, rw 1 1]
  else if off = 0x004 then some [ro 0 16, ro 16 1, w1c 17 1, w1c 18 1]
  else if off = 0x008 then some [rw 0 16]
  else if off = 0x00C then some [rw 0 12]
  else if off = 0x010 then some [rw 0 32]
  else if 0x020 ≤ off ∧ off < 0x1000 ∧ off % 4 = 0 then some [rw 0 32]
  else none

/-- Fields of the interrupt and event-log block (Table 13.6, Table 15.3, R354). -/
def evtFields (off : Nat) : Option (List Fld) :=
  if off = 0x00 ∨ off = 0x04 ∨ off = 0x14 then some [rw 0 32]
  else if off = 0x08 then some [rw 0 5]
  else if off = 0x0C then some [rw 0 1, rw 1 1]
  else if off = 0x10 ∨ off = 0x18 then some [ro 0 32]
  else if off = 0x1C then some [w1c 0 1, w1c 1 1, w1c 2 1]
  else if off = 0x20 then some [w1c 0 10]
  else if 0x2000 ≤ off ∧ off < 0x2100 ∧ off % 4 = 0 then
    match off % 16 / 4 with
    | 0 => some [rw 2 30]
    | 1 => some [rw 0 32]
    | 2 => some [rw 0 32]
    | _ => some [rw 0 1]
  else if off = 0x3000 ∨ off = 0x3004 then some [ro 0 32]
  else none

/-- Fields of the memory and ECC block (Table 11.9). -/
def eccFields (off : Nat) : Option (List Fld) :=
  if off < 0x30 ∧ off % 4 = 0 then some [rw 0 5, rw 7 1]
  else if off = 0x40 then some [rw 0 8, rw 8 16]
  else if 0x44 ≤ off ∧ off ≤ 0x70 ∧ off % 4 = 0 then some [ro 0 32]
  else none

/-- Fields of the Keep block (Tables 15.5 and 13.6). -/
def keepFields (off : Nat) : Option (List Fld) :=
  if off = 0x08 then some [w1c 0 1, w1c 1 1, w1c 2 1]
  else if off = 0x00 ∨ off = 0x04 ∨ off = 0x0C ∨ off = 0x10 ∨ off = 0x100 ∨ off = 0x104 then some [ro 0 32]
  else none

/-- The fields of the register at a base address; none where no table defines one (R345, R389). -/
def fieldsAt (a : Nat) : Option (List Fld) :=
  let off := a % 0x10000
  match towerOf a with
  | some (_, o) => towerFields o
  | none =>
    match a / 0x10000 with
    | 0 => if [0x0, 0x4, 0x8, 0x10, 0x14, 0x18, 0x1C, 0x20, 0x28, 0x2C, 0x30].contains off then some [ro 0 32] else none
    | 1 => mbxFields (off % 0x1000)
    | 2 => evtFields off
    | 3 => if off % 4 = 0 ∧ off ≤ 0x44 ∧ off ≠ 0x1C then some [ro 0 32] else none
    | 4 => eccFields off
    | 5 => if off = 0 ∨ (8 ≤ off ∧ off ≤ 0x70 ∧ off % 4 = 0) then some [ro 0 32] else none
    | 6 => keepFields off
    | _ => none

/-- Does an address reach a defined register, through its base range or an alias? The aliases of the MSI-X structures are
reserved (R392). -/
def definedAt (a : Nat) : Bool :=
  let b := baseAddr a
  let msix := b / 0x10000 = 2 ∧ b % 0x10000 ≥ 0x2000
  (fieldsAt b).isSome && !(decide msix && aliasOf a != .base)

/-- Is a base address a payload word of a mailbox? -/
def isPayload (b : Nat) : Bool := b / 0x10000 == 1 && decide (0x20 ≤ b % 0x1000)

/-- The registers that SCRAPPED forbids: mailboxes 1 to 3 (R402). -/
def State.forbids (s : State) (a : Nat) : Bool :=
  let b := baseAddr a
  definedAt a && s.fuses.state == 4 && decide (0x11000 ≤ b) && decide (b < 0x14000)

/-! ### 64-bit counters -/

/-- The 64-bit counters of the map, by the place of their low word. -/
inductive CtrId where
  | time | energy | droopWin | ce | bgBytes | stwStep | stwElapsed
  | stwSum (k : Nat)
  | twr (t k : Nat)
  deriving DecidableEq, Repr

/-- The counter whose low word lies at a base address (Tables 15.2, 12.6, 11.9, 15.4, 15.6, 1.8, 7.8). -/
def ctrAt (a : Nat) : Option CtrId :=
  match towerOf a with
  | some (t, o) =>
    if o = 0x10 then some (.twr t 0)
    else if 0x100 ≤ o ∧ o < 0x140 ∧ o % 8 = 0 then some (.twr t (1 + (o - 0x100) / 8))
    else if o = 0x200 then some (.twr t 9)
    else if o = 0x208 then some (.twr t 10)
    else if o = 0x220 then some (.twr t 11)
    else none
  | none =>
    if a = 0x28 then some .time
    else if a = 0x30030 then some .energy
    else if a = 0x30038 then some .droopWin
    else if a = 0x40048 then some .ce
    else if a = 0x40060 then some .bgBytes
    else if a = 0x50008 then some .stwStep
    else if a = 0x50018 then some .stwElapsed
    else if 0x50020 ≤ a ∧ a ≤ 0x50060 ∧ a % 8 = 0 then some (.stwSum ((a - 0x50020) / 8))
    else none

/-- Counter `k` of a tower: 0 droop windows, 1 to 8 the counters of Table 1.8, 9 to 11 those of Table 7.8. -/
def Tower.ctr (t : Tower) (k : Nat) : Ctr :=
  match k with
  | 0 => t.droopWin
  | 1 => t.ctrs.cycles
  | 2 => t.ctrs.issued
  | 3 => t.ctrs.pwrBub
  | 4 => t.ctrs.droopBub
  | 5 => t.ctrs.starved
  | 6 => t.ctrs.idle
  | 7 => t.ctrs.fwdCells
  | 8 => t.ctrs.bwdCells
  | 9 => t.jsp.rdBytes
  | 10 => t.jsp.wrBytes
  | _ => t.jsp.creditStall

def Tower.modCtr (t : Tower) (k : Nat) (f : Ctr → Ctr) : Tower :=
  match k with
  | 0 => { t with droopWin := f t.droopWin }
  | 1 => { t with ctrs := { t.ctrs with cycles := f t.ctrs.cycles } }
  | 2 => { t with ctrs := { t.ctrs with issued := f t.ctrs.issued } }
  | 3 => { t with ctrs := { t.ctrs with pwrBub := f t.ctrs.pwrBub } }
  | 4 => { t with ctrs := { t.ctrs with droopBub := f t.ctrs.droopBub } }
  | 5 => { t with ctrs := { t.ctrs with starved := f t.ctrs.starved } }
  | 6 => { t with ctrs := { t.ctrs with idle := f t.ctrs.idle } }
  | 7 => { t with ctrs := { t.ctrs with fwdCells := f t.ctrs.fwdCells } }
  | 8 => { t with ctrs := { t.ctrs with bwdCells := f t.ctrs.bwdCells } }
  | 9 => { t with jsp := { t.jsp with rdBytes := f t.jsp.rdBytes } }
  | 10 => { t with jsp := { t.jsp with wrBytes := f t.jsp.wrBytes } }
  | _ => { t with jsp := { t.jsp with creditStall := f t.jsp.creditStall } }

def State.getCtr (s : State) (c : CtrId) : Ctr :=
  match c with
  | .time => s.power.time
  | .energy => s.measure.energy
  | .droopWin => s.measure.droopWin
  | .ce => s.mem.ce
  | .bgBytes => s.mem.bgBytes
  | .stwStep => s.window.step
  | .stwElapsed => s.window.elapsed
  | .stwSum k => s.window.sums.getD k Ctr.zero
  | .twr t k => (s.tower t).ctr k

def State.modCtr (s : State) (c : CtrId) (f : Ctr → Ctr) : State :=
  match c with
  | .time => { s with power := { s.power with time := f s.power.time } }
  | .energy => { s with measure := { s.measure with energy := f s.measure.energy } }
  | .droopWin => { s with measure := { s.measure with droopWin := f s.measure.droopWin } }
  | .ce => { s with mem := { s.mem with ce := f s.mem.ce } }
  | .bgBytes => { s with mem := { s.mem with bgBytes := f s.mem.bgBytes } }
  | .stwStep => { s with window := { s.window with step := f s.window.step } }
  | .stwElapsed => { s with window := { s.window with elapsed := f s.window.elapsed } }
  | .stwSum k => { s with window := { s.window with sums := updAt s.window.sums k f } }
  | .twr t k => s.modTower t fun x => x.modCtr k f

def Ctr.low (c : Ctr) : Word := c.v.setWidth 32
/-- A read of the low word copies the high word into the shadow (R344). -/
def Ctr.latch (c : Ctr) : Ctr := ⟨c.v, (c.v >>> 32).setWidth 32⟩
def Ctr.add (c : Ctr) (n : Nat) : Ctr := ⟨c.v + BitVec.ofNat 64 n, c.shadow⟩

/-! ### Contents -/

/-- An 8-bit two's-complement field of a temperature. -/
def tempByte (i : Int) : Nat := (i % 256).toNat

/-- The effective cap in units of 10 W with its flags (R314, Table 12.2). -/
def classCap (c : Nat) : Nat := match c with | 0 => 240 | 1 => 240 | 2 => 220 | _ => 190
def classLimit (c : Nat) : Nat := match c with | 0 => 200 | 1 => 200 | 2 => 185 | _ => 160

def State.effCap (s : State) : Nat :=
  let b := s.belfry
  let least := min b.capEff (min (classCap b.coolant) b.thermalCap)
  let least := if b.clamp then min least (classLimit b.coolant) else least
  if s.measure.measOnly then least * 9 / 10 else least

/-- BLF_EFF_CAP (Table 12.6, R314). The least value is that of the four terms of R314. -/
def State.effCapWord (s : State) : Nat :=
  let b := s.belfry
  let cl := classCap b.coolant
  let least := min b.capEff (min cl b.thermalCap)
  let least := if b.clamp then min least (classLimit b.coolant) else least
  s.effCap + putBit (cl == least && decide (cl < b.capEff)) 16
    + putBit (b.thermalCap == least && decide (b.thermalCap < b.capEff) && decide (b.thermalCap < cl)) 17
    + putBit b.clamp 18 + putBit s.measure.measOnly 19

def Belfry.hold (b : Belfry) : Bool := !b.holds.isEmpty

/-- HOLD_MAX: the least of the causes' values, 36 without one (R328, Table 10.7). -/
def Belfry.holdMax (b : Belfry) : Nat := b.holds.foldl (fun a h => min a h.max) 36

/-- Program slots that hold a program. -/
def State.slotMask (s : State) : Nat :=
  (List.range 4).foldl (fun a n => a + putBit (s.slot n).prog.isSome n) 0

/-- Contents of a tower block (Tables 15.6, 1.8, 7.8). -/
def State.towerReg (s : State) (t off : Nat) : Nat :=
  let x := s.tower t
  if off = 0x00 then t % 18 + t / 18 * 256 + quarterOf t * 65536
  else if off = 0x04 then x.state + putBit x.routerFault 8
  else if off = 0x08 then x.epoch.toNat
  else if off = 0x0C then x.tj.toNat
  else if off = 0x18 then x.entries.length
  else if off = 0x140 then x.ctrs.stealIn.toNat
  else if off = 0x144 then x.ctrs.stealOut.toNat
  else if off = 0x148 then x.ctrs.staleDrop.toNat
  else if off = 0x150 then putBit x.ctrs.freeze 0
  else if off = 0x210 then x.jsp.farReq.toNat
  else if off = 0x214 then x.jsp.farPieces.toNat
  else if off = 0x218 then x.jsp.nullIdx.toNat
  else if off = 0x21C then x.jsp.outstPeak
  else if off = 0x228 then x.jsp.skew.toNat
  else if off = 0x230 then putBit x.jsp.freeze 0
  else 0

/-- Contents of a mailbox (Table 13.4). -/
def Mailbox.reg (m : Mailbox) (off : Nat) : Nat :=
  if off = 0x000 then putBit m.irqEn 1
  else if off = 0x004 then m.code.toNat + putBit m.own 16 + putBit m.done 17 + putBit m.clobber 18
  else if off = 0x008 then m.opcode.toNat
  else if off = 0x00C then m.len
  else if off = 0x010 then m.tag.toNat
  else ofLe (memRead m.payload (off - 0x20) 4)

/-- Contents of the interrupt and event-log block. -/
def State.evtReg (s : State) (off : Nat) : Nat :=
  let e := s.evt
  if off = 0x00 then e.base.toNat % 2 ^ 32
  else if off = 0x04 then e.base.toNat / 2 ^ 32
  else if off = 0x08 then e.log2
  else if off = 0x0C then putBit e.en 0 + putBit e.intEn 1
  else if off = 0x10 then e.head.toNat
  else if off = 0x14 then e.tail.toNat
  else if off = 0x18 then e.lostCount.toNat
  else if off = 0x1C then putBit e.badBase 0 + putBit e.badTail 1 + putBit e.earlyLost 2
  else if off = 0x20 then s.ints.raised.toNat
  else if 0x2000 ≤ off ∧ off < 0x2100 then
    let x := s.ints.table.getD ((off - 0x2000) / 16) ⟨0, 0, true⟩
    match off % 16 / 4 with
    | 0 => x.addr.toNat % 2 ^ 32
    | 1 => x.addr.toNat / 2 ^ 32
    | 2 => x.data.toNat
    | _ => putBit x.masked 0
  else if off = 0x3000 then s.ints.pending.toNat
  else 0

/-- Contents of the Belfry block (Table 12.6). -/
def State.belfryReg (s : State) (off : Nat) : Nat :=
  let b := s.belfry
  if off = 0x00 then b.cap + s.fuses.ceiling * 65536
  else if off = 0x04 then s.effCapWord
  else if off = 0x08 then
    b.bubble + b.cadence * 2 ^ 8 + b.holdMax * 2 ^ 16 + putBit b.ramping 24 + putBit b.hold 25
      + putBit s.measure.measOnly 26 + putBit b.supplyFloor 27 + putBit b.thermalFloor 28 + b.coolant * 2 ^ 29
  else if off = 0x0C then s.measure.est / 1000 % 65536 + s.measure.meas / 1000 % 65536 * 65536
  else if off = 0x10 then
    let w := s.measure.window
    (if w.isEmpty then 0 else w.foldl (· + ·) 0 / w.length) / 1000 % 65536
  else if off = 0x14 then s.measure.vin % 65536
  else if off = 0x18 then tempByte s.thermal.temp + s.thermal.unit % 512 * 65536
  else if off = 0x20 ∨ off = 0x24 ∨ off = 0x28 ∨ off = 0x2C then
    let q := (off - 0x20) / 4
    s.thermal.trim.getD q 0 + s.thermal.setpoint.getD q 0 / 10 % 65536 * 65536
  else if off = 0x40 then s.measure.rampPause.toNat
  else if off = 0x44 then s.measure.supplyWarn.toNat
  else 0

/-- ECC_SCRUB_STATUS (Table 11.9). -/
def Mem.scrubStatus (m : Mem) : Nat := (if m.scrubOn then m.scrubH else 0) + m.passes.toNat * 65536

/-- Contents of the memory and ECC block (Table 11.9). -/
def State.eccReg (s : State) (off : Nat) : Nat :=
  let m := s.mem
  if off < 0x30 then
    let e := m.erase.getD (off / 4) ⟨0, false⟩
    e.die + putBit e.valid 7
  else if off = 0x40 then m.threshold + m.leakS * 256
  else if off = 0x44 then m.scrubStatus
  else if off = 0x50 then m.ue.toNat
  else if off = 0x54 then m.ovf.toNat
  else if off = 0x58 then m.lastOvf.stack + m.lastOvf.channel * 16 + m.lastOvf.bank * 512
  else if off = 0x5C then m.retiredHit.toNat
  else if off = 0x68 then m.sramCe.toNat
  else if off = 0x6C then m.sramUe.toNat
  else if off = 0x70 then m.pages.length + m.banks.length * 65536
  else 0

/-- Contents of the statistics window (Table 15.4). -/
def Window.reg (w : Window) (off : Nat) : Nat :=
  if off = 0x00 then w.seq.toNat
  else if off = 0x10 then w.status + w.slot * 65536 + putBit w.updated 18
  else if off = 0x14 then w.count
  else if off = 0x68 then w.fallbacks + w.rungChanges * 65536
  else if off = 0x6C then w.normJumps.toNat
  else if off = 0x70 then putBit w.storm 0 + putBit w.cold 1 + w.widenLeft * 256
  else 0

/-- Contents of the Keep block (Tables 15.5, 13.6). -/
def State.keepReg (s : State) (off : Nat) : Nat :=
  let k := s.keep
  if off = 0x00 then k.state
  else if off = 0x04 then s.fuses.state + putBit k.advanced 3
  else if off = 0x08 then k.tamper.toNat
  else if off = 0x0C then k.live.toNat
  else if off = 0x10 then k.wipes.toNat
  else if off = 0x100 then k.violCount.toNat
  else if off = 0x104 then k.violAddr.toNat
  else 0

/-- Contents of the identity block (Table 15.2). -/
def State.idReg (s : State) (off : Nat) : Nat :=
  if off = 0x00 then 0x57533430
  else if off = 0x04 then 0x010000B0
  else if off = 0x08 then 0x0100
  else if off = 0x10 then Config.serial.toNat % 2 ^ 32
  else if off = 0x14 then Config.serial.toNat / 2 ^ 32
  else if off = 0x18 then s.ext.version.toNat % 2 ^ 32
  else if off = 0x1C then s.ext.version.toNat / 2 ^ 32
  else if off = 0x20 then
    s.activeTowers + s.slotMask * 65536 + putBit s.fabric.topo.isSome 20 + s.fuses.state * 2 ^ 24
  else if off = 0x30 then putBit s.power.ready 0 + s.power.phase * 2
  else 0

/-- The register at a base address, without the early-read rule. -/
def State.regRaw (s : State) (a : Nat) : Nat :=
  match ctrAt a with
  | some c => (s.getCtr c).low.toNat
  | none =>
    match (if a < 4 then none else ctrAt (a - 4)) with
    | some c => (s.getCtr c).shadow.toNat
    | none =>
      match towerOf a with
      | some (t, o) => s.towerReg t o
      | none =>
        let off := a % 0x10000
        match a / 0x10000 with
        | 0 => s.idReg off
        | 1 => (s.mbx (off / 0x1000)).reg (off % 0x1000)
        | 2 => s.evtReg off
        | 3 => s.belfryReg off
        | 4 => s.eccReg off
        | 5 => s.window.reg off
        | 6 => s.keepReg off
        | _ => 0

/-- What a host read of a defined register returns. Before phase 6 identity, Keep and refusal registers read as defined,
an owned mailbox reads as frozen, and every other register reads its reset value (Table 15.7). In a halted start-up, where
Beryl takes commands, the mailboxes read as they stand (R418). -/
def State.regRead (s : State) (a : Nat) : Nat :=
  let b := baseAddr a
  if s.power.ready || decide (6 ≤ s.power.phase) then s.regRaw b
  else
    match b / 0x10000 with
    | 0 => s.regRaw b
    | 6 => s.regRaw b
    | 1 => if (s.mbx (b % 0x10000 / 0x1000)).own || s.power.halted then s.regRaw b else (State.powerUp [] s.fuses).regRaw b
    | _ => (State.powerUp [] s.fuses).regRaw b

end Sys2Proof.Machine
end

