-- ==== Sys2Proof/Machine/Streams.lean ====
section
/-!
DEFINITION. What a tower's Jasper decides alone: which requests are ready (R185, R187,
R188, R195), the credits they take (R187, R199), the outbound window that they leave through (R18), where a response lands (R189).
-/
namespace Sys2Proof.Machine

open Sys2Proof

/-! ### Requests -/

def Req.bytes (r : Req) : Nat := if r.pieces.isEmpty then r.len else (r.pieces.map Prod.snd).foldl (· + ·) 0

/-- Credits that a request takes: one, or one for each transfer of a far-end request (R187, R199). -/
def Req.credits (r : Req) : Nat := if r.pieces.isEmpty then 1 else ceilDiv r.bytes 512

/-- The units of 64 bytes that an extent touches. -/
def unitsOf (a len : Nat) : List Nat :=
  if len = 0 then [] else (List.range ((a + len - 1) / 64 - a / 64 + 1)).map (a / 64 + ·)

/-- What a request brings into the landing buffer. -/
def Req.units (r : Req) : List (Nat × Nat) :=
  (if r.pieces.isEmpty then unitsOf r.addr r.len else r.pieces.flatMap fun q => unitsOf q.1 q.2).map fun u => (r.sub, u)

/-- Where a request enters the memory: the port of its granule, or for a far-end request port (tower number) mod 3 of the stack
(R192, R199). -/
def Req.port (r : Req) (m : Mem) (tower : Nat) : Node :=
  match r.pieces with
  | [] => m.portOf r.addr
  | q :: _ => .stackPort (m.place q.1).stack (tower % 3)

/-- The sub-stream whose entries name the rows of a stream's DATA: INDEX2 for CSR, INDEX1 for the other index-driven kinds
(Table 7.5). -/
def Stream.driver (x : Stream) : Option Nat := match x.kind with | 1 | 3 | 4 => some 4 | 2 => some 5 | _ => none

/-- The least entry of an index sub-stream that has not landed; none when all have. -/
def Stream.missing (x : Stream) (sub : Nat) : Option Nat :=
  ((x.todo ++ x.sent.map OutReq.req).filter fun r => r.sub == sub).foldl (fun (a : Option Nat) r => some (match a with
    | some e => min e r.entry
    | none => r.entry)) none

/-- Has an entry of an index sub-stream landed, with all before it? -/
def Stream.entryIn (x : Stream) (sub e : Nat) : Bool := match x.missing sub with | some m => decide (e < m) | none => true

/-- What the bursts of the span that comes first still need: the span slice that the spires are consuming. -/
def Stream.frontNeeds (x : Stream) : List (Nat × Nat) :=
  match x.bursts with
  | [] => []
  | b :: _ => (x.bursts.filter fun q => q.span == b.span).flatMap Burst.needs

def Req.serves (r : Req) (needs : List (Nat × Nat)) : Bool := r.units.any needs.contains

/-- Bytes of DATA landed or on their way beyond the span slice that the spires are consuming (R185). -/
def Stream.ahead (x : Stream) : Nat :=
  let f := x.frontNeeds
  ((x.sent.filter fun q => q.req.sub == 0 && !q.req.serves f).map fun q => q.req.bytes).foldl (· + ·) 0
    + 64 * (x.landed.filter fun u => u.1 == 0 && !f.contains u).length

/-- Is a read stream at its run-ahead distance, with nothing left to ask for that the span slice in hand needs (R185, R187)? -/
def Stream.atDistance (x : Stream) : Bool :=
  let f := x.frontNeeds
  x.kind != 5 && decide (x.dist ≤ x.ahead) && !x.todo.any fun r => r.serves f

/-- The entry that the front of DATA needs; none when no DATA request is left. -/
def Stream.front (x : Stream) : Option Nat := (x.todo.find? fun r => r.sub == 0).map Req.entry

/-- The entry of INDEX1 that the front of DATA needs: of CSR the first-level entry of its edge (Table 7.5). -/
def Stream.front1 (x : Stream) : Option Nat :=
  (x.todo.find? fun r => r.sub == 0).map fun r => if x.kind = 2 then r.need else r.entry

/-- May a request be issued: within the run-ahead distance, its index landed; no entry of an index further ahead than Table 7.3 allows, and
INDEX2 behind INDEX1 (R185, R187, R195)? -/
def Stream.reqReady (x : Stream) (r : Req) : Bool :=
  let near (front : Option Nat) (n : Nat) : Bool := match front with | some f => decide (r.last ≤ f + n) | none => true
  let indexed : Bool := match x.driver with | some d => x.entryIn d r.entry | none => true
  match r.sub with
  | 4 => near x.front1 1024
  | 5 => x.entryIn 4 r.need && near x.front 4096
  | 0 => indexed && (x.kind == 5 || decide (x.ahead < x.dist) || r.serves x.frontNeeds)
  | _ => indexed

/-- The request that a stream issues next: the first of each sub-stream in turn, the index levels before what they drive. -/
def Stream.nextReq (x : Stream) : Option Nat :=
  if x.halted || x.atDistance then none
  else [4, 5, 0, 1, 2, 3].findSome? fun sub =>
    (x.todo.findIdx? fun r => r.sub == sub).filter fun i => (x.todo[i]?).any x.reqReady

/-! ### Credits -/

def Stream.reservedUsed (x : Stream) : Nat := (x.sent.map OutReq.reserved).foldl (· + ·) 0
def Stream.sharedUsed (x : Stream) : Nat := (x.sent.map OutReq.shared).foldl (· + ·) 0

/-- Reserved credits that a stream may still use, of its 8 (R187). -/
def Stream.reservedFree (x : Stream) : Nat := 8 - x.reservedUsed

/-- Shared credits that no request holds: 512 less 8 for each open stream (R187). -/
def Tower.sharedFree (t : Tower) : Nat := 512 - 8 * t.streams.length - (t.streams.map Stream.sharedUsed).foldl (· + ·) 0

/-- Do the read streams of an item hold everything that its output needs? -/
def Tower.readsDone (t : Tower) (item : Nat) : Bool :=
  (t.streams.filter fun x => x.item == item && x.kind != 5).all fun x => x.todo.isEmpty && x.sent.isEmpty && x.bursts.isEmpty

/-- Does the output tile of an item stand: its operands consumed, and every span of the tile folded (R31)? -/
def Tower.formed (t : Tower) (item : Nat) : Bool :=
  t.readsDone item && t.started.any fun w => w.num == item && w.formed

/-- The request that a stream of a tower would issue; an output tile is written once it stands. -/
def Tower.wants (t : Tower) (x : Stream) : Option Req :=
  if x.kind = 5 && !t.formed x.item then none else x.nextReq.bind fun i => x.todo[i]?

/-- Slots of the outbound ring that are taken, of 512 (R18). -/
def Tower.outSlots (t : Tower) : Nat := (t.outbound.map fun q => ceilDiv q.bytes 256).foldl (· + ·) 0

/-- Slots that a request takes in the outbound ring: a read travels as a header, a write with its data. -/
def sendBytes (x : Stream) (r : Req) : Nat := if x.kind = 5 then r.bytes else 64

/-- Streams in the order in which the shared credits are granted: by number, after the one last served (R187). -/
def Tower.robin (t : Tower) : List Stream :=
  (List.range 16).flatMap fun k => t.streams.filter fun x => x.num == (t.lastServed + 1 + k) % 16

/-- The next request to leave: of a stream whose reserved credits suffice, else round-robin over the shared credits (R187). The answer is
the stream, its request, and the reserved and shared credits that it takes. DESIGN CHOICE (log 87): streams with a reserved credit are
served in the order in which they opened, before any shared grant; a far-end request that needs more shared credits than are free is
passed over. -/
def Tower.nextIssue (t : Tower) : Option (Stream × Req × Nat × Nat) :=
  let fits (x : Stream) (r : Req) : Bool := decide (t.outSlots + ceilDiv (sendBytes x r) 256 ≤ 512)
  let own := t.streams.findSome? fun x => match t.wants x with
    | some r => if r.credits ≤ x.reservedFree ∧ fits x r then some (x, r, r.credits, 0) else none
    | none => none
  own.or (t.robin.findSome? fun x => match t.wants x with
    | some r => if r.credits - x.reservedFree ≤ t.sharedFree ∧ fits x r then
        some (x, r, min r.credits x.reservedFree, r.credits - x.reservedFree) else none
    | none => none)

/-- The mesh has read what the tower put into its outbound ring before; a failed router reads nothing (R18, R26; log 88). -/
def Tower.meshReads (t : Tower) : Tower := if t.routerFault then t else { t with outbound := [] }

/-- The least landing slot of a stream that no request holds (R189). -/
def Stream.freeSlot (x : Stream) : Nat := ((List.range 512).find? fun k => !x.sent.any fun q => q.slot == k).getD 0

def Tower.modStream (t : Tower) (num : Nat) (f : Stream → Stream) : Tower :=
  { t with streams := t.streams.map fun x => if x.num = num then f x else x }

def Tower.stream (t : Tower) (num : Nat) : Option Stream := t.streams.find? fun x => x.num == num

/-- Requests leave through the outbound ring until none can (R18, R187, R188); JSP_OUTST_PEAK follows. -/
def Tower.issue (m : Mem) (me : Nat) : Nat → Tower → Tower
  | 0, t => t
  | n + 1, t =>
    match t.nextIssue with
    | none => t
    | some (x, r, own, sh) =>
      let slot := x.freeSlot
      let t1 := t.modStream x.num fun (y : Stream) => { y with
        todo := y.todo.eraseIdx (x.nextReq.getD 0), sent := y.sent ++ [(⟨r, slot, t.epoch, own, sh⟩ : OutReq)] }
      let t2 := { t1 with
        lastServed := if sh = 0 then t1.lastServed else x.num
        outbound := t1.outbound ++ [(⟨x.kind == 5, r.port m me, sendBytes x r, some (x.num, slot)⟩ : Send)] }
      let far (j : JspCtrs) : JspCtrs := if r.pieces.isEmpty || j.freeze then j else { j with
        farReq := j.farReq + 1, farPieces := j.farPieces + BitVec.ofNat 32 r.pieces.length }
      Tower.issue m me n { t2 with jsp := far { t2.jsp with outstPeak := max t2.jsp.outstPeak t2.outstanding } }

/-- Has a stream below its run-ahead distance a request ready and no credit (Table 7.8)? -/
def Tower.stalled (t : Tower) : Bool :=
  t.streams.any fun x => match t.wants x with
    | some r => decide (x.reservedFree + t.sharedFree < r.credits)
    | none => false

/-- Does a spire hold a started item whose next span Jasper has not delivered (R203)? -/
def Tower.starving (t : Tower) : Bool := t.started.any fun w => decide (w.span < w.item.hi)

/-- What the next report of the tower will tell of its waits: a stream without a credit, a spire without its operands. -/
def Tower.note (t : Tower) : Tower := { t with starved := t.starved || t.starving, noCredit := t.noCredit || t.stalled }

/-- Jasper issues what it can; what waited before and what waits behind it, the report tells (R203, R205). -/
def State.issueAll (s : State) (t : Nat) : State := s.modTower t fun x => (Tower.issue s.mem t 512 x.note.meshReads).note

/-! ### Landing -/

/-- A response lands in its slot; its credits are free again (R187, R189). -/
def Stream.land (x : Stream) (slot : Nat) : Stream :=
  { x with
    sent := x.sent.filter fun q => q.slot != slot
    landed := x.landed ++ (x.sent.filter fun q => q.slot == slot).flatMap fun q => q.req.units }

/-- Has a stream done all its work? -/
def Stream.complete (x : Stream) : Bool := x.todo.isEmpty && x.sent.isEmpty && x.bursts.isEmpty && !x.halted

/-- What the spires have consumed leaves the landing buffer: the units that no later burst needs (R185). -/
def Stream.consume (x : Stream) : Stream :=
  { x with landed := x.landed.filter fun u => decide (4 ≤ u.1) || x.bursts.any fun b => b.needs.contains u }

/-- The number of a new stream: the least that is free in the tower. DESIGN CHOICE (log 87). -/
def Tower.freeNum (t : Tower) : Nat := ((List.range 16).find? fun k => !t.streams.any fun x => x.num == k).getD 0

end Sys2Proof.Machine
end

