-- ==== Sys2Proof/Machine/StepEnd.lean ====
section
/-!
DEFINITION. The completion of a RUN_STEP: its 32 bytes (Table 14.11), the statistics window (R393, R394), its vectors
(R354); the beacon (Table 10.7); ramps (R324) and the holding of the cadence (R277, R328, R329); the cadence check and the
step barrier's refusals (R276, R327).
-/
namespace Sys2Proof.Machine

open Sys2Proof

/-- The eight counters of each tower in service, and the energy: a sample of R394. -/
def State.sampleNow (s : State) : List (Nat × List Quad) × Quad :=
  (((s.towers.mapIdx fun i x => (i, x)).filter fun (p : Nat × Tower) => p.2.inService).map fun p =>
    (p.1, (List.range 8).map fun k => (p.2.ctr (k + 1)).v), s.measure.energy.v)

/-- The towers of a sample that are in service still: those in service during the whole step (R394). -/
def State.sampled (s : State) (l : List (Nat × List Quad)) : List (Nat × List Quad) := l.filter fun p => (s.tower p.1).inService

/-- The sums of the window: differences from the sample at FWD(0), each over the same towers; zero without one (R38, R394). -/
def State.sumsSince (s : State) (sample : Option (List (Nat × List Quad) × Quad)) : List Quad :=
  match sample with
  | none => List.replicate 9 0
  | some (l, e) =>
    ((List.range 8).map fun k => (s.sampled l).foldl (fun a p => a + (((s.tower p.1).ctr (k + 1)).v - p.2.getD k 0)) 0)
      ++ [s.measure.energy.v - e]

/-- A field of the window takes a value; its shadow stands (R344, R393). -/
def Ctr.put (c : Ctr) (v : Quad) : Ctr := ⟨v, c.shadow⟩

/-- The window after a step has completed (R393): SEQ rises by two in all. A step that fails before its FWD begins fills only what tells
its result (R394). -/
def State.rewriteWindow (s : State) (p : Step) (status : Nat) (updated : Bool) : Window :=
  let w := s.window
  let begun := p.sample.isSome
  { seq := w.seq + 2
    step := w.step.put p.number
    status := status
    slot := p.slot
    updated := updated
    count := match p.sample with | some q => (s.sampled q.1).length | none => 0
    elapsed := w.elapsed.put (s.power.time.v - p.accepted)
    sums := w.sums.zipWith Ctr.put (s.sumsSince p.sample)
    fallbacks := min p.fallbacks 0xFFFF
    rungChanges := min p.rungChanges 0xFFFF
    normJumps := BitVec.ofNat 32 p.normJumps
    storm := p.stormNow
    cold := begun && p.cold
    widenLeft := if begun then (s.slot p.slot).widenLeft else 0 }

/-- The 32 bytes of a RUN_STEP completion (Table 14.11). -/
def State.stepBytes (s : State) (p : Step) : List Byte :=
  let (fr, nr) := match p.combined with
    | some c => (c.failRank, c.nonfinRank)
    | none => (0xFFFFFFFF, 0xFFFFFFFF)
  toLe 8 p.number.toNat ++ toLe 4 (s.slot p.slot).t ++ toLe 2 (min p.fallbacks 0xFFFF)
    ++ toLe 2 (min p.rungChanges 0xFFFF) ++ toLe 4 fr ++ toLe 4 nr ++ toLe 8 (s.power.time.v - p.accepted).toNat

/-- A RUN_STEP completes: the window, then the mailbox and its vector, then vector 9 (R354, R372, R393). The step leaves
`steps`, and its work leaves the towers. -/
def State.finishStep (s : State) (i : Nat) (status : Nat) (updated : Bool) : State :=
  match s.steps[i]? with
  | none => s
  | some p =>
    let data := s.stepBytes p
    let s1 := { s with window := s.rewriteWindow p status updated, steps := s.steps.eraseIdx i }
    let s2 := s1.dropItems fun it => it.slot == p.slot && it.step == p.number.toNat
    (s2.complete p.mbx status data).raise 9

/-! ### Beacons and ramps -/

/-- The beacon that the module sends (Table 10.7). -/
def State.beacon (s : State) : Beacon :=
  let b := s.belfry
  let (job, board, slot) := match s.fabric.topo with
    | some t => match t.modules[t.myRank]? with
      | some m => (t.jobId, m.board, m.slot)
      | none => (t.jobId, 0, 0)
    | none => (0, 0, 0)
  { jobId := job, board := board, slot := slot, hold := b.hold, ramping := b.ramping
    declared := s.fabric.topo.isSome, cadence := b.cadence
    pending := match b.pending with | some (c, _) => c | none => 0xFF
    holdMax := b.holdMax
    rampTarget := if b.ramping then b.rampTarget else b.cadence
    pendingStep := match b.pending with | some (_, e) => e.toNat % 2 ^ 32 | none => 0 }

/-- A beacon on every link in service, at once (R325). -/
def State.sendBeacon (s : State) : State :=
  if s.fabric.links.any fun l => l.state != 0 then { s with out := { s.out with beacons := s.out.beacons ++ [s.beacon] } }
  else s

/-- Core set-points for a cadence code, with the ageing trim, in tenths of a millivolt (R311). -/
def Thermal.setpoints (t : Thermal) (code : Nat) : List Nat :=
  (List.range 4).map fun q => Config.coreVolt q code + 25 * t.trim.getD q 0

/-- A ramp begins (R324): an upward one raises the set-points and waits for the regulators. -/
def State.startRamp (s : State) (target : Nat) : State :=
  let b := s.belfry
  if target > b.cadence then
    ({ s with
        belfry := { b with rampTarget := target, ramping := true, settling := true }
        thermal := { s.thermal with setpoint := s.thermal.setpoints target } }).sendBeacon
  else { s with belfry := { b with rampTarget := target, settling := false } }

/-! ### Board peers -/

/-- The peer slot of a link (R256). -/
def peerSlot (mine l : Nat) : Nat := if l < mine then l else l + 1

/-- The module's own entry of the declared topology. -/
def Topology.me (t : Topology) : Option ModEnt := t.modules[t.myRank]?

/-- Links whose far end the topology declares on this board. -/
def State.peerLinks (s : State) : List Nat :=
  match s.fabric.topo with
  | none => []
  | some t =>
    match t.me with
    | none => []
    | some me => (List.range 7).filter fun l =>
        t.modules.any fun m => m.board == me.board && m.slot == peerSlot me.slot l

def State.link (s : State) (l : Nat) : Link := s.fabric.links.getD l Link.reset

/-- The beacon of a link when it is no older than 20 microseconds (R276). -/
def State.freshBeacon (s : State) (l : Nat) : Option Beacon :=
  let k := s.link l
  if (s.power.time.v - k.seenAt).toNat ≤ 20000 then k.beacon else none

/-- A peer's cadence at step s (R276). -/
def Beacon.cadenceAt (b : Beacon) (step : Quad) : Nat :=
  if b.pending ≠ 0xFF ∧ step.toNat % 2 ^ 32 ≥ b.pendingStep then b.pending else b.rampTarget

/-- Records CADENCE_MISMATCH (Table 10.9): own code, lowest and highest codes seen, source. -/
def State.cadenceMismatch (s : State) (p : Step) (own : Nat) (codes : List Nat) (source : Nat) : State :=
  s.event p.src 0x0405 [(1, own), (1, (own :: codes).foldl min own), (1, (own :: codes).foldl max own), (1, source)]

/-- A step that stands at its barrier is refused: CADENCE_HOLD, no phase starts (R276, R277, R327). -/
def State.refuseBarrier (s : State) (i : Nat) : State :=
  match s.steps[i]? with
  | none => s
  | some p =>
    let codes := (s.peerLinks.filterMap s.freshBeacon).map fun b => b.cadenceAt p.number
    (s.cadenceMismatch p p.cadence codes 0).finishStep i stCADENCE_HOLD false

/-- The step that stands at its barrier. -/
def State.barrierIdx (s : State) : Option Nat :=
  s.steps.findIdx? fun p => p.stage == .barrier && p.ended == .running

/-- The check of R276, tried whenever a beacon or the end of the wait may decide it; and the last condition of R326, which
ends the wait at once. -/
def State.cadenceCheck (s : State) : State :=
  match s.barrierIdx with
  | none => s
  | some i =>
    match s.steps[i]? with
    | none => s
    | some p =>
      let links := s.peerLinks
      let fresh := links.filterMap s.freshBeacon
      if decide (s.belfry.holdMax < p.cadence) || (fresh.any fun b => decide (b.holdMax < p.cadence)) then s.refuseBarrier i
      else if p.checked then s
      else if fresh.length < links.length && !p.waitOver then s
      else if fresh.any fun b => b.cadenceAt p.number != p.cadence then s.refuseBarrier i
      else s.modStep i fun q => { q with checked := true }

/-! ### Holding the cadence -/

/-- A cause of HOLD is raised (R277, R328): HOLD_MAX, the event and vector 6; a ramp upward past HOLD_MAX turns to it
(R329); a step at its barrier above HOLD_MAX is refused (R327). A cause that holds already is not raised again, but for AGEING, which
each quarter at its bound raises with the HOLD_MAX found then (R331). -/
def State.raiseHold (s : State) (cause mx : Nat) : State :=
  let b := s.belfry
  if cause != 4 && b.holds.any fun h => h.cause == cause && !h.cleared then s
  else
    let b1 := { b with holds := (b.holds.filter fun h => h.cause != cause && !h.cleared) ++ [⟨cause, mx, false⟩] }
    let m := b1.holdMax
    let b2 := if decide (b1.rampTarget > b1.cadence) && decide (b1.rampTarget > m) then { b1 with rampTarget := m } else b1
    let s1 := ({ s with belfry := b2 }).event .module 0x0406 [(1, b2.cadence), (1, m), (1, cause)]
    ((s1.raise 6).sendBeacon).cadenceCheck

/-- A cause clears: it leaves when another still holds, else it waits for the cadence (R328). -/
def Belfry.clearCause (b : Belfry) (cause : Nat) : Belfry :=
  if b.holds.any fun h => h.cause != cause && !h.cleared then { b with holds := b.holds.filter fun h => h.cause != cause }
  else { b with holds := b.holds.map fun h => if h.cause = cause then { h with cleared := true } else h }

/-- A cause clears; a HOLD_MAX that rises with it goes out in a beacon at once (R325, R328). -/
def State.causeClears (s : State) (cause : Nat) : State :=
  let s1 := { s with belfry := s.belfry.clearCause cause }
  if s1.belfry.holdMax = s.belfry.holdMax then s1 else s1.sendBeacon

/-- HOLD clears when every cause has cleared and the cadence is at or below HOLD_MAX (R328); the beacon follows (R325). -/
def State.tryClearHold (s : State) : State :=
  let b := s.belfry
  if b.hold && (b.holds.all fun h => h.cleared) && decide (b.cadence ≤ b.holdMax) then
    ({ s with belfry := { b with holds := [] } }).sendBeacon
  else s

end Sys2Proof.Machine
end

