-- ==== Sys2Proof/Machine/Belfry.lean ====
section
/-!
DEFINITION. Belfry's commands: supply and thermal events (R322, R323), the tower reports and their slot classes (R34, R316,
R318, R320, R321), the fast and slow loops (R317, R319, R315), ramps (R324), droop windows (R320), ageing (R330, R331) and
the holding of the cadence (R328).
-/
namespace Sys2Proof.Machine

open Sys2Proof

/-- An event that changes nothing when the block is off (log 3). -/
def State.whenOn (s : State) (f : State → State) : State := if s.power.powered then f s else s

/-! ### Supply -/

/-- The bubble floor of 48 (Tables 12.3 and 12.4). -/
def Belfry.floor48 (b : Belfry) : Belfry := { b with bubble := max b.bubble 48 }

/-- SUPPLY_WARN: the input falls below 49.0 V (Table 12.4). -/
def State.supplyWarn (s : State) (mv : Nat) : State :=
  if decide (mv < 49000) then
    let s1 := { s with
      belfry := { s.belfry with supplyFloor := true }.floor48
      measure := { s.measure with supplyWarn := s.measure.supplyWarn + 1 }
      power := { s.power with smbAlert := s.power.smbAlert ||| 4 } }
    let src : EvSrc := match s.steps.head? with
      | some p => ⟨p.slot, p.number, 0xFFFF⟩
      | none => .module
    (s1.event src 0x0602 [(2, mv)]).raise 6
  else s

def execSupplyWarn (mv : Nat) (s : State) : Out' := .next (s.whenOn fun s => s.supplyWarn mv)

/-- SUPPLY_RESUME: above 50.0 V for 1 ms; the floor lifts (Table 12.4). -/
def State.supplyResume (s : State) (lowest micros : Nat) : State :=
  if s.belfry.supplyFloor then
    (({ s with belfry := { s.belfry with supplyFloor := false } }).event .module 0x0603 [(2, lowest), (4, micros)]).raise 6
  else s

def execSupplyResume (lowest micros : Nat) (s : State) : Out' := .next (s.whenOn fun s => s.supplyResume lowest micros)

/-! ### Thermal -/

/-- The hottest reading; the first listed among equals. -/
def hottest (l : List Junction) : Option Junction :=
  l.foldl (fun a j => match a with
    | none => some j
    | some h => if j.temp > h.temp then some j else some h) none

/-- TWR_TJ of towers in service takes the sample (Table 15.6). -/
def State.storeTj (s : State) (l : List Junction) : State :=
  l.foldl (fun s j =>
    if j.unit < 324 then
      s.modTower j.unit fun t => if t.inService then { t with tj := BitVec.ofNat 8 (tempByte j.temp) } else t
    else s) s

/-- The 95 °C row of Table 12.3: once per upward crossing. -/
def State.thermalWarn (s : State) (h : Junction) : State :=
  let up := decide (h.temp ≥ 95)
  let s1 := { s with thermal := { s.thermal with above95 := up } }
  if up && !s.thermal.above95 then
    let s2 := { s1 with power := { s1.power with smbAlert := s1.power.smbAlert ||| 1 } }
    (s2.event .module 0x0604 [(2, h.unit), (1, tempByte h.temp)]).raise 7
  else s1

/-- The 100 °C row of Table 12.3: the first fall of the thermal cap, and which way the 1 ms steps go. -/
def State.thermalCapSample (s : State) (h : Junction) : State :=
  let hot := decide (h.temp ≥ 100)
  { s with
    belfry := if hot && !s.thermal.falling then
        { s.belfry with thermalCap := max 80 (s.belfry.thermalCap - 2) }
      else s.belfry
    thermal := { s.thermal with falling := hot, rising := decide (h.temp ≤ 97) } }

/-- The 105 °C row of Table 12.3: floor, THERMAL_CRIT and HOLD; the floor and the cause lift at or below 100 °C. -/
def State.thermalCrit (s : State) (h : Junction) : State :=
  if decide (h.temp ≥ 105) && !s.belfry.thermalFloor then
    let s1 := { s with
      belfry := { s.belfry with thermalFloor := true }.floor48
      power := { s.power with smbAlert := s.power.smbAlert ||| 2 } }
    ((s1.event .module 0x0605 [(2, h.unit), (1, tempByte h.temp)]).raise 7).raiseHold 2 (s.belfry.cadence - 4)
  else if decide (h.temp ≤ 100) && s.belfry.thermalFloor then
    ({ s with belfry := { s.belfry with thermalFloor := false } }).causeClears 2
  else s

/-- The rail of a sensor's unit: the core rail of a tower's quarter, the rail of a stack, the I/O rail (Table 12.1). -/
def railOf (unit : Nat) : Nat := if unit < 324 then quarterOf unit else if 0x180 ≤ unit ∧ unit < 0x18C then 4 + (unit - 0x180) else 16

/-- The hottest junction of each rail; a rail without a reading keeps its last (R316). -/
def railTemps (old : List Int) (l : List Junction) : List Int :=
  old.mapIdx fun r t => match hottest (l.filter fun j => railOf j.unit == r) with
    | some h => h.temp
    | none => t

/-- One 100 microsecond junction sample (R322). -/
def State.thermalSample (s : State) (l : List Junction) : State :=
  match hottest l with
  | none => s
  | some h =>
    let s1 := (s.storeTj l)
    let s2 := { s1 with thermal := { s1.thermal with temp := h.temp, unit := h.unit, rails := railTemps s1.thermal.rails l } }
    ((s2.thermalWarn h).thermalCapSample h).thermalCrit h

def execThermalSample (l : List Junction) (s : State) : Out' := .next (s.whenOn fun s => s.thermalSample l)

/-- The 1 ms step of the thermal cap (Table 12.3), in units of 10 W. -/
def State.thermalCapStep (s : State) : State :=
  let b := s.belfry
  if s.thermal.falling then { s with belfry := { b with thermalCap := max 80 (b.thermalCap - 2) } }
  else if s.thermal.rising then { s with belfry := { b with thermalCap := min 240 (b.thermalCap + 2) } }
  else s

def execThermalCapStep (s : State) : Out' := .next (s.whenOn State.thermalCapStep)

/-! ### Reports -/

/-- Six bits in reverse order (R318). -/
def bitRev6 (i : Nat) : Nat :=
  i % 2 * 32 + i / 2 % 2 * 16 + i / 4 % 2 * 8 + i / 8 % 2 * 4 + i / 16 % 2 * 2 + i / 32 % 2

/-- Slots of a run of cycles by what suppresses them. -/
structure Suppressed where
  frame : Nat
  droopLeft : Nat
  droop : Nat
  power : Nat
  free : Nat
  deriving DecidableEq, Repr

/-- Each cycle's issue slots: droop first, then the power pattern, else free (R34, R318, R320, R321). -/
def runCycles (b : Nat) : Nat → Suppressed → Suppressed
  | 0, x => x
  | n + 1, x =>
    let odd := decide (0 < x.droopLeft) && (64 - x.droopLeft % 64) % 2 == 1
    let y : Suppressed :=
      if odd then { x with droop := x.droop + 32 }
      else if bitRev6 x.frame < b then { x with power := x.power + 32 }
      else { x with free := x.free + 32 }
    runCycles b n { y with frame := (x.frame + 1) % 64, droopLeft := x.droopLeft - 1 }

/-- The counters of a tower after a report: the five classes sum to 32 slots a cycle (R34, R35). -/
def TowerCtrs.report (c : TowerCtrs) (a : Activity) (x : Suppressed) : TowerCtrs :=
  if c.freeze then c
  else
    let issued := min a.issued x.free
    let starved := min a.starved (x.free - issued)
    { c with
      cycles := c.cycles.add a.cycles
      issued := c.issued.add issued
      pwrBub := c.pwrBub.add x.power
      droopBub := c.droopBub.add x.droop
      starved := c.starved.add starved
      idle := c.idle.add (x.free - issued - starved)
      fwdCells := c.fwdCells.add ((c.fwdRem + a.fwd) / 1024)
      bwdCells := c.bwdCells.add ((c.bwdRem + a.bwd) / 256)
      fwdRem := (c.fwdRem + a.fwd) % 1024
      bwdRem := (c.bwdRem + a.bwd) % 256 }

/-- What a tower did with the slots that no bubble suppressed. Each slot starts at most one forward operation of 1,024 cell products,
one backward operation of 256 and one vector operation (R14), on the work that its spires hold; work for which no slot was free waits.
How many starts share a slot the report says; at least as many slots issued as the busiest unit started, at most one for each start.
Slots starve only where since the report before a spire has waited for Jasper (R203), and a stream's wait counts only where one has stood
without a credit (R205); how many of them, the report says, which leaves out those that waited for anything else. -/
def Tower.activity (t : Tower) (a : Activity) (free : Nat) : Activity :=
  let f := min (ceilDiv t.fwdWork 1024) free
  let b := min (ceilDiv t.bwdWork 256) free
  let v := min t.vecWork free
  { a with
    issued := max (max f (max b v)) (min a.issued (f + b + v))
    starved := if t.starved then a.starved else 0
    fwd := min t.fwdWork (1024 * f)
    bwd := min t.bwdWork (256 * b)
    vec := v
    stall := if t.noCredit then min a.stall a.cycles else 0 }

/-- A period joins the current millisecond of a tower's droop history. -/
def growDroop (cycles droop : Nat) : List (Nat × Nat) → List (Nat × Nat)
  | [] => [(cycles, droop)]
  | q :: r => (q.1 + cycles, q.2 + droop) :: r

/-- A tower's cycles of the period pass; its clock has reached the cadence in force (R21). -/
def Tower.report (t : Tower) (a0 : Activity) (cadence : Nat) : Tower :=
  let x := runCycles t.bubble a0.cycles ⟨t.frame, t.droopLeft, 0, 0, 0⟩
  let a := t.activity a0 x.free
  { t with
    ctrs := t.ctrs.report a x
    jsp := if t.jsp.freeze then t.jsp else { t.jsp with creditStall := t.jsp.creditStall.add a.stall }
    frame := x.frame
    droopLeft := x.droopLeft
    droopNew := 0
    droopHist := growDroop a0.cycles (min a0.cycles t.droopLeft) t.droopHist
    clock := cadence
    starved := t.starving
    noCredit := t.stalled
    fwdWork := t.fwdWork - a.fwd
    bwdWork := t.bwdWork - a.bwd
    vecWork := t.vecWork - a.vec }

/-- One report over the control ring (R316): from a tower in service, or from a base die (unit 0x180 + stack). -/
def State.activityReport (s : State) (u : Nat) (a : Activity) : State :=
  if u < 324 then
    let t := s.tower u
    if t.inService then
      let n := t.droopNew
      let seen := t.activity a (runCycles t.bubble a.cycles ⟨t.frame, t.droopLeft, 0, 0, 0⟩).free
      let s1 := s.modTower u fun t => t.report a s.belfry.cadence
      { s1 with
        measure := { s1.measure with
          droopWin := s1.measure.droopWin.add n
          reports := s1.measure.reports ++ [(u, seen)]
          droopCount := s1.measure.droopCount + n }
        belfry := { s1.belfry with droopSeen := s1.belfry.droopSeen || decide (0 < n) || t.droopOn || decide (0 < t.droopLeft) } }
    else s
  else if 0x180 ≤ u ∧ u < 0x18C then
    { s with measure := { s.measure with reports := s.measure.reports ++ [(u, a)] } }
  else s

def execTowerActivityReport (u : Nat) (a : Activity) (s : State) : Out' := .next (s.whenOn fun s => s.activityReport u a)

/-! ### The fast loop -/

/-- The parts of a period's power from counts, in microwatts: issued slots and cell products; the memory terms, which are Jasper's bytes
and what the base dies report; the rest (R316, R319). -/
structure Power3 where
  twr : Nat
  mem : Nat
  rest : Nat
  deriving DecidableEq, Repr

/-- Power of a period's counts at a cadence code (R316). -/
def reportPower (code : Nat) (l : List (Nat × Activity)) : Power3 :=
  l.foldl (fun acc (r : Nat × Activity) =>
    let a := r.2
    let w := Config.activityWeight code
    if r.1 < 324 then
      { twr := acc.twr + ceilDiv a.fwd 1024 * w 0 + ceilDiv a.bwd 256 * w 8 + a.vec * w 9 + a.fwd * w 1 + a.bwd * w 2
        mem := acc.mem + (a.rdBytes + a.wrBytes) * w 4
        rest := acc.rest + a.vec * w 3 }
    else { acc with mem := acc.mem + (a.rdBytes + a.wrBytes) * w 5 + a.vec * w 6 }) ⟨0, 0, 0⟩

/-- The static term of every rail: four core, twelve stack, one I/O, each from its measured voltage and the hottest junction on it (R316,
Table 12.1; log 11). -/
def State.staticPower (s : State) : Nat :=
  (List.range 17).foldl (fun a r =>
    a + Config.staticPower r (s.measure.rails.getD r ⟨0, 0⟩).mv (s.thermal.rails.getD r 0)) 0

/-- The target bubble count b* (R317): powers E and T, cap C in one unit, b the count in force. -/
def bubbleTarget (est twr cap b : Nat) : Nat :=
  if est ≤ cap then 0
  else if twr = 0 then 60
  else
    let num : Int := ((est : Int) - twr - cap) * ((64 - b : Nat) : Int)
    -- the ceiling of num / twr
    let c : Int := 64 - (-num) / (twr : Int)
    (max 0 (min 60 c)).toNat

/-- b of the next period (R317): up at once, down by at most 4, never below a floor in force. -/
def nextBubble (target b : Nat) (floored : Bool) : Nat :=
  let n := if target ≥ b then target else max target (b - 4)
  if floored then max n 48 else n

/-- One ramp step at a period boundary (R324): none while the regulators settle or after a droop window. When a ramp ends, also one that
a HOLD_MAX has cut short, the set-points are those of the code in force (R311). A tower's own clock, which has
followed the step before, takes this one with its next report: two towers differ by at most one step (R21). -/
def State.rampStep (s : State) : State :=
  let b := s.belfry
  if b.rampTarget = b.cadence ∨ b.settling then
    if b.ramping ∧ ¬ b.settling ∧ b.rampTarget = b.cadence then
      ({ s with
        belfry := { b with ramping := false }
        thermal := { s.thermal with setpoint := s.thermal.setpoints b.cadence } }).sendBeacon
    else s
  else if b.droopSeen then { s with measure := { s.measure with rampPause := s.measure.rampPause + 1 } }
  else
    let up := decide (b.rampTarget > b.cadence)
    let c := if up then b.cadence + 1 else b.cadence - 1
    let last := c == b.rampTarget
    let s1 := { s with
      towers := s.towers.map fun (t : Tower) => { t with clock := b.cadence }
      belfry := { b with cadence := c, ramping := !last }
      thermal := if last then { s.thermal with setpoint := s.thermal.setpoints c } else s.thermal }
    s1.sendBeacon

/-- The end of a 1 microsecond period (R317, R324): estimate, b, the hold counters of Table 12.5, the ramp; a new cap has
taken effect from here on (R312). -/
def State.fastLoop (s : State) : State :=
  let m := s.measure
  let w := reportPower s.belfry.cadence m.reports
  let rest := w.rest + m.droopCount * Config.activityWeight s.belfry.cadence 7
  let static := s.staticPower
  let raw := static + (w.twr + w.mem + rest) / 1000
  let est := raw * m.cNum / m.cDen
  let twrEst := w.twr / 1000 * m.cNum / m.cDen
  let e := if m.measOnly then m.meas else est
  let t := if m.measOnly then max (m.meas - (static + w.mem / 1000)) (m.meas / 10) else twrEst
  let s0 := { s with belfry := { s.belfry with capEff := s.belfry.cap } }
  let cap := s0.effCap * 10000
  let b := s0.belfry
  let nb := nextBubble (bubbleTarget e t cap b.bubble) b.bubble (b.supplyFloor || b.thermalFloor)
  let over' := decide (e > cap) && nb == 60
  let s1 := { s0 with
    measure := { m with est := est, raw := raw, twr := t, rawSum := m.rawSum + raw, rawN := m.rawN + 1, reports := [], droopCount := 0 }
    belfry := { b with
      bubble := nb
      fullPeriods := if over' then b.fullPeriods + 1 else 0
      lowPeriods := if nb ≤ 32 then b.lowPeriods + 1 else 0 } }
  let s2 := s1.rampStep
  { s2 with belfry := { s2.belfry with droopSeen := false } }

def execFastLoopPeriod (s : State) : Out' := .next (s.whenOn State.fastLoop)

/-! ### The slow loop -/

/-- The correction c (R319): P_meas / P_raw clamped to 0.85 to 1.15, as a fraction. -/
def correction (meas raw : Nat) : Nat × Nat :=
  if meas * 100 < raw * 85 then (85, 100)
  else if meas * 100 > raw * 115 then (115, 100)
  else if raw = 0 then (1, 1)
  else (meas, raw)

/-- The 10 s average of P_meas in milliwatts over the means held (R315). -/
def Measure.average (m : Measure) : Nat := if m.window.isEmpty then 0 else m.window.foldl (· + ·) 0 / m.window.length

/-- The slow loop (R315, R319). -/
def State.slowLoop (s : State) : State :=
  let m := s.measure
  let meas := if m.measN = 0 then m.meas else m.measSum / m.measN
  let raw := if m.rawN = 0 then m.raw else m.rawSum / m.rawN
  let gap := if raw ≥ meas then raw - meas else meas - raw
  let div := if m.measOnly then 0 else if gap * 100 > 15 * meas then m.divergent + 1 else 0
  let (cn, cd) := correction meas raw
  let m1 := { m with
    rawSum := 0, rawN := 0, measSum := 0, measN := 0
    window := (meas :: m.window).take 10000
    cNum := cn, cDen := cd, divergent := div }
  let lim := classLimit s.belfry.coolant * 10000
  let avg := m1.average
  let clamp := if avg > lim then true else if avg * 100 ≤ lim * 98 then false else s.belfry.clamp
  let s1 := { s with
    measure := m1
    belfry := { s.belfry with clamp := clamp }
    towers := s.towers.map fun (t : Tower) => { t with droopHist := ((0, 0) :: t.droopHist).take 101 } }
  if div ≥ 50 then
    let s2 := { s1 with measure := { m1 with measOnly := true, divergent := 0 } }
    let c0 := (toF32 ((XV.fin false m.cNum 0).div (.fin false m.cDen 0))).toNat
    (s2.event .module 0x0601 [(2, raw / 1000), (2, meas / 1000), (4, c0)]).raise 6
  else s1

def execSlowLoopPeriod (s : State) : Out' := .next (s.whenOn State.slowLoop)

/-- CLEAR_DIVERGENCE (R319). -/
def State.clearDivergence (s : State) : State :=
  if s.measure.measOnly then
    { s with measure := { s.measure with measOnly := false, cNum := 1, cDen := 1, divergent := 0 } }
  else s

/-- The 20 kHz sample of every quantity of Table 12.1 (R310): P_meas is the input power of the four converters together, the input
voltage the lowest of theirs; energy over 50 microseconds. -/
def State.powerSample (s : State) (converters rails : List Reading) : State :=
  let m := s.measure
  let uw := converters.foldl (fun a r => a + r.mv * r.ma) 0
  let pj := m.energyRem + uw * 50
  { s with measure := { m with
    meas := uw / 1000
    measSum := m.measSum + uw / 1000
    measN := m.measN + 1
    vin := ((converters.map Reading.mv).min?).getD 0
    converters := converters
    rails := rails
    energy := m.energy.add (pj / 1000000000)
    energyRem := pj % 1000000000 } }

def execPowerMeasurementSample (converters rails : List Reading) (s : State) : Out' :=
  .next (s.whenOn fun s => s.powerSample converters rails)

/-- The windows that a tower started since its last report reach Belfry as it leaves service (R397). -/
def State.collectDroop (s : State) (t : Nat) : State :=
  { s.modTower t fun x => { x with droopNew := 0 } with
    measure := { s.measure with droopWin := s.measure.droopWin.add (s.tower t).droopNew } }

/-! ### Ramps, droop, ageing, hold -/

/-- The regulators have settled: the ramp may step from the next period boundary on (R324). -/
def execRegulatorSettled (s : State) : Out' :=
  .next (s.whenOn fun s => { s with belfry := { s.belfry with settling := false } })

/-- A droop window starts (R320). -/
def Tower.startWindow (t : Tower) : Tower :=
  { t with droopOn := true, droopLeft := t.droopLeft + 64, droopNew := t.droopNew + 1, droopWin := t.droopWin.add 1 }

def execDroopDetect (tower : Nat) (s : State) : Out' :=
  .next (s.whenOn fun s => s.modTower tower fun t => if t.inService && !t.droopOn then t.startWindow else t)

/-- A droop window ends, and another follows at once while the supply is low (R320). -/
def execDroopWindowEnd (tower : Nat) (stillLow : Bool) (s : State) : Out' :=
  .next (s.whenOn fun s => s.modTower tower fun t =>
    if t.inService && t.droopOn then (if stillLow then t.startWindow else { t with droopOn := false }) else t)

/-- The droop thresholds are set 40 mV below the set-points (R320). -/
def State.calibrateDroop (s : State) : State :=
  { s with thermal := { s.thermal with droopAt := s.thermal.setpoint.map fun v => v - 400 } }

def execDroopCalibration (s : State) : Out' := .next (s.whenOn State.calibrateDroop)

/-- Does every monitor of a tower meet its fused count with the margin of 3% at a code (R330)? -/
def monitorsMeet (code : Nat) (r : Nat × List Nat) : Bool :=
  (r.2.mapIdx fun k c => decide (c * 100 ≥ Config.monitorNeed r.1 k code * 103)).all id

/-- HOLD_MAX of cause AGEING (R332): the highest code from 35 downward that every monitor meets, 0 when none. -/
def ageingMax (counts : List (Nat × List Nat)) : Nat :=
  (((List.range 36).reverse).find? fun c => counts.all (monitorsMeet c)).getD 0

/-- One quarter's reading (R331). -/
def State.ageQuarter (counts : List (Nat × List Nat)) (s : State) (q : Nat) : State :=
  let mine := counts.filter fun r => quarterOf r.1 == q
  match mine.find? fun r => !monitorsMeet s.belfry.cadence r with
  | none => { s with thermal := { s.thermal with short := updAt s.thermal.short q fun _ => 0 } }
  | some r =>
    let n := s.thermal.short.getD q 0 + 1
    if n < 8 then { s with thermal := { s.thermal with short := updAt s.thermal.short q fun _ => n } }
    else
      let s1 := { s with thermal := { s.thermal with short := updAt s.thermal.short q fun _ => 0 } }
      if s.thermal.trim.getD q 0 < 20 then
        { s1 with thermal := { s1.thermal with
          trim := updAt s1.thermal.trim q (· + 1), setpoint := updAt s1.thermal.setpoint q (· + 25) } }
      else
        let mx := ageingMax counts
        ((s1.event .module 0x0606 [(1, q), (2, r.1), (2, 50), (1, mx)]).raise 6).raiseHold 4 mx

def State.ageingRead (s : State) (counts : List (Nat × List Nat)) : State :=
  (List.range 4).foldl (State.ageQuarter counts) s

def execAgeingMonitorRead (counts : List (Nat × List Nat)) (s : State) : Out' := .next (s.whenOn fun s => s.ageingRead counts)

/-- Cycles and cycles of droop windows of a tower's last `n` whole milliseconds; none when it has fewer. -/
def Tower.droopOver (t : Tower) (n : Nat) : Option (Nat × Nat) :=
  let l := (t.droopHist.drop 1).take n
  if l.length < n then none else some (l.foldl (fun a q => (a.1 + q.1, a.2 + q.2)) (0, 0))

/-- More than a quarter of a tower's cycles over 10 ms in droop windows (Table 12.5). -/
def Tower.droopHigh (t : Tower) : Bool := match t.droopOver 10 with | some (c, d) => decide (4 * d > c) | none => false

/-- At most a twentieth of a tower's cycles over 100 ms in droop windows (Table 12.5). -/
def Tower.droopLow (t : Tower) : Bool := match t.droopOver 100 with | some (c, d) => decide (20 * d ≤ c) | none => false

/-- CADENCE_HOLD (Table 12.5): cause POWER after 10 ms of full bubbles above the cap, cause DROOP for a tower in service with its 10 ms;
THERMAL and AGEING are raised where they are found. -/
def State.holdRow (s : State) (cause tower : Nat) : State :=
  if cause = 1 then
    if s.belfry.fullPeriods ≥ 10000 then s.raiseHold 1 (s.belfry.cadence - 4) else s
  else if cause = 3 then
    if (s.tower tower).inService && (s.tower tower).droopHigh then s.raiseHold 3 (s.belfry.cadence - 2) else s
  else s

def execCadenceHold (cause tower : Nat) (s : State) : Out' := .next (s.whenOn fun s => s.holdRow cause tower)

/-- Has the cause that HOLD_CLEAR names cleared (Table 12.5)? -/
def State.causeCleared (s : State) (cause : Nat) : Bool :=
  match cause with
  | 1 => decide (s.belfry.lowPeriods ≥ 100000)
  | 2 => !s.belfry.thermalFloor
  | 3 => (s.towers.filter Tower.inService).all Tower.droopLow
  | _ => decide (s.belfry.cadence ≤ s.belfry.holdMax)

/-- HOLD_CLEAR (R328). -/
def State.holdClearRow (s : State) (cause : Nat) : State :=
  let s1 := if s.causeCleared cause then s.causeClears cause else s
  s1.tryClearHold

def execHoldClear (cause : Nat) (s : State) : Out' := .next (s.whenOn fun s => s.holdClearRow cause)

end Sys2Proof.Machine
end

