-- ==== Sys2Proof/Machine/Func.lean ====
section
/-!
DEFINITION. The functions that the contract names on FP32 values, correctly rounded (R54): exp, log, tanh, the sigmoid,
the error function and the rest of Table 2.9, and their derivatives (R66). Each is computed with 512 fraction bits, far
more than any FP32 result needs, and rounded once. DEDUCED: log 17.
-/
namespace Sys2Proof.Machine

/-- Fraction bits of the fixed-point evaluations. -/
def fxBits : Nat := 512

/-- An exact value as fixed point, truncated; every FP32 value is exact here. -/
def Dy.fx (d : Dy) : Int :=
  if 0 ≤ d.e + fxBits then d.m * (pow2 (d.e + fxBits) : Int) else d.m / (pow2 (-(d.e + fxBits)) : Int)

/-- A fixed-point number as a value; the last bit is sticky. -/
def fxVal (a : Int) : XV := .fin (a < 0) (2 * a.natAbs + 1) (-(fxBits : Int) - 1)

def fxMul (a b : Int) : Int := a * b / (2 ^ fxBits : Int)
def fxDiv (a b : Int) : Int := a * (2 ^ fxBits : Int) / b
def fxOne : Int := 2 ^ fxBits

/-- The Taylor series of e^y for small y: `n` terms are left, `k` is the index, `t` the current term. -/
def expSeries (y : Int) : Nat → Nat → Int → Int → Int
  | 0, _, _, acc => acc
  | n + 1, k, t, acc =>
    let t' := fxMul t y / (k : Int)
    expSeries y n (k + 1) t' (acc + t')

def fxSquareTimes : Nat → Int → Int
  | 0, a => a
  | n + 1, a => fxSquareTimes n (fxMul a a)

/-- e^x for fixed-point 0 ≤ x ≤ 256: the series at x / 2^16, squared 16 times. -/
def fxExpPos (x : Int) : Int := fxSquareTimes 16 (expSeries (x / 65536) 60 1 fxOne fxOne)

/-- e^x in fixed point. -/
def fxExp (x : Int) : Int := if 0 ≤ x then fxExpPos x else fxDiv fxOne (fxExpPos (-x))

/-- Σ z^(2k+1) / (2k+1): `n` terms left, `p` the current odd power. -/
def atanhSeries (z2 : Int) : Nat → Nat → Int → Int → Int
  | 0, _, _, acc => acc
  | n + 1, k, p, acc => atanhSeries z2 n (k + 2) (fxMul p z2) (acc + p / (k : Int))

/-- log((1 + z) / (1 - z)) for |z| ≤ 1/3. -/
def fxLog2Atanh (z : Int) : Int := 2 * atanhSeries (fxMul z z) 180 1 z 0

def fxLn2 : Int := fxLog2Atanh (fxOne / 3)

/-- The logarithm of `m * 2^e`, m > 0, in fixed point. -/
def fxLog (m : Nat) (e : Int) : Int :=
  let k := Nat.log2 m
  let f : Int := (m * 2 ^ fxBits : Nat) / (2 ^ k : Nat)
  ((k : Int) + e) * fxLn2 + fxLog2Atanh (fxDiv (f - fxOne) (f + fxOne))

/-- Σ (-1)^n x^(2n+1) / (2^n n! (2n+1)): the integral of e^(-t²/2) from 0 to x. -/
def gaussSeries (x2 : Int) : Nat → Nat → Int → Int → Int
  | 0, _, _, acc => acc
  | n + 1, k, t, acc =>
    gaussSeries x2 n (k + 1) (-(fxMul t x2) / (2 * (k + 1) : Int)) (acc + t / (2 * k + 1 : Int))

/-- arctan(1/q) for π by Machin's formula. -/
def atanInv (q : Int) : Nat → Nat → Int → Int → Int
  | 0, _, _, acc => acc
  | n + 1, k, p, acc => atanInv q n (k + 1) (-p / (q * q)) (acc + p / (2 * k + 1 : Int))

def fxPi : Int := 4 * (4 * atanInv 5 120 0 (fxOne / 5) 0 - atanInv 239 40 0 (fxOne / 239) 0)

/-- 1 / sqrt(2π). -/
def fxInvSqrt2Pi : Int :=
  fxDiv fxOne ((isqrt ((2 * fxPi).toNat * 2 ^ fxBits) : Nat) : Int)

/-- The standard normal distribution function Φ(x) = (1 + erf(x/√2)) / 2, for |x| ≤ 16. -/
def fxPhi (x : Int) : Int :=
  fxOne / 2 + fxMul fxInvSqrt2Pi (gaussSeries (fxMul x x) 700 0 x 0)

/-- The standard normal density. -/
def fxDensity (x : Int) : Int := fxMul fxInvSqrt2Pi (fxExp (-(fxMul x x) / 2))

/-- |x| > n, exactly. -/
def Dy.absGt (d : Dy) (n : Nat) : Bool := (Dy.ofInt n).lt d.abs

/-- A value far below the smallest subnormal with a sign: it rounds to a zero of that sign. -/
def tinyVal (s : Bool) : XV := .fin s 1 (-400)

/-- A value that rounds to 1 (or -1) because it differs from it by less than any FP32 step. -/
def nearOne (s : Bool) : XV := .fin s (2 ^ 300 - 1) (-300)

/-- e^x (R54). -/
def xExp : XV → XV
  | .nan => .nan
  | .inf s => if s then .fin false 0 0 else .inf false
  | .fin s m e =>
    if m = 0 then .fin false 1 0
    else
      let d := (XV.fin s m e).dy
      if d.absGt 200 then (if s then tinyVal false else .fin false 1 200)
      else fxVal (fxExp d.fx)

/-- log x (R54): of ±0 it is -∞, of a negative number NaN, as IEEE 754 defines. -/
def xLog : XV → XV
  | .nan => .nan
  | .inf s => if s then .nan else .inf false
  | .fin s m e =>
    if m = 0 then .inf true
    else if s then .nan
    else if (XV.fin s m e).dy.sub (Dy.ofInt 1) |>.m |> (· == 0) then .fin false 0 0
    else fxVal (fxLog m e)

/-- tanh x (R54). -/
def xTanh : XV → XV
  | .nan => .nan
  | .inf s => .fin s 1 0
  | .fin s m e =>
    if m = 0 then .fin s 0 0
    else
      let d := (XV.fin s m e).dy
      if d.absGt 64 then nearOne s
      else
        let a := d.abs.fx
        let t := fxExp (2 * a)
        let r := fxDiv (t - fxOne) (t + fxOne)
        .fin s (2 * r.natAbs + 1) (-(fxBits : Int) - 1)

/-- The sigmoid in fixed point. -/
def fxSigmoid (x : Int) : Int := fxDiv fxOne (fxOne + fxExp (-x))

/-- 1 / (1 + e^(-x)) (Table 2.9, 0x0E). -/
def xSigmoid : XV → XV
  | .nan => .nan
  | .inf s => if s then .fin false 0 0 else .fin false 1 0
  | .fin s m e =>
    if m = 0 then .fin false 1 (-1)
    else
      let d := (XV.fin s m e).dy
      if d.absGt 200 then (if s then tinyVal false else nearOne false)
      else fxVal (fxSigmoid d.fx)

/-- x / (1 + e^(-x)) (Table 2.9, 0x0F). -/
def xSilu : XV → XV
  | .nan => .nan
  | .inf s => if s then .nan else .inf false
  | .fin s m e =>
    if m = 0 then .fin s 0 0
    else
      let d := (XV.fin s m e).dy
      if d.absGt 200 then (if s then tinyVal true else (XV.fin s m e).mul (nearOne false))
      else (XV.fin s m e).mul (fxVal (fxSigmoid d.fx))

/-- x · (1 + erf(x / √2)) / 2 (Table 2.9, 0x10). -/
def xGelu : XV → XV
  | .nan => .nan
  | .inf s => if s then .nan else .inf false
  | .fin s m e =>
    if m = 0 then .fin s 0 0
    else
      let d := (XV.fin s m e).dy
      if d.absGt 15 then (if s then tinyVal true else (XV.fin s m e).mul (nearOne false))
      else (XV.fin s m e).mul (fxVal (fxPhi d.fx))

/-- β^k by squaring, the mantissa cut to 600 bits with a sticky last bit (R242: correctly rounded). -/
def trimSticky (m : Nat) (e : Int) : Nat × Int :=
  let k := Nat.log2 m
  if k ≤ 600 then (m, e)
  else
    let sh := k - 600
    let q := m / 2 ^ sh
    ((if q * 2 ^ sh = m ∨ q % 2 = 1 then q else q + 1), e + sh)

/-- `k` steps over the bits of the exponent. -/
def powGo : Nat → Nat → Nat × Int → Nat × Int → Nat × Int
  | 0, _, _, acc => acc
  | f + 1, k, sq, acc =>
    if k = 0 then acc
    else
      let acc' := if k % 2 = 1 then trimSticky (acc.1 * sq.1) (acc.2 + sq.2) else acc
      powGo f (k / 2) (trimSticky (sq.1 * sq.1) (2 * sq.2)) acc'

/-- pow(β, k) of R242 for a finite β ≥ 0, with pow(0, k) = 0 for k > 0. -/
def xPow (b : XV) (k : Nat) : XV :=
  match b with
  | .fin _ m e =>
    if m = 0 then (if k = 0 then .fin false 1 0 else .fin false 0 0)
    else let (n, f) := powGo 64 k (m, e) (1, 0); .fin false n f
  | x => x

def f32exp (a : Word) : Word := toF32 (xExp (f32 a))
def f32log (a : Word) : Word := toF32 (xLog (f32 a))
def f32rsqrt (a : Word) : Word := toF32 (f32 a).rsqrt

/-- The functions of Table 2.9 of two inputs. -/
def ew2 (code : Nat) (x y : Word) : Option Word :=
  match code with
  | 0x01 => some (f32add x y)
  | 0x02 => some (f32sub x y)
  | 0x03 => some (f32mul x y)
  | 0x04 => some (f32div x y)
  | 0x05 => some (f32max x y)
  | 0x06 => some (f32min x y)
  | _ => none

/-- The functions of Table 2.9 of one input, with the constants a and b. -/
def ew1 (code : Nat) (a b x : Word) : Option Word :=
  match code with
  | 0x07 => some (f32neg x)
  | 0x08 => some (f32abs x)
  | 0x09 => some (f32exp x)
  | 0x0A => some (f32log x)
  | 0x0B => some (f32sqrt x)
  | 0x0C => some (f32rsqrt x)
  | 0x0D => some (toF32 (xTanh (f32 x)))
  | 0x0E => some (toF32 (xSigmoid (f32 x)))
  | 0x0F => some (if x = f32ninf then Config.openFunc code else toF32 (xSilu (f32 x)))
  | 0x10 => some (if x = f32ninf then Config.openFunc code else toF32 (xGelu (f32 x)))
  | 0x11 => some (toF32 (((f32 a).mul (f32 x)).add (f32 b)))
  | 0x12 => some (f32max x 0)
  | 0x13 => some (toF32 ((f32 x).mul (f32 x)))
  | _ => none

/-- The number of inputs a function code takes; 0 for a code that Table 2.9 lacks. -/
def ewArity (code : Nat) : Nat :=
  if 1 ≤ code ∧ code ≤ 6 then 2 else if 7 ≤ code ∧ code ≤ 0x13 then 1 else 0

/-- The derivative of a one-input function before its rounding (R66). `open0` is the free value at a point where the
function has no derivative (abs at 0: log 16). -/
def ewDeriv (code : Nat) (a : Word) (open0 : XV) (x : XV) : XV :=
  let one : XV := .fin false 1 0
  let half : XV := .fin false 1 (-1)
  match x with
  | .nan => .nan
  | .inf s =>
    match code with
    | 0x07 => .fin true 1 0
    | 0x08 => .fin s 1 0
    | 0x09 => xExp x
    | 0x0A => one.div x
    | 0x0B => if s then .nan else .fin false 0 0
    | 0x0C => if s then .nan else .fin true 0 0
    | 0x0D => .fin false 0 0
    | 0x0E => .fin false 0 0
    | 0x0F => if s then .fin false 0 0 else one
    | 0x10 => if s then .fin false 0 0 else one
    | 0x11 => f32 a
    | 0x12 => if s then .fin false 0 0 else one
    | _ => x
  | .fin s m e =>
    let d := x.dy
    match code with
    | 0x07 => .fin true 1 0
    | 0x08 => if m = 0 then open0 else .fin s 1 0
    | 0x09 => xExp x
    | 0x0A => if s && m != 0 then .nan else one.div x
    | 0x0B => half.mul (XV.rsqrt x)
    | 0x0C => (half.mul (XV.rsqrt (x.mul (x.mul x)))).negate
    | 0x0D =>
      if m = 0 then one else if d.absGt 200 then tinyVal false
      else
        -- 1 - tanh² = 4 / (e^x + e^-x)²
        let c := fxExp d.abs.fx + fxExp (-(d.abs.fx))
        fxVal (fxDiv (4 * fxOne) (fxMul c c))
    | 0x0E =>
      if d.absGt 200 then tinyVal false
      else let t := fxExp (-(d.abs.fx)); fxVal (fxDiv t (fxMul (fxOne + t) (fxOne + t)))
    | 0x0F =>
      if m = 0 then half else if d.absGt 200 then (if s then tinyVal true else nearOne false)
      else
        let g := fxSigmoid d.fx
        fxVal (fxMul g (fxOne + fxMul d.fx (fxOne - g)))
    | 0x10 =>
      if m = 0 then half else if d.absGt 15 then (if s then tinyVal true else nearOne false)
      else fxVal (fxPhi d.fx + fxMul d.fx (fxDensity d.fx))
    | 0x11 => f32 a
    | 0x12 => if m = 0 ∨ s then .fin false 0 0 else one
    | _ => .fin s m (e + 1)

/-- The derived gradient of a one-input function: RNE(RNE(f'(x)) · g) (R66). -/
def ewGrad1 (code : Nat) (a : Word) (open0 : XV) (x g : Word) : Word :=
  f32mul (toF32 (ewDeriv code a open0 (f32 x))) g

end Sys2Proof.Machine
end

