-- ==== Sys2Proof/Machine/Formats.lean ====
section
/-!
DEFINITION. Format codes (Table 2.4, R47), the value each element stands for (R79 to R85, R92, R137), storage (R76 to
R78) and logical indices (R46, R98).
-/
namespace Sys2Proof.Machine

/-- The element format of a code without its B32 bit (Table 2.4). -/
def elemOfCode (c : Nat) : Option Elem :=
  match c with
  | 0x01 => some .w1 | 0x02 => some .wt | 0x03 => some .w2 | 0x04 => some .i4 | 0x05 => some .f4
  | 0x06 => some .i8 | 0x07 => some .u8 | 0x08 => some .f8a | 0x09 => some .f8b | 0x0A => some .bf16
  | 0x0B => some .fp32 | 0x0C => some .e8m0 | 0x20 => some .ix32 | 0x21 => some .bit1
  | _ => none

def Elem.code : Elem → Nat
  | .w1 => 0x01 | .wt => 0x02 | .w2 => 0x03 | .i4 => 0x04 | .f4 => 0x05 | .i8 => 0x06 | .u8 => 0x07
  | .f8a => 0x08 | .f8b => 0x09 | .bf16 => 0x0A | .fp32 => 0x0B | .e8m0 => 0x0C | .ix32 => 0x20 | .bit1 => 0x21

/-- The permitted combinations of R47. -/
def Fmt.legal (f : Fmt) : Bool :=
  match f.elem with
  | .w1 | .wt | .w2 | .i4 | .f4 => f.b32
  | .i8 | .f8a | .f8b => true
  | _ => !f.b32

/-- A format code, none where R47 permits no such combination. -/
def fmtOfCode (c : Nat) : Option Fmt :=
  match elemOfCode (c % 0x80) with
  | some e =>
    let f : Fmt := ⟨e, decide (c / 0x80 = 1)⟩
    if c < 256 ∧ f.legal then some f else none
  | none => none

def Fmt.code (f : Fmt) : Nat := f.elem.code + if f.b32 then 0x80 else 0

/-- Bits of one element. -/
def Elem.bits : Elem → Nat
  | .w1 => 1 | .wt => 2 | .w2 => 2 | .i4 => 4 | .f4 => 4 | .i8 => 8 | .u8 => 8 | .f8a => 8 | .f8b => 8
  | .bf16 => 16 | .fp32 => 32 | .e8m0 => 8 | .ix32 => 32 | .bit1 => 1

/-- Arithmetic formats: all but IX32, BIT1 and E8M0 (Table 2.4). -/
def Elem.arith : Elem → Bool
  | .e8m0 | .ix32 | .bit1 => false
  | _ => true

/-- The value of an element code without scales (Tables 3.1, 3.2); the invalid WT code stands for zero (R80). -/
def Elem.dec (el : Elem) (c : Nat) : XV :=
  match el with
  | .w1 => .fin (c % 2 == 0) 1 0
  | .wt => if c % 4 = 2 then .fin false 0 0 else (Dy.ofInt (decInt 2 c)).xv
  | .w2 => (Dy.ofInt (decInt 2 c)).xv
  | .i4 => (Dy.ofInt (decInt 4 c)).xv
  | .f4 => FpFmt.f4.dec (c % 16)
  | .i8 => (Dy.ofInt (decInt 8 c)).xv
  | .u8 => .fin false (c % 256) 0
  | .f8a => FpFmt.f8a.dec (c % 256)
  | .f8b => FpFmt.f8b.dec (c % 256)
  | .bf16 => FpFmt.bf16.dec (c % 65536)
  | .fp32 => FpFmt.fp32.dec (c % 2 ^ 32)
  | .e8m0 => if c % 256 = 255 then .nan else .fin false 1 ((c % 256 : Nat) - 127)
  | .ix32 => .fin false (c % 2 ^ 32) 0
  | .bit1 => .fin false (c % 2) 0

/-- The integer that the forward array is presented with (Table 3.4, R87): F4 as `s · 2^k`, twice its value. -/
def Elem.form (el : Elem) (c : Nat) : Int :=
  match el with
  | .f4 =>
    let ex := c / 2 % 4
    let mn := c % 2
    let s : Int := if ex = 0 then mn else (2 + mn : Nat)
    let v := s * (2 : Int) ^ (if ex = 0 then 0 else ex - 1)
    if c / 8 % 2 = 1 then -v else v
  | _ => (el.dec c).dy.m

/-! ### Logical indices -/

/-- The number of elements of an extent list. -/
def prod (l : List Nat) : Nat := l.foldl (· * ·) 1

/-- The linear index of logical indices, dimension 0 outermost (R98). -/
def ravel (shape idx : List Nat) : Nat :=
  (shape.zip idx).foldl (fun acc p => acc * p.1 + p.2) 0

/-- The logical indices of a linear index. -/
def unravel : List Nat → Nat → List Nat
  | [], _ => []
  | _ :: ds, i => let p := prod ds; (i / p) :: unravel ds (i % p)

/-- The extents of the scale tensor (R48). -/
def scaleShape (shape : List Nat) (bdim : Nat) : List Nat := updAt shape bdim (fun e => ceilDiv e 32)

/-- Row and column of a linear index under R98: the column is the last index, the row the rest. -/
def rowCol (shape : List Nat) (i : Nat) : Nat × Nat :=
  match shape.getLast? with
  | none => (0, 0)
  | some c => if c = 0 then (0, 0) else (i / c, i % c)

/-! ### Operands as the operations read them -/

/-- An operand: a tensor with its block dimension, its resolved channel entries and its zero-point mode. -/
structure View where
  t : Tensor
  bdim : Nat
  /-- channel dimension and entries, none when CSET is none -/
  chan : Option (Nat × List ChanEnt)
  zpMode : Bool
  deriving DecidableEq, Repr

/-- The linear index of the block of an element (R48). -/
def View.blockOf (v : View) (i : Nat) : Nat :=
  let idx := unravel v.t.shape i
  ravel (scaleShape v.t.shape v.bdim) (updAt idx v.bdim (· / 32))

/-- The position of an element inside its block. -/
def View.inBlock (v : View) (i : Nat) : Nat := (unravel v.t.shape i).getD v.bdim 0 % 32

/-- The channel of an element and its entry. -/
def View.entry (v : View) (i : Nat) : Option ChanEnt :=
  match v.chan with
  | none => none
  | some (cd, es) => es[(unravel v.t.shape i).getD cd 0]?

def View.code (v : View) (i : Nat) : Nat := v.t.codes.getD i 0

/-- The block-scale code of an element; 127 (a factor of one) for a format without block scales. -/
def View.scaleCode (v : View) (i : Nat) : Nat := if v.t.fmt.b32 then v.t.scales.getD (v.blockOf i) 0 else 127

/-- The zero point of an element's channel. -/
def View.zp (v : View) (i : Nat) : Nat :=
  if v.zpMode then (match v.entry i with | some e => e.zp | none => 0) else 0

/-- The value of an element's code under Table 3.3, with its block scale and without its zero point. -/
def View.codePart (v : View) (i : Nat) : XV :=
  let x := v.t.fmt.elem.dec (v.code i)
  if v.t.fmt.b32 then
    let sc := v.scaleCode i
    if sc = 255 then .nan
    else match x with
      | .fin s m e => .fin s m (e + (sc : Int) - 127)
      | y => y
  else x

/-- The code part with the zero point removed (R92, R138). -/
def View.codeVal (v : View) (i : Nat) : XV :=
  let z := v.zp i
  if z = 0 then v.codePart i else ((v.codePart i).dy.sub (Dy.ofInt z)).xv

/-- The value of an outlier word that is VALID and names position `k` (Table 5.3). -/
def outlierAt (k : Nat) (w : Nat) : XV :=
  if w / 2 ^ 31 % 2 = 1 ∧ bitField w 16 5 = k then FpFmt.bf16.dec (w % 65536) else .fin false 0 0

/-- The values of the VALID outlier slots that name an element (R137). -/
def View.outVals (v : View) (i : Nat) : List XV :=
  if v.t.fmt.b32 then (v.t.outl.getD (v.blockOf i) []).map (outlierAt (v.inBlock i)) else []

/-- The outlier part of an element: the sum of the VALID slots that name it (R137). -/
def View.outPart (v : View) (i : Nat) : XV := (v.outVals i).foldl XV.add (.fin false 0 0)

/-- Code and outlier together, without the channel scale (R137). -/
def View.plainVal (v : View) (i : Nat) : XV :=
  let o := v.outPart i
  if o.isZero then v.codeVal i else (v.codeVal i).add o

/-- The channel scale of an entry: 1 for a CONST channel, NaN when it is not finite (R92, R146). -/
def ChanEnt.cs (e : ChanEnt) : XV :=
  if e.const then .fin false 1 0
  else if f32isFin e.scale then f32 e.scale else .nan

/-- CONST_VALUE as the channel's value: NaN when it is not finite (R92). -/
def ChanEnt.constVal (e : ChanEnt) : XV := if f32isFin e.cval then f32 e.cval else .nan

/-- The value an element stands for (R85, R92, R137). -/
def View.val (v : View) (i : Nat) : XV :=
  match v.entry i with
  | none => v.plainVal i
  | some e =>
    if e.const then e.constVal
    else match e.cs with
      | .nan => .nan
      | cs => cs.mul (v.plainVal i)

/-- Is everything that defines an element finite (Table 6.1, INPUTS_FINITE)? The code of a CONST channel is not read (R92). -/
def View.elemFinite (v : View) (i : Nat) : Bool :=
  (v.val i).isFin && ((v.entry i).any ChanEnt.const || (v.codePart i).isFin)

def View.size (v : View) : Nat := prod v.t.shape

def View.allFinite (v : View) : Bool := (List.range v.size).all v.elemFinite

/-- An FP32 tensor from words. -/
def fp32Tensor (shape : List Nat) (ws : List Word) : Tensor := ⟨⟨.fp32, false⟩, shape, ws.map BitVec.toNat, [], []⟩

/-- A tensor with no side data as an operand. -/
def Tensor.view (t : Tensor) : View := ⟨t, 0, none, false⟩

/-- The words of an FP32 tensor. -/
def Tensor.words (t : Tensor) : List Word := t.codes.map (BitVec.ofNat 32)

/-! ### Storage -/

/-- Codes of `w` bits packed into bytes, lowest bits first (R76). -/
def packSmall (w : Nat) (codes : List Nat) : Nat := codes.foldr (fun c acc => c % 2 ^ w + 2 ^ w * acc) 0

/-- The bytes of codes in storage order (R76). -/
def packCodes (el : Elem) (codes : List Nat) : List Byte :=
  if el.bits ≥ 8 then codes.flatMap (toLe (el.bits / 8))
  else toLe (ceilDiv (codes.length * el.bits) 8) (packSmall el.bits codes)

/-- Codes from bytes in storage order (R76). -/
def unpackCodes (el : Elem) (n : Nat) (bs : List Byte) : List Nat :=
  (List.range n).map fun i =>
    if el.bits ≥ 8 then fieldLe bs (i * (el.bits / 8)) (el.bits / 8)
    else bitField ((bs.getD (i * el.bits / 8) 0).toNat) (i * el.bits % 8) el.bits

/-- The stored extents: along BDIM of a block-scaled format a multiple of 32 (R77). -/
def storedShape (f : Fmt) (shape : List Nat) (bdim : Nat) : List Nat :=
  if f.b32 then updAt shape bdim (roundUp · 32) else shape

/-- The storage position of a logical index, untiled: extents and indices taken in ORDER (R46, R76). -/
def storePos (order stored idx : List Nat) : Nat :=
  ravel (order.map (stored.getD · 1)) (order.map (idx.getD · 0))

/-- The bytes a tensor of these stored extents occupies (R76). -/
def storedBytes (f : Fmt) (shape : List Nat) (bdim : Nat) : Nat :=
  ceilDiv (prod (storedShape f shape bdim) * f.elem.bits) 8

end Sys2Proof.Machine
end

