-- ==== Sys2Proof/Machine/Garnet.lean ====
section
/-!
DEFINITION. Garnet, the keyed generator of stochastic rounding (R120, R121), and the rounding modes that draw from it.
-/
namespace Sys2Proof.Machine

def garnetC1 : Quad := 0xA3B195F26C4D8E17
def garnetC2 : Quad := 0x5C8F2E63B9D14A0B

/-- `mix` of R120. -/
def mix (z : Quad) : Quad :=
  let z1 := (z ^^^ (z >>> 31)) * garnetC1
  let z2 := (z1 ^^^ (z1 >>> 29)) * garnetC2
  z2 ^^^ (z2 >>> 32)

/-- `garnet` of R120: 16 bits for a key; the four fields are taken modulo 2^32. -/
def garnet (seed : Quad) (tag row column span : Nat) : Nat :=
  let w (n : Nat) : Quad := BitVec.ofNat 64 (n % 2 ^ 32)
  let h := mix (mix (mix (mix (seed ^^^ w tag) ^^^ w row) ^^^ w column) ^^^ w span)
  (h >>> 48).toNat

/-- seed_u of R121. -/
def seedOf (stepSeed : Quad) (u : Nat) : Quad := mix (stepSeed ^^^ BitVec.ofNat 64 u)

/-- The key of one rounding: seed, tag, row, column, span. -/
structure GKey where
  seed : Quad
  tag : Nat
  row : Nat
  column : Nat
  span : Nat
  deriving DecidableEq, Repr

def GKey.draw (k : GKey) : Nat := garnet k.seed k.tag k.row k.column k.span

/-- The rounding modes that a record, a rung or a derived operation names. -/
inductive RMode where
  | rne | sr | rtz
  deriving DecidableEq, Repr

/-- A mode with the draw of its key (R97). -/
def RMode.at (m : RMode) (k : GKey) : Rnd :=
  match m with
  | .rne => .rne
  | .sr => .sr k.draw
  | .rtz => .rtz

/-- The fold rounding of a code for a reduction of length `k` (R117). -/
def foldMode (code k : Nat) : RMode :=
  match code with
  | 1 => .sr
  | 2 => if k > 16384 then .sr else .rne
  | _ => .rne

end Sys2Proof.Machine
end

