-- ==== Sys2Proof/Machine/Dot.lean ====
section
/-!
DEFINITION. The dot product, bit for bit (04_dot_product.md): products of both arrays, the span registers with their
anchors and shed rule, special values, the terms of Table 5.5, the fold, the channel scale, and the tree of R127.
-/
namespace Sys2Proof.Machine

/-- One element of an operand along the reduction dimension, in the forms the arrays and the fold use. -/
structure El where
  /-- integer form of the forward array (Table 3.4) -/
  form : Int
  /-- block scale exponent: scale minus 127, 0 without block scales (R103) -/
  u : Int
  /-- the code part with its block scale, zero point kept (R147) -/
  raw : XV
  /-- the code part with the zero point removed (R138) -/
  val : XV
  /-- the outlier part, one value for each VALID slot that names the element; none when they sum to zero (R137, R138) -/
  outs : List XV
  /-- false for an element of a zero row, which forms no product (R113) -/
  real : Bool
  deriving DecidableEq, Repr

/-- The elements at the given linear indices. -/
def View.el (v : View) (i : Nat) : El :=
  ⟨v.t.fmt.elem.form (v.code i), if v.t.fmt.b32 then (v.scaleCode i : Int) - 127 else 0, v.codePart i, v.codeVal i,
    if (v.outPart i).isZero then [] else (v.outVals i).filter fun x => !x.isZero, true⟩

/-- An element of a row that a null or out-of-range index selects (R59, R113). -/
def El.zeroRow : El := ⟨0, 0, .fin false 0 0, .fin false 0 0, [], false⟩

/-- What is known of one side of a product besides its elements: its channel entry, its zero point, its format. -/
structure Side where
  els : List El
  entry : Option ChanEnt
  zp : Nat
  fmt : Fmt
  deriving DecidableEq, Repr

/-- The value of one span with what it lost and whether it formed 0 × ∞ (R108, R114, R115). -/
structure SpanVal where
  v : XV
  shed : Nat
  invalid : Bool
  deriving DecidableEq, Repr

/-! ### The forward span register -/

/-- One block of a product column in flight (R103): its partial, its exponent, and whether it is free of NaN scales. -/
structure FwdBlock where
  p : Int
  s : Int
  live : Bool
  deriving DecidableEq, Repr

/-- φ of R103. -/
def phiOf (b : Fmt) : Int := if b.elem = .f4 then 1 else 0

/-- The block of 32 element pairs (R103). A block scale of 0xFF on either side makes it NaN (Table 4.6). -/
def fwdBlock (phi : Int) (prs : List (El × El)) : FwdBlock :=
  let ps := prs.filter fun q => q.1.real && q.2.real
  { p := (ps.map fun q => q.1.form * q.2.form).foldl (· + ·) 0
    s := (match prs with | [] => 0 | q :: _ => q.1.u + q.2.u - phi)
    live := ps.all fun q => q.1.raw != .nan && q.2.raw != .nan }

/-- The contribution of a block to X at distance `d` from the anchor, and whether it is shed (R105). -/
def fwdContrib (p : Int) (d : Nat) : Int × Bool :=
  if d ≤ 21 then (p * (2 : Int) ^ (21 - d), false)
  else
    let q := p.natAbs / 2 ^ (d - 21)
    (if p < 0 then -(q : Int) else q, decide (q * 2 ^ (d - 21) ≠ p.natAbs))

/-- The anchor A of R104: the largest exponent among the live blocks. -/
def fwdAnchor (bs : List FwdBlock) : Option Int :=
  bs.foldl (fun a b => if b.live then (match a with | none => some b.s | some x => some (max x b.s)) else a) none

/-- The forward span register over the blocks of a span (R104, R105, R114). A block under a 0xFF scale on one side only is
left out of the anchor as one under 0xFF on both: its exponent would lie outside the range that R109 gives forward anchors
(DEDUCED, log 72). -/
def fwdSpan (bs : List FwdBlock) : SpanVal :=
  if bs.all (·.live) then
    match fwdAnchor bs with
    | none => ⟨.fin false 0 0, 0, false⟩
    | some a =>
      let cs := bs.map fun b => fwdContrib b.p (a - b.s).toNat
      ⟨(Dy.mk ((cs.map Prod.fst).foldl (· + ·) 0) (a - 21)).xv, (cs.filter (·.2)).length, false⟩
  else
    -- the lane is NaN; sheds of the live blocks still count
    match fwdAnchor bs with
    | none => ⟨.nan, 0, false⟩
    | some a => ⟨.nan, ((bs.filter (·.live)).filter fun b => (fwdContrib b.p (a - b.s).toNat).2).length, false⟩

/-! ### The backward span register -/

/-- A finite, non-zero operand part (R102, R110): sign, significand, exponent, fraction width. -/
structure Part where
  neg : Bool
  s : Nat
  e : Int
  f : Nat
  deriving DecidableEq, Repr

/-- Fraction widths of Table 4.2. -/
def fracWidth (el : Elem) : Nat :=
  match el with
  | .f8a => 3
  | .f8b => 2
  | _ => 7

/-- The parts of an operand value on the backward array: one, or a high and a low part of an FP32 value (R110). The
exponent of the first part is the one that enters an anchor (R106). -/
def bwdParts (el : Elem) (x : XV) : List Part :=
  match x with
  | .fin n m e =>
    if m = 0 then []
    else if el = .fp32 then
      [⟨n, m / 2 ^ 16, e + 23, 7⟩, ⟨n, m / 2 ^ 8 % 256, e + 15, 7⟩]
    else [⟨n, m, e + fracWidth el, fracWidth el⟩]
  | _ => []

/-- The normalised factor of R138: a significand of 8 bits with f = 7. A factor of more significant bits, which only a
channel scale of an attention V can make (log 73), keeps them all under a wider f. -/
def normPart (x : XV) : List Part :=
  match x with
  | .fin n m e =>
    if m = 0 then []
    else
      let k := Nat.log2 m
      [if k ≤ 7 then ⟨n, m * 2 ^ (7 - k), e + k, 7⟩ else ⟨n, m, e + k, k⟩]
  | _ => []

/-- A product of two parts (R102). -/
structure PartProd where
  neg : Bool
  mag : Nat
  p : Int
  f : Nat
  deriving DecidableEq, Repr

def Part.mul (a b : Part) : PartProd := ⟨a.neg != b.neg, a.s * b.s, a.e + b.e, a.f + b.f⟩

/-- The part products of one element pair (R111): with two low parts the product of the lows is left out. -/
def pairProds (as bs : List Part) : List PartProd :=
  match as, bs with
  | [a], [b] => [a.mul b]
  | [ah, al], [b] => [ah.mul b, al.mul b]
  | [a], [bh, bl] => [a.mul bh, a.mul bl]
  | [ah, al], [bh, bl] => [ah.mul bh, ah.mul bl, al.mul bh]
  | _, _ => []

/-- The contribution of one product to Y under the anchor, and whether it is shed (R107). -/
def bwdContrib (a : Int) (q : PartProd) : Int × Bool :=
  if q.mag = 0 then (0, false)
  else
    let d := (a - q.p).toNat
    if d > 160 then (0, true)
    else if d + q.f ≤ 160 then
      let y : Int := (q.mag * 2 ^ (160 - d - q.f) : Nat)
      (if q.neg then -y else y, false)
    else
      let sh := d + q.f - 160
      let y := q.mag / 2 ^ sh
      (if q.neg then -(y : Int) else y, decide (y * 2 ^ sh ≠ q.mag))

/-- The register value Y · 2^(a - 160) over products under one anchor, and the shed count. -/
def bwdRegister (a : Int) (qs : List PartProd) : Dy × Nat :=
  let cs := qs.map (bwdContrib a)
  (⟨(cs.map Prod.fst).foldl (· + ·) 0, a - 160⟩, (cs.filter (·.2)).length)

/-- The largest exponent of a list. -/
def maxExp (es : List Int) : Option Int :=
  es.foldl (fun a e => match a with | none => some e | some x => some (max x e)) none

/-- The largest product exponent, none where every product is zero (R138). -/
def ownAnchor (qs : List PartProd) : Option Int := maxExp ((qs.filter (·.mag != 0)).map (·.p))

/-- A register whose anchor is the largest product exponent (R138, R149). -/
def bwdOwnAnchor (qs : List PartProd) : Dy × Nat :=
  match ownAnchor qs with
  | none => (Dy.zero, 0)
  | some a => bwdRegister a qs

/-- Is a pair 0 × ∞ (Table 4.6, R115)? -/
def invalidPair (x y : XV) : Bool :=
  match x, y with
  | .inf _, y => y.isZero
  | x, .inf _ => x.isZero
  | _, _ => false

/-- The special product of a pair, none for a finite one (Table 4.6). -/
def specialProd (x y : XV) : Option XV := if x.isFin && y.isFin then none else some (x.mul y)

/-- The lane of a span from its special products (R114): none when it is finite. -/
def laneOf (xs : List XV) : Option XV := xs.foldl (fun a x => match a with | none => some x | some y => some (y.add x)) none

/-- ρ or γ of R106: the largest exponent among finite, non-zero elements, high parts only in multi-pass modes. -/
def sideAnchor (el : Elem) (xs : List XV) : Option Int := maxExp (xs.filterMap fun x => (bwdParts el x).head?.map (·.e))

/-- The backward span register over the element pairs `prs` of a span (R106, R107, R113, R114). The anchor is taken over
`all`: the pairs with those of zero rows, which form no product though the elements opposite them stand in their column. -/
def bwdSpan (ea eb : Elem) (all prs : List (XV × XV)) : SpanVal :=
  let rho := sideAnchor ea (all.map Prod.fst)
  let gam := sideAnchor eb (all.map Prod.snd)
  let fin := prs.filter fun (q : XV × XV) => q.1.isFin && q.2.isFin
  let reg := match rho, gam with
    | some r, some g => bwdRegister (r + g) (fin.flatMap fun (q : XV × XV) => pairProds (bwdParts ea q.1) (bwdParts eb q.2))
    | _, _ => (Dy.zero, 0)
  let inv := prs.any fun (q : XV × XV) => invalidPair q.1 q.2
  match laneOf (prs.filterMap fun (q : XV × XV) => specialProd q.1 q.2) with
  | some l => ⟨l, reg.2, inv⟩
  | none => ⟨reg.1.xv, reg.2, inv⟩

/-! ### Terms added at the fold -/

/-- The factors of the products with an outlier factor (R138). Where several VALID slots name one element (R137), each is a factor of
its own, so that every factor has the 8 bits that R138 states. -/
def outlierFacs (prs : List (El × El)) : List (XV × XV) :=
  prs.flatMap fun q =>
    ((q.1.outs.map fun o => (o, q.2.val)) ++ (q.2.outs.map fun o => (q.1.val, o))
      ++ q.1.outs.flatMap fun o => q.2.outs.map fun w => (o, w)).filter fun r =>
        !(r.1.isFin && r.2.isFin && (r.1.isZero || r.2.isZero))

/-- Their finite products, in normalised form. -/
def outlierProds (prs : List (El × El)) : List PartProd :=
  ((outlierFacs prs).filter fun r => r.1.isFin && r.2.isFin).flatMap fun r => pairProds (normPart r.1) (normPart r.2)

/-- The outlier term of a span (R138): every product with an outlier factor, in a register of its own. -/
def outlierTerm (prs : List (El × El)) : SpanVal :=
  let facs := outlierFacs prs
  let sp := facs.filterMap fun (r : XV × XV) => specialProd r.1 r.2
  let reg := bwdOwnAnchor (outlierProds prs)
  match laneOf sp with
  | some l => ⟨l, reg.2, facs.any fun r => invalidPair r.1 r.2⟩
  | none => ⟨reg.1.xv, reg.2, false⟩

/-- The products of one side with 1 in the extra pass of R149. -/
def oneProds (el : Elem) (vals : List XV) : List PartProd :=
  vals.flatMap fun x => (if el = .fp32 then bwdParts el x else normPart x).map fun p => p.mul ⟨false, 128, 0, 7⟩

/-- The exact sum of one side over a span, code and outlier parts apart (Σ a, Σ b of Table 5.5; on the backward array
the extra pass of R149). -/
def sideSum (backward : Bool) (el : Elem) (es : List El) : SpanVal :=
  let vals := es.flatMap fun e => e.val :: e.outs
  match laneOf (vals.filter fun x => !x.isFin) with
  | some l => ⟨l, 0, false⟩
  | none =>
    if backward then
      let reg := bwdOwnAnchor (oneProds el vals)
      ⟨reg.1.xv, reg.2, false⟩
    else ⟨(Dy.sum (vals.map XV.dy)).xv, 0, false⟩

/-- The constant of a CONST side. -/
def Side.constVal? (s : Side) : Option XV :=
  match s.entry with
  | some e => if e.const then some e.constVal else none
  | none => none

/-- Does a pairing run on the forward array (Table 2.8)? -/
def onForward (a : Elem) : Bool := a == .i8 || a == .u8

/-- The blocks of 32 of a span, `k` of them. -/
def fwdBlocks (phi : Int) : Nat → List (El × El) → List FwdBlock
  | 0, _ => []
  | k + 1, l => fwdBlock phi (l.take 32) :: fwdBlocks phi k (l.drop 32)

/-- The value V_j of one span (R116): the register with the terms of Table 5.5. -/
def spanValue (a b : Side) (pa pb : List El) : SpanVal :=
  let prs := pa.zip pb
  let live := prs.filter fun q => q.1.real && q.2.real
  let n := live.length
  let fwd := onForward a.fmt.elem
  let cnt (x : Nat) : XV := .fin false x 0
  match a.constVal?, b.constVal? with
  | some x, some y => ⟨if n = 0 then .fin false 0 0 else (x.mul y).mul (cnt n), 0, n != 0 && invalidPair x y⟩
  | some x, none =>
    let s := sideSum (!fwd) b.fmt.elem (live.map Prod.snd)
    ⟨if n = 0 then .fin false 0 0 else x.mul s.v, s.shed, false⟩
  | none, some y =>
    let s := sideSum (!fwd) a.fmt.elem (live.map Prod.fst)
    ⟨if n = 0 then .fin false 0 0 else y.mul s.v, s.shed, false⟩
  | none, none =>
    let reg :=
      if fwd then
        fwdSpan (fwdBlocks (phiOf b.fmt) (ceilDiv prs.length 32) prs)
      else bwdSpan a.fmt.elem b.fmt.elem (prs.map fun q => (q.1.val, q.2.val)) (live.map fun q => (q.1.val, q.2.val))
    let o := outlierTerm live
    let zpt : Dy :=
      if !fwd then Dy.zero
      else
        let sb := Dy.sum (live.map fun q => q.2.raw.dy)
        let sa := Dy.sum (live.map fun q => q.1.raw.dy)
        ((Dy.ofInt (-(a.zp : Int))).mul sb).add
          (((Dy.ofInt (-(b.zp : Int))).mul sa).add (Dy.ofInt ((a.zp * b.zp * n : Nat) : Int)))
    let v := (reg.v.add o.v).add zpt.xv
    ⟨v, reg.shed + o.shed, reg.invalid || o.invalid⟩

/-- Lists cut into spans of 1,024 (R116). -/
def spansOf {α : Type} : Nat → List α → List (List α)
  | 0, _ => []
  | k + 1, l => l.take 1024 :: spansOf k (l.drop 1024)

/-- One step of the fold (R116, R119). -/
def foldStep (mode : RMode) (key : GKey) (f : Word) (v : XV) : Word :=
  match f32 f, v with
  | .fin s m e, .fin t n g =>
    let x := (XV.fin s m e).dy.add (XV.fin t n g).dy
    if x.m = 0 then 0
    else
      let w := toF32R (mode.at key) x.xv
      if f32isZero w then 0 else w
  | x, y => toF32 (x.add y)

/-- The fold over the spans from the first, in increasing index (R116); `j` is the global index of the next span. -/
def foldSpans (mode : RMode) (key : GKey) : Nat → Word → List XV → Word
  | _, f, [] => f
  | j, f, v :: vs => foldSpans mode key (j + 1) (foldStep mode { key with span := key.span + j } f v) vs

/-- The channel scale of a side in R118: 1 without a set and for a CONST channel. -/
def Side.cs (s : Side) : XV :=
  match s.entry with
  | some e => e.cs
  | none => .fin false 1 0

/-- The scaled result of R118, with R119: no -0. -/
def channelScale (a b : Side) (f : Word) : Word :=
  if a.entry.isNone && b.entry.isNone then f
  else
    let w := toF32 (((f32 f).mul a.cs).mul b.cs)
    if f32isZero w then 0 else w

/-- One output element of a folding product with its shed count and the least span that formed 0 × ∞. -/
structure DotRes where
  w : Word
  shed : Nat
  invalid : Option Nat
  deriving DecidableEq, Repr

/-- The least index of a span that formed 0 × ∞. -/
def firstInvalid (l : List SpanVal) : Option Nat := l.findIdx? (·.invalid)

/-- A dot product of two sides (R101): spans, fold, channel scale. `scaled` is false for derived backward products
(R213), which never apply a channel scale. -/
def dot (mode : RMode) (key : GKey) (scaled : Bool) (a b : Side) : DotRes :=
  let k := max a.els.length b.els.length
  let s := ceilDiv k 1024
  let vs := ((spansOf s a.els).zip (spansOf s b.els)).map fun q => spanValue a b q.1 q.2
  let f := foldSpans mode key 0 0 (vs.map (·.v))
  ⟨if scaled then channelScale a b f else f, (vs.map (·.shed)).foldl (· + ·) 0, firstInvalid vs⟩

/-! ### Across modules -/

/-- One level of the tree of R127 at distance `w` over the values from index `i`. -/
def treeLevel (p w : Nat) (v : List Word) : List Word :=
  (List.range v.length).map fun i =>
    if i % (2 * w) = 0 ∧ i + w < p then f32add (v.getD i 0) (v.getD (i + w) 0) else v.getD i 0

/-- The levels of the tree with w = 2^k, 2^(k+1), ... -/
def treeGo (p : Nat) : Nat → Nat → List Word → List Word
  | 0, _, v => v
  | n + 1, w, v => if w < p then treeGo p n (2 * w) (treeLevel p w v) else v

/-- The combined value of P participants in group rank order (R127). -/
def treeReduce (v : List Word) : Word := (treeGo v.length v.length 1 v).headD 0

end Sys2Proof.Machine
end

