-- ==== Sys2Proof/Machine/Quant.lean ====
section
/-!
DEFINITION. CONVERT (R94 to R99), rotation (R131), outliers (R132 to R136), block scales (R139 to R142), channel entries
(R144) and QUANTIZE as a whole (R128, R446), which forward-copy requantization shares (R251).
-/
namespace Sys2Proof.Machine

/-! ### CONVERT -/

/-- One conversion of a value to a plain format (Table 3.8). Formats that CONVERT never writes give code 0. -/
def convTo (el : Elem) (r : Rnd) (x : XV) : Conv :=
  match el with
  | .fp32 => convIeee FpFmt.fp32 r x
  | .bf16 => convIeee FpFmt.bf16 r x
  | .f8a => convF8 FpFmt.f8a r x
  | .f8b => convF8 FpFmt.f8b r x
  | .i8 => convI8 r x
  | .u8 => convU8 r 0 x
  | _ => ⟨0, false, false⟩

/-- The pairs of Table 3.7 (R94): source format, whether it names a CSET, destination. -/
def convertPair (src : Fmt) (cset : Bool) (dst : Fmt) : Bool :=
  if dst.b32 then false
  else if src.b32 then dst.elem == .fp32
  else if cset then dst.elem == .fp32 && (src.elem == .i8 || src.elem == .f8a || src.elem == .f8b || src.elem == .u8)
  else match src.elem, dst.elem with
    | .fp32, .bf16 | .fp32, .f8a | .fp32, .f8b | .fp32, .i8 => true
    | .bf16, .fp32 | .bf16, .f8a | .bf16, .f8b | .bf16, .i8 => true
    | .f8a, .fp32 | .f8a, .bf16 | .f8a, .f8b => true
    | .f8b, .fp32 | .f8b, .bf16 | .f8b, .f8a => true
    | .i8, .fp32 | .i8, .bf16 | .i8, .f8a | .i8, .f8b => true
    | .u8, .fp32 => true
    | .ix32, .fp32 => true
    | _, _ => false

/-- The Garnet key of an element of a conversion (R98); `span` is 0 but for derived conversions (Table 8.3). -/
def elemKey (seed : Quad) (tag : Nat) (shape : List Nat) (span i : Nat) : GKey :=
  let (r, c) := rowCol shape i
  ⟨seed, tag, r, c, span⟩

/-- A written tensor with its counts: saturations, non-finite elements, overflow blocks, channel entries. -/
structure QRes where
  t : Tensor
  chan : List ChanEnt
  sats : Nat
  nonfin : Nat
  ovf : Nat
  deriving DecidableEq, Repr

def countIf {α : Type} (p : α → Bool) (l : List α) : Nat := (l.filter p).length

/-- CONVERT of a whole tensor (R95). -/
def convertTensor (mode : RMode) (seed : Quad) (tag span : Nat) (dst : Elem) (v : View) : QRes :=
  let cs := (List.range v.size).map fun i => convTo dst (mode.at (elemKey seed tag v.t.shape span i)) (v.val i)
  ⟨⟨⟨dst, false⟩, v.t.shape, cs.map (·.code), [], []⟩, [], countIf (·.sat) cs, countIf (·.nonfin) cs, 0⟩

/-! ### Blocks and groups -/

/-- The linear indices of the elements of group `g` when the extent along `d` is cut into groups of `n`; groups are
numbered in the logical order of the group extents. -/
def groupElems (shape : List Nat) (d n g : Nat) : List Nat :=
  let gs := updAt shape d (ceilDiv · n)
  let gi := unravel gs g
  let b := gi.getD d 0
  ((List.range n).filter fun k => b * n + k < shape.getD d 0).map fun k => ravel shape (updAt gi d fun _ => b * n + k)

/-- The number of groups. -/
def groupCount (shape : List Nat) (d n : Nat) : Nat := prod (updAt shape d (ceilDiv · n))

/-- The group of an element and its position in it. -/
def groupOf (shape : List Nat) (d n i : Nat) : Nat × Nat :=
  let idx := unravel shape i
  (ravel (updAt shape d (ceilDiv · n)) (updAt idx d (· / n)), idx.getD d 0 % n)

/-- A tensor of values rebuilt from a value list per group. -/
def scatterGroups {α : Type} (z : α) (shape : List Nat) (d n : Nat) (tbl : List (List α)) : List α :=
  (List.range (prod shape)).map fun i =>
    let (g, k) := groupOf shape d n i
    (tbl.getD g []).getD k z

/-! ### Rotation -/

/-- The group size of a ROT size code (Table 2.3). -/
def rotSize (code : Nat) : Nat := match code with | 1 => 32 | 2 => 64 | 3 => 128 | 4 => 256 | _ => 0

/-- The constants of Table 5.2. -/
def rotConst (code : Nat) : Word :=
  match code with | 1 => 0x3E3504F3 | 2 => 0x3E000000 | 3 => 0x3DB504F3 | _ => 0x3D800000

/-- Is the sign of position i negative (R131)? -/
def rotNeg (seed code i : Nat) : Bool := garnet (BitVec.ofNat 64 seed) (0xFFFFFF00 + code) i 0 0 % 2 == 1

def rotSigns (seed code : Nat) (g : List Word) : List Word :=
  g.mapIdx fun i w => if rotNeg seed code i then f32neg w else w

/-- One butterfly stage at distance h (R131). -/
def butterfly (h : Nat) (g : List Word) : List Word :=
  (List.range g.length).map fun i =>
    if i / h % 2 = 0 then f32add (g.getD i 0) (g.getD (i + h) 0) else f32sub (g.getD (i - h) 0) (g.getD i 0)

/-- The stages h, 2h, ... below n. -/
def butterflies (n : Nat) : Nat → Nat → List Word → List Word
  | 0, _, g => g
  | k + 1, h, g => if h < n then butterflies n k (2 * h) (butterfly h g) else g

/-- Forward or inverse rotation of one group (R131). -/
def rotateGroup (seed code : Nat) (inverse : Bool) (g : List Word) : List Word :=
  let scale (x : List Word) : List Word := x.map fun w => f32mul w (rotConst code)
  if inverse then rotSigns seed code (scale (butterflies (rotSize code) 8 1 g))
  else scale (butterflies (rotSize code) 8 1 (rotSigns seed code g))

/-- Rotation of an FP32 tensor along a dimension; none for size code 0. -/
def rotateWords (seed code : Nat) (inverse : Bool) (shape : List Nat) (d : Nat) (ws : List Word) : List Word :=
  if code = 0 then ws
  else
    let n := rotSize code
    let tbl := (List.range (groupCount shape d n)).map fun g =>
      rotateGroup seed code inverse ((groupElems shape d n g).map fun i => ws.getD i 0)
    scatterGroups 0 shape d n tbl

/-! ### Blocks -/

/-- A grid point of a block format for a value divided by 2^e: the code, and whether it lies beyond the range. -/
structure Pt where
  code : Nat
  ovr : Bool
  deriving DecidableEq, Repr

/-- The range of an integer block format. -/
def intRange (el : Elem) : Option (Nat × Int × Int) :=
  match el with
  | .i8 => some (8, -128, 127)
  | .i4 => some (4, -8, 7)
  | .w2 => some (2, -2, 1)
  | .wt => some (2, -1, 1)
  | _ => none

/-- The floating-point parameters of a block format. -/
def fpOf (el : Elem) : Option FpFmt :=
  match el with
  | .f4 => some FpFmt.f4
  | .f8a => some FpFmt.f8a
  | .f8b => some FpFmt.f8b
  | .bf16 => some FpFmt.bf16
  | .fp32 => some FpFmt.fp32
  | _ => none

/-- The grid point that a mode selects for `x / 2^e`, clamped to the range (R140). Under SR a magnitude whose upper grid
point lies beyond the range takes the lower one, which is no overflow (R129). -/
def blockPt (el : Elem) (r : Rnd) (e : Int) (x : XV) : Pt :=
  match x with
  | .fin s m xe =>
    match intRange el with
    | some (w, lo, hi) =>
      let v := roundInt r s m (xe - e)
      let l := roundInt .rtz s m (xe - e)
      let v := match r with | .sr _ => if (v > hi || v < lo) && (l ≤ hi && l ≥ lo) then l else v | _ => v
      if v > hi then ⟨encInt w hi, true⟩ else if v < lo then ⟨encInt w lo, true⟩ else ⟨encInt w v, false⟩
    | none =>
      match fpOf el with
      | none => ⟨0, false⟩
      | some f =>
        let (n, sp) := roundGrid f.grid r m (xe - e)
        let (n0, sp0) := gridLo f.grid m (xe - e)
        let c := f.encMag n sp
        let c0 := f.encMag n0 sp0
        let c := match r with | .sr _ => if c > f.maxCode && c0 ≤ f.maxCode then c0 else c | _ => c
        if c > f.maxCode then ⟨f.signBit s + f.maxCode, true⟩ else ⟨f.signBit s + c, false⟩
  | _ => ⟨0, false⟩

/-- The exponents -127 to 127 from a start, upward. -/
def expsFrom (lo : Int) : List Int :=
  (List.range 255).filterMap fun k => let e : Int := (k : Int) - 127; if lo ≤ e then some e else none

/-- log2 of the largest magnitude among finite values, rounded down; -400 for none. -/
def topExp (xs : List XV) : Int :=
  xs.foldl (fun a x => match x with
    | .fin _ m e => if m = 0 then a else max a ((Nat.log2 m : Int) + e)
    | _ => a) (-400)

/-- The scale exponent of a normal block (R140): the least e at which nothing overflows under RNE. The search starts 20
below the largest magnitude, where every format overflows. -/
def normalExp (el : Elem) (xs : List XV) : Int :=
  ((expsFrom (topExp xs - 20)).find? fun e => xs.all fun x => !(blockPt el .rne e x).ovr).getD 127

/-- The exact value a code stands for under scale exponent e. -/
def ptVal (el : Elem) (e : Int) (c : Nat) : Dy := let d := (el.dec c).dy; ⟨d.m, d.e + e⟩

/-- The least e at which a value is exactly a code of the format (R141). -/
def exactExp (el : Elem) (v : XV) : Option Int :=
  (expsFrom (topExp [v] - 20)).find? fun e =>
    let p := blockPt el .rne e v
    !p.ovr && ((ptVal el e p.code).sub v.dy).m == 0

/-- The e whose clamped grid point is nearest to the value; the lower on a tie (R141). -/
def nearestExp (el : Elem) (v : XV) : Int :=
  let dist (e : Int) : Dy := ((ptVal el e (blockPt el .rne e v).code).sub v.dy).abs
  (expsFrom (-127)).foldl (fun b e => if (dist e).lt (dist b) then e else b) (-127)

/-- The W1 scale exponent from the mean magnitude (R142). -/
def w1Exp (xs : List XV) : Int :=
  let s := Dy.sum (xs.map fun x => x.dy.abs)
  let n := xs.length
  -- floor(log2(s / n)): the largest k with n * 2^k ≤ s
  let k0 : Int := (Nat.log2 s.m.natAbs : Int) + s.e - Nat.log2 n - 1
  let le (k : Int) (num : Nat) : Bool := (Dy.mk (num * n : Nat) (k - 1)).le s
  let k := if le (k0 + 1) 2 then (if le (k0 + 2) 2 then k0 + 2 else k0 + 1) else k0
  let up := (Dy.mk (3 * n : Nat) (k - 1)).lt s
  max (-127) (min 127 (if up then k + 1 else k))

/-- What one block writes: its scale code, the codes of its elements by position, and its counts. -/
structure BlockRes where
  scale : Nat
  codes : List Nat
  outl : List Nat
  sats : Nat
  nonfin : Nat
  ovf : Nat
  deriving DecidableEq, Repr

/-- One element of a block: its position, value, whether its channel is CONST, and its rounding draw. -/
structure BEl where
  pos : Nat
  x : XV
  const : Bool
  rnd : Rnd
  deriving DecidableEq, Repr

/-- Is an element beyond the clip (R132)? `kk` is κ² exactly. -/
def beyondClip (kk : Dy) (nb : Nat) (sum : Dy) (x : Dy) : Bool :=
  (kk.mul sum).lt ((Dy.ofInt nb).mul (x.mul x))

/-- The elements that go to the outlier path, and whether the block overflows (R132, R133). -/
def outlierPick (budget : Nat) (kappa : XV) (els : List BEl) : List BEl × Bool :=
  let act := els.filter fun b => !b.const
  if budget = 0 || act.any (fun b => !b.x.isFin) then ([], false)
  else
    let kk := (kappa.mul kappa).dy
    let sum := Dy.sum (act.map fun b => b.x.dy.mul b.x.dy)
    let c := act.filter fun b => beyondClip kk act.length sum b.x.dy
    if c.length ≤ budget then (c, false)
    else
      -- largest magnitude first, the lower index among equals
      let rank (b : BEl) : Nat :=
        countIf (fun a => (b.x.dy.abs.lt a.x.dy.abs) || (!(a.x.dy.abs.lt b.x.dy.abs) && decide (a.pos < b.pos))) c
      (c.filter fun b => rank b < budget, true)

/-- The outlier word of an element (Table 5.3) and whether its BF16 value overflowed (R134). -/
def outlierWord (b : BEl) : Nat × Bool :=
  let c := FpFmt.bf16.ieee .rne b.x
  (2 ^ 31 + b.pos * 2 ^ 16 + c, c % 0x8000 > 0x7F7F)

/-- The outlier slots of a block: filled in increasing index, the rest zero (R136). -/
def outlierSlots (budget : Nat) (sel : List BEl) : List Nat :=
  let ws := sel.map fun b => (outlierWord b).1
  ws ++ List.replicate (budget - ws.length) 0

/-- Rows 3 to 5 of Table 5.4 over the finite kept elements: scale code, and the code and saturation of each kept
element. -/
def keptRows (el : Elem) (kept : List BEl) : Nat × (BEl → Nat × Bool) :=
  let xs := kept.map (·.x)
  if xs.all XV.isZero then (0, fun _ => if el = .w1 then (1, true) else (0, false))
  else
    let same := match xs with
      | [] => false
      | v :: vs => vs.all fun x => (x.dy.sub v.dy).m == 0
    let v := xs.headD (.fin false 0 0)
    if el = .w1 then
      let ex := if same then
          (expsFrom (-127)).find? fun e => ((Dy.mk 1 e).sub v.dy.abs).m == 0
        else none
      let e := ex.getD (w1Exp xs)
      ((e + 127).toNat, fun b => (if b.x.sgn && !b.x.isZero then 0 else 1, same && ex.isNone))
    else if same then
      match exactExp el v with
      | some e => ((e + 127).toNat, fun b => ((blockPt el .rne e b.x).code, false))
      | none => let e := nearestExp el v; ((e + 127).toNat, fun b => ((blockPt el .rne e b.x).code, true))
    else
      let e := normalExp el xs
      ((e + 127).toNat, fun b => let p := blockPt el b.rnd e b.x; (p.code, p.ovr))

/-- One block of QUANTIZE (R132 to R142). -/
def quantBlock (el : Elem) (budget : Nat) (kappa : XV) (els : List BEl) : BlockRes :=
  let act := els.filter fun b => !b.const
  let constCode := if el = .w1 then 1 else 0
  let f8 := el == .f8a || el == .f8b
  if act.any (fun b => !b.x.isFin) && !f8 then
    ⟨0xFF, els.map fun b => if b.const then constCode else 0, List.replicate budget 0, 0, act.length, 0⟩
  else
    let (sel, ov) := outlierPick budget kappa els
    let isSel (b : BEl) : Bool := sel.any fun a => a.pos == b.pos
    let kept := act.filter fun b => b.x.isFin && !isSel b
    let (sc, enc) := keptRows el kept
    let res := els.map fun b =>
      if b.const then (constCode, false, false)
      else if isSel b then (0, false, (outlierWord b).2)
      else if !b.x.isFin then
        let c := convTo el b.rnd b.x
        (c.code, c.sat, c.nonfin)
      else let (c, s) := enc b; (c, s, false)
    ⟨sc, res.map (·.1), outlierSlots budget sel, countIf (·.2.1) res, countIf (·.2.2) res, if ov then 1 else 0⟩

/-! ### Channels and the whole pipeline -/

/-- The parameters of a quantization, from the output descriptor and its format in force. -/
structure QPar where
  fmt : Fmt
  bdim : Nat
  /-- channel dimension when a CSET is named -/
  cdim : Option Nat
  zpMode : Bool
  rot : Nat
  rotSeed : Nat
  budget : Nat
  kappa : XV
  mode : RMode
  seed : Quad
  tag : Nat
  span : Nat
  deriving DecidableEq, Repr

/-- The least and the greatest of finite values. -/
def dyMin (a b : Dy) : Dy := if b.lt a then b else a
def dyMax (a b : Dy) : Dy := if a.lt b then b else a

/-- The elements of a channel. -/
def channelElems (shape : List Nat) (cd c : Nat) : List Nat :=
  (List.range (prod shape)).filter fun i => (unravel shape i).getD cd 0 == c

/-- The entry of one channel (R144). A channel that holds zeros of both signs is CONST, its elements being equal in value; the
spec does not say which word is then stored: its first element's (DESIGN CHOICE, log 72). -/
def channelEntry (p : QPar) (ws : List Word) (els : List Nat) : ChanEnt :=
  let xs := els.map fun i => f32 (ws.getD i 0)
  let v := xs.headD (.fin false 0 0)
  if xs.all XV.isFin && xs.all (fun x => (x.dy.sub v.dy).m == 0) && !xs.isEmpty then
    ⟨f32one, 0, true, ws.getD (els.headD 0) 0⟩
  else if p.fmt.elem = .u8 then
    if xs.any (fun x => !x.isFin) then ⟨f32nan, 0, false, 0⟩
    else
      let lo := (xs.map XV.dy).foldl dyMin v.dy
      let hi := (xs.map XV.dy).foldl dyMax v.dy
      let lo' := if p.zpMode then dyMin lo Dy.zero else Dy.zero
      let hi' := dyMax hi Dy.zero
      let sc := toF32 ((hi'.sub lo').xv.div (.fin false 255 0))
      let sc := if f32isZero sc then 1 else sc
      let z := match lo'.neg.xv.div (f32 sc) with
        | .fin s m e => roundInt .rne s m e
        | _ => 0
      ⟨sc, (max 0 (min 255 z)).toNat, false, 0⟩
  else ⟨f32one, 0, false, 0⟩

/-- The rounding of a U8 code: under SR a magnitude whose upper grid point lies beyond 255 takes the lower one (R129). -/
def u8Rnd (r : Rnd) (x : XV) : Rnd :=
  match r, x with
  | .sr _, .fin _ m e => if roundInt .rtz false m e = 255 then .rtz else r
  | _, _ => r

/-- One element of a plain output (R144, R446): CONVERT from FP32, or U8 under its entry. -/
def plainElem (p : QPar) (ent : Option ChanEnt) (r : Rnd) (x : XV) : Conv :=
  match ent with
  | none => convTo p.fmt.elem (if p.fmt.elem = .u8 then u8Rnd r x else r) x
  | some e =>
    if e.const then ⟨0, false, false⟩
    else if p.fmt.elem = .u8 then
      if f32isFin e.scale then let q := x.div (f32 e.scale); convU8 (u8Rnd r q) e.zp q else ⟨0, false, true⟩
    else convTo p.fmt.elem r x

/-- QUANTIZE and forward-copy requantization (R128, R446): FP32 words in logical order to the output tensor. -/
def quantize (p : QPar) (shape : List Nat) (ws0 : List Word) : QRes :=
  let ws := rotateWords p.rotSeed p.rot false shape p.bdim ws0
  let chan := match p.cdim with
    | none => []
    | some cd => (List.range (shape.getD cd 0)).map fun c => channelEntry p ws (channelElems shape cd c)
  let entOf (i : Nat) : Option ChanEnt :=
    match p.cdim with
    | none => none
    | some cd => chan[(unravel shape i).getD cd 0]?
  let rnd (i : Nat) : Rnd := p.mode.at (elemKey p.seed p.tag shape p.span i)
  if p.fmt.b32 then
    let bs := (List.range (groupCount shape p.bdim 32)).map fun g =>
      quantBlock p.fmt.elem p.budget p.kappa ((groupElems shape p.bdim 32 g).mapIdx fun k i =>
        ⟨k, f32 (ws.getD i 0), (match entOf i with | some e => e.const | none => false), rnd i⟩)
    ⟨⟨p.fmt, shape, scatterGroups 0 shape p.bdim 32 (bs.map (·.codes)), bs.map (·.scale), bs.map (·.outl)⟩, chan,
      (bs.map (·.sats)).foldl (· + ·) 0, (bs.map (·.nonfin)).foldl (· + ·) 0, (bs.map (·.ovf)).foldl (· + ·) 0⟩
  else
    let cs := (List.range (prod shape)).map fun i => plainElem p (entOf i) (rnd i) (f32 (ws.getD i 0))
    ⟨⟨p.fmt, shape, cs.map (·.code), [], []⟩, chan, countIf (·.sat) cs, countIf (·.nonfin) cs, 0⟩

/-- The clip ratio of a KAPPA field: 3.0 for a zero of either sign (R129). -/
def kappaOf (w : Word) : XV := if f32isZero w then .fin false 3 0 else f32 w

/-! ### Statistics -/

/-- The statistics of a written tensor (Table 6.1) from the values it stands for and its counts. -/
def statsOf (v : View) (sats nonfin shed ovf : Nat) (inputsFinite : Bool) : Stats :=
  let xs := (List.range v.size).map v.val
  let fin := xs.filter XV.isFin
  let sq := Dy.sum (fin.map fun x => x.dy.mul x.dy)
  let top := (fin.map fun x => x.dy.abs).foldl dyMax Dy.zero
  ⟨v.size, countIf XV.isZero fin, sats, nonfin, toF32 top.xv, sq.m.natAbs, sq.e, shed, ovf, inputsFinite⟩

/-- Two statistics combined (R156): integer addition, maximum, exact addition. -/
def Stats.combine (a b : Stats) : Stats :=
  let sq := (Dy.mk a.sqM a.sqE).add (Dy.mk b.sqM b.sqE)
  ⟨a.n + b.n, a.zeros + b.zeros, a.sats + b.sats, a.nonfin + b.nonfin, f32max a.amax b.amax, sq.m.natAbs, sq.e,
    a.shed + b.shed, a.ovf + b.ovf, a.inputsFinite && b.inputsFinite⟩

def Stats.empty : Stats := ⟨0, 0, 0, 0, 0, 0, 0, 0, 0, true⟩

/-- A share (R154). -/
def share (count n : Nat) : Nat := if n = 0 then 0 else ceilDiv (count * 65535) n

def Stats.satShare (s : Stats) : Nat := share s.sats s.n
def Stats.nonfinShare (s : Stats) : Nat := share s.nonfin s.n
def Stats.zeroShare (s : Stats) : Nat := share s.zeros s.n

/-- SUMSQ as FP32 (Table 6.1). -/
def Stats.sumsq (s : Stats) : Word := toF32 (Dy.mk s.sqM s.sqE).xv

/-- The RMS of a tensor (R155): +0 when nothing is counted or everything is non-finite. -/
def Stats.rms (s : Stats) : Word :=
  if s.n = 0 ∨ s.nonfin = s.n then 0 else toF32 (rmsDy ⟨s.sqM, s.sqE⟩ s.n)

end Sys2Proof.Machine
end

