-- ==== Sys2Proof/Machine/Command.lean ====
section
/-!
DEFINITION. What the mailbox commands share: the command as Beryl takes it, a refusal with its zero completion (R362), the
reading of images (R339, R364), the emptying of a slot (R45), re-admission of a tower (R427, R428).
-/
namespace Sys2Proof.Machine

open Sys2Proof

/-- A command as Beryl takes it: its mailbox, its payload of MBX_LEN bytes, and what the world answers. -/
structure Cmd where
  mbx : Nat
  payload : List Byte
  env : Env
  deriving DecidableEq, Repr

/-- An environment in which nothing fails and host memory holds nothing. -/
def Env.quiet : Env := ⟨none, [], [], .committed, [], [], [], none, .now⟩

/-- A command completes with a status and a completion of zeros of its length (R362). -/
def State.refuse (s : State) (x : Cmd) (status len : Nat) : State := s.complete x.mbx status (List.replicate len 0)

/-- A command completes with OK. -/
def State.done (s : State) (x : Cmd) (data : List Byte) : State := s.complete x.mbx stOK data

/-- What reading an image gives. -/
inductive Img (α : Type) where
  | ok (a : α)
  | bad
  | bus
  deriving DecidableEq, Repr

/-- Is an image address well-formed: 256-byte aligned, and with bit 63 set a host address in bits [51:0] (R339, R364)? -/
def imgAddrOk (addr : Nat) : Bool :=
  addr % 256 == 0 && (if addr ≥ 2 ^ 63 then decide (addr % 2 ^ 63 < 2 ^ 52) else decide (addr < devEnd))

/-- Bytes `off` to `off + len` of an image (R339, R364). -/
def State.imgRead (s : State) (env : Env) (addr off len : Nat) : Img (List Byte) × State :=
  if !imgAddrOk addr then (.bad, s)
  else if addr ≥ 2 ^ 63 then
    match env.cache with
    | none => (.bus, s)
    | some bs => if off + len ≤ bs.length then (.ok ((bs.drop off).take len), s) else (.bus, s)
  else if addr + off + len > devEnd || s.mem.touchesRetired (addr + off) len then (.bad, s)
  else
    match s.readDev rqBeryl noStep env.errs (addr + off) len with
    | (some bs, s') => (.ok bs, s')
    | (none, s') => (.bus, s')

/-- The status of an image that could not be read. -/
def Img.status {α : Type} : Img α → Nat
  | .ok _ => stOK
  | .bad => stBAD_PARAM
  | .bus => stBUS_ERROR

/-- A slot loses its program and everything that R45 and R234 discard with it; the tracker entries leave their towers. The
number of its previous RUN_STEP stands (R206). -/
def State.emptySlot (s : State) (n : Nat) : State :=
  let s1 := (s.clearMoved (s.slot n)).modSlot n fun x => { Slot.reset with lastStep := x.lastStep }
  ({ s1 with towers := s1.towers.map fun (t : Tower) => { t with entries := t.entries.filter fun e => e.1 != n } } : State).releaseGroups

/-- The slots whose allocation an extent test selects, as a mask. -/
def State.slotsHit (s : State) (p : Alloc → Bool) : List Nat :=
  (List.range 4).filter fun n => (s.slot n).allocs.any p

def maskOf (l : List Nat) : Nat := l.foldl (fun a n => a + 2 ^ n) 0

def State.emptySlots (s : State) (l : List Nat) : State := l.foldl State.emptySlot s

/-! ### Opal shares -/

/-- The top forward rung and the top gradient rung of a layer: the highest index of each (R163). -/
def PlanEnt.fwdTop (e : PlanEnt) : Nat := max e.w.length (max e.a.length e.fold.length) - 1
def PlanEnt.gradTop (e : PlanEnt) : Nat := e.g.length - 1

def RoleHist.empty : RoleHist := ⟨List.replicate 16 0, none, 0, 0⟩

/-- A cold tracker entry (R181). -/
def Tracker.cold (e : PlanEnt) : Tracker :=
  ⟨e.fwdTop, e.gradTop, 0, 0, max 4 e.hold, false, List.replicate 4 RoleHist.empty⟩

/-- The tracker state of a layer of a slot without a plan: cold, with the least count of R181 (log 66). -/
def Tracker.bare : Tracker := ⟨0, 0, 0, 0, 4, false, List.replicate 4 RoleHist.empty⟩

/-- The tower in service whose share holds the fewest entries, the lowest number among equals, other than `t` (R160). -/
def State.emptiestShare (s : State) (t : Nat) : Option Nat :=
  (s.towers.mapIdx fun i x => (i, x)).foldl (fun (a : Option Nat) (p : Nat × Tower) =>
    if p.1 = t ∨ !p.2.inService ∨ p.2.entries.length ≥ 64 then a
    else match a with
      | none => some p.1
      | some b => if p.2.entries.length < (s.tower b).entries.length then some p.1 else a) none

/-- Entries in increasing layer number. -/
def sortEntries (l : List (Nat × Nat)) : List (Nat × Nat) := l.insertionSort fun a b => a.2 ≤ b.2

/-- Entries placed one after another; none when no share has room. -/
def State.placeEntries (s : State) (t : Nat) : List (Nat × Nat) → Option State
  | [] => some s
  | e :: es =>
    match s.emptiestShare t with
    | none => none
    | some i => State.placeEntries (s.modTower i fun x => { x with entries := x.entries ++ [e] }) t es

/-- The tracker entries of a leaving tower move to other shares; none when too few shares remain (R160, R425). -/
def State.moveEntries (s : State) (t : Nat) : Option State :=
  let es := sortEntries (s.tower t).entries
  (s.modTower t fun x => { x with entries := [] }).placeEntries t es

/-- The layers whose entries a lost share held go cold, each with its TRACKER_COLD event of cause 0 (R160, R181); their
entries are placed anew where there is room. -/
def State.coldEntries (s : State) (t : Nat) : State :=
  let es := sortEntries (s.tower t).entries
  let s1 := es.foldl (fun s e =>
    let s' := s.modSlot e.1 fun x =>
      match x.plan with
      | none => x
      | some p => { x with trackers := (x.trackers.mapIdx fun i k =>
          if i = e.2 then (match p.layers[i]? with | some pe => Tracker.cold pe | none => k) else k) }
    s'.event ⟨e.1, noStep, 0xFFFF⟩ 0x0205 [(2, e.2), (1, 0)]) s
  let s2 := s1.modTower t fun x => { x with entries := [] }
  (s2.placeEntries t es).getD s2

/-! ### The march engine (R301, R302) -/

/-- One operation of a march element: a read that expects, or a write of, the background or its complement. -/
inductive MarchOp where
  | r (one : Bool)
  | w (one : Bool)
  deriving DecidableEq, Repr

/-- The elements of an algorithm (Table 11.7), 0 March C− and 1 March SS: in rising address order or not, and the operations at each
word. -/
def marchElems (alg : Nat) : List (Bool × List MarchOp) :=
  let z := MarchOp.r false
  let o := MarchOp.r true
  let wz := MarchOp.w false
  let wo := MarchOp.w true
  if alg = 0 then [(true, [wz]), (true, [z, wo]), (true, [o, wz]), (false, [z, wo]), (false, [o, wz]), (true, [z])]
  else [(true, [wz]), (true, [z, z, wz, z, wo]), (true, [o, o, wo, o, wz]), (false, [z, z, wz, z, wo]),
    (false, [o, o, wo, o, wz]), (true, [z])]

/-- The backgrounds of 72-bit words and of 16-bit symbols, and the bits of each (R302). -/
def backgroundsOf (onyx : Bool) : Nat := if onyx then 5 else 7
def wordBits (onyx : Bool) : Nat := if onyx then 16 else 72

/-- Bit `i` of background `k`: none set in the first; else runs of 2^(k - 1) ones and zeros from bit 0 (R302). -/
def backBit (k i : Nat) : Bool := decide (k ≠ 0) && i / 2 ^ (k - 1) % 2 == 0

/-- Is a place one of an Onyx die, else of SRAM? -/
def cellOnyx (c : CellBit) : Bool := decide (0x8000 ≤ c.unit) && c.unit != 0xFFFF

/-- Banks of an SRAM (Table 11.5): 8 for each of 32 spires, 32 of tower memory, 512 of the I/O die. -/
def sramBanks (unit : Nat) (scratch : Bool) : Nat := if unit = 0xFFFF then 512 else if scratch then 256 else 32

/-- 64-bit words of an SRAM bank (Table 11.5): 16 KiB of a scratchpad, 128 KiB elsewhere. -/
def sramWords (unit : Nat) (scratch : Bool) : Nat := if unit ≠ 0xFFFF ∧ scratch then 2048 else 16384

/-- Does a place exist (Tables 11.1, 11.5, R302)? -/
def cellExists (c : CellBit) : Bool :=
  decide (c.bit < wordBits (cellOnyx c))
    && (if cellOnyx c then decide (c.unit < 0x800C) && decide (c.bank < 1024) && decide (c.die < 18) && decide (c.row < 32768)
        else (decide (c.unit < 324) || c.unit == 0xFFFF) && decide (c.bank < sramBanks c.unit c.scratch)
          && decide (c.row < sramWords c.unit c.scratch))

/-- Does a cell return, to an operation of a march, a bit other than the one expected (R301)? -/
def cellFails (c : MarchBit) (k e o : Nat) (op : MarchOp) : Bool :=
  match op with
  | .w _ => false
  | .r one => c.reads.any fun (x : MarchRead) =>
      x.background == k && x.element == e && x.op == o && x.value != (backBit k c.cell.bit != one)

/-- The first failure of a cell as background and element: the backgrounds in turn, and in each the elements in order. -/
def firstFail (alg : Nat) (c : MarchBit) : Option (Nat × Nat) :=
  (List.range (backgroundsOf (cellOnyx c.cell))).findSome? fun k =>
    (((marchElems alg).mapIdx fun e p => (e, p.2)).find? fun (q : Nat × List MarchOp) =>
      (q.2.mapIdx fun o op => cellFails c k q.1 o op).any id).map fun q => (k, q.1)

/-- The failing bit of a cell that a march finds. -/
def foundFail (alg : Nat) (c : MarchBit) : Option MarchFail :=
  if cellExists c.cell then (firstFail alg c).map fun p =>
    ⟨c.cell.unit, c.cell.scratch, c.cell.bank, c.cell.die, c.cell.row, c.cell.bit, p.2, p.1⟩
  else none

/-- Where a failure comes in a march: die by die of Onyx, background, element, then address in the order of its element (log 81). -/
def failOrder (alg : Nat) (f : MarchFail) : List Nat :=
  let rising := (((marchElems alg)[f.element]?).map Prod.fst).getD true
  let a := [if f.scratch then 0 else 1, f.bank, f.row]
  [f.unit, f.die, f.background, f.element] ++ (if rising then a else a.map fun n => 2 ^ 32 - n) ++ [f.bit]

/-- A march over cells: the failing bits in the order in which it finds them first. -/
def marchRun (alg : Nat) (l : List MarchBit) : List MarchFail :=
  (l.filterMap (foundFail alg)).insertionSort fun f g => keyLe (failOrder alg f) (failOrder alg g)

/-- The cells of a tower that a march meets. -/
def towerCells (t : Nat) (l : List MarchBit) : List MarchBit :=
  l.map fun c => { c with cell := { c.cell with unit := t, die := 0xFF } }

/-! ### Repair after a march (R305) -/

/-- Do two failing bits lie in one bank of one memory, of Onyx on one die? -/
def sameBank (f g : MarchFail) : Bool := g.unit == f.unit && g.scratch == f.scratch && g.bank == f.bank && g.die == f.die

/-- The spares of a bank (Table 11.5), less those the factory has used (R306) and those of the soft repairs in force, which last until
power-up (R305). -/
def sparesOf (used : List (MarchFail × Nat)) (f : MarchFail) : Nat × Nat :=
  let (r, c) := if f.die ≠ 0xFF then (8, 0) else if f.scratch then (2, 1) else (4, 2)
  let (hr, hc) := if f.die ≠ 0xFF then (Config.hardOnyx f.unit f.bank f.die, 0) else (Config.hardRows f.unit f.bank, Config.hardCols f.unit f.bank)
  let taken (k : Nat) : List MarchFail := ((used.filter fun p => p.2 == k).map Prod.fst).filter (sameBank f)
  (r - hr - ((taken 1).map MarchFail.row).dedup.length, c - hc - ((taken 2).map MarchFail.bit).dedup.length)

/-- Spares left and bits repaired so far, with 1 row or 2 column. -/
structure Repair where
  rows : Nat
  cols : Nat
  rowsUsed : List Nat
  colsUsed : List Nat
  deriving DecidableEq, Repr

def Repair.covers (r : Repair) (f : MarchFail) : Bool := r.rowsUsed.contains f.row || r.colsUsed.contains f.bit

/-- Pass 1: a row with more failing bits than spare columns left takes a spare row. -/
def repairRows (fs : List MarchFail) (r : Repair) : Repair :=
  (firstsOf (fs.map MarchFail.row)).foldl (fun r row =>
    if decide (0 < r.rows) && decide ((fs.filter fun f => f.row == row && !r.covers f).length > r.cols) then
      { r with rows := r.rows - 1, rowsUsed := row :: r.rowsUsed } else r) r

/-- Pass 2: a column with more failing bits than spare rows left takes a spare column. -/
def repairCols (fs : List MarchFail) (r : Repair) : Repair :=
  (firstsOf (fs.map MarchFail.bit)).foldl (fun r col =>
    if decide (0 < r.cols) && decide ((fs.filter fun f => f.bit == col && !r.covers f).length > r.rows) then
      { r with cols := r.cols - 1, colsUsed := col :: r.colsUsed } else r) r

/-- Pass 3: every remaining bit takes a spare row while one is left, then a spare column. -/
def repairRest (fs : List MarchFail) (r : Repair) : Repair :=
  fs.foldl (fun r f =>
    if r.covers f then r
    else if 0 < r.rows then { r with rows := r.rows - 1, rowsUsed := f.row :: r.rowsUsed }
    else if 0 < r.cols then { r with cols := r.cols - 1, colsUsed := f.bit :: r.colsUsed }
    else r) r

/-- REPAIR of one failing bit (Table 11.8) among the failing bits of its bank. -/
def repairOf (used : List (MarchFail × Nat)) (all : List MarchFail) (f : MarchFail) : Nat :=
  let fs := all.filter (sameBank f)
  let (rows, cols) := sparesOf used f
  let r0 : Repair := ⟨rows, cols, [], []⟩
  let r := if f.die ≠ 0xFF then repairRest fs r0 else repairRest fs (repairCols fs (repairRows fs r0))
  if r.rowsUsed.contains f.row then 1 else if r.colsUsed.contains f.bit then 2 else 0

/-- Repeated failures of one bit merged into the first (R304). -/
def mergeFails (l : List MarchFail) : List MarchFail :=
  l.foldl (fun acc f =>
    if acc.any fun g => sameBank f g && g.row == f.row && g.bit == f.bit then acc else acc ++ [f]) []

/-- The failing bits with their repairs, beside the soft repairs in force. -/
def repairs (used : List (MarchFail × Nat)) (l : List MarchFail) : List (MarchFail × Nat) :=
  let m := mergeFails l
  m.map fun f => (f, repairOf used m f)

/-- The repairs of a march take effect (R305). -/
def Mem.repair (m : Mem) (rs : List (MarchFail × Nat)) : Mem := { m with repairs := m.repairs ++ rs.filter fun p => p.2 != 0 }

def unrepaired (l : List (MarchFail × Nat)) : Nat := (l.filter fun p => p.2 == 0).length

/-! ### Re-admission -/

/-- The next dome epoch (R427). -/
def nextEpoch (e : Word) : Word := if e = 0xFFFFFFFF then 1 else e + 1

/-- A tower as re-admission leaves it: queue and streams empty, counters of R36 and R205 zero, Opal share empty; its droop
window count stands (Table 15.6, Table 17.6). Shadows stand (Table 15.7). -/
def Tower.cleared (t : Tower) : Tower :=
  let z (c : Ctr) : Ctr := ⟨0, c.shadow⟩
  { t.emptied with
    entries := []
    ctrs := { TowerCtrs.zero with
      cycles := z t.ctrs.cycles, issued := z t.ctrs.issued, pwrBub := z t.ctrs.pwrBub, droopBub := z t.ctrs.droopBub
      starved := z t.ctrs.starved, idle := z t.ctrs.idle, fwdCells := z t.ctrs.fwdCells, bwdCells := z t.ctrs.bwdCells
      freeze := t.ctrs.freeze }
    jsp := { JspCtrs.zero with
      rdBytes := z t.jsp.rdBytes, wrBytes := z t.jsp.wrBytes, creditStall := z t.jsp.creditStall, freeze := t.jsp.freeze } }

/-- A tower that returns: cleared, with the FREEZE writes that waited for it (R347). -/
def Tower.returned (t : Tower) : Tower :=
  let x := t.cleared
  { x with
    ctrs := { x.ctrs with freeze := x.heldUtil.getD x.ctrs.freeze }
    jsp := { x.jsp with freeze := x.heldJsp.getD x.jsp.freeze }
    heldUtil := none, heldJsp := none }

/-- The state of a tower marched for re-admission (Table 17.6): admitted under E + 1, which every tower in service adopts; or left at
TWR_STATE 4 when a failure stays unrepaired, with TOWER_FAULT of cause 0 when it served or slept before (R426, Table 17.5). Tracker
entries it held have gone cold (R425). -/
def State.readmit (s : State) (t : Nat) (fails : List MarchFail) : State :=
  let rs := repairs s.mem.repairs fails
  let s1 := ({ s with mem := s.mem.repair rs }).collectDroop t
  if unrepaired rs ≠ 0 then
    let s2 := s1.modTower t fun x => { x.cleared with state := 4 }
    if (s.tower t).state ≤ 1 then s2.event (.tower t) 0x0506 [(2, t), (1, 0)] else s2
  else
    let e := nextEpoch s.domeEpoch
    let s2 := s1.modTower t fun x => { x.returned with state := 0, admitted := true }
    { s2 with
      domeEpoch := e
      towers := s2.towers.map fun (x : Tower) => if x.inService then { x with epoch := e } else x }

/-- UNIT_READMITTED with the repairs of the march (Table 17.8). -/
def State.readmitEvent (s : State) (t : Nat) (rs : List (MarchFail × Nat)) : State :=
  s.event (.tower t) 0x0507 [(2, t), (4, if unrepaired rs = 0 then s.domeEpoch.toNat else 0), (4, rs.length), (4, unrepaired rs)]

end Sys2Proof.Machine
end

