-- ==== Sys2Proof/Machine/Admin.lean ====
section
/-!
DEFINITION. The bodies of the administration, power and diagnostics commands (R367, R368, R377, R386, R387) and of the
small configuration commands SET_CADENCE, SET_POWER_CAP, ABORT_STEP (R371, R374): what each does once Beryl has admitted
it (R363).
-/
namespace Sys2Proof.Machine

open Sys2Proof

/-- Bytes of an ASCII string, zero-padded. -/
def asciiPad (t : String) (n : Nat) : List Byte := sliceB (t.toList.map fun c => BitVec.ofNat 8 c.toNat) 0 n

/-- IDENTIFY completion (Table 14.3). -/
def State.identifyBytes (s : State) : List Byte :=
  asciiPad "WY-SW40-L" 16 ++ toLe 1 0xB0 ++ toLe 1 s.fuses.state ++ toLe 2 0x0100 ++ toLe 2 0x0100
    ++ toLe 2 s.activeTowers ++ toLe 8 Config.serial.toNat ++ toLe 8 s.ext.version.toNat ++ toLe 2 s.fuses.ceiling
    ++ toLe 1 s.slotMask ++ toLe 1 (if s.fabric.topo.isSome then 1 else 0) ++ toLe 4 0

def cmdIdentify (x : Cmd) (s : State) : State := s.done x s.identifyBytes

/-- GET_CAPS completion (Table 14.4). -/
def State.capsBytes (s : State) : List Byte :=
  toLe 2 1 ++ toLe 2 0x0100 ++ toLe 1 4 ++ toLe 1 6 ++ toLe 1 4 ++ toLe 1 64 ++ toLe 4 16384 ++ toLe 4 65536
    ++ toLe 2 4096 ++ toLe 2 128 ++ toLe 4 0x7FFFFFFF ++ toLe 4 2097152 ++ toLe 1 0x0F ++ toLe 1 0x0F ++ toLe 1 4
    ++ toLe 1 8 ++ toLe 2 128 ++ toLe 2 256 ++ toLe 1 8 ++ toLe 1 0 ++ toLe 2 4096 ++ toLe 4 0x7FFFFFFF
    ++ toLe 4 65536 ++ toLe 4 16777216 ++ toLe 4 2097152 ++ toLe 4 65536 ++ toLe 4 1048576 ++ toLe 2 1024
    ++ toLe 2 s.activeTowers ++ toLe 4 0

def cmdGetCaps (x : Cmd) (s : State) : State := s.done x s.capsBytes

/-- The 32-byte header of READ_LOG (R368). -/
def logHeader (n e : Nat) (lost : Word) : List Byte :=
  toLe 1 n ++ List.replicate 3 0 ++ toLe 4 e ++ toLe 4 lost.toNat ++ List.replicate 20 0

/-- Records of the ring, read by Beryl from device memory: `n` from index `i`. -/
def State.ringRead (s : State) (errs : List BeatErr) : Nat → Word → List Byte → Option (List Byte) × State
  | 0, _, acc => (some acc, s)
  | n + 1, i, acc =>
    let size := 2 ^ s.evt.log2
    match s.readDev rqBeryl noStep errs (s.evt.base.toNat + 64 * (i.toNat % size)) 64 with
    | (some bs, s') => State.ringRead s' errs n (i + 1) (acc ++ bs)
    | (none, s') => (none, s')

/-- READ_LOG (R368). -/
def cmdReadLog (x : Cmd) (s : State) : State :=
  let which := fieldLe x.payload 0 1
  let count := fieldLe x.payload 1 1
  let start := fieldLe x.payload 4 4
  let bad := s.refuse x stBAD_PARAM 32
  if which > 1 ∨ count < 1 ∨ count > 62 ∨ ¬ zeroAt x.payload 2 2 then bad
  else if which = 0 then
    if start ≥ 256 then bad
    else
      let recs := (s.evt.early.drop start).take count
      s.done x (logHeader recs.length s.evt.early.length s.evt.lostCount ++ recs.flatMap EvRec.bytes)
  else
    let st : Word := BitVec.ofNat 32 start
    if !s.evt.en || decide ((st - s.evt.tail).toNat > (s.evt.head - s.evt.tail).toNat) then bad
    else
      let n := min count (s.evt.head - st).toNat
      match s.ringRead x.env.errs n st [] with
      | (some bs, s') => s'.done x (logHeader n s'.evt.head.toNat s'.evt.lostCount ++ bs)
      | (none, s') => s'.refuse x stBUS_ERROR 32

/-- SET_CADENCE (R274, R371). -/
def cmdSetCadence (x : Cmd) (s : State) : State :=
  let code := fieldLe x.payload 0 1
  let e : Quad := BitVec.ofNat 64 (fieldLe x.payload 8 8)
  let late : Bool := match s.belfry.lastStep with
    | some n => decide (e.toNat ≤ n.toNat)
    | none => false
  if code > 36 ∨ ¬ zeroAt x.payload 1 7 ∨ late then s.refuse x stBAD_PARAM 0
  else (({ s with belfry := { s.belfry with pending := some (code, e) } }).sendBeacon).done x []

/-- SET_POWER_CAP (R312, R371): the cap now, in effect from the next fast-loop period. -/
def cmdSetPowerCap (x : Cmd) (s : State) : State :=
  let cap := fieldLe x.payload 0 2
  if cap < 80 ∨ cap > 240 ∨ cap > s.fuses.ceiling ∨ ¬ zeroAt x.payload 2 2 then s.refuse x stBAD_PARAM 4
  else
    let s1 := { s with belfry := { s.belfry with cap := cap } }
    let after := { s1 with belfry := { s1.belfry with capEff := cap } }
    s1.done x (toLe 2 after.effCap ++ toLe 2 0)

/-- ABORT_STEP (R227, R374): BUSY comes before the payload, when the one step of its slot is past its decision (R363). -/
def cmdAbortStep (x : Cmd) (s : State) : State :=
  let n := fieldLe x.payload 0 1
  let early := (s.earlyIdx.bind fun i => (s.steps[i]?).map fun p => (i, p.slot)).filter fun q => q.2 == n
  if early.isNone && s.slotRunning n then s.refuse x stBUSY 0
  else if n > 3 ∨ ¬ zeroAt x.payload 1 3 then s.refuse x stBAD_PARAM 0
  else match early with
    | some q => (s.failStep q.1 stABORTED).done x []
    | none => s.done x []

/-- BELFRY_STATUS: 18 words, the 64-bit counters whole (R377). -/
def State.belfryWords (s : State) : List Byte :=
  (List.range 18).flatMap fun k =>
    let off := 4 * k
    if off = 0x30 then toLe 4 (s.measure.energy.v.toNat % 2 ^ 32)
    else if off = 0x34 then toLe 4 (s.measure.energy.v.toNat / 2 ^ 32)
    else if off = 0x38 then toLe 4 (s.measure.droopWin.v.toNat % 2 ^ 32)
    else if off = 0x3C then toLe 4 (s.measure.droopWin.v.toNat / 2 ^ 32)
    else toLe 4 (s.belfryReg off)

def cmdBelfryStatus (x : Cmd) (s : State) : State := s.done x s.belfryWords

def cmdClearDivergence (x : Cmd) (s : State) : State := s.clearDivergence.done x []

/-! ### Links -/

def State.modLink (s : State) (l : Nat) (f : Link → Link) : State :=
  { s with fabric := { s.fabric with links := updAt s.fabric.links l f } }

/-- The peer slot of a link, 0xFF while no topology is declared (R387). -/
def State.peerOf (s : State) (l : Nat) : Nat :=
  match s.fabric.topo.bind Topology.me with
  | some me => peerSlot me.slot l
  | none => 0xFF

/-- Relays of down links: the board-mate of lowest slot whose links to both ends are in service, to this module by its own links and to
the far end as LINK_DOWN brings it; none while no topology names the slots (R257, R387; log 8). -/
def State.reroute (s : State) : State :=
  let me := s.fabric.topo.bind Topology.me
  let live := (List.range 7).filter fun l => (s.link l).state != 0
  { s with fabric := { s.fabric with links := s.fabric.links.map fun (k : Link) =>
      { k with relay := if k.state = 0 then me.bind fun m => (live.find? k.mates.contains).map (peerSlot m.slot) else none } } }

/-- A link trains to its full width (R257). -/
def State.linkUpFull (s : State) (l : Nat) : State :=
  (s.modLink l fun k => { k with state := 2, lanes := 16, down := false, mates := [] }).reroute

/-- Is the module serviceable, and why not (R387)? -/
def State.causes (s : State) : Nat :=
  putBit (s.towers.any fun t => t.routerFault) 0 + putBit s.power.ioSramBad 1 + putBit (s.keep.state == 3) 2
    + putBit (s.fabric.links.any fun l => l.mismatch) 3

/-- A 48-byte tower bitmap. -/
def State.bitmap (s : State) (p : Tower → Bool) : List Byte :=
  (List.range 48).map fun k => BitVec.ofNat 8 ((List.range 8).foldl (fun a b =>
    let t := 8 * k + b
    a + putBit (decide (t < 324) && p (s.tower t)) b) 0)

/-- One link's 16 bytes (Table 14.18). -/
def State.linkBytes (s : State) (l : Nat) : List Byte :=
  let k := s.link l
  let mine := match s.fabric.topo with | some t => t.me.map ModEnt.slot | none => none
  let peer := match mine with | some m => peerSlot m l | none => 0xFF
  let relay := match mine, k.relay with | some _, some r => r | _, _ => 0xFF
  toLe 1 k.state ++ toLe 1 peer ++ toLe 1 relay ++ toLe 1 0 ++ toLe 4 k.replays.toNat ++ toLe 4 k.dropped.toNat ++ toLe 4 0

/-- UNIT_STATUS completion by KIND (Table 14.18). -/
def State.unitBytes (s : State) (kind : Nat) : List Byte :=
  match kind with
  | 0 => s.bitmap Tower.inService ++ s.bitmap (·.state == 1) ++ s.bitmap (·.state == 2) ++ s.bitmap (·.state == 3)
      ++ s.bitmap (·.state == 4) ++ s.bitmap (·.routerFault)
  | 1 => (List.range 7).flatMap s.linkBytes ++ toLe 4 s.fabric.fabricDrops.toNat ++ List.replicate 12 0
  | _ =>
    let c := s.causes
    toLe 1 (if c % 4 = 0 then 1 else 0) ++ toLe 1 c ++ toLe 2 s.activeTowers
      ++ toLe 4 (s.towers.foldl (fun a t => a + t.ctrs.staleDrop.toNat) 0)

/-- The completion length of UNIT_STATUS by KIND (Table 14.18); no other KIND has one. -/
def unitLen (kind : Nat) : Nat := match kind with | 0 => 288 | 1 => 128 | 2 => 8 | _ => 0

def cmdUnitStatus (x : Cmd) (s : State) : State :=
  let kind := fieldLe x.payload 0 1
  if kind > 2 ∨ ¬ zeroAt x.payload 1 3 then s.refuse x stBAD_PARAM (unitLen kind) else s.done x (s.unitBytes kind)

/-- RESET_UNIT (R386, R428, Table 17.6). A retrained link comes back at its full width, also one that is down (R257). -/
def cmdResetUnit (x : Cmd) (s : State) : State :=
  let kind := fieldLe x.payload 0 1
  let u := fieldLe x.payload 2 2
  if kind > 2 ∨ ¬ zeroAt x.payload 1 1 then s.refuse x stBAD_PARAM 8
  else if kind = 2 then
    if u > 6 then s.refuse x stBAD_PARAM 8
    else
      let s1 := s.linkUpFull u
      s1.done x (toLe 4 0 ++ toLe 2 s1.activeTowers ++ toLe 2 0)
  else if u ≥ 324 ∨ (s.tower u).state = 3 then s.refuse x stBAD_PARAM 8
  else if kind = 0 then
    let fails := marchRun 0 (towerCells u x.env.fails)
    let s1 := (s.coldEntries u).readmit u fails
    let ok := (s1.tower u).state = 0
    let s2 := s1.readmitEvent u (repairs s.mem.repairs fails)
    s2.done x (toLe 4 (if ok then s2.domeEpoch.toNat else 0) ++ toLe 2 s2.activeTowers ++ toLe 2 0)
  else
    match s.moveEntries u with
    | none => s.refuse x stNO_RESOURCE 8
    | some s1 =>
      let s2 := (s1.collectDroop u).modTower u fun t => { t with state := 2 }
      s2.done x (toLe 4 0 ++ toLe 2 s2.activeTowers ++ toLe 2 0)

end Sys2Proof.Machine
end

