-- ==== Sys2Proof/Machine/MemCmds.lean ====
section
/-!
DEFINITION. The bodies of the memory commands: RETIRE_PAGE and RETIRE_BANK (R293 to R296), SCRUB_CTRL (R289), MARCH_TEST
(R301 to R305, R376).
-/
namespace Sys2Proof.Machine

open Sys2Proof

/-- RETIRE_PAGE. The landing area of a job of several boards is BUSY (R295). -/
def cmdRetirePage (x : Cmd) (s : State) : State :=
  let p := fieldLe x.payload 0 8
  if s.landing && decide (landBase ≤ p * 65536) && decide (p ≤ 12582911) then s.refuse x stBUSY 8
  else if p > 12582911 then s.refuse x stBAD_PARAM 8
  else if s.mem.pages.contains p then s.done x (toLe 1 0 ++ toLe 3 0 ++ toLe 4 s.mem.pages.length)
  else if s.mem.pages.length ≥ 4096 then s.refuse x stNO_RESOURCE 8
  else
    let hit := s.slotsHit fun a => a.hits (p * 65536) 65536
    let s1 := s.emptySlots hit
    let s2 := { s1 with mem := { s1.mem with pages := s1.mem.pages ++ [p] } }
    s2.done x (toLe 1 (maskOf hit) ++ toLe 3 0 ++ toLe 4 s2.mem.pages.length)

/-- The device pages of a bank, one per row (R294). -/
def Mem.bankPages (m : Mem) (b : Bank) : List Nat :=
  (List.range 32768).map fun row => m.device b.stack ((row * 1024 + b.bank * 32 + b.channel) * 2048) / 65536

/-- RETIRE_BANK. -/
def cmdRetireBank (x : Cmd) (s : State) : State :=
  let b : Bank := ⟨fieldLe x.payload 0 1, fieldLe x.payload 1 1, fieldLe x.payload 2 1⟩
  if s.landing && decide (b.stack ≤ 11) && decide (b.channel ≤ 31) && decide (b.bank ≤ 31) then s.refuse x stBUSY 8
  else if b.stack > 11 ∨ b.channel > 31 ∨ b.bank > 31 ∨ ¬ zeroAt x.payload 3 1 then s.refuse x stBAD_PARAM 8
  else if s.mem.banks.contains b then s.done x (List.replicate 8 0)
  else if s.mem.banks.length ≥ 8 then s.refuse x stNO_RESOURCE 8
  else
    let fresh := (s.mem.bankPages b).filter fun p => !s.mem.pageRetired p
    let one := { s.mem with banks := [b], pages := [] }
    let hit := s.slotsHit fun a => one.touchesRetired a.addr a.len
    let s1 := s.emptySlots hit
    ({ s1 with mem := { s1.mem with banks := s1.mem.banks ++ [b] } }).done x (toLe 1 (maskOf hit) ++ toLe 3 0 ++ toLe 4 fresh.length)

/-- SCRUB_CTRL (R289, R375): PERIOD_H is written only by action 0. -/
def cmdScrubCtrl (x : Cmd) (s : State) : State :=
  let act := fieldLe x.payload 0 1
  let h := fieldLe x.payload 2 2
  if act > 2 ∨ ¬ zeroAt x.payload 1 1 ∨ (act = 0 ∧ (h < 1 ∨ h > 720)) ∨ (act ≠ 0 ∧ h ≠ 0) then
    s.refuse x stBAD_PARAM 4
  else
    let m := s.mem
    let m1 := match act with
      | 0 => { m with scrubH := h }
      | 1 => { m with scrubOn := false }
      | _ => { m with scrubOn := true }
    ({ s with mem := m1 }).done x (toLe 4 m1.scrubStatus)

/-! ### March -/

/-- MARCH_TEST payload (Table 14.13). -/
structure March where
  target : Nat
  alg : Nat
  mode : Nat
  unit : Nat
  channel : Nat
  bank : Nat
  addr : Nat
  max : Nat
  deriving DecidableEq, Repr

def March.of (b : List Byte) : March :=
  ⟨fieldLe b 0 1, fieldLe b 1 1, fieldLe b 2 1, fieldLe b 4 2, fieldLe b 6 1, fieldLe b 7 1, fieldLe b 8 8, fieldLe b 16 4⟩

/-- Does an extent touch the tested Onyx bank? -/
def Mem.touchesBank (m : Mem) (b : Bank) (a len : Nat) : Bool :=
  let lo := a / 2048
  let hi := (a + len - 1) / 2048
  decide (0 < len) && (List.range (hi + 1 - lo)).any fun k =>
    let p := m.place ((lo + k) * 2048)
    p.stack == b.stack && p.channel == b.channel && p.bank == b.bank

/-- The payload rules of Table 14.13 and R376. -/
def State.marchOk (s : State) (m : March) (res : Bool) : Bool :=
  let onyx := m.target == 2
  let bank : Bank := ⟨m.unit, m.channel, m.bank⟩
  let len := 16 * m.max
  decide (m.target ≤ 2) && decide (m.alg ≤ 1) && decide (m.mode ≤ 1) && res
    && (match m.target with
        | 0 => decide (m.unit < 324) && m.mode == 0 && (s.tower m.unit).state != 3
        | 1 => m.unit == 0
        | _ => decide (m.unit ≤ 11))
    && (if onyx then decide (m.channel ≤ 31) && decide (m.bank ≤ 31) else m.channel == 0 && m.bank == 0)
    && m.addr % 256 == 0 && decide (m.addr + len ≤ devEnd)
    && !s.allocs.any (fun a => a.hits m.addr len) && !s.mem.touchesRetired m.addr len
    && !(onyx && s.mem.touchesBank bank m.addr len)

/-- A march failure record (Table 11.8). -/
def failRecord (m : March) (p : MarchFail × Nat) : List Byte :=
  let f := p.1
  let unit := match m.target with | 0 => m.unit | 1 => 0xFFFF | _ => 0x8000 + m.unit
  let (bank, die, row) :=
    if m.target = 2 then (0xFF, f.die, f.row % 32768 + m.channel * 2 ^ 15 + m.bank * 2 ^ 20) else (f.bank, 0xFF, f.row)
  toLe 2 unit ++ toLe 1 bank ++ toLe 1 die ++ toLe 4 row ++ toLe 2 f.bit ++ toLe 1 f.element ++ toLe 1 f.background
    ++ toLe 1 p.2 ++ toLe 3 0

/-- The cells that a march meets, placed on its target. -/
def marchCells (m : March) (l : List MarchBit) : List MarchBit :=
  match m.target with
  | 0 => towerCells m.unit l
  | 1 => l.map fun c => { c with cell := { c.cell with unit := 0xFFFF, die := 0xFF, scratch := false } }
  | _ => l.map fun c =>
      { c with cell := { c.cell with unit := 0x8000 + m.unit, bank := m.channel * 32 + m.bank, scratch := false } }

/-- A march's writes over an Onyx bank: zeros in destructive mode, what stood in preserving mode; the lines that the host may hold are
snooped first and wait; the write-backs queued for the bank are dropped (R302, R303, R309, R338). -/
def State.marchWrites (s : State) (b : Bank) (zero : Bool) : State :=
  let tracked := s.mem.snoop.filter fun l => s.mem.touchesBank b (64 * l) 64
  let old := s.mem.view
  let cells := if zero then s.mem.cells.filter fun (c : Host.Cell) => !s.mem.touchesBank b c.1 1 || s.mem.snoop.contains (c.1 / 64)
    else s.mem.cells
  let s1 := { s with mem := { s.mem with
    cells := cells
    onyx := s.mem.onyx.map fun (o : Stack) =>
      { o with writeBacks := o.writeBacks.filter fun w => !s.mem.touchesBank b w.addr 1 } } }
  tracked.foldl (fun s l => s.writeLine (64 * l) (if zero then List.replicate 64 0 else memRead old (64 * l) 64)) s1

/-- A tower in service sleeps for its test (R28, R376): its work is gone, its tracker entries have moved. -/
def State.marchSleep (s : State) (t : Nat) : State :=
  if (s.tower t).inService then
    (((s.moveEntries t).getD (s.coldEntries t)).collectDroop t).modTower t fun x => { x.emptied with state := 1 }
  else s

/-- What the march leaves: an Onyx bank written whole; a tower returns through re-admission; unrepaired I/O-die SRAM makes the module
unserviceable (R302, R303, R305, R376). -/
def State.marchEffect (s : State) (m : March) (fs : List MarchFail) : State :=
  let rs := repairs s.mem.repairs fs
  match m.target with
  | 0 => ((s.marchSleep m.unit).readmit m.unit fs).readmitEvent m.unit rs
  | 1 => { s with
      mem := s.mem.repair rs
      power := { s.power with ioSramBad := s.power.ioSramBad || decide (unrepaired rs ≠ 0) } }
  | _ => ({ s with mem := s.mem.repair rs }).marchWrites ⟨m.unit, m.channel, m.bank⟩ (m.mode == 0)

/-- A preserving march reads each word before it tests it: corrections count, and a word that reads uncorrectable is recorded and comes
back with its raw bits (R292, R303). -/
def State.marchSaves (s : State) (m : March) (env : Env) : State :=
  if m.mode = 0 then s
  else if m.target = 1 then
    (env.sram.filter fun w => decide (w.1 < sramBanks 0xFFFF false) && decide (w.2 < sramWords 0xFFFF false)).foldl
      (fun s w => s.sramEvent .module 0xFFFF w.1 w.2 rqBeryl []) s
  else
    let b : Bank := ⟨m.unit, m.channel, m.bank⟩
    (((env.errs.map fun e => e.addr / 32 * 32).dedup).filter fun a => s.mem.touchesBank b a 32).foldl
      (fun s a => (s.readBeat rqBeryl noStep env.errs a).2) s

/-- Does a MARCH_TEST pass the rules of its payload? -/
def State.marchAllowed (s : State) (p : List Byte) : Bool :=
  s.marchOk (March.of p) (zeroAt p 3 1 && zeroAt p 20 4)

/-- MARCH_TEST (R304, R376). -/
def cmdMarchTest (x : Cmd) (s : State) : State :=
  let m := March.of x.payload
  if !s.marchAllowed x.payload then s.refuse x stBAD_PARAM 16
  else
    let fs := marchRun m.alg (marchCells m x.env.fails)
    let rs := repairs s.mem.repairs fs
    let b : Bank := ⟨m.unit, m.channel, m.bank⟩
    let hit := if m.target = 2 ∧ m.mode = 0 then s.slotsHit fun a => s.mem.touchesBank b a.addr a.len else []
    let s1 := ((s.marchSaves m x.env).marchEffect m fs).emptySlots hit
    let written := rs.take m.max
    let s2 := s1.writeIo m.addr (written.flatMap (failRecord m))
    let s3 := s2.event .module 0x0504 [(1, m.target), (2, m.unit), (1, m.channel), (1, m.bank), (1, m.alg), (1, m.mode),
      (4, rs.length), (4, unrepaired rs)]
    s3.done x (toLe 4 rs.length ++ toLe 4 (unrepaired rs) ++ toLe 4 written.length ++ toLe 1 (maskOf hit) ++ toLe 3 0)

/-! ### A march in flight -/

/-- The Onyx banks that marches in flight test. -/
def State.marchBanks (s : State) : List Bank :=
  (s.jobs.filter fun j => j.1.opcode == 0x0304).filterMap fun j =>
    let m := March.of j.1.payload
    if m.target = 2 then some ⟨m.unit, m.channel, m.bank⟩ else none

/-- The towers that marches in flight hold. -/
def State.marchTowers (s : State) : List Nat :=
  (s.jobs.filter fun j => j.1.opcode == 0x0304).filterMap fun j =>
    let m := March.of j.1.payload
    if m.target = 0 then some m.unit else none

/-- Every byte of an Onyx bank takes a free value: a march that stops leaves it undefined (R431). The bank is 64 MiB in granules of
2 KiB (R281). -/
def State.scrambleBank (s : State) (b : Bank) : State :=
  let c := s.freeCtr
  let at' (k : Nat) : Nat := s.mem.device b.stack ((k / 2048 * 1024 + b.bank * 32 + b.channel) * 2048 + k % 2048)
  { s with
    freeCtr := c + 1
    mem := { s.mem with
      cells := (List.range 0x4000000).foldl (fun m k => memSet m (at' k) (Config.padByte c (at' k))) s.mem.cells
      onyx := s.mem.onyx.map fun (o : Stack) =>
        { o with writeBacks := o.writeBacks.filter fun w => !s.mem.touchesBank b w.addr 1 } } }

end Sys2Proof.Machine
end

