-- ==== Sys2Proof/Machine/Sha.lean ====
section
/-!
DEFINITION. SHA-512, and RSASSA-PSS with a 4,096-bit modulus, exponent 65,537, SHA-512, MGF1 with SHA-512 and a 64-byte
salt (R408); the identity key from HKDF, HMAC_DRBG and the probable primes of FIPS 186-5 (R409; log 84).
-/
namespace Sys2Proof.Machine

open Sys2Proof

/-- The round constants of SHA-512, in four parts. -/
def shaK0 : List Quad := [
    0x428A2F98D728AE22, 0x7137449123EF65CD, 0xB5C0FBCFEC4D3B2F, 0xE9B5DBA58189DBBC,
    0x3956C25BF348B538, 0x59F111F1B605D019, 0x923F82A4AF194F9B, 0xAB1C5ED5DA6D8118,
    0xD807AA98A3030242, 0x12835B0145706FBE, 0x243185BE4EE4B28C, 0x550C7DC3D5FFB4E2,
    0x72BE5D74F27B896F, 0x80DEB1FE3B1696B1, 0x9BDC06A725C71235, 0xC19BF174CF692694,
    0xE49B69C19EF14AD2, 0xEFBE4786384F25E3, 0x0FC19DC68B8CD5B5, 0x240CA1CC77AC9C65]
def shaK1 : List Quad := [
    0x2DE92C6F592B0275, 0x4A7484AA6EA6E483, 0x5CB0A9DCBD41FBD4, 0x76F988DA831153B5,
    0x983E5152EE66DFAB, 0xA831C66D2DB43210, 0xB00327C898FB213F, 0xBF597FC7BEEF0EE4,
    0xC6E00BF33DA88FC2, 0xD5A79147930AA725, 0x06CA6351E003826F, 0x142929670A0E6E70,
    0x27B70A8546D22FFC, 0x2E1B21385C26C926, 0x4D2C6DFC5AC42AED, 0x53380D139D95B3DF,
    0x650A73548BAF63DE, 0x766A0ABB3C77B2A8, 0x81C2C92E47EDAEE6, 0x92722C851482353B]
def shaK2 : List Quad := [
    0xA2BFE8A14CF10364, 0xA81A664BBC423001, 0xC24B8B70D0F89791, 0xC76C51A30654BE30,
    0xD192E819D6EF5218, 0xD69906245565A910, 0xF40E35855771202A, 0x106AA07032BBD1B8,
    0x19A4C116B8D2D0C8, 0x1E376C085141AB53, 0x2748774CDF8EEB99, 0x34B0BCB5E19B48A8,
    0x391C0CB3C5C95A63, 0x4ED8AA4AE3418ACB, 0x5B9CCA4F7763E373, 0x682E6FF3D6B2B8A3,
    0x748F82EE5DEFB2FC, 0x78A5636F43172F60, 0x84C87814A1F0AB72, 0x8CC702081A6439EC]
def shaK3 : List Quad := [
    0x90BEFFFA23631E28, 0xA4506CEBDE82BDE9, 0xBEF9A3F7B2C67915, 0xC67178F2E372532B,
    0xCA273ECEEA26619C, 0xD186B8C721C0C207, 0xEADA7DD6CDE0EB1E, 0xF57D4F7FEE6ED178,
    0x06F067AA72176FBA, 0x0A637DC5A2C898A6, 0x113F9804BEF90DAE, 0x1B710B35131C471B,
    0x28DB77F523047D84, 0x32CAAB7B40C72493, 0x3C9EBE0A15C9BEBC, 0x431D67C49C100D4C,
    0x4CC5D4BECB3E42B6, 0x597F299CFC657E2A, 0x5FCB6FAB3AD6FAEC, 0x6C44198C4A475817]
def shaK : List Quad := shaK0 ++ shaK1 ++ shaK2 ++ shaK3

/-- The initial hash value. -/
def shaInit : List Quad := [
    0x6A09E667F3BCC908, 0xBB67AE8584CAA73B, 0x3C6EF372FE94F82B, 0xA54FF53A5F1D36F1,
    0x510E527FADE682D1, 0x9B05688C2B3E6C1F, 0x1F83D9ABFB41BD6B, 0x5BE0CD19137E2179]

def rotr (x : Quad) (n : Nat) : Quad := (x >>> n) ||| (x <<< (64 - n))

/-- Big-endian bytes as a number. -/
def ofBe (bs : List Byte) : Nat := bs.foldl (fun a b => a * 256 + b.toNat) 0

/-- `k` big-endian bytes of a number. -/
def toBe (k n : Nat) : List Byte := (toLe k n).reverse

/-- The 16 words of a block. -/
def blockWords (bs : List Byte) : List Quad := (List.range 16).map fun i => BitVec.ofNat 64 (ofBe (sliceB bs (8 * i) 8))

/-- The message schedule, newest word first: `n` words more. -/
def schedule : Nat → List Quad → List Quad
  | 0, w => w
  | n + 1, w =>
    let a := w.getD 1 0
    let b := w.getD 14 0
    let s1 := rotr a 19 ^^^ rotr a 61 ^^^ (a >>> 6)
    let s0 := rotr b 1 ^^^ rotr b 8 ^^^ (b >>> 7)
    schedule n ((s1 + w.getD 6 0 + s0 + w.getD 15 0) :: w)

/-- One round over the eight working words. -/
def shaRound (v : List Quad) (kw : Quad) : List Quad :=
  match v with
  | [a, b, c, d, e, f, g, h] =>
    let t1 := h + (rotr e 14 ^^^ rotr e 18 ^^^ rotr e 41) + ((e &&& f) ^^^ (~~~e &&& g)) + kw
    let t2 := (rotr a 28 ^^^ rotr a 34 ^^^ rotr a 39) + ((a &&& b) ^^^ (a &&& c) ^^^ (b &&& c))
    [t1 + t2, a, b, c, d + t1, e, f, g]
  | _ => v

/-- One block of 128 bytes. -/
def shaBlock (h : List Quad) (bs : List Byte) : List Quad :=
  let w := (schedule 64 (blockWords bs).reverse).reverse
  let v := (w.zip shaK).foldl (fun v p => shaRound v (p.1 + p.2)) h
  h.zipWith (· + ·) v

/-- Blocks of 128 bytes, `n` of them. -/
def shaBlocks : Nat → List Quad → List Byte → List Quad
  | 0, h, _ => h
  | n + 1, h, bs => shaBlocks n (shaBlock h (bs.take 128)) (bs.drop 128)

/-- SHA-512. -/
def sha512 (m : List Byte) : List Byte :=
  let z := (128 - (m.length + 17) % 128) % 128
  let p := m ++ [0x80] ++ List.replicate z 0 ++ toBe 16 (8 * m.length)
  (shaBlocks (p.length / 128) shaInit p).flatMap fun w => toBe 8 w.toNat

/-- MGF1 with SHA-512: `k` blocks of mask. -/
def mgf1 (seed : List Byte) (k : Nat) : List Byte := (List.range k).flatMap fun i => sha512 (seed ++ toBe 4 i)

/-- Squares a number `n` times. -/
def sqTimes (md : Nat) : Nat → Nat → Nat
  | 0, a => a
  | n + 1, a => sqTimes md n (a * a % md)

/-- `a^65537` modulo a modulus. -/
def rsaPublic (md a : Nat) : Nat := if md = 0 then 0 else sqTimes md 16 a * a % md

/-- Bytes combined by XOR. -/
def xorBytes (a b : List Byte) : List Byte := a.zipWith (fun x y => x ^^^ y) b

/-- The first byte without its top bit. -/
def clearTop : List Byte → List Byte
  | [] => []
  | b :: bs => (b &&& 0x7F) :: bs

/-- RSASSA-PSS verification (R408): a modulus of 4,096 bits, message, signature in big-endian bytes. -/
def pssVerify (md : Nat) (msg sig : List Byte) : Bool :=
  let sg := ofBe sig
  if md / 2 ^ 4095 != 1 || sig.length != 512 || decide (sg ≥ md) then false
  else
    let em := toBe 512 (rsaPublic md sg)
    let h := (em.drop 447).take 64
    let db := clearTop (xorBytes (em.take 447) ((mgf1 h 7).take 447))
    let salt := db.drop 383
    em.getLast? == some 0xBC && decide ((em.headD 0).toNat < 128)
      && (db.take 382).all (· == 0) && db.getD 382 0 == 1
      && sha512 (List.replicate 8 0 ++ sha512 msg ++ salt) == h

/-- `b^e` modulo a modulus, over `n` bits of the exponent from the lowest. -/
def powMod (md : Nat) : Nat → Nat → Nat → Nat → Nat
  | 0, _, _, acc => acc
  | n + 1, b, e, acc => powMod md n (b * b % md) (e / 2) (if e % 2 = 1 then acc * b % md else acc)

/-- RSASSA-PSS signature with a salt of 64 bytes (R408). -/
def pssSign (k : KeyPair) (msg salt : List Byte) : List Byte :=
  let h := sha512 (List.replicate 8 0 ++ sha512 msg ++ salt)
  let db := List.replicate 382 0 ++ [1] ++ salt
  let em := clearTop (xorBytes db ((mgf1 h 7).take 447)) ++ h ++ [0xBC]
  toBe 512 (powMod k.modulus 4096 (ofBe em) k.secret 1)

/-! ### The identity key (R409) -/

/-- HMAC with SHA-512; keys of at most one block. -/
def hmac (key msg : List Byte) : List Byte :=
  let k := sliceB key 0 128
  sha512 (k.map (fun b => b ^^^ 0x5C) ++ sha512 (k.map (fun b => b ^^^ 0x36) ++ msg))

/-- HKDF with SHA-512, 64 bytes of output. -/
def hkdf (salt secret info : List Byte) : List Byte := hmac (hmac salt secret) (info ++ [1])

/-- The working state of HMAC_DRBG. -/
structure Drbg where
  key : List Byte
  val : List Byte

/-- HMAC_DRBG_Update. -/
def Drbg.update (d : Drbg) (data : List Byte) : Drbg :=
  let k1 := hmac d.key (d.val ++ [0] ++ data)
  let v1 := hmac k1 d.val
  if data.isEmpty then ⟨k1, v1⟩
  else
    let k2 := hmac k1 (v1 ++ [1] ++ data)
    ⟨k2, hmac k2 v1⟩

/-- HMAC_DRBG_Instantiate. -/
def Drbg.of (seed : List Byte) : Drbg := (Drbg.mk (List.replicate 64 0) (List.replicate 64 1)).update seed

/-- Blocks of 64 bytes of output. -/
def Drbg.blocks : Nat → Drbg → List Byte → List Byte × Drbg
  | 0, d, acc => (acc, d)
  | n + 1, d, acc => let v := hmac d.key d.val; Drbg.blocks n ⟨d.key, v⟩ (acc ++ v)

/-- HMAC_DRBG_Generate of 256 bytes, as a number. -/
def Drbg.draw (d : Drbg) : Nat × Drbg :=
  let r := Drbg.blocks 4 d []
  (ofBe r.1, r.2.update [])

/-- Is a base no witness against an odd number w with w - 1 = 2^a * m (Miller-Rabin)? -/
def mrPass (w a m b : Nat) : Bool :=
  let z := powMod w 2048 b m 1
  z == 1 || (List.range a).any fun i => sqTimes w i z == w - 1

/-- The number of times that two divides a number, at most `n`. -/
def twos : Nat → Nat → Nat
  | 0, _ => 0
  | n + 1, x => if x % 2 = 0 then 1 + twos n (x / 2) else 0

/-- The probable-prime test: 4 rounds of Miller-Rabin for 2,048 bits (log 84). -/
def probablePrime (w : Nat) : Bool :=
  let a := twos 2048 (w - 1)
  (List.range 4).all fun i => mrPass w a ((w - 1) / 2 ^ a) (2 + Config.primeBase i % (w - 3))

/-- A prime factor as FIPS 186-5 draws it: 2,048 bits, odd, at least 2^2047.5, w - 1 prime to the exponent, farther than 2^1948 from
`other`; `n` bounds the tries. -/
def drawPrime (other : Nat) : Nat → Drbg → Nat × Drbg
  | 0, d => (0, d)
  | n + 1, d =>
    let r := d.draw
    let w := r.1 / 2 * 2 + 1
    let far := other + 2 ^ 1948 < w || w + 2 ^ 1948 < other
    if decide (w * w ≥ 2 ^ 4095) && far && Nat.gcd (w - 1) 65537 == 1 && probablePrime w then (w, r.2)
    else drawPrime other n r.2

/-- The key pair of a fuse secret (R409). -/
def identityKey (secret : List Byte) : KeyPair :=
  let info : List Byte := "WY-SW40-L identity".toList.map fun c => BitVec.ofNat 8 c.toNat
  let d := Drbg.of (hkdf (toLe 8 Config.serial.toNat) secret info)
  let p := drawPrime 0 20480 d
  let q := drawPrime p.1 40960 p.2
  let l := Nat.lcm (p.1 - 1) (q.1 - 1)
  ⟨p.1 * q.1, (Nat.gcdA 65537 l % (l : Int)).toNat⟩

end Sys2Proof.Machine
end

