-- ==== Sys2Proof/Machine/Security.lean ====
section
/-!
DEFINITION. Life cycle, fuse ledger, authorisations, attestation, extensions (R378 to R385, R399 to R411), tamper inputs
(R396, R411), SPDM and IDE (R412, R413), CDAT (R341).
-/
namespace Sys2Proof.Machine

open Sys2Proof

/-! ### The ledger -/

/-- FUSE_LEDGER completion (Table 14.16). -/
def Fuses.bytes (f : Fuses) : List Byte :=
  let ts := f.retiredTowers
  toLe 1 f.life.length ++ toLe 1 8 ++ toLe 1 f.ceil.length ++ toLe 1 8 ++ toLe 1 f.tower.length ++ toLe 1 16
    ++ toLe 1 f.ident.length ++ toLe 1 2 ++ toLe 2 f.ceiling ++ toLe 1 f.interrupted ++ List.replicate 5 0
    ++ (List.range 16).flatMap fun k => toLe 2 (ts.getD k 0xFFFF)

/-- The owner key hash of the identity in force. -/
def Fuses.ownerHash (f : Fuses) : List Byte :=
  match f.identity with
  | some i => ((f.ident[i]?).map FuseSlot.hash).getD []
  | none => []

/-- The permitted transitions (Table 16.2), with who may sign: 0 Wydric, 1 owner. -/
def transitionSigners (old new : Nat) : List Nat :=
  match old, new with
  | 0, 1 => [0]
  | 1, 2 => [1]
  | 2, 3 => [1]
  | 3, 1 => [0]
  | o, 4 => if o = 4 then [] else [0, 1]
  | _, _ => []

/-- Who may sign a fuse write in a state (Table 16.3): action 1 LOWER_CEILING, 2 RETIRE_TOWER. -/
def actionSigners (state action : Nat) : List Nat :=
  match action, state with
  | 1, 0 => [0]
  | 1, 1 => [1]
  | 1, 2 => [1]
  | 2, 0 => [0]
  | 2, 1 => [1]
  | 2, 2 => [1]
  | 2, 3 => [0]
  | _, _ => []

/-- What an authorisation must say. -/
structure Want where
  kind : Nat
  arg : Nat
  used : Nat
  signers : List Nat
  deriving DecidableEq, Repr

/-- The checks of R404 in order: the number of the first that fails. -/
def authCheck (f : Fuses) (w : Want) (im : List Byte) : Option Nat :=
  let signer := fieldLe im 3 1
  let modulus := sliceB im 0x60 512
  let keyOk := if signer = 0 then ofBe modulus == Config.wydricModulus else sha512 modulus == f.ownerHash
  if ¬ (fieldLe im 2 1 = w.kind ∧ fieldLe im 4 2 = w.arg) then some 0
  else if fieldLe im 8 8 ≠ Config.serial.toNat then some 1
  else if fieldLe im 6 1 ≠ w.used then some 2
  else if ¬ w.signers.contains signer then some 3
  else if !keyOk then some 4
  else if !pssVerify (ofBe modulus) (im.take 0x260) (sliceB im 0x260 512) then some 5
  else none

/-- The form of an authorisation image (Table 16.4): version, reserved bytes, and OWNER_HASH zero but in an image for PROVISIONED. -/
def authForm (im : List Byte) : Bool :=
  fieldLe im 0 2 == 0x0100 && zeroAt im 7 1 && zeroAt im 0x10 16
    && (decide (fieldLe im 2 1 = 1 ∧ fieldLe im 4 2 = 1) || zeroAt im 0x20 64)

/-- An authorisation read and judged: its image, or the status with which the command ends (R403, R404, R414). -/
def State.authorise (s : State) (x : Cmd) (opcode addr : Nat) (w : Want) : (List Byte ⊕ Nat) × State :=
  match s.imgRead x.env addr 0 1120 with
  | (.ok im, s1) =>
    if !authForm im then (.inr stBAD_PARAM, s1)
    else match authCheck s1.fuses w im with
      | none => (.inl im, s1)
      | some k => (.inr stAUTH_FAIL, s1.securityEvent 0x0706 [(2, opcode), (1, fieldLe im 3 1), (1, k)])
  | (r, s1) => (.inr r.status, s1)

/-- May a fuse write begin (R407)? -/
def State.supplyOk (s : State) : Bool :=
  decide (s.measure.vin > 50000) && !s.belfry.supplyFloor && !s.belfry.thermalFloor

/-- The state after a loss of power with the ledger as it stands (R406, R421). -/
def State.lostPower (s : State) : State :=
  let z := State.powerUp s.pending s.fuses
  { z with
    power := { z.power with powered := false, tripped := s.power.tripped, perstLow := s.power.perstLow }
    keep := { z.keep with live := s.keep.live }
    freeCtr := s.freeCtr }

/-- Phase 1 begins with the rails in regulation: everything but the fuses is at its power-up value (R416, R6). -/
def State.restart (s : State) (perstLow : Bool) : State :=
  let z := State.powerUp s.pending s.fuses
  { z with
    power := { z.power with perstLow := perstLow }
    keep := { z.keep with live := s.keep.live }
    freeCtr := s.freeCtr }

/-- The supply goes, or a reset that acts as its loss arrives (R407): a loss clears a thermal trip, a trip sets it, a reset starts
phase 1 again. -/
def State.lostBy (s : State) (c : LossBy) : State :=
  let z := s.lostPower
  match c with
  | .supply => { z with power := { z.power with tripped := false } }
  | .overVoltage => z
  | .trip => { z with power := { z.power with tripped := true } }
  | .reset perst => s.restart (s.power.perstLow || perst)

/-- A fuse slot with its content programmed. -/
def slotOf (arg : Nat) (pair : Option Nat) (secret hash : List Byte) (ok : Bool) : FuseSlot := ⟨arg, pair, secret, hash, ok⟩

/-- FUSE_WRITE (Table 16.9): kind as listed in Table 16.5, slot, ARG, status. -/
def State.fuseEvent (s : State) (kind slot arg status : Nat) : State :=
  s.securityEvent 0x0704 [(1, kind), (1, slot), (2, arg), (2, status)]

/-! ### Tamper and the wipe -/

/-- A security command that has not begun a fuse write (R410): ATTEST, LIFECYCLE_ADVANCE, LOAD_EXTENSION, a write of FUSE_LEDGER. -/
def lockable (j : Ask × Bool) : Bool :=
  !j.2 && ([0x0501, 0x0502, 0x0504].contains j.1.opcode || (j.1.opcode == 0x0503 && fieldLe j.1.payload 0 1 != 0))

/-- The completion data of a security command that ends LOCKED (R362, R380). -/
def State.lockedData (s : State) (op : Nat) : List Byte :=
  match op with
  | 0x0501 => List.replicate 768 0
  | 0x0503 => s.fuses.bytes
  | 0x0504 => List.replicate 16 0
  | _ => []

/-- Security commands in flight end LOCKED at a wipe (R410). -/
def State.lockJobs (s : State) : State :=
  (s.jobs.filter lockable).foldl (fun s j => s.complete j.1.mbx stLOCKED (s.lockedData j.1.opcode))
    { s with jobs := s.jobs.filter fun j => !lockable j }

/-- A wipe (R410, R396): the Keep is all zeros, sessions end, streams become Insecure, STATE 2, KEEP_WIPES up; security commands end
LOCKED. -/
def State.wipeKeep (s : State) (cause : Nat) : State :=
  let k := s.keep
  let s' := { s with keep := { k with
    state := 2
    wipes := k.wipes + 1
    identity := none
    sessions := []
    ideKeys := List.replicate 4 []
    ide := k.ide.map fun x => if x = IdeState.off then IdeState.off else IdeState.insecure } }
  (s'.securityEvent 0x0702 [(1, cause)]).lockJobs

/-- The bit of a tamper input. -/
def tamperBit (i : Nat) : BitVec 3 := 1#3 <<< i

/-- The inputs of a list that fire now: armed ones that have not fired and stayed active (R396, R411). -/
def State.tamperNew (s : State) (l : List Nat) : List Nat :=
  l.dedup.filter fun i => decide (i ≤ 2) && s.keep.armed && !s.keep.fired.getLsbD i

/-- Inputs become active: their live bits, and of those that fire the KEEP_TAMPER bit and the event (R396, R414). -/
def State.tamperMark (s : State) (l : List Nat) : State :=
  let fresh := s.tamperNew l
  let bits (l : List Nat) : BitVec 3 := (l.filter fun i => decide (i ≤ 2)).foldl (fun b i => b ||| tamperBit i) 0
  let k := s.keep
  fresh.foldl (fun s i => s.securityEvent 0x0701 [(1, i)])
    { s with keep := { k with live := k.live ||| bits l, tamper := k.tamper ||| bits fresh, fired := k.fired ||| bits fresh } }

/-- Inputs become active together: one wipe for all that fire (R415). -/
def State.fireTampers (s : State) (l : List Nat) : State :=
  let s1 := s.tamperMark l
  if (s.tamperNew l).isEmpty then s1 else s1.wipeKeep 0

/-! ### LIFECYCLE_ADVANCE -/

/-- The ledger after a transition's write ends in a given way (R405, R406): identity slot first, then the life-cycle slot,
whose commit is the commit of both. -/
def Fuses.advance (f : Fuses) (target : Nat) (secret hash : List Byte) (e : FuseEnd) : Fuses :=
  let paired := target == 1
  let begun : Nat := match e with
    | .committed => 2
    | .commitFailed => 2
    | .intentFailed => 1
    | .lost n _ => n
  let ok := e == .committed
  let idSlot := f.ident.length
  let f1 := if paired && decide (begun ≥ 1) then { f with ident := f.ident ++ [slotOf 0 none (sliceB secret 0 32) hash ok] } else f
  let lifeBegun := if paired then decide (begun ≥ 2) else decide (begun ≥ 1)
  if lifeBegun then
    { f1 with life := f1.life ++ [slotOf target (if paired then some idSlot else none) [] [] ok] }
  else f1

/-- An extension is unloaded; a command of it in flight is stopped (R384, R385). -/
def State.unloadExtension (s : State) : State :=
  let s1 := match s.ext.inFlight with
    | some n => s.complete n stABORTED []
    | none => s
  { s1 with ext := Extension.reset }

/-- What a committed transition does (R379, R384, R410). -/
def State.lifecycleEffect (s : State) (old new : Nat) : State :=
  let s1 := s.securityEvent 0x0703 [(1, old), (1, new)]
  let s2 := { s1 with keep := { s1.keep with advanced := true } }
  (s2.wipeKeep 1).unloadExtension

/-- LIFECYCLE_ADVANCE up to its write (R379, R400): the authorisation, or the status with which the command ends. -/
def lifeJudge (x : Cmd) (s : State) : (List Byte ⊕ Nat) × State :=
  let target := fieldLe x.payload 0 1
  let signers := transitionSigners s.fuses.state target
  if !s.supplyOk then (.inr stBUSY, s)
  else if ¬ zeroAt x.payload 1 7 ∨ signers.isEmpty then (.inr stBAD_PARAM, s)
  else
    match s.authorise x 0x0502 (fieldLe x.payload 8 8) ⟨1, target, s.fuses.life.length, signers⟩ with
    | (.inr st, s1) => (.inr st, s1)
    | (.inl im, s1) =>
      if s1.fuses.life.length ≥ 8 ∨ (target = 1 ∧ s1.fuses.ident.length ≥ 2) then (.inr stLEDGER_FULL, s1) else (.inl im, s1)

/-- The write of a transition and its end (R405 to R407, R415): the secret of a new identity is drawn, the transition acts, the command
completes with the write's status, and inputs that fired meanwhile wipe the Keep. -/
def lifeWrite (x : Cmd) (im : List Byte) (s : State) : State :=
  let target := fieldLe x.payload 0 1
  let old := s.fuses.state
  let slot := s.fuses.life.length
  let s2 := { s with
    fuses := s.fuses.advance target (Config.fuseSecret s.freeCtr) (sliceB im 0x20 64) x.env.fuse
    freeCtr := s.freeCtr + 1 }
  match x.env.fuse with
  | .committed => (((s2.fuseEvent 0 slot target stOK).lifecycleEffect old target).done x []).fireTampers x.env.tamper
  | .lost _ c => s2.lostBy c
  | _ => ((s2.fuseEvent 0 slot target stBUS_ERROR).refuse x stBUS_ERROR 0).fireTampers x.env.tamper

/-- LIFECYCLE_ADVANCE. -/
def cmdLifecycleAdvance (x : Cmd) (s : State) : State :=
  match lifeJudge x s with
  | (.inl im, s1) => lifeWrite x im s1
  | (.inr st, s1) => s1.refuse x st 0

/-! ### FUSE_LEDGER -/

/-- FUSE_LEDGER completes with the ledger, also on failure (R380). -/
def State.ledgerEnd (s : State) (x : Cmd) (status : Nat) : State := s.complete x.mbx status s.fuses.bytes

/-- The ledger after a write of one slot ends in a given way. -/
def Fuses.write (f : Fuses) (action arg : Nat) (e : FuseEnd) : Fuses :=
  let sl := slotOf arg none [] [] (e == .committed)
  let begun := match e with | .lost n _ => decide (n ≥ 1) | _ => true
  if !begun then f
  else if action = 1 then { f with ceil := f.ceil ++ [sl] } else { f with tower := f.tower ++ [sl] }

/-- Used slots of the kind that an action writes. -/
def Fuses.usedBy (f : Fuses) (action : Nat) : Nat := if action = 1 then f.ceil.length else f.tower.length

/-- FUSE_LEDGER up to its write (R380): that the write begins, or the status with which the command ends. -/
def ledgerJudge (x : Cmd) (s : State) : (List Byte ⊕ Nat) × State :=
  let action := fieldLe x.payload 0 1
  let arg := fieldLe x.payload 2 2
  let bad := ¬ zeroAt x.payload 1 1 ∨ ¬ zeroAt x.payload 4 4 ∨ action > 2
  if bad then (.inr stBAD_PARAM, s)
  else if action = 0 then (.inr (if arg ≠ 0 then stBAD_PARAM else stOK), s)
  else if !s.supplyOk then (.inr stBUSY, s)
  else if action = 1 ∧ (arg < 80 ∨ arg ≥ s.fuses.ceiling) then (.inr stBAD_PARAM, s)
  else if action = 2 ∧ arg ≥ 324 then (.inr stBAD_PARAM, s)
  else if action = 2 ∧ s.fuses.retiredTowers.contains arg then (.inr stOK, s)
  else
    let used := s.fuses.usedBy action
    match s.authorise x 0x0503 (fieldLe x.payload 8 8) ⟨action + 1, arg, used, actionSigners s.fuses.state action⟩ with
    | (.inr st, s1) => (.inr st, s1)
    | (.inl im, s1) =>
      if action = 2 ∧ (s1.moveEntries arg).isNone then (.inr stNO_RESOURCE, s1)
      else if used ≥ (if action = 1 then 8 else 16) then (.inr stLEDGER_FULL, s1)
      else (.inl im, s1)

/-- A tower is fused-retired (R28, R160, R380). -/
def State.fuseRetire (s : State) (t : Nat) : State :=
  (((s.moveEntries t).getD (s.coldEntries t)).collectDroop t).modTower t fun x => { x with state := 3 }

/-- The write of a slot and its end (R380, R406, R415): its effect, with the placement change of a retired tower, comes on OK. -/
def ledgerWrite (x : Cmd) (s : State) : State :=
  let action := fieldLe x.payload 0 1
  let arg := fieldLe x.payload 2 2
  let used := s.fuses.usedBy action
  let s3 := { s with fuses := s.fuses.write action arg x.env.fuse }
  match x.env.fuse with
  | .committed =>
    let s4 := if action = 2 then s3.fuseRetire arg else s3
    ((s4.fuseEvent (action + 1) used arg stOK).ledgerEnd x stOK).fireTampers x.env.tamper
  | .lost _ c => s3.lostBy c
  | _ => ((s3.fuseEvent (action + 1) used arg stBUS_ERROR).ledgerEnd x stBUS_ERROR).fireTampers x.env.tamper

/-- FUSE_LEDGER. -/
def cmdFuseLedger (x : Cmd) (s : State) : State :=
  match ledgerJudge x s with
  | (.inl _, s1) => ledgerWrite x s1
  | (.inr st, s1) => s1.ledgerEnd x st

/-! ### A fuse write in flight -/

/-- The judgement of a command that writes fuses. -/
def fuseJudge (op : Nat) (x : Cmd) (s : State) : (List Byte ⊕ Nat) × State :=
  if op = 0x0502 then lifeJudge x s else ledgerJudge x s

/-- A fuse write that has begun runs to its end (R407, R415); its command holds the authorisation read. -/
def State.endWrite (s : State) (q : Ask) : State :=
  let x : Cmd := ⟨q.mbx, q.payload, q.env⟩
  if q.opcode = 0x0502 then lifeWrite x (q.env.cache.getD []) s else ledgerWrite x s

/-- Every fuse write that has begun runs to its end. -/
def State.endBegun (s : State) : State :=
  (s.jobs.filter (·.2)).foldl (fun s j => s.endWrite j.1) { s with jobs := s.jobs.filter fun j => !j.2 }

/-- How far a loss of power finds a fuse write: one slot begun, every slot begun, or committed; a free value (R406). -/
def cutEnd (n : Nat) : FuseEnd := match n % 3 with | 0 => .lost 1 .supply | 1 => .lost 2 .supply | _ => .committed

/-- The ledger as a loss of power leaves it: a write that has begun is cut (R406, R407). -/
def State.cutWrites (s : State) : State :=
  (s.jobs.filter (·.2)).foldl (fun s j =>
    let e := cutEnd (Config.freeNat s.freeCtr)
    let p := j.1.payload
    let f := s.fuses
    { s with
      freeCtr := s.freeCtr + 1
      fuses := if j.1.opcode = 0x0502 then
          f.advance (fieldLe p 0 1) (Config.fuseSecret s.freeCtr) (sliceB (j.1.env.cache.getD []) 0x20 64) e
        else f.write (fieldLe p 0 1) (fieldLe p 2 2) e }) s

/-! ### ATTEST -/

/-- Bytes 0x000 to 0x0FF of the report (Table 14.15). -/
def State.attestBody (s : State) (nonce : List Byte) : List Byte :=
  sliceB nonce 0 32 ++ toLe 8 Config.serial.toNat ++ toLe 1 s.fuses.state ++ toLe 1 (if s.ext.loaded then 1 else 0)
    ++ toLe 2 0x0100 ++ toLe 4 0 ++ sliceB Config.romDigest 0 64 ++ sliceB s.ext.digest 0 64
    ++ sha512 (s.fuses.bytes ++ sliceB s.fuses.ownerHash 0 64) ++ List.replicate 16 0

/-- ATTEST (R378, R408): signed with the identity key of the Keep. -/
def cmdAttest (x : Cmd) (s : State) : State :=
  match s.keep.identity with
  | none => s.refuse x stLOCKED 768
  | some k =>
    let body := s.attestBody x.payload
    ({ s with freeCtr := s.freeCtr + 1 }).done x (body ++ pssSign k body (sliceB (Config.pssSalt s.freeCtr) 0 64))

/-! ### LOAD_EXTENSION -/

/-- The commands an extension image declares: opcode and flags (Table 14.17). -/
def extCmds (im : List Byte) : List (Nat × Nat) :=
  (List.range (fieldLe im 2 2)).map fun k => (fieldLe im (0x10 + 4 * k) 2, fieldLe im (0x12 + 4 * k) 2)

/-- Layout, length and opcodes (R381, R382). -/
def extForm (im : List Byte) : Bool :=
  let n := fieldLe im 2 2
  let cs := extCmds im
  fieldLe im 0 2 == 0x0100 && decide (1 ≤ n) && decide (n ≤ 32)
    && im.length == 0x10 + 4 * n + fieldLe im 4 4 + 512
    && cs.all (fun c => decide (0x0F00 ≤ c.1) && decide (c.1 ≤ 0x0FFF) && decide (c.2 ≤ 1))
    && decide ((cs.map Prod.fst).Nodup)

/-- LOAD_EXTENSION (R381). -/
def cmdLoadExtension (x : Cmd) (s : State) : State :=
  let addr := fieldLe x.payload 0 8
  let len := fieldLe x.payload 8 4
  if s.ext.inFlight.isSome then s.refuse x stBUSY 16
  else if len > 1048576 ∨ len < 0x10 + 512 ∨ ¬ zeroAt x.payload 12 4 then s.refuse x stBAD_PARAM 16
  else
    match s.imgRead x.env addr 0 len with
    | (.ok im, s1) =>
      if !extForm im then s1.refuse x stBAD_PARAM 16
      else if !pssVerify Config.extensionModulus (im.take (len - 512)) (im.drop (len - 512)) then
        (s1.securityEvent 0x0706 [(2, 0x0504), (1, 0), (1, 5)]).refuse x stAUTH_FAIL 16
      else
        let v := fieldLe im 8 8
        let s2 := { s1 with ext := ⟨BitVec.ofNat 64 v, extCmds im, sha512 im, none, true⟩ }
        (s2.securityEvent 0x0707 [(8, v)]).done x (toLe 8 v ++ toLe 2 (fieldLe im 2 2) ++ List.replicate 6 0)
    | (r, s1) => s1.refuse x r.status 16

/-! ### Tamper inputs -/

/-- TAMPER: inputs become active together; those that fire wipe the Keep, after a fuse write that has begun (R411, R415). An input is
sensed without power too, as phase 2 then finds it (R411). -/
def execTamper (inputs : List Nat) (s : State) : Out' :=
  let s1 := s.tamperMark inputs
  .next (if (s.tamperNew inputs).isEmpty then s1
    else let s2 := s1.endBegun; if s2.keep.armed then s2.wipeKeep 0 else s2)

/-- A fired input goes inactive and is re-armed (R396). -/
def execTamperInputInactive (i : Nat) (s : State) : Out' :=
  .next (if i > 2 then s
    else { s with keep := { s.keep with
      live := s.keep.live &&& ~~~tamperBit i, fired := s.keep.fired &&& ~~~tamperBit i } })

/-! ### SPDM, IDE, CDAT -/

/-- An SPDM ERROR response (log 19). -/
def spdmError : List Byte := [0x12, 0x7F]

/-- The next free value as the answer that outside standards fix (log 19). -/
def State.doe (s : State) (req : List Byte) : State :=
  ({ s with freeCtr := s.freeCtr + 1 }).answer (.data (Config.doeAnswer req s.freeCtr))

/-- The capabilities advertised (R412). -/
def spdmCaps : List String :=
  ["CHAL_CAP", "MEAS_CAP", "MEAS_FRESH_CAP", "KEY_EX_CAP", "ENCRYPT_CAP", "MAC_CAP", "HBEAT_CAP", "PUB_KEY_ID_CAP"]

/-- The algorithms (R412). -/
def spdmAlgs : List String := ["RSAPSS_4096", "SHA-512", "secp384r1", "AES-256-GCM"]

/-- The measurement blocks of Table 16.8. -/
def State.spdmBlocks (s : State) : List (Nat × List Byte) :=
  [(1, sliceB Config.romDigest 0 64), (2, sliceB s.ext.digest 0 64),
   (3, sha512 (s.fuses.bytes ++ sliceB s.fuses.ownerHash 0 64)),
   (4, toLe 1 s.fuses.state ++ toLe 1 (if s.keep.advanced then 1 else 0))]

/-- What the response to a request says (R412), by the codes of SPDM 1.2: GET_CAPABILITIES, NEGOTIATE_ALGORITHMS, GET_MEASUREMENTS; none
where the capability is not advertised (digests, certificates, pre-shared keys) or no block has the index (log 19). -/
def State.spdmSays (s : State) (m : List Byte) : Option SpdmSays :=
  match fieldLe m 1 1 with
  | 0xE1 => some (.caps spdmCaps)
  | 0xE3 => some (.algs spdmAlgs)
  | 0xE0 =>
    let k := fieldLe m 3 1
    if k = 0 then some (.count 4)
    else
      let l := s.spdmBlocks.filter fun b => k == 0xFF || b.1 == k
      if l.isEmpty then none else some (.blocks l)
  | c => if [0x81, 0x82, 0xE6, 0xE7].contains c then none else some .other

/-- Is the response to a request signed: CHALLENGE, and GET_MEASUREMENTS that asks for it? -/
def spdmSigned (m : List Byte) : Bool :=
  let c := fieldLe m 1 1
  c == 0x83 || (c == 0xE0 && bitOf (fieldLe m 2 1) 0)

/-- A response: what it says, its bytes as SPDM 1.2 frames them, and the signature of the identity key over the transcript (R408). -/
def State.spdmAnswer (s : State) (m : List Byte) (r : SpdmSays) (signed : Bool) : State :=
  let c := s.freeCtr
  let sig := match s.keep.identity with
    | some k => if signed then pssSign k (Config.spdmTranscript m c) (sliceB (Config.pssSalt c) 0 64) else []
    | none => []
  ({ s with freeCtr := c + 1 }).answer (.spdm r (Config.doeAnswer m c ++ sig))

/-- The session that a request comes in: a secured message begins with the session's number, a plain one with the version 0x12. -/
def State.sessionOf (s : State) (req : List Byte) : Option Nat :=
  let id := fieldLe req 0 4
  if s.keep.sessions.any fun p => p.1 == id then some id else none

/-- SPDM_REQUEST (R412): an error response unless the Keep is ready; END_SESSION inside a session ends it (log 19). -/
def State.spdm (s : State) (req : List Byte) : State :=
  let ses := s.sessionOf req
  let m := if ses.isSome then req.drop 4 else req
  match s.keepUsable, s.spdmSays m with
  | true, some r =>
    let ends := fieldLe m 1 1 == 0xEC
    let s1 := if ends then { s with keep := { s.keep with sessions := s.keep.sessions.filter fun p => some p.1 != ses } } else s
    s1.spdmAnswer m r (spdmSigned m)
  | _, _ => s.answer (.data spdmError)

def execSpdmRequest (req : List Byte) (s : State) : Out' :=
  .next (s.whenOn fun s => if s.power.linkUp then s.spdm req else s)

/-- KEY_EXCHANGE (R412): a fifth session, or one while the Keep is not ready, gets an error response. -/
def State.keyExchange (s : State) (req : List Byte) : State :=
  if !s.keepUsable || decide (s.keep.sessions.length ≥ 4) then s.answer (.data spdmError)
  else
    let id := ((List.range 5).find? fun k => !s.keep.sessions.any fun p => p.1 == k).getD 0
    ({ s with keep := { s.keep with sessions := s.keep.sessions ++ [(id, Config.sessionSecret req s.freeCtr)] } }).spdmAnswer req .other true

def execKeyExchange (req : List Byte) (s : State) : Out' :=
  .next (s.whenOn fun s => if s.power.linkUp then s.keyExchange req else s)

/-- The number of an IDE stream: CXL.io then CXL.cachemem, toward the module then toward the host. -/
def ideIndex (cachemem toHost : Bool) : Nat := (if cachemem then 2 else 0) + (if toHost then 1 else 0)

/-- IDE_KM inside a session programs or refreshes keys; an Insecure stream stays so (R413). -/
def State.ideKm (s : State) (session i : Nat) (req : List Byte) : State :=
  if s.keepUsable && s.keep.sessions.any fun p => p.1 == session then
    ({ s with keep := { s.keep with
      ideKeys := updAt s.keep.ideKeys i fun _ => Config.sessionSecret req s.freeCtr
      ide := updAt s.keep.ide i fun x => if x = IdeState.insecure then x else IdeState.secure } }).doe req
  else s.answer (.data spdmError)

def execIdeKm (session : Nat) (cachemem toHost : Bool) (req : List Byte) (s : State) : Out' :=
  .next (s.whenOn fun s => if s.power.linkUp then s.ideKm session (ideIndex cachemem toHost) req else s)

/-- The host disables IDE on the link: a stream left Insecure resumes in the clear, and what waited leaves (R413). -/
def execIdeDisable (s : State) : Out' :=
  .next (s.whenOn fun s => { s with
    keep := { s.keep with ide := s.keep.ide.map fun _ => IdeState.off, ideKeys := List.replicate 4 [] }
    out := s.out.stalled.foldl Out.sendOne { s.out with stalled := [] } })

/-- One DSLBIS entry: data type, base unit, entry (log 19). -/
def dslbis (ty unit val : Nat) : List Byte :=
  toLe 1 1 ++ toLe 1 0 ++ toLe 2 24 ++ toLe 1 0 ++ toLe 1 0 ++ toLe 1 ty ++ toLe 1 0 ++ toLe 8 unit ++ toLe 2 val
    ++ List.replicate 6 0

/-- CDAT (R341): the DSMAS of 768 GiB, read latency 600 ns, write latency 400 ns, 121 GB/s each way. -/
def cdatBytes : List Byte :=
  toLe 1 0 ++ toLe 1 0 ++ toLe 2 24 ++ toLe 4 0 ++ toLe 8 0 ++ toLe 8 devEnd
    ++ dslbis 1 1000 600 ++ dslbis 2 1000 400 ++ dslbis 4 1000 121 ++ dslbis 5 1000 121

def execCdatRead (_req : List Byte) (s : State) : Out' :=
  .next (s.whenOn fun s => if s.power.linkUp then s.answer (.data cdatBytes) else s)

end Sys2Proof.Machine
end

