-- ==== Sys2Proof/Machine/Startup.lean ====
section
/-!
DEFINITION. Power, resets and start-up (R323, R416 to R421, R437, R444, Tables 17.1 to 17.3, 18.2), towers that fail (R425,
R426), router faults (R26), the port's link and its HDM decoder (R337, R416).
-/
namespace Sys2Proof.Machine

open Sys2Proof

/-- Does the port carry BAR0 accesses: the link is up, and its CXL.io stream toward the module runs (R413, R416)? -/
def State.ioUp (s : State) : Bool := s.power.powered && s.power.linkUp && s.ideUp 0

/-- Does the port carry CXL.mem accesses: the decoder covers the whole region, and the CXL.cachemem stream toward the module runs
(R337, R413)? -/
def State.memUp (s : State) : Bool :=
  s.power.powered && s.power.linkUp && (match s.power.hdm with | some (_, n) => n == devEnd | none => false) && s.ideUp 2

/-- POWER_GOOD (R416); while THERM_TRIP# is low the module does not start (Table 18.6). -/
def execPowerGood (s : State) : Out' :=
  .next (if !s.power.powered && !s.power.tripped then s.restart s.power.perstLow else s)

/-- POWER_LOSS (R421): a fuse write is cut, and the input has fallen, which clears a thermal trip (Table 17.3). -/
def execPowerLoss (s : State) : Out' := .next (s.cutWrites.lostBy .supply)

/-- OVER_VOLTAGE (Table 12.4). -/
def execOverVoltage (s : State) : Out' := .next (s.whenOn fun s => s.cutWrites.lostBy .overVoltage)

/-- THERMAL_TRIP (Table 12.3): THERM_TRIP# asserts. -/
def execThermalTrip (s : State) : Out' := .next (s.whenOn fun s => s.cutWrites.lostBy .trip)

/-- CONVENTIONAL_RESET by PERST# (held low) or by hot reset or link down (Table 17.3). -/
def execConventionalReset (perst : Bool) (s : State) : Out' :=
  .next (if s.power.powered then s.cutWrites.lostBy (.reset perst)
    else { s with power := { s.power with perstLow := s.power.perstLow || perst } })

/-- PERST_DEASSERTION: phase 1 starts with the rails kept up (R419). -/
def execPerstDeassertion (s : State) : Out' :=
  .next (if s.power.perstLow then
      (if s.power.powered then s.restart false else { s with power := { s.power with perstLow := false } })
    else s)

/-- The rates in GT/s and the widths that the link trains to (Table 13.1). -/
def linkRates : List Nat := [64, 32, 16, 8]
def linkWidths : List Nat := [16, 8, 4]

/-- CXL_LINK_UP (R416): at a rate and a width of Table 13.1, free values. -/
def State.portUp (s : State) : State :=
  let c := Config.freeNat s.freeCtr
  { s with
    power := { s.power with linkUp := true, rate := linkRates.getD (c % 4) 64, width := linkWidths.getD (c / 4 % 3) 16 }
    freeCtr := s.freeCtr + 1 }

def execCxlLinkUp (s : State) : Out' := .next (s.whenOn State.portUp)

/-- HDM_DECODER_PROGRAM: the base of the host's window and its size (R337). -/
def execHdmDecoderProgram (base size : Nat) (s : State) : Out' :=
  .next (if s.ioUp then { s with power := { s.power with hdm := some (base, size) } } else s)

/-- The device address of a host address: the window maps one to one from device address 0; none outside it (R337). -/
def State.windowAddr (s : State) (a : Nat) : Option Nat :=
  match s.power.hdm with
  | some (base, n) => if base ≤ a ∧ a < base + n then some (a - base) else none
  | none => none

/-! ### Start-up phases -/

/-- The consumed slots that hold no value in force, as (kind, slot) (R406): 0 life cycle, 1 identity, 2 ceiling, 3 tower. -/
def Fuses.interruptedSlots (f : Fuses) : List (Nat × Nat) :=
  let open' (k : Nat) (l : List FuseSlot) : List (Nat × Nat) :=
    ((l.mapIdx fun i x => (i, x)).filter fun (p : Nat × FuseSlot) => !p.2.committed).map fun p => (k, p.1)
  let paired := (f.life.filter (·.committed)).filterMap FuseSlot.pair
  open' 0 f.life ++ ((List.range f.ident.length).filter fun i => !paired.contains i).map (fun i => (1, i))
    ++ open' 2 f.ceil ++ open' 3 f.tower

/-- A halted start-up (R418). -/
def State.haltStartup (s : State) (unit attempts : Nat) : State :=
  ({ s with power := { s.power with halted := true } }).event
    (if unit < 12 then .stack unit else .module) 0x0505 [(1, s.power.phase), (2, unit), (1, attempts)]

def State.setPhase (s : State) (n : Nat) : State := { s with power := { s.power with phase := n } }

/-- The end of phase 1 (Table 17.1). -/
def State.endPhase1 (s : State) (r : PhaseReport) : State :=
  let s1 := s.fuses.interruptedSlots.foldl (fun s p => s.securityEvent 0x0705 [(1, p.1), (1, p.2)]) s
  if r.workingBad || r.overrun then s1.haltStartup 0xFFFF 1
  else
    let s2 := s1.fuses.retiredTowers.foldl (fun s t => s.modTower t fun x => { x with state := 3 }) s1
    ({ s2 with keep := { s2.keep with state := if r.keepBad then 3 else 0 } }).setPhase 2

/-- The fuse secret of the identity in force. -/
def Fuses.secret (f : Fuses) : List Byte := ((f.identity.bind fun i => f.ident[i]?).map FuseSlot.secret).getD []

/-- The end of phase 2: the identity key, then the tamper inputs are armed and those active fire together (R409, R411, R415). -/
def State.endPhase2 (s : State) (r : PhaseReport) : State :=
  let k := s.keep
  let st := if k.state = 3 then 3 else if !s.fuses.hasIdentity then 0 else if r.keepBad || r.overrun then 3 else 1
  let s1 := { s with keep := { k with
    state := st, armed := true, identity := if st = 1 then some (identityKey s.fuses.secret) else none } }
  (s1.fireTampers ((List.range 3).filter s.keep.live.getLsbD)).setPhase 3

/-- The end of phase 3: March C− and soft repair; towers without unrepaired failures are admitted with epoch 1 (R305, Table 17.1). -/
def State.endPhase3 (s : State) (r : PhaseReport) : State :=
  if r.overrun then s.haltStartup 0xFFFF 1
  else
    let sram := r.fails.filter fun (c : MarchBit) => !cellOnyx c.cell
    let rs := repairs [] (marchRun 0 (sram.map fun c => { c with cell := { c.cell with die := 0xFF } }))
    let bad (u : Nat) : Bool := rs.any fun p => p.1.unit == u && p.2 == 0
    let towers := s.towers.mapIdx fun i (x : Tower) =>
      if x.state = 3 then x
      else if bad i then { x with state := 4 }
      else { x with admitted := true, epoch := 1 }
    { s with
      towers := towers
      domeEpoch := 1
      mem := s.mem.repair rs
      power := { s.power with ioSramBad := bad 0xFFFF, phase := 4 } }

/-- The end of phase 4: the stacks are trained and hold zeros (R417). -/
def State.endPhase4 (s : State) (r : PhaseReport) : State :=
  match r.stackBad with
  | some k => s.haltStartup k 3
  | none =>
    if r.overrun then s.haltStartup 0xFFFF 1
    else ({ s with mem := { s.mem with cells := [] } }).setPhase 5

/-- A quarter's trim at start-up: the first step from 0 to 20 at which its monitors pass; none when they fail at the bound (R332).
Entry k of the readings holds the counts with the quarter at k steps. -/
def trimOf (readings : List (List (Nat × List Nat))) (q : Nat) : Option Nat :=
  (List.range 21).find? fun k => ((readings.getD k []).filter fun c => quarterOf c.1 == q).all (monitorsMeet 36)

/-- The counts of every quarter at the trim that it has reached. -/
def finalCounts (readings : List (List (Nat × List Nat))) : List (Nat × List Nat) :=
  (List.range 4).flatMap fun q =>
    (readings.getD ((trimOf readings q).getD 20) []).filter fun (c : Nat × List Nat) => quarterOf c.1 == q

/-- The end of phase 5: trims in steps of 2.5 mV until the monitors pass, up to 50 mV; a quarter at the bound with failing monitors
raises AGEING (R332). -/
def State.endPhase5 (s : State) (r : PhaseReport) : State :=
  if r.overrun then s.haltStartup 0xFFFF 1
  else
    let t1 := { s.thermal with trim := (List.range 4).map fun q => (trimOf r.readings q).getD 20 }
    let s1 := { s with thermal := { t1 with setpoint := t1.setpoints 36 } }
    let failing := (List.range 4).any fun q => (trimOf r.readings q).isNone
    (if failing then s1.raiseHold 4 (ageingMax (finalCounts r.readings)) else s1).setPhase 6

/-- Ready (Table 17.1): READY, its alert bit, and the droop thresholds. -/
def State.becomeReady (s : State) : State :=
  ({ s with power := { s.power with ready := true, smbAlert := s.power.smbAlert ||| 8 } }).calibrateDroop

/-! ### Towers and routers -/

/-- Layer and micro-batch of the item that a tower works on, where one is started. -/
def State.towerWork (s : State) (t : Nat) : List (Nat × Nat) :=
  match (s.tower t).started.head? with
  | none => []
  | some x =>
    match (s.slot x.item.slot).prog with
    | none => []
    | some p => match p.ops[x.item.record]? with
      | some o => [(2, o.layer), (1, x.item.mb)]
      | none => []

/-- A tower fault (R425, R426): TWR_STATE 4, its streams close, its entries go cold, the event; a step before its decision
fails. -/
def State.towerFault (s : State) (t cause : Nat) : State :=
  if !(s.tower t).inService then s
  else
    let s1 := (s.collectDroop t).modTower t fun x => { x.emptied with state := 4 }
    let s2 := s1.coldEntries t
    let src : EvSrc := match s.earlyIdx.bind fun i => s.steps[i]? with
      | some p => ⟨p.slot, p.number, t⟩
      | none => .tower t
    (s2.event src 0x0506 ([(2, t), (1, cause)] ++ s.towerWork t)).failEarly stBUS_ERROR

def execTowerFault (t cause : Nat) (s : State) : Out' := .next (s.whenOn fun s => s.towerFault t cause)

/-- ROUTER_FAULT (R26). -/
def execRouterFault (t : Nat) (s : State) : Out' :=
  .next (s.whenOn fun s => s.modTower t fun x => { x with routerFault := true })

end Sys2Proof.Machine
end

