-- ==== Sys2Proof/Machine/Topology.lean ====
section
/-!
DEFINITION. SET_TOPOLOGY (R258 to R260, R267, R295), beacons (R261, R275, R276) and the state of the Ovmen links (R256,
R257).
-/
namespace Sys2Proof.Machine

open Sys2Proof

/-- What follows a read of an image: the next part, or the failure so far. -/
def Img.andThen {α β : Type} (r : Img α × State) (f : α → State → Img β × State) : Img β × State :=
  match r with
  | (.ok a, s) => f a s
  | (.bad, s) => (.bad, s)
  | (.bus, s) => (.bus, s)

/-! ### The image -/

/-- The fields of a topology header (Table 10.2), none when one is out of range. -/
def topoHeader (b : List Byte) : Option (Nat × Nat × Topology) :=
  let nGroups := fieldLe b 2 2
  let nMods := fieldLe b 4 4
  let rank := fieldLe b 8 4
  let splitMin := fieldLe b 0x14 4
  let tmo := fieldLe b 0x18 4
  let cool := fieldLe b 0x1C 1
  if fieldLe b 0 2 ≠ 0x0100 ∨ nGroups > 63 ∨ nMods < 1 ∨ nMods > 1024 ∨ rank ≥ nMods ∨ cool > 3 ∨ ¬ zeroAt b 0x1D 35
      ∨ (tmo ≠ 0 ∧ (tmo < 10 ∨ tmo > 60000)) then none
  else some (nGroups, nMods, ⟨rank, fieldLe b 0xC 4, fieldLe b 0x10 2, fieldLe b 0x12 2,
    if splitMin = 0 then 268435456 else splitMin, if tmo = 0 then 2000 else tmo, cool, [], []⟩)

/-- One module entry (Table 10.3), none when a field or a reserved byte is wrong. -/
def modEntry (b : List Byte) : Option ModEnt :=
  let e : ModEnt := ⟨fieldLe b 0 2, fieldLe b 2 1, fieldLe b 4 2, fieldLe b 8 8⟩
  if e.board > 1023 ∨ e.slot > 7 ∨ e.pbr > 4095 ∨ e.fabricBase % 268435456 ≠ 0 ∨ ¬ zeroAt b 3 1 ∨ ¬ zeroAt b 6 2
      ∨ ¬ zeroAt b 0x10 16 then none
  else some e

/-- Entries of a fixed size cut from bytes, each decoded; none when one is refused. -/
def cutAll {α : Type} (size : Nat) (f : List Byte → Option α) : Nat → List Byte → Option (List α)
  | 0, _ => some []
  | n + 1, bs => do
    let a ← f (bs.take size)
    let r ← cutAll size f n (bs.drop size)
    return a :: r

/-- The group entries (Table 10.4), read one after another. -/
def State.readGroups (env : Env) (addr : Nat) : Nat → Nat → List GroupEnt → State → Img (List GroupEnt) × State
  | 0, _, acc, s => (.ok acc, s)
  | n + 1, off, acc, s =>
    Img.andThen (s.imgRead env addr off 8) fun h s =>
      let g := fieldLe h 0 2
      let c := fieldLe h 2 2
      if g < 1 ∨ g > 0xFFFE ∨ c < 1 ∨ c > 1024 ∨ ¬ zeroAt h 4 4 then (.bad, s)
      else
        let len := 4 * (c + c % 2)
        Img.andThen (s.imgRead env addr (off + 8) len) fun b s =>
          if c % 2 = 1 ∧ ¬ zeroAt b (4 * c) 4 then (.bad, s)
          else State.readGroups env addr n (off + 8 + len) (acc ++ [⟨g, (List.range c).map fun i => fieldLe b (4 * i) 4⟩]) s

/-- A topology image as read. -/
def State.readTopology (s : State) (env : Env) (addr : Nat) : Img Topology × State :=
  Img.andThen (s.imgRead env addr 0 64) fun h s =>
    match topoHeader h with
    | none => (.bad, s)
    | some (nG, nM, t) =>
      Img.andThen (s.imgRead env addr 64 (32 * nM)) fun b s =>
        match cutAll 32 modEntry nM b with
        | none => (.bad, s)
        | some ms => Img.andThen (State.readGroups env addr nG (64 + 32 * nM) [] s) fun gs s =>
            (.ok { t with modules := ms, groups := gs }, s)

/-- The ranks of a group in rank order (R259); none when it is not declared. -/
def Topology.group (t : Topology) (g : Nat) : Option (List Nat) :=
  if g = 0 then some (List.range t.modules.length) else (t.groups.find? (·.group == g)).map (·.ranks)

def Topology.boardOf (t : Topology) (r : Nat) : Nat := match t.modules[r]? with | some m => m.board | none => 0

/-- The rules of R259 over a whole image. -/
def Topology.legal (t : Topology) : Bool :=
  let p := t.modules.length
  let seats := t.modules.map fun m => (m.board, m.slot)
  let namesMe (g : Nat) : Bool := match t.group g with | some rs => rs.contains t.myRank | none => false
  seats.dedup.length == p
    && (t.modules.all fun a => t.modules.all fun b => a.board == b.board || a.pbr != b.pbr)
    && (t.groups.map (·.group)).dedup.length == t.groups.length
    && (t.groups.all fun g => g.ranks.dedup.length == g.ranks.length && g.ranks.all fun r => decide (r < p))
    && namesMe t.dataGroup
    && (t.splitGroup == 0xFFFF || (namesMe t.splitGroup && (match t.group t.splitGroup with
        | some rs => (rs.map t.boardOf).dedup.length ≤ 1
        | none => false)))

/-- The ranks of other boards, in increasing rank: the landing slots (R267). -/
def Topology.others (t : Topology) (r : Nat) : List Nat :=
  (List.range t.modules.length).filter fun q => t.boardOf q != t.boardOf r

/-- A beacon that disagrees with the declared topology on a link (R261): declared peer, and disagreement. -/
def Topology.disagrees (t : Topology) (l : Nat) (b : Beacon) : Bool × Bool :=
  match t.me with
  | none => (false, false)
  | some me =>
    let p := peerSlot me.slot l
    let known := t.modules.any fun m => m.board == me.board && m.slot == p
    (known, !known || b.jobId != t.jobId || b.board != me.board || b.slot != p)

/-- The latest beacon of a link judged under the topology in force (R261): the latch that stops a RUN_STEP, and TOPOLOGY_MISMATCH for a
disagreement that it has not named yet. -/
def State.judgeLink (t : Topology) (s : State) (i : Nat) : State :=
  let l := s.fabric.links.getD i Link.reset
  let put (s : State) (f : Link → Link) : State := { s with fabric := { s.fabric with links := updAt s.fabric.links i f } }
  match l.beacon with
  | none => put s fun k => { k with mismatch := false, named := none }
  | some b =>
    let d := t.disagrees i b
    let who := (b.jobId, b.board, b.slot)
    let s1 := if d.2 && l.named != some who then s.event .module 0x0403 [(1, i), (4, b.jobId), (2, b.board), (1, b.slot)] else s
    put s1 fun k => { k with mismatch := d.1 && d.2, named := if d.2 then some who else none }

/-- Every link judged under the topology in force. -/
def State.judgeLinks (s : State) : State :=
  match s.fabric.topo with
  | none => s
  | some t => (List.range 7).foldl (State.judgeLink t) s

/-- SET_TOPOLOGY once admitted. -/
def cmdSetTopology (x : Cmd) (s : State) : State :=
  if ¬ zeroAt x.payload 0 8 then s.refuse x stBAD_PARAM 4
  else
    match s.readTopology x.env (fieldLe x.payload 8 8) with
    | (.bad, s) => s.refuse x stBAD_PARAM 4
    | (.bus, s) => s.refuse x stBUS_ERROR 4
    | (.ok t, s) =>
      let slots := t.others t.myRank
      if !t.legal then s.refuse x stBAD_PARAM 4
      else if ((List.range t.modules.length).any fun r => decide ((t.others r).length > 384))
          || s.mem.touchesRetired landBase (0x400000 * slots.length) then s.refuse x stNO_RESOURCE 4
      else
        let same : Bool := match s.fabric.topo with
          | some o => { t with timeoutMs := o.timeoutMs, coolant := o.coolant } == o
          | none => false
        let hit := if same then [] else (List.range 4).filter fun n => (s.slot n).prog.isSome
        let s1 := if same then s else s.emptySlots (List.range 4)
        let s2 := { s1 with
          belfry := { s1.belfry with coolant := t.coolant }
          fabric := { s1.fabric with
            topo := some t
            noCredit := if same then s1.fabric.noCredit else []
            resent := if same then s1.fabric.resent else []
            writing := if same then s1.fabric.writing else []
            outbox := if same then s1.fabric.outbox else [] } }
        s2.reroute.judgeLinks.done x (toLe 1 (maskOf hit) ++ toLe 1 (if t.manyBoards then 1 else 0) ++ toLe 2 0)

/-! ### Links -/

def execBeaconSend (s : State) : Out' := .next (s.whenOn State.sendBeacon)

/-- BEACON_RECEIVE (R261, R276). -/
def State.takeBeacon (s : State) (l : Nat) (b : Beacon) : State :=
  if (s.link l).state = 0 then s
  else ((s.modLink l fun k => { k with beacon := some b, seenAt := s.power.time.v }).judgeLinks).cadenceCheck

def execBeaconReceive (l : Nat) (b : Beacon) (s : State) : Out' := .next (s.whenOn fun s => s.takeBeacon l b)

/-- LINK_DEGRADED: eight lanes (R257, R434), also of a link that has not trained before; one that is down comes back only between
steps. -/
def execLinkDegraded (l replays : Nat) (s : State) : Out' :=
  .next (s.whenOn fun s =>
    if l > 6 ∨ ((s.link l).down ∧ s.stepRunning) then s
    else
      let s1 := (s.modLink l fun k => { k with
        state := 1, lanes := 8, down := false, mates := [], replays := k.replays + BitVec.ofNat 32 replays }).reroute
      s1.event .module 0x0401 [(1, l), (1, s.peerOf l), (1, 8), (4, (s1.link l).replays.toNat)])

/-- LINK_DOWN: traffic moves to a relay (R257). A link that fails to train is down too (R434); one that is down already is not recorded
again. -/
def State.linkLost (s : State) (x : LinkLoss) : State :=
  if x.link > 6 ∨ (s.link x.link).down then s
  else
    let s1 := (s.modLink x.link fun k => { k with state := 0, lanes := 0, down := true, mates := x.mates }).reroute
    s1.event .module 0x0402 [(1, x.link), (1, s.peerOf x.link), (1, (s1.link x.link).relay.getD 0xFF)]

/-- LINK_RETRAIN: full service, only between steps (R257). -/
def execLinkRetrain (l : Nat) (s : State) : Out' :=
  .next (s.whenOn fun s => if l > 6 ∨ s.stepRunning then s else s.linkUpFull l)

/-- FRESH_BEACON_WAIT_EXPIRY (R276): a silent peer is left out of the comparison. -/
def execFreshBeaconWaitExpiry (s : State) : Out' :=
  .next (s.whenOn fun s =>
    match s.barrierIdx with
    | none => s
    | some i => (s.modStep i fun p => { p with waitOver := true }).cadenceCheck)

end Sys2Proof.Machine
end

