-- ==== Sys2Proof/Machine/Program.lean ====
section
/-!
DEFINITION. The program image (R43, Tables 2.2, 2.3, 2.6) and every check that LOAD_PROGRAM makes of it (R41, R42, R44,
R47 to R50, R52, R57, R63, R65, R67, R69, R71, R93, R94, R118, R129, R130, R135, R144, R145, R148, R263). The checks of one
descriptor and of one record are functions of the descriptors' formats, so that LOAD_PLAN repeats them at each rung (R164).
-/
namespace Sys2Proof.Machine

open Sys2Proof

/-- "None" wherever an identifier is expected (Table 2.3). -/
def noId : Nat := 0xFFFFFFFF

/-- The codes of the variable extents V0 to V3. -/
def varBase : Nat := 0xFFFFFFF0
def isVar (e : Nat) : Bool := decide (varBase ≤ e) && decide (e < varBase + 4)

def Desc.fmt (d : Desc) : Option Fmt := fmtOfCode d.fmtCode
def Desc.isFmt (d : Desc) (e : Elem) : Bool := d.fmt == some ⟨e, false⟩
def Desc.isB32 (d : Desc) : Bool := match d.fmt with | some f => f.b32 | none => false
def Desc.budget (d : Desc) : Nat := d.qctl % 16
def Desc.fold (d : Desc) : Nat := d.qctl / 16 % 4
def Desc.rotCode (d : Desc) : Nat := d.rot % 8
def Desc.hasCset (d : Desc) : Bool := d.cset != 0xFFFF
def Desc.ext (d : Desc) (k : Nat) : Nat := d.shape.getD k 0

/-- Largest value of an extent (R51). -/
def Program.extMax (p : Program) (e : Nat) : Nat := if isVar e then p.vmax.getD (e - varBase) 0 else e

/-- Does extent `k` of a scale descriptor run along BDIM of the data tensor that names it as its SCALE_ID (R48)? -/
def Program.alongBlocks (p : Program) (d : Desc) (k : Nat) : Bool :=
  d.isFmt .e8m0 && p.descs.any fun x => x.scaleId == d.id && x.isB32 && x.bdim == k

/-- The extents of a descriptor when the variable ones take the values `f`: along BDIM of its data tensor a variable entry of a
scale descriptor stands for ceil(Vi / 32) blocks (R48, R51). -/
def Program.extents (p : Program) (f : Nat → Nat) (d : Desc) : List Nat :=
  d.shape.mapIdx fun k e => if isVar e then (if p.alongBlocks d k then ceilDiv (f e) 32 else f e) else e

/-- The extents for which firmware sizes every allocation (R48, R51). -/
def Program.maxShape (p : Program) (d : Desc) : List Nat := p.extents p.extMax d

def Program.desc (p : Program) (id : Nat) : Option Desc := p.descs.find? (·.id == id)

/-- The descriptors a record writes: its outputs and the companions that a ROUTE record names. -/
def OpRec.writes (o : OpRec) : List Nat :=
  o.outs ++ (if o.opcode = 0x000D then [fieldLe o.param 8 4, fieldLe o.param 12 4] else [])

/-- The record that writes a descriptor. -/
def Program.writer (p : Program) (id : Nat) : Option Nat := p.ops.findIdx? fun o => o.writes.contains id

/-- The records that read a descriptor. -/
def Program.readers (p : Program) (id : Nat) : List Nat :=
  (List.range p.ops.length).filter fun i => match p.ops[i]? with | some o => o.ins.contains id | none => false

/-- The channel-scale sets of a descriptor at VMAX (R145). -/
def Program.sets (p : Program) (d : Desc) : List Nat :=
  if d.hasCset then (List.range (ceilDiv (p.extMax (d.ext d.cdim)) 4096)).map (d.cset + ·) else []

/-! ### Parsing -/

def parseDesc (b : List Byte) : Desc :=
  let rank := fieldLe b 4 1
  { id := fieldLe b 0 4, rank := rank, fmtCode := fieldLe b 5 1, role := fieldLe b 6 1, zpMode := fieldLe b 7 1
    shape := (List.range (min rank 6)).map fun k => fieldLe b (8 + 4 * k) 4
    order := (List.range (min rank 6)).map fun k => fieldLe b (0x20 + k) 1
    bdim := fieldLe b 0x26 1, cdim := fieldLe b 0x27 1, tileOuter := fieldLe b 0x28 2, tileInner := fieldLe b 0x2A 2
    scaleId := fieldLe b 0x2C 4, cset := fieldLe b 0x30 2, rot := fieldLe b 0x32 1, qctl := fieldLe b 0x33 1
    rotSeed := fieldLe b 0x34 4, addr := fieldLe b 0x38 8 }

/-- Entries at RANK and above (Table 2.3). -/
def descPadOk (b : List Byte) : Bool :=
  let rank := fieldLe b 4 1
  (List.range 6).all fun k =>
    decide (k < rank) || (fieldLe b (8 + 4 * k) 4 == 0 && fieldLe b (0x20 + k) 1 == 0xFF)

/-- A NORM record with a bias and no gain: two inputs used, IN[0] and IN[2], the slot of the gain unused (R52, R64; log 74). -/
def biasAlone (b : List Byte) : Bool :=
  fieldLe b 0 2 == 0x0007 && fieldLe b 6 1 == 2
    && ((List.range 6).all fun k => (k == 0 || k == 2) == (fieldLe b (8 + 4 * k) 4 != noId))

def parseOp (b : List Byte) : OpRec :=
  let ni := fieldLe b 6 1
  let no := fieldLe b 7 1
  let alone := biasAlone b
  { opcode := fieldLe b 0 2, layer := fieldLe b 2 2, flags := fieldLe b 4 2, nIn := ni, nOut := no
    ins := if alone then [fieldLe b 8 4, fieldLe b 0x10 4] else (List.range (min ni 6)).map fun k => fieldLe b (8 + 4 * k) 4
    outs := (List.range (min no 2)).map fun k => fieldLe b (0x20 + 4 * k) 4
    param := sliceB b 0x28 24
    biasOnly := alone }

/-- Unused slots hold "none" (R52). -/
def opPadOk (b : List Byte) : Bool :=
  let ni := fieldLe b 6 1
  let no := fieldLe b 7 1
  decide (ni ≤ 6) && decide (no ≤ 2)
    && (biasAlone b || (List.range 6).all fun k => decide (k < ni) == (fieldLe b (8 + 4 * k) 4 != noId))
    && ((List.range 2).all fun k => decide (k < no) == (fieldLe b (0x20 + 4 * k) 4 != noId))

/-! ### Checks of a descriptor -/

/-- The rules that depend on the format: R47 to R50, R93, R130, R135, Table 2.3. -/
def descFmtOk (d : Desc) : Bool :=
  match d.fmt with
  | none => false
  | some f =>
    decide (d.role ≤ 5) && decide (d.zpMode ≤ 1) && (d.zpMode == 0 || (f.elem == .u8 && d.hasCset))
      && (!f.b32 || decide (d.bdim < d.rank))
      && (if d.role = 1 then d.scaleId == noId else !f.b32 || d.scaleId != noId)
      && (d.hasCset == (d.cdim != 0xFF)) && (d.cdim == 0xFF || decide (d.cdim < d.rank))
      && (!d.hasCset || (f.elem.arith && f.elem != .bf16 && f.elem != .fp32))
      && decide (d.rot < 8) && decide (d.rotCode ≤ 4) && decide (d.qctl < 64) && decide (d.budget ≤ 4) && d.fold != 3
      && (d.rotCode == 0 || (decide (d.bdim < d.rank) && (isVar (d.ext d.bdim) || d.ext d.bdim % rotSize d.rotCode == 0)))
      && !(f.elem == .w1 && decide (0 < d.budget))

/-- BDIM is set only by a block-scaled format, and by an FP32 descriptor that names a rotation (Table 2.3, R130). -/
def descBdimOk (d : Desc) : Bool := d.isB32 || d.bdim == 0xFF || (d.isFmt .fp32 && d.rotCode != 0)

/-- The scale descriptor of a block-scaled one (R48). -/
def scaleOk (d s : Desc) : Bool :=
  s.isFmt .e8m0 && s.rank == d.rank && (List.range d.rank).all fun k =>
    let e := d.ext k
    if isVar e then s.ext k == e else s.ext k == (if k = d.bdim then ceilDiv e 32 else e)

/-- One descriptor of an image. -/
def Program.descOk (p : Program) (b : List Byte) (d : Desc) : Bool :=
  d.id != noId && decide (1 ≤ d.rank) && decide (d.rank ≤ 6) && descPadOk b
    && (d.shape.all fun e => (decide (1 ≤ e) && decide (e ≤ 0x7FFFFFFF)) || (isVar e && decide (0 < p.extMax e)))
    && ((List.range d.rank).all fun k => d.order.contains k) && descFmtOk d && descBdimOk d
    && d.addr % 256 == 0 && (d.role != 2 || d.addr == 0)
    && (!d.hasCset || decide (d.cset + (p.sets d).length ≤ 1024))
    && (!(d.isB32 && d.role != 1) || (match p.desc d.scaleId with | some s => scaleOk d s | none => false))

/-! ### Checks of a record -/

/-- Table 2.8: is the pairing on the forward array, and its PASSES. -/
def pairing (a b : Fmt) : Option (Bool × Nat) :=
  let fa := match a.elem with | .i8 | .u8 => true | _ => false
  let fb := match b.elem with | .w1 | .wt | .w2 | .i4 | .f4 | .i8 | .u8 => true | _ => false
  let na (f : Fmt) : Bool := match f.elem with | .f8a | .f8b | .bf16 => true | _ => false
  let plain (f : Fmt) : Bool := na f && !f.b32
  if fa && fb then some (true, 1)
  else if na a && na b then some (false, 1)
  else if a.elem = .fp32 ∧ plain b ∨ b.elem = .fp32 ∧ plain a then some (false, 2)
  else if a.elem = .fp32 ∧ b.elem = .fp32 then some (false, 3)
  else none

/-- The dimension along which an operand is rotated: that of the ROTATE record that writes it, else BDIM (R67, R130). -/
def Program.rotDim (p : Program) (d : Desc) : Nat :=
  match (p.writer d.id).bind fun j => p.ops[j]? with
  | some o => if o.opcode = 0x000B then fieldLe o.param 0 1 else d.bdim
  | none => d.bdim

/-- Formats, PASSES, BDIM, rotations and channel dimensions of a product (R57, R67, R118); `ka`, `kb` are the reduction
dimensions. An operand carries the rotation that its descriptor names, the output of an inverse ROTATE too (DESIGN CHOICE,
log 72). -/
def Program.productOk (p : Program) (a b : Desc) (ka kb passes : Nat) : Bool :=
  match a.fmt, b.fmt with
  | some fa, some fb =>
    (match pairing fa fb with | some (_, n) => n == passes | none => false)
      && (!fa.b32 || a.bdim == ka) && (!fb.b32 || b.bdim == kb)
      && a.rotCode == b.rotCode && (a.rotCode == 0 || (a.rotSeed == b.rotSeed && p.rotDim a == ka && p.rotDim b == kb))
      && a.cdim != ka && b.cdim != kb
  | _, _ => false

/-- A forward-array A with a CSET needs a B whose group sums are written (R148). -/
def Program.sumsOk (p : Program) (a b : Desc) : Bool :=
  !(a.hasCset && (match a.fmt with | some f => onForward f.elem | none => false)) || b.role == 1
    || (match p.writer b.id with
        | some j => (match p.ops[j]? with | some o => o.opcode == 0x000C | none => false)
        | none => false)

/-- Two extents that must agree up to a fixed function. A variable one is judged at run time by what reads the tensor: too few
offsets breach the conditions of R61, offsets beyond S + 1 and mask bits beyond the blocks are not read, and a mask bit that is
not there admits nothing (DESIGN CHOICE, log 75). -/
def extRel (f : Nat → Nat) (a b : Nat) : Bool := isVar a || isVar b || b == f a

/-- The values that an extent takes (R51). -/
def Program.values (p : Program) (e : Nat) : List Nat :=
  if isVar e then (List.range (p.extMax e)).map (· + 1) else [e]

/-- Heads and head size of Q, K or V (Table 2.1): at every value of a variable extent. -/
def Program.headOk (p : Program) (d : Desc) : Bool :=
  decide (d.rank = 3) && decide (p.extMax (d.ext 1) ≤ 128) && ((p.values (d.ext 1)).all fun h => decide (1 ≤ h))
    && (p.values (d.ext 2)).all [32, 64, 128, 256].contains

/-- H is a multiple of Hkv at every value that the two take together (R63). -/
def Program.headsOk (p : Program) (q k : Desc) : Bool :=
  if q.ext 1 = k.ext 1 then true
  else (p.values (q.ext 1)).all fun h => (p.values (k.ext 1)).all fun n => decide (0 < n) && h % n == 0

/-- A backward-array format with PASSES 1 (Table 2.8). -/
def narrowFmt (d : Desc) : Bool :=
  match d.fmt with
  | some f => (match f.elem with | .f8a | .f8b | .bf16 => true | _ => false)
  | none => false

/-- The operation's own rules. `rung` is true when LOAD_PLAN checks a rung, where a QUANTIZE record may run as a CONVERT
from FP32 (R166, R447). A ROUTE whose k exceeds its experts is refused, since R68 gives such a record no k choices (DESIGN CHOICE,
log 65). -/
def Program.opOk (p : Program) (rung : Bool) (o : OpRec) (ins outs : List Desc) : Bool :=
  let pz (a n : Nat) : Bool := zeroAt o.param a n
  let pb (a : Nat) : Nat := fieldLe o.param a 1
  let fp (d : Desc) : Bool := d.isFmt .fp32
  let ix (d : Desc) : Bool := d.isFmt .ix32
  let lim (d : Desc) (k n : Nat) : Bool := decide (p.extMax (d.ext k) ≤ n)
  match o.opcode, ins, outs with
  | 0x0001, [a, b], [y] =>
    decide (2 ≤ a.rank) && (b.rank == 2 || b.rank == a.rank) && pz 1 23
      && (b.rank == 2 || a.shape.take (a.rank - 2) == b.shape.take (b.rank - 2))
      && a.ext (a.rank - 1) == b.ext (b.rank - 2) && fp y
      && y.shape == a.shape.take (a.rank - 1) ++ [b.ext (b.rank - 1)]
      && p.productOk a b (a.rank - 1) (b.rank - 2) (pb 0) && p.sumsOk a b
  | 0x0002, [t, i, b], [y] =>
    t.rank == 2 && i.rank == 1 && b.rank == 2 && ix i && fp y && pz 1 23 && t.ext 1 == b.ext 0
      && y.shape == [i.ext 0, b.ext 1] && p.productOk t b 1 0 (pb 0) && p.sumsOk t b
  | 0x0003, x :: i :: rest, [y] =>
    fp x && x.rank == 2 && ix i && i.rank == 1 && i.ext 0 == x.ext 0 && fp y && y.rank == 2 && y.ext 1 == x.ext 1 && pz 4 20
      && (match rest with
          | [] => fieldLe o.param 0 4 == p.extMax (y.ext 0)
          | [z] => fp z && z.shape == y.shape && pz 0 4
          | _ => false)
  | 0x0004, [x, f], [y] =>
    fp x && x.rank == 2 && ix f && f.rank == 1 && fp y && y.rank == 2 && y.ext 1 == x.ext 1
      && extRel (· + 1) (y.ext 0) (f.ext 0) && lim y 0 16777216 && decide (pb 0 ≤ 2) && pz 1 23
  | 0x0005, [q, k, v, r, c], [y] =>
    p.headOk q && k.shape == q.shape && v.shape == q.shape && y.shape == q.shape && fp y && ix r && r.rank == 1 && ix c
      && c.rank == 1 && extRel (· + 1) (q.ext 0) (r.ext 0) && lim q 0 2097152 && narrowFmt q && narrowFmt k && narrowFmt v
      && pz 4 20
  | 0x0006, q :: k :: v :: rest, [y] =>
    p.headOk q && p.headOk k && v.shape == k.shape && y.shape == q.shape && fp y && q.ext 2 == k.ext 2
      && p.headsOk q k && lim q 0 2097152 && lim k 0 2097152 && narrowFmt q && narrowFmt k && narrowFmt v
      && decide (pb 4 ≤ 3) && pz 5 19
      && (match rest with
          | [] => decide (pb 4 < 2)
          | [m] => decide (2 ≤ pb 4) && m.isFmt .bit1 && m.rank == 2 && extRel (ceilDiv · 128) (q.ext 0) (m.ext 0)
              && extRel (ceilDiv · 128) (k.ext 0) (m.ext 1)
          | _ => false)
  | 0x0007, x :: rest, [y] =>
    let d := x.ext (x.rank - 1)
    fp x && fp y && y.shape == x.shape && decide (pb 0 ≤ 1) && pz 1 3 && pz 8 16 && decide (p.extMax d ≤ 65536)
      && decide (rest.length ≤ 2) && rest.all fun g => fp g && g.shape == [d]
  | 0x0008, [x], [y] =>
    fp x && fp y && y.shape == x.shape && lim x (x.rank - 1) 65536 && pz 4 20
  | 0x0009, x :: rest, [y] =>
    let code := fieldLe o.param 0 2
    decide (1 ≤ code) && decide (code ≤ 0x13) && pz 2 2 && pz 12 12 && fp x && fp y && y.shape == x.shape
      && rest.length + 1 == ewArity code
      && rest.all fun z => fp z && z.rank == x.rank && (List.range x.rank).all fun k => z.ext k == x.ext k || z.ext k == 1
  | 0x000A, [x], [y] =>
    decide (pb 0 ≤ 2) && pz 1 23 && y.shape == x.shape
      && (match x.fmt, y.fmt with | some a, some b => convertPair a x.hasCset b | _, _ => false)
  | 0x000B, [x], [y] =>
    fp x && fp y && y.shape == x.shape && decide (pb 0 < x.rank) && decide (pb 1 ≤ 1) && pz 2 22
      && (y.rotCode == 0 || isVar (x.ext (pb 0)) || x.ext (pb 0) % rotSize y.rotCode == 0)
  | 0x000C, [x], y :: rest =>
    let kap := FpFmt.fp32.dec (fieldLe o.param 4 4)
    let kOk : Bool := match kap with
      | .fin s m e => m == 0 || (!s && (Dy.mk 1 0).le ⟨m, e⟩ && (Dy.mk m e).le ⟨11, -1⟩)
      | _ => false
    fp x && y.shape == x.shape && decide (pb 0 ≤ 1) && pz 1 3 && pz 8 16 && kOk
      && (match y.fmt with
          | none => false
          | some f =>
            if f.b32 then (match rest with | [s] => s.id == y.scaleId | _ => false)
            else if f.elem = .u8 then rest.isEmpty
            else rung && (f.elem == .fp32 || convertPair ⟨.fp32, false⟩ false f))
  | 0x000D, [x], [l, g] =>
    let k := pb 0
    let e := x.ext 1
    let c := fieldLe o.param 4 4
    fp x && x.rank == 2 && decide (2 ≤ e) && decide (e ≤ 256) && decide (1 ≤ k) && decide (k ≤ 8) && decide (k ≤ e)
      && decide (pb 1 ≤ 1) && pz 2 2 && pz 16 8 && decide (1 ≤ c) && decide (c ≤ 2097152)
      && ix l && l.shape == [e, c] && fp g && g.shape == [x.ext 0, k]
      && (match p.desc (fieldLe o.param 8 4), p.desc (fieldLe o.param 12 4) with
          | some s, some n => ix s && s.shape == [x.ext 0, k] && ix n && n.shape == [e + 1]
          | _, _ => false)
  | 0x000E, [x], [y] =>
    let n := fieldLe o.param 0 4
    let lo := fieldLe o.param 4 4
    let hi := fieldLe o.param 8 4
    decide (1 ≤ n) && decide (n ≤ 4096) && pz 12 12 && ix y && y.shape == [n + 3]
      && ((fp x && (f32 (BitVec.ofNat 32 lo)).isFin && (f32 (BitVec.ofNat 32 hi)).isFin
            && f32lt (BitVec.ofNat 32 lo) (BitVec.ofNat 32 hi)) || (ix x && decide (lo < hi)))
  | 0x000F, _, _ =>
    let kind := pb 0
    decide (kind ≤ 3) && pz 1 3 && pz 6 18 && ins.length == outs.length && decide (1 ≤ ins.length)
      && (ins.zip outs).all (fun q => q.1.fmtCode == q.2.fmtCode && !q.1.isFmt .e8m0 && (decide (2 ≤ kind) || fp q.1)
            && (kind != 0 || q.1.shape == q.2.shape))
      && (if kind = 3 then ins.length == 2 && (match ins with
            | [k, v] => k.ext 0 == v.ext 0 && (isVar (k.ext 0) || k.ext 0 % 128 == 0)
            | _ => false)
          else ins.length == 1)
  | 0x0010, [x, t], [y] =>
    decide (pb 0 ≤ 1) && pz 1 3 && pz 8 16 && fp x && fp y && y.shape.all (· == 1)
      && (if pb 0 = 0 then x.rank == 2 && ix t && t.shape == [x.ext 0] && decide (2 ≤ p.extMax (x.ext 1)) && lim x 1 1048576
          else fp t && t.shape == x.shape)
  | _, _, _ => false

/-- The descriptors that identifiers name; none when one is missing. -/
def Program.lookup (p : Program) (ids : List Nat) : Option (List Desc) := ids.mapM p.desc

/-- Formats, shapes and parameters of one record. -/
def Program.recOk (p : Program) (rung : Bool) (o : OpRec) : Bool :=
  decide (o.layer < p.nLayers) && decide (o.flags ≤ 1) &&
    match p.lookup o.ins, p.lookup o.outs with
    | some is, some os => p.opOk rung o is os
    | _, _ => false

/-- The sets a QUANTIZE record writes: those of its output (R144). -/
def Program.quantSets (p : Program) (o : OpRec) : List Nat :=
  if o.opcode = 0x000C then (match o.outs.head?.bind p.desc with | some d => p.sets d | none => []) else []

/-- The sets that WEIGHT descriptors' requantization writes. -/
def Program.weightSets (p : Program) : List Nat := (p.descs.filter (·.role == 1)).flatMap p.sets

/-- The graph rules of R44 and the set rule of R145 for record `i`, given the records before it. -/
def Program.graphOk (p : Program) (i : Nat) (o : OpRec) : Bool :=
  let before := p.ops.take i
  let w := o.writes
  let setsBefore := before.flatMap p.quantSets
  let mine := p.quantSets o
  (o.ins.all fun d => match p.writer d with | some j => decide (j < i) | none => true)
    && (o.ins.all fun d => match p.desc d with
        | some x => (p.sets x).all fun st => !((p.ops.drop i).any fun q => (p.quantSets q).contains st)
        | none => true)
    && w.dedup.length == w.length && (before.all fun q => !q.writes.any fun d => w.contains d)
    && (w.all fun d => !o.ins.contains d)
    && !(o.opcode == 0x0010 && before.any fun q => q.opcode == 0x0010)
    && (before.all fun q => q.opcode != 0x0010 || !o.ins.any fun d => q.outs.contains d)
    && (w.all fun d => match p.desc d with | some x => x.role == 2 | none => false)
    && (mine.all fun st => !setsBefore.contains st && !p.weightSets.contains st)

/-- A SEQ_RING over a group of the declared topology (R263). -/
def Topology.ringOk (t : Topology) (p : Program) (o : OpRec) : Bool :=
  if o.opcode = 0x000F ∧ fieldLe o.param 0 1 = 3 then
    match t.group (fieldLe o.param 4 2) with
    | none => true
    | some rs =>
      let ts := match o.ins.head?.bind p.desc with | some d => d.ext 0 | none => 0
      decide (rs.length ≤ 8) && decide ((rs.map t.boardOf).dedup.length ≤ 1)
        && (isVar ts || decide (rs.length * ts ≤ 2097152))
  else true

/-- Can the LOSS be reached from what a record writes? `fuel` bounds the records passed. -/
def Program.reachesLoss (p : Program) : Nat → List Nat → Bool
  | 0, _ => false
  | n + 1, ids =>
    let rs := p.ops.filter fun o => o.ins.any ids.contains
    if rs.any fun o => o.opcode == 0x0010 then true
    else if rs.isEmpty then false else p.reachesLoss n (rs.flatMap OpRec.writes)

/-- No HISTOGRAM lies on a path to the loss. -/
def Program.histOk (p : Program) (o : OpRec) : Bool := o.opcode != 0x000E || !p.reachesLoss p.ops.length o.writes

/-! ### The whole image -/

/-- How LOAD_PROGRAM fails: status, FAIL_KIND, FAIL_INDEX. -/
structure LoadFail where
  status : Nat
  kind : Nat
  index : Nat
  deriving DecidableEq, Repr

/-- Cuts `n` pieces of 64 bytes. -/
def cut64 : Nat → List Byte → List (List Byte)
  | 0, _ => []
  | n + 1, bs => bs.take 64 :: cut64 n (bs.drop 64)

/-- Header fields (Table 2.2): version, descriptors, records, layers, VMAX. -/
structure ProgHeader where
  version : Nat
  nDesc : Nat
  nOps : Nat
  nLayers : Nat
  vmax : List Nat
  deriving DecidableEq, Repr

def parseHeader (b : List Byte) : ProgHeader :=
  ⟨fieldLe b 0 2, fieldLe b 4 4, fieldLe b 8 4, fieldLe b 0xC 2, (List.range 4).map fun k => fieldLe b (0x10 + 4 * k) 4⟩

def ProgHeader.ok (h : ProgHeader) (b : List Byte) : Bool :=
  h.version == 0x0100 && zeroAt b 2 2 && zeroAt b 0xE 2 && decide (1 ≤ h.nDesc) && decide (h.nDesc ≤ 65536)
    && decide (1 ≤ h.nOps) && decide (h.nOps ≤ 16384) && decide (1 ≤ h.nLayers) && decide (h.nLayers ≤ 4096)
    && h.vmax.all fun v => decide (v ≤ 0x7FFFFFFF)

/-- Bytes of a WEIGHT's master copy, or of a host tensor at VMAX (R50, R76, R136). -/
def Program.hostBytes (p : Program) (d : Desc) : Nat :=
  let shape := p.maxShape d
  if d.role = 1 then prod shape * 2
  else match d.fmt with
    | some f => storedBytes f shape d.bdim
    | none => 0

/-- The extent of the outlier slots behind a scale tensor (R136). -/
def Program.slotBytes (p : Program) (d : Desc) : Nat :=
  if d.isB32 ∧ 0 < d.budget then 4 * d.budget * prod (scaleShape (p.maxShape d) d.bdim) else 0

/-- Does the data that a WEIGHT or CONSTANT descriptor places touch a retired page, or pass the end of device memory (R295,
R192)? -/
def State.hitsRetired (s : State) (p : Program) (base : Nat) (d : Desc) : Bool :=
  let a := base + d.addr
  let n := p.hostBytes d
  let sc : Bool := match p.desc d.scaleId with
    | some x => if d.isB32 ∧ d.role ≠ 1 ∧ 0 < d.budget then
        s.mem.touchesRetired (base + x.addr + roundUp (p.hostBytes x) 256) (p.slotBytes d) else false
    | none => false
  decide (a + n > devEnd) || s.mem.touchesRetired a n || sc

/-- Every check of an image's bytes in order: header, opcodes, descriptors, records, the two breaches of no record, retired
pages. -/
def State.checkProgram (s : State) (h : ProgHeader) (hb : List Byte) (db ob : List (List Byte)) : Except LoadFail Program :=
  let p : Program := ⟨h.version, h.nLayers, h.vmax, db.map parseDesc, ob.map parseOp⟩
  let fail (st k i : Nat) : Except LoadFail Program := .error ⟨st, k, i⟩
  if !h.ok hb then fail stBAD_PARAM 1 noId
  else
    match p.ops.findIdx? fun o => o.opcode < 1 ∨ o.opcode > 0x10 with
    | some i => fail stBAD_OPCODE 3 i
    | none =>
      let badDesc := (List.range db.length).find? fun i =>
        match p.descs[i]?, db[i]? with
        | some d, some b => !p.descOk b d || (p.descs.take i).any (fun e => e.id == d.id)
            || (d.role == 1 && (p.sets d).any fun st => (p.descs.take i).any fun e => e.role == 1 && (p.sets e).contains st)
        | _, _ => true
      match badDesc with
      | some i => fail stBAD_PARAM 2 i
      | none =>
        let badRec := (List.range ob.length).find? fun i =>
          match p.ops[i]?, ob[i]? with
          | some o, some b => !opPadOk b || !p.recOk false o || !p.graphOk i o || !p.histOk o
              || !(match s.fabric.topo with | some t => t.ringOk p o | none => true)
          | _, _ => true
        match badRec with
        | some i => fail stBAD_PARAM 3 i
        | none =>
          if !p.ops.any fun o => o.opcode == 0x0010 then fail stBAD_PARAM 1 noId
          else
            match (List.range p.nLayers).find? fun l => !p.ops.any fun o => o.layer == l with
            | some l => fail stBAD_PARAM 1 l
            | none =>
              match p.descs.findIdx? fun d => (d.role == 1 || d.role == 5) && s.hitsRetired p 0 d with
              | some i => fail stBAD_PARAM 4 i
              | none => .ok p

/-- What reading an image of a program gives. -/
def State.readProgram (s : State) (env : Env) (addr : Nat) : Img (Except LoadFail Program) × State :=
  Img.andThen (s.imgRead env addr 0 32) fun hb s =>
    let h := parseHeader hb
    if !h.ok hb then (.ok (.error ⟨stBAD_PARAM, 1, noId⟩), s)
    else
      Img.andThen (s.imgRead env addr 32 (64 * (h.nDesc + h.nOps))) fun b s =>
        (.ok (s.checkProgram h hb (cut64 h.nDesc b) (cut64 h.nOps (b.drop (64 * h.nDesc)))), s)

/-! ### What firmware derives (R72) -/

/-- The layer that owns a weight: the lowest layer among its readers (R445); layer 0 for one that nothing reads. -/
def Program.owner (p : Program) (id : Nat) : Nat :=
  let ls := (p.ops.filter fun o => o.ins.contains id).map OpRec.layer
  ls.foldl min (ls.headD 0)

def Program.weights (p : Program) : List Desc := p.descs.filter (·.role == 1)
def Program.owned (p : Program) (l : Nat) : List Desc := p.weights.filter fun d => p.owner d.id == l

def OpRec.stopGrad (o : OpRec) : Bool := o.flags % 2 == 1

/-- Descriptors on which a WEIGHT has an effect, by the records before each. -/
def Program.tainted (p : Program) : List Nat :=
  p.ops.foldl (fun acc o => if !o.stopGrad && o.ins.any acc.contains then acc ++ o.writes else acc) (p.weights.map (·.id))

/-- Descriptors that reach the LOSS through records that pass gradients. -/
def Program.reaching (p : Program) : List Nat :=
  p.ops.reverse.foldl (fun acc o =>
    if !o.stopGrad && o.opcode != 0x000E && (o.opcode == 0x0010 || o.outs.any acc.contains) then acc ++ o.ins else acc) []

/-- The record lies on the backward graph (R72). -/
def Program.onGraph (p : Program) (o : OpRec) : Bool :=
  !o.stopGrad && o.ins.any p.tainted.contains && (o.opcode == 0x0010 || o.outs.any p.reaching.contains)

/-- Does a descriptor receive a gradient from the records of the graph that read it: a WEIGHT or an ACTIVATION (R210)? -/
def Program.wantsGrad (p : Program) (id : Nat) : Bool :=
  p.reaching.contains id && (p.desc id).any fun d => d.role == 1 || d.role == 2

/-- WEIGHTs that receive a gradient in REDUCE order: decreasing layer, increasing DESC_ID within one (R271). -/
def Program.gradWeights (p : Program) : List Nat :=
  (List.range p.nLayers).reverse.flatMap fun l =>
    ((p.owned l).filterMap fun d => if p.wantsGrad d.id then some d.id else none).insertionSort (· ≤ ·)

/-- Is a descriptor the A operand of a product of its layer (role A of Table 6.3)? -/
def Program.isRoleA (p : Program) (d : Nat) : Bool :=
  match p.writer d with
  | none => false
  | some j => match p.ops[j]? with
    | none => false
    | some q => q.opcode == 0x000C && q.outs.head? == some d && p.ops.any fun o =>
        (o.opcode == 1 || o.opcode == 2) && o.layer == q.layer && o.ins.head? == some d

/-- Is a WEIGHT read by a product (role W of Table 6.3)? -/
def Program.isRoleW (p : Program) (d : Nat) : Bool :=
  p.ops.any fun o => (o.opcode == 1 || o.opcode == 2) && o.ins.contains d

/-- The WEIGHTs of role W of a layer in increasing DESC_ID (Table 6.3). -/
def Program.copiesRead (p : Program) (l : Nat) : List Nat :=
  (((p.owned l).filter fun d => p.isRoleW d.id).map (·.id)).insertionSort (· ≤ ·)

def OpRec.isRoleY (o : OpRec) : Bool := [1, 2, 5, 6].contains o.opcode

end Sys2Proof.Machine
end

