-- ==== Sys2Proof/Machine/Layout.lean ====
section
/-!
DEFINITION. What firmware keeps in device memory for a program and for its plan (R72, R91, R136, R148, R176, R207, R212, R213):
the parts, their sizes, where each lies inside the allocation (log 76), and the stored bytes of a tensor (R76 to R78, R136).
-/
namespace Sys2Proof.Machine

open Sys2Proof

def Desc.fmtD (d : Desc) : Fmt := d.fmt.getD ⟨.fp32, false⟩

/-! ### Parts -/

/-- What a part of an allocation holds. -/
inductive PartKind where
  /-- an ACTIVATION descriptor: its codes, or the scales of a scale tensor with the outlier slots behind them (R136) -/
  | tensor
  /-- the group sums of a QUANTIZE output (R148) -/
  | sums
  /-- a channel set that a QUANTIZE record or a requantization writes (R91, R144); its identifier is the set's number -/
  | chan
  /-- codes, scales with outlier slots, and group sums of a forward copy (R50, R148) -/
  | copy | copyScale | copySums
  /-- the kept BF16 copy of an operand (R212) -/
  | kept
  /-- the copies of dY that dA and dB read (R213) -/
  | dyA | dyB
  /-- the log-sum-exp words of an attention record (R124, R207); its identifier is the record's index -/
  | lse
  /-- the gradient of a tensor in FP32 (R56, R73) -/
  | grad
  /-- the step gradient G of a weight in FP32 (R215) -/
  | step
  deriving DecidableEq, Repr

/-- A part: which of two halves it is (the parity of the micro-batch, or the area of a forward copy) and its bytes. -/
structure MemPart where
  kind : PartKind
  id : Nat
  half : Nat
  len : Nat
  deriving DecidableEq, Repr

/-- Two halves of one part (R207). -/
def twoHalves (kind : PartKind) (id len : Nat) : List MemPart := [⟨kind, id, 0, len⟩, ⟨kind, id, 1, len⟩]

/-- Bytes of all parts, each from a boundary of 256. -/
def partsBytes (l : List MemPart) : Nat := (l.map fun q => roundUp q.len 256).foldl (· + ·) 0

/-- Offset and length of a part in a list laid out in order. -/
def partAt (kind : PartKind) (id half : Nat) : Nat → List MemPart → Option (Nat × Nat)
  | _, [] => none
  | off, q :: qs => if q.kind = kind ∧ q.id = id ∧ q.half = half then some (off, q.len)
      else partAt kind id half (off + roundUp q.len 256) qs

/-! ### Sizes -/

/-- Does a format enter the forward array as B, so that its group sums are written (Table 2.8, R148)? -/
def sumsFmt (f : Fmt) : Bool :=
  match f.elem with
  | .w1 | .wt | .w2 | .i4 | .f4 | .i8 | .u8 => true
  | _ => false

/-- The dimension of group sums: BDIM for a block-scaled format, else the second-to-last (R148). -/
def sumsDim (f : Fmt) (rank bdim : Nat) : Nat := if f.b32 then bdim else rank - 2

/-- Bytes of group sums: one 16-bit sum for each group of 32 and each column (R148). -/
def sumsBytes (f : Fmt) (shape : List Nat) (bdim : Nat) : Nat :=
  if sumsFmt f then 2 * prod (scaleShape shape (sumsDim f shape.length bdim)) else 0

/-- Bytes of scales and outlier slots of a tensor in a format (R78, R136). -/
def scalesBytes (f : Fmt) (shape : List Nat) (bdim budget : Nat) : Nat :=
  if f.b32 then roundUp (prod (scaleShape shape bdim)) 256 + 4 * budget * prod (scaleShape shape bdim) else 0

/-- Bytes of an ACTIVATION's own part in a format; that of a scale tensor reaches behind it to the outlier slots (R136). -/
def Program.dataBytes (p : Program) (d : Desc) (f : Fmt) : Nat :=
  match p.descs.find? fun x => x.scaleId == d.id && x.isB32 with
  | some x => if d.isFmt .e8m0 then scalesBytes x.fmtD (p.maxShape x) x.bdim x.budget else storedBytes f (p.maxShape d) d.bdim
  | none => storedBytes f (p.maxShape d) d.bdim

/-- The parts of a forward copy in one area (R50, R148, R176). -/
def Program.copyParts (p : Program) (d : Desc) (area : Nat) (fs : List Fmt) : List MemPart :=
  let shape := p.maxShape d
  let widest (size : Fmt → Nat) : Nat := (fs.map size).foldl max 0
  [⟨.copy, d.id, area, widest fun f => storedBytes f shape d.bdim⟩,
   ⟨.copyScale, d.id, area, widest fun f => scalesBytes f shape d.bdim d.budget⟩,
   ⟨.copySums, d.id, area, widest fun f => sumsBytes f shape d.bdim⟩]

/-- Is an operand of a product kept as a BF16 backward copy (R212)? -/
def keptCopy (d : Desc) : Bool :=
  match d.fmt with
  | some f => d.role != 1 && (f.b32 || (match f.elem with | .i8 | .u8 => true | _ => false))
  | none => false

/-- The records whose backward products read dY in the G format (R213). -/
def OpRec.readsDy (o : OpRec) : Bool := [1, 2, 5, 6].contains o.opcode

/-- The two extents that dY has for dA and for dB, with their block dimensions: rows and columns of a product with its leading and
M indices flattened (R213), the heads of an attention record as they stand. -/
def Program.dyShapes (p : Program) (o : OpRec) (y : Desc) : (List Nat × Nat) × (List Nat × Nat) :=
  let shape := p.maxShape y
  if o.opcode = 1 ∨ o.opcode = 2 then
    let n := shape.getLast?.getD 1
    (([prod shape / n, n], 1), ([prod shape / n, n], 0))
  else ((shape, 2), (shape, 0))

/-- Bytes of a dY copy in a G format: codes with scales. -/
def dyBytes (f : Fmt) (q : List Nat × Nat) : Nat := roundUp (storedBytes f q.1 q.2) 256 + scalesBytes f q.1 q.2 0

/-- The firmware tensors of a program at VMAX, in the format of each descriptor, kept tensors for two micro-batches (R72, R176,
R207). -/
def Program.parts (p : Program) : List MemPart :=
  let bf : Fmt := ⟨.bf16, false⟩
  let acts := (p.descs.filter fun d => d.role == 2).flatMap fun d => twoHalves .tensor d.id (p.dataBytes d d.fmtD)
  let quants := (p.ops.filter fun o => o.opcode == 0x000C).filterMap fun o => o.outs.head?.bind p.desc
  let sums := quants.flatMap fun d => twoHalves .sums d.id (sumsBytes d.fmtD (p.maxShape d) d.bdim)
  let qsets := (quants.flatMap p.sets).flatMap fun st => twoHalves .chan st 65536
  let ws := p.descs.filter (·.role == 1)
  let wsets := ((ws.flatMap p.sets).dedup).map fun st => (⟨.chan, st, 0, 65536⟩ : MemPart)
  let copies := ws.flatMap fun d => p.copyParts d 0 [d.fmtD]
  let graph := (p.ops.mapIdx fun k o => (k, o)).filter fun q => p.onGraph q.2 && q.2.readsDy
  let kept := ((graph.flatMap fun q => if q.2.opcode = 1 ∨ q.2.opcode = 2 then (q.2.ins.filterMap p.desc).filter keptCopy else []).dedup).flatMap
    fun d => twoHalves .kept d.id (storedBytes bf (p.maxShape d) 0)
  let dys := graph.flatMap fun q => match q.2.outs.head?.bind p.desc with
    | none => []
    | some y =>
      let (a, b) := p.dyShapes q.2 y
      twoHalves .dyA y.id (dyBytes bf a) ++ twoHalves .dyB y.id (dyBytes bf b)
  let lses := graph.flatMap fun q => match q.2.outs.head?.bind p.desc with
    | none => []
    | some y => if q.2.opcode = 5 ∨ q.2.opcode = 6 then twoHalves .lse q.1 (4 * prod ((p.maxShape y).take 2)) else []
  let grads := (p.descs.filter fun d => p.wantsGrad d.id).flatMap fun d =>
    twoHalves .grad d.id (storedBytes ⟨.fp32, false⟩ (p.maxShape d) 0)
  let steps := (p.descs.filter fun d => p.wantsGrad d.id && d.role == 1).map fun d =>
    (⟨.step, d.id, 0, storedBytes ⟨.fp32, false⟩ (p.maxShape d) 0⟩ : MemPart)
  acts ++ sums ++ qsets ++ wsets ++ copies ++ kept ++ dys ++ lses ++ grads ++ steps

def Program.poolBytes (p : Program) : Nat := partsBytes p.parts

/-! ### Stored bytes -/

/-- The place of position `pos` when the `n` positions of a tensor are put in the order of a key, equal keys in their own order: no
place is taken twice and none is left out (R76). -/
def rankBy (key : Nat → Nat) (n pos : Nat) : Nat :=
  ((List.range n).filter fun q => decide (key q < key pos) || (key q == key pos && decide (q < pos))).length

/-- The storage position of logical indices (R46); the order of a tiled layout is free (log 13). -/
def storeIdx (d : Desc) (stored idx : List Nat) : Nat :=
  let pos := storePos d.order stored idx
  if d.tileOuter = 0 ∧ d.tileInner = 0 then pos
  else rankBy (Config.tilePos d.tileOuter d.tileInner (d.order.map (stored.getD · 1))) (prod stored) pos

/-- Codes in storage order: padding holds code zero (R46, R77). -/
def storeCodes (d : Desc) (shape stored codes : List Nat) : List Nat :=
  let at' := (List.range (prod shape)).map fun i => storeIdx d stored (unravel shape i)
  (List.range (prod stored)).map fun q => match at'.findIdx? (· == q) with
    | some i => codes.getD i 0
    | none => 0

/-- The codes of a tensor as a writer stores them under its descriptor (R76, R77). -/
def Tensor.dataBytes (t : Tensor) (d : Desc) : List Byte :=
  packCodes t.fmt.elem (storeCodes d t.shape (storedShape t.fmt t.shape d.bdim) t.codes)

/-- The outlier slots of a tensor in the storage order of its scale descriptor (R136). -/
def Tensor.slotBytes (t : Tensor) (s : Desc) (bdim budget : Nat) : List Byte :=
  let ss := scaleShape t.shape bdim
  (storeCodes s ss ss (List.range (prod ss))).flatMap fun b =>
    (List.range budget).flatMap fun j => toLe 4 ((t.outl.getD b []).getD j 0)

/-- Scales, and behind them from the next boundary of 256 the outlier slots (R78, R136). -/
def Tensor.scaleBytes (t : Tensor) (s : Desc) (bdim budget : Nat) : List Byte :=
  let ss := scaleShape t.shape bdim
  let sc := (storeCodes s ss ss t.scales).map (BitVec.ofNat 8)
  if budget = 0 then sc else sc ++ List.replicate (roundUp sc.length 256 - sc.length) 0 ++ t.slotBytes s bdim budget

/-- The group sums of a tensor: the sum of the array forms of each group of 32 as a 16-bit integer, in the logical order of the
groups (R148; the order is DESIGN CHOICE, log 76). -/
def Tensor.sumBytes (t : Tensor) (bdim : Nat) : List Byte :=
  if !sumsFmt t.fmt then []
  else
    let k := sumsDim t.fmt t.shape.length bdim
    let gs := scaleShape t.shape k
    (List.range (prod gs)).flatMap fun g =>
      let gi := unravel gs g
      let lo := gi.getD k 0 * 32
      let s : Int := ((List.range (min 32 (t.shape.getD k 0 - lo))).map fun j =>
        t.fmt.elem.form (t.codes.getD (ravel t.shape (updAt gi k fun _ => lo + j)) 0)).foldl (· + ·) 0
      toLe 2 (encInt 16 s)

/-- A channel-scale entry (Table 3.6); reserved bytes are zero. -/
def ChanEnt.bytes (e : ChanEnt) : List Byte :=
  toLe 4 e.scale.toNat ++ toLe 1 e.zp ++ toLe 1 (putBit e.const 0) ++ toLe 2 0 ++ toLe 4 e.cval.toNat ++ toLe 4 0

/-- The entry that firmware gives every channel of a set of the host (R144). -/
def ChanEnt.unit : ChanEnt := ⟨0x3F800000, 0, false, 0⟩

/-- A set of the host as LOAD_PROGRAM leaves it: 4,096 entries (R91, R144). -/
def freshSet : List Byte := (List.replicate 4096 ChanEnt.unit.bytes).flatten

/-! ### Reading -/

/-- The code at a storage position of stored bytes (R76). -/
def codeIn (b : List Byte) (el : Elem) (q : Nat) : Nat :=
  if el.bits ≥ 8 then fieldLe b (q * (el.bits / 8)) (el.bits / 8)
  else bitField (b.getD (q * el.bits / 8) 0).toNat (q * el.bits % 8) el.bits

/-- A tensor from its stored bytes, and for a block-scaled format those of its scales and slots (R77, R78, R136). A stored extent
that is variable takes the micro-batch's value, not VMAX, in a CONSTANT as in the other host tensors (DESIGN CHOICE, log 72). -/
def decodeTensor (d : Desc) (f : Fmt) (sc : Option Desc) (shape : List Nat) (data scale : List Byte) : Tensor :=
  let stored := storedShape f shape d.bdim
  let codes := (List.range (prod shape)).map fun i => codeIn data f.elem (storeIdx d stored (unravel shape i))
  match (if f.b32 then sc else none) with
  | none => ⟨f, shape, codes, [], []⟩
  | some s =>
    let ss := scaleShape shape d.bdim
    let pos (i : Nat) : Nat := storeIdx s ss (unravel ss i)
    let first := roundUp (prod ss) 256
    ⟨f, shape, codes, (List.range (prod ss)).map fun i => (scale.getD (pos i) 0).toNat,
      (List.range (prod ss)).map fun i => (List.range d.budget).map fun j => fieldLe scale (first + 4 * (pos i * d.budget + j)) 4⟩

/-- The linear indices in extents `big` of the elements of smaller extents (R51). -/
def innerIdx (big small : List Nat) : List Nat := (List.range (prod small)).map fun i => ravel big (unravel small i)

/-- The part of a tensor within smaller extents: a WEIGHT that names a variable extent is stored for VMAX, and a micro-batch reads
the elements below its value (R51; DEDUCED, log 75). -/
def Tensor.within (t : Tensor) (bdim : Nat) (shape : List Nat) : Tensor :=
  if t.shape = shape then t
  else
    let ix := innerIdx t.shape shape
    let sx := innerIdx (scaleShape t.shape bdim) (scaleShape shape bdim)
    ⟨t.fmt, shape, ix.map fun i => t.codes.getD i 0, if t.scales.isEmpty then [] else sx.map fun i => t.scales.getD i 0,
      if t.outl.isEmpty then [] else sx.map fun i => t.outl.getD i []⟩

end Sys2Proof.Machine
end

