-- ==== Sys2Proof/Machine/Load.lean ====
section
/-!
DEFINITION. What fills a program slot: the allocation (R72, R176, R238), LOAD_PROGRAM (R44, R45, R370), LOAD_PLAN (R160,
R162 to R164, R176), LOAD_COEFF (R233 to R239), LOAD_TRACKERS and SAVE_TRACKERS (R182), PLACE_HINT (R74, R75) and
SET_STEP_SIZE (R240).
-/
namespace Sys2Proof.Machine

open Sys2Proof

/-! ### The allocator -/

/-- What an allocation must avoid: firmware allocations, regions set to affinity, master copies and constants of loaded programs, the landing
area, the event ring, retired memory. -/
def State.taken (s : State) : List (Nat × Nat) :=
  s.allocs.map (fun a => (a.addr, a.len)) ++ s.mem.affine.map (fun g => (g.1 * 0xC0000000, 0xC0000000))
    ++ s.slots.flatMap (fun x => match x.prog with
        | none => []
        | some p => (p.descs.filter fun d => d.role == 1 || d.role == 5).map fun d => (d.addr, p.hostBytes d))
    ++ (if s.landing then [(landBase, devEnd - landBase)] else [])
    ++ (if s.evt.en then [(s.evt.base.toNat / 65536 * 65536, roundUp (s.evt.base.toNat % 65536 + 64 * 2 ^ s.evt.log2) 65536)] else [])
    ++ s.mem.pages.map (fun q => (q * 65536, 65536))
    ++ s.mem.banks.flatMap (fun b => (s.mem.bankPages b).map fun q => (q * 65536, 65536))

/-- The free gaps below an end, as (start, length), between extents sorted by start. -/
def gapsFrom (lo : Nat) : List (Nat × Nat) → List (Nat × Nat)
  | [] => [(lo, devEnd - lo)]
  | (a, n) :: r => (if lo < a then [(lo, a - lo)] else []) ++ gapsFrom (max lo (a + n)) r

/-- 256-byte aligned gaps that hold `n` bytes. -/
def State.gaps (s : State) (extra : List (Nat × Nat)) (n : Nat) : List (Nat × Nat) :=
  let ex := (s.taken ++ extra).insertionSort fun a b => a.1 ≤ b.1
  ((gapsFrom 0 ex).map fun g => let a := roundUp g.1 256; (a, g.1 + g.2 - a)).filter fun g => decide (n ≤ g.2)

/-- A place for `n` bytes: one of the gaps, and one of its aligned places, freely (log 10); none when nothing fits. -/
def State.place1 (s : State) (extra : List (Nat × Nat)) (n : Nat) : Option (Nat × State) :=
  match s.gaps extra n with
  | [] => none
  | g :: gs =>
    let c := Config.placeChoice s.freeCtr
    let (a, len) := (g :: gs).getD (c % (gs.length + 1)) g
    some (a + 256 * (Config.placeChoice (s.freeCtr + 1) % ((len - n) / 256 + 1)), { s with freeCtr := s.freeCtr + 2 })

/-- Places for several sizes; a size of zero takes none and lies at 0. -/
def State.placeAll (s : State) (extra : List (Nat × Nat)) : List Nat → Option (List Nat × State)
  | [] => some ([], s)
  | n :: ns =>
    if n = 0 then
      match State.placeAll s extra ns with
      | none => none
      | some (as, s') => some (0 :: as, s')
    else
      match s.place1 extra n with
      | none => none
      | some (a, s1) =>
        match State.placeAll s1 ((a, n) :: extra) ns with
        | none => none
        | some (as, s2) => some (a :: as, s2)

/-! ### Sets and records -/

/-- The sets that the host fills: named by a descriptor and written by nothing (R144, R370). -/
def Program.hostSets (p : Program) : List Nat :=
  let written := p.ops.flatMap p.quantSets ++ p.weightSets
  (((p.descs.flatMap p.sets).filter fun st => !written.contains st).dedup).insertionSort (· ≤ ·)

/-- Records of one statistics set (R157, R252). -/
def Program.nStat (p : Program) : Nat :=
  (p.ops.map fun o => o.writes.length).foldl (· + ·) 0 + p.nLayers
    + ((List.range p.nLayers).map fun l => (p.copiesRead l).length).foldl (· + ·) 0

/-! ### LOAD_PROGRAM -/

def loadBytes (index kind statsAddr nStat nSets dir alloc : Nat) : List Byte :=
  toLe 4 index ++ toLe 1 kind ++ toLe 3 0 ++ toLe 8 statsAddr ++ toLe 4 nStat ++ toLe 2 nSets ++ toLe 2 0 ++ toLe 8 dir
    ++ toLe 8 alloc ++ toLe 8 0

def LoadFail.bytes (f : LoadFail) : List Byte := loadBytes f.index f.kind 0 0 0 0 0

/-- A LOAD_PROGRAM that never reached its image (R362). -/
def loadRefused : List Byte := loadBytes noId 0 0 0 0 0 0

/-- Installs a checked program in an emptied slot. -/
def State.installProgram (s : State) (n : Nat) (p : Program) : Option (State × List Byte) :=
  let sets := p.hostSets
  let stats := 2 * 48 * p.nStat
  let sizes := [stats, 16 * sets.length, 65536 * sets.length, p.poolBytes].map fun k => roundUp k 256
  match s.placeAll ((p.descs.filter fun d => d.role == 1 || d.role == 5).map fun d => (d.addr, p.hostBytes d)) sizes with
  | none => none
  | some (as, s1) =>
    let at' (k : Nat) : Nat := as.getD k 0
    let csets := sets.mapIdx fun i st => (st, at' 2 + 65536 * i, 4096)
    let s2 := s1.modSlot n fun x => { x with
      prog := some p
      allocs := ((List.range 4).map fun k => (⟨0, at' k, sizes.getD k 0⟩ : Alloc)).filter fun (a : Alloc) => a.len != 0
      statsAddr := at' 0
      csetDir := at' 1
      pool := at' 3
      csets := csets
      trackers := List.replicate p.nLayers Tracker.bare
      versions := List.replicate p.nLayers 0
      stale := List.range p.nLayers }
    let s3 := csets.foldl (fun s c => s.writeIo c.2.1 freshSet)
      (s2.writeIo (at' 1) (csets.flatMap fun c => toLe 2 c.1 ++ toLe 6 0 ++ toLe 8 c.2.1))
    let s4 := (List.range p.nLayers).foldl (fun s l => s.event ⟨n, noStep, 0xFFFF⟩ 0x0205 [(2, l), (1, 2)]) s3
    some (s4, loadBytes noId 0 (at' 0) p.nStat sets.length (at' 1) (sizes.foldl (· + ·) 0))

/-- LOAD_PROGRAM once admitted. -/
def cmdLoadProgram (x : Cmd) (s : State) : State :=
  let n := fieldLe x.payload 0 1
  let addr := fieldLe x.payload 8 8
  if n > 3 ∨ ¬ zeroAt x.payload 1 7 then s.complete x.mbx stBAD_PARAM loadRefused
  else
    match s.readProgram x.env addr with
    | (.bad, s) => s.complete x.mbx stBAD_PARAM loadRefused
    | (.bus, s) => s.complete x.mbx stBUS_ERROR loadRefused
    | (.ok (.error f), s) => s.complete x.mbx f.status f.bytes
    | (.ok (.ok p), s) =>
      match (s.emptySlot n).installProgram n p with
      | none => s.complete x.mbx stNO_RESOURCE loadRefused
      | some (s', bytes) => s'.done x bytes

/-! ### LOAD_PLAN -/

/-- A ladder of up to four codes; none when a code follows the end marker (Table 6.5, R164). -/
def ladder (stop : Nat) (bs : List Nat) : Option (List Nat) :=
  let l := bs.takeWhile (· != stop)
  if (bs.drop l.length).all (· == stop) then some l else none

def rising (l : List Nat) : Bool :=
  let w := l.map fun c => match fmtOfCode c with | some f => f.elem.bits | none => 0
  (w.zip (w.drop 1)).all fun q => q.1 ≤ q.2

/-- Entry of a ladder at a rung: a shorter ladder repeats its last entry (R163). -/
def ladderAt (l : List Nat) (r : Nat) : Option Nat := if l.isEmpty then none else some (l.getD (min r (l.length - 1)) 0)

/-- One plan entry, none when a field is out of range (R162, R164). -/
def parsePlanEnt (b : List Byte) : Option PlanEnt := do
  let four (off : Nat) : List Nat := (List.range 4).map fun k => fieldLe b (off + k) 1
  let w ← ladder 0 (four 0)
  let a ← ladder 0 (four 4)
  let g ← ladder 0 (four 8)
  let f ← ladder 0xFF (four 12)
  let arith (c : Nat) : Bool := match fmtOfCode c with | some x => x.elem.arith | none => false
  let dflt (v d : Nat) : Nat := if v = 0 then d else v
  let e : PlanEnt := ⟨w, a, g, f, dflt (fieldLe b 0x10 2) 0x41, fieldLe b 0x12 2, dflt (fieldLe b 0x14 1) 3,
    fieldLe b 0x15 1, dflt (fieldLe b 0x16 1) 2, dflt (fieldLe b 0x17 1) 4⟩
  let same (r : Nat) : Bool := ladderAt w r == ladderAt w (r - 1) && ladderAt a r == ladderAt a (r - 1)
    && ladderAt f r == ladderAt f (r - 1)
  if (w ++ a).all arith && g.all (fun c => [0x08, 0x09, 0x0A, 0x88, 0x89].contains c) && f.all (fun c => decide (c ≤ 2))
      && rising w && rising a && rising g && decide (e.jumpExp ≤ 15) && decide (e.jumpPolicy ≤ 2) && decide (e.calExp ≤ 15)
      && decide (e.hold ≤ 16) && zeroAt b 0x18 8 && ((List.range e.fwdTop).all fun r => !same (r + 1)) then some e
  else none

/-- The format code of a descriptor when each layer stands at a forward rung (R166). -/
def Plan.codeOf (pl : Plan) (p : Program) (rung : Nat → Nat) (d : Desc) : Nat :=
  let pick (l : Nat) (sel : PlanEnt → List Nat) : Nat :=
    match pl.layers[l]? with
    | some e => (ladderAt (sel e) (rung l)).getD d.fmtCode
    | none => d.fmtCode
  if d.role = 1 then (if p.isRoleW d.id then pick (p.owner d.id) (·.w) else d.fmtCode)
  else if p.isRoleA d.id then
    match (p.writer d.id).bind fun j => p.ops[j]? with
    | some q => pick q.layer (·.a)
    | none => d.fmtCode
  else d.fmtCode

/-- Every way to choose a rung for each of some layers. -/
def rungChoices (tops : Nat → Nat) : List Nat → List (List (Nat × Nat))
  | [] => [[]]
  | l :: ls => (List.range (tops l + 1)).flatMap fun r => (rungChoices tops ls).map fun c => (l, r) :: c

/-- One layer at every forward rung, with every rung of the layers that own weights it reads (R164, R445). -/
def Plan.layerOk (pl : Plan) (p : Program) (l : Nat) : Bool :=
  let top (k : Nat) : Nat := match pl.layers[k]? with | some e => e.fwdTop | none => 0
  let mine := p.ops.filter fun o => o.layer == l
  let hasW := (p.owned l).any fun d => p.isRoleW d.id
  let hasA := mine.any fun o => o.outs.any p.isRoleA
  (match pl.layers[l]? with
    | some e => (e.w.isEmpty || hasW) && (e.a.isEmpty || hasA)
    | none => false) &&
  (List.range (top l + 1)).all fun r => mine.all fun o =>
    let foreign := (((o.ins.filter fun d => p.weights.any fun w => w.id == d).map p.owner).filter (· != l)).dedup
    (rungChoices top foreign).all fun c =>
      let rung (k : Nat) : Nat := if k = l then r else ((c.find? fun q => q.1 == k).map (·.2)).getD 0
      let p' : Program := { p with descs := p.descs.map fun (d : Desc) => { d with fmtCode := pl.codeOf p rung d } }
      p'.recOk true o && ((o.ins ++ o.outs).filterMap p'.desc).all fun d =>
        descFmtOk d && (!(d.isB32 && d.role != 1) || (match p'.desc d.scaleId with | some sc => scaleOk d sc | none => false))

/-- The formats of a ladder. -/
def ladderFmts (l : List Nat) : List Fmt := l.filterMap fmtOfCode

/-- The widest size of a buffer over formats, less what the program's allocation gives it (R176). -/
def growth (fs : List Fmt) (size : Fmt → Nat) (have' : Nat) : Nat := (fs.map size).foldl max 0 - have'

/-- The layer that writes an A role's tensor. -/
def Program.layerOfA (p : Program) (d : Nat) : Option Nat := ((p.writer d).bind fun j => p.ops[j]?).map OpRec.layer

/-- The parts that the entry of one layer adds (R176): second forward-copy areas, and the growth of A and G buffers and of the
buffers derived from them. A kept copy of an A buffer grows where a rung keeps its operand as it is (R212). -/
def PlanEnt.parts (e : PlanEnt) (p : Program) (l : Nat) : List MemPart :=
  let bf : Fmt := ⟨.bf16, false⟩
  let areas := ((p.owned l).filter fun d => p.isRoleW d.id && !e.w.isEmpty).flatMap fun d => p.copyParts d 1 (ladderFmts e.w)
  let as := (p.descs.filter fun d => p.isRoleA d.id && p.layerOfA d.id == some l).flatMap fun d =>
    twoHalves .tensor d.id (growth (ladderFmts e.a) (p.dataBytes d) (p.dataBytes d d.fmtD))
      ++ twoHalves .sums d.id (growth (ladderFmts e.a) (fun f => sumsBytes f (p.maxShape d) d.bdim) (sumsBytes d.fmtD (p.maxShape d) d.bdim))
      ++ (if keptCopy d then twoHalves .kept d.id (growth (if e.a.contains 0x0B then [⟨.fp32, false⟩] else [])
          (fun f => storedBytes f (p.maxShape d) 0) (storedBytes bf (p.maxShape d) 0)) else [])
  let gs := (p.ops.filter fun o => o.layer == l && o.readsDy && p.onGraph o).flatMap fun o => match o.outs.head?.bind p.desc with
    | none => []
    | some y =>
      let (a, b) := p.dyShapes o y
      twoHalves .dyA y.id (growth (ladderFmts e.g) (fun f => dyBytes f a) (dyBytes bf a))
        ++ twoHalves .dyB y.id (growth (ladderFmts e.g) (fun f => dyBytes f b) (dyBytes bf b))
  (areas ++ as ++ gs).filter fun q => q.len != 0

/-- The parts that a plan adds to the program's own (R176). -/
def Plan.parts (pl : Plan) (p : Program) : List MemPart := (pl.layers.mapIdx fun l e => e.parts p l).flatten

/-- The memory that a plan adds (R176). -/
def Plan.reserve (pl : Plan) (p : Program) : Nat := partsBytes (pl.parts p)

/-- Tracker entries at LOAD_PLAN: layer L to T_(L mod n), at most 64 to a share (R160). -/
def State.shareEntries (s : State) (n nLayers : Nat) : Option State :=
  let s0 := { s with towers := s.towers.map fun (t : Tower) => { t with entries := t.entries.filter fun e => e.1 != n } }
  let ts := (List.range 324).filter fun t => (s0.tower t).inService
  if nLayers > 64 * ts.length then none
  else
    let s1 := (List.range nLayers).foldl (fun (s : State) l =>
      s.modTower (ts.getD (l % ts.length) 0) fun t => { t with entries := t.entries ++ [(n, l)] }) s0
    if s1.towers.any fun t => decide (t.entries.length > 64) then none else some s1

def parsePlan (p : Program) (b : List Byte) : Option Plan := do
  let es ← cutAll 32 parsePlanEnt p.nLayers (b.drop 32)
  let pl : Plan := ⟨fieldLe b 4 4, fieldLe b 8 1 == 1, es⟩
  if fieldLe b 0 2 = 0x0100 ∧ fieldLe b 2 2 = p.nLayers ∧ fieldLe b 8 1 ≤ 1 ∧ zeroAt b 9 23
      ∧ (List.range p.nLayers).all (pl.layerOk p) then some pl
  else none

/-- LOAD_PLAN once admitted. -/
def cmdLoadPlan (x : Cmd) (s : State) : State :=
  let n := fieldLe x.payload 0 1
  match (if n > 3 ∨ ¬ zeroAt x.payload 1 7 then none else (s.slot n).prog) with
  | none => s.refuse x stBAD_PARAM 8
  | some p =>
    match Img.andThen (s.imgRead x.env (fieldLe x.payload 8 8) 0 32) fun h s =>
        if fieldLe h 0 2 ≠ 0x0100 ∨ fieldLe h 2 2 ≠ p.nLayers then (.bad, s)
        else s.imgRead x.env (fieldLe x.payload 8 8) 0 (32 + 32 * p.nLayers) with
    | (.bad, s) => s.refuse x stBAD_PARAM 8
    | (.bus, s) => s.refuse x stBUS_ERROR 8
    | (.ok b, s) =>
      match parsePlan p b with
      | none => s.refuse x stBAD_PARAM 8
      | some pl =>
        let size := pl.reserve p
        let free := s.modSlot n fun y => { y with allocs := y.allocs.filter fun (a : Alloc) => a.kind != 1 }
        match free.placeAll [] [size], free.shareEntries n p.nLayers with
        | some (as, s1), some s2 =>
          let s3 := ({ s2 with freeCtr := s1.freeCtr }).modSlot n fun y => { y with
            plan := some pl
            reserve := as.headD 0
            trackers := pl.layers.map Tracker.cold
            widenLeft := 0, stormChain := false, stormHalt := false
            stale := List.range p.nLayers
            allocs := y.allocs ++ (if size = 0 then ([] : List Alloc) else [⟨1, as.headD 0, size⟩]) }
          let s4 := (List.range p.nLayers).foldl (fun s l => s.event ⟨n, noStep, 0xFFFF⟩ 0x0205 [(2, l), (1, 1)]) s3
          s4.done x (toLe 8 size)
        | _, _ => s.refuse x stNO_RESOURCE 8

/-! ### LOAD_COEFF -/

def f32nonneg (w : Word) : Bool := f32isFin w && !(f32lt w 0)

/-- One coefficient entry (Table 9.2, R234). -/
def parseCoeff (b : List Byte) : Option Coeff :=
  let f (off : Nat) : Word := BitVec.ofNat 32 (fieldLe b off 4)
  let c : Coeff := ⟨f 0, f 4, f 8, f 0xC, f 0x10, f 0x14, f 0x18, f 0x1C, f 0x20, f 0x24, fieldLe b 0x28 4⟩
  let sel := c.flags / 4 % 4
  let adapt := bitOf c.flags 5
  let beta (w : Word) : Bool := f32nonneg w && f32lt w f32one
  if beta c.beta1 && beta c.beta2 && f32nonneg c.eps1 && f32nonneg c.eps2 && f32nonneg c.d && f32isFin c.a0 && f32isFin c.a1
      && f32isFin c.a2 && f32nonneg c.lambda && f32nonneg c.floor && decide (c.flags < 64) && zeroAt b 0x2C 20
      && sel != 3 && !(sel == 0 && !f32isZero c.a1) && !((!f32isZero c.a2 || sel == 2) && !adapt) then some c
  else none

def parseWeightRec (nEnt : Nat) (b : List Byte) : Option WeightRec :=
  let w : WeightRec := ⟨fieldLe b 0 4, fieldLe b 4 2, fieldLe b 6 1 == 1, fieldLe b 8 8⟩
  if w.entry < nEnt ∧ fieldLe b 6 1 ≤ 1 ∧ zeroAt b 7 1 ∧ w.maskAddr % 256 = 0 ∧ w.maskAddr < devEnd then some w else none

/-- Rows m and columns n of a weight (R236). -/
def Program.rowsCols (p : Program) (d : Desc) : Nat × Nat :=
  let shape := p.maxShape d
  if d.rank ≤ 1 then (1, prod shape) else (prod (shape.take (d.rank - 1)), shape.getD (d.rank - 1) 1)

/-- LAYOUT of Table 9.6 (R237). -/
def Coeff.layout (c : Coeff) (m : Nat) : Nat :=
  let adapt := bitOf c.flags 5
  let fac := adapt && bitOf c.flags 0 && decide (1 < m)
  let mom := c.flags / 4 % 4 != 0
  putBit fac 0 + putBit (adapt && !fac) 1 + putBit mom 2 + putBit (mom && bitOf c.flags 4) 3

/-- Bytes of M, of r or v, and of c. -/
def stateLens (layout m n : Nat) : List Nat :=
  [if bitOf layout 2 then (if bitOf layout 3 then 2 else 4) * m * n else 0,
   if bitOf layout 0 then 4 * m else if bitOf layout 1 then 4 * m * n else 0,
   if bitOf layout 0 then 4 * n else 0]

/-- The extents that they take, in whole units of 256 bytes. -/
def stateSizes (layout m n : Nat) : List Nat := (stateLens layout m n).map fun k => roundUp k 256

/-- Bytes of state that the weights keep (R238). -/
def stateTotal (l : List OptState) : Nat := ((l.flatMap fun o => stateLens o.layout o.rows o.cols)).foldl (· + ·) 0

/-- The table as installed, from a checked image. -/
def parseCoeffs (p : Program) (nE : Nat) (b : List Byte) : Option (List Coeff × List WeightRec) := do
  let es ← cutAll 64 parseCoeff nE (b.drop 32)
  let ws ← cutAll 16 (parseWeightRec nE) p.weights.length (b.drop (32 + 64 * nE))
  let ids := (p.weights.map (·.id)).insertionSort (· ≤ ·)
  let agree := ws.all fun a => ws.all fun c =>
    p.owner a.desc != p.owner c.desc || (a.entry == c.entry && a.frozen == c.frozen)
  if ws.map (·.desc) = ids ∧ agree then some (es, ws) else none

/-- The extents of the state that a new table keeps: those of the weights whose LAYOUT stands (R239). -/
def State.keptState (s : State) (p : Program) (n : Nat) (es : List Coeff) (ws : List WeightRec) : List (Nat × Nat) :=
  ws.flatMap fun w => match p.desc w.desc, es[w.entry]? with
    | some d, some e =>
      let (m, c) := p.rowsCols d
      match (s.slot n).opt.find? fun o => o.desc == w.desc && o.layout == e.layout m with
      | some o => ([o.mAddr, o.sAddr, o.cAddr].zip (stateSizes o.layout m c)).filter fun q => q.2 != 0
      | none => []
    | _, _ => []

/-- The state of one weight under a new table: kept when its LAYOUT stands, else new and zero (R239), away from what is kept. -/
def State.newState (s : State) (p : Program) (n : Nat) (es : List Coeff) (kept : List (Nat × Nat)) (w : WeightRec)
    (made : List Alloc) : Option (OptState × List Alloc × State) := do
  let d ← p.desc w.desc
  let e ← es[w.entry]?
  let (m, c) := p.rowsCols d
  let lay := e.layout m
  match (s.slot n).opt.find? fun o => o.desc == w.desc && o.layout == lay with
  | some o =>
    let keep := [o.mAddr, o.sAddr, o.cAddr].zip (stateSizes lay m c)
    some ({ o with entry := w.entry }, made ++ (keep.filter fun q => q.2 != 0).map (fun (q : Nat × Nat) => (⟨2, q.1, q.2⟩ : Alloc)), s)
  | none =>
    let sizes := stateSizes lay m c
    let (as, s1) ← s.placeAll (kept ++ made.map fun a => (a.addr, a.len)) sizes
    let new := ((as.zip sizes).filter fun q => q.2 != 0).map fun q => (⟨2, q.1, q.2⟩ : Alloc)
    let s2 := new.foldl (fun s (a : Alloc) => s.writeIo a.addr (List.replicate a.len 0)) s1
    some (⟨w.desc, w.entry, lay, m, c, as.getD 0 0, as.getD 1 0, as.getD 2 0⟩, made ++ new, s2)

def State.newStates (s : State) (p : Program) (n : Nat) (es : List Coeff) (kept : List (Nat × Nat)) :
    List WeightRec → List Alloc → Option (List OptState × List Alloc × State)
  | [], made => some ([], made, s)
  | w :: ws, made =>
    match s.newState p n es kept w made with
    | none => none
    | some (o, made1, s1) =>
      match State.newStates s1 p n es kept ws made1 with
      | none => none
      | some (os, made2, s2) => some (o :: os, made2, s2)

/-- A directory record (Table 9.6). -/
def OptState.bytes (o : OptState) : List Byte :=
  toLe 4 o.desc ++ toLe 2 o.entry ++ toLe 2 o.layout ++ toLe 4 o.rows ++ toLe 4 o.cols ++ toLe 8 o.mAddr ++ toLe 8 o.sAddr
    ++ toLe 8 o.cAddr ++ toLe 8 0

/-- LOAD_COEFF once admitted. -/
def cmdLoadCoeff (x : Cmd) (s : State) : State :=
  let n := fieldLe x.payload 0 1
  let addr := fieldLe x.payload 8 8
  match (if n > 3 ∨ ¬ zeroAt x.payload 1 7 then none else (s.slot n).prog) with
  | none => s.refuse x stBAD_PARAM 16
  | some p =>
    match Img.andThen (s.imgRead x.env addr 0 32) fun h s =>
        let nE := fieldLe h 2 2
        if fieldLe h 0 2 ≠ 0x0100 ∨ nE < 1 ∨ nE > 256 ∨ fieldLe h 4 4 ≠ p.weights.length ∨ ¬ zeroAt h 8 24 then (.bad, s)
        else Img.andThen (s.imgRead x.env addr 0 (32 + 64 * nE + 16 * p.weights.length)) fun b s => (.ok (nE, b), s) with
    | (.bad, s) => s.refuse x stBAD_PARAM 16
    | (.bus, s) => s.refuse x stBUS_ERROR 16
    | (.ok (nE, b), s) =>
      match parseCoeffs p nE b with
      | none => s.refuse x stBAD_PARAM 16
      | some (es, ws) =>
        let dirLen := roundUp (48 * ws.length) 256
        let oldDir := ((s.slot n).allocs.find? fun a => a.kind == 3 && a.len == dirLen).map (·.addr)
        let kept := s.keptState p n es ws ++ (match oldDir with | some a => [(a, dirLen)] | none => [])
        -- the old state and directory no longer take room, but for what the new table keeps (R238)
        let free := s.modSlot n fun y => { y with allocs := y.allocs.filter fun (a : Alloc) => a.kind != 2 && a.kind != 3 }
        match free.newStates p n es kept ws [] with
        | none => s.refuse x stNO_RESOURCE 16
        | some (os, made, s1) =>
          match (match oldDir with
              | some a => some (a, s1)
              | none => (s1.placeAll (kept ++ made.map fun (a : Alloc) => (a.addr, a.len)) [dirLen]).map
                  fun (q : List Nat × State) => (q.1.headD 0, q.2)) with
          | none => s.refuse x stNO_RESOURCE 16
          | some (dir, s2) =>
            let s3 := s2.writeIo dir (os.flatMap OptState.bytes)
            let made := made ++ (if dirLen = 0 then ([] : List Alloc) else [⟨3, dir, dirLen⟩])
            let s4 := s3.modSlot n fun y => { y with
              coeff := some ⟨es, ws, dir⟩
              opt := os
              allocs := y.allocs.filter (fun (a : Alloc) => a.kind != 2 && a.kind != 3) ++ made }
            s4.done x (toLe 8 dir ++ toLe 8 (stateTotal os + 48 * ws.length))

/-! ### Trackers -/

def RoleHist.bytes (r : RoleHist) : List Byte :=
  (List.range 16).flatMap (fun i => toLe 4 (r.hist.getD i 0).toNat) ++ toLe 4 (r.e.getD f32nan).toNat ++ toLe 1 r.count
    ++ toLe 1 r.head ++ toLe 2 0

/-- The entry of one layer (Table 6.10). -/
def Tracker.bytes (t : Tracker) : List Byte :=
  toLe 1 t.rf ++ toLe 1 t.rg ++ toLe 1 t.cleanF ++ toLe 1 t.cleanG ++ toLe 1 t.coldLeft ++ toLe 1 (if t.fellBack then 1 else 0)
    ++ List.replicate 26 0 ++ (List.range 4).flatMap fun i => (t.roles.getD i RoleHist.empty).bytes

/-- A tracker image (Table 6.9) with its CHECK. -/
def Slot.trackerImage (x : Slot) (pl : Plan) : List Byte :=
  let head (check : Nat) : List Byte :=
    toLe 2 0x0100 ++ toLe 2 pl.layers.length ++ toLe 4 pl.tag ++ toLe 1 x.widenLeft ++ toLe 1 (if x.stormChain then 1 else 0)
      ++ toLe 2 0 ++ toLe 4 check ++ List.replicate 48 0
  let body := x.trackers.flatMap Tracker.bytes
  head (crc32 (head 0 ++ body)) ++ body

def parseRole (b : List Byte) : RoleHist :=
  let e : Word := BitVec.ofNat 32 (fieldLe b 0x40 4)
  ⟨(List.range 16).map fun i => BitVec.ofNat 32 (fieldLe b (4 * i) 4), if e = f32nan then none else some e, fieldLe b 0x44 1,
    fieldLe b 0x45 1⟩

/-- One entry; none when a rung lies beyond its ladder or a reserved byte is not zero. -/
def parseTracker (pe : PlanEnt) (b : List Byte) : Option Tracker :=
  let t : Tracker := ⟨fieldLe b 0 1, fieldLe b 1 1, fieldLe b 2 1, fieldLe b 3 1, fieldLe b 4 1, fieldLe b 5 1 == 1,
    (List.range 4).map fun i => parseRole (sliceB b (0x20 + 72 * i) 72)⟩
  if t.rf ≤ pe.fwdTop ∧ t.rg ≤ pe.gradTop ∧ fieldLe b 5 1 ≤ 1 ∧ zeroAt b 6 26
      ∧ (List.range 4).all fun i => zeroAt b (0x20 + 72 * i + 0x46) 2 then some t
  else none

def parseTrackers : List PlanEnt → List Byte → Option (List Tracker)
  | [], _ => some []
  | pe :: r, bs => do
    let t ← parseTracker pe (bs.take 320)
    let ts ← parseTrackers r (bs.drop 320)
    return t :: ts

/-- LOAD_TRACKERS once admitted. -/
def cmdLoadTrackers (x : Cmd) (s : State) : State :=
  let n := fieldLe x.payload 0 1
  match (if n > 3 ∨ ¬ zeroAt x.payload 1 7 then none else (s.slot n).plan) with
  | none => s.refuse x stBAD_PARAM 0
  | some pl =>
    let len := 64 + 320 * pl.layers.length
    match Img.andThen (s.imgRead x.env (fieldLe x.payload 8 8) 0 64) fun h s =>
        if fieldLe h 0 2 ≠ 0x0100 ∨ fieldLe h 2 2 ≠ pl.layers.length then (.bad, s)
        else s.imgRead x.env (fieldLe x.payload 8 8) 0 len with
    | (.bad, s) => s.refuse x stBAD_PARAM 0
    | (.bus, s) => s.refuse x stBUS_ERROR 0
    | (.ok b, s) =>
      let sum := crc32 (b.take 12 ++ [0, 0, 0, 0] ++ b.drop 16)
      match parseTrackers pl.layers (b.drop 64) with
      | none => s.refuse x stBAD_PARAM 0
      | some ts =>
        if fieldLe b 4 4 ≠ pl.tag ∨ fieldLe b 0xC 4 ≠ sum ∨ ¬ zeroAt b 0xA 2 ∨ ¬ zeroAt b 0x10 48 then s.refuse x stBAD_PARAM 0
        else
          (s.modSlot n fun y => { y with
            trackers := ts
            widenLeft := fieldLe b 8 1
            stormChain := fieldLe b 9 1 == 1
            stale := List.range pl.layers.length }).done x []

/-- SAVE_TRACKERS once admitted. -/
def cmdSaveTrackers (x : Cmd) (s : State) : State :=
  let n := fieldLe x.payload 0 1
  let dst := fieldLe x.payload 8 8
  match (if n > 3 ∨ ¬ zeroAt x.payload 1 7 then none else (s.slot n).plan) with
  | none => s.refuse x stBAD_PARAM 16
  | some pl =>
    let y := s.slot n
    let len := 64 + 320 * pl.layers.length
    if dst + len > devEnd ∨ s.allocs.any (fun a => a.hits dst len) ∨ s.ringHits dst len
        ∨ s.mem.touchesRetired dst len ∨ (s.landing ∧ overlaps landBase (devEnd - landBase) dst len) then
      s.refuse x stBAD_PARAM 16
    else
      (s.writeIo dst (y.trackerImage pl)).done x (toLe 4 len ++ toLe 4 0 ++ toLe 8 (y.commitStep.getD noStep).toNat)

/-! ### Hints and the step size -/

/-- One hint applied to the hints of a slot (R75, Table 14.9); none when its payload is refused. -/
def applyHint (p : Program) (hs : List Hint) (kind i a0 a1 : Nat) : Option (List Hint) :=
  let rest := hs.filter fun h => h.record != i
  if i ≥ p.ops.length then none
  else
    match kind with
    | 0 => if 0 < a0 ∧ a0 < 16 ∧ a1 = 0 then some (rest ++ [⟨i, 0, a0, 0, false⟩]) else none
    | 1 => if 1 ≤ a1 ∧ a0 + a1 ≤ 324 then some (rest ++ [⟨i, 1, a0, a1, false⟩]) else none
    | 2 =>
      match hs.find? fun h => h.record == i && decide (h.kind ≤ 1) with
      | some h => if a0 = 0 ∧ a1 = 0 then some (rest ++ [{ h with pin := true }]) else none
      | none => none
    | 3 => if a0 < p.ops.length ∧ a0 ≠ i ∧ a1 = 0 then some (rest ++ [⟨i, 3, a0, 0, false⟩]) else none
    | 4 => if a0 = 0 ∧ a1 = 0 then some rest else none
    | _ => none

/-- PLACE_HINT once admitted. -/
def cmdPlaceHint (x : Cmd) (s : State) : State :=
  let n := fieldLe x.payload 0 1
  match (if n > 3 ∨ ¬ zeroAt x.payload 2 2 then none else (s.slot n).prog) with
  | none => s.refuse x stBAD_PARAM 0
  | some p =>
    match applyHint p (s.slot n).hints (fieldLe x.payload 1 1) (fieldLe x.payload 4 4) (fieldLe x.payload 8 4)
        (fieldLe x.payload 12 4) with
    | none => s.refuse x stBAD_PARAM 0
    | some hs => (s.modSlot n fun y => { y with hints := hs, rebind := true }).done x []

/-- SET_STEP_SIZE once admitted. -/
def cmdSetStepSize (x : Cmd) (s : State) : State :=
  let n := fieldLe x.payload 0 1
  let eta : Word := BitVec.ofNat 32 (fieldLe x.payload 4 4)
  if n > 3 ∨ ¬ zeroAt x.payload 1 3 ∨ (s.slot n).prog.isNone ∨ ¬ f32nonneg eta then s.refuse x stBAD_PARAM 0
  else (s.modSlot n fun y => { y with eta := some eta }).done x []

end Sys2Proof.Machine
end

