-- ==== Sys2Proof/Machine/Tensors.lean ====
section
/-!
DEFINITION. How operations read tensors: from device memory in the layout of their descriptors (R46, R76 to R78, R136), host
tensors at their addresses, activations and forward copies in the parts of Layout; channel entries (R48, R92, R145); the rung in
force (R166); the requantization of a forward copy into its area (R128, R176, R251, R424); what a record writes to memory; and rows
with their lane-order sums (R55).
-/
namespace Sys2Proof.Machine

open Sys2Proof

/-! ### Extents and storage -/

/-- The extents of a descriptor for one micro-batch (R48, R51). -/
def Program.resolve (p : Program) (vars : List Nat) (d : Desc) : List Nat := p.extents (fun e => vars.getD (e - varBase) 0) d

/-- The pieces that hold a part: its place in the program's allocation, or in an affine region when it has moved there (R194), and behind it its
growth in the plan's reservation (R176). -/
def Slot.pieces (x : Slot) (kind : PartKind) (id half : Nat) : List (Nat × Nat) :=
  let away : Option Nat := if kind = .tensor then (x.moved.find? fun q => q.1 == id && q.2.1 == half).map fun q => q.2.2 else none
  let own := match x.prog.bind fun p => partAt kind id half 0 p.parts with
    | some (off, n) => [(away.getD (x.pool + off), n)]
    | none => []
  let more := match x.prog, x.plan with
    | some p, some pl => match partAt kind id half 0 (pl.parts p) with
      | some (off, n) => [(x.reserve + off, n)]
      | none => []
    | _, _ => []
  own ++ more

/-- Bytes of a part as the block reads them. -/
def State.partBytes (s : State) (x : Slot) (kind : PartKind) (id half : Nat) : List Byte :=
  memPieces s.mem.view (x.pieces kind id half)

def State.writePart (s : State) (x : Slot) (kind : PartKind) (id half : Nat) (bs : List Byte) : State :=
  s.writePieces (takePieces bs.length (x.pieces kind id half)) bs

/-- A host tensor in device memory: its own bytes at `base`, its scales at `sbase` (R77, R78, R136). -/
def readTensor (m : Memory) (d : Desc) (sc : Option Desc) (shape : List Nat) (base sbase : Nat) : Tensor :=
  let f := d.fmtD
  let scale := match (if f.b32 then sc else none) with
    | none => []
    | some s => memRead m (sbase + s.addr) (scalesBytes f shape d.bdim d.budget)
  decodeTensor d f sc shape (memRead m (base + d.addr) (storedBytes f shape d.bdim)) scale

/-- The master copy of a weight at VMAX as FP32 words (R50, R51). -/
def State.master (s : State) (d : Desc) (shape : List Nat) : List Word :=
  let b := memRead s.mem.view d.addr (2 * prod shape)
  (List.range (prod shape)).map fun i => BitVec.ofNat 32 (codeIn b .bf16 (storeIdx d shape (unravel shape i)) * 65536)

/-- One channel entry in device memory (Table 3.6). -/
def readEntry (m : Memory) (a : Nat) : ChanEnt :=
  let b := memRead m a 16
  ⟨BitVec.ofNat 32 (fieldLe b 0 4), fieldLe b 4 1, fieldLe b 5 1 % 2 == 1, BitVec.ofNat 32 (fieldLe b 8 4)⟩

/-! ### The step as its records see it -/

/-- What a record of a step runs with: its slot, program, step and micro-batch. -/
structure Ctx where
  s : State
  x : Slot
  p : Program
  st : Step
  mb : Nat

def Ctx.vars (c : Ctx) : List Nat := (c.st.mbs.getD c.mb ⟨0, []⟩).vars
def Ctx.base (c : Ctx) : Nat := (c.st.mbs.getD c.mb ⟨0, []⟩).base
def Ctx.shape (c : Ctx) (d : Desc) : List Nat := c.p.resolve c.vars d

def LayerRung.zero : LayerRung := ⟨0, 0, 0, 0, false, false, false, false⟩
def Step.rung (st : Step) (l : Nat) : LayerRung := st.rungs.getD l LayerRung.zero

/-- The forward copy of a weight in use: the newest. -/
def Slot.copyOf (x : Slot) (id : Nat) : Option FwdCopy := x.copies.find? fun k => k.desc == id

/-- The forward copy that an operation reads which runs in a format: a rung that has widened meanwhile has left the copy of its own rung
in the other area (R33, R152, R176). -/
def Slot.copyIn (x : Slot) (id : Nat) (f : Fmt) : Option FwdCopy :=
  (x.copies.find? fun k => k.desc == id && k.fmt == f).or (x.copyOf id)

/-- The format in force of a descriptor (R50, R166). -/
def Slot.fmtAt (x : Slot) (p : Program) (rf : Nat → Nat) (d : Desc) : Fmt :=
  match x.plan with
  | none => d.fmtD
  | some pl => (fmtOfCode (pl.codeOf p rf d)).getD d.fmtD

def Ctx.fmt (c : Ctx) (d : Desc) : Fmt := c.x.fmtAt c.p (fun l => (c.st.rung l).rf) d

def Ctx.heldOf (c : Ctx) (id : Nat) : Option Held := c.st.held.find? fun h => h.desc == id && h.mb == c.mb

/-- The half of a part that a micro-batch uses: its parity (R207; log 76). -/
def halfOf (mb : Nat) : Nat := mb % 2

/-- Where a channel-scale set lies: a QUANTIZE record's in the half of its micro-batch, a WEIGHT's, or the host's (R144, R145). -/
def Ctx.setAddr (c : Ctx) (set : Nat) : Nat :=
  let half := if c.p.ops.any fun o => (c.p.quantSets o).contains set then halfOf c.mb else 0
  match c.x.csets.find? fun q => q.1 == set with
  | some q => q.2.1
  | none => ((c.x.pieces .chan set half).headD (0, 0)).1

/-- Entry `k` of a channel-scale set (R48, R91). -/
def Ctx.entryOf (c : Ctx) (set k : Nat) : ChanEnt := readEntry c.s.mem.view (c.setAddr set + 16 * k)

/-- Host data lies at the micro-batch base, a CONSTANT at its address (Table 2.5). -/
def Ctx.baseOf (c : Ctx) (d : Desc) : Nat := if d.role = 5 then 0 else c.base

/-- A tensor that a record has written in this step (R190). -/
def Ctx.written (c : Ctx) (d : Desc) (h : Held) : Tensor :=
  match h.ring with
  | some t => t
  | none =>
    let sc := c.p.desc d.scaleId
    decodeTensor d h.fmt sc (c.shape d) (c.s.partBytes c.x .tensor d.id (halfOf c.mb))
      (match sc with | some z => c.s.partBytes c.x .tensor z.id (halfOf c.mb) | none => [])

/-- The scale descriptor that a forward copy's blocks follow: its own logical order (log 76). -/
def Desc.copyScale (d : Desc) : Desc := { d with tileOuter := 0, tileInner := 0 }

/-- A forward copy at VMAX as it lies in its area (R50, R176). -/
def State.copyTensor (s : State) (x : Slot) (d : Desc) (shape : List Nat) (k : FwdCopy) : Tensor :=
  decodeTensor d k.fmt (some d.copyScale) shape (memPieces s.mem.view ((x.pieces .copy d.id k.area).take 1))
    (memPieces s.mem.view ((x.pieces .copyScale d.id k.area).take 1))

/-- The tensor of a descriptor. -/
def Ctx.tensor (c : Ctx) (d : Desc) : Tensor :=
  if d.role = 1 then
    match c.x.copyIn d.id (c.fmt d) with
    | some k => (c.s.copyTensor c.x d (c.p.maxShape d) k).within d.bdim (c.shape d)
    | none => ⟨d.fmtD, c.shape d, [], [], []⟩
  else if d.role = 2 then ((c.heldOf d.id).map (c.written d)).getD ⟨d.fmtD, c.shape d, [], [], []⟩
  else
    let sc := c.p.desc d.scaleId
    readTensor c.s.mem.view d sc (c.shape d) (c.baseOf d) (match sc with | some z => c.baseOf z | none => 0)

/-- A descriptor as an operand. -/
def Ctx.view (c : Ctx) (d : Desc) : View :=
  let t := c.tensor d
  ⟨t, d.bdim,
    if d.hasCset then some (d.cdim, (List.range (t.shape.getD d.cdim 0)).map fun k => c.entryOf (d.cset + k / 4096) (k % 4096))
    else none,
    d.zpMode == 1⟩

def Ctx.viewOf (c : Ctx) (id : Nat) : View :=
  match c.p.desc id with
  | some d => c.view d
  | none => ⟨⟨⟨.fp32, false⟩, [], [], [], []⟩, 0, none, false⟩

/-! ### Writing -/

/-- The channel entries that a writer leaves, set by set, in a half (R91, R144). -/
def State.writeSets (s : State) (x : Slot) (cset half : Nat) (es : List ChanEnt) : State :=
  (List.range (ceilDiv es.length 4096)).foldl (fun s k =>
    s.writePart x .chan (cset + k) half (((es.drop (4096 * k)).take 4096).flatMap ChanEnt.bytes)) s

/-- A tensor that a record writes reaches device memory: codes in storage order with zero padding, the block scales with the outlier slots
behind them, group sums, channel entries (R76 to R78, R136, R144, R148). -/
def State.writeTensor (s : State) (x : Slot) (p : Program) (d : Desc) (half : Nat) (t : Tensor) (chan : List ChanEnt) : State :=
  let s1 := s.writePart x .tensor d.id half (t.dataBytes d)
  let s2 := match p.desc d.scaleId with
    | some z => if t.fmt.b32 then s1.writePart x .tensor z.id half (t.scaleBytes z d.bdim d.budget) else s1
    | none => s1
  let s3 := if t.fmt.b32 || t.fmt.elem == .u8 then s2.writePart x .sums d.id half (t.sumBytes d.bdim) else s2
  if d.hasCset then s3.writeSets x d.cset half chan else s3

/-! ### Forward copies -/

/-- Parameters of a forward-copy requantization: RNE, the default clip (R128, R251). -/
def copyPar (d : Desc) (f : Fmt) : QPar :=
  ⟨f, d.bdim, if d.hasCset then some d.cdim else none, d.zpMode == 1, d.rotCode, d.rotSeed, if f.b32 then d.budget else 0,
    .fin false 3 0, .rne, 0, d.id, 0⟩

/-- The statistics of a new forward copy (R252). -/
def copyStats (d : Desc) (q : QRes) (ws : List Word) : Stats :=
  let v : View := ⟨q.t, d.bdim, if d.hasCset then some (d.cdim, q.chan) else none, d.zpMode == 1⟩
  statsOf v q.sats q.nonfin 0 q.ovf (ws.all f32isFin)

/-- A new copy comes first. It replaces what its area held, and where the master is new (`keep` false) the copy in the other area too. -/
def Slot.putCopy (x : Slot) (c : FwdCopy) (keep : Bool) : Slot :=
  { x with copies := c :: x.copies.filter fun k => k.desc != c.desc || (keep && k.area != c.area) }

/-- Does a format fit the area `k` of a weight (R176)? -/
def Slot.fits (x : Slot) (d : Desc) (f : Fmt) (shape : List Nat) (k : Nat) : Bool :=
  match x.pieces .copy d.id k with
  | [] => false
  | q :: _ => decide (storedBytes f shape d.bdim ≤ q.2)

/-- The area for a new copy of a weight: the one in use, or the other one when `swap` (R173, R176, R252), and one that it fits
(log 76). -/
def Slot.areaFor (x : Slot) (d : Desc) (f : Fmt) (shape : List Nat) (swap : Bool) : Nat :=
  let now := match x.copyOf d.id with | some k => k.area | none => 0
  let want := if swap then 1 - now else now
  if x.fits d f shape want then want else 1 - want

/-- A forward copy is made from the master copy as it stands, into an area of device memory, with its scales, outlier slots, group
sums and channel entries (R148, R176, R251, R252). -/
def State.makeCopy (s : State) (n : Nat) (p : Program) (d : Desc) (f : Fmt) (swap : Bool) : State :=
  let x := s.slot n
  let shape := p.maxShape d
  let ws := s.master d shape
  let q := quantize (copyPar d f) shape ws
  let k := x.areaFor d f shape swap
  let at' (kind : PartKind) : List (Nat × Nat) := (x.pieces kind d.id k).take 1
  let put (s : State) (kind : PartKind) (bs : List Byte) : State := s.writePieces (takePieces bs.length (at' kind)) bs
  let s1 := put s .copy (q.t.dataBytes d)
  let s2 := if f.b32 then put s1 .copyScale (q.t.scaleBytes d.copyScale d.bdim d.budget) else s1
  let s3 := put s2 .copySums (q.t.sumBytes d.bdim)
  let s4 := if d.hasCset then s3.writeSets x d.cset 0 q.chan else s3
  s4.modSlot n fun y => y.putCopy ⟨d.id, f, k, copyStats d q ws⟩ swap

/-- The weights of a layer of which a new copy is made: their master copies are read (R173, R251). -/
def Slot.toCopy (x : Slot) (p : Program) (l : Nat) (rf : Nat → Nat) (all : Bool) : List Desc :=
  (p.owned l).filter fun d => all || !x.copies.any fun k => k.desc == d.id && k.fmt == x.fmtAt p rf d

/-- The forward copies of a layer's weights in the formats of a rung; one that stands in the format already is used as it is unless
`all` (R173, R251, R424). -/
def State.copyLayer (s : State) (n : Nat) (p : Program) (l : Nat) (rf : Nat → Nat) (all swap : Bool) : State :=
  (p.owned l).foldl (fun s d =>
    let x := s.slot n
    let f := x.fmtAt p rf d
    match (if all then none else x.copies.find? fun k => k.desc == d.id && k.fmt == f) with
    | some k => s.modSlot n fun y => { y with copies := k :: y.copies.filter (· != k) }
    | none => s.makeCopy n p d f swap) s

/-! ### Rows -/

/-- The elements of a row that fall in lane `j` of 64 (R55). -/
def lanePick (ws : List Word) (j : Nat) : List Word :=
  (List.range ((ws.length + 63 - j) / 64)).map fun k => ws.getD (j + 64 * k) 0

def laneTree (f : Word → Word → Word) (z : Word) (ls : List Word) : Word :=
  ([32, 16, 8, 4, 2, 1].foldl (fun (l : List Word) w => (List.range w).map fun j => f (l.getD j z) (l.getD (j + w) z)) ls).headD z

/-- The lane-order sum (R55). -/
def laneSum (ws : List Word) : Word := laneTree f32add 0 ((List.range 64).map fun j => (lanePick ws j).foldl f32add 0)

/-- The row maximum in lane order (R55). -/
def laneMax (ws : List Word) : Word :=
  laneTree f32max f32ninf ((List.range 64).map fun j => (lanePick ws j).foldl f32max f32ninf)

/-- Rows of `n` words. -/
def rowsOf (n : Nat) (ws : List Word) : List (List Word) :=
  if n = 0 then [] else (List.range (ws.length / n)).map fun r => (List.range n).map fun j => ws.getD (r * n + j) 0

def lastExt (shape : List Nat) : Nat := shape.getLast?.getD 1

/-- FP32 words of a view. -/
def View.words (v : View) : List Word := v.t.words

/-- The words a view stands for, each rounded to FP32: exact for every narrower format. -/
def View.asF32 (v : View) : List Word := (List.range v.size).map fun i => toF32 (v.val i)

end Sys2Proof.Machine
end

