-- ==== Sys2Proof/Machine/Dome.lean ====
section
/-!
DEFINITION. The dome between the towers: control-ring messages (R13), mesh transactions with their routes, epochs and the dual-port
window (R18, R22 to R26), the order of the queues (R27), work stealing (R29, Table 1.6), and which step and layer operation an item
belongs to (R33).
-/
namespace Sys2Proof.Machine

open Sys2Proof

/-! ### Control ring and mesh -/

/-- CONTROL_RING_MESSAGE: a tower in service takes b, or the dome epoch. Configuration has acted with its register write
(R37), and a base die keeps neither (log 24). -/
def State.ringMessage (s : State) (unit : Nat) (m : RingMsg) : State :=
  match m with
  | .bubble => s.modTower unit fun t => if t.inService then { t with bubble := s.belfry.bubble } else t
  | .epoch => s.modTower unit fun t => if t.inService then { t with epoch := s.domeEpoch } else t
  | .config => s

def execControlRingMessage (unit : Nat) (m : RingMsg) (s : State) : Out' := .next (s.whenOn fun s => s.ringMessage unit m)

/-- TWR_STALE_DROP of a tower in service that is not frozen. -/
def Tower.staleDrop (t : Tower) : Tower :=
  if t.inService && !t.ctrs.freeze then { t with ctrs := { t.ctrs with staleDrop := t.ctrs.staleDrop + 1 } } else t

/-! ### The inbound window -/

/-- Slots of 256 bytes that a transfer takes in a ring (R18). -/
def txSlots (x : MeshTx) : Nat := ceilDiv x.data.length 256

/-- Slots of the inbound ring that are taken, of 512. -/
def Tower.inSlots (t : Tower) : Nat := (t.inbound.map txSlots).foldl (· + ·) 0

/-- Is the waiting transfer `i` the oldest of its source on its plane (R23)? No other order holds. -/
def isFirst (ws : List MeshTx) (i : Nat) : Bool :=
  match ws[i]? with
  | none => false
  | some x => (ws.take i).all fun y => y.plane != x.plane || y.src != x.src

/-- The waiting transfer of a plane that enters next: input ports in turn after the one last served (R25), the oldest of a source, and
credits for all its slots (R18). The answer is its place and its port. -/
def Tower.nextIn (t : Tower) (me : Nat) (plane : Bool) : Option (Nat × Nat) :=
  let last := if plane then t.served.2 else t.served.1
  (List.range 7).findSome? fun k =>
    let p := (last + 1 + k) % 7
    ((List.range t.waiting.length).find? fun i => match t.waiting[i]? with
      | some x => x.plane == plane && entryPort x.src (.tower me) == p && isFirst t.waiting i && decide (t.inSlots + txSlots x ≤ 512)
      | none => false).map fun i => (i, p)

/-- Transfers enter while one can. DESIGN CHOICE (log 89): for the slots of the one inbound ring the request plane goes before the data
plane. -/
def Tower.admitIn (me : Nat) : Nat → Tower → Tower
  | 0, t => t
  | n + 1, t =>
    let enter (i p : Nat) (plane : Bool) : Tower := Tower.admitIn me n { t with
      inbound := t.inbound ++ (t.waiting[i]?).toList
      waiting := t.waiting.eraseIdx i
      served := if plane then (t.served.1, p) else (p, t.served.2) }
    match t.nextIn me false, t.nextIn me true with
    | some (i, p), _ => enter i p false
    | none, some (i, p) => enter i p true
    | none, none => t

/-- A transfer has reached the destination's router; the tower has read `taken` transfers out of its ring since. One that finds no credit
waits in the router, and none is lost (R18). -/
def Tower.arrive (t : Tower) (me : Nat) (x : MeshTx) : Tower :=
  Tower.admitIn me (t.waiting.length + 1) { t with inbound := t.inbound.drop x.taken, waiting := t.waiting ++ [x] }

/-- Transfers on their way to the tower enter its ring and are read, in order, until one of them has been read; `n` bounds the rounds, of
which each reads a whole ring. -/
def Tower.readUntil (me : Nat) (x : MeshTx) : Nat → Tower → Tower
  | 0, t => t
  | n + 1, t =>
    let t1 := Tower.admitIn me (t.waiting.length + 1) t
    match t1.inbound.findIdx? fun y => y == x with
    | some i => { t1 with inbound := t1.inbound.drop (i + 1) }
    | none => Tower.readUntil me x n { t1 with inbound := [] }

/-- A transfer whose reading by the tower is the event: it waits its turn in the router, enters the ring with credits for all its slots,
and is read after everything before it (R18, R25). -/
def Tower.pass (t : Tower) (me : Nat) (x : MeshTx) : Tower :=
  Tower.readUntil me x (t.waiting.length + 2) { t with waiting := t.waiting ++ [x] }

/-- A transaction at its destination tower (R24): delivered through the window, or dropped for its epoch. One that reaches a
tower out of service with that tower's epoch is discarded at the window (Table 7.7). -/
def Tower.receive (t : Tower) (me : Nat) (epoch : Word) (x : MeshTx) : Tower :=
  if epoch ≠ t.epoch then t.staleDrop
  else if !t.inService then t
  else t.arrive me x

/-- The mesh has read a transfer of a tower out of its outbound ring, and all before it (R18, R23). -/
def Tower.leave (t : Tower) (plane : Bool) (dst : Node) : Tower :=
  match t.outbound.findIdx? fun q => q.plane == plane && q.dst == dst with
  | some i => { t with outbound := t.outbound.drop (i + 1) }
  | none => t

/-- The epoch that a transaction carries (R427): its sender's; of a stack or an I/O port that answers, the echo of the request's, which is
the asking tower's; 0 between two endpoints that are not towers. -/
def State.epochOf (s : State) (x : MeshTx) : Word :=
  match x.src, x.dst with
  | .tower u, _ => x.epoch.getD (s.tower u).epoch
  | _, .tower v => x.epoch.getD (s.tower v).epoch
  | _, _ => 0

/-- The router of a tower has served an input port on a plane (R25). -/
def Tower.serve (t : Tower) (plane : Bool) (p : Nat) : Tower :=
  { t with served := if plane then (t.served.1, p) else (p, t.served.2) }

/-- The routers on the way to the last one each serve the port through which the transaction came (R25). -/
def State.passRouters (s : State) (x : MeshTx) : State :=
  (hopsOf x.src x.dst).dropLast.foldl (fun s h => s.modTower h.1 fun t => t.serve x.plane h.2) s

/-- MESH_TRANSACTION: it arrives when every router of its route works (R22, R26): at a tower through its window, at a stack or through an
I/O port at the I/O die, which keep no epoch (R12, R427). -/
def State.meshTransaction (s : State) (x : MeshTx) : State :=
  if !s.routeUp x.src x.dst then s
  else
    let e := s.epochOf x
    let s0 := s.passRouters x
    let s1 := match x.src with | .tower u => s0.modTower u fun t => t.leave x.plane x.dst | _ => s0
    match x.dst with
    | .tower v => s1.modTower v fun t => t.receive v e x
    | .stackPort st k => s1.modTower (18 * (nodeAt (.stackPort st k)).2 + (nodeAt (.stackPort st k)).1) fun t => t.serve x.plane (entryPort x.src x.dst)
    | .ioPort c => s1.modTower (18 * 17 + c) fun t => t.serve x.plane (entryPort x.src x.dst)

def execMeshTransaction (x : MeshTx) (s : State) : Out' := .next (s.whenOn fun s => s.meshTransaction x)

/-- A tower puts a transfer into its outbound ring. -/
def Tower.send (t : Tower) (plane : Bool) (dst : Node) (bytes : Nat) : Tower :=
  { t with outbound := t.outbound ++ [(⟨plane, dst, bytes, none⟩ : Send)] }

/-- A transfer of one slot between two towers; what the tower makes of it, State holds elsewhere. -/
def slotTx (plane : Bool) (u v : Nat) : MeshTx := ⟨plane, .tower u, .tower v, none, List.replicate 256 0, 0⟩

/-! ### Queue order -/

/-- The place of an item in the schedule (R27, R210): step, micro-batch and phase, deferred last, then the record in forward
or reverse order, then the turn, then the tile: an item that waits for other ranges of its tile comes behind them (log 9). -/
def Item.key (i : Item) : List Nat :=
  [i.step, 2 * i.mb + min i.phase 1, if i.deferred then 1 else 0, if i.phase = 0 then i.record else 16384 - i.record, i.turn, i.tile]

/-- An item joins a queue at its place. -/
def insertItem : List Item → Item → List Item
  | [], i => [i]
  | j :: q, i => if keyLe j.key i.key then j :: insertItem q i else i :: j :: q

/-! ### Work stealing -/

/-- Manhattan distance of two towers. -/
def towerDist (a b : Nat) : Nat :=
  let d (x y : Nat) : Nat := if x ≤ y then y - x else x - y
  d (a % 18) (b % 18) + d (a / 18) (b / 18)

/-- The order in which a thief asks (R29): its own quarter, distance 1, 2, 3, the lower number first. -/
def stealOrder (t : Nat) : List Nat :=
  [1, 2, 3].flatMap fun d => (List.range 324).filter fun u => towerDist t u == d && quarterOf u == quarterOf t

/-- Not-started items that a thief may take. -/
def stealable (q : List Item) : Nat := (q.filter fun i => !i.pinned).length

/-- The `k` unpinned items nearest the tail, in queue order, and the queue without them. -/
def takeTail : Nat → List Item → List Item × List Item
  | k, q =>
    let r := q.reverse.foldl (fun (a : List Item × List Item) i =>
      if a.1.length < k && !i.pinned then (i :: a.1, a.2) else (a.1, i :: a.2)) ([], [])
    r

/-- A victim's answer (R29): floor(n/2) items, at most 16; none below two. -/
def Tower.give (t : Tower) : List Item × Tower :=
  let n := stealable t.queue
  if n < 2 then ([], t)
  else
    let (xs, q) := takeTail (min 16 (n / 2)) t.queue
    let c := t.ctrs
    (xs, { t with queue := q, ctrs := if c.freeze then c else { c with stealOut := c.stealOut + BitVec.ofNat 32 xs.length } })

/-- The candidate that a thief asks next; none while a request is out, while it holds work, or when all have been tried. -/
def Tower.nextVictim (t : Tower) (me : Nat) : Option (Nat × List Nat) :=
  if !t.inService || t.stealing || !t.queue.isEmpty || decide (512 ≤ t.outSlots) then none
  else match t.candidates.getD (stealOrder me) with
    | [] => none
    | v :: vs => some (v, vs)

/-- STEAL_REQUEST at a victim, which a request through the thief's outbound ring and the victim's inbound ring has reached: dropped for a
stale epoch, unanswered by a tower out of service or across a failed router, else answered through the victim's outbound ring
(R18, Table 1.6). -/
def State.stealRequest (s : State) (thief victim : Nat) (epoch : Word) : State :=
  match (s.tower thief).nextVictim thief with
  | none => s
  | some (v, vs) =>
    if v ≠ victim then s
    else
      let s1 := s.modTower thief fun t => { (t.meshReads.send false (.tower victim) 256) with candidates := some vs, stealing := true }
      let x := s1.tower victim
      if epoch ≠ x.epoch then s1.modTower victim Tower.staleDrop
      else if !x.inService || !s1.routeUp (.tower thief) (.tower victim) || !s1.routeUp (.tower victim) (.tower thief) then s1
      else
        let (xs, x') := (x.pass victim (slotTx false thief victim)).give
        ((s1.passRouters (slotTx false thief victim)).modTower victim fun _ =>
            x'.meshReads.send true (.tower thief) 256).modTower thief fun t =>
          { (t.leave false (.tower victim)) with reply := some (victim, xs) }

def execStealRequest (thief victim : Nat) (epoch : Word) (s : State) : Out' :=
  .next (s.whenOn fun s => s.stealRequest thief victim epoch)

/-- STEAL_REPLY at the thief, read out of its inbound ring: items join its queue and end the exchange; a refusal moves it to its next
candidate. -/
def Tower.takeReply (t : Tower) (me : Nat) : Tower :=
  match t.reply with
  | none => t
  | some (v, []) => { (t.pass me (slotTx true v me)) with reply := none, stealing := false }
  | some (v, xs) =>
    if t.queue.length + xs.length > 256 then t
    else
      let t := t.pass me (slotTx true v me)
      { t with
        queue := xs.foldl insertItem t.queue, reply := none, stealing := false, candidates := none, used := true
        ctrs := if t.ctrs.freeze then t.ctrs else { t.ctrs with stealIn := t.ctrs.stealIn + BitVec.ofNat 32 xs.length } }

/-- The reply leaves the victim's outbound ring and passes the routers on its way. -/
def State.stealReply (s : State) (thief : Nat) : State :=
  match (s.tower thief).reply with
  | none => s
  | some (v, _) =>
    ((s.modTower v fun t => t.leave true (.tower thief)).passRouters (slotTx true v thief)).modTower thief fun t => t.takeReply thief

def execStealReply (thief : Nat) (s : State) : Out' := .next (s.whenOn fun s => s.stealReply thief)

/-- STEAL_TIMEOUT: 1 microsecond without a reply. -/
def Tower.stealTimeout (t : Tower) : Tower :=
  if t.stealing && t.reply.isNone then { t with stealing := false } else t

def execStealTimeout (thief : Nat) (s : State) : Out' := .next (s.whenOn fun s => s.modTower thief Tower.stealTimeout)

/-! ### Items and layer operations -/

/-- The step that an item belongs to. -/
def State.stepOf (s : State) (i : Item) : Option Nat :=
  s.steps.findIdx? fun p => p.slot == i.slot && p.number.toNat == i.step

/-- The layer operation of an item (R33). -/
def State.opOf (s : State) (i : Item) : Option LayerOp :=
  ((s.slot i.slot).prog.bind fun p => p.ops[i.record]?).map fun o => ⟨o.layer, i.mb, min i.phase 1⟩

def Step.layerProg (st : Step) (op : LayerOp) : Option LayerProg := st.layers.find? fun q => q.op == op

def Step.modLayer (st : Step) (op : LayerOp) (f : LayerProg → LayerProg) : Step :=
  { st with layers := st.layers.map fun q => if q.op = op then f q else q }

/-- The work item that a stream serves. -/
def Tower.itemOf (t : Tower) (x : Stream) : Option Item := (t.started.find? fun i => i.num == x.item).map Started.item

/-- A stream of a layer operation halts. -/
def State.haltIf (s : State) (x : Tower) (op : LayerOp) (slot : Nat) (y : Stream) : Stream :=
  match x.itemOf y with
  | some i => if i.slot = slot ∧ s.opOf i = some op then { y with halted := true } else y
  | none => y

/-- Every stream of a layer operation in one tower halts (Table 5.8). -/
def State.haltStreams (s : State) (t : Nat) (op : LayerOp) (slot : Nat) : State :=
  s.modTower t fun x => { x with streams := x.streams.map (s.haltIf x op slot) }

/-- A fault of an attempt that may be repeated once (R152, R299): the repeat is wanted, or the step fails with the status of
the second fault. Answers the attempt number, none when this attempt has faulted already. -/
def State.repeatOnce (s : State) (i : Nat) (op : LayerOp) (status : Nat) : Option Nat × State :=
  match (s.steps[i]?).bind fun p => p.layerProg op with
  | none => (none, s)
  | some q =>
    if q.want ≠ 0 then (none, s)
    else if q.retried then (some 2, s.failStep i status)
    else (some 1, s.modStep i fun p => p.modLayer op fun q => { q with want := 1 })

/-! ### SRAM words -/

/-- What a SEC-DED word with flipped bits reads as: 0 clean, 1 corrected, 2 uncorrectable (R297; log 82). -/
def sramDecode (flips : List Nat) : Nat :=
  match flips.dedup with
  | [] => 0
  | [_] => 1
  | [_, _] => 2
  | l => Config.secded l % 3

/-- An uncorrectable word of a tower: the event; in a layer operation it and its readers stop and repeat once (R299, Table 11.6). -/
def State.towerWord (s : State) (t req bank word : Nat) (it : Option Item) : State :=
  match it with
  | none => s.sramEvent (.tower t) t bank word req []
  | some it =>
    let work := match s.opOf it with | some op => [(2, op.layer), (1, op.mb)] | none => []
    let s1 := s.sramEvent ⟨it.slot, BitVec.ofNat 64 it.step, t⟩ t bank word req work
    match s1.opOf it, s1.stepOf it with
    | some op, some i => ((s1.haltStreams t op it.slot).repeatOnce i op stBUS_ERROR).2
    | _, _ => s1

/-- A word of a tower that work on an item reads (R297 to R299). -/
def State.workWord (s : State) (t : Nat) (it : Option Item) (e : SramErr) : State :=
  match sramDecode e.flips with
  | 0 => s
  | 1 => { s with mem := { s.mem with sramCe := s.mem.sramCe + 1 } }
  | _ => s.towerWord t rqSpire e.bank e.word it

end Sys2Proof.Machine
end

