-- ==== Sys2Proof/Machine/Integrity.lean ====
section
/-!
DEFINITION. Device memory from the port (R287, R293, R337, R338, R340, R402) and the background work on it: write-backs
(R286), patrol scrub (R289), the background window (R290) and the leaky buckets (R291).
-/
namespace Sys2Proof.Machine

open Sys2Proof

/-! ### The host's accesses -/

/-- The filter takes a line that the host may now hold; when full, its oldest line is back-invalidated first (R338). -/
def State.track (s : State) (line : Nat) : State :=
  if s.mem.snoop.contains line then s
  else
    let s1 := if s.mem.snoop.length < 1048576 then s
      else (s.mem.snoop.take 1).foldl (fun s l => s.emit (.snoop l)) { s with mem := { s.mem with snoop := s.mem.snoop.drop 1 } }
    { s1 with mem := { s1.mem with snoop := s1.mem.snoop ++ [line] } }

/-- The two beats of a line, each decoded on its own; an access to a retired page counts once (R282, R293). -/
def State.readLine (s : State) (errs : List BeatErr) (line : Nat) : Option (List Byte) × State :=
  if s.mem.pageRetired (line * 64 / 65536) then
    (none, { s with mem := { s.mem with retiredHit := s.mem.retiredHit + 1 } })
  else
    let (a, s1) := s.readBeat rqHost noStep errs (line * 64)
    let (b, s2) := s1.readBeat rqHost noStep errs (line * 64 + 32)
    (match a, b with
     | some x, some y => some (x ++ y)
     | _, _ => none, s2)

/-- Does a line lie in an Onyx bank that a march in flight tests (R304)? -/
def State.underMarch (s : State) (line : Nat) : Bool := s.marchBanks.any fun b => s.mem.touchesBank b (64 * line) 64

/-- HOST_MEM_READ of the line that holds a host address (Table 11.3, R293, R337, R402), answered on the CXL.cachemem stream toward the
host. A region under a march gives free data (R304). -/
def State.hostRead (s : State) (errs : List BeatErr) (addr : Nat) : State :=
  match s.windowAddr addr with
  | none => s.reply 3 .unsupported
  | some a =>
    let line := a / 64
    if a ≥ devEnd then s.reply 3 .unsupported
    else if s.fuses.state = 4 then s.reply 3 .poison
    else if s.underMarch line then
      let c := s.freeCtr
      ({ s with freeCtr := c + 1 }).reply 3 (.data ((List.range 64).map fun k => Config.padByte c (64 * line + k)))
    else
      match s.readLine errs line with
      | (some bs, s1) => (s1.track line).reply 3 (.data bs)
      | (none, s1) => s1.reply 3 .poison

def execHostMemRead (addr : Nat) (errs : List BeatErr) (s : State) : Out' :=
  .next (if s.memUp then s.hostRead errs addr else s)

/-- HOST_MEM_WRITE of one line (R282, R293, R402). To a region under a march it may be lost, by a free value (R304). -/
def State.hostWrite (s : State) (addr : Nat) (bytes : List Byte) : State :=
  match s.windowAddr addr with
  | none => s.reply 3 .unsupported
  | some a =>
    if a ≥ devEnd then s.reply 3 .unsupported
    else if s.fuses.state = 4 then s
    else if s.underMarch (a / 64) then
      let (lost, s1) := s.free 2
      if lost = 0 then s1 else s1.putPage (a / 64 * 64) (sliceB bytes 0 64)
    else s.putPage (a / 64 * 64) (sliceB bytes 0 64)

def execHostMemWrite (addr : Nat) (bytes : List Byte) (s : State) : Out' :=
  .next (if s.memUp then s.hostWrite addr bytes else s)

/-- UNORDERED_IO_WRITE (R340): the landing area only; it comes on the CXL.io stream toward the module, and its completion leaves on
the other. -/
def execUnorderedIoWrite (addr : Nat) (bytes : List Byte) (s : State) : Out' :=
  .next (if !s.ioUp then s
    else if addr < landBase ∨ addr + bytes.length > devEnd then s.reply 1 .unsupported
    else s.writeIo addr bytes)

/-- Completions whose commands' writes have all taken place (R338). -/
def State.deliverLate (s : State) : State :=
  let ready := s.late.filter fun (l : Late) => !s.mem.owes l.mbx
  ready.foldl (fun s l => s.deliver l.mbx l.status l.data) { s with late := s.late.filter fun (l : Late) => s.mem.owes l.mbx }

/-- BACK_INVALIDATION_RESPONSE (R338): the line leaves the filter, the writes that wait for it take place in order, and the commands whose
last write this was complete. -/
def State.backInvalidated (s : State) (line : Nat) : State :=
  let mine := s.mem.waiting.filter fun (w : WaitWrite) => w.addr / 64 == line
  let s1 := { s with mem := { s.mem with
    snoop := s.mem.snoop.filter fun (l : Nat) => l != line
    waiting := s.mem.waiting.filter fun (w : WaitWrite) => w.addr / 64 != line } }
  (mine.foldl (fun s w => s.putPage w.addr w.bytes) s1).deliverLate

/-- The response comes on the CXL.cachemem stream toward the module. -/
def execBackInvalidationResponse (line : Nat) (s : State) : Out' :=
  .next (if s.power.powered && s.power.linkUp && s.ideUp 2 then s.backInvalidated line else s)

/-! ### Background -/

/-- Has a stack background bytes left in the window (R290)? -/
def State.bgOpen (s : State) (stack : Nat) : Bool :=
  match s.mem.onyx[stack]? with
  | some o => decide (o.bg < 100000)
  | none => false

/-- Background bytes pass (R290). -/
def State.bgSpend (s : State) (stack n : Nat) : State :=
  { s with mem := { s.mem with
    bgBytes := s.mem.bgBytes.add n
    onyx := updAt s.mem.onyx stack fun o => { o with bg := o.bg + n } } }

/-- Statistics beats leave the I/O die as far as the windows of their stacks allow, in order; `n` bounds them (R290). -/
def State.drainTelemetry : Nat → State → State
  | 0, s => s
  | n + 1, s =>
    match s.mem.telemetry with
    | [] => s
    | w :: r =>
      let st := (s.mem.place w.addr).stack
      if !s.bgOpen st then s
      else State.drainTelemetry n ((({ s with mem := { s.mem with telemetry := r } }).bgSpend st 32).writeIo w.addr w.bytes)

/-- Bytes of Beryl's telemetry wait as whole beats, those at the ends with what memory holds beside them (R157, R282, R290; log 83). -/
def State.sendTelemetry (s : State) (addr : Nat) (bytes : List Byte) : State :=
  let lo := addr / 32 * 32
  let n := ceilDiv (addr + bytes.length - lo) 32
  let all := memRead s.mem.view lo (addr - lo) ++ bytes
    ++ memRead s.mem.view (addr + bytes.length) (lo + 32 * n - (addr + bytes.length))
  let ws := (List.range n).map fun k => (⟨lo + 32 * k, (all.drop (32 * k)).take 32, 4⟩ : WaitWrite)
  let s1 := { s with mem := { s.mem with telemetry := s.mem.telemetry ++ ws } }
  State.drainTelemetry s1.mem.telemetry.length s1

/-- WRITE_BACK: the oldest queued write-back of a stack runs (R286). -/
def State.writeBack (s : State) (stack : Nat) : State :=
  if !s.bgOpen stack then s
  else
    match (s.mem.onyx[stack]?).bind fun o => o.writeBacks.head? with
    | none => s
    | some w =>
      let s1 := { s with mem := { s.mem with
        onyx := updAt s.mem.onyx stack fun o => { o with writeBacks := o.writeBacks.drop 1 } } }
      (s1.bgSpend stack 32).writeLineBy wbOwner w.addr w.bytes

def execWriteBack (stack : Nat) (s : State) : Out' := .next (s.whenOn fun s => s.writeBack stack)

/-- The next beat of a scrub at or after a stack address that lies in no retired page, by granules of 2 KiB (R289). -/
def Mem.nextBeat (m : Mem) (stack : Nat) : Nat → Nat → Nat
  | 0, a => a
  | fuel + 1, a =>
    if a ≥ 0x1000000000 then a
    else if m.pageRetired (m.device stack a / 65536) then Mem.nextBeat m stack fuel (a / 2048 * 2048 + 2048)
    else a

/-- Passes that every stack has completed (Table 11.9). -/
def Mem.countPasses (m : Mem) : Mem :=
  { m with passes := BitVec.ofNat 16 (m.onyx.foldl (fun a o => min a o.passes) ((m.onyx.head?.map Stack.passes).getD 0)) }

/-- The scrubber of a stack moves to an address; past the end it begins the next pass. -/
def Mem.scrubTo (m : Mem) (stack a : Nat) : Mem :=
  (if a ≥ 0x1000000000 then
    { m with onyx := updAt m.onyx stack fun o => { o with scrubPos := 0, passes := o.passes + 1 } }
  else { m with onyx := updAt m.onyx stack fun o => { o with scrubPos := a } }).countPasses

/-- PATROL_SCRUB of the next beat of a stack (R289). -/
def State.patrolScrub (s : State) (stack : Nat) (errs : List BeatErr) : State :=
  if !s.mem.scrubOn || !s.bgOpen stack || decide (s.power.phase < 5) then s
  else
    match s.mem.onyx[stack]? with
    | none => s
    | some o =>
      let a := s.mem.nextBeat stack 0x80000 o.scrubPos
      if a ≥ 0x1000000000 then { s with mem := s.mem.scrubTo stack a }
      else
        let (_, s1) := s.readBeat rqScrub noStep errs (s.mem.device stack a)
        let s2 := s1.bgSpend stack 32
        { s2 with mem := s2.mem.scrubTo stack (a + 32) }

def execPatrolScrub (stack : Nat) (errs : List BeatErr) (s : State) : Out' :=
  .next (s.whenOn fun s => s.patrolScrub stack errs)

/-- BACKGROUND_WINDOW (R290): telemetry that has waited goes on. -/
def execBackgroundWindow (s : State) : Out' :=
  .next (s.whenOn fun s =>
    let s1 := { s with mem := { s.mem with onyx := s.mem.onyx.map fun (o : Stack) => { o with bg := 0 } } }
    State.drainTelemetry s1.mem.telemetry.length s1)

/-- Every non-zero bucket loses one (R291). -/
def leak : Memory → Memory
  | [] => []
  | (k, v) :: r => if v = 1 then leak r else (k, v - 1) :: leak r

/-- BUCKET_LEAK (R291); a LEAK_S of 0 stops it. -/
def execBucketLeak (s : State) : Out' :=
  .next (s.whenOn fun s =>
    if s.mem.leakS = 0 then s else { s with mem := { s.mem with buckets := leak s.mem.buckets } })

end Sys2Proof.Machine
end

