-- ==== Sys2Proof/Machine/Registers.lean ====
section
/-!
DEFINITION. Host accesses to BAR0: a write to a register field by field (R342, R343, R345, R346) and what the written
register does (R37, R205, R285, R291, R292, R349, R354, R356 to R358, R396), the reads with a side effect (R344, R205),
MSI-X (R354), the publication of events (R356 to R358) and the management bus (R442).
-/
namespace Sys2Proof.Machine

open Sys2Proof

/-- Where a write through an alias goes. -/
def aliasOffset : Alias → Nat
  | .base => 0
  | .set => 0x4000
  | .clr => 0x8000
  | .tgl => 0xC000

/-! ### Event log -/

/-- May the ring be enabled (R356)? -/
def State.ringOk (s : State) : Bool :=
  let e := s.evt
  let len := 64 * 2 ^ e.log2
  decide (8 ≤ e.log2) && decide (e.log2 ≤ 20) && e.base.toNat % 4096 == 0 && decide (e.base.toNat + len ≤ devEnd)
    && !s.mem.touchesRetired e.base.toNat len && !s.allocs.any (fun a => a.hits e.base.toNat len)
    && decide (e.base.toNat + len ≤ landBase)

/-- EN returns to 0: records that wait for their ring write wait in the early buffer, in order; a full one drops them, and the next
record made carries LOST (R356). -/
def EvtLog.disable (e : EvtLog) : EvtLog :=
  let l := e.early ++ e.ring.map fun (r : EvRec) => { r with early := true }
  let over' := l.length - 256
  { e with
    en := false, early := l.take 256, ring := [], lostCount := e.lostCount + BitVec.ofNat 32 over'
    earlyLost := e.earlyLost || decide (0 < over'), lostTail := e.lostTail || decide (0 < over') }

/-- A write of EVT_CTRL: INT_EN, and EN under R356. EN that stands stays as it is. -/
def State.writeEvtCtrl (s : State) (en intEn : Bool) : State :=
  let e := { s.evt with intEn := intEn }
  if !en then { s with evt := if e.en then e.disable else e }
  else if e.en then { s with evt := e }
  else if s.ringOk then { s with evt := { e with en := true, head := 0, tail := 0 } }
  else { s with evt := { e with badBase := true } }

/-- A vector-4 message, outstanding from now on; none is sent while MSI-X is disabled (R354, R358). -/
def State.wakeHost (s : State) : State :=
  if s.evt.intEn && !s.evt.out4 && s.ints.enabled then ({ s with evt := { s.evt with out4 := true } }).message 4 else s

/-- A write of EVT_TAIL (R357, R358). -/
def State.writeEvtTail (s : State) (v : Word) : State :=
  let e := s.evt
  if (v - e.tail).toNat ≤ (e.head - e.tail).toNat then
    let s1 := { s with evt := { e with tail := v, out4 := false } }
    if e.head = v then s1 else s1.wakeHost
  else { s with evt := { e with badTail := true } }

/-- The record that a publication takes: the oldest of the early buffer, else of the ring's queue, and the log without it.
The next record
written after a drop carries LOST (R357). -/
def EvtLog.nextRecord (e : EvtLog) : Option (EvRec × EvtLog) :=
  match e.early with
  | r :: rest => some ({ r with lost := r.lost || e.lostNext }, { e with early := rest, lostNext := false })
  | [] =>
    match e.ring with
    | r :: rest => some ({ r with lost := r.lost || e.lostNext }, { e with ring := rest, lostNext := false })
    | [] => none

/-- One record is written and published, or dropped at a full ring (R357, R358); it waits for the background window (R290)
and for the answer to the back-invalidation of its line (R338). -/
def State.publish (s : State) : State :=
  let e := s.evt
  match e.nextRecord with
  | none => s
  | some (r, e1) =>
    let size := 2 ^ e.log2
    if (e.head - e.tail).toNat ≥ size then
      { s with evt := { e1 with lostCount := e.lostCount + 1, lostNext := true } }
    else
      let a := e.base.toNat + 64 * (e.head.toNat % size)
      let stack := (s.mem.place a).stack
      if !s.bgOpen stack then s
      else if s.mem.snoop.contains (a / 64) then 
        (if s.mem.waiting.any fun (w : WaitWrite) => w.addr == a && w.bytes == r.bytes then s else s.writeLine a r.bytes)
      else
        let s1 := (({ s with evt := e1 }).bgSpend stack 64).putPage a r.bytes
        (({ s1 with evt := { s1.evt with head := s1.evt.head + 1 } }).latch 4).wakeHost

/-- EVENT_PUBLISH. -/
def execEventPublish (s : State) : Out' :=
  .next (s.whenOn fun s => if s.evt.en && !s.power.berylStop then s.publish else s)

/-! ### What a written register does -/

/-- Word `k` of a 64-bit value replaced. -/
def putWord (q : Quad) (k : Nat) (v : Nat) : Quad :=
  if k = 0 then BitVec.ofNat 64 (q.toNat / 2 ^ 32 * 2 ^ 32 + v % 2 ^ 32)
  else BitVec.ofNat 64 (q.toNat % 2 ^ 32 + v % 2 ^ 32 * 2 ^ 32)

/-- Mailbox registers: OPCODE, LEN, TAG and payload are frozen while OWN is 1, and a write sets CLOBBER, as does a GO (R349).
A GO while OWN is 0 is a submission and acts elsewhere. -/
def Mailbox.write (m : Mailbox) (off new wo : Nat) : Mailbox :=
  if off = 0x000 then { m with irqEn := bitOf new 1, clobber := m.clobber || (m.own && bitOf wo 0) }
  else if off = 0x004 then { m with done := bitOf new 17, clobber := bitOf new 18 }
  else if m.own then { m with clobber := true }
  else if off = 0x008 then { m with opcode := BitVec.ofNat 16 new }
  else if off = 0x00C then { m with len := new }
  else if off = 0x010 then { m with tag := BitVec.ofNat 32 new }
  else { m with payload := memWrite m.payload (off - 0x20) (toLe 4 new) }

/-- The interrupt and event-log block. -/
def State.writeEvt (s : State) (off new : Nat) : State :=
  let e := s.evt
  if off = 0x00 ∨ off = 0x04 then
    if e.en then s else { s with evt := { e with base := putWord e.base (off / 4) new } }
  else if off = 0x08 then { s with evt := { e with log2 := new } }
  else if off = 0x0C then s.writeEvtCtrl (bitOf new 0) (bitOf new 1)
  else if off = 0x14 then s.writeEvtTail (BitVec.ofNat 32 new)
  else if off = 0x1C then
    { s with evt := { e with badBase := bitOf new 0, badTail := bitOf new 1, earlyLost := bitOf new 2 } }
  else if off = 0x20 then { s with ints := { s.ints with raised := BitVec.ofNat 10 new } }
  else if 0x2000 ≤ off ∧ off < 0x2100 then
    let v := (off - 0x2000) / 16
    let s1 := { s with ints := { s.ints with table := updAt s.ints.table v fun x =>
      match off % 16 / 4 with
      | 0 => { x with addr := putWord x.addr 0 new }
      | 1 => { x with addr := putWord x.addr 1 new }
      | 2 => { x with data := BitVec.ofNat 32 new }
      | _ => { x with masked := bitOf new 0 } } }
    s1.flushVector v
  else s

/-- The memory and ECC block: a mark with DIE above 17 and VALID 1 is ignored; the bucket configuration clears every bucket
(R285, R292). -/
def State.writeEcc (s : State) (off new : Nat) : State :=
  if off < 0x30 then
    let d := new % 32
    if d > 17 ∧ bitOf new 7 then s
    else { s with mem := { s.mem with erase := updAt s.mem.erase (off / 4) fun _ => ⟨d, bitOf new 7⟩ } }
  else if off = 0x40 then
    { s with mem := { s.mem with threshold := new % 256, leakS := new / 256 % 65536, buckets := [] } }
  else s

/-- KEEP_TAMPER: a bit whose input is still active is set again at once (R396). -/
def State.writeKeep (s : State) (off new : Nat) : State :=
  if off = 0x08 then
    { s with keep := { s.keep with tamper := BitVec.ofNat 3 new ||| (s.keep.live &&& s.keep.fired) } }
  else s

/-- CLEAR of the utilisation counters: all zero, hidden remainders too; the shadows stand (R37, R344). -/
def TowerCtrs.clear (c : TowerCtrs) : TowerCtrs :=
  let z (x : Ctr) : Ctr := ⟨0, x.shadow⟩
  { c with
    cycles := z c.cycles, issued := z c.issued, pwrBub := z c.pwrBub, droopBub := z c.droopBub, starved := z c.starved
    idle := z c.idle, fwdCells := z c.fwdCells, bwdCells := z c.bwdCells, fwdRem := 0, bwdRem := 0
    stealIn := 0, stealOut := 0, staleDrop := 0 }

/-- CLEAR of the Jasper counters (R205). -/
def JspCtrs.clear (c : JspCtrs) : JspCtrs :=
  let z (x : Ctr) : Ctr := ⟨0, x.shadow⟩
  { c with
    rdBytes := z c.rdBytes, wrBytes := z c.wrBytes, farReq := 0, farPieces := 0, nullIdx := 0, outstPeak := 0
    creditStall := z c.creditStall, skew := 0 }

/-- TWR_UTIL_CTRL and JSP_CTRL: cleared, then held at zero when both are written (R37, R205). Of a tower out of service the
write acts when it returns, with counters of zero (R347). -/
def Tower.writeCtrl (t : Tower) (off new wo : Nat) : Tower :=
  let fr := bitOf new 0
  if !t.inService then
    if off = 0x150 then { t with heldUtil := some fr } else if off = 0x230 then { t with heldJsp := some fr } else t
  else if off = 0x150 then
    let c := if bitOf wo 1 then t.ctrs.clear else t.ctrs
    { t with ctrs := { c with freeze := fr } }
  else if off = 0x230 then
    let c := if bitOf wo 1 then t.jsp.clear else t.jsp
    { t with jsp := { c with freeze := fr } }
  else t

/-- The contents that a write sees: of a tower out of service the FREEZE that waits (R347). -/
def State.regOld (s : State) (b : Nat) : Nat :=
  match towerOf b with
  | some (t, o) =>
    let x := s.tower t
    if o = 0x150 then putBit (x.heldUtil.getD x.ctrs.freeze) 0
    else if o = 0x230 then putBit (x.heldJsp.getD x.jsp.freeze) 0
    else s.regRaw b
  | none => s.regRaw b

/-- The written value reaches a defined register at a base address. -/
def State.storeReg (s : State) (b : Nat) (al : Alias) (value : Nat) : State :=
  match fieldsAt b with
  | none => s
  | some fs =>
    let (new, wo) := writeFields fs al (s.regOld b) value
    match towerOf b with
    | some (t, o) => s.modTower t fun x => x.writeCtrl o new wo
    | none =>
      let off := b % 0x10000
      match b / 0x10000 with
      | 1 => { s with mailboxes := updAt s.mailboxes (off / 0x1000) fun m => m.write (off % 0x1000) new wo }
      | 2 => s.writeEvt off new
      | 4 => s.writeEcc off new
      | 6 => s.writeKeep off new
      | _ => s

/-- An access that the life-cycle state forbids (R346). -/
def State.violate (s : State) (addr : Nat) : State :=
  { s with keep := { s.keep with violCount := s.keep.violCount + 1, violAddr := BitVec.ofNat 26 (baseAddr addr) } }

/-- Before Ready only mailbox and Keep registers take writes: at Ready every other one holds its power-up value (R417). -/
def State.takesWrite (s : State) (b : Nat) : Bool := s.power.ready || b / 0x10000 == 1 || b / 0x10000 == 6

/-- The bytes that a byte-enable mask selects. -/
def enabled (be old v : Nat) : Nat :=
  ofLe ((List.range 4).map fun k =>
    if bitOf be k then BitVec.ofNat 8 (v / 256 ^ k) else BitVec.ofNat 8 (old / 256 ^ k))

/-- Is a write discarded with an unsupported-request message: no register there, or bytes missing (R343, R345)? -/
def badWrite (addr be : Nat) : Bool :=
  !definedAt addr || (be % 16 != 15 && !isPayload (baseAddr addr))

/-- The unsupported-request error message with its address (R345). -/
def State.aer (s : State) (addr : Nat) : State := s.emit (.aer addr)

/-- A write of BAR0 at an address, alias included (R342 to R346). A payload word takes the enabled bytes. -/
def State.hostStore (s : State) (addr be value : Nat) : State :=
  if s.forbids addr then s.violate addr
  else if badWrite addr be then s.aer addr
  else
    let b := baseAddr addr
    if !s.takesWrite b then s
    else
      let al := aliasOf addr
      if be % 16 = 15 then s.storeReg b al value
      else
        -- bytes that are not enabled keep the old contents: a base write of the merged word
        let old := s.regRaw b
        let (new, _) := writeFields [rw 0 32] al old value
        s.storeReg b .base (enabled be old new)

/-! ### The rows -/

def State.whenIo (s : State) (f : State → State) : State := if s.ioUp then f s else s

/-- Is the mailbox that holds an address owned by the device? -/
def State.ownedAt (s : State) (addr : Nat) : Bool :=
  let b := baseAddr addr
  b / 0x10000 == 1 && (s.mbx (b % 0x10000 / 0x1000)).own

/-- MAILBOX_WRITE_WHILE_OWNED (R349). -/
def execMailboxWriteWhileOwned (addr : Nat) (value : Word) (s : State) : Out' :=
  .next (s.whenIo fun s => if s.ownedAt addr then s.hostStore addr 15 value.toNat else s)

/-- Is a register outside the identity block read before phase 6, so that it reads its reset value (Table 15.7)? -/
def State.earlyRead (s : State) (b : Nat) : Bool := !(s.power.ready || decide (6 ≤ s.power.phase)) && b / 0x10000 != 0

/-- A read of the low word of a counter: the word, and the high word into the shadow (R344). -/
def State.lowRead (s : State) (c : CtrId) (b : Nat) : Word × State :=
  let v := (if s.earlyRead b then State.powerUp [] s.fuses else s).getCtr c
  (v.low, s.modCtr c fun x => ⟨x.v, v.latch.shadow⟩)

/-- A read of the word at an address, alias included, with its side effects: none for an unsupported request; zero and counted where the
register is closed (R342, R344 to R346); JSP_OUTST_PEAK starts anew at the requests outstanding (R205). -/
def State.readWord (s : State) (addr : Nat) : Option Word × State :=
  let b := baseAddr addr
  if !definedAt addr then (none, s)
  else if s.forbids addr then (some 0, s.violate addr)
  else
    match ctrAt b with
    | some c => let (v, s1) := s.lowRead c b; (some v, s1)
    | none =>
      let v := BitVec.ofNat 32 (s.regRead addr)
      match towerOf b with
      | some (t, 0x21C) => (some v, s.modTower t fun x => { x with jsp := { x.jsp with outstPeak := x.outstanding } })
      | _ => (some v, s)

/-- The bytes of a word that lie in an access, from byte `lo` to byte `hi` of the word. -/
def accessBytes (v : Word) (lo hi : Nat) : List Byte := ((toLe 4 v.toNat).take hi).drop lo

/-- The words of an access, read in increasing address order, each with its enabled bytes (R343). -/
def State.readWords (s : State) (lo hi : Nat) : List Nat → List (Option (List Byte)) × State
  | [] => ([], s)
  | w :: ws =>
    let (v, s1) := s.readWord w
    let (vs, s2) := State.readWords s1 lo hi ws
    (v.map (fun v => accessBytes v (lo - w) (hi - w)) :: vs, s2)

/-- What a read answers: a whole word, an unsupported request, or its words one by one. -/
def respOf (l : List (Option (List Byte))) : Resp :=
  match l with
  | [some bs] => if bs.length = 4 then .word (BitVec.ofNat 32 (ofLe bs)) else .parts l
  | _ => if l.all Option.isNone then .unsupported else .parts l

/-- A read of BAR0 of any width (R343), answered on the CXL.io stream toward the host. -/
def State.readAccess (s : State) (a : Access) : State :=
  let first := a.addr / 4
  let n := ceilDiv (a.addr + a.len) 4 - first
  let r := s.readWords a.addr (a.addr + a.len) ((List.range n).map fun k => 4 * (first + k))
  r.2.reply 1 (respOf r.1)

/-- COUNTER_LOW_READ (R344). -/
def execCounterLowRead (a : Access) (s : State) : Out' := .next (s.whenIo fun s => s.readAccess a)

/-- JSP_OUTST_PEAK_READ (R205, R343): the enabled bytes; its side effect acts whatever they are. -/
def State.peakRead (s : State) (r : PeakRead) : State :=
  let x := s.readWord (towerBase r.tower + 0x21C)
  x.2.reply 1 (match x.1 with
    | none => .unsupported
    | some v =>
      if r.be % 16 = 15 then .word v
      else .parts [some (((toLe 4 v.toNat).mapIdx fun k b => (k, b)).filterMap fun p => if bitOf r.be p.1 then some p.2 else none)])

def execJspOutstPeakRead (r : PeakRead) (s : State) : Out' := .next (s.whenIo fun s => s.peakRead r)

/-- RESERVED_ADDRESS_READ (R345). -/
def execReservedAddressRead (a : Access) (s : State) : Out' := .next (s.whenIo fun s => s.readAccess a)

/-- A full write of the register at a base address through an alias. -/
def State.hostStoreAt (s : State) (b : Nat) (al : Alias) (value : Word) : State :=
  s.whenIo fun s => s.hostStore (b + aliasOffset al) 15 value.toNat

def execTwrUtilCtrlFreeze (t : Nat) (al : Alias) (v : Word) (s : State) : Out' :=
  .next (s.hostStoreAt (towerBase t + 0x150) al v)
def execTwrUtilCtrlClear (t : Nat) (al : Alias) (v : Word) (s : State) : Out' :=
  .next (s.hostStoreAt (towerBase t + 0x150) al v)
def execJspCtrlFreeze (t : Nat) (al : Alias) (v : Word) (s : State) : Out' :=
  .next (s.hostStoreAt (towerBase t + 0x230) al v)
def execJspCtrlClear (t : Nat) (al : Alias) (v : Word) (s : State) : Out' :=
  .next (s.hostStoreAt (towerBase t + 0x230) al v)
def execEccDieErase (stack : Nat) (al : Alias) (v : Word) (s : State) : Out' :=
  .next (s.hostStoreAt (0x40000 + 4 * stack) al v)
def execEccBucketCfg (al : Alias) (v : Word) (s : State) : Out' := .next (s.hostStoreAt 0x40040 al v)
def execEvtCtrlEn (al : Alias) (v : Word) (s : State) : Out' := .next (s.hostStoreAt 0x2000C al v)
def execEvtTail (al : Alias) (v : Word) (s : State) : Out' := .next (s.hostStoreAt 0x20014 al v)
def execKeepTamperClear (al : Alias) (v : Word) (s : State) : Out' := .next (s.hostStoreAt 0x60008 al v)

/-- MSIX_UNMASK: the vector control of an entry is written 0 (R354). -/
def execMsixUnmask (v : Nat) (s : State) : Out' :=
  .next (s.whenIo fun s => if v < 16 then s.hostStore (0x2200C + 16 * v) 15 0 else s)

/-- MSIX_ENABLE in the function's capability (R354). -/
def execMsixEnable (enable fmask : Bool) (s : State) : Out' :=
  .next (s.whenIo fun s => ({ s with ints := { s.ints with enabled := enable, fmask := fmask } }).flushAll)

/-- A register of the management bus; none for an unlisted code (Table 18.4). -/
def State.smbusReg (s : State) (code : Nat) : Option Nat :=
  match code with
  | 0x00 => some 0xB0
  | 0x01 => some (1 + putBit s.power.ready 1 + s.power.phase * 4 + s.fuses.state * 32 + putBit s.belfry.hold 8 + putBit s.power.berylStop 9)
  | 0x02 => some (s.measure.vin % 65536)
  | 0x03 => some (s.measure.meas / 1000 % 65536)
  | 0x04 => some (tempByte s.thermal.temp)
  | 0x05 => some (s.effCap % 512)
  | 0x06 => some s.power.smbAlert.toNat
  | 0x07 => some s.power.smbAlertEn.toNat
  | c => if 0x08 ≤ c ∧ c ≤ 0x0B then some (Config.serial.toNat / 65536 ^ (c - 8) % 65536) else none

/-- The packet error code of a transfer of the management bus: the CRC-8 over its bytes, addresses included (R442; log 85). -/
def smbusPec (bytes : List Byte) : Byte := BitVec.ofNat 8 (crc8 bytes)

/-- A read-word (R442): the register, low byte first; an unlisted code is not acknowledged. -/
def State.smbusRead (s : State) (code : Nat) (pec : Bool) : State :=
  match s.smbusReg code with
  | none => s.answer .unsupported
  | some n =>
    let v : Half := BitVec.ofNat 16 n
    s.answer (.smbus v (if pec then some (smbusPec ([0xB0, BitVec.ofNat 8 code, 0xB1] ++ toLe 2 v.toNat)) else none))

/-- A write-word (Table 18.4): SB_ALERT is cleared by ones, SB_ALERT_EN is stored; the other codes are read-only, and an unlisted one, or
a wrong packet error code, is not acknowledged. -/
def State.smbusWrite (s : State) (code : Nat) (v : Half) (pec : Option Byte) : State :=
  let good := match pec with | none => true | some p => p == smbusPec ([0xB0, BitVec.ofNat 8 code] ++ toLe 2 v.toNat)
  if !good then s.answer .unsupported
  else if code = 6 then { s with power := { s.power with smbAlert := s.power.smbAlert &&& ~~~(v.setWidth 5) } }
  else if code = 7 then { s with power := { s.power with smbAlertEn := v.setWidth 5 } }
  else if code ≤ 0x0B then s
  else s.answer .unsupported

def State.smbus (s : State) (code : Nat) : SmbusOp → State
  | .read pec => s.smbusRead code pec
  | .write v pec => s.smbusWrite code v pec

def execSmbusWriteWord (code : Nat) (op : SmbusOp) (s : State) : Out' := .next (s.whenOn fun s => s.smbus code op)

/-- Is SMB_ALERT# low (Table 18.2)? -/
def State.smbAlertLow (s : State) : Bool := s.power.smbAlert &&& s.power.smbAlertEn != 0

/-- SMBUS_ALERT_RESPONSE: the module answers with its address 0x58 while SMB_ALERT# is low (R442). -/
def execSmbusAlertResponse (s : State) : Out' :=
  .next (s.whenOn fun s => if s.smbAlertLow then s.answer (.word 0x58) else s.answer .unsupported)

end Sys2Proof.Machine
end

