-- ==== Sys2Proof/Machine/Collectives.lean ====
section
/-!
DEFINITION. How the bytes of a collective travel and when its result stands (R127, R264, R269, R270, R273): chunks and their owners, the
partials of aligned blocks, sub-chunks over boards, the rounds of a ring. What a member sends, what it waits for and its result are functions
of its own bytes and of what has arrived. The numbers of chunks behind the first are the model's (log 27).
-/
namespace Sys2Proof.Machine

open Sys2Proof

/-! ### Bytes and words -/

def bytesWords (bs : List Byte) : List Word :=
  (List.range (bs.length / 4)).map fun k => BitVec.ofNat 32 (ofLe ((bs.drop (4 * k)).take 4))

def wordBytes (l : List Word) : List Byte := l.flatMap fun w => toLe 4 w.toNat

/-- Bytes of a chunk of a collective (R269). -/
def chunkBytes : Nat := 2048

/-- Chunks of a number of bytes. -/
def chunkCount (len : Nat) : Nat := ceilDiv len chunkBytes

/-- Chunk `k` of some bytes. -/
def chunkOf (b : List Byte) (k : Nat) : List Byte := (b.drop (chunkBytes * k)).take chunkBytes

/-! ### What has arrived -/

def Coll.part (c : Coll) (rank chunk : Nat) : Option (List Byte) :=
  (c.parts.find? fun q => q.1 == rank && q.2.1 == chunk).map fun q => q.2.2

/-- What a rank has sent under a chunk number: none while it may still come; the bytes `own` in the place of a failed rank's, whose
payload is not read (R273, Table 10.8). -/
def Coll.got (c : Coll) (rank chunk : Nat) (own : List Byte) : Option (List Byte) :=
  (c.part rank chunk).or (if c.failed.contains rank then some own else none)

/-- `n` consecutive chunks of a rank, with this module's own bytes in place of a failed rank's. -/
def Coll.run (c : Coll) (rank first n : Nat) (own : List Byte) : Option (List Byte) :=
  ((List.range n).mapM fun k => c.got rank (first + k) (chunkOf own k)).map List.flatten

/-! ### Reductions -/

/-- The members of a group on the board of a rank, in group rank order (R269). -/
def Topology.boardSet (t : Topology) (rs : List Nat) (r : Nat) : List Nat := rs.filter fun q => t.boardOf q == t.boardOf r

/-- The boards that take part, in increasing number. -/
def Topology.boards (t : Topology) (rs : List Nat) : List Nat := ((rs.map t.boardOf).dedup).insertionSort (· ≤ ·)

/-- The owner of a chunk on a board: the member of its set at position chunk mod set size (R269). -/
def Topology.ownerOn (t : Topology) (rs : List Nat) (board k : Nat) : Nat :=
  let set := rs.filter fun q => t.boardOf q == board
  set.getD (k % set.length) 0

/-- Is block `b` of eight consecutive group ranks aligned: all present, on one board (R270)? -/
def Topology.aligned (t : Topology) (rs : List Nat) (b : Nat) : Bool :=
  decide (8 * b + 7 < rs.length) && (List.range 8).all fun k => t.boardOf (rs.getD (8 * b + k) 0) == t.boardOf (rs.getD (8 * b) 0)

/-- The group ranks of a board whose values cross the fabric: the first of each aligned block, for the block, and every rank outside
aligned blocks (R270). -/
def Topology.crossing (t : Topology) (rs : List Nat) (board : Nat) : List Nat :=
  (List.range rs.length).filter fun p => t.boardOf (rs.getD p 0) == board && (!t.aligned rs (p / 8) || p % 8 == 0)

/-- The levels of the tree of R127 that an owner still computes where blocks have had their first three. -/
def treeRest (blk : Nat → Bool) (p : Nat) : Nat → Nat → List Word → List Word
  | 0, _, v => v
  | n + 1, w, v =>
    if w < p then
      treeRest blk p n (2 * w) ((List.range v.length).map fun i =>
        if i % (2 * w) = 0 ∧ i + w < p ∧ !(decide (w < 8) && blk (i / 8)) then f32add (v.getD i 0) (v.getD (i + w) 0) else v.getD i 0)
    else v

/-- Words combined across members place by place, by a function of the members' values in order. -/
def zipMembers (f : List Word → Word) (ws : List (List Word)) : List Word :=
  (List.range ((ws.headD []).length)).map fun k => f (ws.map fun w => w.getD k 0)

/-- The tree of R127 over equally long runs of FP32 bytes in group rank order. -/
def treeBytes (l : List (List Byte)) : List Byte := wordBytes (zipMembers treeReduce (l.map bytesWords))

/-- Words of sub-chunk `k` of `b` (R270; the cut is the model's, log 27). -/
def subChunk (b k : Nat) (ws : List Word) : List Word :=
  let n := ws.length
  (ws.take ((k + 1) * n / b)).drop (k * n / b)

/-- The values that the owner of a chunk holds from its own board: raw ones, +0 for a failed member. -/
def Coll.raws (c : Coll) (set : List Nat) (me k : Nat) : Option (List (Nat × List Word)) :=
  let own := chunkOf c.mine k
  set.mapM fun r =>
    if r = me then some (r, bytesWords own)
    else (c.got r k (List.replicate own.length 0)).map fun b => (r, bytesWords b)

/-- What a board brings to a chunk: one run of words for each crossing group rank, the partial of its block or its own value (R270). -/
def crossWords (t : Topology) (rs : List Nat) (board : Nat) (raw : List (Nat × List Word)) : List (List Word) :=
  let val (p : Nat) : List Word := match raw.find? fun q => q.1 == rs.getD p 0 with | some q => q.2 | none => []
  (t.crossing rs board).map fun p =>
    if t.aligned rs (p / 8) then zipMembers treeReduce ((List.range 8).map fun j => val (p + j)) else val p

/-- `n` runs of equal length cut from bytes. -/
def cutRuns (n : Nat) (b : List Byte) : List (List Word) :=
  let ws := bytesWords b
  (List.range n).map fun k => (ws.drop (k * (ws.length / n))).take (ws.length / n)

/-- The remaining levels of the tree over every board's runs: group rank by group rank, a block's members behind its first are not
read (R270). -/
def finishTree (t : Topology) (rs : List Nat) (vals : List (Nat × List Word)) : List Word :=
  let n := ((vals.map Prod.snd).headD []).length
  let at' (p : Nat) : List Word := match vals.find? fun q => q.1 == p with | some q => q.2 | none => List.replicate n 0
  zipMembers (fun v => (treeRest (t.aligned rs) rs.length rs.length 1 v).headD 0) ((List.range rs.length).map at')

/-- What this module knows of a chunk that it owns on its board, over boards: its own runs, the sub-chunk that it completes, and the
whole result; each as soon as it stands (R270). `nC` chunks; numbers nC + k carry runs, 2 nC + k completed sub-chunks. -/
structure Owned where
  runs : Option (List (List Word))
  sub : Option (List Word)
  whole : Option (List Word)

def Coll.owned (c : Coll) (t : Topology) (rs : List Nat) (me nC k : Nat) : Owned :=
  let board := t.boardOf me
  let bs := t.boards rs
  let own := bytesWords (chunkOf c.mine k)
  match c.raws (t.boardSet rs me) me k with
  | none => ⟨none, none, none⟩
  | some raw =>
    let runs := crossWords t rs board raw
    let b := bs.length
    let i := bs.idxOf board
    let mineAt (q : Nat) : List (Nat × List Word) := (t.crossing rs q).zip (runs.map (subChunk b i))
    let theirs (q : Nat) : Option (List (Nat × List Word)) :=
      let cr := t.crossing rs q
      let zero := wordBytes (cr.flatMap fun _ => (subChunk b i own).map fun _ => 0)
      (c.got (t.ownerOn rs q k) (nC + k) zero).map fun x => cr.zip (cutRuns cr.length x)
    let sub := (bs.mapM fun q => if q = board then some (mineAt q) else theirs q).map fun l => finishTree t rs l.flatten
    let whole := (bs.mapIdx fun j q => (j, q)).mapM fun q =>
      if q.2 = board then sub else (c.got (t.ownerOn rs q.2 k) (2 * nC + k) (wordBytes (subChunk b q.1 own))).map bytesWords
    ⟨some runs, sub, if sub.isSome then whole.map List.flatten else none⟩

/-- The chunks of a reduction whose owner on the board this module is. -/
def ownedChunks (t : Topology) (rs : List Nat) (me nC : Nat) : List Nat :=
  (List.range nC).filter fun k => t.ownerOn rs (t.boardOf me) k == me

/-- What a reducing collective sends now, as (rank, chunk number, bytes). -/
def Coll.dueReduce (c : Coll) (t : Topology) (rs : List Nat) (me : Nat) : List (Nat × Nat × List Byte) :=
  let nC := chunkCount c.mine.length
  let board := t.boardOf me
  let bs := t.boards rs
  let raw := (List.range nC).filterMap fun k =>
    let o := t.ownerOn rs board k
    if o = me then none else some (o, k, chunkOf c.mine k)
  let own := (ownedChunks t rs me nC).flatMap fun k =>
    let w := c.owned t rs me nC k
    let far := (bs.mapIdx fun j q => (j, q)).filter fun q => q.2 != board
    let runs := match w.runs with
      | some l => far.map fun q => (t.ownerOn rs q.2 k, nC + k, wordBytes (l.flatMap (subChunk bs.length q.1)))
      | none => []
    let subs := match w.sub with
      | some l => far.map fun q => (t.ownerOn rs q.2 k, 2 * nC + k, wordBytes l)
      | none => []
    let back := match w.whole with
      | some l => ((t.boardSet rs me).filter (· != me)).map fun r => (r, 3 * nC + k, wordBytes l)
      | none => []
    runs ++ subs ++ back
  raw ++ own

/-- What a reducing collective waits for, as (rank, chunk number). -/
def Coll.needReduce (c : Coll) (t : Topology) (rs : List Nat) (me : Nat) : List (Nat × Nat) :=
  let nC := chunkCount c.mine.length
  let far := (t.boards rs).filter (· != t.boardOf me)
  (List.range nC).flatMap fun k =>
    let o := t.ownerOn rs (t.boardOf me) k
    if o = me then
      (((t.boardSet rs me).filter (· != me)).map fun r => (r, k))
        ++ far.flatMap fun q => [(t.ownerOn rs q k, nC + k), (t.ownerOn rs q k, 2 * nC + k)]
    else [(o, 3 * nC + k)]

/-- The result of a reducing collective. -/
def Coll.reduce (c : Coll) (t : Topology) (rs : List Nat) (me : Nat) : Option (List Byte) :=
  let nC := chunkCount c.mine.length
  ((List.range nC).mapM fun k =>
    let o := t.ownerOn rs (t.boardOf me) k
    if o = me then (c.owned t rs me nC k).whole.map wordBytes else c.got o (3 * nC + k) (chunkOf c.mine k)).map List.flatten

/-! ### Gathers -/

/-- What a gather sends: every chunk to every other member. -/
def Coll.dueGather (c : Coll) (rs : List Nat) (me : Nat) : List (Nat × Nat × List Byte) :=
  (rs.filter (· != me)).flatMap fun r => (List.range (chunkCount c.mine.length)).map fun k => (r, k, chunkOf c.mine k)

def needGather (rs : List Nat) (me : Nat) (lens : List Nat) : List (Nat × Nat) :=
  (rs.zip lens).flatMap fun q => if q.1 = me then [] else (List.range (chunkCount q.2)).map fun k => (q.1, k)

/-- The contributions of all members in group rank order; `lens` gives how many bytes each contributes. -/
def Coll.gather (c : Coll) (rs : List Nat) (me : Nat) (lens : List Nat) : Option (List (List Byte)) :=
  (rs.zip lens).mapM fun q => if q.1 = me then some c.mine else c.run q.1 0 (chunkCount q.2) (c.mine.take q.2)

/-! ### Rings (R264) -/

/-- The neighbours in a ring: where its shards come from, and where they go. -/
def ringPrev (rs : List Nat) (i : Nat) : Nat := rs.getD ((i + rs.length - 1) % rs.length) 0
def ringNext (rs : List Nat) (i : Nat) : Nat := rs.getD ((i + 1) % rs.length) 0

/-- Round 1 sends the own shard, round r the shard that round r - 1 brought; `n` chunks a shard. The first `rounds` rounds may begin. -/
def Coll.dueRing (c : Coll) (rs : List Nat) (me rounds : Nat) : List (Nat × Nat × List Byte) :=
  let i := rs.idxOf me
  let n := chunkCount c.mine.length
  ((List.range n).map fun k => (ringNext rs i, k, chunkOf c.mine k))
    ++ (List.range (min (rounds - 1) (rs.length - 2))).flatMap fun r => (List.range n).filterMap fun k =>
        (c.part (ringPrev rs i) (r * n + k)).map fun b => (ringNext rs i, (r + 1) * n + k, b)

def Coll.needRing (c : Coll) (rs : List Nat) (me : Nat) : List (Nat × Nat) :=
  (List.range ((rs.length - 1) * chunkCount c.mine.length)).map fun k => (ringPrev rs (rs.idxOf me), k)

/-- Shard `j` once it is here: shard (i - r) mod S has come in round r. -/
def Coll.shard (c : Coll) (rs : List Nat) (me j : Nat) : Option (List Byte) :=
  let i := rs.idxOf me
  let n := chunkCount c.mine.length
  if j = i then some c.mine
  else c.run (ringPrev rs i) (((i + rs.length - j) % rs.length - 1) * n) n c.mine

/-- Every shard in increasing index. -/
def Coll.ring (c : Coll) (rs : List Nat) (me : Nat) : Option (List (List Byte)) := (List.range rs.length).mapM (c.shard rs me)

/-- The number of the first chunk of the partial that shard `m` has at member `j`. -/
def partialNo (s m j n : Nat) : Nat := (m * s + j) * n

/-- Block `m` of bytes cut in `s` equal blocks. -/
def blockOf (s m : Nat) (b : List Byte) : List Byte := (b.drop (m * (b.length / s))).take (b.length / s)

/-- The partials (shard, origin) that pass from member i + 1 to member i on their way to their owner. -/
def passing (s i : Nat) : List (Nat × Nat) :=
  (List.range s).flatMap fun m => ((List.range s).filter fun j => j != i && decide ((j + s - i) % s ≤ (j + s - m) % s)).map fun j => (m, j)

/-- The partials travel the other way, each toward the owner of its shard (R264, Table 8.2). -/
def Coll.dueReturn (c : Coll) (rs : List Nat) (me : Nat) : List (Nat × Nat × List Byte) :=
  let s := rs.length
  let i := rs.idxOf me
  let n := chunkCount (c.mine.length / s)
  let own := ((List.range s).filter (· != i)).flatMap fun m => (List.range n).map fun k =>
    (ringPrev rs i, partialNo s m i n + k, chunkOf (blockOf s m c.mine) k)
  let on := ((passing s i).filter fun q => q.1 != i).flatMap fun q => (List.range n).filterMap fun k =>
    (c.part (ringNext rs i) (partialNo s q.1 q.2 n + k)).map fun b => (ringPrev rs i, partialNo s q.1 q.2 n + k, b)
  own ++ on

def Coll.needReturn (c : Coll) (rs : List Nat) (me : Nat) : List (Nat × Nat) :=
  let s := rs.length
  let i := rs.idxOf me
  let n := chunkCount (c.mine.length / s)
  (passing s i).flatMap fun q => (List.range n).map fun k => (ringNext rs i, partialNo s q.1 q.2 n + k)

/-- Runs of FP32 bytes added in their order. -/
def addRuns (l : List (List Byte)) : List Byte :=
  match l.map bytesWords with
  | [] => []
  | w :: ws => wordBytes (ws.foldl (fun a b => a.zipWith f32add b) w)

/-- The owner adds the partials of its shard in increasing index of the member that formed them (Table 8.2). -/
def Coll.returned (c : Coll) (rs : List Nat) (me : Nat) : Option (List Byte) :=
  let s := rs.length
  let i := rs.idxOf me
  let own := blockOf s i c.mine
  let n := chunkCount own.length
  ((List.range s).mapM fun j => if j = i then some own else c.run (ringNext rs i) (partialNo s i j n) n own).map addRuns

/-! ### All kinds -/

/-- The ranks that take part in a collective of this module: more than one, itself among them. -/
def State.members (s : State) (group : Nat) : Option (List Nat × Topology) :=
  match s.fabric.topo with
  | none => none
  | some t => match t.group group with
    | none => none
    | some rs => if rs.length > 1 && rs.contains t.myRank then some (rs, t) else none

/-- The rank of this module in a group of several members, with their number; alone otherwise. -/
def State.place' (s : State) (group : Nat) : Nat × Nat :=
  match s.members group with
  | some (rs, t) => (rs.idxOf t.myRank, rs.length)
  | none => (0, 1)

/-- What a collective sends as its inputs allow, a ring no further than `rounds`. -/
def Coll.due (c : Coll) (t : Topology) (rs : List Nat) (rounds : Nat) : List (Nat × Nat × List Byte) :=
  if c.mine.isEmpty then []
  else match c.kind with
    | 0 | 1 => c.dueReduce t rs t.myRank
    | 3 => c.dueRing rs t.myRank rounds
    | 6 => c.dueReturn rs t.myRank
    | _ => c.dueGather rs t.myRank

/-- What a collective waits for. -/
def Coll.need (c : Coll) (t : Topology) (rs : List Nat) (lens : List Nat) : List (Nat × Nat) :=
  match c.kind with
  | 0 | 1 => c.needReduce t rs t.myRank
  | 3 => c.needRing rs t.myRank
  | 6 => c.needReturn rs t.myRank
  | _ => needGather rs t.myRank lens

/-- The result of a joined collective: one run of bytes for a reduction, the contributions in order for a gather or a ring. -/
def Coll.result (c : Coll) (t : Topology) (rs : List Nat) (lens : List Nat) : Option (List (List Byte)) :=
  if c.mine.isEmpty then none
  else match c.kind with
    | 0 | 1 => (c.reduce t rs t.myRank).map fun b => [b]
    | 3 => c.ring rs t.myRank
    | 6 => (c.returned rs t.myRank).map fun b => [b]
    | _ => c.gather rs t.myRank lens

/-- The ranks that a collective still waits for. -/
def Coll.silent (c : Coll) (t : Topology) (rs : List Nat) (lens : List Nat) : List Nat :=
  let ws := (c.need t rs lens).filter fun q => !c.failed.contains q.1 && (c.part q.1 q.2).isNone
  rs.filter fun r => ws.any fun q => q.1 == r

/-! ### Exact sums (R246) -/

/-- An exact sum as 96 bytes: 0 finite, 1 and 2 the infinities, 3 NaN; then the value times 2^300 in two's complement (log 23). -/
def xvBytes (x : XV) : List Byte :=
  match x with
  | .nan => 3 :: List.replicate 95 0
  | .inf s => (if s then 2 else 1) :: List.replicate 95 0
  | .fin s m e => 0 :: toLe 95 (encInt 760 (let v : Nat := if e + 300 ≥ 0 then m * 2 ^ (e + 300).toNat else m / 2 ^ (-(e + 300)).toNat
      if s then -(v : Int) else v))

def xvOfBytes (b : List Byte) : XV :=
  match fieldLe b 0 1 with
  | 0 => (Dy.mk (decInt 760 (fieldLe b 1 95)) (-300)).xv
  | 1 => .inf false
  | 2 => .inf true
  | _ => .nan

def xvsBytes (l : List XV) : List Byte := l.flatMap xvBytes

def xvsOf (b : List Byte) : List XV := (List.range (b.length / 96)).map fun k => xvOfBytes ((b.drop (96 * k)).take 96)

/-- Members' partial sums combined place by place. -/
def addSums (l : List (List XV)) : List XV :=
  match l with
  | [] => []
  | x :: xs => xs.foldl (fun a b => a.zipWith XV.add b) x

end Sys2Proof.Machine
end

