-- ==== Sys2Proof/Machine/Forward.lean ====
section
/-!
DEFINITION. What each record of a program computes in FWD(u), bit for bit: the products (R57, R59, R101), SCATTER_ADD and
SEGMENT_REDUCE (R60, R61), attention by the online softmax (R62, R63, R124, R125), NORM, SOFTMAX and ELEMENTWISE (R64 to
R66), CONVERT, ROTATE and QUANTIZE (R95, R128, R131, R166, R447), ROUTE (R68), HISTOGRAM (R69) and LOSS (R71). COLLECTIVE
records move data between modules and are not here.
-/
namespace Sys2Proof.Machine

open Sys2Proof

/-- One output of a record with the counts of its statistics (Table 6.1). -/
structure Written where
  desc : Nat
  t : Tensor
  chan : List ChanEnt
  sats : Nat
  nonfin : Nat
  shed : Nat
  ovf : Nat
  deriving DecidableEq, Repr

/-- What a record gives: its outputs, the events its layer operation will write, the kept log-sum-exp words, an INDEX_ORDER
breach as descriptor and position, and the loss. -/
structure RecOut where
  outs : List Written
  notes : List Note
  lse : List Word
  broken : Option (Nat × Nat)
  loss : Option Word
  deriving DecidableEq, Repr

def RecOut.of (outs : List Written) : RecOut := ⟨outs, [], [], none, none⟩

/-- Every NaN that the module writes is the canonical one (R83). -/
def canonNan (w : Word) : Word := if f32 w == .nan then f32nan else w

/-- An FP32 output: its non-finite elements are counted as stored (R56, R83, R100). -/
def fp32Out (id : Nat) (shape : List Nat) (ws : List Word) (shed : Nat) : Written :=
  ⟨id, fp32Tensor shape (ws.map canonNan), [], 0, countIf (fun w => !f32isFin w) ws, shed, 0⟩

/-- A tensor that a record moves without changing it: its elements that are infinities or NaNs count as stored, under the block scales
and outlier slots that moved with them (R69, R100). -/
def movedOut (d : Desc) (t : Tensor) : Written :=
  let v : View := ⟨t, d.bdim, none, false⟩
  ⟨d.id, t, [], 0, countIf (fun i => !(v.elemFinite i)) (List.range t.codes.length), 0, 0⟩

/-- An IX32 output. -/
def ixOut (id : Nat) (shape : List Nat) (ns : List Nat) : Written := ⟨id, ⟨⟨.ix32, false⟩, shape, ns, [], []⟩, [], 0, 0, 0, 0⟩

def nullIx : Nat := 0xFFFFFFFF

/-! ### Products -/

/-- `n` elements of an operand from linear index `start`, `step` apart, as one side of a dot product. -/
def View.side (v : View) (start step n : Nat) : Side :=
  ⟨(List.range n).map fun k => v.el (start + step * k), v.entry start, v.zp start, v.t.fmt⟩

/-- A side of zero rows, as a null index selects (R59, R113). -/
def View.zeroSide (v : View) (n : Nat) : Side := ⟨List.replicate n El.zeroRow, none, 0, v.t.fmt⟩

/-- A product to form: the rows of A as start indices (none: a row of zeros) with the offset of their B, the extents K and N
of B, the columns and the range of K that this module takes. -/
structure ProdJob where
  a : View
  b : View
  rows : List (Option Nat × Nat)
  k : Nat
  n : Nat
  cols : List Nat
  kLo : Nat
  kN : Nat
  scaled : Bool
  mode : RMode
  key : GKey
  fold : Nat → Nat → Option Word

/-- The word that the fold of a tile gives for an element of what it is a tile of, once it has taken every span (R31). -/
def TileFold.word (f : TileFold) (i q : Nat) : Option Word :=
  if f.next = f.spans ∧ f.row ≤ i ∧ i < f.row + f.rows ∧ f.col ≤ q ∧ q < f.col + f.cols then f.acc[(i - f.row) * f.cols + (q - f.col)]?
  else none

/-- The folded word at row `i` and column `q` of this module's share of a product: of its output (form 0), of dA (1) or of dB (2), where its
work items have brought it to a tower (R31). -/
def Ctx.folded (c : Ctx) (y form i q : Nat) : Option Word :=
  (c.p.writer y).bind fun k => (c.st.recs.filter fun r => r.record == k && r.mb == c.mb).findSome? fun r =>
    (r.folds.filter fun f => f.form == form).findSome? fun f => f.word i q

/-- Every element of a product, row after row (R101, R122): the span results in the fold of its tile, then the channel scale (R118). -/
def ProdJob.run (j : ProdJob) : List DotRes :=
  (j.rows.mapIdx fun r (q : Option Nat × Nat) =>
    let sa := match q.1 with
      | some st => j.a.side (st + j.kLo) 1 j.kN
      | none => j.a.zeroSide j.kN
    j.cols.mapIdx fun i c =>
      let sb := j.b.side (q.2 + j.kLo * j.n + c) j.n j.kN
      let d := dot j.mode { j.key with row := r, column := c, span := j.key.span + j.kLo / 1024 } false sa sb
      let f := (j.fold r i).getD d.w
      { d with w := if j.scaled then channelScale sa sb f else f }).flatten

/-- The least occurrence of 0 × ∞ in the order row, column, span (R115); `cols` are the columns formed and `s0` is the first
span. -/
def invalidAt (cols : List Nat) (s0 : Nat) (rs : List DotRes) : Option (List Nat) :=
  match rs.findIdx? fun r => r.invalid.isSome with
  | none => none
  | some i => some [i / cols.length, cols.getD (i % cols.length) 0, s0 + ((rs.getD i ⟨0, 0, none⟩).invalid.getD 0)]

/-- The INVALID_PRODUCT note of a record. -/
def invalidNote (layer mb phase desc : Nat) (p : Option (List Nat)) : List Note :=
  match p with
  | some pos => [⟨0x0104, layer, mb, phase, desc, pos⟩]
  | none => []

def sheds (rs : List DotRes) : Nat := (rs.map (·.shed)).foldl (· + ·) 0

/-- The fold code of a record's output: its QCTL, or the FOLD ladder of the plan at the rung in force (R166). -/
def Ctx.foldCode (c : Ctx) (o : OpRec) (y : Desc) : Nat :=
  match c.x.plan.bind fun pl => pl.layers[o.layer]? with
  | some e => if o.isRoleY then (ladderAt e.fold (c.st.rung o.layer).rf).getD y.fold else y.fold
  | none => y.fold

/-- The key of a rounding under an output (R122); row, column and span are set where it is used. -/
def Ctx.key (c : Ctx) (tag span : Nat) : GKey := ⟨seedOf c.st.seed c.mb, tag, 0, 0, span⟩

/-- The rows of A of a product record, and of its index vector the first bad index. -/
structure Rows where
  rows : List (Option Nat × Nat)
  k : Nat
  n : Nat
  bad : Option Nat
  deriving DecidableEq, Repr

def matmulRows (a b : Desc) (sa sb : List Nat) : Rows :=
  let k := lastExt sa
  let n := lastExt sb
  let m := sa.getD (a.rank - 2) 1
  let rows := (List.range (prod sa / k)).map fun r => (some (r * k), if b.rank = 2 then 0 else r / m * (k * n))
  ⟨rows, k, n, none⟩

/-- Rows that an index vector selects from a table of `t` rows (R59). -/
def indexRows (idx : List Nat) (t k n : Nat) : Rows :=
  ⟨idx.map fun i => (if i < t then some (i * k) else none, 0), k, n, idx.findIdx? fun i => i != nullIx && decide (t ≤ i)⟩

/-- INDEX_RANGE: the position of the first such index (R59). -/
def rangeNote (layer mb desc : Nat) (p : Option Nat) : List Note :=
  match p with
  | some k => [⟨0x0101, layer, mb, 0, desc, [k]⟩]
  | none => []

/-- The share of a product that this module forms: columns and range of K (R262). -/
structure Part' where
  cols : List Nat
  kLo : Nat
  kN : Nat
  scaled : Bool
  deriving DecidableEq, Repr

def wholePart (r : Rows) : Part' := ⟨List.range r.n, 0, r.k, true⟩

/-- The operands, rows and output of a MATMUL or GATHER_MATMUL record; none of any other record. -/
def Ctx.prodRows (c : Ctx) (o : OpRec) : Option (Desc × Desc × Desc × Rows × Nat) :=
  match o.opcode, o.ins.filterMap c.p.desc, o.outs.filterMap c.p.desc with
  | 0x0001, [a, b], [y] => some (a, b, y, matmulRows a b (c.shape a) (c.shape b), a.id)
  | 0x0002, [t, i, b], [y] =>
    let sb := c.shape b
    some (t, b, y, indexRows (c.tensor i).codes ((c.shape t).getD 0 0) (lastExt (c.shape t)) (lastExt sb), i.id)
  | _, _, _ => none

/-- A product record, or the share of it that `part` names. The words are those of the columns formed. -/
def Ctx.product (c : Ctx) (o : OpRec) (part : Rows → Part') : RecOut :=
  match c.prodRows o with
  | none => RecOut.of []
  | some (a, b, y, r, idxId) =>
    let p := part r
    let rs := (ProdJob.mk (c.view a) (c.view b) r.rows r.k r.n p.cols p.kLo p.kN p.scaled
      (foldMode (c.foldCode o y) r.k) (c.key y.id 0) (c.folded y.id 0)).run
    let shape := if p.cols.length = r.n then c.shape y else updAt (c.shape y) (y.rank - 1) fun _ => p.cols.length
    { RecOut.of [fp32Out y.id shape (rs.map (·.w)) (sheds rs)] with
      notes := rangeNote o.layer c.mb idxId r.bad
        ++ invalidNote o.layer c.mb 0 y.id (invalidAt p.cols (p.kLo / 1024) rs) }

/-! ### Scatter and segments -/

/-- SCATTER_ADD (R60). -/
def scatterAdd (d : Nat) (init : List (List Word)) (src : List (List Word)) (idx : List Nat) : List (List Word) :=
  (src.zip idx).foldl (fun (out : List (List Word)) q =>
    updAt out q.2 fun row => (List.range d).map fun j => f32add (row.getD j 0) (q.1.getD j 0)) init

/-- Conditions of R61 on the offsets of `n` segments over `t` items: the least position that breaks them. An offset that is not
there breaks them (log 75). -/
def orderBreach (n : Nat) (off : List Nat) (t : Nat) : Option Nat :=
  (List.range (n + 1)).find? fun s =>
    decide (off.length ≤ s) || (s == 0 && off.getD 0 0 != 0) || (s != 0 && decide (off.getD s 0 < off.getD (s - 1) 0))
      || (s == n && off.getD s 0 != t)

/-- One segment's reduction over its rows (R61). The spec gives no starting value of a sum that is not empty: it starts from +0, as
R55 and R60 start theirs, so a segment of -0 rows gives +0 (DESIGN CHOICE, log 72). -/
def segment (mode d : Nat) (rows : List (List Word)) : List Word :=
  (List.range d).map fun j =>
    let col := rows.map fun r => r.getD j 0
    if col.isEmpty then 0
    else match mode with
      | 1 => col.foldl f32max f32ninf
      | 0 => col.foldl f32add 0
      | _ => toF32 ((f32 (col.foldl f32add 0)).div (.fin false col.length 0))

def segmentRows {α : Type} (off : List Nat) (rows : List α) (s : Nat) : List α :=
  (rows.drop (off.getD s 0)).take (off.getD (s + 1) 0 - off.getD s 0)

/-! ### Attention -/

/-- The running state of one query token and head (R124). -/
structure Att where
  m : Word
  l : Word
  o : List Word
  shed : Nat
  /-- least occurrence of 0 × ∞ as (column, chunk) -/
  bad : Option (Nat × Nat)
  deriving DecidableEq, Repr

/-- An attention record: its operands, heads, key heads, head size, scale, fold and key. -/
structure AttJob where
  q : View
  k : View
  v : View
  h : Nat
  hkv : Nat
  dh : Nat
  scale : Word
  mode : Nat → RMode
  key : GKey

def bf16 (w : Word) : Word := BitVec.ofNat 32 (FpFmt.bf16.ieee .rne (f32 w) * 65536)

/-- The key of a pair: occurrences in order of column, then span (R115). -/
def pickBad (a b : Option (Nat × Nat)) : Option (Nat × Nat) :=
  match a, b with
  | some x, some y => if y.1 < x.1 ∨ (y.1 = x.1 ∧ y.2 < x.2) then some y else some x
  | some x, none => some x
  | none, y => y

/-- The score dot product of a query row and a key row (R124). R118 refuses a CDIM that is the reduction dimension of MATMUL and
GATHER_MATMUL only: a Q or K whose CDIM is Dh takes the entry of its row's first element for the row (DESIGN CHOICE, log 90). -/
def AttJob.score (j : AttJob) (qr kr : Nat) : DotRes :=
  let d := dot .rne ⟨0, 0, 0, 0, 0⟩ true (j.q.side (qr * j.dh) 1 j.dh) (j.k.side (kr * j.dh) 1 j.dh)
  { d with w := f32mul j.scale d.w }

/-- An element of V with its channel scale (R92): R118 gives an attention product no fold at which to apply one, so its value
enters the register (DESIGN CHOICE, log 73). -/
def View.scaledEl (v : View) (i : Nat) : El :=
  match v.entry i with
  | none => v.el i
  | some e =>
    if e.const then ⟨0, 0, e.constVal, e.constVal, [], true⟩
    else { v.el i with val := e.cs.mul (v.codeVal i), outs := (v.el i).outs.map e.cs.mul }

/-- The scores of a query row with the key rows of a chunk, and the maximum that they lead to from a state (R124). -/
def AttJob.scores (j : AttJob) (qr : Nat) (a : Att) (keys : List Nat) : List DotRes × Word :=
  let sc := keys.map (j.score qr)
  (sc, (sc.map (·.w)).foldl f32max a.m)

/-- The probabilities of a chunk under a maximum, rounded to BF16 (R124). -/
def chunkProbs (sc : List DotRes) (mn : Word) : List XV := sc.map fun s => f32 (bf16 (f32exp (f32sub s.w mn)))

/-- The products of pb and V of a chunk, each column through one backward span register with its anchor and shed rule (R101, R106 to R108,
R124). -/
def AttJob.chunkSums (j : AttJob) (qr : Nat) (a : Att) (keys : List Nat) : List SpanVal :=
  let (sc, mn) := j.scores qr a keys
  let pbs : List El := (chunkProbs sc mn).map fun x => ⟨0, 0, x, x, [], true⟩
  (List.range j.dh).map fun d =>
    spanValue ⟨pbs, none, 0, ⟨.bf16, false⟩⟩ ⟨[], none, 0, j.v.t.fmt⟩ pbs (keys.map fun k => j.v.scaledEl (k * j.dh + d))

/-- Chunk `c` of a query row over the key rows `keys` (R124); `len` is the reduction length for AUTO. A score that forms 0 × ∞ has no column of
the output: it is reported in column 0 (DESIGN CHOICE, log 72). -/
def AttJob.chunk (j : AttJob) (qr len : Nat) (a : Att) (c : Nat) (keys : List Nat) : Att :=
  let (sc, mn) := j.scores qr a keys
  let al := f32exp (f32sub a.m mn)
  let l := toF32 ((f32 (f32mul a.l al)).add ((chunkProbs sc mn).foldl XV.add (.fin false 0 0)))
  let sums := j.chunkSums qr a keys
  let o := sums.mapIdx fun d v =>
    foldStep (j.mode len) { j.key with row := qr, column := d, span := j.key.span + c } (f32mul (a.o.getD d 0) al) v.v
  let badS := if sc.any fun s => s.invalid.isSome then some (0, c) else none
  let badV := (firstInvalid sums).map fun d => (d, c)
  ⟨mn, l, o, a.shed + sheds sc + (sums.map (·.shed)).foldl (· + ·) 0, pickBad a.bad (pickBad badS badV)⟩

def AttJob.start (j : AttJob) : Att := ⟨f32ninf, 0, List.replicate j.dh 0, 0, none⟩

/-- The chunks of one shard (R124, R125); a chunk without keys is skipped. -/
def AttJob.shard (j : AttJob) (qr len : Nat) (cs : List (Nat × List Nat)) : Option Att :=
  let cs := cs.filter fun c => !c.2.isEmpty
  if cs.isEmpty then none else some (cs.foldl (fun a c => j.chunk qr len a c.1 c.2) j.start)

/-- The merge of two partials (R125). -/
def Att.merge (a b : Att) : Att :=
  let mn := f32max a.m b.m
  let aa := f32exp (f32sub a.m mn)
  let ab := f32exp (f32sub b.m mn)
  let two (x y : Word) : Word := f32add (f32mul x aa) (f32mul y ab)
  ⟨mn, two a.l b.l, (a.o.zip b.o).map fun q => two q.1 q.2, a.shed + b.shed, pickBad a.bad b.bad⟩

/-- One row: its shards merged in order, and its output with the kept value (R124, R125). -/
def AttJob.row (j : AttJob) (qr len : Nat) (shards : List (List (Nat × List Nat))) : List Word × Word × Att :=
  match (shards.filterMap (j.shard qr len)) with
  | [] => (List.replicate j.dh 0, f32ninf, j.start)
  | p :: ps =>
    let a := ps.foldl Att.merge p
    (a.o.map fun w => f32div w a.l, f32add a.m (f32log a.l), a)

/-- 128 edges at a time, with their ordinals (R124). -/
def edgeChunks : Nat → Nat → List Nat → List (Nat × List Nat)
  | 0, _, _ => []
  | n + 1, c, es => if es.isEmpty then [] else (c, es.take 128) :: edgeChunks n (c + 1) (es.drop 128)

/-- How an ATTEND runs as ring attention: the shards, their extent, and this module's place (R263). -/
structure Ring where
  s : Nat
  ts : Nat
  me : Nat
  deriving DecidableEq, Repr

/-- Is key position `kp` admitted for query `t` (R63)? `mask` gives a bit by query block and local key block. -/
def admits (mode : Nat) (mask : Nat → Nat → Bool) (qPos t kp : Nat) : Bool :=
  (mode % 2 == 0 || decide (kp ≤ qPos)) && (decide (mode < 2) || mask (t / 128) (kp / 128))

/-- The admitted keys of one query row of an ATTEND, by shard and chunk, as key positions. -/
def attendKeys (g : Ring) (tq : Nat) (mode : Nat) (mask : Nat → Nat → Bool) (t : Nat) : List (List (Nat × List Nat)) :=
  (List.range g.s).map fun i => (List.range (ceilDiv g.ts 128)).map fun b =>
    let lo := i * g.ts + b * 128
    (lo / 128, ((List.range (min 128 (g.ts - b * 128))).map (lo + ·)).filter (admits mode mask (g.me * tq + t) t))

/-- The ring behind the K of an ATTEND: the SEQ_RING record that writes it (R63, R263). -/
def Ctx.ring (c : Ctx) (k : Desc) (ts : Nat) : Ring :=
  match (c.p.writer k.id).bind fun i => c.p.ops[i]? with
  | some o =>
    if o.opcode = 0x000F ∧ fieldLe o.param 0 1 = 3 then
      match c.s.fabric.topo with
      | some t => match t.group (fieldLe o.param 4 2) with
        | some rs => ⟨rs.length, ts, rs.idxOf t.myRank⟩
        | none => ⟨1, ts, 0⟩
      | none => ⟨1, ts, 0⟩
    else ⟨1, ts, 0⟩
  | none => ⟨1, ts, 0⟩

/-- The adjacency of a GRAPH_ATTEND: row pointer and column indices. -/
structure Graph where
  rowPtr : List Nat
  colIdx : List Nat
  deriving DecidableEq, Repr

def Graph.edges (g : Graph) (t : Nat) : List Nat := segmentRows g.rowPtr g.colIdx t

/-- The breach of R62 at the least logical position (R196): in the row pointer (false) or in the column indices that the rows
before it name (true); at equal positions that of the row pointer. -/
def Graph.breach (g : Graph) (t : Nat) : Option (Bool × Nat) :=
  let long := ((List.range t).find? fun s => decide (g.rowPtr.getD (s + 1) 0 - g.rowPtr.getD s 0 > 65536)).map (· + 1)
  let row := match orderBreach t g.rowPtr g.colIdx.length, long with
    | some a, some b => some (min a b)
    | some a, none => some a
    | none, b => b
  let reach := match row with | some p => g.rowPtr.getD (p - 1) 0 | none => g.colIdx.length
  match row, (g.colIdx.take reach).findIdx? fun k => decide (t ≤ k) with
  | some p, some q => if q < p then some (true, q) else some (false, p)
  | some p, none => some (false, p)
  | none, q => q.map fun p => (true, p)

/-- An attention record as its rows see it: the job, and for each query token the chunks of its keys by shard, as key
positions, with the reduction length for AUTO. -/
structure AttPlan where
  job : AttJob
  tq : Nat
  chunks : Nat → List (List (Nat × List Nat))
  len : Nat → Nat
  breach : Option (Nat × Nat)
  out : Desc

def Ctx.attend (c : Ctx) (o : OpRec) (span : Nat) : Option AttPlan :=
  match o.ins.filterMap c.p.desc, o.outs.filterMap c.p.desc with
  | q :: k :: v :: rest, [y] =>
    let sq := c.shape q
    let sk := c.shape k
    let job : AttJob := ⟨c.view q, c.view k, c.view v, sq.getD 1 1, sk.getD 1 1, sq.getD 2 1,
      BitVec.ofNat 32 (fieldLe o.param 0 4), foldMode (c.foldCode o y), c.key y.id span⟩
    let tq := sq.getD 0 0
    if o.opcode = 0x0006 then
      let mode := fieldLe o.param 4 1
      let m := match rest with | d :: _ => c.tensor d | [] => ⟨⟨.bit1, false⟩, [], [], [], []⟩
      let mc := m.shape.getD 1 1
      let g := c.ring k (sk.getD 0 0)
      -- a ring's mask holds the blocks of one shard, which govern every shard; a bit that is not there admits nothing (log 75)
      let mask (a b : Nat) : Bool := let b := b % max 1 (ceilDiv g.ts 128); decide (b < mc) && m.codes.getD (a * mc + b) 0 == 1
      some ⟨job, tq, attendKeys g tq mode mask, fun _ => g.s * g.ts, none, y⟩
    else
      match rest with
      | [r, e] =>
        let g : Graph := ⟨(c.tensor r).codes, (c.tensor e).codes⟩
        some ⟨job, tq, fun t => [edgeChunks (g.colIdx.length + 1) 0 (g.edges t)], fun t => (g.edges t).length,
          (g.breach tq).map fun b => (if b.1 then e.id else r.id, b.2), y⟩
      | _ => none
  | _, _ => none

/-- The key rows of a query head: key position and key head (R63). -/
def AttJob.keyRow (j : AttJob) (head pos : Nat) : Nat := pos * j.hkv + head / (j.h / j.hkv)

def AttPlan.rowChunks (a : AttPlan) (t head : Nat) : List (List (Nat × List Nat)) :=
  (a.chunks t).map fun s => s.map fun c => (c.1, c.2.map (a.job.keyRow head))

/-- ATTEND and GRAPH_ATTEND forward. -/
def Ctx.attention (c : Ctx) (o : OpRec) : RecOut :=
  match c.attend o 0 with
  | none => RecOut.of []
  | some a =>
    match a.breach with
    | some b => { RecOut.of [] with broken := some b }
    | none =>
      let rows := (List.range (a.tq * a.job.h)).map fun r =>
        a.job.row r (a.len (r / a.job.h)) (a.rowChunks (r / a.job.h) (r % a.job.h))
      let bad := ((List.range rows.length).zip rows).findSome? fun q => q.2.2.2.bad.map fun b => [q.1, b.1, b.2]
      { RecOut.of [fp32Out a.out.id (c.shape a.out) (rows.flatMap (·.1)) ((rows.map fun r => r.2.2.shed).foldl (· + ·) 0)] with
        notes := invalidNote o.layer c.mb 0 a.out.id bad
        lse := rows.map fun r => r.2.1 }

/-! ### The vector engine -/

/-- The gain and the bias of a NORM record (R64; log 74). -/
def OpRec.normGain (o : OpRec) : Option Nat := if o.biasOnly then none else o.ins[1]?
def OpRec.normBias (o : OpRec) : Option Nat := if o.biasOnly then o.ins[1]? else o.ins[2]?

/-- The parts of a normalised row that R64 and R216 use: the normalised values and rsqrt(var + ε). The difference x − μ is exact
inside RNE((x − μ)²) and RNE((x − μ) · rsqrt): R64 names no rounding of its own for it. -/
def normRow (rms : Bool) (eps : Word) (xs : List Word) : List Word × Word :=
  let d : XV := .fin false xs.length 0
  let mean (l : List Word) : Word := toF32 ((f32 (laneSum l)).div d)
  let cen : List XV := if rms then xs.map f32 else let mu := f32 (mean xs); xs.map fun x => (f32 x).sub mu
  let r := f32rsqrt (f32add (mean (cen.map fun x => toF32 (x.mul x))) eps)
  (cen.map fun x => toF32 (x.mul (f32 r)), r)

/-- SOFTMAX of a row (R65) with its maximum and its sum. -/
def softmaxRow (xs : List Word) : List Word × Word × Word :=
  let mx := laneMax xs
  if xs.all fun x => x == f32ninf then (xs.map fun _ => 0, mx, 0)
  else
    let es := xs.map fun x => f32exp (f32sub x mx)
    let s := laneSum es
    (es.map fun e => f32div e s, mx, s)

/-- The temperature of SOFTMAX: elements are divided by it unless it is 1 (R65). -/
def temper (tau : Word) (xs : List Word) : List Word := if tau = f32one then xs else xs.map fun x => f32div x tau

/-- The position in a broadcast operand of a linear index (ELEMENTWISE). -/
def bcastIdx (shape small : List Nat) (i : Nat) : Nat :=
  ravel small ((unravel shape i).zipWith (fun k e => if e = 1 then 0 else k) small)

/-- The `k` largest logits in decreasing order, the lower expert first among equals (R68). The spec gives NaN logits no rank: they
rank together, above every number or below, freely (log 65). -/
def topK (k : Nat) (xs : List Word) : List Nat :=
  let nan (a : Nat) : Bool := f32 (xs.getD a 0) == .nan
  let gt (a b : Nat) : Bool :=
    if nan a != nan b then nan a == Config.nanLogitFirst
    else f32lt (xs.getD b 0) (xs.getD a 0) || (!(f32lt (xs.getD a 0) (xs.getD b 0)) && decide (a < b))
  let rank (a : Nat) : Nat := countIf (fun b => b != a && gt b a) (List.range xs.length)
  (List.range k).map fun r => ((List.range xs.length).find? fun a => rank a == r).getD 0

/-- Slots granted so far: the tokens of each expert and the dropped choices, with the slot of each (token, rank). -/
structure Grant where
  lists : List (List Nat)
  dropped : Nat
  slots : List (Nat × Nat × Nat)
  deriving DecidableEq, Repr

/-- Slots by choice rank, then by token (R68). -/
def grantSlots (e cap k : Nat) (choice : Nat → Nat → Nat) (t : Nat) : Grant :=
  ((List.range k).flatMap fun r => (List.range t).map fun i => (i, r)).foldl (fun (g : Grant) q =>
    let x := choice q.1 q.2
    let l := g.lists.getD x []
    if l.length < cap then { g with lists := updAt g.lists x (· ++ [q.1]), slots := g.slots ++ [(q.1, q.2, x * cap + l.length)] }
    else { g with dropped := g.dropped + 1 }) ⟨List.replicate e [], 0, []⟩

/-- Gates of one token (R68): the softmax over the chosen logits, or over all of them. -/
def gateRow (all : Bool) (xs : List Word) (ch : List Nat) : List Word :=
  if all then let y := (softmaxRow xs).1; ch.map fun a => y.getD a 0
  else (softmaxRow (ch.map fun a => xs.getD a 0)).1

/-- The slots that a ROUTE record grants over its rows of logits (R68). -/
def routeGrant (o : OpRec) (rows : List (List Word)) (e : Nat) : Grant :=
  let k := fieldLe o.param 0 1
  let ch := rows.map (topK k)
  grantSlots e (fieldLe o.param 4 4) k (fun i r => (ch.getD i []).getD r 0) rows.length

/-- The slot of choice `r` of token `i`; null when it was refused. -/
def Grant.slot (g : Grant) (i r : Nat) : Nat :=
  ((g.slots.find? fun (q : Nat × Nat × Nat) => q.1 == i && q.2.1 == r).map fun (q : Nat × Nat × Nat) => q.2.2).getD nullIx

def routeOuts (c : Ctx) (o : OpRec) (x l g : Desc) : List Written :=
  let k := fieldLe o.param 0 1
  let cap := fieldLe o.param 4 4
  let sx := c.shape x
  let t := sx.getD 0 0
  let e := sx.getD 1 1
  let rows := rowsOf e (c.view x).words
  let ch := rows.map (topK k)
  let gr : Grant := routeGrant o rows e
  let slot (i r : Nat) : Nat := gr.slot i r
  let gatesOf (i : Nat) : List Word :=
    let ws : List Word := gateRow (fieldLe o.param 1 1 == 1) (rows.getD i []) (ch.getD i [])
    (List.range k).map fun (r : Nat) => if slot i r == nullIx then 0 else ws.getD r 0
  let gates := (List.range t).flatMap gatesOf
  [ixOut l.id [e, cap] (gr.lists.flatMap fun q => q ++ List.replicate (cap - q.length) nullIx),
   fp32Out g.id [t, k] gates 0,
   ixOut (fieldLe o.param 8 4) [t, k] (((List.range t).map fun i => (List.range k).map fun r => slot i r).flatten),
   ixOut (fieldLe o.param 12 4) [e + 1] (gr.lists.map List.length ++ [gr.dropped])]

/-- The bin of an FP32 element (R69): an index of the output. -/
def histBin (bins : Nat) (lo hi w : Word) : Nat :=
  if !f32isFin w then bins + 2
  else if f32lt w lo then bins
  else if !f32lt w hi then bins + 1
  else
    let q := toF32 ((((f32 w).sub (f32 lo)).mul (.fin false bins 0)).div ((f32 hi).sub (f32 lo)))
    match f32 q with
    | .fin false m e => min (bins - 1) (if 0 ≤ e then m * pow2 e else m / pow2 (-e))
    | _ => 0

/-- The bin of an IX32 element. -/
def histBinIx (bins lo hi x : Nat) : Nat :=
  if x < lo then bins else if hi ≤ x then bins + 1 else (x - lo) * bins / (hi - lo)

def histogram (bins : Nat) (places : List Nat) : List Nat :=
  (List.range (bins + 3)).map fun k => min 0xFFFFFFFF (countIf (· == k) places)

/-! ### Loss -/

/-- The term of a token: log(s), correctly rounded under R54, plus mx minus the target's logit, rounded once (R71). A target beyond
the classes: the spec states no term, and it is free (log 22). -/
def crossTerm (row : List Word) (target : Nat) : Word :=
  if target < row.length then
    let (_, mx, s) := softmaxRow row
    toF32 (((f32 (f32log s)).add (f32 mx)).sub (f32 (row.getD target 0)))
  else Config.openSum (BitVec.ofNat 32 target :: row)

/-- The terms of a loss, none for an ignored token, in order of their index (R71). -/
def lossTerms (c : Ctx) (o : OpRec) (x t : Desc) : List (Option Word) :=
  if fieldLe o.param 0 1 = 0 then
    ((rowsOf (lastExt (c.shape x)) (c.view x).words).zip (c.tensor t).codes).map fun q =>
      if q.2 = nullIx then none else some (crossTerm q.1 q.2)
  else ((c.view x).words.zip (c.view t).words).map fun q => let d := f32sub q.1 q.2; some (f32mul d d)

/-- N′ of R71 as an exact value. -/
def lossDivisor (o : OpRec) (kept : Nat) : XV :=
  let n : Word := BitVec.ofNat 32 (fieldLe o.param 4 4)
  if f32isZero n then .fin false kept 0 else f32 n

def lossOf (o : OpRec) (terms : List (Option Word)) : Word :=
  let kept := countIf Option.isSome terms
  if kept = 0 then 0 else toF32 ((f32 (laneSum (terms.map fun t => t.getD 0))).div (lossDivisor o kept))

/-! ### One record -/

/-- The rounding of a CONVERT or QUANTIZE record. -/
def roundCode (k : Nat) : RMode := match k with | 0 => .rne | 1 => .sr | _ => .rtz

/-- The parameters of a QUANTIZE record at the rung in force (R128, R129, R166). -/
def Ctx.quantPar (c : Ctx) (o : OpRec) (y : Desc) : QPar :=
  let f := c.fmt y
  ⟨f, y.bdim, if y.hasCset then some y.cdim else none, y.zpMode == 1, y.rotCode, y.rotSeed, if f.b32 then y.budget else 0,
    kappaOf (BitVec.ofNat 32 (fieldLe o.param 4 4)), roundCode (fieldLe o.param 0 1), seedOf c.st.seed c.mb, y.id, 0⟩

/-- The invalid WT codes of a record's inputs (R80): the descriptor and the least logical position. The codes of a CONST channel are
not read (R92). -/
def Ctx.codeNotes (c : Ctx) (o : OpRec) : List Note :=
  (o.ins.filterMap c.p.desc).filterMap fun d =>
    let v := c.view d
    let read (i : Nat) : Bool := match v.entry i with | some e => !e.const | none => true
    if v.t.fmt.elem = .wt then ((List.range v.size).find? fun i => v.code i % 4 == 2 && read i).map fun i =>
      ⟨0x0103, o.layer, c.mb, 0, d.id, [i]⟩
    else none

/-- Everything record `o` computes in FWD, COLLECTIVE apart. -/
def Ctx.forward (c : Ctx) (o : OpRec) : RecOut :=
  let view (d : Desc) : View := c.view d
  let words (d : Desc) : List Word := (c.view d).words
  let par (a n : Nat) : Nat := fieldLe o.param a n
  let parW (a : Nat) : Word := BitVec.ofNat 32 (par a 4)
  match o.opcode, o.ins.filterMap c.p.desc, o.outs.filterMap c.p.desc with
  | 0x0001, _, _ => c.product o wholePart
  | 0x0002, _, _ => c.product o wholePart
  | 0x0003, x :: i :: rest, [y] =>
    let d := lastExt (c.shape x)
    let r := (c.shape y).getD 0 0
    let idx := (c.tensor i).codes
    let init := match rest with | z :: _ => rowsOf d (words z) | [] => List.replicate r (List.replicate d 0)
    let rw := indexRows idx r 1 1
    { RecOut.of [fp32Out y.id (c.shape y) (scatterAdd d init (rowsOf d (words x)) idx).flatten 0] with
      notes := rangeNote o.layer c.mb i.id rw.bad }
  | 0x0004, [x, f], [y] =>
    let off := (c.tensor f).codes
    let d := lastExt (c.shape x)
    let rows := rowsOf d (words x)
    let n := (c.shape y).getD 0 0
    match orderBreach n off rows.length with
    | some p => { RecOut.of [] with broken := some (f.id, p) }
    | none => RecOut.of [fp32Out y.id (c.shape y)
        ((List.range n).flatMap fun s => segment (par 0 1) d (segmentRows off rows s)) 0]
  | 0x0005, _, _ => c.attention o
  | 0x0006, _, _ => c.attention o
  | 0x0007, x :: _, [y] =>
    let d := lastExt (c.shape x)
    let gain := (o.normGain.bind c.p.desc).map words
    let bias := (o.normBias.bind c.p.desc).map words
    let out := (rowsOf d (words x)).flatMap fun row =>
      let n := (normRow (par 0 1 == 1) (parW 4) row).1
      let n := match gain with | some g => n.mapIdx fun i w => f32mul w (g.getD i 0) | none => n
      if par 0 1 = 1 then n else match bias with | some b => n.mapIdx fun i w => f32add w (b.getD i 0) | none => n
    RecOut.of [fp32Out y.id (c.shape y) out 0]
  | 0x0008, [x], [y] =>
    RecOut.of [fp32Out y.id (c.shape y)
      ((rowsOf (lastExt (c.shape x)) (words x)).flatMap fun row => (softmaxRow (temper (parW 0) row)).1) 0]
  | 0x0009, x :: rest, [y] =>
    let sx := c.shape x
    let code := par 0 2
    let out := match rest with
      | z :: _ =>
        let zs := words z
        let sz := c.shape z
        (words x).mapIdx fun i w => (ew2 code w (zs.getD (bcastIdx sx sz i) 0)).getD 0
      | [] => (words x).map fun w => (ew1 code (parW 4) (parW 8) w).getD 0
    RecOut.of [fp32Out y.id (c.shape y) out 0]
  | 0x000A, [x], [y] =>
    let q := convertTensor (roundCode (par 0 1)) (seedOf c.st.seed c.mb) y.id 0 (c.fmt y).elem (view x)
    RecOut.of [⟨y.id, q.t, [], q.sats, q.nonfin, 0, 0⟩]
  | 0x000B, [x], [y] =>
    RecOut.of [fp32Out y.id (c.shape y) (rotateWords y.rotSeed y.rotCode (par 1 1 == 1) (c.shape x) (par 0 1) (words x)) 0]
  | 0x000C, [x], y :: rest =>
    let q := quantize (c.quantPar o y) (c.shape x) (words x)
    let data : Written := ⟨y.id, q.t, q.chan, q.sats, q.nonfin, 0, q.ovf⟩
    match rest with
    | z :: _ =>
      if q.t.fmt.b32 then RecOut.of [data, ⟨z.id, ⟨⟨.e8m0, false⟩, scaleShape q.t.shape y.bdim, q.t.scales, [], []⟩, [], 0,
        countIf (· == 0xFF) q.t.scales, 0, 0⟩]
      else RecOut.of [data]
    | [] => RecOut.of [data]
  | 0x000D, [x], [l, g] => RecOut.of (routeOuts c o x l g)
  | 0x000E, [x], [y] =>
    let n := par 0 4
    let places := if x.isFmt .fp32 then (words x).map (histBin n (parW 4) (parW 8))
      else (c.tensor x).codes.map (histBinIx n (par 4 4) (par 8 4))
    RecOut.of [ixOut y.id (c.shape y) (histogram n places)]
  | 0x0010, [x, t], [y] =>
    let w := lossOf o (lossTerms c o x t)
    { RecOut.of [fp32Out y.id (c.shape y) [w] 0] with loss := some w }
  | _, _, _ => RecOut.of []

/-- The rows that a record reads of its input `k`, with the elements of a row; none where it reads all: of a gathered table the rows that
the indices select, of SCATTER_ADD the rows that it adds, of attention the keys that a query admits and the tokens that admit one
(R59, R60, R62, R63). -/
def Ctx.rowsRead (c : Ctx) (o : OpRec) (k : Nat) : Option (List Nat) :=
  match o.opcode, o.ins.filterMap c.p.desc, o.outs.filterMap c.p.desc with
  | 0x0002, [t, i, _], _ => if k = 0 then some ((c.tensor i).codes.filter fun r => decide (r < (c.shape t).getD 0 0)).dedup else none
  | 0x0003, _ :: i :: _, [y] =>
    if k = 0 then some ((c.tensor i).codes.zipIdx.filterMap fun q => if q.1 < (c.shape y).getD 0 0 then some q.2 else none) else none
  | 0x0005, _, _ | 0x0006, _, _ =>
    (c.attend o 0).bind fun a =>
      let keys (t : Nat) : List Nat := (a.chunks t).flatten.flatMap Prod.snd
      let ts := List.range a.tq
      if k = 0 then some (ts.filter fun t => !(keys t).isEmpty) else if k ≤ 2 then some (ts.flatMap keys).dedup else none
  | _, _, _ => none

/-- Was everything finite that a record read of one input as it stands in `v`? -/
def Ctx.readFinite (c : Ctx) (o : OpRec) (k : Nat) (v : View) : Bool :=
  match c.rowsRead o k with
  | none => v.allFinite
  | some rs =>
    let n := v.size / max 1 (v.t.shape.headD 1)
    rs.all fun r => (List.range n).all fun j => v.elemFinite (r * n + j)

/-- Was everything finite that a record read (Table 6.1)? -/
def Ctx.inputsFinite (c : Ctx) (o : OpRec) : Bool :=
  ((o.ins.filterMap c.p.desc).zipIdx).all fun q => c.readFinite o q.2 (c.view q.1)

end Sys2Proof.Machine
end

