-- ==== Sys2Proof/Machine/Backward.lean ====
section
/-!
DEFINITION. What each record computes in BWD(u) (R210 to R216, Table 8.2): the derived products with their output gradients
in the G format and their backward copies (R212, R213) under the keys of Table 8.3, attention, and the vector-engine
gradients.
-/
namespace Sys2Proof.Machine

open Sys2Proof

/-- What a record passes back: gradients by input slot, the statistics of the output gradients as converted (role G), the events its
layer operation will write, and the tensors whose gradient was formed from something that is not finite (Table 6.1). -/
structure GradOut where
  grads : List (Nat × Nat × List Word)
  gstats : List Stats
  notes : List Note
  unfit : List Nat
  deriving DecidableEq, Repr

def GradOut.none : GradOut := ⟨[], [], [], []⟩

def GradOut.append (a b : GradOut) : GradOut :=
  ⟨a.grads ++ b.grads, a.gstats ++ b.gstats, a.notes ++ b.notes, a.unfit ++ b.unfit⟩

/-- The tensors that a gradient operation leaves unfit: none when all it read was finite. -/
def unfitOf (fin : Bool) (ds : List Nat) : List Nat := if fin then [] else ds

/-- Span fields of Table 8.3. -/
def spanDA : Nat := 0x80000000
def spanDK : Nat := 0xA0000000
def spanDB : Nat := 0xC0000000
def spanG : Nat := 0x60000000

/-! ### Operands of the derived products -/

/-- The G format of a layer: the rung of its G ladder, else BF16 (R213). -/
def Ctx.gFmt (c : Ctx) (layer : Nat) : Fmt :=
  let bf : Fmt := ⟨.bf16, false⟩
  match c.x.plan.bind fun pl => pl.layers[layer]? with
  | some e => ((ladderAt e.g (c.st.rung layer).rg).bind fmtOfCode).getD bf
  | none => bf

/-- The output gradient in the G format, blocked along a dimension of the given extents, with its statistics (R213). -/
def Ctx.dyCopy (c : Ctx) (layer tag : Nat) (shape : List Nat) (bdim : Nat) (second : Bool) (dy : List Word) : View × Stats :=
  let f := c.gFmt layer
  let seed := seedOf c.st.seed c.mb
  let q := if f.b32 then quantize ⟨f, bdim, none, false, 0, 0, 0, .fin false 3 0, .sr, seed, tag, if second then spanG + 1 else spanG⟩ shape dy
    else convertTensor .sr seed tag spanG f.elem ⟨fp32Tensor shape dy, 0, none, false⟩
  let v : View := ⟨q.t, bdim, none, false⟩
  (v, statsOf v q.sats q.nonfin 0 q.ovf (dy.all f32isFin))

/-- A BF16 view of values, each rounded once under RNE (R212). -/
def bf16View (shape : List Nat) (xs : List XV) : View :=
  ⟨⟨⟨.bf16, false⟩, shape, xs.map (FpFmt.bf16.ieee .rne), [], []⟩, 0, none, false⟩

/-- The values that a view's elements stand for. -/
def View.vals (v : View) : List XV := (List.range v.size).map v.val

/-- The BF16 master copy of a weight within the extents of the micro-batch (R51, R212). -/
def Ctx.masterView (c : Ctx) (d : Desc) : View :=
  let big := c.p.maxShape d
  let ws := c.s.master d big
  bf16View (c.shape d) ((innerIdx big (c.shape d)).map fun i => f32 (ws.getD i 0))

/-- The form in which an operand of a product enters the backward pass (R212). -/
def Ctx.backCopy (c : Ctx) (d : Desc) : View :=
  let v := c.view d
  if d.role = 1 then c.masterView d
  else if v.t.fmt.b32 || v.t.fmt.elem == .i8 || v.t.fmt.elem == .u8 then
    match (c.p.writer d.id).bind fun i => c.p.ops[i]? with
    | some o =>
      if o.opcode = 0x000C ∨ o.opcode = 0x000A then
        match o.ins.head?.bind c.p.desc with
        | some x => bf16View (c.shape d) (c.view x).vals
        | none => bf16View (c.shape d) v.vals
      else bf16View (c.shape d) v.vals
    | none => bf16View (c.shape d) v.vals
  else v

/-- An element of a backward operand: a CONST channel's value, else the code part; no channel scale (R213). How the FP32 value of
a CONST channel of a kept F8A or F8B operand enters the array, the spec does not say: as one part, with all its significand and
the fraction width of its format (DESIGN CHOICE, log 73). -/
def View.bel (v : View) (i : Nat) : El :=
  match v.entry i with
  | some e => if e.const then ⟨0, 0, e.constVal, e.constVal, [], true⟩ else v.el i
  | none => v.el i

/-- Where a derived product stands in the whole of it: the row, column and span of its first element in the whole tensor and in
the whole reduction, whose length is `len` (R115, R117, R122). `row` maps a local row to the whole tensor's. -/
structure DerivedAt where
  row : Nat → Nat
  col : Nat
  lo : Nat
  len : Nat

/-- Lists cut at the span boundaries of a reduction of which the list starts at index `lo` (R116, R126). -/
def spansFrom (lo : Nat) (l : List El) : List (List El) :=
  let h := 1024 - lo % 1024
  let rest := l.drop h
  l.take h :: spansOf (ceilDiv rest.length 1024) rest

/-- One element of a derived product: AUTO fold over the whole reduction's length, no channel scale (R117, R213); spans are those of
the whole reduction. -/
def bwdDot (key : GKey) (p : DerivedAt) (fa fb : Fmt) (ea eb : List El) : DotRes :=
  let sa : Side := ⟨ea, none, 0, fa⟩
  let sb : Side := ⟨eb, none, 0, fb⟩
  let vs := ((spansFrom p.lo ea).zip (spansFrom p.lo eb)).map fun q => spanValue sa sb q.1 q.2
  ⟨foldSpans (foldMode 2 p.len) { key with span := key.span + p.lo / 1024 } 0 0 (vs.map (·.v)), (vs.map (·.shed)).foldl (· + ·) 0,
    firstInvalid vs⟩

/-- A derived product over rows and columns, with `fold` the words that its tiles' folds give (R31): words and the least 0 × ∞, in the whole
tensor's coordinates (R115, R122). R157 counts in a
gradient record the products shed in converting dY; those shed in the derived products themselves it leaves out (DESIGN CHOICE, log 90). -/
def bwdProduct (key : GKey) (p : DerivedAt) (rows cols : Nat) (fa fb : Fmt) (ea : Nat → List El) (eb : Nat → Nat → List El)
    (fold : Nat → Nat → Option Word) : List Word × Option (List Nat) :=
  let rs := ((List.range rows).map fun r => let a := ea r; (List.range cols).map fun k =>
    let d := bwdDot { key with row := p.row r, column := p.col + k } p fa fb a (eb r k)
    { d with w := (fold r k).getD d.w }).flatten
  (rs.map (·.w), (invalidAt ((List.range cols).map (p.col + ·)) (p.lo / 1024) rs).map fun l => match l with
    | r :: q => p.row r :: q
    | [] => [])

/-! ### Products -/

/-- Which gradients a phase forms: 1 input gradients, 2 the deferred products of WEIGHTs (R210, R211). -/
def Ctx.wants (c : Ctx) (phase : Nat) (d : Desc) : Bool :=
  c.p.wantsGrad d.id && (decide (d.role = 1) == (phase == 2))

/-- The share of a derived product that this module forms under R262: the output columns of dY for dA, the rows of dB. -/
structure BwdPart where
  /-- range of the reduction over N of dA, as the columns of dY and of B -/
  nLo : Nat
  nN : Nat
  /-- K columns of dA and rows of dB -/
  kLo : Nat
  kN : Nat
  deriving DecidableEq, Repr

def wholeBwd (r : Rows) : BwdPart := ⟨0, r.n, 0, r.k⟩

/-- The column at which span 0 of dA's reduction begins: column 0 of the whole where the members' ranges are whole spans (R126). Members
whose columns are no whole spans hold no whole span of B: each takes its own columns as a reduction of its own (DESIGN CHOICE, log 29). -/
def BwdPart.origin (w : BwdPart) (n : Nat) : Nat := if w.nN = n ∨ w.nN % 1024 = 0 then 0 else w.nLo

/-- The length of the reduction over N that the fold of dA sees (R117). -/
def BwdPart.length (w : BwdPart) (n : Nat) : Nat := if w.nN = n ∨ w.nN % 1024 = 0 then n else w.nN

/-- The gradient of A, or of the rows gathered from a table, of a product record: `nr` rows of the K columns of the part; and whether all
that it reads is finite. -/
def Ctx.gradA (c : Ctx) (o : OpRec) (a b y : Desc) (r : Rows) (w : BwdPart) (dy : List Word) : List Word × Stats × List Note × Bool :=
  let nr := r.rows.length
  let (g, st) := c.dyCopy o.layer y.id [nr, r.n] 1 false dy
  let vb := c.backCopy b
  let (ws, bad) := bwdProduct (c.key y.id spanDA) ⟨id, w.kLo, w.nLo - w.origin r.n, w.length r.n⟩ nr w.kN g.t.fmt vb.t.fmt
    (fun i => (List.range w.nN).map fun j => g.bel (i * r.n + w.nLo + j))
    (fun i k => (List.range w.nN).map fun j => vb.bel ((r.rows.getD i (none, 0)).2 + (w.kLo + k) * r.n + w.nLo + j)) (c.folded y.id 1)
  (ws, st, invalidNote o.layer c.mb 1 a.id bad, g.allFinite && vb.allFinite)

/-- The gradient of a table from the gradients of its gathered rows (Table 8.2, R60). -/
def gatherGrad (rows k : Nat) (idx : List Nat) (ws : List Word) : List Word :=
  (scatterAdd k (List.replicate rows (List.replicate k 0)) (rowsOf k ws) idx).flatten

/-- The gradient of B of a product record (Table 8.2), with the statistics of the copy that dA does not share: over every row for a shared
B, matrix by matrix for a batched one; and whether all that it reads is finite. -/
def Ctx.gradB (c : Ctx) (o : OpRec) (a b y : Desc) (r : Rows) (w : BwdPart) (dy : List Word) :
    List Word × List Stats × List Note × Bool :=
  let nr := r.rows.length
  let b32 := (c.gFmt o.layer).b32
  let (g, st) := c.dyCopy o.layer y.id [nr, r.n] (if b32 then 0 else 1) b32 dy
  let va := c.backCopy a
  let bs := if b.rank = 2 then 1 else prod (c.shape b) / (r.k * r.n)
  let m := nr / bs
  let el (i k : Nat) : El := match (r.rows.getD i (none, 0)).1 with
    | some st => va.bel (st + k)
    | none => El.zeroRow
  let (ws, bad) := bwdProduct (c.key y.id spanDB) ⟨fun q => q / w.kN * r.k + w.kLo + q % w.kN, w.nLo, 0, m⟩ (bs * w.kN) w.nN
    va.t.fmt g.t.fmt
    (fun q => (List.range m).map fun i => el (q / w.kN * m + i) (w.kLo + q % w.kN))
    (fun q n => (List.range m).map fun i => g.bel ((q / w.kN * m + i) * r.n + w.nLo + n)) (c.folded y.id 2)
  (ws, if b32 || !c.p.wantsGrad a.id then [st] else [], invalidNote o.layer c.mb 1 b.id bad, g.allFinite && c.readFinite o 0 va)

/-- The gradients of a product record that a phase forms. -/
def Ctx.productGrad (c : Ctx) (o : OpRec) (phase : Nat) (dy : List Word) : GradOut :=
  match c.prodRows o with
  | none => GradOut.none
  | some (a, b, y, r, _) =>
    let w := wholeBwd r
    let ga :=
      if c.wants phase a then
        let (ws, st, nt, fin) := c.gradA o a b y r w dy
        let out := if o.opcode = 0x0002 then
            match o.ins.filterMap c.p.desc with
            | [_, i, _] => gatherGrad ((c.shape a).getD 0 0) r.k (c.tensor i).codes ws
            | _ => ws
          else ws
        (⟨[(0, a.id, out)], [st], nt, unfitOf fin [a.id]⟩ : GradOut)
      else GradOut.none
    let gb :=
      if c.wants phase b then
        let (ws, st, nt, fin) := c.gradB o a b y r w dy
        (⟨[(o.nIn - 1, b.id, ws)], st, nt, unfitOf fin [b.id]⟩ : GradOut)
      else GradOut.none
    ga.append gb

/-! ### Attention -/

/-- One key of one query row in the backward pass: chunk, key row, p and ds. -/
structure Edge where
  row : Nat
  c : Nat
  key : Nat
  p : Word
  ds : Word
  deriving DecidableEq, Repr

/-- The edges of one query row (Table 8.2): `g` holds dO in the G format, `bv` is V as it enters the backward pass, `lse` the
log-sum-exp value, `dsum` the lane-order sum. -/
def AttJob.edges (j : AttJob) (g bv : View) (r : Nat) (lse dsum : Word) (cs : List (Nat × List Nat)) : List Edge :=
  cs.flatMap fun ch => ch.2.map fun k =>
    let p := bf16 (f32exp (f32sub (j.score r k).w lse))
    let dp := (bwdDot ⟨0, 0, 0, 0, 0⟩ ⟨id, 0, 0, j.dh⟩ g.t.fmt bv.t.fmt ((List.range j.dh).map fun d => g.bel (r * j.dh + d))
      ((List.range j.dh).map fun d => bv.bel (k * j.dh + d))).w
    ⟨r, ch.1, k, p, f32mul (f32mul p (f32sub dp dsum)) j.scale⟩

/-- The chunk numbers of edges in increasing order. -/
def chunkNos (es : List Edge) : List Nat := ((es.map (·.c)).dedup).insertionSort (· ≤ ·)

/-- An FP32 or BF16 value as an element of a backward operand. -/
def El.plain (x : XV) : El := ⟨0, 0, x, x, [], true⟩

/-- One element of dQ, dK or dV: chunk by chunk, each an exact register sum with its outlier products (R116, R138), folded under AUTO for
the reduction length `len` of the whole operation (R117, R124, R213, Table 8.3). Table 8.3 names a span by its chunk alone: of dK and dV
one register with one anchor takes the pairs of all queries with the keys of a chunk, however many they are (DESIGN CHOICE, log 90). -/
def foldEdges (key : GKey) (len : Nat) (fa fb : Fmt) (es : List Edge) (x : Edge → El × El) : Word × Option Nat :=
  (chunkNos es).foldl (fun (acc : Word × Option Nat) ch =>
    let l := (es.filter fun e => e.c == ch).map x
    let v := spanValue ⟨[], none, 0, fa⟩ ⟨[], none, 0, fb⟩ (l.map Prod.fst) (l.map Prod.snd)
    (foldStep (foldMode 2 len) { key with span := key.span + ch } acc.1 v.v,
      acc.2.or (if v.invalid then some ch else none))) (0, none)

/-- A tensor of dQ, dK or dV from the edges of each of its rows. -/
def edgeGrad (key : GKey) (rows dh : Nat) (len : Nat → Nat) (fa fb : Fmt) (es : Nat → List Edge) (x : Nat → Edge → El × El) :
    List Word × Option (List Nat) :=
  let rs := ((List.range rows).map fun r => let e := es r; (List.range dh).map fun d =>
    foldEdges { key with row := r, column := d } (len r) fa fb e (x d)).flatten
  (rs.map (·.1), (rs.findIdx? fun w => w.2.isSome).map fun i => [i / dh, i % dh, ((rs.getD i (0, none)).2).getD 0])

/-- The least of two occurrences in the order row, column, span (R115). -/
def leastAt (a b : Option (List Nat)) : Option (List Nat) :=
  match a, b with
  | some x, some y => if keyLe x y then some x else some y
  | some x, none => some x
  | none, y => y

/-- dQ of one row of ring attention recombined from its shards under R125: each shard's partial is its own log-sum-exp with the
weight 1 and the dQ formed with it (R212; DESIGN CHOICE, log 77). A single shard stands as it is. -/
def mergeDq (dh : Nat) (l : List (Word × List Word)) : List Word :=
  match l.map fun q => (⟨q.1, f32one, q.2, 0, none⟩ : Att) with
  | [] => List.replicate dh 0
  | [a] => a.o
  | a :: as => let m := as.foldl Att.merge a; m.o.map fun w => f32div w m.l

/-- The gradients of Q, K and V (Table 8.2). A WEIGHT enters them as its master copy (R212). As ring attention, dQ is formed shard by
shard, each with the log-sum-exp of that shard's partial, and the shards are recombined in increasing order (R125, R212). -/
def Ctx.attentionGrad (c : Ctx) (o : OpRec) (lse out dy : List Word) : GradOut :=
  match c.attend o 0, o.ins.filterMap c.p.desc with
  | some a, q :: k :: v :: _ =>
    let j := a.job
    let n := a.tq * j.h
    let shape := [a.tq, j.h, j.dh]
    let b32 := (c.gFmt o.layer).b32
    let (g, st) := c.dyCopy o.layer a.out.id shape 2 false dy
    let (g2, st2) := if b32 then c.dyCopy o.layer a.out.id shape 0 true dy else (g, st)
    let own (d : Desc) (w : View) : View := if d.role = 1 then c.masterView d else w
    let (bq, bk, bv) := (own q j.q, own k j.k, own v j.v)
    let dsum (r : Nat) : Word := laneSum ((List.range j.dh).map fun d => f32mul (dy.getD (r * j.dh + d) 0) (out.getD (r * j.dh + d) 0))
    let chunksOf (r : Nat) : List (List (Nat × List Nat)) := a.rowChunks (r / j.h) (r % j.h)
    let edges (r : Nat) (e : Word) (cs : List (Nat × List Nat)) : List Edge := j.edges g bv r e (dsum r) cs
    let fp : Fmt := ⟨.fp32, false⟩
    let bf : Fmt := ⟨.bf16, false⟩
    let ns := (chunksOf 0).length
    -- the log-sum-exp of each shard's partial, none where it has no admitted key; the kept value where there is one shard
    let lseOf (r i : Nat) : Option Word :=
      if ns ≤ 1 then some (lse.getD r 0)
      else (j.shard r (a.len (r / j.h)) ((chunksOf r).getD i [])).map fun p => f32add p.m (f32log p.l)
    let dqs := (List.range ns).map fun i =>
      edgeGrad (c.key a.out.id spanDA) n j.dh (fun r => a.len (r / j.h)) fp bk.t.fmt
        (fun r => match lseOf r i with | some e => edges r e ((chunksOf r).getD i []) | none => [])
        fun d e => (El.plain (f32 e.ds), bk.bel (e.key * j.dh + d))
    let dq := (List.range n).flatMap fun r => mergeDq j.dh ((List.range ns).filterMap fun i =>
      (lseOf r i).map fun e => (e, ((((dqs.getD i ([], none)).1).drop (r * j.dh)).take j.dh)))
    let all := (List.range n).flatMap fun r => (chunksOf r).flatMap (edges r (lse.getD r 0))
    let ring := c.ring k 1
    let kr := prod (c.shape k) / j.dh * ring.s
    let byKey (r : Nat) : List Edge := all.filter fun e => e.key == r
    let lenK (r : Nat) : Nat := if o.opcode = 0x0006 then ring.s * a.tq * (j.h / j.hkv) else (byKey r).length
    let (dk, badK) := edgeGrad (c.key a.out.id spanDK) kr j.dh lenK fp bq.t.fmt byKey
      fun d e => (El.plain (f32 e.ds), bq.bel (e.row * j.dh + d))
    let (dv, badV) := edgeGrad (c.key a.out.id spanDB) kr j.dh lenK bf g2.t.fmt byKey
      fun d e => (El.plain (f32 e.p), g2.bel (e.row * j.dh + d))
    let seen := (List.range n).filter fun r => (chunksOf r).any fun s => s.any fun ch => !ch.2.isEmpty
    let fin := g.allFinite && g2.allFinite && c.readFinite o 0 bq && c.readFinite o 1 bk && c.readFinite o 2 bv
      && out.all f32isFin && seen.all fun r => f32isFin (lse.getD r 0)
    let pick (i : Nat) (d : Desc) (ws : List Word) : List (Nat × Nat × List Word) := if c.p.wantsGrad d.id then [(i, d.id, ws)] else []
    ⟨pick 0 q dq ++ pick 1 k dk ++ pick 2 v dv, if b32 then [st, st2] else [st],
      invalidNote o.layer c.mb 1 q.id ((dqs.map (·.2)).foldl leastAt none) ++ invalidNote o.layer c.mb 1 k.id badK
        ++ invalidNote o.layer c.mb 1 v.id badV, unfitOf fin [q.id, k.id, v.id]⟩
  | _, _ => GradOut.none

/-! ### The vector engine -/

/-- A gradient of softmax over one row (R216). -/
def softmaxGrad (y dy : List Word) : List Word :=
  let s := laneSum (y.zipWith (fun a b => f32mul b a) dy)
  y.zipWith (fun a b => f32mul a (f32sub b s)) dy

/-- The gradient of NORM at one row with its normalised values (R216). -/
def normGrad (rms : Bool) (eps : Word) (gain : Option (List Word)) (x dy : List Word) : List Word × List Word :=
  let d : XV := .fin false x.length 0
  let (xh, r) := normRow rms eps x
  let gh := match gain with | some g => dy.zipWith f32mul g | none => dy
  let mean (l : List Word) : Word := toF32 ((f32 (laneSum l)).div d)
  let cc := mean (gh.zipWith f32mul xh)
  let base := if rms then gh else let a := mean gh; gh.map fun w => f32sub w a
  ((base.zip xh).map fun q => f32mul r (f32sub q.1 (f32mul q.2 cc)), xh)

/-- The derivative of a two-input function in each input, rounded (R66); a point where none is stated is free (log 16). R66 gives the
form of a gradient for one-input functions only: x · y and x / y follow it in each input, with y and x, and with 1 / y and -x / y²
rounded once each (DESIGN CHOICE, log 72). -/
def ewDeriv2 (code : Nat) (x y : Word) : Word × Word :=
  let one : Word := f32one
  let unord := f32 x == .nan || f32 y == .nan
  let sel (toY : Bool) : Word × Word :=
    if unord then (Config.openDeriv code x, Config.openDeriv code y) else if toY then (0, one) else (one, 0)
  match code with
  | 1 => (one, one)
  | 2 => (one, f32neg one)
  | 3 => (y, x)
  | 4 => (f32div one y, toF32 (((f32 x).negate).div ((f32 y).mul (f32 y))))
  | 5 => sel (f32lt x y)
  | _ => sel (f32lt y x)

/-- The gradient of a broadcast operand: the sum over the elements that read each of its elements, in an order that the spec
does not give (log 15); no sum where a single element reads it. -/
def bcastGrad (shape small : List Nat) (gs : List Word) : List Word :=
  (List.range (prod small)).map fun k =>
    let l := ((List.range gs.length).filter fun i => bcastIdx shape small i == k).map fun i => gs.getD i 0
    match l with
    | [w] => w
    | _ => canonNan (Config.openSum l)

/-- Sums over rows in increasing order (R216). -/
def rowSum (d : Nat) (rows : List (List Word)) : List Word :=
  match rows with
  | [] => List.replicate d 0
  | r :: rs => rs.foldl (fun a b => a.zipWith f32add b) r

/-- MAX of SEGMENT_REDUCE: the lowest row equal to the maximum receives the gradient (Table 8.2). -/
def segmentGrad (mode d : Nat) (rows : List (List Word)) (dy : List Word) : List (List Word) :=
  match mode with
  | 0 => rows.map fun _ => dy
  | 2 => rows.map fun _ => dy.map fun w => toF32 ((f32 w).div (.fin false rows.length 0))
  | _ =>
    let mx := segment 1 d rows
    let eq (a b : Word) : Bool := !(f32 a == .nan) && !(f32 b == .nan) && !f32lt a b && !f32lt b a
    rows.mapIdx fun i row => (List.range d).map fun j =>
      if (rows.findIdx? fun r => eq (r.getD j 0) (mx.getD j 0)) = some i ∧ eq (row.getD j 0) (mx.getD j 0) then dy.getD j 0 else 0

/-- The gradient of ROUTE's logits from the gradient of its gates (R68, Table 8.2); that of a refused choice's gate, which is +0
whatever the logits, passes nothing and stands as +0 in `dg` (log 65). -/
def routeGrad (all : Bool) (k : Nat) (xs dg : List Word) : List Word :=
  let ch := topK k xs
  let at' (a : Nat) : Option Nat := ch.findIdx? (· == a)
  if all then softmaxGrad (softmaxRow xs).1 ((List.range xs.length).map fun a => match at' a with | some r => dg.getD r 0 | none => 0)
  else
    let gs := softmaxGrad (softmaxRow (ch.map fun a => xs.getD a 0)).1 dg
    (List.range xs.length).map fun a => match at' a with | some r => gs.getD r 0 | none => 0

/-- The gradients of LOSS (Table 8.2, R71). -/
def Ctx.lossGrad (c : Ctx) (o : OpRec) (x t : Desc) : List Word :=
  let kept := countIf Option.isSome (lossTerms c o x t)
  let n := lossDivisor o kept
  let ws := (c.view x).words
  if kept = 0 then ws.map fun _ => 0
  else if fieldLe o.param 0 1 = 0 then
    ((rowsOf (lastExt (c.shape x)) ws).zip (c.tensor t).codes).flatMap fun q =>
      if q.2 = nullIx then q.1.map fun _ => 0
      else (softmaxRow q.1).1.mapIdx fun i p => toF32 ((f32 (if i = q.2 then f32sub p f32one else p)).div n)
  else (ws.zip (c.view t).words).map fun q => toF32 ((f32 (f32mul 0x40000000 (f32sub q.1 q.2))).div n)

/-- The vector-engine gradients of a record, all of phase 1. The bias of a NORM in RMS mode, which R64 does not add, has the gradient +0,
though R216 names no mode (DESIGN CHOICE, log 90). -/
def Ctx.vectorGrad (c : Ctx) (o : OpRec) (dy : List Word) : List (Nat × Nat × List Word) :=
  let words (d : Desc) : List Word := (c.view d).words
  let par (a n : Nat) : Nat := fieldLe o.param a n
  let parW (a : Nat) : Word := BitVec.ofNat 32 (par a 4)
  match o.opcode, o.ins.filterMap c.p.desc, o.outs.filterMap c.p.desc with
  | 0x0003, x :: i :: rest, _ =>
    let d := lastExt (c.shape x)
    let rows := rowsOf d dy
    let dsrc := (c.tensor i).codes.flatMap fun k => rows.getD k (List.replicate d 0)
    (0, x.id, dsrc) :: (match rest with | z :: _ => [(2, z.id, dy)] | [] => [])
  | 0x0004, [x, f], [y] =>
    let d := lastExt (c.shape x)
    let off := (c.tensor f).codes
    let rows := rowsOf d (words x)
    let gs := rowsOf d dy
    [(0, x.id, ((List.range ((c.shape y).getD 0 0)).flatMap fun s =>
      segmentGrad (par 0 1) d (segmentRows off rows s) (gs.getD s (List.replicate d 0))).flatten)]
  | 0x0007, x :: _, _ =>
    let d := lastExt (c.shape x)
    let rms := par 0 1 == 1
    let gs := rowsOf d dy
    let rs := ((rowsOf d (words x)).zip gs).map fun q => normGrad rms (parW 4) ((o.normGain.bind c.p.desc).map words) q.1 q.2
    (0, x.id, rs.flatMap (·.1))
      :: (match o.normGain.bind c.p.desc with
          | some w => [(1, w.id, rowSum d ((rs.zip gs).map fun q => q.2.zipWith f32mul q.1.2))]
          | none => [])
      ++ (match o.normBias.bind c.p.desc with
          | some w => [(2, w.id, if rms then List.replicate d 0 else rowSum d gs)]
          | none => [])
  | 0x0008, [x], _ =>
    let d := lastExt (c.shape x)
    let tau := parW 0
    [(0, x.id, ((rowsOf d (words x)).zip (rowsOf d dy)).flatMap fun q =>
      temper tau (softmaxGrad (softmaxRow (temper tau q.1)).1 q.2))]
  | 0x0009, x :: rest, _ =>
    let code := par 0 2
    match rest with
    | [] => [(0, x.id, ((words x).zip dy).map fun q => ewGrad1 code (parW 4) (f32 (Config.openDeriv code q.1)) q.1 q.2)]
    | z :: _ =>
      let sx := c.shape x
      let sz := c.shape z
      let zs := words z
      let ds := (words x).mapIdx fun i w => ewDeriv2 code w (zs.getD (bcastIdx sx sz i) 0)
      [(0, x.id, (ds.zip dy).map fun q => f32mul q.1.1 q.2),
       (1, z.id, bcastGrad sx sz ((ds.zip dy).map fun q => f32mul q.1.2 q.2))]
  | 0x000A, [x], _ => [(0, x.id, dy)]
  | 0x000B, [x], [y] => [(0, x.id, rotateWords y.rotSeed y.rotCode (par 1 1 != 1) (c.shape x) (par 0 1) dy)]
  | 0x000C, [x], _ => [(0, x.id, dy)]
  | 0x000D, [x], _ =>
    let k := par 0 1
    let rows := rowsOf (lastExt (c.shape x)) (words x)
    let gr := routeGrant o rows (lastExt (c.shape x))
    let dgs := (rowsOf k dy).mapIdx fun i l => l.mapIdx fun r w => if gr.slot i r = nullIx then 0 else w
    [(0, x.id, (rows.zip dgs).flatMap fun q => routeGrad (par 1 1 == 1) k q.1 q.2)]
  | 0x0010, [x, t], _ => [(0, x.id, c.lossGrad o x t)]
  | _, _, _ => []

/-- Everything a record computes in one phase of BWD, COLLECTIVE apart: phase 1 the input gradients, phase 2 the deferred
weight-gradient products. `dy` is the output gradient, `lse` and `out` what attention kept. -/
def Ctx.backward (c : Ctx) (o : OpRec) (phase : Nat) (lse out dy : List Word) : GradOut :=
  if o.opcode = 1 ∨ o.opcode = 2 then c.productGrad o phase dy
  else if phase = 2 then GradOut.none
  else if o.opcode = 5 ∨ o.opcode = 6 then c.attentionGrad o lse out dy
  else
    let gs := (c.vectorGrad o dy).filter fun q => c.p.wantsGrad q.2.1
    ⟨gs, [], [], unfitOf (dy.all f32isFin && c.inputsFinite o) (gs.map fun q => q.2.1)⟩

end Sys2Proof.Machine
end

