-- ==== Sys2Proof/Machine/Opal.lean ====
section
/-!
DEFINITION. Opal: the roles of a layer (R158), norm jumps (R161), the fallback conditions (R171, Table 6.6) with the widening
of a rung (R173, R175), the narrowing test and the two proposals (R167, R168), what COMMIT stores (R159, R167, R178, R181)
and the statistics records (R157, Table 6.2).
-/
namespace Sys2Proof.Machine

open Sys2Proof

/-! ### Ladders -/

def PlanEnt.fwdLaddered (e : PlanEnt) : Bool := !e.w.isEmpty || !e.a.isEmpty || !e.fold.isEmpty
def PlanEnt.gradLaddered (e : PlanEnt) : Bool := !e.g.isEmpty

/-- Is a role (1 W, 2 A, 3 G, 4 Y) laddered (R163, Table 6.3)? -/
def PlanEnt.roleLaddered (e : PlanEnt) (role : Nat) : Bool :=
  match role with
  | 1 => !e.w.isEmpty
  | 2 => !e.a.isEmpty
  | 3 => !e.g.isEmpty
  | 4 => !e.fold.isEmpty
  | _ => false

/-- Is the index laddered that a role moves with: the gradient index for G, else the forward index (R171)? -/
def PlanEnt.indexLaddered (e : PlanEnt) (grad : Bool) : Bool := if grad then e.gradLaddered else e.fwdLaddered

def PlanEnt.top (e : PlanEnt) (grad : Bool) : Nat := if grad then e.gradTop else e.fwdTop

/-- The format of a role at a rung, for Y FP32 at every rung (Table 6.6); none for an unladdered role. -/
def PlanEnt.fmtAt (e : PlanEnt) (role r : Nat) : Option Fmt :=
  if role = 4 then some ⟨.fp32, false⟩ else (match role with
   | 1 => ladderAt e.w r
   | 2 => ladderAt e.a r
   | 3 => ladderAt e.g r
   | _ => none).bind fmtOfCode

/-- Neither block-scaled nor U8. -/
def Fmt.plain (f : Fmt) : Bool := !f.b32 && f.elem != .u8

def Tracker.role (t : Tracker) (role : Nat) : RoleHist := t.roles.getD (role - 1) RoleHist.empty

/-- The valid entries of an amax history, newest first (R159). -/
def RoleHist.valid (h : RoleHist) : List Word := (List.range (min h.count 16)).map fun i => h.hist.getD ((h.head + 15 - i) % 16) 0

/-- The largest entry, none for an empty history. -/
def RoleHist.largest (h : RoleHist) : Option Word :=
  match h.valid with
  | [] => none
  | w :: ws => some (ws.foldl f32max w)

/-! ### Norm jumps and conditions -/

/-- Is `n` a norm jump against `e` at exponent `j` (R161)? -/
def isJump (j : Nat) (n e : Word) : Bool :=
  if !f32isFin n then false
  else if f32lt 0 e then
    let d := (f32 e).dy
    let up : Dy := ⟨d.m, d.e + j⟩
    let dn : Dy := ⟨d.m, d.e - j⟩
    up.lt (f32 n).dy || (f32 n).dy.lt dn
  else f32isZero e && f32lt 0 n

/-- A fallback condition: its cause, the index it widens, the tensor, and the measured share, count or ratio. -/
structure Cond where
  cause : Nat
  grad : Bool
  ent : StatEnt
  measured : Nat
  deriving DecidableEq, Repr

/-- The jump of one tensor: n and e, where it is one (R161). -/
def jumpOf (e : PlanEnt) (k : Tracker) (x : StatEnt) : Option (Word × Word) :=
  if x.role = 4 ∨ e.roleLaddered x.role then
    match (k.role x.role).e with
    | none => none
    | some avg => if isJump e.jumpExp x.stats.rms avg then some (x.stats.rms, avg) else none
  else none

/-- Causes 1 to 5 of one tensor of an operation, in table order (Table 6.6). Cause 2 is of the tensors that the operation itself
writes, so not of a forward copy, which cause 6 has judged; of a forward tensor that BWD recomputes it widens the forward rung (Table 6.7). -/
def causesOf (e : PlanEnt) (k : Tracker) (r : LayerRung) (phase : Nat) (x : StatEnt) : List Cond :=
  let lad := decide (x.role ≠ 4) && e.roleLaddered x.role
  let g := x.role == 3
  let c1 := if lad && decide (x.stats.satShare > e.satMax) then [⟨1, g, x, x.stats.satShare⟩] else []
  let c2 := if decide (0 < x.stats.nonfin) && x.stats.inputsFinite && x.role != 1 && x.role != 5 && decide (x.phase ≤ phase) then
      [⟨2, x.phase == 1, x, x.stats.nonfin⟩] else []
  let c3 := if lad && decide (x.stats.ovf > e.ovfMax) then [⟨3, g, x, x.stats.ovf⟩] else []
  let plain := if x.role = 4 then e.fwdLaddered
    else lad && (match e.fmtAt x.role (if g then r.rg else r.rf) with | some f => f.plain | none => false)
  let c4 := if plain then
      match (k.role x.role).largest with
      | none => []
      | some h =>
        let d := (f32 h).dy
        if (Dy.mk d.m (d.e + e.calExp)).lt (f32 x.stats.amax).dy then [⟨4, g, x, (f32div x.stats.amax h).toNat⟩] else []
    else []
  let c5 := if e.jumpPolicy = 1 then
      match jumpOf e k x with
      | some (n, avg) => [⟨5, g, x, (f32div n avg).toNat⟩]
      | none => []
    else []
  c1 ++ c2 ++ c3 ++ c4 ++ c5

/-- The condition that an operation's event names: the first in table order among those whose index is laddered (R171). -/
def firstCond (l : List Cond) : Option Cond :=
  (List.range 6).findSome? fun c => l.find? fun x => x.cause == c

def conditionOf (e : PlanEnt) (k : Tracker) (r : LayerRung) (phase : Nat) (xs : List StatEnt) : Option Cond :=
  firstCond ((xs.flatMap (causesOf e k r phase)).filter fun c => e.indexLaddered c.grad)

/-- Records a FALLBACK event (Table 6.8). -/
def State.fallbackEvent (s : State) (st : Step) (layer mb phase : Nat) (c : Cond) (before after : Nat) (atTop : Bool) : State :=
  s.event st.src 0x0201 [(2, layer), (1, mb), (1, phase), (1, c.cause), (4, c.ent.desc), (1, c.ent.role), (1, before), (1, after),
    (4, c.measured), (1, if atTop then 1 else 0)]

/-- The rung of an index. -/
def LayerRung.at (r : LayerRung) (grad : Bool) : Nat := if grad then r.rg else r.rf

def LayerRung.widenTo (r : LayerRung) (grad : Bool) (n : Nat) : LayerRung :=
  if grad then { r with rg := n, fell := true } else { r with rf := n, fell := true }

/-- A condition acts (R172, R173, R175): the event, and one rung wider than the rung `ran` that the attempt ran in, or the
layer's rung by now when that is wider (Table 6.7), unless the index stood at its top. -/
def State.fallback (s : State) (i layer mb phase ran : Nat) (e : PlanEnt) (c : Cond) : State × Bool :=
  match s.steps[i]? with
  | none => (s, false)
  | some st =>
    let atTop := decide (e.top c.grad ≤ ran)
    let after := if atTop then ran else max (ran + 1) ((st.rung layer).at c.grad)
    let s1 := s.fallbackEvent st layer mb phase c ran after atTop
    (s1.modStep i fun p => { p with
      fallbacks := p.fallbacks + 1
      rungs := if atTop then p.rungs else updAt p.rungs layer fun q => q.widenTo c.grad after }, !atTop)

/-! ### Statistics of a step -/

def sumStats (l : List Stats) : Stats :=
  match l with
  | [] => Stats.empty
  | x :: xs => xs.foldl Stats.combine x

/-- The W entries of a step for a layer: its forward copies that a product reads, as they stand now (R158, R252). They carry
phase 2. -/
def Slot.wEntries (x : Slot) (p : Program) (l : Nat) : List StatEnt :=
  ((p.owned l).filter fun d => p.isRoleW d.id).filterMap fun d =>
    (x.copyOf d.id).map fun c => ⟨d.id, l, 0, 1, 2, c.stats⟩

/-- The statistics of a role of a layer over a step (R156, R158); none where the role has no tensor. -/
def Step.roleStats (st : Step) (l role : Nat) : Option Stats :=
  let ls := (st.stats.filter fun e => e.layer == l && e.role == role).map (·.stats)
  if ls.isEmpty then none else some (sumStats ls)

/-- The narrowing test of one role (R168). -/
def narrowRole (e : PlanEnt) (k : Tracker) (role cur : Nat) (st : Option Stats) : Bool :=
  match st with
  | none => true
  | some x =>
    decide (x.satShare ≤ e.satMax / 4) && x.nonfin == 0 && x.ovf == 0 &&
      (if cur = 0 then true
       else match e.fmtAt role (cur - 1) with
        | none => true
        | some f =>
          if !f.plain then true
          else
            let top := (k.role role).valid.foldl f32max x.amax
            let lim : Dy := match intRange f.elem with
              | some (_, _, hi) => ⟨hi, 0⟩
              | none => match fpOf f.elem with
                | some g => (g.dec g.maxCode).dy
                | none => Dy.zero
            f32isFin top && (Dy.mk (f32 top).dy.m ((f32 top).dy.e + 1)).le lim)

/-- Does a step pass the narrowing test for an index (R168), and did the layer not fall back in it? -/
def Step.passes (st : Step) (e : PlanEnt) (k : Tracker) (l : Nat) (grad : Bool) : Bool :=
  let r := st.rung l
  !r.fell && !(if grad then r.jumpG else r.jumpF) &&
    ((if grad then [3] else [1, 2, 4]).filter e.roleLaddered).all fun role => narrowRole e k role (r.at grad) (st.roleStats l role)

/-- The clean count after this step, were its rung kept (R159, R167). -/
def Step.clean (st : Step) (e : PlanEnt) (k : Tracker) (l : Nat) (grad : Bool) : Nat :=
  if st.passes e k l grad then min 16 ((if grad then k.cleanG else k.cleanF) + 1) else 0

/-- One index of one proposal (R167, R179). -/
def Step.propose1 (st : Step) (x : Slot) (e : PlanEnt) (k : Tracker) (l : Nat) (grad upd : Bool) : Nat :=
  let r := st.rung l
  let cur := r.at grad
  if decide (k.coldLeft > (if upd then 1 else 0)) || decide (0 < x.widenLeft) then e.top grad
  else if r.fell then cur
  else if upd && decide (e.hold ≤ st.clean e k l grad) && decide (0 < cur) then cur - 1
  else cur

/-- The rung bytes of the closing record (Table 10.6, R169): four per layer; zeros without a plan. -/
def Step.proposals (st : Step) (x : Slot) (p : Program) : List Nat :=
  (List.range p.nLayers).flatMap fun l =>
    match x.plan.bind fun pl => pl.layers[l]? with
    | none => [0, 0, 0, 0]
    | some e =>
      match x.trackers[l]? with
      | none => [0, 0, 0, 0]
      | some k => [st.propose1 x e k l false true, st.propose1 x e k l true true, st.propose1 x e k l false false,
          st.propose1 x e k l true false]

/-- Every layer with more than one rung in some ladder fell back, and there is one (R178). -/
def Step.allFell (st : Step) (x : Slot) : Bool :=
  match x.plan with
  | none => false
  | some pl =>
    let el := (List.range pl.layers.length).filter fun l => match pl.layers[l]? with
      | some e => decide (0 < e.fwdTop) || decide (0 < e.gradTop)
      | none => false
    !el.isEmpty && el.all fun l => (st.rung l).fell

/-- The rungs of the next step from the combined bytes (R169, R179). -/
def nextRungsOf (x : Slot) (p : Program) (bytes : List Nat) (upd : Bool) (widen : Bool) : List (Nat × Nat) :=
  (List.range p.nLayers).map fun l =>
    match x.plan.bind fun pl => pl.layers[l]? with
    | none => (0, 0)
    | some e =>
      if widen then (e.fwdTop, e.gradTop)
      else
        let o := 4 * l + (if upd then 0 else 2)
        (min (bytes.getD o 0) e.fwdTop, min (bytes.getD (o + 1) 0) e.gradTop)

/-! ### Records and commit -/

/-- FLAGS and the shares of one statistics record (Table 6.2). -/
def statBytes (desc layer role : Nat) (x : Stats) (repeated cold : Bool) (rung step : Nat) : List Byte :=
  toLe 4 desc ++ toLe 2 layer ++ toLe 1 role ++ toLe 1 (putBit x.inputsFinite 0 + putBit repeated 1 + putBit cold 2)
    ++ toLe 2 x.zeroShare ++ toLe 2 x.satShare ++ toLe 2 x.nonfinShare ++ toLe 1 rung ++ toLe 1 0 ++ toLe 4 x.amax.toNat
    ++ toLe 4 x.sumsq.toNat ++ toLe 4 (min x.shed 0xFFFFFFFF) ++ toLe 4 (min x.ovf 0xFFFFFFFF) ++ toLe 8 x.n ++ toLe 4 step ++ toLe 4 0

/-- The rung byte of a record: 0xFF when the role is not laddered (Table 6.2). -/
def Slot.rungByte (x : Slot) (st : Step) (l role : Nat) : Nat :=
  match x.plan.bind fun pl => pl.layers[l]? with
  | none => 0xFF
  | some e => if e.roleLaddered role then (st.rung l).at (role == 3) else 0xFF

/-- The records of a step: every tensor written, by the index of its record, then one gradient record per layer (R157), then one for each
forward copy of role W, which no record of the program writes (R252; their place is DESIGN CHOICE, log 79). Role 5 marks the output
gradients of a layer without backward products, which Table 6.3 tracks in no role. SHED and OVF saturate (R108). -/
def Step.records (st : Step) (x : Slot) (p : Program) : List Byte :=
  let cold (l : Nat) : Bool := match x.trackers[l]? with | some k => decide (0 < k.coldLeft) | none => false
  let rep (l phase : Nat) : Bool := st.layers.any fun q => q.op.layer == l && q.op.phase == phase && q.repeated
  let one (desc layer role phase : Nat) (xs : List StatEnt) : List Byte :=
    statBytes desc layer role (sumStats (xs.map (·.stats))) (rep layer phase) (cold layer) (x.rungByte st layer role)
      (st.number.toNat % 2 ^ 32)
  (p.ops.flatMap fun o => o.writes.flatMap fun d =>
      let xs := st.stats.filter fun e => e.desc == d && e.phase == 0
      let role := match xs.head? with
        | some e => e.role
        | none => if p.isRoleA d then 2 else if o.isRoleY then 4 else 0
      one d o.layer role 0 xs)
    ++ ((List.range p.nLayers).flatMap fun l => one noId l 3 1 (st.stats.filter fun e => e.layer == l && (e.role == 3 || e.role == 5)))
    ++ (List.range p.nLayers).flatMap fun l => (p.copiesRead l).flatMap fun d =>
      let xs := st.stats.filter fun e => e.desc == d && e.role == 1
      one d l 1 0 (if xs.isEmpty then (x.wEntries p l).filter fun e => e.desc == d else xs)

/-- A role's history after a counted step (R159). -/
def RoleHist.push (h : RoleHist) (x : Stats) : RoleHist :=
  let r := x.rms
  { hist := updAt h.hist (h.head % 16) fun _ => x.amax
    head := (h.head + 1) % 16
    count := min (h.count + 1) 16
    e := if !f32isFin r then h.e
      else match h.e with
        | none => some r
        | some e =>
          let d := (f32 e).dy
          let q := (f32 r).dy.sub d
          some (toF32 (d.add ⟨q.m, q.e - 4⟩).xv) }

/-- A layer's tracker after a counted step: histories, clean counts, COLD_LEFT (R159, R181). The clean count of an index whose
rung changes restarts. -/
def Tracker.count (t : Tracker) (st : Step) (l : Nat) : Tracker :=
  let r := st.rung l
  let n := st.nextRungs.getD l (r.rf, r.rg)
  let c := st.cleans.getD l (0, 0)
  { t with
    roles := (List.range 4).map fun k => match st.roleStats l (k + 1) with
      | some v => (t.role (k + 1)).push v
      | none => t.role (k + 1)
    cleanF := if n.1 = r.rf then c.1 else 0
    cleanG := if n.2 = r.rg then c.2 else 0
    coldLeft := t.coldLeft - 1 }

end Sys2Proof.Machine
end

