-- ==== Sys2Proof/Machine/Split.lean ====
section
/-!
DEFINITION. Split layers (R262): which layers are split, the rule by which each product is split, and the share of this
module. A weight whose product is split is held and updated by ranges (R246).
-/
namespace Sys2Proof.Machine

open Sys2Proof

/-- How a product is split: members, this module's group rank, and the rule, 1 by columns or 2 by spans. -/
structure Split where
  s : Nat
  me : Nat
  rule : Nat
  deriving DecidableEq, Repr

/-- The split group with more than one member, and this module's rank in it (R259, R262). -/
def Topology.splitRanks (t : Topology) : Option (List Nat × Nat) :=
  if t.splitGroup = 0xFFFF then none
  else match t.group t.splitGroup with
    | none => none
    | some rs => if rs.length > 1 then some (rs, rs.idxOf t.myRank) else none

/-- Do the BF16 master copies of a layer's weights together exceed SPLIT_MIN (R262)? -/
def Program.bigLayer (p : Program) (splitMin l : Nat) : Bool :=
  decide (((p.owned l).map p.hostBytes).foldl (· + ·) 0 > splitMin)

/-- The split of a product with reduction extent K and N columns (R262). -/
def State.splitOf (s : State) (p : Program) (o : OpRec) (k n : Nat) : Option Split :=
  match s.fabric.topo with
  | none => none
  | some t =>
    match t.splitRanks with
    | none => none
    | some (rs, me) =>
      if !(o.opcode == 1 || o.opcode == 2) || !p.bigLayer t.splitMin o.layer then none
      else if n % (32 * rs.length) = 0 then some ⟨rs.length, me, 1⟩
      else if k > 1024 then some ⟨rs.length, me, 2⟩
      else none

/-- A member's columns under rule 1: first and number. -/
def Split.cols (x : Split) (me n : Nat) : Nat × Nat := (me * n / x.s, n / x.s)

/-- A member's range of K under rule 2: first and number (R262). -/
def Split.range (x : Split) (me k : Nat) : Nat × Nat :=
  let spans := ceilDiv k 1024
  let h := ceilDiv spans x.s
  let lo := min k (me * h * 1024)
  let hi := min k (min ((me + 1) * h) spans * 1024)
  (lo, hi - lo)

/-- The share of a product that this module forms (R262). -/
def Split.part (x : Split) (r : Rows) : Part' :=
  if x.rule = 1 then let c := x.cols x.me r.n; ⟨(List.range c.2).map (c.1 + ·), 0, r.k, true⟩
  else let g := x.range x.me r.k; ⟨List.range r.n, g.1, g.2, false⟩

/-- The share of the derived products: own columns of dY under rule 1, own rows of dB under rule 2. -/
def Split.bwd (x : Split) (r : Rows) : BwdPart :=
  if x.rule = 1 then let c := x.cols x.me r.n; ⟨c.1, c.2, 0, r.k⟩
  else let g := x.range x.me r.k; ⟨0, r.n, g.1, g.2⟩

/-- The split of the product that reads a weight as its B operand, the first such record deciding. -/
def State.weightSplit (s : State) (p : Program) (d : Desc) (shape : List Nat) : Option Split :=
  let k := shape.getD (d.rank - 2) 1
  match p.ops.find? fun o => (o.opcode == 1 || o.opcode == 2) && o.ins.getLast? == some d.id with
  | some o => s.splitOf p o k (lastExt shape)
  | none => none

/-- Does this module hold element (row, column) of a weight? -/
def ownsElem (x : Option Split) (k n row col : Nat) : Bool :=
  match x with
  | none => true
  | some x =>
    if x.rule = 1 then let c := x.cols x.me n; decide (c.1 ≤ col) && decide (col < c.1 + c.2)
    else let g := x.range x.me k; decide (g.1 ≤ row % k) && decide (row % k < g.1 + g.2)

end Sys2Proof.Machine
end

