-- ==== Sys2Proof/Machine/Update.lean ====
section
/-!
DEFINITION. The update of a weight by the Onyx engines (chapter 9): the constants of an entry, the passes STAT, NORM and
APPLY over whole weights (R242 to R249, R253) with the exchange of exact sums of a split weight (R246), and the forward copy after it
(R251, R252). Everything reads device memory with the writes that wait in it (R190, R338).
-/
namespace Sys2Proof.Machine

open Sys2Proof

/-! ### Sums -/

def xsum (l : List XV) : XV := l.foldl XV.add (.fin false 0 0)

/-- mean of R242 from an exact sum: divided by the count, rounded once. -/
def meanOf (x : XV) (n : Nat) : Word := toF32 (x.div (.fin false n 0))

/-- rms of R242 from the exact sum of squares of `n` values: the exact root of the exact mean, rounded once. -/
def rmsOf (x : XV) (n : Nat) : Word := if x.isFin then toF32 (rmsDy x.dy n) else toF32 x

/-- The exact square of a word. -/
def sqOf (w : Word) : XV := (f32 w).mul (f32 w)

/-! ### One weight -/

/-- Flags of a coefficient entry (Table 9.2). -/
def Coeff.biasCorr (c : Coeff) : Bool := bitOf c.flags 1
def Coeff.momSel (c : Coeff) : Nat := c.flags / 4 % 4
def Coeff.adapt (c : Coeff) : Bool := bitOf c.flags 5

/-- A weight as an update sees it: the step's constants, its gradient, what device memory holds of it, and the sums that the modules
which hold it have combined. -/
structure WUpd where
  e : Coeff
  o : OptState
  d : Desc
  eta : Word
  k : Nat
  seed : Quad
  m : Nat
  n : Nat
  /-- extent of the reduction dimension, and the split of the weight (R246) -/
  kExt : Nat
  split : Option Split
  g : List Word
  /-- the mask bits, none without a mask -/
  mask : Option (List Bool)
  /-- the combined row or column sums, the sum of r and the sum of squares of u of a split weight, once exchanged -/
  sums : List (Option (List XV))

def WUpd.factored (u : WUpd) : Bool := bitOf u.o.layout 0
def WUpd.perElem (u : WUpd) : Bool := bitOf u.o.layout 1

/-- Is the weight split by columns, by rows (R126, R262)? -/
def WUpd.byCols (u : WUpd) : Bool := u.split.any fun x => x.rule == 1
def WUpd.byRows (u : WUpd) : Bool := u.split.any fun x => x.rule == 2

/-- Does this module hold element `i`? -/
def WUpd.owns (u : WUpd) (i : Nat) : Bool := ownsElem u.split u.kExt u.n (i / u.n) (i % u.n)
def WUpd.ownsRow (u : WUpd) (r : Nat) : Bool := !u.byRows || u.owns (r * u.n)
def WUpd.ownsCol (u : WUpd) (j : Nat) : Bool := !u.byCols || u.owns j

def WUpd.masked (u : WUpd) (i : Nat) : Bool :=
  (match u.mask with | some l => l.getD i false | none => false) || !u.owns i

/-- The combined sums of one exchange (R246). -/
def WUpd.got (u : WUpd) (k : Nat) : List XV := ((u.sums.getD k none).getD [])

def WUpd.bc (u : WUpd) (b : Word) : Word := if u.e.biasCorr then f32sub f32one (toF32 (xPow (f32 b) u.k)) else f32one
def WUpd.ob (_u : WUpd) (b : Word) : Word := f32sub f32one b

def WUpd.q (u : WUpd) (i : Nat) : Word := let g := u.g.getD i 0; f32add (f32mul g g) u.e.eps1

/-- An exponential average (R242). -/
def WUpd.ema (u : WUpd) (old x : Word) : Word := f32add (f32mul u.e.beta2 old) (f32mul (u.ob u.e.beta2) x)

/-- The exact sum of q over the elements of row `r`, of column `j`, that this module holds. -/
def WUpd.rowPart (u : WUpd) (r : Nat) : XV :=
  xsum (((List.range u.n).filter fun j => u.owns (r * u.n + j)).map fun j => f32 (u.q (r * u.n + j)))
def WUpd.colPart (u : WUpd) (j : Nat) : XV :=
  xsum (((List.range u.m).filter fun r => u.owns (r * u.n + j)).map fun r => f32 (u.q (r * u.n + j)))

/-- The exact sum of q over the whole of a row, of a column: combined over the modules where it is split. -/
def WUpd.rowSum (u : WUpd) (r : Nat) : XV := if u.byCols then (u.got 0).getD r .nan else u.rowPart r
def WUpd.colSum (u : WUpd) (j : Nat) : XV := if u.byRows then (u.got 0).getD j .nan else u.colPart j

/-- `n` FP32 words of device memory. -/
def wordsAt (m : Memory) (a n : Nat) : List Word := (List.range n).map fun i => BitVec.ofNat 32 (ofLe (memRead m (a + 4 * i) 4))

/-- The momentum as stored: FP32, or BF16. -/
def WUpd.momAt (u : WUpd) (m : Memory) (i : Nat) : Word :=
  if bitOf u.o.layout 3 then BitVec.ofNat 32 (ofLe (memRead m (u.o.mAddr + 2 * i) 2) * 65536)
  else BitVec.ofNat 32 (ofLe (memRead m (u.o.mAddr + 4 * i) 4))

/-- STAT: the new r and c (R242, R253); rows and columns of other modules keep theirs. -/
def WUpd.stat (u : WUpd) (m : Memory) : List Word × List Word :=
  ((wordsAt m u.o.sAddr u.m).mapIdx fun r w => if u.ownsRow r then u.ema w (meanOf (u.rowSum r) u.n) else w,
   (wordsAt m u.o.cAddr u.n).mapIdx fun j w => if u.ownsCol j then u.ema w (meanOf (u.colSum j) u.m) else w)

/-- The exact sum of the rows of r that this module holds, after STAT. -/
def WUpd.rPart (u : WUpd) (m : Memory) : XV :=
  xsum (((wordsAt m u.o.sAddr u.m).zipIdx.filter fun q => u.ownsRow q.2).map fun q => f32 q.1)

/-- mr from the r that STAT wrote. -/
def WUpd.mr (u : WUpd) (m : Memory) : Word := meanOf (if u.byRows then (u.got 1).headD .nan else u.rPart m) u.m

/-- Is the weight singular (R247)? -/
def WUpd.singular (u : WUpd) (mr : Word) : Bool := u.factored && (!f32isFin mr || !f32lt u.e.floor mr)

/-- The new v of every element; `done`: NORM has written the unmasked ones (R249, R253). -/
def WUpd.vNew (u : WUpd) (m : Memory) (done : Bool) : List Word :=
  (wordsAt m u.o.sAddr (u.m * u.n)).mapIdx fun i w => if done && !u.masked i then w else u.ema w (u.q i)

/-- vh of every element (R242). -/
def WUpd.vh (u : WUpd) (m : Memory) (done : Bool) : List Word :=
  if u.factored then
    let r := wordsAt m u.o.sAddr u.m
    let c := wordsAt m u.o.cAddr u.n
    let mr := u.mr m
    (List.range (u.m * u.n)).map fun i => f32div (f32mul (r.getD (i / u.n) 0) (c.getD (i % u.n) 0)) mr
  else u.vNew m done

/-- u of every element before its scale (R242). -/
def WUpd.uRaw (u : WUpd) (m : Memory) (done : Bool) : List Word :=
  let bc2 := u.bc u.e.beta2
  (u.vh m done).mapIdx fun i w => f32div (u.g.getD i 0) (f32sqrt (f32add (f32div w bc2) u.e.eps2))

/-- The exact sum of squares of u over the elements that this module holds. -/
def WUpd.uPart (u : WUpd) (m : Memory) (done : Bool) : XV :=
  xsum (((u.uRaw m done).zipIdx.filter fun q => u.owns q.2).map fun q => sqOf q.1)

/-- u of every element with its scale (R242). -/
def WUpd.u (u : WUpd) (m : Memory) (done : Bool) : List Word :=
  let us := u.uRaw m done
  if f32lt 0 u.e.d then
    let rms := rmsOf (if u.split.isSome then (u.got 2).headD .nan else u.uPart m done) (u.m * u.n)
    let sc := f32max f32one (f32div rms u.e.d)
    if f32lt f32one sc then us.map fun w => f32div w sc else us
  else us

/-- store_M (R242, R244): the word that the stored momentum stands for. -/
def WUpd.storeM (u : WUpd) (i : Nat) (w : Word) : Word :=
  if bitOf u.o.layout 3 then
    BitVec.ofNat 32 ((convTo .bf16 (.sr (GKey.draw ⟨u.seed, u.d.id, i / u.n, i % u.n, 0xE0000001⟩)) (f32 w)).code * 65536)
  else w

/-- The sum of the terms of p, left to right, terms of zero coefficient omitted (R242). -/
def combineP (ts : List (Word × Word)) : Word :=
  match (ts.filter fun q => !f32isZero q.1).map fun q => f32mul q.1 q.2 with
  | [] => 0
  | w :: ws => ws.foldl f32add w

/-- The new BF16 master of one element (R242, R244); η = 0 leaves it as it is (R241). -/
def WUpd.masterOf (u : WUpd) (i : Nat) (w p : Word) : Nat :=
  if f32isZero u.eta then w.toNat / 65536
  else
    let x := (f32 w).sub ((f32 u.eta).mul (f32 p))
    let x := if f32isZero u.e.lambda then x else x.sub (((f32 u.eta).mul (f32 u.e.lambda)).mul (f32 w))
    (convTo .bf16 (.sr (GKey.draw ⟨u.seed, u.d.id, i / u.n, i % u.n, 0xE0000000⟩)) x).code

/-- What APPLY writes: M as words, the master codes, v. -/
structure Applied where
  mom : List Word
  master : List Nat
  v : List Word
  deriving DecidableEq, Repr

/-- APPLY of one weight (R242, R247, R249): `ws` the master words in logical order. -/
def WUpd.apply (u : WUpd) (m : Memory) (normDone sing : Bool) (ws : List Word) : Applied :=
  let us := if u.e.adapt && !sing then u.u m normDone else []
  let bc1 := u.bc u.e.beta1
  let ob1 := u.ob u.e.beta1
  let sel := u.e.momSel
  let mom := if sel = 0 then [] else (List.range (u.m * u.n)).map fun i =>
    let x := if sel = 1 then u.g.getD i 0 else if sing then 0 else us.getD i 0
    u.storeM i (f32add (f32mul u.e.beta1 (u.momAt m i)) (f32mul ob1 x))
  let p (i : Nat) : Word := combineP [(u.e.a0, u.g.getD i 0), (u.e.a1, f32div (mom.getD i 0) bc1), (u.e.a2, us.getD i 0)]
  let keep (i : Nat) : Bool := u.masked i
  ⟨mom.mapIdx fun i w => if keep i then u.momAt m i else w,
   ws.mapIdx fun i w => if sing || keep i then w.toNat / 65536 else u.masterOf i w (p i),
   if u.perElem then
     let old := wordsAt m u.o.sAddr (u.m * u.n)
     (u.vNew m normDone).mapIdx fun i w => if keep i then old.getD i 0 else w
   else []⟩

/-! ### The exchange of a split weight (R246) -/

/-- What the members of a group have sent for an exchange of sums, combined; none while one is missing. -/
def State.sumsOf (s : State) (st : Step) (d k : Nat) : Option (List XV) :=
  match st.colls.find? fun (c : Coll) => c.use == .sums d k with
  | none => none
  | some c => match s.members c.group with
    | none => none
    | some (rs, t) => if c.failed.isEmpty then
        (c.result t rs (rs.map fun _ => c.mine.length)).map fun l => addSums (l.map xvsOf)
      else none

/-- This module's part of an exchange: row sums for a weight split by columns, column sums for one split by rows; the sum of r; the
squares of u. -/
def WUpd.part (u : WUpd) (m : Memory) (k : Nat) (normDone : Bool) : List XV :=
  match k with
  | 0 => if u.byCols then (List.range u.m).map u.rowPart else (List.range u.n).map u.colPart
  | 1 => [u.rPart m]
  | _ => [u.uPart m normDone]

/-! ### A layer -/

/-- The update of a weight of a step, from the slot and the step (R230, R242). -/
def State.wupd (s : State) (x : Slot) (p : Program) (st : Step) (d : Desc) : Option WUpd := do
  let c ← x.coeff
  let rec' ← c.weights.find? fun (w : WeightRec) => w.desc == d.id
  let e ← c.entries[rec'.entry]?
  let o ← x.opt.find? fun (o : OptState) => o.desc == d.id
  let shape := p.maxShape d
  let (m, n) := p.rowsCols d
  let g : List Word := match st.sums.find? fun (q : StepGrad) => q.desc == d.id with
    | some q => q.words
    | none => List.replicate (m * n) 0
  let mask : Option (List Bool) := if rec'.maskAddr = 0 then none
    else some ((List.range (m * n)).map fun i => bitOf (memGet s.mem.view (rec'.maskAddr + i / 8)).toNat (i % 8))
  return ⟨e, o, d, st.eta, x.t + 1, seedOf st.seed 64, m, n, shape.getD (d.rank - 2) 1, s.weightSplit p d shape, g, mask,
    (List.range 3).map fun k => s.sumsOf st d.id k⟩

/-- Is a layer frozen (R234, R248)? -/
def Slot.frozen (x : Slot) (p : Program) (l : Nat) : Bool :=
  match x.coeff with
  | none => true
  | some c => (p.owned l).any fun d => c.weights.any fun (w : WeightRec) => w.desc == d.id && w.frozen

def State.writeRun (s : State) (a : Nat) (bs : List Byte) : State := if bs.isEmpty then s else s.writeDev a bs

/-- One weight's STAT. -/
def State.statWeight (s : State) (u : WUpd) : State :=
  if u.factored then
    let (r, c) := u.stat s.mem.view
    (s.writeRun u.o.sAddr (wordBytes r)).writeRun u.o.cAddr (wordBytes c)
  else s

/-- Does a weight run NORM: u is formed and d > 0 (R253)? -/
def WUpd.norms (u : WUpd) (sing : Bool) : Bool := u.e.adapt && !sing && f32lt 0 u.e.d

/-- One weight's NORM: in the per-element form it writes v. -/
def State.normWeight (s : State) (u : WUpd) (sing : Bool) : State :=
  if u.norms sing && u.perElem then
    let old := wordsAt s.mem.view u.o.sAddr (u.m * u.n)
    s.writeRun u.o.sAddr (wordBytes ((u.vNew s.mem.view false).mapIdx fun i w => if u.masked i then old.getD i 0 else w))
  else s

/-- The bytes of a master copy with new codes in storage order (R50, R76). -/
def masterBytes (d : Desc) (shape codes : List Nat) : List Byte := (storeCodes d shape shape codes).flatMap (toLe 2)

/-- Is a BF16 code non-finite? -/
def bf16Bad (c : Nat) : Bool := !(FpFmt.bf16.dec c).isFin

/-- One weight's APPLY with its UPDATE_NONFINITE event (R254). -/
def State.applyWeight (s : State) (st : Step) (l : Nat) (p : Program) (u : WUpd) (sing : Bool) : State :=
  let shape := p.maxShape u.d
  let a := u.apply s.mem.view (u.norms sing) sing (s.master u.d shape)
  let mom := if a.mom.isEmpty then [] else if bitOf u.o.layout 3 then a.mom.flatMap fun w => toLe 2 (w.toNat / 65536) else wordBytes a.mom
  let s1 := (s.writeRun u.o.mAddr mom).writeRun u.o.sAddr (if u.perElem then wordBytes a.v else [])
  let s2 := if sing then s1 else s1.writeRun u.d.addr (masterBytes u.d shape a.master)
  let bad := countIf bf16Bad a.master
  if !sing && decide (0 < bad) then s2.event st.src 0x0307 [(2, l), (4, u.d.id), (4, bad)] else s2

/-- The rung of a layer agreed for the next step. -/
def Step.nextRf (st : Step) (l : Nat) : Nat := (st.nextRungs.getD l ((st.rung l).rf, 0)).1

/-- Forward copies after an update, in the current area (R252): requantized from the new master; where the master is not written, only
those whose W format changes (R251). -/
def State.recopy (s : State) (st : Step) (p : Program) (l : Nat) (written : Bool) : State :=
  s.copyLayer st.slot p l st.nextRf written false

/-- Whether a layer's W format changes at the next rung. -/
def Slot.copyStale (x : Slot) (p : Program) (rf : Nat → Nat) (l : Nat) : Bool :=
  (p.owned l).any fun d => !(x.copies.any fun k => k.desc == d.id && k.fmt == x.fmtAt p rf d)

/-- The weights of a layer in an update, in increasing DESC_ID (R253). -/
def State.wupds (s : State) (x : Slot) (p : Program) (st : Step) (l : Nat) : List WUpd :=
  (((p.owned l).filterMap (s.wupd x p st)).map fun u => (u.d.id, u)).insertionSort (fun a b => a.1 ≤ b.1) |>.map Prod.snd

/-- Is mr formed over several modules, so that the singular test waits for an exchange behind STAT (R246)? -/
def latesing (us : List WUpd) : Bool := us.any fun u => u.factored && u.byRows

/-- The passes of a layer's update in order: 0 STAT, 3 the singular test where mr is exchanged, 1 NORM, 2 APPLY (R253). `sing` stands
once the test has been made. -/
def State.passes (s : State) (x : Slot) (p : Program) (st : Step) (l : Nat) (sing : Bool) : List Nat :=
  if (p.owned l).isEmpty then []
  else if x.frozen p l then (if x.copyStale p st.nextRf l then [2] else [])
  else
    let us := s.wupds x p st l
    (if us.any WUpd.factored then [0] else []) ++ (if latesing us then [3] else [])
      ++ (if us.any fun u => u.norms sing then [1] else []) ++ [2]

/-- The exchanges that must have completed before a pass of a layer: (weight, number) (R246). -/
def passNeeds (us : List WUpd) (sing : Bool) (pass : Nat) : List (WUpd × Nat) :=
  let sp := us.filter fun u => u.split.isSome
  match pass with
  | 0 => (sp.filter WUpd.factored).map fun u => (u, 0)
  | 3 => (sp.filter fun u => u.factored && u.byRows).map fun u => (u, 1)
  | 2 => (sp.filter fun u => u.norms sing).map fun u => (u, 2)
  | _ => []

/-- The weights of a layer found singular by their mr (R247): the layer is noted and the first of them named. -/
def State.singularTest (s : State) (i : Nat) (st : Step) (l : Nat) (us : List WUpd) : State :=
  let m := s.mem.view
  match us.find? fun u => u.singular (u.mr m) with
  | none => s
  | some u => (s.modStep i fun q => { q with singular := q.singular ++ [l] }).event st.src 0x0306
      [(2, l), (4, u.d.id), (4, (u.mr m).toNat)]

/-- One pass of a layer over its weights in increasing DESC_ID (R253); a singular layer is found behind STAT (R247). -/
def State.runPass (s : State) (i : Nat) (st : Step) (x : Slot) (p : Program) (l pass : Nat) : State :=
  if x.frozen p l then s.recopy st p l false
  else
    let sing := st.singular.contains l
    let us := s.wupds x p st l
    match pass with
    | 0 =>
      let s1 := us.foldl State.statWeight s
      if latesing us then s1 else s1.singularTest i st l us
    | 3 => s.singularTest i st l us
    | 1 => us.foldl (fun s u => s.normWeight u sing) s
    | _ =>
      let s1 := us.foldl (fun s u => s.applyWeight st l p u sing) s
      s1.recopy st p l (!sing)

/-- The bytes of device memory that the update of a layer writes besides its forward copies. -/
def Slot.layerRuns (x : Slot) (p : Program) (l : Nat) : List (Nat × Nat) :=
  (p.owned l).flatMap fun d =>
    let (m, n) := p.rowsCols d
    (d.addr, 2 * m * n) :: (match x.opt.find? fun (o : OptState) => o.desc == d.id with
      | some o => [o.mAddr, o.sAddr, o.cAddr].zip (stateSizes o.layout m n)
      | none => [])

/-- Everything that the update of a layer writes. -/
def Slot.updateRuns (x : Slot) (p : Program) (l : Nat) : List (Nat × Nat) :=
  x.layerRuns p l ++ (p.owned l).flatMap fun d => [PartKind.copy, .copyScale, .copySums].flatMap fun k =>
    x.pieces k d.id 0 ++ x.pieces k d.id 1

/-- What the engines read for the update of a layer: its master copies, optimiser state, masks and step gradients (R215, R230, R250). -/
def Slot.engineRuns (x : Slot) (p : Program) (l : Nat) : List (Nat × Nat) :=
  x.layerRuns p l ++ (p.owned l).flatMap fun d =>
    x.pieces .step d.id 0 ++ (match x.coeff.bind fun c => c.weights.find? fun (w : WeightRec) => w.desc == d.id with
      | some w => if w.maskAddr = 0 then [] else let (m, n) := p.rowsCols d; [(w.maskAddr, ceilDiv (m * n) 8)]
      | none => [])

/-- Has every write of a layer's update taken place (R190, R230, R253)? -/
def State.layerSettled (s : State) (x : Slot) (p : Program) (l : Nat) : Bool :=
  (x.updateRuns p l).all fun q => s.mem.settled q.1 q.2

end Sys2Proof.Machine
end

