-- ==== Sys2Proof/Machine/Schedule.lean ====
section
/-!
DEFINITION. Beryl's scheduling of a step: what a layer operation runs with (R33, R166, R174), the placer (R27, R28, R74,
R210, R211), when an item may start (R190, R207, R219) and the first run of a layer (R171 cause 6, R173, R424).
-/
namespace Sys2Proof.Machine

open Sys2Proof

/-! ### A step with its program -/

/-- A step in flight with its slot and its program. -/
structure Run where
  st : Step
  x : Slot
  p : Program

def State.run (s : State) (i : Nat) : Option Run :=
  match s.steps[i]? with
  | none => none
  | some st => (s.slot st.slot).prog.map fun p => ⟨st, s.slot st.slot, p⟩

/-- The step with the rungs that a layer operation runs in: no rung changes in the middle of one (R33). -/
def Step.latched (st : Step) (op : LayerOp) : Step :=
  match st.layerProg op with
  | some q => if q.begun then { st with rungs := updAt st.rungs op.layer fun r => { r with rf := q.rf, rg := q.rg } } else st
  | none => st

/-- What the records of a layer operation run with. -/
def State.ctxOf (s : State) (r : Run) (op : LayerOp) : Ctx := ⟨s, r.x, r.p, r.st.latched op, op.mb⟩

def opOfRec (o : OpRec) (mb phase : Nat) : LayerOp := ⟨o.layer, mb, min phase 1⟩

def Step.recProg (st : Step) (r mb phase : Nat) : Option RecProg :=
  st.recs.find? fun q => q.record == r && q.mb == mb && q.phase == phase

def Step.recDone (st : Step) (r mb phase : Nat) : Bool := (st.recProg r mb phase).any RecProg.done

def Step.modRec (st : Step) (r mb phase : Nat) (f : RecProg → RecProg) : Step :=
  { st with recs := st.recs.map fun q => if q.record = r ∧ q.mb = mb ∧ q.phase = phase then f q else q }

/-! ### The placer -/

/-- The share of a product that this module forms (R262). -/
def Ctx.share (c : Ctx) (o : OpRec) (r : Rows) : BwdPart :=
  match c.s.splitOf c.p o r.k r.n with
  | some x => x.bwd r
  | none => wholeBwd r

/-- Matrices of a product's B. -/
def Ctx.mats (c : Ctx) (b : Desc) (r : Rows) : Nat := if b.rank = 2 then 1 else prod (c.shape b) / (r.k * r.n)

/-- Spans of a reduction that starts at index `lo` and has `n` elements (R116, R126). -/
def spanCount (lo n : Nat) : Nat := if n = 0 then 0 else ceilDiv (lo % 1024 + n) 1024

/-- The indices of span `j`, counted from the first, of a reduction. -/
def spanIdx (lo n j : Nat) : List Nat :=
  let g := 1024 * (lo / 1024 + j)
  let a := max lo g
  (List.range (min (lo + n) (g + 1024) - a)).map (a + ·)

/-- The most keys of a row of an attention record. -/
def Ctx.keyCount (c : Ctx) (o : OpRec) : Nat :=
  match o.ins.filterMap c.p.desc with
  | _ :: k :: _ :: rest =>
    if o.opcode = 0x0006 then let g := c.ring k ((c.shape k).getD 0 0); g.s * g.ts
    else match rest with
      | [r, e] =>
        let g : Graph := ⟨(c.tensor r).codes, (c.tensor e).codes⟩
        ((List.range g.rowPtr.length).map fun t => (g.edges t).length).foldl max 0
      | _ => 0
  | _ => 0

/-- Elements of a key, and keys, that an attention item takes in one span: all Dh elements of as many keys of a chunk as 31,744 elements hold, or
1,024 elements of one key where Dh is above 1,024, so that a span slice leaves room for the run-ahead distance (Table 7.3; log 9). -/
def attElems (dh : Nat) : Nat := min (max 1 dh) 1024
def attKeys (dh : Nat) : Nat := if 1024 < dh then 1 else min 128 (31744 / max 1 dh)

/-- Spans of a key: parts of its elements; and spans of a chunk of 128 keys. -/
def attParts (dh : Nat) : Nat := max 1 (ceilDiv dh (attElems dh))
def attSpans (dh : Nat) : Nat := ceilDiv 128 (attKeys dh) * attParts dh

/-- The span of an attention item that takes part `e` of the elements of key `k` of chunk `ch`. -/
def attSpan (dh ch k e : Nat) : Nat := ch * attSpans dh + k / attKeys dh * attParts dh + e

/-- The elements of an operand of the vector engine in fibres along one dimension; a span takes 16 fibres by 1,024 elements of each, so that it
leaves room for the run-ahead distance (Table 7.3; log 9). -/
def vecSpans (shape : List Nat) (dim : Nat) : Nat :=
  let n := max 1 (shape.getD dim 1)
  ceilDiv (prod shape / n) 16 * ceilDiv n 1024

/-- The dimension along which an operand of the vector engine is walked: its BDIM where blocks have one, else the last. -/
def Ctx.walkDim (c : Ctx) (d : Desc) : Nat := if (c.fmt d).b32 then d.bdim else (c.shape d).length - 1

/-- What a work item of a record forms: the output of the record (0), dA (1) or dB (2) of a product, or nothing (3); its rows and columns in this
module's share, and the spans of a tile. -/
structure Form where
  kind : Nat
  rows : Nat
  cols : Nat
  spans : Nat
  deriving DecidableEq, Repr

/-- What the items of a record form in a phase: of a product its output in FWD, in BWD the gradients that the phase forms (R210, R211), nothing
where it forms none; of an attention record a row of a token and head over its keys, in BWD with what it adds to the gradients; of a
record of the vector engine its output, or in BWD what its operands and its output gradient are read for. -/
def Ctx.forms (c : Ctx) (o : OpRec) (phase : Nat) : List Form :=
  match c.prodRows o with
  | some (a, b, _, r, _) =>
    let m := r.rows.length
    let w := c.share o r
    if phase = 0 then [⟨0, m, w.nN, spanCount w.kLo w.kN⟩]
    else
      let da : List Form := if c.wants phase a then [⟨1, m, w.kN, spanCount (w.nLo - w.origin r.n) w.nN⟩] else []
      let db : List Form := if c.wants phase b then [⟨2, c.mats b r * w.kN, w.nN, spanCount 0 (m / c.mats b r)⟩] else []
      if (da ++ db).isEmpty then [⟨3, 1, 1, 0⟩] else da ++ db
  | none =>
    match o.outs.head?.bind c.p.desc with
    | none => [⟨3, 1, 1, 0⟩]
    | some y =>
      let shape := c.shape y
      let n := shape.getLast?.getD 1
      if o.opcode = 5 ∨ o.opcode = 6 then [⟨0, prod shape / n, n, ceilDiv (c.keyCount o) 128 * attSpans n⟩]
      else
        let ds := (o.ins.filterMap c.p.desc ++ o.outs.filterMap c.p.desc).map fun d => vecSpans (c.shape d) (c.walkDim d)
        [⟨0, prod shape / n, n, if o.opcode = 3 then ds.foldl (· + ·) 1 else ds.foldl max 1⟩]

/-- Rows and columns of an output tile: at most 16 each, so that a span slice of FP32 fits the landing buffer with its run-ahead
distance (Table 7.3; log 9). -/
def tileRows (r phase : Nat) : Nat := Config.tileRows r (min phase 1) % 16 + 1
def tileCols (r phase : Nat) : Nat := Config.tileCols r (min phase 1) % 16 + 1

/-- Rows and columns of a tile of a record: an attention record's tile is one row of one token and head. -/
def OpRec.tileSize (o : OpRec) (r phase : Nat) (f : Form) : Nat × Nat :=
  if o.opcode = 5 ∨ o.opcode = 6 then (1, max 1 f.cols) else (tileRows r phase, tileCols r phase)

/-- First row and column of tile `k` and its valid rows and columns: its tile header (R197); `h` rows and `w` columns a tile. -/
def tileAt (h w rows cols k : Nat) : (Nat × Nat) × (Nat × Nat) :=
  let across := max 1 (ceilDiv cols w)
  let r0 := k / across * h
  let c0 := k % across * w
  ((r0, c0), (min h (rows - r0), min w (cols - c0)))

/-- Tiles of `rows` by `cols`. -/
def tilesOf (h w rows cols : Nat) : Nat := max 1 (ceilDiv rows h) * max 1 (ceilDiv cols w)

/-- A tile of a record in a phase: what it forms, and its header. Tiles of a second form are numbered behind those of the first. -/
structure TilePlan where
  form : Form
  head : (Nat × Nat) × (Nat × Nat)
  deriving DecidableEq, Repr

/-- The tile of a number among those of several forms. -/
def OpRec.planIn (o : OpRec) (r phase : Nat) : Nat → List Form → TilePlan
  | _, [] => ⟨⟨3, 1, 1, 0⟩, ((0, 0), (1, 1))⟩
  | k, f :: fs =>
    let q := o.tileSize r phase f
    let n := tilesOf q.1 q.2 f.rows f.cols
    if k < n ∨ fs.isEmpty = true then ⟨f, tileAt q.1 q.2 f.rows f.cols k⟩ else OpRec.planIn o r phase (k - n) fs

def Ctx.tilePlan (c : Ctx) (o : OpRec) (r phase tile : Nat) : TilePlan := o.planIn r phase tile (c.forms o phase)

/-- Tiles of a record in a phase, each with its spans. -/
def Ctx.tiles (c : Ctx) (o : OpRec) (r phase : Nat) : List Nat :=
  (c.forms o phase).flatMap fun f => let q := o.tileSize r phase f; List.replicate (tilesOf q.1 q.2 f.rows f.cols) f.spans

/-- The spans of a tile cut into contiguous ranges, one for each of its items (R27; log 9): of a product as the placer will; of ring attention
in FWD one range a shard, which its member computes as it arrives (R264); of any other record one. -/
def Ctx.spanRanges (c : Ctx) (o : OpRec) (r phase n : Nat) : List (Nat × Nat) :=
  let cut (h : Nat) : List (Nat × Nat) := (List.range (max 1 (ceilDiv n h))).map fun k => (k * h, min n ((k + 1) * h))
  if o.opcode = 1 ∨ o.opcode = 2 then cut (max 1 (ceilDiv n (Config.spanParts r (min phase 1) + 1)))
  else if o.opcode = 6 ∧ phase = 0 then
    match o.ins.filterMap c.p.desc with
    | _ :: k :: _ => let g := c.ring k ((c.shape k).getD 0 0); cut (max 1 (n / max 1 g.s))
    | _ => [(0, n)]
  else [(0, n)]

/-- The turn of range `k` of a tile among the items of its record, and whether its item writes the tile: of ring attention in FWD the ranges in
the order in which their shards come, the last of them with the tile (R264); of any other record the item of the lowest span writes the
tile that it folds, in its turn behind the other ranges (R31; log 9). -/
def Ctx.turnOf (c : Ctx) (o : OpRec) (phase k : Nat) : Nat × Bool :=
  let plain : Nat × Bool := (if k = 0 then 1 else 0, k == 0)
  if o.opcode = 6 ∧ phase = 0 then
    match o.ins.filterMap c.p.desc with
    | _ :: d :: _ =>
      let g := c.ring d ((c.shape d).getD 0 0)
      if 1 < g.s then let r := (g.me + g.s - k) % g.s; (r, r + 1 == g.s) else plain
    | _ => plain
  else plain

def State.serving (s : State) : List Nat := (List.range 324).filter fun t => (s.tower t).inService

/-- Towers in service that a QUARTERS or TOWERS hint names. -/
def Hint.towers (h : Hint) (ts : List Nat) : List Nat :=
  if h.kind = 0 then ts.filter fun t => bitOf h.arg0 (quarterOf t)
  else ts.filter fun t => decide (h.arg0 ≤ t) && decide (t < h.arg0 + h.arg1)

/-- The towers for a record's tiles (R74, Table 2.10): COLOCATE follows the other record's hints; a hint without a tower in
service is set aside. -/
def towersFor (hs : List Hint) (ts : List Nat) : Nat → Nat → Nat × List Nat
  | 0, r => (r, ts)
  | n + 1, r =>
    match hs.find? fun h => h.record == r with
    | none => (r, ts)
    | some h =>
      if h.kind = 3 then towersFor hs ts n h.arg0
      else let l := h.towers ts; (r, if l.isEmpty then ts else l)

/-- Records whose hint names only towers out of service (HINT_IGNORED). -/
def ignoredHints (hs : List Hint) (ts : List Nat) : List Nat :=
  (hs.filter fun h => decide (h.kind ≤ 1) && (h.towers ts).isEmpty).map Hint.record

/-- The tower of an item (R28, R38; log 9); none when no tower is in service. -/
def State.towerOfItem (s : State) (st : Step) (it : Item) : Option Nat :=
  let (r, l) := towersFor st.hints s.serving (st.hints.length + 1) it.record
  if l.isEmpty then none else l[Config.tileTower st.loads r it.tile it.lo it.mb % l.length]?

/-- Are a record's items pinned: by its own hint, unless the hint that places it is set aside (R74, Table 2.10)? -/
def pinnedBy (hs : List Hint) (ts : List Nat) (r : Nat) : Bool :=
  (hs.any fun h => h.record == r && h.pin) && !(ignoredHints hs ts).contains (towersFor hs ts (hs.length + 1) r).1

/-- The items of one record in a phase: every tile with every range of its spans. -/
def State.items (s : State) (r : Run) (o : OpRec) (rec' mb phase : Nat) : List Item :=
  let c := s.ctxOf r (opOfRec o mb phase)
  let ts := c.tiles o rec' phase
  let pin := pinnedBy r.st.hints s.serving rec'
  (ts.mapIdx fun k spans => (c.spanRanges o rec' phase spans).mapIdx fun j q =>
    let w := c.turnOf o phase j
    (⟨r.st.number.toNat, r.st.slot, rec', mb, phase, phase == 2, k, ts.length, q.1, q.2, pin, w.1, w.2⟩ : Item)).flatten

/-- A queue takes an item at its place; the last item of a full queue goes to the backlog. New work ends an exchange of the
thief that waited for it (R29). -/
def Tower.enqueue (t : Tower) (i : Item) : Tower × Option Item :=
  let q := insertItem t.queue i
  let t' := { t with queue := q.take 256, candidates := if t.stealing then t.candidates else none }
  (t', q[256]?)

def State.backlogItem (s : State) (i : Nat) (it : Item) : State :=
  s.modStep i fun p => { p with backlog := insertItem p.backlog it }

/-- One item is placed. -/
def State.placeItem (s : State) (i : Nat) (it : Item) : State :=
  match (s.steps[i]?).bind fun st => s.towerOfItem st it with
  | none => s.backlogItem i it
  | some t =>
    let (t', rest) := (s.tower t).enqueue it
    let s1 := s.modTower t fun _ => { t' with used := true }
    match rest with
    | none => s1
    | some j => s1.backlogItem i j

/-- Items of the backlog move to queues with room, in order. -/
def State.drainBacklog (s : State) (i : Nat) : State :=
  match s.steps[i]? with
  | none => s
  | some st =>
    st.backlog.foldl (fun s it =>
      match s.towerOfItem st it with
      | none => s.backlogItem i it
      | some t => if (s.tower t).queue.length < 256 then s.placeItem i it else s.backlogItem i it)
      (s.modStep i fun p => { p with backlog := [] })

/-- The work of one record in one phase of a micro-batch enters the step and the queues; a COLLECTIVE record has no item. -/
def State.placeRecord (s : State) (i : Nat) (o : OpRec) (r mb phase : Nat) : State :=
  match s.run i with
  | none => s
  | some x =>
    let its := if o.opcode = 0x000F then [] else s.items x o r mb phase
    let s1 := s.modStep i fun p =>
      if (p.recProg r mb phase).isSome then
        p.modRec r mb phase fun q => { q with placed := its.length, retired := 0, folds := [], done := false }
      else { p with recs := p.recs ++ [⟨r, mb, phase, its.length, 0, [], false⟩] }
    its.foldl (fun s it => s.placeItem i it) s1

/-- The records of a phase with their work (R210, R211): FWD every record; BWD the backward graph in reverse, input gradients
first, then the deferred products of WEIGHTs. -/
def Program.phaseWork (p : Program) (phase : Nat) : List (OpRec × Nat × Nat) :=
  let all := p.ops.mapIdx fun r o => (o, r)
  if phase = 0 then all.map fun q => (q.1, q.2, 0)
  else
    let on := (all.filter fun q => p.onGraph q.1).reverse
    let hasW (o : OpRec) : Bool := (o.opcode == 1 || o.opcode == 2) &&
      o.ins.any fun d => p.wantsGrad d && (p.desc d).any fun x => x.role == 1
    on.map (fun q => (q.1, q.2, 1)) ++ (on.filter fun q => hasW q.1).map fun q => (q.1, q.2, 2)

/-- The work of a phase of a micro-batch is placed; at the start of a micro-batch, which is a rebalance, thieves may ask again (R27 to
R29). -/
def State.placePhase (s : State) (i mb phase : Nat) : State :=
  match s.run i with
  | none => s
  | some r =>
    let s1 := if phase = 0 then { s with towers := s.towers.map fun (t : Tower) =>
      { t with candidates := if t.stealing then t.candidates else none } } else s
    (r.p.phaseWork phase).foldl (fun s q => s.placeRecord i q.1 q.2.1 mb q.2.2) s1

/-- The eight counters of R38 summed over the towers in service of each quarter. -/
def State.quarterSums (s : State) : List (List Quad) :=
  (List.range 4).map fun q => (List.range 8).map fun k =>
    (s.serving.filter fun t => quarterOf t == q).foldl (fun a t => a + ((s.tower t).ctr (k + 1)).v) 0

/-- A micro-batch begins: the sums of the one before are its differences, which the placer uses (R28, R38). -/
def State.loadSums (s : State) (i : Nat) : State :=
  s.modStep i fun p => { p with
    loads := if p.loadsAt.isEmpty then [] else s.quarterSums.zipWith (fun a b => a.zipWith (· - ·) b) p.loadsAt
    loadsAt := s.quarterSums }

/-! ### Layers -/

/-- The layers whose weights a record reads (R445), with its own layer first. -/
def Program.layersRead (p : Program) (o : OpRec) : List Nat :=
  (o.layer :: (p.weights.filter fun d => o.ins.contains d.id).map fun d => p.owner d.id).dedup

/-- May a step read a layer (R219)? -/
def State.layerFree (s : State) (st : Step) (l : Nat) : Bool :=
  match s.lateIdx.bind fun j => s.steps[j]? with
  | none => true
  | some q => q.slot != st.slot || q.number == st.number || q.updDone.contains l ||
      (match q.decided with | some (upd, _) => !upd | none => true)

/-- W statistics of a layer as its copies stand. -/
def State.putW (s : State) (i l : Nat) : State :=
  match s.run i with
  | none => s
  | some r => s.modStep i fun p => { p with
      stats := (p.stats.filter fun e => !(e.layer == l && e.role == 1)) ++ r.x.wEntries r.p l }

/-- Cause 6 of a layer's copies: the first copy that meets it, by saturation, outliers or non-finite elements (Table 6.6, R254). -/
def copyCond (e : PlanEnt) (ws : List StatEnt) : Option Cond :=
  if e.w.isEmpty then none
  else
    let f (x : StatEnt) : Option Cond :=
      if x.stats.satShare > e.satMax then some ⟨6, false, x, x.stats.satShare⟩
      else if x.stats.ovf > e.ovfMax then some ⟨6, false, x, x.stats.ovf⟩
      else if 0 < x.stats.nonfin then some ⟨6, false, x, x.stats.nonfin⟩
      else none
    ws.findSome? f

/-- The forward copies of a layer in its rung. `all`: made anew in the current area, also those that stand in the format already; else
a wider copy goes to the other area, so that operations of the rung before keep theirs (R152, R173, R176). A master copy in a retired page
fails the step (R293). -/
def State.copyRung (s : State) (i l : Nat) (all : Bool) : State :=
  match s.run i with
  | none => s
  | some r =>
    let rf (k : Nat) : Nat := (r.st.rung k).rf
    let (ok, s1) := s.readRuns rqJasper r.st.number [] ((r.x.toCopy r.p l rf all).map fun d => (d.addr, r.p.hostBytes d))
    if ok then (s1.copyLayer r.st.slot r.p l rf all (!all)).putW i l else s1.failStep i stBUS_ERROR

/-- Before the first run of a layer in a step: its copies stand in its rung (R173, R424), and cause 6 is judged (R171). -/
def State.beginLayer (s : State) (i l : Nat) : State :=
  match s.run i with
  | none => s
  | some r =>
    if (r.st.rung l).begun then s
    else
      let s1 := (s.copyRung i l (r.x.stale.contains l)).modSlot r.st.slot fun x => { x with stale := x.stale.filter (· != l) }
      let s2 := s1.modStep i fun p => { p with rungs := updAt p.rungs l fun q => { q with begun := true } }
      match (r.x.plan.bind fun pl => pl.layers[l]?), s1.run i with
      | some e, some r1 =>
        match copyCond e (r1.x.wEntries r.p l) with
        | none => s2
        | some c =>
          let (s3, widened) := s2.fallback i l 0xFF 0 (r.st.rung l).rf e c
          if widened then s3.copyRung i l false else s3
      | _, _ => s2

/-- A layer operation begins with its first record (R33). -/
def State.beginOp (s : State) (i : Nat) (o : OpRec) (mb phase : Nat) : State :=
  match s.run i with
  | none => s
  | some r =>
    let s1 := (r.p.layersRead o).foldl (fun s l => s.beginLayer i l) s
    let op := opOfRec o mb phase
    s1.modStep i fun p =>
      let g := p.rung op.layer
      match p.layerProg op with
      | none => { p with layers := p.layers ++ [⟨op, true, g.rf, g.rg, false, 0, false, false, false⟩] }
      | some q => if q.begun then p else p.modLayer op fun q => { q with begun := true, rf := g.rf, rg := g.rg }

/-! ### Readiness -/

def Step.collOf (st : Step) (u : CollUse) : Option Coll := st.colls.find? fun c => c.use == u

/-- Has this module joined a collective? -/
def Step.joined (st : Step) (u : CollUse) : Bool := (st.collOf u).any fun c => !c.mine.isEmpty

/-- The SEQ_RING whose shards an ATTEND record computes as they arrive (R63, R264). -/
def Program.ringOf (p : Program) (o : OpRec) : Option Nat :=
  if o.opcode = 6 then ((o.ins[1]?).bind p.writer).filter fun j => (p.ops[j]?).any fun w => w.opcode == 0x000F && fieldLe w.param 0 1 == 3
  else none

/-- Are the inputs of a record complete in FWD (R190)? Of the shards of a ring, its own has joined the exchange (R264). -/
def Run.inputsDone (r : Run) (o : OpRec) (mb : Nat) : Bool :=
  o.ins.all fun d => match r.p.writer d with
    | some j => r.st.recDone j mb 0 || (r.p.ringOf o == some j && r.st.joined (.record j mb 0))
    | none => true

/-- Is the output gradient of a record complete (R210)? -/
def Run.gradDone (r : Run) (o : OpRec) (mb : Nat) : Bool :=
  o.outs.all fun d => (r.p.readers d).all fun j => match r.p.ops[j]? with
    | some q => !r.p.onGraph q || r.st.recDone j mb 1
    | none => true

/-- Is the work of a layer operation allowed to go on: the step runs, and no stop or repeat stands (R152, R172)? -/
def Run.opOpen (r : Run) (op : LayerOp) : Bool :=
  r.st.ended == .running && r.st.stage == .running &&
    match r.st.layerProg op with
    | some q => q.want == 0 && !q.stopped
    | none => true

/-- How a product record of a micro-batch is split (R262). -/
def State.recSplit (s : State) (r : Run) (o : OpRec) (mb : Nat) : Option Split :=
  if o.opcode = 1 ∨ o.opcode = 2 then
    match (s.ctxOf r ⟨o.layer, mb, 0⟩).prodRows o with
    | some (_, _, _, rows, _) => s.splitOf r.p o rows.k rows.n
    | none => none
  else none

/-- Are a record's inputs of a phase complete, its layers readable, and its operation open? -/
def State.recOpen (s : State) (r : Run) (o : OpRec) (mb phase : Nat) : Bool :=
  r.opOpen (opOfRec o mb phase) && (r.p.layersRead o).all (s.layerFree r.st) && (if phase = 0 then r.inputsDone o mb else r.gradDone o mb)

/-- May a record's work of a phase start? The derived products of a record split by columns wait for the exchange of its dY (R262). -/
def State.recReady (s : State) (r : Run) (o : OpRec) (rec' mb phase : Nat) : Bool :=
  s.recOpen r o mb phase &&
    (phase == 0 || (s.recSplit r o mb).all fun x => x.rule != 1 || (r.st.collOf (.record rec' mb 1)).any Coll.done)

/-- Has the shard come that an item of ring attention computes (R264)? -/
def State.shardHere (s : State) (r : Run) (o : OpRec) (it : Item) : Bool :=
  match (r.p.ringOf o).filter fun j => it.phase == 0 && !r.st.recDone j it.mb 0 with
  | none => true
  | some j => match r.st.collOf (.record j it.mb 0) with
    | none => false
    | some c => match s.members c.group with
      | some (rs, t) => (c.shard rs t.myRank (it.lo / max 1 (it.hi - it.lo))).isSome
      | none => false

def State.itemReady (s : State) (it : Item) : Bool :=
  match (s.stepOf it).bind s.run with
  | none => false
  | some r => match r.p.ops[it.record]? with
    | some o => s.recReady r o it.record it.mb it.phase && s.shardHere r o it
    | none => false

/-- The item that a tower takes next (R27, R186, R211): the head of its queue when ready, else the first ready deferred one
while no input-gradient item of the queue is ready; at most two items are started, and none once a router has failed: the module then
serves no job (R26). -/
def State.pick (s : State) (t : Tower) : Option Nat :=
  if !t.inService || decide (t.started.length ≥ 2) || s.towers.any Tower.routerFault then none
  else match t.queue with
    | [] => none
    | it :: _ =>
      if s.itemReady it then some 0
      else if t.queue.any fun i => i.phase == 1 && s.itemReady i then none
      else t.queue.findIdx? fun i => i.deferred && s.itemReady i

end Sys2Proof.Machine
end

