-- ==== Sys2Proof/Machine/Jasper.lean ====
section
/-!
DEFINITION. Jasper (chapter 7): where the operands of a work item lie, the walks that fetch them (R184, R195 to R198), the requests and
scaled bursts of a stream (R150, R185, R202), the opening of streams with a started item (R27, R186), responses, far-end gathers and write
acknowledgements (R189 to R191, R199), skews and broken orders (R151, R152, R196, R204), and the spans that run once their operands
and anchors have been delivered (R15, R16, R35, R200).
-/
namespace Sys2Proof.Machine

open Sys2Proof

/-! ### Gradients of a step -/

/-- The gradient of a tensor for a micro-batch: contributions in order of record, then of input (R73, R215). -/
def Step.gradient (st : Step) (d mb : Nat) : Option (List Word) :=
  let l := ((st.grads.filter fun g => g.desc == d && g.mb == mb).map fun g => (g.record * 8 + g.input, g.words)).insertionSort
    fun a b => a.1 ≤ b.1
  match l.map Prod.snd with
  | [] => none
  | w :: ws => some (ws.foldl (fun a b => a.zipWith f32add b) w)

/-- Elements of a tensor in the step: as many as it holds, else those of its extents. -/
def Ctx.elemCount (c : Ctx) (d : Desc) : Nat :=
  match (c.heldOf d.id).bind Held.ring with
  | some t => t.codes.length
  | none => prod (c.shape d)

/-- The output gradient of a record: that of its first output, of the gates for ROUTE; +0 where nothing passes one. -/
def Ctx.dyOf (c : Ctx) (o : OpRec) (k : Nat) : List Word :=
  match (o.outs[k]?).bind c.p.desc with
  | none => []
  | some d => (c.st.gradient d.id c.mb).getD (List.replicate (c.elemCount d) 0)

/-- The output of a record that a gradient comes back through. -/
def OpRec.gradOut (o : OpRec) : Nat := if o.opcode = 0x000D then 1 else 0

def Ctx.dy (c : Ctx) (o : OpRec) : List Word := c.dyOf o o.gradOut

/-- The elements of a matrix of `n` columns in the columns from `lo`, `w` of them; +0 in the others. -/
def maskCols (n lo w : Nat) (ws : List Word) : List Word :=
  ws.mapIdx fun q x => if lo ≤ q % n ∧ q % n < lo + w then x else 0

/-- The output gradient that this module's share of product record `k` reads: under rule 1 its own columns of the members'
REDUCE_SCATTER (R262; log 29). -/
def Ctx.dyWork (c : Ctx) (o : OpRec) (k : Nat) : List Word :=
  match c.prodRows o with
  | none => c.dy o
  | some (_, _, _, r, _) =>
    match c.s.splitOf c.p o r.k r.n with
    | none => c.dy o
    | some x =>
      if x.rule = 1 then
        let full : List Word := match (c.st.collOf (.record k c.mb 1)).bind fun q => (c.s.members q.group).bind fun g => q.result g.2 g.1 [] with
          | some l => bytesWords (l.headD [])
          | none => c.dy o
        maskCols r.n (x.bwd r).nLo (x.bwd r).nN full
      else c.dy o

/-! ### Where operands lie -/

/-- Where an operand lies: its layout, the format in force, the extents that are stored and those of the micro-batch, and the pieces of
device memory with its codes, its scales and outlier slots, and its group sums. -/
structure Source where
  d : Desc
  fmt : Fmt
  big : List Nat
  small : List Nat
  data : List (Nat × Nat)
  sd : Desc
  scale : List (Nat × Nat)
  sums : List (Nat × Nat)

/-- The address of a byte of several pieces. -/
def pieceAddr : List (Nat × Nat) → Nat → Nat
  | [], off => off
  | [(a, _)], off => a + off
  | (a, l) :: r, off => if off < l then a + off else pieceAddr r (off - l)

/-- The logical index of an element; the shards of a ring pass through the place of the module's own one (log 76). -/
def Source.idx (x : Source) (i : Nat) : List Nat := unravel x.small (i % max 1 (prod x.small))

/-- Address and bytes of an element's code (R76). -/
def Source.extent (x : Source) (i : Nat) : Nat × Nat :=
  let q := storeIdx x.d (storedShape x.fmt x.big x.d.bdim) (x.idx i)
  (pieceAddr x.data (q * x.fmt.elem.bits / 8), max 1 (x.fmt.elem.bits / 8))

/-- The position of an element's block in the scale tensor (R78). -/
def Source.blockPos (x : Source) (i : Nat) : Nat :=
  storeIdx x.sd (scaleShape x.big x.d.bdim) (updAt (x.idx i) x.d.bdim fun k => k / 32)

def Source.scaleAddr (x : Source) (i : Nat) : Nat × Nat := (pieceAddr x.scale (x.blockPos i), 1)

/-- The outlier slots of an element's block (R136). -/
def Source.slotAddr (x : Source) (i : Nat) : Nat × Nat :=
  (pieceAddr x.scale (roundUp (prod (scaleShape x.big x.d.bdim)) 256 + 4 * x.d.budget * x.blockPos i), 4 * x.d.budget)

/-- The group sum of an element's group of 32 (R148). -/
def Source.sumAddr (x : Source) (i : Nat) : Nat × Nat :=
  let k := sumsDim x.fmt x.big.length x.d.bdim
  (pieceAddr x.sums (2 * ravel (scaleShape x.big k) (updAt (x.idx i) k fun j => j / 32)), 2)

/-- A layout in logical order. -/
def Desc.logical (d : Desc) (rank bdim : Nat) : Desc :=
  { d with rank := rank, order := List.range rank, tileOuter := 0, tileInner := 0, bdim := bdim, qctl := 0 }

/-- A descriptor as FWD reads or writes it. -/
def Ctx.source (c : Ctx) (d : Desc) : Source :=
  let sh := c.shape d
  let sd := (c.p.desc d.scaleId).getD d
  let half := halfOf c.mb
  if d.role = 1 then
    let (f, k) := match c.x.copyIn d.id (c.fmt d) with | some k => (k.fmt, k.area) | none => (d.fmtD, 0)
    let at' (kind : PartKind) : List (Nat × Nat) := (c.x.pieces kind d.id k).take 1
    ⟨d, f, c.p.maxShape d, sh, at' .copy, d.copyScale, at' .copyScale, at' .copySums⟩
  else if d.role = 2 then
    let f := match c.heldOf d.id with | some h => h.fmt | none => c.fmt d
    ⟨d, f, sh, sh, c.x.pieces .tensor d.id half, sd, c.x.pieces .tensor sd.id half, c.x.pieces .sums d.id half⟩
  else ⟨d, d.fmtD, sh, sh, [(c.baseOf d + d.addr, 0)], sd, [(c.baseOf sd + sd.addr, 0)], []⟩

/-- An operand of a product as the backward pass reads it (R212). -/
def Ctx.backSource (c : Ctx) (d : Desc) : Source :=
  let sh := c.shape d
  let bf : Fmt := ⟨.bf16, false⟩
  if d.role = 1 then ⟨d, bf, c.p.maxShape d, sh, [(d.addr, 0)], d, [], []⟩
  else if keptCopy d then ⟨d.logical sh.length 0xFF, bf, sh, sh, c.x.pieces .kept d.id (halfOf c.mb), d, [], []⟩
  else c.source d

/-- The gradient of a tensor in FP32 (R56). -/
def Ctx.gradSource (c : Ctx) (d : Desc) : Source :=
  let sh := c.shape d
  ⟨d.logical sh.length 0xFF, ⟨.fp32, false⟩, sh, sh, c.x.pieces .grad d.id (halfOf c.mb), d, [], []⟩

/-- A copy of dY in the G format (R213). -/
def Ctx.dySource (c : Ctx) (layer : Nat) (y : Desc) (shape : List Nat) (bdim : Nat) (second : Bool) : Source :=
  let f := c.gFmt layer
  let ps := c.x.pieces (if second then .dyB else .dyA) y.id (halfOf c.mb)
  let l := y.logical shape.length bdim
  ⟨l, f, shape, shape, ps, l, dropPieces (roundUp (storedBytes f shape bdim) 256) ps, []⟩

/-! ### The tiles of a product -/

/-- A tile of a product: its operands, its rows and columns in this module's share, the reduction range, the linear index of each
operand's element at a place of the reduction (none in a row of zeros), the place of that element along the fibre of its operand, the
rounding and the key of the fold at a row and column (R117, R122), and the element of what it is a tile of that a row and column is. -/
structure TileOps where
  va : View
  vb : View
  sa : Source
  sb : Source
  rows : List Nat
  cols : List Nat
  red : Nat × Nat
  derived : Bool
  aIdx : Nat → Nat → Option Nat
  bIdx : Nat → Nat → Nat → Nat
  at' : Nat → Nat → Nat
  mode : RMode
  key : Nat → Nat → GKey
  out : Nat → Nat → Option Nat

/-- The tile of product record `k` in a phase (R57, R59, R212, R262). -/
def Ctx.tileOps (c : Ctx) (o : OpRec) (k phase tile : Nat) : Option TileOps :=
  match c.prodRows o with
  | none => none
  | some (a, b, y, r, _) =>
    let w := c.share o r
    let tp := c.tilePlan o k phase tile
    let rs := (List.range tp.head.2.1).map (tp.head.1.1 + ·)
    let cs := (List.range tp.head.2.2).map (tp.head.1.2 + ·)
    let nr := r.rows.length
    let m := nr / c.mats b r
    let row (i : Nat) : Option Nat × Nat := r.rows.getD i (none, 0)
    let b32 := (c.gFmt o.layer).b32
    let o0 := w.origin r.n
    match tp.form.kind with
    | 0 => some ⟨c.view a, c.view b, c.source a, c.source b, rs, cs.map (w.nLo + ·), (w.kLo, w.kN), false,
        fun i j => (row i).1.map (· + j), fun i q j => (row i).2 + j * r.n + q, fun _ j => j, foldMode (c.foldCode o y) r.k,
        fun i q => { c.key y.id 0 with row := i, column := q, span := w.kLo / 1024 }, fun i q => some (i * r.n + q)⟩
    | 1 => some ⟨(c.dyCopy o.layer y.id [nr, r.n] 1 false (c.dyWork o k)).1, c.backCopy b, c.dySource o.layer y [nr, r.n] 1 false,
        c.backSource b, rs, cs.map (w.kLo + ·), (w.nLo - o0, w.nN), true,
        fun i j => some (i * r.n + o0 + j), fun i q j => (row i).2 + q * r.n + o0 + j, fun _ j => o0 + j, foldMode 2 (w.length r.n),
        fun i q => { c.key y.id spanDA with row := i, column := q, span := spanDA + (w.nLo - o0) / 1024 },
        fun i q => (row i).1.map (· + q)⟩
    | 2 => some ⟨c.backCopy a, (c.dyCopy o.layer y.id [nr, r.n] (if b32 then 0 else 1) b32 (c.dyWork o k)).1, c.backSource a,
        c.dySource o.layer y [nr, r.n] (if b32 then 0 else 1) b32, rs, cs.map (w.nLo + ·), (0, m), true,
        fun q j => (row (q / w.kN * m + j)).1.map (· + (w.kLo + q % w.kN)), fun q n j => (q / w.kN * m + j) * r.n + n,
        fun q j => q / w.kN * m + j, foldMode 2 m,
        fun q n => { c.key y.id spanDB with row := q / w.kN * r.k + w.kLo + q % w.kN, column := n, span := spanDB },
        fun q n => some ((q / w.kN * r.k + w.kLo + q % w.kN) * r.n + n)⟩
    | _ => none

/-- One side of a span from linear indices. -/
def View.gatherSide (v : View) (derived : Bool) (ix : List (Option Nat)) : Side :=
  let el (i : Nat) : El := if derived then v.bel i else v.el i
  let first : Option Nat := if derived then none else (ix.head?).bind id
  ⟨ix.map fun i => match i with | some i => el i | none => El.zeroRow, first.bind v.entry,
    match first with | some i => v.zp i | none => 0, v.t.fmt⟩

def TileOps.span (t : TileOps) (j : Nat) : List Nat := spanIdx t.red.1 t.red.2 j
def TileOps.aSide (t : TileOps) (j row : Nat) : Side := t.va.gatherSide t.derived ((t.span j).map (t.aIdx row))
def TileOps.bSide (t : TileOps) (j row col : Nat) : Side :=
  t.vb.gatherSide t.derived ((t.span j).map fun q => some (t.bIdx row col q))

/-- Does a product run on the forward array (Table 2.8)? -/
def TileOps.fwd (t : TileOps) : Bool := !t.derived && onForward t.va.t.fmt.elem

/-- The anchors that Jasper delivers for span `j` of a tile (R200): A of every output on the forward array; on the backward array ρ of
every row, γ of every column under each row, and those of the outlier terms and CONST passes. -/
def TileOps.anchors (t : TileOps) (j : Nat) : List (Option Int) :=
  let outs := t.rows.flatMap fun r => t.cols.map fun q => (t.aSide j r, t.bSide j r q)
  if t.fwd then
    outs.map fun q => let prs := q.1.els.zip q.2.els
      fwdAnchor (fwdBlocks (phiOf t.vb.t.fmt) (ceilDiv prs.length 32) prs)
  else
    (t.rows.map fun r => sideAnchor t.va.t.fmt.elem ((t.aSide j r).els.map El.val))
      ++ (outs.map fun q => sideAnchor t.vb.t.fmt.elem (q.2.els.map El.val))
      ++ (outs.map fun q => ownAnchor (outlierProds ((q.1.els.zip q.2.els).filter fun e => e.1.real && e.2.real)))
      ++ outs.map fun q => match q.1.constVal?, q.2.constVal? with
        | some _, none => ownAnchor (oneProds t.vb.t.fmt.elem (q.2.els.flatMap fun e => e.val :: e.outs))
        | none, some _ => ownAnchor (oneProds t.va.t.fmt.elem (q.1.els.flatMap fun e => e.val :: e.outs))
        | _, _ => none

/-- The span accumulators of span `j` over a tile's outputs (R101, R116). -/
def TileOps.values (t : TileOps) (j : Nat) : List SpanVal :=
  t.rows.flatMap fun r => t.cols.map fun q => let a := t.aSide j r; let b := t.bSide j r q; spanValue a b a.els b.els

/-- One step of the fold of every element of a tile with the values of span `j`, counted from the tile's first (R116, R119). -/
def TileOps.fold (t : TileOps) (j : Nat) (acc : List Word) (vals : List XV) : List Word :=
  let keys := t.rows.flatMap fun r => t.cols.map fun q => t.key r q
  ((acc.zip vals).zip keys).map fun x => foldStep t.mode { x.2 with span := x.2.span + j } x.1.1 x.1.2

/-- Products of a span on valid elements: padding and zero rows form none (R35, R113). -/
def TileOps.products (t : TileOps) (j : Nat) : Nat :=
  ((t.rows.map fun r => countIf (fun q => (t.aIdx r q).isSome) (t.span j)).foldl (· + ·) 0) * t.cols.length

/-- Passes of a pairing on the backward array (Table 2.8, R111). -/
def passesOf (a b : Elem) : Nat := if a == .fp32 && b == .fp32 then 3 else if a == .fp32 || b == .fp32 then 2 else 1

/-- Cells that fuse to a multiplier for a weight format (Table 1.3). -/
def fuseOf (f : Fmt) : Nat := if f.elem.bits ≤ 2 then 1 else if f.elem.bits = 4 then 2 else 4

/-! ### Walks -/

/-- A part of a fibre within one span: the place of its first element along the fibre and the linear indices of its elements in order. -/
structure Slice where
  span : Nat
  first : Nat
  ix : List Nat

/-- The logical block number of the `k`-th element of a slice: along BDIM, or by 32 elements along the fibre (R150). -/
def Slice.block (s : Slice) (k : Nat) : Nat := (s.first + k) / 32

/-- The elements of a slice by blocks, the first cut where it begins within a block; `fuel` bounds the blocks. -/
def blocksFrom : Nat → Nat → List Nat → List (List Nat)
  | 0, _, _ => []
  | n + 1, first, ix => if ix.isEmpty then [] else let h := 32 - first % 32; ix.take h :: blocksFrom n (first + h) (ix.drop h)

/-- One fibre of a walk: its slices by span of the item, the index entry that names it (R195) and the first-level entry that this one needs,
and whether a null or out-of-range index stands in its place (R196). -/
structure Fibre where
  slices : List Slice
  entry : Nat
  need : Nat
  null : Bool

/-- The walk of one stream: its kind (Table 7.2), operand, fibres, the addresses of its index entries with their numbers, whether it
fetches group sums, and the entry at which an order condition breaks (R196). -/
structure Walk where
  kind : Nat
  desc : Nat
  src : Source
  view : View
  fibres : List Fibre
  ix1 : List (Nat × Nat)
  ix2 : List (Nat × Nat × Nat)
  sums : Bool
  breach : Option (Bool × Nat)

def Walk.dense (desc : Nat) (src : Source) (view : View) (fs : List Fibre) : Walk := ⟨0, desc, src, view, fs, [], [], false, none⟩

/-- Addresses of an index tensor's entries. -/
def Ctx.ixAddrs (c : Ctx) (d : Desc) (es : List Nat) : List (Nat × Nat) := let x := c.source d; es.map fun e => (e, (x.extent e).1)

/-- Is an index tensor a ROUTE list (Table 7.2)? -/
def Program.listed (p : Program) (d : Nat) : Bool :=
  match (p.writer d).bind fun j => p.ops[j]? with | some q => q.opcode == 0x000D | none => false

/-- The read walks of a product tile over spans `lo` to `hi` (R57, R59, R195). -/
def Ctx.productWalks (c : Ctx) (o : OpRec) (kind : Nat) (t : TileOps) (lo hi : Nat) : List Walk :=
  match c.prodRows o with
  | none => []
  | some (a, b, y, r, idxId) =>
    let spans := (List.range (hi - lo)).map (lo + ·)
    let gather := o.opcode == 0x0002
    let drive := if gather then (if c.p.listed idxId then 4 else 1) else 0
    let ix (es : List Nat) : List (Nat × Nat) := match c.p.desc idxId with | some d => if gather then c.ixAddrs d es else [] | none => []
    let first (row j : Nat) : Nat := t.at' row ((t.span j).headD 0)
    let rowWise : List Fibre := t.rows.map fun i =>
      ⟨spans.map fun j => ⟨j, first i j, (t.span j).filterMap (t.aIdx i)⟩, i, 0, gather && kind == 0 && (r.rows.getD i (none, 0)).1.isNone⟩
    let byEntry : List Fibre := spans.flatMap fun j => (t.span j).map fun q =>
      ⟨[⟨j, t.rows.headD 0, t.rows.filterMap fun i => t.aIdx i q⟩], q, 0, t.rows.all fun i => (t.aIdx i q).isNone⟩
    let wa : Walk := match kind with
      | 0 => ⟨drive, a.id, t.sa, t.va, rowWise, ix t.rows, [], false, none⟩
      | 1 => Walk.dense y.id t.sa t.va rowWise
      | _ => if gather then ⟨drive, a.id, t.sa, t.va, byEntry, ix (spans.flatMap t.span), [], false, none⟩
          else Walk.dense a.id t.sa t.va rowWise
    let mats := t.rows.foldl (fun (l : List Nat) i => if l.any fun j => t.bIdx j 0 0 == t.bIdx i 0 0 then l else l ++ [i]) []
    let colWise : List Fibre := mats.flatMap fun i => t.cols.map fun q =>
      ⟨spans.map fun j => ⟨j, first i j, (t.span j).map (t.bIdx i q)⟩, 0, 0, false⟩
    let zpOrConst : Bool := t.fwd && (a.hasCset)
    [wa, { Walk.dense (if kind = 2 then y.id else b.id) t.sb t.vb colWise with sums := zpOrConst }]

/-- The slices of row `r` of `dh` elements by parts, from span `lo` on. -/
def partSlices (dh lo r : Nat) : List Slice :=
  (List.range (attParts dh)).map fun e =>
    let a := e * attElems dh
    ⟨lo + e, a, (List.range (min dh (a + attElems dh) - a)).map (r * dh + a + ·)⟩

/-- The slices of key row `kr`, key `k` of chunk `ch`, in spans `lo` to `hi`. -/
def keySlices (dh lo hi ch k kr : Nat) : List Slice :=
  (partSlices dh (attSpan dh ch k 0) kr).filter fun s => decide (lo ≤ s.span) && decide (s.span < hi)

/-- The operands that an attention item of BWD reads beside Q, K and V (Table 8.2): the copies of dO in the G format, each blocked along its
reduction dimension, dO in FP32, the output O, and the kept log-sum-exp value of its row. -/
def Ctx.attendBack (c : Ctx) (o : OpRec) (k : Nat) (y : Desc) (rs : List Nat) (lo : Nat) : List Walk :=
  let shape := c.shape y
  let dh := lastExt shape
  let rows : List Fibre := rs.map fun r => ⟨partSlices dh lo r, 0, 0, false⟩
  let dy := c.dy o
  let a := Walk.dense y.id (c.dySource o.layer y shape 2 false) (c.dyCopy o.layer y.id shape 2 false dy).1 rows
  let b : List Walk := if (c.gFmt o.layer).b32 then
      let n := shape.getD 0 1
      let st := prod (shape.drop 1)
      let fs : List Fibre := rs.flatMap fun r => (List.range dh).map fun d =>
        let i := r * dh + d
        let t := i / st / 32 * 32
        ⟨[⟨lo + d / attElems dh, t, (List.range (min n (t + 32) - t)).map fun q => (t + q) * st + i % st⟩], 0, 0, false⟩
      [Walk.dense y.id (c.dySource o.layer y shape 0 true) (c.dyCopy o.layer y.id shape 0 true dy).1 fs]
    else []
  let lseS : Source := ⟨y.logical 1 0xFF, ⟨.fp32, false⟩, [prod shape / dh], [prod shape / dh], c.x.pieces .lse k (halfOf c.mb), y, [], []⟩
  a :: b ++ [Walk.dense y.id (c.gradSource y) (fp32Tensor shape dy).view rows, Walk.dense y.id (c.source y) (c.view y) rows,
    Walk.dense y.id lseS (fp32Tensor [prod shape / dh] []).view (rs.map fun r => ⟨[⟨lo, r, [r]⟩], 0, 0, false⟩)]

/-- The walks of a tile of an attention record: Q by query row; K and V by admitted key, or through the adjacency; in BWD what Table 8.2 keeps
with them (R62, R63, R195). -/
def Ctx.attendWalks (c : Ctx) (o : OpRec) (k phase : Nat) (rs : List Nat) (lo hi : Nat) : List Walk :=
  match c.attend o 0, o.ins.filterMap c.p.desc with
  | some a, q :: kd :: v :: rest =>
    let j := a.job
    let src (d : Desc) : Source := if phase = 0 then c.source d else c.backSource d
    let qs : List Fibre := rs.map fun r => ⟨partSlices j.dh lo r, 0, 0, false⟩
    let dense (d : Desc) (fs : List Fibre) : Walk := Walk.dense d.id (src d) (c.view d) fs
    let kv : List Walk := match (if o.opcode = 0x0006 then [] else rest) with
      | [rp, ci] =>
        let g : Graph := ⟨(c.tensor rp).codes, (c.tensor ci).codes⟩
        let at' (r : Nat) : List Fibre := let t := r / j.h
          (g.edges t).mapIdx fun n e => ⟨keySlices j.dh lo hi (n / 128) (n % 128) (j.keyRow (r % j.h) e), g.rowPtr.getD t 0 + n, t + 1, false⟩
        let ts := firstsOf (rs.map (· / j.h))
        let es := ts.flatMap fun t => (List.range (g.edges t).length).map fun n => (g.rowPtr.getD t 0 + n, t + 1)
        let b := g.breach a.tq
        let ok (f : Fibre) : Bool := !f.slices.isEmpty && match b with
          | some (true, p) => decide (f.entry < p)
          | some (false, p) => decide (f.need < p)
          | none => true
        let sc := c.source ci
        [kd, v].map fun d => ⟨2, d.id, src d, c.view d, (rs.flatMap at').filter ok, c.ixAddrs rp (firstsOf (ts.flatMap fun t => [t, t + 1])),
          es.map fun e => (e.1, (sc.extent e.1).1, e.2), false, b⟩
      | _ =>
        let fs : List Fibre := (rs.flatMap fun r => ((a.rowChunks (r / j.h) (r % j.h)).flatten).flatMap fun ch =>
          ch.2.mapIdx fun n kr => (⟨keySlices j.dh lo hi ch.1 n kr, 0, 0, false⟩ : Fibre)).filter fun f => !f.slices.isEmpty
        [kd, v].map fun d => dense d fs
    dense q qs :: kv ++ (if phase = 0 then [] else c.attendBack o k a.out rs lo)
  | _, _ => []

/-! ### What the vector engine reads -/

/-- The elements of a group of `g` along dimension `d` that element `i` lies in. -/
def groupAt (shape : List Nat) (d g i : Nat) : List Nat :=
  let st := max 1 (prod (shape.drop (d + 1)))
  let n := max 1 (shape.getD d 1)
  let k := i / st % n
  let lo := k / max 1 g * max 1 g
  (List.range (min n (lo + max 1 g) - lo)).map fun j => i - k * st + (lo + j) * st

/-- The elements of a group of the rotation and of the blocks that a record forms along a dimension (R128, R131). -/
def OpRec.groupSize (o : OpRec) (y : Desc) (f : Fmt) : Nat :=
  max (if y.rotCode = 0 then 1 else rotSize y.rotCode) (if o.opcode = 0x000C ∧ f.b32 = true then 32 else 1)

/-- The elements of input `k` that output element `i` comes from; none where it comes from all (R64 to R66, R95, R128, R131). -/
def Ctx.needs (c : Ctx) (o : OpRec) (x y : Desc) (k i : Nat) : Option (List Nat) :=
  let sx := c.shape x
  let n := lastExt (c.shape y)
  match o.opcode with
  | 0x0007 => some (if k = 0 then groupAt sx (sx.length - 1) n i else [i % n])
  | 0x0008 => some (groupAt sx (sx.length - 1) n i)
  | 0x0009 => some [if k = 0 then i else bcastIdx (c.shape y) sx i]
  | 0x000A => some [i]
  | 0x000B => some (groupAt sx (fieldLe o.param 0 1) (o.groupSize y (c.fmt y)) i)
  | 0x000C => if y.hasCset then none else some (groupAt sx y.bdim (o.groupSize y (c.fmt y)) i)
  | _ => none

/-- A format that travels in scaled bursts (R150). -/
def Fmt.framed (f : Fmt) : Bool := f.b32 || [Elem.i8, .u8, .f8a, .f8b].contains f.elem

/-- Places `lo` to `hi` of a fibre, taken to whole blocks where the format has them. -/
def Source.wholeBlocks (x : Source) (ext lo hi : Nat) : Nat × Nat :=
  if x.fmt.framed then (lo / 32 * 32, min ext (roundUp hi 32)) else (lo, hi)

/-- Places `lo` to `hi` of the `k`-th fibre of an operand by spans (Table 7.3); `at'` gives the element at a place. -/
def vecSlices (ext k lo hi : Nat) (at' : Nat → Nat) : List Slice :=
  (List.range (ceilDiv ext 1024)).filterMap fun q =>
    let a := max lo (1024 * q)
    let e := min hi (1024 * (q + 1))
    if a < e then some ⟨k / 16 * ceilDiv ext 1024 + q, a, (List.range (e - a)).map fun j => at' (a + j)⟩ else none

/-- Needed elements of an operand as fibres along a dimension. -/
def fibresOf (x : Source) (dim : Nat) (need : List Nat) : List Fibre :=
  let ext := max 1 (x.small.getD dim 1)
  let st := max 1 (prod (x.small.drop (dim + 1)))
  let base (i : Nat) : Nat := i - i / st % ext * st
  (firstsOf (need.map base)).mapIdx fun k b =>
    let ps := (need.filter fun i => base i == b).map fun i => i / st % ext
    let w := x.wholeBlocks ext (ps.foldl min ext) (ps.foldl max 0 + 1)
    ⟨vecSlices ext k w.1 w.2 fun j => b + j * st, 0, 0, false⟩

/-- Rows of an operand, each with the index entry that names it, in the columns `lo` to `lo + w`, as fibres. -/
def namedRows (x : Source) (lo w : Nat) (rows : List (Nat × Nat)) : List Fibre :=
  let n := lastExt x.small
  let q := x.wholeBlocks n lo (lo + w)
  rows.mapIdx fun k r => ⟨vecSlices n k q.1 q.2 fun j => r.1 * n + j, r.2, 0, false⟩

/-- The read walks of a tile of a vector record in FWD: the elements that its outputs come from; those of SCATTER_ADD and SEGMENT_REDUCE
follow their indices (R60, R61, R195, R201). `head` is the tile's header, `rows` the rows of the output. -/
def Ctx.vectorWalks (c : Ctx) (o : OpRec) (tile rows : Nat) (head : (Nat × Nat) × (Nat × Nat)) : List Walk :=
  let rs := (List.range head.2.1).map (head.1.1 + ·)
  let (lo, w) := (head.1.2, head.2.2)
  match o.opcode, o.ins.filterMap c.p.desc, o.outs.head?.bind c.p.desc with
  | 0x0003, x :: i :: rest, _ =>
    let idx := (c.tensor i).codes
    let all := List.range idx.length
    let hit := all.filter fun m => rs.contains (idx.getD m 0)
    let nulls : List Fibre := if tile = 0 then (all.filter fun m => decide (rows ≤ idx.getD m 0)).map fun m => ⟨[], m, 0, true⟩ else []
    let plain := (rs.filter fun r => !idx.contains r).map fun r => (r, idx.length - 1)
    ⟨1, x.id, c.source x, c.view x, namedRows (c.source x) lo w (hit.map fun m => (m, m)) ++ nulls, c.ixAddrs i all, [], false, none⟩
      :: rest.map fun z => ⟨1, z.id, c.source z, c.view z,
        namedRows (c.source z) lo w ((hit.map fun m => (idx.getD m 0, m)) ++ plain), c.ixAddrs i all, [], false, none⟩
  | 0x0004, [x, f], _ =>
    let off := (c.tensor f).codes
    let t := prod (c.shape x) / lastExt (c.shape x)
    let b := orderBreach rows off t
    let fs := namedRows (c.source x) lo w (rs.flatMap fun s => (segmentRows off (List.range t) s).map fun r => (r, s + 1))
    [⟨3, x.id, c.source x, c.view x, fs.filter fun f => match b with | some p => decide (f.entry < p) | none => true,
      c.ixAddrs f (firstsOf (rs.flatMap fun s => [s, s + 1])), [], false, b.map fun p => (false, p)⟩]
  | _, ins, some y =>
    let n := lastExt (c.shape y)
    let outs := rs.flatMap fun r => (List.range w).map fun j => r * n + lo + j
    ins.mapIdx fun k x =>
      let s := c.source x
      let need := (outs.mapM (c.needs o x y k)).map List.flatten
      Walk.dense x.id s (c.view x) (fibresOf s (c.walkDim x) (match need with
        | some l => firstsOf l
        | none => if tile = 0 then List.range (prod s.small) else []))
  | _, _, none => []

/-- The read walks of a tile of a vector record in BWD (Table 8.2): its output gradient and the inputs that it keeps, at the elements of
the tile where every gradient has the shape of the output, else whole with the first tile. -/
def Ctx.vectorBack (c : Ctx) (o : OpRec) (tile : Nat) (head : (Nat × Nat) × (Nat × Nat)) : List Walk :=
  match (o.outs[o.gradOut]?).bind c.p.desc with
  | none => []
  | some y =>
    let n := lastExt (c.shape y)
    let outs := ((List.range head.2.1).map (head.1.1 + ·)).flatMap fun r => (List.range head.2.2).map fun j => r * n + head.1.2 + j
    let ins := o.ins.filterMap c.p.desc
    let whole := (ins.filter fun d => c.p.wantsGrad d.id).any fun d => c.shape d != c.shape y
    let kept := match o.opcode with
      | 0x000A | 0x000B | 0x000C => []
      | 0x0003 => ins.drop 1 |>.take 1
      | 0x0004 => if fieldLe o.param 0 1 = 1 then ins else ins.drop 1
      | _ => ins
    let all (d : Desc) : List Nat := if tile = 0 then List.range (prod (c.shape d)) else []
    let pick (d : Desc) (k : Nat) : List Nat := if whole then all d else
      match (outs.mapM (c.needs o d y k)).map List.flatten with | some l => firstsOf l | none => all d
    let g := c.gradSource y
    let dy := Walk.dense y.id g (fp32Tensor (c.shape y) (c.dyOf o o.gradOut)).view (fibresOf g ((c.shape y).length - 1)
      (match ins with | x :: _ => if c.shape x = c.shape y then pick x 0 else all y | [] => []))
    (if c.p.wantsGrad y.id then [dy] else []) ++ kept.map fun d =>
      let s := c.source d
      Walk.dense d.id s (c.view d) (fibresOf s (c.walkDim d) (pick d (o.ins.idxOf d.id)))

/-! ### What an item writes -/

/-- The output tiles that an item writes, if it holds its tile (R31): the part of each output in its rows and
columns; an output of other rows with the first tile. -/
def Ctx.writeWalks (c : Ctx) (o : OpRec) (it : Item) (tp : TilePlan) (t : Option TileOps) : List Walk :=
  let outs : List (Desc × Source) := if it.phase = 0 then (o.writes.filterMap c.p.desc).map fun d => (d, c.source d)
    else ((o.ins.filterMap c.p.desc).filter fun d => c.wants it.phase d).map fun d => (d, c.gradSource d)
  let place (q : Desc × Source) : List Nat := match t with
    | some t =>
      let mine : Bool := it.phase == 0 || o.ins.idxOf q.1.id == (if tp.form.kind = 1 then 0 else o.nIn - 1)
      if mine then t.rows.flatMap fun r => t.cols.filterMap fun k => t.out r k else []
    | none =>
      let sh := q.2.small
      let n := lastExt sh
      if prod sh / n = tp.form.rows ∧ n = tp.form.cols then
        (List.range tp.head.2.1).flatMap fun i => (List.range tp.head.2.2).map fun j => (tp.head.1.1 + i) * n + tp.head.1.2 + j
      else if it.tile = 0 then List.range (prod sh) else []
  if !it.holds ∨ tp.form.kind = 3 then [] else (outs.filter fun q => !(place q).isEmpty).map fun q =>
    { Walk.dense q.1.id q.2 (fp32Tensor [] []).view [⟨[⟨0, 0, place q⟩], 0, 0, false⟩] with kind := 5 }

/-- Every walk of a work item (R184). -/
def Ctx.walks (c : Ctx) (o : OpRec) (it : Item) : List Walk :=
  let tp := c.tilePlan o it.record it.phase it.tile
  let t := c.tileOps o it.record it.phase it.tile
  let rs := (List.range tp.head.2.1).map (tp.head.1.1 + ·)
  let reads := match t with
    | some t => c.productWalks o tp.form.kind t it.lo it.hi
    | none =>
      if tp.form.kind = 3 then []
      else if o.opcode = 5 ∨ o.opcode = 6 then c.attendWalks o it.record it.phase rs it.lo it.hi
      else if it.phase = 0 then c.vectorWalks o it.tile tp.form.rows tp.head
      else c.vectorBack o it.tile tp.head
  reads ++ c.writeWalks o it tp t

/-! ### Requests -/

/-- A unit of 64 bytes that a walk touches: with the index entry and first-level entry it needs, and its block number. -/
structure Touch where
  unit : Nat
  entry : Nat
  need : Nat
  block : Nat

/-- The first touch of every unit, in order. -/
def firstTouches (l : List Touch) : List Touch :=
  (l.foldl (fun (a : List Touch) t => if a.any fun x => x.unit == t.unit then a else t :: a) []).reverse

/-- Units in order as requests: consecutive ones join up to 512 bytes within one granule (Table 7.3). `index`: an index sub-stream, whose
request is known by its least entry, else by the greatest. -/
def packReqs (sub : Nat) (index : Bool) (l : List Touch) : List Req :=
  ((firstTouches l).foldl (fun (a : List Req) t =>
    let fresh : Req := ⟨sub, 64 * t.unit, 64, [], t.block, t.entry, t.entry, t.need⟩
    match a with
    | r :: rest =>
      if r.addr + r.len = 64 * t.unit ∧ r.len < 512 ∧ t.unit % 32 ≠ 0 then
        { r with
          len := r.len + 64, entry := if index then min r.entry t.entry else max r.entry t.entry
          last := max r.last t.entry, need := max r.need t.need } :: rest
      else fresh :: a
    | [] => [fresh]) []).reverse

/-- The touches of a walk over spans `lo` to `hi`, span by span and fibre by fibre (Table 7.2). -/
def Walk.touches (x : Walk) (lo hi : Nat) (addr : Nat → Nat × Nat) : List Touch :=
  (List.range (hi - lo)).flatMap fun k => x.fibres.flatMap fun f => (f.slices.filter fun s => s.span == lo + k).flatMap fun s =>
    (s.ix.mapIdx fun n i => let e := addr i; (unitsOf e.1 e.2).map fun u => (⟨u, f.entry, f.need, s.block n⟩ : Touch)).flatten

/-- The maximal runs of bytes of a fibre's elements. -/
def runsOf (l : List (Nat × Nat)) : List (Nat × Nat) :=
  (l.foldl (fun (a : List (Nat × Nat)) e => match a with
    | (p, n) :: r => if p ≤ e.1 ∧ e.1 ≤ p + n then (p, max n (e.1 + e.2 - p)) :: r else e :: a
    | [] => [e]) []).reverse

/-- A run cut at multiples of `g`. -/
def cutAt (g : Nat) : Nat → Nat → Nat → List (Nat × Nat)
  | 0, _, _ => []
  | n + 1, a, l => if l = 0 then [] else let k := min l (g - a % g); (a, k) :: cutAt g n (a + k) (l - k)

/-- One piece of a named row: address, bytes, entry, first-level entry, block (R198). -/
structure Piece where
  addr : Nat
  len : Nat
  entry : Nat
  need : Nat
  block : Nat

/-- The pieces of a walk's row: one for each granule that the row touches (R198). -/
def Walk.pieces (x : Walk) (f : Fibre) : List Piece :=
  let es := f.slices.flatMap fun s => s.ix.mapIdx fun n i => (x.src.extent i, s.block n)
  (runsOf (es.map Prod.fst)).flatMap fun r => (cutAt 2048 (r.2 / 2048 + 2) r.1 r.2).map fun q =>
    ⟨q.1, q.2, f.entry, f.need, match es.find? fun e => decide (e.1.1 ≤ q.1) && decide (q.1 < e.1.1 + e.1.2) with | some e => e.2 | none => 0⟩

/-- Direct requests for pieces: those that lie back to back in one granule join; each covers its bytes in multiples of 32, at least 64 and
at most 512 (Table 7.3, R198). -/
def directReqs (ps : List Piece) : List Req :=
  let sorted := ((ps.map fun q => (q.addr, q)).insertionSort fun a b => a.1 ≤ b.1).map Prod.snd
  let runs : List Piece := (sorted.foldl (fun (a : List Piece) q => match a with
    | p :: r => if p.addr + p.len = q.addr ∧ p.addr / 2048 = q.addr / 2048 then
        { p with len := p.len + q.len, entry := max p.entry q.entry, need := max p.need q.need } :: r else q :: a
    | [] => [q]) []).reverse
  runs.flatMap fun p =>
    let lo := p.addr / 32 * 32
    (cutAt 512 6 lo (roundUp (p.addr + p.len) 32 - lo)).map fun q =>
      let a := if q.2 < 64 ∧ q.1 % 2048 = 1984 + 32 then q.1 - 32 else q.1
      ⟨0, a, max 64 q.2, [], p.block, p.entry, p.entry, p.need⟩

/-- Lists of at most `n`. -/
def cutList {α : Type} (n : Nat) : Nat → List α → List (List α)
  | 0, _ => []
  | k + 1, l => if l.isEmpty then [] else l.take n :: cutList n k (l.drop n)

/-- The requests of one window of 64 entries (R198): a stack with four pieces or more, none above 512 bytes, is asked by far-end requests of at most 64
pieces, the others directly. -/
def Mem.windowReqs (m : Mem) (ps : List Piece) : List Req :=
  let stackOf (q : Piece) : Nat := (m.place q.addr).stack
  (firstsOf (ps.map stackOf)).flatMap fun k =>
    let g := ps.filter fun q => stackOf q == k
    if 4 ≤ g.length ∧ g.all (fun q => decide (q.len ≤ 512)) = true then
      (cutList 64 (g.length / 64 + 1) g).map fun l => ⟨0, 0, 0, l.map fun q => (q.addr, q.len), (l.headD ⟨0, 0, 0, 0, 0⟩).block,
        l.foldl (fun a q => max a q.entry) 0, l.foldl (fun a q => max a q.entry) 0, l.foldl (fun a q => max a q.need) 0⟩
    else directReqs g

/-- The DATA requests of a walk: windows of 64 consecutive entries for an index-driven kind (R198), else units in the order of the walk;
writes are cut as direct requests (Table 7.3). -/
def Walk.dataReqs (x : Walk) (m : Mem) (lo hi : Nat) : List Req :=
  match x.kind with
  | 0 => packReqs 0 false (x.touches lo hi x.src.extent)
  | 5 => directReqs (x.fibres.flatMap x.pieces)
  | _ =>
    let live := x.fibres.filter fun f => !f.null
    (firstsOf (live.map fun f => f.entry / 64)).flatMap fun w => m.windowReqs ((live.filter fun f => f.entry / 64 == w).flatMap x.pieces)

/-- Every request of a stream: its index levels, its data, scales, outlier slots and group sums (Table 7.1). Index entries behind one that
breaks an order condition are not asked for (R196). -/
def Walk.reqs (x : Walk) (m : Mem) (lo hi : Nat) : List Req :=
  let upto (second : Bool) (e : Nat) : Bool := match x.breach with | some (b, p) => b != second || decide (e ≤ p) | none => true
  let ix1 := packReqs 4 true ((x.ix1.filter fun e => upto false e.1).map fun e => ⟨e.2 / 64, e.1, 0, 0⟩)
  let ix2 := packReqs 5 true ((x.ix2.filter fun e => upto true e.1).map fun e => ⟨e.2.1 / 64, e.1, e.2.2, 0⟩)
  let side (k : Nat) (on : Bool) (addr : Nat → Nat × Nat) : List Req := if on then packReqs k false (x.touches lo hi addr) else []
  ix1 ++ ix2 ++ x.dataReqs m lo hi
    ++ (if x.kind = 5 then [] else side 1 x.src.fmt.b32 x.src.scaleAddr
      ++ side 2 (x.src.fmt.b32 && decide (0 < x.src.d.budget)) x.src.slotAddr ++ side 3 x.sums x.src.sumAddr)

/-! ### Bursts -/

/-- Blocks in a full burst (R150). -/
def Fmt.burstBlocks (f : Fmt) : Nat := 128 / (4 * f.elem.bits)

/-- `l` padded with zero bytes to `n`. -/
def padTo (n : Nat) (l : List Byte) : List Byte := l ++ List.replicate (n - l.length) 0

/-- The 164 bytes of a scaled burst of some blocks (Tables 5.6 and 5.7). -/
def burstBytes (v : View) (seq : Nat) (blocks : List (List Nat)) : List Byte :=
  let f := v.t.fmt
  let data := blocks.flatMap fun b => padTo (4 * f.elem.bits) (packCodes f.elem (b.map v.code))
  let scales := if f.b32 then blocks.map fun b => BitVec.ofNat 8 (v.scaleCode (b.headD 0)) else []
  let ctrl := f.code + blocks.length * 2 ^ 8 + seq % 64 * 2 ^ 14
  let body := padTo 128 data ++ padTo 32 scales ++ toLe 3 ctrl
  body ++ [BitVec.ofNat 8 (crc8 body)]

/-- The bursts of a fibre's slice, none crossing its span; SEQ is the number of the first block along the fibre (R150, R202). -/
def Walk.sliceBursts (x : Walk) (fi : Nat) (s : Slice) : List Burst :=
  let f := x.src.fmt
  let subs : List (Nat × (Nat → Nat × Nat)) := [(0, x.src.extent)] ++ (if f.b32 then [(1, x.src.scaleAddr)] else [])
    ++ (if f.b32 && decide (0 < x.src.d.budget) then [(2, x.src.slotAddr)] else []) ++ (if x.sums then [(3, x.src.sumAddr)] else [])
  let needs (ix : List Nat) : List (Nat × Nat) :=
    firstsOf (subs.flatMap fun q => ix.flatMap fun i => let e := q.2 i; (unitsOf e.1 e.2).map fun u => (q.1, u))
  if s.ix.isEmpty then []
  else if f.framed then
    (cutList f.burstBlocks (s.ix.length + 1) (blocksFrom (s.ix.length + 1) s.first s.ix)).mapIdx fun k bs =>
      let seq := (s.first / 32 + k * f.burstBlocks) % 64
      ⟨fi, s.span, seq, bs.length, burstBytes x.view seq bs, needs bs.flatten⟩
  else [⟨fi, s.span, s.first / 32 % 64, ceilDiv s.ix.length 32, [], needs s.ix⟩]

/-- The bursts of a walk, span by span and fibre by fibre; a row of zeros, which carries its
index entry in place of SEQ, is handed over once its index has landed (R196). -/
def Walk.bursts (x : Walk) (lo hi : Nat) : List Burst :=
  if x.kind = 5 then []
  else
    let fs := x.fibres.mapIdx fun k f => (k, f)
    let nulls : List Burst := (fs.filter fun q => q.2.null).map fun q => ⟨q.1, lo, q.2.entry, 0, [],
      (x.ix1.filter fun e => e.1 == q.2.entry).map fun e => (4, e.2 / 64)⟩
    let data := (List.range (hi - lo)).map fun k => fs.flatMap fun q =>
      if q.2.null then [] else (q.2.slices.filter fun s => s.span == lo + k).flatMap (x.sliceBursts q.1)
    match data with
    | [] => nulls
    | d :: ds => nulls ++ d ++ ds.flatten

/-- The span slice in bytes: the largest over the spans (Table 7.3). -/
def Walk.slice (x : Walk) (lo hi : Nat) : Nat :=
  ((List.range (hi - lo)).map fun k => (x.fibres.map fun f => ((f.slices.filter fun s => s.span == lo + k).map fun s =>
    ceilDiv (s.ix.length * x.src.fmt.elem.bits) 8).foldl (· + ·) 0).foldl (· + ·) 0).foldl max 0

/-- The run-ahead distance for a span slice: what the landing buffer leaves, in steps of 4 KiB (Table 7.3; log 12). A slice has at most
124 KiB, since a tile and its spans are cut so (log 9). -/
def distFor (slice : Nat) : Nat := max 4096 (min 65536 ((131072 - slice) / 4096 * 4096))

/-- A stream as Jasper opens it for item number `n` (R185, R186). -/
def Walk.stream (x : Walk) (m : Mem) (num n : Nat) (it : Item) : Stream :=
  let hi := max it.hi (it.lo + 1)
  ⟨num, x.kind, x.desc, n, x.reqs m it.lo hi, [], [], x.bursts it.lo hi, [], distFor (x.slice it.lo hi), x.slice it.lo hi,
    x.breach.map Prod.snd, false⟩

/-- The streams of an item that becomes started. -/
def Tower.openFor (t : Tower) (m : Mem) (n : Nat) (it : Item) (ws : List Walk) : Tower :=
  ws.foldl (fun t w => { t with streams := t.streams ++ [w.stream m t.freeNum n it] }) t

/-! ### Spans -/

/-- What one span of an item is to the arrays: the anchors, the sums of its outputs, and the products and vector operations that it
takes. -/
structure SpanRun where
  fwd : Bool
  anchors : List (Option Int)
  vals : List SpanVal
  cells : Nat
  vec : Nat

/-- The state of a query row before chunk `ch` of a shard (R124). -/
def AttPlan.before (a : AttPlan) (r ch : Nat) : Att :=
  match (a.rowChunks (r / a.job.h) (r % a.job.h)).find? fun s => s.any fun q => q.1 == ch with
  | some s => (s.filter fun q => decide (q.1 < ch) && !q.2.isEmpty).foldl (fun x q => a.job.chunk r (a.len (r / a.job.h)) x q.1 q.2) a.job.start
  | none => a.job.start

/-- The operands of an attention row's backward pass: dO in the G format, its other copy, V, K and Q as they enter it, and the edges of one
chunk (Table 8.2). -/
def Ctx.attBack (c : Ctx) (o : OpRec) (k : Nat) (a : AttPlan) (kd v : Desc) (r ch : Nat) (keys : List Nat) : List Edge × View :=
  let j := a.job
  let dy := c.dy o
  let g := (c.dyCopy o.layer a.out.id [a.tq, j.h, j.dh] 2 false dy).1
  let own (d : Desc) (w : View) : View := if d.role = 1 then c.masterView d else w
  let out := (c.tensor a.out).words
  let lse := match c.st.lse.find? fun q => q.record == k && q.mb == c.mb with | some q => q.words.getD r 0 | none => 0
  let ds := laneSum ((List.range j.dh).map fun d => f32mul (dy.getD (r * j.dh + d) 0) (out.getD (r * j.dh + d) 0))
  (j.edges g (own v j.v) r lse ds [(ch, keys)], own kd j.k)

/-- Span `j` of an attention row: its scores, and with the last span of a chunk what the chunk forms (R35, R62, R63, R124, Table 8.2). Jasper
delivers ρ of the row and γ of its keys, and of the columns of V, or of K in BWD, once the chunk's keys have landed (R200). -/
def Ctx.attendSpan (c : Ctx) (o : OpRec) (it : Item) (r sp : Nat) : SpanRun :=
  match c.attend o 0, o.ins.filterMap c.p.desc with
  | some a, q :: kd :: v :: _ =>
    let j := a.job
    let n := attSpans j.dh
    let ch := sp / n
    let keys := ((a.rowChunks (r / j.h) (r % j.h)).flatten.filter fun x => x.1 == ch).flatMap Prod.snd
    let part := sp % n % attParts j.dh
    let mine := (keys.drop (sp % n / attParts j.dh * attKeys j.dh)).take (attKeys j.dh)
    let els := (partSlices j.dh 0 0).getD part ⟨0, 0, []⟩
    let last := sp % n + 1 == n && !keys.isEmpty
    let side (w : View) (row : Nat) : Option Int := sideAnchor w.t.fmt.elem (els.ix.map fun d => (w.el (row * j.dh + d)).val)
    let cols (w : View) : List (Option Int) := (List.range j.dh).map fun d => sideAnchor w.t.fmt.elem (keys.map fun k => (w.el (k * j.dh + d)).val)
    let outl := mine.map fun k => ownAnchor (outlierProds (els.ix.map fun d => (j.q.el (r * j.dh + d), j.k.el (k * j.dh + d))))
    let work := mine.length * els.ix.length
    let score := passesOf j.q.t.fmt.elem j.k.t.fmt.elem
    let vec := if last then keys.length else 0
    if it.phase = 0 then
      let at' := a.before r ch
      ⟨false, side j.q r :: mine.map (side j.k) ++ outl ++ (if last then cols j.v else []),
        if last then j.chunkSums r at' keys else [], work * (score + 1), vec⟩
    else
      let g := (c.gFmt o.layer).elem
      let wants (d : Desc) (p : Nat) : Nat := if c.p.wantsGrad d.id then p else 0
      let bf (d : Desc) (w : View) : Elem := if d.role = 1 then .bf16 else w.t.fmt.elem
      let sums : List SpanVal := if last && c.p.wantsGrad q.id then
          let (es, bk) := c.attBack o it.record a kd v r ch keys
          (List.range j.dh).map fun d => spanValue ⟨[], none, 0, ⟨.fp32, false⟩⟩ ⟨[], none, 0, bk.t.fmt⟩
            (es.map fun e => El.plain (f32 e.ds)) (es.map fun e => bk.bel (e.key * j.dh + d))
        else []
      ⟨false, side j.q r :: mine.map (side j.k) ++ mine.map (side j.v) ++ outl ++ (if last then cols j.k else []), sums,
        work * (score + passesOf g (bf v j.v) + wants v (passesOf .bf16 g) + wants q (passesOf .fp32 (bf kd j.k))
          + wants kd (passesOf .fp32 (bf q j.q))), vec⟩
  | _, _ => ⟨false, [], [], 0, 0⟩

/-- Span `j` of a work item: on its array for a product, on the backward array and the vector engine for attention, on the vector engine
for the rest, which takes its tile once with the first span (R15, R35, R53, R124). -/
def Ctx.spanRun (c : Ctx) (o : OpRec) (it : Item) (rows cols fuse j : Nat) : SpanRun :=
  match c.tileOps o it.record it.phase it.tile with
  | some t =>
    let n := t.products j
    ⟨t.fwd, t.anchors j, t.values j, if t.fwd then n * fuse else n * passesOf t.va.t.fmt.elem t.vb.t.fmt.elem, 0⟩
  | none =>
    if o.opcode = 5 ∨ o.opcode = 6 then c.attendSpan o it (c.tilePlan o it.record it.phase it.tile).head.1.1 j
    else ⟨false, [], [], 0, if j = it.lo then rows * cols else 0⟩

/-- A set of accumulators of a spire's array begins to fill. The other one has gone to the fold, whose own set before it is free (R15). -/
def fillSet (l : List SpanSet) (x : SpanSet) : List SpanSet :=
  (l.filterMap fun q => if q.spire ≠ x.spire then some q else if q.folding then none else some { q with folding := true }) ++ [x]

/-- The step number behind a stream's requests, for ECC_UE. -/
def State.streamStep (s : State) (t : Nat) (x : Stream) : Quad :=
  match (s.tower t).itemOf x with
  | some i => BitVec.ofNat 64 i.step
  | none => noStep

/-- Has Jasper delivered the operands of the span that an item starts next? -/
def Tower.spanReady (t : Tower) (w : Started) : Bool :=
  decide (w.span < w.item.hi) && (t.streams.filter fun x => x.item == w.num && x.kind != 5).all fun x =>
    !x.halted && x.bursts.all fun b => decide (w.span < b.span)

/-! ### The fold of a tile (R31) -/

/-- The results that come next enter the fold, in increasing order of their spans; `n` bounds them. -/
def TileFold.take (step : Nat → List Word → List XV → List Word) : Nat → TileFold → TileFold
  | 0, f => f
  | n + 1, f => match f.waiting.find? fun r => r.span == f.next with
    | none => f
    | some r => TileFold.take step n { f with
        next := f.next + 1, waiting := f.waiting.filter fun q => q.span != f.next
        acc := step f.next f.acc r.vals, shed := f.shed + r.shed }

/-- What a fold takes: nothing until the tower that holds the lowest span is known. -/
def TileFold.settle (step : Nat → List Word → List XV → List Word) (f : TileFold) : TileFold :=
  if f.owner.isSome then f.take step f.waiting.length else f

/-- `n` values of a tile go from one tower to another through their rings, 256 at a time (R18, R31). -/
def State.sendValues (s : State) (u v n : Nat) : State :=
  if u = v then s
  else (List.range (ceilDiv n 256)).foldl (fun s k =>
    let x : MeshTx := ⟨true, .tower u, .tower v, none, List.replicate (8 * min 256 (n - 256 * k)) 0, 0⟩
    let s1 := s.modTower u fun t => t.meshReads.send true (.tower v) x.data.length
    ((s1.passRouters x).modTower v fun t => t.pass v x).modTower u fun t => t.leave true (.tower v)) s

/-- The fold of an item's tile as it stands in its step. -/
def Ctx.foldOf (c : Ctx) (o : OpRec) (it : Item) : TileFold :=
  match (c.st.recProg it.record it.mb it.phase).bind fun q => q.folds.find? fun f => f.tile == it.tile with
  | some f => f
  | none =>
    let tp := c.tilePlan o it.record it.phase it.tile
    ⟨it.tile, tp.form.kind, tp.head.1.1, tp.head.1.2, tp.head.2.1, tp.head.2.2, tp.form.spans, none, 0, [],
      if o.opcode = 1 ∨ o.opcode = 2 then List.replicate (tp.head.2.1 * tp.head.2.2) 0 else [], 0⟩

/-- A fold stands in its record; a tile that has taken its last span is complete, and the item that holds it may write it. -/
def State.putFold (s : State) (i : Nat) (it : Item) (f : TileFold) : State :=
  let s1 := s.modStep i fun p => p.modRec it.record it.mb it.phase fun q => { q with folds := (q.folds.filter fun g => g.tile != f.tile) ++ [f] }
  if f.next < f.spans then s1
  else
    let mine (w : Started) : Bool := w.item.step == it.step && w.item.slot == it.slot && w.item.record == it.record && w.item.mb == it.mb
      && w.item.phase == it.phase && w.item.tile == it.tile && w.item.holds
    match (List.range 324).find? fun v => (s1.tower v).started.any mine with
    | none => s1
    | some v => (s1.modTower v fun t => { t with
        started := t.started.map fun (w : Started) => if mine w then { w with formed := true } else w }).issueAll v

/-- The context of an item, with its record. -/
def State.itemCtx (s : State) (it : Item) : Option (Nat × Ctx × OpRec) :=
  match s.stepOf it with
  | none => none
  | some i => match s.run i with
    | none => none
    | some r => (r.p.ops[it.record]?).map fun o => (i, s.ctxOf r (opOfRec o it.mb it.phase), o)

/-- How the values of a span enter the fold of an item's tile: of a product as R116 folds them; the tile of another record has its state in
the spire that runs it. -/
def Ctx.foldStep (c : Ctx) (o : OpRec) (it : Item) : Nat → List Word → List XV → List Word :=
  match c.tileOps o it.record it.phase it.tile with
  | some t => t.fold
  | none => fun _ acc _ => acc

/-- A span result of an item is handed to the fold of its tile: it goes to the tower that holds the lowest span, and waits there for every
earlier one (R15, R31). -/
def State.foldResult (s : State) (it : Item) (x : SpanResult) : State :=
  match s.itemCtx it with
  | none => s
  | some (i, c, o) =>
    let f := c.foldOf o it
    let s1 := match f.owner with | some v => s.sendValues x.tower v x.vals.length | none => s
    s1.putFold i it ({ f with waiting := f.waiting ++ [x] }.settle (c.foldStep o it))

/-- The tower that starts the item with the lowest span holds the fold; results formed before come to it (R31). -/
def State.claimFold (s : State) (t : Nat) (it : Item) : State :=
  if it.lo ≠ 0 then s
  else
    match s.itemCtx it with
    | none => s
    | some (i, c, o) =>
      let f := c.foldOf o it
      (f.waiting.foldl (fun s r => s.sendValues r.tower t r.vals.length) s).putFold i it
        ({ f with owner := some t }.settle (c.foldStep o it))

/-- The set of accumulators that an item has filled goes to the fold (R15). -/
def State.handOver (s : State) (t num : Nat) : State :=
  let x := s.tower t
  match x.started.find? fun w => w.num == num, (x.fwdSets ++ x.bwdSets).find? fun q => q.item == num && !q.folding with
  | some w, some q =>
    let mark (l : List SpanSet) : List SpanSet := l.map fun y => if y.item = num then { y with folding := true } else y
    (s.modTower t fun y => { y with fwdSets := mark y.fwdSets, bwdSets := mark y.bwdSets }).foldResult w.item ⟨q.span, t, q.sums, q.shed⟩
  | _, _ => s

/-- Span `w.span` of a started item runs: its set fills, the one before is handed to the fold, and with the item's last span this one
too (R14, R15, R200). -/
def State.runSpan (s : State) (t : Nat) (w : Started) (q : SpanRun) : State :=
  let s1 := s.handOver t w.num
  let set : SpanSet := ⟨w.spire, w.num, w.span, q.anchors, q.vals.map SpanVal.v, (q.vals.map SpanVal.shed).foldl (· + ·) 0, false⟩
  let fill (on : Bool) (l : List SpanSet) : List SpanSet := if on && !q.vals.isEmpty then fillSet l set else l
  let s2 := s1.modTower t fun (y : Tower) => { y with
    started := y.started.map fun z => if z.num = w.num then { z with span := z.span + 1, anchors := some q.anchors } else z
    fwdSets := fill q.fwd y.fwdSets
    bwdSets := fill (!q.fwd) y.bwdSets
    fwdWork := if q.fwd then y.fwdWork + q.cells else y.fwdWork
    bwdWork := if q.fwd then y.bwdWork else y.bwdWork + q.cells
    vecWork := y.vecWork + q.vec }
  if q.vals.isEmpty then s2.foldResult w.item ⟨w.span, t, [], 0⟩
  else if w.span + 1 = w.item.hi then s2.handOver t w.num else s2

/-- The spans of a started item that have become ready run, with the anchors that Jasper delivers (R200). -/
def State.runSpans (t num : Nat) : Nat → State → State
  | 0, s => s
  | n + 1, s =>
    match (s.tower t).started.find? fun w => w.num == num with
    | none => s
    | some w =>
      if !(s.tower t).spanReady w then s
      else match s.itemCtx w.item with
        | none => s
        | some (_, c, o) => State.runSpans t num n (s.runSpan t w (c.spanRun o w.item w.rows w.cols w.fuse w.span))

/-! ### Starting an item -/

/-- Cells that fuse to a multiplier for an item: by the weight format of its layer operation on the forward array, else none (R16). -/
def Ctx.fuse (c : Ctx) (o : OpRec) (phase : Nat) : Nat :=
  match c.prodRows o with
  | some (a, b, _, _, _) => if phase = 0 && onForward (c.source a).fmt.elem then fuseOf (c.source b).fmt else 0
  | none => 0

/-- The spire of a new item: the least that runs none (log 9). -/
def Tower.freeSpire (t : Tower) : Nat := ((List.range 32).find? fun k => !t.started.any fun w => w.spire == k).getD 0

/-- WORK_ITEM_START (R27, R186): the item becomes started and its streams open; no start while they would pass 16 in the tower. -/
def State.startItem (s : State) (t : Nat) : State :=
  let x := s.tower t
  match s.pick x with
  | none => s
  | some k =>
    match x.queue[k]? with
    | none => s
    | some it =>
      match s.stepOf it with
      | none => s
      | some i =>
        match s.run i with
        | none => s
        | some r =>
          match r.p.ops[it.record]? with
          | none => s
          | some o =>
            let s1 := s.beginOp i o it.mb it.phase
            match s1.run i with
            | none => s1
            | some r1 =>
              let c := s1.ctxOf r1 (opOfRec o it.mb it.phase)
              let ws := c.walks o it
              if x.streams.length + ws.length > 16 then s
              else
                let size := (c.tilePlan o it.record it.phase it.tile).head.2
                let s2 := (s1.modTower t fun (y : Tower) => ({ y with
                  queue := y.queue.eraseIdx k
                  started := y.started ++ [(⟨y.nextNum, it, y.freeSpire, false, size.1, size.2, c.fuse o it.phase, it.lo, none⟩ : Started)]
                  nextNum := y.nextNum + 1 }).openFor s1.mem y.nextNum it ws).claimFold t it
                (((State.runSpans t x.nextNum (it.hi - it.lo) s2).issueAll t)).drainBacklog i

/-- The started items of the tower before, and the one that has started since, meet the words of SRAM that they read (R299). -/
def State.workStart (s : State) (w : WorkStart) : State :=
  let n := (s.tower w.tower).nextNum
  let s1 := s.startItem w.tower
  match (s1.tower w.tower).started.find? fun z => z.num == n with
  | none => s1
  | some z => w.srams.foldl (fun s e => s.workWord w.tower (some z.item) e) s1

def execWorkItemStart (w : WorkStart) (s : State) : Out' := .next (s.whenOn fun s => s.workStart w)

/-! ### Events of a layer operation -/

/-- Notes of a layer operation. -/
def Step.opNotes (st : Step) (op : LayerOp) (code : Nat) : List Note :=
  st.notes.filter fun n => n.code == code && n.layer == op.layer && n.mb == op.mb && n.phase == op.phase

/-- Marks that an event which is written once for a layer and micro-batch has been written. -/
def Step.mark (st : Step) (op : LayerOp) (code role : Nat) : Step :=
  { st with notes := st.notes ++ [⟨0x8000 + code, op.layer, op.mb, op.phase, role, []⟩] }

def Step.marked (st : Step) (op : LayerOp) (code role : Nat) : Bool :=
  (st.opNotes op (0x8000 + code)).any fun n => n.desc == role

/-- The least note in an order. -/
def leastNote (le : Note → Note → Bool) (l : List Note) : Option Note :=
  l.foldl (fun a n => match a with | none => some n | some m => if le m n then some m else some n) none

/-- An event of a layer operation that is written once for a layer and micro-batch: its least note, after what was found (R59, R80,
R196). -/
def State.noteOnce (s : State) (i : Nat) (op : LayerOp) (code : Nat) (le : Note → Note → Bool) : State :=
  match s.steps[i]? with
  | none => s
  | some st =>
    if st.marked op code 0 then s
    else match leastNote le (st.opNotes op code) with
      | none => s
      | some n => (s.event st.src code [(2, op.layer), (1, op.mb), (4, n.desc), (8, n.pos.headD 0)]).modStep i fun p => p.mark op code 0

/-- INDEX_RANGE of a layer operation at its least position (R59, R196). -/
def State.noteRange (s : State) (i : Nat) (op : LayerOp) : State := s.noteOnce i op 0x0101 fun a b => keyLe a.pos b.pos

/-- A record breaks an order condition (R61, R62, R196): the layer stops, INDEX_RANGE of what the operation has met and INDEX_ORDER are written,
and the step fails with no retry, whatever skew the attempt has met (R204). -/
def State.orderStop (s : State) (i : Nat) (op : LayerOp) (desc pos : Nat) : State :=
  match s.steps[i]? with
  | none => s
  | some st => ((s.noteRange i op).event st.src 0x0102 [(2, op.layer), (1, op.mb), (4, desc), (8, pos)]).failStep i stBAD_PARAM

/-! ### Faults -/

/-- A skew (R151, R152): JSP_SKEW, the streams of the operation halt, SCALE_SKEW once an attempt, with the data number and the scale
number; where two numbers of one sub-stream, or SEQ, disagree, with the one that was due and the one that came. -/
def State.skew (s : State) (t num : Nat) (x : Stream) (data scale : Nat) : State :=
  let s0 := s.modTower t fun y =>
    let y := y.modStream num fun z => { z with halted := true }
    if y.jsp.freeze then y else { y with jsp := { y.jsp with skew := y.jsp.skew + 1 } }
  match (s.tower t).itemOf x with
  | none => s0
  | some it =>
    match s.opOf it, s.stepOf it with
    | some op, some i =>
      let (n, s1) := (s0.haltStreams t op it.slot).repeatOnce i op stSCALE_SKEW
      match n with
      | none => s1
      | some n => s1.event ⟨it.slot, BitVec.ofNat 64 it.step, t⟩ 0x0105
          [(2, op.layer), (1, op.mb), (2, t), (4, x.desc), (1, data), (1, scale), (1, n)]
    | _, _ => s0

/-- An uncorrectable read halts its stream, INDEX_RANGE of what the operation has met is written, and the step fails with no retry (R191, R196,
Table 11.3). -/
def State.jasperBusError (s : State) (t num : Nat) (x : Stream) : State :=
  let s0 := s.modTower t fun y => y.modStream num fun z => { z with halted := true }
  match (s.tower t).itemOf x with
  | none => s0
  | some it =>
    match s.opOf it, s.stepOf it with
    | some op, some i => (s0.noteRange i op).failStep i stBUS_ERROR
    | _, _ => s0

/-! ### Landing and packing -/

/-- Bytes landed, unless JSP_CTRL freezes the counters (R205). -/
def Tower.landed (t : Tower) (n : Nat) : Tower :=
  if t.jsp.freeze then t else { t with jsp := { t.jsp with rdBytes := t.jsp.rdBytes.add n } }

/-- A null or out-of-range index that Jasper has met (Table 7.8). -/
def Tower.nullMet (t : Tower) : Tower :=
  if t.jsp.freeze then t else { t with jsp := { t.jsp with nullIdx := t.jsp.nullIdx + 1 } }

/-- A burst as the spire receives it, with what has struck its bytes on the way. -/
def Burst.arrives (b : Burst) (flips : List (Nat × Byte)) : List Byte :=
  b.bytes.mapIdx fun k x => (flips.filter fun f => f.1 == k).foldl (fun a f => a ^^^ f.2) x

/-- SEQ of a burst's control word, and whether its CHECK is right (Table 5.7). -/
def burstSeq (l : List Byte) : Nat := fieldLe l 0xA0 4 / 2 ^ 14 % 64
def burstSound (l : List Byte) : Bool := crc8 (l.take 163) == fieldLe l 163 1

/-- The SEQ that the next burst of a fibre must have; the first of a fibre brings its own. -/
def Stream.nextSeq (x : Stream) (b : Burst) : Nat := match x.expect.find? fun e => e.1 == b.fibre with | some e => e.2 | none => b.seq

/-- The front burst has been consumed: what it needed alone leaves the landing buffer, and its fibre goes on (R150, R185). -/
def Stream.deliver (x : Stream) (b : Burst) : Stream :=
  ({ x with
    bursts := x.bursts.drop 1
    expect := (x.expect.filter fun (e : Nat × Nat) => e.1 != b.fibre) ++ [(b.fibre, (b.seq + b.blocks) % 64)] } : Stream).consume

/-- A null or out-of-range index of a forward record that Jasper has met stands in the notes of its operation: INDEX_RANGE is written when the
operation completes or stops (R59, R60, R196). -/
def State.nullNote (s : State) (t : Nat) (x : Stream) (entry : Nat) : State :=
  match ((s.tower t).itemOf x).bind fun it => (s.itemCtx it).map fun q => (it, q) with
  | none => s
  | some (it, i, c, o) =>
    match o.ins.filterMap c.p.desc with
    | _ :: d :: _ =>
      if it.phase ≠ 0 ∨ (c.tensor d).codes.getD entry 0 = nullIx then s
      else s.modStep i fun p => { p with notes := p.notes ++ rangeNote o.layer c.mb d.id (some entry) }
    | _ => s

/-- Bursts whose contents have landed are packed in order and checked by the spire (R151, R189, R202); `flips` strike the first of
them. -/
def State.packStream (t num : Nat) : Nat → List (Nat × Byte) → State → State
  | 0, _, s => s
  | n + 1, flips, s =>
    match (s.tower t).stream num with
    | none => s
    | some x =>
      match x.bursts with
      | [] => s
      | b :: _ =>
        if x.halted || !b.needs.all x.landed.contains then s
        else
          let l := b.arrives flips
          if !b.bytes.isEmpty && (!burstSound l || burstSeq l != x.nextSeq b) then s.skew t num x (x.nextSeq b) (burstSeq l)
          else State.packStream t num n (if b.bytes.isEmpty then flips else [])
            (let s1 := s.modTower t fun y => y.modStream num fun z => z.deliver b
            if b.blocks = 0 then (s1.modTower t Tower.nullMet).nullNote t x b.seq else s1)

/-- Has every index that leads to a broken order condition landed (R196)? -/
def Stream.broken (x : Stream) : Option Nat :=
  x.breach.filter fun _ => !x.halted && (x.missing 4).isNone && (x.missing 5).isNone

/-- The descriptor that INDEX_ORDER names: of a record's breach (R61, R62). -/
def Ctx.breachDesc (c : Ctx) (o : OpRec) : Nat :=
  match o.opcode, o.ins.filterMap c.p.desc with
  | 0x0004, [_, f] => f.id
  | 0x0005, _ => match (c.attend o 0).bind AttPlan.breach with | some b => b.1 | none => noId
  | _, _ => noId

/-- A stream halts at the entry that breaks an order condition (R196). -/
def State.checkOrder (s : State) (t num : Nat) : State :=
  match ((s.tower t).stream num).bind fun x => x.broken.map fun p => (x, p) with
  | none => s
  | some (x, pos) =>
    match (s.tower t).itemOf x with
    | none => s
    | some it =>
      match s.opOf it, s.stepOf it with
      | some op, some i =>
        match s.run i with
        | none => s
        | some r =>
          let d := match r.p.ops[it.record]? with | some o => (s.ctxOf r op).breachDesc o | none => noId
          ((s.modTower t fun y => y.modStream num fun z => { z with halted := true }).haltStreams t op it.slot).orderStop i op d pos
      | _, _ => s

/-- The data of a request has landed: bursts are packed, spans run, and Jasper goes on (R188, R189). -/
def State.land (s : State) (t num slot bytes : Nat) (flips : List (Nat × Byte)) : State :=
  let s1 := s.modTower t fun y => (y.modStream num fun z => z.land slot).landed bytes
  match (s1.tower t).stream num with
  | none => s1
  | some x =>
    let s2 := State.packStream t num (x.bursts.length + 1) flips s1
    ((State.runSpans t x.item 1024 s2).checkOrder t num).issueAll t

/-! ### Responses -/

/-- An answer to a tower on the data plane, in transfers of at most 512 bytes, with the epoch that its request carried (R24, R427): it passes
the routers of its way, and is read out of the inbound ring in its turn before it acts (R18, R25). One with an epoch of before is
dropped, and one for a tower out of service discarded (Table 7.7). -/
def State.answered (s : State) (t : Nat) (src : Node) (epoch : Word) (data : List Byte) (f : State → State) : State :=
  let y := s.tower t
  let one (b : List Byte) : MeshTx := ⟨true, src, .tower t, some epoch, b, 0⟩
  let xs := match cutList 512 (data.length / 512 + 1) data with | [] => [one []] | l => l.map one
  if !s.routeUp src (.tower t) then s
  else
    let s1 := xs.foldl (fun s x => s.passRouters x) s
    if epoch ≠ y.epoch then s1.modTower t Tower.staleDrop
    else if !y.inService then s1
    else f (s1.modTower t fun z => xs.foldl (fun z x => z.pass t x) z)

/-- The request of a stream in a landing slot that carried an epoch. -/
def Tower.awaits (y : Tower) (num slot : Nat) (epoch : Word) : Option (Stream × OutReq) :=
  (y.stream num).bind fun x => (x.sent.find? fun q => q.slot == slot && q.epoch == epoch).map fun q => (x, q)

/-- What comes back for a read whose request names its block: a skew where the slot holds another number (R189), the numbers in the order data,
scale. -/
def State.landRead (s : State) (t : Nat) (x : Stream) (q : OutReq) (seq bytes : Nat) (flips : List (Nat × Byte)) : State :=
  let due := q.req.block % 64
  if x.halted then s
  else if seq ≠ due then (if q.req.sub = 0 then s.skew t x.num x seq due else s.skew t x.num x due seq)
  else s.land t x.num q.slot bytes flips

/-- JASPER_RESPONSE (R189, R191): a direct request returns into a landing slot, whose word may read as uncorrectable (Table 11.6). -/
def State.jasperResponse (s : State) (t : Nat) (r : Response) : State :=
  let y := s.tower t
  match y.awaits r.stream r.slot r.epoch with
  | none => if r.epoch = y.epoch then s else s.modTower t Tower.staleDrop
  | some (x, q) =>
    let port := q.req.port s.mem t
    if x.kind == 5 || !q.req.pieces.isEmpty || !s.routeUp (.tower t) port then s
    else
      match s.readDev rqJasper (s.streamStep t x) r.errs q.req.addr q.req.len with
      | (none, s1) => s1.answered t port r.epoch [] fun s => if x.halted then s else s.jasperBusError t r.stream x
      | (some bs, s1) => s1.answered t port r.epoch bs fun s =>
          let s := match r.sram with | some w => s.towerWord t rqJasper w.1 w.2 (y.itemOf x) | none => s
          match (s.tower t).stream r.stream with
          | some x => s.landRead t x q r.seq q.req.len r.flips
          | none => s

def execJasperResponse (t : Nat) (r : Response) (s : State) : Out' := .next (s.whenOn fun s => s.jasperResponse t r)

/-- The pieces read in list order and packed with no gap (R199); none when one is uncorrectable. -/
def State.readPieces (s : State) (step : Quad) (errs : List BeatErr) : List (Nat × Nat) → List Byte → Option (List Byte) × State
  | [], acc => (some acc, s)
  | q :: qs, acc =>
    match s.readDev rqJasper step errs q.1 q.2 with
    | (some bs, s') => State.readPieces s' step errs qs (acc ++ bs)
    | (none, s') => (none, s')

/-- FAR_END_GATHER: the request is served and lands whole, or halts its stream (R199). -/
def State.farEnd (s : State) (t num slot : Nat) (r : FarReturn) : State :=
  let y := s.tower t
  match y.awaits num slot r.epoch with
  | none => if r.epoch = y.epoch then s else s.modTower t Tower.staleDrop
  | some (x, q) =>
    let port := q.req.port s.mem t
    if q.req.pieces.isEmpty || !s.routeUp (.tower t) port then s
    else
      match s.readPieces (s.streamStep t x) r.errs q.req.pieces [] with
      | (none, s1) => s1.answered t port r.epoch [] fun s => if x.halted then s else s.jasperBusError t num x
      | (some bs, s1) => s1.answered t port r.epoch bs fun s => s.landRead t x q r.seq bs.length r.flips

def execFarEndGather (t num slot : Nat) (r : FarReturn) (s : State) : Out' :=
  .next (s.whenOn fun s => s.farEnd t num slot r)

end Sys2Proof.Machine
end

