-- ==== Sys2Proof/Machine/Campanile.lean ====
section
/-!
DEFINITION. Campanile's collectives: their numbers (R265, R271), what a record contributes and what a finished collective gives it (R262,
R264, Table 8.2), what records leave in the step and in device memory (R190), and the messages that carry the chunks over links, relays
and the fabric (R257, R265 to R267, R269, R270).
-/
namespace Sys2Proof.Machine

open Sys2Proof

/-! ### The collectives of a step -/

/-- The kind and group of a COLLECTIVE record. -/
def OpRec.collKind (o : OpRec) : Nat := fieldLe o.param 0 1
def OpRec.collGroup (o : OpRec) : Nat := fieldLe o.param 4 2

/-- The derived gradient of a COLLECTIVE (chapter 2): 6 is the return of a ring's partials. -/
def gradKind (k : Nat) : Nat := match k with | 0 => 0 | 1 => 2 | 2 => 1 | _ => 6

/-- Does a record pass a gradient to its first input? -/
def Program.wantsA (p : Program) (o : OpRec) : Bool := match o.ins with | a :: _ => p.wantsGrad a | [] => false

/-- The exchange that a record needs: its kind and group. Phase 0 is FWD and 1 BWD; phase 2 combines the partials of dA of a product
split by columns (R126). -/
def State.recColl (s : State) (r : Run) (o : OpRec) (mb phase : Nat) : Option (Nat × Nat) :=
  if o.opcode = 0x000F then
    match phase with
    | 0 => some (o.collKind, o.collGroup)
    | 1 => some (gradKind o.collKind, o.collGroup)
    | _ => none
  else
    match s.recSplit r o mb, s.fabric.topo with
    | some x, some t =>
      let at' (kind : Nat) : Option (Nat × Nat) := some (kind, t.splitGroup)
      if phase = 0 then at' (if x.rule = 1 then 2 else 0)
      else if x.rule = 1 then (if phase = 1 then at' 1 else if r.p.wantsA o then at' 0 else none)
      else if phase = 1 && r.p.wantsA o then at' 2 else none
    | _, _ => none

/-- Every collective of a step before the closing exchange, in the order of its SEQ numbers (R265, R271; log 26). -/
def State.collUses (s : State) (r : Run) : List (CollUse × Nat × Nat) :=
  let recs := r.p.ops.mapIdx fun k o => (o, k)
  let of (mb : Nat) (phases : List Nat) (l : List (OpRec × Nat)) : List (CollUse × Nat × Nat) :=
    l.flatMap fun q => phases.filterMap fun ph => (s.recColl r q.1 mb ph).map fun c => (.record q.2 mb ph, c)
  let data := match s.fabric.topo with | some t => t.dataGroup | none => 0
  (List.range r.st.mbs.length).flatMap (fun u => of u [0] recs ++ of u [1, 2] ((recs.filter fun q => r.p.onGraph q.1).reverse))
    ++ r.p.gradWeights.map fun d => (.weight d, 0, data)

/-- The phases in which the members of a split product exchange statistics: FWD for its sheds, BWD for the output gradient of which each has
its own columns (R156; log 26). -/
def Split.statPhases (x : Split) (onGraph : Bool) : List Nat := if x.rule = 1 ∧ onGraph = true then [0, 1, 2] else [0]

/-- The exchanges numbered behind the closing one: the sums of the update of split weights (R246), the statistics of split products
(R156; log 26). -/
def State.lateUses (s : State) (r : Run) : List (CollUse × Nat × Nat) :=
  match s.fabric.topo with
  | none => []
  | some t =>
    let recs := r.p.ops.mapIdx fun k o => (o, k)
    ((List.range r.p.nLayers).flatMap fun l =>
      ((((r.p.owned l).filter fun d => (s.weightSplit r.p d (r.p.maxShape d)).isSome).map Desc.id).insertionSort (· ≤ ·)).flatMap fun d =>
        (List.range 3).map fun k => (CollUse.sums d k, 4, t.splitGroup))
      ++ (List.range r.st.mbs.length).flatMap fun u => recs.flatMap fun q => match s.recSplit r q.1 u with
        | some x => (x.statPhases (r.p.onGraph q.1)).map fun ph => (.stats q.2 u ph, 2, t.splitGroup)
        | none => []

/-- The SEQ of the closing exchange: behind those of the weights (R271). -/
def State.closingSeq (s : State) (r : Run) : Nat := (s.collUses r).length

def State.seqOf (s : State) (r : Run) (u : CollUse) : Nat :=
  match (s.collUses r).findIdx? fun q => q.1 == u with
  | some k => k
  | none => s.closingSeq r + 1 + (s.lateUses r).findIdx fun q => q.1 == u

/-- The collective of a SEQ; none for the closing exchange and beyond the last. -/
def State.useAt (s : State) (r : Run) (seq : Nat) : Option (CollUse × Nat × Nat) :=
  let l := s.collUses r
  if seq < l.length then l[seq]? else if seq = l.length then none else (s.lateUses r)[seq - l.length - 1]?

/-! ### Results -/

/-- The bytes that each member contributes to a gather: of dA of a product split by spans its own columns of K, else as many as this
module. -/
def State.collLens (s : State) (r : Run) (c : Coll) (rs : List Nat) : List Nat :=
  let own := rs.map fun _ => c.mine.length
  match c.use with
  | .record q mb 1 => match (r.p.ops[q]?).bind fun o => (s.recSplit r o mb).map fun x => (o, x) with
    | some (o, x) => match (s.ctxOf r ⟨o.layer, mb, 1⟩).prodRows o with
      | some (_, _, _, rows, _) => (List.range rs.length).map fun k => max 1 (4 * rows.rows.length * (x.range k rows.k).2)
      | none => own
    | none => own
  | _ => own

/-- The result of a joined collective; that of a lone module is its own contribution. -/
def State.collResult (s : State) (r : Run) (c : Coll) : Option (List (List Byte)) :=
  if c.mine.isEmpty || c.fail then none
  else
    match s.members c.group with
    | none => some [c.mine]
    | some (rs, t) => c.result t rs (s.collLens r c rs)

/-! ### Joining -/

/-- A collective of a step changes; one that the step does not list yet is listed first. -/
def State.withColl (s : State) (i : Nat) (r : Run) (u : CollUse) (kind group : Nat) (f : Coll → Coll) : State :=
  let q := s.seqOf r u
  s.modStep i fun p =>
    if p.colls.any fun c => c.use == u then { p with colls := p.colls.map fun c => if c.use = u then f c else c }
    else { p with colls := p.colls ++ [f ⟨q, kind, group, u, [], [], [], [], false, false⟩] }

/-- This module joins a collective with its contribution. -/
def State.join (s : State) (i : Nat) (r : Run) (u : CollUse) (kind group : Nat) (mine : List Byte) : State :=
  s.withColl i r u kind group fun c => { c with mine := mine }

def Step.modColl (st : Step) (u : CollUse) (f : Coll → Coll) : Step :=
  { st with colls := st.colls.map fun c => if c.use = u then f c else c }

/-- Is a use a sum of an update (R246)? -/
def CollUse.isSums (u : CollUse) : Bool := match u with | .sums _ _ => true | _ => false

/-- A failed step takes part in each of its remaining collectives with FAIL set (R224). -/
def State.joinFailed (s : State) (i : Nat) : State :=
  match s.run i with
  | none => s
  | some r => ((s.collUses r ++ (s.lateUses r).filter fun q => !q.1.isSums).filter fun q =>
      (s.members q.2.2).isSome && !(r.st.collOf q.1).any Coll.done).foldl (fun s q =>
      s.withColl i r q.1 q.2.1 q.2.2 fun c => { c with fail := true }) s

/-! ### Tensors as bytes -/

/-- A tensor as the bytes that move (log 28). -/
def Tensor.bytes (t : Tensor) : List Byte :=
  t.codes.flatMap (toLe (ceilDiv t.fmt.elem.bits 8)) ++ t.scales.flatMap (toLe 1) ++ t.outl.flatMap fun l => l.flatMap (toLe 4)

/-- The tensor that bytes give back, in the form of another of the same size. -/
def Tensor.ofBytes (t : Tensor) (b : List Byte) : Tensor :=
  let w := ceilDiv t.fmt.elem.bits 8
  let n := t.codes.length
  let m := t.scales.length
  let k := (t.outl.headD []).length
  { t with
    codes := (List.range n).map fun i => fieldLe b (w * i) w
    scales := (List.range m).map fun i => fieldLe b (w * n + i) 1
    outl := (List.range t.outl.length).map fun i => (List.range k).map fun j => fieldLe b (w * n + m + 4 * (k * i + j)) 4 }

/-- Tensors joined along dimension 0. -/
def joinTensors (l : List Tensor) : Tensor :=
  match l with
  | [] => ⟨⟨.fp32, false⟩, [], [], [], []⟩
  | t :: _ => { t with
    shape := updAt t.shape 0 fun _ => (l.map fun x => x.shape.getD 0 1).foldl (· + ·) 0
    codes := l.flatMap (·.codes), scales := l.flatMap (·.scales), outl := l.flatMap (·.outl) }

/-- Statistics as 149 bytes, SUMSQ as an exact sum, and back (log 26). -/
def Stats.bytes (x : Stats) : List Byte :=
  [x.n, x.zeros, x.sats, x.nonfin, x.shed, x.ovf].flatMap (toLe 8) ++ toLe 4 x.amax.toNat ++ toLe 1 (putBit x.inputsFinite 0)
    ++ xvBytes (Dy.mk x.sqM x.sqE).xv

def Stats.ofBytes (b : List Byte) : Stats :=
  let f (k : Nat) : Nat := fieldLe b (8 * k) 8
  let sq := (xvOfBytes (b.drop 53)).dy
  ⟨f 0, f 1, f 2, f 3, BitVec.ofNat 32 (fieldLe b 48 4), sq.m.natAbs, sq.e, f 4, f 5, fieldLe b 52 1 == 1⟩

/-- The statistics of the members of a split product, place by place. -/
def combineStats (l : List (List Byte)) : List Stats :=
  let all := l.map fun b => (cutList 149 (b.length / 149 + 1) b).map Stats.ofBytes
  match all with
  | [] => []
  | x :: xs => xs.foldl (fun a b => a.zipWith Stats.combine b) x

/-! ### What records leave -/

/-- The role of a tensor that a record writes (Table 6.3). -/
def Program.roleOf (p : Program) (o : OpRec) (d : Nat) : Nat := if p.isRoleA d then 2 else if o.isRoleY then 4 else 0

/-- One output of a record reaches device memory; the shards of a SEQ_RING have passed through their place there as they came (R190, R263,
R266; log 76). -/
def State.storeOut (s : State) (x : Slot) (p : Program) (o : OpRec) (mb : Nat) (w : Written) : State :=
  match p.desc w.desc with
  | some d => if o.opcode = 0x000F ∧ o.collKind = 3 then s else s.writeTensor x p d (halfOf mb) w.t w.chan
  | none => s

/-- A record completes in FWD: its outputs are written, and its statistics, notes, kept values and loss enter the step; an INDEX_ORDER
breach fails it (R61, R62, R190, R196). -/
def State.putForward (s : State) (i : Nat) (r : Run) (o : OpRec) (k mb : Nat) (c : Ctx) (out : RecOut) : State :=
  match out.broken with
  | some b => (s.modStep i fun p => { p with notes := p.notes ++ out.notes }).orderStop i ⟨o.layer, mb, 0⟩ b.1 b.2
  | none =>
    let fin := c.inputsFinite o
    let stats := out.outs.map fun (w : Written) =>
      let v : View := match r.p.desc w.desc with
        | some d => ⟨w.t, d.bdim, if d.hasCset && !w.chan.isEmpty then some (d.cdim, w.chan) else none, d.zpMode == 1⟩
        | none => ⟨w.t, 0, none, false⟩
      (⟨w.desc, o.layer, mb, r.p.roleOf o w.desc, 0, statsOf v w.sats w.nonfin w.shed w.ovf fin⟩ : StatEnt)
    let s1 := out.outs.foldl (fun s w => s.storeOut r.x r.p o mb w) s
    let s2 := s1.writePart r.x .lse k (halfOf mb) (wordBytes out.lse)
    s2.modStep i fun p => { p.modRec k mb 0 fun q => { q with done := true } with
      held := (p.held.filter fun h => !(h.mb == mb && o.writes.contains h.desc))
        ++ out.outs.map fun (w : Written) => (⟨w.desc, mb, w.t.fmt, if o.opcode = 0x000F ∧ o.collKind = 3 then some w.t else none, []⟩ : Held)
      stats := p.stats ++ stats
      notes := p.notes ++ out.notes ++ c.codeNotes o
      lse := if out.lse.isEmpty then p.lse else p.lse ++ [⟨k, mb, out.lse⟩]
      losses := match out.loss with | some w => updAt p.losses mb fun _ => some w | none => p.losses }

/-- Does a layer form no backward product, so that its output gradients are converted for none (R153, R213)? -/
def Program.plainGrad (p : Program) (l : Nat) : Bool := !p.ops.any fun o => o.layer == l && o.readsDy && p.onGraph o

/-- The statistics of an output gradient that no product reads: as it stands in FP32, under the mark 5 (R153). -/
def Ctx.dyStats (c : Ctx) (o : OpRec) : List Stats :=
  if c.p.plainGrad o.layer then
    let dy := c.dy o
    if dy.isEmpty then [] else
      [statsOf (fp32Tensor [dy.length] dy).view 0 (countIf (fun w => !f32isFin w) dy) 0 0 (dy.all f32isFin)]
  else []

/-- The sums of gradients of the tensors that a record passes one to, as they lie in device memory (R190). -/
def State.storeGrads (s : State) (i : Nat) (ds : List Nat) (mb : Nat) : State :=
  match s.run i with
  | none => s
  | some r => ds.foldl (fun s d => match r.st.gradient d mb with
    | some ws => s.writePart r.x .grad d (halfOf mb) (wordBytes ws)
    | none => s) s

/-- The statistics of a gradient that the BWD of a layer writes, as it lies in device memory with the contributions before it, under role 0:
whether all that it comes from was finite decides cause 2 (R153, R171). -/
def Step.gradStat (st : Step) (layer mb : Nat) (g : GradOut) (d : Nat) : StatEnt :=
  let ws := (st.gradient d mb).getD []
  let before := (st.grads.filter fun q => q.desc == d && q.mb == mb).all fun q => q.words.all f32isFin
  ⟨d, layer, mb, 0, 1, statsOf (fp32Tensor [ws.length] ws).view 0 (countIf (fun w => !f32isFin w) ws) 0 0 (before && !g.unfit.contains d)⟩

/-- The step with what a record has given to the gradients of a micro-batch. -/
def Step.withGrads (st : Step) (k mb : Nat) (g : GradOut) : Step :=
  { st with grads := st.grads ++ g.grads.map fun (q : Nat × Nat × List Word) => (⟨q.2.1, mb, k, q.1, q.2.2⟩ : Grad) }

/-- A record completes a phase of BWD. -/
def State.putBackward (s : State) (i : Nat) (c : Ctx) (o : OpRec) (k mb phase : Nat) (g : GradOut) : State :=
  let own := if phase = 1 then (c.dyStats o).map fun x => (5, x) else []
  let ds := firstsOf (g.grads.map fun q => q.2.1)
  let s1 := s.modStep i fun p =>
    let p1 := (p.modRec k mb phase fun q => { q with done := true }).withGrads k mb g
    { p1 with
      stats := p.stats ++ ((g.gstats.map (fun x => (3, x)) ++ own).map fun (x : Nat × Stats) =>
        (⟨o.outs.headD noId, o.layer, mb, x.1, 1, x.2⟩ : StatEnt))
        ++ ds.map fun d => { p1.gradStat o.layer mb g d with stats := { (p1.gradStat o.layer mb g d).stats with
          inputsFinite := (p.gradStat o.layer mb g d).stats.inputsFinite } }
      notes := p.notes ++ g.notes }
  s1.storeGrads i ds mb

/-! ### Split products (R262) -/

/-- The words of a split product from the members' results: columns side by side, or the tree's sums with the channel scale
applied once (R126). -/
def Ctx.splitWords (c : Ctx) (o : OpRec) (x : Split) (res : List (List Byte)) : List Word :=
  match c.prodRows o with
  | none => []
  | some (a, b, _, rows, _) =>
    let nr := rows.rows.length
    let ws := res.map bytesWords
    if x.rule = 1 then
      let w := rows.n / x.s
      (List.range (nr * rows.n)).map fun q => (ws.getD (q % rows.n / w) []).getD (q / rows.n * w + q % rows.n % w) 0
    else
      let va := c.view a
      let vb := c.view b
      (ws.headD []).mapIdx fun q f =>
        let row := rows.rows.getD (q / rows.n) (none, 0)
        let sa := match row.1 with | some st => va.side st 1 0 | none => va.zeroSide 0
        channelScale sa (vb.side (row.2 + q % rows.n) rows.n 0) f

/-- A split product in FWD once its exchange has completed. -/
def Ctx.splitForward (c : Ctx) (o : OpRec) (x : Split) (res : List (List Byte)) : RecOut :=
  let own := c.product o x.part
  match o.outs.filterMap c.p.desc with
  | [y] => { own with outs := own.outs.map fun (w : Written) => { fp32Out y.id (c.shape y) (c.splitWords o x res) 0 with shed := w.shed } }
  | _ => own

/-- dA of a split product from its exchange: under rule 2 the members' columns of K side by side, under rule 1 the tree's sums (R126). -/
def joinA (x : Split) (nr k : Nat) (res : List (List Byte)) : List Word :=
  let ws := res.map bytesWords
  if x.rule = 1 then (ws.headD []).take (nr * k)
  else (List.range (nr * k)).map fun q =>
    let j := q % k
    ((List.range x.s).findSome? fun m =>
      let g := x.range m k
      if g.1 ≤ j ∧ j < g.1 + g.2 then some ((ws.getD m []).getD (q / k * g.2 + (j - g.1)) 0) else none).getD 0

/-- dB with this module's share in place and +0 elsewhere. -/
def spreadB (bs k n : Nat) (w : BwdPart) (ws : List Word) : List Word :=
  (List.range (bs * k * n)).map fun q =>
    let row := q / n
    let kk := row % k
    let nn := q % n
    if w.kLo ≤ kk ∧ kk < w.kLo + w.kN ∧ w.nLo ≤ nn ∧ nn < w.nLo + w.nN then
      ws.getD ((row / k * w.kN + (kk - w.kLo)) * w.nN + (nn - w.nLo)) 0
    else 0

/-- The statistics of a module's own columns, from those of a tensor that holds +0 in the other columns. -/
def Stats.ownCols (x : Stats) (nr n own : Nat) : Stats := { x with n := nr * own, zeros := x.zeros - nr * (n - own) }

/-- What this module's share of a split product gives in a phase: its share of dA, dB, the statistics of the output gradient that it has
converted, and the events (R262). -/
structure SplitOut where
  da : List Word
  db : List (Nat × Nat × List Word)
  gstats : List Stats
  notes : List Note
  unfit : List Nat

def Ctx.splitShare (c : Ctx) (o : OpRec) (x : Split) (k phase : Nat) : SplitOut :=
  match c.prodRows o with
  | none => ⟨[], [], [], [], []⟩
  | some (a, b, y, r, _) =>
    let w := x.bwd r
    let dy := c.dyWork o k
    let nr := r.rows.length
    let own (l : List Stats) : List Stats := if x.rule = 1 then l.map fun q => q.ownCols nr r.n w.nN else l
    let (da, sa, na, fa) := if c.wants phase a then let (ws, st, nt, fin) := c.gradA o a b y r w dy; (ws, [st], nt, fin) else ([], [], [], true)
    let (db, sb, nb, fb) := if c.wants phase b then
        let (ws, st, nt, fin) := c.gradB o a b y r w dy
        ([(o.nIn - 1, b.id, spreadB (c.mats b r) r.k r.n w ws)], st, nt, fin)
      else ([], [], [], true)
    ⟨da, db, own (sa ++ sb), na ++ nb, unfitOf fa [a.id] ++ unfitOf fb [b.id]⟩

/-- Does a phase of a split product form dA? -/
def Ctx.formsA (c : Ctx) (o : OpRec) (phase : Nat) : Bool :=
  match c.prodRows o with | some (a, _, _, _, _) => c.wants phase a | none => false

/-- The gradients of a split product in a phase, with dA from the result of its exchange. -/
def Ctx.splitGrad (c : Ctx) (o : OpRec) (x : Split) (k phase : Nat) (res : List (List Byte)) : GradOut :=
  match c.prodRows o with
  | none => GradOut.none
  | some (a, _, _, r, _) =>
    let q := c.splitShare o x k phase
    let da : List (Nat × Nat × List Word) := if c.wants phase a then
        let ws := joinA x r.rows.length r.k res
        let out := match o.ins.filterMap c.p.desc with
          | [_, i, _] => if o.opcode = 0x0002 then gatherGrad ((c.shape a).getD 0 0) r.k (c.tensor i).codes ws else ws
          | _ => ws
        [(0, a.id, out)]
      else []
    ⟨da ++ q.db, if x.rule = 1 then [] else q.gstats, q.notes, q.unfit⟩

/-- Some bytes, or one zero byte for a share of nothing. -/
def orZero (b : List Byte) : List Byte := if b.isEmpty then [0] else b

/-! ### COLLECTIVE records -/

/-- Piece `me` of `n` words cut in `s'` equal parts. -/
def slicePart (me s' : Nat) (ws : List Word) : List Word := let n := ws.length / s'; (ws.drop (me * n)).take n

/-- What a COLLECTIVE record contributes in a phase: its input, both shards of a ring, or its output gradient; of a ring one block for
each shard, its slices of dK and dV (Table 8.2). -/
def Ctx.collMine (c : Ctx) (o : OpRec) (phase s' : Nat) : List Byte :=
  orZero (if phase = 0 then (o.ins.filterMap c.p.desc).flatMap fun d => (c.tensor d).bytes
    else if o.collKind = 3 then
      (List.range s').flatMap fun m => (List.range o.nOut).flatMap fun k => wordBytes (slicePart m s' (c.dyOf o k))
    else wordBytes (c.dy o))

/-- The outputs of a COLLECTIVE record in FWD. -/
def Ctx.collForward (c : Ctx) (o : OpRec) (me s' : Nat) (res : List (List Byte)) : RecOut :=
  match o.ins.filterMap c.p.desc, o.outs.filterMap c.p.desc with
  | [x], [y] =>
    if o.collKind = 2 then RecOut.of [movedOut y (joinTensors (res.map (c.tensor x).ofBytes))]
    else
      let ws := bytesWords (res.headD [])
      RecOut.of [fp32Out y.id (c.shape y) (if o.collKind = 1 then slicePart me s' ws else ws) 0]
  | [k, v], [yk, yv] =>
    let n := (c.tensor k).bytes.length
    RecOut.of [movedOut yk (joinTensors (res.map fun b => (c.tensor k).ofBytes (b.take n))),
      movedOut yv (joinTensors (res.map fun b => (c.tensor v).ofBytes (b.drop n)))]
  | _, _ => RecOut.of []

/-- The gradients of a COLLECTIVE record. -/
def Ctx.collBackward (c : Ctx) (o : OpRec) (me s' : Nat) (res : List (List Byte)) : GradOut :=
  let bad := unfitOf ((List.range o.nOut).all fun k => (c.dyOf o k).all f32isFin) o.ins
  match o.collKind, o.ins with
  | 1, [x] => ⟨[(0, x, res.flatMap bytesWords)], [], [], bad⟩
  | 2, [x] => ⟨[(0, x, slicePart me s' (bytesWords (res.headD [])))], [], [], bad⟩
  | 3, [k, v] =>
    let ws := bytesWords (res.headD [])
    let n := match c.p.desc k with | some d => prod (c.shape d) | none => 0
    ⟨[(0, k, ws.take n), (1, v, ws.drop n)], [], [], bad⟩
  | _, x :: _ => ⟨[(0, x, bytesWords (res.headD []))], [], [], bad⟩
  | _, _ => GradOut.none

/-! ### Messages -/

/-- Bytes 0x00 to 0x1B of a message header (Table 10.5). -/
def msgHeader (m : Message) : List Byte :=
  toLe 1 m.kind ++ toLe 1 m.coll ++ toLe 2 m.group ++ toLe 4 m.srcRank ++ toLe 4 m.stepLo ++ toLe 4 m.seq ++ toLe 4 m.chunk
    ++ toLe 4 m.len ++ toLe 2 m.flags ++ toLe 1 m.cadence ++ toLe 1 0

/-- A message whose CHECK is right. -/
def msgSound (m : Message) : Bool := crc32 (msgHeader m) == m.check

/-- The COLL code that a header carries for a kind (Table 10.5). -/
def collCode (kind : Nat) : Nat := if kind = 6 then 3 else kind

/-- A message of a step from this module (Table 10.5). -/
def State.message' (s : State) (st : Step) (kind coll group seq chunk : Nat) (fail : Bool) (payload : List Byte) : Message :=
  let (rank, job) := match s.fabric.topo with | some t => (t.myRank, t.jobId) | none => (0, 0)
  let m : Message := ⟨kind, coll, group, rank, st.number.toNat % 2 ^ 32, seq, chunk, payload.length,
    putBit fail 0 + putBit st.nonfin.isSome 1, st.cadence, 0, job, rank, payload⟩
  { m with check := crc32 (msgHeader m) }

/-- The link to a rank of this board. -/
def Topology.linkTo (t : Topology) (rank : Nat) : Option Nat :=
  match t.me, t.modules[rank]? with
  | some me, some m => if me.board = m.board then (List.range 7).find? fun l => peerSlot me.slot l == m.slot else none
  | _, _ => none

/-- The way to a rank: the link while it is in service, its relay while it is down (R257, R266); to another board this module's slot of the
receiver's landing area (R267). None when the link is down and has no relay. -/
def State.routeTo (s : State) (rank : Nat) : Option Route :=
  match s.fabric.topo with
  | none => none
  | some t =>
    match t.linkTo rank with
    | some l => if (s.link l).state ≠ 0 then some (.link rank l) else (s.link l).relay.map fun k => .relay rank k
    | none => match t.modules[rank]? with
      | some m => if t.boardOf rank = t.boardOf t.myRank then none else
          some (.fabric rank m.pbr (m.fabricBase + landBase + 0x400000 * (t.others rank).idxOf t.myRank))
      | none => none

/-- A message leaves by a way, which names the rank that it goes to. -/
def State.put (s : State) (way : Route) (m : Message) : State :=
  let dest := match way with | .link r _ => r | .relay r _ => r | .fabric r _ _ => r
  { s with out := { s.out with sent := s.out.sent ++ [(way, { m with dest := dest })] } }

/-- A message for a board-mate passes through this module unread, over the link to it (R257); without that link in service it goes
nowhere, and its collective times out (R273). -/
def State.relayOn (s : State) (m : Message) : State :=
  match s.fabric.topo.bind fun t => t.linkTo m.dest with
  | some l => if (s.link l).state ≠ 0 then s.put (.link m.dest l) m else s
  | none => s

/-- Campanile sends a message (R266, R267): over a link or relay at once; over the fabric its data writes begin, or it waits while this module's
slot there holds a message whose credit has not come. -/
def State.post (s : State) (rank : Nat) (way : Route) (m : Message) : State :=
  let f := s.fabric
  match way with
  | .fabric _ _ _ =>
    if f.noCredit.contains rank || (f.writing.any fun q => q.1 == rank) || f.outbox.any fun q => q.1 == rank then
      { s with fabric := { f with outbox := f.outbox ++ [(rank, m)] } }
    else ({ s with fabric := { f with writing := f.writing ++ [(rank, m)] } }).put way m
  | _ => s.put way m

/-- Has a record of ring attention computed the chunks of shard `m` of `n` (R264)? -/
def RecProg.shardDone (q : RecProg) (n m : Nat) : Bool :=
  q.done || (decide (q.placed ≤ n * q.folds.length) && decide (0 < q.placed) && q.folds.all fun f =>
    (List.range (f.spans / n)).all fun k =>
      let sp := m * (f.spans / n) + k
      decide (sp < f.next) || f.waiting.any fun w => w.span == sp)

/-- The rounds of a ring that may begin: the first, and round r + 1 once the chunks of the shard of round r - 1 have been computed, so that a
member holds its own shard, the one in computation and the one in flight (R264). -/
def Run.ringRounds (r : Run) (c : Coll) (me n : Nat) : Nat :=
  match c.use with
  | .record k mb 0 =>
    let readers := r.st.recs.filter fun q => q.mb == mb && q.phase == 0 && (r.p.ops[q.record]?).any fun o => r.p.ringOf o == some k
    1 + ((List.range n).takeWhile fun d => readers.all fun q => q.shardDone n ((me + n - d) % n)).length
  | _ => n

/-- What a collective sends now, as (rank, chunk, bytes): a member that takes part with FAIL set sends one empty message to each (R224,
Table 10.8). -/
def Coll.dueNow (c : Coll) (t : Topology) (rs : List Nat) (rounds : Nat) : List (Nat × Nat × List Byte) :=
  if c.fail then (rs.filter (· != t.myRank)).map fun r => (r, 0xFFFFFFFF, []) else c.due t rs rounds

/-- One message of a collective leaves, when there is a way. -/
def State.sendChunk (s : State) (i : Nat) (st : Step) (c : Coll) (x : Nat × Nat × List Byte) : State :=
  match s.routeTo x.1 with
  | none => s
  | some way =>
    (s.post x.1 way (s.message' st 0 (collCode c.kind) c.group c.seq (if c.fail then 0 else x.2.1) c.fail x.2.2)).modStep i fun p =>
      p.modColl c.use fun d => { d with sent := d.sent ++ [(x.1, x.2.1)] }

/-- Everything that the collectives of a step can send is sent (R264, R265, R269, R270). -/
def State.pump (s : State) (i : Nat) : State :=
  match s.run i with
  | none => s
  | some r => r.st.colls.foldl (fun s c =>
      match s.members c.group with
      | none => s
      | some (rs, t) =>
        let rounds := if c.kind = 3 then r.ringRounds c (rs.idxOf t.myRank) rs.length else 0
        ((c.dueNow t rs rounds).filter fun x => !c.sent.contains (x.1, x.2.1)).foldl (fun s x => s.sendChunk i r.st c x) s) s

/-! ### Shards of a ring -/

/-- The shards of a SEQ_RING that have come since: each passes from the staging buffers through the place of the module's own in device memory, and
the ATTEND that reads the ring may compute it, with zeros in the places of those still to come (R264, R266; log 76). -/
def State.landShards (s : State) (i : Nat) (c : Coll) : State :=
  match c.use, s.run i, s.members c.group with
  | .record k mb 0, some r, some (rs, t) =>
    match r.p.ops[k]? with
    | none => s
    | some o =>
      if c.kind ≠ 3 ∨ c.mine.isEmpty = true then s
      else
        let n := rs.length
        let me := rs.idxOf t.myRank
        let x := s.ctxOf r (opOfRec o mb 0)
        let had := match o.outs.head?.bind x.heldOf with | some h => h.shards | none => []
        let here := ((List.range n).map fun d => (me + n - d) % n).filter fun m => (c.shard rs t.myRank m).isSome
        let fresh := here.filter fun m => !had.contains m
        if fresh.isEmpty then s
        else
          let res := (List.range n).map fun m => (c.shard rs t.myRank m).getD (List.replicate c.mine.length 0)
          let s1 := fresh.foldl (fun s m => ((x.collForward o 0 1 [res.getD m []]).outs).foldl (fun s (w : Written) =>
            match r.p.desc w.desc with | some d => s.writeTensor r.x r.p d (halfOf mb) w.t w.chan | none => s) s) s
          s1.modStep i fun p => { p with
            held := (p.held.filter fun h => !(h.mb == mb && o.writes.contains h.desc))
              ++ ((x.collForward o me n res).outs).map fun (w : Written) => (⟨w.desc, mb, w.t.fmt, some w.t, here⟩ : Held) }
  | _, _, _ => s

/-! ### Acknowledged writes (R190) -/

/-- What a record that forms gradients gives in a phase, from what FWD has kept. -/
def State.backOut (_s : State) (c : Ctx) (o : OpRec) (k phase : Nat) : GradOut :=
  let lse := match c.st.lse.find? fun q => q.record == k && q.mb == c.mb with | some q => q.words | none => []
  let out := match o.outs.head?.bind c.p.desc with | some y => (c.tensor y).words | none => []
  c.backward o phase lse out (c.dy o)

/-- The image of a tensor that a record writes in a phase, with the pieces of device memory that it fills; none of a record whose
results an exchange forms. -/
def State.outImage (s : State) (r : Run) (o : OpRec) (c : Ctx) (k phase d : Nat) : List (Nat × Nat) × List Byte :=
  if o.opcode = 0x000F ∨ (s.recSplit r o c.mb).isSome then ([], [])
  else if phase = 0 then
    match (c.forward o).outs.find? fun w => w.desc == d, c.p.desc d with
    | some w, some e => ((c.source e).data, w.t.dataBytes e)
    | _, _ => ([], [])
  else match (r.st.withGrads k c.mb (s.backOut c o k phase)).gradient d c.mb, c.p.desc d with
    | some ws, some e => ((c.gradSource e).data, wordBytes ws)
    | _, _ => ([], [])

/-- The parts of an image that lie in an extent, each with its address. -/
def imageIn (addr len : Nat) : List (Nat × Nat) → List Byte → List (Nat × List Byte)
  | [], _ => []
  | (a, l) :: r, bs =>
    let own := bs.take l
    let lo := max a addr
    let hi := min (a + own.length) (addr + len)
    (if lo < hi then [(lo, (own.drop (lo - a)).take (hi - lo))] else []) ++ imageIn addr len r (bs.drop l)

/-- The write behind a request reaches device memory, unless it stands there already or on its way. -/
def State.writeFor (s : State) (it : Item) (d addr len : Nat) : State :=
  match s.itemCtx it with
  | none => s
  | some (i, c, o) => match s.run i with
    | none => s
    | some r =>
      let img := s.outImage r o c it.record it.phase d
      (imageIn addr len img.1 img.2).foldl (fun s q =>
        if memRead s.mem.view q.1 q.2.length = q.2 then s else s.writeDev q.1 q.2) s

/-- WRITE_ACK of the write of a WRITE stream that a tag names (R189, R190, R427): what it writes is in device memory first, and one that waits for
the host's answer to a back-invalidation is not acknowledged yet (R338). -/
def State.writeAck (s : State) (t num slot : Nat) : State :=
  let y := s.tower t
  match (y.stream num).bind fun x => (x.sent.find? fun q => q.slot == slot).map fun q => (x, q) with
  | none => s
  | some (x, q) =>
    if x.kind ≠ 5 then s
    else
      let s1 := match y.itemOf x with | some it => s.writeFor it x.desc q.req.addr q.req.len | none => s
      if !s1.mem.settled q.req.addr q.req.len then s1
      else s1.answered t (q.req.port s.mem t) q.epoch [] fun s => (s.modTower t fun z =>
        let z := z.modStream num fun w => { w with sent := w.sent.filter fun q => q.slot != slot }
        if z.jsp.freeze then z else { z with jsp := { z.jsp with wrBytes := z.jsp.wrBytes.add q.req.bytes } }).issueAll t

def execWriteAck (t num slot : Nat) (s : State) : Out' := .next (s.whenOn fun s => s.writeAck t num slot)

end Sys2Proof.Machine
end

