-- ==== Sys2Proof/Machine/Running.lean ====
section
/-!
DEFINITION. A step while it runs: records complete (R156, R207), collectives join and finish (R269 to R271), layer operations are
judged, stopped and repeated (R152, R161, R171 to R175), losses complete, micro-batches retire and their gradients are added (R207,
R209, R215, R220, R225, R226).
-/
namespace Sys2Proof.Machine

open Sys2Proof

/-! ### Non-finite causes -/

/-- The first cause of R220 stands. -/
def State.nonfinite (s : State) (i cause layer mb : Nat) : State :=
  s.modStep i fun p => { p with nonfin := p.nonfin.or (some (cause, layer, mb)) }

/-! ### What this module brings to a collective -/

/-- The phase of BWD in which a split product forms dA: input gradients, or deferred for a WEIGHT (R211). -/
def Ctx.phaseA (c : Ctx) (o : OpRec) : Nat := if c.formsA o 1 then 1 else 2

/-- The statistics that a member of a split product brings: the sheds of its output in FWD, those of its columns of the output gradient
in BWD (R156). -/
def Ctx.statShare (c : Ctx) (o : OpRec) (x : Split) (k phase : Nat) : List Stats :=
  if phase = 0 then (c.product o x.part).outs.map fun w => { Stats.empty with shed := w.shed } else (c.splitShare o x k phase).gstats

/-- What this module contributes to a collective, from what stands in the step. -/
def State.shareOf (s : State) (r : Run) (u : CollUse) : List Byte :=
  match u with
  | .record k mb phase =>
    match r.p.ops[k]? with
    | none => []
    | some o =>
      let c := s.ctxOf r (opOfRec o mb phase)
      if o.opcode = 0x000F then c.collMine o phase (s.place' o.collGroup).2
      else match s.recSplit r o mb with
        | none => []
        | some x =>
          orZero (wordBytes (if phase = 0 then ((c.product o x.part).outs.map fun w => w.t.words).flatten
            else if phase = 1 ∧ x.rule = 1 then c.dy o
            else (c.splitShare o x k (c.phaseA o)).da))
  | .stats k mb phase =>
    match r.p.ops[k]? with
    | none => []
    | some o => match s.recSplit r o mb with
      | some x => ((s.ctxOf r (opOfRec o mb phase)).statShare o x k phase).flatMap Stats.bytes
      | none => []
  | .weight d => match r.st.sums.find? fun q => q.desc == d with
    | some q => orZero (wordBytes q.words)
    | none => []
  | .sums _ _ => []

/-- This module joins a collective with its share, once. -/
def State.joinUse (s : State) (i : Nat) (u : CollUse) (kind group : Nat) : State :=
  match s.run i with
  | none => s
  | some r => if r.st.joined u then s else s.join i r u kind group (s.shareOf r u)

/-! ### Collectives that finish -/

/-- A finished collective of a record: the record completes its phase (R126, R262, R264, Table 8.2). Under rule 1 the exchange of phase 1 gives
the output gradient, which the work of the record then reads. -/
def State.finishRecord (s : State) (i : Nat) (r : Run) (group k mb phase : Nat) (res : List (List Byte)) : State :=
  match r.p.ops[k]? with
  | none => s
  | some o =>
    let x := s.ctxOf r (opOfRec o mb phase)
    let (me, n) := s.place' group
    if o.opcode = 0x000F then
      if phase = 0 then s.putForward i r o k mb x (x.collForward o me n res)
      else
        let g := x.collBackward o me n res
        s.putBackward i x o k mb 1 { g with grads := g.grads.filter fun q => r.p.wantsGrad q.2.1 }
    else
      match s.recSplit r o mb with
      | none => s
      | some sp =>
        if phase = 0 then s.putForward i r o k mb x (x.splitForward o sp res)
        else if phase = 1 ∧ sp.rule = 1 then s
        else s.putBackward i x o k mb (x.phaseA o) (x.splitGrad o sp k (x.phaseA o) res)

/-- The statistics of a split product once its members' have combined (R156). -/
def Step.takeStats (st : Step) (o : OpRec) (mb phase : Nat) (xs : List Stats) : Step :=
  if phase = 0 then
    match xs with
    | x :: _ => { st with stats := st.stats.map fun e =>
        if o.writes.contains e.desc ∧ e.mb = mb ∧ e.phase = 0 then { e with stats := { e.stats with shed := x.shed } } else e }
    | [] => st
  else { st with stats := st.stats ++ xs.map fun x => (⟨o.outs.headD noId, o.layer, mb, 3, 1, x⟩ : StatEnt) }

/-- The step gradient of a weight as it lies in device memory (R190, R215, R266). -/
def State.storeSum (s : State) (i d : Nat) : State :=
  match s.run i with
  | none => s
  | some r => match r.st.sums.find? fun q => q.desc == d with
    | some q => s.writePart r.x .step d 0 (wordBytes q.words)
    | none => s

/-- A finished collective gives its record, its statistics or its step gradient what it was for. After an abort only the exchange itself
is completed (R226). -/
def State.finishColl (s : State) (i : Nat) (r : Run) (c : Coll) (res : List (List Byte)) : State :=
  let s1 := s.modStep i fun p => p.modColl c.use fun d => { d with done := true }
  match c.use with
  | .record k mb phase => if r.st.stage == .running then s1.finishRecord i r c.group k mb phase res else s1
  | .stats k mb phase =>
    match r.p.ops[k]? with
    | some o => if r.st.stage == .running then s1.modStep i fun p => p.takeStats o mb phase (combineStats res) else s1
    | none => s1
  | .weight d =>
    let ws := bytesWords (res.headD [])
    let s2 := (s1.modStep i fun p => { p with
      sums := p.sums.map fun (q : StepGrad) => if q.desc = d then { q with words := ws.take q.words.length, reduced := true } else q }).storeSum i d
    if ws.all f32isFin then s2 else s2.nonfinite i 2 (r.p.owner d) 0xFF
  | .sums _ _ => s1

/-- Records whose inputs are complete join their exchanges: a COLLECTIVE, and in BWD a product split by columns, whose work waits for its
output gradient (R262). -/
def State.joinReady (s : State) (i : Nat) : State :=
  match s.run i with
  | none => s
  | some r => r.st.recs.foldl (fun s q =>
      match r.p.ops[q.record]?, s.run i with
      | some o, some r1 =>
        let u := CollUse.record q.record q.mb q.phase
        let mine : Bool := o.opcode == 0x000F || (q.phase == 1 && (s.recSplit r1 o q.mb).any fun x => x.rule == 1)
        if !mine || q.done || r1.st.joined u || !s.recOpen r1 o q.mb q.phase then s
        else
          match s.recColl r1 o q.mb q.phase with
          | none => s
          | some (kind, group) => (s.beginOp i o q.mb q.phase).joinUse i u kind group
      | _, _ => s) s

/-- May a collective finish: of a record while the step runs it, or once begun when an abort has ended it (R226); statistics behind the
record that they belong to? -/
def Run.collLive (r : Run) (c : Coll) : Bool :=
  match c.use with
  | .record _ _ _ => true
  | .stats k mb phase => r.st.stage != .running || r.st.recDone k mb phase
  | .weight _ => true
  | .sums _ _ => false

/-- Collectives whose results stand finish. -/
def State.finishReady (s : State) (i : Nat) : State :=
  match s.run i with
  | none => s
  | some r => r.st.colls.foldl (fun s c =>
      match s.run i with
      | none => s
      | some r1 =>
        if c.done || !r1.collLive c || r1.st.ended != .running then s
        else match s.collResult r1 c with
          | none => s
          | some res => s.finishColl i r1 c res) s

/-- The shards that have come to the rings of a step land (R264, R266). -/
def State.landRings (s : State) (i : Nat) : State :=
  match s.steps[i]? with
  | none => s
  | some st => st.colls.foldl (fun s c => if c.kind = 3 ∧ st.stage = .running then s.landShards i c else s) s

/-- Collectives joined and finished so far. -/
def Step.progress (st : Step) : Nat := countIf (fun c => c.done) st.colls + countIf (fun c => !c.mine.isEmpty) st.colls

/-- Everything that can go on without the towers goes on. -/
def State.advance (i : Nat) : Nat → State → State
  | 0, s => s
  | n + 1, s =>
    let s1 := (((s.joinReady i).landRings i).finishReady i)
    let at' (x : State) : Nat := match x.steps[i]? with | some st => st.progress | none => 0
    if at' s1 = at' s then s1 else State.advance i n s1

/-- A step takes its exchanges as far as they go, and what they can send leaves; a failed one takes part with FAIL set (R224). -/
def State.advanceAll (s : State) (i : Nat) : State :=
  match s.steps[i]? with
  | none => s
  | some st =>
    if st.ended == .running then (State.advance i (4 * st.recs.length + 2 * st.sums.length + 2) s).pump i
    else (s.joinFailed i).pump i

/-! ### Work items -/

/-- A split product of BWD has done its work in a phase: its share of dA goes into the exchange where it forms one, else its gradients
stand (R262). -/
def State.completeSplit (s : State) (i : Nat) (r : Run) (o : OpRec) (k mb phase : Nat) (x : Split) : State :=
  let c := s.ctxOf r (opOfRec o mb phase)
  let group := match s.fabric.topo with | some t => t.splitGroup | none => 0
  let s1 := if x.rule = 1 ∧ (c.splitShare o x k phase).gstats ≠ [] then s.joinUse i (.stats k mb phase) 2 group else s
  if c.formsA o phase then
    let ph := if x.rule = 1 then 2 else 1
    match s.recColl r o mb ph with
    | some (kind, group) => s1.joinUse i (.record k mb ph) kind group
    | none => s1
  else s1.putBackward i c o k mb phase (c.splitGrad o x k phase [])

/-- A record completes a phase: its results stand, or its share goes into the exchange of a split product. -/
def State.completeRec (s : State) (i k mb phase : Nat) : State :=
  match s.run i with
  | none => s
  | some r =>
    match r.p.ops[k]? with
    | none => s
    | some o =>
      let c := s.ctxOf r (opOfRec o mb phase)
      match s.recSplit r o mb, s.recColl r o mb 0 with
      | some x, some (kind, group) =>
        if phase = 0 then (s.joinUse i (.record k mb 0) kind group).joinUse i (.stats k mb 0) 2 group
        else s.completeSplit i r o k mb phase x
      | _, _ =>
        if phase = 0 then s.putForward i r o k mb c (c.forward o)
        else s.putBackward i c o k mb phase (s.backOut c o k phase)

/-- WORK_ITEM_RETIRE of a started item whose spans have run and whose streams are complete; the one that holds its tile waits for every span
of the tile (R31, R186, R190). -/
def State.workRetire (s : State) (t index : Nat) : State :=
  let x := s.tower t
  match x.started[index]? with
  | none => s
  | some w =>
    let it := w.item
    match s.stepOf it with
    | none => s
    | some i =>
      match s.run i, s.opOf it with
      | some r, some op =>
        if !x.inService || !r.opOpen op || decide (w.span < it.hi) || (it.holds && !w.formed)
            || !(x.streams.filter fun (y : Stream) => y.item == w.num).all Stream.complete then s
        else
          let free (l : List SpanSet) : List SpanSet := l.filter fun q => q.item != w.num
          let s1 := (s.modTower t fun (y : Tower) =>
            { y with
              started := y.started.eraseIdx index
              streams := y.streams.filter fun (z : Stream) => z.item != w.num
              fwdSets := free y.fwdSets
              bwdSets := free y.bwdSets }).issueAll t
          let s2 := s1.modStep i fun p => p.modRec it.record it.mb it.phase fun q => { q with retired := q.retired + 1 }
          match (s2.steps[i]?).bind fun p => p.recProg it.record it.mb it.phase with
          | none => s2
          | some q => if q.retired = q.placed then (s2.completeRec i it.record it.mb it.phase).advanceAll i else s2.pump i
      | _, _ => s

def execWorkItemRetire (t index : Nat) (s : State) : Out' := .next (s.whenOn fun s => s.workRetire t index)

/-! ### Layer operations -/

/-- The work of a layer operation. -/
def Run.opRecs (r : Run) (op : LayerOp) : List RecProg :=
  r.st.recs.filter fun q => q.mb == op.mb && min q.phase 1 == op.phase &&
    match r.p.ops[q.record]? with | some o => o.layer == op.layer | none => false

/-- The events of a completed operation: INDEX_RANGE at its least position and INVALID_CODE of the lowest descriptor, once for a layer and
micro-batch (R59, R80, R196), INVALID_PRODUCT of every product (R115). -/
def State.noteEvents (s : State) (i : Nat) (op : LayerOp) : State :=
  match s.steps[i]? with
  | none => s
  | some st =>
    let s2 := (s.noteRange i op).noteOnce i op 0x0103 fun a b => keyLe (a.desc :: a.pos) (b.desc :: b.pos)
    (st.opNotes op 0x0104).foldl (fun s n => s.event st.src 0x0104
      ([(2, op.layer), (1, op.mb), (1, op.phase), (4, n.desc)] ++ n.pos.map fun q => (4, q))) s2

/-- Norm jumps of an operation (R161): one event for a layer, role and micro-batch, at the first tensor that jumps. Only a jump in a
laddered role is counted against narrowing (R168). -/
def State.normJumps (s : State) (i : Nat) (op : LayerOp) (e : PlanEnt) (k : Tracker) (xs : List StatEnt) : State :=
  [1, 2, 3, 4].foldl (fun s role =>
    match s.steps[i]? with
    | none => s
    | some st =>
      if st.marked op 0x0202 role then s
      else
        let hit : Option (StatEnt × Word × Word) := (xs.filter fun x => x.role == role).findSome? fun x =>
          (jumpOf e k x).map fun q => (x, q)
        match hit with
        | none => s
        | some (x, n, avg) =>
          (s.event st.src 0x0202 [(2, op.layer), (1, op.mb), (1, role), (4, x.desc), (4, n.toNat), (4, avg.toNat), (1, e.jumpPolicy)]).modStep i
            fun p =>
              let p := p.mark op 0x0202 role
              { p with
                normJumps := p.normJumps + 1
                rungs := if e.roleLaddered role then
                    updAt p.rungs op.layer fun g => if role = 3 then { g with jumpG := true } else { g with jumpF := true }
                  else p.rungs }) s

/-- An operation stands. -/
def State.opStands (s : State) (i : Nat) (op : LayerOp) : State := s.modStep i fun p => p.modLayer op fun q => { q with done := true }

/-- The tensors that the backward operation of a layer recomputes: those of records on the backward graph that keep their inputs and not what
their derivative is taken from, which are attention, NORM, SOFTMAX, ROUTE and LOSS (R212, R216). -/
def Program.recomputes (p : Program) (l : Nat) : List Nat :=
  (p.ops.filter fun o => o.layer == l && p.onGraph o && [5, 6, 7, 8, 0x0D, 0x10].contains o.opcode).flatMap OpRec.writes

/-- The statistics on which a completed operation is judged: those of its tensors, in FWD also those of the layer's forward copies, and in
BWD those of the forward tensors that it recomputes (R161, R171, R174, R229; log 67). -/
def Run.judged (r : Run) (q : LayerProg) : List StatEnt :=
  let op := q.op
  let again : List Nat := if op.phase = 1 then r.p.recomputes op.layer else []
  r.st.stats.filter fun x => x.layer == op.layer &&
    ((x.role != 1 && x.mb == op.mb && x.phase == op.phase) || (x.role == 1 && op.phase == 0)
      || (x.mb == op.mb && x.phase == 0 && again.contains x.desc))

/-- The judgement of a completed operation (R161, R171 to R174): its events, a jump under STOP, which fails the step, or a condition, which
wants a repeat one rung wider. -/
def State.judge (s : State) (i : Nat) (r : Run) (q : LayerProg) : State :=
  let op := q.op
  let s0 := s.noteEvents i op
  match r.x.plan.bind fun pl => pl.layers[op.layer]?, r.x.trackers[op.layer]? with
  | some e, some k =>
    let xs := r.judged q
    let fresh := if op.phase = 0 then xs else xs.filter fun x => x.phase == 1
    let s1 := s0.normJumps i op e k fresh
    if e.jumpPolicy = 2 ∧ fresh.any (fun x => (jumpOf e k x).isSome) then s1.failStep i stNORM_JUMP
    else
      let g := (r.st.latched op).rung op.layer
      match conditionOf e k g op.phase xs with
      | none => s1.opStands i op
      | some c =>
        let (s2, widened) := s1.fallback i op.layer op.mb op.phase (g.at c.grad) e c
        if widened then
          let s3 := s2.modStep i fun p => p.modLayer op fun q => { q with want := 2 }
          if c.grad then s3 else s3.copyRung i op.layer false
        else s2.opStands i op
  | _, _ => s0.opStands i op

/-- Have the exchanges of an operation's statistics completed (R156)? -/
def Run.statsIn (r : Run) (op : LayerOp) : Bool :=
  r.st.colls.all fun c => match c.use with
    | .stats k mb ph => c.mine.isEmpty || c.done || mb != op.mb || min ph 1 != op.phase
        || !(r.p.ops[k]?).any fun o => o.layer == op.layer
    | _ => true

/-! ### Gradients and REDUCE -/

/-- Have all operations of a phase of a micro-batch been judged? -/
def Run.phaseJudged (r : Run) (mb phase : Nat) : Bool :=
  (r.st.recs.filter fun q => q.mb == mb && min q.phase 1 == phase).all fun q => match r.p.ops[q.record]? with
    | none => true
    | some o => q.done && (match r.st.layerProg (opOfRec o mb phase) with | some l => l.done | none => false)

/-- Is the gradient of a weight for a micro-batch final: FWD stands, and BWD stands of every record from its first reader on, which is
everything that the gradient comes from (R211, R215)? -/
def Run.gradFinal (r : Run) (d mb : Nat) : Bool :=
  let first := (r.p.readers d).foldl min r.p.ops.length
  r.st.lossDone.contains mb && r.phaseJudged mb 0 &&
    (r.st.recs.filter fun q => q.mb == mb && q.phase != 0 && decide (first ≤ q.record)).all fun q => match r.p.ops[q.record]? with
      | none => true
      | some o => q.done && (match r.st.layerProg (opOfRec o mb 1) with | some l => l.done | none => false)

/-- A gradient of a micro-batch at the extents of the step gradient: +0 beyond the micro-batch's (R51). -/
def atMax (big small : List Nat) (ws : List Word) : List Word :=
  if big = small then ws
  else (List.range (prod big)).map fun i =>
    let ix := unravel big i
    if (ix.zip small).all fun q => decide (q.1 < q.2) then ws.getD (ravel small ix) 0 else 0

/-- The step gradient of a weight takes the next micro-batch whose gradient is final (R215). -/
def State.addGrad (i d : Nat) : Nat → State → State
  | 0, s => s
  | n + 1, s =>
    match s.run i with
    | none => s
    | some r =>
      match r.st.sums.find? fun q => q.desc == d, r.p.desc d with
      | some q, some x =>
        let u := q.added
        if r.st.mbs.length ≤ u || !r.gradFinal d u then s
        else
          let big := r.p.maxShape x
          let small := r.p.resolve ((r.st.mbs.getD u ⟨0, []⟩).vars) x
          let g := match r.st.gradient d u with
            | some ws => atMax big small ws
            | none => List.replicate (prod big) 0
          State.addGrad i d n ((s.modStep i fun p => { p with
            sums := p.sums.map fun (y : StepGrad) => if y.desc = d then
              { y with words := if u = 0 then g else y.words.zipWith f32add g, added := u + 1 } else y
            grads := p.grads.filter fun y => !(y.desc == d && y.mb == u) }).storeSum i d)
      | _, _ => s

/-- The local check of R220 of a step gradient before its REDUCE. -/
def State.localNonfinite (s : State) (i : Nat) (r : Run) (q : StepGrad) : State :=
  if q.words.all f32isFin then s else s.nonfinite i 1 (r.p.owner q.desc) 0xFF

/-- The gradient all-reduces of a step: every layer whose weights have all taken every micro-batch joins its own (R209, R271); `all`: every
layer, as its buffers stand (R226). -/
def State.joinLayers (s : State) (i : Nat) (all : Bool) : State :=
  match s.run i with
  | none => s
  | some r =>
    let data := match s.fabric.topo with | some t => t.dataGroup | none => 0
    let open' (l : Nat) : Bool := all || (r.st.sums.filter fun q => r.p.owner q.desc == l).all fun q => q.added == r.st.mbs.length
    r.p.gradWeights.foldl (fun s d =>
      match r.st.sums.find? fun q => q.desc == d with
      | some q => if r.st.joined (.weight d) || !open' (r.p.owner d) then s
          else (s.localNonfinite i r q).joinUse i (.weight d) 0 data
      | none => s) s

/-- What a micro-batch that has ended need not hold any longer: its kept tensors, and gradients of tensors that are no weights. -/
def Step.release (st : Step) (mb : Nat) : Step :=
  { st with
    held := st.held.filter fun h => h.mb != mb
    lse := st.lse.filter fun q => q.mb != mb
    grads := st.grads.filter fun g => g.mb != mb || st.sums.any fun q => q.desc == g.desc }

/-- Has a micro-batch ended: its BWD retired, and every forward operation judged? -/
def Run.mbEnded (r : Run) (mb : Nat) : Bool := r.st.retired.contains mb && r.phaseJudged mb 0

/-- FWD of the next micro-batch begins when R207 allows it; the placer takes the sums of the one before (R28, R38). -/
def State.tryForward (s : State) (i : Nat) : State :=
  match s.run i with
  | none => s
  | some r =>
    let n := r.st.fwdBegun
    if decide (n < r.st.mbs.length) && (n == 0 || r.st.lossDone.contains (n - 1)) && (decide (n < 2) || r.mbEnded (n - 2)) then
      ((((s.loadSums i).modStep i fun p => { p with fwdBegun := n + 1 }).placePhase i n 0).advanceAll i)
    else s

/-- An abort (R226): no work goes on; the exchanges that work in flight had begun, and all others, take this module's buffers as they
stand, and REDUCE begins. -/
def State.abortWork (s : State) (i : Nat) : State :=
  match s.run i with
  | none => s
  | some r =>
    let late := (s.lateUses r).filter fun q => match q.1 with | .stats _ _ _ => true | _ => false
    let rest := ((s.collUses r).filter fun q => match q.1 with | .record _ _ _ => true | _ => false) ++ late
    let s1 := (rest.filter fun q => (s.members q.2.2).isSome).foldl (fun s q => s.joinUse i q.1 q.2.1 q.2.2) s
    let s2 := (s1.dropItems fun it => it.slot == r.st.slot && it.step == r.st.number.toNat).modStep i fun p =>
      { p with backlog := [], stage := .reduce }
    (s2.joinLayers i true).advanceAll i

/-- A loss that is not finite: the event once the forward operations of its micro-batch stand, so that a fallback repeat runs first; then an
abort under ABORT_ON_NONFINITE (R220, R225, R226, Table 8.7). -/
def State.noteLoss (s : State) (i mb : Nat) : State :=
  match s.run i with
  | none => s
  | some r =>
    let layer := match r.p.ops.find? fun o => o.opcode == 0x0010 with | some o => o.layer | none => 0xFFFF
    let op : LayerOp := ⟨layer, mb, 0⟩
    match (r.st.losses[mb]?).bind id with
    | none => s
    | some w =>
      if f32isFin w || r.st.stage != .running || !r.st.lossDone.contains mb || !r.phaseJudged mb 0 || r.st.marked op 0x0301 0 then s
      else
        let s1 := ((s.event r.st.src 0x0301 [(1, mb), (4, w.toNat)]).nonfinite i 0 layer mb).modStep i fun p => p.mark op 0x0301 0
        if r.st.abortNonfin then s1.abortWork i else s1

/-- What follows a judgement or a retirement: losses are judged, step gradients take what is final, layers enter REDUCE, ended micro-batches leave, and
the next begins; the step is in REDUCE once the last has ended (R207, R209, R215). -/
def State.settle (s : State) (i : Nat) : State :=
  let s0 : State := match s.steps[i]? with
    | some st => if st.ended == .running then (List.range st.mbs.length).foldl (fun s u => s.noteLoss i u) s else s
    | none => s
  match s0.run i with
  | none => s0
  | some r =>
    if r.st.stage != .running || r.st.ended != .running then s0
    else
      let n := r.st.mbs.length
      let s1 := (r.p.gradWeights.foldl (fun s d => State.addGrad i d (n + 1) s) s0).joinLayers i false
      let ended := (List.range n).filter r.mbEnded
      let s2 := ended.foldl (fun s u => s.modStep i fun p => p.release u) s1
      if ended.length = n then (s2.modStep i fun p => { p with stage := .reduce }).advanceAll i
      else (s2.tryForward i).advanceAll i

/-- LAYER_OPERATION_COMPLETE (R33, R171). -/
def State.opComplete (s : State) (i : Nat) (op : LayerOp) : State :=
  match s.run i with
  | none => s
  | some r =>
    let rs := r.opRecs op
    match r.st.layerProg op with
    | none => s
    | some q =>
      if q.done || !q.begun || !r.opOpen op || rs.isEmpty || !rs.all RecProg.done || !r.statsIn op then s
      else (s.judge i r q).settle i

/-- The step whose work the towers do: before its decision and running. -/
def State.onRunning (s : State) (f : State → Nat → State) : State :=
  match s.earlyIdx with
  | none => s
  | some i => match s.steps[i]? with
    | none => s
    | some st => if st.ended == .running && st.stage == .running then f s i else s

def execLayerOperationComplete (op : LayerOp) (s : State) : Out' :=
  .next (s.whenOn fun s => s.onRunning fun s i => s.opComplete i op)

/-! ### Stop and restart -/

/-- Has a record's work of a phase begun? -/
def State.recBegun (s : State) (st : Step) (q : RecProg) : Bool :=
  q.done || decide (0 < q.retired) || st.joined (.record q.record q.mb q.phase)
    || s.towers.any fun t => t.started.any fun w =>
        w.item.step == st.number.toNat && w.item.slot == st.slot && w.item.record == q.record && w.item.mb == q.mb && w.item.phase == q.phase

/-- Does a record's work read what another's has written: in FWD an output, in BWD a gradient (R172)? -/
def Program.readsOf (_p : Program) (phase : Nat) (src dst : OpRec) : Bool :=
  if phase = 0 then src.writes.any dst.ins.contains else src.ins.any fun d => dst.outs.contains d

/-- One round of the closure: the operations already in it, with every operation that has begun to read them, in FWD also through a weight
of the layer `wide` that has widened (R172, R445). -/
def State.closureRound (s : State) (r : Run) (phase mb : Nat) (wide : Option Nat) (ls : List Nat) : List Nat :=
  let mine := (r.st.recs.filter fun q => q.mb == mb && min q.phase 1 == phase)
  let srcs := r.p.ops.filter fun o => ls.contains o.layer
  let more := (mine.filter fun q => s.recBegun r.st q).filterMap fun q => match r.p.ops[q.record]? with
    | none => none
    | some o =>
      let weight := match wide with
        | some l => phase == 0 && (r.p.layersRead o).contains l
        | none => false
      if weight || srcs.any fun x => r.p.readsOf phase x o then some o.layer else none
  (ls ++ more).dedup

/-- The layers whose operations of a micro-batch and phase stop with one (R152, R172). -/
def State.closure (s : State) (r : Run) (phase mb : Nat) (wide : Option Nat) : Nat → List Nat → List Nat
  | 0, ls => ls
  | n + 1, ls => s.closure r phase mb wide n (s.closureRound r phase mb wide ls)

/-- A collective of a discarded operation begins again; what the other members of a COLLECTIVE have sent stands. -/
def Coll.again (c : Coll) (keep : Bool) : Coll :=
  { c with mine := [], sent := [], done := false, failed := [], parts := if keep then c.parts else [] }

/-- BWD of a micro-batch whose LOSS is discarded is discarded with it: its work, gradients, statistics and exchanges (Table 5.8). -/
def State.dropBackward (s : State) (i mb : Nat) : State :=
  match s.run i with
  | none => s
  | some r =>
    let hit (it : Item) : Bool := it.step == r.st.number.toNat && it.slot == r.st.slot && it.mb == mb && it.phase != 0
    let mine (u : CollUse) : Bool := match u with
      | .record _ m ph => m == mb && ph != 0
      | .stats _ m ph => m == mb && ph != 0
      | _ => false
    (s.dropItems hit).modStep i fun p => { p with
      backlog := p.backlog.filter fun it => !hit it
      grads := p.grads.filter fun g => g.mb != mb
      stats := p.stats.filter fun x => !(x.mb == mb && x.phase == 1)
      notes := p.notes.filter fun n => decide (0x8000 ≤ n.code) || !(n.mb == mb && n.phase == 1)
      colls := p.colls.map fun c => if mine c.use then c.again ((c.kind == 3) || (c.kind == 6)) else c
      recs := p.recs.filter fun q => !(q.mb == mb && q.phase != 0)
      layers := p.layers.filter fun q => !(q.op.mb == mb && q.op.phase == 1)
      losses := updAt p.losses mb fun _ => none
      lossDone := p.lossDone.filter (· != mb)
      retired := p.retired.filter (· != mb)
      nonfin := p.nonfin.filter fun n => !(n.1 == 0 && n.2.2 == mb) }

/-- Everything that an operation has done is discarded (Table 5.8); `same`: it will run in the rung that it began in (R152). -/
def State.discardOp (s : State) (i : Nat) (op : LayerOp) (same : Bool) : State :=
  match s.run i with
  | none => s
  | some r =>
    let recs := (r.opRecs op).map RecProg.record
    let outs := recs.flatMap fun k => match r.p.ops[k]? with | some o => o.writes | none => []
    let hit (it : Item) : Bool :=
      it.step == r.st.number.toNat && it.slot == r.st.slot && it.mb == op.mb && min it.phase 1 == op.phase && recs.contains it.record
    let s1 := s.dropItems hit
    let fwd := op.phase == 0
    let mine (rec' mb : Nat) : Bool := mb == op.mb && recs.contains rec'
    let coll (c : Coll) : Coll := match c.use with
      | .record k mb ph => if mine k mb && min ph 1 == op.phase then c.again ((r.p.ops[k]?).any fun o => o.opcode == 0x000F) else c
      | .stats k mb ph => if mine k mb && min ph 1 == op.phase then c.again false else c
      | _ => c
    let s2 := s1.modStep i fun p => { p with
      backlog := p.backlog.filter fun it => !hit it
      held := if fwd then p.held.filter fun h => !(h.mb == op.mb && outs.contains h.desc) else p.held
      grads := if fwd then p.grads else p.grads.filter fun g => !mine g.record g.mb
      lse := if fwd then p.lse.filter fun q => !mine q.record q.mb else p.lse
      stats := p.stats.filter fun x => !(x.layer == op.layer && x.mb == op.mb && x.phase == op.phase && x.role != 1)
      notes := p.notes.filter fun n => decide (0x8000 ≤ n.code) || !(n.layer == op.layer && n.mb == op.mb && n.phase == op.phase)
      colls := p.colls.map coll
      recs := p.recs.map fun q => if mine q.record q.mb && min q.phase 1 == op.phase then
          { q with placed := 0, retired := 0, folds := [], done := false } else q
      layers := p.layers.map fun (q : LayerProg) => if q.op = op then { q with begun := q.begun && same, stopped := true, done := false } else q }
    if fwd && recs.any (fun k => (r.p.ops[k]?).any fun o => o.opcode == 0x0010) then s2.dropBackward i op.mb else s2

/-- A member of a split layer's group has found a condition: this module repeats the operation in the same, wider rung, and records its repeat
(Table 6.7, R175; log 30). -/
def State.peerNotice (s : State) (i : Nat) (op : LayerOp) : State :=
  match s.run i with
  | none => s
  | some r =>
    let split := r.p.ops.any fun o => o.layer == op.layer && (s.recSplit r o op.mb).isSome
    match r.st.layerProg op, r.x.plan.bind fun pl => pl.layers[op.layer]? with
    | some q, some e =>
      let grad := op.phase == 1
      let ran := if grad then q.rg else q.rf
      if !split || !q.begun || q.stopped || q.want != 0 || decide (e.top grad ≤ ran) then s
      else
        let (cause, desc, role, measured) := Config.peerCond s.freeCtr
        let c : Cond := ⟨cause, grad, ⟨desc, op.layer, op.mb, role, op.phase, Stats.empty⟩, measured⟩
        let (s1, _) := ({ s with freeCtr := s.freeCtr + 1 }).fallback i op.layer op.mb op.phase ran e c
        let s2 := s1.modStep i fun p => p.modLayer op fun q => { q with want := 2, done := false }
        if grad then s2 else s2.copyRung i op.layer false
    | _, _ => s

/-- The words of SRAM that read with errors as an operation stops, under an item of it where the tower has one (R299, Table 11.6). -/
def State.haltWords (s : State) (h : LayerHalt) : State :=
  h.srams.foldl (fun s q => s.workWord q.1 (((s.tower q.1).started.find? fun w => s.opOf w.item == some h.op).map Started.item) q.2) s

/-- LAYER_STOP: the operation and its readers stop and discard their work (Table 5.8). -/
def State.layerStop (s : State) (i : Nat) (h : LayerHalt) : State :=
  let op := h.op
  let s0 := (s.haltWords h).peerNotice i op
  match s0.run i with
  | none => s0
  | some r =>
    match r.st.layerProg op with
    | none => s0
    | some q =>
      if q.want = 0 ∨ q.stopped then s0
      else
        let wide := if q.want = 2 ∧ (r.st.rung op.layer).rf ≠ q.rf then some op.layer else none
        let ls := s0.closure r op.phase op.mb wide r.p.nLayers [op.layer]
        ls.foldl (fun s l => s.discardOp i ⟨l, op.mb, op.phase⟩ (q.want == 1)) s0

def execLayerStop (h : LayerHalt) (s : State) : Out' := .next (s.whenOn fun s => s.onRunning fun s i => s.layerStop i h)

/-- A stopped operation begins its next attempt: behind a skew or an SRAM error the second of two (R152, R299); a fallback repeat is a new
operation with an attempt count of its own. -/
def LayerProg.again (q : LayerProg) : LayerProg :=
  { q with
    want := 0, stopped := false, repeated := q.repeated || q.want == 2
    retried := if q.want = 2 then false else q.retried || q.want == 1 }

/-- The work of one stopped operation enters the queues again. -/
def State.refill (s : State) (i : Nat) (op : LayerOp) : State :=
  match s.run i with
  | none => s
  | some r =>
    let s1 := s.modStep i fun p => p.modLayer op LayerProg.again
    ((r.p.phaseWork op.phase).filter fun q => q.1.layer == op.layer).foldl
      (fun s q => s.placeRecord i q.1 q.2.1 op.mb q.2.2) s1

/-- LAYER_RESTART: the operation and the stopped readers start from their inputs (R152, R172). -/
def State.layerRestart (s : State) (i : Nat) (op : LayerOp) : State :=
  match s.steps[i]? with
  | none => s
  | some st =>
    match st.layerProg op with
    | none => s
    | some q =>
      if !q.stopped then s
      else
        let readers := (st.layers.filter fun x => x.stopped && x.want == 0 && x.op != op && x.op.mb == op.mb && x.op.phase == op.phase).map (·.op)
        ((op :: readers).foldl (fun s o => s.refill i o) s).advanceAll i

def execLayerRestart (op : LayerOp) (s : State) : Out' := .next (s.whenOn fun s => s.onRunning fun s i => s.layerRestart i op)

/-! ### Losses and micro-batches -/

/-- LOSS_COMPLETE (R207, R225, R226): BWD of the micro-batch begins, and FWD of the next when it may. DESIGN CHOICE (log 9): R27 fills the queues at
the start of each micro-batch and R207 begins BWD at the LOSS; the items of BWD enter the queues here. -/
def State.lossComplete (s : State) (i mb : Nat) : State :=
  match s.run i with
  | none => s
  | some r =>
    match (r.st.losses[mb]?).bind id with
    | none => s
    | some _ =>
      if r.st.lossDone.contains mb then s
      else
        let s1 := (s.modStep i fun p => { p with lossDone := p.lossDone ++ [mb] }).noteLoss i mb
        match s1.steps[i]? with
        | some st => if st.stage == .running then ((s1.placePhase i mb 1).tryForward i).advanceAll i else s1
        | none => s1

def execLossComplete (mb : Nat) (s : State) : Out' := .next (s.whenOn fun s => s.onRunning fun s i => s.lossComplete i mb)

/-- MICRO_BATCH_RETIRE: every operation of the micro-batch's backward graph has completed (R207, R215); after the last, REDUCE. -/
def State.microBatchRetire (s : State) (i mb : Nat) : State :=
  match s.run i with
  | none => s
  | some r =>
    if !r.st.lossDone.contains mb || r.st.retired.contains mb || !r.phaseJudged mb 1 then s
    else (s.modStep i fun p => { p with retired := p.retired ++ [mb] }).settle i

def execMicroBatchRetire (mb : Nat) (s : State) : Out' :=
  .next (s.whenOn fun s => s.onRunning fun s i => s.microBatchRetire i mb)

end Sys2Proof.Machine
end

