-- ==== Sys2Proof/Machine/StepClose.lean ====
section
/-!
DEFINITION. The end of a step: messages between modules (R265 to R267, R278), collectives that time out (R273), the closing
exchange (R221, R272), CHECK (R220 to R223, Table 8.4), UPDATE (R217, R218, R228, R253) and COMMIT (R159, R178, R179, R222).
-/
namespace Sys2Proof.Machine

open Sys2Proof

/-! ### Messages -/

/-- The header and payload that bytes hold. The JOB_ID and the destination are not among them: the route carries
them. -/
def messageOf (jobId dest : Nat) (b : List Byte) : Message :=
  ⟨fieldLe b 0 1, fieldLe b 1 1, fieldLe b 2 2, fieldLe b 4 4, fieldLe b 8 4, fieldLe b 0xC 4, fieldLe b 0x10 4, fieldLe b 0x14 4,
    fieldLe b 0x18 2, fieldLe b 0x1A 1, fieldLe b 0x1C 4, jobId, dest, b.drop 32⟩

/-- The rank of this module. -/
def State.myRank (s : State) : Nat := match s.fabric.topo with | some t => t.myRank | none => 0

/-- A dropped message counts at its link, or with the fabric's (R265, Table 14.18). -/
def State.dropMessage (s : State) (rank : Nat) : State :=
  match s.fabric.topo.bind fun t => t.linkTo rank with
  | some l => { s with fabric := { s.fabric with
      links := updAt s.fabric.links l fun (k : Link) => { k with dropped := k.dropped + 1 } } }
  | none => { s with fabric := { s.fabric with fabricDrops := s.fabric.fabricDrops + 1 } }

/-- The current step of the module: the one before its decision, else the one past it. -/
def State.currentIdx (s : State) : Option Nat := s.earlyIdx.or s.lateIdx

/-- The step that a message names: the current one; for the sums of an update any in flight (R246). None when it is dropped (R265). -/
def State.stepNamed (s : State) (m : Message) : Option Nat :=
  let names (p : Step) : Bool := p.number.toNat % 2 ^ 32 == m.stepLo
  match s.fabric.topo with
  | none => none
  | some t =>
    if msgSound m && m.jobId == t.jobId && decide (32 + m.len ≤ 0x400000) then
      if m.coll = 4 then s.steps.findIdx? names else s.currentIdx.filter fun i => (s.steps[i]?).any names
    else none

/-- A message that stands acts on its step; another is dropped. -/
def State.accept (s : State) (m : Message) (f : State → Nat → State) : State :=
  match s.stepNamed m with
  | some i => f s i
  | none => s.dropMessage m.srcRank

/-- One message enters a collective: its chunk, or its sender as failed (R224, Table 10.8). -/
def Coll.take (c : Coll) (m : Message) : Coll :=
  if bitOf m.flags 0 then { c with failed := (c.failed ++ [m.srcRank]).dedup }
  else if (c.part m.srcRank m.chunk).isSome then c
  else { c with parts := c.parts ++ [(m.srcRank, m.chunk, m.payload.take m.len)] }

/-- DATA of a collective enters it: of a step before its decision, and of the sums of an update also behind it (R246). -/
def State.landData (s : State) (i : Nat) (m : Message) : State :=
  match s.run i with
  | none => s
  | some r =>
    match s.useAt r m.seq with
    | none => s
    | some (u, kind, group) =>
      let member : Bool := match s.members group with | some (rs, _) => rs.contains m.srcRank | none => false
      if !member || (r.st.decided.isSome && !u.isSums) then s
      else
        let s1 := s.withColl i r u kind group fun c => c.take m
        if r.st.decided.isSome then s1 else s1.advanceAll i

/-- Layer and micro-batch of a collective, where they apply. -/
def State.collWork (s : State) (i seq : Nat) : List (Nat × Nat) :=
  match s.run i with
  | none => []
  | some r => match s.useAt r seq with
    | some (.record k mb _, _) => match r.p.ops[k]? with | some o => [(2, o.layer), (1, mb)] | none => []
    | some (.stats k mb _, _) => match r.p.ops[k]? with | some o => [(2, o.layer), (1, mb)] | none => []
    | some (.weight d, _) => [(2, r.p.owner d)]
    | some (.sums d _, _) => [(2, r.p.owner d)]
    | none => []

/-- CAMPANILE_DATA (R265, R266), passed on for a board-mate (R257): with it goes what this module meets when it reads device memory, or its staging buffers, for
the transfer (Table 11.3, Table 11.6). -/
def State.campanileData (s : State) (m : Message) (f : XferFault) : State :=
  let num : Quad := match s.earlyIdx.bind fun i => s.steps[i]? with | some p => p.number | none => noStep
  let take (s : State) : State := if m.kind = 0 then s.accept m fun s i => s.landData i m else s
  match f with
  | .none => take s
  | .device errs => let q := s.readRuns rqCampanile num errs []; if q.1 then take q.2 else q.2.failEarly stBUS_ERROR
  | .staging bank word =>
    let src : EvSrc := match s.earlyIdx.bind fun i => s.steps[i]? with | some p => p.src | none => .module
    let work := match s.stepNamed m with | some i => s.collWork i m.seq | none => []
    (s.sramEvent src 0xFFFF bank word rqCampanile work).failEarly stBUS_ERROR

def execCampanileData (m : Message) (f : XferFault) (s : State) : Out' :=
  .next (s.whenOn fun s => if m.dest = s.myRank then s.campanileData m f else s.relayOn m)

/-! ### The closing exchange -/

/-- The other ranks of the job. -/
def State.peers (s : State) : List Nat :=
  match s.fabric.topo with
  | none => []
  | some t => (List.range t.modules.length).filter (· != t.myRank)

/-- Does a step find a storm (R178)? -/
def Run.storms (r : Run) : Bool := r.st.ended == .running && r.x.stormChain && r.st.allFell r.x

/-- The record that this module brings (Table 10.6). -/
def State.ownClosing (s : State) (r : Run) : ClosingRec :=
  let fail := r.st.ended != .running
  let nonfin := r.st.nonfin.isSome
  let t1 := (r.x.t + 1) % 2 ^ 32
  ⟨0x0100, r.p.nLayers, nonfin, fail, r.storms, t1, t1, if fail then s.myRank else 0xFFFFFFFF,
    if nonfin then s.myRank else 0xFFFFFFFF, r.st.cadence, r.st.cadence, r.st.proposals r.x r.p⟩

/-- Two records combined (Table 10.6). -/
def ClosingRec.combine (a b : ClosingRec) : ClosingRec :=
  { version := a.version
    nLayers := a.nLayers
    nonfin := a.nonfin || b.nonfin
    fail := a.fail || b.fail
    storm := a.storm || b.storm
    tplusMin := min a.tplusMin b.tplusMin
    tplusMax := max a.tplusMax b.tplusMax
    failRank := min a.failRank b.failRank
    nonfinRank := min a.nonfinRank b.nonfinRank
    cadMin := min a.cadMin b.cadMin
    cadMax := max a.cadMax b.cadMax
    rungs := if a.rungs.length = b.rungs.length then a.rungs.zipWith max b.rungs else a.rungs }

/-- The record that the bytes of a message hold; none when its CHECK is wrong. -/
def closingOf (b : List Byte) : Option ClosingRec :=
  let fl := fieldLe b 4 4
  if crc32 (b.take 0x1C) ≠ fieldLe b 0x1C 4 then none
  else some ⟨fieldLe b 0 2, fieldLe b 2 2, bitOf fl 0, bitOf fl 1, bitOf fl 2, fieldLe b 8 4, fieldLe b 0xC 4, fieldLe b 0x10 4,
    fieldLe b 0x14 4, fieldLe b 0x18 1, fieldLe b 0x19 1, (b.drop 32).map BitVec.toNat⟩

/-- The bytes of a closing record with its rungs (Table 10.6, R272). -/
def ClosingRec.bytes (c : ClosingRec) : List Byte :=
  let head := toLe 2 c.version ++ toLe 2 c.nLayers ++ toLe 4 (putBit c.nonfin 0 + putBit c.fail 1 + putBit c.storm 2)
    ++ toLe 4 c.tplusMin ++ toLe 4 c.tplusMax ++ toLe 4 c.failRank ++ toLe 4 c.nonfinRank ++ toLe 1 c.cadMin ++ toLe 1 c.cadMax ++ toLe 2 0
  head ++ toLe 4 (crc32 head) ++ c.rungs.map (BitVec.ofNat 8)

/-- May this module's own record be sent: its step has failed, or REDUCE has ended for every layer and every exchange that it takes
part in has completed; the step before has stored its t (R224, R226, R271)? -/
def State.closingReady (s : State) (r : Run) : Bool :=
  s.lateIdx.isNone && r.st.decided.isNone &&
    (r.st.ended != .running || (r.st.stage == .reduce && (r.st.sums.all fun (q : StepGrad) => q.reduced)
      && r.st.colls.all fun c => c.mine.isEmpty || c.done))

/-- The own record of a module that has timed out of the exchange has FAIL set (R273). -/
def State.closingOwn (s : State) (r : Run) : ClosingRec :=
  let c := s.ownClosing r
  if r.st.timedOut then { c with fail := true, failRank := s.myRank } else c

/-- The path of the closing exchange, a reduction of one chunk over group 0 (R269, R270, R272): the members of this module's board, the owner
on each board in increasing number, and the owner on this one. The record is not cut: the owner on the first board completes it
(log 27). -/
structure ClosingPath where
  me : Nat
  set : List Nat
  tops : List Nat
  owner : Nat
  deriving DecidableEq, Repr

def State.closingPath (s : State) : ClosingPath :=
  match s.fabric.topo with
  | none => ⟨0, [0], [0], 0⟩
  | some t =>
    let rs := List.range t.modules.length
    ⟨t.myRank, t.boardSet rs t.myRank, (t.boards rs).map fun b => t.ownerOn rs b 0, t.ownerOn rs (t.boardOf t.myRank) 0⟩

def ClosingPath.top (w : ClosingPath) : Nat := w.tops.headD w.me
def ClosingPath.mates (w : ClosingPath) : List Nat := w.set.filter (· != w.me)

/-- A record received under a chunk number: 0 a module's, 1 a board's, 2 the combined one. -/
def Step.closingFrom (st : Step) (rank chunk : Nat) : Option ClosingRec :=
  (st.closing.find? fun q => q.1 == rank && q.2.1 == chunk).map fun q => q.2.2

/-- Records of ranks combined with a first one: of all of them, or where the exchange has timed out of those that have come. -/
def Step.gatherClosing (st : Step) (chunk : Nat) (first : ClosingRec) (ranks : List Nat) : Option ClosingRec :=
  let got := ranks.map fun q => st.closingFrom q chunk
  if got.all Option.isSome || st.timedOut then some ((got.filterMap id).foldl ClosingRec.combine first) else none

/-- What the owner on a board has of its board (R269). -/
def State.boardClosing (s : State) (r : Run) : Option ClosingRec := r.st.gatherClosing 0 (s.closingOwn r) s.closingPath.mates

/-- The combined record as soon as this module has it: it completes it, or receives it; one that has timed out completes it with what it
has, and its silent participants as failed (R272, R273). -/
def State.closingResult (s : State) (r : Run) : Option ClosingRec :=
  let w := s.closingPath
  if r.st.timedOut then
    let c := (r.st.closing.map fun q => q.2.2).foldl ClosingRec.combine (s.closingOwn r)
    some { c with failRank := r.st.silent.foldl min c.failRank }
  else if w.me = w.top then (s.boardClosing r).bind fun b => r.st.gatherClosing 1 b (w.tops.filter (· != w.me))
  else r.st.closingFrom (if w.me = w.owner then w.top else w.owner) 2

/-- What this module sends in the exchange as soon as it may, as (rank, chunk, record) (R221, R269, R272). -/
def State.closingDue (s : State) (r : Run) : List (Nat × Nat × ClosingRec) :=
  let w := s.closingPath
  if w.me ≠ w.owner then [(w.owner, 0, s.closingOwn r)]
  else
    let up := match (if w.me = w.top then none else s.boardClosing r) with | some b => [(w.top, 1, b)] | none => []
    let down := match s.closingResult r with
      | some c => (w.mates ++ (if w.me = w.top then w.tops.filter (· != w.me) else [])).map fun q => (q, 2, c)
      | none => []
    up ++ down

/-- The records that are due leave, once each; again with FAIL set when it has come to hold since (R227, R273). -/
def State.sendClosing (s : State) (i : Nat) : State :=
  match s.run i with
  | none => s
  | some r =>
    if !s.closingReady r then s
    else (s.closingDue r).foldl (fun s q =>
      let c := q.2.2
      if r.st.closed.any fun x => x.1 == q.1 && x.2.1 == q.2.1 && (x.2.2 || !c.fail) then s
      else match s.routeTo q.1 with
        | none => s
        | some way => (s.post q.1 way (s.message' r.st 3 5 0 (s.closingSeq r) q.2.1 c.fail c.bytes)).modStep i fun p =>
            { p with closed := (p.closed.filter fun x => !(x.1 == q.1 && x.2.1 == q.2.1)) ++ [(q.1, q.2.1, c.fail)] }) s

/-- A record enters the exchange, a later one with FAIL set in the place of an earlier one without; one of another VERSION or N_LAYERS fails
this module (R272). -/
def State.takeClosing (s : State) (i rank chunk : Nat) (c : ClosingRec) : State :=
  match s.run i with
  | none => s
  | some r =>
    if r.st.decided.isSome || !s.peers.contains rank
        || r.st.closing.any fun q => q.1 == rank && q.2.1 == chunk && (q.2.2.fail || !c.fail) then s
    else
      let s1 := s.modStep i fun p => { p with
        closing := (p.closing.filter fun q => !(q.1 == rank && q.2.1 == chunk)) ++ [(rank, chunk, c)] }
      (if c.version ≠ 0x0100 ∨ c.nLayers ≠ r.p.nLayers then s1.failStep i stBAD_PARAM else s1).sendClosing i

/-- CLOSING (R272), passed on for a board-mate (R257). -/
def execClosing (m : Message) (c : ClosingRec) (s : State) : Out' :=
  .next (s.whenOn fun s => if m.dest ≠ s.myRank then s.relayOn { m with payload := c.bytes }
    else if m.kind = 3 then s.accept m fun s i => s.takeClosing i m.srcRank m.chunk c else s)

/-! ### Fabric messages -/

/-- The rank whose landing slot this is: slots lie in increasing source rank (R267). -/
def State.slotRank (s : State) (slot : Nat) : Option Nat := s.fabric.topo.bind fun t => (t.others t.myRank)[slot]?

/-- A landed message acts by its kind. -/
def State.received (s : State) (m : Message) : State :=
  if m.kind = 0 then s.accept m fun s i => s.landData i m
  else if m.kind = 3 then
    match closingOf (m.payload.take m.len) with
    | some c => s.accept m fun s i => s.takeClosing i m.srcRank m.chunk c
    | none => s.dropMessage m.srcRank
  else s

/-- The CREDIT of a landing slot leaves for its sender: a header that names the slot (R265, R267; log 78). -/
def State.sendCredit (s : State) (i rank : Nat) (m : Message) : State :=
  match s.steps[i]?, s.routeTo rank with
  | some st, some way => s.put way (s.message' st 2 m.coll m.group m.seq m.chunk false [])
  | _, _ => s

/-- DOORBELL of a landing slot: the message is read, and its CREDIT returns (R267). -/
def State.doorbell (s : State) (slot : Nat) (m : Message) (errs : List BeatErr) : State :=
  if m.kind ≠ 1 then s
  else
    match s.slotRank slot with
    | none => s
    | some rank => s.accept m fun s i =>
        let num : Quad := match s.steps[i]? with | some p => p.number | none => noStep
        let base := landBase + 0x400000 * slot
        let credit (s : State) : State := s.sendCredit i rank m
        match s.readDev rqCampanile num errs base 32 with
        | (none, s1) => credit (s1.failEarly stBUS_ERROR)
        | (some h, s1) =>
          match s1.readDev rqCampanile num errs (base + 32) (min (fieldLe h 0x14 4) (0x400000 - 32)) with
          | (none, s2) => credit (s2.failEarly stBUS_ERROR)
          | (some b, s2) => credit (s2.received (messageOf m.jobId m.dest (h ++ b)))

def execDoorbell (slot : Nat) (m : Message) (errs : List BeatErr) (s : State) : Out' :=
  .next (s.whenOn fun s => s.doorbell slot m errs)

/-- The next message that waits for a rank's landing slot begins (R267). -/
def State.startNext (s : State) (rank : Nat) : State :=
  let f := s.fabric
  match f.outbox.find? fun q => q.1 == rank, s.routeTo rank with
  | some q, some way => ({ s with fabric := { f with outbox := f.outbox.erase q, writing := f.writing ++ [q] } }).put way q.2
  | _, _ => s

/-- CREDIT: the sender may write to the landing slot again (R267). -/
def State.credit (s : State) (rank : Nat) : State :=
  if s.fabric.noCredit.contains rank then
    ({ s with fabric := { s.fabric with noCredit := s.fabric.noCredit.filter fun r => r != rank } }).startNext rank
  else s

def execCredit (m : Message) (s : State) : Out' :=
  .next (s.whenOn fun s => if m.kind = 2 then s.accept m fun s _ => s.credit m.srcRank else s)

/-- The doorbell of a message, naming this module's slot in the receiver's landing area (R267). -/
def Topology.doorbell (t : Topology) (rank : Nat) (m : Message) : Message :=
  let d : Message := { m with kind := 1, chunk := (t.others rank).idxOf t.myRank, len := 0, payload := [] }
  { d with check := crc32 (msgHeader d) }

/-- FABRIC_WRITE_COMPLETION of this module's message to a rank (R267, R278): once every data write has completed, its doorbell leaves and
its credit is awaited; the first error resends the message, the second fails the step. -/
def State.fabricWrite (s : State) (rank : Nat) (ok : Bool) : State :=
  let f := s.fabric
  let once := f.resent.filter fun r => r != rank
  let rest := f.writing.filter fun q => q.1 != rank
  match f.writing.find? fun q => q.1 == rank, s.fabric.topo, s.routeTo rank with
  | some q, some t, some way =>
    if ok then
      ({ s with fabric := { f with resent := once, writing := rest, noCredit := (f.noCredit ++ [rank]).dedup } }).put way (t.doorbell rank q.2)
    else if f.resent.contains rank then
      (({ s with fabric := { f with resent := once, writing := rest } }).failEarly stBUS_ERROR).startNext rank
    else ({ s with fabric := { f with resent := f.resent ++ [rank] }, out := { s.out with resends := s.out.resends ++ [rank] } }).put way q.2
  | _, _, _ => s

def execFabricWriteCompletion (rank : Nat) (ok : Bool) (s : State) : Out' :=
  .next (s.whenOn fun s => s.fabricWrite rank ok)

/-! ### Timeouts -/

/-- COLL_TIMEOUT (Table 10.9). -/
def State.timeoutEvent (s : State) (st : Step) (seq coll group rank : Nat) : State :=
  s.event st.src 0x0404 [(4, seq), (1, coll), (2, group), (4, rank)]

/-- The ranks that a joined collective of this module still waits for. -/
def State.silentIn (s : State) (r : Run) (c : Coll) : List Nat :=
  match s.members c.group with
  | some (rs, t) => if c.done || c.mine.isEmpty || c.fail then [] else c.silent t rs (s.collLens r c rs)
  | none => []

/-- The ranks whose records of the closing exchange this module still waits for, in increasing number. -/
def State.closingSilent (s : State) (r : Run) : List Nat :=
  let w := s.closingPath
  let wait (chunk : Nat) (l : List Nat) : List Nat := l.filter fun q => (r.st.closingFrom q chunk).isNone
  let need := if w.me ≠ w.owner then wait 2 [w.owner]
    else wait 0 w.mates ++ (if w.me = w.top then wait 1 (w.tops.filter (· != w.me)) else wait 2 [w.top])
  (need.dedup).insertionSort (· ≤ ·)

/-- COLL_TIMEOUT of a collective that the step before its decision waits for (R273): the event, its silent participants treated as failed, and
the step fails and takes part with FAIL set; of the closing exchange, this module completes it with its own data and FAIL set, and row 1
of Table 8.4 applies at CHECK. -/
def State.collTimeout (s : State) (i seq : Nat) : State :=
  match s.run i with
  | none => s
  | some r =>
    if seq = s.closingSeq r then
      if !s.closingReady r || r.st.timedOut || (s.closingResult r).isSome then s
      else match s.closingSilent r with
        | [] => s
        | q :: qs => (((s.sendClosing i).timeoutEvent r.st seq 5 0 q).modStep i fun p =>
            { p with timedOut := true, silent := p.silent ++ q :: qs }).sendClosing i
    else
      match r.st.colls.find? fun (c : Coll) => c.seq == seq, r.st.ended with
      | some c, .running =>
        match s.silentIn r c with
        | [] => s
        | q :: qs =>
          let low := qs.foldl min q
          (((s.timeoutEvent r.st seq (collCode c.kind) c.group low).modStep i fun p => { p with
            silent := p.silent ++ low :: (q :: qs).filter fun x => x != low
            colls := p.colls.map fun (x : Coll) => if x.seq = seq then { x with failed := x.failed ++ q :: qs } else x }).failStep i
              stPEER_FAILED).advanceAll i
      | _, _ => s

/-! ### Links that go down -/

/-- LINK_DOWN (R257): messages that have left over the link and are not acknowledged leave again by the way that remains, in their order
(R278). -/
def State.linkDown (s : State) (x : LinkLoss) : State :=
  if x.link > 6 ∨ (s.link x.link).down then s
  else
    let sent := s.out.sent.filter fun q => match q.1 with | .link _ l => l == x.link | _ => false
    (sent.drop (sent.length - x.unacked)).foldl (fun s q => match s.routeTo q.2.dest with
      | some way => s.put way q.2
      | none => s) (s.linkLost x)

def execLinkDown (x : LinkLoss) (s : State) : Out' := .next (s.whenOn fun s => s.linkDown x)

/-! ### CHECK -/

/-- The combined record that CHECK decides on. -/
def State.combined (s : State) (r : Run) : ClosingRec := (s.closingResult r).getD (s.closingOwn r)

/-- The first row of Table 8.4 that holds: whether to update, and the status. -/
def checkRow (ended : StepEnd) (c : ClosingRec) (halt : Bool) : Bool × Nat :=
  if c.fail then (false, match ended with | .failed st => st | .running => stPEER_FAILED)
  else if c.tplusMin ≠ c.tplusMax then (false, stSTEP_SKEW)
  else if c.nonfin then (false, stNONFINITE_SKIP)
  else if c.storm && halt then (false, stPRECISION_STORM)
  else (true, stOK)

/-- Did the step reach CHECK with its closing exchange completed (R157, R178)? -/
def Step.reached (st : Step) : Bool := st.ended == .running && !st.timedOut

/-- The events of a decision (Table 8.6, R221, R229). -/
def State.checkEvents (s : State) (st : Step) (own c : ClosingRec) (status : Nat) : State :=
  let s1 := if c.cadMin ≠ c.cadMax then
      s.event st.src 0x0405 [(1, own.cadMin), (1, c.cadMin), (1, c.cadMax), (1, 1)] else s
  let s2 := if status = stPEER_FAILED then s1.event st.src 0x0304 [(4, st.silent.headD c.failRank)] else s1
  let s3 := if status = stSTEP_SKEW then
      s2.event st.src 0x0302 [(4, own.tplusMin), (4, c.tplusMin), (4, c.tplusMax)] else s2
  if (status = stSTEP_SKEW ∨ status = stNONFINITE_SKIP) ∧ c.nonfin then
    let (cause, layer, mb) := st.nonfin.getD (0xFF, 0xFFFF, 0xFF)
    s3.event st.src 0x0303 [(1, cause), (2, layer), (1, mb), (4, c.nonfinRank)]
  else s3

/-- The statistics records of a step that reached CHECK, by telemetry (R157, R290). -/
def State.putRecords (s : State) (r : Run) : State :=
  if r.st.reached then
    (s.sendTelemetry (r.x.statsAddr + r.x.statsSet * (48 * r.p.nStat)) (r.st.records r.x r.p)).modSlot r.st.slot fun x =>
      { x with statsSet := 1 - x.statsSet }
  else s

/-- The rungs of the next step: those agreed, or those at which this one began (R169, R223). -/
def Run.nextRungs (r : Run) (c : ClosingRec) (upd widen : Bool) : List (Nat × Nat) :=
  if r.st.timedOut then r.st.rungs.map fun g => (g.startF, g.startG) else nextRungsOf r.x r.p c.rungs upd widen

/-- RUNG_CHANGE of each layer whose rungs change (R169). -/
def State.rungEvents (s : State) (st : Step) (next : List (Nat × Nat)) : State × Nat :=
  (List.range next.length).foldl (fun (a : State × Nat) l =>
    let g := st.rung l
    let n := next.getD l (0, 0)
    if n.1 = g.startF ∧ n.2 = g.startG then a
    else (a.1.event st.src 0x0203 [(2, l), (1, g.startF), (1, g.startG), (1, n.1), (1, n.2)], a.2 + 1)) (s, 0)

/-- CHECK decides (R221 to R223, R167 to R169, R178 to R180). -/
def State.decide' (s : State) (i : Nat) (r : Run) : State :=
  let own := s.ownClosing r
  let c := s.combined r
  let halt : Bool := match r.x.plan with | some p => p.stormHalt | none => false
  let (upd, status) := checkRow r.st.ended c halt
  let storm := c.storm && !r.st.timedOut
  let s1 := s.checkEvents r.st own c status
  let s2 := s1.putRecords r
  let s3 := if storm then
      (s2.event r.st.src 0x0204 [(1, if halt then 1 else 0), (1, if halt then r.x.widenLeft else 64)]).modSlot r.st.slot fun x =>
        { x with stormHalt := x.stormHalt || halt }
    else s2
  let next := r.nextRungs c upd (storm && !halt)
  let (s4, n) := s3.rungEvents r.st next
  s4.modStep i fun p => { p with
    combined := some c
    decided := some (upd, status)
    stage := if upd then .updating else .committing
    stormNow := storm
    chainNow := r.st.allFell r.x
    cold := r.x.trackers.any fun k => decide (0 < k.coldLeft)
    nextRungs := next
    rungChanges := n
    cleans := (List.range r.p.nLayers).map fun l => match r.x.plan.bind fun pl => pl.layers[l]?, r.x.trackers[l]? with
      | some e, some k => (r.st.clean e k l false, r.st.clean e k l true)
      | _, _ => (0, 0) }

/-- CHECK of the step before its decision, once the closing exchange has completed or timed out. -/
def State.check (s : State) : State :=
  match s.earlyIdx with
  | none => s
  | some i =>
    match s.run i with
    | none => s
    | some r =>
      if s.closingReady r && (s.closingResult r).isSome then
        (((s.advanceAll i).sendClosing i).decide' i r)
      else s

def execCheck (s : State) : Out' := .next (s.whenOn State.check)

/-! ### UPDATE -/

/-- A step of the machine's late stages, with its slot and program. -/
def State.onLate (s : State) (f : State → Nat → Run → State) : State :=
  match s.lateIdx with
  | none => s
  | some i => match s.run i with
    | some r => f s i r
    | none => s

/-- Is the fence of a step open: no started item of the step reads its weights any longer (R218)? -/
def State.fenceOpen (s : State) (st : Step) : Bool :=
  !s.towers.any fun (t : Tower) => t.started.any fun w => w.item.step == st.number.toNat && w.item.slot == st.slot

/-- UPDATE of the next layer in increasing number begins (R209, R218). -/
def State.beginUpdate (s : State) (l : Nat) : State :=
  s.onLate fun s i r =>
    if r.st.stage == .updating && r.st.updFault.isEmpty && l == r.st.updBegun.length && decide (l < r.p.nLayers) && s.fenceOpen r.st then
      s.modStep i fun p => { p with updBegun := p.updBegun ++ [(l, 0)] }
    else s

def execUpdate (layer : Nat) (s : State) : Out' := .next (s.whenOn fun s => s.beginUpdate layer)

/-- Words that nothing defines, over a run of device memory (R228). -/
def Memory.scramble (m : Memory) (k a len : Nat) : Memory :=
  memWrite m a (((List.range (ceilDiv len 4)).flatMap fun j => toLe 4 (Config.undefinedWord (k + a) j).toNat).take len)

/-- The master copies and optimiser state of a layer take undefined contents (R228, R420). -/
def State.scrambleLayer (s : State) (x : Slot) (p : Program) (l : Nat) : State :=
  { s with
    freeCtr := s.freeCtr + 1
    mem := { s.mem with cells := (x.layerRuns p l).foldl (fun c q => Memory.scramble c s.freeCtr q.1 q.2) s.mem.cells } }

/-- A module whose update has stopped takes part with FAIL set in the exchanges of sums that it has not completed (R246, R255). -/
def State.failSums (s : State) (i : Nat) (r : Run) : State :=
  ((s.lateUses r).filter fun q => q.1.isSums && !r.st.joined q.1).foldl (fun s q =>
    s.withColl i r q.1 q.2.1 q.2.2 fun c => { c with fail := true }) s

/-- An uncorrectable error during UPDATE(L) (R228): the event, the halt of the slot, undefined contents; a queued step of the slot
fails (R229). -/
def State.updateFault (s : State) (i : Nat) (r : Run) (l stack : Nat) : State :=
  let s1 := s.event r.st.src 0x0305 [(2, l), (1, stack)]
  let s2 := (s1.modStep i fun p => { p with updFault := p.updFault ++ [l] }).modSlot r.st.slot fun x => { x with faultHalt := true }
  let s3 := ((s2.scrambleLayer r.x r.p l).failSums i r).pump i
  match s3.earlyIdx with
  | some j => match s3.steps[j]? with
    | some q => if q.slot = r.st.slot then (s3.failStep j stBUS_ERROR).advanceAll j else s3
    | none => s3
  | none => s3

/-- Passes done of a layer whose update has begun and not ended. -/
def Step.passesDone (st : Step) (l : Nat) : Option Nat :=
  if st.updDone.contains l ∨ st.updFault.contains l then none
  else (st.updBegun.find? fun q => q.1 == l).map Prod.snd

/-- The exchanges that the next pass of a layer waits for, with their weights (R246). -/
def State.sumNeeds (s : State) (r : Run) (l pass : Nat) : List (WUpd × Nat) :=
  if r.x.frozen r.p l then [] else passNeeds (s.wupds r.x r.p r.st l) (r.st.singular.contains l) pass

/-- This module brings its exact partial sums to an exchange (R246). -/
def State.joinSums (s : State) (i : Nat) (r : Run) (l : Nat) (q : WUpd × Nat) : State :=
  let u := CollUse.sums q.1.d.id q.2
  if r.st.joined u then s
  else
    let group := match s.fabric.topo with | some t => t.splitGroup | none => 0
    s.join i r u 4 group (xvsBytes (q.1.part s.mem.view q.2 (q.1.norms (r.st.singular.contains l))))

/-- The next pass of a layer: once the writes of the pass before stand (R253), its exchanges are joined, and it runs when they have
completed; a peer that has failed in one stops the layer (R255). -/
def State.nextPass (s : State) (i : Nat) (r : Run) (l pass : Nat) : State :=
  let needs := s.sumNeeds r l pass
  match needs.find? fun q => (r.st.collOf (.sums q.1.d.id q.2)).any fun c => !c.failed.isEmpty with
  | some q => s.updateFault i r l (s.mem.place q.1.d.addr).stack
  | none =>
    let s1 := (needs.foldl (fun s q => s.joinSums i r l q) s).pump i
    match s1.run i with
    | none => s1
    | some r1 =>
      if needs.all fun q => (s1.sumsOf r1.st q.1.d.id q.2).isSome then
        (s1.runPass i r1.st r1.x r1.p l pass).modStep i fun p => { p with
          updBegun := p.updBegun.map fun (q : Nat × Nat) => if q.1 = l then (q.1, q.2 + 1) else q }
      else s1

/-- What an engine's reads for a pass meet (R228, R288, R292, R293, Table 11.3, Table 11.6): the stack of a failure. -/
def State.engineReads (s : State) (r : Run) (l : Nat) (e : PassErr) : Option Nat × State :=
  let runs := r.x.engineRuns r.p l
  let (ok, s1) := s.readRuns rqUpdate r.st.number e.errs runs
  let at' : Nat := match (runs.find? fun q => s.mem.touchesRetired q.1 q.2).map Prod.fst |>.or (e.errs.head?.map BeatErr.addr) with
    | some a => (s.mem.place a).stack
    | none => 0
  match e.buffer with
  | some (k, bank, word) =>
    let s2 := s1.sramEvent ⟨r.st.slot, r.st.number, 0x8000 + k⟩ (0x8000 + k) bank word rqUpdate [(2, l)]
    (some (if ok then k else at'), s2)
  | none => (if ok then none else some at', s1)

/-- UPDATE_PASS: the next pass of a layer, with the errors that its engines meet. -/
def State.updatePass (s : State) (l : Nat) (e : PassErr) : State :=
  s.onLate fun s i r =>
    match r.st.passesDone l with
    | none => s
    | some k =>
      match (s.passes r.x r.p r.st l (r.st.singular.contains l))[k]? with
      | none => s
      | some pass =>
        if !s.layerSettled r.x r.p l then s
        else match s.engineReads r l e with
          | (some stack, s1) => s1.updateFault i r l stack
          | (none, s1) => match s1.run i with
            | some r1 => s1.nextPass i r1 l pass
            | none => s1

def execUpdatePass (layer : Nat) (e : PassErr) (s : State) : Out' := .next (s.whenOn fun s => s.updatePass layer e)

/-- COLL_TIMEOUT of an exchange of sums that an update waits for (R246, R273): the event, and the layer stops (R255). -/
def State.sumsTimeout (s : State) (i seq : Nat) : State :=
  match s.run i with
  | none => s
  | some r =>
    match r.st.colls.find? fun (c : Coll) => c.seq == seq && c.use.isSums with
    | none => s
    | some c =>
      match c.use, s.silentIn r c with
      | .sums d _, q :: qs =>
        let low := qs.foldl min q
        let s1 := (s.timeoutEvent r.st seq (collCode c.kind) c.group low).modStep i fun p =>
          p.modColl c.use fun x => { x with failed := x.failed ++ q :: qs, fail := true }
        let l := r.p.owner d
        if (r.st.passesDone l).isSome then
          s1.updateFault i r l (match r.p.desc d with | some x => (s1.mem.place x.addr).stack | none => 0)
        else s1
      | _, _ => s

/-- COLL_TIMEOUT (R273): of the step before its decision, or of an update. -/
def State.timeout (s : State) (seq : Nat) : State :=
  let s1 := match s.earlyIdx with | some i => s.collTimeout i seq | none => s
  match s1.lateIdx with | some i => s1.sumsTimeout i seq | none => s1

def execCollTimeout (seq : Nat) (s : State) : Out' := .next (s.whenOn fun s => s.timeout seq)

/-- LAYER_COMMIT: every pass has run, every write is acknowledged, and the new version becomes visible (R217, R230). -/
def State.layerCommit (s : State) (l : Nat) : State :=
  s.onLate fun s i r =>
    match r.st.passesDone l with
    | none => s
    | some k =>
      if k < (s.passes r.x r.p r.st l (r.st.singular.contains l)).length || !s.layerSettled r.x r.p l then s
      else (s.modStep i fun p => { p with updDone := p.updDone ++ [l] }).modSlot r.st.slot fun x =>
        { x with versions := updAt x.versions l (· + 1) }

def execLayerCommit (layer : Nat) (s : State) : Out' := .next (s.whenOn fun s => s.layerCommit layer)

/-! ### COMMIT -/

/-- May COMMIT begin: no update was decided, or every layer's UPDATE has ended; after a fault, every layer's that had begun
(R209, R228)? -/
def Run.updatesEnded (r : Run) : Bool :=
  match r.st.decided with
  | some (false, _) => true
  | some (true, _) =>
    if r.st.updFault.isEmpty then (List.range r.p.nLayers).all r.st.updDone.contains
    else r.st.updBegun.all fun q => r.st.updFault.contains q.1 || r.st.updDone.contains q.1
  | none => false

/-- What COMMIT stores in the slot (R159, R178, R179, R222, R223). -/
def Slot.commit (x : Slot) (st : Step) (updated : Bool) : Slot :=
  { x with
    t := if updated then x.t + 1 else x.t
    trackers := x.trackers.mapIdx fun l k =>
      let k1 := if updated then k.count st l else k
      let n := st.nextRungs.getD l (k1.rf, k1.rg)
      { k1 with rf := n.1, rg := n.2, fellBack := if st.reached then (st.rung l).fell else k1.fellBack }
    stormChain := if st.reached then st.chainNow else x.stormChain
    widenLeft := if st.stormNow && !(match x.plan with | some p => p.stormHalt | none => false) then 64 else x.widenLeft - 1
    commitStep := some st.number }

/-- A step that waits takes the T of its SET_T before FWD (R222). -/
def State.applySetT (s : State) (slot : Nat) : State :=
  match s.earlyIdx.bind fun i => (s.steps[i]?).map fun p => (i, p) with
  | some (i, p) =>
    match p.setT with
    | some t => if p.slot = slot then
        (s.modSlot slot fun x => { x with t := t }).modStep i fun q => { q with setT := none } else s
    | none => s
  | none => s

/-- At the end of a step that has begun, with no other in flight, the placer puts to sleep towers that it has left unused: their tracker
entries move first, and what their memory holds is lost (R28, R160; log 56). -/
def State.sleepUnused (s : State) (begun : Bool) : State :=
  if !s.steps.isEmpty then s
  else
    let s1 := if begun then (List.range 324).foldl (fun s t =>
        if (s.tower t).inService && !(s.tower t).used && Config.sleepUnused t && decide (1 < s.activeTowers) then
          match s.moveEntries t with
          | some s' => s'.modTower t fun x => { x.emptied with state := 1 }
          | none => s
        else s) s else s
    { s1 with towers := s1.towers.map fun (x : Tower) => { x with used := false } }

/-- COMMIT, and the completion of the RUN_STEP. -/
def State.commit (s : State) : State :=
  s.onLate fun s i r =>
    if !r.updatesEnded then s
    else
      let (upd, status) := r.st.decided.getD (false, stOK)
      let updated := upd && r.st.updFault.isEmpty
      let s1 := s.modSlot r.st.slot fun x => x.commit r.st updated
      ((s1.finishStep i (if r.st.updFault.isEmpty then status else stBUS_ERROR) updated).applySetT r.st.slot).sleepUnused r.st.sample.isSome

def execCommit (s : State) : Out' := .next (s.whenOn State.commit)

/-! ### Idle time -/

/-- What goes on with no command: the time base ticks, and the exchanges of the step before its decision go on (R224, R271; the model's choice,
log 2). -/
def State.idle (s : State) : State :=
  s.tick.whenOn fun s => match s.earlyIdx with
    | some i => (s.advanceAll i).sendClosing i
    | none => s

end Sys2Proof.Machine
end

