-- ==== Sys2Proof/Machine/RunStep.lean ====
section
/-!
DEFINITION. RUN_STEP once admitted (R206, R240, R326, R373, Tables 14.10 and 14.11), the binding of affinity (R193, R194), the waking of
sleeping towers (R428) and the step barrier (R326, R327).
-/
namespace Sys2Proof.Machine

open Sys2Proof

/-! ### The payload -/

/-- The micro-batch table (Table 14.10). -/
def microBatches (b : List Byte) (u : Nat) : List MicroBatch :=
  (List.range u).map fun k =>
    ⟨fieldLe b (0x20 + 24 * k) 8, (List.range 4).map fun i => fieldLe b (0x28 + 24 * k + 4 * i) 4⟩

/-- A step with the fields of a payload, and nothing done. -/
def Step.ofPayload (b : List Byte) (mbx : Nat) (now : Quad) : Step where
  slot := fieldLe b 0 1
  number := BitVec.ofNat 64 (fieldLe b 8 8)
  seed := BitVec.ofNat 64 (fieldLe b 0x10 8)
  eta := BitVec.ofNat 32 (fieldLe b 4 4)
  abortNonfin := bitOf (fieldLe b 1 1) 0
  setT := none
  mbs := microBatches b (fieldLe b 2 1)
  hints := []
  mbx := mbx
  accepted := now
  stage := .barrier
  cadence := 0
  waitOver := false
  checked := false
  ended := .running
  rungs := []
  held := []
  grads := []
  sums := []
  lse := []
  notes := []
  stats := []
  layers := []
  recs := []
  backlog := []
  losses := []
  loads := []
  loadsAt := []
  lossDone := []
  retired := []
  fwdBegun := 0
  nonfin := none
  fallbacks := 0
  rungChanges := 0
  normJumps := 0
  stormNow := false
  cold := false
  colls := []
  closing := []
  closed := []
  silent := []
  timedOut := false
  combined := none
  decided := none
  updBegun := []
  updDone := []
  singular := []
  updFault := []
  nextRungs := []
  cleans := []
  chainNow := false
  sample := none

/-- A RUN_STEP that is not accepted: the window, the completion with every field, vector 9 (R354, R373, R393). -/
def State.refuseRun (s : State) (x : Cmd) (status : Nat) : State :=
  let p := Step.ofPayload x.payload x.mbx s.power.time.v
  let s1 := { s with window := s.rewriteWindow { p with slot := p.slot % 4 } status false }
  (s1.complete x.mbx status (s1.stepBytes p)).raise 9

/-! ### Checks -/

/-- The extents along which a program rotates: a descriptor with a rotation along BDIM, and the input of a ROTATE record (R130). -/
def Program.rotExtents (p : Program) : List (Nat × Nat) :=
  (p.descs.filter fun d => d.rotCode != 0).map (fun d => (d.ext d.bdim, rotSize d.rotCode))
    ++ p.ops.filterMap fun o => match o.opcode, o.ins.head?.bind p.desc, o.outs.head?.bind p.desc with
      | 0x000B, some x, some y => if y.rotCode = 0 then none else some (x.ext (fieldLe o.param 0 1), rotSize y.rotCode)
      | _, _, _ => none

/-- A SEQ_RING with a variable shard extent (R263). -/
def Topology.ringVarOk (t : Topology) (p : Program) (vars : List Nat) (o : OpRec) : Bool :=
  if o.opcode = 0x000F ∧ o.collKind = 3 then
    match t.group o.collGroup, o.ins.head?.bind p.desc with
    | some rs, some d =>
      let ts := (p.resolve vars d).getD 0 0
      !isVar (d.ext 0) || (ts % 128 == 0 && decide (rs.length * ts ≤ 2097152))
    | _, _ => true
  else true

/-- Do the host tensors of a micro-batch lie in device memory and touch no retired page (R295)? -/
def State.hostTensorOk (s : State) (p : Program) (m : MicroBatch) (d : Desc) : Bool :=
  let shape (d : Desc) : List Nat := p.resolve m.vars d
  let bytes (d : Desc) : Nat := match d.fmt with | some f => storedBytes f (shape d) d.bdim | none => 0
  let a := m.base + d.addr
  let slots : Bool := match p.desc d.scaleId with
    | some x => if d.isB32 ∧ 0 < d.budget then
        !s.mem.touchesRetired (m.base + x.addr + roundUp (bytes x) 256) (4 * d.budget * prod (scaleShape (shape d) d.bdim))
      else true
    | none => true
  decide (a + bytes d ≤ devEnd) && !s.mem.touchesRetired a (bytes d) && slots

/-- One row of the micro-batch table (R51, R130, R263, R295, Table 14.10). -/
def State.rowOk (s : State) (t : Topology) (p : Program) (m : MicroBatch) : Bool :=
  m.base % 256 == 0
    && ((List.range 4).all fun i =>
      let v := m.vars.getD i 0
      let mx := p.vmax.getD i 0
      if mx = 0 then v == 0 else decide (1 ≤ v) && decide (v ≤ mx))
    && (p.rotExtents.all fun q => !isVar q.1 || m.vars.getD (q.1 - varBase) 0 % q.2 == 0)
    && (p.ops.all (t.ringVarOk p m.vars))
    && (p.descs.filter fun d => [0, 3, 4].contains d.role).all (s.hostTensorOk p m)

/-- The form of the payload (Table 14.10), its length judged before. -/
def runFormOk (b : List Byte) : Bool :=
  let u := fieldLe b 2 1
  let eta : Word := BitVec.ofNat 32 (fieldLe b 4 4)
  decide (fieldLe b 0 1 ≤ 3) && decide (fieldLe b 1 1 < 4) && decide (1 ≤ u) && decide (u ≤ 64) && zeroAt b 3 1 && zeroAt b 0x1C 4
    && (bitOf (fieldLe b 1 1) 1 || fieldLe b 0x18 4 == 0) && (eta == 0xFFFFFFFF || f32nonneg eta)

/-- What RUN_STEP refuses with BAD_PARAM at stage 6 (R373); the program and topology of a step that stands. -/
def State.runOk (s : State) (b : List Byte) : Option (Program × Topology) := do
  let n := fieldLe b 0 1
  let x := s.slot n
  let p ← if runFormOk b then x.prog else none
  let t ← s.fabric.topo
  let above : Bool := match x.lastStep with | some q => decide (q.toNat < fieldLe b 8 8) | none => true
  let groups := p.ops.all fun o => o.opcode != 0x000F || (t.group o.collGroup).isSome
  if above && (fieldLe b 4 4 != 0xFFFFFFFF || x.eta.isSome) && groups && (p.weights.isEmpty || x.coeff.isSome)
      && !(s.fabric.links.any fun l => l.mismatch) && (microBatches b (fieldLe b 2 1)).all (s.rowOk t p) then some (p, t) else none

/-! ### Affinity -/

/-- The quarter that a record's hint names alone. -/
def quarterAlone (hs : List Hint) (r : Nat) : Option Nat :=
  (hs.find? fun h => h.record == r && h.kind == 0).bind fun h => (List.range 4).find? fun q => h.arg0 == 2 ^ q

/-- The quarter to which the writer and all readers of an ACTIVATION are bound (R194). -/
def Program.boundTo (p : Program) (hs : List Hint) (d : Desc) : Option Nat :=
  if d.role ≠ 2 then none
  else match p.writer d.id with
    | none => none
    | some w => (quarterAlone hs w).filter fun q => (p.readers d.id).all fun r => quarterAlone hs r == some q

/-- The firmware tensors that go to an affine region, with the quarter and the bytes of each half: bound ACTIVATIONs and their scales
(R194). -/
def Program.moves (p : Program) (hs : List Hint) : List (Nat × Nat × Nat × Nat) :=
  (p.parts.filter fun q => q.kind == .tensor).filterMap fun q =>
    let own := (p.desc q.id).bind (p.boundTo hs)
    let scaled := ((p.descs.filter fun d => d.scaleId == q.id && d.isB32).head?).bind (p.boundTo hs)
    (own.or scaled).map fun k => (q.id, q.half, k, q.len)

/-- Places in the four regions of a group, one after another in each; a tensor that does not fit stays in ALL mode (R194). -/
def placeMoves (g : Nat) : List Nat → List (Nat × Nat × Nat × Nat) → List (Nat × Nat × Nat × Nat)
  | _, [] => []
  | offs, (id, half, q, len) :: r =>
    let o := offs.getD q 0
    let n := roundUp len 256
    if o + n ≤ 0x30000000 then (id, half, (4 * g + q) * 0x30000000 + o, n) :: placeMoves g (updAt offs q fun k => k + n) r
    else placeMoves g offs r

/-- Does a group of regions meet an extent? -/
def groupMeets (g : Nat) (q : Nat × Nat) : Bool := overlaps (g * 0xC0000000) 0xC0000000 q.1 q.2

/-- Groups of four regions that hold no data, of firmware or host (R193). -/
def State.freeGroups (s : State) (host : List (Nat × Nat)) : List Nat :=
  (List.range 256).filter fun g =>
    !(s.taken ++ host).any (groupMeets g)
      && !s.mem.cells.any fun c => decide (g * 0xC0000000 ≤ c.1) && decide (c.1 < (g + 1) * 0xC0000000)

/-- The host tensors of a micro-batch table as extents. -/
def Program.hostRuns (p : Program) (mbs : List MicroBatch) : List (Nat × Nat) :=
  (p.descs.filter fun d => d.role == 1 || d.role == 5).map (fun d => (d.addr, p.hostBytes d))
    ++ mbs.flatMap fun m => (p.descs.filter fun d => [0, 3, 4].contains d.role).map fun d => (m.base + d.addr, p.hostBytes d)

/-- Tensors take new places, and their contents go with them (R194). -/
def State.relocate (s : State) (n : Nat) (places : List (Nat × Nat × Nat × Nat)) : State :=
  let x := s.slot n
  let keys := (x.moved.map fun q => (q.1, q.2.1)) ++ places.map fun q => (q.1, q.2.1)
  let old := keys.map fun k => (k, s.partBytes x .tensor k.1 k.2)
  let s1 := (s.clearMoved x).modSlot n fun y => { y with
    moved := places.map fun q => (q.1, q.2.1, q.2.2.1)
    allocs := (y.allocs.filter fun a => a.kind != 4) ++ places.map fun q => (⟨4, q.2.2.1, q.2.2.2⟩ : Alloc) }
  old.foldl (fun s q => s.writePart (s.slot n) .tensor q.1.1 q.1.2 q.2) s1

/-- The tensors of a slot return from affine regions, and the regions, which then hold no data of firmware, to ALL mode. Host data that
lies there is copied out before the change and back after it (R193; log 10). -/
def State.unbind (s : State) (n : Nat) : State :=
  let s1 := s.relocate n []
  { s1 with mem := { s1.mem with affine := s1.mem.affine.filter fun g => g.2 != n } }

/-- The slots whose affine groups hold any of the host's tensors. -/
def State.hostHits (s : State) (host : List (Nat × Nat)) : List Nat :=
  ((s.mem.affine.filter fun g => host.any (groupMeets g.1)).map Prod.snd).dedup

/-- Groups in which host tensors lie go back to ALL mode; the slots that they served are bound anew at their next RUN_STEP (R193). -/
def State.returnHits (s : State) (host : List (Nat × Nat)) : State :=
  (s.hostHits host).foldl (fun s m => (s.unbind m).modSlot m fun y => { y with rebind := true }) s

/-- Between steps, the regions that hold master copies and constants of loaded programs are in ALL mode (R193). -/
def State.clearHost (s : State) : State :=
  if s.stepRunning then s
  else s.slots.foldl (fun s x => match x.prog with | some p => s.returnHits (p.hostRuns []) | none => s) s

/-- The binding at the first RUN_STEP after a PLACE_HINT (R193, R194; log 10). A group in which a host tensor of the step lies goes back to ALL
mode first. -/
def State.bindAffinity (s : State) (n : Nat) (p : Program) (mbs : List MicroBatch) : State :=
  let host := p.hostRuns mbs
  let s1 := s.returnHits host
  if !(s1.slot n).rebind then s1
  else
    let s2 := (s1.unbind n).modSlot n fun y => { y with rebind := false }
    let moves := p.moves (s2.slot n).hints
    let l := s2.freeGroups host
    match l[Config.placeChoice s2.freeCtr % l.length]? with
    | none => s2
    | some g =>
      if moves.isEmpty then s2
      else ({ s2 with freeCtr := s2.freeCtr + 1, mem := { s2.mem with affine := s2.mem.affine ++ [(g, n)] } }).relocate n
        (placeMoves g [0, 0, 0, 0] moves)

/-! ### Acceptance -/

/-- The cadence of a step at its acceptance, and whether it was pending (R274, R276). -/
def Belfry.cadenceFor (b : Belfry) (step : Quad) : Nat × Bool :=
  match b.pending with
  | some (c, e) => if e.toNat ≤ step.toNat then (c, true) else (b.rampTarget, false)
  | none => (b.rampTarget, false)

/-- The rungs in which a step begins: those agreed at the last CHECK of its slot (R169, R219). -/
def State.startRungs (s : State) (n : Nat) (p : Program) : List LayerRung :=
  let x := s.slot n
  let late := (s.lateIdx.bind fun i => s.steps[i]?).bind fun q => if q.slot = n then some q.nextRungs else none
  (List.range p.nLayers).map fun l =>
    let (f, g) := match late with
      | some r => r.getD l (0, 0)
      | none => match x.trackers[l]? with
        | some k => (k.rf, k.rg)
        | none => (0, 0)
    ⟨f, g, f, g, false, false, false, false⟩

/-- The step as accepted. -/
def State.newStep (s : State) (x : Cmd) (p : Program) : Step :=
  let b := x.payload
  let q := Step.ofPayload b x.mbx s.power.time.v
  let y := s.slot q.slot
  { q with
    eta := if q.eta = 0xFFFFFFFF then y.eta.getD 0 else q.eta
    setT := if bitOf (fieldLe b 1 1) 1 then some (fieldLe b 0x18 4) else none
    hints := y.hints
    rungs := s.startRungs q.slot p
    sums := p.gradWeights.map fun d => (⟨d, match p.desc d with
      | some e => List.replicate (prod (p.maxShape e)) 0
      | none => [], 0, false⟩ : StepGrad)
    losses := q.mbs.map fun _ => none
    cold := y.trackers.any fun k => decide (0 < k.coldLeft) }

/-- The cadence of an accepted step (R326): refused at once above a HOLD_MAX in force; else the ramp begins, and the check of
R276 is tried. -/
def State.startCadence (s : State) (i : Nat) : State :=
  match s.steps[i]? with
  | none => s
  | some p =>
    let (c, due) := s.belfry.cadenceFor p.number
    let s1 := s.modStep i fun q => { q with cadence := c }
    if s.belfry.hold && decide (s.belfry.holdMax < c) then s1.refuseBarrier i
    else
      let up := decide (c > s.belfry.cadence)
      let s2 := { s1 with belfry := { s1.belfry with pending := if due then none else s1.belfry.pending } }
      let s3 := s2.startRamp c
      (if due && !up then s3.sendBeacon else s3).cadenceCheck

/-- The placer takes back the towers that it has put to sleep, at the acceptance of a step with no other in flight (R28, R428). -/
def State.wake (s : State) (cells : List MarchBit) : State :=
  if s.stepRunning then s
  else (List.range 324).foldl (fun s t =>
    if (s.tower t).state = 1 then
      let fs := marchRun 0 (towerCells t (cells.filter fun c => c.cell.unit == t))
      (s.readmit t fs).readmitEvent t (repairs s.mem.repairs fs)
    else s) s

/-- RUN_STEP at stage 6 of R363. -/
def cmdRunStep (x : Cmd) (s : State) : State :=
  match s.runOk x.payload with
  | none => s.refuseRun x stBAD_PARAM
  | some (p, _) =>
    let st := s.newStep x p
    let n := st.slot
    let late := s.lateIdx.any fun i => (s.steps[i]?).any fun q => q.slot == n
    let s1 := (if s.stepRunning then s else s.bindAffinity n p st.mbs).wake x.env.fails
    let s2 := s1.modSlot n fun y => { y with
      eta := some st.eta
      lastStep := some st.number
      t := match st.setT with | some t => if late then y.t else t | none => y.t }
    let s3 := { s2 with
      belfry := { s2.belfry with lastStep := some st.number }
      steps := s2.steps ++ [if late then st else { st with setT := none }] }
    s3.startCadence (s3.steps.length - 1)

/-! ### The barrier -/

/-- May the regions that a step's host tensors lie in be in ALL mode by FWD(0): the step is the only one in flight, or none of them is
affine (R193; log 10)? -/
def State.regionsClear (s : State) (p : Step) : Bool :=
  decide (s.steps.length ≤ 1) || (match (s.slot p.slot).prog with
    | some g => (s.hostHits (g.hostRuns p.mbs)).isEmpty
    | none => true)

/-- Does every condition of the step barrier hold (R193, R326)? -/
def State.barrierPasses (s : State) (p : Step) : Bool :=
  let b := s.belfry
  s.regionsClear p && p.checked && !b.ramping && !b.settling && b.cadence == p.cadence && decide (p.cadence ≤ b.holdMax)
    && s.peerLinks.all fun l => match s.freshBeacon l with
      | some q => !q.ramping && q.cadence == p.cadence && decide (p.cadence ≤ q.holdMax)
      | none => false

/-- The binding of a step that was accepted while another ran, when it is the only one at its FWD(0) (R193, R194; log 10). -/
def State.bindLate (s : State) (p : Step) : State :=
  match (s.slot p.slot).prog with
  | some g => if s.steps.length ≤ 1 then s.bindAffinity p.slot g p.mbs else s
  | none => s

/-- FWD(0) begins: the sample of R394, HINT_IGNORED of each hint without a tower (R74), the first micro-batch. -/
def State.beginForward (s : State) (i : Nat) (p : Step) : State :=
  let s0 := s.bindLate p
  let s1 := s0.modStep i fun q => { q with sample := some s0.sampleNow, stage := .running }
  let s2 := (ignoredHints p.hints s.serving).foldl (fun s r => s.event p.src 0x0106 [(2, r)]) s1
  s2.tryForward i

/-- STEP_BARRIER. -/
def State.stepBarrier (s : State) : State :=
  match s.barrierIdx with
  | none => s
  | some i => match s.steps[i]? with
    | none => s
    | some p => if s.barrierPasses p then s.beginForward i p else s

def execStepBarrier (s : State) : Out' := .next (s.whenOn State.stepBarrier)

/-- STEP_BARRIER_TIMEOUT (R327). -/
def State.barrierTimeout (s : State) : State :=
  match s.barrierIdx with
  | none => s
  | some i => s.refuseBarrier i

def execStepBarrierTimeout (s : State) : Out' := .next (s.whenOn State.barrierTimeout)

end Sys2Proof.Machine
end

