-- ==== Sys2Proof/Machine/Judge.lean ====
section
/-!
DEFINITION. How Beryl judges a command before its payload (R361 to R363, R365, R379, R401, Tables 14.1 and 14.19), and how it turns one
away (R362); the commands in flight on other mailboxes (R350), how each of them runs and ends.
-/
namespace Sys2Proof.Machine

open Sys2Proof

/-! ### Opcodes -/

/-- The payload length of a ROM command (chapter 14); none for an opcode that no ROM command has (R361). -/
def romLen (op u : Nat) : Option Nat :=
  match op with
  | 0x0001 => some 0
  | 0x0002 => some 0
  | 0x0003 => some 8
  | 0x0101 => some 16
  | 0x0102 => some 16
  | 0x0103 => some 4
  | 0x0104 => some 16
  | 0x0105 => some 16
  | 0x0106 => some 16
  | 0x0107 => some 16
  | 0x0108 => some 16
  | 0x0201 => some 16
  | 0x0202 => some (32 + 24 * u)
  | 0x0203 => some 8
  | 0x0204 => some 4
  | 0x0301 => some 8
  | 0x0302 => some 4
  | 0x0303 => some 4
  | 0x0304 => some 24
  | 0x0401 => some 0
  | 0x0402 => some 0
  | 0x0501 => some 32
  | 0x0502 => some 16
  | 0x0503 => some 16
  | 0x0504 => some 16
  | 0x0601 => some 4
  | 0x0602 => some 4
  | _ => none

/-- The completion length of a ROM command that refuses (R362). -/
def doneLen (op kind : Nat) : Nat :=
  match op with
  | 0x0001 => 48
  | 0x0002 => 72
  | 0x0003 => 32
  | 0x0101 => 4
  | 0x0103 => 4
  | 0x0104 => 8
  | 0x0105 => 16
  | 0x0107 => 16
  | 0x0301 => 8
  | 0x0302 => 8
  | 0x0303 => 4
  | 0x0304 => 16
  | 0x0401 => 72
  | 0x0501 => 768
  | 0x0504 => 16
  | 0x0601 => 8
  | 0x0602 => unitLen kind
  | _ => 0

/-! ### Judgement -/

def isExt (op : Nat) : Bool := decide (0x0F00 ≤ op) && decide (op ≤ 0x0FFF)

/-- The flags of an opcode that the loaded extension defines (R382). -/
def State.extFlags (s : State) (op : Nat) : Option Nat :=
  if s.ext.loaded && isExt op then (s.ext.cmds.find? fun c => c.1 == op).map Prod.snd else none

/-- Stage 1 of R363: the opcode, its mailbox, its length (R351, R361, R362). -/
def State.stage1 (s : State) (q : Ask) : Option Nat :=
  match romLen q.opcode (fieldLe q.payload 2 1) with
  | some n =>
    if q.adm ≠ 0 ∧ (q.opcode / 256 = 5 ∨ q.opcode / 256 = 6) then some stBAD_OPCODE
    else if q.len > 4064 ∨ q.len ≠ n then some stBAD_PARAM else none
  | none =>
    match s.extFlags q.opcode with
    | some f =>
      if q.adm ≠ 0 ∧ f % 2 = 0 then some stBAD_OPCODE
      else if q.len > 4064 then some stBAD_PARAM else none
    | none => some stBAD_OPCODE

/-- Stage 2: the life-cycle and lock state (R379, R401, R410, Table 11.6, Table 16.3). -/
def State.locked (s : State) (q : Ask) : Bool :=
  let op := q.opcode
  let act := fieldLe q.payload 0 1
  let fuseRead := op == 0x0503 && act == 0
  let st := s.fuses.state
  (s.keep.advanced && !([0x0001, 0x0003, 0x0602].contains op || fuseRead))
    || (st == 4 && !([0x0001, 0x0002, 0x0003, 0x0401, 0x0602].contains op || fuseRead))
    || (op == 0x0501 && (st == 0 || st == 4))
    || (op == 0x0503 && act == 1 && st == 3)
    || (decide (2 ≤ s.keep.state) && ([0x0501, 0x0502, 0x0504].contains op || (op == 0x0503 && act != 0)))

/-- The commands with an image of a slot: LOAD_PLAN, LOAD_COEFF, LOAD_TRACKERS, SAVE_TRACKERS. -/
def savesSlot (op : Nat) : Bool := decide (0x0104 ≤ op) && decide (op ≤ 0x0107)

/-- Program slots that a command loads or saves: LOAD_PROGRAM, and the images of a slot (R388). -/
def loadsSlot (op : Nat) : Bool := op == 0x0201 || savesSlot op

/-- Does a SAVE_TRACKERS in flight write to a page (R388)? -/
def State.savesTo (s : State) (page : Nat) (j : Ask) : Bool :=
  j.opcode == 0x0107 && (match (s.slot (fieldLe j.payload 0 1)).plan with
    | some pl => overlaps (fieldLe j.payload 8 8) (64 + 320 * pl.layers.length) (65536 * page) 65536
    | none => false)

/-- A conflict with a command in flight (Tables 14.19 and 17.9). -/
def State.meets (s : State) (q : Ask) : Bool :=
  let op := q.opcode
  let n := fieldLe q.payload 0 1
  let unit := fieldLe q.payload 2 2
  if loadsSlot op then
    s.jobs.any fun j => loadsSlot j.1.opcode && fieldLe j.1.payload 0 1 == n && (op == 0x0201 || j.1.opcode == 0x0201)
  else if op = 0x0301 then s.jobs.any fun j => s.savesTo (fieldLe q.payload 0 8) j.1
  else if op = 0x0503 then n == 2 && s.marchTowers.contains unit
  else op == 0x0601 && n == 0 && s.marchTowers.contains unit

/-- Stage 3: a step, an extension command, or another command in flight (Tables 14.1 and 14.19, R208, R372, R384). -/
def State.busy (s : State) (q : Ask) : Bool := s.meets q ||
  let op := q.opcode
  if [0x0101, 0x0301, 0x0302, 0x0304, 0x0502, 0x0601].contains op then s.stepRunning
  else if op = 0x0503 then fieldLe q.payload 0 1 != 0 && s.stepRunning
  else if [0x0104, 0x0105, 0x0106, 0x0201].contains op then s.slotRunning (fieldLe q.payload 0 1)
  else if op = 0x0202 then s.earlyIdx.isSome
  else isExt op && s.ext.inFlight.isSome

/-- Stages 1 to 5 of R363 in order: the status that refuses a command before its payload is judged. -/
def State.judge' (s : State) (q : Ask) : Option Nat :=
  match s.stage1 q with
  | some st => some st
  | none =>
    if s.locked q then some stLOCKED
    else if s.busy q then some stBUSY
    else if (q.opcode = 0x0201 ∨ q.opcode = 0x0202) ∧ s.fabric.topo.isNone then some stNO_TOPOLOGY
    else if q.opcode = 0x0202 then
      let x := s.slot (fieldLe q.payload 0 1)
      if x.stormHalt then some stPRECISION_STORM else if x.faultHalt then some stBUS_ERROR else none
    else none

/-- A command refused before its payload (R362): LOAD_PROGRAM, RUN_STEP and FUSE_LEDGER write their data also on failure, every other ROM
command zeros of its completion length; an opcode that no ROM command has, and an extension command, has none. -/
def State.turnAway (s : State) (q : Ask) (status : Nat) : State :=
  let x : Cmd := ⟨q.mbx, q.payload, q.env⟩
  match q.opcode with
  | 0x0201 => s.complete q.mbx status loadRefused
  | 0x0202 => s.refuseRun x status
  | 0x0503 => s.ledgerEnd x status
  | op => s.refuse x status (doneLen op (fieldLe q.payload 0 1))

/-! ### Running -/

/-- The effect of a ROM command that has been admitted. -/
def State.romBody (q : Ask) (s : State) : State :=
  let x : Cmd := ⟨q.mbx, q.payload, q.env⟩
  match q.opcode with
  | 0x0001 => cmdIdentify x s
  | 0x0002 => cmdGetCaps x s
  | 0x0003 => cmdReadLog x s
  | 0x0101 => cmdSetTopology x s
  | 0x0102 => cmdSetCadence x s
  | 0x0103 => cmdSetPowerCap x s
  | 0x0104 => cmdLoadPlan x s
  | 0x0105 => cmdLoadCoeff x s
  | 0x0106 => cmdLoadTrackers x s
  | 0x0107 => cmdSaveTrackers x s
  | 0x0108 => cmdPlaceHint x s
  | 0x0201 => (cmdLoadProgram x s).clearHost
  | 0x0202 => cmdRunStep x s
  | 0x0203 => cmdSetStepSize x s
  | 0x0204 => cmdAbortStep x s
  | 0x0301 => cmdRetirePage x s
  | 0x0302 => cmdRetireBank x s
  | 0x0303 => cmdScrubCtrl x s
  | 0x0304 => cmdMarchTest x s
  | 0x0401 => cmdBelfryStatus x s
  | 0x0402 => cmdClearDivergence x s
  | 0x0501 => cmdAttest x s
  | 0x0502 => cmdLifecycleAdvance x s
  | 0x0503 => cmdFuseLedger x s
  | 0x0504 => cmdLoadExtension x s
  | 0x0601 => cmdResetUnit x s
  | 0x0602 => cmdUnitStatus x s
  | _ => s

/-- A ROM command that has been admitted runs; the device writes that it leaves waiting are its mailbox's (R338). -/
def State.runRom (s : State) (q : Ask) : State :=
  let t := State.romBody q { s with mem := { s.mem with writer := q.adm } }
  { t with mem := { t.mem with writer := s.mem.writer } }

/-! ### Commands in flight (R350; log 80) -/

/-- Commands that meet no other one: what they do, another in flight neither sees nor changes. -/
def aloneOps : List Nat := [0x0001, 0x0002, 0x0003, 0x0102, 0x0103, 0x0204, 0x0303, 0x0401, 0x0402, 0x0501, 0x0602]

/-- Commands of one program slot. -/
def slotOp (op : Nat) : Bool := loadsSlot op || op == 0x0108 || op == 0x0203

/-- May two commands end in either order? -/
def apart (a b : Ask) : Bool :=
  aloneOps.contains a.opcode || aloneOps.contains b.opcode
    || (slotOp a.opcode && slotOp b.opcode && fieldLe a.payload 0 1 != fieldLe b.payload 0 1)

/-- Does a command read an image in host memory (R339, R364)? -/
def readsHost (q : Ask) : Bool :=
  let at' : Option Nat :=
    if [0x0101, 0x0104, 0x0105, 0x0106, 0x0201, 0x0502].contains q.opcode then some 8
    else if q.opcode = 0x0503 then (if fieldLe q.payload 0 1 = 0 then none else some 8)
    else if q.opcode = 0x0504 then some 0 else none
  match at' with
  | some o => decide (2 ^ 63 ≤ fieldLe q.payload o 8)
  | none => false

/-- Does the port carry what a command reads through it: CXL.cache requests and their data (R339, R413)? -/
def State.portFor (s : State) (q : Ask) : Bool := !readsHost q || (s.ideUp 2 && s.ideUp 3)

/-- A command that writes fuses. -/
def writesFuses (q : Ask) : Bool := q.opcode == 0x0502 || (q.opcode == 0x0503 && fieldLe q.payload 0 1 != 0)

/-- A command joins those in flight: a march takes its tower out of service at once (R376). -/
def State.addJob (s : State) (q : Ask) : State :=
  let m := March.of q.payload
  let s1 := if q.opcode = 0x0304 ∧ m.target = 0 ∧ s.marchAllowed q.payload then s.marchSleep m.unit else s
  { s1 with jobs := s1.jobs ++ [(q, false)] }

/-- A fuse write begins, with its authorisation read; or the command ends before it (R404, R406). -/
def State.beginWrite (s : State) (q : Ask) : State :=
  let x : Cmd := ⟨q.mbx, q.payload, q.env⟩
  match fuseJudge q.opcode x s with
  | (.inl im, s1) => { s1 with jobs := s1.jobs ++ [({ q with env := { q.env with cache := some im } }, true)] }
  | (.inr st, s1) => if q.opcode = 0x0502 then s1.refuse x st 0 else s1.ledgerEnd x st

/-- A command in flight ends: a fuse write that has begun runs to its end; a RUN_STEP that has waited is judged again; a security command
whose Keep has failed meanwhile is LOCKED (R410, Table 11.6). -/
def State.endOne (s : State) (j : Ask × Bool) : State :=
  if j.2 then s.endWrite j.1
  else if lockable j && decide (2 ≤ s.keep.state) then s.turnAway j.1 stLOCKED
  else if j.1.opcode = 0x0202 then
    match s.judge' j.1 with
    | some st => s.turnAway j.1 st
    | none => s.runRom j.1
  else s.runRom j.1

/-- The commands in flight that can end: none before them in GO order that they depend on, and their image in reach. -/
def State.runnable (s : State) : List Nat :=
  (List.range s.jobs.length).filter fun k => match s.jobs[k]? with
    | some j => (j.2 || s.portFor j.1) && (s.jobs.take k).all fun i => apart i.1 j.1
    | none => false

/-- The command in flight at a position ends. -/
def State.endJob (s : State) (k : Nat) : State :=
  match s.jobs[k]? with
  | some j => ({ s with jobs := s.jobs.eraseIdx k }).endOne j
  | none => s

/-- Every command in flight that can end does, in GO order; `n` bounds them. -/
def State.endReady : Nat → State → State
  | 0, s => s
  | n + 1, s => match s.runnable.head? with
    | none => s
    | some k => State.endReady n (s.endJob k)

/-- One command in flight ends, by a free value which, or none (R350). -/
def State.endAny (s : State) : State :=
  match s.runnable with
  | [] => s
  | l =>
    let (c, s1) := s.free (l.length + 1)
    match l[c]? with
    | some k => s1.endJob k
    | none => s1

/-- A ROM command that Beryl has taken: after those that it depends on; at once, or in flight until later. -/
def State.enter (s : State) (q : Ask) : State :=
  if !(s.jobs.all fun j => apart j.1 q) || !s.portFor q then s.addJob q
  else match q.env.flight with
    | .now => s.runRom q
    | .later => if q.opcode = 0x0202 ∨ q.opcode = 0x0204 then s.runRom q else s.addJob q
    | .begun => if writesFuses q then s.beginWrite q else s.addJob q

/-- A ROM command, judged and taken. What it depends on ends first, and then it is judged anew (R350, R363), unless the end of a fuse write
was a loss of power that took its mailbox (R407). -/
def State.takeRom (s : State) (q : Ask) : State :=
  match s.judge' q with
  | some st => s.turnAway q st
  | none =>
    if s.jobs.all fun j => apart j.1 q then s.enter q
    else
      let s1 := s.endReady s.jobs.length
      if !(s1.mbx q.adm).own then s1
      else match s1.judge' q with
        | some st => s1.turnAway q st
        | none => s1.enter q

/-- A command that a mailbox holds fails with BUS_ERROR, its completion written as it is on failure (R362, R373, Table 11.6). -/
def State.busFail (s : State) (q : Ask) : State := s.turnAway q stBUS_ERROR

/-- The command that a mailbox holds, as Beryl takes it. -/
def State.askOf (s : State) (n : Nat) (env : Env) : Ask :=
  let m := s.mbx n
  ⟨m.opcode.toNat, n, n, m.len, memRead m.payload 0 (min m.len 4064), env⟩

end Sys2Proof.Machine
end

