-- ==== Sys2Proof/Machine/Reset.lean ====
section
/-!
DEFINITION. What stops a step from outside it: function level reset (R420) and the SRAM scrubbers (R298, R299, Table 11.6).
-/
namespace Sys2Proof.Machine

open Sys2Proof

/-! ### Steps that are lost -/

/-- Layers whose UPDATE has begun and not ended. -/
def Step.inUpdate (st : Step) : List Nat :=
  (st.updBegun.filter fun q => !st.updDone.contains q.1 && !st.updFault.contains q.1).map Prod.fst

/-- The layers that the step at a position is updating are left undefined (R228). -/
def State.scrambleStep (s : State) (i : Nat) : State :=
  match s.run i with
  | none => s
  | some r => r.st.inUpdate.foldl (fun s l => s.scrambleLayer r.x r.p l) s

/-- Every step in flight stops at once without completion; its work leaves the towers. -/
def State.dropSteps (s : State) : State :=
  let s1 := (List.range s.steps.length).foldl State.scrambleStep s
  ({ s1 with steps := [] }).dropItems fun _ => true

/-! ### Function level reset -/

/-- A march that is stopped leaves its Onyx bank undefined (R431). -/
def State.stopMarch (s : State) (q : Ask) : State :=
  let m := March.of q.payload
  if q.opcode = 0x0304 ∧ m.target = 2 ∧ s.marchAllowed q.payload then s.scrambleBank ⟨m.unit, m.channel, m.bank⟩ else s

/-- Marches in flight stop. -/
def State.stopMarches (s : State) : State := s.jobs.foldl (fun s j => s.stopMarch j.1) s

/-- What a function level reset takes to its power-up state, once no fuse write runs (R420). Regions of firmware tensors stay as they are
set until they hold no data (R193). -/
def State.flrClear (s : State) : State :=
  let s1 := s.stopMarches.dropSteps
  ({ s1 with
    power := { s1.power with berylStop := false }
    mailboxes := List.replicate 4 Mailbox.reset
    goOrder := []
    jobs := []
    late := []
    ints := Ints.reset
    evt := { EvtLog.reset with seq := s1.evt.seq }
    belfry := { s1.belfry with coolant := 3 }
    towers := s1.towers.map fun (t : Tower) => { t with entries := [] }
    fabric := { s1.fabric with
      topo := none, noCredit := [], resent := [], writing := [], outbox := []
      links := s1.fabric.links.map fun (l : Link) => { l with mismatch := false, named := none, relay := none } }
    slots := List.replicate 4 Slot.reset
    ext := Extension.reset } : State).releaseGroups

/-- FUNCTION_LEVEL_RESET (R420): a fuse write that has begun runs to its end first; one that loses power leaves nothing to reset
(R407, R431). -/
def State.flr (s : State) : State :=
  if s.jobs.any (·.2) then
    let s1 := s.endBegun
    if s1.power.powered && s1.power.linkUp then s1.flrClear else s1
  else s.flrClear

def execFunctionLevelReset (s : State) : Out' := .next (s.whenIo State.flr)

/-! ### SRAM scrub -/

/-- The unit of an SRAM place in an event: a tower, a stack from 0x8000, the I/O die. -/
def SramPlaceUnit (p : SramPlace) : Nat :=
  match p with
  | .tower t _ => t
  | .engine k => 0x8000 + k
  | _ => 0xFFFF

/-- The item of a step's work that a tower is at, when its scrubber finds a word (Table 11.6). -/
def State.itemAt (s : State) (t : Nat) : Option Item := ((s.tower t).started.head?).map Started.item

/-- An uncorrectable word in the buffers of an update engine: R228 for the first layer in UPDATE. -/
def State.engineSram (s : State) (k : Nat) : State :=
  s.onLate fun s i r =>
    match r.st.inUpdate with
    | [] => s
    | l :: _ => s.updateFault i r l k

/-- The step of a mailbox fails with BUS_ERROR, unless its update has been decided (Tables 11.6 and 14.2). -/
def State.stepBus (s : State) (i : Nat) : State :=
  match (s.steps[i]?).map Step.decided with
  | some none => s.failStep i stBUS_ERROR
  | some (some (false, _)) => s.modStep i fun q => { q with decided := some (false, stBUS_ERROR) }
  | _ => s

/-- The command of a mailbox that Beryl has taken and not ended fails with BUS_ERROR; a fuse write that has begun runs on (R406). -/
def State.jobBus (s : State) (j : Ask × Bool) : State :=
  if j.2 then s
  else (({ s with jobs := s.jobs.filter fun k => k.1.mbx != j.1.mbx }).stopMarch j.1).busFail j.1

/-- The completion that waits for the writes of a command of a mailbox becomes BUS_ERROR, but that of a step (Table 14.2). -/
def State.lateBus (s : State) (n : Nat) : State :=
  { s with late := s.late.map fun (l : Late) =>
      if l.mbx = n ∧ (s.mbx n).opcode ≠ 0x0202 then { l with status := stBUS_ERROR } else l }

/-- An uncorrectable word in a host-interface buffer: the command in flight of its mailbox fails with BUS_ERROR. -/
def State.hostSram (s : State) (n : Nat) : State :=
  if !(s.mbx n).own then s
  else if s.late.any fun (l : Late) => l.mbx == n then s.lateBus n
  else
    match s.steps.findIdx? fun p => p.mbx == n with
    | some i => s.stepBus i
    | none =>
      match s.jobs.find? fun j => j.1.mbx == n with
      | some j => s.jobBus j
      | none =>
        let s1 := if s.ext.inFlight = some n then { s with ext := { s.ext with inFlight := none } } else s
        ({ s1 with goOrder := s1.goOrder.filter fun m => m != n }).busFail (s1.askOf n Env.quiet)

/-- Every mailbox command completes with BUS_ERROR and what it writes on failure, steps are lost, SB_ALERT tells (R362, R373, Table 11.6,
Table 18.4). -/
def State.berylHalt (s : State) : State :=
  let s1 := (List.range s.steps.length).foldl State.scrambleStep s.stopMarches
  let s2 := s1.steps.foldl (fun s _ => s.finishStep 0 stBUS_ERROR false) s1
  let s3 := { s2 with
    power := { s2.power with smbAlert := s2.power.smbAlert ||| 16 }
    goOrder := []
    jobs := []
    late := []
    ext := { s2.ext with inFlight := none } }
  let s4 := s1.late.foldl (fun s l => s.deliver l.mbx stBUS_ERROR l.data) s3
  let s5 := (List.range 4).foldl (fun s n => if (s.mbx n).own then s.busFail (s.askOf n Env.quiet) else s) s4
  { s5 with power := { s5.power with berylStop := true } }

/-- Beryl stops; fuse writes that have begun run to their ends first (log 80). -/
def State.stopBeryl (s : State) : State :=
  if s.jobs.any (·.2) then
    let s1 := s.endBegun
    if s1.power.powered && s1.power.linkUp then s1.berylHalt else s1
  else s.berylHalt

/-- Does the SRAM word exist (Table 11.5)? -/
def sramWordOk (place : SramPlace) (bank word : Nat) : Bool :=
  match place with
  | .tower t scratch => decide (bank < sramBanks t scratch) && decide (word < sramWords t scratch)
  | .engine _ => true
  | _ => decide (bank < sramBanks 0xFFFF false) && decide (word < sramWords 0xFFFF false)

/-- What an uncorrectable word that a scrubber finds does where it lies (Table 11.6). -/
def State.scrubFound (s : State) (place : SramPlace) (bank word : Nat) : State :=
  let unit := SramPlaceUnit place
  let src : EvSrc := match s.earlyIdx.bind fun i => s.steps[i]? with | some p => p.src | none => .module
  match place with
  | .tower t _ => s.towerWord t rqScrub bank word (s.itemAt t)
  | .engine k => (s.sramEvent (.stack k) unit bank word rqScrub []).engineSram k
  | .staging => (s.sramEvent src unit bank word rqScrub []).failEarly stBUS_ERROR
  | .hostBuf n => (s.sramEvent .module unit bank word rqScrub []).hostSram n
  | .working => (s.sramEvent .module unit bank word rqScrub []).stopBeryl
  | .keep =>
    let s1 := s.sramEvent .module unit bank word rqScrub []
    { s1 with keep := { s1.keep with state := 3 } }

/-- SRAM_SCRUB of one word with some of its bits flipped (R297 to R299). -/
def State.sramScrub (s : State) (place : SramPlace) (bank word : Nat) (flips : List Nat) : State :=
  if !sramWordOk place bank word then s
  else
    match sramDecode flips with
    | 0 => s
    | 1 => { s with mem := { s.mem with sramCe := s.mem.sramCe + 1 } }
    | _ => s.scrubFound place bank word

def execSramScrub (place : SramPlace) (bank word : Nat) (flips : List Nat) (s : State) : Out' :=
  .next (s.whenOn fun s => s.sramScrub place bank word flips)

end Sys2Proof.Machine
end

