-- ==== Sys2Proof/Machine/Take.lean ====
section
/-!
DEFINITION. How a command passes through a mailbox (R349 to R351) and is judged (R361 to R363, R365, R379, R401), the mailbox
commands, extension commands (R382 to R385), REGISTER_WRITE and the end of a start-up phase (R350, R416 to R418).
-/
namespace Sys2Proof.Machine

open Sys2Proof

/-! ### Extension commands -/

/-- May an extension reach a run of device memory: it exists, and lies in no allocation of a slot with a step in flight (R383)? -/
def State.extMay (s : State) (a len : Nat) : Bool :=
  decide (a + len ≤ devEnd) && (List.range 4).all fun n => !s.slotRunning n || !(s.slot n).allocs.any fun x => x.hits a len

/-- May an extension read a register: identity, statistics, memory and ECC, Belfry, tower status (R383)? -/
def extReads (a : Nat) : Bool :=
  let b := baseAddr a
  definedAt a && ([0x0, 0x3, 0x4, 0x5].contains (b / 0x10000) || (towerOf b).isSome)

/-- The status of an extension command: a code of Table 14.2, which has no other (R366; log 80). -/
def extStatus (st : Nat) : Nat :=
  if [stOK, stBUSY, stBAD_OPCODE, stBAD_PARAM, stNO_RESOURCE, stNO_TOPOLOGY, stSCALE_SKEW, stNORM_JUMP, stABORTED, stSTEP_SKEW,
      stNONFINITE_SKIP, stPEER_FAILED, stBUS_ERROR, stPRECISION_STORM, stCADENCE_HOLD, stLOCKED, stAUTH_FAIL, stLEDGER_FULL].contains st
  then st else stBUS_ERROR

/-- The extension command in flight completes (R385); with `unload` its extension goes. -/
def State.endExt (s : State) (n status : Nat) (data : List Byte) (unload : Bool) : State :=
  let s1 := ({ s with ext := { s.ext with inFlight := none } }).complete n status (data.take 4064)
  if unload then { s1 with ext := Extension.reset } else s1

/-- The acts of an extension command, one after another, until it finishes or is stopped (R383, R385). -/
def State.runActs (n : Nat) : List ExtAct → State → State
  | [], s => s
  | a :: as, s =>
    if s.ext.inFlight ≠ some n then s
    else
      let bad := s.endExt n stBUS_ERROR [] true
      match a with
      | .readMem addr len errs =>
        if s.extMay addr len then State.runActs n as (s.readDev rqBeryl noStep errs addr len).2 else bad
      | .writeMem addr bytes => if s.extMay addr bytes.length then State.runActs n as (s.writeIo addr bytes) else bad
      | .readReg addr => if extReads addr then State.runActs n as (s.readWord addr).2 else bad
      | .rom op payload cache errs fails fuse =>
        if isExt op then State.runActs n as s
        else State.runActs n as (s.takeRom ⟨op, 4, n, payload.length, payload, ⟨cache, errs, fails, fuse, [], [], [], none, .now⟩⟩)
      | .forbidden => bad
      | .finish status data => s.endExt n (extStatus status) data false

/-- An extension command that has been admitted: it holds its mailbox until it finishes. Its device writes are its mailbox's (R338). -/
def State.runExt (s : State) (q : Ask) : State :=
  let t := State.runActs q.mbx q.env.acts { s with ext := { s.ext with inFlight := some q.mbx }, mem := { s.mem with writer := q.mbx } }
  { t with mem := { t.mem with writer := 4 } }

/-- EXTENSION_TIMEOUT (R385): the command is stopped, the extension stays. -/
def execExtensionTimeout (s : State) : Out' :=
  .next (s.whenOn fun s => match s.ext.inFlight with
    | some n => s.endExt n stABORTED [] false
    | none => s)

/-! ### Mailboxes -/

/-- Beryl takes the command of a mailbox; a word of the host-interface buffer that reads as uncorrectable fails it (Table 11.6). -/
def State.take (s : State) (n : Nat) (env : Env) : State :=
  let q := s.askOf n env
  let op := q.opcode
  match env.buf.filter fun w => sramWordOk (.hostBuf n) w.1 w.2 with
  | some w => (s.sramEvent .module 0xFFFF w.1 w.2 rqHost []).busFail q
  | none =>
    if s.power.halted && !([0x0001, 0x0003, 0x0602].contains op) then s.busFail q
    else if isExt op then
      match s.judge' q with
      | some st => s.turnAway q st
      | none => s.runExt q
    else s.takeRom q

/-- A GO write (R349, R350, R418): with OWN 1 it is discarded and sets CLOBBER; before Ready it waits; a stopped Beryl gives
BUS_ERROR. -/
def State.go (s : State) (n : Nat) (env : Env) : State :=
  let m := s.mbx n
  if m.own then { s with mailboxes := updAt s.mailboxes n fun m => { m with clobber := true } }
  else
    let s1 := { s with mailboxes := updAt s.mailboxes n fun m => { m with own := true, done := false } }
    if s.power.berylStop then s1.busFail (s1.askOf n env)
    else if s.power.ready || s.power.halted then s1.take n env
    else { s1 with goOrder := s1.goOrder ++ [n] }

/-- Steps 2 and 3 of R349 by the host. In SCRAPPED each write of mailboxes 1 to 3 is refused and counted, MBX_CTRL last (R346,
R402). -/
def State.submit (s : State) (c : Sub) (op : Nat) : State :=
  let n := c.mbx
  if n ≥ 4 then s
  else if s.forbids (0x10000 + 0x1000 * n) then
    { s with keep := { s.keep with
      violCount := s.keep.violCount + BitVec.ofNat 32 (ceilDiv c.payload.length 4 + 4)
      violAddr := BitVec.ofNat 26 (0x10000 + 0x1000 * n) } }
  else
    let s1 := if (s.mbx n).own then s
      else { s with mailboxes := updAt s.mailboxes n fun m => { m with
        payload := memWrite m.payload 0 (c.payload.take 4064), opcode := BitVec.ofNat 16 op, len := c.len % 4096, tag := c.tag } }
    s1.go n c.env

/-- A mailbox command of the table: its submission, and its taking by Beryl. -/
def State.command (s : State) (c : Sub) (op : Nat) : State := s.whenIo fun s => s.submit c op

def execIdentify (c : Sub) (s : State) : Out' := .next (s.command c 0x0001)
def execGetCaps (c : Sub) (s : State) : Out' := .next (s.command c 0x0002)
def execReadLog (c : Sub) (s : State) : Out' := .next (s.command c 0x0003)
def execSetTopology (c : Sub) (s : State) : Out' := .next (s.command c 0x0101)
def execSetCadence (c : Sub) (s : State) : Out' := .next (s.command c 0x0102)
def execSetPowerCap (c : Sub) (s : State) : Out' := .next (s.command c 0x0103)
def execLoadPlan (c : Sub) (s : State) : Out' := .next (s.command c 0x0104)
def execLoadCoeff (c : Sub) (s : State) : Out' := .next (s.command c 0x0105)
def execLoadTrackers (c : Sub) (s : State) : Out' := .next (s.command c 0x0106)
def execSaveTrackers (c : Sub) (s : State) : Out' := .next (s.command c 0x0107)
def execPlaceHint (c : Sub) (s : State) : Out' := .next (s.command c 0x0108)
def execLoadProgram (c : Sub) (s : State) : Out' := .next (s.command c 0x0201)
def execRunStep (c : Sub) (s : State) : Out' := .next (s.command c 0x0202)
def execSetStepSize (c : Sub) (s : State) : Out' := .next (s.command c 0x0203)
def execAbortStep (c : Sub) (s : State) : Out' := .next (s.command c 0x0204)
def execRetirePage (c : Sub) (s : State) : Out' := .next (s.command c 0x0301)
def execRetireBank (c : Sub) (s : State) : Out' := .next (s.command c 0x0302)
def execScrubCtrl (c : Sub) (s : State) : Out' := .next (s.command c 0x0303)
def execMarchTest (c : Sub) (s : State) : Out' := .next (s.command c 0x0304)
def execBelfryStatus (c : Sub) (s : State) : Out' := .next (s.command c 0x0401)
def execClearDivergence (c : Sub) (s : State) : Out' := .next (s.command c 0x0402)
def execAttest (c : Sub) (s : State) : Out' := .next (s.command c 0x0501)
def execLifecycleAdvance (c : Sub) (s : State) : Out' := .next (s.command c 0x0502)
def execFuseLedger (c : Sub) (s : State) : Out' := .next (s.command c 0x0503)
def execLoadExtension (c : Sub) (s : State) : Out' := .next (s.command c 0x0504)
def execExtensionCommand (opcode : Nat) (c : Sub) (s : State) : Out' := .next (s.command c opcode)
def execResetUnit (c : Sub) (s : State) : Out' := .next (s.command c 0x0601)
def execUnitStatus (c : Sub) (s : State) : Out' := .next (s.command c 0x0602)

/-- The mailbox that a write at an address starts: GO is 1, through the base or SET address, all bytes enabled (R349, Table 13.3). -/
def goWrite (addr be : Nat) (value : Word) : Option Nat :=
  let b := baseAddr addr
  let al := aliasOf addr
  if definedAt addr && be % 16 == 15 && b / 0x10000 == 1 && b % 0x1000 == 0 && (al == .base || al == .set) && value.getLsbD 0 then
    some (b % 0x10000 / 0x1000)
  else none

/-- REGISTER_WRITE (R342, R343, R345, R346, R349). -/
def State.wordWrite (s : State) (addr : Nat) (value : Word) (be : Nat) (env : Env) : State :=
  let s1 := s.hostStore addr be value.toNat
  match goWrite addr be value with
  | some n => if s.forbids addr || (s.mbx n).own then s1 else s1.go n env
  | none => s1

/-- A write of one location of BAR0, or of two in increasing address order (R343). -/
def State.registerWrite (s : State) (addr : Nat) (value : WData) (be : Nat) (env : Env) : State :=
  let s1 := s.wordWrite addr value.lo (be % 16) env
  match value.hi with
  | some v => s1.wordWrite (addr + 4) v (be / 16 % 16) env
  | none => s1

def execRegisterWrite (addr : Nat) (value : WData) (be : Nat) (env : Env) (s : State) : Out' :=
  .next (s.whenIo fun s => s.registerWrite addr value be env)

/-- RESERVED_ADDRESS_WRITE (R345): discarded, with the unsupported-request message. -/
def execReservedAddressWrite (addr : Nat) (value : WData) (be : Nat) (s : State) : Out' :=
  .next (s.whenIo fun s => s.registerWrite addr value be Env.quiet)

/-- The byte enables of a write of `len` bytes that begins in a word at an address. -/
def accessMask (a : Access) : Nat := (2 ^ a.len - 1) * 2 ^ (a.addr % 4)

/-- FORBIDDEN_REGISTER_ACCESS (R346): a read gives zero, a write is discarded, and each location counts. -/
def execForbiddenRegisterAccess (a : Access) (w : Option WData) (s : State) : Out' :=
  .next (s.whenIo fun s => match w with
    | none => s.readAccess a
    | some v => s.registerWrite (a.addr / 4 * 4) v (accessMask a) Env.quiet)

/-! ### Start-up -/

/-- The commands that waited are taken in GO order (R350, R418); a loss of power meanwhile has discarded the rest. -/
def State.drain : List Nat → List Env → State → State
  | [], _, s => s
  | n :: ns, es, s => State.drain ns es.tail (if (s.mbx n).own then s.take n (es.headD Env.quiet) else s)

/-- STARTUP_PHASE_END (R416). -/
def State.phaseEnd (s : State) (r : PhaseReport) : State :=
  let s1 := match s.power.phase with
    | 1 => s.endPhase1 r
    | 2 => s.endPhase2 r
    | 3 => s.endPhase3 r
    | 4 => s.endPhase4 r
    | 5 => s.endPhase5 r
    | 6 => if r.overrun then s.haltStartup 0xFFFF 1 else s.becomeReady
    | _ => s
  if s1.power.ready || s1.power.halted then State.drain s1.goOrder r.envs { s1 with goOrder := [] } else s1

def execStartupPhaseEnd (r : PhaseReport) (s : State) : Out' :=
  .next (s.whenOn fun s => if s.power.perstLow || s.power.halted || s.power.ready then s else s.phaseEnd r)

/-! ### An idle step -/

/-- What an empty queue leaves to the block: its time base ticks, what it exchanges with other modules goes on, and a command in flight may
end (log 2, log 80). -/
def State.onIdle (s : State) : State := s.idle.endAny

end Sys2Proof.Machine
end

