-- ==== Sys2Proof/Machine/Dispatch.lean ====
section
/-!
DEFINITION. The meaning of each command: one arm per constructor of Instr, each a direct call of its meaning.
-/
namespace Sys2Proof.Machine

open Sys2Proof

def exec (i : Instr) (s : State) : Host.Outcome State Fault Refusal :=
  match i with
  | .identify c => Sys2Proof.Machine.execIdentify c s
  | .getCaps c => Sys2Proof.Machine.execGetCaps c s
  | .readLog c => Sys2Proof.Machine.execReadLog c s
  | .setTopology c => Sys2Proof.Machine.execSetTopology c s
  | .setCadence c => Sys2Proof.Machine.execSetCadence c s
  | .setPowerCap c => Sys2Proof.Machine.execSetPowerCap c s
  | .loadPlan c => Sys2Proof.Machine.execLoadPlan c s
  | .loadCoeff c => Sys2Proof.Machine.execLoadCoeff c s
  | .loadTrackers c => Sys2Proof.Machine.execLoadTrackers c s
  | .saveTrackers c => Sys2Proof.Machine.execSaveTrackers c s
  | .placeHint c => Sys2Proof.Machine.execPlaceHint c s
  | .loadProgram c => Sys2Proof.Machine.execLoadProgram c s
  | .runStep c => Sys2Proof.Machine.execRunStep c s
  | .setStepSize c => Sys2Proof.Machine.execSetStepSize c s
  | .abortStep c => Sys2Proof.Machine.execAbortStep c s
  | .retirePage c => Sys2Proof.Machine.execRetirePage c s
  | .retireBank c => Sys2Proof.Machine.execRetireBank c s
  | .scrubCtrl c => Sys2Proof.Machine.execScrubCtrl c s
  | .marchTest c => Sys2Proof.Machine.execMarchTest c s
  | .belfryStatus c => Sys2Proof.Machine.execBelfryStatus c s
  | .clearDivergence c => Sys2Proof.Machine.execClearDivergence c s
  | .attest c => Sys2Proof.Machine.execAttest c s
  | .lifecycleAdvance c => Sys2Proof.Machine.execLifecycleAdvance c s
  | .fuseLedger c => Sys2Proof.Machine.execFuseLedger c s
  | .loadExtension c => Sys2Proof.Machine.execLoadExtension c s
  | .extensionCommand opcode c => Sys2Proof.Machine.execExtensionCommand opcode c s
  | .extensionTimeout => Sys2Proof.Machine.execExtensionTimeout s
  | .resetUnit c => Sys2Proof.Machine.execResetUnit c s
  | .unitStatus c => Sys2Proof.Machine.execUnitStatus c s
  | .mailboxWriteWhileOwned addr value => Sys2Proof.Machine.execMailboxWriteWhileOwned addr value s
  | .registerWrite addr value be env => Sys2Proof.Machine.execRegisterWrite addr value be env s
  | .counterLowRead addr => Sys2Proof.Machine.execCounterLowRead addr s
  | .jspOutstPeakRead tower => Sys2Proof.Machine.execJspOutstPeakRead tower s
  | .reservedAddressRead addr => Sys2Proof.Machine.execReservedAddressRead addr s
  | .reservedAddressWrite addr value be => Sys2Proof.Machine.execReservedAddressWrite addr value be s
  | .forbiddenRegisterAccess addr write => Sys2Proof.Machine.execForbiddenRegisterAccess addr write s
  | .twrUtilCtrlFreeze tower al value => Sys2Proof.Machine.execTwrUtilCtrlFreeze tower al value s
  | .twrUtilCtrlClear tower al value => Sys2Proof.Machine.execTwrUtilCtrlClear tower al value s
  | .jspCtrlFreeze tower al value => Sys2Proof.Machine.execJspCtrlFreeze tower al value s
  | .jspCtrlClear tower al value => Sys2Proof.Machine.execJspCtrlClear tower al value s
  | .eccDieErase stack al value => Sys2Proof.Machine.execEccDieErase stack al value s
  | .eccBucketCfg al value => Sys2Proof.Machine.execEccBucketCfg al value s
  | .evtCtrlEn al value => Sys2Proof.Machine.execEvtCtrlEn al value s
  | .evtTail al value => Sys2Proof.Machine.execEvtTail al value s
  | .keepTamperClear al value => Sys2Proof.Machine.execKeepTamperClear al value s
  | .msixUnmask vector => Sys2Proof.Machine.execMsixUnmask vector s
  | .smbusWriteWord code value => Sys2Proof.Machine.execSmbusWriteWord code value s
  | .smbusAlertResponse => Sys2Proof.Machine.execSmbusAlertResponse s
  | .hostMemRead addr errs => Sys2Proof.Machine.execHostMemRead addr errs s
  | .hostMemWrite addr bytes => Sys2Proof.Machine.execHostMemWrite addr bytes s
  | .unorderedIoWrite addr bytes => Sys2Proof.Machine.execUnorderedIoWrite addr bytes s
  | .backInvalidationResponse line => Sys2Proof.Machine.execBackInvalidationResponse line s
  | .spdmRequest bytes => Sys2Proof.Machine.execSpdmRequest bytes s
  | .keyExchange bytes => Sys2Proof.Machine.execKeyExchange bytes s
  | .ideKm session cachemem toHost bytes => Sys2Proof.Machine.execIdeKm session cachemem toHost bytes s
  | .cdatRead bytes => Sys2Proof.Machine.execCdatRead bytes s
  | .powerGood => Sys2Proof.Machine.execPowerGood s
  | .startupPhaseEnd r => Sys2Proof.Machine.execStartupPhaseEnd r s
  | .powerLoss => Sys2Proof.Machine.execPowerLoss s
  | .overVoltage => Sys2Proof.Machine.execOverVoltage s
  | .thermalTrip => Sys2Proof.Machine.execThermalTrip s
  | .conventionalReset perst => Sys2Proof.Machine.execConventionalReset perst s
  | .functionLevelReset => Sys2Proof.Machine.execFunctionLevelReset s
  | .supplyWarn mv => Sys2Proof.Machine.execSupplyWarn mv s
  | .supplyResume lowest micros => Sys2Proof.Machine.execSupplyResume lowest micros s
  | .thermalSample readings => Sys2Proof.Machine.execThermalSample readings s
  | .thermalCapStep => Sys2Proof.Machine.execThermalCapStep s
  | .towerActivityReport unit a => Sys2Proof.Machine.execTowerActivityReport unit a s
  | .fastLoopPeriod => Sys2Proof.Machine.execFastLoopPeriod s
  | .slowLoopPeriod => Sys2Proof.Machine.execSlowLoopPeriod s
  | .regulatorSettled => Sys2Proof.Machine.execRegulatorSettled s
  | .droopDetect tower => Sys2Proof.Machine.execDroopDetect tower s
  | .droopWindowEnd tower stillLow => Sys2Proof.Machine.execDroopWindowEnd tower stillLow s
  | .droopCalibration => Sys2Proof.Machine.execDroopCalibration s
  | .ageingMonitorRead counts => Sys2Proof.Machine.execAgeingMonitorRead counts s
  | .cadenceHold cause tower => Sys2Proof.Machine.execCadenceHold cause tower s
  | .holdClear cause => Sys2Proof.Machine.execHoldClear cause s
  | .beaconSend => Sys2Proof.Machine.execBeaconSend s
  | .beaconReceive link b => Sys2Proof.Machine.execBeaconReceive link b s
  | .linkDegraded link replays => Sys2Proof.Machine.execLinkDegraded link replays s
  | .linkDown loss => Sys2Proof.Machine.execLinkDown loss s
  | .linkRetrain link => Sys2Proof.Machine.execLinkRetrain link s
  | .controlRingMessage unit m => Sys2Proof.Machine.execControlRingMessage unit m s
  | .meshTransaction x => Sys2Proof.Machine.execMeshTransaction x s
  | .stepBarrier => Sys2Proof.Machine.execStepBarrier s
  | .stepBarrierTimeout => Sys2Proof.Machine.execStepBarrierTimeout s
  | .workItemStart tower => Sys2Proof.Machine.execWorkItemStart tower s
  | .workItemRetire tower index => Sys2Proof.Machine.execWorkItemRetire tower index s
  | .stealRequest thief victim epoch => Sys2Proof.Machine.execStealRequest thief victim epoch s
  | .stealReply thief => Sys2Proof.Machine.execStealReply thief s
  | .stealTimeout thief => Sys2Proof.Machine.execStealTimeout thief s
  | .jasperResponse tower r => Sys2Proof.Machine.execJasperResponse tower r s
  | .farEndGather tower stream slot errs => Sys2Proof.Machine.execFarEndGather tower stream slot errs s
  | .writeAck tower stream slot => Sys2Proof.Machine.execWriteAck tower stream slot s
  | .layerStop op => Sys2Proof.Machine.execLayerStop op s
  | .layerRestart op => Sys2Proof.Machine.execLayerRestart op s
  | .layerOperationComplete op => Sys2Proof.Machine.execLayerOperationComplete op s
  | .lossComplete mb => Sys2Proof.Machine.execLossComplete mb s
  | .microBatchRetire mb => Sys2Proof.Machine.execMicroBatchRetire mb s
  | .campanileData m f => Sys2Proof.Machine.execCampanileData m f s
  | .doorbell slot m errs => Sys2Proof.Machine.execDoorbell slot m errs s
  | .credit m => Sys2Proof.Machine.execCredit m s
  | .closing m r => Sys2Proof.Machine.execClosing m r s
  | .fabricWriteCompletion rank ok => Sys2Proof.Machine.execFabricWriteCompletion rank ok s
  | .collTimeout seq => Sys2Proof.Machine.execCollTimeout seq s
  | .check => Sys2Proof.Machine.execCheck s
  | .update layer => Sys2Proof.Machine.execUpdate layer s
  | .updatePass layer err => Sys2Proof.Machine.execUpdatePass layer err s
  | .layerCommit layer => Sys2Proof.Machine.execLayerCommit layer s
  | .commit => Sys2Proof.Machine.execCommit s
  | .eventPublish => Sys2Proof.Machine.execEventPublish s
  | .writeBack stack => Sys2Proof.Machine.execWriteBack stack s
  | .patrolScrub stack errs => Sys2Proof.Machine.execPatrolScrub stack errs s
  | .backgroundWindow => Sys2Proof.Machine.execBackgroundWindow s
  | .bucketLeak => Sys2Proof.Machine.execBucketLeak s
  | .sramScrub place bank word find => Sys2Proof.Machine.execSramScrub place bank word find s
  | .towerFault tower cause => Sys2Proof.Machine.execTowerFault tower cause s
  | .tamper input => Sys2Proof.Machine.execTamper input s
  | .perstDeassertion => Sys2Proof.Machine.execPerstDeassertion s
  | .cxlLinkUp => Sys2Proof.Machine.execCxlLinkUp s
  | .routerFault tower => Sys2Proof.Machine.execRouterFault tower s
  | .tamperInputInactive input => Sys2Proof.Machine.execTamperInputInactive input s
  | .msixEnable enable fmask => Sys2Proof.Machine.execMsixEnable enable fmask s
  | .ideDisable => Sys2Proof.Machine.execIdeDisable s
  | .hdmDecoderProgram base size => Sys2Proof.Machine.execHdmDecoderProgram base size s
  | .powerMeasurementSample watts vin => Sys2Proof.Machine.execPowerMeasurementSample watts vin s
  | .freshBeaconWaitExpiry => Sys2Proof.Machine.execFreshBeaconWaitExpiry s

end Sys2Proof.Machine
end

