-- ==== Sys2Proof/Safety.lean ====
section
/-!
DEFINITION. The terms in which the claims speak: the parts of a state and what a frame says, the canonical form of every
addressed memory, the fixed numbers of units, the growth of the fuse ledger, and when the block takes a mailbox command.
-/
namespace Sys2Proof.Machine

open Sys2Proof

/-! ### Frames -/

/-- The parts of a state, one for each field of `State`. -/
inductive Component where
  | pending | power | fuses | keep | mailboxes | goOrder | jobs | late | ints | evt | belfry | measure | thermal | towers | domeEpoch | mem
  | fabric | slots | steps | window | ext | out | freeCtr
  deriving DecidableEq, Repr

/-- Two states agree on a part. -/
def Component.Same (p : Component) (s t : State) : Prop :=
  match p with
  | .pending => t.pending = s.pending
  | .power => t.power = s.power
  | .fuses => t.fuses = s.fuses
  | .keep => t.keep = s.keep
  | .mailboxes => t.mailboxes = s.mailboxes
  | .goOrder => t.goOrder = s.goOrder
  | .jobs => t.jobs = s.jobs
  | .late => t.late = s.late
  | .ints => t.ints = s.ints
  | .evt => t.evt = s.evt
  | .belfry => t.belfry = s.belfry
  | .measure => t.measure = s.measure
  | .thermal => t.thermal = s.thermal
  | .towers => t.towers = s.towers
  | .domeEpoch => t.domeEpoch = s.domeEpoch
  | .mem => t.mem = s.mem
  | .fabric => t.fabric = s.fabric
  | .slots => t.slots = s.slots
  | .steps => t.steps = s.steps
  | .window => t.window = s.window
  | .ext => t.ext = s.ext
  | .out => t.out = s.out
  | .freeCtr => t.freeCtr = s.freeCtr

/-- Nothing but the parts listed has changed. -/
def Frame (changed : List Component) (s t : State) : Prop := ∀ p : Component, p ∉ changed → p.Same s t

/-! ### Invariants -/

/-- Every addressed memory keeps the canonical form (log 1). -/
abbrev State.Canonical (s : State) : Prop :=
  s.mem.cells.wf = true ∧ s.mem.buckets.wf = true ∧ ∀ m ∈ s.mailboxes, m.payload.wf = true

/-- The numbers of units that the hardware has: 4 mailboxes, 4 program slots, 324 towers, 12 stacks with their die-erasure
registers, 7 Ovmen links, 16 MSI-X entries. -/
abbrev State.Shaped (s : State) : Prop :=
  s.mailboxes.length = 4 ∧ s.slots.length = 4 ∧ s.towers.length = 324 ∧ s.mem.erase.length = 12 ∧ s.mem.onyx.length = 12
    ∧ s.fabric.links.length = 7 ∧ s.ints.table.length = 16

/-- The invariant of the block. -/
abbrev State.Inv (s : State) : Prop := s.Canonical ∧ s.Shaped

/-- A ledger that holds every slot of another, in place, and perhaps more: fuses are written once and keep (R399, R405). -/
structure Fuses.Grows (f g : Fuses) : Prop where
  life : f.life <+: g.life
  ident : f.ident <+: g.ident
  ceil : f.ceil <+: g.ceil
  tower : f.tower <+: g.tower

/-! ### Mailbox commands -/

/-- The host may submit a command, and Beryl takes it and ends it at once: BAR0 is reachable and the port's coherent streams run, the block is
Ready and in no refused state, no other command is in flight, the mailbox exists, is open in the life-cycle state, is not owned and has no
device write waiting, its buffer reads well, and the payload has the length that the submission names. -/
structure State.Takes (s : State) (c : Sub) : Prop where
  io : s.ioUp = true
  reach : s.ideUp 2 = true ∧ s.ideUp 3 = true
  alone : s.jobs = []
  settled : s.mem.owes c.mbx = false
  now : c.env.flight = .now
  buffer : c.env.buf = none
  ready : s.power.ready = true
  live : s.power.halted = false
  runs : s.power.berylStop = false
  mailbox : c.mbx < 4
  four : s.mailboxes.length = 4
  free : (s.mbx c.mbx).own = false
  wf : (s.mbx c.mbx).payload.wf = true
  fits : c.payload.length ≤ 4064
  len : c.len = c.payload.length
  closed : s.fuses.state = 4 → c.mbx = 0

/-- No lock of the life cycle refuses commands (R379, R401): no transition since the last reset, and not SCRAPPED. -/
structure State.Open (s : State) : Prop where
  stays : s.keep.advanced = false
  state : s.fuses.state ≠ 4

/-- A mailbox holds the completion of a command: the status, the data and their length, DONE, and OWN with the host (R353). -/
structure Mailbox.Holds (m : Mailbox) (status : Nat) (data : List Byte) : Prop where
  code : m.code = BitVec.ofNat 16 status
  done : m.done = true
  own : m.own = false
  len : m.len = data.length
  data : memRead m.payload 0 data.length = data

/-- What the completion on one mailbox leaves as it was besides: the other three mailboxes. -/
def State.OthersKept (n : Nat) (s t : State) : Prop := ∀ k, k ≠ n → t.mailboxes[k]? = s.mailboxes[k]?

/-- The state in which Beryl finds a command that the host has submitted: its mailbox holds the command, owned (R349). -/
def State.submitted (s : State) (c : Sub) (op : Nat) : State :=
  { s with mailboxes := updAt s.mailboxes c.mbx fun m => { m with
    payload := memWrite m.payload 0 c.payload, opcode := BitVec.ofNat 16 op, len := c.payload.length, tag := c.tag
    own := true, done := false } }

/-- How a mailbox command ends: with a status and data in its mailbox, the other mailboxes as they stood, and nothing but the parts
listed, the mailboxes, the interrupts and what the port has put out changed. -/
structure State.Answers (s : State) (c : Sub) (status : Nat) (data : List Byte) (changed : List Component) (t : State) : Prop where
  holds : (t.mbx c.mbx).Holds status data
  others : s.OthersKept c.mbx t
  frame : Frame (changed ++ [.mailboxes, .ints, .out]) s t

/-- The host may hold no line of a run of device memory, so that a write of it does not wait (R338). -/
abbrev State.Untracked (s : State) (a len : Nat) : Prop := ∀ l ∈ s.mem.snoop, overlaps a len (64 * l) 64 = false

/-- A route leads from the I/O die to every beat of a run of device memory, and back (R12, R26). -/
abbrev State.Reached (s : State) (a len : Nat) : Prop := ∀ b, a / 32 * 32 ≤ b → b < a + len → s.ioReach b = true

/-- The host may hold no line of what the program slots have put into affine regions, so that emptying a slot ends at once. -/
abbrev State.MovedUntracked (s : State) : Prop := ∀ a ∈ s.allocs, a.kind = 4 → s.Untracked a.addr a.len

/-- Does a slot have a byte in an affine region (R194)? -/
def Slot.MovedAt (x : Slot) (q : Nat) : Prop := ∃ a ∈ x.allocs, a.kind = 4 ∧ a.addr ≤ q ∧ q < a.addr + a.len

/-- The image that a command names at payload byte `off`, at an address that R364 allows: in host memory, where the read of it succeeds
(R339), or in device memory that exists and is in reach, touches no retired page and reads without an error. -/
def ImageAt (s : State) (c : Sub) (off : Nat) (im : List Byte) : Prop :=
  let a := fieldLe c.payload off 8
  a % 256 = 0 ∧ (2 ^ 63 ≤ a ∧ a % 2 ^ 63 < 2 ^ 52 ∧ c.env.cache = some im
    ∨ a < devEnd ∧ a + im.length ≤ devEnd ∧ s.mem.touchesRetired a im.length = false ∧ s.Reached a im.length ∧ c.env.errs = []
        ∧ memRead s.mem.cells a im.length = im)

/-! ### Registers -/

/-- What a RW field of a register holds after a write through an alias (Table 13.3), shown on a whole word. -/
def aliasApplied (al : Alias) (old v : Word) : Word :=
  match al with
  | .base => v
  | .set => old ||| v
  | .clr => old &&& ~~~v
  | .tgl => old ^^^ v

/-! ### Images -/

/-- What the checks of R44 find of a program image (Tables 2.1 to 2.6). -/
def State.checkImage (s : State) (im : List Byte) : Except LoadFail Program :=
  let h := parseHeader (im.take 32)
  s.checkProgram h (im.take 32) (cut64 h.nDesc (im.drop 32)) (cut64 h.nOps (im.drop (32 + 64 * h.nDesc)))

/-- The image of a topology as Tables 10.2 to 10.4 lay it out. -/
def Topology.image (t : Topology) : List Byte :=
  toLe 2 0x0100 ++ toLe 2 t.groups.length ++ toLe 4 t.modules.length ++ toLe 4 t.myRank ++ toLe 4 t.jobId ++ toLe 2 t.dataGroup
    ++ toLe 2 t.splitGroup ++ toLe 4 t.splitMin ++ toLe 4 t.timeoutMs ++ toLe 1 t.coolant ++ List.replicate 35 0
    ++ t.modules.flatMap (fun m => toLe 2 m.board ++ toLe 1 m.slot ++ [0] ++ toLe 2 m.pbr ++ [0, 0] ++ toLe 8 m.fabricBase ++ List.replicate 16 0)
    ++ t.groups.flatMap fun g => toLe 2 g.group ++ toLe 2 g.ranks.length ++ toLe 4 0 ++ g.ranks.flatMap (toLe 4)
        ++ List.replicate (4 * (g.ranks.length % 2)) 0

/-- The fields of a topology that its image can hold (Tables 10.2 to 10.4), the defaults written out. -/
def Topology.Fits (t : Topology) : Prop :=
  t.groups.length ≤ 63 ∧ 1 ≤ t.modules.length ∧ t.modules.length ≤ 1024 ∧ t.myRank < t.modules.length ∧ t.jobId < 2 ^ 32
    ∧ t.dataGroup < 65536 ∧ t.splitGroup < 65536 ∧ 0 < t.splitMin ∧ t.splitMin < 2 ^ 32 ∧ 10 ≤ t.timeoutMs ∧ t.timeoutMs ≤ 60000
    ∧ t.coolant ≤ 3
    ∧ (∀ m ∈ t.modules, m.board ≤ 1023 ∧ m.slot ≤ 7 ∧ m.pbr ≤ 4095 ∧ m.fabricBase < 2 ^ 64 ∧ m.fabricBase % 268435456 = 0)
    ∧ ∀ g ∈ t.groups, 1 ≤ g.group ∧ g.group ≤ 0xFFFE ∧ 1 ≤ g.ranks.length ∧ g.ranks.length ≤ 1024 ∧ ∀ r ∈ g.ranks, r < 2 ^ 32

end Sys2Proof.Machine
end

