-- ==== Sys2Proof/WellFormed.lean ====
section
/-!
DEFINITION. Which commands are well-formed: every operand lies where the spec lets it lie. An ill-formed command still has a
meaning in `exec`; it names a unit, a register or a value that the block does not have.
-/
namespace Sys2Proof

open Sys2Proof.Machine

/-- A submission: a mailbox of four, a payload within the window, MBX_LEN of 12 bits (R342, R349, Table 13.4). -/
def Sub.wf (c : Sub) : Bool := decide (c.mbx < 4) && decide (c.payload.length ≤ 4064) && decide (c.len < 4096)

/-- A 32-bit location of BAR0 (R342, R343). -/
def regAddrWf (a : Nat) : Bool := a % 4 == 0 && decide (a < 0x4000000)

/-- A byte-enable mask (R343). -/
def beWf (be : Nat) : Bool := decide (1 ≤ be) && decide (be < 16)

def towerWf (t : Nat) : Bool := decide (t < 324)
def stackWf (k : Nat) : Bool := decide (k < 12)
def linkWf (l : Nat) : Bool := decide (l < 7)

/-- A unit that a control-ring report names: a tower, or a base die (R13, R316). -/
def ringUnitWf (u : Nat) : Bool := decide (u < 324) || (decide (0x180 ≤ u) && decide (u < 0x18C))

/-- A read or a write of 1 to 8 bytes of BAR0 (R343). -/
def Access.wf (a : Access) : Bool := decide (1 ≤ a.len) && decide (a.len ≤ 8) && decide (a.addr + a.len ≤ 0x4000000)

/-- The words that an access spans. -/
def Access.words (a : Access) : List Nat :=
  (List.range ((a.addr + a.len + 3) / 4 - a.addr / 4)).map fun k => 4 * (a.addr / 4 + k)

/-- The byte enables of a write: some, in the second word only when it carries one (R343). -/
def WData.wf (v : WData) (be : Nat) : Bool :=
  match v.hi with
  | none => beWf be
  | some _ => beWf (be % 16) && beWf (be / 16)

/-- The bits of an SRAM word (R297). -/
def flipsWf (l : List Nat) : Bool := l.all fun b => decide (b < 72)

/-- A place and its errors lie in the SRAM of a tower (Table 11.5). -/
def SramErr.wf (t : Nat) (e : SramErr) : Bool :=
  decide (e.bank < sramBanks t e.scratch) && decide (e.word < sramWords t e.scratch) && flipsWf e.flips

/-- A phase is FWD or BWD, and a layer fits its field (R33). -/
def LayerOp.wf (op : LayerOp) : Bool := decide (op.layer < 4096) && decide (op.mb < 64) && decide (op.phase ≤ 1)

/-- The fields of a message header fit it, and its payload has its length (Table 10.5). -/
def Message.wf (m : Message) : Bool :=
  decide (m.kind ≤ 3) && decide (m.coll < 256) && decide (m.group < 65536) && decide (m.srcRank < 1024)
    && decide (m.stepLo < 2 ^ 32) && decide (m.seq < 2 ^ 32) && decide (m.chunk < 2 ^ 32) && decide (m.len + 32 ≤ 0x400000)
    && decide (m.flags < 65536) && decide (m.cadence ≤ 36) && decide (m.check < 2 ^ 32) && decide (m.dest < 1024)
    && m.payload.length == m.len

/-- A beacon's fields fit their bits (Table 10.7). -/
def Machine.Beacon.wf (b : Beacon) : Bool :=
  decide (b.board < 1024) && decide (b.slot < 8) && decide (b.cadence ≤ 36) && decide (b.holdMax ≤ 36) && decide (b.rampTarget ≤ 36)
    && (decide (b.pending ≤ 36) || b.pending == 0xFF) && decide (b.pendingStep < 2 ^ 32)

/-- An endpoint of the mesh exists (R4, R11, R12). -/
def Node.wf (n : Node) : Bool :=
  match n with
  | .tower t => towerWf t
  | .stackPort st k => stackWf st && decide (k < 3)
  | .ioPort x => decide (x < 18)

/-- The SRAM of a place exists (Table 11.6). -/
def SramPlace.wf (p : SramPlace) : Bool :=
  match p with
  | .tower t _ => towerWf t
  | .engine k => stackWf k
  | .hostBuf n => decide (n < 4)
  | .staging | .working | .keep => true

/-- An extension command finishes with a status of Table 14.2 (R366). -/
def ExtAct.wf (a : ExtAct) : Bool := match a with | .finish st _ => extStatus st == st | _ => true

/-- The well-formed commands. -/
def Instr.wf (i : Instr) : Bool :=
  match i with
  | .identify c | .getCaps c | .readLog c | .setTopology c | .setCadence c | .setPowerCap c | .loadPlan c | .loadCoeff c
  | .loadTrackers c | .saveTrackers c | .placeHint c | .loadProgram c | .runStep c | .setStepSize c | .abortStep c
  | .retirePage c | .retireBank c | .scrubCtrl c | .marchTest c | .belfryStatus c | .clearDivergence c | .attest c
  | .lifecycleAdvance c | .fuseLedger c | .loadExtension c | .resetUnit c | .unitStatus c => c.wf
  | .extensionCommand op c => c.wf && c.env.acts.all ExtAct.wf && decide (0x0F00 ≤ op) && decide (op ≤ 0x0FFF)
  | .mailboxWriteWhileOwned a _ => regAddrWf a && baseAddr a / 0x10000 == 1
  | .registerWrite a v be _ => regAddrWf a && v.wf be
  | .counterLowRead a => a.wf && (ctrAt (baseAddr (a.addr / 4 * 4))).isSome
  | .reservedAddressRead a => a.wf && a.words.any fun w => !definedAt w
  | .reservedAddressWrite a v be => regAddrWf a && v.wf be
  | .forbiddenRegisterAccess a _ => a.wf && a.words.all definedAt
  | .jspOutstPeakRead r => towerWf r.tower && beWf r.be
  | .workItemStart w => towerWf w.tower && w.srams.all (SramErr.wf w.tower)
  | .twrUtilCtrlFreeze t _ _ | .twrUtilCtrlClear t _ _ | .jspCtrlFreeze t _ _ | .jspCtrlClear t _ _
  | .droopDetect t | .droopWindowEnd t _ | .workItemRetire t _ | .stealReply t | .stealTimeout t
  | .jasperResponse t _ | .farEndGather t _ _ _ | .writeAck t _ _ | .towerFault t _ | .routerFault t => towerWf t
  | .eccDieErase k _ _ | .writeBack k | .patrolScrub k _ => stackWf k
  | .msixUnmask v => decide (v < 16)
  | .smbusWriteWord code _ => decide (code < 256)
  | .hostMemWrite a bs => a % 64 == 0 && bs.length == 64
  | .hostMemRead a _ => a % 64 == 0
  | .unorderedIoWrite _ bs => !bs.isEmpty
  | .backInvalidationResponse l => decide (l < devEnd / 64)
  | .tamper l => !l.isEmpty && l.all fun i => decide (i < 3)
  | .tamperInputInactive i => decide (i < 3)
  | .towerActivityReport u _ | .controlRingMessage u _ => ringUnitWf u
  | .meshTransaction x => x.src.wf && x.dst.wf
  | .stealRequest a b _ => towerWf a && towerWf b
  | .cadenceHold cause t => decide (1 ≤ cause) && decide (cause ≤ 4) && (cause != 3 || towerWf t)
  | .holdClear cause => decide (1 ≤ cause) && decide (cause ≤ 4)
  | .beaconReceive l b => linkWf l && b.wf
  | .linkDegraded l _ | .linkRetrain l => linkWf l
  | .linkDown x => linkWf x.link && x.mates.all linkWf
  | .layerStop h => h.op.wf && h.srams.all fun p => towerWf p.1 && p.2.wf p.1
  | .layerRestart op | .layerOperationComplete op => op.wf
  | .lossComplete mb | .microBatchRetire mb => decide (mb < 64)
  | .campanileData m _ | .credit m | .closing m _ => m.wf
  | .doorbell slot m _ => m.wf && decide (slot < 384)
  | .fabricWriteCompletion r _ => decide (r < 1024)
  | .update l | .updatePass l _ | .layerCommit l => decide (l < 4096)
  | .sramScrub p bank word flips => p.wf && sramWordOk p bank word && flipsWf flips
  | .msixEnable _ _ | .evtCtrlEn _ _ | .evtTail _ _ | .eccBucketCfg _ _ | .keepTamperClear _ _ | .extensionTimeout
  | .smbusAlertResponse | .spdmRequest _ | .keyExchange _ | .ideKm _ _ _ _ | .cdatRead _ | .powerGood | .startupPhaseEnd _
  | .powerLoss | .overVoltage | .thermalTrip | .conventionalReset _ | .functionLevelReset | .supplyWarn _ | .supplyResume _ _
  | .thermalSample _ | .thermalCapStep | .fastLoopPeriod | .slowLoopPeriod | .regulatorSettled | .droopCalibration
  | .ageingMonitorRead _ | .beaconSend | .stepBarrier | .stepBarrierTimeout | .collTimeout _ | .check | .commit | .eventPublish
  | .backgroundWindow | .bucketLeak | .perstDeassertion | .cxlLinkUp | .ideDisable | .hdmDecoderProgram _ _ | .freshBeaconWaitExpiry => true
  | .powerMeasurementSample cs rs => cs.length == 4 && rs.length == 17

end Sys2Proof
end

