-- ==== Sys2Proof/Certificates/Slice0/Obligations.lean ====
section
/-!
DEFINITION. The statements for the provers. Each cites the rules or tables of spec/ that it rests on; what the model itself
chose is named with its log entry.
-/

open Sys2Proof Sys2Proof.Machine

/-! ### The queue and the whole block -/

/-- A step of the block is the command at the front of its queue, run with the queue's rest. -/
def Obligations.StepRunsTheFrontCommand : Prop :=
  ∀ (s : State) (c : Instr) (q : List Instr), step { s with pending := c :: q } = exec c { s with pending := q }

/-- On an empty queue the block idles: its time base ticks while it is powered (R391), and while no step stands before its decision
and no command is in flight nothing else changes; the tick in place of idling is the model's choice, log 2.

Every command runs to a next state, and takes from the queue nothing but itself. -/
def Obligations.QueueIsServedInOrder : Prop :=
  (∀ s : State, s.pending = [] → ∃ t, step s = .next t ∧ t.pending = [] ∧ (s.earlyIdx = none → s.jobs = [] →
    t = { s with power := { s.power with
      time := ⟨if s.power.powered then s.power.time.v + 1 else s.power.time.v, s.power.time.shadow⟩ } }))
  ∧ (∀ (s : State) (c : Instr) (q : List Instr), s.pending = c :: q → ∃ t, step s = .next t ∧ t.pending = q)

/-- Every step keeps the invariant: memories in canonical form, and the numbers of units that the hardware has. -/
def Obligations.EveryStepKeepsTheInvariant : Prop :=
  ∀ s t : State, s.Inv → step s = .next t → t.Inv

/-- The state after reset meets the invariant.

What reset leaves in the registers that the spec gives a reset value: (address, value), read as the host would read them
once the block is Ready (Tables 11.9, 12.6, 13.4, 13.6, 15.2, 15.4 and 15.5; the ledger of a delivered module is the
model's choice, log 6). -/
def Obligations.ResetIsInitial : Prop :=
  (State.reset.Inv)
  ∧ (∀ p ∈ ([(0x00000, 0x57533430), (0x10000, 2), (0x10004, 0), (0x10008, 0), (0x20008, 0x0A), (0x2000C, 2), (0x20010, 0), (0x20014, 0),
      (0x20018, 0), (0x2001C, 0), (0x20020, 0), (0x30000, 0x00F00078), (0x40000, 0), (0x40040, 0x000E1010), (0x40044, 24),
      (0x40048, 0), (0x4004C, 0), (0x40050, 0), (0x40054, 0), (0x4005C, 0), (0x50000, 0), (0x50014, 0), (0x60008, 0), (0x60010, 0),
      (0x60100, 0), (0x60104, 0)] : List (Nat × Nat)), State.reset.regRaw p.1 = p.2)

/-- No step unwrites a fuse: every slot of the ledger keeps its place and content, so the fused ceiling never rises and a
retired tower stays retired (R399, R405). -/
def Obligations.FusesAreNeverUnwritten : Prop :=
  ∀ s t : State, step s = .next t →
    s.fuses.Grows t.fuses ∧ t.fuses.ceiling ≤ s.fuses.ceiling ∧ ∀ k ∈ s.fuses.retiredTowers, k ∈ t.fuses.retiredTowers

/-! ### Mailbox commands -/

/-- IDENTIFY completes with the bytes of Table 14.3 in every life-cycle state (R367).

GET_CAPS completes with the 72 bytes of Table 14.4 (R367). BELFRY_STATUS completes with the eighteen words of Table 12.6, the 64-bit
counters whole (R377). UNIT_STATUS completes with 288, 128 or 8 bytes by KIND (Table 14.18, R387): the six bitmaps of the 324 towers;
of each link its state, its peer slot and relay, 0xFF where there is none, its replays and the messages that it has dropped; the causes,
the active towers and the stale drops. A KIND above 2, or a reserved byte that is not zero, is BAD_PARAM. None changes anything but its
mailbox, its vector and what the port has put out. -/
def Obligations.StatusCommandsAnswer : Prop :=
  (∀ (s : State) (c : Sub), s.Takes c → c.payload = [] →
    ∃ t, exec (.identify c) s = .next t ∧ s.Answers c 0
      (([0x57, 0x59, 0x2D, 0x53, 0x57, 0x34, 0x30, 0x2D, 0x4C] : List Byte) ++ List.replicate 7 0 ++ [0xB0] ++ toLe 1 s.fuses.state
        ++ [0x00, 0x01, 0x00, 0x01] ++ toLe 2 s.activeTowers ++ toLe 8 Config.serial.toNat ++ toLe 8 s.ext.version.toNat
        ++ toLe 2 s.fuses.ceiling ++ toLe 1 s.slotMask ++ toLe 1 (if s.fabric.topo.isSome then 1 else 0) ++ List.replicate 4 0) [] t)
  ∧ (∀ (s : State) (c : Sub), s.Takes c → s.keep.advanced = false → c.payload = [] →
    (∃ t, exec (.getCaps c) s = .next t ∧ s.Answers c 0
      (([0x01, 0x00, 0x00, 0x01, 4, 6, 4, 64, 0x00, 0x40, 0x00, 0x00, 0x00, 0x00, 0x01, 0x00, 0x00, 0x10, 0x80, 0x00, 0xFF, 0xFF, 0xFF, 0x7F,
          0x00, 0x00, 0x20, 0x00, 0x0F, 0x0F, 4, 8, 0x80, 0x00, 0x00, 0x01, 8, 0, 0x00, 0x10, 0xFF, 0xFF, 0xFF, 0x7F,
          0x00, 0x00, 0x01, 0x00, 0x00, 0x00, 0x00, 0x01, 0x00, 0x00, 0x20, 0x00, 0x00, 0x00, 0x01, 0x00, 0x00, 0x00, 0x10, 0x00,
          0x00, 0x04] : List Byte) ++ toLe 2 s.activeTowers ++ [0, 0, 0, 0]) [] t)
    ∧ ∃ t d, exec (.belfryStatus c) s = .next t ∧ s.Answers c 0 d [] t ∧ d.length = 72
      ∧ (∀ k < 18, k ∉ [12, 13, 14, 15] → fieldLe d (4 * k) 4 = s.belfryReg (4 * k) % 2 ^ 32)
      ∧ fieldLe d 0x30 8 = s.measure.energy.v.toNat ∧ fieldLe d 0x38 8 = s.measure.droopWin.v.toNat)
  ∧ (∀ (s : State) (c : Sub), s.Takes c → c.mbx = 0 →
    (∀ kind ≤ 2, c.payload = [BitVec.ofNat 8 kind, 0, 0, 0] →
      ∃ t d, exec (.unitStatus c) s = .next t ∧ s.Answers c 0 d [] t ∧ d.length = [288, 128, 8].getD kind 0
        ∧ (kind = 0 → ∀ p ∈ ([(0, Tower.inService), (1, fun x => x.state == 1), (2, fun x => x.state == 2), (3, fun x => x.state == 3),
              (4, fun x => x.state == 4), (5, fun x => x.routerFault)] : List (Nat × (Tower → Bool))),
            ∀ k < 384, (d.getD (48 * p.1 + k / 8) 0).getLsbD (k % 8) = (decide (k < 324) && p.2 (s.tower k)))
        ∧ (kind = 1 →
          let seat : Option Nat := s.fabric.topo.bind fun t => t.me.map ModEnt.slot
          (∀ l < 7, fieldLe d (16 * l) 1 = (s.link l).state % 256
            ∧ fieldLe d (16 * l + 1) 1 = (match seat with | some m => (if l < m then l else l + 1) % 256 | none => 0xFF)
            ∧ fieldLe d (16 * l + 2) 1 = (match seat, (s.link l).relay with | some _, some r => r % 256 | _, _ => 0xFF)
            ∧ fieldLe d (16 * l + 3) 1 = 0 ∧ fieldLe d (16 * l + 4) 4 = (s.link l).replays.toNat
            ∧ fieldLe d (16 * l + 8) 4 = (s.link l).dropped.toNat ∧ fieldLe d (16 * l + 12) 4 = 0)
          ∧ fieldLe d 112 4 = s.fabric.fabricDrops.toNat ∧ zeroAt d 116 12 = true)
        ∧ (kind = 2 →
          let down : Prop := (∃ x ∈ s.towers, x.routerFault = true) ∨ s.power.ioSramBad = true
          fieldLe d 0 1 = (if s.causes % 4 = 0 then 1 else 0) ∧ fieldLe d 1 1 = s.causes ∧ (s.causes % 4 ≠ 0 ↔ down)
            ∧ (s.causes.testBit 2 = true ↔ s.keep.state = 3) ∧ (s.causes.testBit 3 = true ↔ ∃ l ∈ s.fabric.links, l.mismatch = true)
            ∧ fieldLe d 2 2 = s.activeTowers % 65536
            ∧ fieldLe d 4 4 = (s.towers.map fun x => x.ctrs.staleDrop.toNat).sum % 2 ^ 32))
    ∧ (c.payload.length = 4 → 2 < fieldLe c.payload 0 1 ∨ zeroAt c.payload 1 3 = false →
      ∃ t, exec (.unitStatus c) s = .next t
        ∧ s.Answers c 0x0011 (List.replicate ([288, 128, 8].getD (fieldLe c.payload 0 1) 0) 0) [] t))

/-- The completion of a command is a cause of its mailbox's vector: INT_RAISED latches it, whatever IRQ_EN (R353, R354, R392). With IRQ_EN 1 and
MSI-X enabled its message leaves, or waits while the IDE stream toward the host is Insecure (R413), or becomes pending while the vector or
the function is masked; shown on the commands that only read: IDENTIFY, GET_CAPS, BELFRY_STATUS. -/
def Obligations.CompletionRaisesTheVector : Prop :=
  ∀ (s : State) (c : Sub), s.Takes c → s.keep.advanced = false → c.payload = [] →
    ∀ i ∈ [Instr.identify c, .getCaps c, .belfryStatus c], ∃ t, exec i s = .next t ∧
      let masked := s.ints.fmask || (s.ints.table.getD c.mbx ⟨0, 0, true⟩).masked
      t.ints.raised = s.ints.raised ||| (1#10 <<< c.mbx) ∧ t.ints.table = s.ints.table ∧ t.ints.enabled = s.ints.enabled
      ∧ t.ints.fmask = s.ints.fmask
      ∧ (((s.mbx c.mbx).irqEn && s.ints.enabled) = false → t.ints.pending = s.ints.pending ∧ t.out = s.out)
      ∧ (((s.mbx c.mbx).irqEn && s.ints.enabled) = true → masked = true →
          t.ints.pending = s.ints.pending ||| (1#16 <<< c.mbx) ∧ t.out = s.out)
      ∧ (((s.mbx c.mbx).irqEn && s.ints.enabled) = true → masked = false → t.ints.pending = s.ints.pending
          ∧ t.out = if s.ideUp 1 then { s.out with msix := s.out.msix ++ [c.mbx] }
              else { s.out with stalled := s.out.stalled ++ [.msix c.mbx] })

/-- A ROM command that stages 1 to 5 of R363 refuse completes with that status and with zeros of its completion length, and has no
other effect (R351, R361, R362, R363); FUSE_LEDGER answers with its ledger, LOAD_PROGRAM with its failure record of no failure, and RUN_STEP
with its 32 bytes and the statistics window, which it rewrites.

A security or diagnostics opcode on mailbox 1, 2 or 3 completes with BAD_OPCODE and has no effect; a payload of another
length than the command's completes with BAD_PARAM (R351, R362). -/
def Obligations.RefusedCommandsDoNothing : Prop :=
  (∀ (s : State) (c : Sub), s.Takes c →
    let q (op : Nat) : Ask := ⟨op, c.mbx, c.mbx, c.payload.length, c.payload, c.env⟩
    (∀ p ∈ [(Instr.identify c, 0x0001), (.getCaps c, 0x0002), (.readLog c, 0x0003), (.setTopology c, 0x0101), (.setCadence c, 0x0102),
      (.setPowerCap c, 0x0103), (.loadPlan c, 0x0104), (.loadCoeff c, 0x0105), (.loadTrackers c, 0x0106), (.saveTrackers c, 0x0107),
      (.placeHint c, 0x0108), (.setStepSize c, 0x0203), (.abortStep c, 0x0204), (.retirePage c, 0x0301), (.retireBank c, 0x0302),
      (.scrubCtrl c, 0x0303), (.marchTest c, 0x0304), (.belfryStatus c, 0x0401), (.clearDivergence c, 0x0402), (.attest c, 0x0501),
      (.lifecycleAdvance c, 0x0502), (.loadExtension c, 0x0504), (.resetUnit c, 0x0601), (.unitStatus c, 0x0602)],
    ∀ st, s.judge' (q p.2) = some st →
      ∃ t, exec p.1 s = .next t ∧ s.Answers c st (List.replicate (doneLen p.2 (fieldLe c.payload 0 1)) 0) [] t)
    ∧ (∀ st, s.judge' (q 0x0201) = some st →
      ∃ t, exec (.loadProgram c) s = .next t ∧ s.Answers c st (List.replicate 4 0xFF ++ List.replicate 44 0) [] t)
    ∧ (∀ st, s.judge' (q 0x0503) = some st → ∃ t, exec (.fuseLedger c) s = .next t ∧ s.Answers c st s.fuses.bytes [] t)
    ∧ ∀ st, s.judge' (q 0x0202) = some st → ∃ t d, exec (.runStep c) s = .next t ∧ (t.mbx c.mbx).Holds st d ∧ d.length = 32
      ∧ s.OthersKept c.mbx t ∧ Frame [.mailboxes, .window, .ints, .out] s t ∧ t.window.status = st ∧ t.window.updated = false)
  ∧ (∀ (s : State) (c : Sub), s.Takes c → s.Open →
    (c.mbx ≠ 0 →
      (∀ p ∈ [(Instr.attest c, 768), (.lifecycleAdvance c, 0), (.loadExtension c, 16), (.resetUnit c, 8),
          (.unitStatus c, [288, 128, 8].getD (fieldLe c.payload 0 1) 0)],
        ∃ t, exec p.1 s = .next t ∧ s.Answers c 0x0010 (List.replicate p.2 0) [] t)
      ∧ ∃ t, exec (.fuseLedger c) s = .next t ∧ s.Answers c 0x0010 s.fuses.bytes [] t)
    ∧ (c.payload.length ≠ 0 → ∃ t, exec (.identify c) s = .next t ∧ s.Answers c 0x0011 (List.replicate 48 0) [] t)
    ∧ (c.payload.length ≠ 16 → ∃ t, exec (.setCadence c) s = .next t ∧ s.Answers c 0x0011 [] [] t)
    ∧ (c.payload.length ≠ 16 → ∃ t, exec (.loadProgram c) s = .next t
        ∧ s.Answers c 0x0011 (List.replicate 4 0xFF ++ List.replicate 44 0) [] t))

/-- While a mailbox is owned its OPCODE, LEN, TAG and payload are frozen: a write of them, and a GO, sets CLOBBER and changes
nothing else; IRQ_EN, and the clearing of DONE and CLOBBER by ones, act as always (R349, Table 13.4). -/
def Obligations.OwnedMailboxIsFrozen : Prop :=
  ∀ (s : State) (n off : Nat) (v : Word), s.ioUp = true → n < 4 → s.mailboxes.length = 4 → (s.mbx n).own = true →
    s.fuses.state ≠ 4 →
    (off % 4 = 0 → off = 0x008 ∨ off = 0x00C ∨ off = 0x010 ∨ 0x020 ≤ off ∧ off < 0x1000 → ∃ t,
      exec (.mailboxWriteWhileOwned (0x10000 + 0x1000 * n + off) v) s = .next t ∧ t.mbx n = { s.mbx n with clobber := true }
        ∧ s.OthersKept n t ∧ Frame [.mailboxes] s t)
    ∧ (∃ t, exec (.mailboxWriteWhileOwned (0x10000 + 0x1000 * n) v) s = .next t
        ∧ t.mbx n = { s.mbx n with irqEn := v.getLsbD 1, clobber := (s.mbx n).clobber || v.getLsbD 0 } ∧ s.OthersKept n t
        ∧ Frame [.mailboxes] s t)
    ∧ (∃ t, exec (.mailboxWriteWhileOwned (0x10000 + 0x1000 * n + 4) v) s = .next t
        ∧ t.mbx n = { s.mbx n with done := (s.mbx n).done && !v.getLsbD 17, clobber := (s.mbx n).clobber && !v.getLsbD 18 }
        ∧ s.OthersKept n t ∧ Frame [.mailboxes] s t)

/-- READ_LOG completes with the records of the early buffer from START (WHICH 0), or with those of the ring from START on as they lie in
device memory, not beyond HEAD (WHICH 1), where a route leads to them (R368): it consumes nothing. A START beyond what the log holds, or a COUNT out of range, is
BAD_PARAM. -/
def Obligations.ReadLogConsumesNothing : Prop :=
  ∀ (s : State) (c : Sub) (which count : Nat) (start : Word), s.Takes c → count < 256 → which < 256 →
    c.payload = toLe 1 which ++ toLe 1 count ++ toLe 2 0 ++ toLe 4 start.toNat →
    (which = 0 → 1 ≤ count → count ≤ 62 → start.toNat < 256 → ∃ t, exec (.readLog c) s = .next t ∧
      s.Answers c 0 (toLe 1 (min count (s.evt.early.length - start.toNat)) ++ [0, 0, 0] ++ toLe 4 s.evt.early.length
        ++ toLe 4 s.evt.lostCount.toNat ++ List.replicate 20 0 ++ ((s.evt.early.drop start.toNat).take count).flatMap EvRec.bytes) [] t)
    ∧ (which = 1 → s.evt.en = true → 1 ≤ count → count ≤ 62 → (start - s.evt.tail).toNat ≤ (s.evt.head - s.evt.tail).toNat →
      c.env.errs = [] →
      let n := min count (s.evt.head - start).toNat
      let at' (k : Nat) : Nat := s.evt.base.toNat + 64 * ((start + BitVec.ofNat 32 k).toNat % 2 ^ s.evt.log2)
      (∀ k < n, s.mem.touchesRetired (at' k) 64 = false ∧ s.Reached (at' k) 64) →
      ∃ t, exec (.readLog c) s = .next t ∧ s.Answers c 0 (toLe 1 n ++ [0, 0, 0] ++ toLe 4 s.evt.head.toNat
        ++ toLe 4 s.evt.lostCount.toNat ++ List.replicate 20 0 ++ (List.range n).flatMap fun k => memRead s.mem.cells (at' k) 64) [] t)
    ∧ (1 < which ∨ count = 0 ∨ 62 < count ∨ which = 0 ∧ 256 ≤ start.toNat ∨ which = 1 ∧ s.evt.en = false
        ∨ which = 1 ∧ (s.evt.head - s.evt.tail).toNat < (start - s.evt.tail).toNat →
        ∃ t, exec (.readLog c) s = .next t ∧ s.Answers c 0x0011 (List.replicate 32 0) [] t)

/-- SET_CADENCE holds its code and step pending, sends a beacon, and refuses a step that is not above that of the last accepted
one (R274, R325).

SET_POWER_CAP stores a cap of 800 W to 2,400 W, in units of 10 W and not above the fused ceiling; any other value is
BAD_PARAM and changes nothing (R312, R371).

SCRUB_CTRL sets the period of 1 to 720 hours, stops or starts scrubbing, and answers with ECC_SCRUB_STATUS; CLEAR_DIVERGENCE
ends the measured-only mode with a correction of 1 (R289, R319, R375). -/
def Obligations.SettingsCommands : Prop :=
  (∀ (s : State) (c : Sub) (code : Nat) (step : Quad), s.Takes c → s.Open → code < 256 →
    c.payload = toLe 1 code ++ List.replicate 7 0 ++ toLe 8 step.toNat →
    let late : Prop := ∃ n, s.belfry.lastStep = some n ∧ step.toNat ≤ n.toNat
    (code ≤ 36 → ¬ late → ∃ t, exec (.setCadence c) s = .next t ∧ s.Answers c 0 [] [.belfry] t
      ∧ t.belfry = { s.belfry with pending := some (code, step) }
      ∧ ((∃ l ∈ s.fabric.links, l.state ≠ 0) → ∃ b, t.out.beacons = s.out.beacons ++ [b] ∧ b.pending = code))
    ∧ (36 < code ∨ late → ∃ t, exec (.setCadence c) s = .next t ∧ s.Answers c 0x0011 [] [] t))
  ∧ (∀ (s : State) (c : Sub) (cap : Nat), s.Takes c → s.Open → cap < 65536 →
    c.payload = toLe 2 cap ++ [0, 0] →
    (80 ≤ cap → cap ≤ 240 → cap ≤ s.fuses.ceiling → ∃ t d, exec (.setPowerCap c) s = .next t ∧ s.Answers c 0 d [.belfry] t
      ∧ t.belfry = { s.belfry with cap := cap } ∧ d.length = 4)
    ∧ (cap < 80 ∨ 240 < cap ∨ s.fuses.ceiling < cap → ∃ t, exec (.setPowerCap c) s = .next t ∧ s.Answers c 0x0011 [0, 0, 0, 0] [] t))
  ∧ (∀ (s : State) (c : Sub), s.Takes c → s.Open →
    (∀ act h, c.payload = toLe 1 act ++ [0] ++ toLe 2 h →
      (act = 0 → 1 ≤ h → h ≤ 720 → ∃ t, exec (.scrubCtrl c) s = .next t ∧ s.Answers c 0 (toLe 4 ((if s.mem.scrubOn then h else 0) + s.mem.passes.toNat * 65536))
          [.mem] t ∧ t.mem = { s.mem with scrubH := h })
      ∧ (act = 1 → h = 0 → ∃ t, exec (.scrubCtrl c) s = .next t ∧ s.Answers c 0 (toLe 4 (s.mem.passes.toNat * 65536)) [.mem] t
          ∧ t.mem = { s.mem with scrubOn := false })
      ∧ (act = 2 → h = 0 → ∃ t, exec (.scrubCtrl c) s = .next t ∧ s.Answers c 0 (toLe 4 (s.mem.scrubH + s.mem.passes.toNat * 65536)) [.mem] t
          ∧ t.mem = { s.mem with scrubOn := true }))
    ∧ (c.payload = [] → ∃ t, exec (.clearDivergence c) s = .next t ∧ s.Answers c 0 [] [.measure] t
      ∧ t.measure = if s.measure.measOnly then { s.measure with measOnly := false, cNum := 1, cDen := 1, divergent := 0 } else s.measure))

/-- SET_TOPOLOGY reads back exactly the topology that an image lays out, for every topology that an image can hold, in host or in device
memory: no field and no entry of Tables 10.2 to 10.4 is dropped or misread. -/
def Obligations.TopologyImagesReadBack : Prop :=
  ∀ (s : State) (c : Sub) (t : Topology), t.Fits → ImageAt s c 8 t.image →
    s.readTopology c.env (fieldLe c.payload 8 8) = (.ok t, s)

/-- SET_TOPOLOGY completes for every image of a topology, between steps: it puts a legal topology in force with its coolant class and,
unless only TIMEOUT or COOLANT differ, empties the four program slots (R258, R259, R260); an illegal one is BAD_PARAM, and one whose
landing areas do not fit, or lie in retired memory, NO_RESOURCE (R259, R267, R295). No byte of memory changes but those that the slots had
put into affine regions (R193); where the host may hold a line of those, the completion waits for its answer (R338). -/
def Obligations.SetTopologyInstalls : Prop :=
  ∀ (s : State) (c : Sub) (t : Topology), s.Takes c → s.Open → c.payload.length = 16 → s.steps = [] → t.Fits → ImageAt s c 8 t.image →
    s.MovedUntracked →
    let fits : Prop := (∀ r < t.modules.length, (t.others r).length ≤ 384)
      ∧ s.mem.touchesRetired landBase (0x400000 * (t.others t.myRank).length) = false
    (zeroAt c.payload 0 8 = false ∨ t.legal = false → ∃ u, exec (.setTopology c) s = .next u ∧ s.Answers c 0x0011 [0, 0, 0, 0] [] u)
    ∧ (zeroAt c.payload 0 8 = true → t.legal = true → ¬ fits → ∃ u, exec (.setTopology c) s = .next u
        ∧ s.Answers c 0x0020 [0, 0, 0, 0] [] u)
    ∧ (zeroAt c.payload 0 8 = true → t.legal = true → fits →
      ∃ u d, exec (.setTopology c) s = .next u ∧ s.Answers c 0 d [.belfry, .fabric, .slots, .towers, .mem, .evt] u ∧ d.length = 4
        ∧ u.fabric.topo = some t ∧ u.belfry = { s.belfry with coolant := t.coolant }
        ∧ fieldLe d 1 1 = (if t.manyBoards then 1 else 0)
        ∧ (let same : Prop := ∃ o, s.fabric.topo = some o ∧ ({ t with timeoutMs := o.timeoutMs, coolant := o.coolant } : Topology) = o
           (same → u.slots = s.slots ∧ u.mem = s.mem ∧ fieldLe d 0 1 = 0)
             ∧ (¬ same → ∀ n < 4, (u.slot n).prog = none ∧ (u.slot n).plan = none ∧ (u.slot n).allocs = []
                 ∧ (fieldLe d 0 1).testBit n = (s.slot n).prog.isSome))
        ∧ ∀ q, (∀ n < 4, ¬ (s.slot n).MovedAt q) → memGet u.mem.cells q = memGet s.mem.cells q)

/-- LOAD_PLAN completes for every plan image: one that its checks pass is in force where there is room for its memory and for its tracker
entries: the trackers start cold, one TRACKER_COLD event a layer, and the other slots stand (R160, R162, R176, R181); without room it
is NO_RESOURCE, and an image that a check refuses is BAD_PARAM.

LOAD_COEFF completes for every table that its checks pass: where there is room for its optimiser state the slot holds its entries, its weight
records and a state for each weight, and the completion names the directory and the total size (R234 to R239); without room it is
NO_RESOURCE; shown while the host holds no line of device memory, whose answer the completion would await (R338). -/
def Obligations.PlansAndCoefficientsInstall : Prop :=
  (∀ (s : State) (c : Sub) (n : Nat) (p : Program) (im : List Byte), s.Takes c → s.Open → s.slots.length = 4 → n < 4 → c.payload.length = 16 →
    fieldLe c.payload 0 1 = n → zeroAt c.payload 1 7 = true → s.slotRunning n = false → (s.slot n).prog = some p → ImageAt s c 8 im →
    32 + 32 * p.nLayers ≤ im.length →
    match parsePlan p (im.take (32 + 32 * p.nLayers)) with
    | none => ∃ t, exec (.loadPlan c) s = .next t ∧ s.Answers c 0x0011 (List.replicate 8 0) [] t
    | some pl =>
      let free := (s.submitted c 0x0104).modSlot n fun y => { y with allocs := y.allocs.filter fun (a : Alloc) => a.kind != 1 }
      let room : Bool := (free.placeAll [] [pl.reserve p]).isSome && (free.shareEntries n p.nLayers).isSome
      (room = true → ∃ t, exec (.loadPlan c) s = .next t ∧ s.Answers c 0 (toLe 8 (pl.reserve p)) [.towers, .slots, .evt, .freeCtr] t
        ∧ (t.slot n).plan = some pl ∧ (t.slot n).trackers = pl.layers.map Tracker.cold ∧ (t.slot n).prog = some p
        ∧ (t.slot n).stormHalt = false ∧ (t.slot n).widenLeft = 0 ∧ (∀ k, k ≠ n → t.slots[k]? = s.slots[k]?)
        ∧ (s.evt.en = true → t.evt.ring.length = s.evt.ring.length + p.nLayers))
      ∧ (room = false → ∃ t, exec (.loadPlan c) s = .next t ∧ s.Answers c 0x0020 (List.replicate 8 0) [] t))
  ∧ (∀ (s : State) (c : Sub) (n nE : Nat) (p : Program) (im : List Byte) (es : List Coeff) (ws : List WeightRec), s.Takes c → s.Open →
    s.slots.length = 4 → n < 4 → c.payload.length = 16 → fieldLe c.payload 0 1 = n → zeroAt c.payload 1 7 = true →
    s.slotRunning n = false → (s.slot n).prog = some p → ImageAt s c 8 im → 32 + 64 * nE + 16 * p.weights.length ≤ im.length →
    fieldLe im 0 2 = 0x0100 → fieldLe im 2 2 = nE → 1 ≤ nE → nE ≤ 256 → fieldLe im 4 4 = p.weights.length → zeroAt im 8 24 = true →
    parseCoeffs p nE (im.take (32 + 64 * nE + 16 * p.weights.length)) = some (es, ws) → s.mem.snoop = [] →
    let s0 := s.submitted c 0x0105
    let dirLen := roundUp (48 * ws.length) 256
    let oldDir := ((s0.slot n).allocs.find? fun a => a.kind == 3 && a.len == dirLen).map (·.addr)
    let kept := s0.keptState p n es ws ++ (match oldDir with | some a => [(a, dirLen)] | none => [])
    let free := s0.modSlot n fun y => { y with allocs := y.allocs.filter fun (a : Alloc) => a.kind != 2 && a.kind != 3 }
    let room : Bool := match free.newStates p n es kept ws [] with
      | none => false
      | some (_, made, s1) => oldDir.isSome || (s1.placeAll (kept ++ made.map fun (a : Alloc) => (a.addr, a.len)) [dirLen]).isSome
    (room = true → ∃ t dir, exec (.loadCoeff c) s = .next t
      ∧ s.Answers c 0 (toLe 8 dir ++ toLe 8 (stateTotal (t.slot n).opt + 48 * ws.length)) [.mem, .slots, .freeCtr] t
      ∧ (t.slot n).coeff = some ⟨es, ws, dir⟩ ∧ (t.slot n).prog = some p
      ∧ (t.slot n).opt.map OptState.desc = ws.map WeightRec.desc ∧ (t.slot n).opt.map OptState.entry = ws.map WeightRec.entry
      ∧ (ws ≠ [] → ∃ a ∈ (t.slot n).allocs, a.kind = 3 ∧ a.addr = dir) ∧ ∀ k, k ≠ n → t.slots[k]? = s.slots[k]?)
    ∧ (room = false → ∃ t, exec (.loadCoeff c) s = .next t ∧ s.Answers c 0x0020 (List.replicate 16 0) [] t))

/-- A tracker image that SAVE_TRACKERS writes parses back to the same trackers, for every tracker whose fields fit Table 6.10. -/
def Obligations.TrackerImagesReadBack : Prop :=
  ∀ (x : Slot) (pl : Plan), x.trackers.length = pl.layers.length →
    (∀ q ∈ x.trackers.zip pl.layers, q.1.rf ≤ q.2.fwdTop ∧ q.1.rg ≤ q.2.gradTop) →
    (∀ k ∈ x.trackers, k.rf < 256 ∧ k.rg < 256 ∧ k.cleanF < 256 ∧ k.cleanG < 256 ∧ k.coldLeft < 256 ∧ k.roles.length = 4
      ∧ ∀ r ∈ k.roles, r.hist.length = 16 ∧ r.count < 256 ∧ r.head < 256 ∧ r.e ≠ some f32nan) →
    parseTrackers pl.layers ((x.trackerImage pl).drop 64) = some x.trackers

/-- LOAD_TRACKERS takes an image that SAVE_TRACKERS wrote for the same plan: the trackers, WIDEN_LEFT and the storm chain of
the slot become those saved (R182).

SAVE_TRACKERS writes the image of the slot's trackers to device memory, at an address that nothing else holds and that is in reach, and
completes with its length and the step of the last COMMIT, with a step in flight too (R182, R369); no byte of memory changes outside the
codewords that hold the image (R282; the rest of a codeword that it shares is free, log 83). Where the host may hold a line of them, the
write is snooped and the completion waits for the answer (R338). -/
def Obligations.TrackersSaveAndLoad : Prop :=
  (∀ (s : State) (c : Sub) (n : Nat) (x : Slot) (pl : Plan), s.Takes c → s.Open → n < 4 → s.slots.length = 4 →
    c.payload.length = 16 → fieldLe c.payload 0 1 = n → zeroAt c.payload 1 7 = true → s.slotRunning n = false →
    (s.slot n).plan = some pl → pl.tag < 2 ^ 32 → pl.layers.length < 65536 → x.widenLeft < 256 →
    parseTrackers pl.layers ((x.trackerImage pl).drop 64) = some x.trackers → x.trackers.length = pl.layers.length →
    (∀ k ∈ x.trackers, k.roles.length = 4 ∧ ∀ r ∈ k.roles, r.hist.length = 16) → ImageAt s c 8 (x.trackerImage pl) →
    ∃ t, exec (.loadTrackers c) s = .next t ∧ s.Answers c 0 [] [.slots] t ∧ (t.slot n).trackers = x.trackers
      ∧ (t.slot n).widenLeft = x.widenLeft ∧ (t.slot n).stormChain = x.stormChain ∧ (t.slot n).plan = some pl
      ∧ ∀ k, k ≠ n → t.slots[k]? = s.slots[k]?)
  ∧ (∀ (s : State) (c : Sub) (n : Nat) (pl : Plan), s.Takes c → s.Open → n < 4 → s.mem.cells.wf = true →
    c.payload.length = 16 → fieldLe c.payload 0 1 = n → zeroAt c.payload 1 7 = true → (s.slot n).plan = some pl →
    (s.slot n).trackers.length = pl.layers.length → (∀ k ∈ (s.slot n).trackers, k.roles.length = 4) →
    let a := fieldLe c.payload 8 8
    let len := 64 + 320 * pl.layers.length
    a + len ≤ devEnd → (∀ x ∈ s.allocs, x.hits a len = false) → s.ringHits a len = false →
    (s.landing = true → a + len ≤ landBase) → s.mem.touchesRetired a len = false → s.ioReach a = true →
    let lo := a / 32 * 32
    let hi := roundUp (a + len) 32
    let d := toLe 4 len ++ toLe 4 0 ++ toLe 8 ((s.slot n).commitStep.getD noStep).toNat
    (s.Untracked lo (hi - lo) → ∃ t, exec (.saveTrackers c) s = .next t ∧ s.Answers c 0 d [.mem, .freeCtr] t
      ∧ memRead t.mem.cells a len = (s.slot n).trackerImage pl ∧ ∀ q, q < lo ∨ hi ≤ q → memGet t.mem.cells q = memGet s.mem.cells q)
    ∧ (¬ s.Untracked lo (hi - lo) → ∃ t, exec (.saveTrackers c) s = .next t ∧ (t.mbx c.mbx).own = true
      ∧ t.late = s.late ++ [⟨c.mbx, 0, d⟩] ∧ t.mem.owes c.mbx = true ∧ Frame [.mailboxes, .mem, .late, .out, .freeCtr] s t
      ∧ ∀ q, q < lo ∨ hi ≤ q → memGet t.mem.cells q = memGet s.mem.cells q))

/-- LOAD_PROGRAM completes for every program image, while no step of its slot is in flight: a program that passes every check stands in
its slot, where there is room for it: what the slot held is discarded, its trackers and versions start anew, and every layer waits for its
first quantization (R44, R45, R72, R370); without room it is NO_RESOURCE, and a program that a check refuses completes with the status and the
failure that the check names, and changes nothing. The other slots stand, unless one serves an affine region in which host tensors of the
program lie (R193). Shown while the host holds no line of device memory, whose answer the completion would await (R338). -/
def Obligations.LoadProgramInstalls : Prop :=
  ∀ (s : State) (c : Sub) (n : Nat) (im : List Byte), s.Takes c → s.Open → s.slots.length = 4 → n < 4 → c.payload.length = 16 →
    fieldLe c.payload 0 1 = n → zeroAt c.payload 1 7 = true → s.slotRunning n = false → s.fabric.topo.isSome = true → ImageAt s c 8 im →
    32 + 64 * ((parseHeader (im.take 32)).nDesc + (parseHeader (im.take 32)).nOps) ≤ im.length →
    match s.checkImage im with
    | .error f => ∃ t, exec (.loadProgram c) s = .next t ∧ s.Answers c f.status f.bytes [] t
    | .ok p =>
      let room : Bool := (((s.submitted c 0x0201).emptySlot n).installProgram n p).isSome
      (room = true → s.mem.snoop = [] → ∃ t d, exec (.loadProgram c) s = .next t ∧ s.Answers c 0 d [.slots, .towers, .mem, .evt, .freeCtr] t
        ∧ d.length = 48 ∧ fieldLe d 0 4 = 0xFFFFFFFF ∧ fieldLe d 8 8 = (t.slot n).statsAddr % 2 ^ 64 ∧ fieldLe d 16 4 = p.nStat % 2 ^ 32
        ∧ (t.slot n).prog = some p ∧ (t.slot n).plan = none ∧ (t.slot n).coeff = none ∧ (t.slot n).hints = []
        ∧ (t.slot n).versions = List.replicate p.nLayers 0 ∧ (t.slot n).stale = List.range p.nLayers
        ∧ (t.slot n).lastStep = (s.slot n).lastStep ∧ (s.mem.affine = [] → ∀ k, k ≠ n → t.slots[k]? = s.slots[k]?))
      ∧ (room = false → ∃ t, exec (.loadProgram c) s = .next t
          ∧ s.Answers c 0x0020 (List.replicate 4 0xFF ++ List.replicate 44 0) [] t)

/-- PLACE_HINT stores a hint that Table 14.9 allows and marks the slot for rebinding; a hint that it does not allow is BAD_PARAM
(R74, R75). SET_STEP_SIZE stores a finite ETA that is not negative, and refuses any other (R240, R374).

ABORT_STEP fails the step of its slot that lies before its decision, with ABORTED; on a slot without one it does nothing; past
the decision it is BUSY (R227, R374), which comes before its payload is judged (R363); a SLOT above 3, or a reserved byte that is not zero,
is BAD_PARAM. -/
def Obligations.HintsStepSizesAborts : Prop :=
  (∀ (s : State) (c : Sub) (n : Nat) (p : Program), s.Takes c → s.Open → s.slots.length = 4 → n < 4 →
    fieldLe c.payload 0 1 = n → (s.slot n).prog = some p →
    (c.payload.length = 16 → zeroAt c.payload 2 2 = true →
      match applyHint p (s.slot n).hints (fieldLe c.payload 1 1) (fieldLe c.payload 4 4) (fieldLe c.payload 8 4) (fieldLe c.payload 12 4) with
      | some hs => ∃ t, exec (.placeHint c) s = .next t ∧ s.Answers c 0 [] [.slots] t
          ∧ t.slot n = { s.slot n with hints := hs, rebind := true } ∧ ∀ k, k ≠ n → t.slots[k]? = s.slots[k]?
      | none => ∃ t, exec (.placeHint c) s = .next t ∧ s.Answers c 0x0011 [] [] t)
    ∧ (c.payload.length = 8 → zeroAt c.payload 1 3 = true →
      let eta : Word := BitVec.ofNat 32 (fieldLe c.payload 4 4)
      (f32nonneg eta = true → ∃ t, exec (.setStepSize c) s = .next t ∧ s.Answers c 0 [] [.slots] t
          ∧ t.slot n = { s.slot n with eta := some eta } ∧ ∀ k, k ≠ n → t.slots[k]? = s.slots[k]?)
      ∧ (f32nonneg eta = false → ∃ t, exec (.setStepSize c) s = .next t ∧ s.Answers c 0x0011 [] [] t)))
  ∧ (∀ (s : State) (c : Sub) (n : Nat), s.Takes c → s.Open → n < 4 → c.payload = toLe 1 n ++ [0, 0, 0] →
    (s.slotRunning n = false → ∃ t, exec (.abortStep c) s = .next t ∧ s.Answers c 0 [] [] t)
    ∧ (∀ i p, s.earlyIdx = some i → s.steps[i]? = some p → p.slot = n →
        ∃ t, exec (.abortStep c) s = .next t ∧ s.Answers c 0 [] [.steps, .towers] t
          ∧ t.steps[i]? = some { p with ended := if p.ended = .running then .failed 0x0103 else p.ended }
          ∧ (∀ k, k ≠ i → t.steps[k]? = s.steps[k]?)
          ∧ ∀ x ∈ t.towers, ∀ it ∈ x.queue, ¬ (it.slot = n ∧ it.step = p.number.toNat))
    ∧ (s.slotRunning n = true → (∀ i p, s.earlyIdx = some i → s.steps[i]? = some p → p.slot ≠ n) →
        ∃ t, exec (.abortStep c) s = .next t ∧ s.Answers c 0x0001 [] [] t))
  ∧ (∀ (s : State) (c : Sub), s.Takes c → s.Open → c.payload.length = 4 →
    let n := fieldLe c.payload 0 1
    (s.slotRunning n = true → (∀ i p, s.earlyIdx = some i → s.steps[i]? = some p → p.slot ≠ n) →
        ∃ t, exec (.abortStep c) s = .next t ∧ s.Answers c 0x0001 [] [] t)
    ∧ (s.slotRunning n = false → 3 < n ∨ zeroAt c.payload 1 3 = false →
        ∃ t, exec (.abortStep c) s = .next t ∧ s.Answers c 0x0011 [] [] t))

/-- RUN_STEP that nothing refuses is accepted: its step joins the steps in flight at its barrier, with the fields of its
payload, and its mailbox stays owned; the number of the step is that of the slot and of the module from now on (R206, R326,
R372, R373). A RUN_STEP that the checks of R373 refuse completes with BAD_PARAM and starts nothing. -/
def Obligations.RunStepIsAccepted : Prop :=
  ∀ (s : State) (c : Sub) (n : Nat), s.Takes c → s.Open → s.slots.length = 4 →
    fieldLe c.payload 0 1 = n → c.payload.length = 32 + 24 * fieldLe c.payload 2 1 → s.earlyIdx = none → s.barrierIdx = none →
    s.fabric.topo.isSome = true → (s.slot n).stormHalt = false → (s.slot n).faultHalt = false →
    ((s.submitted c 0x0202).runOk c.payload = none → ∃ t d, exec (.runStep c) s = .next t ∧ (t.mbx c.mbx).Holds 0x0011 d ∧ d.length = 32
      ∧ s.OthersKept c.mbx t ∧ Frame [.mailboxes, .window, .ints, .out] s t)
    ∧ ((s.submitted c 0x0202).runOk c.payload ≠ none →
      let q : Quad := BitVec.ofNat 64 (fieldLe c.payload 8 8)
      let cad := (s.belfry.cadenceFor q).1
      cad ≤ s.belfry.holdMax →
      (∀ l ∈ s.peerLinks, ∀ b, s.freshBeacon l = some b → cad ≤ b.holdMax ∧ b.cadenceAt q = cad) →
      ∃ t st, exec (.runStep c) s = .next t ∧ t.steps = s.steps ++ [st] ∧ st.slot = n ∧ st.number = q
        ∧ st.seed = BitVec.ofNat 64 (fieldLe c.payload 0x10 8) ∧ st.mbs.length = fieldLe c.payload 2 1 ∧ st.mbx = c.mbx
        ∧ st.stage = .barrier ∧ st.ended = .running ∧ st.decided = none ∧ st.cadence = cad ∧ st.accepted = s.power.time.v
        ∧ (t.mbx c.mbx).own = true ∧ (t.mbx c.mbx).done = false ∧ s.OthersKept c.mbx t
        ∧ (t.slot n).lastStep = some q ∧ (t.slot n).eta = some st.eta ∧ t.belfry.lastStep = some q
        ∧ Frame [.mailboxes, .slots, .steps, .belfry, .thermal, .towers, .domeEpoch, .mem, .evt, .out, .freeCtr] s t)

/-- RETIRE_PAGE completes for every page number between steps: a page that exists becomes a hole and joins the retired pages, every slot
with an allocation in it is emptied, and no byte of memory changes but those that such a slot had put into affine regions; a page retired already is OK and changes nothing, a page out of range
BAD_PARAM, a 4,097th page NO_RESOURCE, and a page of a landing area in use BUSY (R293, R295, R296).

RETIRE_BANK completes for every bank between steps: it retires a bank of its stack, at most eight of them, and empties every slot with an
allocation in it; a bank that does not exist is BAD_PARAM, a bank retired already OK with no change, a ninth NO_RESOURCE, and while the
landing area is in use every bank that exists is BUSY (R294, R295, R296). -/
def Obligations.RetirementMakesHoles : Prop :=
  (∀ (s : State) (c : Sub) (p : Nat), s.Takes c → s.Open → s.steps = [] → p < 2 ^ 64 → c.payload = toLe 8 p → s.slots.length = 4 →
    s.MovedUntracked →
    let land : Prop := s.landing = true ∧ landBase ≤ p * 65536
    (p ≤ 12582911 → ¬ land → p ∉ s.mem.pages → s.mem.pages.length < 4096 → ∃ t d, exec (.retirePage c) s = .next t
        ∧ s.Answers c 0 d [.mem, .slots, .towers] t ∧ d.length = 8 ∧ fieldLe d 4 4 = s.mem.pages.length + 1
        ∧ t.mem.pages = s.mem.pages ++ [p] ∧ t.mem.banks = s.mem.banks ∧ t.mem.pageRetired p = true
        ∧ (∀ q, (∀ n < 4, (∃ a ∈ (s.slot n).allocs, a.hits (p * 65536) 65536 = true) → ¬ (s.slot n).MovedAt q) →
            memGet t.mem.cells q = memGet s.mem.cells q)
        ∧ ∀ n < 4, ((∃ a ∈ (s.slot n).allocs, a.hits (p * 65536) 65536 = true) → (t.slot n).prog = none ∧ (t.slot n).allocs = []
              ∧ (fieldLe d 0 1).testBit n = true)
            ∧ ((∀ a ∈ (s.slot n).allocs, a.hits (p * 65536) 65536 = false) → t.slot n = s.slot n ∧ (fieldLe d 0 1).testBit n = false))
    ∧ (p ≤ 12582911 → ¬ land → p ∈ s.mem.pages → ∃ t, exec (.retirePage c) s = .next t
        ∧ s.Answers c 0 ([0, 0, 0, 0] ++ toLe 4 s.mem.pages.length) [] t)
    ∧ (p ≤ 12582911 → land → ∃ t, exec (.retirePage c) s = .next t ∧ s.Answers c 0x0001 (List.replicate 8 0) [] t)
    ∧ (12582911 < p → ∃ t, exec (.retirePage c) s = .next t ∧ s.Answers c 0x0011 (List.replicate 8 0) [] t)
    ∧ (p ≤ 12582911 → ¬ land → p ∉ s.mem.pages → 4096 ≤ s.mem.pages.length →
        ∃ t, exec (.retirePage c) s = .next t ∧ s.Answers c 0x0020 (List.replicate 8 0) [] t))
  ∧ (∀ (s : State) (c : Sub) (b : Bank), s.Takes c → s.Open → s.steps = [] → b.stack < 256 → b.channel < 256 → b.bank < 256 →
    c.payload = toLe 1 b.stack ++ toLe 1 b.channel ++ toLe 1 b.bank ++ [0] → s.slots.length = 4 → s.MovedUntracked →
    let hits (x : Slot) : Bool := x.allocs.any fun a => ({ s.mem with banks := [b], pages := [] } : Mem).touchesRetired a.addr a.len
    let real : Prop := b.stack ≤ 11 ∧ b.channel ≤ 31 ∧ b.bank ≤ 31
    (s.landing = true → real → ∃ t, exec (.retireBank c) s = .next t ∧ s.Answers c 0x0001 (List.replicate 8 0) [] t)
    ∧ (s.landing = false → real → b ∉ s.mem.banks → s.mem.banks.length < 8 → ∃ t d, exec (.retireBank c) s = .next t
        ∧ s.Answers c 0 d [.mem, .slots, .towers] t ∧ d.length = 8 ∧ t.mem.banks = s.mem.banks ++ [b]
        ∧ (∀ q, (∀ n < 4, hits (s.slot n) = true → ¬ (s.slot n).MovedAt q) → memGet t.mem.cells q = memGet s.mem.cells q)
        ∧ t.mem.pages = s.mem.pages
        ∧ fieldLe d 4 4 = ((s.mem.bankPages b).filter fun q => !s.mem.pageRetired q).length
        ∧ ∀ n < 4, (hits (s.slot n) = true → (t.slot n).prog = none ∧ (t.slot n).allocs = [])
            ∧ (hits (s.slot n) = false → t.slot n = s.slot n))
    ∧ (s.landing = false → real → b ∈ s.mem.banks → ∃ t, exec (.retireBank c) s = .next t ∧ s.Answers c 0 (List.replicate 8 0) [] t)
    ∧ (s.landing = false → real → b ∉ s.mem.banks → 8 ≤ s.mem.banks.length → ∃ t, exec (.retireBank c) s = .next t
        ∧ s.Answers c 0x0020 (List.replicate 8 0) [] t)
    ∧ (¬ real → ∃ t, exec (.retireBank c) s = .next t ∧ s.Answers c 0x0011 (List.replicate 8 0) [] t))

/-- MARCH_TEST completes for every payload between steps: one that Table 14.13 allows reports how many bits failed and how many no spare
replaces; it writes its failure records to memory, and nothing else unless it is a destructive march of an Onyx bank; any other is BAD_PARAM (R301 to
R305, R376); shown while the host holds no line of device memory, whose answer the completion would await (R338), and every router works.

RESET_UNIT on a tower (R386, R427, R428): KIND 0 re-admits it under the next dome epoch, which every tower in service adopts, or
leaves it failed when a march failure stays unrepaired; KIND 1 takes it out of service and moves its tracker entries, where other shares
have room; KIND 2 brings a link to full service, one that is down too (R257); a tower or a link that does not exist is BAD_PARAM. -/
def Obligations.MarchesAndReadmission : Prop :=
  (∀ (s : State) (c : Sub), s.Takes c → s.Open → s.steps = [] → c.payload.length = 24 →
    let m := March.of c.payload
    let rs := repairs s.mem.repairs (marchRun m.alg (marchCells m c.env.fails))
    let ok : Bool := (s.submitted c 0x0304).marchOk m (zeroAt c.payload 3 1 && zeroAt c.payload 20 4)
    (ok = true → s.mem.snoop = [] → (∀ x ∈ s.towers, x.routerFault = false) → ∃ t d, exec (.marchTest c) s = .next t
      ∧ s.Answers c 0 d [.mem, .power, .towers, .domeEpoch, .slots, .evt, .measure, .freeCtr] t ∧ d.length = 16
      ∧ d.take 12 = toLe 4 rs.length ++ toLe 4 (unrepaired rs) ++ toLe 4 (min m.max rs.length)
      ∧ (s.mem.cells.wf = true → memRead t.mem.cells m.addr (16 * min m.max rs.length) = (rs.take m.max).flatMap (failRecord m))
      ∧ (m.target ≠ 2 ∨ m.mode = 1 → ∀ q, q < m.addr ∨ m.addr + roundUp (16 * min m.max rs.length) 32 ≤ q →
          memGet t.mem.cells q = memGet s.mem.cells q)
      ∧ (m.target = 1 → t.power.ioSramBad = (s.power.ioSramBad || decide (unrepaired rs ≠ 0))))
    ∧ (ok = false → ∃ t, exec (.marchTest c) s = .next t ∧ s.Answers c 0x0011 (List.replicate 16 0) [] t))
  ∧ (∀ (s : State) (c : Sub) (kind u : Nat), s.Takes c → s.Open → c.mbx = 0 → s.steps = [] → s.towers.length = 324 → kind < 256 → u < 65536 →
    c.payload = toLe 1 kind ++ [0] ++ toLe 2 u →
    let tower : Prop := u < 324 ∧ (s.tower u).state ≠ 3
    let rs := repairs s.mem.repairs (marchRun 0 (towerCells u c.env.fails))
    (kind = 0 → tower → unrepaired rs = 0 → ∃ t d, exec (.resetUnit c) s = .next t
        ∧ s.Answers c 0 d [.mem, .towers, .domeEpoch, .evt, .slots, .measure] t ∧ d.length = 8 ∧ (t.tower u).state = 0 ∧ (t.tower u).admitted = true
          ∧ t.domeEpoch = (if s.domeEpoch = 0xFFFFFFFF then 1 else s.domeEpoch + 1)
          ∧ (∀ k < 324, (t.tower k).inService = true → (t.tower k).epoch = t.domeEpoch)
          ∧ (t.tower u).queue = [] ∧ (t.tower u).streams = [] ∧ fieldLe d 0 4 = t.domeEpoch.toNat
          ∧ ((s.tower u).entries = [] → t.slots = s.slots))
    ∧ (kind = 0 → tower → unrepaired rs ≠ 0 → ∃ t d, exec (.resetUnit c) s = .next t
        ∧ s.Answers c 0 d [.mem, .towers, .evt, .slots, .measure] t ∧ (t.tower u).state = 4 ∧ fieldLe d 0 4 = 0
        ∧ ((s.tower u).entries = [] → t.slots = s.slots))
    ∧ (kind = 1 → tower → ((s.submitted c 0x0601).moveEntries u).isSome = true → ∃ t d, exec (.resetUnit c) s = .next t
        ∧ s.Answers c 0 d [.towers, .measure] t ∧ d.length = 8 ∧ (t.tower u).state = 2 ∧ (t.tower u).entries = [] ∧ (t.tower u).inService = false
        ∧ ∀ k, k ≠ u → (t.tower k).state = (s.tower k).state)
    ∧ (kind = 1 → tower → ((s.submitted c 0x0601).moveEntries u).isSome = false → ∃ t, exec (.resetUnit c) s = .next t
        ∧ s.Answers c 0x0020 (List.replicate 8 0) [] t)
    ∧ (kind = 2 → u ≤ 6 → s.fabric.links.length = 7 → ∃ t d, exec (.resetUnit c) s = .next t ∧ s.Answers c 0 d [.fabric] t ∧ d.length = 8
          ∧ (t.link u).state = 2 ∧ (t.link u).lanes = 16 ∧ (t.link u).down = false ∧ (t.link u).relay = none
          ∧ ∀ k, k ≠ u → t.link k = { s.link k with relay := (t.link k).relay })
    ∧ (2 < kind ∨ kind < 2 ∧ ¬ tower ∨ kind = 2 ∧ 6 < u → ∃ t, exec (.resetUnit c) s = .next t
        ∧ s.Answers c 0x0011 (List.replicate 8 0) [] t))

/-- ATTEST while the Keep holds an identity key answers the 256 bytes of the report, with its nonce and the serial number, and the signature of
that key over them (R378, R408); without one it is LOCKED.

An authorised transition of the life cycle whose fuses verify puts the new state in force, wipes the Keep and unloads the
extension; the lock of R379 stands until the next reset; one that is not authorised ends with the status of the check and
changes no fuse (R379, R400, R404, R405, R410).

FUSE_LEDGER answers the ledger, as it stands after the action; a read changes nothing, a committed write lowers the
ceiling or retires the tower that it names, and one that is not authorised changes no fuse (R380, R404, R405). -/
def Obligations.SecurityCommands : Prop :=
  (∀ (s : State) (c : Sub), s.Takes c → s.Open → c.mbx = 0 → c.payload.length = 32 → s.keep.state < 2 →
    (s.fuses.state ≠ 0 → ∀ k, s.keep.identity = some k → ∃ t d salt,
        exec (.attest c) s = .next t ∧ s.Answers c 0 d [.freeCtr] t ∧ d.length = 768 ∧ d.take 32 = c.payload ∧ fieldLe d 32 8 = Config.serial.toNat
          ∧ fieldLe d 40 1 = s.fuses.state % 256 ∧ d.drop 256 = pssSign k (d.take 256) salt)
    ∧ (s.fuses.state = 0 ∨ s.keep.identity = none → ∃ t, exec (.attest c) s = .next t ∧ s.Answers c 0x0200 (List.replicate 768 0) [] t))
  ∧ (∀ (s : State) (c : Sub), s.Takes c → s.Open → c.mbx = 0 → c.payload.length = 16 →
    s.keep.state < 2 → s.steps = [] → s.supplyOk = true → zeroAt c.payload 1 7 = true → s.ext.inFlight = none → c.env.fuse = .committed →
    let target := fieldLe c.payload 0 1
    (transitionSigners s.fuses.state target).isEmpty = false → s.fuses.life.length < 8 → (target = 1 → s.fuses.ident.length < 2) →
    match (s.submitted c 0x0502).authorise ⟨c.mbx, c.payload, c.env⟩ 0x0502 (fieldLe c.payload 8 8)
      ⟨1, target, s.fuses.life.length, transitionSigners s.fuses.state target⟩ with
    | (.inl _, _) => ∃ t, exec (.lifecycleAdvance c) s = .next t ∧ s.Answers c 0 [] [.fuses, .keep, .ext, .mem, .evt, .freeCtr] t
      ∧ t.fuses.state = target ∧ s.fuses.Grows t.fuses ∧ t.keep.state = 2 ∧ t.keep.advanced = true ∧ t.keep.sessions = []
      ∧ t.keep.identity = none ∧ (∀ k ∈ t.keep.ideKeys, k = []) ∧ t.ext.loaded = false
      ∧ t.ints.raised.getLsbD 8 = true
    | (.inr st, _) => ∃ t, exec (.lifecycleAdvance c) s = .next t ∧ s.Answers c st [] [.mem, .evt] t)
  ∧ (∀ (s : State) (c : Sub) (arg : Nat), s.Takes c → s.Open → c.mbx = 0 →
    (c.payload = List.replicate 16 0 → ∃ t, exec (.fuseLedger c) s = .next t ∧ s.Answers c 0 s.fuses.bytes [] t)
    ∧ (c.payload.length = 16 → s.keep.state < 2 → s.steps = [] → s.supplyOk = true → zeroAt c.payload 1 1 = true →
        zeroAt c.payload 4 4 = true → fieldLe c.payload 2 2 = arg → c.env.fuse = .committed →
        (fieldLe c.payload 0 1 = 1 → s.fuses.state ≠ 3 → 80 ≤ arg → arg < s.fuses.ceiling → s.fuses.ceil.length < 8 →
          match (s.submitted c 0x0503).authorise ⟨c.mbx, c.payload, c.env⟩ 0x0503 (fieldLe c.payload 8 8)
            ⟨2, arg, s.fuses.ceil.length, actionSigners s.fuses.state 1⟩ with
          | (.inl _, _) => ∃ t, exec (.fuseLedger c) s = .next t ∧ s.Answers c 0 t.fuses.bytes [.fuses, .mem, .evt, .keep] t
            ∧ t.fuses.ceiling = arg ∧ s.fuses.Grows t.fuses ∧ t.fuses.life = s.fuses.life ∧ (c.env.tamper = [] → t.keep = s.keep)
          | (.inr st, _) => ∃ t, exec (.fuseLedger c) s = .next t ∧ s.Answers c st s.fuses.bytes [.mem, .evt] t)
        ∧ (fieldLe c.payload 0 1 = 2 → arg < 324 → arg ∈ s.fuses.retiredTowers →
          ∃ t, exec (.fuseLedger c) s = .next t ∧ s.Answers c 0 s.fuses.bytes [] t)
        ∧ (fieldLe c.payload 0 1 = 2 → arg < 324 → arg ∉ s.fuses.retiredTowers → s.towers.length = 324 → (s.tower arg).entries = [] →
          s.fuses.tower.length < 16 →
          match (s.submitted c 0x0503).authorise ⟨c.mbx, c.payload, c.env⟩ 0x0503 (fieldLe c.payload 8 8)
            ⟨3, arg, s.fuses.tower.length, actionSigners s.fuses.state 2⟩ with
          | (.inl _, _) => ∃ t, exec (.fuseLedger c) s = .next t ∧ s.Answers c 0 t.fuses.bytes [.fuses, .towers, .mem, .evt, .keep, .measure] t
            ∧ (c.env.tamper = [] → t.keep = s.keep) ∧ t.fuses.retiredTowers = s.fuses.retiredTowers ++ [arg] ∧ s.fuses.Grows t.fuses ∧ (t.tower arg).state = 3
            ∧ ∀ k, k ≠ arg → t.towers[k]? = s.towers[k]?
          | (.inr st, _) => ∃ t, exec (.fuseLedger c) s = .next t ∧ s.Answers c st s.fuses.bytes [.mem, .evt] t)))

/-- LOAD_EXTENSION with a signature that verifies replaces the extension as a whole, and any other is AUTH_FAIL, one of a bad layout
BAD_PARAM (R381); an extension command then holds its
mailbox until it finishes, with the status and data that it names, or until its time is over (R382 to R385); a status that Table 14.2 does
not have becomes BUS_ERROR, the model's choice (log 80).

EXTENSION_TIMEOUT stops the extension command in flight with ABORTED, and the extension stays loaded (R385). -/
def Obligations.ExtensionsRun : Prop :=
  (∀ (s : State) (c : Sub), s.Takes c → s.Open →
    (∀ im, c.mbx = 0 → c.payload.length = 16 → s.keep.state < 2 → s.ext.inFlight = none → zeroAt c.payload 12 4 = true →
      528 ≤ fieldLe c.payload 8 4 → fieldLe c.payload 8 4 ≤ 1048576 → ImageAt s c 0 im → im.length = fieldLe c.payload 8 4 →
      if extForm im = false then ∃ t, exec (.loadExtension c) s = .next t ∧ s.Answers c 0x0011 (List.replicate 16 0) [] t
      else if pssVerify Config.extensionModulus (im.take (im.length - 512)) (im.drop (im.length - 512)) then
        ∃ t, exec (.loadExtension c) s = .next t ∧ s.Answers c 0 (toLe 8 (fieldLe im 8 8) ++ toLe 2 (fieldLe im 2 2) ++ List.replicate 6 0) [.ext, .evt] t
          ∧ t.ext = ⟨BitVec.ofNat 64 (fieldLe im 8 8), extCmds im, sha512 im, none, true⟩ ∧ t.ints.raised.getLsbD 8 = true
      else ∃ t, exec (.loadExtension c) s = .next t ∧ s.Answers c 0x0201 (List.replicate 16 0) [.evt] t ∧ t.ints.raised.getLsbD 8 = true)
    ∧ (∀ op flags status data, 0x0F00 ≤ op → op ≤ 0x0FFF → s.ext.loaded = true → s.ext.inFlight = none →
        s.ext.cmds.find? (fun q => q.1 == op) = some (op, flags) → (c.mbx = 0 ∨ flags % 2 = 1) → data.length ≤ 4064 →
        c.env.acts = [.finish status data] → ∃ t, exec (.extensionCommand op c) s = .next t
          ∧ s.Answers c (if status ∈ [0x0000, 0x0001, 0x0010, 0x0011, 0x0020, 0x0021, 0x0101, 0x0102, 0x0103, 0x0110, 0x0111, 0x0112, 0x0120,
              0x0130, 0x0140, 0x0200, 0x0201, 0x0202] then status else 0x0120) data [] t)
    ∧ (∀ op flags, 0x0F00 ≤ op → op ≤ 0x0FFF → s.ext.loaded = true → s.ext.inFlight = none →
        s.ext.cmds.find? (fun q => q.1 == op) = some (op, flags) → (c.mbx = 0 ∨ flags % 2 = 1) → c.env.acts = [] →
        ∃ t, exec (.extensionCommand op c) s = .next t ∧ t.ext = { s.ext with inFlight := some c.mbx } ∧ (t.mbx c.mbx).own = true))
  ∧ (∀ (s : State) (n : Nat), s.power.powered = true → s.ext.inFlight = some n → n < 4 → s.mailboxes.length = 4 →
    (s.mbx n).payload.wf = true → s.mem.owes n = false → ∃ t, exec .extensionTimeout s = .next t ∧ (t.mbx n).Holds 0x0103 [] ∧ s.OthersKept n t
      ∧ t.ext = { s.ext with inFlight := none } ∧ Frame [.mailboxes, .ints, .out, .ext] s t)

/-! ### Registers -/

/-- How a write acts on a field (R9, Table 13.3): RW takes the value at the base address, sets, clears and toggles through the
aliases; W1C clears its ones at the base and SET addresses and keeps them at the others; RO keeps its value.

A write to a payload word of a mailbox that is not owned stores the enabled bytes, whatever the byte enables, and every other
byte of the mailbox stands (R343, R349); a full write of TAG stores it through each alias (Table 13.3). A write that spans two locations is
two writes, in increasing address order (R343). -/
def Obligations.RegisterWritesByAccessCode : Prop :=
  (∀ (f : Fld) (al : Alias) (old v k : Nat),
    let b := (f.write al old v).1.testBit k
    (k < f.lo ∨ f.lo + f.width ≤ k → b = false)
    ∧ (f.lo ≤ k → k < f.lo + f.width →
      (f.acc = .rw → b = match al with
        | .base => v.testBit k
        | .set => old.testBit k || v.testBit k
        | .clr => old.testBit k && !v.testBit k
        | .tgl => old.testBit k != v.testBit k)
      ∧ (f.acc = .w1c → b = match al with
        | .base | .set => old.testBit k && !v.testBit k
        | .clr | .tgl => old.testBit k)
      ∧ (f.acc = .ro → b = old.testBit k)))
  ∧ (∀ (s : State) (n : Nat) (v : Word) (env : Env), s.ioUp = true → n < 4 → s.mailboxes.length = 4 → (s.mbx n).own = false → s.fuses.state ≠ 4 →
    (s.mbx n).payload.wf = true → s.power.ready = true →
    (∀ k be, k < 1016 → be < 16 → ∃ t, exec (.registerWrite (0x10020 + 0x1000 * n + 4 * k) ⟨v, none⟩ be env) s = .next t ∧ Frame [.mailboxes] s t
      ∧ s.OthersKept n t ∧ (t.mbx n).tag = (s.mbx n).tag
      ∧ ∀ a, memGet (t.mbx n).payload a = if 4 * k ≤ a ∧ a < 4 * k + 4 ∧ be.testBit (a - 4 * k) = true
          then BitVec.ofNat 8 (v.toNat / 256 ^ (a - 4 * k)) else memGet (s.mbx n).payload a)
    ∧ (∀ al : Alias, ∃ t, exec (.registerWrite (0x10010 + 0x1000 * n + aliasOffset al) ⟨v, none⟩ 15 env) s = .next t ∧ Frame [.mailboxes] s t
      ∧ s.OthersKept n t ∧ t.mbx n = { s.mbx n with tag := match al with
        | .base => v
        | .set => (s.mbx n).tag ||| v
        | .clr => (s.mbx n).tag &&& ~~~v
        | .tgl => (s.mbx n).tag ^^^ v }))
  ∧ (∀ (s u : State) (a be : Nat) (v w : Word) (env : Env), exec (.registerWrite a ⟨v, none⟩ (be % 16) env) s = .next u → u.ioUp = s.ioUp →
    ∃ t, exec (.registerWrite a ⟨v, some w⟩ be env) s = .next t ∧ exec (.registerWrite (a + 4) ⟨w, none⟩ (be / 16 % 16) env) u = .next t)

/-- A read of the low word of a 64-bit counter returns its low 32 bits and copies its high 32 bits into the shadow; the high word
reads as the shadow, so that one read of both words gives the whole counter; shadows are zero at reset, and FREEZE and CLEAR leave them
(R343, R344). -/
def Obligations.CountersLatchTheirShadow : Prop :=
  (∀ (s : State) (a : Nat) (k : CtrId), s.ioUp = true → s.power.ready = true → ctrAt (baseAddr a) = some k → definedAt a = true →
      (∀ j, k = .stwSum j → s.window.sums.length = 9) → s.towers.length = 324 → s.ideUp 1 = true →
      (∃ t, exec (.counterLowRead ⟨a, 8⟩) s = .next t ∧ (baseAddr (a + 4) = baseAddr a + 4 →
        t.out.resp = .parts [some (toLe 4 ((s.getCtr k).v.toNat % 2 ^ 32)), some (toLe 4 ((s.getCtr k).v.toNat / 2 ^ 32))]))
      ∧ ∃ t, exec (.counterLowRead ⟨a, 4⟩) s = .next t ∧ t.out.resp = .word ((s.getCtr k).v.setWidth 32)
        ∧ t.getCtr k = ⟨(s.getCtr k).v, ((s.getCtr k).v >>> 32).setWidth 32⟩
        ∧ t.regRead (a + 4) = ((s.getCtr k).v >>> 32).toNat
        ∧ ∀ j, j ≠ k → (∀ u i, j = .twr u i → i ≤ 11) → t.getCtr j = s.getCtr j)
  ∧ (∀ (s : State) (a : Nat) (k : CtrId), s.power.ready = true → ctrAt (baseAddr a) = some k → baseAddr (a + 4) = baseAddr a + 4 →
      s.regRead (a + 4) = (s.getCtr k).shadow.toNat)
  ∧ (∀ k : CtrId, (State.reset.getCtr k).shadow = 0)
  ∧ ∀ (s t : State) (u : Nat) (al : Alias) (v : Word) (k : CtrId),
      (exec (.twrUtilCtrlFreeze u al v) s = .next t ∨ exec (.twrUtilCtrlClear u al v) s = .next t
        ∨ exec (.jspCtrlFreeze u al v) s = .next t ∨ exec (.jspCtrlClear u al v) s = .next t) →
      (t.getCtr k).shadow = (s.getCtr k).shadow

/-- JSP_OUTST_PEAK reads its value and starts anew at the requests outstanding, whatever bytes are enabled; no other register and no other
tower changes (R205, R343).

TWR_UTIL_CTRL and JSP_CTRL of a tower in service: FREEZE takes its bit as a RW bit through every alias, CLEAR at the base and
SET addresses zeroes the counters of its own group; the other group, the droop window counter and every other tower stand
(R37, R205). Of a tower out of service the FREEZE written waits for its return, and nothing else changes (R347). -/
def Obligations.TowerCounterControls : Prop :=
  (∀ (s : State) (u : Nat), s.ioUp = true → s.power.ready = true → u < 324 → s.towers.length = 324 → (s.tower u).jsp.outstPeak < 2 ^ 32 →
    ∀ be, ∃ t, exec (.jspOutstPeakRead ⟨u, be⟩) s = .next t
      ∧ (s.ideUp 1 = true → be % 16 = 15 → t.out.resp = .word (BitVec.ofNat 32 (s.tower u).jsp.outstPeak))
      ∧ t.tower u = { s.tower u with jsp := { (s.tower u).jsp with outstPeak := (s.tower u).outstanding } }
      ∧ (∀ k, k ≠ u → t.towers[k]? = s.towers[k]?) ∧ Frame [.towers, .out] s t)
  ∧ (∀ (s : State) (u : Nat) (al : Alias) (v : Word), s.ioUp = true → s.power.ready = true → u < 324 → s.towers.length = 324 →
    let fr (old : Bool) : Bool := match al with
      | .base => v.getLsbD 0
      | .set => old || v.getLsbD 0
      | .clr => old && !v.getLsbD 0
      | .tgl => old != v.getLsbD 0
    let cl : Bool := v.getLsbD 1 && (al == .base || al == .set)
    let util := fr ((s.tower u).heldUtil.getD (s.tower u).ctrs.freeze)
    let jsp := fr ((s.tower u).heldJsp.getD (s.tower u).jsp.freeze)
    ((s.tower u).inService = true →
      (∀ i ∈ [Instr.twrUtilCtrlFreeze u al v, .twrUtilCtrlClear u al v], ∃ t, exec i s = .next t ∧ Frame [.towers] s t
        ∧ (∀ k, k ≠ u → t.towers[k]? = s.towers[k]?) ∧ (t.tower u).ctrs.freeze = util
        ∧ t.tower u = { s.tower u with ctrs := (t.tower u).ctrs }
        ∧ (if cl then (t.tower u).ctrs.cycles.v = 0 ∧ (t.tower u).ctrs.issued.v = 0 ∧ (t.tower u).ctrs.pwrBub.v = 0
            ∧ (t.tower u).ctrs.droopBub.v = 0 ∧ (t.tower u).ctrs.starved.v = 0 ∧ (t.tower u).ctrs.idle.v = 0
            ∧ (t.tower u).ctrs.fwdCells.v = 0 ∧ (t.tower u).ctrs.bwdCells.v = 0 ∧ (t.tower u).ctrs.stealIn = 0
            ∧ (t.tower u).ctrs.stealOut = 0 ∧ (t.tower u).ctrs.staleDrop = 0 ∧ (t.tower u).ctrs.fwdRem = 0 ∧ (t.tower u).ctrs.bwdRem = 0
          else (t.tower u).ctrs = { (s.tower u).ctrs with freeze := util }))
      ∧ ∀ i ∈ [Instr.jspCtrlFreeze u al v, .jspCtrlClear u al v], ∃ t, exec i s = .next t ∧ Frame [.towers] s t
        ∧ (∀ k, k ≠ u → t.towers[k]? = s.towers[k]?) ∧ (t.tower u).jsp.freeze = jsp
        ∧ t.tower u = { s.tower u with jsp := (t.tower u).jsp }
        ∧ (if cl then (t.tower u).jsp.rdBytes.v = 0 ∧ (t.tower u).jsp.wrBytes.v = 0 ∧ (t.tower u).jsp.farReq = 0 ∧ (t.tower u).jsp.farPieces = 0
            ∧ (t.tower u).jsp.nullIdx = 0 ∧ (t.tower u).jsp.outstPeak = 0 ∧ (t.tower u).jsp.creditStall.v = 0 ∧ (t.tower u).jsp.skew = 0
          else (t.tower u).jsp = { (s.tower u).jsp with freeze := jsp }))
    ∧ ((s.tower u).inService = false →
      (∀ i ∈ [Instr.twrUtilCtrlFreeze u al v, .twrUtilCtrlClear u al v], ∃ t, exec i s = .next t ∧ Frame [.towers] s t
        ∧ (∀ k, k ≠ u → t.towers[k]? = s.towers[k]?) ∧ t.tower u = { s.tower u with heldUtil := some util })
      ∧ ∀ i ∈ [Instr.jspCtrlFreeze u al v, .jspCtrlClear u al v], ∃ t, exec i s = .next t ∧ Frame [.towers] s t
        ∧ (∀ k, k ≠ u → t.towers[k]? = s.towers[k]?) ∧ t.tower u = { s.tower u with heldJsp := some jsp }))

/-- A read of reserved addresses completes with unsupported request; a write of one, or a write that does not enable all four
bytes of an open register other than a payload word, is discarded and reported with its address, and changes nothing else (R343,
R345); what the port sends waits while its IDE stream is Insecure (R413).

In SCRAPPED the registers of mailboxes 1 to 3 are closed: a read returns zero, a write is ignored, of any width, each location counts in
VIOL_COUNT and leaves its offset in VIOL_ADDR, and no error is reported (R346, R402). -/
def Obligations.ReservedAndClosedAddresses : Prop :=
  (∀ (s : State), s.ioUp = true →
    (∀ a : Access, (∀ w, a.addr / 4 ≤ w → 4 * w < a.addr + a.len → definedAt (4 * w) = false) →
      ∃ t, exec (.reservedAddressRead a) s = .next t ∧ t = s.emit (.answer 1 .unsupported))
    ∧ (∀ a v be, definedAt a = false ∨ s.forbids a = false ∧ be % 16 ≠ 15 ∧ isPayload (baseAddr a) = false →
        (∃ t, exec (.reservedAddressWrite a ⟨v, none⟩ be) s = .next t ∧ t = s.emit (.aer a))
        ∧ ∀ env, ∃ t, exec (.registerWrite a ⟨v, none⟩ be env) s = .next t ∧ t = s.emit (.aer a))
    ∧ (∀ a v w be, definedAt a = false → definedAt (a + 4) = false →
        ∃ t, exec (.reservedAddressWrite a ⟨v, some w⟩ be) s = .next t ∧ t = (s.emit (.aer a)).emit (.aer (a + 4)))
    ∧ ∀ p : Posted, (s.ideUp p.stream = true → s.emit p = { s with out := s.out.sendOne p })
        ∧ (s.ideUp p.stream = false → s.emit p = { s with out := { s.out with stalled := s.out.stalled ++ [p] } }))
  ∧ (∀ (s : State) (n off : Nat), s.ioUp = true → s.fuses.state = 4 → 1 ≤ n → n < 4 → off < 0x1000 →
    let w := 0x10000 + 0x1000 * n + off
    definedAt w = true →
    let k (m : Nat) (a : Nat) : Keep := { s.keep with violCount := s.keep.violCount + BitVec.ofNat 32 m, violAddr := BitVec.ofNat 26 a }
    (∀ b len, b + len ≤ 4 → 1 ≤ len →
      (∃ t, exec (.forbiddenRegisterAccess ⟨w + b, len⟩ none) s = .next t
        ∧ t = ({ s with keep := k 1 w } : State).emit (.answer 1 (if len = 4 then .word 0 else .parts [some (List.replicate len 0)])))
      ∧ ∀ v, ∃ t, exec (.forbiddenRegisterAccess ⟨w + b, len⟩ (some ⟨v, none⟩)) s = .next t ∧ t = { s with keep := k 1 w })
    ∧ (off + 4 < 0x1000 → definedAt (w + 4) = true →
      (∃ t, exec (.forbiddenRegisterAccess ⟨w, 8⟩ none) s = .next t
        ∧ t = ({ s with keep := k 2 (w + 4) } : State).emit (.answer 1 (.parts [some [0, 0, 0, 0], some [0, 0, 0, 0]])))
      ∧ ∀ v x, ∃ t, exec (.forbiddenRegisterAccess ⟨w, 8⟩ (some ⟨v, some x⟩)) s = .next t ∧ t = { s with keep := k 2 (w + 4) }))

/-- ECC_DIE_ERASE marks a die of its stack or clears the mark, and a die above 17 with VALID 1 is ignored (R285); a write of
ECC_BUCKET_CFG sets THRESHOLD and LEAK_S and clears every bucket (R291, R292).

Setting EN of EVT_CTRL: with a base and size that R356 allows, the ring starts empty; with others EN stays 0 and BAD_BASE is
set; clearing EN puts the records that wait for the ring behind those of the early buffer, in order, as far as it has room, and those
that it has no room for are lost: counted, and the next record made says so. EVT_TAIL takes a value between TAIL and HEAD in free-running order, and any other write sets BAD_TAIL (R356, R357). All four
through each alias (Table 13.3). -/
def Obligations.MemoryAndEventRegisters : Prop :=
  (∀ (s : State) (al : Alias) (v : Word), s.ioUp = true → s.power.ready = true →
    (∀ k, k < 12 → s.mem.erase.length = 12 →
      let old := s.mem.erase.getD k ⟨0, false⟩
      let n := aliasApplied al (BitVec.ofNat 32 (old.die + if old.valid then 128 else 0)) v
      ∃ t, exec (.eccDieErase k al v) s = .next t ∧ Frame [.mem] s t
        ∧ t.mem = if 17 < n.toNat % 32 ∧ n.getLsbD 7 = true then s.mem
            else { s.mem with erase := updAt s.mem.erase k fun _ => ⟨n.toNat % 32, n.getLsbD 7⟩ })
    ∧ (let n := aliasApplied al (BitVec.ofNat 32 (s.mem.threshold + s.mem.leakS * 256)) v
      ∃ t, exec (.eccBucketCfg al v) s = .next t ∧ Frame [.mem] s t
        ∧ t.mem = { s.mem with threshold := n.toNat % 256, leakS := n.toNat / 256 % 65536, buckets := [] }))
  ∧ (∀ (s : State) (al : Alias) (v : Word), s.ioUp = true → s.power.ready = true →
    (let n := aliasApplied al (BitVec.ofNat 32 ((if s.evt.en then 1 else 0) + if s.evt.intEn then 2 else 0)) v
     let e := { s.evt with intEn := n.getLsbD 1 }
     (n.getLsbD 0 = true → s.evt.en = false → ∃ t, exec (.evtCtrlEn al v) s = .next t ∧ Frame [.evt] s t
        ∧ t.evt = if s.ringOk then { e with en := true, head := 0, tail := 0 } else { e with badBase := true })
      ∧ (n.getLsbD 0 = s.evt.en → ∃ t, exec (.evtCtrlEn al v) s = .next t ∧ Frame [.evt] s t ∧ t.evt = e)
      ∧ (n.getLsbD 0 = false → s.evt.en = true →
        let l := s.evt.early ++ s.evt.ring.map fun (r : EvRec) => { r with early := true }
        let gone := l.length - 256
        ∃ t, exec (.evtCtrlEn al v) s = .next t ∧ Frame [.evt] s t
          ∧ t.evt = { e with
              en := false, early := l.take 256, ring := [], lostCount := s.evt.lostCount + BitVec.ofNat 32 gone
              earlyLost := s.evt.earlyLost || decide (0 < gone), lostTail := s.evt.lostTail || decide (0 < gone) }))
    ∧ (let n := aliasApplied al s.evt.tail v
      ((n - s.evt.tail).toNat ≤ (s.evt.head - s.evt.tail).toNat → ∃ t, exec (.evtTail al v) s = .next t
        ∧ Frame [.evt, .ints, .out] s t
        ∧ t.evt = { s.evt with tail := n, out4 := s.evt.intEn && s.ints.enabled && decide (s.evt.head ≠ n) } ∧ t.ints.raised = s.ints.raised)
      ∧ ((s.evt.head - s.evt.tail).toNat < (n - s.evt.tail).toNat → ∃ t, exec (.evtTail al v) s = .next t ∧ Frame [.evt] s t
        ∧ t.evt = { s.evt with badTail := true })))

/-- The 16 vectors: unmasking a vector, or enabling MSI-X without the function mask, sends each pending message once, by the CXL.io stream
toward the host, and clears its pending bit (R354, R413). SMBus: read-word gives the twelve registers of Table 18.4, with the packet error
code where it is asked for (the code's bytes are the model's reading, log 85); write-word clears SB_ALERT by ones and stores SB_ALERT_EN,
and the other codes are read-only; an unlisted code, or a wrong packet error code, is not acknowledged and changes nothing; the alert
response answers while SMB_ALERT# is low (R442, Table 18.4). -/
def Obligations.InterruptsAndManagementBus : Prop :=
  ∀ (s : State),
    (∀ k, s.ioUp = true → s.power.ready = true → k < 16 → s.ints.table.length = 16 → ∃ t, exec (.msixUnmask k) s = .next t
      ∧ Frame [.ints, .out] s t ∧ t.ints.table = updAt s.ints.table k (fun x => { x with masked := false })
      ∧ t.ints = { s.ints with table := t.ints.table, pending := t.ints.pending }
      ∧ if s.ints.enabled && !s.ints.fmask && s.ints.pending.getLsbD k then
          t.out = (s.emit (.msix k)).out ∧ t.ints.pending = s.ints.pending &&& ~~~(1#16 <<< k)
        else t.out = s.out ∧ t.ints.pending = s.ints.pending)
    ∧ (∀ en fm, s.ioUp = true → ∃ t, exec (.msixEnable en fm) s = .next t ∧ Frame [.ints, .out] s t
      ∧ t.ints = { s.ints with enabled := en, fmask := fm, pending := t.ints.pending }
      ∧ ((en && !fm) = false → t.ints.pending = s.ints.pending ∧ t.out = s.out)
      ∧ ((en && !fm) = true →
          let open' (k : Nat) : Bool := !(s.ints.table.getD k ⟨0, 0, true⟩).masked
          let sent := (List.range 10).filter fun k => s.ints.pending.getLsbD k && open' k
          (∀ k < 16, t.ints.pending.getLsbD k = (s.ints.pending.getLsbD k && (decide (10 ≤ k) || !open' k)))
          ∧ (s.ideUp 1 = true → t.out = { s.out with msix := s.out.msix ++ sent })
          ∧ (s.ideUp 1 = false → t.out = { s.out with stalled := s.out.stalled ++ sent.map Posted.msix })))
    ∧ (s.power.powered = true → ∀ code (v : Half),
      (∀ pec, (∀ p, pec = some p → p = smbusPec ([0xB0, BitVec.ofNat 8 code] ++ toLe 2 v.toNat)) →
        ∃ t, exec (.smbusWriteWord code (.write v pec)) s = .next t
          ∧ t = if code = 6 then { s with power := { s.power with smbAlert := s.power.smbAlert &&& ~~~(v.setWidth 5) } }
            else if code = 7 then { s with power := { s.power with smbAlertEn := v.setWidth 5 } }
            else if code ≤ 11 then s else s.answer .unsupported)
      ∧ (∀ p, p ≠ smbusPec ([0xB0, BitVec.ofNat 8 code] ++ toLe 2 v.toNat) →
        ∃ t, exec (.smbusWriteWord code (.write v (some p))) s = .next t ∧ t = s.answer .unsupported))
    ∧ (s.power.powered = true → ∀ code pec,
      let regs : List Nat := [0xB0,
        (1 + (if s.power.ready then 2 else 0) + s.power.phase * 4 + s.fuses.state * 32 + (if s.belfry.hold then 256 else 0)
          + if s.power.berylStop then 512 else 0),
        s.measure.vin, s.measure.meas / 1000, tempByte s.thermal.temp, s.effCap % 512, s.power.smbAlert.toNat, s.power.smbAlertEn.toNat,
        Config.serial.toNat, Config.serial.toNat / 2 ^ 16, Config.serial.toNat / 2 ^ 32, Config.serial.toNat / 2 ^ 48]
      (code ≤ 11 →
        let v : Half := BitVec.ofNat 16 (regs.getD code 0)
        ∃ t, exec (.smbusWriteWord code (.read pec)) s = .next t
          ∧ t = s.answer (.smbus v (if pec then some (smbusPec ([0xB0, BitVec.ofNat 8 code, 0xB1] ++ toLe 2 v.toNat)) else none)))
      ∧ (11 < code → ∃ t, exec (.smbusWriteWord code (.read pec)) s = .next t ∧ t = s.answer .unsupported))
    ∧ (s.power.powered = true → ∃ t, exec .smbusAlertResponse s = .next t
      ∧ t = s.answer (if s.power.smbAlert &&& s.power.smbAlertEn = 0 then .unsupported else .word 0x58))

/-! ### The port -/

/-- The host's window maps one to one from device address 0 at the base that its decoder holds, and an access outside it is an unsupported
request (R337). A host read returns the line as stored, while a route leads to it and it meets no error, no retired page and no march, and
the snoop filter then tracks the line, a full filter snooping its oldest first; a host write stores its 64 bytes and no other, and drops
the write-backs queued for them (R309); a read of a retired page is poisoned and a write to one discarded, each counted; in SCRAPPED a
read is poisoned and a write discarded; under a march a read's bytes are free values and a write may be lost (R282, R293, R304, R338,
R402).

A device write to a line that the host may hold first sends a back-invalidation snoop and waits; the host's answer takes the
line out of the filter and lets the writes that wait for it take place in order, and the command whose last write this was
completes (R338); shown on an unordered write within one line and on every answer whose writes meet no retired page. -/
def Obligations.HostMemoryAccesses : Prop :=
  (∀ (s : State) (base : Nat), s.memUp = true → s.power.hdm = some (base, devEnd) → s.mem.cells.wf = true →
    (∀ errs bs a, a < base ∨ base + devEnd ≤ a → ∀ i ∈ [Instr.hostMemRead a errs, .hostMemWrite a bs], ∃ t, exec i s = .next t
        ∧ t = s.emit (.answer 3 .unsupported))
    ∧ (∀ a errs, a < devEnd → s.fuses.state = 4 → ∃ t, exec (.hostMemRead (base + a) errs) s = .next t
        ∧ t = s.emit (.answer 3 .poison))
    ∧ (∀ a (bs : List Byte), a < devEnd → s.fuses.state = 4 → ∃ t, exec (.hostMemWrite (base + a) bs) s = .next t ∧ t = s)
    ∧ (∀ a, a < devEnd → s.fuses.state ≠ 4 → s.underMarch (a / 64) = true →
      (∀ errs, s.ideUp 3 = true → ∃ t bs, exec (.hostMemRead (base + a) errs) s = .next t ∧ Frame [.out, .freeCtr] s t
        ∧ t.out = { s.out with resp := .data bs } ∧ bs.length = 64)
      ∧ ∀ bs : List Byte, bs.length = 64 → s.mem.pageRetired (a / 65536) = false → ∃ t, exec (.hostMemWrite (base + a) bs) s = .next t
        ∧ Frame [.mem, .freeCtr] s t ∧ (t.mem = s.mem ∨ memRead t.mem.cells (a / 64 * 64) 64 = bs))
    ∧ ∀ a, a < devEnd → s.fuses.state ≠ 4 → s.underMarch (a / 64) = false →
      (s.ideUp 3 = true → s.mem.pageRetired (a / 65536) = false → s.Reached (a / 64 * 64) 64 →
        ∃ t, exec (.hostMemRead (base + a) []) s = .next t ∧ Frame [.mem, .out] s t
        ∧ t.out.resp = .data (memRead s.mem.cells (a / 64 * 64) 64)
        ∧ (if s.mem.snoop.contains (a / 64) then t.mem = s.mem ∧ t.out.snoops = s.out.snoops
          else if s.mem.snoop.length < 1048576 then t.mem = { s.mem with snoop := s.mem.snoop ++ [a / 64] } ∧ t.out.snoops = s.out.snoops
          else t.mem = { s.mem with snoop := s.mem.snoop.drop 1 ++ [a / 64] } ∧ t.out.snoops = s.out.snoops ++ s.mem.snoop.take 1))
      ∧ (∀ errs, s.mem.pageRetired (a / 65536) = true → ∃ t, exec (.hostMemRead (base + a) errs) s = .next t
        ∧ t = ({ s with mem := { s.mem with retiredHit := s.mem.retiredHit + 1 } } : State).emit (.answer 3 .poison))
      ∧ ∀ bs : List Byte, bs.length = 64 →
        let lo := a / 64 * 64
        (s.mem.pageRetired (a / 65536) = false → ∃ t, exec (.hostMemWrite (base + a) bs) s = .next t
          ∧ Frame [.mem] s t ∧ memRead t.mem.cells lo 64 = bs
          ∧ (∀ q, q < lo ∨ lo + 64 ≤ q → memGet t.mem.cells q = memGet s.mem.cells q)
          ∧ t.mem.waiting = s.mem.waiting.filter (fun (w : WaitWrite) => !(w.owner == 5 && decide (lo ≤ w.addr) && decide (w.addr < lo + 64)))
          ∧ (∀ o ∈ t.mem.onyx, ∀ w ∈ o.writeBacks, w.addr < lo ∨ lo + 64 ≤ w.addr)
          ∧ t.mem = { s.mem with cells := t.mem.cells, onyx := t.mem.onyx, waiting := t.mem.waiting })
        ∧ (s.mem.pageRetired (a / 65536) = true → ∃ t, exec (.hostMemWrite (base + a) bs) s = .next t
          ∧ t = { s with mem := { s.mem with retiredHit := s.mem.retiredHit + 1 } }))
  ∧ (∀ (s : State) (l : Nat), s.power.powered = true → s.power.linkUp = true → s.ideUp 2 = true →
    (∀ w ∈ s.mem.waiting, w.addr / 64 = l → s.mem.pageRetired (w.addr / 65536) = false ∧ w.addr % 64 + w.bytes.length ≤ 64) →
    ∃ t, exec (.backInvalidationResponse l) s = .next t ∧ Frame [.mem, .late, .mailboxes, .ints, .out] s t
      ∧ t.mem.snoop = s.mem.snoop.filter (fun k => k ≠ l) ∧ t.mem.waiting = s.mem.waiting.filter (fun (w : WaitWrite) => w.addr / 64 ≠ l)
      ∧ t.mem.cells = (s.mem.waiting.filter fun (w : WaitWrite) => w.addr / 64 = l).foldl (fun c (w : WaitWrite) => memWrite c w.addr w.bytes)
          s.mem.cells
      ∧ t.late = s.late.filter (fun (d : Late) => t.mem.owes d.mbx) ∧ (s.late = [] → Frame [.mem] s t)
      ∧ (∀ d, s.late = [d] → d.mbx < 4 → s.mailboxes.length = 4 → (s.mbx d.mbx).payload.wf = true →
          (∀ w ∈ s.mem.waiting, w.owner = d.mbx → w.addr / 64 = l) →
          t.late = [] ∧ (t.mbx d.mbx).Holds d.status d.data ∧ s.OthersKept d.mbx t))
  ∧ (∀ (s : State) (a : Nat) (bs : List Byte), s.ioUp = true → s.ideUp 2 = true → s.ideUp 3 = true → 0xBFA0000000 ≤ a → bs ≠ [] →
    a % 64 + bs.length ≤ 64 → a + bs.length ≤ 0xC000000000 → s.mem.cells.wf = true → s.mem.waiting = [] → s.late = [] →
    s.mem.pageRetired (a / 65536) = false → s.ioReach a = true → a / 64 ∈ s.mem.snoop →
    let lo := a / 32 * 32
    let hi := roundUp (a + bs.length) 32
    ∃ t u, exec (.unorderedIoWrite a bs) s = .next t ∧ t.mem.cells = s.mem.cells ∧ t.out.snoops = s.out.snoops ++ [a / 64]
      ∧ exec (.backInvalidationResponse (a / 64)) t = .next u ∧ a / 64 ∉ u.mem.snoop ∧ u.mem.waiting = []
      ∧ memRead u.mem.cells a bs.length = bs ∧ ∀ q, q < lo ∨ hi ≤ q → memGet u.mem.cells q = memGet s.mem.cells q)

/-- The module accepts unordered I/O writes to the landing area only; one to any other device address completes with unsupported
request and changes nothing (R340). One to the landing area is in device memory as the module's units see it, and no byte outside its
beats of 32 bytes changes (what its first and last beat hold beside it is the model's free value, log 83): at once where the host holds no
line of it, else once the host has answered (R338); bytes of a retired page are discarded and counted (R293), shown within one line. -/
def Obligations.UnorderedWritesOnlyToLandingArea : Prop :=
  ∀ (s : State) (a : Nat) (bs : List Byte), s.ioUp = true →
    (a < 0xBFA0000000 ∨ 0xC000000000 < a + bs.length → ∃ t, exec (.unorderedIoWrite a bs) s = .next t
      ∧ t = s.emit (.answer 1 .unsupported))
    ∧ (0xBFA0000000 ≤ a → a + bs.length ≤ 0xC000000000 → bs ≠ [] → s.ioReach a = true →
      let lo := a / 32 * 32
      let hi := roundUp (a + bs.length) 32
      (s.mem.cells.wf = true → s.mem.touchesRetired a bs.length = false →
        (∀ w ∈ s.mem.waiting, w.addr < lo ∧ w.addr + w.bytes.length ≤ lo ∨ hi ≤ w.addr) →
        ∃ t, exec (.unorderedIoWrite a bs) s = .next t ∧ Frame [.mem, .out, .freeCtr] s t ∧ memRead t.mem.view a bs.length = bs
          ∧ (∀ q, q < lo ∨ hi ≤ q → memGet t.mem.view q = memGet s.mem.view q)
          ∧ (s.Untracked a bs.length → Frame [.mem, .freeCtr] s t ∧ t.mem.waiting = s.mem.waiting
              ∧ memRead t.mem.cells a bs.length = bs ∧ ∀ q, q < lo ∨ hi ≤ q → memGet t.mem.cells q = memGet s.mem.cells q))
      ∧ (a % 64 + bs.length ≤ 64 → a / 64 ∉ s.mem.snoop → s.mem.pageRetired (a / 65536) = true →
        ∃ t, exec (.unorderedIoWrite a bs) s = .next t ∧ Frame [.mem, .freeCtr] s t
          ∧ t.mem = { s.mem with retiredHit := s.mem.retiredHit + 1 }))

/-- At most four sessions, and none while the Keep is not ready; the capabilities and algorithms that the module advertises, and the
measurement blocks of Table 16.8 (R412; by the codes of SPDM 1.2, and by the session's number in front of a secured message, log 19). A
session programs the keys of an IDE stream, and a stream that a wipe left Insecure stays so until the host disables IDE on the link, when
what waited for it leaves (R413); CDAT answers (R341). The bytes in which the answers are framed are free values (log 19). -/
def Obligations.SessionsAndStreams : Prop :=
  ∀ (s : State) (req : List Byte), s.power.powered = true → s.power.linkUp = true →
    (s.keep.state = 1 → s.keep.sessions.length < 4 → ∃ t k bs, exec (.keyExchange req) s = .next t
      ∧ k.1 ∉ s.keep.sessions.map Prod.fst ∧ t.keep = { s.keep with sessions := s.keep.sessions ++ [k] }
      ∧ Frame [.keep, .out, .freeCtr] s t ∧ t.out = { s.out with resp := .spdm .other bs })
    ∧ (s.keep.state ≠ 1 ∨ 4 ≤ s.keep.sessions.length → ∃ t, exec (.keyExchange req) s = .next t
      ∧ t = s.answer (.data [0x12, 0x7F]))
    ∧ (s.keep.state ≠ 1 → ∃ t, exec (.spdmRequest req) s = .next t ∧ t = s.answer (.data [0x12, 0x7F]))
    ∧ (s.keep.state = 1 →
      let inside := s.keep.sessions.any fun p => p.1 == fieldLe req 0 4
      let m := if inside then req.drop 4 else req
      let code := fieldLe m 1 1
      let block := fieldLe m 3 1
      let blocks : List (Nat × List Byte) := [(1, sliceB Config.romDigest 0 64), (2, sliceB s.ext.digest 0 64),
        (3, sha512 (s.fuses.bytes ++ sliceB s.fuses.ownerHash 0 64)), (4, [BitVec.ofNat 8 s.fuses.state, if s.keep.advanced then 1 else 0])]
      let saying (r : SpdmSays) : Prop := ∃ t bs, exec (.spdmRequest req) s = .next t ∧ Frame [.out, .freeCtr] s t
        ∧ t.out = { s.out with resp := .spdm r bs }
      (code = 0xE1 → saying (.caps ["CHAL_CAP", "MEAS_CAP", "MEAS_FRESH_CAP", "KEY_EX_CAP", "ENCRYPT_CAP", "MAC_CAP", "HBEAT_CAP",
          "PUB_KEY_ID_CAP"]))
      ∧ (code = 0xE3 → saying (.algs ["RSAPSS_4096", "SHA-512", "secp384r1", "AES-256-GCM"]))
      ∧ (code = 0xE0 → block = 0 → saying (.count 4))
      ∧ (code = 0xE0 → block = 0xFF → saying (.blocks blocks))
      ∧ (code = 0xE0 → 1 ≤ block → block ≤ 4 → saying (.blocks ((blocks.drop (block - 1)).take 1)))
      ∧ (code ∈ [0x81, 0x82, 0xE6, 0xE7] ∨ code = 0xE0 ∧ 4 < block ∧ block ≠ 0xFF → ∃ t, exec (.spdmRequest req) s = .next t
          ∧ t = s.answer (.data [0x12, 0x7F]))
      ∧ (code ∉ [0xE0, 0xE1, 0xE3, 0x81, 0x82, 0xE6, 0xE7, 0xEC] → saying .other)
      ∧ (code = 0xEC → ∃ t bs, exec (.spdmRequest req) s = .next t ∧ Frame [.keep, .out, .freeCtr] s t
          ∧ t.out = { s.out with resp := .spdm .other bs }
          ∧ t.keep = { s.keep with
              sessions := if inside then s.keep.sessions.filter (fun p => p.1 != fieldLe req 0 4) else s.keep.sessions }))
    ∧ (∀ k cm th, s.keep.state = 1 → k ∈ s.keep.sessions.map Prod.fst → s.keep.ide.length = 4 → ∃ t, exec (.ideKm k cm th req) s = .next t
      ∧ Frame [.keep, .out, .freeCtr] s t ∧ t.keep = { s.keep with ide := t.keep.ide, ideKeys := t.keep.ideKeys }
      ∧ ∀ j < 4, t.keep.ide.getD j .off = (if j = (if cm then 2 else 0) + (if th then 1 else 0) ∧ s.keep.ide.getD j .off ≠ .insecure
          then .secure else s.keep.ide.getD j .off)
        ∧ (j ≠ (if cm then 2 else 0) + (if th then 1 else 0) → t.keep.ideKeys[j]? = s.keep.ideKeys[j]?))
    ∧ (∀ k cm th, s.keep.state ≠ 1 ∨ k ∉ s.keep.sessions.map Prod.fst → ∃ t, exec (.ideKm k cm th req) s = .next t
      ∧ t = s.answer (.data [0x12, 0x7F]))
    ∧ (∃ t, exec .ideDisable s = .next t ∧ Frame [.keep, .out] s t
      ∧ t.keep = { s.keep with ide := s.keep.ide.map fun _ => IdeState.off, ideKeys := List.replicate 4 [] }
      ∧ t.out.stalled = [] ∧ t.out.msix = s.out.msix ++ s.out.stalled.filterMap (fun | .msix v => some v | _ => none)
      ∧ t.out.snoops = s.out.snoops ++ s.out.stalled.filterMap (fun | .snoop l => some l | _ => none)
      ∧ t.out.aer = s.out.aer ++ s.out.stalled.filterMap (fun | .aer a => some a | _ => none)
      ∧ (s.out.stalled = [] → t.out = s.out))
    ∧ ∃ t d, exec (.cdatRead req) s = .next t ∧ t = s.answer (.data d) ∧ d ≠ []

/-! ### Power, resets and start-up -/

/-- A loss of power, an over-voltage and a thermal trip leave nothing but the fuses, the tamper pins and the state of the power
pins; a thermal trip keeps THERM_TRIP# low until the input has fallen (R421, Tables 12.3, 12.4 and 17.3). The queue of waiting commands and
the model's own counter of free values stand; shown with no fuse write begun. A fuse write that has begun is cut: its slot is programmed
or interrupted, and nothing else of the ledger changes (R406, R407); shown on a lowering of the ceiling.

Power-good, the release of PERST# and a conventional reset begin phase 1 with every register at its power-up value and the fuses
as they stand; PERST# low holds the block, and a tripped block stays off (R416, R419, Tables 17.3 and 18.6). -/
def Obligations.PowerLossAndResets : Prop :=
  (∀ s : State, s.power.powered = true → (∀ j ∈ s.jobs, j.2 = false) →
    ∀ p ∈ [(Instr.powerLoss, false), (.overVoltage, s.power.tripped), (.thermalTrip, true)], ∃ t, exec p.1 s = .next t
      ∧ t.power = { Power.reset with powered := false, tripped := p.2, perstLow := s.power.perstLow }
      ∧ t.keep = { Keep.reset with live := s.keep.live } ∧ Frame [.power, .keep, .freeCtr] (State.powerUp s.pending s.fuses) t
      ∧ t.fuses = s.fuses ∧ t.pending = s.pending ∧ t.freeCtr = s.freeCtr)
  ∧ (∀ s : State, ∃ t, exec .powerLoss s = .next t ∧ t.power.powered = false ∧ t.power.tripped = false)
  ∧ (∀ (s : State) (q : Ask), s.power.powered = true → s.jobs = [(q, true)] → q.opcode = 0x0503 → fieldLe q.payload 0 1 = 1 →
    ∀ i ∈ [Instr.powerLoss, .overVoltage, .thermalTrip], ∃ t, exec i s = .next t ∧ t.power.powered = false
      ∧ ∃ ok, t.fuses = { s.fuses with ceil := s.fuses.ceil ++ [⟨fieldLe q.payload 2 2, none, [], [], ok⟩] })
  ∧ (∀ s : State, (∀ j ∈ s.jobs, j.2 = false) →
    let fresh (low : Bool) (t : State) : Prop := t.power = { Power.reset with perstLow := low } ∧ t.keep = { Keep.reset with live := s.keep.live }
      ∧ Frame [.power, .keep, .freeCtr] (State.powerUp s.pending s.fuses) t
    (s.power.powered = false → s.power.tripped = false → ∃ t, exec .powerGood s = .next t ∧ fresh s.power.perstLow t)
    ∧ (s.power.powered = false → s.power.tripped = true → exec .powerGood s = .next s)
    ∧ (∀ perst, s.power.powered = true → ∃ t, exec (.conventionalReset perst) s = .next t ∧ fresh (s.power.perstLow || perst) t)
    ∧ (s.power.powered = true → s.power.perstLow = true → ∃ t, exec .perstDeassertion s = .next t ∧ fresh false t))

/-- A start-up in which nothing fails goes through its six phases in order and ends Ready: the towers that are not fused out are
admitted with epoch 1 in phase 3, the memory reads zero after phase 4, and at Ready the commands that waited are taken in the order
of their GO writes; shown with none waiting (R350, R416, R417, Table 17.1). A quarter's trim is the first step at which its monitors
pass; one that never passes stands at 50 mV and raises HOLD of cause AGEING (R332).

A start-up phase that overruns its time, or that finds what Table 17.2 names, halts the start-up: READY stays 0 and the phase
stays (R418). -/
def Obligations.StartupPhases : Prop :=
  (∀ (s : State) (r : PhaseReport), s.power.powered = true → s.power.perstLow = false → s.power.ready = false → s.power.halted = false →
    s.goOrder = [] → r.overrun = false → r.workingBad = false → r.keepBad = false → r.fails = [] → r.stackBad = none → s.keep.live = 0 →
    (∀ x ∈ s.towers, x.state = 0 ∨ x.state = 3) → s.fuses.interruptedSlots = [] →
    (s.power.phase = 1 → s.fuses.retiredTowers = [] → ∃ t, exec (.startupPhaseEnd r) s = .next t ∧ t.power = { s.power with phase := 2 }
      ∧ Frame [.power, .keep] s t)
    ∧ (s.power.phase = 2 → s.keep.state ≠ 3 → ∃ t, exec (.startupPhaseEnd r) s = .next t ∧ t.power = { s.power with phase := 3 }
      ∧ t.keep = { s.keep with
          state := if s.fuses.hasIdentity then 1 else 0, armed := true
          identity := if s.fuses.hasIdentity then some (identityKey s.fuses.secret) else none } ∧ Frame [.power, .keep] s t)
    ∧ (s.power.phase = 3 → ∃ t, exec (.startupPhaseEnd r) s = .next t ∧ t.power = { s.power with phase := 4, ioSramBad := false }
      ∧ t.domeEpoch = 1 ∧ (∀ x ∈ t.towers, x.state = 0 → x.admitted = true ∧ x.epoch = 1)
      ∧ t.towers.length = s.towers.length ∧ Frame [.power, .towers, .domeEpoch, .mem] s t)
    ∧ (s.power.phase = 4 → ∃ t, exec (.startupPhaseEnd r) s = .next t ∧ t.power = { s.power with phase := 5 } ∧ t.mem = { s.mem with cells := [] }
      ∧ Frame [.power, .mem] s t)
    ∧ (s.power.phase = 5 →
      let passes (q k : Nat) : Prop := ∀ c ∈ r.readings.getD k [], quarterOf c.1 = q → monitorsMeet 36 c = true
      ((∀ q < 4, ∃ k ≤ 20, passes q k) → ∃ t, exec (.startupPhaseEnd r) s = .next t ∧ t.power = { s.power with phase := 6 }
        ∧ (∀ q < 4, passes q (t.thermal.trim.getD q 0) ∧ ∀ k < t.thermal.trim.getD q 0, ¬ passes q k)
        ∧ t.thermal = { s.thermal with trim := t.thermal.trim, setpoint := ({ s.thermal with trim := t.thermal.trim } : Thermal).setpoints 36 }
        ∧ Frame [.power, .thermal] s t)
      ∧ (∀ q < 4, (∀ k ≤ 20, ¬ passes q k) → s.belfry.holds = [] → s.barrierIdx = none → ∃ t, exec (.startupPhaseEnd r) s = .next t
        ∧ t.power = { s.power with phase := 6 } ∧ t.thermal.trim.getD q 0 = 20 ∧ (∃ mx, t.belfry.holds = [⟨4, mx, false⟩])
        ∧ Frame [.power, .thermal, .belfry, .evt, .ints, .out] s t))
    ∧ (s.power.phase = 6 → ∃ t, exec (.startupPhaseEnd r) s = .next t ∧ t.power = { s.power with ready := true, smbAlert := s.power.smbAlert ||| 8 }
      ∧ Frame [.power, .thermal] s t))
  ∧ (∀ (s : State) (r : PhaseReport), s.power.powered = true → s.power.perstLow = false → s.power.ready = false → s.power.halted = false →
    s.goOrder = [] → (s.power.phase = 1 ∧ s.fuses.interruptedSlots = [] ∧ (r.workingBad = true ∨ r.overrun = true) ∨ s.power.phase = 3 ∧ r.overrun = true
      ∨ s.power.phase = 4 ∧ (r.stackBad.isSome = true ∨ r.overrun = true) ∨ s.power.phase = 5 ∧ r.overrun = true
      ∨ s.power.phase = 6 ∧ r.overrun = true) →
    ∃ t, exec (.startupPhaseEnd r) s = .next t ∧ t.power = { s.power with halted := true } ∧ Frame [.power, .evt] s t)

/-- The port's link comes up at a rate and a width of Table 13.1 (free values); the HDM decoder holds the base and size that the host
programs, and CXL.mem accesses pass while it covers all 768 GiB (R337, R416). Tamper inputs that fire together wipe the Keep once: the
identity key, the sessions and the IDE keys are gone, every stream that IDE protects is Insecure, KEEP_WIPES counts, and a security
command in flight ends LOCKED; an input that is not armed, or that has fired, shows its level only; one that goes inactive is armed
again, and KEEP_TAMPER is cleared by ones at the base and SET addresses except where an input that fired is still active (R396, R410,
R411, R415, Table 13.3). -/
def Obligations.PortAndTamper : Prop :=
  ∀ s : State,
    (s.power.powered = true → ∃ t, exec .cxlLinkUp s = .next t ∧ Frame [.power, .freeCtr] s t
      ∧ t.power = { s.power with linkUp := true, rate := t.power.rate, width := t.power.width }
      ∧ t.power.rate ∈ [64, 32, 16, 8] ∧ t.power.width ∈ [16, 8, 4] ∧ t.freeCtr = s.freeCtr + 1)
    ∧ (∀ base size, s.ioUp = true → ∃ t, exec (.hdmDecoderProgram base size) s = .next t
      ∧ t = { s with power := { s.power with hdm := some (base, size) } }
      ∧ (s.ideUp 2 = true → (t.memUp = true ↔ size = 0xC000000000)))
    ∧ (∀ l : List Nat, s.keep.armed = true → (∃ i ∈ l, i < 3 ∧ s.keep.fired.getLsbD i = false) →
      let wiped (t : State) : Prop :=
        t.keep = { s.keep with
            state := 2, sessions := [], identity := none, ideKeys := List.replicate 4 [], wipes := s.keep.wipes + 1
            ide := s.keep.ide.map (fun x => if x = .off then .off else .insecure)
            live := t.keep.live, tamper := t.keep.tamper, fired := t.keep.fired }
          ∧ (∀ i < 3, t.keep.live.getLsbD i = (s.keep.live.getLsbD i || l.contains i)
            ∧ t.keep.fired.getLsbD i = (s.keep.fired.getLsbD i || l.contains i)
            ∧ t.keep.tamper.getLsbD i = (s.keep.tamper.getLsbD i || (l.contains i && !s.keep.fired.getLsbD i)))
          ∧ t.ints.raised.getLsbD 8 = true
      (s.jobs = [] → ∃ t, exec (.tamper l) s = .next t ∧ wiped t ∧ Frame [.keep, .evt, .ints, .out] s t)
      ∧ (∀ q, s.jobs = [(q, false)] → q.opcode = 0x0501 → q.mbx < 4 → s.mailboxes.length = 4 → (s.mbx q.mbx).payload.wf = true →
          s.mem.owes q.mbx = false → ∃ t, exec (.tamper l) s = .next t ∧ wiped t ∧ t.jobs = []
          ∧ (t.mbx q.mbx).Holds 0x0200 (List.replicate 768 0) ∧ s.OthersKept q.mbx t
          ∧ Frame [.keep, .evt, .ints, .out, .jobs, .mailboxes] s t))
    ∧ (∀ l : List Nat, s.keep.armed = false ∨ (∀ i ∈ l, i < 3 → s.keep.fired.getLsbD i = true) → ∃ t, exec (.tamper l) s = .next t
      ∧ Frame [.keep] s t ∧ t.keep = { s.keep with live := t.keep.live }
      ∧ ∀ i < 3, t.keep.live.getLsbD i = (s.keep.live.getLsbD i || l.contains i))
    ∧ (∀ i < 3, ∃ t, exec (.tamperInputInactive i) s = .next t
      ∧ t = { s with keep := { s.keep with live := s.keep.live &&& ~~~(1#3 <<< i), fired := s.keep.fired &&& ~~~(1#3 <<< i) } })
    ∧ ∀ (al : Alias) (v : Word), s.ioUp = true → ∃ t, exec (.keepTamperClear al v) s = .next t
      ∧ t = { s with keep := { s.keep with
          tamper := (if al = .base ∨ al = .set then s.keep.tamper &&& ~~~(v.setWidth 3) else s.keep.tamper)
            ||| (s.keep.live &&& s.keep.fired) } }

/-- A function level reset stops the steps and the commands in flight, empties the slots, the mailboxes, the event log, the interrupts,
the topology and the extension, and keeps the fuses, the Keep, the power settings, the links, and the retired memory; every byte of
memory stands unless a layer was in UPDATE or a march was under way (R420, R431); the modes of affine regions are all of
memory that may change besides (R193, log 44); shown with no fuse write begun. -/
def Obligations.FunctionLevelReset : Prop :=
  ∀ s : State, s.ioUp = true → (∀ j ∈ s.jobs, j.2 = false) → ∃ t, exec .functionLevelReset s = .next t
    ∧ t.steps = [] ∧ t.slots = List.replicate 4 Slot.reset ∧ t.mailboxes = List.replicate 4 Mailbox.reset
    ∧ t.goOrder = [] ∧ t.jobs = [] ∧ t.late = [] ∧ t.ints = Ints.reset ∧ t.evt = { EvtLog.reset with seq := s.evt.seq }
    ∧ t.ext = Extension.reset
    ∧ t.fabric = { s.fabric with
        topo := none, noCredit := [], resent := [], writing := [], outbox := []
        links := s.fabric.links.map fun k => { k with mismatch := false, named := none, relay := none } }
    ∧ t.power = { s.power with berylStop := false }
    ∧ t.belfry = { s.belfry with coolant := 3 } ∧ t.mem.pages = s.mem.pages ∧ t.mem.banks = s.mem.banks
    ∧ (∀ x ∈ t.towers, x.queue = [] ∧ x.started = [] ∧ x.entries = [])
    ∧ ((∀ p ∈ s.steps, p.inUpdate = []) → (∀ j ∈ s.jobs, j.1.opcode ≠ 0x0304) →
        t.mem.cells = s.mem.cells ∧ t.mem = { s.mem with affine := t.mem.affine })
    ∧ Frame [.steps, .slots, .mailboxes, .goOrder, .jobs, .late, .ints, .evt, .ext, .fabric, .belfry, .mem, .towers, .power, .freeCtr] s t

/-! ### Belfry and the links -/

/-- A supply below 49.0 V raises the bubble floor of 48, counts, and raises vector 6; 50.0 V for 1 ms lifts the floor (R323,
Table 12.4).

A junction sample (R322, Table 12.3): the hottest junction is stored; crossing 95 °C upward warns once; from 100 °C the thermal
cap falls by 20 W at once and at every 1 ms step, not below 800 W, and at or below 97 °C it rises by 20 W a step, not above
2,400 W, and the rail of the sensor takes the reading (R316); shown on one reading, below 105 °C, with no floor in force. -/
def Obligations.SupplyAndThermal : Prop :=
  (∀ s : State, s.power.powered = true →
    (∀ mv < 49000, ∃ t, exec (.supplyWarn mv) s = .next t ∧ t.belfry = { s.belfry with supplyFloor := true, bubble := max s.belfry.bubble 48 }
      ∧ t.measure = { s.measure with supplyWarn := s.measure.supplyWarn + 1 } ∧ t.power = { s.power with smbAlert := s.power.smbAlert ||| 4 }
      ∧ t.ints.raised = s.ints.raised ||| 64 ∧ Frame [.belfry, .measure, .power, .evt, .ints, .out] s t)
    ∧ (∀ mv, 49000 ≤ mv → exec (.supplyWarn mv) s = .next s)
    ∧ ∀ lowest micros, s.belfry.supplyFloor = true → ∃ t, exec (.supplyResume lowest micros) s = .next t
      ∧ t.belfry = { s.belfry with supplyFloor := false } ∧ t.ints.raised = s.ints.raised ||| 64 ∧ Frame [.belfry, .evt, .ints, .out] s t)
  ∧ (∀ (s : State) (j : Junction), s.power.powered = true → s.belfry.thermalFloor = false → s.towers.length = 324 →
    (j.temp < 105 → ∃ t, exec (.thermalSample [j]) s = .next t ∧ t.thermal.temp = j.temp ∧ t.thermal.unit = j.unit
      ∧ t.thermal.falling = decide (100 ≤ j.temp) ∧ t.thermal.rising = decide (j.temp ≤ 97) ∧ t.thermal.above95 = decide (95 ≤ j.temp)
      ∧ t.belfry = (if 100 ≤ j.temp ∧ s.thermal.falling = false then { s.belfry with thermalCap := max 80 (s.belfry.thermalCap - 2) } else s.belfry)
      ∧ t.ints.raised = (if 95 ≤ j.temp ∧ s.thermal.above95 = false then s.ints.raised ||| 128 else s.ints.raised)
      ∧ (j.unit < 324 → (s.tower j.unit).inService = true → (t.tower j.unit).tj = BitVec.ofInt 8 j.temp)
      ∧ (∀ r, t.thermal.rails[r]? = (s.thermal.rails[r]?).map fun x => if railOf j.unit = r then j.temp else x)
      ∧ Frame [.thermal, .belfry, .towers, .power, .evt, .ints, .out] s t)
    ∧ ∃ t, exec .thermalCapStep s = .next t ∧ Frame [.belfry] s t
      ∧ t.belfry = { s.belfry with thermalCap := if s.thermal.falling then max 80 (s.belfry.thermalCap - 2)
          else if s.thermal.rising then min 240 (s.belfry.thermalCap + 2) else s.belfry.thermalCap })

/-- In every cycle of a report exactly one of the five classes takes each of the 32 issue slots: the classes that a report adds sum
to 32 slots a cycle, whatever the counts that the world names, and the counters of a frozen tower stand (R34, R35, R316, R321). No
slot that a bubble suppresses starts work: the report counts at most 1,024 forward and 256 backward cell products and one vector
operation for each free slot, of the work that the tower holds; a starved slot only where a spire has waited for its operands since the
report before, and a stream's wait only where one has stood without a credit (R14, R203, R205). The droop windows of the period reach
BLF_DROOP_WIN with it (R397).

In a frame of 64 cycles without a droop window, b suppresses exactly b cycles: those whose bit-reversed index is below b (R318). -/
def Obligations.SlotClassesSum : Prop :=
  (∀ (s : State) (u : Nat) (a : Activity), s.power.powered = true →
    (u < 324 → s.towers.length = 324 → (s.tower u).inService = true →
      ∃ t n, exec (.towerActivityReport u a) s = .next t ∧ Frame [.towers, .measure, .belfry] s t ∧ (∀ k, k ≠ u → t.towers[k]? = s.towers[k]?)
        ∧ (let o := (s.tower u).ctrs; let n := (t.tower u).ctrs
           if o.freeze then n = o
           else (n.issued.v - o.issued.v) + (n.pwrBub.v - o.pwrBub.v) + (n.droopBub.v - o.droopBub.v) + (n.starved.v - o.starved.v)
              + (n.idle.v - o.idle.v) = BitVec.ofNat 64 (32 * a.cycles)
             ∧ n.cycles.v = o.cycles.v + BitVec.ofNat 64 a.cycles)
        ∧ t.measure.reports = s.measure.reports ++ [(u, n)] ∧ n.cycles = a.cycles
        ∧ (let free := (runCycles (s.tower u).bubble a.cycles ⟨(s.tower u).frame, (s.tower u).droopLeft, 0, 0, 0⟩).free
           n.fwd ≤ 1024 * free ∧ n.bwd ≤ 256 * free ∧ n.vec ≤ free)
        ∧ (t.tower u).fwdWork + n.fwd = (s.tower u).fwdWork ∧ (t.tower u).bwdWork + n.bwd = (s.tower u).bwdWork
        ∧ (t.tower u).vecWork + n.vec = (s.tower u).vecWork
        ∧ (n.starved ≠ 0 → (s.tower u).starved = true) ∧ (t.tower u).starved = (s.tower u).starving
        ∧ (n.stall ≠ 0 → (s.tower u).noCredit = true) ∧ (t.tower u).noCredit = (s.tower u).stalled
        ∧ t.measure.droopWin.v = s.measure.droopWin.v + BitVec.ofNat 64 (s.tower u).droopNew ∧ (t.tower u).droopNew = 0
        ∧ (t.tower u).clock = s.belfry.cadence)
    ∧ (0x180 ≤ u → u < 0x18C → ∃ t, exec (.towerActivityReport u a) s = .next t
        ∧ t = { s with measure := { s.measure with reports := s.measure.reports ++ [(u, a)] } }))
  ∧ (∀ b ≤ 64, (runCycles b 64 ⟨0, 0, 0, 0, 0⟩).power = 32 * b ∧ (runCycles b 64 ⟨0, 0, 0, 0, 0⟩).free = 32 * (64 - b)
    ∧ ∀ i < 64, (runCycles b (i + 1) ⟨0, 0, 0, 0, 0⟩).power = (runCycles b i ⟨0, 0, 0, 0, 0⟩).power + (if bitRev6 i < b then 32 else 0))

/-- The fast loop (R312, R317): the cap in force becomes BLF_CAP's; b rises at once to its target, falls by at most 4 a period, is
at most 60 or the floor of 48, and never lies below a floor in force.

A ramp takes one code a period toward its target, none while the regulators settle, and pauses after a droop window, which counts
(R324); no tower's own clock is then further from the cadence than that step (R21); a ramp that has been cut short to the code in force ends
with the set-points of that code (R311); the settling ends when the regulators report it. -/
def Obligations.FastLoopMovesBubblesAndRamps : Prop :=
  (∀ s : State, s.power.powered = true → s.belfry.bubble ≤ 60 → ∃ t, exec .fastLoopPeriod s = .next t
    ∧ Frame [.measure, .belfry, .thermal, .towers, .out] s t ∧ t.belfry.capEff = s.belfry.cap ∧ t.belfry.bubble ≤ 60
    ∧ s.belfry.bubble ≤ t.belfry.bubble + 4 ∧ (s.belfry.supplyFloor || s.belfry.thermalFloor → 48 ≤ t.belfry.bubble)
    ∧ t.measure.reports = [] ∧ t.belfry.droopSeen = false ∧ t.belfry.cap = s.belfry.cap)
  ∧ (∀ s : State, s.power.powered = true →
    (∃ t, exec .fastLoopPeriod s = .next t ∧
      (s.belfry.settling = true → t.belfry.cadence = s.belfry.cadence)
      ∧ (s.belfry.settling = false → s.belfry.droopSeen = true → s.belfry.rampTarget ≠ s.belfry.cadence →
          t.belfry.cadence = s.belfry.cadence ∧ t.measure.rampPause = s.measure.rampPause + 1)
      ∧ (s.belfry.settling = false → s.belfry.droopSeen = false → s.belfry.cadence < s.belfry.rampTarget → t.belfry.cadence = s.belfry.cadence + 1)
      ∧ (s.belfry.settling = false → s.belfry.droopSeen = false → s.belfry.rampTarget < s.belfry.cadence →
          t.belfry.cadence + 1 = s.belfry.cadence)
      ∧ (t.belfry.cadence ≠ s.belfry.cadence → ∀ x ∈ t.towers, x.clock = s.belfry.cadence)
      ∧ (t.belfry.cadence = s.belfry.cadence → t.towers = s.towers)
      ∧ (s.belfry.settling = false → s.belfry.ramping = true → s.belfry.rampTarget = s.belfry.cadence →
          t.belfry.ramping = false ∧ t.belfry.cadence = s.belfry.cadence ∧ t.thermal.setpoint = s.thermal.setpoints s.belfry.cadence))
    ∧ ∃ t, exec .regulatorSettled s = .next t ∧ t = { s with belfry := { s.belfry with settling := false } })

/-- The slow loop (R315, R319): the correction stays within 0.85 and 1.15; fifty milliseconds of divergence put the block in the
measured-only mode; the clamp closes above the limit of the coolant class and opens at 98% of it; a millisecond of the towers' droop
history ends. A power sample holds every rail and converter, takes the converters' power together and the lowest of their input voltages,
and adds the energy of 50 µs (R310, Table 12.1). -/
def Obligations.SlowLoopCorrects : Prop :=
  ∀ s : State, s.power.powered = true →
    (∃ t, exec .slowLoopPeriod s = .next t ∧ Frame [.measure, .belfry, .towers, .evt, .ints, .out] s t
      ∧ t.towers = s.towers.map (fun x => { x with droopHist := ((0, 0) :: x.droopHist).take 101 })
      ∧ t.measure.cNum * 100 ≥ 85 * t.measure.cDen ∧ t.measure.cNum * 100 ≤ 115 * t.measure.cDen ∧ 0 < t.measure.cDen
      ∧ t.measure.rawN = 0 ∧ t.measure.measN = 0 ∧ t.measure.window.length ≤ 10000
      ∧ t.belfry = { s.belfry with clamp := t.belfry.clamp }
      ∧ (t.measure.average > classLimit s.belfry.coolant * 10000 → t.belfry.clamp = true)
      ∧ (t.measure.average * 100 ≤ classLimit s.belfry.coolant * 10000 * 98 → t.belfry.clamp = false)
      ∧ (s.measure.measOnly = true → t.measure.measOnly = true))
    ∧ ∀ converters rails : List Reading,
      let uw := (converters.map fun c => c.mv * c.ma).sum
      ∃ t, exec (.powerMeasurementSample converters rails) s = .next t ∧ Frame [.measure] s t
        ∧ t.measure = { s.measure with
            meas := uw / 1000, measSum := s.measure.measSum + uw / 1000, measN := s.measure.measN + 1
            vin := t.measure.vin, converters := converters, rails := rails
            energy := ⟨s.measure.energy.v + BitVec.ofNat 64 ((s.measure.energyRem + 50 * uw) / 1000000000), s.measure.energy.shadow⟩
            energyRem := (s.measure.energyRem + 50 * uw) % 1000000000 }
        ∧ (converters ≠ [] → (∃ c ∈ converters, c.mv = t.measure.vin) ∧ ∀ c ∈ converters, t.measure.vin ≤ c.mv)

/-- A droop window adds 64 cycles at its own tower only, another follows at once while the supply is low, and calibration sets the
thresholds 40 mV below the set-points (R320).

The eighth short monitor reading of a quarter in a row raises its trim by one step of 2.5 mV, up to 20 steps; a reading that meets
every monitor starts the count anew; at the bound it raises HOLD of cause AGEING with the HOLD_MAX found, whatever holds already (R331,
R332); shown on readings of one quarter. -/
def Obligations.DroopAndAgeing : Prop :=
  (∀ s : State, s.power.powered = true →
    (∀ u < 324, s.towers.length = 324 → (s.tower u).inService = true → (s.tower u).droopOn = false → ∃ t, exec (.droopDetect u) s = .next t
      ∧ Frame [.towers] s t ∧ (∀ k, k ≠ u → t.towers[k]? = s.towers[k]?)
      ∧ t.tower u = { s.tower u with
          droopOn := true, droopLeft := (s.tower u).droopLeft + 64, droopNew := (s.tower u).droopNew + 1
          droopWin := ⟨(s.tower u).droopWin.v + 1, (s.tower u).droopWin.shadow⟩ })
    ∧ (∀ u < 324, ∀ low, s.towers.length = 324 → (s.tower u).inService = true → (s.tower u).droopOn = true → ∃ t,
        exec (.droopWindowEnd u low) s = .next t ∧ Frame [.towers] s t ∧ (∀ k, k ≠ u → t.towers[k]? = s.towers[k]?)
        ∧ (t.tower u).droopOn = low ∧ (t.tower u).droopLeft = (s.tower u).droopLeft + (if low then 64 else 0))
    ∧ ∃ t, exec .droopCalibration s = .next t ∧ t = { s with thermal := { s.thermal with droopAt := s.thermal.setpoint.map fun v => v - 400 } })
  ∧ (∀ (s : State) (q : Nat) (counts : List (Nat × List Nat)), s.power.powered = true → q < 4 → s.thermal.short.length = 4 →
    s.thermal.trim.length = 4 → s.thermal.setpoint.length = 4 → (∀ p < 4, p ≠ q → s.thermal.short.getD p 0 = 0) →
    (∀ r ∈ counts, quarterOf r.1 = q) → s.thermal.short.getD q 0 < 8 → s.thermal.trim.getD q 0 < 20 →
    let bad : Bool := counts.any fun r => !monitorsMeet s.belfry.cadence r
    let eighth : Bool := bad && s.thermal.short.getD q 0 == 7
    ∃ t, exec (.ageingMonitorRead counts) s = .next t ∧ Frame [.thermal] s t
      ∧ t.thermal.short.getD q 0 = (if bad && !eighth then s.thermal.short.getD q 0 + 1 else 0)
      ∧ t.thermal.trim.getD q 0 = s.thermal.trim.getD q 0 + (if eighth then 1 else 0)
      ∧ t.thermal.setpoint.getD q 0 = s.thermal.setpoint.getD q 0 + (if eighth then 25 else 0)
      ∧ ∀ p < 4, p ≠ q → t.thermal.trim.getD p 0 = s.thermal.trim.getD p 0)
  ∧ (∀ (s : State) (q : Nat) (counts : List (Nat × List Nat)), s.power.powered = true → q < 4 → s.thermal.short.length = 4 →
    (∀ p < 4, p ≠ q → s.thermal.short.getD p 0 = 0) → (∀ r ∈ counts, quarterOf r.1 = q) → s.thermal.short.getD q 0 = 7 →
    20 ≤ s.thermal.trim.getD q 0 → (∃ r ∈ counts, monitorsMeet s.belfry.cadence r = false) → s.barrierIdx = none →
    ∃ t, exec (.ageingMonitorRead counts) s = .next t ∧ Frame [.thermal, .belfry, .evt, .ints, .out] s t
      ∧ t.thermal = { s.thermal with short := updAt s.thermal.short q fun _ => 0 }
      ∧ ⟨4, ageingMax counts, false⟩ ∈ t.belfry.holds ∧ t.belfry.holdMax ≤ ageingMax counts ∧ t.ints.raised = s.ints.raised ||| 64)

/-- A cause of HOLD bounds the cadence by its HOLD_MAX, raises vector 6, and turns an upward ramp above it to it: POWER after 10 ms of full
bubbles, DROOP when a tower in service has spent more than a quarter of its last 10 ms in droop windows (Table 12.5). A cause clears when
its condition has passed, and a HOLD_MAX that rises with it goes out in a beacon; HOLD ends when every cause has cleared and the cadence
is at or below HOLD_MAX (R277, R325, R328, R329); shown while no step stands at its barrier. -/
def Obligations.CadenceHolds : Prop :=
  ∀ (s : State) (u : Nat), s.power.powered = true → s.barrierIdx = none →
    let past : Bool := (s.towers.filter Tower.inService).all Tower.droopLow
    (s.belfry.holds = [] → u < 324 → (s.tower u).inService = true → (s.tower u).droopHigh = true → ∃ t, exec (.cadenceHold 3 u) s = .next t
      ∧ t.belfry.holds = [⟨3, s.belfry.cadence - 2, false⟩] ∧ t.belfry.holdMax = min 36 (s.belfry.cadence - 2) ∧ t.belfry.hold = true
      ∧ t.belfry.cadence = s.belfry.cadence ∧ t.ints.raised = s.ints.raised ||| 64 ∧ Frame [.belfry, .evt, .ints, .out] s t
      ∧ (s.belfry.cadence < s.belfry.rampTarget → t.belfry.rampTarget ≤ t.belfry.holdMax))
    ∧ ((s.tower u).droopHigh = false → exec (.cadenceHold 3 u) s = .next s)
    ∧ (s.belfry.holds = [] → 10000 ≤ s.belfry.fullPeriods → ∃ t, exec (.cadenceHold 1 u) s = .next t
      ∧ t.belfry.holds = [⟨1, s.belfry.cadence - 4, false⟩] ∧ Frame [.belfry, .evt, .ints, .out] s t)
    ∧ (s.belfry.fullPeriods < 10000 → exec (.cadenceHold 1 u) s = .next s)
    ∧ (∀ mx cl, s.belfry.holds = [⟨3, mx, cl⟩] → past = true → s.belfry.cadence ≤ min 36 mx → ∃ t, exec (.holdClear 3) s = .next t
      ∧ t.belfry = { s.belfry with holds := [] } ∧ Frame [.belfry, .out] s t)
    ∧ (∀ mx cl, s.belfry.holds = [⟨3, mx, cl⟩] → past = true → min 36 mx < s.belfry.cadence → ∃ t, exec (.holdClear 3) s = .next t
      ∧ t.belfry = { s.belfry with holds := [⟨3, mx, true⟩] } ∧ Frame [.belfry] s t)
    ∧ (∀ mx, s.belfry.holds = [⟨3, mx, false⟩] → past = false → exec (.holdClear 3) s = .next s)
    ∧ (∀ m1 m3, s.belfry.holds = [⟨1, m1, false⟩, ⟨3, m3, false⟩] → past = true → m3 < m1 → m3 < 36 →
      (∃ k ∈ s.fabric.links, k.state ≠ 0) → ∃ t b, exec (.holdClear 3) s = .next t ∧ Frame [.belfry, .out] s t
      ∧ t.belfry = { s.belfry with holds := [⟨1, m1, false⟩] } ∧ t.out = { s.out with beacons := s.out.beacons ++ [b] }
      ∧ b.holdMax = min 36 m1 ∧ b.hold = true)

/-- A beacon goes out on the links in service with the state of the cadence (R275, Table 10.7). A received one is kept with its time;
with the fresh-beacon wait over, a silent peer no longer delays the check of the cadence (R261, R276); shown while no step stands at its barrier,
or for the wait with no board peer.

A degraded link runs on eight lanes and counts its replays, also one that has not trained before (R434); a link that goes down is out of
service, once, and its traffic takes the board-mate of lowest slot whose links to both ends are in service; the messages that had left over it
without an acknowledgement leave again by that relay, in their order (R278); both are recorded; retraining brings full service, between
steps only (R257). -/
def Obligations.BeaconsAndLinks : Prop :=
  (∀ s : State, s.power.powered = true →
    ((∃ l ∈ s.fabric.links, l.state ≠ 0) → ∃ t b, exec .beaconSend s = .next t ∧ Frame [.out] s t ∧ t.out = { s.out with beacons := s.out.beacons ++ [b] }
      ∧ b.cadence = s.belfry.cadence ∧ b.hold = s.belfry.hold ∧ b.holdMax = s.belfry.holdMax ∧ b.ramping = s.belfry.ramping
      ∧ b.declared = s.fabric.topo.isSome ∧ (s.belfry.pending = none → b.pending = 0xFF))
    ∧ ((∀ l ∈ s.fabric.links, l.state = 0) → exec .beaconSend s = .next s)
    ∧ (∀ l b, l < 7 → s.fabric.links.length = 7 → (s.link l).state ≠ 0 → s.barrierIdx = none → ∃ t, exec (.beaconReceive l b) s = .next t
      ∧ Frame [.fabric, .evt] s t ∧ (t.link l).beacon = some b ∧ (t.link l).seenAt = s.power.time.v ∧ (t.link l).state = (s.link l).state
      ∧ t.fabric.topo = s.fabric.topo)
    ∧ ∀ i p, s.barrierIdx = some i → s.steps[i]? = some p → s.peerLinks = [] → p.checked = false → p.cadence ≤ s.belfry.holdMax → ∃ t,
      exec .freshBeaconWaitExpiry s = .next t ∧ Frame [.steps] s t ∧ t.steps[i]? = some { p with waitOver := true, checked := true })
  ∧ (∀ (s : State) (l : Nat), s.power.powered = true → l < 7 → s.fabric.links.length = 7 →
    let others (t : State) : Prop := ∀ k, k ≠ l → k < 7 → t.link k = { s.link k with relay := (t.link k).relay }
    let kept (t : State) : Prop := t.fabric = { s.fabric with links := t.fabric.links } ∧ t.fabric.links.length = 7 ∧ others t
    (∀ n, (s.link l).down = false ∨ s.steps = [] → ∃ t, exec (.linkDegraded l n) s = .next t ∧ Frame [.fabric, .evt] s t ∧ kept t
      ∧ t.link l = { s.link l with
          state := 1, lanes := 8, down := false, mates := [], relay := none, replays := (s.link l).replays + BitVec.ofNat 32 n })
    ∧ (∀ mates unacked, (s.link l).down = false →
      let gone := s.out.sent.filter fun q => match q.1 with | .link _ k => k == l | _ => false
      let last := gone.drop (gone.length - unacked)
      ∃ t, exec (.linkDown ⟨l, mates, unacked⟩) s = .next t ∧ Frame [.fabric, .evt, .out] s t ∧ kept t
      ∧ t.link l = { s.link l with state := 0, lanes := 0, down := true, mates := mates, relay := (t.link l).relay }
      ∧ (unacked = 0 → t.out = s.out)
      ∧ ((∀ q ∈ last, (s.fabric.topo.bind fun x => x.linkTo q.2.dest) = some l) →
          t.out = { s.out with sent := s.out.sent ++ match (t.link l).relay with
            | some k => last.map fun q => (.relay q.2.dest k, q.2)
            | none => [] })
      ∧ ∀ me, s.fabric.topo.bind Topology.me = some me →
        let ends (r : Nat) : Prop := ∃ k < 7, k ≠ l ∧ k ∈ mates ∧ (s.link k).state ≠ 0 ∧ r = peerSlot me.slot k
        (∀ r, (t.link l).relay = some r → ends r ∧ ∀ q, ends q → r ≤ q) ∧ ((t.link l).relay = none → ∀ q, ¬ ends q))
    ∧ (∀ x : LinkLoss, x.link = l → (s.link l).down = true → exec (.linkDown x) s = .next s)
    ∧ (s.steps = [] → ∃ t, exec (.linkRetrain l) s = .next t ∧ Frame [.fabric] s t ∧ kept t
      ∧ t.link l = { s.link l with state := 2, lanes := 16, down := false, mates := [], relay := none })
    ∧ (s.steps ≠ [] → exec (.linkRetrain l) s = .next s))

/-! ### The dome -/

/-- A control-ring message sets b, or the dome epoch, of a tower in service and nothing else (R13).

A tower that faults leaves service: its queue and streams empty, TWR_STATE 4, the event; a step before its decision fails with
BUS_ERROR (R425, R426). A router fault shows in UNIT_STATUS, makes the module unserviceable, and takes no tower out of service
(R26, R387). -/
def Obligations.ControlRingAndFaults : Prop :=
  (∀ (s : State) (u : Nat), s.power.powered = true → u < 324 → s.towers.length = 324 → (s.tower u).inService = true →
    (∃ t, exec (.controlRingMessage u .bubble) s = .next t ∧ Frame [.towers] s t ∧ (∀ k, k ≠ u → t.towers[k]? = s.towers[k]?)
      ∧ t.tower u = { s.tower u with bubble := s.belfry.bubble })
    ∧ (∃ t, exec (.controlRingMessage u .epoch) s = .next t ∧ Frame [.towers] s t ∧ (∀ k, k ≠ u → t.towers[k]? = s.towers[k]?)
      ∧ t.tower u = { s.tower u with epoch := s.domeEpoch })
    ∧ exec (.controlRingMessage u .config) s = .next s)
  ∧ (∀ (s : State) (u cause : Nat), s.power.powered = true → u < 324 → s.towers.length = 324 →
    ((s.tower u).inService = true → ∃ t, exec (.towerFault u cause) s = .next t
      ∧ (t.tower u).state = 4 ∧ (t.tower u).queue = [] ∧ (t.tower u).started = [] ∧ (t.tower u).streams = [] ∧ (t.tower u).inService = false
      ∧ (∀ k, k ≠ u → (t.tower k).state = (s.tower k).state)
      ∧ (∀ i p, s.earlyIdx = some i → s.steps[i]? = some p → p.ended = .running → t.steps[i]? = some { p with ended := .failed 0x0120 })
      ∧ (s.earlyIdx = none → t.steps = s.steps) ∧ Frame [.towers, .measure, .evt, .steps, .slots] s t
      ∧ t.measure = { s.measure with droopWin := ⟨s.measure.droopWin.v + BitVec.ofNat 64 (s.tower u).droopNew, s.measure.droopWin.shadow⟩ }
      ∧ ((s.tower u).entries = [] → t.slots = s.slots))
    ∧ ∃ t, exec (.routerFault u) s = .next t ∧ Frame [.towers] s t ∧ t.tower u = { s.tower u with routerFault := true }
      ∧ (∀ k, k ≠ u → t.towers[k]? = s.towers[k]?) ∧ t.causes % 2 = 1 ∧ t.activeTowers = s.activeTowers)

/-- A mesh transaction arrives when every router of its route, along x and then along y, works (R22, R26): at a tower, at a stack, or at an
I/O port (R12); the routers on its way have each served the port through which it came (R25), and the outbound ring of the tower that sent
it has given it up, and all before it (R18). It carries its sender's epoch, or the echo of the request's (R427), and a tower takes it only
if that is its own epoch; any other is dropped and counted there, and nothing else changes (R24).

A delivered transfer takes whole slots of 256 bytes of the inbound ring of 512, or waits in the router: none is lost, and those of one
source on one plane keep their order (R18, R23). -/
def Obligations.MeshDeliversByEpoch : Prop :=
  (∀ (s : State) (x : MeshTx), s.power.powered = true → s.towers.length = 324 →
    (s.routeUp x.src x.dst = false → exec (.meshTransaction x) s = .next s)
    ∧ (s.routeUp x.src x.dst = true →
      let sent (k : Nat) : Tower := if x.src = .tower k then (s.tower k).leave x.plane x.dst else s.tower k
      let e : Word := match x.src, x.dst with
        | .tower u, _ => x.epoch.getD (s.tower u).epoch
        | _, .tower v => x.epoch.getD (s.tower v).epoch
        | _, _ => 0
      ∃ t, exec (.meshTransaction x) s = .next t ∧ Frame [.towers] s t ∧ t.towers.length = 324
        ∧ (∀ k, k < 324 → x.dst ≠ .tower k → t.tower k = { sent k with served := (t.tower k).served })
        ∧ ((∀ n ∈ [x.src, x.dst], (nodeAt n).1 < 18 ∧ (nodeAt n).2 < 18) → ∀ h ∈ hopsOf x.src x.dst, x.dst ≠ .tower h.1 →
            (t.tower h.1).served = if x.plane then ((s.tower h.1).served.1, h.2) else (h.2, (s.tower h.1).served.2))
        ∧ ∀ v, x.dst = .tower v → v < 324 →
          let d := sent v
          let y := t.tower v
          (e ≠ d.epoch → y = { d with
              served := y.served
              ctrs := { d.ctrs with staleDrop := d.ctrs.staleDrop + (if d.inService && !d.ctrs.freeze then 1 else 0) } })
          ∧ (e = d.epoch → d.inService = false → y = { d with served := y.served })
          ∧ (e = d.epoch → d.inService = true →
              y = { d with inbound := y.inbound, waiting := y.waiting, served := y.served }
              ∧ (y.inbound ++ y.waiting).Perm (d.inbound.drop x.taken ++ d.waiting ++ [x])
              ∧ (∀ plane src, ((y.inbound ++ y.waiting).filter fun q => q.plane == plane && q.src == src)
                  = (d.inbound.drop x.taken ++ d.waiting ++ [x]).filter fun q => q.plane == plane && q.src == src)
              ∧ (d.inSlots ≤ 512 → y.inSlots ≤ 512)
              ∧ (d.waiting = [] → ((d.inbound.drop x.taken ++ [x]).map fun q => (q.data.length + 255) / 256).sum ≤ 512 →
                  y.inbound = d.inbound.drop x.taken ++ [x] ∧ y.waiting = []))))
  ∧ ∀ a b : Node, (∀ n ∈ [a, b], (nodeAt n).1 < 18 ∧ (nodeAt n).2 < 18) →
      (∀ r ∈ routeOf a b, r / 18 = (nodeAt a).2 ∨ r % 18 = (nodeAt b).1) ∧ (routeOf a b).head? = some (18 * (nodeAt a).2 + (nodeAt a).1)
        ∧ (routeOf a b).getLast? = some (18 * (nodeAt b).2 + (nodeAt b).1)

/-- The steal order and the steal rule (R29): a thief asks exactly the towers of its own quarter at Manhattan distance 1 to 3, nearer
ones first and the lower number first; a victim with n ≥ 2 unpinned items that have not started gives the floor(n / 2) nearest the tail of its
queue, at most 16, and one with fewer gives none; a tower with an empty queue asks the first of the towers that it has not asked, one
with queued items, or without room for the request in its outbound ring, asks nobody, and one without a candidate left stays idle. -/
def Obligations.StealingRule : Prop :=
  (∀ me < 324, (∀ v, v ∈ stealOrder me ↔ v < 324 ∧ quarterOf v = quarterOf me ∧ 1 ≤ towerDist me v ∧ towerDist me v ≤ 3)
      ∧ (stealOrder me).Pairwise fun a b => towerDist me a < towerDist me b ∨ towerDist me a = towerDist me b ∧ a < b)
  ∧ (∀ t : Tower, let n := (t.queue.filter fun i => !i.pinned).length
      (2 ≤ n → t.give.1 = (t.queue.filter fun i => !i.pinned).drop (n - min 16 (n / 2)) ∧ (t.give.1 ++ t.give.2.queue).Perm t.queue
        ∧ t.give.2.started = t.started)
      ∧ (n < 2 → t.give = ([], t)))
  ∧ (∀ (t : Tower) me, (t.queue ≠ [] ∨ t.candidates = some [] ∨ 512 ≤ t.outSlots → t.nextVictim me = none)
      ∧ (t.inService = true → t.stealing = false → t.queue = [] → t.outSlots < 512 →
          t.nextVictim me = (t.candidates.getD (stealOrder me)).head?.map fun v => (v, (t.candidates.getD (stealOrder me)).tail)))

/-- A steal exchange from request to reply: the victim that the thief's order names answers at once with its items, through the rings and
routers between them (R18, R25), and they join the thief's queue and leave the victim's; a stale epoch is dropped and counted; a victim
out of service, or across a failed router, leaves the thief without an answer, and a thief without an answer gives up after 1 µs (R26,
R29, Table 1.6). -/
def Obligations.StealExchange : Prop :=
  ∀ (s : State) (a : Nat), s.power.powered = true → a < 324 → s.towers.length = 324 →
    (∀ v vs, v < 324 → a ≠ v → (s.tower a).nextVictim a = some (v, vs) →
      let reached : Bool := (s.tower v).inService && s.routeUp (.tower a) (.tower v) && s.routeUp (.tower v) (.tower a)
      let asks (t : State) : Prop := t.tower a = { s.tower a with candidates := some vs, stealing := true, outbound := (t.tower a).outbound }
      (reached = true → ∃ t, exec (.stealRequest a v (s.tower v).epoch) s = .next t ∧ Frame [.towers] s t
        ∧ t.tower a = { s.tower a with
            candidates := some vs, stealing := true, reply := some (v, (s.tower v).give.1), outbound := [], served := (t.tower a).served }
        ∧ t.tower v = { (s.tower v).give.2 with
            inbound := (t.tower v).inbound, waiting := (t.tower v).waiting, served := (t.tower v).served
            outbound := [⟨true, .tower a, 256, none⟩] }
        ∧ ∀ k, k < 324 → k ≠ a → k ≠ v → t.tower k = { s.tower k with served := (t.tower k).served })
      ∧ (reached = false → ∃ t, exec (.stealRequest a v (s.tower v).epoch) s = .next t ∧ Frame [.towers] s t ∧ asks t
        ∧ ∀ k, k ≠ a → t.towers[k]? = s.towers[k]?)
      ∧ ∀ e, e ≠ (s.tower v).epoch → ∃ t, exec (.stealRequest a v e) s = .next t ∧ Frame [.towers] s t ∧ asks t
        ∧ t.tower v = (s.tower v).staleDrop ∧ ∀ k, k ≠ a → k ≠ v → t.towers[k]? = s.towers[k]?)
    ∧ (∀ v xs, (s.tower a).reply = some (v, xs) → v ≠ a → (s.tower a).queue.length + xs.length ≤ 256 → ∃ t, exec (.stealReply a) s = .next t
      ∧ Frame [.towers] s t ∧ (t.tower a).queue.Perm ((s.tower a).queue ++ xs)
      ∧ t.tower a = { s.tower a with
          queue := (t.tower a).queue, reply := none, stealing := false
          candidates := if xs = [] then (s.tower a).candidates else none
          used := (s.tower a).used || !xs.isEmpty, ctrs := (t.tower a).ctrs
          inbound := (t.tower a).inbound, waiting := (t.tower a).waiting, served := (t.tower a).served }
      ∧ t.tower v = { (s.tower v).leave true (.tower a) with served := (t.tower v).served }
      ∧ ∀ k, k < 324 → k ≠ a → k ≠ v → t.tower k = { s.tower k with served := (t.tower k).served })
    ∧ ((s.tower a).stealing = true → (s.tower a).reply = none → ∃ t, exec (.stealTimeout a) s = .next t ∧ Frame [.towers] s t
      ∧ t.tower a = { s.tower a with stealing := false } ∧ ∀ k, k ≠ a → t.towers[k]? = s.towers[k]?)

/-- A response, or a far-end gather, that is whole lands: its request is no longer outstanding, its units of 64 bytes stand in the landing
buffer, its bytes count; the front burst is handed to the spires once all that it needs has landed and its SEQ and CHECK are right
(R151, R189, R199, R202). Shown on a stream with at most one burst to pack; behind it the spans that are ready run, a broken order stops
the layer, and Jasper goes on.

A wrong sequence number halts its stream and counts a skew, and its bytes are not taken; the first skew of an attempt wants a repeat of
its layer operation, and its event has the number of the data and the number of the scale (R151, R152, R189). An uncorrectable read halts
its stream and fails the step with BUS_ERROR (R191). An answer with an epoch of before is dropped and counted (R24, R427). A write is
acknowledged once what it writes is in device memory, and its acknowledgement returns the credits of the write that its tag names (R190,
R338). -/
def Obligations.JasperServesStreams : Prop :=
  ∀ (s : State) (u : Nat) (x : Stream) (q : OutReq), s.power.powered = true → u < 324 → s.towers.length = 324 →
    (s.tower u).inService = true → (s.tower u).stream x.num = some x → x.halted = false → q.epoch = (s.tower u).epoch →
    s.routeUp (.tower u) (q.req.port s.mem u) = true → s.routeUp (q.req.port s.mem u) (.tower u) = true →
    let here (a t : State) : Prop := ∀ k, k < 324 → k ≠ u → t.tower k = { a.tower k with served := (t.tower k).served }
    let count (n : Nat) : Quad := if (s.tower u).jsp.freeze then 0 else BitVec.ofNat 64 n
    let due := q.req.block % 64
    (x.kind ≠ 5 → x.sent.find? (fun z => z.slot == q.slot && z.epoch == q.epoch) = some q →
      let whole (b : Burst) : Bool := b.needs.all (x.land q.slot).landed.contains
      (∀ (flips : List (Nat × Byte)) (y : Stream),
        (x.bursts.head?.any whole = false ∧ y = x.land q.slot
          ∨ ∃ b, x.bursts = [b] ∧ whole b = true ∧ b.blocks ≠ 0 ∧ y = (x.land q.slot).deliver b
            ∧ (b.bytes = [] ∨ burstSound (b.arrives flips) = true ∧ burstSeq (b.arrives flips) = x.nextSeq b)) →
        let lands (n : Nat) (i : Instr) : Prop := ∃ s2 : State,
          exec i s = .next (((State.runSpans u x.item 1024 s2).checkOrder u x.num).issueAll u)
          ∧ Frame [.towers] s s2 ∧ here s s2 ∧ (s2.tower u).stream x.num = some y
          ∧ (s2.tower u).jsp.rdBytes.v = (s.tower u).jsp.rdBytes.v + count n ∧ (s2.tower u).jsp.skew = (s.tower u).jsp.skew
        (q.req.pieces = [] → 0 < q.req.len → s.mem.touchesRetired q.req.addr q.req.len = false →
          lands q.req.len (.jasperResponse u ⟨x.num, q.slot, q.epoch, due, flips, [], none⟩))
        ∧ (q.req.pieces ≠ [] → (∀ p ∈ q.req.pieces, 0 < p.2 ∧ s.mem.touchesRetired p.1 p.2 = false) →
          lands (q.req.pieces.map Prod.snd).sum (.farEndGather u x.num q.slot ⟨q.epoch, due, flips, []⟩)))
      ∧ (∀ seq flips, q.req.pieces = [] → 0 < q.req.len → s.mem.touchesRetired q.req.addr q.req.len = false → seq ≠ due →
        let r : Response := ⟨x.num, q.slot, q.epoch, seq, flips, [], none⟩
        let skewed (t : State) : Prop := (t.tower u).stream x.num = some { x with halted := true }
          ∧ (t.tower u).jsp.rdBytes = (s.tower u).jsp.rdBytes
          ∧ (t.tower u).jsp.skew = (s.tower u).jsp.skew + (if (s.tower u).jsp.freeze then 0 else 1)
        ((s.tower u).itemOf x = none → ∃ t, exec (.jasperResponse u r) s = .next t ∧ Frame [.towers] s t ∧ here s t ∧ skewed t)
        ∧ ∀ it op i lp, (s.tower u).itemOf x = some it → s.opOf it = some op → s.stepOf it = some i →
            ((s.steps[i]?).bind fun p => p.layerProg op) = some lp → lp.want = 0 → lp.retried = false →
            s.evt.en = true → s.power.berylStop = false →
            ∃ t e, exec (.jasperResponse u r) s = .next t ∧ Frame [.towers, .steps, .evt] s t ∧ skewed t
              ∧ ((t.steps[i]?).bind fun p => (p.layerProg op).map LayerProg.want) = some 1
              ∧ t.evt.ring = s.evt.ring ++ [e] ∧ e.code = 0x0105
              ∧ (if q.req.sub = 0 then fieldLe e.body 12 1 = seq % 256 ∧ fieldLe e.body 13 1 = due
                else fieldLe e.body 12 1 = due ∧ fieldLe e.body 13 1 = seq % 256))
      ∧ (∀ seq flips errs it op i p, q.req.pieces = [] →
          (s.readDev rqJasper (s.streamStep u x) errs q.req.addr q.req.len).1 = none →
          (s.tower u).itemOf x = some it → s.opOf it = some op → s.stepOf it = some i → s.steps[i]? = some p → p.decided = none →
          p.ended = .running →
          ∃ (t : State) (p1 : Step), exec (.jasperResponse u ⟨x.num, q.slot, q.epoch, seq, flips, errs, none⟩) s = .next t
            ∧ t.steps[i]? = some { p1 with ended := .failed 0x0120 } ∧ p1.notes.filter (fun n => decide (n.code < 0x8000))
              = p.notes.filter (fun n => decide (n.code < 0x8000)) ∧ p1 = { p with notes := p1.notes }))
    ∧ (∀ r : Response, r.epoch ≠ (s.tower u).epoch → (s.tower u).awaits r.stream r.slot r.epoch = none → ∃ t,
        exec (.jasperResponse u r) s = .next t ∧ t = s.modTower u Tower.staleDrop)
    ∧ (x.kind = 5 → x.sent.find? (fun z => z.slot == q.slot) = some q →
        -- what the write takes to device memory before
        let w := match (s.tower u).itemOf x with | some it => s.writeFor it x.desc q.req.addr q.req.len | none => s
        (w.mem.settled q.req.addr q.req.len = false → exec (.writeAck u x.num q.slot) s = .next w)
        ∧ (w.mem.settled q.req.addr q.req.len = true → ∃ s2 : State, exec (.writeAck u x.num q.slot) s = .next (s2.issueAll u)
          ∧ Frame [.towers] w s2 ∧ here s s2 ∧ (s2.tower u).stream x.num = some { x with sent := x.sent.filter fun z => z.slot ≠ q.slot }
          ∧ (s2.tower u).jsp.wrBytes.v = (s.tower u).jsp.wrBytes.v + count q.req.bytes))

/-! ### A step -/

/-- The tower takes the item that it may take next: the item leaves the queue and becomes started on a spire that runs none, with the rows
and columns of its tile, once its layer operation has begun and where the 16 streams of the tower have room; its streams open, the fold of
its tile is its own when it has the lowest span, the spans that need nothing from memory run, and Jasper issues (R27, R31, R33, R186,
R197).

A started item whose spans have run, whose streams are complete and, where it holds its tile, whose tile has taken every span retires:
it leaves its tower with its streams and accumulators, and the last item of a record completes it (R31, R186, R190, R207). -/
def Obligations.WorkItemsStartAndRetire : Prop :=
  (∀ (s : State) (u k i : Nat) (it : Item) (r r1 : Run) (o : OpRec), s.power.powered = true → s.pick (s.tower u) = some k → u < s.towers.length →
    (s.tower u).queue[k]? = some it → s.stepOf it = some i → s.run i = some r → r.p.ops[it.record]? = some o →
    (s.beginOp i o it.mb it.phase).run i = some r1 →
    let n := (s.tower u).nextNum
    let s1 := s.beginOp i o it.mb it.phase
    let c := s1.ctxOf r1 (opOfRec o it.mb it.phase)
    let size := (c.tilePlan o it.record it.phase it.tile).head.2
    (s.tower u).streams.length + (c.walks o it).length ≤ 16 →
    let s2 := s1.modTower u fun (y : Tower) => ({ y with
      queue := y.queue.eraseIdx k
      started := y.started ++ [(⟨y.nextNum, it, y.freeSpire, false, size.1, size.2, c.fuse o it.phase, it.lo, none⟩ : Started)]
      nextNum := y.nextNum + 1 } : Tower).openFor s1.mem y.nextNum it (c.walks o it)
    ∃ t, exec (.workItemStart ⟨u, []⟩) s = .next t
      ∧ t = ((State.runSpans u n (it.hi - it.lo) (s2.claimFold u it)).issueAll u).drainBacklog i
      ∧ (it.lo ≠ 0 → s2.claimFold u it = s2)
      ∧ (s2.tower u).nextNum = (s1.tower u).nextNum + 1 ∧ (s2.tower u).streams.length = (s1.tower u).streams.length + (c.walks o it).length)
  ∧ (∀ (s : State) (u k i : Nat) (w : Started) (r : Run) (op : LayerOp) (q : RecProg), s.power.powered = true →
    (s.tower u).started[k]? = some w → s.stepOf w.item = some i → s.run i = some r → s.opOf w.item = some op → (s.tower u).inService = true →
    r.opOpen op = true →
    (w.item.holds = true → w.formed = false → exec (.workItemRetire u k) s = .next s)
    ∧ (w.item.hi ≤ w.span → (w.item.holds = true → w.formed = true) →
      (∀ y ∈ (s.tower u).streams, y.item = w.num → y.complete = true) →
      let s1 := (s.modTower u fun y => { y with
        started := y.started.eraseIdx k, streams := y.streams.filter fun z => z.item != w.num
        fwdSets := y.fwdSets.filter fun z => z.item != w.num
        bwdSets := y.bwdSets.filter fun z => z.item != w.num }).issueAll u
      let s2 := s1.modStep i fun p => p.modRec w.item.record w.item.mb w.item.phase fun q => { q with retired := q.retired + 1 }
      (s2.steps[i]?).bind (fun p => p.recProg w.item.record w.item.mb w.item.phase) = some q →
      (q.retired ≠ q.placed → exec (.workItemRetire u k) s = .next (s2.pump i))
      ∧ (q.retired = q.placed → exec (.workItemRetire u k) s
          = .next ((s2.completeRec i w.item.record w.item.mb w.item.phase).advanceAll i))))

/-- A layer operation stands or is repeated once all its records are complete and their statistics are in (R33, R156, R171): without a
condition, or without a plan, it is done, and only its events are recorded besides; with one below the top rung a repeat one rung
wider is wanted and counted (R172 to R174). Shown where no tensor's norm jumps. What follows is the model's settling of the step. A
step before its decision that has failed is left alone.

A layer operation that must repeat stops: its items leave the towers, its records, outputs and statistics are discarded, and it
stands ready to restart, after a skew in the rung that it began in (R152, R172, Table 5.8); LAYER_RESTART places its work again, as the
second attempt of two behind a skew, and as a new operation behind a condition (R152). Shown where no operation that has begun reads what it wrote. -/
def Obligations.LayerOperations : Prop :=
  (∀ (s : State) (op : LayerOp) (i : Nat) (r : Run) (q : LayerProg), s.power.powered = true → s.earlyIdx = some i → s.run i = some r →
    (r.st.ended = .running → r.st.stage = .running → r.st.layerProg op = some q → q.done = false → q.begun = true → r.opOpen op = true →
      r.opRecs op ≠ [] → (∀ x ∈ r.opRecs op, x.done = true) → r.statsIn op = true →
      let stands : Prop := ∃ (s1 : State) (p : Step), exec (.layerOperationComplete op) s = .next (s1.settle i) ∧ Frame [.steps, .evt] s s1
        ∧ s1.steps[i]? = some p ∧ (p.layerProg op).map LayerProg.done = some true ∧ p.recs = r.st.recs ∧ p.ended = .running
        ∧ p.rungs = r.st.rungs ∧ ∀ k, k ≠ i → s1.steps[k]? = s.steps[k]?
      (r.x.plan = none → stands)
      ∧ ∀ pl e k, r.x.plan = some pl → pl.layers[op.layer]? = some e → r.x.trackers[op.layer]? = some k →
          (∀ x ∈ r.judged q, jumpOf e k x = none) →
          let g := (r.st.latched op).rung op.layer
          (conditionOf e k g op.phase (r.judged q) = none → stands)
          ∧ ∀ c, conditionOf e k g op.phase (r.judged q) = some c → g.at c.grad < e.top c.grad → op.layer < r.st.rungs.length →
              ∃ (s1 : State) (p : Step), exec (.layerOperationComplete op) s = .next (s1.settle i) ∧ s1.steps[i]? = some p
                ∧ (p.layerProg op).map LayerProg.want = some 2 ∧ p.fallbacks = r.st.fallbacks + 1
                ∧ (p.rung op.layer).at c.grad = max (g.at c.grad + 1) ((r.st.rung op.layer).at c.grad) ∧ (p.rung op.layer).fell = true)
    ∧ (r.st.ended ≠ .running → exec (.layerOperationComplete op) s = .next s))
  ∧ (∀ (s : State) (op : LayerOp) (i : Nat) (r : Run) (q : LayerProg), s.power.powered = true → s.earlyIdx = some i → s.run i = some r →
    r.st.ended = .running → r.st.stage = .running → r.st.layerProg op = some q → (∀ x ∈ r.st.layers, x.op = op → x = q) →
    (q.want = 1 → q.stopped = false → s.closure r op.phase op.mb none r.p.nLayers [op.layer] = [op.layer] → ∃ t, exec (.layerStop ⟨op, []⟩) s = .next t ∧ Frame [.steps, .towers] s t
      ∧ (∃ p, t.steps[i]? = some p ∧ p.layerProg op = some { q with stopped := true, done := false }
          ∧ (∀ x ∈ p.recs, x.mb = op.mb → min x.phase 1 = op.phase → x.record ∈ (r.opRecs op).map RecProg.record →
              x.placed = 0 ∧ x.retired = 0 ∧ x.done = false)
          ∧ ∀ x ∈ p.stats, ¬ (x.layer = op.layer ∧ x.mb = op.mb ∧ x.phase = op.phase ∧ x.role ≠ 1))
      ∧ ∀ x ∈ t.towers, ∀ it ∈ x.queue, ¬ (it.slot = r.st.slot ∧ it.step = r.st.number.toNat ∧ it.mb = op.mb ∧ min it.phase 1 = op.phase
          ∧ it.record ∈ (r.opRecs op).map RecProg.record))
    ∧ (q.stopped = true → (∀ x ∈ r.st.layers, x.op ≠ op → x.stopped = false) →
        exec (.layerRestart op) s = .next ((s.refill i op).advanceAll i)
        ∧ ((s.refill i op).steps[i]?).bind (fun p => p.layerProg op)
            = some { q with
                want := 0, stopped := false, repeated := q.repeated || q.want == 2
                retried := if q.want = 2 then false else q.retried || q.want == 1 }))

/-- A step whose barrier conditions hold begins FWD(0): it samples the counters, records each hint without a tower, and places its first
micro-batch (R74, R326, R394); one that waits too long completes with CADENCE_HOLD, no phase having started (R327).

A loss that stands opens the backward pass of its micro-batch, and the next micro-batch may begin (that the items of BWD enter the queues
then is the model's choice, log 9); a non-finite one is recorded as the step's first cause once the forward operations stand, so that no
pending repeat can discard it, and the plan may abort on it (R207, R220, R225, R226, R229). A micro-batch retires once every operation of its
backward pass stands, and after the last one has ended the step is in REDUCE (R215). -/
def Obligations.BarrierAndMicroBatches : Prop :=
  (∀ (s : State) (i : Nat) (p : Step), s.power.powered = true → s.barrierIdx = some i → s.steps[i]? = some p →
    (s.barrierPasses p = true →
      let s0 := s.bindLate p
      ∃ s1, exec .stepBarrier s = .next (s1.tryForward i) ∧ Frame [.steps, .evt] s0 s1
      ∧ s1.steps = (s0.modStep i fun q => { q with sample := some s0.sampleNow, stage := .running }).steps
      ∧ (ignoredHints p.hints s.serving = [] → s1.evt = s0.evt))
    ∧ (s.barrierPasses p = false → exec .stepBarrier s = .next s)
    ∧ (p.mbx < 4 → s.mailboxes.length = 4 → (s.mbx p.mbx).payload.wf = true → s.mem.owes p.mbx = false →
      ∃ t d, exec .stepBarrierTimeout s = .next t
        ∧ t.steps = s.steps.eraseIdx i ∧ (t.mbx p.mbx).Holds 0x0140 d ∧ d.length = 32 ∧ s.OthersKept p.mbx t
        ∧ t.window.status = 0x0140 ∧ t.window.updated = false ∧ t.window.step.v = p.number ∧ t.window.seq = s.window.seq + 2
        ∧ t.ints.raised.getLsbD 9 = true ∧ Frame [.steps, .mailboxes, .window, .towers, .evt, .ints, .out] s t))
  ∧ (∀ (s : State) (mb i : Nat) (r : Run), s.power.powered = true → s.earlyIdx = some i → s.run i = some r → r.st.ended = .running →
    r.st.stage = .running →
    (∀ w, (r.st.losses[mb]?).bind id = some w → mb ∉ r.st.lossDone →
      let s1 := s.modStep i fun p => { p with lossDone := p.lossDone ++ [mb] }
      let goes (z : State) : Host.Outcome State Fault Refusal := .next (((z.placePhase i mb 1).tryForward i).advanceAll i)
      (f32isFin w = true ∨ r.phaseJudged mb 0 = false → exec (.lossComplete mb) s = goes s1)
      ∧ (f32isFin w = false → r.phaseJudged mb 0 = true → (∀ n ∈ r.st.notes, n.code ≠ 0x8301) →
          ∃ s2, exec (.lossComplete mb) s = (if r.st.abortNonfin then .next (s2.abortWork i) else goes s2)
          ∧ Frame [.steps, .evt] s s2 ∧ ∃ p, s2.steps[i]? = some p ∧ p.lossDone = r.st.lossDone ++ [mb] ∧ p.nonfin.isSome = true
            ∧ (r.st.nonfin = none → (p.nonfin.map fun q => (q.1, q.2.2)) = some (0, mb))))
    ∧ (mb ∈ r.st.lossDone → mb ∉ r.st.retired → r.phaseJudged mb 1 = true →
        let s1 := s.modStep i fun p => { p with retired := p.retired ++ [mb] }
        exec (.microBatchRetire mb) s = .next (s1.settle i)
        ∧ ∀ r1, s1.run i = some r1 → (∀ u < r.st.mbs.length, r1.mbEnded u = true) →
            (∀ (u : Nat) w, (r.st.losses[u]?).bind id = some w → f32isFin w = true) →
            ∃ (s2 : State) (p : Step), s1.settle i = s2.advanceAll i ∧ s2.steps[i]? = some p ∧ p.stage = .reduce))

/-- A message whose CHECK fails, whose JOB_ID does not match, or that names no step in flight is dropped and counted at the link to its
sender, or with the fabric's (R265): nothing else changes; the same of every kind of message that is judged. Once the next step has begun,
what names the step before names none (R278), but for the sums of its update (R246). A message for a board-mate leaves unread on the
link to it (R257).

DATA of a member enters its collective with its chunk; an ABORT flag marks the sender as failed instead (R265, R266, R269); an
uncorrectable word of device memory or of the staging buffers that the transfer meets fails the step (Tables 11.3 and 11.6). A doorbell
reads the landed message and returns a CREDIT to its sender, with a header and its CHECK (R265); a CREDIT from a rank lets this module write to it again, and a message
that has waited begins (R267).

A completed fabric write sends its doorbell and waits for its credit; the first error resends it, a second one fails the step before its
decision with BUS_ERROR; without a write under way nothing changes (R267, R278). -/
def Obligations.MessagesBetweenModules : Prop :=
  (∀ (s : State) (m : Message), s.power.powered = true →
    (s.stepNamed m = none →
      (m.kind = 0 → m.dest = s.myRank → exec (.campanileData m .none) s = .next (s.dropMessage m.srcRank))
      ∧ (m.kind = 2 → exec (.credit m) s = .next (s.dropMessage m.srcRank))
      ∧ (∀ c, m.kind = 3 → m.dest = s.myRank → exec (.closing m c) s = .next (s.dropMessage m.srcRank))
      ∧ Frame [.fabric] s (s.dropMessage m.srcRank) ∧ (s.dropMessage m.srcRank).fabric.topo = s.fabric.topo
      ∧ ((s.fabric.topo.bind fun t => t.linkTo m.srcRank) = none →
          (s.dropMessage m.srcRank).fabric = { s.fabric with fabricDrops := s.fabric.fabricDrops + 1 }))
    ∧ (∀ i p, s.currentIdx = some i → s.steps[i]? = some p → m.coll ≠ 4 → p.number.toNat % 2 ^ 32 ≠ m.stepLo → s.stepNamed m = none)
    ∧ (∀ l f c, m.dest ≠ s.myRank → (s.fabric.topo.bind fun t => t.linkTo m.dest) = some l → (s.link l).state ≠ 0 →
        (∃ t, exec (.campanileData m f) s = .next t ∧ t = { s with out := { s.out with sent := s.out.sent ++ [(.link m.dest l, m)] } })
        ∧ ∃ t, exec (.closing m c) s = .next t
          ∧ t = { s with out := { s.out with sent := s.out.sent ++ [(.link m.dest l, { m with payload := c.bytes })] } }))
  ∧ (∀ (s : State) (m : Message) (i : Nat), s.power.powered = true → s.stepNamed m = some i →
    (∀ r u kind group rs t, m.kind = 0 → m.dest = s.myRank → s.run i = some r → s.useAt r m.seq = some (u, kind, group) →
      s.members group = some (rs, t) → m.srcRank ∈ rs → r.st.decided = none →
      ∃ s1 p, exec (.campanileData m .none) s = .next (s1.advanceAll i) ∧ Frame [.steps] s s1 ∧ s1.steps[i]? = some p
        ∧ ∃ c ∈ p.colls, c.use = u ∧ (bitOf m.flags 0 = true → m.srcRank ∈ c.failed)
          ∧ (bitOf m.flags 0 = false → (c.part m.srcRank m.chunk).isSome = true))
    ∧ (∀ slot rank, m.kind = 1 → s.slotRank slot = some rank → s.mem.touchesRetired (landBase + 0x400000 * slot) 0x400000 = false →
        s.Reached (landBase + 0x400000 * slot) 0x400000 →
        let h := memRead s.mem.cells (landBase + 0x400000 * slot) 32
        let b := memRead s.mem.cells (landBase + 0x400000 * slot + 32) (min (fieldLe h 0x14 4) (0x400000 - 32))
        let s2 := s.received (messageOf m.jobId m.dest (h ++ b))
        ∃ t, exec (.doorbell slot m []) s = .next t ∧ Frame [.out] s2 t
          ∧ ∀ p way, s2.steps[i]? = some p → s2.routeTo rank = some way → ∃ x, t.out = { s2.out with sent := s2.out.sent ++ [(way, x)] }
            ∧ x.kind = 2 ∧ x.srcRank = s2.myRank ∧ x.stepLo = p.number.toNat % 2 ^ 32 ∧ x.chunk = m.chunk ∧ x.payload = [] ∧ msgSound x = true)
    ∧ (m.kind = 2 → (m.srcRank ∉ s.fabric.noCredit → exec (.credit m) s = .next s)
        ∧ (m.srcRank ∈ s.fabric.noCredit → ∃ t, exec (.credit m) s = .next t ∧ Frame [.fabric, .out] s t ∧ m.srcRank ∉ t.fabric.noCredit
          ∧ ((s.fabric.outbox.find? fun q => q.1 == m.srcRank) = none → t.out = s.out
              ∧ t.fabric = { s.fabric with noCredit := s.fabric.noCredit.filter fun r => r != m.srcRank })
          ∧ ∀ q way, (s.fabric.outbox.find? fun q => q.1 == m.srcRank) = some q → s.routeTo m.srcRank = some way →
              q ∈ t.fabric.writing ∧ t.fabric.outbox = s.fabric.outbox.erase q
              ∧ ∃ x, t.out.sent = s.out.sent ++ [(way, x)] ∧ x = { q.2 with dest := x.dest })))
  ∧ (∀ (s : State) (m : Message) (i : Nat) (p : Step), s.power.powered = true → m.dest = s.myRank → s.earlyIdx = some i → s.steps[i]? = some p →
    p.ended = .running →
    (∀ errs, (s.readRuns rqCampanile p.number errs []).1 = false → ∃ t, exec (.campanileData m (.device errs)) s = .next t
      ∧ t.steps[i]? = some { p with ended := .failed 0x0120 } ∧ Frame [.mem, .evt, .ints, .out, .steps, .towers] s t
      ∧ t.mem.cells = s.mem.cells)
    ∧ ∀ bank word, ∃ t, exec (.campanileData m (.staging bank word)) s = .next t ∧ t.steps[i]? = some { p with ended := .failed 0x0120 }
      ∧ Frame [.mem, .evt, .steps, .towers] s t ∧ t.mem = { s.mem with sramUe := s.mem.sramUe + 1 })
  ∧ (∀ (s : State) (rank : Nat), s.power.powered = true →
    ((s.fabric.writing.find? fun q => q.1 == rank) = none → ∀ ok, exec (.fabricWriteCompletion rank ok) s = .next s)
    ∧ ∀ tp q way, s.fabric.topo = some tp → (s.fabric.writing.find? fun q => q.1 == rank) = some q → s.routeTo rank = some way →
      (∃ t x, exec (.fabricWriteCompletion rank true) s = .next t ∧ Frame [.fabric, .out] s t ∧ rank ∈ t.fabric.noCredit ∧ rank ∉ t.fabric.resent
        ∧ (∀ z ∈ t.fabric.writing, z.1 ≠ rank) ∧ t.out.sent = s.out.sent ++ [(way, x)] ∧ x.kind = 1 ∧ x.srcRank = q.2.srcRank
        ∧ x.chunk = (tp.others rank).idxOf tp.myRank)
      ∧ (rank ∉ s.fabric.resent → ∃ t x, exec (.fabricWriteCompletion rank false) s = .next t
          ∧ t = { s with
              fabric := { s.fabric with resent := s.fabric.resent ++ [rank] }
              out := { s.out with resends := s.out.resends ++ [rank], sent := s.out.sent ++ [(way, x)] } }
          ∧ x = { q.2 with dest := x.dest })
      ∧ (rank ∈ s.fabric.resent → ∀ i p, s.earlyIdx = some i → s.steps[i]? = some p → p.ended = .running → ∃ t,
          exec (.fabricWriteCompletion rank false) s = .next t ∧ t.steps[i]? = some { p with ended := .failed 0x0120 }
            ∧ Frame [.fabric, .steps, .towers, .out] s t))

/-- A closing record of a peer enters the exchange, one with FAIL set in the place of an earlier one without; one of another VERSION or
number of layers fails the step with BAD_PARAM (R272). The exchange goes by the path of R269 and R270: a module sends its record to the
owner on its board alone (that the record travels whole, to the owner of chunk 0, and the chunk numbers 0 to 2 of its three stages, are the
model's reading, log 27). An exchange whose peers stay silent times out, records COLL_TIMEOUT and leaves the silent ranks, and the record
leaves again with FAIL set (R273). -/
def Obligations.ClosingExchange : Prop :=
  ∀ (s : State) (i : Nat) (r : Run), s.power.powered = true → s.run i = some r → r.st.decided = none → r.st.ended = .running →
    let path := s.closingPath
    (∀ (m : Message) c, m.kind = 3 → m.dest = s.myRank → s.stepNamed m = some i → m.srcRank ∈ s.peers →
      let enters (l : List (Nat × Nat × ClosingRec)) : Prop :=
        ∃ (s1 : State) (p : Step), exec (.closing m c) s = .next (s1.sendClosing i) ∧ s1.steps[i]? = some p ∧ p.closing = l
          ∧ (if c.version = 0x0100 ∧ c.nLayers = r.p.nLayers then p.ended = .running ∧ Frame [.steps] s s1
            else p.ended = .failed 0x0011 ∧ Frame [.steps, .towers] s s1)
      ((∀ q ∈ r.st.closing, ¬ (q.1 = m.srcRank ∧ q.2.1 = m.chunk)) → enters (r.st.closing ++ [(m.srcRank, m.chunk, c)]))
      ∧ ∀ old l, r.st.closing = l ++ [(m.srcRank, m.chunk, old)] → (∀ q ∈ l, ¬ (q.1 = m.srcRank ∧ q.2.1 = m.chunk)) →
          (old.fail = false → c.fail = true → enters (l ++ [(m.srcRank, m.chunk, c)]))
          ∧ (old.fail = true ∨ c.fail = false → exec (.closing m c) s = .next s))
    ∧ (∀ dest k, s.closingReady r = true → path.me ≠ path.owner → r.st.closed = [] → s.routeTo path.owner = some (.link dest k) →
        ∃ x, (s.sendClosing i).out = { s.out with sent := s.out.sent ++ [(.link dest k, x)] } ∧ Frame [.steps, .out] s (s.sendClosing i)
          ∧ x.kind = 3 ∧ x.chunk = 0 ∧ x.payload = (s.closingOwn r).bytes ∧ msgSound x = true)
    ∧ (∀ q qs, s.evt.en = true → s.power.berylStop = false → s.earlyIdx = some i → s.closingReady r = true → r.st.timedOut = false →
        s.closingResult r = none → s.closingSilent r = q :: qs →
        ∃ t p, exec (.collTimeout (s.closingSeq r)) s = .next t ∧ Frame [.steps, .evt, .fabric, .out] s t ∧ t.steps[i]? = some p
          ∧ p.timedOut = true ∧ p.silent = r.st.silent ++ q :: qs ∧ t.evt.ring.length = s.evt.ring.length + 1
          ∧ ∀ dest k, path.me ≠ path.owner → r.st.closed = [] → s.routeTo path.owner = some (.link dest k) →
              ∃ x y, t.out = { s.out with sent := s.out.sent ++ [(.link dest k, x), (.link dest k, y)] }
                ∧ bitOf x.flags 0 = false ∧ bitOf y.flags 0 = true)

/-- The rows of Table 8.4 in order (R221): a failure, a skew of step counts, a non-finite step and a storm that the plan halts on are decided
without an update, each with its status, and any other step is updated with OK.

CHECK decides the step before its decision when its closing exchange has completed or timed out, by the first row of Table 8.4 that
holds of the combined record; until then it does nothing (R220, R221). -/
def Obligations.CheckDecides : Prop :=
  (∀ (ended : StepEnd) (c : ClosingRec) (halt : Bool),
    (c.fail = true → ∀ st, ended = .failed st → checkRow ended c halt = (false, st))
    ∧ (c.fail = true → ended = .running → checkRow ended c halt = (false, 0x0112))
    ∧ (c.fail = false → c.tplusMin ≠ c.tplusMax → checkRow ended c halt = (false, 0x0110))
    ∧ (c.fail = false → c.tplusMin = c.tplusMax → c.nonfin = true → checkRow ended c halt = (false, 0x0111))
    ∧ (c.fail = false → c.tplusMin = c.tplusMax → c.nonfin = false → (c.storm && halt) = true → checkRow ended c halt = (false, 0x0130))
    ∧ (c.fail = false → c.tplusMin = c.tplusMax → c.nonfin = false → (c.storm && halt) = false → checkRow ended c halt = (true, 0)))
  ∧ (∀ (s : State) (i : Nat) (r : Run), s.power.powered = true → s.earlyIdx = some i → s.run i = some r →
    let ready : Bool := s.closingReady r && (s.closingResult r).isSome
    -- the step once its exchanges have gone on and this module's record has left
    let s0 := (s.advanceAll i).sendClosing i
    let row := checkRow r.st.ended (s0.combined r) ((r.x.plan.map Plan.stormHalt).getD false)
    (ready = true → ∃ t, exec .check s = .next t ∧ Frame [.steps, .slots, .mem, .evt, .out] s0 t ∧ (∀ k, k ≠ i → t.steps[k]? = s0.steps[k]?)
      ∧ ∀ p0, s0.steps[i]? = some p0 → ∃ p, t.steps[i]? = some p ∧ p.combined = some (s0.combined r) ∧ p.decided = some row
        ∧ p.stage = (if row.1 then .updating else .committing) ∧ p.slot = p0.slot ∧ p.number = p0.number ∧ p.ended = p0.ended)
    ∧ (ready = false → exec .check s = .next s))

/-- UPDATE takes the layers in increasing number (R209, R218); a layer commits when all its passes have run and every write stands, and its
version becomes the next (R217, R230). UPDATE_PASS runs the next pass of a layer once the writes of the pass before stand, at once
where it needs no sums of other modules (R246, R253); an uncorrectable read in it, of device memory, of a retired page or of an engine's
buffer, halts the slot (R228, R293, Table 11.6). -/
def Obligations.UpdateRuns : Prop :=
  ∀ (s : State) (i l : Nat) (r : Run), s.power.powered = true → s.lateIdx = some i → s.run i = some r → s.slots.length = 4 → r.st.slot < 4 →
    (r.st.stage = .updating → r.st.updFault = [] → l = r.st.updBegun.length → l < r.p.nLayers → s.fenceOpen r.st = true →
      ∃ t, exec (.update l) s = .next t ∧ Frame [.steps] s t ∧ t.steps[i]? = some { r.st with updBegun := r.st.updBegun ++ [(l, 0)] })
    ∧ (l ≠ r.st.updBegun.length → exec (.update l) s = .next s)
    ∧ (∀ k pass, r.st.passesDone l = some k → (s.passes r.x r.p r.st l (r.st.singular.contains l))[k]? = some pass →
        (s.layerSettled r.x r.p l = false → ∀ e, exec (.updatePass l e) s = .next s)
        ∧ (s.layerSettled r.x r.p l = true →
          ((∀ q ∈ r.x.engineRuns r.p l, s.mem.touchesRetired q.1 q.2 = false) → exec (.updatePass l ⟨[], none⟩) s = .next (s.nextPass i r l pass))
          ∧ (s.sumNeeds r l pass = [] → ∀ r1, (s.pump i).run i = some r1 →
              s.nextPass i r l pass = ((s.pump i).runPass i r1.st r1.x r1.p l pass).modStep i fun p => { p with
                updBegun := p.updBegun.map fun q => if q.1 = l then (q.1, q.2 + 1) else q })
          ∧ ∀ e : PassErr, e.buffer.isSome = true ∨ (s.readRuns rqUpdate r.st.number e.errs (r.x.engineRuns r.p l)).1 = false →
              ∃ t, exec (.updatePass l e) s = .next t ∧ (t.slot r.st.slot).faultHalt = true ∧ ∃ p, t.steps[i]? = some p ∧ l ∈ p.updFault))
    ∧ (∀ k, r.st.passesDone l = some k → (s.passes r.x r.p r.st l (r.st.singular.contains l)).length ≤ k → s.layerSettled r.x r.p l = true →
        ∃ t, exec (.layerCommit l) s = .next t ∧ Frame [.steps, .slots] s t ∧ t.steps[i]? = some { r.st with updDone := r.st.updDone ++ [l] }
          ∧ (t.slot r.st.slot).versions = updAt r.x.versions l (· + 1) ∧ ∀ k, k ≠ r.st.slot → t.slots[k]? = s.slots[k]?)

/-- COMMIT of a step whose updates have ended (R159, R222, R372, R393): an updated step raises t by one, any other leaves it; the RUN_STEP
completes with the decided status, the window is rewritten and vector 9 raised; shown with no step waiting behind it, no tower left unused
(R28) and no write of the host's lines outstanding (R338). -/
def Obligations.CommitCompletesTheStep : Prop :=
  ∀ (s : State) (r : Run) (upd : Bool) (status : Nat), s.power.powered = true → s.steps = [r.st] → s.run 0 = some r → r.st.decided = some (upd, status) →
    r.updatesEnded = true → r.st.slot < 4 → s.slots.length = 4 → r.st.mbx < 4 → s.mailboxes.length = 4 → (s.mbx r.st.mbx).payload.wf = true →
    s.mem.owes r.st.mbx = false → (∀ x ∈ s.towers, x.inService = true → x.used = true) →
    let fault : Bool := !r.st.updFault.isEmpty
    ∃ t d, exec .commit s = .next t ∧ t.steps = [] ∧ (t.mbx r.st.mbx).Holds (if fault then 0x0120 else status) d ∧ d.length = 32
      ∧ s.OthersKept r.st.mbx t ∧ (t.slot r.st.slot).t = (if upd && !fault then r.x.t + 1 else r.x.t)
      ∧ (t.slot r.st.slot).commitStep = some r.st.number ∧ (t.slot r.st.slot).prog = r.x.prog
      ∧ (∀ k, k ≠ r.st.slot → t.slots[k]? = s.slots[k]?) ∧ t.window.seq = s.window.seq + 2 ∧ t.window.step.v = r.st.number
      ∧ t.window.updated = (upd && !fault) ∧ t.ints.raised.getLsbD 9 = true
      ∧ Frame [.steps, .slots, .mailboxes, .window, .towers, .ints, .out] s t

/-! ### Integrity and the background -/

/-- Any single-symbol error in a beat is corrected to the stored bytes, and reported to no one but the counters: 16-bit symbols of 18 dice,
every pattern, with no die marked (R283, R284, Table 11.2). -/
def Obligations.SingleSymbolErrorsAreCorrected : Prop :=
  ∀ (s : State) (req : Nat) (step : Quad) (a k e : Nat), k < 18 → 0 < e → e < 65536 → a % 32 = 0 → s.mem.pageRetired (a / 65536) = false →
    s.mem.mark (s.mem.place a).stack = none → (ioSide req = true → s.ioReach a = true) →
    ∃ t, s.readBeat req step [⟨a, [(k, e)]⟩] a = (some (memRead s.mem.cells a 32), t) ∧ t.mem.ce.v = s.mem.ce.v + 1 ∧ t.mem.ue = s.mem.ue
      ∧ t.mem.cells = s.mem.cells

/-- A correction counts in the bucket of its bank, and the count that passes THRESHOLD empties the bucket, counts an overflow, records
ECC_BUCKET and raises vector 5; a leak takes one from every bucket that is not zero, and a LEAK_S of 0 stops it (R291).

Background work (R286, R289, R290): a write-back stores its beat and spends 32 bytes of its stack's window; a scrub read spends 32 bytes and
moves on by a beat; with the window spent both wait; a new window begins at zero, and the statistics that waited for it go on; a write-back
to a line that the host may hold snoops it first and waits (R338). -/
def Obligations.BucketsAndBackground : Prop :=
  (∀ s : State, s.mem.buckets.wf = true →
    (∀ (p : Place) die, let n := (memGet s.mem.buckets p.bankNo).toNat + 1
      let t := s.bucketCount p die
      (n ≤ s.mem.threshold → n < 256 → memGet t.mem.buckets p.bankNo = BitVec.ofNat 8 n ∧ t.mem.ovf = s.mem.ovf ∧ Frame [.mem] s t)
      ∧ (s.mem.threshold < n → memGet t.mem.buckets p.bankNo = 0 ∧ t.mem.ovf = s.mem.ovf + 1
          ∧ t.mem.lastOvf = ⟨p.stack, p.channel, p.bank⟩ ∧ t.ints.raised.getLsbD 5 = true ∧ Frame [.mem, .evt, .ints, .out] s t)
      ∧ ∀ k, k ≠ p.bankNo → memGet t.mem.buckets k = memGet s.mem.buckets k)
    ∧ (s.power.powered = true → ∃ t, exec .bucketLeak s = .next t ∧ Frame [.mem] s t ∧ t.mem = { s.mem with buckets := t.mem.buckets }
      ∧ ∀ k, memGet t.mem.buckets k = if s.mem.leakS = 0 ∨ memGet s.mem.buckets k = 0 then memGet s.mem.buckets k
          else memGet s.mem.buckets k - 1))
  ∧ (∀ (s : State) (k : Nat) (o : Machine.Stack), s.power.powered = true → k < 12 → s.mem.onyx.length = 12 → s.mem.onyx[k]? = some o →
    (∀ w ws, o.writeBacks = w :: ws → o.bg < 100000 →
      let spent (t : State) : Prop := t.mem.bgBytes.v = s.mem.bgBytes.v + 32 ∧ (t.mem.onyx[k]?).map Machine.Stack.bg = some (o.bg + 32)
      (w.bytes.length = 32 → s.mem.cells.wf = true → s.mem.pageRetired (w.addr / 65536) = false → w.addr / 64 ∉ s.mem.snoop →
        ∃ t, exec (.writeBack k) s = .next t ∧ Frame [.mem] s t ∧ memRead t.mem.cells w.addr 32 = w.bytes
        ∧ (∀ q, q < w.addr ∨ w.addr + 32 ≤ q → memGet t.mem.cells q = memGet s.mem.cells q) ∧ spent t)
      ∧ (w.addr / 64 ∈ s.mem.snoop → s.ideUp 3 = true → ∃ t, exec (.writeBack k) s = .next t ∧ Frame [.mem, .out] s t
        ∧ t.mem.cells = s.mem.cells ∧ t.mem.waiting = s.mem.waiting ++ [⟨w.addr, w.bytes, 5⟩]
        ∧ t.out = { s.out with snoops := s.out.snoops ++ [w.addr / 64] } ∧ spent t))
    ∧ (100000 ≤ o.bg → exec (.writeBack k) s = .next s ∧ ∀ errs, exec (.patrolScrub k errs) s = .next s)
    ∧ (o.bg < 100000 → s.mem.scrubOn = true → 5 ≤ s.power.phase → s.mem.pages = [] → s.mem.banks = [] → o.scrubPos + 32 < 0x1000000000 →
        ∃ t, exec (.patrolScrub k []) s = .next t ∧ Frame [.mem] s t ∧ t.mem.cells = s.mem.cells ∧ t.mem.ce = s.mem.ce
          ∧ t.mem.bgBytes.v = s.mem.bgBytes.v + 32 ∧ (t.mem.onyx[k]?).map Machine.Stack.scrubPos = some (o.scrubPos + 32))
    ∧ (s.mem.telemetry = [] → ∃ t, exec .backgroundWindow s = .next t
        ∧ t = { s with mem := { s.mem with onyx := s.mem.onyx.map fun x => { x with bg := 0 } } })
    ∧ ∀ w, s.mem.telemetry = [w] → (s.mem.place w.addr).stack = k → w.addr % 32 = 0 → w.bytes.length = 32 → s.mem.cells.wf = true →
        s.mem.pageRetired (w.addr / 65536) = false → w.addr / 64 ∉ s.mem.snoop → s.ioReach w.addr = true →
        ∃ t, exec .backgroundWindow s = .next t ∧ Frame [.mem] s t ∧ t.mem.telemetry = [] ∧ memRead t.mem.cells w.addr 32 = w.bytes
          ∧ (∀ q, q < w.addr ∨ w.addr + 32 ≤ q → memGet t.mem.cells q = memGet s.mem.cells q)
          ∧ t.mem.bgBytes.v = s.mem.bgBytes.v + 32 ∧ (t.mem.onyx[k]?).map Machine.Stack.bg = some 32)

/-- A publication writes the oldest record of the early buffer, else of the ring's queue, at HEAD and then advances HEAD: what EVT_HEAD
covers is whole; on a line that the host may hold it first snoops and waits (R338); a full ring drops the record and counts it, and the
next one written carries LOST (R357). -/
def Obligations.EventsArePublishedInOrder : Prop :=
  ∀ (s : State) (r0 r : EvRec) (rest : List EvRec) (e1 : EvtLog), s.power.powered = true → s.evt.en = true → s.power.berylStop = false →
    r = { r0 with lost := r0.lost || s.evt.lostNext } →
    (s.evt.early = r0 :: rest ∧ e1 = { s.evt with early := rest, lostNext := false }
      ∨ s.evt.early = [] ∧ s.evt.ring = r0 :: rest ∧ e1 = { s.evt with ring := rest, lostNext := false }) →
    s.mem.cells.wf = true → r.body.length = 32 →
    let size := 2 ^ s.evt.log2
    let a := s.evt.base.toNat + 64 * (s.evt.head.toNat % size)
    ((s.evt.head - s.evt.tail).toNat < size → s.bgOpen (s.mem.place a).stack = true →
      (a / 64 ∉ s.mem.snoop → s.mem.pageRetired (a / 65536) = false → ∃ t, exec .eventPublish s = .next t
        ∧ t.evt = { e1 with head := e1.head + 1, out4 := t.evt.out4 } ∧ memRead t.mem.cells a 64 = r.bytes
        ∧ (∀ q, q < a ∨ a + 64 ≤ q → memGet t.mem.cells q = memGet s.mem.cells q) ∧ t.ints.raised.getLsbD 4 = true
        ∧ Frame [.evt, .mem, .ints, .out] s t)
      ∧ (a / 64 ∈ s.mem.snoop → (∀ w ∈ s.mem.waiting, ¬ (w.addr = a ∧ w.bytes = r.bytes)) → ∃ t, exec .eventPublish s = .next t
          ∧ t = ({ s with mem := { s.mem with waiting := s.mem.waiting ++ [⟨a, r.bytes, s.mem.writer⟩] } } : State).emit (.snoop (a / 64))))
    ∧ (size ≤ (s.evt.head - s.evt.tail).toNat → ∃ t, exec .eventPublish s = .next t
        ∧ t = { s with evt := { e1 with lostCount := s.evt.lostCount + 1, lostNext := true } })

/-- SRAM scrubbing (R297 to R299, Table 11.6): a word with one flipped bit is corrected and counts, and one with two is uncorrectable; of the
Keep, it leaves the Keep faulty, and of Beryl's working memory, it stops Beryl: every step is lost and every mailbox command in flight ends
with BUS_ERROR and what it writes on failure (R362, R373, R380). A word beyond the banks of Table 11.5 is none.

An uncorrectable word of the staging buffers fails the step before its decision, and one of a mailbox's buffer the command that it holds,
with BUS_ERROR; one of a tower that works on nothing, or of an update engine that updates nothing, is recorded and no more. -/
def Obligations.SramScrubActs : Prop :=
  ∀ (s : State) (bank word b c : Nat), s.power.powered = true → b ≠ c →
    let counted : Mem := { s.mem with sramUe := s.mem.sramUe + 1 }
    (∀ p flips, sramWordOk p bank word = false → exec (.sramScrub p bank word flips) s = .next s)
    ∧ (∀ p, exec (.sramScrub p bank word []) s = .next s)
    ∧ (∀ p, sramWordOk p bank word = true → ∃ t, exec (.sramScrub p bank word [b]) s = .next t
        ∧ t = { s with mem := { s.mem with sramCe := s.mem.sramCe + 1 } })
    ∧ (sramWordOk .keep bank word = true → ∃ t, exec (.sramScrub .keep bank word [b, c]) s = .next t
        ∧ t.keep = { s.keep with state := 3 } ∧ t.mem = counted ∧ Frame [.keep, .mem, .evt] s t)
    ∧ (sramWordOk .working bank word = true → s.steps = [] → s.jobs = [] → s.late = [] → s.mem.waiting = [] → s.mailboxes.length = 4 →
        (∀ m ∈ s.mailboxes, m.payload.wf = true) → ∃ t, exec (.sramScrub .working bank word [b, c]) s = .next t
        ∧ t.power = { s.power with berylStop := true, smbAlert := s.power.smbAlert ||| 16 } ∧ t.steps = [] ∧ t.goOrder = []
        ∧ t.ext.inFlight = none ∧ ∀ n < 4, ((s.mbx n).own = false → t.mbx n = s.mbx n)
        ∧ ((s.mbx n).own = true → ∃ d, (t.mbx n).Holds 0x0120 d ∧ ((s.mbx n).opcode = 0x0101 → d = [0, 0, 0, 0])
            ∧ ((s.mbx n).opcode = 0x0202 → d.length = 32) ∧ ((s.mbx n).opcode = 0x0503 → d = s.fuses.bytes)))
    ∧ (∀ i q, sramWordOk .staging bank word = true → s.earlyIdx = some i → s.steps[i]? = some q → q.ended = .running → ∃ t,
        exec (.sramScrub .staging bank word [b, c]) s = .next t
        ∧ t.mem = counted ∧ t.steps[i]? = some { q with ended := .failed 0x0120 } ∧ Frame [.mem, .evt, .steps, .towers] s t)
    ∧ (∀ n < 4, sramWordOk (.hostBuf n) bank word = true → s.mailboxes.length = 4 → (s.mbx n).own = true → (s.mbx n).payload.wf = true →
        (∀ q ∈ s.steps, q.mbx ≠ n) → s.jobs = [] → s.late = [] → s.mem.owes n = false → ∃ t d,
        exec (.sramScrub (.hostBuf n) bank word [b, c]) s = .next t ∧ (t.mbx n).Holds 0x0120 d ∧ s.OthersKept n t ∧ t.mem = counted
        ∧ t.goOrder = s.goOrder.filter (· ≠ n) ∧ t.ext.inFlight ≠ some n
        ∧ ((s.mbx n).opcode = 0x0101 → d = [0, 0, 0, 0]) ∧ ((s.mbx n).opcode = 0x0503 → d = s.fuses.bytes)
        ∧ Frame [.mailboxes, .goOrder, .ext, .mem, .evt, .ints, .out, .window] s t)
    ∧ (∀ u sc, sramWordOk (.tower u sc) bank word = true → (s.tower u).started = [] → ∃ t,
        exec (.sramScrub (.tower u sc) bank word [b, c]) s = .next t ∧ t.mem = counted ∧ Frame [.mem, .evt] s t)
    ∧ ∀ k, s.lateIdx = none → ∃ t, exec (.sramScrub (.engine k) bank word [b, c]) s = .next t ∧ t.mem = counted
        ∧ Frame [.mem, .evt] s t
end

