-- ==== Sys2Proof/Laws/Memory.lean ====
section
/-!
SUPPORT. The laws of canonical memory: every operation keeps the form, a read after a write gives the value written, and a
write leaves every other address alone.
-/

set_option Elab.async false
namespace Sys2Proof.Machine

open Sys2Proof

/-- An address lies above an optional bound. -/
def Above (lo : Option Nat) (a : Nat) : Prop := ∀ l, lo = some l → l < a

theorem above_none (a : Nat) : Above none a := fun _ h => by cases h

theorem above_some {l a : Nat} (h : l < a) : Above (some l) a := fun _ e => by cases e; exact h

theorem wfFrom_cons {lo : Option Nat} {k : Nat} {v : Byte} {r : Memory} :
    wfFrom lo ((k, v) :: r) = true ↔ Above lo k ∧ v ≠ 0 ∧ wfFrom (some k) r = true := by
  cases lo with
  | none => simp [wfFrom, Above]
  | some l => simp [wfFrom, Above, and_assoc]

theorem wfFrom_weaken {lo lo' : Option Nat} {m : Memory} (h : wfFrom lo m = true)
    (hl : ∀ a, Above lo a → Above lo' a) : wfFrom lo' m = true := by
  cases m with
  | nil => rfl
  | cons c r =>
    obtain ⟨k, v⟩ := c
    rw [wfFrom_cons] at h ⊢
    exact ⟨hl _ h.1, h.2⟩

theorem memSet_wfFrom {m : Memory} {lo : Option Nat} {a : Nat} (b : Byte) (h : wfFrom lo m = true) (ha : Above lo a) :
    wfFrom lo (memSet m a b) = true := by
  induction m generalizing lo with
  | nil =>
    by_cases hb : b = 0
    · simp [memSet, hb, wfFrom]
    · simp only [memSet, hb, if_false]; rw [wfFrom_cons]; exact ⟨ha, hb, rfl⟩
  | cons c r ih =>
    obtain ⟨k, v⟩ := c
    have h0 := h
    rw [wfFrom_cons] at h
    obtain ⟨hk, hv, hr⟩ := h
    unfold memSet
    split
    · split
      · exact h0
      · rw [wfFrom_cons, wfFrom_cons]; exact ⟨ha, ‹_›, above_some ‹_›, hv, hr⟩
    · split
      · split
        · exact wfFrom_weaken hr fun x hx l e => by
            have h1 := hk l e
            have h2 := hx k rfl
            omega
        · subst_vars; rw [wfFrom_cons]; exact ⟨ha, ‹_›, hr⟩
      · rw [wfFrom_cons]; exact ⟨hk, hv, ih hr (above_some (by omega))⟩

theorem memSet_wf {m : Memory} (a : Nat) (b : Byte) (h : m.wf = true) : Memory.wf (memSet m a b) = true :=
  memSet_wfFrom b h (above_none a)

theorem memWrite_wf {m : Memory} (a : Nat) (bs : List Byte) (h : m.wf = true) : Memory.wf (memWrite m a bs) = true := by
  induction bs generalizing m a with
  | nil => exact h
  | cons b bs ih => exact ih (a + 1) (memSet_wf a b h)

theorem foldl_memSet_wf {α : Type} {m : Memory} (l : List α) (a : α → Nat) (b : α → Byte) (h : m.wf = true) :
    Memory.wf (l.foldl (fun m k => memSet m (a k) (b k)) m) = true := by
  induction l generalizing m with
  | nil => exact h
  | cons x l ih => exact ih (memSet_wf _ _ h)

theorem nil_wf : Memory.wf [] = true := rfl

theorem filter_wfFrom {m : Memory} {lo : Option Nat} (p : Host.Cell → Bool) (h : wfFrom lo m = true) :
    wfFrom lo (m.filter p) = true := by
  induction m generalizing lo with
  | nil => rfl
  | cons c r ih =>
    obtain ⟨k, v⟩ := c
    rw [wfFrom_cons] at h
    rw [List.filter_cons]
    split
    · rw [wfFrom_cons]; exact ⟨h.1, h.2.1, ih h.2.2⟩
    · exact wfFrom_weaken (ih h.2.2) fun x hx l e => Nat.lt_trans (h.1 l e) (hx k rfl)

theorem filter_wf {m : Memory} (p : Host.Cell → Bool) (h : m.wf = true) : Memory.wf (m.filter p) = true := filter_wfFrom p h

theorem leak_wfFrom {m : Memory} {lo : Option Nat} (h : wfFrom lo m = true) : wfFrom lo (leak m) = true := by
  induction m generalizing lo with
  | nil => rfl
  | cons c r ih =>
    obtain ⟨k, v⟩ := c
    rw [wfFrom_cons] at h
    unfold leak
    split
    · exact wfFrom_weaken (ih h.2.2) fun x hx l e => Nat.lt_trans (h.1 l e) (hx k rfl)
    · rw [wfFrom_cons]
      refine ⟨h.1, ?_, ih h.2.2⟩
      rename_i hv
      intro e
      apply hv
      have : v = v - 1 + 1 := by simp
      rw [this, e]; rfl

theorem leak_wf {m : Memory} (h : m.wf = true) : Memory.wf (leak m) = true := leak_wfFrom h

/-- Reading the address just written gives the byte written. -/
theorem memGet_memSet_same {m : Memory} {lo : Option Nat} (h : wfFrom lo m = true) (a : Nat) (b : Byte) :
    memGet (memSet m a b) a = b := by
  induction m generalizing lo with
  | nil =>
    unfold memSet
    split
    · subst_vars; rfl
    · simp [memGet]
  | cons c r ih =>
    obtain ⟨k, v⟩ := c
    rw [wfFrom_cons] at h
    have low : ∀ (l : Nat) (q : Memory), wfFrom (some l) q = true → a ≤ l → memGet q a = 0 := by
      intro l q hq hl
      induction q generalizing l with
      | nil => rfl
      | cons d q ihq =>
        obtain ⟨k', v'⟩ := d
        rw [wfFrom_cons] at hq
        have := hq.1 l rfl
        have hne : k' ≠ a := by omega
        simp only [memGet, hne, if_false]
        exact ihq k' hq.2.2 (by omega)
    unfold memSet
    split
    · split
      · subst_vars
        have hne : k ≠ a := by omega
        simp only [memGet, hne, if_false]
        exact low k r h.2.2 (by omega)
      · simp [memGet]
    · split
      · split
        · subst_vars; exact low k r h.2.2 (Nat.le_refl _)
        · simp [memGet]
      · have hne : k ≠ a := by omega
        simp only [memGet, hne, if_false]
        exact ih h.2.2

/-- Every other address reads as before. -/
theorem memGet_memSet_other {m : Memory} {a x : Nat} (b : Byte) (hx : x ≠ a) : memGet (memSet m a b) x = memGet m x := by
  induction m with
  | nil =>
    unfold memSet
    split
    · rfl
    · simp [memGet, hx.symm]
  | cons c r ih =>
    obtain ⟨k, v⟩ := c
    unfold memSet
    split
    · split
      · rfl
      · simp [memGet, hx.symm]
    · split
      · subst_vars
        split <;> simp [memGet, hx.symm]
      · simp only [memGet, ih]

/-- A write leaves every address outside its bytes alone. -/
theorem memGet_memWrite_other {m : Memory} {a x : Nat} (bs : List Byte) (hx : x < a ∨ a + bs.length ≤ x) :
    memGet (memWrite m a bs) x = memGet m x := by
  induction bs generalizing m a with
  | nil => rfl
  | cons b bs ih =>
    simp only [List.length_cons] at hx
    unfold memWrite
    rw [ih (by omega), memGet_memSet_other b (by omega)]

/-- A byte just written reads as it was written. -/
theorem memGet_memWrite {m : Memory} (h : m.wf = true) (a : Nat) (bs : List Byte) (i : Nat) (hi : i < bs.length) :
    memGet (memWrite m a bs) (a + i) = bs[i] := by
  induction bs generalizing m a i with
  | nil => simp at hi
  | cons b bs ih =>
    unfold memWrite
    cases i with
    | zero =>
      rw [Nat.add_zero, memGet_memWrite_other bs (by omega)]
      exact memGet_memSet_same h a b
    | succ i =>
      have := ih (memSet_wf a b h) (a + 1) i (by simpa using hi)
      rw [show a + (i + 1) = a + 1 + i by omega, this]
      rfl

/-- Reading a run just written gives the bytes written. -/
theorem memRead_memWrite {m : Memory} (h : m.wf = true) (a : Nat) (bs : List Byte) :
    memRead (memWrite m a bs) a bs.length = bs := by
  have key : ∀ (q : Memory) (n a : Nat), memRead q a n = (List.range n).map fun i => memGet q (a + i) := by
    intro q n
    induction n with
    | zero => intro a; rfl
    | succ n ih =>
      intro a
      rw [memRead, ih, List.range_succ_eq_map, List.map_cons, List.map_map]
      simp only [Nat.add_zero, List.cons.injEq, true_and]
      apply List.map_congr_left
      intro i _
      simp only [Function.comp_apply, Nat.succ_eq_add_one]
      congr 1; omega
  rw [key]
  apply List.ext_getElem
  · simp
  · intro i h1 h2
    simp only [List.getElem_map, List.getElem_range]
    exact memGet_memWrite h a bs i h2

theorem length_memRead (m : Memory) (a n : Nat) : (memRead m a n).length = n := by
  induction n generalizing a with
  | zero => rfl
  | succ n ih => simp [memRead, ih]

end Sys2Proof.Machine
end

