-- ==== Sys2Proof/Laws/Kept.lean ====
section
/-!
SUPPORT. What every operation over a state keeps: it leaves the waiting commands alone, the fuse ledger only grows, and the
invariant stands. Proved for an operation that updates fields, for folds and for pairs; one lemma per operation follows in
the files beside this one.
-/

set_option Elab.async false
namespace Sys2Proof.Machine

open Sys2Proof

theorem Fuses.Grows.refl (f : Fuses) : f.Grows f :=
  ⟨List.prefix_refl _, List.prefix_refl _, List.prefix_refl _, List.prefix_refl _⟩

theorem Fuses.Grows.trans {f g k : Fuses} (a : f.Grows g) (b : g.Grows k) : f.Grows k :=
  ⟨a.life.trans b.life, a.ident.trans b.ident, a.ceil.trans b.ceil, a.tower.trans b.tower⟩

/-- From `s` to `t` no command joins or leaves the queue, the ledger only grows, and the invariant is kept. -/
structure State.Kept (s t : State) : Prop where
  pending : t.pending = s.pending
  fuses : s.fuses.Grows t.fuses
  inv : s.Inv → t.Inv

theorem State.Kept.refl (s : State) : s.Kept s := ⟨rfl, Fuses.Grows.refl _, id⟩

theorem State.Kept.trans {s t u : State} (a : s.Kept t) (b : t.Kept u) : s.Kept u :=
  ⟨b.pending.trans a.pending, a.fuses.trans b.fuses, fun h => b.inv (a.inv h)⟩

theorem updAt_length {α : Type} (l : List α) (i : Nat) (f : α → α) : (updAt l i f).length = l.length :=
  List.length_modify f l i

/-- Mailboxes that keep their number and the form of every payload. -/
structure MbxKept (l m : List Mailbox) : Prop where
  len : m.length = l.length
  wf : (∀ x ∈ l, x.payload.wf = true) → ∀ x ∈ m, x.payload.wf = true

theorem MbxKept.refl (l : List Mailbox) : MbxKept l l := ⟨rfl, id⟩

theorem MbxKept.modify {l : List Mailbox} (n : Nat) {f : Mailbox → Mailbox}
    (hf : ∀ x, x.payload.wf = true → (f x).payload.wf = true) : MbxKept l (updAt l n f) := by
  refine ⟨by simp [updAt], fun h x hx => ?_⟩
  rw [updAt, List.mem_iff_getElem] at hx
  obtain ⟨i, hi, rfl⟩ := hx
  rw [List.getElem_modify]
  have hm := h _ (List.getElem_mem (by simpa using hi))
  split
  · exact hf _ hm
  · exact hm

/-- Device memory that keeps its form and the numbers of its units. -/
structure MemKept (m n : Mem) : Prop where
  cells : m.cells.wf = true → n.cells.wf = true
  buckets : m.buckets.wf = true → n.buckets.wf = true
  erase : n.erase.length = m.erase.length
  onyx : n.onyx.length = m.onyx.length

theorem MemKept.refl (m : Mem) : MemKept m m := ⟨id, id, rfl, rfl⟩

/-- A state that differs from one that is kept in fields which keep what the invariant asks of them. -/
theorem State.Kept.upd {s0 s : State} {pw ke mb go jb la it ev be me th tw de mm fa sl st wi ex ou fc}
    (h : s0.Kept s) (hmb : MbxKept s.mailboxes mb) (hit : it.table.length = s.ints.table.length)
    (htw : tw.length = s.towers.length) (hmm : MemKept s.mem mm) (hfa : fa.links.length = s.fabric.links.length)
    (hsl : sl.length = s.slots.length) :
    s0.Kept (State.mk s.pending pw s.fuses ke mb go jb la it ev be me th tw de mm fa sl st wi ex ou fc) := by
  refine h.trans ⟨rfl, Fuses.Grows.refl _, ?_⟩
  rintro ⟨⟨c1, c2, c3⟩, l1, l2, l3, l4, l5, l6, l7⟩
  exact ⟨⟨hmm.cells c1, hmm.buckets c2, hmb.wf c3⟩, hmb.len.trans l1, hsl.trans l2, htw.trans l3, hmm.erase.trans l4,
    hmm.onyx.trans l5, hfa.trans l6, hit.trans l7⟩

theorem State.Kept.foldl {s0 s : State} {α : Type} {f : State → α → State} (l : List α)
    (hf : ∀ t a, s0.Kept t → s0.Kept (f t a)) (h : s0.Kept s) : s0.Kept (l.foldl f s) := by
  induction l generalizing s with
  | nil => exact h
  | cons a l ih => exact ih (hf s a h)

/-- The state at power-good meets the invariant. -/
theorem State.powerUp_inv (q : List Instr) (f : Fuses) : (State.powerUp q f).Inv := by
  refine ⟨⟨rfl, rfl, fun m hm => ?_⟩, ?_⟩
  · rw [List.eq_of_mem_replicate hm]; rfl
  · exact ⟨List.length_replicate, List.length_replicate, List.length_replicate, List.length_replicate,
      List.length_replicate, List.length_replicate, List.length_replicate⟩

theorem State.Kept.ite {s0 a b : State} {p : Prop} [Decidable p] (ha : s0.Kept a) (hb : s0.Kept b) :
    s0.Kept (if p then a else b) := by
  split
  · exact ha
  · exact hb

theorem State.Kept.ofPair {s0 t : State} {α : Type} {p : α × State} {a : α} (h : s0.Kept p.2) (e : p = (a, t)) :
    s0.Kept t := by
  rw [e] at h; exact h

theorem State.Kept.ofPairL {s0 t : State} {α : Type} {p : State × α} {a : α} (h : s0.Kept p.1) (e : p = (t, a)) :
    s0.Kept t := by
  rw [e] at h; exact h

end Sys2Proof.Machine
end

