-- ==== Sys2Proof/Laws/KeptOps.lean ====
section
/-!
SUPPORT. What each shared operation keeps: memory, events, mailboxes, streams, the end of a step, Belfry, re-admission.
-/

set_option Elab.async false
namespace Sys2Proof.Machine

open Sys2Proof

variable {s0 s : State}

theorem State.emit_kept {p : Posted} (hk : s0.Kept s) : s0.Kept (State.emit s p) := by
  unfold State.emit
  repeat' first
    | with_reducible assumption
    | exact rfl
    | exact MbxKept.refl _
    | exact MemKept.mk id id rfl rfl
    | exact updAt_length _ _ _
    | exact List.length_map ..
    | exact List.length_mapIdx ..
    | split
    | (with_reducible refine State.Kept.upd ?_ ?_ ?_ ?_ ?_ ?_ ?_)

theorem State.reply_kept {stream : Nat} {r : Resp} (hk : s0.Kept s) : s0.Kept (State.reply s stream r) := by
  unfold State.reply
  repeat' first
    | with_reducible assumption
    | with_reducible apply State.emit_kept

theorem State.answer_kept {r : Resp} (hk : s0.Kept s) : s0.Kept (State.answer s r) := by
  unfold State.answer
  repeat' first
    | with_reducible assumption
    | exact rfl
    | exact MbxKept.refl _
    | exact MemKept.mk id id rfl rfl
    | exact updAt_length _ _ _
    | exact List.length_map ..
    | exact List.length_mapIdx ..
    | (with_reducible refine State.Kept.upd ?_ ?_ ?_ ?_ ?_ ?_ ?_)

theorem State.message_kept {v : Nat} (hk : s0.Kept s) : s0.Kept (State.message s v) := by
  unfold State.message
  repeat' first
    | with_reducible assumption
    | with_reducible apply State.emit_kept
    | exact rfl
    | exact MbxKept.refl _
    | exact MemKept.mk id id rfl rfl
    | exact updAt_length _ _ _
    | exact List.length_map ..
    | exact List.length_mapIdx ..
    | split
    | (with_reducible refine State.Kept.upd ?_ ?_ ?_ ?_ ?_ ?_ ?_)

theorem State.latch_kept {v : Nat} (hk : s0.Kept s) : s0.Kept (State.latch s v) := by
  unfold State.latch
  repeat' first
    | with_reducible assumption
    | exact rfl
    | exact MbxKept.refl _
    | exact MemKept.mk id id rfl rfl
    | exact updAt_length _ _ _
    | exact List.length_map ..
    | exact List.length_mapIdx ..
    | (with_reducible refine State.Kept.upd ?_ ?_ ?_ ?_ ?_ ?_ ?_)

theorem State.raise_kept {v : Nat} (hk : s0.Kept s) : s0.Kept (State.raise s v) := by
  unfold State.raise
  repeat' first
    | with_reducible assumption
    | with_reducible apply State.message_kept
    | with_reducible apply State.latch_kept

theorem State.flushVector_kept {v : Nat} (hk : s0.Kept s) : s0.Kept (State.flushVector s v) := by
  unfold State.flushVector
  repeat' first
    | with_reducible assumption
    | with_reducible apply State.emit_kept
    | exact rfl
    | exact MbxKept.refl _
    | exact MemKept.mk id id rfl rfl
    | exact updAt_length _ _ _
    | exact List.length_map ..
    | exact List.length_mapIdx ..
    | split
    | (with_reducible refine State.Kept.upd ?_ ?_ ?_ ?_ ?_ ?_ ?_)

theorem State.flushAll_kept (hk : s0.Kept s) : s0.Kept (State.flushAll s) := by
  unfold State.flushAll
  repeat' first
    | with_reducible assumption
    | with_reducible apply State.flushVector_kept
    | (with_reducible refine State.Kept.foldl _ (fun t a hk => ?_) ?_)

theorem State.event_kept {src : EvSrc} {code : Nat} {fields : List (Nat × Nat)} (hk : s0.Kept s) : s0.Kept (State.event s src code fields) := by
  unfold State.event
  repeat' first
    | with_reducible assumption
    | exact rfl
    | exact MbxKept.refl _
    | exact MemKept.mk id id rfl rfl
    | exact updAt_length _ _ _
    | exact List.length_map ..
    | exact List.length_mapIdx ..
    | split
    | extract_lets
    | (with_reducible refine State.Kept.upd ?_ ?_ ?_ ?_ ?_ ?_ ?_)

theorem State.securityEvent_kept {code : Nat} {fields : List (Nat × Nat)} (hk : s0.Kept s) : s0.Kept (State.securityEvent s code fields) := by
  unfold State.securityEvent
  repeat' first
    | with_reducible assumption
    | with_reducible apply State.raise_kept
    | with_reducible apply State.event_kept

theorem State.sramEvent_kept {src : EvSrc} {unit bank word req : Nat} {work : List (Nat × Nat)} (hk : s0.Kept s) : s0.Kept (State.sramEvent s src unit bank word req work) := by
  unfold State.sramEvent
  repeat' first
    | with_reducible assumption
    | with_reducible apply State.event_kept
    | exact rfl
    | exact MbxKept.refl _
    | exact MemKept.mk id id rfl rfl
    | exact updAt_length _ _ _
    | exact List.length_map ..
    | exact List.length_mapIdx ..
    | (with_reducible refine State.Kept.upd ?_ ?_ ?_ ?_ ?_ ?_ ?_)

theorem State.deliver_kept {n : Nat} {status : Nat} {data : List Byte} (hk : s0.Kept s) : s0.Kept (State.deliver s n status data) := by
  unfold State.deliver
  repeat' first
    | with_reducible assumption
    | with_reducible apply State.latch_kept
    | with_reducible apply State.raise_kept
    | exact rfl
    | exact MbxKept.refl _
    | exact MemKept.mk id id rfl rfl
    | exact updAt_length _ _ _
    | exact List.length_map ..
    | exact List.length_mapIdx ..
    | exact MbxKept.modify _ fun _ hx => hx
    | exact MbxKept.modify _ fun _ hx => memWrite_wf _ _ hx
    | split
    | extract_lets
    | (with_reducible refine State.Kept.upd ?_ ?_ ?_ ?_ ?_ ?_ ?_)

theorem State.complete_kept {n : Nat} {status : Nat} {data : List Byte} (hk : s0.Kept s) : s0.Kept (State.complete s n status data) := by
  unfold State.complete
  repeat' first
    | with_reducible assumption
    | with_reducible apply State.deliver_kept
    | exact rfl
    | exact MbxKept.refl _
    | exact MemKept.mk id id rfl rfl
    | exact updAt_length _ _ _
    | exact List.length_map ..
    | exact List.length_mapIdx ..
    | split
    | (with_reducible refine State.Kept.upd ?_ ?_ ?_ ?_ ?_ ?_ ?_)

theorem State.tick_kept (hk : s0.Kept s) : s0.Kept (State.tick s) := by
  unfold State.tick
  repeat' first
    | with_reducible assumption
    | exact rfl
    | exact MbxKept.refl _
    | exact MemKept.mk id id rfl rfl
    | exact updAt_length _ _ _
    | exact List.length_map ..
    | exact List.length_mapIdx ..
    | split
    | (with_reducible refine State.Kept.upd ?_ ?_ ?_ ?_ ?_ ?_ ?_)

theorem State.free_kept {n : Nat} (h : s0.Kept s) : s0.Kept (s.free n).2 :=
  State.Kept.upd h (MbxKept.refl _) rfl rfl (MemKept.refl _) rfl rfl

theorem State.modTower_kept {t : Nat} {f : Tower → Tower} (hk : s0.Kept s) : s0.Kept (State.modTower s t f) := by
  unfold State.modTower
  repeat' first
    | with_reducible assumption
    | exact rfl
    | exact MbxKept.refl _
    | exact MemKept.mk id id rfl rfl
    | exact updAt_length _ _ _
    | exact List.length_map ..
    | exact List.length_mapIdx ..
    | (with_reducible refine State.Kept.upd ?_ ?_ ?_ ?_ ?_ ?_ ?_)

theorem State.dropItems_kept {p : Item → Bool} (hk : s0.Kept s) : s0.Kept (State.dropItems s p) := by
  unfold State.dropItems
  repeat' first
    | with_reducible assumption
    | exact rfl
    | exact MbxKept.refl _
    | exact MemKept.mk id id rfl rfl
    | exact updAt_length _ _ _
    | exact List.length_map ..
    | exact List.length_mapIdx ..
    | (with_reducible refine State.Kept.upd ?_ ?_ ?_ ?_ ?_ ?_ ?_)

theorem State.modStep_kept {i : Nat} {f : Step → Step} (hk : s0.Kept s) : s0.Kept (State.modStep s i f) := by
  unfold State.modStep
  repeat' first
    | with_reducible assumption
    | exact rfl
    | exact MbxKept.refl _
    | exact MemKept.mk id id rfl rfl
    | exact updAt_length _ _ _
    | exact List.length_map ..
    | exact List.length_mapIdx ..
    | (with_reducible refine State.Kept.upd ?_ ?_ ?_ ?_ ?_ ?_ ?_)

theorem State.modSlot_kept {n : Nat} {f : Slot → Slot} (hk : s0.Kept s) : s0.Kept (State.modSlot s n f) := by
  unfold State.modSlot
  repeat' first
    | with_reducible assumption
    | exact rfl
    | exact MbxKept.refl _
    | exact MemKept.mk id id rfl rfl
    | exact updAt_length _ _ _
    | exact List.length_map ..
    | exact List.length_mapIdx ..
    | (with_reducible refine State.Kept.upd ?_ ?_ ?_ ?_ ?_ ?_ ?_)

theorem State.failStep_kept {i : Nat} {status : Nat} (hk : s0.Kept s) : s0.Kept (State.failStep s i status) := by
  unfold State.failStep
  repeat' first
    | with_reducible assumption
    | with_reducible apply State.dropItems_kept
    | with_reducible apply State.modStep_kept
    | exact rfl
    | exact MbxKept.refl _
    | exact MemKept.mk id id rfl rfl
    | exact updAt_length _ _ _
    | exact List.length_map ..
    | exact List.length_mapIdx ..
    | split

theorem State.failEarly_kept {status : Nat} (hk : s0.Kept s) : s0.Kept (State.failEarly s status) := by
  unfold State.failEarly
  repeat' first
    | with_reducible assumption
    | with_reducible apply State.failStep_kept
    | exact rfl
    | exact MbxKept.refl _
    | exact MemKept.mk id id rfl rfl
    | exact updAt_length _ _ _
    | exact List.length_map ..
    | exact List.length_mapIdx ..
    | split

theorem State.bucketCount_kept {p : Place} {die : Nat} (h : s0.Kept s) : s0.Kept (s.bucketCount p die) := by
  have key (q : Mem → Mem) (hq : ∀ m, MemKept m (q m)) : s0.Kept { s with mem := q s.mem } :=
    State.Kept.upd h (MbxKept.refl _) rfl rfl (hq _) rfl rfl
  unfold State.bucketCount
  extract_lets
  split
  · apply State.raise_kept
    apply State.event_kept
    exact key (fun m => { m with
      buckets := memSet m.buckets p.bankNo 0, ovf := m.ovf + 1, lastOvf := ⟨p.stack, p.channel, p.bank⟩ })
      fun m => MemKept.mk id (memSet_wf _ _) rfl rfl
  · refine key (fun m => { m with buckets := memSet m.buckets p.bankNo _ }) fun m => MemKept.mk id (memSet_wf _ _) rfl rfl

theorem State.queueWriteBack_kept {stack addr : Nat} {bytes : List Byte} (hk : s0.Kept s) : s0.Kept (State.queueWriteBack s stack addr bytes) := by
  unfold State.queueWriteBack
  repeat' first
    | with_reducible assumption
    | exact rfl
    | exact MbxKept.refl _
    | exact MemKept.mk id id rfl rfl
    | exact updAt_length _ _ _
    | exact List.length_map ..
    | exact List.length_mapIdx ..
    | exact MemKept.mk id id rfl (updAt_length _ _ _)
    | split
    | (with_reducible refine State.Kept.upd ?_ ?_ ?_ ?_ ?_ ?_ ?_)

theorem State.readBeat_kept {req : Nat} {step : Quad} {errs : List BeatErr} {addr : Nat} (h : s0.Kept s) :
    s0.Kept (s.readBeat req step errs addr).2 := by
  unfold State.readBeat
  try extract_lets
  split
  · exact h
  · split
    · exact State.Kept.upd h (MbxKept.refl _) rfl rfl (MemKept.mk id id rfl rfl) rfl rfl
    · try extract_lets
      split
      · exact h
      · try extract_lets
        split
        · exact h
        · apply State.queueWriteBack_kept
          apply State.bucketCount_kept
          exact State.Kept.upd h (MbxKept.refl _) rfl rfl (MemKept.mk id id rfl rfl) rfl rfl
      · try extract_lets
        apply State.event_kept
        exact State.Kept.upd h (MbxKept.refl _) rfl rfl (MemKept.mk id id rfl rfl) rfl rfl

theorem State.readBeats_kept {req : Nat} {step : Quad} {errs : List BeatErr} {k b : Nat} {acc : List Byte}
    (h : s0.Kept s) : s0.Kept (s.readBeats req step errs k b acc).2 := by
  induction k generalizing s b acc with
  | zero => exact h
  | succ k ih =>
    unfold State.readBeats
    split
    · exact State.Kept.ofPair (State.readBeat_kept h) (by assumption)
    · exact ih (State.Kept.ofPair (State.readBeat_kept h) (by assumption))

theorem State.readDev_kept {req : Nat} {step : Quad} {errs : List BeatErr} {addr len : Nat} (h : s0.Kept s) :
    s0.Kept (s.readDev req step errs addr len).2 := by
  unfold State.readDev
  extract_lets
  split <;> exact State.Kept.ofPair (State.readBeats_kept h) (by assumption)

theorem State.readRuns_kept {req : Nat} {step : Quad} {errs : List BeatErr} {runs : List (Nat × Nat)} (h : s0.Kept s) :
    s0.Kept (s.readRuns req step errs runs).2 := by
  unfold State.readRuns
  extract_lets hole src s1 beats
  have h1 : s0.Kept s1 := by
    unfold s1
    split
    · exact State.Kept.upd h (MbxKept.refl _) rfl rfl (MemKept.mk id id rfl rfl) rfl rfl
    · exact h
  clear_value s1 beats
  generalize (!hole) = ok
  induction beats generalizing s1 ok with
  | nil => exact h1
  | cons b l ih => exact ih _ (State.readBeat_kept h1) _

theorem State.putPage_kept {addr : Nat} {bytes : List Byte} (h : s0.Kept s) : s0.Kept (s.putPage addr bytes) := by
  unfold State.putPage
  split
  · exact h
  · split
    · exact State.Kept.upd h (MbxKept.refl _) rfl rfl (MemKept.mk id id rfl rfl) rfl rfl
    · exact State.Kept.upd h (MbxKept.refl _) rfl rfl (MemKept.mk (memWrite_wf _ _) id rfl (List.length_map ..)) rfl rfl

theorem State.writeLineBy_kept {owner a : Nat} {bs : List Byte} (hk : s0.Kept s) : s0.Kept (State.writeLineBy s owner a bs) := by
  unfold State.writeLineBy
  repeat' first
    | with_reducible assumption
    | with_reducible apply State.emit_kept
    | with_reducible apply State.putPage_kept
    | exact rfl
    | exact MbxKept.refl _
    | exact MemKept.mk id id rfl rfl
    | exact updAt_length _ _ _
    | exact List.length_map ..
    | exact List.length_mapIdx ..
    | split
    | extract_lets
    | (with_reducible refine State.Kept.upd ?_ ?_ ?_ ?_ ?_ ?_ ?_)

theorem State.writeLine_kept {a : Nat} {bs : List Byte} (hk : s0.Kept s) : s0.Kept (State.writeLine s a bs) := by
  unfold State.writeLine
  repeat' first
    | with_reducible assumption
    | with_reducible apply State.writeLineBy_kept

theorem State.writeBeats_kept {addr : Nat} {bytes : List Byte} (hk : s0.Kept s) : s0.Kept (State.writeBeats s addr bytes) := by
  unfold State.writeBeats
  repeat' first
    | with_reducible assumption
    | with_reducible apply State.writeLine_kept
    | (with_reducible refine State.Kept.foldl _ (fun t a hk => ?_) ?_)

theorem State.writeDev_kept {addr : Nat} {bytes : List Byte} (hk : s0.Kept s) : s0.Kept (State.writeDev s addr bytes) := by
  unfold State.writeDev
  repeat' first
    | with_reducible assumption
    | with_reducible apply State.writeBeats_kept
    | exact rfl
    | exact MbxKept.refl _
    | exact MemKept.mk id id rfl rfl
    | exact updAt_length _ _ _
    | exact List.length_map ..
    | exact List.length_mapIdx ..
    | split
    | extract_lets
    | (with_reducible refine State.Kept.upd ?_ ?_ ?_ ?_ ?_ ?_ ?_)

theorem State.writeIo_kept {addr : Nat} {bytes : List Byte} (hk : s0.Kept s) : s0.Kept (State.writeIo s addr bytes) := by
  unfold State.writeIo
  repeat' first
    | with_reducible assumption
    | with_reducible apply State.writeDev_kept
    | split

theorem State.writePieces_kept {ps : List (Nat × Nat)} {bs : List Byte} (hk : s0.Kept s) :
    s0.Kept (s.writePieces ps bs) := by
  induction ps generalizing s bs with
  | nil => exact hk
  | cons p ps ih => exact ih (State.writeDev_kept hk)

theorem State.clearMoved_kept {x : Slot} (hk : s0.Kept s) : s0.Kept (State.clearMoved s x) := by
  unfold State.clearMoved
  repeat' first
    | with_reducible assumption
    | with_reducible apply State.writeBeats_kept
    | (with_reducible refine State.Kept.foldl _ (fun t a hk => ?_) ?_)

theorem State.releaseGroups_kept (hk : s0.Kept s) : s0.Kept (State.releaseGroups s) := by
  unfold State.releaseGroups
  split
  · exact hk
  · exact State.Kept.upd hk (MbxKept.refl _) rfl rfl (MemKept.mk id id rfl rfl) rfl rfl

theorem State.modCtr_kept {c : CtrId} {f : Ctr → Ctr} (hk : s0.Kept s) : s0.Kept (State.modCtr s c f) := by
  unfold State.modCtr
  repeat' first
    | with_reducible assumption
    | with_reducible apply State.modTower_kept
    | exact rfl
    | exact MbxKept.refl _
    | exact MemKept.mk id id rfl rfl
    | exact updAt_length _ _ _
    | exact List.length_map ..
    | exact List.length_mapIdx ..
    | split
    | (with_reducible refine State.Kept.upd ?_ ?_ ?_ ?_ ?_ ?_ ?_)

theorem State.issueAll_kept {t : Nat} (hk : s0.Kept s) : s0.Kept (State.issueAll s t) := by
  unfold State.issueAll
  repeat' first
    | with_reducible assumption
    | with_reducible apply State.modTower_kept

theorem State.finishStep_kept {i : Nat} {status : Nat} {updated : Bool} (hk : s0.Kept s) : s0.Kept (State.finishStep s i status updated) := by
  unfold State.finishStep
  repeat' first
    | with_reducible assumption
    | with_reducible apply State.raise_kept
    | with_reducible apply State.complete_kept
    | with_reducible apply State.dropItems_kept
    | exact rfl
    | exact MbxKept.refl _
    | exact MemKept.mk id id rfl rfl
    | exact updAt_length _ _ _
    | exact List.length_map ..
    | exact List.length_mapIdx ..
    | split
    | extract_lets
    | (with_reducible refine State.Kept.upd ?_ ?_ ?_ ?_ ?_ ?_ ?_)

theorem State.sendBeacon_kept (hk : s0.Kept s) : s0.Kept (State.sendBeacon s) := by
  unfold State.sendBeacon
  repeat' first
    | with_reducible assumption
    | exact rfl
    | exact MbxKept.refl _
    | exact MemKept.mk id id rfl rfl
    | exact updAt_length _ _ _
    | exact List.length_map ..
    | exact List.length_mapIdx ..
    | split
    | (with_reducible refine State.Kept.upd ?_ ?_ ?_ ?_ ?_ ?_ ?_)

theorem State.startRamp_kept {target : Nat} (hk : s0.Kept s) : s0.Kept (State.startRamp s target) := by
  unfold State.startRamp
  repeat' first
    | with_reducible assumption
    | with_reducible apply State.sendBeacon_kept
    | exact rfl
    | exact MbxKept.refl _
    | exact MemKept.mk id id rfl rfl
    | exact updAt_length _ _ _
    | exact List.length_map ..
    | exact List.length_mapIdx ..
    | split
    | extract_lets
    | (with_reducible refine State.Kept.upd ?_ ?_ ?_ ?_ ?_ ?_ ?_)

theorem State.cadenceMismatch_kept {p : Step} {own : Nat} {codes : List Nat} {source : Nat} (hk : s0.Kept s) : s0.Kept (State.cadenceMismatch s p own codes source) := by
  unfold State.cadenceMismatch
  repeat' first
    | with_reducible assumption
    | with_reducible apply State.event_kept

theorem State.refuseBarrier_kept {i : Nat} (hk : s0.Kept s) : s0.Kept (State.refuseBarrier s i) := by
  unfold State.refuseBarrier
  repeat' first
    | with_reducible assumption
    | with_reducible apply State.finishStep_kept
    | with_reducible apply State.cadenceMismatch_kept
    | exact rfl
    | exact MbxKept.refl _
    | exact MemKept.mk id id rfl rfl
    | exact updAt_length _ _ _
    | exact List.length_map ..
    | exact List.length_mapIdx ..
    | split

theorem State.cadenceCheck_kept (hk : s0.Kept s) : s0.Kept (State.cadenceCheck s) := by
  unfold State.cadenceCheck
  repeat' first
    | with_reducible assumption
    | with_reducible apply State.modStep_kept
    | with_reducible apply State.refuseBarrier_kept
    | exact rfl
    | exact MbxKept.refl _
    | exact MemKept.mk id id rfl rfl
    | exact updAt_length _ _ _
    | exact List.length_map ..
    | exact List.length_mapIdx ..
    | split
    | extract_lets

theorem State.raiseHold_kept {cause mx : Nat} (hk : s0.Kept s) : s0.Kept (State.raiseHold s cause mx) := by
  unfold State.raiseHold
  repeat' first
    | with_reducible assumption
    | with_reducible apply State.raise_kept
    | with_reducible apply State.event_kept
    | with_reducible apply State.sendBeacon_kept
    | with_reducible apply State.cadenceCheck_kept
    | exact rfl
    | exact MbxKept.refl _
    | exact MemKept.mk id id rfl rfl
    | exact updAt_length _ _ _
    | exact List.length_map ..
    | exact List.length_mapIdx ..
    | split
    | extract_lets
    | (with_reducible refine State.Kept.upd ?_ ?_ ?_ ?_ ?_ ?_ ?_)

theorem State.causeClears_kept {cause : Nat} (hk : s0.Kept s) : s0.Kept (State.causeClears s cause) := by
  unfold State.causeClears
  repeat' first
    | with_reducible assumption
    | with_reducible apply State.sendBeacon_kept
    | exact rfl
    | exact MbxKept.refl _
    | exact MemKept.mk id id rfl rfl
    | exact updAt_length _ _ _
    | exact List.length_map ..
    | exact List.length_mapIdx ..
    | split
    | extract_lets
    | (with_reducible refine State.Kept.upd ?_ ?_ ?_ ?_ ?_ ?_ ?_)

theorem State.tryClearHold_kept (hk : s0.Kept s) : s0.Kept (State.tryClearHold s) := by
  unfold State.tryClearHold
  repeat' first
    | with_reducible assumption
    | with_reducible apply State.sendBeacon_kept
    | exact rfl
    | exact MbxKept.refl _
    | exact MemKept.mk id id rfl rfl
    | exact updAt_length _ _ _
    | exact List.length_map ..
    | exact List.length_mapIdx ..
    | split
    | extract_lets
    | (with_reducible refine State.Kept.upd ?_ ?_ ?_ ?_ ?_ ?_ ?_)

theorem State.whenOn_kept {f : State → State} (hf : ∀ t, s0.Kept t → s0.Kept (f t)) (h : s0.Kept s) :
    s0.Kept (s.whenOn f) := by
  unfold State.whenOn
  split
  · exact hf s h
  · exact h

theorem State.supplyWarn_kept {mv : Nat} (hk : s0.Kept s) : s0.Kept (State.supplyWarn s mv) := by
  unfold State.supplyWarn
  repeat' first
    | with_reducible assumption
    | with_reducible apply State.raise_kept
    | with_reducible apply State.event_kept
    | exact rfl
    | exact MbxKept.refl _
    | exact MemKept.mk id id rfl rfl
    | exact updAt_length _ _ _
    | exact List.length_map ..
    | exact List.length_mapIdx ..
    | split
    | extract_lets
    | (with_reducible refine State.Kept.upd ?_ ?_ ?_ ?_ ?_ ?_ ?_)

theorem State.supplyResume_kept {lowest micros : Nat} (hk : s0.Kept s) : s0.Kept (State.supplyResume s lowest micros) := by
  unfold State.supplyResume
  repeat' first
    | with_reducible assumption
    | with_reducible apply State.raise_kept
    | with_reducible apply State.event_kept
    | exact rfl
    | exact MbxKept.refl _
    | exact MemKept.mk id id rfl rfl
    | exact updAt_length _ _ _
    | exact List.length_map ..
    | exact List.length_mapIdx ..
    | split
    | (with_reducible refine State.Kept.upd ?_ ?_ ?_ ?_ ?_ ?_ ?_)

theorem State.storeTj_kept {l : List Junction} (hk : s0.Kept s) : s0.Kept (State.storeTj s l) := by
  unfold State.storeTj
  repeat' first
    | with_reducible assumption
    | with_reducible apply State.modTower_kept
    | (with_reducible refine State.Kept.foldl _ (fun t a hk => ?_) ?_)
    | exact rfl
    | exact MbxKept.refl _
    | exact MemKept.mk id id rfl rfl
    | exact updAt_length _ _ _
    | exact List.length_map ..
    | exact List.length_mapIdx ..
    | split

theorem State.thermalWarn_kept {h : Junction} (hk : s0.Kept s) : s0.Kept (State.thermalWarn s h) := by
  unfold State.thermalWarn
  repeat' first
    | with_reducible assumption
    | with_reducible apply State.raise_kept
    | with_reducible apply State.event_kept
    | exact rfl
    | exact MbxKept.refl _
    | exact MemKept.mk id id rfl rfl
    | exact updAt_length _ _ _
    | exact List.length_map ..
    | exact List.length_mapIdx ..
    | split
    | extract_lets
    | (with_reducible refine State.Kept.upd ?_ ?_ ?_ ?_ ?_ ?_ ?_)

theorem State.thermalCapSample_kept {h : Junction} (hk : s0.Kept s) : s0.Kept (State.thermalCapSample s h) := by
  unfold State.thermalCapSample
  repeat' first
    | with_reducible assumption
    | exact rfl
    | exact MbxKept.refl _
    | exact MemKept.mk id id rfl rfl
    | exact updAt_length _ _ _
    | exact List.length_map ..
    | exact List.length_mapIdx ..
    | split
    | extract_lets
    | (with_reducible refine State.Kept.upd ?_ ?_ ?_ ?_ ?_ ?_ ?_)

theorem State.thermalCrit_kept {h : Junction} (hk : s0.Kept s) : s0.Kept (State.thermalCrit s h) := by
  unfold State.thermalCrit
  repeat' first
    | with_reducible assumption
    | with_reducible apply State.raise_kept
    | with_reducible apply State.event_kept
    | with_reducible apply State.raiseHold_kept
    | with_reducible apply State.causeClears_kept
    | exact rfl
    | exact MbxKept.refl _
    | exact MemKept.mk id id rfl rfl
    | exact updAt_length _ _ _
    | exact List.length_map ..
    | exact List.length_mapIdx ..
    | split
    | extract_lets
    | (with_reducible refine State.Kept.upd ?_ ?_ ?_ ?_ ?_ ?_ ?_)

theorem State.thermalSample_kept {l : List Junction} (hk : s0.Kept s) : s0.Kept (State.thermalSample s l) := by
  unfold State.thermalSample
  repeat' first
    | with_reducible assumption
    | with_reducible apply State.storeTj_kept
    | with_reducible apply State.thermalWarn_kept
    | with_reducible apply State.thermalCapSample_kept
    | with_reducible apply State.thermalCrit_kept
    | exact rfl
    | exact MbxKept.refl _
    | exact MemKept.mk id id rfl rfl
    | exact updAt_length _ _ _
    | exact List.length_map ..
    | exact List.length_mapIdx ..
    | split
    | extract_lets
    | (with_reducible refine State.Kept.upd ?_ ?_ ?_ ?_ ?_ ?_ ?_)

theorem State.thermalCapStep_kept (hk : s0.Kept s) : s0.Kept (State.thermalCapStep s) := by
  unfold State.thermalCapStep
  repeat' first
    | with_reducible assumption
    | exact rfl
    | exact MbxKept.refl _
    | exact MemKept.mk id id rfl rfl
    | exact updAt_length _ _ _
    | exact List.length_map ..
    | exact List.length_mapIdx ..
    | split
    | extract_lets
    | (with_reducible refine State.Kept.upd ?_ ?_ ?_ ?_ ?_ ?_ ?_)

theorem State.activityReport_kept {u : Nat} {a : Activity} (hk : s0.Kept s) : s0.Kept (State.activityReport s u a) := by
  unfold State.activityReport
  repeat' first
    | with_reducible assumption
    | with_reducible apply State.free_kept
    | with_reducible apply State.modTower_kept
    | (with_reducible refine State.Kept.ofPair ?_ (by assumption))
    | exact rfl
    | exact MbxKept.refl _
    | exact MemKept.mk id id rfl rfl
    | exact updAt_length _ _ _
    | exact List.length_map ..
    | exact List.length_mapIdx ..
    | split
    | extract_lets
    | (with_reducible refine State.Kept.upd ?_ ?_ ?_ ?_ ?_ ?_ ?_)

theorem State.rampStep_kept (hk : s0.Kept s) : s0.Kept (State.rampStep s) := by
  unfold State.rampStep
  repeat' first
    | with_reducible assumption
    | with_reducible apply State.sendBeacon_kept
    | exact rfl
    | exact MbxKept.refl _
    | exact MemKept.mk id id rfl rfl
    | exact updAt_length _ _ _
    | exact List.length_map ..
    | exact List.length_mapIdx ..
    | split
    | extract_lets
    | (with_reducible refine State.Kept.upd ?_ ?_ ?_ ?_ ?_ ?_ ?_)

theorem State.fastLoop_kept (hk : s0.Kept s) : s0.Kept (State.fastLoop s) := by
  unfold State.fastLoop
  repeat' first
    | with_reducible assumption
    | with_reducible apply State.rampStep_kept
    | exact rfl
    | exact MbxKept.refl _
    | exact MemKept.mk id id rfl rfl
    | exact updAt_length _ _ _
    | exact List.length_map ..
    | exact List.length_mapIdx ..
    | split
    | extract_lets
    | (with_reducible refine State.Kept.upd ?_ ?_ ?_ ?_ ?_ ?_ ?_)

theorem State.slowLoop_kept (hk : s0.Kept s) : s0.Kept (State.slowLoop s) := by
  unfold State.slowLoop
  repeat' first
    | with_reducible assumption
    | with_reducible apply State.raise_kept
    | with_reducible apply State.event_kept
    | with_reducible apply State.take_kept
    | exact rfl
    | exact MbxKept.refl _
    | exact MemKept.mk id id rfl rfl
    | exact updAt_length _ _ _
    | exact List.length_map ..
    | exact List.length_mapIdx ..
    | split
    | extract_lets
    | (with_reducible refine State.Kept.upd ?_ ?_ ?_ ?_ ?_ ?_ ?_)

theorem State.clearDivergence_kept (hk : s0.Kept s) : s0.Kept (State.clearDivergence s) := by
  unfold State.clearDivergence
  repeat' first
    | with_reducible assumption
    | exact rfl
    | exact MbxKept.refl _
    | exact MemKept.mk id id rfl rfl
    | exact updAt_length _ _ _
    | exact List.length_map ..
    | exact List.length_mapIdx ..
    | split
    | (with_reducible refine State.Kept.upd ?_ ?_ ?_ ?_ ?_ ?_ ?_)

theorem State.powerSample_kept {converters rails : List Reading} (hk : s0.Kept s) : s0.Kept (State.powerSample s converters rails) := by
  unfold State.powerSample
  repeat' first
    | with_reducible assumption
    | (with_reducible refine State.Kept.foldl _ (fun t a hk => ?_) ?_)
    | exact rfl
    | exact MbxKept.refl _
    | exact MemKept.mk id id rfl rfl
    | exact updAt_length _ _ _
    | exact List.length_map ..
    | exact List.length_mapIdx ..
    | extract_lets
    | (with_reducible refine State.Kept.upd ?_ ?_ ?_ ?_ ?_ ?_ ?_)

theorem State.collectDroop_kept {t : Nat} (hk : s0.Kept s) : s0.Kept (State.collectDroop s t) := by
  unfold State.collectDroop
  repeat' first
    | with_reducible assumption
    | with_reducible apply State.modTower_kept
    | exact rfl
    | exact MbxKept.refl _
    | exact MemKept.mk id id rfl rfl
    | exact updAt_length _ _ _
    | exact List.length_map ..
    | exact List.length_mapIdx ..
    | (with_reducible refine State.Kept.upd ?_ ?_ ?_ ?_ ?_ ?_ ?_)

theorem State.calibrateDroop_kept (hk : s0.Kept s) : s0.Kept (State.calibrateDroop s) := by
  unfold State.calibrateDroop
  repeat' first
    | with_reducible assumption
    | exact rfl
    | exact MbxKept.refl _
    | exact MemKept.mk id id rfl rfl
    | exact updAt_length _ _ _
    | exact List.length_map ..
    | exact List.length_mapIdx ..
    | (with_reducible refine State.Kept.upd ?_ ?_ ?_ ?_ ?_ ?_ ?_)

theorem State.ageQuarter_kept {counts : List (Nat × List Nat)} {q : Nat} (hk : s0.Kept s) : s0.Kept (State.ageQuarter counts s q) := by
  unfold State.ageQuarter
  repeat' first
    | with_reducible assumption
    | with_reducible apply State.raise_kept
    | with_reducible apply State.event_kept
    | with_reducible apply State.raiseHold_kept
    | exact rfl
    | exact MbxKept.refl _
    | exact MemKept.mk id id rfl rfl
    | exact updAt_length _ _ _
    | exact List.length_map ..
    | exact List.length_mapIdx ..
    | split
    | extract_lets
    | (with_reducible refine State.Kept.upd ?_ ?_ ?_ ?_ ?_ ?_ ?_)

theorem State.ageingRead_kept {counts : List (Nat × List Nat)} (hk : s0.Kept s) : s0.Kept (State.ageingRead s counts) := by
  unfold State.ageingRead
  repeat' first
    | with_reducible assumption
    | with_reducible apply State.ageQuarter_kept
    | (with_reducible refine State.Kept.foldl _ (fun t a hk => ?_) ?_)

theorem State.holdRow_kept {cause tower : Nat} (hk : s0.Kept s) : s0.Kept (State.holdRow s cause tower) := by
  unfold State.holdRow
  repeat' first
    | with_reducible assumption
    | with_reducible apply State.raiseHold_kept
    | split

theorem State.holdClearRow_kept {cause : Nat} (hk : s0.Kept s) : s0.Kept (State.holdClearRow s cause) := by
  unfold State.holdClearRow
  repeat' first
    | with_reducible assumption
    | with_reducible apply State.causeClears_kept
    | with_reducible apply State.tryClearHold_kept
    | split

theorem State.refuse_kept {x : Cmd} {status len : Nat} (hk : s0.Kept s) : s0.Kept (State.refuse s x status len) := by
  unfold State.refuse
  repeat' first
    | with_reducible assumption
    | with_reducible apply State.complete_kept

theorem State.done_kept {x : Cmd} {data : List Byte} (hk : s0.Kept s) : s0.Kept (State.done s x data) := by
  unfold State.done
  repeat' first
    | with_reducible assumption
    | with_reducible apply State.complete_kept

theorem State.imgRead_kept {env : Env} {addr off len : Nat} (hk : s0.Kept s) : s0.Kept (s.imgRead env addr off len).2 := by
  unfold State.imgRead
  split
  · exact hk
  · split
    · split
      · exact hk
      · split <;> exact hk
    · split
      · exact hk
      · split <;> exact State.Kept.ofPair (State.readDev_kept hk) (by assumption)

theorem State.emptySlot_kept {n : Nat} (hk : s0.Kept s) : s0.Kept (State.emptySlot s n) := by
  unfold State.emptySlot
  exact State.releaseGroups_kept
    (State.Kept.upd (State.modSlot_kept (State.clearMoved_kept hk)) (MbxKept.refl _) rfl (List.length_map ..)
      (MemKept.mk id id rfl rfl) rfl rfl)

theorem State.emptySlots_kept {l : List Nat} (hk : s0.Kept s) : s0.Kept (State.emptySlots s l) := by
  unfold State.emptySlots
  repeat' first
    | with_reducible assumption
    | with_reducible apply State.emptySlot_kept
    | (with_reducible refine State.Kept.foldl _ (fun t a hk => ?_) ?_)

theorem State.placeEntries_kept {u : State} {t : Nat} {l : List (Nat × Nat)} (hk : s0.Kept s)
    (e : s.placeEntries t l = some u) : s0.Kept u := by
  induction l generalizing s with
  | nil => cases e; exact hk
  | cons x l ih =>
    unfold State.placeEntries at e
    split at e
    · cases e
    · exact ih (State.modTower_kept hk) e

theorem State.moveEntries_kept {u : State} {t : Nat} (hk : s0.Kept s) (e : s.moveEntries t = some u) : s0.Kept u := by
  unfold State.moveEntries at e
  exact State.placeEntries_kept (State.modTower_kept hk) e

theorem State.coldEntries_kept {t : Nat} (hk : s0.Kept s) : s0.Kept (s.coldEntries t) := by
  unfold State.coldEntries
  extract_lets es s1 s2
  have h2 : s0.Kept s2 := State.modTower_kept (State.Kept.foldl _ (fun u e hu => State.event_kept (State.modSlot_kept hu)) hk)
  cases e : s2.placeEntries t es with
  | none => exact h2
  | some u => exact State.placeEntries_kept h2 e

theorem State.readmit_kept {t : Nat} {fails : List MarchFail} (hk : s0.Kept s) : s0.Kept (State.readmit s t fails) := by
  unfold State.readmit
  repeat' first
    | with_reducible assumption
    | with_reducible apply State.event_kept
    | with_reducible apply State.modTower_kept
    | with_reducible apply State.collectDroop_kept
    | exact rfl
    | exact MbxKept.refl _
    | exact MemKept.mk id id rfl rfl
    | exact updAt_length _ _ _
    | exact List.length_map ..
    | exact List.length_mapIdx ..
    | split
    | extract_lets
    | (with_reducible refine State.Kept.upd ?_ ?_ ?_ ?_ ?_ ?_ ?_)

theorem State.readmitEvent_kept {t : Nat} {rs : List (MarchFail × Nat)} (hk : s0.Kept s) : s0.Kept (State.readmitEvent s t rs) := by
  unfold State.readmitEvent
  repeat' first
    | with_reducible assumption
    | with_reducible apply State.event_kept

end Sys2Proof.Machine
end

