-- ==== Sys2Proof/Laws/KeptCmds.lean ====
section
/-!
SUPPORT. What each command of the administration, memory, security, start-up and topology families keeps.
-/

set_option Elab.async false
namespace Sys2Proof.Machine

open Sys2Proof

variable {s0 s : State}

theorem cmdIdentify_kept {x : Cmd} (hk : s0.Kept s) : s0.Kept (cmdIdentify x s) := by
  unfold cmdIdentify
  repeat' first
    | with_reducible assumption
    | with_reducible apply State.done_kept

theorem cmdGetCaps_kept {x : Cmd} (hk : s0.Kept s) : s0.Kept (cmdGetCaps x s) := by
  unfold cmdGetCaps
  repeat' first
    | with_reducible assumption
    | with_reducible apply State.done_kept

theorem State.ringRead_kept {errs : List BeatErr} {n : Nat} {i : Word} {acc : List Byte} (hk : s0.Kept s) :
    s0.Kept (s.ringRead errs n i acc).2 := by
  induction n generalizing s i acc with
  | zero => exact hk
  | succ n ih =>
    unfold State.ringRead
    extract_lets
    split
    · exact ih (State.Kept.ofPair (State.readDev_kept hk) (by assumption))
    · exact State.Kept.ofPair (State.readDev_kept hk) (by assumption)

theorem cmdReadLog_kept {x : Cmd} (hk : s0.Kept s) : s0.Kept (cmdReadLog x s) := by
  unfold cmdReadLog
  repeat' first
    | with_reducible assumption
    | with_reducible apply State.refuse_kept
    | with_reducible apply State.done_kept
    | with_reducible apply State.ringRead_kept
    | with_reducible apply State.take_kept
    | (with_reducible refine State.Kept.ofPair ?_ (by assumption))
    | exact rfl
    | exact MbxKept.refl _
    | exact MemKept.mk id id rfl rfl
    | exact updAt_length _ _ _
    | exact List.length_map ..
    | exact List.length_mapIdx ..
    | split
    | extract_lets

theorem cmdSetCadence_kept {x : Cmd} (hk : s0.Kept s) : s0.Kept (cmdSetCadence x s) := by
  unfold cmdSetCadence
  repeat' first
    | with_reducible assumption
    | with_reducible apply State.sendBeacon_kept
    | with_reducible apply State.refuse_kept
    | with_reducible apply State.done_kept
    | exact rfl
    | exact MbxKept.refl _
    | exact MemKept.mk id id rfl rfl
    | exact updAt_length _ _ _
    | exact List.length_map ..
    | exact List.length_mapIdx ..
    | split
    | extract_lets
    | (with_reducible refine State.Kept.upd ?_ ?_ ?_ ?_ ?_ ?_ ?_)

theorem cmdSetPowerCap_kept {x : Cmd} (hk : s0.Kept s) : s0.Kept (cmdSetPowerCap x s) := by
  unfold cmdSetPowerCap
  repeat' first
    | with_reducible assumption
    | with_reducible apply State.refuse_kept
    | with_reducible apply State.done_kept
    | exact rfl
    | exact MbxKept.refl _
    | exact MemKept.mk id id rfl rfl
    | exact updAt_length _ _ _
    | exact List.length_map ..
    | exact List.length_mapIdx ..
    | split
    | extract_lets
    | (with_reducible refine State.Kept.upd ?_ ?_ ?_ ?_ ?_ ?_ ?_)

theorem cmdAbortStep_kept {x : Cmd} (hk : s0.Kept s) : s0.Kept (cmdAbortStep x s) := by
  unfold cmdAbortStep
  extract_lets n early
  split
  · exact State.refuse_kept hk
  · split
    · exact State.refuse_kept hk
    · cases early with
      | none => exact State.done_kept hk
      | some q => exact State.done_kept (State.failStep_kept hk)

theorem cmdBelfryStatus_kept {x : Cmd} (hk : s0.Kept s) : s0.Kept (cmdBelfryStatus x s) := by
  unfold cmdBelfryStatus
  repeat' first
    | with_reducible assumption
    | with_reducible apply State.done_kept

theorem cmdClearDivergence_kept {x : Cmd} (hk : s0.Kept s) : s0.Kept (cmdClearDivergence x s) := by
  unfold cmdClearDivergence
  repeat' first
    | with_reducible assumption
    | with_reducible apply State.clearDivergence_kept
    | with_reducible apply State.done_kept

theorem State.modLink_kept {l : Nat} {f : Link → Link} (hk : s0.Kept s) : s0.Kept (State.modLink s l f) := by
  unfold State.modLink
  repeat' first
    | with_reducible assumption
    | exact rfl
    | exact MbxKept.refl _
    | exact MemKept.mk id id rfl rfl
    | exact updAt_length _ _ _
    | exact List.length_map ..
    | exact List.length_mapIdx ..
    | (with_reducible refine State.Kept.upd ?_ ?_ ?_ ?_ ?_ ?_ ?_)

theorem State.reroute_kept (hk : s0.Kept s) : s0.Kept (State.reroute s) := by
  unfold State.reroute
  repeat' first
    | with_reducible assumption
    | exact rfl
    | exact MbxKept.refl _
    | exact MemKept.mk id id rfl rfl
    | exact updAt_length _ _ _
    | exact List.length_map ..
    | exact List.length_mapIdx ..
    | split
    | extract_lets
    | (with_reducible refine State.Kept.upd ?_ ?_ ?_ ?_ ?_ ?_ ?_)

theorem State.linkUpFull_kept {l : Nat} (hk : s0.Kept s) : s0.Kept (State.linkUpFull s l) := by
  unfold State.linkUpFull
  repeat' first
    | with_reducible assumption
    | with_reducible apply State.modLink_kept
    | with_reducible apply State.reroute_kept

theorem cmdUnitStatus_kept {x : Cmd} (hk : s0.Kept s) : s0.Kept (cmdUnitStatus x s) := by
  unfold cmdUnitStatus
  repeat' first
    | with_reducible assumption
    | with_reducible apply State.refuse_kept
    | with_reducible apply State.done_kept
    | split
    | extract_lets

theorem cmdResetUnit_kept {x : Cmd} (hk : s0.Kept s) : s0.Kept (cmdResetUnit x s) := by
  unfold cmdResetUnit
  repeat' first
    | with_reducible assumption
    | with_reducible apply State.modTower_kept
    | with_reducible apply State.collectDroop_kept
    | with_reducible apply State.refuse_kept
    | with_reducible apply State.done_kept
    | with_reducible apply State.coldEntries_kept
    | with_reducible apply State.readmit_kept
    | with_reducible apply State.readmitEvent_kept
    | with_reducible apply State.linkUpFull_kept
    | (with_reducible refine State.moveEntries_kept ?_ (by assumption))
    | exact rfl
    | exact MbxKept.refl _
    | exact MemKept.mk id id rfl rfl
    | exact updAt_length _ _ _
    | exact List.length_map ..
    | exact List.length_mapIdx ..
    | split
    | extract_lets

theorem cmdRetirePage_kept {x : Cmd} (hk : s0.Kept s) : s0.Kept (cmdRetirePage x s) := by
  unfold cmdRetirePage
  repeat' first
    | with_reducible assumption
    | with_reducible apply State.refuse_kept
    | with_reducible apply State.done_kept
    | with_reducible apply State.emptySlots_kept
    | exact rfl
    | exact MbxKept.refl _
    | exact MemKept.mk id id rfl rfl
    | exact updAt_length _ _ _
    | exact List.length_map ..
    | exact List.length_mapIdx ..
    | split
    | extract_lets
    | (with_reducible refine State.Kept.upd ?_ ?_ ?_ ?_ ?_ ?_ ?_)

theorem cmdRetireBank_kept {x : Cmd} (hk : s0.Kept s) : s0.Kept (cmdRetireBank x s) := by
  unfold cmdRetireBank
  repeat' first
    | with_reducible assumption
    | with_reducible apply State.refuse_kept
    | with_reducible apply State.done_kept
    | with_reducible apply State.emptySlots_kept
    | exact rfl
    | exact MbxKept.refl _
    | exact MemKept.mk id id rfl rfl
    | exact updAt_length _ _ _
    | exact List.length_map ..
    | exact List.length_mapIdx ..
    | split
    | extract_lets
    | (with_reducible refine State.Kept.upd ?_ ?_ ?_ ?_ ?_ ?_ ?_)

theorem cmdScrubCtrl_kept {x : Cmd} (hk : s0.Kept s) : s0.Kept (cmdScrubCtrl x s) := by
  unfold cmdScrubCtrl
  extract_lets act h m m1
  have h1 : s0.Kept { s with mem := m1 } := by
    refine State.Kept.upd hk (MbxKept.refl _) rfl rfl ?_ rfl rfl
    clear_value act h
    rcases act with _ | _ | n <;> exact MemKept.mk id id rfl rfl
  by_cases c : act > 2 ∨ ¬ zeroAt x.payload 1 1 = true ∨ (act = 0 ∧ (h < 1 ∨ h > 720)) ∨ (act ≠ 0 ∧ h ≠ 0)
  · rw [if_pos c]; exact State.refuse_kept hk
  · rw [if_neg c]; exact State.done_kept h1

theorem State.marchWrites_kept {b : Bank} {zero : Bool} (hk : s0.Kept s) : s0.Kept (State.marchWrites s b zero) := by
  unfold State.marchWrites
  extract_lets tracked old cells src s1
  have key (h : s.mem.cells.wf = true) : Memory.wf cells = true := by
    unfold cells
    split
    · exact filter_wf _ h
    · exact h
  have h1 : s0.Kept s1 :=
    State.Kept.upd hk (MbxKept.refl _) rfl rfl (MemKept.mk key id rfl (List.length_map ..)) rfl rfl
  exact State.Kept.foldl _ (fun t a hk => State.writeLine_kept hk) h1

theorem State.moveOr_kept {t u : Nat} (hk : s0.Kept s) : s0.Kept ((s.moveEntries t).getD (s.coldEntries u)) := by
  cases e : s.moveEntries t with
  | none => exact State.coldEntries_kept hk
  | some v => exact State.moveEntries_kept hk e

theorem State.marchSleep_kept {t : Nat} (hk : s0.Kept s) : s0.Kept (State.marchSleep s t) := by
  unfold State.marchSleep
  split
  · exact State.modTower_kept (State.collectDroop_kept (State.moveOr_kept hk))
  · exact hk

theorem State.marchEffect_kept {m : March} {fs : List MarchFail} (hk : s0.Kept s) : s0.Kept (s.marchEffect m fs) := by
  unfold State.marchEffect
  extract_lets rs
  split
  · exact State.readmitEvent_kept (State.readmit_kept (State.marchSleep_kept hk))
  · exact State.Kept.upd hk (MbxKept.refl _) rfl rfl (MemKept.mk id id rfl rfl) rfl rfl
  · exact State.marchWrites_kept (State.Kept.upd hk (MbxKept.refl _) rfl rfl (MemKept.mk id id rfl rfl) rfl rfl)

theorem State.marchSaves_kept {m : March} {env : Env} (hk : s0.Kept s) : s0.Kept (State.marchSaves s m env) := by
  unfold State.marchSaves
  split
  · exact hk
  split
  · exact State.Kept.foldl _ (fun t a hk => State.sramEvent_kept hk) hk
  · exact State.Kept.foldl _ (fun t a hk => State.readBeat_kept hk) hk

theorem cmdMarchTest_kept {x : Cmd} (hk : s0.Kept s) : s0.Kept (cmdMarchTest x s) := by
  unfold cmdMarchTest
  repeat' first
    | with_reducible assumption
    | with_reducible apply State.event_kept
    | with_reducible apply State.writeIo_kept
    | with_reducible apply State.refuse_kept
    | with_reducible apply State.done_kept
    | with_reducible apply State.emptySlots_kept
    | with_reducible apply State.marchEffect_kept
    | with_reducible apply State.marchSaves_kept
    | with_reducible apply State.take_kept
    | split

theorem State.scrambleBank_kept {b : Bank} (hk : s0.Kept s) : s0.Kept (State.scrambleBank s b) := by
  unfold State.scrambleBank
  generalize List.range 0x4000000 = l
  exact State.Kept.upd hk (MbxKept.refl _) rfl rfl
    (MemKept.mk (fun h => foldl_memSet_wf l _ _ h) id rfl (List.length_map ..)) rfl rfl

theorem State.authorise_kept {x : Cmd} {opcode addr : Nat} {w : Want} (hk : s0.Kept s) :
    s0.Kept (s.authorise x opcode addr w).2 := by
  unfold State.authorise
  split
  · have h1 := State.Kept.ofPair (State.imgRead_kept hk) (by assumption)
    split
    · exact h1
    · split
      · exact h1
      · exact State.securityEvent_kept h1
  · exact State.Kept.ofPair (State.imgRead_kept hk) (by assumption)

theorem State.powerUp_kept {pw ke fc} (hk : s0.Kept s) :
    s0.Kept { State.powerUp s.pending s.fuses with power := pw, keep := ke, freeCtr := fc } :=
  ⟨hk.pending, hk.fuses, fun _ => State.powerUp_inv s.pending s.fuses⟩

theorem State.lostPower_kept (hk : s0.Kept s) : s0.Kept s.lostPower := State.powerUp_kept hk

theorem State.restart_kept {b : Bool} (hk : s0.Kept s) : s0.Kept (s.restart b) := State.powerUp_kept hk

theorem State.lostBy_kept {c : LossBy} (hk : s0.Kept s) : s0.Kept (State.lostBy s c) := by
  unfold State.lostBy
  repeat' first
    | with_reducible assumption
    | with_reducible apply State.lostPower_kept
    | with_reducible apply State.restart_kept
    | exact rfl
    | exact MbxKept.refl _
    | exact MemKept.mk id id rfl rfl
    | exact updAt_length _ _ _
    | exact List.length_map ..
    | exact List.length_mapIdx ..
    | split
    | extract_lets
    | (with_reducible refine State.Kept.upd ?_ ?_ ?_ ?_ ?_ ?_ ?_)

theorem State.fuseEvent_kept {kind slot arg status : Nat} (hk : s0.Kept s) : s0.Kept (State.fuseEvent s kind slot arg status) := by
  unfold State.fuseEvent
  repeat' first
    | with_reducible assumption
    | with_reducible apply State.securityEvent_kept

theorem State.lockJobs_kept (hk : s0.Kept s) : s0.Kept (State.lockJobs s) := by
  unfold State.lockJobs
  repeat' first
    | with_reducible assumption
    | with_reducible apply State.complete_kept
    | (with_reducible refine State.Kept.foldl _ (fun t a hk => ?_) ?_)
    | exact rfl
    | exact MbxKept.refl _
    | exact MemKept.mk id id rfl rfl
    | exact updAt_length _ _ _
    | exact List.length_map ..
    | exact List.length_mapIdx ..
    | (with_reducible refine State.Kept.upd ?_ ?_ ?_ ?_ ?_ ?_ ?_)

theorem State.wipeKeep_kept {cause : Nat} (hk : s0.Kept s) : s0.Kept (State.wipeKeep s cause) := by
  unfold State.wipeKeep
  repeat' first
    | with_reducible assumption
    | with_reducible apply State.securityEvent_kept
    | with_reducible apply State.lockJobs_kept
    | exact rfl
    | exact MbxKept.refl _
    | exact MemKept.mk id id rfl rfl
    | exact updAt_length _ _ _
    | exact List.length_map ..
    | exact List.length_mapIdx ..
    | split
    | extract_lets
    | (with_reducible refine State.Kept.upd ?_ ?_ ?_ ?_ ?_ ?_ ?_)

theorem State.tamperMark_kept {l : List Nat} (hk : s0.Kept s) : s0.Kept (State.tamperMark s l) := by
  unfold State.tamperMark
  repeat' first
    | with_reducible assumption
    | with_reducible apply State.securityEvent_kept
    | (with_reducible refine State.Kept.foldl _ (fun t a hk => ?_) ?_)
    | exact rfl
    | exact MbxKept.refl _
    | exact MemKept.mk id id rfl rfl
    | exact updAt_length _ _ _
    | exact List.length_map ..
    | exact List.length_mapIdx ..
    | extract_lets
    | (with_reducible refine State.Kept.upd ?_ ?_ ?_ ?_ ?_ ?_ ?_)

theorem State.fireTampers_kept {l : List Nat} (hk : s0.Kept s) : s0.Kept (State.fireTampers s l) := by
  unfold State.fireTampers
  repeat' first
    | with_reducible assumption
    | with_reducible apply State.wipeKeep_kept
    | with_reducible apply State.tamperMark_kept
    | split

theorem State.unloadExtension_kept (hk : s0.Kept s) : s0.Kept (State.unloadExtension s) := by
  unfold State.unloadExtension
  repeat' first
    | with_reducible assumption
    | with_reducible apply State.complete_kept
    | exact rfl
    | exact MbxKept.refl _
    | exact MemKept.mk id id rfl rfl
    | exact updAt_length _ _ _
    | exact List.length_map ..
    | exact List.length_mapIdx ..
    | split
    | extract_lets
    | (with_reducible refine State.Kept.upd ?_ ?_ ?_ ?_ ?_ ?_ ?_)

theorem State.lifecycleEffect_kept {old new : Nat} (hk : s0.Kept s) : s0.Kept (State.lifecycleEffect s old new) := by
  unfold State.lifecycleEffect
  repeat' first
    | with_reducible assumption
    | with_reducible apply State.securityEvent_kept
    | with_reducible apply State.wipeKeep_kept
    | with_reducible apply State.unloadExtension_kept
    | exact rfl
    | exact MbxKept.refl _
    | exact MemKept.mk id id rfl rfl
    | exact updAt_length _ _ _
    | exact List.length_map ..
    | exact List.length_mapIdx ..
    | extract_lets
    | (with_reducible refine State.Kept.upd ?_ ?_ ?_ ?_ ?_ ?_ ?_)

theorem lifeJudge_kept {x : Cmd} (hk : s0.Kept s) : s0.Kept (lifeJudge x s).2 := by
  unfold lifeJudge
  extract_lets target signers
  split
  · exact hk
  · split
    · exact hk
    · split
      · exact State.Kept.ofPair (State.authorise_kept hk) (by assumption)
      · have h1 := State.Kept.ofPair (State.authorise_kept hk) (by assumption)
        split <;> exact h1

theorem Fuses.advance_grows (f : Fuses) (target : Nat) (secret hash : List Byte) (e : FuseEnd) :
    f.Grows (f.advance target secret hash e) := by
  have p {α : Type} (l m : List α) : l <+: l ++ m := List.prefix_append _ _
  unfold Fuses.advance
  extract_lets paired begun ok idSlot f1 lifeBegun
  have h1 : f.Grows f1 := by
    simp only [f1]
    split
    · exact ⟨List.prefix_refl _, p _ _, List.prefix_refl _, List.prefix_refl _⟩
    · exact Fuses.Grows.refl _
  split
  · exact h1.trans ⟨p _ _, List.prefix_refl _, List.prefix_refl _, List.prefix_refl _⟩
  · exact h1

theorem Fuses.write_grows (f : Fuses) (action arg : Nat) (e : FuseEnd) : f.Grows (f.write action arg e) := by
  have p {α : Type} (l m : List α) : l <+: l ++ m := List.prefix_append _ _
  unfold Fuses.write
  extract_lets sl begun
  split
  · exact Fuses.Grows.refl _
  · split
    · exact ⟨List.prefix_refl _, List.prefix_refl _, p _ _, List.prefix_refl _⟩
    · exact ⟨List.prefix_refl _, List.prefix_refl _, List.prefix_refl _, p _ _⟩

theorem State.Kept.fuse {f : Fuses} {n : Nat} (hk : s0.Kept s) (hf : s.fuses.Grows f) :
    s0.Kept { s with fuses := f, freeCtr := n } :=
  hk.trans ⟨rfl, hf, id⟩

theorem lifeWrite_kept {x : Cmd} {im : List Byte} (hk : s0.Kept s) : s0.Kept (lifeWrite x im s) := by
  unfold lifeWrite
  extract_lets target old slot s2
  have h2 : s0.Kept s2 := State.Kept.fuse hk (Fuses.advance_grows _ _ _ _ _)
  split
  · exact State.fireTampers_kept (State.done_kept (State.lifecycleEffect_kept (State.fuseEvent_kept h2)))
  · exact State.lostBy_kept h2
  · exact State.fireTampers_kept (State.refuse_kept (State.fuseEvent_kept h2))

theorem cmdLifecycleAdvance_kept {x : Cmd} (hk : s0.Kept s) : s0.Kept (cmdLifecycleAdvance x s) := by
  unfold cmdLifecycleAdvance
  split
  · exact lifeWrite_kept (State.Kept.ofPair (lifeJudge_kept hk) (by assumption))
  · exact State.refuse_kept (State.Kept.ofPair (lifeJudge_kept hk) (by assumption))

theorem State.ledgerEnd_kept {x : Cmd} {status : Nat} (hk : s0.Kept s) : s0.Kept (State.ledgerEnd s x status) := by
  unfold State.ledgerEnd
  repeat' first
    | with_reducible assumption
    | with_reducible apply State.complete_kept

theorem ledgerJudge_kept {x : Cmd} (hk : s0.Kept s) : s0.Kept (ledgerJudge x s).2 := by
  unfold ledgerJudge
  extract_lets action arg bad used
  repeat' first
    | exact hk
    | exact State.Kept.ofPair (State.authorise_kept hk) (by assumption)
    | split

theorem State.fuseRetire_kept {t : Nat} (hk : s0.Kept s) : s0.Kept (State.fuseRetire s t) := by
  unfold State.fuseRetire
  exact State.modTower_kept (State.collectDroop_kept (State.moveOr_kept hk))

theorem ledgerWrite_kept {x : Cmd} (hk : s0.Kept s) : s0.Kept (ledgerWrite x s) := by
  unfold ledgerWrite
  extract_lets action arg used s3 s4
  have h3 : s0.Kept s3 := State.Kept.fuse hk (Fuses.write_grows _ _ _ _)
  split
  · refine State.fireTampers_kept (State.ledgerEnd_kept (State.fuseEvent_kept ?_))
    unfold s4
    split
    · exact State.fuseRetire_kept h3
    · exact h3
  · exact State.lostBy_kept h3
  · exact State.fireTampers_kept (State.ledgerEnd_kept (State.fuseEvent_kept h3))

theorem cmdFuseLedger_kept {x : Cmd} (hk : s0.Kept s) : s0.Kept (cmdFuseLedger x s) := by
  unfold cmdFuseLedger
  split
  · exact ledgerWrite_kept (State.Kept.ofPair (ledgerJudge_kept hk) (by assumption))
  · exact State.ledgerEnd_kept (State.Kept.ofPair (ledgerJudge_kept hk) (by assumption))

theorem fuseJudge_kept {op : Nat} {x : Cmd} (hk : s0.Kept s) : s0.Kept (fuseJudge op x s).2 := by
  unfold fuseJudge
  split
  · exact lifeJudge_kept hk
  · exact ledgerJudge_kept hk

theorem State.endWrite_kept {q : Ask} (hk : s0.Kept s) : s0.Kept (State.endWrite s q) := by
  unfold State.endWrite
  repeat' first
    | with_reducible assumption
    | with_reducible apply lifeWrite_kept
    | with_reducible apply ledgerWrite_kept
    | split

theorem State.endBegun_kept (hk : s0.Kept s) : s0.Kept (State.endBegun s) := by
  unfold State.endBegun
  repeat' first
    | with_reducible assumption
    | with_reducible apply State.endWrite_kept
    | (with_reducible refine State.Kept.foldl _ (fun t a hk => ?_) ?_)
    | exact rfl
    | exact MbxKept.refl _
    | exact MemKept.mk id id rfl rfl
    | exact updAt_length _ _ _
    | exact List.length_map ..
    | exact List.length_mapIdx ..
    | (with_reducible refine State.Kept.upd ?_ ?_ ?_ ?_ ?_ ?_ ?_)

theorem State.cutWrites_kept (hk : s0.Kept s) : s0.Kept (State.cutWrites s) := by
  unfold State.cutWrites
  refine State.Kept.foldl _ (fun t a hk => ?_) hk
  refine State.Kept.fuse hk ?_
  split
  · exact Fuses.advance_grows _ _ _ _ _
  · exact Fuses.write_grows _ _ _ _

theorem cmdAttest_kept {x : Cmd} (hk : s0.Kept s) : s0.Kept (cmdAttest x s) := by
  unfold cmdAttest
  repeat' first
    | with_reducible assumption
    | with_reducible apply State.refuse_kept
    | with_reducible apply State.done_kept
    | exact rfl
    | exact MbxKept.refl _
    | exact MemKept.mk id id rfl rfl
    | exact updAt_length _ _ _
    | exact List.length_map ..
    | exact List.length_mapIdx ..
    | split
    | extract_lets
    | (with_reducible refine State.Kept.upd ?_ ?_ ?_ ?_ ?_ ?_ ?_)

theorem cmdLoadExtension_kept {x : Cmd} (hk : s0.Kept s) : s0.Kept (cmdLoadExtension x s) := by
  unfold cmdLoadExtension
  repeat' first
    | with_reducible assumption
    | with_reducible apply State.securityEvent_kept
    | with_reducible apply State.refuse_kept
    | with_reducible apply State.done_kept
    | with_reducible apply State.imgRead_kept
    | with_reducible apply State.take_kept
    | (with_reducible refine State.Kept.ofPair ?_ (by assumption))
    | exact rfl
    | exact MbxKept.refl _
    | exact MemKept.mk id id rfl rfl
    | exact updAt_length _ _ _
    | exact List.length_map ..
    | exact List.length_mapIdx ..
    | split
    | extract_lets
    | (with_reducible refine State.Kept.upd ?_ ?_ ?_ ?_ ?_ ?_ ?_)

theorem State.doe_kept {req : List Byte} (hk : s0.Kept s) : s0.Kept (State.doe s req) := by
  unfold State.doe
  repeat' first
    | with_reducible assumption
    | with_reducible apply State.answer_kept
    | exact rfl
    | exact MbxKept.refl _
    | exact MemKept.mk id id rfl rfl
    | exact updAt_length _ _ _
    | exact List.length_map ..
    | exact List.length_mapIdx ..
    | (with_reducible refine State.Kept.upd ?_ ?_ ?_ ?_ ?_ ?_ ?_)

theorem State.spdmAnswer_kept {m : List Byte} {r : SpdmSays} {signed : Bool} (hk : s0.Kept s) : s0.Kept (State.spdmAnswer s m r signed) := by
  unfold State.spdmAnswer
  repeat' first
    | with_reducible assumption
    | with_reducible apply State.answer_kept
    | exact rfl
    | exact MbxKept.refl _
    | exact MemKept.mk id id rfl rfl
    | exact updAt_length _ _ _
    | exact List.length_map ..
    | exact List.length_mapIdx ..
    | split
    | extract_lets
    | (with_reducible refine State.Kept.upd ?_ ?_ ?_ ?_ ?_ ?_ ?_)

theorem State.spdm_kept {req : List Byte} (hk : s0.Kept s) : s0.Kept (State.spdm s req) := by
  unfold State.spdm
  repeat' first
    | with_reducible assumption
    | with_reducible apply State.answer_kept
    | with_reducible apply State.spdmAnswer_kept
    | exact rfl
    | exact MbxKept.refl _
    | exact MemKept.mk id id rfl rfl
    | exact updAt_length _ _ _
    | exact List.length_map ..
    | exact List.length_mapIdx ..
    | split
    | extract_lets
    | (with_reducible refine State.Kept.upd ?_ ?_ ?_ ?_ ?_ ?_ ?_)

theorem State.keyExchange_kept {req : List Byte} (hk : s0.Kept s) : s0.Kept (State.keyExchange s req) := by
  unfold State.keyExchange
  repeat' first
    | with_reducible assumption
    | with_reducible apply State.answer_kept
    | with_reducible apply State.spdmAnswer_kept
    | exact rfl
    | exact MbxKept.refl _
    | exact MemKept.mk id id rfl rfl
    | exact updAt_length _ _ _
    | exact List.length_map ..
    | exact List.length_mapIdx ..
    | split
    | extract_lets
    | (with_reducible refine State.Kept.upd ?_ ?_ ?_ ?_ ?_ ?_ ?_)

theorem State.ideKm_kept {session i : Nat} {req : List Byte} (hk : s0.Kept s) : s0.Kept (State.ideKm s session i req) := by
  unfold State.ideKm
  repeat' first
    | with_reducible assumption
    | with_reducible apply State.answer_kept
    | with_reducible apply State.doe_kept
    | exact rfl
    | exact MbxKept.refl _
    | exact MemKept.mk id id rfl rfl
    | exact updAt_length _ _ _
    | exact List.length_map ..
    | exact List.length_mapIdx ..
    | split
    | (with_reducible refine State.Kept.upd ?_ ?_ ?_ ?_ ?_ ?_ ?_)

theorem State.portUp_kept (hk : s0.Kept s) : s0.Kept (State.portUp s) := by
  unfold State.portUp
  repeat' first
    | with_reducible assumption
    | exact rfl
    | exact MbxKept.refl _
    | exact MemKept.mk id id rfl rfl
    | exact updAt_length _ _ _
    | exact List.length_map ..
    | exact List.length_mapIdx ..
    | extract_lets
    | (with_reducible refine State.Kept.upd ?_ ?_ ?_ ?_ ?_ ?_ ?_)

theorem State.haltStartup_kept {unit attempts : Nat} (hk : s0.Kept s) : s0.Kept (State.haltStartup s unit attempts) := by
  unfold State.haltStartup
  repeat' first
    | with_reducible assumption
    | with_reducible apply State.event_kept
    | exact rfl
    | exact MbxKept.refl _
    | exact MemKept.mk id id rfl rfl
    | exact updAt_length _ _ _
    | exact List.length_map ..
    | exact List.length_mapIdx ..
    | split
    | (with_reducible refine State.Kept.upd ?_ ?_ ?_ ?_ ?_ ?_ ?_)

theorem State.setPhase_kept {n : Nat} (hk : s0.Kept s) : s0.Kept (State.setPhase s n) := by
  unfold State.setPhase
  repeat' first
    | with_reducible assumption
    | exact rfl
    | exact MbxKept.refl _
    | exact MemKept.mk id id rfl rfl
    | exact updAt_length _ _ _
    | exact List.length_map ..
    | exact List.length_mapIdx ..
    | (with_reducible refine State.Kept.upd ?_ ?_ ?_ ?_ ?_ ?_ ?_)

theorem State.endPhase1_kept {r : PhaseReport} (hk : s0.Kept s) : s0.Kept (State.endPhase1 s r) := by
  unfold State.endPhase1
  repeat' first
    | with_reducible assumption
    | with_reducible apply State.securityEvent_kept
    | with_reducible apply State.modTower_kept
    | with_reducible apply State.haltStartup_kept
    | with_reducible apply State.setPhase_kept
    | (with_reducible refine State.Kept.foldl _ (fun t a hk => ?_) ?_)
    | exact rfl
    | exact MbxKept.refl _
    | exact MemKept.mk id id rfl rfl
    | exact updAt_length _ _ _
    | exact List.length_map ..
    | exact List.length_mapIdx ..
    | split
    | extract_lets
    | (with_reducible refine State.Kept.upd ?_ ?_ ?_ ?_ ?_ ?_ ?_)

theorem State.endPhase2_kept {r : PhaseReport} (hk : s0.Kept s) : s0.Kept (State.endPhase2 s r) := by
  unfold State.endPhase2
  repeat' first
    | with_reducible assumption
    | with_reducible apply State.fireTampers_kept
    | with_reducible apply State.setPhase_kept
    | exact rfl
    | exact MbxKept.refl _
    | exact MemKept.mk id id rfl rfl
    | exact updAt_length _ _ _
    | exact List.length_map ..
    | exact List.length_mapIdx ..
    | split
    | extract_lets
    | (with_reducible refine State.Kept.upd ?_ ?_ ?_ ?_ ?_ ?_ ?_)

theorem State.endPhase3_kept {r : PhaseReport} (hk : s0.Kept s) : s0.Kept (State.endPhase3 s r) := by
  unfold State.endPhase3
  repeat' first
    | with_reducible assumption
    | with_reducible apply State.haltStartup_kept
    | exact rfl
    | exact MbxKept.refl _
    | exact MemKept.mk id id rfl rfl
    | exact updAt_length _ _ _
    | exact List.length_map ..
    | exact List.length_mapIdx ..
    | split
    | extract_lets
    | (with_reducible refine State.Kept.upd ?_ ?_ ?_ ?_ ?_ ?_ ?_)

theorem State.endPhase4_kept {r : PhaseReport} (hk : s0.Kept s) : s0.Kept (s.endPhase4 r) := by
  unfold State.endPhase4
  split
  · exact State.haltStartup_kept hk
  · split
    · exact State.haltStartup_kept hk
    · exact State.setPhase_kept
        (State.Kept.upd hk (MbxKept.refl _) rfl rfl (MemKept.mk (fun _ => nil_wf) id rfl rfl) rfl rfl)

theorem State.endPhase5_kept {r : PhaseReport} (hk : s0.Kept s) : s0.Kept (State.endPhase5 s r) := by
  unfold State.endPhase5
  repeat' first
    | with_reducible assumption
    | with_reducible apply State.raiseHold_kept
    | with_reducible apply State.haltStartup_kept
    | with_reducible apply State.setPhase_kept
    | exact rfl
    | exact MbxKept.refl _
    | exact MemKept.mk id id rfl rfl
    | exact updAt_length _ _ _
    | exact List.length_map ..
    | exact List.length_mapIdx ..
    | split
    | extract_lets
    | (with_reducible refine State.Kept.upd ?_ ?_ ?_ ?_ ?_ ?_ ?_)

theorem State.becomeReady_kept (hk : s0.Kept s) : s0.Kept (State.becomeReady s) := by
  unfold State.becomeReady
  repeat' first
    | with_reducible assumption
    | with_reducible apply State.calibrateDroop_kept
    | exact rfl
    | exact MbxKept.refl _
    | exact MemKept.mk id id rfl rfl
    | exact updAt_length _ _ _
    | exact List.length_map ..
    | exact List.length_mapIdx ..
    | (with_reducible refine State.Kept.upd ?_ ?_ ?_ ?_ ?_ ?_ ?_)

theorem State.towerFault_kept {t cause : Nat} (hk : s0.Kept s) : s0.Kept (State.towerFault s t cause) := by
  unfold State.towerFault
  repeat' first
    | with_reducible assumption
    | with_reducible apply State.event_kept
    | with_reducible apply State.modTower_kept
    | with_reducible apply State.failEarly_kept
    | with_reducible apply State.collectDroop_kept
    | with_reducible apply State.coldEntries_kept
    | exact rfl
    | exact MbxKept.refl _
    | exact MemKept.mk id id rfl rfl
    | exact updAt_length _ _ _
    | exact List.length_map ..
    | exact List.length_mapIdx ..
    | split

theorem Img.andThen_kept {α β : Type} {r : Img α × State} {f : α → State → Img β × State} (h : s0.Kept r.2)
    (hf : ∀ a u, s0.Kept u → s0.Kept (f a u).2) : s0.Kept (Img.andThen r f).2 := by
  unfold Img.andThen
  split
  · exact hf _ _ h
  · exact h
  · exact h

theorem State.readGroups_kept {env : Env} {addr n off : Nat} {acc : List GroupEnt} (hk : s0.Kept s) :
    s0.Kept (State.readGroups env addr n off acc s).2 := by
  induction n generalizing s off acc with
  | zero => exact hk
  | succ n ih =>
    unfold State.readGroups
    refine Img.andThen_kept (State.imgRead_kept hk) fun h u hu => ?_
    extract_lets g c len
    split
    · exact hu
    · refine Img.andThen_kept (State.imgRead_kept hu) fun b v hv => ?_
      split
      · exact hv
      · exact ih hv

theorem State.readTopology_kept {env : Env} {addr : Nat} (hk : s0.Kept s) : s0.Kept (s.readTopology env addr).2 := by
  unfold State.readTopology
  refine Img.andThen_kept (State.imgRead_kept hk) fun h u hu => ?_
  split
  · exact hu
  · refine Img.andThen_kept (State.imgRead_kept hu) fun b v hv => ?_
    split
    · exact hv
    · exact Img.andThen_kept (State.readGroups_kept hv) fun gs w hw => hw

theorem State.judgeLink_kept {t : Topology} {i : Nat} (hk : s0.Kept s) : s0.Kept (State.judgeLink t s i) := by
  unfold State.judgeLink
  repeat' first
    | with_reducible assumption
    | with_reducible apply State.event_kept
    | exact rfl
    | exact MbxKept.refl _
    | exact MemKept.mk id id rfl rfl
    | exact updAt_length _ _ _
    | exact List.length_map ..
    | exact List.length_mapIdx ..
    | split
    | extract_lets
    | (with_reducible refine State.Kept.upd ?_ ?_ ?_ ?_ ?_ ?_ ?_)

theorem State.judgeLinks_kept (hk : s0.Kept s) : s0.Kept (State.judgeLinks s) := by
  unfold State.judgeLinks
  repeat' first
    | with_reducible assumption
    | with_reducible apply State.judgeLink_kept
    | (with_reducible refine State.Kept.foldl _ (fun t a hk => ?_) ?_)
    | exact rfl
    | exact MbxKept.refl _
    | exact MemKept.mk id id rfl rfl
    | exact updAt_length _ _ _
    | exact List.length_map ..
    | exact List.length_mapIdx ..
    | split

theorem cmdSetTopology_kept {x : Cmd} (hk : s0.Kept s) : s0.Kept (cmdSetTopology x s) := by
  unfold cmdSetTopology
  split
  · exact State.refuse_kept hk
  · split
    · exact State.refuse_kept (State.Kept.ofPair (State.readTopology_kept hk) (by assumption))
    · exact State.refuse_kept (State.Kept.ofPair (State.readTopology_kept hk) (by assumption))
    · rename_i t s1 e1
      have h1 : s0.Kept s1 := State.Kept.ofPair (State.readTopology_kept hk) e1
      extract_lets slots same hit s2 src1 src2 s3
      split
      · exact State.refuse_kept h1
      · split
        · exact State.refuse_kept h1
        · refine State.done_kept (State.judgeLinks_kept (State.reroute_kept ?_))
          have h2 : s0.Kept s2 := by
            unfold s2
            split
            · exact h1
            · exact State.emptySlots_kept h1
          clear_value s2 same hit
          exact State.Kept.upd h2 (MbxKept.refl _) rfl rfl (MemKept.refl _) rfl rfl

theorem State.takeBeacon_kept {l : Nat} {b : Beacon} (hk : s0.Kept s) : s0.Kept (State.takeBeacon s l b) := by
  unfold State.takeBeacon
  repeat' first
    | with_reducible assumption
    | with_reducible apply State.cadenceCheck_kept
    | with_reducible apply State.modLink_kept
    | with_reducible apply State.judgeLinks_kept
    | exact rfl
    | exact MbxKept.refl _
    | exact MemKept.mk id id rfl rfl
    | exact updAt_length _ _ _
    | exact List.length_map ..
    | exact List.length_mapIdx ..
    | split

theorem State.linkLost_kept {x : LinkLoss} (hk : s0.Kept s) : s0.Kept (State.linkLost s x) := by
  unfold State.linkLost
  repeat' first
    | with_reducible assumption
    | with_reducible apply State.event_kept
    | with_reducible apply State.modLink_kept
    | with_reducible apply State.reroute_kept
    | exact rfl
    | exact MbxKept.refl _
    | exact MemKept.mk id id rfl rfl
    | exact updAt_length _ _ _
    | exact List.length_map ..
    | exact List.length_mapIdx ..
    | split

end Sys2Proof.Machine
end

