-- ==== Sys2Proof/Laws/KeptLoad.lean ====
section
/-!
SUPPORT. What LOAD_PROGRAM, LOAD_PLAN, LOAD_COEFF and the tracker commands keep.
-/

set_option Elab.async false
namespace Sys2Proof.Machine

open Sys2Proof

variable {s0 s : State}

theorem State.readProgram_kept {env : Env} {addr : Nat} (hk : s0.Kept s) : s0.Kept (s.readProgram env addr).2 := by
  unfold State.readProgram
  refine Img.andThen_kept (State.imgRead_kept hk) fun hb u hu => ?_
  extract_lets h
  split
  · exact hu
  · exact Img.andThen_kept (State.imgRead_kept hu) fun b v hv => hv

theorem State.place1_kept {extra : List (Nat × Nat)} {n a : Nat} {u : State} (hk : s0.Kept s)
    (e : s.place1 extra n = some (a, u)) : s0.Kept u := by
  unfold State.place1 at e
  split at e
  · cases e
  · cases e
    exact State.Kept.upd hk (MbxKept.refl _) rfl rfl (MemKept.refl _) rfl rfl

theorem State.placeAll_kept {extra : List (Nat × Nat)} {ns as : List Nat} {u : State} (hk : s0.Kept s)
    (e : s.placeAll extra ns = some (as, u)) : s0.Kept u := by
  induction ns generalizing s extra as with
  | nil => cases e; exact hk
  | cons n ns ih =>
    unfold State.placeAll at e
    split at e
    · split at e
      · cases e
      · rename_i h; cases e; exact ih hk h
    · split at e
      · cases e
      · rename_i h1
        split at e
        · cases e
        · rename_i h2; cases e; exact ih (State.place1_kept hk h1) h2

theorem State.installProgram_kept {n : Nat} {p : Program} {u : State} {b : List Byte} (hk : s0.Kept s)
    (e : s.installProgram n p = some (u, b)) : s0.Kept u := by
  unfold State.installProgram at e
  extract_lets sets stats sizes at e
  split at e
  · cases e
  · rename_i h
    cases e
    exact State.Kept.foldl _ (fun t l ht => State.event_kept ht) (State.Kept.foldl _ (fun t c ht => State.writeIo_kept ht)
      (State.writeIo_kept (State.modSlot_kept (State.placeAll_kept hk h))))

theorem cmdLoadProgram_kept {x : Cmd} (hk : s0.Kept s) : s0.Kept (cmdLoadProgram x s) := by
  unfold cmdLoadProgram
  repeat' first
    | with_reducible assumption
    | with_reducible apply State.complete_kept
    | with_reducible apply State.done_kept
    | with_reducible apply State.emptySlot_kept
    | with_reducible apply State.readProgram_kept
    | (with_reducible refine State.Kept.ofPair ?_ (by assumption))
    | (with_reducible refine State.installProgram_kept ?_ (by assumption))
    | exact rfl
    | exact MbxKept.refl _
    | exact MemKept.mk id id rfl rfl
    | exact updAt_length _ _ _
    | exact List.length_map ..
    | exact List.length_mapIdx ..
    | split
    | extract_lets

theorem State.shareEntries_kept {n k : Nat} {u : State} (hk : s0.Kept s) (e : s.shareEntries n k = some u) : s0.Kept u := by
  unfold State.shareEntries at e
  extract_lets t0 ts s1 at e
  have h0 : s0.Kept t0 := State.Kept.upd hk (MbxKept.refl _) rfl (List.length_map ..) (MemKept.refl _) rfl rfl
  have h1 : s0.Kept s1 := State.Kept.foldl _ (fun t l ht => State.modTower_kept ht) h0
  split at e
  · cases e
  · split at e
    · cases e
    · exact Option.some.inj e ▸ h1

theorem State.refreshCtr_kept {c : Nat} (hk : s0.Kept s) : s0.Kept { s with freeCtr := c } :=
  State.Kept.upd hk (MbxKept.refl _) rfl rfl (MemKept.refl _) rfl rfl

theorem cmdLoadPlan_kept {x : Cmd} (hk : s0.Kept s) : s0.Kept (cmdLoadPlan x s) := by
  unfold cmdLoadPlan
  extract_lets n
  split
  · exact State.refuse_kept hk
  rename_i p hp
  have hr : s0.Kept (Img.andThen (s.imgRead x.env (fieldLe x.payload 8 8) 0 32) fun h s =>
      if fieldLe h 0 2 ≠ 0x0100 ∨ fieldLe h 2 2 ≠ p.nLayers then (.bad, s)
      else s.imgRead x.env (fieldLe x.payload 8 8) 0 (32 + 32 * p.nLayers)).2 := by
    refine Img.andThen_kept (State.imgRead_kept hk) fun h u hu => ?_
    split
    · exact hu
    · exact State.imgRead_kept hu
  split
  · exact State.refuse_kept (State.Kept.ofPair hr (by assumption))
  · exact State.refuse_kept (State.Kept.ofPair hr (by assumption))
  · have h1 := State.Kept.ofPair hr (by assumption)
    split
    · exact State.refuse_kept h1
    · extract_lets size free
      have hf : s0.Kept free := State.modSlot_kept h1
      split
      · rename_i hs
        exact State.done_kept (State.Kept.foldl _ (fun t l ht => State.event_kept ht)
          (State.modSlot_kept (State.refreshCtr_kept (State.shareEntries_kept hf hs))))
      · exact State.refuse_kept h1

theorem State.newState_kept {p : Program} {n : Nat} {es : List Coeff} {kept : List (Nat × Nat)} {w : WeightRec}
    {made m' : List Alloc} {o : OptState} {u : State} (hk : s0.Kept s)
    (e : s.newState p n es kept w made = some (o, m', u)) : s0.Kept u := by
  unfold State.newState at e
  simp only [Option.bind_eq_bind, Option.bind_eq_some_iff] at e
  obtain ⟨d, -, c, -, e⟩ := e
  split at e
  · cases e; exact hk
  · simp only [Option.bind_eq_some_iff] at e
    obtain ⟨⟨as, s1⟩, h1, e⟩ := e
    cases e
    exact State.Kept.foldl _ (fun t l ht => State.writeIo_kept ht) (State.placeAll_kept hk h1)

theorem State.newStates_kept {p : Program} {n : Nat} {es : List Coeff} {kept : List (Nat × Nat)} {ws : List WeightRec}
    {made m' : List Alloc} {os : List OptState} {u : State} (hk : s0.Kept s)
    (e : s.newStates p n es kept ws made = some (os, m', u)) : s0.Kept u := by
  induction ws generalizing s made os m' with
  | nil => cases e; exact hk
  | cons w ws ih =>
    unfold State.newStates at e
    split at e
    · cases e
    · rename_i h1
      split at e
      · cases e
      · rename_i h2; cases e; exact ih (State.newState_kept hk h1) h2

theorem cmdLoadCoeff_kept {x : Cmd} (hk : s0.Kept s) : s0.Kept (cmdLoadCoeff x s) := by
  unfold cmdLoadCoeff
  extract_lets n addr
  split
  · exact State.refuse_kept hk
  rename_i p hp
  generalize hi : Img.andThen (s.imgRead x.env addr 0 32) _ = r
  have hr : s0.Kept r.2 := by
    rw [← hi]
    refine Img.andThen_kept (State.imgRead_kept hk) fun h u hu => ?_
    extract_lets nE
    split
    · exact hu
    · exact Img.andThen_kept (State.imgRead_kept hu) fun b v hv => hv
  clear hi
  split
  · exact State.refuse_kept hr
  · exact State.refuse_kept hr
  · have h1 := hr
    split
    · exact State.refuse_kept h1
    · extract_lets dirLen oldDir kept free
      have hf : s0.Kept free := State.modSlot_kept h1
      clear_value oldDir kept free
      split
      · exact State.refuse_kept h1
      · rename_i os made s1 hn
        have h2 : s0.Kept s1 := State.newStates_kept hf hn
        split
        · exact State.refuse_kept h1
        · rename_i dir s2 hd
          have h3 : s0.Kept s2 := by
            rcases oldDir with _ | a
            · rw [Option.map_eq_some_iff] at hd
              obtain ⟨⟨as, s3⟩, hp, e⟩ := hd
              cases e
              exact State.placeAll_kept h2 hp
            · exact (Prod.mk.inj (Option.some.inj hd)).2 ▸ h2
          exact State.done_kept (State.modSlot_kept (State.writeIo_kept h3))

theorem cmdLoadTrackers_kept {x : Cmd} (hk : s0.Kept s) : s0.Kept (cmdLoadTrackers x s) := by
  unfold cmdLoadTrackers
  extract_lets n
  split
  · exact State.refuse_kept hk
  extract_lets len
  generalize hi : Img.andThen (s.imgRead x.env (fieldLe x.payload 8 8) 0 64) _ = r
  have hr : s0.Kept r.2 := by
    rw [← hi]
    refine Img.andThen_kept (State.imgRead_kept hk) fun h u hu => ?_
    split
    · exact hu
    · exact State.imgRead_kept hu
  clear hi
  split
  · exact State.refuse_kept hr
  · exact State.refuse_kept hr
  · have h1 := hr
    repeat' first
      | exact h1
      | exact State.refuse_kept h1
      | with_reducible apply State.done_kept
      | with_reducible apply State.modSlot_kept
      | split
      | extract_lets

theorem cmdSaveTrackers_kept {x : Cmd} (hk : s0.Kept s) : s0.Kept (cmdSaveTrackers x s) := by
  unfold cmdSaveTrackers
  repeat' first
    | with_reducible assumption
    | with_reducible apply State.writeIo_kept
    | with_reducible apply State.refuse_kept
    | with_reducible apply State.done_kept
    | exact rfl
    | exact MbxKept.refl _
    | exact MemKept.mk id id rfl rfl
    | exact updAt_length _ _ _
    | exact List.length_map ..
    | exact List.length_mapIdx ..
    | split
    | extract_lets

theorem cmdPlaceHint_kept {x : Cmd} (hk : s0.Kept s) : s0.Kept (cmdPlaceHint x s) := by
  unfold cmdPlaceHint
  repeat' first
    | with_reducible assumption
    | with_reducible apply State.modSlot_kept
    | with_reducible apply State.refuse_kept
    | with_reducible apply State.done_kept
    | exact rfl
    | exact MbxKept.refl _
    | exact MemKept.mk id id rfl rfl
    | exact updAt_length _ _ _
    | exact List.length_map ..
    | exact List.length_mapIdx ..
    | split
    | extract_lets

theorem cmdSetStepSize_kept {x : Cmd} (hk : s0.Kept s) : s0.Kept (cmdSetStepSize x s) := by
  unfold cmdSetStepSize
  repeat' first
    | with_reducible assumption
    | with_reducible apply State.modSlot_kept
    | with_reducible apply State.refuse_kept
    | with_reducible apply State.done_kept
    | exact rfl
    | exact MbxKept.refl _
    | exact MemKept.mk id id rfl rfl
    | exact updAt_length _ _ _
    | exact List.length_map ..
    | exact List.length_mapIdx ..
    | split
    | extract_lets

end Sys2Proof.Machine
end

