-- ==== Sys2Proof/Laws/KeptDome.lean ====
section
/-!
SUPPORT. What host accesses, integrity work, the dome, the rungs, collectives and the update engines keep.
-/

set_option Elab.async false
namespace Sys2Proof.Machine

open Sys2Proof

variable {s0 s : State}

theorem State.writePart_kept {x : Slot} {kind : PartKind} {id half : Nat} {bs : List Byte} (hk : s0.Kept s) : s0.Kept (State.writePart s x kind id half bs) := by
  unfold State.writePart
  repeat' first
    | with_reducible assumption
    | with_reducible apply State.writePieces_kept

theorem State.writeSets_kept {x : Slot} {cset half : Nat} {es : List ChanEnt} (hk : s0.Kept s) : s0.Kept (State.writeSets s x cset half es) := by
  unfold State.writeSets
  repeat' first
    | with_reducible assumption
    | with_reducible apply State.writePart_kept
    | with_reducible apply State.take_kept
    | (with_reducible refine State.Kept.foldl _ (fun t a hk => ?_) ?_)

theorem State.writeTensor_kept {x : Slot} {p : Program} {d : Desc} {half : Nat} {t : Tensor} {chan : List ChanEnt}
    (hk : s0.Kept s) : s0.Kept (State.writeTensor s x p d half t chan) := by
  unfold State.writeTensor
  extract_lets s1 s2 s3 s4
  have h1 : s0.Kept s1 := State.writePart_kept hk
  have h2 : s0.Kept s2 := by
    unfold s2
    clear_value s1
    split
    · exact State.Kept.ite (State.writePart_kept h1) h1
    · exact h1
  have h3 : s0.Kept s3 := State.Kept.ite (State.writePart_kept h2) h2
  exact State.Kept.ite (State.writeSets_kept h3) h3

theorem State.makeCopy_kept {n : Nat} {p : Program} {d : Desc} {f : Fmt} {swap : Bool} (hk : s0.Kept s) :
    s0.Kept (State.makeCopy s n p d f swap) := by
  unfold State.makeCopy
  extract_lets x shape ws q k pcs put s1 s2 s3 s4
  have hput : ∀ {t : State} {kind : PartKind} {bs : List Byte}, s0.Kept t → s0.Kept (put t kind bs) :=
    fun h => State.writePieces_kept h
  have h2 : s0.Kept s2 := State.Kept.ite (hput (hput hk)) (hput hk)
  have h3 : s0.Kept s3 := hput h2
  exact State.modSlot_kept (State.Kept.ite (State.writeSets_kept h3) h3)

theorem State.copyLayer_kept {n : Nat} {p : Program} {l : Nat} {rf : Nat → Nat} {all swap : Bool} (hk : s0.Kept s) : s0.Kept (State.copyLayer s n p l rf all swap) := by
  unfold State.copyLayer
  repeat' first
    | with_reducible assumption
    | with_reducible apply State.modSlot_kept
    | with_reducible apply State.makeCopy_kept
    | (with_reducible refine State.Kept.foldl _ (fun t a hk => ?_) ?_)
    | exact rfl
    | exact MbxKept.refl _
    | exact MemKept.mk id id rfl rfl
    | exact updAt_length _ _ _
    | exact List.length_map ..
    | exact List.length_mapIdx ..
    | split
    | extract_lets

theorem State.ringMessage_kept {unit : Nat} {m : RingMsg} (hk : s0.Kept s) : s0.Kept (State.ringMessage s unit m) := by
  unfold State.ringMessage
  repeat' first
    | with_reducible assumption
    | with_reducible apply State.modTower_kept
    | exact rfl
    | exact MbxKept.refl _
    | exact MemKept.mk id id rfl rfl
    | exact updAt_length _ _ _
    | exact List.length_map ..
    | exact List.length_mapIdx ..
    | split

theorem State.passRouters_kept {x : MeshTx} (hk : s0.Kept s) : s0.Kept (State.passRouters s x) := by
  unfold State.passRouters
  repeat' first
    | with_reducible assumption
    | with_reducible apply State.modTower_kept
    | (with_reducible refine State.Kept.foldl _ (fun t a hk => ?_) ?_)

theorem State.meshTransaction_kept {x : MeshTx} (hk : s0.Kept s) : s0.Kept (State.meshTransaction s x) := by
  unfold State.meshTransaction
  repeat' first
    | with_reducible assumption
    | with_reducible apply State.modTower_kept
    | with_reducible apply State.passRouters_kept
    | exact rfl
    | exact MbxKept.refl _
    | exact MemKept.mk id id rfl rfl
    | exact updAt_length _ _ _
    | exact List.length_map ..
    | exact List.length_mapIdx ..
    | split

theorem State.stealRequest_kept {thief victim : Nat} {epoch : Word} (hk : s0.Kept s) : s0.Kept (State.stealRequest s thief victim epoch) := by
  unfold State.stealRequest
  repeat' first
    | with_reducible assumption
    | with_reducible apply State.modTower_kept
    | with_reducible apply State.passRouters_kept
    | exact rfl
    | exact MbxKept.refl _
    | exact MemKept.mk id id rfl rfl
    | exact updAt_length _ _ _
    | exact List.length_map ..
    | exact List.length_mapIdx ..
    | split
    | extract_lets

theorem State.stealReply_kept {thief : Nat} (hk : s0.Kept s) : s0.Kept (State.stealReply s thief) := by
  unfold State.stealReply
  repeat' first
    | with_reducible assumption
    | with_reducible apply State.reply_kept
    | with_reducible apply State.modTower_kept
    | with_reducible apply State.passRouters_kept
    | exact rfl
    | exact MbxKept.refl _
    | exact MemKept.mk id id rfl rfl
    | exact updAt_length _ _ _
    | exact List.length_map ..
    | exact List.length_mapIdx ..
    | split

theorem State.haltStreams_kept {t : Nat} {op : LayerOp} {slot : Nat} (hk : s0.Kept s) : s0.Kept (State.haltStreams s t op slot) := by
  unfold State.haltStreams
  repeat' first
    | with_reducible assumption
    | with_reducible apply State.modTower_kept

theorem State.repeatOnce_kept {i : Nat} {op : LayerOp} {status : Nat} (hk : s0.Kept s) :
    s0.Kept (s.repeatOnce i op status).2 := by
  unfold State.repeatOnce
  split
  · exact hk
  · split
    · exact hk
    · split
      · exact State.failStep_kept hk
      · exact State.modStep_kept hk

theorem State.towerWord_kept {t req bank word : Nat} {it : Option Item} (hk : s0.Kept s) : s0.Kept (State.towerWord s t req bank word it) := by
  unfold State.towerWord
  repeat' first
    | with_reducible assumption
    | with_reducible apply State.sramEvent_kept
    | with_reducible apply State.haltStreams_kept
    | with_reducible apply State.repeatOnce_kept
    | (with_reducible refine State.Kept.ofPair ?_ (by assumption))
    | exact rfl
    | exact MbxKept.refl _
    | exact MemKept.mk id id rfl rfl
    | exact updAt_length _ _ _
    | exact List.length_map ..
    | exact List.length_mapIdx ..
    | split
    | extract_lets

theorem State.workWord_kept {t : Nat} {it : Option Item} {e : SramErr} (hk : s0.Kept s) : s0.Kept (State.workWord s t it e) := by
  unfold State.workWord
  repeat' first
    | with_reducible assumption
    | with_reducible apply State.towerWord_kept
    | exact rfl
    | exact MbxKept.refl _
    | exact MemKept.mk id id rfl rfl
    | exact updAt_length _ _ _
    | exact List.length_map ..
    | exact List.length_mapIdx ..
    | split
    | (with_reducible refine State.Kept.upd ?_ ?_ ?_ ?_ ?_ ?_ ?_)

theorem State.track_kept {line : Nat} (hk : s0.Kept s) : s0.Kept (State.track s line) := by
  unfold State.track
  repeat' first
    | with_reducible assumption
    | with_reducible apply State.emit_kept
    | with_reducible apply State.take_kept
    | (with_reducible refine State.Kept.foldl _ (fun t a hk => ?_) ?_)
    | exact rfl
    | exact MbxKept.refl _
    | exact MemKept.mk id id rfl rfl
    | exact updAt_length _ _ _
    | exact List.length_map ..
    | exact List.length_mapIdx ..
    | split
    | extract_lets
    | (with_reducible refine State.Kept.upd ?_ ?_ ?_ ?_ ?_ ?_ ?_)

theorem State.readLine_kept {errs : List BeatErr} {line : Nat} (hk : s0.Kept s) : s0.Kept (s.readLine errs line).2 := by
  unfold State.readLine
  split
  · exact State.Kept.upd hk (MbxKept.refl _) rfl rfl (MemKept.mk id id rfl rfl) rfl rfl
  · exact State.readBeat_kept (State.readBeat_kept hk)

theorem State.hostRead_kept {errs : List BeatErr} {addr : Nat} (hk : s0.Kept s) : s0.Kept (s.hostRead errs addr) := by
  unfold State.hostRead
  split
  · exact State.reply_kept hk
  · extract_lets line c
    refine State.Kept.ite (State.reply_kept hk) (State.Kept.ite (State.reply_kept hk) (State.Kept.ite ?_ ?_))
    · exact State.reply_kept (State.Kept.upd hk (MbxKept.refl _) rfl rfl (MemKept.refl _) rfl rfl)
    · split
      · exact State.reply_kept (State.track_kept (State.Kept.ofPair (State.readLine_kept hk) (by assumption)))
      · exact State.reply_kept (State.Kept.ofPair (State.readLine_kept hk) (by assumption))

theorem State.hostWrite_kept {addr : Nat} {bytes : List Byte} (hk : s0.Kept s) : s0.Kept (State.hostWrite s addr bytes) := by
  unfold State.hostWrite
  repeat' first
    | with_reducible assumption
    | with_reducible apply State.reply_kept
    | with_reducible apply State.free_kept
    | with_reducible apply State.putPage_kept
    | (with_reducible refine State.Kept.ofPair ?_ (by assumption))
    | exact rfl
    | exact MbxKept.refl _
    | exact MemKept.mk id id rfl rfl
    | exact updAt_length _ _ _
    | exact List.length_map ..
    | exact List.length_mapIdx ..
    | split

theorem State.deliverLate_kept (hk : s0.Kept s) : s0.Kept (State.deliverLate s) := by
  unfold State.deliverLate
  repeat' first
    | with_reducible assumption
    | with_reducible apply State.deliver_kept
    | (with_reducible refine State.Kept.foldl _ (fun t a hk => ?_) ?_)
    | exact rfl
    | exact MbxKept.refl _
    | exact MemKept.mk id id rfl rfl
    | exact updAt_length _ _ _
    | exact List.length_map ..
    | exact List.length_mapIdx ..
    | extract_lets
    | (with_reducible refine State.Kept.upd ?_ ?_ ?_ ?_ ?_ ?_ ?_)

theorem State.backInvalidated_kept {line : Nat} (hk : s0.Kept s) : s0.Kept (State.backInvalidated s line) := by
  unfold State.backInvalidated
  repeat' first
    | with_reducible assumption
    | with_reducible apply State.putPage_kept
    | with_reducible apply State.deliverLate_kept
    | (with_reducible refine State.Kept.foldl _ (fun t a hk => ?_) ?_)
    | exact rfl
    | exact MbxKept.refl _
    | exact MemKept.mk id id rfl rfl
    | exact updAt_length _ _ _
    | exact List.length_map ..
    | exact List.length_mapIdx ..
    | extract_lets
    | (with_reducible refine State.Kept.upd ?_ ?_ ?_ ?_ ?_ ?_ ?_)

theorem State.bgSpend_kept {stack n : Nat} (hk : s0.Kept s) : s0.Kept (State.bgSpend s stack n) := by
  unfold State.bgSpend
  repeat' first
    | with_reducible assumption
    | exact rfl
    | exact MbxKept.refl _
    | exact MemKept.mk id id rfl rfl
    | exact updAt_length _ _ _
    | exact List.length_map ..
    | exact List.length_mapIdx ..
    | exact MemKept.mk id id rfl (updAt_length _ _ _)
    | (with_reducible refine State.Kept.upd ?_ ?_ ?_ ?_ ?_ ?_ ?_)

theorem State.drainTelemetry_kept {n : Nat} (hk : s0.Kept s) : s0.Kept (State.drainTelemetry n s) := by
  induction n generalizing s with
  | zero => exact hk
  | succ n ih =>
    unfold State.drainTelemetry
    split
    · exact hk
    · extract_lets st
      refine State.Kept.ite hk (ih (State.writeIo_kept (State.bgSpend_kept ?_)))
      exact State.Kept.upd hk (MbxKept.refl _) rfl rfl (MemKept.mk id id rfl rfl) rfl rfl

theorem State.sendTelemetry_kept {addr : Nat} {bytes : List Byte} (hk : s0.Kept s) : s0.Kept (State.sendTelemetry s addr bytes) := by
  unfold State.sendTelemetry
  extract_lets lo n all ws src s1
  clear_value all ws
  exact State.drainTelemetry_kept (State.Kept.upd hk (MbxKept.refl _) rfl rfl (MemKept.mk id id rfl rfl) rfl rfl)

theorem State.writeBack_kept {stack : Nat} (hk : s0.Kept s) : s0.Kept (State.writeBack s stack) := by
  unfold State.writeBack
  repeat' first
    | with_reducible assumption
    | with_reducible apply State.writeLineBy_kept
    | with_reducible apply State.bgSpend_kept
    | exact rfl
    | exact MbxKept.refl _
    | exact MemKept.mk id id rfl rfl
    | exact updAt_length _ _ _
    | exact List.length_map ..
    | exact List.length_mapIdx ..
    | exact MemKept.mk id id rfl (updAt_length _ _ _)
    | split
    | extract_lets
    | (with_reducible refine State.Kept.upd ?_ ?_ ?_ ?_ ?_ ?_ ?_)

theorem Mem.scrubTo_kept (m : Mem) (stack a : Nat) : MemKept m (m.scrubTo stack a) := by
  unfold Mem.scrubTo Mem.countPasses
  split <;> exact MemKept.mk id id rfl (updAt_length _ _ _)

theorem State.scrubMem_kept {stack a : Nat} (hk : s0.Kept s) : s0.Kept { s with mem := s.mem.scrubTo stack a } :=
  State.Kept.upd hk (MbxKept.refl _) rfl rfl (Mem.scrubTo_kept _ _ _) rfl rfl

theorem State.patrolScrub_kept {stack : Nat} {errs : List BeatErr} (hk : s0.Kept s) : s0.Kept (s.patrolScrub stack errs) := by
  unfold State.patrolScrub
  refine State.Kept.ite hk ?_
  split
  · exact hk
  · extract_lets a
    refine State.Kept.ite (State.scrubMem_kept hk) ?_
    generalize he : s.readBeat rqScrub noStep errs (s.mem.device stack a) = e
    have h1 : s0.Kept e.2 := State.Kept.ofPair (State.readBeat_kept hk) he
    exact State.scrubMem_kept (State.bgSpend_kept h1)

theorem State.writeEvtCtrl_kept {en intEn : Bool} (hk : s0.Kept s) : s0.Kept (State.writeEvtCtrl s en intEn) := by
  unfold State.writeEvtCtrl
  repeat' first
    | with_reducible assumption
    | exact rfl
    | exact MbxKept.refl _
    | exact MemKept.mk id id rfl rfl
    | exact updAt_length _ _ _
    | exact List.length_map ..
    | exact List.length_mapIdx ..
    | split
    | extract_lets
    | (with_reducible refine State.Kept.upd ?_ ?_ ?_ ?_ ?_ ?_ ?_)

theorem State.wakeHost_kept (hk : s0.Kept s) : s0.Kept (State.wakeHost s) := by
  unfold State.wakeHost
  repeat' first
    | with_reducible assumption
    | with_reducible apply State.message_kept
    | exact rfl
    | exact MbxKept.refl _
    | exact MemKept.mk id id rfl rfl
    | exact updAt_length _ _ _
    | exact List.length_map ..
    | exact List.length_mapIdx ..
    | split
    | (with_reducible refine State.Kept.upd ?_ ?_ ?_ ?_ ?_ ?_ ?_)

theorem State.writeEvtTail_kept {v : Word} (hk : s0.Kept s) : s0.Kept (State.writeEvtTail s v) := by
  unfold State.writeEvtTail
  repeat' first
    | with_reducible assumption
    | with_reducible apply State.wakeHost_kept
    | exact rfl
    | exact MbxKept.refl _
    | exact MemKept.mk id id rfl rfl
    | exact updAt_length _ _ _
    | exact List.length_map ..
    | exact List.length_mapIdx ..
    | split
    | extract_lets
    | (with_reducible refine State.Kept.upd ?_ ?_ ?_ ?_ ?_ ?_ ?_)

theorem State.publish_kept (hk : s0.Kept s) : s0.Kept (State.publish s) := by
  unfold State.publish
  repeat' first
    | with_reducible assumption
    | with_reducible apply State.latch_kept
    | with_reducible apply State.putPage_kept
    | with_reducible apply State.writeLine_kept
    | with_reducible apply State.bgSpend_kept
    | with_reducible apply State.wakeHost_kept
    | exact rfl
    | exact MbxKept.refl _
    | exact MemKept.mk id id rfl rfl
    | exact updAt_length _ _ _
    | exact List.length_map ..
    | exact List.length_mapIdx ..
    | split
    | extract_lets
    | (with_reducible refine State.Kept.upd ?_ ?_ ?_ ?_ ?_ ?_ ?_)

theorem State.writeEvt_kept {off new : Nat} (hk : s0.Kept s) : s0.Kept (State.writeEvt s off new) := by
  unfold State.writeEvt
  repeat' first
    | with_reducible assumption
    | with_reducible apply State.flushVector_kept
    | with_reducible apply State.writeEvtCtrl_kept
    | with_reducible apply State.writeEvtTail_kept
    | exact rfl
    | exact MbxKept.refl _
    | exact MemKept.mk id id rfl rfl
    | exact updAt_length _ _ _
    | exact List.length_map ..
    | exact List.length_mapIdx ..
    | split
    | extract_lets
    | (with_reducible refine State.Kept.upd ?_ ?_ ?_ ?_ ?_ ?_ ?_)

theorem State.writeEcc_kept {off new : Nat} (hk : s0.Kept s) : s0.Kept (s.writeEcc off new) := by
  unfold State.writeEcc
  extract_lets d
  split
  · split
    · exact hk
    · exact State.Kept.upd hk (MbxKept.refl _) rfl rfl (MemKept.mk id id (updAt_length _ _ _) rfl) rfl rfl
  · split
    · exact State.Kept.upd hk (MbxKept.refl _) rfl rfl (MemKept.mk id (fun _ => nil_wf) rfl rfl) rfl rfl
    · exact hk

theorem State.writeKeep_kept {off new : Nat} (hk : s0.Kept s) : s0.Kept (State.writeKeep s off new) := by
  unfold State.writeKeep
  repeat' first
    | with_reducible assumption
    | exact rfl
    | exact MbxKept.refl _
    | exact MemKept.mk id id rfl rfl
    | exact updAt_length _ _ _
    | exact List.length_map ..
    | exact List.length_mapIdx ..
    | split
    | (with_reducible refine State.Kept.upd ?_ ?_ ?_ ?_ ?_ ?_ ?_)

theorem Mailbox.write_wf {m : Mailbox} {off new wo : Nat} (h : m.payload.wf = true) : (m.write off new wo).payload.wf = true := by
  unfold Mailbox.write
  repeat' first
    | exact h
    | exact memWrite_wf _ _ h
    | split

theorem State.storeReg_kept {b : Nat} {al : Alias} {value : Nat} (hk : s0.Kept s) : s0.Kept (s.storeReg b al value) := by
  unfold State.storeReg
  split
  · exact hk
  · split
    · split
      · exact State.modTower_kept hk
      · extract_lets off
        split
        · exact State.Kept.upd hk (MbxKept.modify _ fun _ h => Mailbox.write_wf h) rfl rfl (MemKept.refl _) rfl rfl
        · exact State.writeEvt_kept hk
        · exact State.writeEcc_kept hk
        · exact State.writeKeep_kept hk
        · exact hk

theorem State.violate_kept {addr : Nat} (hk : s0.Kept s) : s0.Kept (State.violate s addr) := by
  unfold State.violate
  repeat' first
    | with_reducible assumption
    | exact rfl
    | exact MbxKept.refl _
    | exact MemKept.mk id id rfl rfl
    | exact updAt_length _ _ _
    | exact List.length_map ..
    | exact List.length_mapIdx ..
    | (with_reducible refine State.Kept.upd ?_ ?_ ?_ ?_ ?_ ?_ ?_)

theorem State.aer_kept {addr : Nat} (hk : s0.Kept s) : s0.Kept (State.aer s addr) := by
  unfold State.aer
  repeat' first
    | with_reducible assumption
    | with_reducible apply State.emit_kept

theorem State.hostStore_kept {addr be value : Nat} (hk : s0.Kept s) : s0.Kept (State.hostStore s addr be value) := by
  unfold State.hostStore
  repeat' first
    | with_reducible assumption
    | with_reducible apply State.storeReg_kept
    | with_reducible apply State.violate_kept
    | with_reducible apply State.aer_kept
    | split
    | extract_lets

theorem State.whenIo_kept {f : State → State} (hf : ∀ t, s0.Kept t → s0.Kept (f t)) (hk : s0.Kept s) :
    s0.Kept (s.whenIo f) := by
  unfold State.whenIo
  split
  · exact hf s hk
  · exact hk

theorem State.lowRead_kept {c : CtrId} {b : Nat} (hk : s0.Kept s) : s0.Kept (s.lowRead c b).2 := by
  unfold State.lowRead
  extract_lets v
  change s0.Kept (s.modCtr c fun x => ⟨x.v, v.latch.shadow⟩)
  exact State.modCtr_kept hk

theorem State.readWord_kept {addr : Nat} (hk : s0.Kept s) : s0.Kept (s.readWord addr).2 := by
  unfold State.readWord
  extract_lets b v
  clear_value v
  split
  · exact hk
  · split
    · exact State.violate_kept hk
    · split
      · exact State.lowRead_kept hk
      · split
        · exact State.modTower_kept hk
        · exact hk

theorem State.readWords_kept {lo hi : Nat} {ws : List Nat} (hk : s0.Kept s) : s0.Kept (s.readWords lo hi ws).2 := by
  induction ws generalizing s with
  | nil => exact hk
  | cons w l ih => exact ih (State.readWord_kept hk)

theorem State.readAccess_kept {a : Access} (hk : s0.Kept s) : s0.Kept (State.readAccess s a) := by
  unfold State.readAccess
  exact State.reply_kept (State.readWords_kept hk)

theorem State.peakRead_kept {r : PeakRead} (hk : s0.Kept s) : s0.Kept (State.peakRead s r) := by
  unfold State.peakRead
  exact State.reply_kept (State.readWord_kept hk)

theorem State.hostStoreAt_kept {b : Nat} {al : Alias} {value : Word} (hk : s0.Kept s) :
    s0.Kept (s.hostStoreAt b al value) := State.whenIo_kept (fun _ h => State.hostStore_kept h) hk

theorem State.smbusRead_kept {code : Nat} {pec : Bool} (hk : s0.Kept s) : s0.Kept (State.smbusRead s code pec) := by
  unfold State.smbusRead
  repeat' first
    | with_reducible assumption
    | with_reducible apply State.answer_kept
    | exact rfl
    | exact MbxKept.refl _
    | exact MemKept.mk id id rfl rfl
    | exact updAt_length _ _ _
    | exact List.length_map ..
    | exact List.length_mapIdx ..
    | split

theorem State.smbusWrite_kept {code : Nat} {v : Half} {pec : Option Byte} (hk : s0.Kept s) : s0.Kept (State.smbusWrite s code v pec) := by
  unfold State.smbusWrite
  repeat' first
    | with_reducible assumption
    | with_reducible apply State.answer_kept
    | exact rfl
    | exact MbxKept.refl _
    | exact MemKept.mk id id rfl rfl
    | exact updAt_length _ _ _
    | exact List.length_map ..
    | exact List.length_mapIdx ..
    | split
    | extract_lets
    | (with_reducible refine State.Kept.upd ?_ ?_ ?_ ?_ ?_ ?_ ?_)

theorem State.smbus_kept {code : Nat} {op : SmbusOp} (hk : s0.Kept s) : s0.Kept (State.smbus s code op) := by
  cases op with
  | read pec => exact State.smbusRead_kept hk
  | write v pec => exact State.smbusWrite_kept hk

theorem State.fallbackEvent_kept {st : Step} {layer mb phase : Nat} {c : Cond} {before after : Nat} {atTop : Bool} (hk : s0.Kept s) : s0.Kept (State.fallbackEvent s st layer mb phase c before after atTop) := by
  unfold State.fallbackEvent
  repeat' first
    | with_reducible assumption
    | with_reducible apply State.event_kept

theorem State.fallback_kept {i layer mb phase ran : Nat} {e : PlanEnt} {c : Cond} (hk : s0.Kept s) :
    s0.Kept (s.fallback i layer mb phase ran e c).1 := by
  unfold State.fallback
  split
  · exact hk
  · exact State.modStep_kept (State.fallbackEvent_kept hk)

theorem State.writeRun_kept {a : Nat} {bs : List Byte} (hk : s0.Kept s) : s0.Kept (State.writeRun s a bs) := by
  unfold State.writeRun
  repeat' first
    | with_reducible assumption
    | with_reducible apply State.writeDev_kept
    | split

theorem State.statWeight_kept {u : WUpd} (hk : s0.Kept s) : s0.Kept (State.statWeight s u) := by
  unfold State.statWeight
  repeat' first
    | with_reducible assumption
    | with_reducible apply State.writeRun_kept
    | split

theorem State.normWeight_kept {u : WUpd} {sing : Bool} (hk : s0.Kept s) : s0.Kept (State.normWeight s u sing) := by
  unfold State.normWeight
  repeat' first
    | with_reducible assumption
    | with_reducible apply State.writeRun_kept
    | split

theorem State.applyWeight_kept {st : Step} {l : Nat} {p : Program} {u : WUpd} {sing : Bool} (hk : s0.Kept s) : s0.Kept (State.applyWeight s st l p u sing) := by
  unfold State.applyWeight
  repeat' first
    | with_reducible assumption
    | with_reducible apply State.event_kept
    | with_reducible apply State.writeRun_kept
    | split
    | extract_lets

theorem State.recopy_kept {st : Step} {p : Program} {l : Nat} {written : Bool} (hk : s0.Kept s) : s0.Kept (State.recopy s st p l written) := by
  unfold State.recopy
  repeat' first
    | with_reducible assumption
    | with_reducible apply State.copyLayer_kept

theorem State.singularTest_kept {i : Nat} {st : Step} {l : Nat} {us : List WUpd} (hk : s0.Kept s) : s0.Kept (State.singularTest s i st l us) := by
  unfold State.singularTest
  repeat' first
    | with_reducible assumption
    | with_reducible apply State.event_kept
    | with_reducible apply State.modStep_kept
    | exact rfl
    | exact MbxKept.refl _
    | exact MemKept.mk id id rfl rfl
    | exact updAt_length _ _ _
    | exact List.length_map ..
    | exact List.length_mapIdx ..
    | split
    | extract_lets

theorem State.runPass_kept {i : Nat} {st : Step} {x : Slot} {p : Program} {l pass : Nat} (hk : s0.Kept s) : s0.Kept (State.runPass s i st x p l pass) := by
  unfold State.runPass
  repeat' first
    | with_reducible assumption
    | with_reducible apply State.statWeight_kept
    | with_reducible apply State.normWeight_kept
    | with_reducible apply State.applyWeight_kept
    | with_reducible apply State.recopy_kept
    | with_reducible apply State.singularTest_kept
    | (with_reducible refine State.Kept.foldl _ (fun t a hk => ?_) ?_)
    | exact rfl
    | exact MbxKept.refl _
    | exact MemKept.mk id id rfl rfl
    | exact updAt_length _ _ _
    | exact List.length_map ..
    | exact List.length_mapIdx ..
    | split
    | extract_lets

end Sys2Proof.Machine
end

