-- ==== Sys2Proof/Laws/KeptStep.lean ====
section
/-!
SUPPORT. What the schedule of a step, Jasper, Campanile and the running of a step keep.
-/

set_option Elab.async false
namespace Sys2Proof.Machine

open Sys2Proof

variable {s0 s : State}

theorem State.backlogItem_kept {i : Nat} {it : Item} (hk : s0.Kept s) : s0.Kept (State.backlogItem s i it) := by
  unfold State.backlogItem
  repeat' first
    | with_reducible assumption
    | with_reducible apply State.modStep_kept

theorem State.placeItem_kept {i : Nat} {it : Item} (hk : s0.Kept s) : s0.Kept (State.placeItem s i it) := by
  unfold State.placeItem
  repeat' first
    | with_reducible assumption
    | with_reducible apply State.modTower_kept
    | with_reducible apply State.backlogItem_kept
    | exact rfl
    | exact MbxKept.refl _
    | exact MemKept.mk id id rfl rfl
    | exact updAt_length _ _ _
    | exact List.length_map ..
    | exact List.length_mapIdx ..
    | split

theorem State.drainBacklog_kept {i : Nat} (hk : s0.Kept s) : s0.Kept (State.drainBacklog s i) := by
  unfold State.drainBacklog
  repeat' first
    | with_reducible assumption
    | with_reducible apply State.modStep_kept
    | with_reducible apply State.backlogItem_kept
    | with_reducible apply State.placeItem_kept
    | (with_reducible refine State.Kept.foldl _ (fun t a hk => ?_) ?_)
    | exact rfl
    | exact MbxKept.refl _
    | exact MemKept.mk id id rfl rfl
    | exact updAt_length _ _ _
    | exact List.length_map ..
    | exact List.length_mapIdx ..
    | split

theorem State.placeRecord_kept {i : Nat} {o : OpRec} {r mb phase : Nat} (hk : s0.Kept s) : s0.Kept (State.placeRecord s i o r mb phase) := by
  unfold State.placeRecord
  repeat' first
    | with_reducible assumption
    | with_reducible apply State.modStep_kept
    | with_reducible apply State.placeItem_kept
    | (with_reducible refine State.Kept.foldl _ (fun t a hk => ?_) ?_)
    | exact rfl
    | exact MbxKept.refl _
    | exact MemKept.mk id id rfl rfl
    | exact updAt_length _ _ _
    | exact List.length_map ..
    | exact List.length_mapIdx ..
    | split

theorem State.placePhase_kept {i mb phase : Nat} (hk : s0.Kept s) : s0.Kept (State.placePhase s i mb phase) := by
  unfold State.placePhase
  repeat' first
    | with_reducible assumption
    | with_reducible apply State.placeRecord_kept
    | (with_reducible refine State.Kept.foldl _ (fun t a hk => ?_) ?_)
    | exact rfl
    | exact MbxKept.refl _
    | exact MemKept.mk id id rfl rfl
    | exact updAt_length _ _ _
    | exact List.length_map ..
    | exact List.length_mapIdx ..
    | split
    | extract_lets
    | (with_reducible refine State.Kept.upd ?_ ?_ ?_ ?_ ?_ ?_ ?_)

theorem State.loadSums_kept {i : Nat} (hk : s0.Kept s) : s0.Kept (State.loadSums s i) := by
  unfold State.loadSums
  repeat' first
    | with_reducible assumption
    | with_reducible apply State.modStep_kept

theorem State.putW_kept {i l : Nat} (hk : s0.Kept s) : s0.Kept (State.putW s i l) := by
  unfold State.putW
  repeat' first
    | with_reducible assumption
    | with_reducible apply State.modStep_kept
    | exact rfl
    | exact MbxKept.refl _
    | exact MemKept.mk id id rfl rfl
    | exact updAt_length _ _ _
    | exact List.length_map ..
    | exact List.length_mapIdx ..
    | split

theorem State.copyRung_kept {i l : Nat} {all : Bool} (hk : s0.Kept s) : s0.Kept (State.copyRung s i l all) := by
  unfold State.copyRung
  repeat' first
    | with_reducible assumption
    | with_reducible apply State.failStep_kept
    | with_reducible apply State.readRuns_kept
    | with_reducible apply State.copyLayer_kept
    | with_reducible apply State.putW_kept
    | (with_reducible refine State.Kept.ofPair ?_ (by assumption))
    | exact rfl
    | exact MbxKept.refl _
    | exact MemKept.mk id id rfl rfl
    | exact updAt_length _ _ _
    | exact List.length_map ..
    | exact List.length_mapIdx ..
    | split
    | extract_lets

theorem State.beginLayer_kept {i l : Nat} (hk : s0.Kept s) : s0.Kept (s.beginLayer i l) := by
  unfold State.beginLayer
  split
  · exact hk
  refine State.Kept.ite hk ?_
  extract_lets s1 s2
  have h1 : s0.Kept s1 := State.modSlot_kept (State.copyRung_kept hk)
  have h2 : s0.Kept s2 := State.modStep_kept h1
  split
  · split
    · exact h2
    · split
      have h3 := State.Kept.ofPairL (State.fallback_kept h2) (by assumption)
      split
      · exact State.copyRung_kept h3
      · exact h3
  · exact h2

theorem State.beginOp_kept {i : Nat} {o : OpRec} {mb phase : Nat} (hk : s0.Kept s) : s0.Kept (State.beginOp s i o mb phase) := by
  unfold State.beginOp
  repeat' first
    | with_reducible assumption
    | with_reducible apply State.modStep_kept
    | with_reducible apply State.beginLayer_kept
    | (with_reducible refine State.Kept.foldl _ (fun t a hk => ?_) ?_)
    | exact rfl
    | exact MbxKept.refl _
    | exact MemKept.mk id id rfl rfl
    | exact updAt_length _ _ _
    | exact List.length_map ..
    | exact List.length_mapIdx ..
    | split

-- MANUAL State.runSpans ['(t num : Nat)'] : Nat → State → State

theorem State.sendValues_kept {u v n : Nat} (hk : s0.Kept s) : s0.Kept (State.sendValues s u v n) := by
  unfold State.sendValues
  refine State.Kept.ite hk (State.Kept.foldl _ (fun t a hk => ?_) hk)
  exact State.modTower_kept (State.modTower_kept (State.passRouters_kept (State.modTower_kept hk)))

theorem State.putFold_kept {i : Nat} {it : Item} {f : TileFold} (hk : s0.Kept s) : s0.Kept (State.putFold s i it f) := by
  unfold State.putFold
  repeat' first
    | with_reducible assumption
    | with_reducible apply State.modTower_kept
    | with_reducible apply State.modStep_kept
    | with_reducible apply State.issueAll_kept
    | exact rfl
    | exact MbxKept.refl _
    | exact MemKept.mk id id rfl rfl
    | exact updAt_length _ _ _
    | exact List.length_map ..
    | exact List.length_mapIdx ..
    | split
    | extract_lets

theorem State.foldResult_kept {it : Item} {x : SpanResult} (hk : s0.Kept s) : s0.Kept (State.foldResult s it x) := by
  unfold State.foldResult
  repeat' first
    | with_reducible assumption
    | with_reducible apply State.sendValues_kept
    | with_reducible apply State.putFold_kept
    | exact rfl
    | exact MbxKept.refl _
    | exact MemKept.mk id id rfl rfl
    | exact updAt_length _ _ _
    | exact List.length_map ..
    | exact List.length_mapIdx ..
    | split

theorem State.claimFold_kept {t : Nat} {it : Item} (hk : s0.Kept s) : s0.Kept (State.claimFold s t it) := by
  unfold State.claimFold
  repeat' first
    | with_reducible assumption
    | with_reducible apply State.sendValues_kept
    | with_reducible apply State.putFold_kept
    | (with_reducible refine State.Kept.foldl _ (fun t a hk => ?_) ?_)
    | exact rfl
    | exact MbxKept.refl _
    | exact MemKept.mk id id rfl rfl
    | exact updAt_length _ _ _
    | exact List.length_map ..
    | exact List.length_mapIdx ..
    | split

theorem State.handOver_kept {t num : Nat} (hk : s0.Kept s) : s0.Kept (State.handOver s t num) := by
  unfold State.handOver
  repeat' first
    | with_reducible assumption
    | with_reducible apply State.modTower_kept
    | with_reducible apply State.foldResult_kept
    | exact rfl
    | exact MbxKept.refl _
    | exact MemKept.mk id id rfl rfl
    | exact updAt_length _ _ _
    | exact List.length_map ..
    | exact List.length_mapIdx ..
    | split
    | extract_lets

theorem State.runSpan_kept {t : Nat} {w : Started} {q : SpanRun} (hk : s0.Kept s) : s0.Kept (State.runSpan s t w q) := by
  unfold State.runSpan
  repeat' first
    | with_reducible assumption
    | with_reducible apply State.modTower_kept
    | with_reducible apply State.foldResult_kept
    | with_reducible apply State.handOver_kept
    | (with_reducible refine State.Kept.foldl _ (fun t a hk => ?_) ?_)
    | exact rfl
    | exact MbxKept.refl _
    | exact MemKept.mk id id rfl rfl
    | exact updAt_length _ _ _
    | exact List.length_map ..
    | exact List.length_mapIdx ..
    | split

theorem State.runSpans_kept {t num n : Nat} (hk : s0.Kept s) : s0.Kept (State.runSpans t num n s) := by
  induction n generalizing s with
  | zero => exact hk
  | succ n ih =>
    unfold State.runSpans
    split
    · exact hk
    refine State.Kept.ite hk ?_
    split
    · exact hk
    · exact ih (State.runSpan_kept hk)

theorem State.startItem_kept {t : Nat} (hk : s0.Kept s) : s0.Kept (State.startItem s t) := by
  unfold State.startItem
  extract_lets x
  split
  · exact hk
  split
  · exact hk
  split
  · exact hk
  split
  · exact hk
  split
  · exact hk
  extract_lets s1
  have h1 : s0.Kept s1 := State.beginOp_kept hk
  clear_value s1
  split
  · exact h1
  extract_lets c ws size s2
  refine State.Kept.ite hk ?_
  have h2 : s0.Kept s2 := State.claimFold_kept (State.modTower_kept h1)
  clear_value s2
  exact State.drainBacklog_kept (State.issueAll_kept (State.runSpans_kept h2))

theorem State.workStart_kept {w : WorkStart} (hk : s0.Kept s) : s0.Kept (State.workStart s w) := by
  unfold State.workStart
  extract_lets n s1
  have h1 : s0.Kept s1 := State.startItem_kept hk
  clear_value s1
  split
  · exact h1
  · exact State.Kept.foldl _ (fun t a hk => State.workWord_kept hk) h1

theorem State.noteOnce_kept {i : Nat} {op : LayerOp} {code : Nat} {le : Note → Note → Bool} (hk : s0.Kept s) : s0.Kept (State.noteOnce s i op code le) := by
  unfold State.noteOnce
  repeat' first
    | with_reducible assumption
    | with_reducible apply State.event_kept
    | with_reducible apply State.modStep_kept
    | exact rfl
    | exact MbxKept.refl _
    | exact MemKept.mk id id rfl rfl
    | exact updAt_length _ _ _
    | exact List.length_map ..
    | exact List.length_mapIdx ..
    | split

theorem State.noteRange_kept {i : Nat} {op : LayerOp} (hk : s0.Kept s) : s0.Kept (State.noteRange s i op) := by
  unfold State.noteRange
  repeat' first
    | with_reducible assumption
    | with_reducible apply State.noteOnce_kept

theorem State.orderStop_kept {i : Nat} {op : LayerOp} {desc pos : Nat} (hk : s0.Kept s) : s0.Kept (State.orderStop s i op desc pos) := by
  unfold State.orderStop
  repeat' first
    | with_reducible assumption
    | with_reducible apply State.event_kept
    | with_reducible apply State.failStep_kept
    | with_reducible apply State.noteRange_kept
    | exact rfl
    | exact MbxKept.refl _
    | exact MemKept.mk id id rfl rfl
    | exact updAt_length _ _ _
    | exact List.length_map ..
    | exact List.length_mapIdx ..
    | split

theorem State.skew_kept {t num : Nat} {x : Stream} {data scale : Nat} (hk : s0.Kept s) : s0.Kept (State.skew s t num x data scale) := by
  unfold State.skew
  repeat' first
    | with_reducible assumption
    | with_reducible apply State.event_kept
    | with_reducible apply State.modTower_kept
    | with_reducible apply State.haltStreams_kept
    | with_reducible apply State.repeatOnce_kept
    | (with_reducible refine State.Kept.ofPair ?_ (by assumption))
    | exact rfl
    | exact MbxKept.refl _
    | exact MemKept.mk id id rfl rfl
    | exact updAt_length _ _ _
    | exact List.length_map ..
    | exact List.length_mapIdx ..
    | split
    | extract_lets

theorem State.jasperBusError_kept {t num : Nat} {x : Stream} (hk : s0.Kept s) : s0.Kept (State.jasperBusError s t num x) := by
  unfold State.jasperBusError
  repeat' first
    | with_reducible assumption
    | with_reducible apply State.modTower_kept
    | with_reducible apply State.failStep_kept
    | with_reducible apply State.noteRange_kept
    | exact rfl
    | exact MbxKept.refl _
    | exact MemKept.mk id id rfl rfl
    | exact updAt_length _ _ _
    | exact List.length_map ..
    | exact List.length_mapIdx ..
    | split

theorem State.nullNote_kept {t : Nat} {x : Stream} {entry : Nat} (hk : s0.Kept s) : s0.Kept (State.nullNote s t x entry) := by
  unfold State.nullNote
  repeat' first
    | with_reducible assumption
    | with_reducible apply State.modStep_kept
    | exact rfl
    | exact MbxKept.refl _
    | exact MemKept.mk id id rfl rfl
    | exact updAt_length _ _ _
    | exact List.length_map ..
    | exact List.length_mapIdx ..
    | split

theorem State.checkOrder_kept {t num : Nat} (hk : s0.Kept s) : s0.Kept (State.checkOrder s t num) := by
  unfold State.checkOrder
  repeat' first
    | with_reducible assumption
    | with_reducible apply State.modTower_kept
    | with_reducible apply State.haltStreams_kept
    | with_reducible apply State.orderStop_kept
    | exact rfl
    | exact MbxKept.refl _
    | exact MemKept.mk id id rfl rfl
    | exact updAt_length _ _ _
    | exact List.length_map ..
    | exact List.length_mapIdx ..
    | split

theorem State.packStream_kept {t num n : Nat} {flips : List (Nat × Byte)} (hk : s0.Kept s) :
    s0.Kept (State.packStream t num n flips s) := by
  induction n generalizing s flips with
  | zero => exact hk
  | succ n ih =>
    unfold State.packStream
    split
    · exact hk
    split
    · exact hk
    extract_lets l s1
    have h1 : s0.Kept s1 := State.modTower_kept hk
    refine State.Kept.ite hk (State.Kept.ite (State.skew_kept hk) (ih ?_))
    exact State.Kept.ite (State.nullNote_kept (State.modTower_kept h1)) h1

theorem State.land_kept {t num slot bytes : Nat} {flips : List (Nat × Byte)} (hk : s0.Kept s) :
    s0.Kept (State.land s t num slot bytes flips) := by
  unfold State.land
  extract_lets s1
  have h1 : s0.Kept s1 := State.modTower_kept hk
  clear_value s1
  split
  · exact h1
  · exact State.issueAll_kept (State.checkOrder_kept (State.runSpans_kept (State.packStream_kept h1)))

theorem State.answered_kept {t : Nat} {src : Node} {epoch : Word} {data : List Byte} {f : State → State}
    (hf : ∀ u, s0.Kept u → s0.Kept (f u)) (hk : s0.Kept s) : s0.Kept (s.answered t src epoch data f) := by
  unfold State.answered
  extract_lets y one xs s1
  clear_value xs
  have h1 : s0.Kept s1 := State.Kept.foldl _ (fun t a hk => State.passRouters_kept hk) hk
  clear_value s1
  exact State.Kept.ite hk (State.Kept.ite (State.modTower_kept h1) (State.Kept.ite h1 (hf _ (State.modTower_kept h1))))

theorem State.landRead_kept {t : Nat} {x : Stream} {q : OutReq} {seq bytes : Nat} {flips : List (Nat × Byte)} (hk : s0.Kept s) : s0.Kept (State.landRead s t x q seq bytes flips) := by
  unfold State.landRead
  repeat' first
    | with_reducible assumption
    | with_reducible apply State.skew_kept
    | with_reducible apply State.land_kept
    | split
    | extract_lets

theorem State.jasperResponse_kept {t : Nat} {r : Response} (hk : s0.Kept s) : s0.Kept (State.jasperResponse s t r) := by
  unfold State.jasperResponse
  extract_lets y
  split
  · exact State.Kept.ite hk (State.modTower_kept hk)
  extract_lets port
  refine State.Kept.ite hk ?_
  split
  · have h1 := State.Kept.ofPair (State.readDev_kept hk) (by assumption)
    exact State.answered_kept (fun u hu => State.Kept.ite hu (State.jasperBusError_kept hu)) h1
  · have h1 := State.Kept.ofPair (State.readDev_kept hk) (by assumption)
    refine State.answered_kept (fun u hu => ?_) h1
    extract_lets s2
    have h2 : s0.Kept s2 := by
      unfold s2
      split
      · exact State.towerWord_kept hu
      · exact hu
    clear_value s2
    split
    · exact State.landRead_kept h2
    · exact h2

theorem State.readPieces_kept {step : Quad} {errs : List BeatErr} {l : List (Nat × Nat)} {acc : List Byte} (hk : s0.Kept s) :
    s0.Kept (s.readPieces step errs l acc).2 := by
  induction l generalizing s acc with
  | nil => exact hk
  | cons q l ih =>
    unfold State.readPieces
    split
    · exact ih (State.Kept.ofPair (State.readDev_kept hk) (by assumption))
    · exact State.Kept.ofPair (State.readDev_kept hk) (by assumption)

theorem State.farEnd_kept {t num slot : Nat} {r : FarReturn} (hk : s0.Kept s) : s0.Kept (State.farEnd s t num slot r) := by
  unfold State.farEnd
  extract_lets y
  split
  · exact State.Kept.ite hk (State.modTower_kept hk)
  extract_lets port
  refine State.Kept.ite hk ?_
  split
  · have h1 := State.Kept.ofPair (State.readPieces_kept hk) (by assumption)
    exact State.answered_kept (fun u hu => State.Kept.ite hu (State.jasperBusError_kept hu)) h1
  · have h1 := State.Kept.ofPair (State.readPieces_kept hk) (by assumption)
    exact State.answered_kept (fun u hu => State.landRead_kept hu) h1

theorem State.withColl_kept {i : Nat} {r : Run} {u : CollUse} {kind group : Nat} {f : Coll → Coll} (hk : s0.Kept s) : s0.Kept (State.withColl s i r u kind group f) := by
  unfold State.withColl
  repeat' first
    | with_reducible assumption
    | with_reducible apply State.modStep_kept

theorem State.join_kept {i : Nat} {r : Run} {u : CollUse} {kind group : Nat} {mine : List Byte} (hk : s0.Kept s) : s0.Kept (State.join s i r u kind group mine) := by
  unfold State.join
  repeat' first
    | with_reducible assumption
    | with_reducible apply State.withColl_kept

theorem State.joinFailed_kept {i : Nat} (hk : s0.Kept s) : s0.Kept (State.joinFailed s i) := by
  unfold State.joinFailed
  repeat' first
    | with_reducible assumption
    | with_reducible apply State.done_kept
    | with_reducible apply State.withColl_kept
    | (with_reducible refine State.Kept.foldl _ (fun t a hk => ?_) ?_)
    | exact rfl
    | exact MbxKept.refl _
    | exact MemKept.mk id id rfl rfl
    | exact updAt_length _ _ _
    | exact List.length_map ..
    | exact List.length_mapIdx ..
    | split

theorem State.storeOut_kept {x : Slot} {p : Program} {o : OpRec} {mb : Nat} {w : Written} (hk : s0.Kept s) : s0.Kept (State.storeOut s x p o mb w) := by
  unfold State.storeOut
  repeat' first
    | with_reducible assumption
    | with_reducible apply State.writeTensor_kept
    | exact rfl
    | exact MbxKept.refl _
    | exact MemKept.mk id id rfl rfl
    | exact updAt_length _ _ _
    | exact List.length_map ..
    | exact List.length_mapIdx ..
    | split

theorem State.putForward_kept {i : Nat} {r : Run} {o : OpRec} {k mb : Nat} {c : Ctx} {out : RecOut} (hk : s0.Kept s) : s0.Kept (State.putForward s i r o k mb c out) := by
  unfold State.putForward
  repeat' first
    | with_reducible assumption
    | with_reducible apply State.modStep_kept
    | with_reducible apply State.writePart_kept
    | with_reducible apply State.orderStop_kept
    | with_reducible apply State.storeOut_kept
    | (with_reducible refine State.Kept.foldl _ (fun t a hk => ?_) ?_)
    | exact rfl
    | exact MbxKept.refl _
    | exact MemKept.mk id id rfl rfl
    | exact updAt_length _ _ _
    | exact List.length_map ..
    | exact List.length_mapIdx ..
    | split

theorem State.storeGrads_kept {i : Nat} {ds : List Nat} {mb : Nat} (hk : s0.Kept s) : s0.Kept (State.storeGrads s i ds mb) := by
  unfold State.storeGrads
  repeat' first
    | with_reducible assumption
    | with_reducible apply State.writePart_kept
    | (with_reducible refine State.Kept.foldl _ (fun t a hk => ?_) ?_)
    | exact rfl
    | exact MbxKept.refl _
    | exact MemKept.mk id id rfl rfl
    | exact updAt_length _ _ _
    | exact List.length_map ..
    | exact List.length_mapIdx ..
    | split

theorem State.putBackward_kept {i : Nat} {c : Ctx} {o : OpRec} {k mb phase : Nat} {g : GradOut} (hk : s0.Kept s) : s0.Kept (State.putBackward s i c o k mb phase g) := by
  unfold State.putBackward
  repeat' first
    | with_reducible assumption
    | with_reducible apply State.modStep_kept
    | with_reducible apply State.storeGrads_kept

theorem State.put_kept {way : Route} {m : Message} (hk : s0.Kept s) : s0.Kept (State.put s way m) := by
  unfold State.put
  repeat' first
    | with_reducible assumption
    | exact rfl
    | exact MbxKept.refl _
    | exact MemKept.mk id id rfl rfl
    | exact updAt_length _ _ _
    | exact List.length_map ..
    | exact List.length_mapIdx ..
    | split
    | extract_lets
    | (with_reducible refine State.Kept.upd ?_ ?_ ?_ ?_ ?_ ?_ ?_)

theorem State.relayOn_kept {m : Message} (hk : s0.Kept s) : s0.Kept (State.relayOn s m) := by
  unfold State.relayOn
  repeat' first
    | with_reducible assumption
    | with_reducible apply State.put_kept
    | exact rfl
    | exact MbxKept.refl _
    | exact MemKept.mk id id rfl rfl
    | exact updAt_length _ _ _
    | exact List.length_map ..
    | exact List.length_mapIdx ..
    | split

theorem State.post_kept {rank : Nat} {way : Route} {m : Message} (hk : s0.Kept s) : s0.Kept (State.post s rank way m) := by
  unfold State.post
  repeat' first
    | with_reducible assumption
    | with_reducible apply State.put_kept
    | exact rfl
    | exact MbxKept.refl _
    | exact MemKept.mk id id rfl rfl
    | exact updAt_length _ _ _
    | exact List.length_map ..
    | exact List.length_mapIdx ..
    | split
    | extract_lets
    | (with_reducible refine State.Kept.upd ?_ ?_ ?_ ?_ ?_ ?_ ?_)

theorem State.sendChunk_kept {i : Nat} {st : Step} {c : Coll} {x : Nat × Nat × List Byte} (hk : s0.Kept s) : s0.Kept (State.sendChunk s i st c x) := by
  unfold State.sendChunk
  repeat' first
    | with_reducible assumption
    | with_reducible apply State.modStep_kept
    | with_reducible apply State.post_kept
    | exact rfl
    | exact MbxKept.refl _
    | exact MemKept.mk id id rfl rfl
    | exact updAt_length _ _ _
    | exact List.length_map ..
    | exact List.length_mapIdx ..
    | split

theorem State.pump_kept {i : Nat} (hk : s0.Kept s) : s0.Kept (State.pump s i) := by
  unfold State.pump
  repeat' first
    | with_reducible assumption
    | with_reducible apply State.sendChunk_kept
    | (with_reducible refine State.Kept.foldl _ (fun t a hk => ?_) ?_)
    | exact rfl
    | exact MbxKept.refl _
    | exact MemKept.mk id id rfl rfl
    | exact updAt_length _ _ _
    | exact List.length_map ..
    | exact List.length_mapIdx ..
    | split

theorem State.landShards_kept {i : Nat} {c : Coll} (hk : s0.Kept s) : s0.Kept (State.landShards s i c) := by
  unfold State.landShards
  repeat' first
    | with_reducible assumption
    | with_reducible apply State.modStep_kept
    | with_reducible apply State.writeTensor_kept
    | (with_reducible refine State.Kept.foldl _ (fun t a hk => ?_) ?_)
    | exact rfl
    | exact MbxKept.refl _
    | exact MemKept.mk id id rfl rfl
    | exact updAt_length _ _ _
    | exact List.length_map ..
    | exact List.length_mapIdx ..
    | split
    | extract_lets

theorem State.writeFor_kept {it : Item} {d addr len : Nat} (hk : s0.Kept s) : s0.Kept (State.writeFor s it d addr len) := by
  unfold State.writeFor
  repeat' first
    | with_reducible assumption
    | with_reducible apply State.writeDev_kept
    | (with_reducible refine State.Kept.foldl _ (fun t a hk => ?_) ?_)
    | exact rfl
    | exact MbxKept.refl _
    | exact MemKept.mk id id rfl rfl
    | exact updAt_length _ _ _
    | exact List.length_map ..
    | exact List.length_mapIdx ..
    | split

theorem State.writeAck_kept {t num slot : Nat} (hk : s0.Kept s) : s0.Kept (State.writeAck s t num slot) := by
  unfold State.writeAck
  extract_lets y
  split
  · exact hk
  refine State.Kept.ite hk ?_
  extract_lets s1
  have h1 : s0.Kept s1 := by
    unfold s1
    split
    · exact State.writeFor_kept hk
    · exact hk
  clear_value s1
  exact State.Kept.ite h1 (State.answered_kept (fun u hu => State.issueAll_kept (State.modTower_kept hu)) h1)

theorem State.nonfinite_kept {i cause layer mb : Nat} (hk : s0.Kept s) : s0.Kept (State.nonfinite s i cause layer mb) := by
  unfold State.nonfinite
  repeat' first
    | with_reducible assumption
    | with_reducible apply State.modStep_kept

theorem State.joinUse_kept {i : Nat} {u : CollUse} {kind group : Nat} (hk : s0.Kept s) : s0.Kept (State.joinUse s i u kind group) := by
  unfold State.joinUse
  repeat' first
    | with_reducible assumption
    | with_reducible apply State.join_kept
    | exact rfl
    | exact MbxKept.refl _
    | exact MemKept.mk id id rfl rfl
    | exact updAt_length _ _ _
    | exact List.length_map ..
    | exact List.length_mapIdx ..
    | split

theorem State.finishRecord_kept {i : Nat} {r : Run} {group k mb phase : Nat} {res : List (List Byte)} (hk : s0.Kept s) : s0.Kept (State.finishRecord s i r group k mb phase res) := by
  unfold State.finishRecord
  repeat' first
    | with_reducible assumption
    | with_reducible apply State.putForward_kept
    | with_reducible apply State.putBackward_kept
    | exact rfl
    | exact MbxKept.refl _
    | exact MemKept.mk id id rfl rfl
    | exact updAt_length _ _ _
    | exact List.length_map ..
    | exact List.length_mapIdx ..
    | split

theorem State.storeSum_kept {i d : Nat} (hk : s0.Kept s) : s0.Kept (State.storeSum s i d) := by
  unfold State.storeSum
  repeat' first
    | with_reducible assumption
    | with_reducible apply State.writePart_kept
    | exact rfl
    | exact MbxKept.refl _
    | exact MemKept.mk id id rfl rfl
    | exact updAt_length _ _ _
    | exact List.length_map ..
    | exact List.length_mapIdx ..
    | split

theorem State.finishColl_kept {i : Nat} {r : Run} {c : Coll} {res : List (List Byte)} (hk : s0.Kept s) : s0.Kept (State.finishColl s i r c res) := by
  unfold State.finishColl
  repeat' first
    | with_reducible assumption
    | with_reducible apply State.modStep_kept
    | with_reducible apply State.nonfinite_kept
    | with_reducible apply State.finishRecord_kept
    | with_reducible apply State.storeSum_kept
    | with_reducible apply State.take_kept
    | exact rfl
    | exact MbxKept.refl _
    | exact MemKept.mk id id rfl rfl
    | exact updAt_length _ _ _
    | exact List.length_map ..
    | exact List.length_mapIdx ..
    | split
    | extract_lets

theorem State.joinReady_kept {i : Nat} (hk : s0.Kept s) : s0.Kept (State.joinReady s i) := by
  unfold State.joinReady
  repeat' first
    | with_reducible assumption
    | with_reducible apply State.done_kept
    | with_reducible apply State.beginOp_kept
    | with_reducible apply State.joinUse_kept
    | (with_reducible refine State.Kept.foldl _ (fun t a hk => ?_) ?_)
    | exact rfl
    | exact MbxKept.refl _
    | exact MemKept.mk id id rfl rfl
    | exact updAt_length _ _ _
    | exact List.length_map ..
    | exact List.length_mapIdx ..
    | split
    | extract_lets

theorem State.finishReady_kept {i : Nat} (hk : s0.Kept s) : s0.Kept (State.finishReady s i) := by
  unfold State.finishReady
  repeat' first
    | with_reducible assumption
    | with_reducible apply State.done_kept
    | with_reducible apply State.finishColl_kept
    | (with_reducible refine State.Kept.foldl _ (fun t a hk => ?_) ?_)
    | exact rfl
    | exact MbxKept.refl _
    | exact MemKept.mk id id rfl rfl
    | exact updAt_length _ _ _
    | exact List.length_map ..
    | exact List.length_mapIdx ..
    | split

theorem State.landRings_kept {i : Nat} (hk : s0.Kept s) : s0.Kept (State.landRings s i) := by
  unfold State.landRings
  repeat' first
    | with_reducible assumption
    | with_reducible apply State.landShards_kept
    | (with_reducible refine State.Kept.foldl _ (fun t a hk => ?_) ?_)
    | exact rfl
    | exact MbxKept.refl _
    | exact MemKept.mk id id rfl rfl
    | exact updAt_length _ _ _
    | exact List.length_map ..
    | exact List.length_mapIdx ..
    | split

theorem State.advance_kept {i n : Nat} (hk : s0.Kept s) : s0.Kept (State.advance i n s) := by
  induction n generalizing s with
  | zero => exact hk
  | succ n ih =>
    unfold State.advance
    extract_lets s1 at'
    have h1 : s0.Kept s1 := State.finishReady_kept (State.landRings_kept (State.joinReady_kept hk))
    refine State.Kept.ite h1 (ih h1)

theorem State.advanceAll_kept {i : Nat} (hk : s0.Kept s) : s0.Kept (State.advanceAll s i) := by
  unfold State.advanceAll
  repeat' first
    | with_reducible assumption
    | with_reducible apply State.joinFailed_kept
    | with_reducible apply State.pump_kept
    | with_reducible apply State.advance_kept
    | exact rfl
    | exact MbxKept.refl _
    | exact MemKept.mk id id rfl rfl
    | exact updAt_length _ _ _
    | exact List.length_map ..
    | exact List.length_mapIdx ..
    | split

theorem State.completeSplit_kept {i : Nat} {r : Run} {o : OpRec} {k mb phase : Nat} {x : Split} (hk : s0.Kept s) : s0.Kept (State.completeSplit s i r o k mb phase x) := by
  unfold State.completeSplit
  repeat' first
    | with_reducible assumption
    | with_reducible apply State.putBackward_kept
    | with_reducible apply State.joinUse_kept
    | exact rfl
    | exact MbxKept.refl _
    | exact MemKept.mk id id rfl rfl
    | exact updAt_length _ _ _
    | exact List.length_map ..
    | exact List.length_mapIdx ..
    | split
    | extract_lets
    | (with_reducible refine State.Kept.upd ?_ ?_ ?_ ?_ ?_ ?_ ?_)

theorem State.completeRec_kept {i k mb phase : Nat} (hk : s0.Kept s) : s0.Kept (State.completeRec s i k mb phase) := by
  unfold State.completeRec
  repeat' first
    | with_reducible assumption
    | with_reducible apply State.putForward_kept
    | with_reducible apply State.putBackward_kept
    | with_reducible apply State.joinUse_kept
    | with_reducible apply State.completeSplit_kept
    | exact rfl
    | exact MbxKept.refl _
    | exact MemKept.mk id id rfl rfl
    | exact updAt_length _ _ _
    | exact List.length_map ..
    | exact List.length_mapIdx ..
    | split

theorem State.workRetire_kept {t index : Nat} (hk : s0.Kept s) : s0.Kept (State.workRetire s t index) := by
  unfold State.workRetire
  repeat' first
    | with_reducible assumption
    | with_reducible apply State.complete_kept
    | with_reducible apply State.modTower_kept
    | with_reducible apply State.modStep_kept
    | with_reducible apply State.issueAll_kept
    | with_reducible apply State.pump_kept
    | with_reducible apply State.advanceAll_kept
    | with_reducible apply State.completeRec_kept
    | exact rfl
    | exact MbxKept.refl _
    | exact MemKept.mk id id rfl rfl
    | exact updAt_length _ _ _
    | exact List.length_map ..
    | exact List.length_mapIdx ..
    | split
    | extract_lets

theorem State.noteEvents_kept {i : Nat} {op : LayerOp} (hk : s0.Kept s) : s0.Kept (State.noteEvents s i op) := by
  unfold State.noteEvents
  repeat' first
    | with_reducible assumption
    | with_reducible apply State.event_kept
    | with_reducible apply State.noteOnce_kept
    | with_reducible apply State.noteRange_kept
    | (with_reducible refine State.Kept.foldl _ (fun t a hk => ?_) ?_)
    | exact rfl
    | exact MbxKept.refl _
    | exact MemKept.mk id id rfl rfl
    | exact updAt_length _ _ _
    | exact List.length_map ..
    | exact List.length_mapIdx ..
    | split

theorem State.normJumps_kept {i : Nat} {op : LayerOp} {e : PlanEnt} {k : Tracker} {xs : List StatEnt} (hk : s0.Kept s) :
    s0.Kept (s.normJumps i op e k xs) := by
  refine State.Kept.foldl _ (fun t role ht => ?_) hk
  split
  · exact ht
  · refine State.Kept.ite ht ?_
    extract_lets hit
    clear_value hit
    rcases hit with _ | ⟨x, n, avg⟩
    · exact ht
    · exact State.modStep_kept (State.event_kept ht)

theorem State.opStands_kept {i : Nat} {op : LayerOp} (hk : s0.Kept s) : s0.Kept (State.opStands s i op) := by
  unfold State.opStands
  repeat' first
    | with_reducible assumption
    | with_reducible apply State.modStep_kept

theorem State.judge_kept {i : Nat} {r : Run} {q : LayerProg} (hk : s0.Kept s) : s0.Kept (s.judge i r q) := by
  unfold State.judge
  extract_lets op s0' xs fresh g
  have h0 : s0.Kept s0' := State.noteEvents_kept hk
  clear_value s0'
  split
  · extract_lets s1
    have h1 : s0.Kept s1 := State.normJumps_kept h0
    clear_value s1
    refine State.Kept.ite (State.failStep_kept h1) ?_
    split
    · exact State.opStands_kept h1
    · split
      have h2 := State.Kept.ofPairL (State.fallback_kept h1) (by assumption)
      exact State.Kept.ite (State.Kept.ite (State.modStep_kept h2) (State.copyRung_kept (State.modStep_kept h2)))
        (State.opStands_kept h2)
  · exact State.opStands_kept h0

theorem State.localNonfinite_kept {i : Nat} {r : Run} {q : StepGrad} (hk : s0.Kept s) : s0.Kept (State.localNonfinite s i r q) := by
  unfold State.localNonfinite
  repeat' first
    | with_reducible assumption
    | with_reducible apply State.nonfinite_kept
    | split

theorem State.joinLayers_kept {i : Nat} {all : Bool} (hk : s0.Kept s) : s0.Kept (State.joinLayers s i all) := by
  unfold State.joinLayers
  repeat' first
    | with_reducible assumption
    | with_reducible apply State.joinUse_kept
    | with_reducible apply State.localNonfinite_kept
    | (with_reducible refine State.Kept.foldl _ (fun t a hk => ?_) ?_)
    | exact rfl
    | exact MbxKept.refl _
    | exact MemKept.mk id id rfl rfl
    | exact updAt_length _ _ _
    | exact List.length_map ..
    | exact List.length_mapIdx ..
    | split

theorem State.tryForward_kept {i : Nat} (hk : s0.Kept s) : s0.Kept (State.tryForward s i) := by
  unfold State.tryForward
  repeat' first
    | with_reducible assumption
    | with_reducible apply State.modStep_kept
    | with_reducible apply State.placePhase_kept
    | with_reducible apply State.loadSums_kept
    | with_reducible apply State.advanceAll_kept
    | exact rfl
    | exact MbxKept.refl _
    | exact MemKept.mk id id rfl rfl
    | exact updAt_length _ _ _
    | exact List.length_map ..
    | exact List.length_mapIdx ..
    | split
    | extract_lets

theorem State.abortWork_kept {i : Nat} (hk : s0.Kept s) : s0.Kept (State.abortWork s i) := by
  unfold State.abortWork
  repeat' first
    | with_reducible assumption
    | with_reducible apply State.dropItems_kept
    | with_reducible apply State.modStep_kept
    | with_reducible apply State.joinUse_kept
    | with_reducible apply State.advanceAll_kept
    | with_reducible apply State.joinLayers_kept
    | (with_reducible refine State.Kept.foldl _ (fun t a hk => ?_) ?_)
    | exact rfl
    | exact MbxKept.refl _
    | exact MemKept.mk id id rfl rfl
    | exact updAt_length _ _ _
    | exact List.length_map ..
    | exact List.length_mapIdx ..
    | split

theorem State.noteLoss_kept {i mb : Nat} (hk : s0.Kept s) : s0.Kept (State.noteLoss s i mb) := by
  unfold State.noteLoss
  repeat' first
    | with_reducible assumption
    | with_reducible apply State.event_kept
    | with_reducible apply State.modStep_kept
    | with_reducible apply State.nonfinite_kept
    | with_reducible apply State.abortWork_kept
    | exact rfl
    | exact MbxKept.refl _
    | exact MemKept.mk id id rfl rfl
    | exact updAt_length _ _ _
    | exact List.length_map ..
    | exact List.length_mapIdx ..
    | split
    | extract_lets

theorem State.addGrad_kept {i d n : Nat} (hk : s0.Kept s) : s0.Kept (State.addGrad i d n s) := by
  induction n generalizing s with
  | zero => exact hk
  | succ n ih =>
    unfold State.addGrad
    split
    · exact hk
    split
    · extract_lets u big small g
      clear_value g
      exact State.Kept.ite hk (ih (State.storeSum_kept (State.modStep_kept hk)))
    · exact hk

theorem State.settle_kept {i : Nat} (hk : s0.Kept s) : s0.Kept (State.settle s i) := by
  unfold State.settle
  extract_lets s2
  have h0 : s0.Kept s2 := by
    unfold s2
    split
    · exact State.Kept.ite (State.Kept.foldl _ (fun t u ht => State.noteLoss_kept ht) hk) hk
    · exact hk
  clear_value s2
  split
  · exact h0
  refine State.Kept.ite h0 ?_
  extract_lets n s3 ended s4
  have h1 : s0.Kept s3 := State.joinLayers_kept (State.Kept.foldl _ (fun t d ht => State.addGrad_kept ht) h0)
  have h2 : s0.Kept s4 := State.Kept.foldl _ (fun t u ht => State.modStep_kept ht) h1
  exact State.Kept.ite (State.advanceAll_kept (State.modStep_kept h2)) (State.advanceAll_kept (State.tryForward_kept h2))

theorem State.opComplete_kept {i : Nat} {op : LayerOp} (hk : s0.Kept s) : s0.Kept (State.opComplete s i op) := by
  unfold State.opComplete
  repeat' first
    | with_reducible assumption
    | with_reducible apply State.done_kept
    | with_reducible apply State.judge_kept
    | with_reducible apply State.settle_kept
    | exact rfl
    | exact MbxKept.refl _
    | exact MemKept.mk id id rfl rfl
    | exact updAt_length _ _ _
    | exact List.length_map ..
    | exact List.length_mapIdx ..
    | split
    | extract_lets

theorem State.onRunning_kept {f : State → Nat → State} (hf : ∀ t i, s0.Kept t → s0.Kept (f t i)) (hk : s0.Kept s) :
    s0.Kept (s.onRunning f) := by
  unfold State.onRunning
  split
  · exact hk
  · split
    · exact hk
    · split
      · exact hf _ _ hk
      · exact hk

theorem State.dropBackward_kept {i mb : Nat} (hk : s0.Kept s) : s0.Kept (State.dropBackward s i mb) := by
  unfold State.dropBackward
  repeat' first
    | with_reducible assumption
    | with_reducible apply State.dropItems_kept
    | with_reducible apply State.modStep_kept
    | exact rfl
    | exact MbxKept.refl _
    | exact MemKept.mk id id rfl rfl
    | exact updAt_length _ _ _
    | exact List.length_map ..
    | exact List.length_mapIdx ..
    | split

theorem State.discardOp_kept {i : Nat} {op : LayerOp} {same : Bool} (hk : s0.Kept s) : s0.Kept (State.discardOp s i op same) := by
  unfold State.discardOp
  repeat' first
    | with_reducible assumption
    | with_reducible apply State.dropItems_kept
    | with_reducible apply State.modStep_kept
    | with_reducible apply State.dropBackward_kept
    | exact rfl
    | exact MbxKept.refl _
    | exact MemKept.mk id id rfl rfl
    | exact updAt_length _ _ _
    | exact List.length_map ..
    | exact List.length_mapIdx ..
    | split
    | extract_lets

theorem State.peerNotice_kept {i : Nat} {op : LayerOp} (hk : s0.Kept s) : s0.Kept (State.peerNotice s i op) := by
  unfold State.peerNotice
  split
  · exact hk
  extract_lets split
  split
  · extract_lets grad ran
    refine State.Kept.ite hk ?_
    generalize Config.peerCond s.freeCtr = k
    obtain ⟨cause, desc, role, measured⟩ := k
    dsimp only
    generalize hq : State.fallback _ i op.layer op.mb op.phase _ _ _ = q
    obtain ⟨s1, w⟩ := q
    have h1 := State.Kept.ofPairL
      (State.fallback_kept (State.Kept.upd hk (MbxKept.refl _) rfl rfl (MemKept.refl _) rfl rfl)) hq
    exact State.Kept.ite (State.modStep_kept h1) (State.copyRung_kept (State.modStep_kept h1))
  · exact hk

theorem State.haltWords_kept {h : LayerHalt} (hk : s0.Kept s) : s0.Kept (State.haltWords s h) := by
  unfold State.haltWords
  exact State.Kept.foldl _ (fun t a hk => State.workWord_kept hk) hk

theorem State.layerStop_kept {i : Nat} {h : LayerHalt} (hk : s0.Kept s) : s0.Kept (State.layerStop s i h) := by
  unfold State.layerStop
  repeat' first
    | with_reducible assumption
    | with_reducible apply State.discardOp_kept
    | with_reducible apply State.peerNotice_kept
    | with_reducible apply State.haltWords_kept
    | (with_reducible refine State.Kept.foldl _ (fun t a hk => ?_) ?_)
    | exact rfl
    | exact MbxKept.refl _
    | exact MemKept.mk id id rfl rfl
    | exact updAt_length _ _ _
    | exact List.length_map ..
    | exact List.length_mapIdx ..
    | split
    | extract_lets

theorem State.refill_kept {i : Nat} {op : LayerOp} (hk : s0.Kept s) : s0.Kept (State.refill s i op) := by
  unfold State.refill
  repeat' first
    | with_reducible assumption
    | with_reducible apply State.modStep_kept
    | with_reducible apply State.placeRecord_kept
    | (with_reducible refine State.Kept.foldl _ (fun t a hk => ?_) ?_)
    | exact rfl
    | exact MbxKept.refl _
    | exact MemKept.mk id id rfl rfl
    | exact updAt_length _ _ _
    | exact List.length_map ..
    | exact List.length_mapIdx ..
    | split

theorem State.layerRestart_kept {i : Nat} {op : LayerOp} (hk : s0.Kept s) : s0.Kept (State.layerRestart s i op) := by
  unfold State.layerRestart
  repeat' first
    | with_reducible assumption
    | with_reducible apply State.advanceAll_kept
    | with_reducible apply State.refill_kept
    | (with_reducible refine State.Kept.foldl _ (fun t a hk => ?_) ?_)
    | exact rfl
    | exact MbxKept.refl _
    | exact MemKept.mk id id rfl rfl
    | exact updAt_length _ _ _
    | exact List.length_map ..
    | exact List.length_mapIdx ..
    | split

theorem State.lossComplete_kept {i mb : Nat} (hk : s0.Kept s) : s0.Kept (State.lossComplete s i mb) := by
  unfold State.lossComplete
  repeat' first
    | with_reducible assumption
    | with_reducible apply State.modStep_kept
    | with_reducible apply State.placePhase_kept
    | with_reducible apply State.advanceAll_kept
    | with_reducible apply State.tryForward_kept
    | with_reducible apply State.noteLoss_kept
    | exact rfl
    | exact MbxKept.refl _
    | exact MemKept.mk id id rfl rfl
    | exact updAt_length _ _ _
    | exact List.length_map ..
    | exact List.length_mapIdx ..
    | split
    | extract_lets

theorem State.microBatchRetire_kept {i mb : Nat} (hk : s0.Kept s) : s0.Kept (State.microBatchRetire s i mb) := by
  unfold State.microBatchRetire
  repeat' first
    | with_reducible assumption
    | with_reducible apply State.modStep_kept
    | with_reducible apply State.settle_kept
    | exact rfl
    | exact MbxKept.refl _
    | exact MemKept.mk id id rfl rfl
    | exact updAt_length _ _ _
    | exact List.length_map ..
    | exact List.length_mapIdx ..
    | split

end Sys2Proof.Machine
end

