-- ==== Sys2Proof/Laws/KeptClose.lean ====
section
/-!
SUPPORT. What messages, CHECK, UPDATE, COMMIT, RUN_STEP, the judgement of ROM commands, function level reset and the SRAM scrubbers keep.
-/

set_option Elab.async false
namespace Sys2Proof.Machine

open Sys2Proof

variable {s0 s : State}

theorem State.dropMessage_kept {rank : Nat} (hk : s0.Kept s) : s0.Kept (State.dropMessage s rank) := by
  unfold State.dropMessage
  repeat' first
    | with_reducible assumption
    | exact rfl
    | exact MbxKept.refl _
    | exact MemKept.mk id id rfl rfl
    | exact updAt_length _ _ _
    | exact List.length_map ..
    | exact List.length_mapIdx ..
    | split
    | (with_reducible refine State.Kept.upd ?_ ?_ ?_ ?_ ?_ ?_ ?_)

theorem State.accept_kept {m : Message} {f : State → Nat → State} (hf : ∀ t i, s0.Kept t → s0.Kept (f t i))
    (hk : s0.Kept s) : s0.Kept (State.accept s m f) := by
  unfold State.accept
  split
  · exact hf _ _ hk
  · exact State.dropMessage_kept hk

theorem State.admit_kept {m : Message} {f : State → Nat → State} (hf : ∀ t i, s0.Kept t → s0.Kept (f t i)) (hk : s0.Kept s) :
    s0.Kept (s.accept m f) := by
  unfold State.accept
  split
  · exact hf _ _ hk
  · exact State.dropMessage_kept hk

theorem State.landData_kept {i : Nat} {m : Message} (hk : s0.Kept s) : s0.Kept (State.landData s i m) := by
  unfold State.landData
  repeat' first
    | with_reducible assumption
    | with_reducible apply State.withColl_kept
    | with_reducible apply State.advanceAll_kept
    | with_reducible apply State.take_kept
    | exact rfl
    | exact MbxKept.refl _
    | exact MemKept.mk id id rfl rfl
    | exact updAt_length _ _ _
    | exact List.length_map ..
    | exact List.length_mapIdx ..
    | split
    | extract_lets

theorem State.campanileData_kept {m : Message} {f : XferFault} (hk : s0.Kept s) : s0.Kept (State.campanileData s m f) := by
  unfold State.campanileData
  repeat' first
    | with_reducible assumption
    | with_reducible apply State.sramEvent_kept
    | with_reducible apply State.failEarly_kept
    | with_reducible apply State.readRuns_kept
    | (with_reducible refine State.accept_kept (fun t i hk => ?_) ?_)
    | with_reducible apply State.landData_kept
    | (with_reducible refine State.Kept.ofPair ?_ (by assumption))
    | exact rfl
    | exact MbxKept.refl _
    | exact MemKept.mk id id rfl rfl
    | exact updAt_length _ _ _
    | exact List.length_map ..
    | exact List.length_mapIdx ..
    | split
    | extract_lets

theorem State.sendClosing_kept {i : Nat} (hk : s0.Kept s) : s0.Kept (State.sendClosing s i) := by
  unfold State.sendClosing
  repeat' first
    | with_reducible assumption
    | with_reducible apply State.modStep_kept
    | with_reducible apply State.post_kept
    | (with_reducible refine State.Kept.foldl _ (fun t a hk => ?_) ?_)
    | exact rfl
    | exact MbxKept.refl _
    | exact MemKept.mk id id rfl rfl
    | exact updAt_length _ _ _
    | exact List.length_map ..
    | exact List.length_mapIdx ..
    | split
    | extract_lets

theorem State.takeClosing_kept {i rank chunk : Nat} {c : ClosingRec} (hk : s0.Kept s) : s0.Kept (State.takeClosing s i rank chunk c) := by
  unfold State.takeClosing
  repeat' first
    | with_reducible assumption
    | with_reducible apply State.modStep_kept
    | with_reducible apply State.failStep_kept
    | with_reducible apply State.sendClosing_kept
    | exact rfl
    | exact MbxKept.refl _
    | exact MemKept.mk id id rfl rfl
    | exact updAt_length _ _ _
    | exact List.length_map ..
    | exact List.length_mapIdx ..
    | split

theorem State.received_kept {m : Message} (hk : s0.Kept s) : s0.Kept (State.received s m) := by
  unfold State.received
  repeat' first
    | with_reducible assumption
    | with_reducible apply State.dropMessage_kept
    | (with_reducible refine State.accept_kept (fun t i hk => ?_) ?_)
    | with_reducible apply State.landData_kept
    | with_reducible apply State.takeClosing_kept
    | with_reducible apply State.take_kept
    | exact rfl
    | exact MbxKept.refl _
    | exact MemKept.mk id id rfl rfl
    | exact updAt_length _ _ _
    | exact List.length_map ..
    | exact List.length_mapIdx ..
    | split

theorem State.sendCredit_kept {i rank : Nat} {m : Message} (hk : s0.Kept s) : s0.Kept (State.sendCredit s i rank m) := by
  unfold State.sendCredit
  repeat' first
    | with_reducible assumption
    | with_reducible apply State.put_kept
    | exact rfl
    | exact MbxKept.refl _
    | exact MemKept.mk id id rfl rfl
    | exact updAt_length _ _ _
    | exact List.length_map ..
    | exact List.length_mapIdx ..
    | split

theorem State.doorbell_kept {slot : Nat} {m : Message} {errs : List BeatErr} (hk : s0.Kept s) :
    s0.Kept (State.doorbell s slot m errs) := by
  unfold State.doorbell
  refine State.Kept.ite hk ?_
  split
  · exact hk
  refine State.accept_kept (fun t i ht => ?_) hk
  extract_lets num base credit
  have hc {u : State} (h : s0.Kept u) : s0.Kept (credit u) := State.sendCredit_kept h
  clear_value credit
  split
  · exact hc (State.failEarly_kept (State.Kept.ofPair (State.readDev_kept ht) (by assumption)))
  have h1 := State.Kept.ofPair (State.readDev_kept ht) (by assumption)
  split
  · exact hc (State.failEarly_kept (State.Kept.ofPair (State.readDev_kept h1) (by assumption)))
  · exact hc (State.received_kept (State.Kept.ofPair (State.readDev_kept h1) (by assumption)))

theorem State.startNext_kept {rank : Nat} (hk : s0.Kept s) : s0.Kept (State.startNext s rank) := by
  unfold State.startNext
  repeat' first
    | with_reducible assumption
    | with_reducible apply State.put_kept
    | exact rfl
    | exact MbxKept.refl _
    | exact MemKept.mk id id rfl rfl
    | exact updAt_length _ _ _
    | exact List.length_map ..
    | exact List.length_mapIdx ..
    | split
    | extract_lets
    | (with_reducible refine State.Kept.upd ?_ ?_ ?_ ?_ ?_ ?_ ?_)

theorem State.credit_kept {rank : Nat} (hk : s0.Kept s) : s0.Kept (State.credit s rank) := by
  unfold State.credit
  repeat' first
    | with_reducible assumption
    | with_reducible apply State.startNext_kept
    | exact rfl
    | exact MbxKept.refl _
    | exact MemKept.mk id id rfl rfl
    | exact updAt_length _ _ _
    | exact List.length_map ..
    | exact List.length_mapIdx ..
    | split
    | (with_reducible refine State.Kept.upd ?_ ?_ ?_ ?_ ?_ ?_ ?_)

theorem State.fabricWrite_kept {rank : Nat} {ok : Bool} (hk : s0.Kept s) : s0.Kept (State.fabricWrite s rank ok) := by
  unfold State.fabricWrite
  repeat' first
    | with_reducible assumption
    | with_reducible apply State.failEarly_kept
    | with_reducible apply State.put_kept
    | with_reducible apply State.doorbell_kept
    | with_reducible apply State.startNext_kept
    | exact rfl
    | exact MbxKept.refl _
    | exact MemKept.mk id id rfl rfl
    | exact updAt_length _ _ _
    | exact List.length_map ..
    | exact List.length_mapIdx ..
    | split
    | extract_lets
    | (with_reducible refine State.Kept.upd ?_ ?_ ?_ ?_ ?_ ?_ ?_)

theorem State.timeoutEvent_kept {st : Step} {seq coll group rank : Nat} (hk : s0.Kept s) : s0.Kept (State.timeoutEvent s st seq coll group rank) := by
  unfold State.timeoutEvent
  repeat' first
    | with_reducible assumption
    | with_reducible apply State.event_kept

theorem State.collTimeout_kept {i seq : Nat} (hk : s0.Kept s) : s0.Kept (State.collTimeout s i seq) := by
  unfold State.collTimeout
  repeat' first
    | with_reducible assumption
    | with_reducible apply State.modStep_kept
    | with_reducible apply State.failStep_kept
    | with_reducible apply State.advanceAll_kept
    | with_reducible apply State.sendClosing_kept
    | with_reducible apply State.timeoutEvent_kept
    | (with_reducible refine State.Kept.foldl _ (fun t a hk => ?_) ?_)
    | exact rfl
    | exact MbxKept.refl _
    | exact MemKept.mk id id rfl rfl
    | exact updAt_length _ _ _
    | exact List.length_map ..
    | exact List.length_mapIdx ..
    | split

theorem State.linkDown_kept {x : LinkLoss} (hk : s0.Kept s) : s0.Kept (State.linkDown s x) := by
  unfold State.linkDown
  repeat' first
    | with_reducible assumption
    | with_reducible apply State.linkLost_kept
    | with_reducible apply State.put_kept
    | (with_reducible refine State.Kept.foldl _ (fun t a hk => ?_) ?_)
    | exact rfl
    | exact MbxKept.refl _
    | exact MemKept.mk id id rfl rfl
    | exact updAt_length _ _ _
    | exact List.length_map ..
    | exact List.length_mapIdx ..
    | split

theorem State.checkEvents_kept {st : Step} {own c : ClosingRec} {status : Nat} (hk : s0.Kept s) : s0.Kept (State.checkEvents s st own c status) := by
  unfold State.checkEvents
  repeat' first
    | with_reducible assumption
    | with_reducible apply State.event_kept
    | split

theorem State.putRecords_kept {r : Run} (hk : s0.Kept s) : s0.Kept (State.putRecords s r) := by
  unfold State.putRecords
  repeat' first
    | with_reducible assumption
    | with_reducible apply State.modSlot_kept
    | with_reducible apply State.sendTelemetry_kept
    | exact rfl
    | exact MbxKept.refl _
    | exact MemKept.mk id id rfl rfl
    | exact updAt_length _ _ _
    | exact List.length_map ..
    | exact List.length_mapIdx ..
    | split

theorem State.rungEvents_kept {st : Step} {next : List (Nat × Nat)} (hk : s0.Kept s) :
    s0.Kept (s.rungEvents st next).1 := by
  unfold State.rungEvents
  generalize List.range next.length = l
  have key : ∀ (a : State × Nat), s0.Kept a.1 → s0.Kept (l.foldl (fun (a : State × Nat) l =>
    let g := st.rung l
    let n := next.getD l (0, 0)
    if n.1 = g.startF ∧ n.2 = g.startG then a
    else (a.1.event st.src 0x0203 [(2, l), (1, g.startF), (1, g.startG), (1, n.1), (1, n.2)], a.2 + 1)) a).1 := by
    induction l with
    | nil => exact fun a h => h
    | cons x l ih =>
      intro a h
      apply ih
      dsimp only
      split
      · exact h
      · exact State.event_kept h
  exact key (s, 0) hk

theorem State.decide'_kept {i : Nat} {r : Run} (hk : s0.Kept s) : s0.Kept (s.decide' i r) := by
  unfold State.decide'
  extract_lets own c halt storm
  split
  apply State.modStep_kept
  refine State.rungEvents_kept ?_
  exact State.Kept.ite (State.modSlot_kept (State.event_kept (State.putRecords_kept (State.checkEvents_kept hk))))
    (State.putRecords_kept (State.checkEvents_kept hk))

theorem State.check_kept (hk : s0.Kept s) : s0.Kept (State.check s) := by
  unfold State.check
  split
  · exact hk
  split
  · exact hk
  · exact State.Kept.ite (State.decide'_kept (State.sendClosing_kept (State.advanceAll_kept hk))) hk

theorem State.onLate_kept {f : State → Nat → Run → State} (hf : ∀ t i r, s0.Kept t → s0.Kept (f t i r)) (hk : s0.Kept s) :
    s0.Kept (s.onLate f) := by
  unfold State.onLate
  split
  · exact hk
  · split
    · exact hf _ _ _ hk
    · exact hk

theorem State.beginUpdate_kept {l : Nat} (hk : s0.Kept s) : s0.Kept (State.beginUpdate s l) := by
  unfold State.beginUpdate
  repeat' first
    | with_reducible assumption
    | with_reducible apply State.modStep_kept
    | (with_reducible refine State.onLate_kept (fun t i r hk => ?_) ?_)
    | exact rfl
    | exact MbxKept.refl _
    | exact MemKept.mk id id rfl rfl
    | exact updAt_length _ _ _
    | exact List.length_map ..
    | exact List.length_mapIdx ..
    | split

theorem State.scrambleLayer_kept {x : Slot} {p : Program} {l : Nat} (hk : s0.Kept s) : s0.Kept (s.scrambleLayer x p l) := by
  unfold State.scrambleLayer
  refine State.Kept.upd hk (MbxKept.refl _) rfl rfl (MemKept.mk (fun h => ?_) id rfl rfl) rfl rfl
  have key : ∀ (l : List (Nat × Nat)) (c : Memory), c.wf = true →
      Memory.wf (l.foldl (fun c q => Memory.scramble c s.freeCtr q.1 q.2) c) = true := by
    intro l
    induction l with
    | nil => exact fun _ h => h
    | cons q l ih => exact fun c h => ih _ (memWrite_wf _ _ h)
  exact key _ _ h

theorem State.failSums_kept {i : Nat} {r : Run} (hk : s0.Kept s) : s0.Kept (State.failSums s i r) := by
  unfold State.failSums
  repeat' first
    | with_reducible assumption
    | with_reducible apply State.withColl_kept
    | (with_reducible refine State.Kept.foldl _ (fun t a hk => ?_) ?_)

theorem State.updateFault_kept {i : Nat} {r : Run} {l stack : Nat} (hk : s0.Kept s) : s0.Kept (State.updateFault s i r l stack) := by
  unfold State.updateFault
  repeat' first
    | with_reducible assumption
    | with_reducible apply State.event_kept
    | with_reducible apply State.modStep_kept
    | with_reducible apply State.modSlot_kept
    | with_reducible apply State.failStep_kept
    | with_reducible apply State.pump_kept
    | with_reducible apply State.advanceAll_kept
    | with_reducible apply State.scrambleLayer_kept
    | with_reducible apply State.failSums_kept
    | exact rfl
    | exact MbxKept.refl _
    | exact MemKept.mk id id rfl rfl
    | exact updAt_length _ _ _
    | exact List.length_map ..
    | exact List.length_mapIdx ..
    | split
    | extract_lets

theorem State.joinSums_kept {i : Nat} {r : Run} {l : Nat} {q : WUpd × Nat} (hk : s0.Kept s) : s0.Kept (State.joinSums s i r l q) := by
  unfold State.joinSums
  repeat' first
    | with_reducible assumption
    | with_reducible apply State.join_kept
    | exact rfl
    | exact MbxKept.refl _
    | exact MemKept.mk id id rfl rfl
    | exact updAt_length _ _ _
    | exact List.length_map ..
    | exact List.length_mapIdx ..
    | split
    | extract_lets

theorem State.nextPass_kept {i : Nat} {r : Run} {l pass : Nat} (hk : s0.Kept s) : s0.Kept (State.nextPass s i r l pass) := by
  unfold State.nextPass
  repeat' first
    | with_reducible assumption
    | with_reducible apply State.modStep_kept
    | with_reducible apply State.runPass_kept
    | with_reducible apply State.pump_kept
    | with_reducible apply State.updateFault_kept
    | with_reducible apply State.joinSums_kept
    | (with_reducible refine State.Kept.foldl _ (fun t a hk => ?_) ?_)
    | exact rfl
    | exact MbxKept.refl _
    | exact MemKept.mk id id rfl rfl
    | exact updAt_length _ _ _
    | exact List.length_map ..
    | exact List.length_mapIdx ..
    | split
    | extract_lets

theorem State.engineReads_kept {r : Run} {l : Nat} {e : PassErr} (hk : s0.Kept s) : s0.Kept (s.engineReads r l e).2 := by
  unfold State.engineReads
  extract_lets runs at'
  split
  have h1 := State.Kept.ofPair (State.readRuns_kept hk) (by assumption)
  split
  · exact State.sramEvent_kept h1
  · exact h1

theorem State.updatePass_kept {l : Nat} {e : PassErr} (hk : s0.Kept s) : s0.Kept (s.updatePass l e) := by
  refine State.onLate_kept (fun t i r ht => ?_) hk
  split
  · exact ht
  split
  · exact ht
  refine State.Kept.ite ht ?_
  split
  · exact State.updateFault_kept (State.Kept.ofPair (State.engineReads_kept ht) (by assumption))
  · have h1 := State.Kept.ofPair (State.engineReads_kept ht) (by assumption)
    split
    · exact State.nextPass_kept h1
    · exact h1

theorem State.sumsTimeout_kept {i seq : Nat} (hk : s0.Kept s) : s0.Kept (State.sumsTimeout s i seq) := by
  unfold State.sumsTimeout
  repeat' first
    | with_reducible assumption
    | with_reducible apply State.modStep_kept
    | with_reducible apply State.timeoutEvent_kept
    | with_reducible apply State.updateFault_kept
    | (with_reducible refine State.Kept.foldl _ (fun t a hk => ?_) ?_)
    | exact rfl
    | exact MbxKept.refl _
    | exact MemKept.mk id id rfl rfl
    | exact updAt_length _ _ _
    | exact List.length_map ..
    | exact List.length_mapIdx ..
    | split
    | extract_lets

theorem State.timeout_kept {seq : Nat} (hk : s0.Kept s) : s0.Kept (State.timeout s seq) := by
  unfold State.timeout
  repeat' first
    | with_reducible assumption
    | with_reducible apply State.collTimeout_kept
    | with_reducible apply State.sumsTimeout_kept
    | exact rfl
    | exact MbxKept.refl _
    | exact MemKept.mk id id rfl rfl
    | exact updAt_length _ _ _
    | exact List.length_map ..
    | exact List.length_mapIdx ..
    | split
    | extract_lets

theorem State.layerCommit_kept {l : Nat} (hk : s0.Kept s) : s0.Kept (State.layerCommit s l) := by
  unfold State.layerCommit
  repeat' first
    | with_reducible assumption
    | with_reducible apply State.modStep_kept
    | with_reducible apply State.modSlot_kept
    | (with_reducible refine State.onLate_kept (fun t i r hk => ?_) ?_)
    | exact rfl
    | exact MbxKept.refl _
    | exact MemKept.mk id id rfl rfl
    | exact updAt_length _ _ _
    | exact List.length_map ..
    | exact List.length_mapIdx ..
    | split

theorem State.applySetT_kept {slot : Nat} (hk : s0.Kept s) : s0.Kept (State.applySetT s slot) := by
  unfold State.applySetT
  repeat' first
    | with_reducible assumption
    | with_reducible apply State.modStep_kept
    | with_reducible apply State.modSlot_kept
    | exact rfl
    | exact MbxKept.refl _
    | exact MemKept.mk id id rfl rfl
    | exact updAt_length _ _ _
    | exact List.length_map ..
    | exact List.length_mapIdx ..
    | split

theorem State.sleepUnused_kept {begun : Bool} (hk : s0.Kept s) : s0.Kept (State.sleepUnused s begun) := by
  unfold State.sleepUnused
  refine State.Kept.ite hk ?_
  extract_lets s1
  have h1 : s0.Kept s1 := by
    refine State.Kept.ite (State.Kept.foldl _ (fun u t hu => ?_) hk) hk
    refine State.Kept.ite ?_ hu
    split
    · exact State.modTower_kept (State.moveEntries_kept hu (by assumption))
    · exact hu
  exact State.Kept.upd h1 (MbxKept.refl _) rfl (List.length_map ..) (MemKept.refl _) rfl rfl

theorem State.commit_kept (hk : s0.Kept s) : s0.Kept (State.commit s) := by
  refine State.onLate_kept (fun t i r ht => State.Kept.ite ht ?_) hk
  exact State.sleepUnused_kept (State.applySetT_kept (State.finishStep_kept (State.modSlot_kept ht)))

theorem State.idle_kept (hk : s0.Kept s) : s0.Kept (State.idle s) := by
  unfold State.idle
  repeat' first
    | with_reducible assumption
    | with_reducible apply State.tick_kept
    | (with_reducible refine State.whenOn_kept (fun t hk => ?_) ?_)
    | with_reducible apply State.advanceAll_kept
    | with_reducible apply State.sendClosing_kept
    | exact rfl
    | exact MbxKept.refl _
    | exact MemKept.mk id id rfl rfl
    | exact updAt_length _ _ _
    | exact List.length_map ..
    | exact List.length_mapIdx ..
    | split

theorem State.refuseRun_kept {x : Cmd} {status : Nat} (hk : s0.Kept s) : s0.Kept (State.refuseRun s x status) := by
  unfold State.refuseRun
  repeat' first
    | with_reducible assumption
    | with_reducible apply State.raise_kept
    | with_reducible apply State.complete_kept
    | exact rfl
    | exact MbxKept.refl _
    | exact MemKept.mk id id rfl rfl
    | exact updAt_length _ _ _
    | exact List.length_map ..
    | exact List.length_mapIdx ..
    | extract_lets
    | (with_reducible refine State.Kept.upd ?_ ?_ ?_ ?_ ?_ ?_ ?_)

theorem State.relocate_kept {n : Nat} {places : List (Nat × Nat × Nat × Nat)} (hk : s0.Kept s) : s0.Kept (State.relocate s n places) := by
  unfold State.relocate
  repeat' first
    | with_reducible assumption
    | with_reducible apply State.modSlot_kept
    | with_reducible apply State.clearMoved_kept
    | with_reducible apply State.writePart_kept
    | (with_reducible refine State.Kept.foldl _ (fun t a hk => ?_) ?_)

theorem State.unbind_kept {n : Nat} (hk : s0.Kept s) : s0.Kept (State.unbind s n) := by
  unfold State.unbind
  repeat' first
    | with_reducible assumption
    | with_reducible apply State.relocate_kept
    | exact rfl
    | exact MbxKept.refl _
    | exact MemKept.mk id id rfl rfl
    | exact updAt_length _ _ _
    | exact List.length_map ..
    | exact List.length_mapIdx ..
    | extract_lets
    | (with_reducible refine State.Kept.upd ?_ ?_ ?_ ?_ ?_ ?_ ?_)

theorem State.returnHits_kept {host : List (Nat × Nat)} (hk : s0.Kept s) : s0.Kept (State.returnHits s host) := by
  unfold State.returnHits
  repeat' first
    | with_reducible assumption
    | with_reducible apply State.modSlot_kept
    | with_reducible apply State.unbind_kept
    | (with_reducible refine State.Kept.foldl _ (fun t a hk => ?_) ?_)

theorem State.clearHost_kept (hk : s0.Kept s) : s0.Kept (State.clearHost s) := by
  unfold State.clearHost
  repeat' first
    | with_reducible assumption
    | with_reducible apply State.returnHits_kept
    | (with_reducible refine State.Kept.foldl _ (fun t a hk => ?_) ?_)
    | exact rfl
    | exact MbxKept.refl _
    | exact MemKept.mk id id rfl rfl
    | exact updAt_length _ _ _
    | exact List.length_map ..
    | exact List.length_mapIdx ..
    | split

theorem State.bindAffinity_kept {n : Nat} {p : Program} {mbs : List MicroBatch} (hk : s0.Kept s) :
    s0.Kept (State.bindAffinity s n p mbs) := by
  unfold State.bindAffinity
  extract_lets host s1 s2 moves l
  have h1 : s0.Kept s1 := State.returnHits_kept hk
  refine State.Kept.ite h1 ?_
  have h2 : s0.Kept s2 := State.modSlot_kept (State.unbind_kept h1)
  clear_value s2
  split
  · exact h2
  · refine State.Kept.ite h2 (State.relocate_kept ?_)
    exact State.Kept.upd h2 (MbxKept.refl _) rfl rfl (MemKept.mk id id rfl rfl) rfl rfl

theorem State.startCadence_kept {i : Nat} (hk : s0.Kept s) : s0.Kept (State.startCadence s i) := by
  unfold State.startCadence
  repeat' first
    | with_reducible assumption
    | with_reducible apply State.modStep_kept
    | with_reducible apply State.sendBeacon_kept
    | with_reducible apply State.startRamp_kept
    | with_reducible apply State.refuseBarrier_kept
    | with_reducible apply State.cadenceCheck_kept
    | exact rfl
    | exact MbxKept.refl _
    | exact MemKept.mk id id rfl rfl
    | exact updAt_length _ _ _
    | exact List.length_map ..
    | exact List.length_mapIdx ..
    | split
    | extract_lets
    | (with_reducible refine State.Kept.upd ?_ ?_ ?_ ?_ ?_ ?_ ?_)

theorem State.wake_kept {cells : List MarchBit} (hk : s0.Kept s) : s0.Kept (State.wake s cells) := by
  unfold State.wake
  repeat' first
    | with_reducible assumption
    | with_reducible apply State.readmit_kept
    | with_reducible apply State.readmitEvent_kept
    | (with_reducible refine State.Kept.foldl _ (fun t a hk => ?_) ?_)
    | split

theorem cmdRunStep_kept {x : Cmd} (hk : s0.Kept s) : s0.Kept (cmdRunStep x s) := by
  unfold cmdRunStep
  split
  · exact State.refuseRun_kept hk
  · extract_lets st n late s1 s2 src s3
    have h1 : s0.Kept s1 := State.wake_kept (State.Kept.ite hk (State.bindAffinity_kept hk))
    have h2 : s0.Kept s2 := State.modSlot_kept h1
    clear_value s2
    exact State.startCadence_kept (State.Kept.upd h2 (MbxKept.refl _) rfl rfl (MemKept.refl _) rfl rfl)

theorem State.bindLate_kept {p : Step} (hk : s0.Kept s) : s0.Kept (State.bindLate s p) := by
  unfold State.bindLate
  split
  · exact State.Kept.ite (State.bindAffinity_kept hk) hk
  · exact hk

theorem State.beginForward_kept {i : Nat} {p : Step} (hk : s0.Kept s) : s0.Kept (State.beginForward s i p) := by
  unfold State.beginForward
  extract_lets s1 s2 s3
  have h2 : s0.Kept s2 := State.modStep_kept (State.bindLate_kept hk)
  exact State.tryForward_kept (State.Kept.foldl _ (fun t a ht => State.event_kept ht) h2)

theorem State.stepBarrier_kept (hk : s0.Kept s) : s0.Kept (State.stepBarrier s) := by
  unfold State.stepBarrier
  repeat' first
    | with_reducible assumption
    | with_reducible apply State.beginForward_kept
    | exact rfl
    | exact MbxKept.refl _
    | exact MemKept.mk id id rfl rfl
    | exact updAt_length _ _ _
    | exact List.length_map ..
    | exact List.length_mapIdx ..
    | split

theorem State.barrierTimeout_kept (hk : s0.Kept s) : s0.Kept (State.barrierTimeout s) := by
  unfold State.barrierTimeout
  repeat' first
    | with_reducible assumption
    | with_reducible apply State.refuseBarrier_kept
    | exact rfl
    | exact MbxKept.refl _
    | exact MemKept.mk id id rfl rfl
    | exact updAt_length _ _ _
    | exact List.length_map ..
    | exact List.length_mapIdx ..
    | split

theorem State.turnAway_kept {q : Ask} {status : Nat} (hk : s0.Kept s) : s0.Kept (State.turnAway s q status) := by
  unfold State.turnAway
  repeat' first
    | with_reducible assumption
    | with_reducible apply State.complete_kept
    | with_reducible apply State.refuse_kept
    | with_reducible apply State.ledgerEnd_kept
    | with_reducible apply State.refuseRun_kept
    | exact rfl
    | exact MbxKept.refl _
    | exact MemKept.mk id id rfl rfl
    | exact updAt_length _ _ _
    | exact List.length_map ..
    | exact List.length_mapIdx ..
    | split

theorem State.romBody_kept {q : Ask} (hk : s0.Kept s) : s0.Kept (State.romBody q s) := by
  unfold State.romBody
  extract_lets x
  split
  · exact cmdIdentify_kept hk
  · exact cmdGetCaps_kept hk
  · exact cmdReadLog_kept hk
  · exact cmdSetTopology_kept hk
  · exact cmdSetCadence_kept hk
  · exact cmdSetPowerCap_kept hk
  · exact cmdLoadPlan_kept hk
  · exact cmdLoadCoeff_kept hk
  · exact cmdLoadTrackers_kept hk
  · exact cmdSaveTrackers_kept hk
  · exact cmdPlaceHint_kept hk
  · exact State.clearHost_kept (cmdLoadProgram_kept hk)
  · exact cmdRunStep_kept hk
  · exact cmdSetStepSize_kept hk
  · exact cmdAbortStep_kept hk
  · exact cmdRetirePage_kept hk
  · exact cmdRetireBank_kept hk
  · exact cmdScrubCtrl_kept hk
  · exact cmdMarchTest_kept hk
  · exact cmdBelfryStatus_kept hk
  · exact cmdClearDivergence_kept hk
  · exact cmdAttest_kept hk
  · exact cmdLifecycleAdvance_kept hk
  · exact cmdFuseLedger_kept hk
  · exact cmdLoadExtension_kept hk
  · exact cmdResetUnit_kept hk
  · exact cmdUnitStatus_kept hk
  · exact hk

theorem State.runRom_kept {q : Ask} (hk : s0.Kept s) : s0.Kept (State.runRom s q) := by
  unfold State.runRom
  repeat' first
    | with_reducible assumption
    | with_reducible apply State.romBody_kept
    | exact rfl
    | exact MbxKept.refl _
    | exact MemKept.mk id id rfl rfl
    | exact updAt_length _ _ _
    | exact List.length_map ..
    | exact List.length_mapIdx ..
    | extract_lets
    | (with_reducible refine State.Kept.upd ?_ ?_ ?_ ?_ ?_ ?_ ?_)

theorem State.addJob_kept {q : Ask} (hk : s0.Kept s) : s0.Kept (State.addJob s q) := by
  unfold State.addJob
  repeat' first
    | with_reducible assumption
    | with_reducible apply State.marchSleep_kept
    | exact rfl
    | exact MbxKept.refl _
    | exact MemKept.mk id id rfl rfl
    | exact updAt_length _ _ _
    | exact List.length_map ..
    | exact List.length_mapIdx ..
    | split
    | extract_lets
    | (with_reducible refine State.Kept.upd ?_ ?_ ?_ ?_ ?_ ?_ ?_)

theorem State.beginWrite_kept {q : Ask} (hk : s0.Kept s) : s0.Kept (State.beginWrite s q) := by
  unfold State.beginWrite
  repeat' first
    | with_reducible assumption
    | with_reducible apply State.refuse_kept
    | with_reducible apply State.ledgerEnd_kept
    | with_reducible apply fuseJudge_kept
    | (with_reducible refine State.Kept.ofPair ?_ (by assumption))
    | exact rfl
    | exact MbxKept.refl _
    | exact MemKept.mk id id rfl rfl
    | exact updAt_length _ _ _
    | exact List.length_map ..
    | exact List.length_mapIdx ..
    | split
    | extract_lets
    | (with_reducible refine State.Kept.upd ?_ ?_ ?_ ?_ ?_ ?_ ?_)

theorem State.endOne_kept {j : Ask × Bool} (hk : s0.Kept s) : s0.Kept (State.endOne s j) := by
  unfold State.endOne
  repeat' first
    | with_reducible assumption
    | with_reducible apply State.endWrite_kept
    | with_reducible apply State.turnAway_kept
    | with_reducible apply State.runRom_kept
    | exact rfl
    | exact MbxKept.refl _
    | exact MemKept.mk id id rfl rfl
    | exact updAt_length _ _ _
    | exact List.length_map ..
    | exact List.length_mapIdx ..
    | split

theorem State.endJob_kept {k : Nat} (hk : s0.Kept s) : s0.Kept (State.endJob s k) := by
  unfold State.endJob
  repeat' first
    | with_reducible assumption
    | with_reducible apply State.endOne_kept
    | exact rfl
    | exact MbxKept.refl _
    | exact MemKept.mk id id rfl rfl
    | exact updAt_length _ _ _
    | exact List.length_map ..
    | exact List.length_mapIdx ..
    | split
    | (with_reducible refine State.Kept.upd ?_ ?_ ?_ ?_ ?_ ?_ ?_)

theorem State.endAny_kept (hk : s0.Kept s) : s0.Kept (State.endAny s) := by
  unfold State.endAny
  repeat' first
    | with_reducible assumption
    | with_reducible apply State.free_kept
    | with_reducible apply State.endJob_kept
    | (with_reducible refine State.Kept.ofPair ?_ (by assumption))
    | exact rfl
    | exact MbxKept.refl _
    | exact MemKept.mk id id rfl rfl
    | exact updAt_length _ _ _
    | exact List.length_map ..
    | exact List.length_mapIdx ..
    | split

theorem State.enter_kept {q : Ask} (hk : s0.Kept s) : s0.Kept (State.enter s q) := by
  unfold State.enter
  repeat' first
    | with_reducible assumption
    | with_reducible apply State.runRom_kept
    | with_reducible apply State.addJob_kept
    | with_reducible apply State.beginWrite_kept
    | exact rfl
    | exact MbxKept.refl _
    | exact MemKept.mk id id rfl rfl
    | exact updAt_length _ _ _
    | exact List.length_map ..
    | exact List.length_mapIdx ..
    | split

theorem State.endReady_kept {n : Nat} (hk : s0.Kept s) : s0.Kept (State.endReady n s) := by
  induction n generalizing s with
  | zero => exact hk
  | succ n ih =>
    unfold State.endReady
    split
    · exact hk
    · exact ih (State.endJob_kept hk)

theorem State.takeRom_kept {q : Ask} (hk : s0.Kept s) : s0.Kept (State.takeRom s q) := by
  unfold State.takeRom
  split
  · exact State.turnAway_kept hk
  refine State.Kept.ite (State.enter_kept hk) ?_
  extract_lets s1
  have h1 : s0.Kept s1 := State.endReady_kept hk
  clear_value s1
  refine State.Kept.ite h1 ?_
  split
  · exact State.turnAway_kept h1
  · exact State.enter_kept h1

theorem State.busFail_kept {q : Ask} (hk : s0.Kept s) : s0.Kept (State.busFail s q) := by
  unfold State.busFail
  repeat' first
    | with_reducible assumption
    | with_reducible apply State.turnAway_kept

theorem State.scrambleStep_kept {i : Nat} (hk : s0.Kept s) : s0.Kept (State.scrambleStep s i) := by
  unfold State.scrambleStep
  repeat' first
    | with_reducible assumption
    | with_reducible apply State.scrambleLayer_kept
    | (with_reducible refine State.Kept.foldl _ (fun t a hk => ?_) ?_)
    | exact rfl
    | exact MbxKept.refl _
    | exact MemKept.mk id id rfl rfl
    | exact updAt_length _ _ _
    | exact List.length_map ..
    | exact List.length_mapIdx ..
    | split

theorem State.dropSteps_kept (hk : s0.Kept s) : s0.Kept (State.dropSteps s) := by
  unfold State.dropSteps
  repeat' first
    | with_reducible assumption
    | with_reducible apply State.dropItems_kept
    | with_reducible apply State.scrambleStep_kept
    | (with_reducible refine State.Kept.foldl _ (fun t a hk => ?_) ?_)
    | exact rfl
    | exact MbxKept.refl _
    | exact MemKept.mk id id rfl rfl
    | exact updAt_length _ _ _
    | exact List.length_map ..
    | exact List.length_mapIdx ..
    | extract_lets
    | (with_reducible refine State.Kept.upd ?_ ?_ ?_ ?_ ?_ ?_ ?_)

theorem State.stopMarch_kept {q : Ask} (hk : s0.Kept s) : s0.Kept (State.stopMarch s q) := by
  unfold State.stopMarch
  repeat' first
    | with_reducible assumption
    | with_reducible apply State.scrambleBank_kept
    | split
    | extract_lets

theorem State.stopMarches_kept (hk : s0.Kept s) : s0.Kept (State.stopMarches s) := by
  unfold State.stopMarches
  repeat' first
    | with_reducible assumption
    | with_reducible apply State.stopMarch_kept
    | (with_reducible refine State.Kept.foldl _ (fun t a hk => ?_) ?_)

theorem State.flrClear_kept (hk : s0.Kept s) : s0.Kept (State.flrClear s) := by
  unfold State.flrClear
  extract_lets s1
  have h1 : s0.Kept s1 := State.dropSteps_kept (State.stopMarches_kept hk)
  clear_value s1
  refine State.releaseGroups_kept ⟨h1.pending, h1.fuses, fun h => ?_⟩
  obtain ⟨⟨c1, c2, -⟩, -, -, l3, l4, l5, l6, -⟩ := h1.inv h
  refine ⟨⟨c1, c2, fun m hm => ?_⟩, List.length_replicate, List.length_replicate, ?_, l4, l5, ?_, List.length_replicate⟩
  · rw [List.eq_of_mem_replicate hm]; rfl
  · exact (List.length_map ..).trans l3
  · exact (List.length_map ..).trans l6

theorem State.flr_kept (hk : s0.Kept s) : s0.Kept (State.flr s) := by
  unfold State.flr
  repeat' first
    | with_reducible assumption
    | with_reducible apply State.endBegun_kept
    | with_reducible apply State.flrClear_kept
    | split
    | extract_lets

theorem State.engineSram_kept {k : Nat} (hk : s0.Kept s) : s0.Kept (State.engineSram s k) := by
  unfold State.engineSram
  repeat' first
    | with_reducible assumption
    | (with_reducible refine State.onLate_kept (fun t i r hk => ?_) ?_)
    | with_reducible apply State.updateFault_kept
    | exact rfl
    | exact MbxKept.refl _
    | exact MemKept.mk id id rfl rfl
    | exact updAt_length _ _ _
    | exact List.length_map ..
    | exact List.length_mapIdx ..
    | split

theorem State.stepBus_kept {i : Nat} (hk : s0.Kept s) : s0.Kept (State.stepBus s i) := by
  unfold State.stepBus
  repeat' first
    | with_reducible assumption
    | with_reducible apply State.modStep_kept
    | with_reducible apply State.failStep_kept
    | exact rfl
    | exact MbxKept.refl _
    | exact MemKept.mk id id rfl rfl
    | exact updAt_length _ _ _
    | exact List.length_map ..
    | exact List.length_mapIdx ..
    | split

theorem State.jobBus_kept {j : Ask × Bool} (hk : s0.Kept s) : s0.Kept (State.jobBus s j) := by
  unfold State.jobBus
  repeat' first
    | with_reducible assumption
    | with_reducible apply State.busFail_kept
    | with_reducible apply State.stopMarch_kept
    | exact rfl
    | exact MbxKept.refl _
    | exact MemKept.mk id id rfl rfl
    | exact updAt_length _ _ _
    | exact List.length_map ..
    | exact List.length_mapIdx ..
    | split
    | (with_reducible refine State.Kept.upd ?_ ?_ ?_ ?_ ?_ ?_ ?_)

theorem State.lateBus_kept {n : Nat} (hk : s0.Kept s) : s0.Kept (State.lateBus s n) := by
  unfold State.lateBus
  repeat' first
    | with_reducible assumption
    | exact rfl
    | exact MbxKept.refl _
    | exact MemKept.mk id id rfl rfl
    | exact updAt_length _ _ _
    | exact List.length_map ..
    | exact List.length_mapIdx ..
    | split
    | (with_reducible refine State.Kept.upd ?_ ?_ ?_ ?_ ?_ ?_ ?_)

theorem State.hostSram_kept {n : Nat} (hk : s0.Kept s) : s0.Kept (State.hostSram s n) := by
  unfold State.hostSram
  repeat' first
    | with_reducible assumption
    | with_reducible apply State.busFail_kept
    | with_reducible apply State.stepBus_kept
    | with_reducible apply State.jobBus_kept
    | with_reducible apply State.lateBus_kept
    | exact rfl
    | exact MbxKept.refl _
    | exact MemKept.mk id id rfl rfl
    | exact updAt_length _ _ _
    | exact List.length_map ..
    | exact List.length_mapIdx ..
    | split
    | extract_lets
    | (with_reducible refine State.Kept.upd ?_ ?_ ?_ ?_ ?_ ?_ ?_)

theorem State.berylHalt_kept (hk : s0.Kept s) : s0.Kept (State.berylHalt s) := by
  unfold State.berylHalt
  repeat' first
    | with_reducible assumption
    | with_reducible apply State.deliver_kept
    | with_reducible apply State.finishStep_kept
    | with_reducible apply State.busFail_kept
    | with_reducible apply State.scrambleStep_kept
    | with_reducible apply State.stopMarches_kept
    | (with_reducible refine State.Kept.foldl _ (fun t a hk => ?_) ?_)
    | exact rfl
    | exact MbxKept.refl _
    | exact MemKept.mk id id rfl rfl
    | exact updAt_length _ _ _
    | exact List.length_map ..
    | exact List.length_mapIdx ..
    | split
    | extract_lets
    | (with_reducible refine State.Kept.upd ?_ ?_ ?_ ?_ ?_ ?_ ?_)

theorem State.stopBeryl_kept (hk : s0.Kept s) : s0.Kept (State.stopBeryl s) := by
  unfold State.stopBeryl
  repeat' first
    | with_reducible assumption
    | with_reducible apply State.endBegun_kept
    | with_reducible apply State.berylHalt_kept
    | split
    | extract_lets

theorem State.scrubFound_kept {place : SramPlace} {bank word : Nat} (hk : s0.Kept s) : s0.Kept (State.scrubFound s place bank word) := by
  unfold State.scrubFound
  repeat' first
    | with_reducible assumption
    | with_reducible apply State.sramEvent_kept
    | with_reducible apply State.failEarly_kept
    | with_reducible apply State.towerWord_kept
    | with_reducible apply State.engineSram_kept
    | with_reducible apply State.hostSram_kept
    | with_reducible apply State.stopBeryl_kept
    | exact rfl
    | exact MbxKept.refl _
    | exact MemKept.mk id id rfl rfl
    | exact updAt_length _ _ _
    | exact List.length_map ..
    | exact List.length_mapIdx ..
    | split
    | extract_lets
    | (with_reducible refine State.Kept.upd ?_ ?_ ?_ ?_ ?_ ?_ ?_)

theorem State.sramScrub_kept {place : SramPlace} {bank word : Nat} {flips : List Nat} (hk : s0.Kept s) : s0.Kept (State.sramScrub s place bank word flips) := by
  unfold State.sramScrub
  repeat' first
    | with_reducible assumption
    | with_reducible apply State.scrubFound_kept
    | exact rfl
    | exact MbxKept.refl _
    | exact MemKept.mk id id rfl rfl
    | exact updAt_length _ _ _
    | exact List.length_map ..
    | exact List.length_mapIdx ..
    | split
    | (with_reducible refine State.Kept.upd ?_ ?_ ?_ ?_ ?_ ?_ ?_)

end Sys2Proof.Machine
end

