-- ==== Sys2Proof/Laws/KeptTake.lean ====
section
/-!
SUPPORT. What the path of a mailbox command, extension commands, register writes and the end of a start-up phase keep.
-/

set_option Elab.async false
namespace Sys2Proof.Machine

open Sys2Proof

variable {s0 s : State}

theorem State.endExt_kept {n status : Nat} {data : List Byte} {unload : Bool} (hk : s0.Kept s) : s0.Kept (State.endExt s n status data unload) := by
  unfold State.endExt
  repeat' first
    | with_reducible assumption
    | with_reducible apply State.complete_kept
    | with_reducible apply State.take_kept
    | exact rfl
    | exact MbxKept.refl _
    | exact MemKept.mk id id rfl rfl
    | exact updAt_length _ _ _
    | exact List.length_map ..
    | exact List.length_mapIdx ..
    | split
    | extract_lets
    | (with_reducible refine State.Kept.upd ?_ ?_ ?_ ?_ ?_ ?_ ?_)

theorem State.runActs_kept {n : Nat} {l : List ExtAct} (hk : s0.Kept s) : s0.Kept (State.runActs n l s) := by
  induction l generalizing s with
  | nil => exact hk
  | cons a l ih =>
    unfold State.runActs
    refine State.Kept.ite hk ?_
    extract_lets bad
    have hb : s0.Kept bad := State.endExt_kept hk
    split
    · exact State.Kept.ite (ih (State.readDev_kept hk)) hb
    · exact State.Kept.ite (ih (State.writeIo_kept hk)) hb
    · exact State.Kept.ite (ih (State.readWord_kept hk)) hb
    · exact State.Kept.ite (ih hk) (ih (State.takeRom_kept hk))
    · exact hb
    · exact State.endExt_kept hk

theorem State.runExt_kept {q : Ask} (hk : s0.Kept s) : s0.Kept (State.runExt s q) := by
  unfold State.runExt
  extract_lets src srm t
  have h1 : s0.Kept t := State.runActs_kept (State.Kept.upd hk (MbxKept.refl _) rfl rfl (MemKept.mk id id rfl rfl) rfl rfl)
  clear_value t
  exact State.Kept.upd h1 (MbxKept.refl _) rfl rfl (MemKept.mk id id rfl rfl) rfl rfl

theorem State.take_kept {n : Nat} {env : Env} (hk : s0.Kept s) : s0.Kept (State.take s n env) := by
  unfold State.take
  repeat' first
    | with_reducible assumption
    | with_reducible apply State.sramEvent_kept
    | with_reducible apply State.turnAway_kept
    | with_reducible apply State.takeRom_kept
    | with_reducible apply State.busFail_kept
    | with_reducible apply State.runExt_kept
    | exact rfl
    | exact MbxKept.refl _
    | exact MemKept.mk id id rfl rfl
    | exact updAt_length _ _ _
    | exact List.length_map ..
    | exact List.length_mapIdx ..
    | split
    | extract_lets

theorem State.go_kept {n : Nat} {env : Env} (hk : s0.Kept s) : s0.Kept (State.go s n env) := by
  unfold State.go
  repeat' first
    | with_reducible assumption
    | with_reducible apply State.busFail_kept
    | with_reducible apply State.take_kept
    | exact rfl
    | exact MbxKept.refl _
    | exact MemKept.mk id id rfl rfl
    | exact updAt_length _ _ _
    | exact List.length_map ..
    | exact List.length_mapIdx ..
    | exact MbxKept.modify _ fun _ hx => hx
    | split
    | extract_lets
    | (with_reducible refine State.Kept.upd ?_ ?_ ?_ ?_ ?_ ?_ ?_)

theorem State.submit_kept {c : Sub} {op : Nat} (hk : s0.Kept s) : s0.Kept (State.submit s c op) := by
  unfold State.submit
  repeat' first
    | with_reducible assumption
    | with_reducible apply State.take_kept
    | with_reducible apply State.go_kept
    | exact rfl
    | exact MbxKept.refl _
    | exact MemKept.mk id id rfl rfl
    | exact updAt_length _ _ _
    | exact List.length_map ..
    | exact List.length_mapIdx ..
    | exact MbxKept.modify _ fun _ hx => hx
    | exact MbxKept.modify _ fun _ hx => memWrite_wf _ _ hx
    | split
    | extract_lets
    | (with_reducible refine State.Kept.upd ?_ ?_ ?_ ?_ ?_ ?_ ?_)

theorem State.command_kept {c : Sub} {op : Nat} (hk : s0.Kept s) : s0.Kept (State.command s c op) := by
  unfold State.command
  repeat' first
    | with_reducible assumption
    | (with_reducible refine State.whenIo_kept (fun t hk => ?_) ?_)
    | with_reducible apply State.submit_kept

theorem State.wordWrite_kept {addr : Nat} {value : Word} {be : Nat} {env : Env} (hk : s0.Kept s) : s0.Kept (State.wordWrite s addr value be env) := by
  unfold State.wordWrite
  repeat' first
    | with_reducible assumption
    | with_reducible apply State.hostStore_kept
    | with_reducible apply State.go_kept
    | exact rfl
    | exact MbxKept.refl _
    | exact MemKept.mk id id rfl rfl
    | exact updAt_length _ _ _
    | exact List.length_map ..
    | exact List.length_mapIdx ..
    | split

theorem State.registerWrite_kept {addr : Nat} {value : WData} {be : Nat} {env : Env} (hk : s0.Kept s) : s0.Kept (State.registerWrite s addr value be env) := by
  unfold State.registerWrite
  repeat' first
    | with_reducible assumption
    | with_reducible apply State.wordWrite_kept
    | exact rfl
    | exact MbxKept.refl _
    | exact MemKept.mk id id rfl rfl
    | exact updAt_length _ _ _
    | exact List.length_map ..
    | exact List.length_mapIdx ..
    | split

theorem State.drain_kept {l : List Nat} {es : List Env} (hk : s0.Kept s) : s0.Kept (State.drain l es s) := by
  induction l generalizing s es with
  | nil => exact hk
  | cons n l ih =>
    unfold State.drain
    exact ih (State.Kept.ite (State.take_kept hk) hk)

theorem State.phaseEnd_kept {r : PhaseReport} (hk : s0.Kept s) : s0.Kept (State.phaseEnd s r) := by
  unfold State.phaseEnd
  repeat' first
    | with_reducible assumption
    | with_reducible apply State.haltStartup_kept
    | with_reducible apply State.endPhase1_kept
    | with_reducible apply State.endPhase2_kept
    | with_reducible apply State.endPhase3_kept
    | with_reducible apply State.endPhase4_kept
    | with_reducible apply State.endPhase5_kept
    | with_reducible apply State.becomeReady_kept
    | with_reducible apply State.drain_kept
    | exact rfl
    | exact MbxKept.refl _
    | exact MemKept.mk id id rfl rfl
    | exact updAt_length _ _ _
    | exact List.length_map ..
    | exact List.length_mapIdx ..
    | split
    | extract_lets
    | (with_reducible refine State.Kept.upd ?_ ?_ ?_ ?_ ?_ ?_ ?_)

theorem State.onIdle_kept (hk : s0.Kept s) : s0.Kept (State.onIdle s) := by
  unfold State.onIdle
  repeat' first
    | with_reducible assumption
    | with_reducible apply State.idle_kept
    | with_reducible apply State.endAny_kept

end Sys2Proof.Machine
end

