-- ==== Sys2Proof/Laws/State.lean ====
section
/-!
SUPPORT. What each plain update of the state leaves in each field, so that no proof unfolds a record update.
-/

set_option Elab.async false
namespace Sys2Proof.Machine

open Sys2Proof

variable (s : State)

/-! ### `modTower` -/

@[simp] theorem State.modTower_pending (n : Nat) (f : Tower → Tower) : (s.modTower n f).pending = s.pending := rfl
@[simp] theorem State.modTower_power (n : Nat) (f : Tower → Tower) : (s.modTower n f).power = s.power := rfl
@[simp] theorem State.modTower_fuses (n : Nat) (f : Tower → Tower) : (s.modTower n f).fuses = s.fuses := rfl
@[simp] theorem State.modTower_keep (n : Nat) (f : Tower → Tower) : (s.modTower n f).keep = s.keep := rfl
@[simp] theorem State.modTower_mailboxes (n : Nat) (f : Tower → Tower) : (s.modTower n f).mailboxes = s.mailboxes := rfl
@[simp] theorem State.modTower_goOrder (n : Nat) (f : Tower → Tower) : (s.modTower n f).goOrder = s.goOrder := rfl
@[simp] theorem State.modTower_jobs (n : Nat) (f : Tower → Tower) : (s.modTower n f).jobs = s.jobs := rfl
@[simp] theorem State.modTower_late (n : Nat) (f : Tower → Tower) : (s.modTower n f).late = s.late := rfl
@[simp] theorem State.modTower_ints (n : Nat) (f : Tower → Tower) : (s.modTower n f).ints = s.ints := rfl
@[simp] theorem State.modTower_evt (n : Nat) (f : Tower → Tower) : (s.modTower n f).evt = s.evt := rfl
@[simp] theorem State.modTower_belfry (n : Nat) (f : Tower → Tower) : (s.modTower n f).belfry = s.belfry := rfl
@[simp] theorem State.modTower_measure (n : Nat) (f : Tower → Tower) : (s.modTower n f).measure = s.measure := rfl
@[simp] theorem State.modTower_thermal (n : Nat) (f : Tower → Tower) : (s.modTower n f).thermal = s.thermal := rfl
@[simp] theorem State.modTower_towers (n : Nat) (f : Tower → Tower) : (s.modTower n f).towers = updAt s.towers n f := rfl
@[simp] theorem State.modTower_domeEpoch (n : Nat) (f : Tower → Tower) : (s.modTower n f).domeEpoch = s.domeEpoch := rfl
@[simp] theorem State.modTower_mem (n : Nat) (f : Tower → Tower) : (s.modTower n f).mem = s.mem := rfl
@[simp] theorem State.modTower_fabric (n : Nat) (f : Tower → Tower) : (s.modTower n f).fabric = s.fabric := rfl
@[simp] theorem State.modTower_slots (n : Nat) (f : Tower → Tower) : (s.modTower n f).slots = s.slots := rfl
@[simp] theorem State.modTower_steps (n : Nat) (f : Tower → Tower) : (s.modTower n f).steps = s.steps := rfl
@[simp] theorem State.modTower_window (n : Nat) (f : Tower → Tower) : (s.modTower n f).window = s.window := rfl
@[simp] theorem State.modTower_ext (n : Nat) (f : Tower → Tower) : (s.modTower n f).ext = s.ext := rfl
@[simp] theorem State.modTower_out (n : Nat) (f : Tower → Tower) : (s.modTower n f).out = s.out := rfl
@[simp] theorem State.modTower_freeCtr (n : Nat) (f : Tower → Tower) : (s.modTower n f).freeCtr = s.freeCtr := rfl

/-! ### `modStep` -/

@[simp] theorem State.modStep_pending (i : Nat) (f : Step → Step) : (s.modStep i f).pending = s.pending := rfl
@[simp] theorem State.modStep_power (i : Nat) (f : Step → Step) : (s.modStep i f).power = s.power := rfl
@[simp] theorem State.modStep_fuses (i : Nat) (f : Step → Step) : (s.modStep i f).fuses = s.fuses := rfl
@[simp] theorem State.modStep_keep (i : Nat) (f : Step → Step) : (s.modStep i f).keep = s.keep := rfl
@[simp] theorem State.modStep_mailboxes (i : Nat) (f : Step → Step) : (s.modStep i f).mailboxes = s.mailboxes := rfl
@[simp] theorem State.modStep_goOrder (i : Nat) (f : Step → Step) : (s.modStep i f).goOrder = s.goOrder := rfl
@[simp] theorem State.modStep_jobs (i : Nat) (f : Step → Step) : (s.modStep i f).jobs = s.jobs := rfl
@[simp] theorem State.modStep_late (i : Nat) (f : Step → Step) : (s.modStep i f).late = s.late := rfl
@[simp] theorem State.modStep_ints (i : Nat) (f : Step → Step) : (s.modStep i f).ints = s.ints := rfl
@[simp] theorem State.modStep_evt (i : Nat) (f : Step → Step) : (s.modStep i f).evt = s.evt := rfl
@[simp] theorem State.modStep_belfry (i : Nat) (f : Step → Step) : (s.modStep i f).belfry = s.belfry := rfl
@[simp] theorem State.modStep_measure (i : Nat) (f : Step → Step) : (s.modStep i f).measure = s.measure := rfl
@[simp] theorem State.modStep_thermal (i : Nat) (f : Step → Step) : (s.modStep i f).thermal = s.thermal := rfl
@[simp] theorem State.modStep_towers (i : Nat) (f : Step → Step) : (s.modStep i f).towers = s.towers := rfl
@[simp] theorem State.modStep_domeEpoch (i : Nat) (f : Step → Step) : (s.modStep i f).domeEpoch = s.domeEpoch := rfl
@[simp] theorem State.modStep_mem (i : Nat) (f : Step → Step) : (s.modStep i f).mem = s.mem := rfl
@[simp] theorem State.modStep_fabric (i : Nat) (f : Step → Step) : (s.modStep i f).fabric = s.fabric := rfl
@[simp] theorem State.modStep_slots (i : Nat) (f : Step → Step) : (s.modStep i f).slots = s.slots := rfl
@[simp] theorem State.modStep_steps (i : Nat) (f : Step → Step) : (s.modStep i f).steps = updAt s.steps i f := rfl
@[simp] theorem State.modStep_window (i : Nat) (f : Step → Step) : (s.modStep i f).window = s.window := rfl
@[simp] theorem State.modStep_ext (i : Nat) (f : Step → Step) : (s.modStep i f).ext = s.ext := rfl
@[simp] theorem State.modStep_out (i : Nat) (f : Step → Step) : (s.modStep i f).out = s.out := rfl
@[simp] theorem State.modStep_freeCtr (i : Nat) (f : Step → Step) : (s.modStep i f).freeCtr = s.freeCtr := rfl

/-! ### `modSlot` -/

@[simp] theorem State.modSlot_pending (n : Nat) (f : Slot → Slot) : (s.modSlot n f).pending = s.pending := rfl
@[simp] theorem State.modSlot_power (n : Nat) (f : Slot → Slot) : (s.modSlot n f).power = s.power := rfl
@[simp] theorem State.modSlot_fuses (n : Nat) (f : Slot → Slot) : (s.modSlot n f).fuses = s.fuses := rfl
@[simp] theorem State.modSlot_keep (n : Nat) (f : Slot → Slot) : (s.modSlot n f).keep = s.keep := rfl
@[simp] theorem State.modSlot_mailboxes (n : Nat) (f : Slot → Slot) : (s.modSlot n f).mailboxes = s.mailboxes := rfl
@[simp] theorem State.modSlot_goOrder (n : Nat) (f : Slot → Slot) : (s.modSlot n f).goOrder = s.goOrder := rfl
@[simp] theorem State.modSlot_jobs (n : Nat) (f : Slot → Slot) : (s.modSlot n f).jobs = s.jobs := rfl
@[simp] theorem State.modSlot_late (n : Nat) (f : Slot → Slot) : (s.modSlot n f).late = s.late := rfl
@[simp] theorem State.modSlot_ints (n : Nat) (f : Slot → Slot) : (s.modSlot n f).ints = s.ints := rfl
@[simp] theorem State.modSlot_evt (n : Nat) (f : Slot → Slot) : (s.modSlot n f).evt = s.evt := rfl
@[simp] theorem State.modSlot_belfry (n : Nat) (f : Slot → Slot) : (s.modSlot n f).belfry = s.belfry := rfl
@[simp] theorem State.modSlot_measure (n : Nat) (f : Slot → Slot) : (s.modSlot n f).measure = s.measure := rfl
@[simp] theorem State.modSlot_thermal (n : Nat) (f : Slot → Slot) : (s.modSlot n f).thermal = s.thermal := rfl
@[simp] theorem State.modSlot_towers (n : Nat) (f : Slot → Slot) : (s.modSlot n f).towers = s.towers := rfl
@[simp] theorem State.modSlot_domeEpoch (n : Nat) (f : Slot → Slot) : (s.modSlot n f).domeEpoch = s.domeEpoch := rfl
@[simp] theorem State.modSlot_mem (n : Nat) (f : Slot → Slot) : (s.modSlot n f).mem = s.mem := rfl
@[simp] theorem State.modSlot_fabric (n : Nat) (f : Slot → Slot) : (s.modSlot n f).fabric = s.fabric := rfl
@[simp] theorem State.modSlot_slots (n : Nat) (f : Slot → Slot) : (s.modSlot n f).slots = updAt s.slots n f := rfl
@[simp] theorem State.modSlot_steps (n : Nat) (f : Slot → Slot) : (s.modSlot n f).steps = s.steps := rfl
@[simp] theorem State.modSlot_window (n : Nat) (f : Slot → Slot) : (s.modSlot n f).window = s.window := rfl
@[simp] theorem State.modSlot_ext (n : Nat) (f : Slot → Slot) : (s.modSlot n f).ext = s.ext := rfl
@[simp] theorem State.modSlot_out (n : Nat) (f : Slot → Slot) : (s.modSlot n f).out = s.out := rfl
@[simp] theorem State.modSlot_freeCtr (n : Nat) (f : Slot → Slot) : (s.modSlot n f).freeCtr = s.freeCtr := rfl

/-! ### `modLink` -/

@[simp] theorem State.modLink_pending (l : Nat) (f : Link → Link) : (s.modLink l f).pending = s.pending := rfl
@[simp] theorem State.modLink_power (l : Nat) (f : Link → Link) : (s.modLink l f).power = s.power := rfl
@[simp] theorem State.modLink_fuses (l : Nat) (f : Link → Link) : (s.modLink l f).fuses = s.fuses := rfl
@[simp] theorem State.modLink_keep (l : Nat) (f : Link → Link) : (s.modLink l f).keep = s.keep := rfl
@[simp] theorem State.modLink_mailboxes (l : Nat) (f : Link → Link) : (s.modLink l f).mailboxes = s.mailboxes := rfl
@[simp] theorem State.modLink_goOrder (l : Nat) (f : Link → Link) : (s.modLink l f).goOrder = s.goOrder := rfl
@[simp] theorem State.modLink_jobs (l : Nat) (f : Link → Link) : (s.modLink l f).jobs = s.jobs := rfl
@[simp] theorem State.modLink_late (l : Nat) (f : Link → Link) : (s.modLink l f).late = s.late := rfl
@[simp] theorem State.modLink_ints (l : Nat) (f : Link → Link) : (s.modLink l f).ints = s.ints := rfl
@[simp] theorem State.modLink_evt (l : Nat) (f : Link → Link) : (s.modLink l f).evt = s.evt := rfl
@[simp] theorem State.modLink_belfry (l : Nat) (f : Link → Link) : (s.modLink l f).belfry = s.belfry := rfl
@[simp] theorem State.modLink_measure (l : Nat) (f : Link → Link) : (s.modLink l f).measure = s.measure := rfl
@[simp] theorem State.modLink_thermal (l : Nat) (f : Link → Link) : (s.modLink l f).thermal = s.thermal := rfl
@[simp] theorem State.modLink_towers (l : Nat) (f : Link → Link) : (s.modLink l f).towers = s.towers := rfl
@[simp] theorem State.modLink_domeEpoch (l : Nat) (f : Link → Link) : (s.modLink l f).domeEpoch = s.domeEpoch := rfl
@[simp] theorem State.modLink_mem (l : Nat) (f : Link → Link) : (s.modLink l f).mem = s.mem := rfl
@[simp] theorem State.modLink_fabric (l : Nat) (f : Link → Link) :
    (s.modLink l f).fabric = { s.fabric with links := updAt s.fabric.links l f } := rfl
@[simp] theorem State.modLink_slots (l : Nat) (f : Link → Link) : (s.modLink l f).slots = s.slots := rfl
@[simp] theorem State.modLink_steps (l : Nat) (f : Link → Link) : (s.modLink l f).steps = s.steps := rfl
@[simp] theorem State.modLink_window (l : Nat) (f : Link → Link) : (s.modLink l f).window = s.window := rfl
@[simp] theorem State.modLink_ext (l : Nat) (f : Link → Link) : (s.modLink l f).ext = s.ext := rfl
@[simp] theorem State.modLink_out (l : Nat) (f : Link → Link) : (s.modLink l f).out = s.out := rfl
@[simp] theorem State.modLink_freeCtr (l : Nat) (f : Link → Link) : (s.modLink l f).freeCtr = s.freeCtr := rfl

/-! ### `dropItems` -/

@[simp] theorem State.dropItems_pending (p : Item → Bool) : (s.dropItems p).pending = s.pending := rfl
@[simp] theorem State.dropItems_power (p : Item → Bool) : (s.dropItems p).power = s.power := rfl
@[simp] theorem State.dropItems_fuses (p : Item → Bool) : (s.dropItems p).fuses = s.fuses := rfl
@[simp] theorem State.dropItems_keep (p : Item → Bool) : (s.dropItems p).keep = s.keep := rfl
@[simp] theorem State.dropItems_mailboxes (p : Item → Bool) : (s.dropItems p).mailboxes = s.mailboxes := rfl
@[simp] theorem State.dropItems_goOrder (p : Item → Bool) : (s.dropItems p).goOrder = s.goOrder := rfl
@[simp] theorem State.dropItems_jobs (p : Item → Bool) : (s.dropItems p).jobs = s.jobs := rfl
@[simp] theorem State.dropItems_late (p : Item → Bool) : (s.dropItems p).late = s.late := rfl
@[simp] theorem State.dropItems_ints (p : Item → Bool) : (s.dropItems p).ints = s.ints := rfl
@[simp] theorem State.dropItems_evt (p : Item → Bool) : (s.dropItems p).evt = s.evt := rfl
@[simp] theorem State.dropItems_belfry (p : Item → Bool) : (s.dropItems p).belfry = s.belfry := rfl
@[simp] theorem State.dropItems_measure (p : Item → Bool) : (s.dropItems p).measure = s.measure := rfl
@[simp] theorem State.dropItems_thermal (p : Item → Bool) : (s.dropItems p).thermal = s.thermal := rfl
@[simp] theorem State.dropItems_towers (p : Item → Bool) : (s.dropItems p).towers = s.towers.map (Tower.dropItems p) := rfl
@[simp] theorem State.dropItems_domeEpoch (p : Item → Bool) : (s.dropItems p).domeEpoch = s.domeEpoch := rfl
@[simp] theorem State.dropItems_mem (p : Item → Bool) : (s.dropItems p).mem = s.mem := rfl
@[simp] theorem State.dropItems_fabric (p : Item → Bool) : (s.dropItems p).fabric = s.fabric := rfl
@[simp] theorem State.dropItems_slots (p : Item → Bool) : (s.dropItems p).slots = s.slots := rfl
@[simp] theorem State.dropItems_steps (p : Item → Bool) : (s.dropItems p).steps = s.steps := rfl
@[simp] theorem State.dropItems_window (p : Item → Bool) : (s.dropItems p).window = s.window := rfl
@[simp] theorem State.dropItems_ext (p : Item → Bool) : (s.dropItems p).ext = s.ext := rfl
@[simp] theorem State.dropItems_out (p : Item → Bool) : (s.dropItems p).out = s.out := rfl
@[simp] theorem State.dropItems_freeCtr (p : Item → Bool) : (s.dropItems p).freeCtr = s.freeCtr := rfl

/-! ### `latch` -/

@[simp] theorem State.latch_pending (v : Nat) : (s.latch v).pending = s.pending := rfl
@[simp] theorem State.latch_power (v : Nat) : (s.latch v).power = s.power := rfl
@[simp] theorem State.latch_fuses (v : Nat) : (s.latch v).fuses = s.fuses := rfl
@[simp] theorem State.latch_keep (v : Nat) : (s.latch v).keep = s.keep := rfl
@[simp] theorem State.latch_mailboxes (v : Nat) : (s.latch v).mailboxes = s.mailboxes := rfl
@[simp] theorem State.latch_goOrder (v : Nat) : (s.latch v).goOrder = s.goOrder := rfl
@[simp] theorem State.latch_jobs (v : Nat) : (s.latch v).jobs = s.jobs := rfl
@[simp] theorem State.latch_late (v : Nat) : (s.latch v).late = s.late := rfl
@[simp] theorem State.latch_ints (v : Nat) :
    (s.latch v).ints = { s.ints with raised := s.ints.raised ||| (1#10 <<< v) } := rfl
@[simp] theorem State.latch_evt (v : Nat) : (s.latch v).evt = s.evt := rfl
@[simp] theorem State.latch_belfry (v : Nat) : (s.latch v).belfry = s.belfry := rfl
@[simp] theorem State.latch_measure (v : Nat) : (s.latch v).measure = s.measure := rfl
@[simp] theorem State.latch_thermal (v : Nat) : (s.latch v).thermal = s.thermal := rfl
@[simp] theorem State.latch_towers (v : Nat) : (s.latch v).towers = s.towers := rfl
@[simp] theorem State.latch_domeEpoch (v : Nat) : (s.latch v).domeEpoch = s.domeEpoch := rfl
@[simp] theorem State.latch_mem (v : Nat) : (s.latch v).mem = s.mem := rfl
@[simp] theorem State.latch_fabric (v : Nat) : (s.latch v).fabric = s.fabric := rfl
@[simp] theorem State.latch_slots (v : Nat) : (s.latch v).slots = s.slots := rfl
@[simp] theorem State.latch_steps (v : Nat) : (s.latch v).steps = s.steps := rfl
@[simp] theorem State.latch_window (v : Nat) : (s.latch v).window = s.window := rfl
@[simp] theorem State.latch_ext (v : Nat) : (s.latch v).ext = s.ext := rfl
@[simp] theorem State.latch_out (v : Nat) : (s.latch v).out = s.out := rfl
@[simp] theorem State.latch_freeCtr (v : Nat) : (s.latch v).freeCtr = s.freeCtr := rfl

/-! ### `answer` -/

@[simp] theorem State.answer_pending (r : Resp) : (s.answer r).pending = s.pending := rfl
@[simp] theorem State.answer_power (r : Resp) : (s.answer r).power = s.power := rfl
@[simp] theorem State.answer_fuses (r : Resp) : (s.answer r).fuses = s.fuses := rfl
@[simp] theorem State.answer_keep (r : Resp) : (s.answer r).keep = s.keep := rfl
@[simp] theorem State.answer_mailboxes (r : Resp) : (s.answer r).mailboxes = s.mailboxes := rfl
@[simp] theorem State.answer_goOrder (r : Resp) : (s.answer r).goOrder = s.goOrder := rfl
@[simp] theorem State.answer_jobs (r : Resp) : (s.answer r).jobs = s.jobs := rfl
@[simp] theorem State.answer_late (r : Resp) : (s.answer r).late = s.late := rfl
@[simp] theorem State.answer_ints (r : Resp) : (s.answer r).ints = s.ints := rfl
@[simp] theorem State.answer_evt (r : Resp) : (s.answer r).evt = s.evt := rfl
@[simp] theorem State.answer_belfry (r : Resp) : (s.answer r).belfry = s.belfry := rfl
@[simp] theorem State.answer_measure (r : Resp) : (s.answer r).measure = s.measure := rfl
@[simp] theorem State.answer_thermal (r : Resp) : (s.answer r).thermal = s.thermal := rfl
@[simp] theorem State.answer_towers (r : Resp) : (s.answer r).towers = s.towers := rfl
@[simp] theorem State.answer_domeEpoch (r : Resp) : (s.answer r).domeEpoch = s.domeEpoch := rfl
@[simp] theorem State.answer_mem (r : Resp) : (s.answer r).mem = s.mem := rfl
@[simp] theorem State.answer_fabric (r : Resp) : (s.answer r).fabric = s.fabric := rfl
@[simp] theorem State.answer_slots (r : Resp) : (s.answer r).slots = s.slots := rfl
@[simp] theorem State.answer_steps (r : Resp) : (s.answer r).steps = s.steps := rfl
@[simp] theorem State.answer_window (r : Resp) : (s.answer r).window = s.window := rfl
@[simp] theorem State.answer_ext (r : Resp) : (s.answer r).ext = s.ext := rfl
@[simp] theorem State.answer_out (r : Resp) : (s.answer r).out = { s.out with resp := r } := rfl
@[simp] theorem State.answer_freeCtr (r : Resp) : (s.answer r).freeCtr = s.freeCtr := rfl

/-! ### `emit` -/

@[simp] theorem State.emit_pending (p : Posted) : (s.emit p).pending = s.pending := rfl
@[simp] theorem State.emit_power (p : Posted) : (s.emit p).power = s.power := rfl
@[simp] theorem State.emit_fuses (p : Posted) : (s.emit p).fuses = s.fuses := rfl
@[simp] theorem State.emit_keep (p : Posted) : (s.emit p).keep = s.keep := rfl
@[simp] theorem State.emit_mailboxes (p : Posted) : (s.emit p).mailboxes = s.mailboxes := rfl
@[simp] theorem State.emit_goOrder (p : Posted) : (s.emit p).goOrder = s.goOrder := rfl
@[simp] theorem State.emit_jobs (p : Posted) : (s.emit p).jobs = s.jobs := rfl
@[simp] theorem State.emit_late (p : Posted) : (s.emit p).late = s.late := rfl
@[simp] theorem State.emit_ints (p : Posted) : (s.emit p).ints = s.ints := rfl
@[simp] theorem State.emit_evt (p : Posted) : (s.emit p).evt = s.evt := rfl
@[simp] theorem State.emit_belfry (p : Posted) : (s.emit p).belfry = s.belfry := rfl
@[simp] theorem State.emit_measure (p : Posted) : (s.emit p).measure = s.measure := rfl
@[simp] theorem State.emit_thermal (p : Posted) : (s.emit p).thermal = s.thermal := rfl
@[simp] theorem State.emit_towers (p : Posted) : (s.emit p).towers = s.towers := rfl
@[simp] theorem State.emit_domeEpoch (p : Posted) : (s.emit p).domeEpoch = s.domeEpoch := rfl
@[simp] theorem State.emit_mem (p : Posted) : (s.emit p).mem = s.mem := rfl
@[simp] theorem State.emit_fabric (p : Posted) : (s.emit p).fabric = s.fabric := rfl
@[simp] theorem State.emit_slots (p : Posted) : (s.emit p).slots = s.slots := rfl
@[simp] theorem State.emit_steps (p : Posted) : (s.emit p).steps = s.steps := rfl
@[simp] theorem State.emit_window (p : Posted) : (s.emit p).window = s.window := rfl
@[simp] theorem State.emit_ext (p : Posted) : (s.emit p).ext = s.ext := rfl
@[simp] theorem State.emit_out (p : Posted) :
    (s.emit p).out = if s.ideUp p.stream then s.out.sendOne p else { s.out with stalled := s.out.stalled ++ [p] } := rfl
@[simp] theorem State.emit_freeCtr (p : Posted) : (s.emit p).freeCtr = s.freeCtr := rfl

/-! ### `reply` -/

@[simp] theorem State.reply_pending (stream : Nat) (r : Resp) : (s.reply stream r).pending = s.pending := rfl
@[simp] theorem State.reply_power (stream : Nat) (r : Resp) : (s.reply stream r).power = s.power := rfl
@[simp] theorem State.reply_fuses (stream : Nat) (r : Resp) : (s.reply stream r).fuses = s.fuses := rfl
@[simp] theorem State.reply_keep (stream : Nat) (r : Resp) : (s.reply stream r).keep = s.keep := rfl
@[simp] theorem State.reply_mailboxes (stream : Nat) (r : Resp) : (s.reply stream r).mailboxes = s.mailboxes := rfl
@[simp] theorem State.reply_goOrder (stream : Nat) (r : Resp) : (s.reply stream r).goOrder = s.goOrder := rfl
@[simp] theorem State.reply_jobs (stream : Nat) (r : Resp) : (s.reply stream r).jobs = s.jobs := rfl
@[simp] theorem State.reply_late (stream : Nat) (r : Resp) : (s.reply stream r).late = s.late := rfl
@[simp] theorem State.reply_ints (stream : Nat) (r : Resp) : (s.reply stream r).ints = s.ints := rfl
@[simp] theorem State.reply_evt (stream : Nat) (r : Resp) : (s.reply stream r).evt = s.evt := rfl
@[simp] theorem State.reply_belfry (stream : Nat) (r : Resp) : (s.reply stream r).belfry = s.belfry := rfl
@[simp] theorem State.reply_measure (stream : Nat) (r : Resp) : (s.reply stream r).measure = s.measure := rfl
@[simp] theorem State.reply_thermal (stream : Nat) (r : Resp) : (s.reply stream r).thermal = s.thermal := rfl
@[simp] theorem State.reply_towers (stream : Nat) (r : Resp) : (s.reply stream r).towers = s.towers := rfl
@[simp] theorem State.reply_domeEpoch (stream : Nat) (r : Resp) : (s.reply stream r).domeEpoch = s.domeEpoch := rfl
@[simp] theorem State.reply_mem (stream : Nat) (r : Resp) : (s.reply stream r).mem = s.mem := rfl
@[simp] theorem State.reply_fabric (stream : Nat) (r : Resp) : (s.reply stream r).fabric = s.fabric := rfl
@[simp] theorem State.reply_slots (stream : Nat) (r : Resp) : (s.reply stream r).slots = s.slots := rfl
@[simp] theorem State.reply_steps (stream : Nat) (r : Resp) : (s.reply stream r).steps = s.steps := rfl
@[simp] theorem State.reply_window (stream : Nat) (r : Resp) : (s.reply stream r).window = s.window := rfl
@[simp] theorem State.reply_ext (stream : Nat) (r : Resp) : (s.reply stream r).ext = s.ext := rfl
@[simp] theorem State.reply_freeCtr (stream : Nat) (r : Resp) : (s.reply stream r).freeCtr = s.freeCtr := rfl

/-! ### `violate` -/

@[simp] theorem State.violate_pending (a : Nat) : (s.violate a).pending = s.pending := rfl
@[simp] theorem State.violate_power (a : Nat) : (s.violate a).power = s.power := rfl
@[simp] theorem State.violate_fuses (a : Nat) : (s.violate a).fuses = s.fuses := rfl
@[simp] theorem State.violate_keep (a : Nat) :
    (s.violate a).keep = { s.keep with violCount := s.keep.violCount + 1, violAddr := BitVec.ofNat 26 (baseAddr a) } := rfl
@[simp] theorem State.violate_mailboxes (a : Nat) : (s.violate a).mailboxes = s.mailboxes := rfl
@[simp] theorem State.violate_goOrder (a : Nat) : (s.violate a).goOrder = s.goOrder := rfl
@[simp] theorem State.violate_jobs (a : Nat) : (s.violate a).jobs = s.jobs := rfl
@[simp] theorem State.violate_late (a : Nat) : (s.violate a).late = s.late := rfl
@[simp] theorem State.violate_ints (a : Nat) : (s.violate a).ints = s.ints := rfl
@[simp] theorem State.violate_evt (a : Nat) : (s.violate a).evt = s.evt := rfl
@[simp] theorem State.violate_belfry (a : Nat) : (s.violate a).belfry = s.belfry := rfl
@[simp] theorem State.violate_measure (a : Nat) : (s.violate a).measure = s.measure := rfl
@[simp] theorem State.violate_thermal (a : Nat) : (s.violate a).thermal = s.thermal := rfl
@[simp] theorem State.violate_towers (a : Nat) : (s.violate a).towers = s.towers := rfl
@[simp] theorem State.violate_domeEpoch (a : Nat) : (s.violate a).domeEpoch = s.domeEpoch := rfl
@[simp] theorem State.violate_mem (a : Nat) : (s.violate a).mem = s.mem := rfl
@[simp] theorem State.violate_fabric (a : Nat) : (s.violate a).fabric = s.fabric := rfl
@[simp] theorem State.violate_slots (a : Nat) : (s.violate a).slots = s.slots := rfl
@[simp] theorem State.violate_steps (a : Nat) : (s.violate a).steps = s.steps := rfl
@[simp] theorem State.violate_window (a : Nat) : (s.violate a).window = s.window := rfl
@[simp] theorem State.violate_ext (a : Nat) : (s.violate a).ext = s.ext := rfl
@[simp] theorem State.violate_out (a : Nat) : (s.violate a).out = s.out := rfl
@[simp] theorem State.violate_freeCtr (a : Nat) : (s.violate a).freeCtr = s.freeCtr := rfl

/-! ### `setPhase` -/

@[simp] theorem State.setPhase_pending (n : Nat) : (s.setPhase n).pending = s.pending := rfl
@[simp] theorem State.setPhase_power (n : Nat) : (s.setPhase n).power = { s.power with phase := n } := rfl
@[simp] theorem State.setPhase_fuses (n : Nat) : (s.setPhase n).fuses = s.fuses := rfl
@[simp] theorem State.setPhase_keep (n : Nat) : (s.setPhase n).keep = s.keep := rfl
@[simp] theorem State.setPhase_mailboxes (n : Nat) : (s.setPhase n).mailboxes = s.mailboxes := rfl
@[simp] theorem State.setPhase_goOrder (n : Nat) : (s.setPhase n).goOrder = s.goOrder := rfl
@[simp] theorem State.setPhase_jobs (n : Nat) : (s.setPhase n).jobs = s.jobs := rfl
@[simp] theorem State.setPhase_late (n : Nat) : (s.setPhase n).late = s.late := rfl
@[simp] theorem State.setPhase_ints (n : Nat) : (s.setPhase n).ints = s.ints := rfl
@[simp] theorem State.setPhase_evt (n : Nat) : (s.setPhase n).evt = s.evt := rfl
@[simp] theorem State.setPhase_belfry (n : Nat) : (s.setPhase n).belfry = s.belfry := rfl
@[simp] theorem State.setPhase_measure (n : Nat) : (s.setPhase n).measure = s.measure := rfl
@[simp] theorem State.setPhase_thermal (n : Nat) : (s.setPhase n).thermal = s.thermal := rfl
@[simp] theorem State.setPhase_towers (n : Nat) : (s.setPhase n).towers = s.towers := rfl
@[simp] theorem State.setPhase_domeEpoch (n : Nat) : (s.setPhase n).domeEpoch = s.domeEpoch := rfl
@[simp] theorem State.setPhase_mem (n : Nat) : (s.setPhase n).mem = s.mem := rfl
@[simp] theorem State.setPhase_fabric (n : Nat) : (s.setPhase n).fabric = s.fabric := rfl
@[simp] theorem State.setPhase_slots (n : Nat) : (s.setPhase n).slots = s.slots := rfl
@[simp] theorem State.setPhase_steps (n : Nat) : (s.setPhase n).steps = s.steps := rfl
@[simp] theorem State.setPhase_window (n : Nat) : (s.setPhase n).window = s.window := rfl
@[simp] theorem State.setPhase_ext (n : Nat) : (s.setPhase n).ext = s.ext := rfl
@[simp] theorem State.setPhase_out (n : Nat) : (s.setPhase n).out = s.out := rfl
@[simp] theorem State.setPhase_freeCtr (n : Nat) : (s.setPhase n).freeCtr = s.freeCtr := rfl

/-! ### `doe` -/

@[simp] theorem State.doe_pending (b : List Byte) : (s.doe b).pending = s.pending := rfl
@[simp] theorem State.doe_power (b : List Byte) : (s.doe b).power = s.power := rfl
@[simp] theorem State.doe_fuses (b : List Byte) : (s.doe b).fuses = s.fuses := rfl
@[simp] theorem State.doe_keep (b : List Byte) : (s.doe b).keep = s.keep := rfl
@[simp] theorem State.doe_mailboxes (b : List Byte) : (s.doe b).mailboxes = s.mailboxes := rfl
@[simp] theorem State.doe_goOrder (b : List Byte) : (s.doe b).goOrder = s.goOrder := rfl
@[simp] theorem State.doe_jobs (b : List Byte) : (s.doe b).jobs = s.jobs := rfl
@[simp] theorem State.doe_late (b : List Byte) : (s.doe b).late = s.late := rfl
@[simp] theorem State.doe_ints (b : List Byte) : (s.doe b).ints = s.ints := rfl
@[simp] theorem State.doe_evt (b : List Byte) : (s.doe b).evt = s.evt := rfl
@[simp] theorem State.doe_belfry (b : List Byte) : (s.doe b).belfry = s.belfry := rfl
@[simp] theorem State.doe_measure (b : List Byte) : (s.doe b).measure = s.measure := rfl
@[simp] theorem State.doe_thermal (b : List Byte) : (s.doe b).thermal = s.thermal := rfl
@[simp] theorem State.doe_towers (b : List Byte) : (s.doe b).towers = s.towers := rfl
@[simp] theorem State.doe_domeEpoch (b : List Byte) : (s.doe b).domeEpoch = s.domeEpoch := rfl
@[simp] theorem State.doe_mem (b : List Byte) : (s.doe b).mem = s.mem := rfl
@[simp] theorem State.doe_fabric (b : List Byte) : (s.doe b).fabric = s.fabric := rfl
@[simp] theorem State.doe_slots (b : List Byte) : (s.doe b).slots = s.slots := rfl
@[simp] theorem State.doe_steps (b : List Byte) : (s.doe b).steps = s.steps := rfl
@[simp] theorem State.doe_window (b : List Byte) : (s.doe b).window = s.window := rfl
@[simp] theorem State.doe_ext (b : List Byte) : (s.doe b).ext = s.ext := rfl
@[simp] theorem State.doe_out (b : List Byte) :
    (s.doe b).out = { s.out with resp := .data (Config.doeAnswer b s.freeCtr) } := rfl
@[simp] theorem State.doe_freeCtr (b : List Byte) : (s.doe b).freeCtr = s.freeCtr + 1 := rfl

/-! ### `calibrateDroop` -/

@[simp] theorem State.calibrateDroop_pending : (s.calibrateDroop).pending = s.pending := rfl
@[simp] theorem State.calibrateDroop_power : (s.calibrateDroop).power = s.power := rfl
@[simp] theorem State.calibrateDroop_fuses : (s.calibrateDroop).fuses = s.fuses := rfl
@[simp] theorem State.calibrateDroop_keep : (s.calibrateDroop).keep = s.keep := rfl
@[simp] theorem State.calibrateDroop_mailboxes : (s.calibrateDroop).mailboxes = s.mailboxes := rfl
@[simp] theorem State.calibrateDroop_goOrder : (s.calibrateDroop).goOrder = s.goOrder := rfl
@[simp] theorem State.calibrateDroop_jobs : (s.calibrateDroop).jobs = s.jobs := rfl
@[simp] theorem State.calibrateDroop_late : (s.calibrateDroop).late = s.late := rfl
@[simp] theorem State.calibrateDroop_ints : (s.calibrateDroop).ints = s.ints := rfl
@[simp] theorem State.calibrateDroop_evt : (s.calibrateDroop).evt = s.evt := rfl
@[simp] theorem State.calibrateDroop_belfry : (s.calibrateDroop).belfry = s.belfry := rfl
@[simp] theorem State.calibrateDroop_measure : (s.calibrateDroop).measure = s.measure := rfl
@[simp] theorem State.calibrateDroop_thermal :
    (s.calibrateDroop).thermal = { s.thermal with droopAt := s.thermal.setpoint.map fun v => v - 400 } := rfl
@[simp] theorem State.calibrateDroop_towers : (s.calibrateDroop).towers = s.towers := rfl
@[simp] theorem State.calibrateDroop_domeEpoch : (s.calibrateDroop).domeEpoch = s.domeEpoch := rfl
@[simp] theorem State.calibrateDroop_mem : (s.calibrateDroop).mem = s.mem := rfl
@[simp] theorem State.calibrateDroop_fabric : (s.calibrateDroop).fabric = s.fabric := rfl
@[simp] theorem State.calibrateDroop_slots : (s.calibrateDroop).slots = s.slots := rfl
@[simp] theorem State.calibrateDroop_steps : (s.calibrateDroop).steps = s.steps := rfl
@[simp] theorem State.calibrateDroop_window : (s.calibrateDroop).window = s.window := rfl
@[simp] theorem State.calibrateDroop_ext : (s.calibrateDroop).ext = s.ext := rfl
@[simp] theorem State.calibrateDroop_out : (s.calibrateDroop).out = s.out := rfl
@[simp] theorem State.calibrateDroop_freeCtr : (s.calibrateDroop).freeCtr = s.freeCtr := rfl

/-! ### `powerSample` -/

@[simp] theorem State.powerSample_pending (c r : List Reading) : (s.powerSample c r).pending = s.pending := rfl
@[simp] theorem State.powerSample_power (c r : List Reading) : (s.powerSample c r).power = s.power := rfl
@[simp] theorem State.powerSample_fuses (c r : List Reading) : (s.powerSample c r).fuses = s.fuses := rfl
@[simp] theorem State.powerSample_keep (c r : List Reading) : (s.powerSample c r).keep = s.keep := rfl
@[simp] theorem State.powerSample_mailboxes (c r : List Reading) : (s.powerSample c r).mailboxes = s.mailboxes := rfl
@[simp] theorem State.powerSample_goOrder (c r : List Reading) : (s.powerSample c r).goOrder = s.goOrder := rfl
@[simp] theorem State.powerSample_jobs (c r : List Reading) : (s.powerSample c r).jobs = s.jobs := rfl
@[simp] theorem State.powerSample_late (c r : List Reading) : (s.powerSample c r).late = s.late := rfl
@[simp] theorem State.powerSample_ints (c r : List Reading) : (s.powerSample c r).ints = s.ints := rfl
@[simp] theorem State.powerSample_evt (c r : List Reading) : (s.powerSample c r).evt = s.evt := rfl
@[simp] theorem State.powerSample_belfry (c r : List Reading) : (s.powerSample c r).belfry = s.belfry := rfl
@[simp] theorem State.powerSample_thermal (c r : List Reading) : (s.powerSample c r).thermal = s.thermal := rfl
@[simp] theorem State.powerSample_towers (c r : List Reading) : (s.powerSample c r).towers = s.towers := rfl
@[simp] theorem State.powerSample_domeEpoch (c r : List Reading) : (s.powerSample c r).domeEpoch = s.domeEpoch := rfl
@[simp] theorem State.powerSample_mem (c r : List Reading) : (s.powerSample c r).mem = s.mem := rfl
@[simp] theorem State.powerSample_fabric (c r : List Reading) : (s.powerSample c r).fabric = s.fabric := rfl
@[simp] theorem State.powerSample_slots (c r : List Reading) : (s.powerSample c r).slots = s.slots := rfl
@[simp] theorem State.powerSample_steps (c r : List Reading) : (s.powerSample c r).steps = s.steps := rfl
@[simp] theorem State.powerSample_window (c r : List Reading) : (s.powerSample c r).window = s.window := rfl
@[simp] theorem State.powerSample_ext (c r : List Reading) : (s.powerSample c r).ext = s.ext := rfl
@[simp] theorem State.powerSample_out (c r : List Reading) : (s.powerSample c r).out = s.out := rfl
@[simp] theorem State.powerSample_freeCtr (c r : List Reading) : (s.powerSample c r).freeCtr = s.freeCtr := rfl

/-! ### `bgSpend` -/

@[simp] theorem State.bgSpend_pending (k n : Nat) : (s.bgSpend k n).pending = s.pending := rfl
@[simp] theorem State.bgSpend_power (k n : Nat) : (s.bgSpend k n).power = s.power := rfl
@[simp] theorem State.bgSpend_fuses (k n : Nat) : (s.bgSpend k n).fuses = s.fuses := rfl
@[simp] theorem State.bgSpend_keep (k n : Nat) : (s.bgSpend k n).keep = s.keep := rfl
@[simp] theorem State.bgSpend_mailboxes (k n : Nat) : (s.bgSpend k n).mailboxes = s.mailboxes := rfl
@[simp] theorem State.bgSpend_goOrder (k n : Nat) : (s.bgSpend k n).goOrder = s.goOrder := rfl
@[simp] theorem State.bgSpend_jobs (k n : Nat) : (s.bgSpend k n).jobs = s.jobs := rfl
@[simp] theorem State.bgSpend_late (k n : Nat) : (s.bgSpend k n).late = s.late := rfl
@[simp] theorem State.bgSpend_ints (k n : Nat) : (s.bgSpend k n).ints = s.ints := rfl
@[simp] theorem State.bgSpend_evt (k n : Nat) : (s.bgSpend k n).evt = s.evt := rfl
@[simp] theorem State.bgSpend_belfry (k n : Nat) : (s.bgSpend k n).belfry = s.belfry := rfl
@[simp] theorem State.bgSpend_measure (k n : Nat) : (s.bgSpend k n).measure = s.measure := rfl
@[simp] theorem State.bgSpend_thermal (k n : Nat) : (s.bgSpend k n).thermal = s.thermal := rfl
@[simp] theorem State.bgSpend_towers (k n : Nat) : (s.bgSpend k n).towers = s.towers := rfl
@[simp] theorem State.bgSpend_domeEpoch (k n : Nat) : (s.bgSpend k n).domeEpoch = s.domeEpoch := rfl
@[simp] theorem State.bgSpend_mem (k n : Nat) :
    (s.bgSpend k n).mem = { s.mem with bgBytes := s.mem.bgBytes.add n, onyx := updAt s.mem.onyx k fun o => { o with bg := o.bg + n } } := rfl
@[simp] theorem State.bgSpend_fabric (k n : Nat) : (s.bgSpend k n).fabric = s.fabric := rfl
@[simp] theorem State.bgSpend_slots (k n : Nat) : (s.bgSpend k n).slots = s.slots := rfl
@[simp] theorem State.bgSpend_steps (k n : Nat) : (s.bgSpend k n).steps = s.steps := rfl
@[simp] theorem State.bgSpend_window (k n : Nat) : (s.bgSpend k n).window = s.window := rfl
@[simp] theorem State.bgSpend_ext (k n : Nat) : (s.bgSpend k n).ext = s.ext := rfl
@[simp] theorem State.bgSpend_out (k n : Nat) : (s.bgSpend k n).out = s.out := rfl
@[simp] theorem State.bgSpend_freeCtr (k n : Nat) : (s.bgSpend k n).freeCtr = s.freeCtr := rfl

end Sys2Proof.Machine
end

