-- ==== Sys2Proof/Laws/Ops.lean ====
section
/-!
SUPPORT. What each shared operation can do, said once: events, interrupts, completions, reads and writes of device memory,
and the way of a mailbox command to its body. A proof cites these and unfolds none of the operations.
-/

set_option Elab.async false
namespace Sys2Proof.Machine

open Sys2Proof

/-! ### Events and interrupts -/

/-- An event touches the event log only. -/
theorem State.event_eq (s : State) (src : EvSrc) (code : Nat) (fs : List (Nat × Nat)) :
    ∃ e, s.event src code fs = { s with evt := e } := by
  unfold State.event
  split
  · exact ⟨s.evt, rfl⟩
  · exact ⟨_, rfl⟩

/-- While EN is 1 the record joins the ring's queue, with the next sequence number (R355, R357). -/
theorem State.event_en (s : State) (src : EvSrc) (code : Nat) (fs : List (Nat × Nat)) (hb : s.power.berylStop = false)
    (he : s.evt.en = true) :
    s.event src code fs = { s with evt := { s.evt with
      seq := s.evt.seq + 1
      ring := s.evt.ring ++ [{
        (⟨s.evt.seq, code, false, false, src.slot, s.power.time.v, src.step, src.source, packFields fs []⟩ : EvRec) with
        lost := s.evt.lostTail }]
      lostTail := false } } := by
  simp [State.event, hb, he]

/-- A message is sent, or its pending bit is set, or MSI-X is off: nothing else changes, and no cause is latched (R354). -/
theorem State.message_eq (s : State) (v : Nat) :
    ∃ p o, s.message v = { s with ints := { s.ints with pending := p }, out := o } := by
  unfold State.message
  split
  · exact ⟨s.ints.pending, s.out, rfl⟩
  · split
    · exact ⟨_, s.out, rfl⟩
    · exact ⟨s.ints.pending, _, rfl⟩

/-- A raised vector: its bit of INT_RAISED is set, and but for pending bits and sent messages nothing else changes. -/
theorem State.raise_eq (s : State) (v : Nat) :
    ∃ p o, s.raise v =
      { s with ints := { s.ints with raised := s.ints.raised ||| (1#10 <<< v), pending := p }, out := o } := by
  obtain ⟨p, o, h⟩ := (s.latch v).message_eq v
  exact ⟨p, o, h⟩

/-- The fields that a raise leaves alone, by name. -/
theorem State.raise_frame (s : State) (v : Nat) : Frame [.ints, .out] s (s.raise v) := by
  obtain ⟨p, o, h⟩ := s.raise_eq v
  rw [h]
  intro c hc
  cases c <;> first | rfl | simp at hc

theorem State.event_frame (s : State) (src : EvSrc) (code : Nat) (fs : List (Nat × Nat)) :
    Frame [.evt] s (s.event src code fs) := by
  obtain ⟨e, h⟩ := s.event_eq src code fs
  rw [h]
  intro c hc
  cases c <;> first | rfl | simp at hc

/-! ### Frames -/

theorem Frame.refl (l : List Component) (s : State) : Frame l s s := by
  intro c _
  cases c <;> rfl

theorem Component.Same.trans {c : Component} {s t u : State} (a : c.Same s t) (b : c.Same t u) : c.Same s u := by
  cases c <;> exact Eq.trans b a

theorem Frame.trans {l m k : List Component} {s t u : State} (a : Frame l s t) (b : Frame m t u)
    (hl : ∀ c ∈ l, c ∈ k) (hm : ∀ c ∈ m, c ∈ k) : Frame k s u :=
  fun c hc => (a c fun h => hc (hl c h)).trans (b c fun h => hc (hm c h))

theorem Frame.weaken {l k : List Component} {s t : State} (a : Frame l s t) (hl : ∀ c ∈ l, c ∈ k) : Frame k s t :=
  fun c hc => a c fun h => hc (hl c h)

/-! ### Completions -/

/-- The mailbox of a completion. -/
def Mailbox.completed (m : Mailbox) (status : Nat) (data : List Byte) : Mailbox :=
  { m with payload := memWrite m.payload 0 data, len := data.length, code := BitVec.ofNat 16 status, done := true, own := false }

/-- A delivered completion writes its mailbox and raises or latches its vector; nothing else changes (R349, R353, R392). -/
theorem State.deliver_eq (s : State) (n status : Nat) (data : List Byte) :
    ∃ i o, s.deliver n status data =
      { s with mailboxes := updAt s.mailboxes n fun m => m.completed status data, ints := i, out := o }
      ∧ i.table = s.ints.table := by
  unfold State.deliver
  dsimp only
  split
  · obtain ⟨p, o, h⟩ := State.raise_eq { s with mailboxes := updAt s.mailboxes n fun m => m.completed status data } n
    exact ⟨_, o, h, rfl⟩
  · exact ⟨_, s.out, rfl, rfl⟩

/-- A completion whose device writes stand is delivered (R338). -/
theorem State.complete_settled {s : State} {n : Nat} (status : Nat) (data : List Byte) (hn : n < 4) (hw : s.mem.owes n = false) :
    s.complete n status data = s.deliver n status data := by
  unfold State.complete
  rw [if_neg (by omega), if_neg (by simp [hw])]

theorem State.deliver_frame (s : State) (n status : Nat) (data : List Byte) :
    Frame [.mailboxes, .ints, .out] s (s.deliver n status data) := by
  obtain ⟨i, o, h, -⟩ := s.deliver_eq n status data
  rw [h]
  intro c hc
  cases c <;> first | rfl | simp at hc

theorem State.complete_frame (s : State) (n status : Nat) (data : List Byte) :
    Frame [.mailboxes, .late, .ints, .out] s (s.complete n status data) := by
  unfold State.complete
  split
  · exact Frame.refl _ _
  · split
    · exact fun c hc => by cases c <;> first | rfl | simp at hc
    · exact (s.deliver_frame n status data).weaken (by simp)

theorem State.mbx_updAt (s : State) {n : Nat} (f : Mailbox → Mailbox) (hn : n < s.mailboxes.length) :
    ({ s with mailboxes := updAt s.mailboxes n f }).mbx n = f (s.mbx n) := by
  simp [State.mbx, updAt, List.getD_eq_getElem?_getD, hn]

/-- After a completion its mailbox holds the status and the data (R353). -/
theorem State.deliver_holds (s : State) {n : Nat} (status : Nat) (data : List Byte) (hn : n < 4)
    (hl : s.mailboxes.length = 4) (hw : (s.mbx n).payload.wf = true) :
    ((s.deliver n status data).mbx n).Holds status data := by
  obtain ⟨i, o, h, -⟩ := s.deliver_eq n status data
  have hm : (s.deliver n status data).mbx n = (s.mbx n).completed status data := by
    rw [h]
    exact State.mbx_updAt s _ (by omega)
  rw [hm]
  exact ⟨rfl, rfl, rfl, rfl, memRead_memWrite hw 0 data⟩

theorem State.deliver_others (s : State) (n status : Nat) (data : List Byte) :
    s.OthersKept n (s.deliver n status data) := by
  intro k hk
  obtain ⟨i, o, h, -⟩ := s.deliver_eq n status data
  rw [h]
  simp [updAt, hk.symm]

/-! ### Device memory -/

/-- What a read of device memory leaves: no stored byte changes, and but for the integrity state, events and interrupts
nothing does. -/
structure State.Reads (s t : State) : Prop where
  frame : Frame [.mem, .evt, .ints, .out] s t
  cells : t.mem.cells = s.mem.cells

theorem State.Reads.refl (s : State) : s.Reads s := ⟨Frame.refl _ _, rfl⟩

theorem State.Reads.trans {s t u : State} (a : s.Reads t) (b : t.Reads u) : s.Reads u :=
  ⟨Frame.trans a.frame b.frame (by simp) (by simp), b.cells.trans a.cells⟩

theorem State.Reads.event {s t : State} (a : s.Reads t) (src : EvSrc) (code : Nat) (fs : List (Nat × Nat)) :
    s.Reads (t.event src code fs) :=
  a.trans ⟨(t.event_frame src code fs).weaken (by simp), congrArg Mem.cells (t.event_frame src code fs .mem (by simp))⟩

theorem State.Reads.raise {s t : State} (a : s.Reads t) (v : Nat) : s.Reads (t.raise v) :=
  a.trans ⟨(t.raise_frame v).weaken (by simp), congrArg Mem.cells (t.raise_frame v .mem (by simp))⟩

theorem State.Reads.upd {s t : State} {m : Mem} (a : s.Reads t) (h : m.cells = t.mem.cells) : s.Reads { t with mem := m } := by
  refine a.trans ⟨fun c hc => ?_, h⟩
  cases c <;> first | rfl | simp at hc

theorem State.bucketCount_reads (s : State) (p : Place) (die : Nat) : s.Reads (s.bucketCount p die) := by
  unfold State.bucketCount
  dsimp only
  split
  · apply State.Reads.raise
    apply State.Reads.event
    exact State.Reads.upd (State.Reads.refl s) rfl
  · exact State.Reads.upd (State.Reads.refl s) rfl

theorem State.queueWriteBack_reads {s t : State} (h : s.Reads t) (k a : Nat) (bs : List Byte) :
    s.Reads (t.queueWriteBack k a bs) := State.Reads.upd h rfl

/-- A read of one beat counts, records and queues; it changes no stored byte (R284 to R288). -/
theorem State.readBeat_reads (s : State) (req : Nat) (step : Quad) (errs : List BeatErr) (addr : Nat) :
    s.Reads (s.readBeat req step errs addr).2 := by
  unfold State.readBeat
  dsimp only
  split
  · exact State.Reads.refl s
  · split
    · exact State.Reads.upd (State.Reads.refl s) rfl
    · split
      · exact State.Reads.refl s
      · split
        · exact State.Reads.refl s
        · apply State.queueWriteBack_reads
          refine State.Reads.trans ?_ (State.bucketCount_reads _ _ _)
          exact State.Reads.upd (State.Reads.refl s) rfl
      · apply State.Reads.event
        exact State.Reads.upd (State.Reads.refl s) rfl

theorem State.readBeats_reads (s : State) (req : Nat) (step : Quad) (errs : List BeatErr) (k b : Nat) (acc : List Byte) :
    s.Reads (s.readBeats req step errs k b acc).2 := by
  induction k generalizing s b acc with
  | zero => exact State.Reads.refl s
  | succ k ih =>
    have h := s.readBeat_reads req step errs b
    unfold State.readBeats
    split
    · rename_i e; rw [e] at h; exact h
    · rename_i e; rw [e] at h; exact h.trans (ih ..)

/-- A read of device memory by any requester (R282). -/
theorem State.readDev_reads (s : State) (req : Nat) (step : Quad) (errs : List BeatErr) (addr len : Nat) :
    s.Reads (s.readDev req step errs addr len).2 := by
  have h := s.readBeats_reads req step errs (ceilDiv (addr - addr / 32 * 32 + len) 32) (addr / 32 * 32) []
  unfold State.readDev
  dsimp only
  split <;> rename_i e <;> rw [e] at h <;> exact h

/-- Reading an image (R339, R364). -/
theorem State.imgRead_reads (s : State) (env : Env) (addr off len : Nat) : s.Reads (s.imgRead env addr off len).2 := by
  have h := s.readDev_reads rqBeryl noStep env.errs (addr + off) len
  unfold State.imgRead
  split
  · exact State.Reads.refl s
  · split
    · split
      · exact State.Reads.refl s
      · split <;> exact State.Reads.refl s
    · split
      · exact State.Reads.refl s
      · split <;> rename_i e <;> rw [e] at h <;> exact h

/-- A write within one page: the bytes stand, write-backs queued for them are gone, or a retired page discards it (R282,
R293, R309). -/
theorem State.putPage_eq (s : State) (a : Nat) (bs : List Byte) : ∃ m, s.putPage a bs = { s with mem := m } := by
  unfold State.putPage
  split
  · exact ⟨s.mem, rfl⟩
  · split
    · exact ⟨_, rfl⟩
    · exact ⟨_, rfl⟩

/-- A device write changes memory, and snoops of the host; nothing else (R190, R338). -/
theorem State.writeBeats_frame (s : State) (a : Nat) (bs : List Byte) : Frame [.mem, .out] s (s.writeBeats a bs) := by
  have line (t : State) (x : Nat) (l : List Byte) : Frame [.mem, .out] t (t.writeLine x l) := by
    unfold State.writeLine State.writeLineBy
    dsimp only
    split
    · exact fun c hc => by cases c <;> first | rfl | simp at hc
    · obtain ⟨m, h⟩ := t.putPage_eq x l
      rw [h]
      exact fun c hc => by cases c <;> first | rfl | simp at hc
  unfold State.writeBeats
  generalize linesOf (bs.length / 64 + 2) a bs = l
  induction l generalizing s with
  | nil => exact Frame.refl _ _
  | cons p l ih => exact Frame.trans (line s p.1 p.2) (ih _) (by simp) (by simp)

/-- A write that is not of whole beats also draws the free value of the beats it shares (R282; log 83). -/
theorem State.writeDev_frame (s : State) (a : Nat) (bs : List Byte) : Frame [.mem, .out, .freeCtr] s (s.writeDev a bs) := by
  unfold State.writeDev
  split
  · exact Frame.refl _ _
  · split
    · exact (s.writeBeats_frame a bs).weaken (by simp)
    · exact Frame.trans (l := [.freeCtr]) (fun c hc => by cases c <;> first | rfl | simp at hc)
        (State.writeBeats_frame _ _ _) (by simp) (by simp)

theorem State.writeIo_frame (s : State) (a : Nat) (bs : List Byte) : Frame [.mem, .out, .freeCtr] s (s.writeIo a bs) := by
  unfold State.writeIo
  split
  · exact s.writeDev_frame a bs
  · exact Frame.refl _ _

/-! ### The way of a mailbox command -/

theorem updAt_updAt {α : Type} (l : List α) (n : Nat) (f g : α → α) : updAt (updAt l n f) n g = updAt l n (g ∘ f) := by
  apply List.ext_getElem?
  intro i
  simp only [updAt, List.getElem?_modify, Function.comp]
  by_cases h : n = i <;> cases l[i]? <;> simp [h]

/-- A ROM command that Beryl takes at once is judged as it was submitted (R349, R363). -/
theorem State.command_taken {s : State} {c : Sub} {op : Nat} (h : s.Takes c) (ho : op < 0x0F00) :
    s.command c op = (s.submitted c op).takeRom ⟨op, c.mbx, c.mbx, c.payload.length, c.payload, c.env⟩ := by
  have hlt : c.mbx < s.mailboxes.length := by have := h.mailbox; have := h.four; omega
  have hforb : s.forbids (0x10000 + 0x1000 * c.mbx) = false := by
    by_cases h4 : s.fuses.state = 4
    · rw [h.closed h4]
      have hb : baseAddr 65536 = 65536 := by decide
      simp [State.forbids, hb]
    · simp [State.forbids, h4]
  have hmod : c.len % 4096 = c.payload.length := by
    have := h.fits
    rw [h.len, Nat.mod_eq_of_lt (by omega)]
  have htake : c.payload.take 4064 = c.payload := List.take_of_length_le h.fits
  have hsub (f : Mailbox → Mailbox) (hf : f = fun m => { m with
      payload := memWrite m.payload 0 c.payload, opcode := BitVec.ofNat 16 op, len := c.payload.length, tag := c.tag }) :
      ({ s with mailboxes := updAt (updAt s.mailboxes c.mbx f) c.mbx fun m => { m with own := true, done := false } } : State)
        = s.submitted c op := by
    unfold State.submitted
    rw [updAt_updAt, hf]
    rfl
  have hm : ∀ f : Mailbox → Mailbox, ({ s with mailboxes := updAt s.mailboxes c.mbx f } : State).mbx c.mbx = f (s.mbx c.mbx) :=
    fun f => State.mbx_updAt s f hlt
  have hsm : (s.submitted c op).mbx c.mbx = { s.mbx c.mbx with
      payload := memWrite (s.mbx c.mbx).payload 0 c.payload, opcode := BitVec.ofNat 16 op, len := c.payload.length, tag := c.tag
      own := true, done := false } := hm _
  unfold State.command State.whenIo
  rw [if_pos h.io]
  unfold State.submit
  dsimp only
  rw [if_neg (by have := h.mailbox; omega), hforb, if_neg (by simp), if_neg (by simp [h.free]), hmod, htake]
  unfold State.go
  dsimp only
  rw [hm, if_neg (by simp [h.free]), if_neg (by simp [h.runs]), if_pos (by simp [h.ready]), hsub _ rfl]
  unfold State.take State.askOf
  dsimp only
  rw [hsm, h.buffer, Option.filter_none]
  have hop : (BitVec.ofNat 16 op).toNat = op := by simp [BitVec.toNat_ofNat]; omega
  have hmin : min c.payload.length 4064 = c.payload.length := Nat.min_eq_left h.fits
  have hhalt : (s.submitted c op).power.halted = false := h.live
  dsimp only
  rw [hop, hmin, memRead_memWrite h.wf, hhalt, if_neg (by simp), if_neg (by simp [isExt]; omega)]

/-- A command that Beryl takes at once is judged, and a ROM command that passes runs its body (R349, R363). -/
theorem State.command_takes {s : State} {c : Sub} {op : Nat} (h : s.Takes c) (ho : op < 0x0F00)
    (hj : (s.submitted c op).judge' ⟨op, c.mbx, c.mbx, c.payload.length, c.payload, c.env⟩ = none) :
    s.command c op = (s.submitted c op).runRom ⟨op, c.mbx, c.mbx, c.payload.length, c.payload, c.env⟩ := by
  rw [State.command_taken h ho]
  have hjobs : (s.submitted c op).jobs = [] := h.alone
  have hide (i : Nat) : (s.submitted c op).ideUp i = s.ideUp i := rfl
  unfold State.takeRom
  rw [hj]
  simp only [hjobs, List.all_nil, if_true]
  unfold State.enter State.portFor
  simp [hjobs, hide, h.reach.1, h.reach.2, h.now]

theorem State.submitted_frame (s : State) (c : Sub) (op : Nat) : Frame [.mailboxes] s (s.submitted c op) := by
  intro p hp
  cases p <;> first | rfl | simp at hp

theorem State.submitted_others (s : State) (c : Sub) (op : Nat) : s.OthersKept c.mbx (s.submitted c op) := by
  intro k hk
  simp [State.submitted, updAt, hk.symm]

theorem State.submitted_mbx {s : State} {c : Sub} (h : s.Takes c) (op : Nat) :
    (s.submitted c op).mbx c.mbx = { s.mbx c.mbx with
      payload := memWrite (s.mbx c.mbx).payload 0 c.payload, opcode := BitVec.ofNat 16 op, len := c.payload.length, tag := c.tag
      own := true, done := false } :=
  State.mbx_updAt s _ (by have := h.mailbox; have := h.four; omega)

/-- The state in which a ROM command runs: the device writes that it causes are its mailbox's (R338). -/
def State.writingFor (s : State) (n : Nat) : State := { s with mem := { s.mem with writer := n } }

/-- A delivered completion touches no memory, and whose writes run plays no part in it. -/
theorem State.deliver_writingFor (s : State) (n k status : Nat) (data : List Byte) :
    (s.deliver n status data).writingFor k = (s.writingFor k).deliver n status data := by
  have hm (t : State) (v : Nat) : (t.message v).writingFor k = (t.writingFor k).message v := by
    have hi : (t.writingFor k).ints = t.ints := rfl
    unfold State.message
    rw [hi]
    by_cases h1 : (!t.ints.enabled) = true
    · rw [if_pos h1, if_pos h1]
    · rw [if_neg h1, if_neg h1]
      by_cases h2 : (t.ints.fmask || (t.ints.table.getD v ⟨0, 0, true⟩).masked) = true
      · rw [if_pos h2, if_pos h2]; rfl
      · rw [if_neg h2, if_neg h2]; rfl
  unfold State.deliver
  dsimp only
  have hi : ((s.writingFor k).mbx n).irqEn = (s.mbx n).irqEn := rfl
  rw [hi]
  split
  · exact hm _ _
  · rfl

/-- A command that Beryl takes at once, and whose body ends by completing it from a state in which the mailboxes stand as the
submission left them and no device write of it waits, answers with that completion and changes nothing else than its body does. -/
theorem State.command_answers {s : State} {c : Sub} {op : Nat} {i : Instr} (hi : exec i s = .next (s.command c op))
    (h : s.Takes c) (ho : op < 0x0F00)
    (hj : (s.submitted c op).judge' ⟨op, c.mbx, c.mbx, c.payload.length, c.payload, c.env⟩ = none)
    {u : State} {status : Nat} {data : List Byte} {changed : List Component}
    (hb : State.romBody ⟨op, c.mbx, c.mbx, c.payload.length, c.payload, c.env⟩ ((s.submitted c op).writingFor c.mbx)
      = u.complete c.mbx status data)
    (hm : u.mailboxes = (s.submitted c op).mailboxes) (hw : u.mem.owes c.mbx = false)
    (hf : Frame changed ((s.submitted c op).writingFor c.mbx) u) :
    exec i s = .next ((u.writingFor s.mem.writer).deliver c.mbx status data)
      ∧ s.Answers c status data changed ((u.writingFor s.mem.writer).deliver c.mbx status data) := by
  have hmv : (u.writingFor s.mem.writer).mailboxes = (s.submitted c op).mailboxes := hm
  have hmb : (u.writingFor s.mem.writer).mbx c.mbx = (s.submitted c op).mbx c.mbx := by simp [State.mbx, hmv]
  have hrun : (s.submitted c op).runRom ⟨op, c.mbx, c.mbx, c.payload.length, c.payload, c.env⟩
      = (u.writingFor s.mem.writer).deliver c.mbx status data := by
    rw [← State.deliver_writingFor, ← State.complete_settled status data h.mailbox hw, ← hb]
    rfl
  refine ⟨?_, ?_, ?_, ?_⟩
  · rw [hi, State.command_takes h ho hj, hrun]
  · apply State.deliver_holds _ status data h.mailbox
    · rw [hmv]; simp [State.submitted, updAt, h.four]
    · rw [hmb, State.submitted_mbx h op]; exact memWrite_wf 0 _ h.wf
  · intro k hk
    rw [State.deliver_others _ c.mbx status data k hk, hmv]
    exact s.submitted_others c op k hk
  · have hu : Frame changed (s.submitted c op) (u.writingFor s.mem.writer) := by
      intro p hp
      have h1 := hf p hp
      cases p <;> first | exact h1 | skip
      have h2 : u.mem = { s.mem with writer := c.mbx } := h1
      show { u.mem with writer := s.mem.writer } = s.mem
      rw [h2]
    refine Frame.trans (l := .mailboxes :: changed) ?_ (State.deliver_frame _ c.mbx status data) (by simp; tauto) (by simp)
    exact Frame.trans (s.submitted_frame c op) hu (by simp) (by simp; tauto)

/-- Reading on past a place. -/
theorem memRead_drop_take (m : Memory) (a n o k : Nat) (h : o + k ≤ n) : ((memRead m a n).drop o).take k = memRead m (a + o) k := by
  induction o generalizing a n with
  | zero =>
    induction k generalizing a n with
    | zero => simp [memRead]
    | succ k ih =>
      obtain ⟨n, rfl⟩ : ∃ p, n = p + 1 := ⟨n - 1, by omega⟩
      simpa [memRead] using ih (a + 1) n (by omega)
  | succ o ih =>
    obtain ⟨n, rfl⟩ : ∃ p, n = p + 1 := ⟨n - 1, by omega⟩
    simpa [memRead, Nat.add_comm, Nat.add_left_comm] using ih (a + 1) n (by omega)

theorem memRead_append (m : Memory) (a n k : Nat) : memRead m a n ++ memRead m (a + n) k = memRead m a (n + k) := by
  induction n generalizing a with
  | zero => simp [memRead]
  | succ n ih => rw [Nat.add_right_comm]; simpa [memRead, Nat.add_comm, Nat.add_left_comm] using ih (a + 1)

/-- The pages that an extent touches are none of them retired. -/
theorem Mem.pageRetired_of_touches {m : Mem} {a len b : Nat} (h : m.touchesRetired a len = false) (hl : 0 < len)
    (h1 : a / 65536 ≤ b) (h2 : b ≤ (a + len - 1) / 65536) : m.pageRetired b = false := by
  unfold Mem.touchesRetired at h
  rw [if_neg (by omega)] at h
  simp only [Bool.or_eq_false_iff, List.any_eq_false, Bool.and_eq_false_iff, Bool.not_eq_false'] at h
  obtain ⟨hp, hb⟩ := h
  unfold Mem.pageRetired
  rw [Bool.or_eq_false_iff]
  constructor
  · rw [List.contains_eq_any_beq, List.any_eq_false]
    intro p hm
    have := hp p hm
    simp at this ⊢
    omega
  · rcases hb with hb | hb
    · simp [Mem.bankHitsPage, hb]
    · have := hb (b - a / 65536) (List.mem_range.2 (by omega))
      rw [Nat.add_sub_cancel' h1] at this
      simpa using this

/-- A beat without an error in a page that is not retired reads as it is stored, and the read changes nothing (R284). -/
theorem State.readBeat_quiet (s : State) (req : Nat) (step : Quad) (a : Nat) (h : s.mem.pageRetired (a / 32 * 32 / 65536) = false)
    (hr : s.ioReach (a / 32 * 32) = true) :
    s.readBeat req step [] a = (some (memRead s.mem.cells (a / 32 * 32) 32), s) := by
  unfold State.readBeat
  dsimp only
  rw [if_neg (by simp [hr]), if_neg (by simp [h])]
  simp only [decodeBeat, syndromes, xorSyms, List.find?_nil, List.foldl_nil, and_self, if_true, List.filter_nil, Prod.mk.injEq,
    Option.some.injEq, and_true]
  exact List.ext_getElem (by simp) (by simp)

theorem State.readBeats_quiet (s : State) (req : Nat) (step : Quad) (k b : Nat) (acc : List Byte) (hb : b % 32 = 0)
    (h : ∀ i < k, s.mem.pageRetired ((b + 32 * i) / 65536) = false) (hr : ∀ i < k, s.ioReach (b + 32 * i) = true) :
    s.readBeats req step [] k b acc = (some (acc ++ memRead s.mem.cells b (32 * k)), s) := by
  induction k generalizing b acc with
  | zero => simp [State.readBeats, memRead]
  | succ k ih =>
    have hb' : b / 32 * 32 = b := by omega
    have h0 := s.readBeat_quiet req step b (by rw [hb']; simpa using h 0 (by omega)) (by rw [hb']; simpa using hr 0 (by omega))
    rw [hb'] at h0
    unfold State.readBeats
    rw [h0]
    dsimp only
    rw [ih (b + 32) (acc ++ memRead s.mem.cells b 32) (by omega)
      (fun i hi => by
        have := h (i + 1) (by omega)
        rwa [show b + 32 * (i + 1) = b + 32 + 32 * i by omega] at this)
      (fun i hi => by
        have := hr (i + 1) (by omega)
        rwa [show b + 32 * (i + 1) = b + 32 + 32 * i by omega] at this)]
    rw [List.append_assoc, memRead_append, show 32 + 32 * k = 32 * (k + 1) by omega]

/-- Device memory without an error and without a retired page reads as it is stored, and the read changes nothing (R282, R284). -/
theorem State.readDev_quiet (s : State) (req : Nat) (step : Quad) (a len : Nat) (h : s.mem.touchesRetired a len = false)
    (hr : s.Reached a len) (hl : 0 < len) : s.readDev req step [] a len = (some (memRead s.mem.cells a len), s) := by
  unfold State.readDev
  dsimp only
  have hd : 32 * ceilDiv (a - a / 32 * 32 + len) 32 ≥ a - a / 32 * 32 + len := by unfold ceilDiv; omega
  have hu : 32 * ceilDiv (a - a / 32 * 32 + len) 32 ≤ a - a / 32 * 32 + len + 31 := by unfold ceilDiv; omega
  rw [s.readBeats_quiet req step _ _ [] (by omega) (fun i hi => Mem.pageRetired_of_touches h hl (by omega) (by omega))
    fun i hi => hr _ (by omega) (by omega)]
  dsimp only
  rw [List.nil_append, memRead_drop_take _ _ _ _ _ hd]
  congr 3
  omega

/-- An image that can be read reads as it stands, whole or in parts, and the read changes nothing (R339, R364). -/
theorem State.imgRead_image {s : State} {c : Sub} {off : Nat} {im : List Byte} (h : ImageAt s c off im) {o len : Nat}
    (hl : o + len ≤ im.length) (h0 : 0 < len) :
    s.imgRead c.env (fieldLe c.payload off 8) o len = (.ok ((im.drop o).take len), s) := by
  obtain ⟨ha, ⟨hf, hs, hc⟩ | ⟨hd, he, hr, hv, hq, hm⟩⟩ := h
  · have hok : imgAddrOk (fieldLe c.payload off 8) = true := by
      unfold imgAddrOk
      rw [if_pos hf]
      simp_all
    unfold State.imgRead
    rw [hok, if_neg (by simp), if_pos hf, hc]
    dsimp only
    rw [if_pos hl]
  · have hf : ¬ 2 ^ 63 ≤ fieldLe c.payload off 8 := by unfold devEnd at hd; omega
    have hok : imgAddrOk (fieldLe c.payload off 8) = true := by
      unfold imgAddrOk
      rw [if_neg hf]
      simp [ha, hd]
    have ht : s.mem.touchesRetired (fieldLe c.payload off 8 + o) len = false := by
      rw [Bool.eq_false_iff]
      intro hx
      unfold Mem.touchesRetired at hx
      rw [if_neg (by omega)] at hx
      simp only [Bool.or_eq_true, List.any_eq_true, Bool.and_eq_true, decide_eq_true_eq, Bool.not_eq_true'] at hx
      have key {p : Nat} (h1 : (fieldLe c.payload off 8 + o) / 65536 ≤ p) (h2 : p ≤ (fieldLe c.payload off 8 + o + len - 1) / 65536) :
          s.mem.pageRetired p = false :=
        Mem.pageRetired_of_touches hr (by omega) (by omega) (by omega)
      rcases hx with ⟨p, hp, h1, h2⟩ | ⟨-, k, hk, hb⟩
      · have := key h1 h2
        simp [Mem.pageRetired, hp] at this
      · have := List.mem_range.1 hk
        have := key (p := (fieldLe c.payload off 8 + o) / 65536 + k) (by omega) (by omega)
        simp [Mem.pageRetired, hb] at this
    have hv' : s.Reached (fieldLe c.payload off 8 + o) len := fun b h1 h2 => hv b (by omega) (by omega)
    have hb := s.readDev_quiet rqBeryl noStep (fieldLe c.payload off 8 + o) len ht hv' h0
    unfold State.imgRead
    rw [hok, if_neg (by simp), if_neg hf, if_neg (by simp [ht]; omega), hq, hb]
    dsimp only
    rw [← hm, memRead_drop_take _ _ _ _ _ hl]

/-! ### The allocator -/

/-- A place lies in a gap that holds the bytes, at a multiple of 256 from its start (R72; log 10). -/
theorem State.place1_spec {s t : State} {extra : List (Nat × Nat)} {n a : Nat} (h : s.place1 extra n = some (a, t)) :
    t = { s with freeCtr := s.freeCtr + 2 } ∧ ∃ g ∈ s.gaps extra n, ∃ k ≤ (g.2 - n) / 256, a = g.1 + 256 * k := by
  unfold State.place1 at h
  split at h
  · cases h
  · rename_i g gs hg
    have hl : Config.placeChoice s.freeCtr % (gs.length + 1) < (g :: gs).length := Nat.mod_lt _ (Nat.succ_pos _)
    have hm : (g :: gs).getD (Config.placeChoice s.freeCtr % (gs.length + 1)) g ∈ g :: gs := by
      rw [List.getD_eq_getElem _ _ hl]; exact List.getElem_mem hl
    dsimp only at h
    generalize (g :: gs).getD (Config.placeChoice s.freeCtr % (gs.length + 1)) g = q at h hm
    obtain ⟨b, len⟩ := q
    simp only [Option.some.injEq, Prod.mk.injEq] at h
    exact ⟨h.2.symm, (b, len), hg ▸ hm, _, Nat.le_of_lt_succ (Nat.mod_lt _ (Nat.succ_pos _)), h.1.symm⟩

/-- There is a place exactly when there is a gap. -/
theorem State.place1_isSome (s : State) (extra : List (Nat × Nat)) (n : Nat) :
    (s.place1 extra n).isSome = !(s.gaps extra n).isEmpty := by
  unfold State.place1
  split <;> simp_all

end Sys2Proof.Machine
end

