-- ==== Sys2Proof/Tests/Slice0.lean ====
section
/-!
SUPPORT. Tests of the model's own: ill-formed commands that the checks refuse, one or two small facts of a single command with
values taken from the tables of spec/, and for every statement that has hypotheses states and operands that meet them all.
-/

set_option Elab.async false
namespace Sys2Proof.Tests

open Sys2Proof Sys2Proof.Machine

/-! ### Small states -/

/-- A block that is Ready, with its port up, every tower in service under epoch 1 and every Ovmen link in full service. -/
def ready : State := { State.reset with
  fuses := Fuses.delivered
  power := { Power.reset with linkUp := true, hdm := some (0, devEnd), phase := 6, ready := true }
  keep := { Keep.reset with state := 1, armed := true }
  measure := { Measure.reset with vin := 54000 }
  towers := List.replicate 324 { Tower.reset with admitted := true, epoch := 1 }
  domeEpoch := 1
  fabric := { Fabric.reset with links := List.replicate 7 { Link.reset with state := 2, lanes := 16 } } }

/-- The event ring on, at the bottom of memory, with 16 records. -/
def ringed : State := { ready with evt := { EvtLog.reset with en := true, intEn := true, log2 := 4 } }

/-- A module at the end of its life. -/
def scrapped : State := { ready with fuses := ⟨[⟨4, none, [], [], true⟩], [], [], []⟩ }

def quiet : Env := ⟨none, [], [], .committed, [], [], [], none, .now⟩

/-- A submission on a mailbox. -/
def sub (n : Nat) (b : List Byte) : Sub := ⟨n, b.length, 7, b, quiet⟩

/-- A submission whose image lies in host memory. -/
def subImg (b im : List Byte) : Sub := ⟨0, b.length, 7, b, { quiet with cache := some im }⟩

/-- The address of an image in host memory, as eight bytes; and a payload that names slot 0 and that address. -/
def hostAddr : List Byte := toLe 8 (2 ^ 63 + 0x1000)
def slotAt (im : List Byte) : Sub := subImg (List.replicate 8 0 ++ hostAddr) im

/-- One module, alone on its board. -/
def alone : Topology := ⟨0, 5, 0, 0, 1, 1000, 0, [⟨1, 0, 2, 0x10000000⟩], []⟩

/-- Two modules of one board; a third on another one. -/
def three : Topology := ⟨0, 5, 1, 0xFFFF, 1, 1000, 0, [⟨1, 0, 2, 0x10000000⟩, ⟨1, 1, 3, 0x20000000⟩, ⟨2, 0, 4, 0x30000000⟩], [⟨1, [0, 1]⟩]⟩

/-- A program of one layer: a LOSS of an activation that the host writes against a target (rows of 2). -/
def input : Desc := ⟨1, 2, 0x0B, 0, 0, [1, 2], [0, 1], 0xFF, 0xFF, 0, 0, noId, 0xFFFF, 0, 0, 0, 0⟩
def target : Desc := ⟨2, 2, 0x0B, 0, 0, [1, 2], [0, 1], 0xFF, 0xFF, 0, 0, noId, 0xFFFF, 0, 0, 0, 0x100⟩
def outD : Desc := ⟨3, 1, 0x0B, 2, 0, [1], [0], 0xFF, 0xFF, 0, 0, noId, 0xFFFF, 0, 0, 0, 0⟩
def lossRec : OpRec := ⟨0x0010, 0, 0, 2, 1, [1, 2], [3], 1 :: List.replicate 23 0, false⟩
def tiny : Program := ⟨0x0100, 1, [0, 0, 0, 0], [input, target, outD], [lossRec]⟩

/-- A descriptor and a record as Tables 2.3 and 2.6 lay them out, and the image of a program (Table 2.2). -/
def descBytes (d : Desc) : List Byte :=
  toLe 4 d.id ++ toLe 1 d.rank ++ toLe 1 d.fmtCode ++ toLe 1 d.role ++ toLe 1 d.zpMode ++ (d.shape.flatMap (toLe 4))
    ++ List.replicate (4 * (6 - d.rank)) 0 ++ d.order.flatMap (toLe 1) ++ List.replicate (6 - d.rank) 0xFF ++ toLe 1 d.bdim ++ toLe 1 d.cdim
    ++ toLe 2 d.tileOuter ++ toLe 2 d.tileInner ++ toLe 4 d.scaleId ++ toLe 2 d.cset ++ toLe 1 d.rot ++ toLe 1 d.qctl ++ toLe 4 d.rotSeed
    ++ toLe 8 d.addr

def opBytes (o : OpRec) : List Byte :=
  toLe 2 o.opcode ++ toLe 2 o.layer ++ toLe 2 o.flags ++ toLe 1 o.nIn ++ toLe 1 o.nOut ++ o.ins.flatMap (toLe 4)
    ++ List.replicate (4 * (6 - o.nIn)) 0xFF ++ o.outs.flatMap (toLe 4) ++ List.replicate (4 * (2 - o.nOut)) 0xFF ++ o.param

def programImage (p : Program) : List Byte :=
  toLe 2 p.version ++ [0, 0] ++ toLe 4 p.descs.length ++ toLe 4 p.ops.length ++ toLe 2 p.nLayers ++ [0, 0] ++ p.vmax.flatMap (toLe 4)
    ++ p.descs.flatMap descBytes ++ p.ops.flatMap opBytes

/-- A plan for `tiny` that changes nothing: every ladder is empty. -/
def flat : PlanEnt := ⟨[], [], [], [], 0x41, 0, 3, 0, 2, 4⟩
def flatPlan : Plan := ⟨9, false, [flat]⟩

/-- `tiny` loaded in slot 0. -/
def loaded : State := { ready with
  fabric := { ready.fabric with topo := some alone }
  slots := updAt ready.slots 0 fun x => { x with
    prog := some tiny, eta := some 0x3F800000, trackers := [Tracker.bare], versions := [0] } }

def planned : State := { loaded with
  slots := updAt loaded.slots 0 fun x => { x with plan := some flatPlan, trackers := [Tracker.cold flat] } }

/-- Device memory without a free byte, and with 1,280 bytes left: there an allocation of 256 bytes leaves room for one of 512
wherever it lies. -/
def packed : State := { loaded with slots := updAt loaded.slots 1 fun x => { x with allocs := [⟨0, 0, devEnd⟩] } }
def cramped : State := { loaded with
  slots := updAt loaded.slots 1 fun x => { x with allocs := [⟨0, 0, 0x100000⟩, ⟨0, 0x100500, devEnd - 0x100500⟩] } }

/-! ### Hypotheses that a small state meets -/

/-- What `State.Takes` asks, as a test. -/
def takesB (s : State) (c : Sub) : Bool :=
  s.ioUp && (s.ideUp 2 && s.ideUp 3) && decide (s.jobs = []) && !s.mem.owes c.mbx && decide (c.env.flight = .now) && decide (c.env.buf = none)
    && s.power.ready && !s.power.halted && !s.power.berylStop && decide (c.mbx < 4) && decide (s.mailboxes.length = 4)
    && !(s.mbx c.mbx).own && (s.mbx c.mbx).payload.wf && decide (c.payload.length ≤ 4064) && decide (c.len = c.payload.length)
    && decide (s.fuses.state = 4 → c.mbx = 0)

theorem takes_of {s : State} {c : Sub} (h : takesB s c = true) : s.Takes c := by
  simp only [takesB, Bool.and_eq_true, Bool.not_eq_true', decide_eq_true_eq] at h
  obtain ⟨⟨⟨⟨⟨⟨⟨⟨⟨⟨⟨⟨⟨⟨⟨a, r⟩, al⟩, se⟩, fl⟩, bu⟩, b⟩, d⟩, e⟩, f⟩, g⟩, i⟩, j⟩, k⟩, l⟩, m⟩ := h
  exact ⟨a, r, al, se, fl, bu, b, d, e, f, g, i, j, k, l, m⟩

/-- What `State.Takes` and `State.Open` ask together. -/
def goesB (s : State) (c : Sub) : Bool := takesB s c && !s.keep.advanced && decide (s.fuses.state ≠ 4)

theorem goes_of {s : State} {c : Sub} (h : goesB s c = true) : s.Takes c ∧ s.Open := by
  simp only [goesB, Bool.and_eq_true, Bool.not_eq_true', decide_eq_true_eq] at h
  exact ⟨takes_of h.1.1, h.1.2, h.2⟩

/-- What `ImageAt` asks of an image in host memory, as a test. -/
def imageB (c : Sub) (off : Nat) (im : List Byte) : Bool :=
  let a := fieldLe c.payload off 8
  decide (a % 256 = 0) && decide (2 ^ 63 ≤ a) && decide (a % 2 ^ 63 < 2 ^ 52) && decide (c.env.cache = some im)

theorem image_of {s : State} {c : Sub} {off : Nat} {im : List Byte} (h : imageB c off im = true) : ImageAt s c off im := by
  simp only [imageB, Bool.and_eq_true, decide_eq_true_eq] at h
  exact ⟨h.1.1.1, .inl ⟨h.1.1.2, h.1.2, h.2⟩⟩

theorem image_slot (s : State) (im : List Byte) : ImageAt s (slotAt im) 8 im :=
  have h : fieldLe (slotAt im).payload 8 8 = 2 ^ 63 + 0x1000 := show fieldLe (List.replicate 8 0 ++ hostAddr) 8 8 = _ by decide
  by unfold ImageAt; rw [h]; exact ⟨by decide, .inl ⟨by decide, by decide, rfl⟩⟩

/-! ### Witnesses: the queue and the mailbox commands -/

theorem witness_QueueIsServedInOrder : ready.pending = [] ∧ ready.earlyIdx = none ∧ ready.jobs = []
    ∧ ({ ready with pending := [.check, .commit] } : State).pending = .check :: [.commit] := by
  decide +kernel

theorem witness_EveryStepKeepsTheInvariant : ready.Inv ∧ step { ready with pending := [.check] } = .next ready :=
  ⟨by decide +kernel, rfl⟩

theorem witness_FusesAreNeverUnwritten : step { ready with pending := [.check] } = .next ready := rfl

/-- IDENTIFY in SCRAPPED too, on mailbox 0; the others open, on mailbox 3; UNIT_STATUS of each KIND, and of a KIND and a reserved byte that
it refuses. -/
theorem witness_StatusCommandsAnswer : (scrapped.Takes (sub 0 []) ∧ scrapped.fuses.state = 4)
    ∧ (ready.Takes (sub 3 []) ∧ ready.keep.advanced = false)
    ∧ (∀ k ≤ 2, ready.Takes (sub 0 [BitVec.ofNat 8 k, 0, 0, 0]))
    ∧ ∀ b ∈ ([[3, 0, 0, 0], [0, 1, 0, 0]] : List (List Byte)), ready.Takes (sub 0 b) ∧ b.length = 4
        ∧ (2 < fieldLe b 0 1 ∨ zeroAt b 1 3 = false) :=
  ⟨⟨takes_of (by decide +kernel), by decide +kernel⟩, ⟨takes_of (by decide +kernel), by decide +kernel⟩, fun _ _ => takes_of rfl,
    fun b h => ⟨takes_of (by revert b; decide +kernel), by revert b; decide +kernel⟩⟩

/-- IRQ_EN off; on with the vector masked; on and unmasked, the stream toward the host up and Insecure. -/
def msixOn (masked insecure : Bool) : State := { ready with
  ints := { Ints.reset with enabled := true, table := List.replicate 16 ⟨0, 0, masked⟩ }
  keep := { ready.keep with ide := [.off, if insecure then .insecure else .off, .off, .off] } }

theorem witness_CompletionRaisesTheVector :
    (let s := { ready with mailboxes := updAt ready.mailboxes 1 fun m => { m with irqEn := false } }
     s.Takes (sub 1 []) ∧ s.keep.advanced = false ∧ ((s.mbx 1).irqEn && s.ints.enabled) = false)
    ∧ (∀ b, (msixOn true b).Takes (sub 1 []) ∧ (msixOn true b).keep.advanced = false
        ∧ (((msixOn true b).mbx 1).irqEn && (msixOn true b).ints.enabled) = true
        ∧ ((msixOn true b).ints.fmask || ((msixOn true b).ints.table.getD 1 ⟨0, 0, true⟩).masked) = true)
    ∧ ∀ b, (msixOn false b).Takes (sub 1 []) ∧ (msixOn false b).keep.advanced = false
        ∧ (((msixOn false b).mbx 1).irqEn && (msixOn false b).ints.enabled) = true
        ∧ ((msixOn false b).ints.fmask || ((msixOn false b).ints.table.getD 1 ⟨0, 0, true⟩).masked) = false
        ∧ (msixOn false b).ideUp 1 = !b :=
  ⟨⟨takes_of (by decide +kernel), by decide +kernel⟩, fun b => ⟨takes_of (by revert b; decide +kernel), by revert b; decide +kernel⟩,
    fun b => ⟨takes_of (by revert b; decide +kernel), by revert b; decide +kernel⟩⟩

/-- A length that no command of the list takes; LOAD_PROGRAM, RUN_STEP and FUSE_LEDGER of a wrong length; a closed opcode on mailbox 1. -/
theorem witness_RefusedCommandsDoNothing :
    (ready.Takes (sub 0 [1]) ∧ ready.judge' ⟨0x0001, 0, 0, 1, [1], quiet⟩ = some 0x0011
      ∧ ready.judge' ⟨0x0201, 0, 0, 1, [1], quiet⟩ = some 0x0011 ∧ ready.judge' ⟨0x0202, 0, 0, 1, [1], quiet⟩ = some 0x0011
      ∧ ready.judge' ⟨0x0503, 0, 0, 1, [1], quiet⟩ = some 0x0011)
    ∧ ((ready.Takes (sub 1 []) ∧ ready.Open) ∧ ready.judge' ⟨0x0501, 1, 1, 0, [], quiet⟩ = some 0x0010 ∧ (sub 1 []).mbx ≠ 0)
    ∧ (ready.Takes (sub 0 [1]) ∧ ready.Open) ∧ (sub 0 [1]).payload.length ≠ 0 ∧ (sub 0 [1]).payload.length ≠ 16 :=
  ⟨⟨takes_of (by decide +kernel), by decide +kernel⟩, ⟨goes_of (by decide +kernel), by decide +kernel⟩, goes_of (by decide +kernel), by decide⟩

/-- Mailbox 2 owned, with a command of the host in it. -/
def owned : State := { ready with mailboxes := updAt ready.mailboxes 2 fun m => { m with own := true, done := false, opcode := 0x0202 } }

theorem witness_OwnedMailboxIsFrozen : owned.ioUp = true ∧ owned.mailboxes.length = 4 ∧ (owned.mbx 2).own = true ∧ owned.fuses.state ≠ 4 := by
  decide +kernel

/-- READ_LOG of the early buffer and of the ring at their last START, and each operand out of range. -/
theorem witness_ReadLogConsumesNothing :
    ready.Takes (sub 0 (toLe 1 0 ++ toLe 1 62 ++ toLe 2 0 ++ toLe 4 255))
      ∧ (ringed.Takes (sub 0 (toLe 1 1 ++ toLe 1 62 ++ toLe 2 0 ++ toLe 4 0)) ∧ ringed.evt.en = true
        ∧ ((0 : Word) - ringed.evt.tail).toNat ≤ (ringed.evt.head - ringed.evt.tail).toNat)
      ∧ (∀ q ∈ [(2, 1, 0), (0, 0, 0), (0, 63, 0), (0, 1, 256), (1, 1, 0)],
          ready.Takes (sub 0 (toLe 1 q.1 ++ toLe 1 q.2.1 ++ toLe 2 0 ++ toLe 4 q.2.2)))
      ∧ ready.evt.en = false
      ∧ ringed.Takes (sub 0 (toLe 1 1 ++ toLe 1 62 ++ toLe 2 0 ++ toLe 4 1))
      ∧ (ringed.evt.head - ringed.evt.tail).toNat < ((1 : Word) - ringed.evt.tail).toNat :=
  ⟨takes_of (by decide +kernel), ⟨takes_of (by decide +kernel), by decide +kernel⟩,
    fun q h => takes_of (by revert q; decide +kernel), by decide +kernel, takes_of (by decide +kernel), by decide +kernel⟩

/-- The last step that was accepted had number 7. -/
def stepped : State := { ready with belfry := { ready.belfry with lastStep := some 7 } }

/-- A code of 36 with a step above the last one, and the two refusals; the caps of 800 W, of the fused 2,400 W and of 790 W; a
period of 1 and of 720 hours, scrubbing off and on; CLEAR_DIVERGENCE in the measured-only mode. -/
theorem witness_SettingsCommands :
    (∀ q ∈ [(36, 8), (37, 8), (36, 7)], stepped.Takes (sub 0 (toLe 1 q.1 ++ List.replicate 7 0 ++ toLe 8 q.2)) ∧ stepped.Open)
      ∧ ¬ (8 : Nat) ≤ (7 : Quad).toNat ∧ (∃ n, stepped.belfry.lastStep = some n ∧ (7 : Quad).toNat ≤ n.toNat)
      ∧ (∀ c ∈ [80, 240, 79, 241], ready.Takes (sub 0 (toLe 2 c ++ [0, 0])) ∧ ready.Open) ∧ 240 ≤ ready.fuses.ceiling
      ∧ (∀ q ∈ [(0, 1), (0, 720), (1, 0), (2, 0)], ready.Takes (sub 0 (toLe 1 q.1 ++ [0] ++ toLe 2 q.2)) ∧ ready.Open)
      ∧ ({ ready with measure := { ready.measure with measOnly := true } } : State).Takes (sub 0 []) :=
  ⟨fun q h => goes_of (by revert q; decide +kernel), by decide, ⟨7, rfl, by decide⟩, fun c h => goes_of (by revert c; decide +kernel),
    by decide +kernel, fun q h => goes_of (by revert q; decide +kernel), takes_of (by decide +kernel)⟩

def cTopo (t : Topology) : Sub := slotAt t.image

theorem fits_three : three.Fits := by unfold Topology.Fits; decide +kernel
theorem fits_alone : alone.Fits := by unfold Topology.Fits; decide +kernel

theorem witness_TopologyImagesReadBack : three.Fits ∧ ImageAt ready (cTopo three) 8 three.image :=
  ⟨fits_three, image_slot _ _⟩

/-- The data group is not declared. -/
def lawless : Topology := { alone with dataGroup := 7 }

/-- A first topology, and the same again with another TIMEOUT; a reserved byte, an illegal topology; a landing area in a retired page. -/
theorem witness_SetTopologyInstalls :
    ((ready.Takes (cTopo three) ∧ ready.Open) ∧ three.Fits ∧ ImageAt ready (cTopo three) 8 three.image ∧ three.legal = true
      ∧ ready.steps = [] ∧ ready.MovedUntracked ∧ (cTopo three).payload.length = 16 ∧ (∀ r < three.modules.length, (three.others r).length ≤ 384)
      ∧ ready.mem.touchesRetired landBase (0x400000 * (three.others three.myRank).length) = false
      ∧ zeroAt (cTopo three).payload 0 8 = true ∧ ready.fabric.topo = none)
      ∧ (let t := { alone with timeoutMs := 10 }
         (loaded.Takes (cTopo t) ∧ loaded.Open) ∧ t.Fits ∧ ImageAt loaded (cTopo t) 8 t.image ∧ t.legal = true ∧ loaded.steps = [] ∧ loaded.MovedUntracked
           ∧ ∃ o, loaded.fabric.topo = some o ∧ { t with timeoutMs := o.timeoutMs, coolant := o.coolant } = o)
      ∧ (let c := subImg ([1] ++ List.replicate 7 0 ++ hostAddr) three.image
         (ready.Takes c ∧ ready.Open) ∧ ImageAt ready c 8 three.image ∧ zeroAt c.payload 0 8 = false)
      ∧ ((ready.Takes (cTopo lawless) ∧ ready.Open) ∧ lawless.Fits ∧ ImageAt ready (cTopo lawless) 8 lawless.image ∧ lawless.legal = false)
      ∧ (let s := { ready with mem := { ready.mem with pages := [landBase / 65536] } }
         (s.Takes (cTopo three) ∧ s.Open) ∧ s.steps = [] ∧ s.MovedUntracked ∧ ImageAt s (cTopo three) 8 three.image
           ∧ s.mem.touchesRetired landBase (0x400000 * (three.others three.myRank).length) = true) :=
  ⟨⟨goes_of (by decide +kernel), fits_three, image_slot _ _, by decide +kernel⟩,
    ⟨goes_of (by decide +kernel), by unfold Topology.Fits; decide +kernel, image_slot _ _, by decide +kernel, by decide +kernel,
      by decide +kernel, alone, rfl, rfl⟩,
    ⟨goes_of (by decide +kernel), image_of (by decide +kernel), by decide +kernel⟩,
    ⟨goes_of (by decide +kernel), by unfold Topology.Fits; decide +kernel, image_slot _ _, by decide +kernel⟩,
    goes_of (by decide +kernel), by decide +kernel, by decide +kernel, image_slot _ _, by decide +kernel⟩

/-! ### Witnesses: plans, coefficients, programs -/

/-- The image of `flatPlan` (Tables 6.4 and 6.5), and one of another version. -/
def planImage : List Byte :=
  toLe 2 0x0100 ++ toLe 2 1 ++ toLe 4 9 ++ List.replicate 24 0 ++ List.replicate 12 0 ++ List.replicate 4 0xFF ++ List.replicate 16 0
def badPlan : List Byte := [1, 2] ++ planImage.drop 2

/-- No tower in service: no share holds a tracker entry. -/
def dark : State := { loaded with towers := List.replicate 324 Tower.reset }

/-- `tiny` with a weight that nothing reads, and coefficient tables for it: one entry, one weight record. -/
def weight : Desc := ⟨4, 1, 0x0A, 1, 0, [8], [0], 0xFF, 0xFF, 0, 0, noId, 0xFFFF, 0, 0, 0, 0x1000⟩
def weighed : Program := { tiny with descs := tiny.descs ++ [weight] }
def coeffEntry : Coeff := ⟨0, 0, 0, 0, 0, 0x3F800000, 0, 0, 0, 0, 0⟩
def coeffImage (flags : Nat) : List Byte :=
  toLe 2 0x0100 ++ toLe 2 1 ++ toLe 4 1 ++ List.replicate 24 0
    ++ (List.replicate 20 0 ++ toLe 4 0x3F800000 ++ List.replicate 16 0 ++ toLe 4 flags ++ List.replicate 20 0)
    ++ (toLe 4 4 ++ List.replicate 12 0)
def withWeight : State := { loaded with
  slots := updAt loaded.slots 0 fun x => { x with prog := some weighed, allocs := [⟨3, 0x10000, 256⟩] } }
def noRoom : State := { packed with slots := updAt packed.slots 0 fun x => { x with prog := some weighed } }

/-- The rooms of `PlansAndCoefficientsInstall`, as tests. -/
def planRoom (s : State) (c : Sub) : Bool :=
  let free := (s.submitted c 0x0104).modSlot 0 fun y => { y with allocs := y.allocs.filter fun (a : Alloc) => a.kind != 1 }
  (free.placeAll [] [flatPlan.reserve tiny]).isSome && (free.shareEntries 0 tiny.nLayers).isSome

def coeffRoom (s : State) (c : Sub) (es : List Coeff) (ws : List WeightRec) : Bool :=
  let s0 := s.submitted c 0x0105
  let dirLen := roundUp (48 * ws.length) 256
  let oldDir := ((s0.slot 0).allocs.find? fun a => a.kind == 3 && a.len == dirLen).map (·.addr)
  let kept := s0.keptState weighed 0 es ws ++ (match oldDir with | some a => [(a, dirLen)] | none => [])
  let free := s0.modSlot 0 fun y => { y with allocs := y.allocs.filter fun (a : Alloc) => a.kind != 2 && a.kind != 3 }
  match free.newStates weighed 0 es kept ws [] with
  | none => false
  | some (_, made, s1) => oldDir.isSome || (s1.placeAll (kept ++ made.map fun (a : Alloc) => (a.addr, a.len)) [dirLen]).isSome

/-- What both commands ask besides the room. -/
def planAsks (s : State) (im : List Byte) : Bool :=
  goesB s (slotAt im) && decide (s.slots.length = 4) && decide (s.slotRunning 0 = false) && decide ((s.slot 0).prog = some tiny)
    && imageB (slotAt im) 8 im && decide (32 + 32 * tiny.nLayers ≤ im.length)

def coeffAsks (s : State) (im : List Byte) (es : List Coeff) : Bool :=
  goesB s (slotAt im) && decide (s.slots.length = 4) && decide (s.slotRunning 0 = false) && decide ((s.slot 0).prog = some weighed)
    && imageB (slotAt im) 8 im && decide (32 + 64 * 1 + 16 * weighed.weights.length ≤ im.length)
    && decide (s.mem.snoop = []) && decide (parseCoeffs weighed 1 (im.take 112) = some (es, [⟨4, 0, false, 0⟩]))

/-- A plan with and without room, one that its check refuses; a table whose directory stays, and one with momentum and no room. -/
theorem witness_PlansAndCoefficientsInstall :
    (planAsks loaded planImage = true ∧ parsePlan tiny (planImage.take 64) = some flatPlan ∧ planRoom loaded (slotAt planImage) = true)
      ∧ (planAsks dark planImage = true ∧ planRoom dark (slotAt planImage) = false)
      ∧ (planAsks loaded badPlan = true ∧ parsePlan tiny (badPlan.take 64) = none)
      ∧ (coeffAsks withWeight (coeffImage 0) [coeffEntry] = true ∧ coeffRoom withWeight (slotAt (coeffImage 0)) [coeffEntry] [⟨4, 0, false, 0⟩] = true)
      ∧ (let e := { coeffEntry with flags := 4 }
         coeffAsks noRoom (coeffImage 4) [e] = true ∧ coeffRoom noRoom (slotAt (coeffImage 4)) [e] [⟨4, 0, false, 0⟩] = false) := by
  refine ⟨⟨by decide +kernel, by decide +kernel, by decide +kernel⟩, ?_, by decide +kernel, ⟨by decide +kernel, by decide +kernel⟩, by decide +kernel, by decide +kernel⟩
  exact ⟨by decide +kernel, by decide +kernel⟩

def trackSlot : Slot := { planned.slot 0 with widenLeft := 255 }

theorem witness_TrackerImagesReadBack : trackSlot.trackers.length = flatPlan.layers.length
    ∧ (∀ q ∈ trackSlot.trackers.zip flatPlan.layers, q.1.rf ≤ q.2.fwdTop ∧ q.1.rg ≤ q.2.gradTop)
    ∧ (∀ k ∈ trackSlot.trackers, k.rf < 256 ∧ k.rg < 256 ∧ k.cleanF < 256 ∧ k.cleanG < 256 ∧ k.coldLeft < 256 ∧ k.roles.length = 4
      ∧ ∀ r ∈ k.roles, r.hist.length = 16 ∧ r.count < 256 ∧ r.head < 256 ∧ r.e ≠ some f32nan) := by decide +kernel

def cTrack : Sub := slotAt (trackSlot.trackerImage flatPlan)

/-- SAVE_TRACKERS at the last place below the landing area and above the first allocation. -/
def cSave : Sub := sub 0 (List.replicate 8 0 ++ toLe 8 0x20000)

/-- The host may hold the first line of it. -/
def tracked : State := { planned with mem := { planned.mem with snoop := [0x20000 / 64] } }

theorem witness_TrackersSaveAndLoad :
    ((planned.Takes cTrack ∧ planned.Open) ∧ ImageAt planned cTrack 8 (trackSlot.trackerImage flatPlan) ∧ planned.slots.length = 4
      ∧ (planned.slot 0).plan = some flatPlan ∧ planned.slotRunning 0 = false
      ∧ flatPlan.tag < 2 ^ 32 ∧ trackSlot.widenLeft < 256
      ∧ parseTrackers flatPlan.layers ((trackSlot.trackerImage flatPlan).drop 64) = some trackSlot.trackers
      ∧ ∀ k ∈ trackSlot.trackers, k.roles.length = 4 ∧ ∀ r ∈ k.roles, r.hist.length = 16)
    ∧ (∀ s ∈ [planned, tracked], (s.Takes cSave ∧ s.Open) ∧ s.mem.cells.wf = true ∧ (s.slot 0).plan = some flatPlan
      ∧ (s.slot 0).trackers.length = flatPlan.layers.length ∧ (∀ k ∈ (s.slot 0).trackers, k.roles.length = 4)
      ∧ (∀ x ∈ s.allocs, x.hits 0x20000 384 = false) ∧ s.ringHits 0x20000 384 = false ∧ s.landing = false
      ∧ s.mem.touchesRetired 0x20000 384 = false ∧ s.ioReach 0x20000 = true)
    ∧ planned.Untracked 0x20000 384 ∧ ¬ tracked.Untracked 0x20000 384 := by
  refine ⟨⟨goes_of (by decide +kernel), image_slot _ _, by decide +kernel⟩, fun s h => ?_, by decide +kernel, by decide +kernel⟩
  simp only [List.mem_cons, List.not_mem_nil, or_false] at h
  rcases h with rfl | rfl <;> exact ⟨goes_of (by decide +kernel), by decide +kernel⟩

def cProgram : Sub := slotAt (programImage tiny)

/-- An image of another version. -/
def oldImage : List Byte := programImage { tiny with version := 0x0200 }

/-- What a check of an image found. -/
def foundB (r : Except LoadFail Program) : Option (Nat ⊕ Program) := match r with | .ok p => some (.inr p) | .error f => some (.inl f.status)

theorem found_ok {r : Except LoadFail Program} {p : Program} (h : foundB r = some (.inr p)) : r = .ok p := by
  cases r <;> simp_all [foundB]

theorem found_bad {r : Except LoadFail Program} {n : Nat} (h : foundB r = some (.inl n)) : ∃ f, r = .error f ∧ f.status = n := by
  cases r <;> simp_all [foundB]

def emptied (s : State) : State := (s.submitted cProgram 0x0201).emptySlot 0

theorem emptied_places : ((emptied cramped).placeAll [] [256, 0, 0, 512]).isSome = true := by
  have h : ((emptied cramped).place1 [] 256).isSome = true := by rw [State.place1_isSome]; decide +kernel
  obtain ⟨⟨a, t⟩, h⟩ := Option.isSome_iff_exists.1 h
  obtain ⟨rfl, g, hg, k, hk, rfl⟩ := State.place1_spec h
  have hg' : g = (0x100000, 1280) := by
    have e : (emptied cramped).gaps [] 256 = [(0x100000, 1280)] := by decide +kernel
    simpa [e] using hg
  subst hg'
  have h2 : (State.place1 { emptied cramped with freeCtr := (emptied cramped).freeCtr + 2 } [(0x100000 + 256 * k, 256)] 512).isSome = true := by
    rw [State.place1_isSome]
    change (!((emptied cramped).gaps [(0x100000 + 256 * k, 256)] 512).isEmpty) = true
    have : k ≤ 4 := hk
    interval_cases k <;> decide +kernel
  obtain ⟨q, h2⟩ := Option.isSome_iff_exists.1 h2
  simp [State.placeAll, h, h2]

theorem emptied_sizes (s : State) : (emptied s).installProgram 0 tiny
    = (match (emptied s).placeAll [] [256, 0, 0, 512] with
      | none => none
      | some _ => (emptied s).installProgram 0 tiny) := by
  have e : (emptied s).placeAll ((tiny.descs.filter fun d => d.role == 1 || d.role == 5).map fun d => (d.addr, tiny.hostBytes d))
      ([2 * 48 * tiny.nStat, 16 * tiny.hostSets.length, 65536 * tiny.hostSets.length, tiny.poolBytes].map fun k => roundUp k 256)
        = (emptied s).placeAll [] [256, 0, 0, 512] := congrArg₂ _ (by decide +kernel) (by decide +kernel)
  cases h : (emptied s).placeAll [] [256, 0, 0, 512] with
  | none => unfold State.installProgram; dsimp only; rw [e, h]
  | some q => rfl

/-- `tiny` with room and without, and an image that its header's check refuses. -/
theorem witness_LoadProgramInstalls :
    ((cramped.Takes cProgram ∧ cramped.Open) ∧ ImageAt cramped cProgram 8 (programImage tiny) ∧ cramped.slotRunning 0 = false
      ∧ cramped.fabric.topo.isSome = true ∧ cramped.mem.snoop = [] ∧ cramped.mem.affine = [] ∧ cramped.checkImage (programImage tiny) = .ok tiny
      ∧ ((emptied cramped).installProgram 0 tiny).isSome = true)
    ∧ ((packed.Takes cProgram ∧ packed.Open) ∧ ImageAt packed cProgram 8 (programImage tiny)
      ∧ packed.checkImage (programImage tiny) = .ok tiny ∧ ((emptied packed).installProgram 0 tiny).isSome = false)
    ∧ ((cramped.Takes (slotAt oldImage) ∧ cramped.Open) ∧ ImageAt cramped (slotAt oldImage) 8 oldImage
      ∧ ∃ f, cramped.checkImage oldImage = .error f ∧ f.status = 0x0011) := by
  refine ⟨⟨goes_of (by decide +kernel), image_slot _ _, by decide +kernel, by decide +kernel, rfl, rfl, found_ok (by decide +kernel), ?_⟩,
    ⟨goes_of (by decide +kernel), image_slot _ _, found_ok (by decide +kernel), ?_⟩,
    goes_of (by decide +kernel), image_slot _ _, found_bad (by decide +kernel)⟩
  · obtain ⟨q, h⟩ := Option.isSome_iff_exists.1 emptied_places
    unfold State.installProgram
    dsimp only
    rw [show (emptied cramped).placeAll ((tiny.descs.filter fun d => d.role == 1 || d.role == 5).map fun d => (d.addr, tiny.hostBytes d))
      ([2 * 48 * tiny.nStat, 16 * tiny.hostSets.length, 65536 * tiny.hostSets.length, tiny.poolBytes].map fun k => roundUp k 256) = some q
        from (congrArg₂ _ (by decide +kernel) (by decide +kernel)).trans h]
    rfl
  · have h : (emptied packed).placeAll [] [256, 0, 0, 512] = none := by
      have : ((emptied packed).place1 [] 256).isSome = false := by rw [State.place1_isSome]; decide +kernel
      simp [State.placeAll, Option.isSome_eq_false_iff.1 this |> Option.isNone_iff_eq_none.1]
    rw [emptied_sizes, h]
    rfl

/-! ### Witnesses: steps, memory, security -/

/-- A step of `tiny` in slot 0, number 5, one micro-batch, submitted on mailbox 3, as acceptance leaves it. -/
def accepted : Step := { Step.ofPayload (List.replicate 56 0) 3 0 with
  number := 5, cadence := 36, rungs := [⟨0, 0, 0, 0, false, false, false, false⟩], losses := [none], mbs := [⟨0x100000, [0, 0, 0, 0]⟩] }

/-- `loaded` with a step in flight and its mailbox owned. -/
def flying (p : Step) : State := { loaded with
  steps := [p], mailboxes := updAt loaded.mailboxes 3 fun m => { m with own := true, opcode := 0x0202 } }

/-- A step that is being decided: nothing of it stops a new one. -/
def decided : Step := { accepted with stage := .committing, decided := some (false, 0) }

/-- PLACE_HINT: every quarter for record 0, and a record that the program does not have. -/
def cHint (record : Nat) : Sub := sub 0 ([0, 0, 0, 0] ++ toLe 4 record ++ toLe 4 15 ++ toLe 4 0)

theorem witness_HintsStepSizesAborts :
    (∀ r ∈ [0, 1], (loaded.Takes (cHint r) ∧ loaded.Open) ∧ (loaded.slot 0).prog = some tiny
        ∧ (applyHint tiny (loaded.slot 0).hints (fieldLe (cHint r).payload 1 1) (fieldLe (cHint r).payload 4 4) (fieldLe (cHint r).payload 8 4)
            (fieldLe (cHint r).payload 12 4)).isSome = decide (r = 0))
      ∧ (∀ w ∈ [0x3F800000, 0xBF800000], (loaded.Takes (sub 0 ([0, 0, 0, 0] ++ toLe 4 w)) ∧ loaded.Open)
        ∧ f32nonneg (BitVec.ofNat 32 w) = decide (w = 0x3F800000))
      ∧ ((loaded.Takes (sub 0 [0, 0, 0, 0]) ∧ loaded.Open) ∧ loaded.slotRunning 0 = false)
      ∧ (((flying accepted).Takes (sub 0 [0, 0, 0, 0]) ∧ (flying accepted).Open) ∧ (flying accepted).earlyIdx = some 0 ∧ accepted.slot = 0
        ∧ accepted.ended = .running)
      ∧ (∀ b ∈ ([[0, 0, 0, 0], [0, 1, 0, 0]] : List (List Byte)),
          ((flying decided).Takes (sub 0 b) ∧ (flying decided).Open) ∧ b.length = 4 ∧ (flying decided).slotRunning (fieldLe b 0 1) = true)
      ∧ (flying decided).earlyIdx = none
      ∧ (∀ b ∈ ([[4, 0, 0, 0], [0, 1, 0, 0]] : List (List Byte)), (loaded.Takes (sub 0 b) ∧ loaded.Open) ∧ b.length = 4
          ∧ loaded.slotRunning (fieldLe b 0 1) = false ∧ (3 < fieldLe b 0 1 ∨ zeroAt b 1 3 = false)) := by
  refine ⟨fun r h => ?_, fun w h => ?_, ⟨goes_of (by decide +kernel), by decide +kernel⟩, ⟨goes_of (by decide +kernel), by decide +kernel⟩,
    fun b h => ⟨goes_of (by revert b; decide +kernel), by revert b; decide +kernel⟩, by decide +kernel,
    fun b h => ⟨goes_of (by revert b; decide +kernel), by revert b; decide +kernel⟩⟩
  · exact ⟨goes_of (by revert r; decide +kernel), by decide +kernel, by revert r; decide +kernel⟩
  · exact ⟨goes_of (by revert w; decide +kernel), by revert w; decide +kernel⟩

/-- RUN_STEP of slot 0: one micro-batch at 0x100000, step 5, ETA of the slot (Table 14.10); and one of a slot without a program. -/
def cRun (slot : Nat) : Sub :=
  sub 0 (toLe 1 slot ++ [0, 1, 0] ++ toLe 4 0xFFFFFFFF ++ toLe 8 5 ++ toLe 8 1 ++ List.replicate 8 0 ++ toLe 8 0x100000 ++ List.replicate 16 0)

theorem witness_RunStepIsAccepted :
    (∀ n ∈ [0, 1], (loaded.Takes (cRun n) ∧ loaded.Open) ∧ fieldLe (cRun n).payload 0 1 = n
      ∧ (cRun n).payload.length = 32 + 24 * fieldLe (cRun n).payload 2 1 ∧ (loaded.slot n).stormHalt = false ∧ (loaded.slot n).faultHalt = false)
    ∧ loaded.slots.length = 4 ∧ loaded.earlyIdx = none ∧ loaded.barrierIdx = none ∧ loaded.fabric.topo.isSome = true
    ∧ (loaded.submitted (cRun 0) 0x0202).runOk (cRun 0).payload = some (tiny, alone)
    ∧ (loaded.submitted (cRun 1) 0x0202).runOk (cRun 1).payload = none
    ∧ (loaded.belfry.cadenceFor 5).1 ≤ loaded.belfry.holdMax ∧ loaded.peerLinks = [] :=
  ⟨fun n h => ⟨goes_of (by revert n; decide +kernel), by revert n; decide +kernel⟩, by decide +kernel⟩

/-- 4,096 pages already retired, none of them the last. -/
def fullPages : State := { ready with mem := { ready.mem with pages := List.range 4096 } }

/-- The landing area in use: rank 0 of three modules. -/
def landed : State := { ready with fabric := { ready.fabric with topo := some three } }
def banked (bs : List Bank) : State := { ready with mem := { ready.mem with banks := bs } }

/-- The last page and the first page beyond; the last page again, a page of the landing area and the one below it; the last bank, the
same again, a ninth and one of no stack. -/
theorem witness_RetirementMakesHoles :
    ((cramped.Takes (sub 0 (toLe 8 12582911)) ∧ cramped.Open) ∧ cramped.steps = [] ∧ cramped.landing = false ∧ cramped.slots.length = 4 ∧ cramped.MovedUntracked
      ∧ 12582911 ∉ cramped.mem.pages ∧ cramped.mem.pages.length < 4096)
      ∧ (ready.Takes (sub 0 (toLe 8 12582912)) ∧ ready.Open)
      ∧ ((fullPages.Takes (sub 0 (toLe 8 12582911)) ∧ fullPages.Open) ∧ 12582911 ∉ fullPages.mem.pages ∧ 4096 ≤ fullPages.mem.pages.length
        ∧ 4095 ∈ fullPages.mem.pages ∧ fullPages.landing = false)
      ∧ (∀ p ∈ [landBase / 65536, landBase / 65536 - 1], landed.Takes (sub 0 (toLe 8 p)) ∧ landed.Open)
      ∧ (landed.landing = true ∧ landBase ≤ landBase / 65536 * 65536 ∧ (landBase / 65536 - 1) * 65536 < landBase)
      ∧ (∀ bs ∈ [[], [⟨11, 31, 31⟩], (List.range 8).map fun k => (⟨k, 0, 0⟩ : Bank)], ((banked bs).Takes (sub 0 [11, 31, 31, 0]) ∧ (banked bs).Open)
        ∧ (banked bs).steps = [] ∧ (banked bs).landing = false ∧ (banked bs).MovedUntracked)
      ∧ (⟨11, 31, 31⟩ : Bank) ∉ (List.range 8).map (fun k => (⟨k, 0, 0⟩ : Bank))
      ∧ (ready.Takes (sub 0 [12, 0, 0, 0]) ∧ ready.Open) ∧ landed.Takes (sub 0 [11, 31, 31, 0]) :=
  ⟨⟨goes_of (by decide +kernel), by decide +kernel⟩, goes_of (by decide +kernel),
    ⟨goes_of (by decide +kernel), by decide +kernel, by decide +kernel⟩, fun p h => goes_of (by revert p; decide +kernel), by decide +kernel,
    fun bs h => ⟨goes_of (by revert bs; decide +kernel), by revert bs; decide +kernel⟩, by decide +kernel, goes_of (by decide +kernel),
    takes_of (by decide +kernel)⟩

/-- Seven cells of one bank stuck at one, in seven rows and columns: one more than its spares, four rows and two columns (Table 11.5). -/
def sevenFails : List MarchBit := (List.range 7).map fun r => ⟨⟨0, false, 0, 0xFF, r, r⟩, [⟨0, 1, 0, true⟩]⟩
def sevenFound (unit : Nat) : List MarchFail := (List.range 7).map fun r => ⟨unit, false, 0, 0xFF, r, r, 1, 0⟩

/-- What replaces a failing bit where a bank has so many spares (R305). -/
def mend (rows cols : Nat) (all : List MarchFail) (f : MarchFail) : Nat :=
  let fs := all.filter (sameBank f)
  let r0 : Repair := ⟨rows, cols, [], []⟩
  let r := if f.die ≠ 0xFF then repairRest fs r0 else repairRest fs (repairCols fs (repairRows fs r0))
  if r.rowsUsed.contains f.row then 1 else if r.colsUsed.contains f.bit then 2 else 0

/-- Whatever the factory has used of the spares, not all seven are replaced. -/
theorem seven_unrepaired : unrepaired (repairs [] (marchRun 0 (towerCells 323 sevenFails))) ≠ 0 := by
  have e : marchRun 0 (towerCells 323 sevenFails) = sevenFound 323 := by decide +kernel
  have m : mergeFails (sevenFound 323) = sevenFound 323 := by decide +kernel
  have h : repairs [] (sevenFound 323)
      = (sevenFound 323).map fun f => (f, mend (4 - Config.hardRows 323 0) (2 - Config.hardCols 323 0) (sevenFound 323) f) := by
    unfold repairs
    rw [m]
    apply List.map_congr_left
    intro f hf
    have hu : f.unit = 323 ∧ f.scratch = false ∧ f.bank = 0 ∧ f.die = 0xFF := by revert f; decide +kernel
    have hs : sparesOf [] f = (4 - Config.hardRows 323 0, 2 - Config.hardCols 323 0) := by simp [sparesOf, hu]
    unfold repairOf mend
    rw [hs]
  rw [e, h]
  have hr : 4 - Config.hardRows 323 0 ≤ 4 := Nat.sub_le _ _
  have hc : 2 - Config.hardCols 323 0 ≤ 2 := Nat.sub_le _ _
  generalize 4 - Config.hardRows 323 0 = r at *
  generalize 2 - Config.hardCols 323 0 = c at *
  interval_cases r <;> interval_cases c <;> decide +kernel

def cReset (kind u : Nat) (fs : List MarchBit) : Sub := ⟨0, 4, 7, toLe 1 kind ++ [0] ++ toLe 2 u, { quiet with fails := fs }⟩

/-- A march of the I/O SRAM with room for two records; and of no target. -/
def cMarch (target : Nat) : Sub :=
  ⟨0, 24, 7, toLe 1 target ++ [1, 0, 0] ++ [0, 0] ++ [0, 0] ++ toLe 8 0x30000 ++ toLe 4 2 ++ toLe 4 0, { quiet with fails := sevenFails }⟩

/-- A module whose tower 323 holds a tracker entry and whose other towers are out of service. -/
def lonely : State := { dark with
  slots := planned.slots, towers := updAt dark.towers 323 fun x => { x with admitted := true, entries := [(0, 0)] } }

theorem witness_MarchesAndReadmission :
    (∀ k ∈ [1, 3], ((ready.Takes (cMarch k) ∧ ready.Open) ∧ ready.steps = [] ∧ (cMarch k).payload.length = 24
      ∧ (ready.submitted (cMarch k) 0x0304).marchOk (March.of (cMarch k).payload)
          (zeroAt (cMarch k).payload 3 1 && zeroAt (cMarch k).payload 20 4) = decide (k = 1)))
      ∧ ((March.of (cMarch 1).payload).target = 1 ∧ ready.mem.cells.wf = true ∧ ready.mem.snoop = [] ∧ ∀ x ∈ ready.towers, x.routerFault = false)
      ∧ (∀ q ∈ [(0, 323), (1, 323), (2, 6), (3, 0), (0, 324), (1, 324), (2, 7)], ∀ fs ∈ [[], sevenFails],
          (ready.Takes (cReset q.1 q.2 fs) ∧ ready.Open) ∧ (cReset q.1 q.2 fs).mbx = 0)
      ∧ (ready.towers.length = 324 ∧ (ready.tower 323).state ≠ 3 ∧ (ready.tower 323).entries = [] ∧ ready.fabric.links.length = 7
        ∧ unrepaired (repairs ready.mem.repairs (marchRun 0 (towerCells 323 []))) = 0)
      ∧ unrepaired (repairs ready.mem.repairs (marchRun 0 (towerCells 323 sevenFails))) ≠ 0
      ∧ ((ready.submitted (cReset 1 323 []) 0x0601).moveEntries 323).isSome = true
      ∧ ((lonely.Takes (cReset 1 323 []) ∧ lonely.Open) ∧ lonely.steps = [] ∧ lonely.towers.length = 324 ∧ (lonely.tower 323).state ≠ 3
        ∧ ((lonely.submitted (cReset 1 323 []) 0x0601).moveEntries 323).isSome = false) := by
  refine ⟨fun k h => ⟨goes_of (by revert k; decide +kernel), by revert k; decide +kernel⟩, by decide +kernel, fun q hq fs hf => ⟨goes_of ?_, rfl⟩,
    by decide +kernel, seven_unrepaired, by decide +kernel, goes_of (by decide +kernel), by decide +kernel⟩
  revert q fs
  decide +kernel

/-- A module without an identity, as manufacturing leaves it. -/
def unborn : State := { ready with fuses := ⟨[], [], [], []⟩ }

/-- A module whose Keep holds an identity key. -/
def keyed : State := { ready with keep := { ready.keep with identity := some ⟨3233, 2753⟩ } }

/-- LIFECYCLE_ADVANCE to the next state, LOWER_CEILING to 2,000 W, RETIRE_TOWER of tower 323: each with an image address. -/
def cAdvance : Sub := subImg ([2] ++ List.replicate 7 0 ++ hostAddr) []
def cLower : Sub := subImg ([1, 0] ++ toLe 2 200 ++ List.replicate 4 0 ++ hostAddr) []
def cRetire : Sub := subImg ([2, 0] ++ toLe 2 323 ++ List.replicate 4 0 ++ hostAddr) []
def retiredOut : State := { ready with fuses := { ready.fuses with tower := [⟨323, none, [], [], true⟩] } }

theorem witness_SecurityCommands :
    ((keyed.Takes (sub 0 (List.replicate 32 7)) ∧ keyed.Open) ∧ keyed.keep.state < 2 ∧ keyed.fuses.state ≠ 0 ∧ keyed.keep.identity = some ⟨3233, 2753⟩)
      ∧ ((ready.Takes (sub 0 (List.replicate 32 7)) ∧ ready.Open) ∧ ready.keep.state < 2 ∧ ready.keep.identity = none)
      ∧ ((unborn.Takes (sub 0 (List.replicate 32 7)) ∧ unborn.Open) ∧ unborn.keep.state < 2 ∧ unborn.fuses.state = 0)
      ∧ ((ready.Takes cAdvance ∧ ready.Open) ∧ cAdvance.payload.length = 16 ∧ ready.steps = [] ∧ ready.supplyOk = true
        ∧ zeroAt cAdvance.payload 1 7 = true ∧ ready.ext.inFlight = none ∧ cAdvance.env.fuse = .committed
        ∧ (transitionSigners ready.fuses.state (fieldLe cAdvance.payload 0 1)).isEmpty = false
        ∧ ready.fuses.life.length < 8 ∧ fieldLe cAdvance.payload 0 1 ≠ 1)
      ∧ (ready.Takes (sub 0 (List.replicate 16 0)) ∧ ready.Open)
      ∧ ((ready.Takes cLower ∧ ready.Open) ∧ zeroAt cLower.payload 1 1 = true ∧ zeroAt cLower.payload 4 4 = true
        ∧ fieldLe cLower.payload 0 1 = 1 ∧ fieldLe cLower.payload 2 2 = 200 ∧ ready.fuses.state ≠ 3 ∧ 200 < ready.fuses.ceiling
        ∧ ready.fuses.ceil.length < 8)
      ∧ ((ready.Takes cRetire ∧ ready.Open) ∧ fieldLe cRetire.payload 0 1 = 2 ∧ fieldLe cRetire.payload 2 2 = 323
        ∧ 323 ∉ ready.fuses.retiredTowers ∧ ready.towers.length = 324 ∧ (ready.tower 323).entries = [] ∧ ready.fuses.tower.length < 16)
      ∧ ((retiredOut.Takes cRetire ∧ retiredOut.Open) ∧ retiredOut.supplyOk = true ∧ 323 ∈ retiredOut.fuses.retiredTowers) :=
  ⟨⟨goes_of (by decide +kernel), by decide +kernel⟩, ⟨goes_of (by decide +kernel), by decide +kernel⟩, ⟨goes_of (by decide +kernel), by decide +kernel⟩,
    ⟨goes_of (by decide +kernel), by decide +kernel⟩, goes_of (by decide +kernel), ⟨goes_of (by decide +kernel), by decide +kernel⟩,
    ⟨goes_of (by decide +kernel), by decide +kernel⟩, goes_of (by decide +kernel), by decide +kernel⟩

/-- An extension image of one command, 0xF00 with flag 0, and no code (Table 14.17); and one that names no command. -/
def extImage (n : Nat) : List Byte :=
  toLe 2 0x0100 ++ toLe 2 n ++ toLe 4 0 ++ toLe 8 1 ++ toLe 2 0x0F00 ++ toLe 2 0 ++ List.replicate 512 0
def cExt (n : Nat) : Sub := subImg (hostAddr ++ toLe 4 532 ++ toLe 4 0) (extImage n)

/-- An extension loaded with one command that any mailbox may carry; its command in flight on mailbox 3. -/
def extended : State := { ready with ext := ⟨1, [(0x0FFF, 1)], [], none, true⟩ }
def engaged : State := { extended with ext := { extended.ext with inFlight := some 3 } }

theorem witness_ExtensionsRun :
    (∀ n ∈ [0, 1], ((ready.Takes (cExt n) ∧ ready.Open) ∧ ready.keep.state < 2 ∧ ready.ext.inFlight = none
      ∧ zeroAt (cExt n).payload 12 4 = true ∧ ImageAt ready (cExt n) 0 (extImage n) ∧ fieldLe (cExt n).payload 8 4 = (extImage n).length
      ∧ extForm (extImage n) = decide (n = 1)))
      ∧ ((extended.Takes (sub 3 []) ∧ extended.Open) ∧ extended.ext.cmds.find? (fun q => q.1 == 0x0FFF) = some (0x0FFF, 1)
        ∧ extended.ext.loaded = true ∧ extended.ext.inFlight = none ∧ (sub 3 []).env.acts = [])
      ∧ (∀ st ∈ [0x0001, 65535], extended.Takes ⟨3, 0, 7, [], { quiet with acts := [.finish st [1, 2]] }⟩)
      ∧ (engaged.power.powered = true ∧ engaged.ext.inFlight = some 3 ∧ engaged.mailboxes.length = 4 ∧ (engaged.mbx 3).payload.wf = true
        ∧ engaged.mem.owes 3 = false) := by
  refine ⟨fun n h => ?_, ⟨goes_of (by decide +kernel), by decide +kernel⟩,
    fun st h => takes_of (by revert st; decide +kernel), by decide +kernel⟩
  exact ⟨goes_of (by revert n; decide +kernel), by decide +kernel, by decide +kernel, by revert n; decide +kernel,
    image_of (by revert n; decide +kernel), by revert n; decide +kernel⟩

/-! ### Witnesses: registers and the port -/

/-- A free mailbox; its last payload word is word 1,015; a write of two of its words, the first of which leaves the port as it was. -/
theorem witness_RegisterWritesByAccessCode : ready.ioUp = true ∧ ready.mailboxes.length = 4 ∧ (ready.mbx 3).own = false ∧ ready.fuses.state ≠ 4
    ∧ (ready.mbx 3).payload.wf = true ∧ ready.power.ready = true ∧ 1015 < 1016 ∧ 15 < 16
    ∧ ∃ u, exec (.registerWrite 0x10020 ⟨1, none⟩ (255 % 16) quiet) ready = .next u ∧ u.ioUp = ready.ioUp :=
  ⟨by decide +kernel, by decide +kernel, by decide +kernel, by decide +kernel, by decide +kernel, by decide +kernel, by decide, by decide, _, rfl,
    by decide +kernel⟩

/-- The time counter, the last counter of the window, and a control register that leaves the shadows. -/
theorem witness_CountersLatchTheirShadow : ready.ioUp = true ∧ ready.power.ready = true ∧ ready.towers.length = 324 ∧ ready.ideUp 1 = true
    ∧ ctrAt (baseAddr 0x28) = some .time ∧ definedAt 0x28 = true ∧ baseAddr (0x28 + 4) = baseAddr 0x28 + 4
    ∧ ctrAt (baseAddr 0x50060) = some (.stwSum 8) ∧ definedAt 0x50060 = true
    ∧ ready.window.sums.length = 9
    ∧ (∃ t, exec (.twrUtilCtrlFreeze 0 .base 3) ready = .next t) ∧ (∃ t, exec (.twrUtilCtrlClear 0 .base 3) ready = .next t)
    ∧ (∃ t, exec (.jspCtrlFreeze 0 .base 3) ready = .next t) ∧ ∃ t, exec (.jspCtrlClear 0 .base 3) ready = .next t := by
  refine ⟨by decide +kernel, by decide +kernel, by decide +kernel, by decide +kernel, by decide +kernel, by decide +kernel, by decide +kernel,
    by decide +kernel, by decide +kernel, by decide +kernel, ⟨_, rfl⟩, ⟨_, rfl⟩, ⟨_, rfl⟩, _, rfl⟩

/-- A tower in service and one out of service. -/
theorem witness_TowerCounterControls : ready.ioUp = true ∧ ready.power.ready = true ∧ ready.towers.length = 324
    ∧ (ready.tower 323).jsp.outstPeak < 2 ^ 32 ∧ (ready.tower 323).inService = true ∧ ready.ideUp 1 = true
    ∧ (dark.ioUp = true ∧ dark.power.ready = true ∧ dark.towers.length = 324 ∧ (dark.tower 323).inService = false) := by decide +kernel

/-- A hole of the map of 8 bytes, a register with three bytes enabled; a message with its stream up, and one with it Insecure; the last words
of mailbox 3, and its first two, in SCRAPPED. -/
theorem witness_ReservedAndClosedAddresses :
    (ready.ioUp = true ∧ ∀ w, 0x00FF8 / 4 ≤ w → 4 * w < 0x00FF8 + 8 → definedAt (4 * w) = false)
    ∧ definedAt 0x00FF8 = false ∧ definedAt (0x00FF8 + 4) = false
    ∧ (definedAt 0x20004 = true ∧ ready.forbids 0x20004 = false ∧ 14 % 16 ≠ 15 ∧ isPayload (baseAddr 0x20004) = false)
    ∧ (ready.ideUp (Posted.aer 0).stream = true ∧ (msixOn false true).ideUp (Posted.aer 0).stream = false ∧ (msixOn false true).ioUp = true)
    ∧ (scrapped.ioUp = true ∧ scrapped.fuses.state = 4 ∧ definedAt (0x10000 + 0x1000 * 3 + 0xFFC) = true
      ∧ definedAt (0x10000 + 0x1000 * 3 + 0) = true ∧ definedAt (0x10000 + 0x1000 * 3 + 0 + 4) = true ∧ 0 + 4 ≤ 4) := by
  refine ⟨⟨by decide +kernel, fun w h1 h2 => ?_⟩, by decide +kernel, by decide +kernel, by decide +kernel, by decide +kernel, by decide +kernel⟩
  obtain rfl | rfl : w = 0x3FE ∨ w = 0x3FF := by omega
  all_goals decide +kernel

/-- A die that exists and one that does not; EVT_CTRL with the ring off and on, a legal and an illegal base; a tail within and beyond
the records. -/
theorem witness_MemoryAndEventRegisters : ready.ioUp = true ∧ ready.power.ready = true ∧ ready.mem.erase.length = 12
    ∧ (17 < (aliasApplied .base 0 0x92).toNat % 32 ∧ (aliasApplied .base 0 0x92).getLsbD 7 = true)
    ∧ ¬ 17 < (aliasApplied .base 0 0x91).toNat % 32
    ∧ ((aliasApplied .set 0 1).getLsbD 0 = true ∧ ready.evt.en = false ∧ ready.ringOk = true
      ∧ ({ ready with evt := { ready.evt with log2 := 0 } } : State).ringOk = false)
    ∧ (ringed.ioUp = true ∧ ringed.power.ready = true ∧ ringed.evt.en = true ∧ (aliasApplied .clr 3 1).getLsbD 0 = false
      ∧ (aliasApplied .base 3 1).getLsbD 0 = ringed.evt.en)
    ∧ (0 - ringed.evt.tail).toNat ≤ (ringed.evt.head - ringed.evt.tail).toNat
    ∧ (ringed.evt.head - ringed.evt.tail).toNat < (1 - ringed.evt.tail).toNat := by decide +kernel

/-- A vector that is pending while masked, and while the stream toward the host is up and Insecure; MSI-X with and without the function mask;
an SMBus code that is listed and one that is not, with the packet error code and another. -/
theorem witness_InterruptsAndManagementBus : ready.ioUp = true ∧ ready.power.ready = true ∧ ready.ints.table.length = 16
    ∧ ready.power.powered = true
    ∧ (∀ b, let s := { msixOn true b with ints := { (msixOn true b).ints with pending := 0x8000 } }
       s.ioUp = true ∧ s.power.ready = true ∧ s.ints.table.length = 16
         ∧ (s.ints.enabled && !s.ints.fmask && s.ints.pending.getLsbD 15) = true ∧ s.ideUp 1 = !b)
    ∧ (true && !true) = false ∧ (true && !false) = true ∧ 11 ≤ 11 ∧ 11 < 12
    ∧ smbusPec ([0xB0, BitVec.ofNat 8 7] ++ toLe 2 (1 : Half).toNat) + 1 ≠ smbusPec ([0xB0, BitVec.ofNat 8 7] ++ toLe 2 (1 : Half).toNat) := by
  decide +kernel

/-- A route leads wherever no router has failed. -/
theorem reached_of {s : State} (h : s.towers.all (fun t => !t.routerFault) = true) (a len : Nat) : s.Reached a len := by
  intro b _ _
  simp [State.ioReach, h]

theorem reached_ready : ready.towers.all (fun t => !t.routerFault) = true := by decide +kernel

/-- A march of the Onyx bank of line 0 in flight. -/
def marching : State := { ready with
  jobs := [(⟨0x0304, 1, 1, 24, [2, 0, 1, 0] ++ List.replicate 20 0, quiet⟩, false)] }

/-- What the second part asks of a write that waits: tracked line, the writes of it, the completion that waits for them. -/
def awaiting : State := { ready with
  mem := { ready.mem with snoop := [5], waiting := [⟨320, [1], 2⟩] }, late := [⟨2, 0, [7]⟩] }

/-- The last line of the window and the first address outside it; a retired page, SCRAPPED, a march; a tracked line of the landing area; an
answer without and with a completion that waits for it. -/
theorem witness_HostMemoryAccesses :
    (ready.memUp = true ∧ ready.power.hdm = some (0, devEnd) ∧ ready.mem.cells.wf = true ∧ 0 + devEnd ≤ devEnd ∧ devEnd - 1 < devEnd
      ∧ ready.fuses.state ≠ 4 ∧ ready.underMarch ((devEnd - 1) / 64) = false ∧ ready.ideUp 3 = true
      ∧ ready.mem.pageRetired ((devEnd - 1) / 65536) = false ∧ ready.mem.snoop.length < 1048576)
    ∧ ready.Reached ((devEnd - 1) / 64 * 64) 64
    ∧ (let s := { ready with mem := { ready.mem with pages := [0] } }
       s.memUp = true ∧ s.power.hdm = some (0, devEnd) ∧ s.mem.cells.wf = true ∧ s.mem.pageRetired (65535 / 65536) = true ∧ s.fuses.state ≠ 4
         ∧ s.underMarch (65535 / 64) = false)
    ∧ (scrapped.memUp = true ∧ scrapped.power.hdm = some (0, devEnd) ∧ scrapped.mem.cells.wf = true ∧ scrapped.fuses.state = 4)
    ∧ (marching.memUp = true ∧ marching.power.hdm = some (0, devEnd) ∧ marching.mem.cells.wf = true ∧ marching.fuses.state ≠ 4
      ∧ marching.underMarch (0 / 64) = true ∧ marching.ideUp 3 = true ∧ marching.mem.pageRetired (0 / 65536) = false)
    ∧ (let s := { ready with mem := { ready.mem with snoop := [0xBFA0000000 / 64] } }
       s.ioUp = true ∧ s.ideUp 2 = true ∧ s.ideUp 3 = true ∧ s.mem.cells.wf = true ∧ s.mem.waiting = [] ∧ s.late = []
         ∧ s.mem.pageRetired (0xBFA0000000 / 65536) = false ∧ s.ioReach 0xBFA0000000 = true
         ∧ 0xBFA0000000 / 64 ∈ s.mem.snoop ∧ 0xBFA0000000 % 64 + ([1, 2] : List Byte).length ≤ 64)
    ∧ (awaiting.power.powered = true ∧ awaiting.power.linkUp = true ∧ awaiting.ideUp 2 = true
      ∧ (∀ w ∈ awaiting.mem.waiting, w.addr / 64 = 5 → awaiting.mem.pageRetired (w.addr / 65536) = false ∧ w.addr % 64 + w.bytes.length ≤ 64)
      ∧ awaiting.late = [⟨2, 0, [7]⟩] ∧ awaiting.mailboxes.length = 4 ∧ (awaiting.mbx 2).payload.wf = true
      ∧ (∀ w ∈ awaiting.mem.waiting, w.owner = 2 → w.addr / 64 = 5) ∧ ({ awaiting with late := [] } : State).late = []) :=
  ⟨by decide +kernel, reached_of reached_ready _ _, by decide +kernel, by decide +kernel, by decide +kernel, by decide +kernel, by decide +kernel⟩

/-- A host read of line 1 while the snoop filter is full of others, and while it tracks the line. -/
def filtered (l : List Nat) : State := { ready with mem := { ready.mem with snoop := l } }

theorem witness_HostMemoryAccesses_filter :
    (∃ l : List Nat, (filtered l).memUp = true ∧ (filtered l).power.hdm = some (0, devEnd) ∧ (filtered l).mem.cells.wf = true ∧ 64 < devEnd
      ∧ (filtered l).fuses.state ≠ 4 ∧ (filtered l).underMarch (64 / 64) = false ∧ (filtered l).ideUp 3 = true
      ∧ (filtered l).Reached (64 / 64 * 64) 64
      ∧ (filtered l).mem.pageRetired (64 / 65536) = false ∧ (filtered l).mem.snoop.contains (64 / 64) = false
      ∧ ¬ (filtered l).mem.snoop.length < 1048576)
    ∧ ((filtered [1]).memUp = true ∧ (filtered [1]).fuses.state ≠ 4 ∧ (filtered [1]).mem.snoop.contains (64 / 64) = true) := by
  refine ⟨⟨List.replicate 1048576 0, by decide +kernel, by decide +kernel, by decide +kernel, by decide, by decide +kernel, by decide +kernel,
    by decide +kernel, reached_of (by decide +kernel) _ _, by decide +kernel, ?_, ?_⟩, by decide +kernel⟩
  · have h (n : Nat) : (List.replicate n 0).contains 1 = false := by simp
    exact h _
  · have h (n : Nat) : ¬ (List.replicate n 0).length < n := by simp
    exact h _

/-- The byte below the landing area, its last byte, and one that runs over its end; a write whose line waits for the host, and one to a page
that is retired. -/
theorem witness_UnorderedWritesOnlyToLandingArea : ready.ioUp = true
    ∧ 0xBF9FFFFFFF < 0xBFA0000000 ∧ 0xC000000000 < 0xBFFFFFFFFF + ([1, 2] : List Byte).length
    ∧ (0xBFA0000000 ≤ 0xBFFFFFFFFF ∧ 0xBFFFFFFFFF + ([1] : List Byte).length ≤ 0xC000000000) ∧ ready.ioReach 0xBFFFFFFFFF = true
    ∧ ready.mem.cells.wf = true ∧ ready.mem.touchesRetired 0xBFFFFFFFFF 1 = false ∧ ready.mem.waiting = [] ∧ ready.Untracked 0xBFFFFFFFFF 1
    ∧ (let s := { ready with mem := { ready.mem with waiting := [⟨0xBFFFFFFFC0, List.replicate 32 1, 4⟩], snoop := [0xBFFFFFFFC0 / 64] } }
       s.ioUp = true ∧ s.ioReach 0xBFFFFFFFFF = true ∧ s.mem.cells.wf = true ∧ s.mem.touchesRetired 0xBFFFFFFFFF 1 = false
         ∧ (∀ w ∈ s.mem.waiting, w.addr < 0xBFFFFFFFE0 ∧ w.addr + w.bytes.length ≤ 0xBFFFFFFFE0) ∧ ¬ s.Untracked 0xBFFFFFFFFF 1)
    ∧ (let s := { ready with mem := { ready.mem with pages := [landBase / 65536] } }
       s.ioUp = true ∧ s.ioReach 0xBFA0000000 = true ∧ 0xBFA0000000 % 64 + ([1] : List Byte).length ≤ 64 ∧ 0xBFA0000000 / 64 ∉ s.mem.snoop
         ∧ s.mem.pageRetired (0xBFA0000000 / 65536) = true) := by
  decide +kernel

/-- A Keep with sessions, and streams of which one is Insecure. -/
def inSession (n : Nat) : State := { ready with keep := { ready.keep with
  sessions := (List.range n).map fun k => (k, [7]), ide := [.off, .insecure, .secure, .off] } }

/-- A Keep that is ready with three, and with four sessions; one that is not; the codes of SPDM, outside a session and in session 2. -/
theorem witness_SessionsAndStreams : (ready.power.powered = true ∧ ready.power.linkUp = true ∧ ready.keep.state = 1 ∧ ready.out.stalled = [])
    ∧ (let s := inSession 3
       s.power.powered = true ∧ s.power.linkUp = true ∧ s.keep.state = 1 ∧ s.keep.sessions.length < 4 ∧ 2 ∈ s.keep.sessions.map Prod.fst
         ∧ s.keep.ide.length = 4 ∧ 7 ∉ s.keep.sessions.map Prod.fst)
    ∧ (let s := inSession 4
       s.power.powered = true ∧ s.power.linkUp = true ∧ 4 ≤ s.keep.sessions.length ∧ s.keep.ide.getD 1 .off = .insecure)
    ∧ (let s := { ready with keep := { ready.keep with state := 2 } }
       s.power.powered = true ∧ s.power.linkUp = true ∧ s.keep.state ≠ 1)
    ∧ (∀ q ∈ [(0xE1, 0), (0xE3, 0), (0xE0, 0), (0xE0, 0xFF), (0xE0, 1), (0xE0, 4), (0xE0, 5), (0xE7, 0), (0xEA, 0), (0xEC, 0)],
        let b : List Byte := [0x12] ++ toLe 1 q.1 ++ [0] ++ toLe 1 q.2
        fieldLe b 1 1 = q.1 ∧ fieldLe b 3 1 = q.2 ∧ ready.keep.sessions.any (fun p => p.1 == fieldLe b 0 4) = false)
    ∧ (let b : List Byte := toLe 4 2 ++ [0x12, 0xEC, 0, 0]
       (inSession 3).keep.sessions.any (fun p => p.1 == fieldLe b 0 4) = true ∧ fieldLe (b.drop 4) 1 1 = 0xEC) := by decide +kernel

/-! ### Witnesses: power, resets, start-up -/

def off : State := { ready with power := { Power.reset with powered := false } }

/-- A write of the fuses that lowers the ceiling, in flight. -/
def fusing : State := { ready with jobs := [(⟨0x0503, 0, 0, 16, [1, 0] ++ toLe 2 200 ++ List.replicate 12 0, quiet⟩, true)] }

theorem witness_PowerLossAndResets : (ready.power.powered = true ∧ ∀ j ∈ ready.jobs, j.2 = false)
    ∧ (off.power.powered = false ∧ off.power.tripped = false ∧ ∀ j ∈ off.jobs, j.2 = false)
    ∧ (let s := { off with power := { off.power with tripped := true } }
       s.power.powered = false ∧ s.power.tripped = true)
    ∧ (let s := { ready with power := { Power.reset with perstLow := true } }
       s.power.powered = true ∧ s.power.perstLow = true)
    ∧ (fusing.power.powered = true ∧ ∃ q, fusing.jobs = [(q, true)] ∧ q.opcode = 0x0503 ∧ fieldLe q.payload 0 1 = 1) := by
  refine ⟨by decide +kernel, by decide +kernel, by decide +kernel, by decide +kernel, by decide +kernel, _, rfl, by decide, by decide⟩

/-- The start of each phase; what a phase reports when nothing fails, and when everything does. -/
def phased (n : Nat) : State := { ready with power := { Power.reset with phase := n }, keep := Keep.reset }
def fine : PhaseReport := ⟨false, false, false, [], none, [], []⟩
def broken : PhaseReport := ⟨true, true, false, [], some 11, [], []⟩

theorem witness_StartupPhases : (∀ n ∈ [1, 2, 3, 4, 5, 6], (phased n).power.powered = true ∧ (phased n).power.perstLow = false
      ∧ (phased n).power.ready = false ∧ (phased n).power.halted = false ∧ (phased n).goOrder = [] ∧ (phased n).keep.live = 0
      ∧ (phased n).power.phase = n ∧ (∀ x ∈ (phased n).towers, x.state = 0 ∨ x.state = 3) ∧ (phased n).fuses.interruptedSlots = []
      ∧ (phased n).fuses.retiredTowers = [] ∧ (phased n).keep.state ≠ 3)
    ∧ (fine.overrun = false ∧ fine.workingBad = false ∧ fine.keepBad = false ∧ fine.fails = [] ∧ fine.stackBad = none
      ∧ ∀ q < 4, ∀ c ∈ fine.readings.getD 0 [], quarterOf c.1 = q → monitorsMeet 36 c = true)
    ∧ (broken.workingBad = true ∧ broken.overrun = true ∧ broken.stackBad.isSome = true) := by
  refine ⟨by decide +kernel, ⟨rfl, rfl, rfl, rfl, rfl, fun q _ c h => by cases h⟩, by decide⟩

/-- A quarter that never passes: tower 0, whose first monitor stands still at every trim. The counts that the fuses ask for are free values
(log 11), so that one of them is asked here to be above zero. -/
def slow : PhaseReport := { fine with readings := List.replicate 21 [(0, [0])] }

theorem witness_StartupPhases_bound (h : 0 < Config.monitorNeed 0 0 36) : slow.overrun = false ∧ (0 < 4)
    ∧ (∀ k ≤ 20, ¬ ∀ c ∈ slow.readings.getD k [], quarterOf c.1 = 0 → monitorsMeet 36 c = true) ∧ (phased 5).belfry.holds = []
    ∧ (phased 5).barrierIdx = none := by
  refine ⟨rfl, by decide, fun k hk hc => ?_, by decide +kernel, by decide +kernel⟩
  have e : slow.readings.getD k [] = [(0, [0])] := by interval_cases k <;> rfl
  have hm := hc (0, [0]) (by rw [e]; exact List.mem_singleton_self _) (by decide +kernel)
  simp [monitorsMeet] at hm
  omega

/-- ATTEST in flight on mailbox 1. -/
def attesting : State := { ready with jobs := [(⟨0x0501, 1, 1, 32, List.replicate 32 0, quiet⟩, false)] }

/-- Tamper inputs armed, with a security command in flight and without; fired already, and not yet armed; a link that comes up. -/
theorem witness_PortAndTamper : (ready.power.powered = true ∧ ready.ioUp = true ∧ ready.ideUp 2 = true ∧ ready.keep.armed = true
      ∧ (∃ i ∈ [0, 2], i < 3 ∧ ready.keep.fired.getLsbD i = false) ∧ ready.jobs = [])
    ∧ (attesting.keep.armed = true ∧ (∃ i ∈ [0, 2], i < 3 ∧ attesting.keep.fired.getLsbD i = false)
      ∧ ∃ q, attesting.jobs = [(q, false)] ∧ q.opcode = 0x0501 ∧ q.mbx < 4 ∧ attesting.mailboxes.length = 4
        ∧ (attesting.mbx q.mbx).payload.wf = true ∧ attesting.mem.owes q.mbx = false)
    ∧ (let s := { ready with keep := { ready.keep with fired := 4 } }
       ∀ i ∈ [2], i < 3 → s.keep.fired.getLsbD i = true)
    ∧ (phased 1).keep.armed = false := by
  refine ⟨by decide +kernel, ⟨by decide +kernel, by decide +kernel, _, rfl, by decide, by decide, by decide +kernel, by decide +kernel,
    by decide +kernel⟩, by decide +kernel, by decide +kernel⟩

theorem witness_FunctionLevelReset : ((flying accepted).ioUp = true ∧ (∀ j ∈ (flying accepted).jobs, j.2 = false)
      ∧ (∀ p ∈ (flying accepted).steps, p.inUpdate = []) ∧ ∀ j ∈ (flying accepted).jobs, j.1.opcode ≠ 0x0304)
    ∧ (marching.ioUp = true ∧ ∀ j ∈ marching.jobs, j.2 = false) := by decide +kernel

/-! ### Witnesses: Belfry and the links -/

/-- 48.999 V and 49.0 V; a floor of the supply; a junction of 104 °C at tower 323. -/
theorem witness_SupplyAndThermal : ready.power.powered = true ∧ 48999 < 49000 ∧ 49000 ≤ 49000
    ∧ ({ ready with belfry := { ready.belfry with supplyFloor := true } } : State).belfry.supplyFloor = true
    ∧ ready.belfry.thermalFloor = false ∧ ready.towers.length = 324 ∧ (⟨323, 104⟩ : Junction).temp < 105
    ∧ (⟨323, 104⟩ : Junction).unit < 324 ∧ (ready.tower 323).inService = true := by decide +kernel

/-- A tower in service; the first and the last unit of the base die. -/
theorem witness_SlotClassesSum : ready.power.powered = true ∧ ready.towers.length = 324 ∧ (ready.tower 323).inService = true
    ∧ 0x180 ≤ 0x18B ∧ 0x18B < 0x18C := by
  decide +kernel

/-- A ramp upward, one downward, one cut short to its code, a pause, and settling. -/
def ramping (now goal : Nat) : State := { ready with belfry := { ready.belfry with cadence := now, ramping := true, rampTarget := goal, bubble := 60 } }

theorem witness_FastLoopMovesBubblesAndRamps : (ramping 10 12).power.powered = true ∧ (ramping 10 12).belfry.bubble ≤ 60
    ∧ (ramping 10 12).belfry.settling = false ∧ (ramping 10 12).belfry.droopSeen = false
    ∧ (ramping 10 12).belfry.cadence < (ramping 10 12).belfry.rampTarget
    ∧ ((ramping 12 10).power.powered = true ∧ (ramping 12 10).belfry.settling = false ∧ (ramping 12 10).belfry.droopSeen = false
      ∧ (ramping 12 10).belfry.rampTarget < (ramping 12 10).belfry.cadence)
    ∧ ((ramping 12 12).power.powered = true ∧ (ramping 12 12).belfry.settling = false ∧ (ramping 12 12).belfry.ramping = true
      ∧ (ramping 12 12).belfry.rampTarget = (ramping 12 12).belfry.cadence)
    ∧ (let s := { ramping 10 12 with belfry := { (ramping 10 12).belfry with droopSeen := true } }
       s.power.powered = true ∧ s.belfry.settling = false ∧ s.belfry.droopSeen = true ∧ s.belfry.rampTarget ≠ s.belfry.cadence)
    ∧ ({ ramping 10 12 with belfry := { (ramping 10 12).belfry with settling := true } } : State).belfry.settling = true := by decide +kernel

theorem witness_SlowLoopCorrects : ready.power.powered = true
    ∧ ({ ready with measure := { ready.measure with measOnly := true } } : State).measure.measOnly = true
    ∧ ([⟨54000, 20000⟩] : List Reading) ≠ [] := by decide +kernel

/-- A quarter one short reading before its step, and one at its bound; the readings of towers 9 and 10 of quarter 1. -/
def aged (trim : Nat) : State := { ready with thermal := { ready.thermal with short := [0, 7, 0, 0], trim := [0, trim, 0, 0] } }

theorem witness_DroopAndAgeing : ready.power.powered = true ∧ ready.towers.length = 324 ∧ (ready.tower 323).inService = true
    ∧ (ready.tower 323).droopOn = false
    ∧ (let s := ready.modTower 323 fun x => { x with droopOn := true }
       s.power.powered = true ∧ s.towers.length = 324 ∧ (s.tower 323).inService = true ∧ (s.tower 323).droopOn = true)
    ∧ ((aged 19).power.powered = true ∧ (aged 19).thermal.short.length = 4 ∧ (aged 19).thermal.trim.length = 4
      ∧ (aged 19).thermal.setpoint.length = 4 ∧ (∀ p < 4, p ≠ 1 → (aged 19).thermal.short.getD p 0 = 0)
      ∧ (∀ r ∈ [(9, [100, 100]), (10, [90])], quarterOf r.1 = 1) ∧ (aged 19).thermal.short.getD 1 0 < 8
      ∧ (aged 19).thermal.trim.getD 1 0 < 20) := by decide +kernel

/-- A tower of which a monitor falls short at the code in force (each tower has the fused needs of its own monitors, R330). -/
theorem witness_DroopAndAgeing_bound (h : 0 < Config.monitorNeed 9 0 (aged 20).belfry.cadence) :
    (aged 20).power.powered = true ∧ (aged 20).thermal.short.length = 4 ∧ (∀ p < 4, p ≠ 1 → (aged 20).thermal.short.getD p 0 = 0)
    ∧ (∀ r ∈ [(9, [0])], quarterOf r.1 = 1) ∧ (aged 20).thermal.short.getD 1 0 = 7 ∧ 20 ≤ (aged 20).thermal.trim.getD 1 0
    ∧ (∃ r ∈ [(9, [0])], monitorsMeet (aged 20).belfry.cadence r = false) ∧ (aged 20).barrierIdx = none := by
  refine ⟨by decide +kernel, by decide +kernel, by decide +kernel, by decide +kernel, by decide +kernel, by decide +kernel,
    ⟨_, List.mem_singleton_self _, ?_⟩, by decide +kernel⟩
  simp [monitorsMeet]
  omega

/-- HOLD of cause 3 at code 34, with the cadence at a code, and the towers' last 101 ms. -/
def holding (cadence high : Nat) : State := { ready with
  belfry := { ready.belfry with holds := [⟨3, 34, false⟩], cadence := cadence }
  towers := ready.towers.map fun t => { t with droopHist := List.replicate 101 (100, high) } }

/-- No cause of HOLD; a tower that droops through 26 of 100 cycles; the power cause with its periods full, and not. -/
theorem witness_CadenceHolds : (let s := { holding 36 26 with belfry := { ready.belfry with fullPeriods := 10000 } }
       s.power.powered = true ∧ s.barrierIdx = none ∧ s.belfry.holds = [] ∧ (s.tower 323).inService = true
         ∧ (s.tower 323).droopHigh = true ∧ 10000 ≤ s.belfry.fullPeriods)
    ∧ (ready.power.powered = true ∧ ready.barrierIdx = none ∧ (ready.tower 323).droopHigh = false ∧ ready.belfry.fullPeriods < 10000) := by
  decide +kernel

/-- The droop cause clears at once, waits for the ramp, or stands; and one of two causes clears. -/
theorem witness_CadenceHolds_clear :
    (∀ k ∈ [34, 35], (holding k 5).power.powered = true ∧ (holding k 5).barrierIdx = none ∧ (holding k 5).belfry.holds = [⟨3, 34, false⟩]
      ∧ ((holding k 5).towers.filter Tower.inService).all Tower.droopLow = true)
    ∧ (holding 34 5).belfry.cadence ≤ min 36 34 ∧ min 36 34 < (holding 35 5).belfry.cadence
    ∧ ((holding 36 6).towers.filter Tower.inService).all Tower.droopLow = false
    ∧ (let s := { holding 36 5 with belfry := { ready.belfry with holds := [⟨1, 35, false⟩, ⟨3, 34, false⟩] } }
       s.belfry.holds = [⟨1, 35, false⟩, ⟨3, 34, false⟩] ∧ (s.towers.filter Tower.inService).all Tower.droopLow = true ∧ 34 < 35
         ∧ ∃ k ∈ s.fabric.links, k.state ≠ 0) := by
  decide +kernel

def beacon : Beacon := ⟨5, 1, 1, false, false, true, 36, 0xFF, 36, 36, 0⟩

/-- Links up and down, a beacon on link 6, and a barrier without a board peer. -/
theorem witness_BeaconsAndLinks : ready.power.powered = true ∧ (∃ l ∈ ready.fabric.links, l.state ≠ 0)
    ∧ (let s := { ready with fabric := Fabric.reset }
       s.power.powered = true ∧ ∀ l ∈ s.fabric.links, l.state = 0)
    ∧ ready.fabric.links.length = 7 ∧ (ready.link 6).state ≠ 0 ∧ ready.barrierIdx = none ∧ beacon.wf = true
    ∧ ((flying accepted).power.powered = true ∧ (flying accepted).barrierIdx = some 0 ∧ (flying accepted).steps[0]? = some accepted
      ∧ (flying accepted).peerLinks = [] ∧ accepted.checked = false ∧ accepted.cadence ≤ (flying accepted).belfry.holdMax) := by
  decide +kernel

/-- Rank 0 beside rank 1, to which a message without an acknowledgement went on link 0, and the same after the loss. -/
def peered (gone : Bool) : State := { landed with
  fabric := { landed.fabric with links := updAt landed.fabric.links 0 fun l => { l with down := gone } }
  out := { landed.out with sent := [(.link 1 0, ⟨1, 0, 5, 0, 0, 0, 0, 0, 0, 0, 0, 0, 1, []⟩)] } }

/-- A link in service, one that has never trained and one that is down; a loss with and without unacknowledged messages, with a mate that
has the links, and again; retraining with and without a step. -/
theorem witness_BeaconsAndLinks_links :
    (∀ s ∈ [peered false, peered true, { ready with fabric := Fabric.reset }], s.power.powered = true ∧ s.fabric.links.length = 7 ∧ s.steps = [])
    ∧ (peered false).fabric.topo.bind Topology.me = some ⟨1, 0, 2, 0x10000000⟩
    ∧ ((peered false).link 0).down = false ∧ ((peered false).link 2).state ≠ 0 ∧ 2 ∈ [2, 3] ∧ 3 = peerSlot 0 2
    ∧ (let gone := (peered false).out.sent.filter fun q => match q.1 with | .link _ k => k == 0 | _ => false
       gone ≠ [] ∧ ∀ q ∈ gone.drop (gone.length - 1), ((peered false).fabric.topo.bind fun x => x.linkTo q.2.dest) = some 0)
    ∧ ((peered true).link 0).down = true ∧ (flying accepted).steps ≠ [] ∧ (flying accepted).fabric.links.length = 7 := by decide +kernel

/-! ### Witnesses: the dome -/

theorem witness_ControlRingAndFaults : ready.power.powered = true ∧ ready.towers.length = 324 ∧ (ready.tower 323).inService = true
    ∧ (ready.tower 323).entries = [] ∧ ready.earlyIdx = none
    ∧ ((flying accepted).power.powered = true ∧ (flying accepted).towers.length = 324
    ∧ ((flying accepted).tower 323).inService = true ∧ ((flying accepted).tower 323).entries = []
    ∧ (flying accepted).earlyIdx = some 0 ∧ (flying accepted).steps[0]? = some accepted ∧ accepted.ended = .running) := by decide +kernel

/-- A transaction from the I/O port of column 0 to tower 323, of a full ring; and one of tower 323 to the I/O port of column 17. -/
def transfer (epoch : Option Word) : MeshTx := ⟨true, .ioPort 0, .tower 323, epoch, List.replicate (256 * 512) 0, 0⟩
def leaving : MeshTx := ⟨false, .tower 323, .ioPort 17, none, [1], 0⟩

/-- With the tower's epoch and room for all, with another epoch, to a tower out of service, across a failed router, and out of the dome. -/
theorem witness_MeshDeliversByEpoch : (ready.power.powered = true ∧ ready.towers.length = 324
      ∧ ready.routeUp (.ioPort 0) (.tower 323) = true ∧ (ready.tower 323).epoch = 1
      ∧ (ready.tower 323).inService = true ∧ (ready.tower 323).inSlots ≤ 512 ∧ (ready.tower 323).waiting = [])
    ∧ (dark.power.powered = true ∧ dark.towers.length = 324 ∧ dark.routeUp (.ioPort 0) (.tower 323) = true
      ∧ (0 : Word) = (dark.tower 323).epoch ∧ (dark.tower 323).inService = false)
    ∧ (let s := ready.modTower 320 fun x => { x with routerFault := true }
       s.power.powered = true ∧ s.towers.length = 324 ∧ s.routeUp (.ioPort 0) (.tower 323) = false)
    ∧ ready.routeUp leaving.src leaving.dst = true
    ∧ ∀ n ∈ [Node.tower 323, .stackPort 11 2, .ioPort 17], (nodeAt n).1 < 18 ∧ (nodeAt n).2 < 18 := by decide +kernel

theorem witness_MeshDeliversByEpoch_slots : ((ready.tower 323).inbound.drop (transfer none).taken).length = 0
    ∧ ((transfer none).data.length + 255) / 256 ≤ 512 := by
  refine ⟨by decide +kernel, ?_⟩
  rw [transfer, List.length_replicate]

/-- An unpinned item of step 5. -/
def item (k : Nat) : Item := ⟨5, 0, 0, 0, 0, false, k, 40, 0, 1, false, 0, false⟩

/-- Queues of 0, 1, 2 and 40 items, a tower whose exchange has no candidate left, and one whose outbound ring is full. -/
theorem witness_StealingRule : (0 < 324)
    ∧ 2 ≤ (([item 0, item 1] : List Item).filter fun i => !i.pinned).length
    ∧ 2 ≤ (((List.range 40).map item).filter fun i => !i.pinned).length
    ∧ (([item 0] : List Item).filter fun i => !i.pinned).length < 2
    ∧ ({ Tower.reset with queue := [item 0] } : Tower).queue ≠ []
    ∧ ({ Tower.reset with candidates := some [] } : Tower).candidates = some []
    ∧ 512 ≤ ({ Tower.reset with outbound := [⟨false, .tower 1, 256 * 512, none⟩] } : Tower).outSlots
    ∧ (({ Tower.reset with admitted := true } : Tower).inService = true ∧ Tower.reset.stealing = false ∧ Tower.reset.queue = []
      ∧ Tower.reset.outSlots < 512) := by decide

/-- Tower 1 idle, its first victim with two items; the reply in flight; a thief without an answer. -/
def robbed : State := ready.modTower 0 fun x => { x with queue := [item 0, item 1] }

def stealReached (s : State) : Bool := (s.tower 0).inService && s.routeUp (.tower 1) (.tower 0) && s.routeUp (.tower 0) (.tower 1)

theorem witness_StealExchange : robbed.power.powered = true ∧ robbed.towers.length = 324
    ∧ (∃ vs, (robbed.tower 1).nextVictim 1 = some (0, vs)) ∧ stealReached robbed = true ∧ (0 : Word) ≠ (robbed.tower 0).epoch
    ∧ (let s := robbed.modTower 0 fun x => { x with routerFault := true }
       s.power.powered = true ∧ s.towers.length = 324 ∧ ((s.tower 1).nextVictim 1).map Prod.fst = some 0 ∧ stealReached s = false)
    ∧ (let s := ready.modTower 323 fun x => { x with reply := some (322, [item 0]), stealing := true }
       s.power.powered = true ∧ s.towers.length = 324 ∧ (s.tower 323).reply = some (322, [item 0])
         ∧ (s.tower 323).queue.length + [item 0].length ≤ 256)
    ∧ (let s := robbed.modTower 17 fun x => { x with stealing := true }
       s.power.powered = true ∧ s.towers.length = 324 ∧ (s.tower 17).stealing = true ∧ (s.tower 17).reply = none) :=
  ⟨by decide +kernel, by decide +kernel, ⟨_, rfl⟩, by decide +kernel, by decide +kernel, by decide +kernel, by decide +kernel, by decide +kernel⟩

/-- A direct request of 64 bytes and a far-end one of four pieces, both in the last landing slot. -/
def direct : OutReq := ⟨⟨0, 0x40000, 64, [], 5, 0, 0, 0⟩, 511, 1, 1, 0⟩
def gather : OutReq := ⟨⟨0, 0, 0, (List.range 4).map fun k => (24576 * k, 128), 5, 0, 0, 0⟩, 511, 1, 1, 0⟩

/-- A burst without scales, one of a block of U8 codes with SEQ 5, and one that needs a unit more. -/
def bare : Burst := ⟨0, 0, 5, 1, [], [(0, 4096)]⟩
def sealed : Burst :=
  { bare with bytes := burstBytes (Tensor.mk ⟨.u8, false⟩ [1, 32] ((List.range 32).map (7 * ·)) [] []).view 5 [List.range 32] }
def further : Burst := { bare with needs := [(0, 4096), (0, 4097)] }

/-- A stream with its request outstanding, alone in tower 323. -/
def stream (kind : Nat) (q : OutReq) (bs : List Burst) : Stream := ⟨0, kind, 1, 0, [], [q], [], bs, [], 8192, 1024, none, false⟩
def streaming (x : Stream) : State := ready.modTower 323 fun t => { t with streams := [x] }

/-- What the statement asks of a stream and its request. -/
def streamAsks (s : State) (u : Nat) (x : Stream) (q : OutReq) : Bool :=
  s.power.powered && decide (s.towers.length = 324) && (s.tower u).inService && decide ((s.tower u).stream x.num = some x) && !x.halted
    && decide (q.epoch = (s.tower u).epoch)
    && s.routeUp (.tower u) (q.req.port s.mem u) && s.routeUp (q.req.port s.mem u) (.tower u)

def wholeB (x : Stream) (q : OutReq) (b : Burst) : Bool := b.needs.all (x.land q.slot).landed.contains

/-- The request that a response answers. -/
def sentB (x : Stream) (q : OutReq) : Bool := decide (x.kind ≠ 5) && decide (x.sent.find? (fun z => z.slot == q.slot && z.epoch == q.epoch) = some q)

/-- Nothing to pack yet; a bare burst; a sealed one, whole and struck on the way; a far-end gather; a stale answer. -/
theorem witness_JasperServesStreams :
    (∀ x ∈ [stream 0 direct [further], stream 0 direct [], stream 0 direct [bare], stream 0 direct [sealed]],
      streamAsks (streaming x) 323 x direct = true ∧ sentB x direct = true
        ∧ direct.req.pieces = [] ∧ 0 < direct.req.len ∧ (streaming x).mem.touchesRetired direct.req.addr direct.req.len = false
        ∧ ((streaming x).tower 323).itemOf x = none)
    ∧ ((stream 0 direct [further]).bursts.head?.any (wholeB (stream 0 direct [further]) direct) = false
      ∧ wholeB (stream 0 direct [bare]) direct bare = true ∧ bare.blocks ≠ 0 ∧ bare.bytes = []
      ∧ wholeB (stream 0 direct [sealed]) direct sealed = true ∧ sealed.bytes ≠ []
      ∧ burstSound (sealed.arrives []) = true ∧ burstSeq (sealed.arrives []) = (stream 0 direct [sealed]).nextSeq sealed
      ∧ burstSound (sealed.arrives [(3, 0x10)]) = false ∧ 6 ≠ direct.req.block % 64)
    ∧ (let x := stream 1 gather []
       streamAsks (streaming x) 323 x gather = true ∧ sentB x gather = true ∧ gather.req.pieces ≠ []
         ∧ (∀ p ∈ gather.req.pieces, 0 < p.2 ∧ (streaming x).mem.touchesRetired p.1 p.2 = false)
         ∧ (0 : Word) ≠ ((streaming x).tower 323).epoch ∧ ((streaming x).tower 323).awaits 0 511 0 = none) := by
  refine ⟨fun x h => ?_, ?_, ?_⟩
  · simp only [List.mem_cons, List.not_mem_nil, or_false] at h
    rcases h with rfl | rfl | rfl | rfl <;> decide +kernel
  · exact ⟨by decide +kernel, by decide +kernel, by decide +kernel, rfl, by decide +kernel, by decide +kernel, by decide +kernel, by decide +kernel,
      by decide +kernel, by decide +kernel⟩
  · decide +kernel

/-- A write whose bytes stand, and one of which a line waits for the host. -/
def writingOut (ws : List WaitWrite) : State := { streaming (stream 5 direct []) with mem := { ready.mem with waiting := ws } }

theorem witness_JasperServesStreams_write : (let x := stream 5 direct []
    (∀ ws ∈ [[], [⟨0x40000, [1], 0⟩]], streamAsks (writingOut ws) 323 x direct = true ∧ x.kind = 5
      ∧ x.sent.find? (fun z => z.slot == direct.slot) = some direct ∧ ((writingOut ws).tower 323).itemOf x = none)
    ∧ (writingOut []).mem.settled direct.req.addr direct.req.len = true
    ∧ (writingOut [⟨0x40000, [1], 0⟩]).mem.settled direct.req.addr direct.req.len = false) := by
  decide +kernel

/-! ### Witnesses: a step -/

def op0 : LayerOp := ⟨0, 0, 0⟩

/-- The progress of the one layer operation of `tiny`, begun. -/
def prog0 : LayerProg := ⟨op0, true, 0, 0, false, 0, false, false, false⟩

/-- A step that runs, with its one record placed as `n` items. -/
def runs (n : Nat) : Step := { accepted with stage := .running, recs := [⟨0, 0, 0, n, 0, [], false⟩], layers := [prog0] }

/-- The item of the step at tower 7: queued, and started with its one span run. -/
def tile : Item := ⟨5, 0, 0, 0, 0, false, 0, 1, 0, 1, false, 0, true⟩
def queued : State := (flying (runs 1)).modTower 7 fun x => { x with queue := [tile] }
def works (formed : Bool) : Started := ⟨0, tile, 0, formed, 1, 1, 0, 1, none⟩
def working (n : Nat) (formed : Bool) : State := (flying (runs n)).modTower 7 fun x => { x with started := [works formed] }

def runOf (p : Step) : Run := ⟨p, loaded.slot 0, tiny⟩

/-- A tower with an unfinished item whose stream waits for an answer. -/
def waitsOn (x : Stream) : State := (working 1 true).modTower 7 fun t => { t with streams := [x] }

/-- A beat with two bad symbols, which no correction explains. -/
def twoSyms (a : Nat) : BeatErr := ⟨a, [(0, 1), (1, 1)]⟩

/-- A wrong sequence number, and an uncorrectable beat, while a work item stands behind the stream. -/
theorem witness_JasperServesStreams_item : (let x := stream 0 direct []
    streamAsks (waitsOn x) 7 x direct = true ∧ sentB x direct = true ∧ ((waitsOn x).tower 7).itemOf x = some tile ∧ (waitsOn x).opOf tile = some op0
      ∧ (waitsOn x).stepOf tile = some 0 ∧ (((waitsOn x).steps[0]?).bind fun p => p.layerProg op0) = some prog0 ∧ prog0.want = 0
      ∧ prog0.retried = false ∧ (let s := { waitsOn x with evt := { (waitsOn x).evt with en := true } }
        streamAsks s 7 x direct = true ∧ s.evt.en = true ∧ s.power.berylStop = false ∧ (s.tower 7).itemOf x = some tile)
      ∧ ((waitsOn x).readDev rqJasper ((waitsOn x).streamStep 7 x) [twoSyms 0x40000] direct.req.addr direct.req.len).1 = none
      ∧ (waitsOn x).steps[0]? = some (runs 1) ∧ (runs 1).decided = none ∧ (runs 1).ended = .running) := by
  decide +kernel

/-- The run once the operation of the record has begun, and its context. -/
def begunRun : Run := runOf { runs 1 with rungs := [⟨0, 0, 0, 0, false, false, false, true⟩] }
def begunCtx : Ctx := (queued.beginOp 0 lossRec 0 0).ctxOf begunRun (opOfRec lossRec 0 0)

/-- The item opens two streams to read and at most one to write, whatever the size of the tiles (log 9). -/
theorem walks_few : (begunCtx.walks lossRec tile).length ≤ 16 := by
  have hw : (begunCtx.writeWalks lossRec tile (begunCtx.tilePlan lossRec 0 0 0) none).length ≤ 1 := by
    unfold Ctx.writeWalks
    dsimp only
    split_ifs <;> first
      | exact Nat.zero_le 1
      | (rw [List.length_map]; exact List.length_filter_le _ _)
  have hv : ∀ rows head, (begunCtx.vectorWalks lossRec 0 rows head).length = 2 := fun _ _ => rfl
  unfold Ctx.walks
  rw [show begunCtx.tileOps lossRec tile.record tile.phase tile.tile = none from rfl]
  dsimp only
  rw [List.length_append]
  refine (Nat.add_le_add ?_ hw : _ ≤ 2 + 1).trans (by decide)
  split_ifs with h h
  · exact Nat.zero_le 2
  · exact absurd h (by decide)
  · exact Nat.le_of_eq (hv _ _)
  · rename_i h; exact absurd rfl h

/-- The rest of an item of two and of one record that retires, once its tile stands; the item that starts. -/
theorem witness_WorkItemsStartAndRetire :
    (queued.power.powered = true ∧ queued.pick (queued.tower 7) = some 0 ∧ 7 < queued.towers.length ∧ (queued.tower 7).queue[0]? = some tile
      ∧ queued.stepOf tile = some 0 ∧ queued.run 0 = some (runOf (runs 1)) ∧ tiny.ops[0]? = some lossRec
      ∧ (queued.beginOp 0 lossRec 0 0).run 0 = some begunRun
      ∧ (queued.tower 7).streams.length + (begunCtx.walks lossRec tile).length ≤ 16)
    ∧ (∀ f ∈ [true, false], (working 1 f).power.powered = true ∧ ((working 1 f).tower 7).started[0]? = some (works f)
      ∧ (working 1 f).stepOf tile = some 0 ∧ (working 1 f).opOf tile = some op0 ∧ ((working 1 f).tower 7).inService = true)
    ∧ (works false).item.holds = true ∧ (works false).formed = false
    ∧ ∀ n ∈ [1, 2], (working n true).run 0 = some (runOf (runs n)) ∧ (runOf (runs n)).opOpen op0 = true
      ∧ (works true).item.hi ≤ (works true).span ∧ (works true).formed = true
      ∧ (∀ y ∈ ((working n true).tower 7).streams, y.item = 0 → y.complete = true)
      ∧ ∃ q, (((((working n true).modTower 7 fun y => { y with
            started := y.started.eraseIdx 0, streams := y.streams.filter fun z => z.item != 0
            fwdSets := y.fwdSets.filter fun z => z.item != 0
            bwdSets := y.bwdSets.filter fun z => z.item != 0 }).issueAll 7).modStep 0 fun p =>
              p.modRec 0 0 0 fun q => { q with retired := q.retired + 1 }).steps[0]?).bind (fun p => p.recProg 0 0 0) = some q
          ∧ (q.retired = q.placed ↔ n = 1) := by
  refine ⟨⟨by decide +kernel, by decide +kernel, by decide +kernel, by decide +kernel, by decide +kernel, rfl, by decide +kernel, rfl, ?_⟩,
    by decide +kernel, by decide, by decide, fun n h => ?_⟩
  · rw [show (queued.tower 7).streams.length = 0 from rfl, Nat.zero_add]
    exact walks_few
  simp only [List.mem_cons, List.not_mem_nil, or_false] at h
  rcases h with rfl | rfl <;>
    exact ⟨rfl, by decide +kernel, by decide +kernel, by decide +kernel, by decide +kernel, _, rfl, by decide +kernel⟩

/-- The operation complete; one that must repeat after a skew; one that has stopped; one whose output holds a NaN that its inputs do not. -/
def complete : Step := { runs 1 with recs := [⟨0, 0, 0, 1, 1, [], true⟩] }
def wanting : Step := { runs 1 with layers := [{ prog0 with want := 1 }] }
def stopped : Step := { runs 1 with layers := [{ prog0 with begun := false, want := 1, stopped := true, retried := true }] }
def spoilt : Step := { complete with stats := [⟨3, 0, 0, 4, 0, ⟨1, 0, 0, 1, 0, 0, 0, 0, 0, true⟩⟩] }

/-- A plan whose fold ladder has two rungs, and the slot with a plan in force. -/
def ladder : PlanEnt := { flat with fold := [0, 1] }
def under (e : PlanEnt) (p : Step) : State := { flying p with
  slots := updAt loaded.slots 0 fun x => { x with plan := some ⟨9, false, [e]⟩, trackers := [Tracker.cold e] } }
def runUnder (e : PlanEnt) (p : Step) : Run := ⟨p, (under e p).slot 0, tiny⟩

/-- What LAYER_OPERATION_COMPLETE asks of a step that runs. -/
def standsAsks (r : Run) : Bool :=
  decide (r.st.ended = .running) && decide (r.st.stage = .running) && decide (r.st.layerProg op0 = some prog0) && !prog0.done && prog0.begun
    && r.opOpen op0 && decide (r.opRecs op0 ≠ []) && (r.opRecs op0).all RecProg.done && r.statsIn op0

theorem witness_LayerOperations :
    ((flying complete).power.powered = true ∧ (flying complete).earlyIdx = some 0 ∧ (flying complete).run 0 = some (runOf complete)
      ∧ standsAsks (runOf complete) = true ∧ (runOf complete).x.plan = none)
    ∧ ((under flat complete).power.powered = true ∧ (under flat complete).earlyIdx = some 0
      ∧ (under flat complete).run 0 = some (runUnder flat complete) ∧ standsAsks (runUnder flat complete) = true
      ∧ (runUnder flat complete).x.plan = some ⟨9, false, [flat]⟩ ∧ (runUnder flat complete).x.trackers[0]? = some (Tracker.cold flat)
      ∧ (∀ x ∈ (runUnder flat complete).judged prog0, jumpOf flat (Tracker.cold flat) x = none)
      ∧ conditionOf flat (Tracker.cold flat) ((complete.latched op0).rung 0) 0 ((runUnder flat complete).judged prog0) = none)
    ∧ ((under ladder spoilt).earlyIdx = some 0 ∧ (under ladder spoilt).run 0 = some (runUnder ladder spoilt)
      ∧ standsAsks (runUnder ladder spoilt) = true ∧ (∀ x ∈ (runUnder ladder spoilt).judged prog0, jumpOf ladder (Tracker.cold ladder) x = none)
      ∧ ∃ c, conditionOf ladder (Tracker.cold ladder) ((spoilt.latched op0).rung 0) 0 ((runUnder ladder spoilt).judged prog0) = some c
          ∧ ((spoilt.latched op0).rung 0).at c.grad < ladder.top c.grad ∧ 0 < spoilt.rungs.length)
    ∧ (let p := { complete with ended := .failed 0x0120 }
       (flying p).power.powered = true ∧ (flying p).earlyIdx = some 0 ∧ (flying p).run 0 = some (runOf p) ∧ p.ended ≠ .running)
    ∧ ((flying wanting).power.powered = true ∧ (flying wanting).earlyIdx = some 0 ∧ (flying wanting).run 0 = some (runOf wanting)
      ∧ wanting.layerProg op0 = some { prog0 with want := 1 } ∧ (∀ x ∈ wanting.layers, x.op = op0 → x = { prog0 with want := 1 })
      ∧ (flying wanting).closure (runOf wanting) op0.phase op0.mb none tiny.nLayers [op0.layer] = [op0.layer])
    ∧ ((flying stopped).power.powered = true ∧ (flying stopped).earlyIdx = some 0 ∧ (flying stopped).run 0 = some (runOf stopped)
      ∧ stopped.layerProg op0 = some { prog0 with begun := false, want := 1, stopped := true, retried := true }
      ∧ ∀ x ∈ stopped.layers, x.op ≠ op0 → x.stopped = false) := by
  refine ⟨⟨by decide +kernel, by decide +kernel, rfl, by decide +kernel⟩, ⟨by decide +kernel, by decide +kernel, rfl, by decide +kernel⟩,
    ⟨by decide +kernel, rfl, by decide +kernel, by decide +kernel, _, rfl, by decide +kernel⟩, ⟨by decide +kernel, by decide +kernel, rfl, by decide +kernel⟩,
    ⟨by decide +kernel, by decide +kernel, rfl, by decide +kernel⟩, by decide +kernel, by decide +kernel, rfl, by decide +kernel⟩

/-- A step that passes its barrier, one whose cadence is not yet checked; a loss that stands, one that is no number; a
micro-batch whose backward phase has nothing left. -/
def checked : Step := { accepted with checked := true }
def lossy (w : Word) : Step := { complete with layers := [{ prog0 with done := true }], losses := [some w] }
def gone : Step := { lossy 0x3F800000 with lossDone := [0] }

theorem witness_BarrierAndMicroBatches :
    ((flying checked).power.powered = true ∧ (flying checked).barrierIdx = some 0 ∧ (flying checked).steps[0]? = some checked
      ∧ (flying checked).barrierPasses checked = true ∧ ignoredHints checked.hints (flying checked).serving = [])
    ∧ ((flying accepted).power.powered = true ∧ (flying accepted).barrierIdx = some 0 ∧ (flying accepted).steps[0]? = some accepted
      ∧ (flying accepted).barrierPasses accepted = false ∧ accepted.mbx < 4
      ∧ (flying accepted).mailboxes.length = 4 ∧ ((flying accepted).mbx accepted.mbx).payload.wf = true
      ∧ (flying accepted).mem.owes accepted.mbx = false)
    ∧ (∀ w ∈ [(0x3F800000 : Word), 0x7FC00000], (flying (lossy w)).power.powered = true ∧ (flying (lossy w)).earlyIdx = some 0
      ∧ (flying (lossy w)).run 0 = some (runOf (lossy w)) ∧ (lossy w).ended = .running
      ∧ (lossy w).stage = .running ∧ ((lossy w).losses[0]?).bind id = some w ∧ 0 ∉ (lossy w).lossDone
      ∧ (runOf (lossy w)).phaseJudged 0 0 = true ∧ ∀ n ∈ (lossy w).notes, n.code ≠ 0x8301)
    ∧ (let p := { lossy 0x7FC00000 with layers := [prog0] }
       (runOf p).phaseJudged 0 0 = false ∧ p.ended = .running ∧ p.stage = .running)
    ∧ f32isFin 0x3F800000 = true ∧ f32isFin 0x7FC00000 = false
    ∧ ((flying gone).power.powered = true ∧ (flying gone).earlyIdx = some 0 ∧ (flying gone).run 0 = some (runOf gone) ∧ gone.ended = .running
      ∧ gone.stage = .running ∧ 0 ∈ gone.lossDone ∧ 0 ∉ gone.retired ∧ (runOf gone).phaseJudged 0 1 = true
      ∧ ∃ r1, ((flying gone).modStep 0 fun p => { p with retired := p.retired ++ [0] }).run 0 = some r1
          ∧ ∀ u < gone.mbs.length, r1.mbEnded u = true) ∧ gone.losses = [some 0x3F800000] := by
  refine ⟨by decide +kernel, by decide +kernel, fun w h => ?_, by decide +kernel, by decide +kernel, by decide +kernel,
    ⟨by decide +kernel, by decide +kernel, rfl, ?_⟩, rfl⟩
  · simp only [List.mem_cons, List.not_mem_nil, or_false] at h
    rcases h with rfl | rfl <;> exact ⟨by decide +kernel, by decide +kernel, rfl, by decide +kernel⟩
  · exact ⟨by decide +kernel, by decide +kernel, by decide +kernel, by decide +kernel, by decide +kernel, _, rfl, by decide +kernel⟩

/-! ### Witnesses: between modules, and the end of a step -/

/-- A program of one all-reduce over group 1, its step, and the state of a rank of three modules with the event ring on. -/
def reduceRec : OpRec := ⟨0x000F, 0, 0, 1, 1, [1], [3], [0, 0, 0, 0, 1, 0] ++ List.replicate 18 0, false⟩
def shared : Program := { tiny with ops := [reduceRec, lossRec] }
def joinedAs (rank : Nat) (p : Step) : State := { ringed with
  fabric := { ready.fabric with topo := some { three with myRank := rank } }
  slots := updAt ready.slots 0 fun x => { x with prog := some shared, trackers := [Tracker.bare], versions := [0] }
  steps := [p], mailboxes := updAt loaded.mailboxes 3 fun m => { m with own := true } }
def joined (p : Step) : State := joinedAs 0 p
def joinedRun (p : Step) : Run := ⟨p, (joined p).slot 0, shared⟩

/-- The same with writes to rank 2 waiting for their completion and for its credit. -/
def linked (writing outbox : List (Nat × Message)) (resent noCredit : List Nat) : State := { joined (runs 1) with
  fabric := { ready.fabric with topo := some three, writing := writing, outbox := outbox, resent := resent, noCredit := noCredit } }

/-- A message of step 5 from a rank to another with its right CHECK (Table 10.5). -/
def message (kind rank dest flags : Nat) : Message :=
  let m : Message := ⟨kind, 0, 1, rank, 5, 0, 0, 4, flags, 36, 0, 5, dest, [1, 2, 3, 4]⟩
  { m with check := crc32 (msgHeader m) }

/-- Dropped, with the fabric's count; relayed to the board-mate; a chunk with and without its ABORT flag. -/
theorem witness_MessagesBetweenModules :
    (ready.power.powered = true ∧ (∀ k ∈ [0, 2, 3], ready.stepNamed (message k 1 0 0) = none ∧ (message k 1 0 0).kind = k
      ∧ (message k 1 0 0).dest = ready.myRank) ∧ (ready.fabric.topo.bind fun t => t.linkTo 1) = none)
    ∧ ((joined (runs 1)).currentIdx = some 0 ∧ (runs 1).number.toNat % 2 ^ 32 ≠ 4 ∧ (message 0 1 0 0).coll ≠ 4)
    ∧ ((joined (runs 1)).power.powered = true ∧ (message 0 2 1 0).dest ≠ (joined (runs 1)).myRank
      ∧ ∃ l, ((joined (runs 1)).fabric.topo.bind fun t => t.linkTo 1) = some l ∧ ((joined (runs 1)).link l).state ≠ 0)
    ∧ (∀ f ∈ [0, 1], (joined (runs 1)).stepNamed (message 0 1 0 f) = some 0 ∧ (message 0 1 0 f).dest = (joined (runs 1)).myRank)
    ∧ ((joined (runs 1)).run 0 = some (joinedRun (runs 1))
      ∧ (joined (runs 1)).useAt (joinedRun (runs 1)) 0 = some (.record 0 0 0, 0, 1)
      ∧ (joined (runs 1)).members 1 = some ([0, 1], three) ∧ 1 ∈ [0, 1] ∧ (runs 1).decided = none) :=
  ⟨by decide +kernel, by decide +kernel, ⟨by decide +kernel, by decide +kernel, _, rfl, by decide +kernel⟩, by decide +kernel, rfl,
    by decide +kernel⟩

/-- A doorbell; a credit with and without a message that waits; bad words on the way; a write's completion, its first error and its second. -/
theorem witness_MessagesBetweenModules_fabric : (let w : Nat × Message := (2, message 0 0 2 0)
    ((joined (runs 1)).stepNamed (message 1 2 0 0) = some 0 ∧ (message 1 2 0 0).kind = 1 ∧ (joined (runs 1)).slotRank 0 = some 2
      ∧ (joined (runs 1)).mem.touchesRetired (landBase + 0x400000 * 0) 0x400000 = false)
    ∧ (∀ n ∈ [[], [2]], (linked [] [] [] n).stepNamed (message 2 2 0 0) = some 0) ∧ (message 2 2 0 0).kind = 2
    ∧ 2 ∉ (linked [] [] [] []).fabric.noCredit ∧ 2 ∈ (linked [] [w] [] [2]).fabric.noCredit
    ∧ ((linked [] [] [] [2]).fabric.outbox.find? fun q => q.1 == 2) = none
    ∧ ((linked [] [w] [] [2]).stepNamed (message 2 2 0 0) = some 0
      ∧ ((linked [] [w] [] [2]).fabric.outbox.find? fun q => q.1 == 2) = some w ∧ ((linked [] [w] [] [2]).routeTo 2).isSome = true)
    ∧ ((joined (runs 1)).earlyIdx = some 0 ∧ (joined (runs 1)).steps[0]? = some (runs 1) ∧ (runs 1).ended = .running
      ∧ ((joined (runs 1)).readRuns rqCampanile (runs 1).number [twoSyms 0x1000] []).1 = false)
    ∧ ((joined (runs 1)).fabric.writing.find? fun q => q.1 == 2) = none
    ∧ (∀ x ∈ [[], [2]], (linked [w] [] x []).power.powered = true ∧ (linked [w] [] x []).fabric.topo = some three
      ∧ ((linked [w] [] x []).fabric.writing.find? fun q => q.1 == 2) = some w ∧ ((linked [w] [] x []).routeTo 2).isSome = true
      ∧ (linked [w] [] x []).earlyIdx = some 0 ∧ (linked [w] [] x []).steps[0]? = some (runs 1))
    ∧ 2 ∉ (linked [w] [] [] []).fabric.resent ∧ 2 ∈ (linked [w] [] [2] []).fabric.resent) := by
  decide +kernel

/-- The window of the doorbell is in reach of every port: no column of routers has failed. -/
theorem witness_MessagesBetweenModules_reach : (joined (runs 1)).Reached (landBase + 0x400000 * 0) 0x400000 := 
  reached_of (by decide +kernel) _ _

/-- The records of the others missing, and one of rank 2, without FAIL and with it. -/
def closes : Step := { accepted with stage := .reduce }
def closingRec (version : Nat) : ClosingRec := ⟨version, 1, false, false, false, 1, 1, 0xFFFFFFFF, 0xFFFFFFFF, 36, 36, []⟩
def closesWith (c : ClosingRec) : Step := { closes with closing := [(2, 0, c)] }

theorem witness_ClosingExchange :
    (∀ p ∈ [closes, closesWith (closingRec 0x0100), closesWith { closingRec 0x0100 with fail := true }], (joined p).power.powered = true
      ∧ p.decided = none ∧ p.ended = .running ∧ (joined p).stepNamed (message 3 2 0 0) = some 0
      ∧ (message 3 2 0 0).dest = (joined p).myRank ∧ 2 ∈ (joined p).peers ∧ (message 3 2 0 0).chunk = 0)
    ∧ (joined closes).run 0 = some (joinedRun closes) ∧ closes.closing = []
    ∧ ((closingRec 0x0100).version = 0x0100 ∧ (closingRec 0x0100).nLayers = shared.nLayers ∧ (closingRec 0x0200).version ≠ 0x0100) := by
  refine ⟨by decide +kernel, rfl, rfl, by decide +kernel⟩

/-- Rank 1 beside the owner of its board, rank 0, before its record leaves and at its timeout. -/
theorem witness_ClosingExchange_path : (joinedAs 1 closes).power.powered = true ∧ (joinedAs 1 closes).run 0 = some (joinedRun closes)
    ∧ (joinedAs 1 closes).closingReady (joinedRun closes) = true ∧ (joinedAs 1 closes).closingPath.me ≠ (joinedAs 1 closes).closingPath.owner
    ∧ closes.closed = [] ∧ (joinedAs 1 closes).routeTo (joinedAs 1 closes).closingPath.owner = some (.link 0 0)
    ∧ (joinedAs 1 closes).evt.en = true ∧ (joinedAs 1 closes).power.berylStop = false ∧ (joinedAs 1 closes).earlyIdx = some 0
    ∧ closes.timedOut = false ∧ ((joinedAs 1 closes).closingResult (joinedRun closes)).isNone = true
    ∧ (joinedAs 1 closes).closingSilent (joinedRun closes) = [0] := by
  refine ⟨by decide +kernel, rfl, ?_⟩
  decide +kernel

/-- Each row of Table 8.4; a step ready for its decision and one that is not. -/
theorem witness_CheckDecides :
    (let c := closingRec 0x0100
     (({ c with fail := true } : ClosingRec).fail = true ∧ c.fail = false ∧ c.tplusMin = c.tplusMax ∧ c.nonfin = false ∧ (c.storm && true) = false)
       ∧ ({ c with tplusMax := 2 } : ClosingRec).tplusMin ≠ 2 ∧ ({ c with nonfin := true } : ClosingRec).nonfin = true
       ∧ (({ c with storm := true } : ClosingRec).storm && true) = true)
    ∧ ((flying closes).power.powered = true ∧ (flying closes).earlyIdx = some 0 ∧ (flying closes).run 0 = some (runOf closes)
      ∧ ((flying closes).closingReady (runOf closes) && ((flying closes).closingResult (runOf closes)).isSome) = true
      ∧ ((((flying closes).advanceAll 0).sendClosing 0).steps[0]?).isSome = true)
    ∧ ((flying (runs 1)).power.powered = true ∧ (flying (runs 1)).earlyIdx = some 0 ∧ (flying (runs 1)).run 0 = some (runOf (runs 1))
      ∧ (flying (runs 1)).closingReady (runOf (runs 1)) = false) := by
  refine ⟨by decide +kernel, ⟨by decide +kernel, by decide +kernel, rfl, by decide +kernel, by decide +kernel⟩, by decide +kernel, by decide +kernel, rfl, ?_⟩
  decide +kernel

/-- A step whose layer 0 waits, runs its one pass (a frozen weight whose copy is stale), and has run it. -/
def updating (b : List (Nat × Nat)) : Step := { accepted with stage := .updating, decided := some (true, 0), updBegun := b }
def frozenSlot : Slot := { withWeight.slot 0 with coeff := some ⟨[coeffEntry], [⟨4, 0, true, 0⟩], 0x10000⟩ }
def updatingState (b : List (Nat × Nat)) : State := { flying (updating b) with slots := updAt loaded.slots 0 fun _ => frozenSlot }
def updRun (b : List (Nat × Nat)) : Run := ⟨updating b, frozenSlot, weighed⟩

/-- A write of the weight that waits for the answer of the host. -/
def blocked : State := { updatingState [(0, 0)] with
  mem := { (updatingState [(0, 0)]).mem with waiting := [⟨0x1000, List.replicate 16 0, 3⟩] } }

theorem witness_UpdateRuns :
    (∀ b ∈ [[], [(0, 0)], [(0, 1)]], (updatingState b).power.powered = true ∧ (updatingState b).lateIdx = some 0
      ∧ (updatingState b).run 0 = some (updRun b) ∧ (updatingState b).slots.length = 4 ∧ (updating b).slot < 4)
    ∧ ((updating []).stage = .updating ∧ (updating []).updFault = [] ∧ 0 = (updating []).updBegun.length ∧ 0 < weighed.nLayers
      ∧ (updatingState []).fenceOpen (updating []) = true)
    ∧ 1 ≠ (updating []).updBegun.length
    ∧ ((updating [(0, 0)]).passesDone 0 = some 0
      ∧ ((updatingState [(0, 0)]).passes frozenSlot weighed (updating [(0, 0)]) 0 ((updating [(0, 0)]).singular.contains 0))[0]? = some 2
      ∧ (updatingState [(0, 0)]).layerSettled frozenSlot weighed 0 = true
      ∧ (updatingState [(0, 0)]).sumNeeds (updRun [(0, 0)]) 0 2 = []
      ∧ ((updatingState [(0, 0)]).pump 0).run 0 = some (updRun [(0, 0)])
      ∧ (∀ q ∈ frozenSlot.engineRuns weighed 0, (updatingState [(0, 0)]).mem.touchesRetired q.1 q.2 = false)
      ∧ ((updatingState [(0, 0)]).readRuns rqUpdate (updating [(0, 0)]).number [twoSyms 0x1000] (frozenSlot.engineRuns weighed 0)).1 = false)
    ∧ (blocked.power.powered = true ∧ blocked.lateIdx = some 0 ∧ blocked.run 0 = some (updRun [(0, 0)])
      ∧ (blocked.passes frozenSlot weighed (updating [(0, 0)]) 0 ((updating [(0, 0)]).singular.contains 0))[0]? = some 2
      ∧ blocked.layerSettled frozenSlot weighed 0 = false)
    ∧ ((updating [(0, 1)]).passesDone 0 = some 1
      ∧ ((updatingState [(0, 1)]).passes frozenSlot weighed (updating [(0, 1)]) 0 ((updating [(0, 1)]).singular.contains 0)).length ≤ 1
      ∧ (updatingState [(0, 1)]).layerSettled frozenSlot weighed 0 = true) := by
  refine ⟨fun b h => ?_, by decide +kernel, by decide, ⟨by decide +kernel, by decide +kernel, by decide +kernel, by decide +kernel, rfl, by decide +kernel⟩,
    ⟨by decide +kernel, by decide +kernel, rfl, by decide +kernel, by decide +kernel⟩, by decide +kernel⟩
  simp only [List.mem_cons, List.not_mem_nil, or_false] at h
  rcases h with rfl | rfl | rfl <;> exact ⟨by decide +kernel, by decide +kernel, rfl, by decide +kernel, by decide +kernel⟩

/-- A step without an update, one whose layer stands, and one whose layer met a fault. -/
def updated : Step := { updating [(0, 1)] with updDone := [0] }
def faulted : Step := { updating [(0, 1)] with updFault := [0] }

/-- Every tower has had work of the step. -/
def workedIn (p : Step) : State := { flying p with towers := (flying p).towers.map fun t => { t with used := true } }

theorem witness_CommitCompletesTheStep : ∀ p ∈ [decided, updated, faulted],
    (workedIn p).power.powered = true ∧ (workedIn p).steps = [p] ∧ (workedIn p).run 0 = some (runOf p) ∧ (∃ q, p.decided = some q)
    ∧ (runOf p).updatesEnded = true ∧ p.slot < 4 ∧ (workedIn p).slots.length = 4 ∧ p.mbx < 4 ∧ (workedIn p).mailboxes.length = 4
    ∧ ((workedIn p).mbx p.mbx).payload.wf = true ∧ (workedIn p).mem.owes p.mbx = false
    ∧ (∀ x ∈ (workedIn p).towers, x.inService = true → x.used = true) := by
  intro p h
  simp only [List.mem_cons, List.not_mem_nil, or_false] at h
  rcases h with rfl | rfl | rfl <;> exact ⟨by decide +kernel, rfl, rfl, ⟨_, rfl⟩, by decide +kernel⟩

/-! ### Witnesses: integrity and the background -/

theorem witness_SingleSymbolErrorsAreCorrected : 17 < 18 ∧ 0 < 65535 ∧ 65535 < 65536 ∧ 0xBFFFFFFFE0 % 32 = 0
    ∧ ready.mem.pageRetired (0xBFFFFFFFE0 / 65536) = false ∧ ready.mem.mark (ready.mem.place 0xBFFFFFFFE0).stack = none
    ∧ ioSide rqHost = true ∧ ready.ioReach 0xBFFFFFFFE0 = true := by decide +kernel

/-- A bucket at THRESHOLD and one below; a write-back with room in the window, and a window that is spent; a line of the host. -/
def busyStack (bg : Nat) (snoop : List Nat) : State := { ready with mem := { ready.mem with
  snoop := snoop, onyx := updAt ready.mem.onyx 11 fun o => { o with writeBacks := [⟨0, List.replicate 32 1, 5⟩], bg := bg } } }

theorem witness_BucketsAndBackground : ready.mem.buckets.wf = true ∧ ready.power.powered = true
    ∧ (memGet ready.mem.buckets (ready.mem.place 0).bankNo).toNat + 1 ≤ ready.mem.threshold
    ∧ (memGet ready.mem.buckets (ready.mem.place 0).bankNo).toNat + 1 < 256
    ∧ ({ ready with mem := { ready.mem with threshold := 0 } } : State).mem.threshold
        < (memGet ready.mem.buckets (ready.mem.place 0).bankNo).toNat + 1
    ∧ (∀ l ∈ [[], [0]], (busyStack 99999 l).power.powered = true
      ∧ (busyStack 99999 l).mem.onyx[11]? = some ⟨[⟨0, List.replicate 32 1, 5⟩], 99999, 0, 0⟩ ∧ (busyStack 99999 l).mem.onyx.length = 12
      ∧ (busyStack 99999 l).mem.cells.wf = true ∧ (busyStack 99999 l).mem.pageRetired (0 / 65536) = false)
    ∧ 0 / 64 ∉ (busyStack 99999 []).mem.snoop ∧ 0 / 64 ∈ (busyStack 99999 [0]).mem.snoop ∧ (busyStack 99999 [0]).ideUp 3 = true
    ∧ (busyStack 100000 []).mem.onyx[11]? = some ⟨[⟨0, List.replicate 32 1, 5⟩], 100000, 0, 0⟩ := by decide +kernel

/-- A patrol read with no retirement, and a window that begins with a statistic waiting in stack 0, and with none. -/
def telling : State := { ready with mem := { ready.mem with telemetry := [⟨0x40000, List.replicate 32 7, 6⟩] } }

theorem witness_BucketsAndBackground_scrub : (let s := busyStack 0 []
    s.mem.scrubOn = true ∧ 5 ≤ s.power.phase ∧ s.mem.pages = [] ∧ s.mem.banks = [] ∧ 0 + 32 < 0x1000000000 ∧ s.mem.telemetry = [])
    ∧ (telling.power.powered = true ∧ telling.mem.onyx.length = 12 ∧ telling.mem.telemetry = [⟨0x40000, List.replicate 32 7, 6⟩]
      ∧ (telling.mem.place 0x40000).stack < 12 ∧ telling.mem.cells.wf = true ∧ telling.mem.pageRetired (0x40000 / 65536) = false
      ∧ 0x40000 / 64 ∉ telling.mem.snoop ∧ telling.ioReach 0x40000 = true) := by decide +kernel

def aRec : EvRec := ⟨7, 0x0205, false, false, 0, 0, 0, 0xFFFF, List.replicate 32 0⟩
def noting (head : Word) (early ring : List EvRec) (snoop : List Nat) : State := { ringed with
  evt := { ringed.evt with early := early, ring := ring, head := head }, mem := { ringed.mem with snoop := snoop } }

/-- What the statement asks of a state, beside its records. -/
def notesB (s : State) : Bool := s.power.powered && s.evt.en && !s.power.berylStop && s.mem.cells.wf

/-- An early record, one of the ring, each in the last free place; a line that the host may hold; a full ring. -/
theorem witness_EventsArePublishedInOrder : aRec.body.length = 32
    ∧ (notesB (noting 15 [aRec] [] []) = true ∧ (noting 15 [aRec] [] []).evt.early = [aRec])
    ∧ (notesB (noting 15 [] [aRec] []) = true ∧ (noting 15 [] [aRec] []).evt.early = [] ∧ (noting 15 [] [aRec] []).evt.ring = [aRec]
      ∧ ((noting 15 [] [aRec] []).evt.head - (noting 15 [] [aRec] []).evt.tail).toNat < 2 ^ (noting 15 [] [aRec] []).evt.log2
      ∧ (noting 15 [] [aRec] []).bgOpen ((noting 15 [] [aRec] []).mem.place 960).stack = true
      ∧ 960 = (noting 15 [] [aRec] []).evt.base.toNat + 64 * ((noting 15 [] [aRec] []).evt.head.toNat % 16)
      ∧ 960 / 64 ∉ (noting 15 [] [aRec] []).mem.snoop ∧ (noting 15 [] [aRec] []).mem.pageRetired (960 / 65536) = false)
    ∧ (notesB (noting 15 [] [aRec] [15]) = true ∧ 960 / 64 ∈ (noting 15 [] [aRec] [15]).mem.snoop
      ∧ (noting 15 [] [aRec] [15]).bgOpen ((noting 15 [] [aRec] [15]).mem.place 960).stack = true
      ∧ ∀ w ∈ (noting 15 [] [aRec] [15]).mem.waiting, ¬ (w.addr = 960 ∧ w.bytes = aRec.bytes))
    ∧ (notesB (noting 16 [] [aRec] []) = true
      ∧ 2 ^ (noting 16 [] [aRec] []).evt.log2 ≤ ((noting 16 [] [aRec] []).evt.head - (noting 16 [] [aRec] []).evt.tail).toNat) := by decide +kernel

/-- The Keep, Beryl's memory, the staging buffers, a mailbox's buffer, a scratchpad and an engine's buffer. -/
theorem witness_SramScrubActs : (ready.power.powered = true ∧ ready.steps = [] ∧ ready.jobs = [] ∧ ready.late = [] ∧ ready.mem.waiting = []
      ∧ ready.mailboxes.length = 4 ∧ (∀ m ∈ ready.mailboxes, m.payload.wf = true) ∧ (ready.tower 323).started = [] ∧ ready.lateIdx = none)
    ∧ ((0 : Nat) ≠ 1 ∧ ∀ p ∈ [SramPlace.keep, .working, .staging, .hostBuf 2, .tower 323 true, .engine 11], sramWordOk p 0 0 = true)
    ∧ sramWordOk .keep 10000 0 = false
    ∧ ((flying accepted).power.powered = true ∧ (flying accepted).earlyIdx = some 0 ∧ (flying accepted).steps[0]? = some accepted
      ∧ accepted.ended = .running)
    ∧ (owned.power.powered = true ∧ owned.mailboxes.length = 4 ∧ (owned.mbx 2).own = true ∧ (owned.mbx 2).payload.wf = true
      ∧ (∀ q ∈ owned.steps, q.mbx ≠ 2) ∧ owned.jobs = [] ∧ owned.late = [] ∧ owned.mem.owes 2 = false) := by decide +kernel

/-! ### Ill-formed commands that the checks refuse -/

theorem test_wf_refuses_a_fifth_mailbox : Instr.wf (.identify (sub 4 [])) = false := by decide
theorem test_wf_refuses_a_long_payload : Instr.wf (.runStep (sub 1 (List.replicate 4065 0))) = false := by decide +kernel
theorem test_wf_refuses_a_wide_length : Instr.wf (.runStep { sub 1 [] with len := 4096 }) = false := by decide
theorem test_wf_refuses_an_opcode_outside_the_extensions : Instr.wf (.extensionCommand 0x0EFF (sub 0 [])) = false := by decide
theorem test_wf_refuses_a_plain_address_as_mailbox : Instr.wf (.mailboxWriteWhileOwned 0x20000 0) = false := by decide
theorem test_wf_refuses_an_unaligned_register : Instr.wf (.registerWrite 0x20002 ⟨0, none⟩ 15 quiet) = false := by decide
theorem test_wf_refuses_empty_byte_enables : Instr.wf (.registerWrite 0x20000 ⟨0, none⟩ 0 quiet) = false ∧ Instr.wf (.registerWrite 0x20000 ⟨0, some 0⟩ 15 quiet) = false := by decide
theorem test_wf_refuses_a_low_read_of_no_counter : Instr.wf (.counterLowRead ⟨0x0, 4⟩) = false := by decide
theorem test_wf_refuses_a_defined_address_as_reserved :
    Instr.wf (.reservedAddressRead ⟨0x0, 4⟩) = false ∧ Instr.wf (.reservedAddressWrite 0xFFC ⟨0, none⟩ 16) = false := by decide
theorem test_wf_refuses_a_reserved_address_as_forbidden : Instr.wf (.forbiddenRegisterAccess ⟨0xFFC, 4⟩ none) = false := by decide
theorem test_wf_refuses_tower_324 : Instr.wf (.workItemStart ⟨324, []⟩) = false ∧ Instr.wf (.workItemStart ⟨323, []⟩) = true := by decide
theorem test_wf_refuses_stack_12 : Instr.wf (.writeBack 12) = false ∧ Instr.wf (.writeBack 11) = true := by decide
theorem test_wf_refuses_vector_16 : Instr.wf (.msixUnmask 16) = false := by decide
theorem test_wf_refuses_a_wide_bus_code : Instr.wf (.smbusWriteWord 256 (.read true)) = false := by decide
theorem test_wf_refuses_a_short_line :
    Instr.wf (.hostMemWrite 0 (List.replicate 63 0)) = false ∧ Instr.wf (.hostMemRead 32 []) = false := by decide
theorem test_wf_refuses_an_empty_write : Instr.wf (.unorderedIoWrite 0 []) = false := by decide
theorem test_wf_refuses_a_line_past_the_end : Instr.wf (.backInvalidationResponse (devEnd / 64)) = false := by decide
theorem test_wf_refuses_a_fourth_tamper_input : Instr.wf (.tamper [3]) = false ∧ Instr.wf (.tamper []) = false ∧ Instr.wf (.tamperInputInactive 3) = false := by decide
theorem test_wf_refuses_a_ring_unit_between :
    Instr.wf (.controlRingMessage 0x17F .epoch) = false ∧ Instr.wf (.controlRingMessage 0x18B .epoch) = true := by decide
theorem test_wf_refuses_a_thief_out_of_range : Instr.wf (.stealRequest 324 0 1) = false := by decide
theorem test_wf_refuses_a_fifth_cause : Instr.wf (.cadenceHold 5 0) = false ∧ Instr.wf (.holdClear 0) = false := by decide
theorem test_wf_refuses_an_eighth_link : Instr.wf (.linkDown ⟨7, [], 0⟩) = false ∧ Instr.wf (.linkDown ⟨0, [7], 0⟩) = false := by decide
theorem test_wf_refuses_a_beacon_above_code_36 : Instr.wf (.beaconReceive 0 { beacon with cadence := 37 }) = false := by decide
theorem test_wf_refuses_a_third_phase : Instr.wf (.layerStop ⟨⟨0, 0, 2⟩, []⟩) = false ∧ Instr.wf (.lossComplete 64) = false := by decide
theorem test_wf_refuses_a_message_of_another_length :
    Instr.wf (.credit { message 2 1 0 0 with len := (message 2 1 0 0).payload.length + 1 }) = false ∧ Instr.wf (.credit (message 2 1 0 0)) = true := by
  decide +kernel
theorem test_wf_refuses_landing_slot_384 : Instr.wf (.doorbell 384 (message 1 1 0 0) []) = false := by decide +kernel
theorem test_wf_refuses_rank_1024 : Instr.wf (.fabricWriteCompletion 1024 true) = false := by decide
theorem test_wf_refuses_layer_4096 : Instr.wf (.update 4096) = false ∧ Instr.wf (.layerCommit 4095) = true := by decide
theorem test_wf_refuses_an_sram_of_no_unit : Instr.wf (.sramScrub (.engine 12) 0 0 []) = false ∧ Instr.wf (.sramScrub .keep 0 0 [72]) = false := by decide
theorem test_wf_refuses_a_transfer_to_no_tower : Instr.wf (.meshTransaction ⟨true, .ioPort 0, .tower 324, none, [], 0⟩) = false := by decide

theorem test_wf_refuses_a_sample_without_its_rails : Instr.wf (.powerMeasurementSample [] []) = false := by decide
theorem test_wf_refuses_a_peak_read_without_bytes : Instr.wf (.jspOutstPeakRead ⟨0, 0⟩) = false := by decide
theorem test_wf_refuses_an_unlisted_status :
    Instr.wf (.extensionCommand 0x0F00 { sub 0 [] with env := { quiet with acts := [.finish 0x7777 []] } }) = false := by decide
theorem test_wf_refuses_a_read_past_bar0 : Instr.wf (.counterLowRead ⟨0x3FFFFFC, 8⟩) = false := by decide

/-! ### Values of the spec's worked examples -/

/-- Example 0.1: tower 83 stands at (11, 4), in quarter 1. -/
theorem test_example_0_1 : 83 % 18 = 11 ∧ 83 / 18 = 4 ∧ quarterOf 83 = 1 := by decide

/-- R11, R12, R22: stack 11's port 2 stands at (17, 17); a route goes along x first; port 0 of stack 0 at (0, 0). -/
theorem test_mesh_routes : nodeAt (.stackPort 11 2) = (17, 17) ∧ nodeAt (.stackPort 0 0) = (0, 0) ∧ nodeAt (.ioPort 5) = (5, 17)
    ∧ routeOf (.tower 20) (.tower 0) = [20, 19, 18, 0] := by decide

/-- Example 2.1: the bytes of a descriptor. -/
theorem test_example_2_1 :
    (let b : List Byte := [5, 1, 0, 0, 2, 0x83, 1, 0, 0, 0x10, 0, 0, 0, 4, 0, 0] ++ List.replicate 16 0 ++
       [1, 0, 0xFF, 0xFF, 0xFF, 0xFF, 0, 1, 0, 0, 0, 0, 0xFF, 0xFF, 0xFF, 0xFF, 0, 0, 3, 2, 0x42, 0, 0xED, 0x5E, 0, 0, 0, 0, 0x40, 0, 0, 0]
     parseDesc b = ⟨0x105, 2, 0x83, 1, 0, [4096, 1024], [1, 0], 0, 1, 0, 0, noId, 0, 3, 2, 0x5EED0042, 0x4000000000⟩ ∧
       fmtOfCode 0x83 = some ⟨.w2, true⟩ ∧ rotSize 3 = 128) := by decide +kernel

/-- Example 4.1: what one special product gives in each of the six outputs. -/
theorem test_example_4_1 : [(0x7C, 0xC0), (0x7C, 0), (0x7C, 0x45), (0xFC, 0xC0), (0xFC, 0), (0xFC, 0x45)].map
      (fun q : Nat × Nat => let p := [(Elem.dec .f8b q.1, Elem.dec .f8b q.2)]; toF32 (bwdSpan .f8b .f8b p p).v)
    = [0xFF800000, 0x7FC00000, 0x7F800000, 0x7F800000, 0x7FC00000, 0xFF800000] := by decide +kernel

/-- Example 2.2: four tokens, three experts of capacity 2, two choices each. -/
theorem test_example_2_2 : (grantSlots 3 2 2 (fun i r => (([[0, 1], [0, 2], [0, 1], [1, 0]] : List (List Nat)).getD i []).getD r 0) 4).lists
    = [[0, 1], [3, 0], [1]] ∧
    (grantSlots 3 2 2 (fun i r => (([[0, 1], [0, 2], [0, 1], [1, 0]] : List (List Nat)).getD i []).getD r 0) 4).dropped = 3 := by
  decide +kernel

/-- Example 3.2: code 200 of a U8 tensor in a channel of SCALE 0.0625 and ZP 128 is 4.5; with CONST it is −3.75. -/
theorem test_example_3_2 :
    toF32 ((Tensor.mk ⟨.u8, false⟩ [1] [200] [] []).view |> fun v => View.val { v with chan := some (0, [⟨0x3D800000, 128, false, 0⟩]), zpMode := true } 0)
      = 0x40900000 ∧
    toF32 ((Tensor.mk ⟨.u8, false⟩ [1] [200] [] []).view |> fun v => View.val { v with chan := some (0, [⟨0x3D800000, 128, true, 0xC0700000⟩]), zpMode := true } 0)
      = 0xC0700000 := by decide +kernel

/-- Example 3.3 under RNE: 13.25, 470, 2^−10 and +∞; only 470 counts as saturated, only +∞ as non-finite. -/
theorem test_example_3_3_rne : [0x41540000, 0x43EB0000, 0x3A800000, 0x7F800000].map (fun w => convTo .f8a .rne (f32 w))
    = [⟨0x55, false, false⟩, ⟨0x7E, true, false⟩, ⟨0, false, false⟩, ⟨0x7F, false, true⟩] := by decide +kernel

/-- Example 3.3 under SR, with the draws that it gives. -/
theorem test_example_3_3_sr :
    [(12058, 0x41540000), (50000, 0x43EB0000), (40000, 0x3A800000)].map (fun q : Nat × Word => convTo .f8a (.sr q.1) (f32 q.2))
    = [⟨0x56, false, false⟩, ⟨0x7E, false, false⟩, ⟨0, false, false⟩] := by decide +kernel

/-- Example 4.2: 1 + 3·2^−26 folds up exactly when the draw is below 24,576. -/
theorem test_example_4_2 : toF32R (.sr 24575) ((f32 0x3F800000).add (.fin false 3 (-26))) = 0x3F800001 ∧
    toF32R (.sr 24576) ((f32 0x3F800000).add (.fin false 3 (-26))) = 0x3F800000 := by decide +kernel

/-- The values of Example 5.1 by position. -/
def ex51 (pos : Nat) : XV :=
  match pos with
  | 0 => .fin false 1 0 | 5 => .fin false 40 0 | 12 => .fin true 3 (-1) | 20 => .fin false 3 (-2) | _ => .fin false 0 0

/-- Example 5.1: with budget 2 the outlier leaves and the scale is 0x7D; with budget 0 the scale is 0x82. -/
theorem test_example_5_1 :
    (let r := quantBlock .i4 2 (.fin false 3 0) ((List.range 32).map fun k => ⟨k, ex51 k, false, .rne⟩)
     r.scale = 0x7D ∧ r.outl = [0x80054220, 0] ∧ r.ovf = 0 ∧ r.codes.take 21 = [4, 0, 0, 0, 0, 0, 0, 0, 0, 0, 0, 0, 0xA, 0, 0, 0, 0, 0, 0, 0, 3])
      ∧ (let r := quantBlock .i4 0 (.fin false 3 0) ((List.range 32).map fun k => ⟨k, ex51 k, false, .rne⟩)
         r.scale = 0x82 ∧ r.codes.take 13 = [0, 0, 0, 0, 0, 5, 0, 0, 0, 0, 0, 0, 0]) := by decide +kernel

/-- Example 5.2: row 0 of A against column 0 of B, plain and with a CONST column. -/
theorem test_example_5_2 :
    (let a : View := ⟨⟨⟨.u8, false⟩, [1, 4], [12, 10, 7, 20], [], []⟩, 0, some (0, [⟨0x3F000000, 10, false, 0⟩]), true⟩
     let b : View := ⟨⟨⟨.i8, false⟩, [4, 1], [3, 254, 1, 4], [], []⟩, 0, none, false⟩
     let c : View := { b with chan := some (1, [⟨f32one, 0, true, 0x3E800000⟩]) }
     (dot .rne ⟨0, 0, 0, 0, 0⟩ true (a.side 0 1 4) (b.side 0 1 4)).w = 0x41AC0000 ∧
     (dot .rne ⟨0, 0, 0, 0, 0⟩ true (a.side 0 1 4) (c.side 0 1 4)).w = 0x3F900000) := by decide +kernel

/-- Example 6.1: the shares of four million elements. -/
theorem test_example_6_1 : share 1000000 4000000 = 0x4000 ∧ share 250 4000000 = 5 ∧ share 0 4000000 = 0 := by decide

/-- Example 7.1 and Example 11.1: where device address 0x40_0000_0000 lies; and in an affine region. -/
theorem test_example_7_1 : Mem.reset.place 0x4000000000 = ⟨8, 2, 0x555555000, 10, 21, 10922, 0⟩ ∧
    (let p := ({ Mem.reset with affine := [(85, 0)] } : Mem).place 0x4000000000
     p.stack = 5 ∧ p.port = 1 ∧ p.sAddr = 85 * 0x10000000 + 0x5555000) := by decide +kernel

/-- Example 11.2: one bad die is corrected, two are not; a marked die. -/
theorem test_example_11_2 : decodeBeat none [(5, 0xA0)] = .corrected 5 0xA0 false ∧ decodeBeat none [(2, 1), (4, 1)] = .bad 0 0x14 ∧
    decodeBeat (some 7) [(7, 3), (2, 1)] = .bad 2 0x184 ∧ decodeBeat (some 7) [(7, 3)] = .corrected 7 3 true := by decide +kernel

/-- Example 12.1: b* = 15, and b then comes down by 4 at most. -/
theorem test_example_12_1 : bubbleTarget 2100 1300 1800 0 = 15 ∧ nextBubble 15 0 false = 15 ∧ nextBubble 0 15 false = 11 := by decide

/-- Example 13.1: the SET alias of TWR_UTIL_CTRL of tower 83 sets FREEZE. -/
theorem test_example_13_1 : towerBase 83 = 0x630000 ∧ baseAddr 0x634150 = 0x630150 ∧ aliasOf 0x634150 = .set ∧
    ((ready.hostStoreAt 0x630150 .set 1).tower 83).ctrs.freeze = true := by decide +kernel

/-- Example 13.2: the bytes of an INVALID_PRODUCT record. -/
theorem test_example_13_2 : (EvRec.bytes ⟨23, 0x0104, false, false, 1, 1000000000, 500, 0xFFFF,
      packFields [(2, 3), (1, 2), (1, 0), (4, 0x0204), (4, 0), (4, 1), (4, 0)] []⟩).take 52
    = [0x17, 0, 0, 0, 4, 1, 0, 1, 0, 0xCA, 0x9A, 0x3B, 0, 0, 0, 0, 0xF4, 1, 0, 0, 0, 0, 0, 0, 0xFF, 0xFF, 0, 0, 0, 0, 0, 0,
       3, 0, 2, 0, 4, 2, 0, 0, 0, 0, 0, 0, 1, 0, 0, 0, 0, 0, 0, 0] := by decide +kernel

/-- Example 14.1: the payload of RUN_STEP. -/
theorem test_example_14_1 :
    (let b : List Byte := [1, 0, 2, 0, 0, 0, 0x80, 0x3E, 0xF4, 1, 0, 0, 0, 0, 0, 0, 0, 5, 0xED, 0x5E, 0, 0, 0, 0] ++ List.replicate 8 0 ++
       ([0, 0, 0, 0, 0x10, 0, 0, 0, 0, 0x10, 0, 0] ++ List.replicate 12 0) ++ ([0, 0, 0, 0x40, 0x10, 0, 0, 0, 0xB8, 0x0B, 0, 0] ++ List.replicate 12 0)
     let p := Step.ofPayload b 1 0
     b.length = 80 ∧ p.slot = 1 ∧ p.number = 500 ∧ p.seed = 0x5EED0500 ∧ p.eta = 0x3E800000 ∧ p.abortNonfin = false ∧
       p.mbs = [⟨0x1000000000, [4096, 0, 0, 0]⟩, ⟨0x1040000000, [3000, 0, 0, 0]⟩]) := by decide +kernel


/-- Example 4.3: two blocks of I8B32 against W2B32; the second block is shed, and alone it folds to zero. -/
theorem test_example_4_3 :
    (let codes (x : Nat) : List Nat := x :: List.replicate 31 0
     let a (cs sc : List Nat) : View := ⟨⟨⟨.i8, true⟩, [1, cs.length], cs, sc, []⟩, 1, none, false⟩
     let b (cs sc : List Nat) : View := ⟨⟨⟨.w2, true⟩, [cs.length, 1], cs, sc, []⟩, 0, none, false⟩
     let r := dot .rne ⟨0, 0, 0, 0, 0⟩ true ((a (codes 6 ++ codes 40) [0xFE, 0x01]).side 0 1 64) ((b (codes 1 ++ codes 1) [0xF0, 0x02]).side 0 1 64)
     r.w = 0x7F800000 ∧ r.shed = 1
       ∧ (dot .rne ⟨0, 0, 0, 0, 0⟩ true ((a (codes 40) [0x01]).side 0 1 32) ((b (codes 1) [0x02]).side 0 1 32)).w = 0) := by decide +kernel

/-- Example 7.2: one window of twelve rows of 128 bytes. -/
theorem test_example_7_2 : (Mem.reset.windowReqs ([5, 52, 100, 9, 53, 6, 148, 7, 200, 54, 4, 1000].map fun r =>
      (⟨128 * r, 128, 0, 0, 0⟩ : Piece))).map (fun q => (q.bytes, q.pieces.length, q.credits, (Mem.reset.place (128 * 5)).stack))
    = [(768, 6, 2, 0), (384, 0, 1, 0), (128, 0, 1, 0), (128, 0, 1, 0), (128, 0, 1, 0)] := by decide +kernel

/-- The weight of Example 9.1, r and c in memory at 0x1000 and 0x2000. -/
def ex91 : WUpd := ⟨⟨0, 0x3F000000, 0, 0x30800000, 0x3F000000, 0, 0, 0x3F800000, 0x3E800000, 0x0D800000, 0x23⟩,
  ⟨0x107, 0, 1, 2, 2, 0, 0x1000, 0x2000⟩, { weight with id := 0x107, shape := [2, 2], order := [0, 1] }, 0x3E800000, 1, 7, 2, 2, 2, none,
  [0x40800000, 0x40000000, 0x40000000, 0x3F800000], none, []⟩
def ex91Mem : Memory := memWrite (memWrite [] 0x1000 (toLe 4 0x40A00000 ++ toLe 4 0x3FA00000)) 0x2000 (toLe 4 0x40A00000 ++ toLe 4 0x3FA00000)

/-- Example 9.1: r and c are (5, 1.25), mr is 3.125, u is 0.5, and three of the four masters lie on the BF16 grid. -/
theorem test_example_9_1 : ex91.stat [] = ([0x40A00000, 0x3FA00000], [0x40A00000, 0x3FA00000]) ∧ ex91.mr ex91Mem = 0x40480000
    ∧ ex91.u ex91Mem false = List.replicate 4 0x3F000000
    ∧ (ex91.apply ex91Mem false false [0x3F810000, 0xBF000000, 0x3E800000, 0x40000000]).master.drop 1 = [0xBF18, 0x3DE0, 0x3FE0]
    ∧ { ex91 with e := { ex91.e with floor := 0x40800000 } }.singular 0x40480000 = true := by decide +kernel

end Sys2Proof.Tests
end

section
/-!
SUPPORT. How a register write acts: bit by bit on a field, on a whole word of a RW register, on the registers of a mailbox
that the device does not own, and on two locations in turn (R9, R343, R349, Table 13.3).
-/
namespace Sys2Proof.Machine

open Sys2Proof

/-! ### Bits of a field -/

theorem Fld.testBit_mask (f : Fld) (k : Nat) : f.mask.testBit k = decide (f.lo ≤ k ∧ k < f.lo + f.width) := by
  rw [Fld.mask, Nat.testBit_mul_two_pow, Nat.testBit_two_pow_sub_one, Bool.eq_iff_iff]
  simp only [Bool.and_eq_true, decide_eq_true_eq]
  omega

theorem Fld.testBit_mask_inside {f : Fld} {k : Nat} (hl : f.lo ≤ k) (hh : k < f.lo + f.width) : f.mask.testBit k = true := by
  simp [Fld.testBit_mask, hl, hh]

/-- A write leaves every bit outside its field zero: the fields of a register are joined bit by bit. -/
theorem Fld.testBit_write_outside {f : Fld} (al : Alias) (old v : Nat) {k : Nat} (hk : k < f.lo ∨ f.lo + f.width ≤ k) :
    (f.write al old v).1.testBit k = false := by
  have hm : f.mask.testBit k = false := by
    rw [Fld.testBit_mask, decide_eq_false_iff_not]
    omega
  unfold Fld.write
  cases f.acc <;> cases al <;> simp [hm]

section
variable {f : Fld} {k : Nat}

theorem Fld.testBit_write_rw (ha : f.acc = .rw) (al : Alias) (old v : Nat) (hm : f.mask.testBit k = true) :
    (f.write al old v).1.testBit k = match al with
      | .base => v.testBit k
      | .set => old.testBit k || v.testBit k
      | .clr => old.testBit k && !v.testBit k
      | .tgl => old.testBit k != v.testBit k := by
  unfold Fld.write
  rw [ha]
  cases al <;> simp [hm]

theorem Fld.testBit_write_w1c (ha : f.acc = .w1c) (al : Alias) (old v : Nat) (hm : f.mask.testBit k = true) :
    (f.write al old v).1.testBit k = match al with
      | .base | .set => old.testBit k && !v.testBit k
      | .clr | .tgl => old.testBit k := by
  unfold Fld.write
  rw [ha]
  cases al <;> simp [hm]

theorem Fld.testBit_write_ro (ha : f.acc = .ro) (al : Alias) (old v : Nat) (hm : f.mask.testBit k = true) :
    (f.write al old v).1.testBit k = old.testBit k := by
  simp [Fld.write, ha, hm]

end

/-! ### Words and bytes -/

theorem bitOf_eq_testBit (n k : Nat) : bitOf n k = n.testBit k := by
  rw [bitOf, Nat.testBit_eq_decide_div_mod_eq, beq_eq_decide]

theorem ofLe_lt (bs : List Byte) : ofLe bs < 256 ^ bs.length := by
  induction bs with
  | nil => simp [ofLe]
  | cons b bs ih =>
    have := b.isLt
    simp only [ofLe, List.length_cons, Nat.pow_succ]
    omega

theorem toLe_ofLe (bs : List Byte) : toLe bs.length (ofLe bs) = bs := by
  induction bs with
  | nil => rfl
  | cons b bs ih =>
    have hb := b.isLt
    have hlo : BitVec.ofNat 8 (ofLe (b :: bs)) = b := by
      apply BitVec.eq_of_toNat_eq
      simp only [ofLe, BitVec.toNat_ofNat]
      omega
    have hhi : ofLe (b :: bs) / 256 = ofLe bs := by
      simp only [ofLe]
      omega
    rw [List.length_cons, toLe, hlo, hhi, ih]

theorem toLe_eq_map_range (k n : Nat) : toLe k n = (List.range k).map fun j => BitVec.ofNat 8 (n / 256 ^ j) := by
  induction k generalizing n with
  | zero => rfl
  | succ k ih =>
    rw [toLe, ih, List.range_succ_eq_map, List.map_cons, List.map_map]
    simp [Function.comp_def, Nat.div_div_eq_div_mul, Nat.pow_succ, Nat.mul_comm]

/-- A byte of a word of memory, read as a number. -/
theorem ofNat_ofLe_memRead_div (m : Memory) (a j : Nat) {n : Nat} (hj : j < n) :
    BitVec.ofNat 8 (ofLe (memRead m a n) / 256 ^ j) = memGet m (a + j) := by
  induction n generalizing a j with
  | zero => omega
  | succ n ih =>
    have hb := (memGet m a).isLt
    cases j with
    | zero =>
      apply BitVec.eq_of_toNat_eq
      simp only [memRead, ofLe, BitVec.toNat_ofNat, Nat.pow_zero, Nat.div_one, Nat.add_zero]
      omega
    | succ j =>
      have hd : ofLe (memRead m a (n + 1)) / 256 ^ (j + 1) = ofLe (memRead m (a + 1) n) / 256 ^ j := by
        rw [Nat.pow_succ', ← Nat.div_div_eq_div_mul]
        simp only [memRead, ofLe]
        congr 1
        omega
      rw [hd, ih (a + 1) j (by omega), Nat.add_assoc, Nat.add_comm 1]

/-- A write of a register that is one RW word (Table 13.3). -/
theorem writeFields_rw_word (al : Alias) (old v : Word) :
    writeFields [rw 0 32] al old.toNat v.toNat = ((aliasApplied al old v).toNat, 0) := by
  have hfields : writeFields [rw 0 32] al old.toNat v.toNat = (((rw 0 32).write al old.toNat v.toNat).1, 0) := by
    cases al <;> simp [writeFields, Fld.write, rw]
  rw [hfields, Prod.mk.injEq]
  refine ⟨Nat.eq_of_testBit_eq fun k => ?_, rfl⟩
  by_cases hk : k < 32
  · rw [Fld.testBit_write_rw rfl al _ _ (Fld.testBit_mask_inside (Nat.zero_le k) (by simpa [rw] using hk))]
    simp only [BitVec.testBit_toNat]
    cases al <;> simp [aliasApplied, hk, bne]
  · rw [Fld.testBit_write_outside al _ _ (.inr (by simpa [rw] using hk)), BitVec.testBit_toNat,
      BitVec.getLsbD_of_ge _ _ (by omega)]

theorem writeFields_rw_word_base (old : Nat) {v : Nat} (hv : v < 2 ^ 32) : writeFields [rw 0 32] .base old v = (v, 0) := by
  have hand : v &&& 2 ^ 32 - 1 = v := by rw [Nat.and_two_pow_sub_one_eq_mod, Nat.mod_eq_of_lt hv]
  simpa [writeFields, Fld.write, Fld.mask, rw] using hand

/-! ### The registers of a mailbox -/

/-- The base address of offset `off` of mailbox `n` (Tables 13.2 and 13.4). -/
def mbxAddr (n off : Nat) : Nat := 0x10000 + 0x1000 * n + off

theorem mbxAddr_mod_page (n : Nat) {off : Nat} (ho : off < 0x1000) : mbxAddr n off % 0x1000 = off := by
  unfold mbxAddr
  omega

theorem mbxAddr_offset (n : Nat) {off : Nat} (ho : off < 0x1000) : mbxAddr n off % 0x10000 % 0x1000 = off := by
  rw [Nat.mod_mod_of_dvd _ (by decide), mbxAddr_mod_page n ho]

section
variable {n off : Nat} (hn : n < 4) (ho : off < 0x1000)
include hn ho

theorem mbxAddr_bounds : 0x10000 ≤ mbxAddr n off ∧ mbxAddr n off < 0x14000 := by
  unfold mbxAddr
  omega

theorem mbxAddr_block : mbxAddr n off / 0x10000 = 1 := by
  unfold mbxAddr
  omega

theorem mbxAddr_mailbox : mbxAddr n off % 0x10000 / 0x1000 = n := by
  unfold mbxAddr
  omega

theorem baseAddr_mbxAddr (al : Alias) : baseAddr (mbxAddr n off + aliasOffset al) = mbxAddr n off := by
  cases al <;> simp only [baseAddr, mbxAddr, aliasOffset] <;> omega

theorem aliasOf_mbxAddr (al : Alias) : aliasOf (mbxAddr n off + aliasOffset al) = al := by
  have hq : (mbxAddr n off + aliasOffset al) % 0x10000 / 0x4000 = aliasOffset al / 0x4000 := by
    cases al <;> simp only [mbxAddr, aliasOffset] <;> omega
  rw [aliasOf, hq]
  cases al <;> rfl

theorem towerOf_mbxAddr : towerOf (mbxAddr n off) = none := by
  obtain ⟨-, hlt⟩ := mbxAddr_bounds hn ho
  rw [towerOf, if_neg (by omega)]

theorem fieldsAt_mbxAddr : fieldsAt (mbxAddr n off) = mbxFields off := by
  simp [fieldsAt, towerOf_mbxAddr hn ho, mbxAddr_block hn ho, mbxAddr_offset n ho]

theorem definedAt_mbxAddr (al : Alias) : definedAt (mbxAddr n off + aliasOffset al) = (mbxFields off).isSome := by
  simp [definedAt, baseAddr_mbxAddr hn ho, fieldsAt_mbxAddr hn ho, mbxAddr_block hn ho]

theorem isPayload_mbxAddr : isPayload (mbxAddr n off) = decide (0x20 ≤ off) := by
  simp [isPayload, mbxAddr_block hn ho, mbxAddr_mod_page n ho]

end

theorem ctrAt_eq_none {a : Nat} (hl : 0x2C ≤ a) (hh : a < 0x30030) : ctrAt a = none := by
  have ht : towerOf a = none := by rw [towerOf, if_neg (by omega)]
  simp only [ctrAt, ht]
  repeat rw [if_neg (by omega)]

section
variable (s : State) {n off : Nat} (hn : n < 4) (ho : off < 0x1000)
include hn ho

theorem State.regRaw_mbxAddr : s.regRaw (mbxAddr n off) = (s.mbx n).reg off := by
  obtain ⟨hl, hh⟩ := mbxAddr_bounds hn ho
  have h4 : ¬ mbxAddr n off < 4 := by omega
  simp only [State.regRaw, ctrAt_eq_none (a := mbxAddr n off) (by omega) (by omega), h4, if_false,
    ctrAt_eq_none (a := mbxAddr n off - 4) (by omega) (by omega), towerOf_mbxAddr hn ho, mbxAddr_block hn ho,
    mbxAddr_mailbox hn ho, mbxAddr_offset n ho]

/-- A write that reaches a register of a mailbox acts on that mailbox only. -/
theorem State.storeReg_mbxAddr {fs : List Fld} (hf : mbxFields off = some fs) (al : Alias) (v : Nat) :
    s.storeReg (mbxAddr n off) al v =
      let r := writeFields fs al ((s.mbx n).reg off) v
      { s with mailboxes := updAt s.mailboxes n fun m => m.write off r.1 r.2 } := by
  simp only [State.storeReg, fieldsAt_mbxAddr hn ho, hf, State.regOld, towerOf_mbxAddr hn ho, State.regRaw_mbxAddr s hn ho,
    mbxAddr_block hn ho, mbxAddr_mailbox hn ho, mbxAddr_offset n ho]

/-- A host write of a register of a mailbox, outside SCRAPPED: a payload word takes any byte enables (R343), every other register only a
full write. -/
theorem State.hostStore_mbxAddr {fs : List Fld} (hf : mbxFields off = some fs) (hs : s.fuses.state ≠ 4) (al : Alias) {be : Nat}
    (hb : be % 16 = 15 ∨ 0x20 ≤ off) (v : Nat) :
    s.hostStore (mbxAddr n off + aliasOffset al) be v =
      if be % 16 = 15 then s.storeReg (mbxAddr n off) al v
      else s.storeReg (mbxAddr n off) .base
        (enabled be ((s.mbx n).reg off) (writeFields [rw 0 32] al ((s.mbx n).reg off) v).1) := by
  have hopen : s.forbids (mbxAddr n off + aliasOffset al) = false := by simp [State.forbids, hs]
  have hgood : badWrite (mbxAddr n off + aliasOffset al) be = false := by
    rcases hb with hb | hb <;>
      simp [badWrite, definedAt_mbxAddr hn ho, baseAddr_mbxAddr hn ho, isPayload_mbxAddr hn ho, hf, hb]
  have htakes : s.takesWrite (mbxAddr n off) = true := by simp [State.takesWrite, mbxAddr_block hn ho]
  simp only [State.hostStore, hopen, hgood, baseAddr_mbxAddr hn ho, aliasOf_mbxAddr hn ho, htakes, State.regRaw_mbxAddr s hn ho,
    Bool.not_true, Bool.false_eq_true, if_false]

/-- A REGISTER_WRITE of one location of a mailbox other than MBX_CTRL is the host's write and no GO. -/
theorem exec_registerWrite_mbxAddr (hio : s.ioUp = true) (h0 : off ≠ 0) (al : Alias) (v : Word) (be : Nat) (env : Env) :
    exec (.registerWrite (mbxAddr n off + aliasOffset al) ⟨v, none⟩ be env) s =
      .next (s.hostStore (mbxAddr n off + aliasOffset al) (be % 16) v.toNat) := by
  have hgo : goWrite (mbxAddr n off + aliasOffset al) (be % 16) v = none := by
    simp [goWrite, baseAddr_mbxAddr hn ho, mbxAddr_mod_page n ho, h0]
  simp [exec, execRegisterWrite, State.whenIo, hio, State.registerWrite, State.wordWrite, hgo]

end

/-- What becomes of a mailbox depends on the mailbox that stands there alone. -/
theorem State.updAt_mailboxes_congr (s : State) {n : Nat} {f g : Mailbox → Mailbox} (h : f (s.mbx n) = g (s.mbx n)) :
    updAt s.mailboxes n f = updAt s.mailboxes n g := by
  apply List.ext_getElem?
  intro i
  simp only [updAt, List.getElem?_modify]
  by_cases hi : n = i
  · subst hi
    rcases hx : s.mailboxes[n]? with _ | x
    · rfl
    · have hm : s.mbx n = x := by simp [State.mbx, List.getD_eq_getElem?_getD, hx]
      rw [hm] at h
      simp [h]
  · simp [hi]

theorem State.updAt_mailboxes_frame (s : State) (n : Nat) (f : Mailbox → Mailbox) :
    Frame [.mailboxes] s { s with mailboxes := updAt s.mailboxes n f } := by
  intro p hp
  cases p with
  | mailboxes => simp at hp
  | _ => rfl

theorem State.updAt_mailboxes_others (s : State) (n : Nat) (f : Mailbox → Mailbox) :
    s.OthersKept n { s with mailboxes := updAt s.mailboxes n f } := by
  intro k hk
  simp [updAt, hk.symm]

/-! ### Payload words and TAG of a free mailbox -/

/-- The bytes of a payload word after a write of it: the enabled ones of the value, the others as they stood (R343). -/
def mergedBytes (p : Memory) (a be v : Nat) : List Byte :=
  (List.range 4).map fun j => if be.testBit j then BitVec.ofNat 8 (v / 256 ^ j) else memGet p (a + j)

theorem length_mergedBytes (p : Memory) (a be v : Nat) : (mergedBytes p a be v).length = 4 := by
  simp [mergedBytes]

/-- A full write merges to the bytes of its value. -/
theorem mergedBytes_full (p : Memory) (a v : Nat) : mergedBytes p a 15 v = toLe 4 v := by
  rw [toLe_eq_map_range, mergedBytes]
  rfl

theorem enabled_memRead (p : Memory) (a be v : Nat) :
    enabled be (ofLe (memRead p a 4)) v = ofLe (mergedBytes p a be v) := by
  unfold enabled mergedBytes
  congr 1
  apply List.map_congr_left
  intro j hj
  rw [bitOf_eq_testBit, ofNat_ofLe_memRead_div p a j (List.mem_range.mp hj)]

theorem memGet_memWrite_mergedBytes {p : Memory} (hp : p.wf = true) (a be v x : Nat) :
    memGet (memWrite p a (mergedBytes p a be v)) x =
      if a ≤ x ∧ x < a + 4 ∧ be.testBit (x - a) = true then BitVec.ofNat 8 (v / 256 ^ (x - a)) else memGet p x := by
  by_cases hx : a ≤ x ∧ x < a + 4
  · obtain ⟨j, rfl⟩ := Nat.exists_eq_add_of_le hx.1
    have hj : j < (mergedBytes p a be v).length := by
      rw [length_mergedBytes]
      omega
    rw [memGet_memWrite hp a _ j hj]
    have hj4 : j < 4 := by omega
    simp [mergedBytes, hj4]
  · rw [memGet_memWrite_other _ (by rw [length_mergedBytes]; omega), if_neg fun h => hx ⟨h.1, h.2.1⟩]

theorem mbxFields_payload {k : Nat} (hk : k < 1016) : mbxFields (0x20 + 4 * k) = some [rw 0 32] := by
  simp only [mbxFields]
  repeat rw [if_neg (by omega)]
  rw [if_pos (by omega)]

theorem Mailbox.reg_payload (m : Mailbox) (k : Nat) : m.reg (0x20 + 4 * k) = ofLe (memRead m.payload (4 * k) 4) := by
  simp only [Mailbox.reg]
  repeat rw [if_neg (by omega)]
  rw [Nat.add_sub_cancel_left]

section
variable {s : State} {n : Nat} (hn : n < 4) (hfree : (s.mbx n).own = false)
include hn hfree

/-- A word that reaches a payload word of a free mailbox stands in its four bytes (R349). -/
theorem State.storeReg_payload {k : Nat} (hk : k < 1016) {x : Nat} (hx : x < 2 ^ 32) :
    s.storeReg (mbxAddr n (0x20 + 4 * k)) .base x = { s with mailboxes := updAt s.mailboxes n fun m =>
      { m with payload := memWrite m.payload (4 * k) (toLe 4 x) } } := by
  have hwrite : (s.mbx n).write (0x20 + 4 * k) x 0 =
      { s.mbx n with payload := memWrite (s.mbx n).payload (4 * k) (toLe 4 x) } := by
    simp only [Mailbox.write, hfree, Bool.false_eq_true, if_false]
    repeat rw [if_neg (by omega)]
    rw [Nat.add_sub_cancel_left]
  rw [State.storeReg_mbxAddr s hn (by omega) (mbxFields_payload hk), writeFields_rw_word_base _ hx]
  dsimp only
  congr 1
  exact State.updAt_mailboxes_congr s hwrite

/-- A write of a payload word of a free mailbox merges its enabled bytes into the payload (R343, R349). -/
theorem State.hostStore_payload (hs : s.fuses.state ≠ 4) {k be : Nat} (hk : k < 1016) (hb : be < 16) (v : Word) :
    s.hostStore (mbxAddr n (0x20 + 4 * k) + aliasOffset .base) be v.toNat = { s with mailboxes := updAt s.mailboxes n fun m =>
      { m with payload := memWrite m.payload (4 * k) (mergedBytes (s.mbx n).payload (4 * k) be v.toNat) } } := by
  rw [State.hostStore_mbxAddr s hn (by omega) (mbxFields_payload hk) hs .base (.inr (by omega)), Nat.mod_eq_of_lt hb]
  by_cases hfull : be = 15
  · rw [if_pos hfull, State.storeReg_payload hn hfree hk v.isLt, hfull, mergedBytes_full]
  · have hlt : ofLe (mergedBytes (s.mbx n).payload (4 * k) be v.toNat) < 2 ^ 32 := by
      simpa [length_mergedBytes] using ofLe_lt (mergedBytes (s.mbx n).payload (4 * k) be v.toNat)
    have hbytes := toLe_ofLe (mergedBytes (s.mbx n).payload (4 * k) be v.toNat)
    rw [length_mergedBytes] at hbytes
    rw [if_neg hfull, writeFields_rw_word_base _ v.isLt, Mailbox.reg_payload, enabled_memRead,
      State.storeReg_payload hn hfree hk hlt, hbytes]

/-- A full write of TAG of a free mailbox stores the word that its alias makes (Table 13.3). -/
theorem State.hostStore_tag (hs : s.fuses.state ≠ 4) (al : Alias) (v : Word) :
    s.hostStore (mbxAddr n 0x10 + aliasOffset al) 15 v.toNat = { s with mailboxes := updAt s.mailboxes n fun m =>
      { m with tag := aliasApplied al (s.mbx n).tag v } } := by
  have hf : mbxFields 0x10 = some [rw 0 32] := by decide
  rw [State.hostStore_mbxAddr s hn (by omega) hf hs al (.inl rfl), if_pos rfl, State.storeReg_mbxAddr s hn (by omega) hf]
  have hreg : (s.mbx n).reg 0x10 = (s.mbx n).tag.toNat := rfl
  rw [hreg, writeFields_rw_word]
  dsimp only
  congr 1
  apply State.updAt_mailboxes_congr
  simp [Mailbox.write, hfree]

end

/-! ### The statement -/

/-- A write of two locations is the write of the first and then of the second (R343), where the first leaves the port as it was. -/
theorem exec_registerWrite_two {s u : State} {a be : Nat} {v w : Word} {env : Env}
    (hu : exec (.registerWrite a ⟨v, none⟩ (be % 16) env) s = .next u) (hio : u.ioUp = s.ioUp) :
    ∃ t, exec (.registerWrite a ⟨v, some w⟩ be env) s = .next t
      ∧ exec (.registerWrite (a + 4) ⟨w, none⟩ (be / 16 % 16) env) u = .next t := by
  refine ⟨_, rfl, ?_⟩
  simp only [exec, execRegisterWrite, State.whenIo, State.registerWrite, Nat.mod_mod, Host.Outcome.next.injEq] at hu ⊢
  subst hu
  rw [hio]
  by_cases h : s.ioUp = true
  · simp only [if_pos h]
  · simp only [if_neg h]

/-- Settles O24: the access codes bit by bit through the masks of the fields, the payload words and TAG through what a host write of a
register of a mailbox does, and two locations by the order in which REGISTER_WRITE takes them. -/
theorem registerWritesByAccessCode : Obligations.RegisterWritesByAccessCode := by
  refine ⟨fun f al old v k => ?_, fun s n v env hio hn hlen hfree hs hwf _ => ⟨fun k be hk hb => ?_, fun al => ?_⟩,
    fun s u a be v w env hu hup => exec_registerWrite_two hu hup⟩
  · dsimp only
    refine ⟨Fld.testBit_write_outside al old v, fun hl hh => ?_⟩
    have hm := Fld.testBit_mask_inside hl hh
    exact ⟨fun ha => Fld.testBit_write_rw ha al old v hm, fun ha => Fld.testBit_write_w1c ha al old v hm,
      fun ha => Fld.testBit_write_ro ha al old v hm⟩
  · have haddr : 0x10020 + 0x1000 * n + 4 * k = mbxAddr n (0x20 + 4 * k) + aliasOffset .base := by
      simp only [mbxAddr, aliasOffset]
      omega
    rw [haddr, exec_registerWrite_mbxAddr s hn (by omega) hio (by omega), Nat.mod_eq_of_lt hb,
      State.hostStore_payload hn hfree hs hk hb]
    refine ⟨_, rfl, s.updAt_mailboxes_frame n _, s.updAt_mailboxes_others n _, ?_⟩
    rw [State.mbx_updAt s _ (by omega)]
    exact ⟨rfl, memGet_memWrite_mergedBytes hwf (4 * k) be v.toNat⟩
  · have haddr : 0x10010 + 0x1000 * n + aliasOffset al = mbxAddr n 0x10 + aliasOffset al := by
      simp only [mbxAddr]
      omega
    rw [haddr, exec_registerWrite_mbxAddr s hn (by omega) hio (by omega), State.hostStore_tag hn hfree hs]
    refine ⟨_, rfl, s.updAt_mailboxes_frame n _, s.updAt_mailboxes_others n _, ?_⟩
    rw [State.mbx_updAt s _ (by omega)]
    cases al <;> rfl

end Sys2Proof.Machine
end

section
/-!
SUPPORT. The towers of a state one by one: what `modTower` leaves of each, and the frames of plain updates of the parts that the
dome's statements name.
-/
namespace Sys2Proof.Machine

open Sys2Proof

section
variable (s : State) {u k : Nat} (f : Tower → Tower)

theorem State.modTower_frame (u : Nat) : Frame [.towers] s (s.modTower u f) := by
  intro p hp
  cases p with
  | towers => simp at hp
  | _ => rfl

theorem State.towers_modTower_getElem?_other (hk : k ≠ u) : (s.modTower u f).towers[k]? = s.towers[k]? := by
  simp [updAt, hk.symm]

theorem State.towers_modTower_length (u : Nat) : (s.modTower u f).towers.length = s.towers.length := by
  simp [updAt]

theorem State.tower_modTower_same (hu : u < s.towers.length) : (s.modTower u f).tower u = f (s.tower u) := by
  simp [State.tower, updAt, List.getD_eq_getElem?_getD, hu]

theorem State.tower_modTower_other (hk : k ≠ u) : (s.modTower u f).tower k = s.tower k := by
  simp [State.tower, updAt, List.getD_eq_getElem?_getD, hk.symm]

theorem State.tower_eq_getElem (hu : u < s.towers.length) : s.tower u = s.towers[u] := by
  simp [State.tower, List.getD_eq_getElem?_getD, hu]

end

/-- Two states agree outside a part that is replaced. -/
theorem State.set_towers_frame (s : State) (l : List Tower) : Frame [.towers] s { s with towers := l } := by
  intro p hp
  cases p with
  | towers => simp at hp
  | _ => rfl

theorem State.set_out_frame (s : State) (o : Out) : Frame [.out] s { s with out := o } := by
  intro p hp
  cases p with
  | out => simp at hp
  | _ => rfl

theorem State.emit_frame (s : State) (p : Posted) : Frame [.out] s (s.emit p) := s.set_out_frame _

/-! ### What a frame keeps, by part -/

section
variable {l : List Component} {s t : State} (h : Frame l s t)
include h

theorem Frame.power_eq (hl : Component.power ∉ l := by simp) : t.power = s.power := h .power hl
theorem Frame.evt_eq (hl : Component.evt ∉ l := by simp) : t.evt = s.evt := h .evt hl
theorem Frame.belfry_eq (hl : Component.belfry ∉ l := by simp) : t.belfry = s.belfry := h .belfry hl
theorem Frame.measure_eq (hl : Component.measure ∉ l := by simp) : t.measure = s.measure := h .measure hl
theorem Frame.towers_eq (hl : Component.towers ∉ l := by simp) : t.towers = s.towers := h .towers hl
theorem Frame.slots_eq (hl : Component.slots ∉ l := by simp) : t.slots = s.slots := h .slots hl
theorem Frame.steps_eq (hl : Component.steps ∉ l := by simp) : t.steps = s.steps := h .steps hl
theorem Frame.mailboxes_eq (hl : Component.mailboxes ∉ l := by simp) : t.mailboxes = s.mailboxes := h .mailboxes hl
theorem Frame.window_eq (hl : Component.window ∉ l := by simp) : t.window = s.window := h .window hl
theorem Frame.thermal_eq (hl : Component.thermal ∉ l := by simp) : t.thermal = s.thermal := h .thermal hl

theorem Frame.tower_eq (k : Nat) (hl : Component.towers ∉ l := by simp) : t.tower k = s.tower k := by
  simp [State.tower, h.towers_eq hl]

end

end Sys2Proof.Machine
end

section
/-!
SUPPORT. What the failing of a step, the end of a tower's work and the loss of a share of tracker entries leave (R160, R224, R397).
-/
namespace Sys2Proof.Machine

open Sys2Proof

/-! ### Steps and items -/

theorem State.set_measure_frame (s : State) (m : Measure) : Frame [.measure] s { s with measure := m } := by
  intro p hp
  cases p with
  | measure => simp at hp
  | _ => rfl

theorem State.modStep_frame (s : State) (i : Nat) (f : Step → Step) : Frame [.steps] s (s.modStep i f) := by
  intro p hp
  cases p with
  | steps => simp at hp
  | _ => rfl

theorem State.modSlot_frame (s : State) (n : Nat) (f : Slot → Slot) : Frame [.slots] s (s.modSlot n f) := by
  intro p hp
  cases p with
  | slots => simp at hp
  | _ => rfl

theorem State.dropItems_frame (s : State) (p : Item → Bool) : Frame [.towers] s (s.dropItems p) := s.set_towers_frame _

theorem State.steps_modStep_getElem?_same {s : State} {i : Nat} {p : Step} (f : Step → Step) (h : s.steps[i]? = some p) :
    (s.modStep i f).steps[i]? = some (f p) := by
  simp [updAt, h]

theorem State.steps_modStep_getElem?_other (s : State) {i k : Nat} (f : Step → Step) (h : k ≠ i) :
    (s.modStep i f).steps[k]? = s.steps[k]? := by
  simp [updAt, h.symm]

/-- What becomes of a step depends on the step that stands there alone. -/
theorem State.modStep_congr {s : State} {i : Nat} {p : Step} {f g : Step → Step} (h : s.steps[i]? = some p) (hfg : f p = g p) :
    s.modStep i f = s.modStep i g := by
  unfold State.modStep
  congr 1
  apply List.ext_getElem?
  intro k
  by_cases hk : i = k
  · subst hk
    simp [updAt, h, hfg]
  · simp [updAt, hk]

/-- A running step, its slot and its program stand in the state. -/
theorem State.run_eq_some {s : State} {i : Nat} {r : Run} :
    s.run i = some r ↔ s.steps[i]? = some r.st ∧ r.x = s.slot r.st.slot ∧ (s.slot r.st.slot).prog = some r.p := by
  unfold State.run
  rcases s.steps[i]? with _ | st
  · simp
  · simp only [Option.map_eq_some_iff, Option.some.injEq]
    constructor
    · rintro ⟨p, hp, rfl⟩
      exact ⟨rfl, rfl, hp⟩
    · rintro ⟨rfl, hx, hp⟩
      exact ⟨r.p, hp, by rw [← hx]⟩

/-- Dropping items acts on each tower by itself; the tower that a number out of range reads has none. -/
theorem State.tower_dropItems (s : State) (p : Item → Bool) (k : Nat) : (s.dropItems p).tower k = (s.tower k).dropItems p := by
  have hreset : Tower.dropItems p Tower.reset = Tower.reset := rfl
  rcases hk : s.towers[k]? with _ | x <;> simp [State.tower, List.getD_eq_getElem?_getD, hk, hreset]

theorem State.earlyIdx_undecided {s : State} {i : Nat} {p : Step} (h : s.earlyIdx = some i) (hp : s.steps[i]? = some p) :
    p.decided = none := by
  obtain ⟨hlt, hdec, -⟩ := List.findIdx?_eq_some_iff_getElem.mp h
  rw [List.getElem?_eq_getElem hlt, Option.some.injEq] at hp
  simpa [hp] using hdec

theorem State.failStep_frame (s : State) (i status : Nat) : Frame [.steps, .towers] s (s.failStep i status) := by
  unfold State.failStep
  split
  · exact Frame.refl _ _
  · split
    · exact Frame.refl _ _
    · exact Frame.trans (s.modStep_frame i _) (State.dropItems_frame _ _) (by simp) (by simp)

/-- A step that runs before its decision fails with the status, and its items leave the towers (R224). -/
theorem State.failStep_running {s : State} {i : Nat} {p : Step} (status : Nat) (h : s.steps[i]? = some p) (hd : p.decided = none)
    (he : p.ended = .running) : s.failStep i status =
      (s.modStep i fun _ => { p with ended := .failed status }).dropItems fun it => it.slot == p.slot && it.step == p.number.toNat := by
  have hmod : s.modStep i (fun q => match q.ended with | .running => { q with ended := .failed status } | .failed _ => q)
      = s.modStep i fun _ => { p with ended := .failed status } := State.modStep_congr h (by simp [he])
  unfold State.failStep
  rw [h]
  dsimp only
  rw [if_neg (by simp [hd])]
  exact congrArg (State.dropItems · _) hmod

theorem State.failStep_steps {s : State} {i : Nat} {p : Step} (status : Nat) (h : s.steps[i]? = some p) (hd : p.decided = none)
    (he : p.ended = .running) : (s.failStep i status).steps[i]? = some { p with ended := .failed status } := by
  rw [State.failStep_running status h hd he]
  exact State.steps_modStep_getElem?_same _ h

/-- What a failing step takes from the towers is items alone. -/
theorem State.failStep_tower (s : State) (i status k : Nat) :
    (s.failStep i status).tower k = s.tower k ∨ ∃ p, (s.failStep i status).tower k = (s.tower k).dropItems p := by
  unfold State.failStep
  split
  · exact .inl rfl
  · split
    · exact .inl rfl
    · exact .inr ⟨_, State.tower_dropItems _ _ k⟩

theorem State.failEarly_frame (s : State) (status : Nat) : Frame [.steps, .towers] s (s.failEarly status) := by
  unfold State.failEarly
  split
  · exact Frame.refl _ _
  · exact s.failStep_frame _ status

theorem State.failEarly_tower (s : State) (status k : Nat) :
    (s.failEarly status).tower k = s.tower k ∨ ∃ p, (s.failEarly status).tower k = (s.tower k).dropItems p := by
  unfold State.failEarly
  split
  · exact .inl rfl
  · exact s.failStep_tower _ status k

theorem State.failEarly_none {s : State} (status : Nat) (h : s.earlyIdx = none) : s.failEarly status = s := by
  simp [State.failEarly, h]

/-! ### Shares of tracker entries -/

/-- Two states whose towers differ in their tracker entries alone. -/
def State.EntriesMoved (s t : State) : Prop := ∀ k, ∃ e, t.tower k = { s.tower k with entries := e }

theorem State.EntriesMoved.refl (s : State) : s.EntriesMoved s := fun _ => ⟨_, rfl⟩

theorem State.EntriesMoved.trans {s t u : State} (a : s.EntriesMoved t) (b : t.EntriesMoved u) : s.EntriesMoved u := by
  intro k
  obtain ⟨e, he⟩ := b k
  obtain ⟨e', he'⟩ := a k
  exact ⟨e, by rw [he, he']⟩

theorem State.EntriesMoved.ofTowers {s t : State} (h : t.towers = s.towers) : s.EntriesMoved t := by
  intro k
  refine ⟨(s.tower k).entries, ?_⟩
  simp [State.tower, h]

theorem State.modTower_entriesMoved (s : State) (n : Nat) (f : List (Nat × Nat) → List (Nat × Nat)) :
    s.EntriesMoved (s.modTower n fun x => { x with entries := f x.entries }) := by
  intro k
  by_cases hk : k = n
  · subst hk
    by_cases hl : k < s.towers.length
    · exact ⟨_, s.tower_modTower_same _ hl⟩
    · exact ⟨(s.tower k).entries, by simp [State.tower, updAt, List.getD_eq_getElem?_getD, List.getElem?_eq_none (Nat.le_of_not_lt hl)]⟩
  · exact ⟨_, s.tower_modTower_other _ hk⟩

theorem State.placeEntries_moved {s t : State} {u : Nat} {es : List (Nat × Nat)} (h : s.placeEntries u es = some t) :
    Frame [.towers] s t ∧ s.EntriesMoved t := by
  induction es generalizing s with
  | nil =>
    simp only [State.placeEntries, Option.some.injEq] at h
    subst h
    exact ⟨Frame.refl _ _, .refl s⟩
  | cons e es ih =>
    unfold State.placeEntries at h
    split at h
    · cases h
    next i _ =>
      obtain ⟨hf, hm⟩ := ih h
      exact ⟨Frame.trans (s.modTower_frame _ i) hf (by simp) (by simp), (s.modTower_entriesMoved i (· ++ [e])).trans hm⟩

/-- The layers of a lost share go cold, and their entries are placed anew: slots, events and shares change (R160, R181). -/
theorem State.coldEntries_moved (s : State) (u : Nat) :
    Frame [.slots, .evt, .towers] s (s.coldEntries u) ∧ s.EntriesMoved (s.coldEntries u)
      ∧ ((s.tower u).entries = [] → (s.coldEntries u).slots = s.slots) := by
  have hfold (l : List (Nat × Nat)) (a : State) (g : Nat × Nat → Slot → Slot) (src : Nat × Nat → EvSrc)
      (fs : Nat × Nat → List (Nat × Nat)) :
      Frame [.slots, .evt] a (l.foldl (fun s e => (s.modSlot e.1 (g e)).event (src e) 0x0205 (fs e)) a) := by
    induction l generalizing a with
    | nil => exact Frame.refl _ _
    | cons e l ih =>
      exact Frame.trans (Frame.trans (k := [.slots, .evt]) (a.modSlot_frame e.1 _) (State.event_frame _ _ _ _) (by simp) (by simp))
        (ih _) (by simp) (by simp)
  have hplace (a : State) (es : List (Nat × Nat)) :
      Frame [.towers] a ((a.placeEntries u es).getD a) ∧ a.EntriesMoved ((a.placeEntries u es).getD a) := by
    rcases h : a.placeEntries u es with _ | t
    · exact ⟨Frame.refl _ _, .refl a⟩
    · exact State.placeEntries_moved h
  unfold State.coldEntries
  dsimp only
  refine ⟨Frame.trans (hfold _ s _ _ _) (Frame.trans (State.modTower_frame _ _ u) (hplace _ _).1 (k := [.towers]) (by simp) (by simp))
      (by simp) (by simp), (State.EntriesMoved.ofTowers (hfold _ s _ _ _).towers_eq).trans
      ((State.modTower_entriesMoved _ u fun _ => []).trans (hplace _ _).2), fun hnone => ?_⟩
  rw [hnone]
  exact (hplace _ _).1.slots_eq

end Sys2Proof.Machine
end

section
/-!
SUPPORT. What an operation leaves of every step, field by field (`StepsAgree`), and the frames of what a layer's copies and notes touch
(R59, R80, R173, R251).
-/
namespace Sys2Proof.Machine

open Sys2Proof

/-! ### Steps that agree -/

/-- Two states hold the same steps but for step `i`, and that one too as far as `g` sees it. -/
def State.StepsAgree {α : Type} (i : Nat) (g : Step → α) (s t : State) : Prop :=
  (∀ k, k ≠ i → t.steps[k]? = s.steps[k]?) ∧ t.steps[i]?.map g = s.steps[i]?.map g

section
variable {α : Type} {i : Nat} {g : Step → α} {s t u : State}

theorem State.StepsAgree.refl (i : Nat) (g : Step → α) (s : State) : s.StepsAgree i g s := ⟨fun _ _ => rfl, rfl⟩

theorem State.StepsAgree.trans (a : State.StepsAgree i g s t) (b : State.StepsAgree i g t u) : State.StepsAgree i g s u :=
  ⟨fun k hk => (b.1 k hk).trans (a.1 k hk), b.2.trans a.2⟩

theorem Frame.stepsAgree {l : List Component} (h : Frame l s t) (i : Nat) (g : Step → α) (hl : Component.steps ∉ l := by simp) :
    s.StepsAgree i g t := by
  simp [State.StepsAgree, h.steps_eq hl]

theorem State.modStep_agrees (s : State) {f : Step → Step} (hg : ∀ p, g (f p) = g p) : s.StepsAgree i g (s.modStep i f) := by
  refine ⟨fun k hk => s.steps_modStep_getElem?_other f hk, ?_⟩
  rcases hi : s.steps[i]? with _ | p <;> simp [updAt, hi, hg]

theorem State.foldl_agrees {β : Type} {f : State → β → State} (hf : ∀ s b, State.StepsAgree i g s (f s b)) (l : List β) (s : State) :
    s.StepsAgree i g (l.foldl f s) := by
  induction l generalizing s with
  | nil => exact .refl i g s
  | cons b l ih => exact (hf s b).trans (ih _)

/-- What `g` sees of the step stands after the operation. -/
theorem State.StepsAgree.get (h : State.StepsAgree i g s t) {p : Step} (hp : s.steps[i]? = some p) :
    ∃ p', t.steps[i]? = some p' ∧ g p' = g p := by
  have hmap := h.2
  rw [hp, Option.map_some] at hmap
  exact Option.map_eq_some_iff.mp hmap

theorem State.failStep_agrees (s : State) (status : Nat) (hg : ∀ p e, g { p with ended := e } = g p) :
    s.StepsAgree i g (s.failStep i status) := by
  unfold State.failStep
  split
  · exact .refl i g s
  · split
    · exact .refl i g s
    · refine (s.modStep_agrees fun p => ?_).trans ((State.dropItems_frame _ _).stepsAgree i g)
      split
      · exact hg p _
      · rfl

end

theorem Frame.foldl {β : Type} {l : List Component} {f : State → β → State} (hf : ∀ s b, Frame l s (f s b)) (bs : List β) (s : State) :
    Frame l s (bs.foldl f s) := by
  induction bs generalizing s with
  | nil => exact Frame.refl _ _
  | cons b bs ih => exact Frame.trans (hf s b) (ih _) (fun _ h => h) (fun _ h => h)

/-! ### Copies of a layer -/

/-- A unit's reading of whole extents counts and records, and changes no stored byte (R287, R293). -/
theorem State.readRuns_reads (s : State) (req : Nat) (step : Quad) (errs : List BeatErr) (runs : List (Nat × Nat)) :
    s.Reads (s.readRuns req step errs runs).2 := by
  have hfold (l : List Nat) (a : Bool × State) :
      a.2.Reads (l.foldl (fun (a : Bool × State) b => let q := a.2.readBeat req step errs b; (a.1 && q.1.isSome, q.2)) a).2 := by
    induction l generalizing a with
    | nil => exact .refl _
    | cons b l ih =>
      exact (a.2.readBeat_reads req step errs b).trans (ih (a.1 && (a.2.readBeat req step errs b).1.isSome, (a.2.readBeat req step errs b).2))
  unfold State.readRuns
  dsimp only
  refine State.Reads.trans ?_ (hfold _ _)
  dsimp only
  split
  · exact (State.Reads.refl s).upd rfl
  · exact .refl s

theorem State.writePieces_frame (s : State) (ps : List (Nat × Nat)) (bs : List Byte) :
    Frame [.mem, .out, .freeCtr] s (s.writePieces ps bs) := by
  induction ps generalizing s bs with
  | nil => exact Frame.refl _ _
  | cons p ps ih =>
    unfold State.writePieces
    exact Frame.trans (s.writeDev_frame p.1 _) (ih _ _) (fun _ h => h) (fun _ h => h)

theorem State.writePart_frame (s : State) (x : Slot) (kind : PartKind) (id half : Nat) (bs : List Byte) :
    Frame [.mem, .out, .freeCtr] s (s.writePart x kind id half bs) := s.writePieces_frame _ bs

theorem State.writeSets_frame (s : State) (x : Slot) (cset half : Nat) (es : List ChanEnt) :
    Frame [.mem, .out, .freeCtr] s (s.writeSets x cset half es) :=
  Frame.foldl (fun s k => s.writePart_frame x .chan (cset + k) half _) _ s

theorem State.makeCopy_frame (s : State) (n : Nat) (p : Program) (d : Desc) (f : Fmt) (swap : Bool) :
    Frame [.slots, .mem, .out, .freeCtr] s (s.makeCopy n p d f swap) := by
  unfold State.makeCopy
  dsimp only
  refine Frame.trans (l := [.mem, .out, .freeCtr]) ?_ (State.modSlot_frame _ n _) (by simp) (by simp)
  have hboth (b : Bool) (ps qs : List (Nat × Nat)) (bs cs : List Byte) :
      Frame [.mem, .out, .freeCtr] s (if b then (s.writePieces ps bs).writePieces qs cs else s.writePieces ps bs) := by
    split
    · exact Frame.trans (s.writePieces_frame _ _) (State.writePieces_frame _ _ _) (fun _ h => h) (fun _ h => h)
    · exact s.writePieces_frame _ _
  split
  · exact Frame.trans (Frame.trans (hboth _ _ _ _ _) (State.writePieces_frame _ _ _) (fun _ h => h) (fun _ h => h))
      (State.writeSets_frame _ _ _ _ _) (fun _ h => h) (fun _ h => h)
  · exact Frame.trans (hboth _ _ _ _ _) (State.writePieces_frame _ _ _) (fun _ h => h) (fun _ h => h)

theorem State.copyLayer_frame (s : State) (n : Nat) (p : Program) (l : Nat) (rf : Nat → Nat) (all swap : Bool) :
    Frame [.slots, .mem, .out, .freeCtr] s (s.copyLayer n p l rf all swap) := by
  refine Frame.foldl (fun s d => ?_) _ s
  dsimp only
  split
  · exact (s.modSlot_frame n _).weaken (by simp)
  · exact s.makeCopy_frame n p d _ swap

theorem State.putW_frame (s : State) (i l : Nat) : Frame [.steps] s (s.putW i l) := by
  unfold State.putW
  split
  · exact Frame.refl _ _
  · exact s.modStep_frame i _

/-- A step without the statistics and the failure that its layers' copies can leave. -/
def Step.bare (p : Step) : Step := { p with stats := [], ended := .running }

theorem Step.of_bare {p q : Step} (h : q.bare = p.bare) : q.layers = p.layers ∧ q.rungs = p.rungs ∧ q.fallbacks = p.fallbacks := by
  have hlayers := congrArg Step.layers h
  have hrungs := congrArg Step.rungs h
  have hcount := congrArg Step.fallbacks h
  exact ⟨hlayers, hrungs, hcount⟩

theorem State.putW_agrees (s : State) (i l : Nat) : s.StepsAgree i Step.bare (s.putW i l) := by
  unfold State.putW
  split
  · exact .refl i _ s
  · exact s.modStep_agrees fun _ => rfl

theorem State.copyRung_agrees (s : State) (i l : Nat) (all : Bool) : s.StepsAgree i Step.bare (s.copyRung i l all) := by
  unfold State.copyRung
  split
  · exact .refl i _ s
  next r _ =>
    have hread := (s.readRuns_reads rqJasper r.st.number []
      ((r.x.toCopy r.p l (fun k => (r.st.rung k).rf) all).map fun d => (d.addr, r.p.hostBytes d))).frame
    dsimp only
    split
    · exact ((hread.stepsAgree i _).trans ((State.copyLayer_frame _ _ _ _ _ _ _).stepsAgree i _)).trans (State.putW_agrees _ i l)
    · exact (hread.stepsAgree i _).trans (State.failStep_agrees _ _ fun _ _ => rfl)

/-! ### Notes of an operation -/

/-- A step without the marks of the events that are written once. -/
def Step.unmarked (p : Step) : Step := { p with notes := p.notes.filter fun n => decide (n.code < 0x8000) }

theorem Step.of_unmarked {p q : Step} (h : q.unmarked = p.unmarked) :
    q.layers = p.layers ∧ q.rungs = p.rungs ∧ q.fallbacks = p.fallbacks ∧ q.recs = p.recs ∧ q.ended = p.ended := by
  have hlayers := congrArg Step.layers h
  have hrungs := congrArg Step.rungs h
  have hcount := congrArg Step.fallbacks h
  have hrecs := congrArg Step.recs h
  have hended := congrArg Step.ended h
  exact ⟨hlayers, hrungs, hcount, hrecs, hended⟩

/-- Steps that agree but for marks agree but for notes. -/
theorem Step.eq_of_unmarked {p q : Step} (h : q.unmarked = p.unmarked) : q = { p with notes := q.notes } :=
  congrArg (fun z : Step => { z with notes := q.notes }) h

theorem Step.unmarked_mark (p : Step) (op : LayerOp) (code role : Nat) : (p.mark op code role).unmarked = p.unmarked := by
  simp [Step.unmarked, Step.mark]

/-- An event that is written once for a layer and micro-batch, with its mark. -/
theorem State.noteOnce_agrees (s : State) (i : Nat) (op : LayerOp) (code : Nat) (le : Note → Note → Bool) :
    s.StepsAgree i Step.unmarked (s.noteOnce i op code le) ∧ Frame [.steps, .evt] s (s.noteOnce i op code le) := by
  unfold State.noteOnce
  split
  · exact ⟨.refl i _ s, Frame.refl _ _⟩
  · split
    · exact ⟨.refl i _ s, Frame.refl _ _⟩
    · split
      · exact ⟨.refl i _ s, Frame.refl _ _⟩
      · exact ⟨((s.event_frame _ _ _).stepsAgree i _).trans (State.modStep_agrees _ fun p => p.unmarked_mark op code 0),
          Frame.trans (s.event_frame _ _ _) (State.modStep_frame _ i _) (by simp) (by simp)⟩

/-- The events of a completed operation change of the steps their marks alone. -/
theorem State.noteEvents_agrees (s : State) (i : Nat) (op : LayerOp) :
    s.StepsAgree i Step.unmarked (s.noteEvents i op) ∧ Frame [.steps, .evt] s (s.noteEvents i op) := by
  unfold State.noteEvents
  split
  · exact ⟨.refl i _ s, Frame.refl _ _⟩
  · obtain ⟨ha, hf⟩ := s.noteOnce_agrees i op 0x0101 fun a b => keyLe a.pos b.pos
    obtain ⟨hb, hg⟩ := (s.noteRange i op).noteOnce_agrees i op 0x0103 fun a b => keyLe (a.desc :: a.pos) (b.desc :: b.pos)
    exact ⟨(ha.trans hb).trans (State.foldl_agrees (fun s n => (s.event_frame _ _ _).stepsAgree i _) _ _),
      Frame.trans (Frame.trans (k := [.steps, .evt]) hf hg (by simp) (by simp))
        (Frame.foldl (l := [.steps, .evt]) (fun s n => (s.event_frame _ _ _).weaken (by simp)) _ _) (by simp) (by simp)⟩

/-! ### The progress of a layer operation -/

theorem Step.layerProg_congr {p q : Step} (h : q.layers = p.layers) (op : LayerOp) : q.layerProg op = p.layerProg op := by
  rw [Step.layerProg, h, Step.layerProg]

/-- A change of an operation's progress is seen in that operation. -/
theorem Step.layerProg_modLayer (p : Step) (op : LayerOp) {f : LayerProg → LayerProg} (hf : ∀ q, (f q).op = q.op) :
    (p.modLayer op f).layerProg op = (p.layerProg op).map f := by
  unfold Step.modLayer Step.layerProg
  dsimp only
  induction p.layers with
  | nil => rfl
  | cons q l ih =>
    by_cases hq : q.op = op
    · simp [hq, hf q]
    · simpa [hq] using ih

/-- A field that the change sets is read in the operation that stands. -/
theorem Step.map_layerProg_modLayer {α : Type} {p : Step} {op : LayerOp} {f : LayerProg → LayerProg} (g : LayerProg → α) (a : α)
    (hop : (p.layerProg op).isSome = true) (hf : ∀ q, (f q).op = q.op) (hg : ∀ q, g (f q) = a) :
    ((p.modLayer op f).layerProg op).map g = some a := by
  obtain ⟨q, hq⟩ := Option.isSome_iff_exists.mp hop
  simp [p.layerProg_modLayer op hf, hq, hg]

end Sys2Proof.Machine
end

section
/-!
SUPPORT. The control and peak registers of a tower (Tables 1.8, 7.8): where a host access of them lands, and what FREEZE and CLEAR
do to a counter group (R37, R205, R347).
-/
namespace Sys2Proof.Machine

open Sys2Proof

/-! ### Addresses of a tower block -/

section
variable {u off : Nat}

theorem towerBase_block_bounds (hu : u < 324) (ho : off < 0x4000) : 0x100000 ≤ towerBase u + off ∧ towerBase u + off < 0x1540000 := by
  unfold towerBase
  omega

theorem towerOf_towerBase (hu : u < 324) (ho : off < 0x4000) : towerOf (towerBase u + off) = some (u, off) := by
  rw [towerOf, if_pos (towerBase_block_bounds hu ho)]
  simp only [towerBase, Option.some.injEq, Prod.mk.injEq]
  omega

theorem baseAddr_towerBase (ho : off < 0x4000) (al : Alias) : baseAddr (towerBase u + off + aliasOffset al) = towerBase u + off := by
  cases al <;> simp only [baseAddr, towerBase, aliasOffset] <;> omega

theorem aliasOf_towerBase (ho : off < 0x4000) (al : Alias) : aliasOf (towerBase u + off + aliasOffset al) = al := by
  have hq : (towerBase u + off + aliasOffset al) % 0x10000 / 0x4000 = aliasOffset al / 0x4000 := by
    cases al <;> simp only [towerBase, aliasOffset] <;> omega
  rw [aliasOf, hq]
  cases al <;> rfl

theorem fieldsAt_towerBase (hu : u < 324) (ho : off < 0x4000) : fieldsAt (towerBase u + off) = towerFields off := by
  simp [fieldsAt, towerOf_towerBase hu ho]

theorem definedAt_towerBase (hu : u < 324) (ho : off < 0x4000) (al : Alias) :
    definedAt (towerBase u + off + aliasOffset al) = (towerFields off).isSome := by
  have hb : (towerBase u + off) / 0x10000 ≠ 2 := by
    have := towerBase_block_bounds hu ho
    omega
  simp [definedAt, baseAddr_towerBase ho, fieldsAt_towerBase hu ho, hb]

/-- A tower's registers are open in every life-cycle state (R402). -/
theorem State.forbids_towerBase (s : State) (hu : u < 324) (ho : off < 0x4000) (al : Alias) :
    s.forbids (towerBase u + off + aliasOffset al) = false := by
  have := towerBase_block_bounds hu ho
  have hb : ¬ towerBase u + off < 0x14000 := by omega
  simp [State.forbids, baseAddr_towerBase ho, hb]

/-- A full host write of a register of a tower reaches its fields (R342). -/
theorem State.hostStoreAt_towerBase (s : State) (hu : u < 324) (ho : off < 0x4000) {fs : List Fld} (hf : towerFields off = some fs)
    (hio : s.ioUp = true) (hr : s.power.ready = true) (al : Alias) (v : Word) :
    s.hostStoreAt (towerBase u + off) al v =
      let r := writeFields fs al (s.regOld (towerBase u + off)) v.toNat
      s.modTower u fun x => x.writeCtrl off r.1 r.2 := by
  have hgood : badWrite (towerBase u + off + aliasOffset al) 15 = false := by
    simp [badWrite, definedAt_towerBase hu ho, hf]
  have htakes : s.takesWrite (towerBase u + off) = true := by simp [State.takesWrite, hr]
  simp [State.hostStoreAt, State.whenIo, hio, State.hostStore, s.forbids_towerBase hu ho, hgood, baseAddr_towerBase ho,
    aliasOf_towerBase ho, htakes, State.storeReg, fieldsAt_towerBase hu ho, hf, towerOf_towerBase hu ho]

end

/-! ### FREEZE and CLEAR -/

/-- FREEZE after a write through an alias (Table 13.3). -/
def freezeWritten (al : Alias) (v : Word) (old : Bool) : Bool :=
  match al with
  | .base => v.getLsbD 0
  | .set => old || v.getLsbD 0
  | .clr => old && !v.getLsbD 0
  | .tgl => old != v.getLsbD 0

/-- Is CLEAR written: a one through the base or the SET address (Table 13.3)? -/
def clearWritten (al : Alias) (v : Word) : Bool := v.getLsbD 1 && (al == .base || al == .set)

theorem bitOf_putBit_zero (b : Bool) : (putBit b 0).testBit 0 = b := by cases b <;> rfl

/-- The FREEZE field of a control word that is written. -/
theorem bitOf_writeFields_freeze (al : Alias) (old : Bool) (v : Word) :
    bitOf (writeFields [rw 0 1, wo 1 1] al (putBit old 0) v.toNat).1 0 = freezeWritten al v old := by
  have hsum : (writeFields [rw 0 1, wo 1 1] al (putBit old 0) v.toNat).1
      = ((rw 0 1).write al (putBit old 0) v.toNat).1 ||| ((wo 1 1).write al (putBit old 0) v.toNat).1 := by
    simp [writeFields]
  rw [hsum, bitOf_eq_testBit, Nat.testBit_or,
    Fld.testBit_write_rw rfl al _ _ (Fld.testBit_mask_inside (f := rw 0 1) (k := 0) (Nat.le_refl _) (by simp [rw])),
    Fld.testBit_write_outside al _ _ (.inl (by simp [wo])), bitOf_putBit_zero, BitVec.testBit_toNat]
  cases al <;> simp [freezeWritten]

/-- The CLEAR bit of a control word that is written. -/
theorem bitOf_writeFields_clear (al : Alias) (old : Nat) (v : Word) :
    bitOf (writeFields [rw 0 1, wo 1 1] al old v.toNat).2 1 = clearWritten al v := by
  have hmask : Nat.testBit 2 1 = true := rfl
  rw [bitOf_eq_testBit]
  cases al <;> simp [writeFields, Fld.write, rw, wo, clearWritten, Fld.mask, hmask, BitVec.testBit_toNat]

/-- What the written control word does to its tower (R37, R205, R347). -/
theorem Tower.writeCtrl_util {t : Tower} (h : t.inService = true) (new wo : Nat) : t.writeCtrl 0x150 new wo =
    { t with ctrs := { (if bitOf wo 1 then t.ctrs.clear else t.ctrs) with freeze := bitOf new 0 } } := by
  simp [Tower.writeCtrl, h]

theorem Tower.writeCtrl_jsp {t : Tower} (h : t.inService = true) (new wo : Nat) : t.writeCtrl 0x230 new wo =
    { t with jsp := { (if bitOf wo 1 then t.jsp.clear else t.jsp) with freeze := bitOf new 0 } } := by
  simp [Tower.writeCtrl, h]

theorem Tower.writeCtrl_util_held {t : Tower} (h : t.inService = false) (new wo : Nat) :
    t.writeCtrl 0x150 new wo = { t with heldUtil := some (bitOf new 0) } := by
  simp [Tower.writeCtrl, h]

theorem Tower.writeCtrl_jsp_held {t : Tower} (h : t.inService = false) (new wo : Nat) :
    t.writeCtrl 0x230 new wo = { t with heldJsp := some (bitOf new 0) } := by
  simp [Tower.writeCtrl, h]

section
variable {s : State} {u : Nat} (hio : s.ioUp = true) (hr : s.power.ready = true) (hu : u < 324) (al : Alias) (v : Word)
include hio hr hu

/-- A write of TWR_UTIL_CTRL (R37): FREEZE and CLEAR as the alias has them. -/
theorem State.hostStoreAt_twrUtilCtrl : ∃ new wo, s.hostStoreAt (towerBase u + 0x150) al v = s.modTower u (·.writeCtrl 0x150 new wo)
    ∧ bitOf new 0 = freezeWritten al v ((s.tower u).heldUtil.getD (s.tower u).ctrs.freeze) ∧ bitOf wo 1 = clearWritten al v := by
  have hold : s.regOld (towerBase u + 0x150) = putBit ((s.tower u).heldUtil.getD (s.tower u).ctrs.freeze) 0 := by
    simp [State.regOld, towerOf_towerBase hu (off := 0x150) (by omega)]
  refine ⟨_, _, s.hostStoreAt_towerBase hu (by omega) rfl hio hr al v, ?_, bitOf_writeFields_clear al _ v⟩
  rw [hold, bitOf_writeFields_freeze]

/-- A write of JSP_CTRL (R205). -/
theorem State.hostStoreAt_jspCtrl : ∃ new wo, s.hostStoreAt (towerBase u + 0x230) al v = s.modTower u (·.writeCtrl 0x230 new wo)
    ∧ bitOf new 0 = freezeWritten al v ((s.tower u).heldJsp.getD (s.tower u).jsp.freeze) ∧ bitOf wo 1 = clearWritten al v := by
  have hold : s.regOld (towerBase u + 0x230) = putBit ((s.tower u).heldJsp.getD (s.tower u).jsp.freeze) 0 := by
    simp [State.regOld, towerOf_towerBase hu (off := 0x230) (by omega)]
  refine ⟨_, _, s.hostStoreAt_towerBase hu (by omega) rfl hio hr al v, ?_, bitOf_writeFields_clear al _ v⟩
  rw [hold, bitOf_writeFields_freeze]

end

/-! ### JSP_OUTST_PEAK -/

theorem ctrAt_towerBase_none {u off : Nat} (hu : u < 324) (ho : off < 0x4000) (hoff : off = 0x21C ∨ off = 0x218) :
    ctrAt (towerBase u + off) = none := by
  simp only [ctrAt, towerOf_towerBase hu ho]
  rcases hoff with rfl | rfl <;> rfl

/-- A read of JSP_OUTST_PEAK gives its value and starts it anew at the requests outstanding (R205). -/
theorem State.readWord_outstPeak {s : State} {u : Nat} (hr : s.power.ready = true) (hu : u < 324) :
    s.readWord (towerBase u + 0x21C) = (some (BitVec.ofNat 32 (s.tower u).jsp.outstPeak),
      s.modTower u fun x => { x with jsp := { x.jsp with outstPeak := x.outstanding } }) := by
  have ho : 0x21C < 0x4000 := by omega
  have hdef : definedAt (towerBase u + 0x21C) = true := definedAt_towerBase hu ho .base
  have hopen : s.forbids (towerBase u + 0x21C) = false := s.forbids_towerBase hu ho .base
  have hbase : baseAddr (towerBase u + 0x21C) = towerBase u + 0x21C := baseAddr_towerBase ho .base
  have hlow : ¬ towerBase u + 0x21C < 4 := by omega
  have hprev : towerBase u + 0x21C - 4 = towerBase u + 0x218 := rfl
  have hval : s.regRead (towerBase u + 0x21C) = (s.tower u).jsp.outstPeak := by
    simp [State.regRead, hr, hbase, State.regRaw, ctrAt_towerBase_none hu ho, hlow, hprev,
      ctrAt_towerBase_none hu (off := 0x218) (by omega), towerOf_towerBase hu ho, State.towerReg]
  simp [State.readWord, hdef, hopen, hbase, ctrAt_towerBase_none hu ho, hval, towerOf_towerBase hu ho]

/-! ### The statement -/

/-- Settles O26: the read of the peak through `readWord_outstPeak`, FREEZE and CLEAR through the control word as a host write makes it. -/
theorem towerCounterControls : Obligations.TowerCounterControls := by
  refine ⟨fun s u hio hr hu hl _ be => ?_, fun s u al v hio hr hu hl => ?_⟩
  · have hlen : u < s.towers.length := by omega
    refine ⟨_, rfl, ?_⟩
    simp only [State.whenIo, hio, if_true, State.peakRead, State.readWord_outstPeak hr hu]
    refine ⟨fun hide hbe => ?_, ?_, fun k hk => ?_, ?_⟩
    · simp only [hbe, if_true]
      have hide' : (s.modTower u fun x => { x with jsp := { x.jsp with outstPeak := x.outstanding } }).ideUp 1 = true := hide
      simp [State.reply, State.emit, Posted.stream, hide', Out.sendOne]
    · exact s.tower_modTower_same _ hlen
    · exact s.towers_modTower_getElem?_other _ hk
    · exact Frame.trans (s.modTower_frame _ u) (State.emit_frame _ _) (by simp) (by simp)
  · have hlen : u < s.towers.length := by omega
    obtain ⟨nu, wu, hutil, hfu, hcu⟩ := State.hostStoreAt_twrUtilCtrl hio hr hu al v
    obtain ⟨nj, wj, hjsp, hfj, hcj⟩ := State.hostStoreAt_jspCtrl hio hr hu al v
    have hexecU : ∀ i ∈ [Instr.twrUtilCtrlFreeze u al v, .twrUtilCtrlClear u al v],
        exec i s = .next (s.modTower u (·.writeCtrl 0x150 nu wu)) := by
      rw [← hutil]
      simp [exec, execTwrUtilCtrlFreeze, execTwrUtilCtrlClear]
    have hexecJ : ∀ i ∈ [Instr.jspCtrlFreeze u al v, .jspCtrlClear u al v],
        exec i s = .next (s.modTower u (·.writeCtrl 0x230 nj wj)) := by
      rw [← hjsp]
      simp [exec, execJspCtrlFreeze, execJspCtrlClear]
    refine ⟨fun hin => ⟨fun i hi => ?_, fun i hi => ?_⟩, fun hout => ⟨fun i hi => ?_, fun i hi => ?_⟩⟩
    · refine ⟨_, hexecU i hi, s.modTower_frame _ u, fun k hk => s.towers_modTower_getElem?_other _ hk, ?_⟩
      rw [s.tower_modTower_same _ hlen]
      rw [Tower.writeCtrl_util hin, hfu, hcu]
      refine ⟨rfl, rfl, ?_⟩
      change if clearWritten al v = true then _ else _
      by_cases hc : clearWritten al v = true
      · simp [hc, TowerCtrs.clear]
      · simp only [hc]
        rfl
    · refine ⟨_, hexecJ i hi, s.modTower_frame _ u, fun k hk => s.towers_modTower_getElem?_other _ hk, ?_⟩
      rw [s.tower_modTower_same _ hlen]
      rw [Tower.writeCtrl_jsp hin, hfj, hcj]
      refine ⟨rfl, rfl, ?_⟩
      change if clearWritten al v = true then _ else _
      by_cases hc : clearWritten al v = true
      · simp [hc, JspCtrs.clear]
      · simp only [hc]
        rfl
    · refine ⟨_, hexecU i hi, s.modTower_frame _ u, fun k hk => s.towers_modTower_getElem?_other _ hk, ?_⟩
      rw [s.tower_modTower_same _ hlen]
      rw [Tower.writeCtrl_util_held hout, hfu]
      rfl
    · refine ⟨_, hexecJ i hi, s.modTower_frame _ u, fun k hk => s.towers_modTower_getElem?_other _ hk, ?_⟩
      rw [s.tower_modTower_same _ hlen]
      rw [Tower.writeCtrl_jsp_held hout, hfj]
      rfl

end Sys2Proof.Machine
end

section
/-!
SUPPORT. The control ring, and what the fault of a tower and of a router leave (R13, R26, R387, R397, R425, R426).
-/
namespace Sys2Proof.Machine

open Sys2Proof

/-! ### Towers in service -/

/-- An update that leaves every tower in service or out of it leaves their number. -/
theorem State.activeTowers_modTower (s : State) (u : Nat) {f : Tower → Tower} (hf : ∀ x, (f x).inService = x.inService) :
    (s.modTower u f).activeTowers = s.activeTowers := by
  have hmap : (updAt s.towers u f).map Tower.inService = s.towers.map Tower.inService := by
    apply List.ext_getElem?
    intro k
    rcases hk : s.towers[k]? with _ | x <;> by_cases huk : u = k <;> simp [updAt, hk, huk, hf]
  have hcount (l : List Tower) : (l.filter Tower.inService).length = (l.map Tower.inService).count true := by
    rw [← List.countP_eq_length_filter, List.count, List.countP_map]
    congr 1
    funext x
    simp
  rw [State.activeTowers, State.activeTowers, hcount, hcount, State.modTower_towers, hmap]

/-- A failed router stands as bit 0 of the causes that make a module unserviceable (R387). -/
theorem State.causes_routerFault {s : State} (h : s.towers.any (·.routerFault) = true) : s.causes % 2 = 1 := by
  have heven (b : Bool) {k : Nat} (hk : k ≠ 0) : putBit b k % 2 = 0 := by
    obtain ⟨k, rfl⟩ := Nat.exists_eq_succ_of_ne_zero hk
    cases b <;> simp [putBit, Nat.pow_succ]
  have h1 := heven s.power.ioSramBad (k := 1) (by decide)
  have h2 := heven (s.keep.state == 3) (k := 2) (by decide)
  have h3 := heven (s.fabric.links.any fun l => l.mismatch) (k := 3) (by decide)
  have h0 : putBit true 0 = 1 := rfl
  simp only [State.causes, h, h0]
  omega

/-! ### The fault of a tower -/

theorem State.collectDroop_frame (s : State) (u : Nat) : Frame [.towers, .measure] s (s.collectDroop u) :=
  Frame.trans (s.modTower_frame _ u) (State.set_measure_frame _ _) (by simp) (by simp)

/-- A tower that has faulted: out of service, without work (R425, R426). -/
structure Tower.Faulted (x : Tower) : Prop where
  state : x.state = 4
  queue : x.queue = []
  started : x.started = []
  streams : x.streams = []

theorem Tower.Faulted.inService {x : Tower} (h : x.Faulted) : x.inService = false := by
  simp [Tower.inService, h.state]

theorem Tower.Faulted.dropItems {x : Tower} (h : x.Faulted) (p : Item → Bool) : (x.dropItems p).Faulted := by
  obtain ⟨h1, h2, h3, h4⟩ := h
  exact ⟨h1, by simp [Tower.dropItems, h2], by simp [Tower.dropItems, h3], by simp [Tower.dropItems, h4]⟩

/-- The state in which a tower has left service, before the event and the failing of the step. -/
def State.faultedTower (s : State) (u : Nat) : State :=
  ((s.collectDroop u).modTower u fun x => { x.emptied with state := 4 }).coldEntries u

section
variable {s : State} {u : Nat} (hl : u < s.towers.length)

theorem State.faultedTower_frame (s : State) (u : Nat) : Frame [.towers, .measure, .evt, .slots] s (s.faultedTower u) :=
  Frame.trans (Frame.trans (k := [.towers, .measure]) (s.collectDroop_frame u) (State.modTower_frame _ _ u) (by simp) (by simp))
    (State.coldEntries_moved _ u).1 (by simp) (by simp)

theorem State.faultedTower_measure (s : State) (u : Nat) : (s.faultedTower u).measure
    = { s.measure with droopWin := ⟨s.measure.droopWin.v + BitVec.ofNat 64 (s.tower u).droopNew, s.measure.droopWin.shadow⟩ } :=
  (State.coldEntries_moved ((s.collectDroop u).modTower u fun x => { x.emptied with state := 4 }) u).1 .measure (by simp)

include hl in
theorem State.tower_faultedTower : ((s.faultedTower u).tower u).Faulted := by
  have hlen : u < (s.collectDroop u).towers.length := by
    simpa [State.collectDroop, updAt] using hl
  obtain ⟨e, he⟩ := (State.coldEntries_moved ((s.collectDroop u).modTower u fun x => { x.emptied with state := 4 }) u).2.1 u
  rw [State.tower_modTower_same _ _ hlen] at he
  rw [State.faultedTower, he]
  exact ⟨rfl, rfl, rfl, rfl⟩

theorem State.state_faultedTower_other {k : Nat} (hk : k ≠ u) : ((s.faultedTower u).tower k).state = (s.tower k).state := by
  obtain ⟨e, he⟩ := (State.coldEntries_moved ((s.collectDroop u).modTower u fun x => { x.emptied with state := 4 }) u).2.1 k
  have hsame : (s.collectDroop u).tower k = s.tower k := s.tower_modTower_other _ hk
  rw [State.tower_modTower_other _ _ hk, hsame] at he
  rw [State.faultedTower, he]

include hl in
theorem State.faultedTower_slots (h : (s.tower u).entries = []) : (s.faultedTower u).slots = s.slots := by
  have hlen : u < (s.collectDroop u).towers.length := by
    simpa [State.collectDroop, updAt] using hl
  refine (State.coldEntries_moved _ u).2.2 ?_
  rw [State.tower_modTower_same _ _ hlen]
  exact (congrArg Tower.entries (s.tower_modTower_same _ hl)).trans h

/-- A tower fault is the tower's leaving, an event, and the failing of the step before its decision (R425, R426). -/
theorem State.towerFault_eq (cause : Nat) (h : (s.tower u).inService = true) : ∃ src fs,
    s.towerFault u cause = ((s.faultedTower u).event src 0x0506 fs).failEarly stBUS_ERROR := by
  simp only [State.towerFault, h, Bool.not_true, Bool.false_eq_true, if_false]
  exact ⟨_, _, rfl⟩

end

/-! ### The statement -/

/-- Settles O44: the ring's messages and the router's fault are updates of one tower; the tower's fault leaves through `faultedTower`, the
event and the failing step, whose frames the earlier lemmas give. -/
theorem controlRingAndFaults : Obligations.ControlRingAndFaults := by
  refine ⟨fun s u hp hu hl hin => ?_, fun s u cause hp hu hl => ⟨fun hin => ?_, ?_⟩⟩
  · have hlen : u < s.towers.length := by omega
    have hring (m : RingMsg) : exec (.controlRingMessage u m) s = .next (s.ringMessage u m) := by
      simp [exec, execControlRingMessage, State.whenOn, hp]
    refine ⟨⟨_, hring .bubble, s.modTower_frame _ u, fun k hk => s.towers_modTower_getElem?_other _ hk, ?_⟩,
      ⟨_, hring .epoch, s.modTower_frame _ u, fun k hk => s.towers_modTower_getElem?_other _ hk, ?_⟩, hring .config⟩
    · simp only [State.ringMessage, s.tower_modTower_same _ hlen, hin, if_true]
    · simp only [State.ringMessage, s.tower_modTower_same _ hlen, hin, if_true]
  · have hlen : u < s.towers.length := by omega
    have hexec : exec (.towerFault u cause) s = .next (s.towerFault u cause) := by
      simp [exec, execTowerFault, State.whenOn, hp]
    obtain ⟨src, fs, heq⟩ := State.towerFault_eq cause hin
    have hev := (s.faultedTower u).event_frame src 0x0506 fs
    have hfail := ((s.faultedTower u).event src 0x0506 fs).failEarly_frame stBUS_ERROR
    have hsteps : ((s.faultedTower u).event src 0x0506 fs).steps = s.steps :=
      hev.steps_eq.trans (s.faultedTower_frame u).steps_eq
    have htower (k : Nat) : ((s.faultedTower u).event src 0x0506 fs).tower k = (s.faultedTower u).tower k := hev.tower_eq k
    have hearly : ((s.faultedTower u).event src 0x0506 fs).earlyIdx = s.earlyIdx := by
      simp [State.earlyIdx, hsteps]
    have hfaulted : ((s.towerFault u cause).tower u).Faulted := by
      have h0 := State.tower_faultedTower hlen
      rw [← htower] at h0
      rw [heq]
      rcases State.failEarly_tower ((s.faultedTower u).event src 0x0506 fs) stBUS_ERROR u with h | ⟨p, h⟩ <;> rw [h]
      · exact h0
      · exact h0.dropItems p
    refine ⟨_, hexec, hfaulted.state, hfaulted.queue, hfaulted.started, hfaulted.streams, hfaulted.inService, fun k hk => ?_,
      fun i p hi hget hrun => ?_, fun hnone => ?_, ?_, ?_, fun hent => ?_⟩
    · rw [heq, ← State.state_faultedTower_other (s := s) hk, ← htower k]
      rcases State.failEarly_tower ((s.faultedTower u).event src 0x0506 fs) stBUS_ERROR k with h | ⟨p, h⟩ <;> rw [h]
      rfl
    · rw [heq, State.failEarly, hearly, hi]
      exact State.failStep_steps stBUS_ERROR (by rw [hsteps]; exact hget) (State.earlyIdx_undecided hi hget) hrun
    · rw [heq, State.failEarly_none stBUS_ERROR (by rw [hearly]; exact hnone), hsteps]
    · rw [heq]
      exact Frame.trans (Frame.trans (k := [.towers, .measure, .evt, .slots]) (s.faultedTower_frame u) hev (by simp) (by simp))
        hfail (by simp) (by simp)
    · rw [heq]
      exact (hfail.measure_eq.trans hev.measure_eq).trans (s.faultedTower_measure u)
    · rw [heq]
      exact (hfail.slots_eq.trans hev.slots_eq).trans (State.faultedTower_slots hlen hent)
  · have hlen : u < s.towers.length := by omega
    have hexec : exec (.routerFault u) s = .next (s.modTower u fun x => { x with routerFault := true }) := by
      simp [exec, execRouterFault, State.whenOn, hp]
    refine ⟨_, hexec, s.modTower_frame _ u, s.tower_modTower_same _ hlen, fun k hk => s.towers_modTower_getElem?_other _ hk,
      State.causes_routerFault ?_, s.activeTowers_modTower u fun _ => rfl⟩
    rw [List.any_eq_true]
    refine ⟨{ s.tower u with routerFault := true }, ?_, rfl⟩
    rw [← s.tower_modTower_same (fun x => { x with routerFault := true }) hlen]
    rw [State.tower_eq_getElem _ (by rw [State.towers_modTower_length]; exact hlen)]
    exact List.getElem_mem _

end Sys2Proof.Machine
end

section
/-!
SUPPORT. The issue slots of a report (R34, R35, R316, R318, R321): every cycle gives 32 slots to what suppresses it or leaves them free, and
the free ones are issued, starved or idle.
-/
namespace Sys2Proof.Machine

open Sys2Proof

/-! ### Suppressed and free slots -/

/-- Each cycle adds 32 slots to exactly one of the three classes of `Suppressed`. -/
theorem runCycles_slots (b n : Nat) (x : Suppressed) :
    (runCycles b n x).droop + (runCycles b n x).power + (runCycles b n x).free = x.droop + x.power + x.free + 32 * n := by
  induction n generalizing x with
  | zero => simp [runCycles]
  | succ n ih =>
    unfold runCycles
    dsimp only
    rw [ih]
    split
    · dsimp only
      omega
    · split <;> dsimp only <;> omega

theorem runCycles_add (b n m : Nat) (x : Suppressed) : runCycles b (n + m) x = runCycles b m (runCycles b n x) := by
  induction n generalizing x with
  | zero => simp [runCycles]
  | succ n ih => rw [Nat.add_right_comm, runCycles, runCycles, ih]

/-- The start of a frame without a droop window. -/
def frameStart : Suppressed := ⟨0, 0, 0, 0, 0⟩

theorem runCycles_undrooped (b n : Nat) :
    (runCycles b n frameStart).frame = n % 64 ∧ (runCycles b n frameStart).droopLeft = 0 ∧ (runCycles b n frameStart).droop = 0 := by
  induction n with
  | zero => simp [runCycles, frameStart]
  | succ n ih =>
    obtain ⟨hframe, hleft, hdroop⟩ := ih
    rw [runCycles_add]
    simp only [runCycles, hframe, hleft, Nat.lt_irrefl, decide_false, Bool.false_and, Bool.false_eq_true, if_false]
    by_cases hb : bitRev6 (n % 64) < b <;> simp [hb, hdroop]

/-- Cycle `i` of a frame is suppressed when its bit-reversed index is below b (R318). -/
theorem runCycles_power_succ (b : Nat) {i : Nat} (hi : i < 64) :
    (runCycles b (i + 1) frameStart).power = (runCycles b i frameStart).power + if bitRev6 i < b then 32 else 0 := by
  obtain ⟨hframe, hleft, -⟩ := runCycles_undrooped b i
  rw [Nat.mod_eq_of_lt hi] at hframe
  rw [runCycles_add]
  simp only [runCycles, hframe, hleft, Nat.lt_irrefl, decide_false, Bool.false_and, Bool.false_eq_true, if_false]
  by_cases hb : bitRev6 i < b <;> simp [hb]

theorem runCycles_power_eq_countP (b : Nat) {n : Nat} (hn : n ≤ 64) :
    (runCycles b n frameStart).power = 32 * (List.range n).countP fun i => bitRev6 i < b := by
  induction n with
  | zero => rfl
  | succ n ih =>
    rw [runCycles_power_succ b (by omega), ih (by omega), List.range_succ, List.countP_append]
    by_cases hb : bitRev6 n < b <;> simp [hb, Nat.mul_add]

/-- Bit reversal permutes the 64 cycles of a frame. -/
theorem bitRev6_perm : ((List.range 64).map bitRev6).Perm (List.range 64) := by decide +kernel

theorem countP_range_lt {b n : Nat} (hb : b ≤ n) : (List.range n).countP (fun i => decide (i < b)) = b := by
  induction n with
  | zero => simpa using (Nat.le_zero.mp hb).symm
  | succ n ih =>
    rcases Nat.lt_or_ge n b with h | h
    · obtain rfl : b = n + 1 := by omega
      rw [List.countP_eq_length.mpr fun i hi => by simpa using List.mem_range.mp hi, List.length_range]
    · rw [List.range_succ, List.countP_append, ih h]
      simp [Nat.not_lt.mpr h]

/-- b suppresses b cycles of a frame (R318). -/
theorem runCycles_frame {b : Nat} (hb : b ≤ 64) :
    (runCycles b 64 frameStart).power = 32 * b ∧ (runCycles b 64 frameStart).free = 32 * (64 - b) := by
  have hcount : (List.range 64).countP (fun i => decide (bitRev6 i < b)) = b := by
    have hperm := bitRev6_perm.countP_eq fun i => decide (i < b)
    rw [List.countP_map, countP_range_lt hb] at hperm
    exact hperm
  have hpower : (runCycles b 64 frameStart).power = 32 * b := by rw [runCycles_power_eq_countP b (Nat.le_refl 64), hcount]
  have hsum := runCycles_slots b 64 frameStart
  obtain ⟨-, -, hdroop⟩ := runCycles_undrooped b 64
  have hstart : frameStart.droop = 0 ∧ frameStart.power = 0 ∧ frameStart.free = 0 := ⟨rfl, rfl, rfl⟩
  omega

/-! ### The counters and the work of a tower -/

theorem Ctr.add_sub (c : Ctr) (n : Nat) : (c.add n).v - c.v = BitVec.ofNat 64 n := by
  simp [Ctr.add]

/-- The five classes of a report take the slots of its cycles (R34, R35). -/
theorem TowerCtrs.report_classes (c : TowerCtrs) (a : Activity) (x : Suppressed) (hf : c.freeze = false) :
    let n := c.report a x
    (n.issued.v - c.issued.v) + (n.pwrBub.v - c.pwrBub.v) + (n.droopBub.v - c.droopBub.v) + (n.starved.v - c.starved.v)
      + (n.idle.v - c.idle.v) = BitVec.ofNat 64 (x.droop + x.power + x.free) := by
  simp only [TowerCtrs.report, hf, Bool.false_eq_true, if_false, Ctr.add_sub, ← BitVec.ofNat_add]
  congr 1
  omega

/-- No slot that a bubble suppresses starts work, and no more work is done than the tower holds (R14, R203, R205). -/
theorem Tower.activity_bounds (t : Tower) (a : Activity) (free : Nat) :
    (t.activity a free).cycles = a.cycles
      ∧ ((t.activity a free).fwd ≤ 1024 * free ∧ (t.activity a free).bwd ≤ 256 * free ∧ (t.activity a free).vec ≤ free)
      ∧ ((t.activity a free).fwd ≤ t.fwdWork ∧ (t.activity a free).bwd ≤ t.bwdWork ∧ (t.activity a free).vec ≤ t.vecWork)
      ∧ ((t.activity a free).starved ≠ 0 → t.starved = true) ∧ ((t.activity a free).stall ≠ 0 → t.noCredit = true) := by
  refine ⟨rfl, ⟨?_, ?_, Nat.min_le_right _ _⟩, ⟨Nat.min_le_left _ _, Nat.min_le_left _ _, Nat.min_le_left _ _⟩, fun h => ?_, fun h => ?_⟩
  · exact Nat.le_trans (Nat.min_le_right _ _) (Nat.mul_le_mul_left _ (Nat.min_le_right _ _))
  · exact Nat.le_trans (Nat.min_le_right _ _) (Nat.mul_le_mul_left _ (Nat.min_le_right _ _))
  · by_contra hs
    simp [Tower.activity, hs] at h
  · by_contra hs
    simp [Tower.activity, hs] at h

theorem Tower.report_ctrs (t : Tower) (a : Activity) (cadence : Nat) :
    let x := runCycles t.bubble a.cycles ⟨t.frame, t.droopLeft, 0, 0, 0⟩
    (t.report a cadence).ctrs = t.ctrs.report (t.activity a x.free) x := rfl

/-- A report of a tower in service (R316): its cycles pass, and Belfry takes what it did and its droop windows (R397). -/
theorem State.activityReport_tower {s : State} {u : Nat} (a : Activity) (hu : u < 324) (hin : (s.tower u).inService = true) :
    ∃ bf, s.activityReport u a = { s.modTower u fun t => t.report a s.belfry.cadence with
      belfry := bf
      measure := { s.measure with
        droopWin := s.measure.droopWin.add (s.tower u).droopNew
        reports := s.measure.reports ++ [(u, (s.tower u).activity a
          (runCycles (s.tower u).bubble a.cycles ⟨(s.tower u).frame, (s.tower u).droopLeft, 0, 0, 0⟩).free)]
        droopCount := s.measure.droopCount + (s.tower u).droopNew } } := by
  simp only [State.activityReport, hu, hin, if_true]
  exact ⟨_, rfl⟩

/-- The classes of a report as its counters add them, or the counters of a frozen tower (R34, R321). -/
theorem Tower.report_sum (t : Tower) (a : Activity) (cadence : Nat) :
    if t.ctrs.freeze then (t.report a cadence).ctrs = t.ctrs
    else ((t.report a cadence).ctrs.issued.v - t.ctrs.issued.v) + ((t.report a cadence).ctrs.pwrBub.v - t.ctrs.pwrBub.v)
        + ((t.report a cadence).ctrs.droopBub.v - t.ctrs.droopBub.v) + ((t.report a cadence).ctrs.starved.v - t.ctrs.starved.v)
        + ((t.report a cadence).ctrs.idle.v - t.ctrs.idle.v) = BitVec.ofNat 64 (32 * a.cycles)
      ∧ (t.report a cadence).ctrs.cycles.v = t.ctrs.cycles.v + BitVec.ofNat 64 a.cycles := by
  rw [Tower.report_ctrs]
  by_cases hf : t.ctrs.freeze = true
  · rw [if_pos hf]
    simp [TowerCtrs.report, hf]
  · rw [if_neg hf]
    have hslots := runCycles_slots t.bubble a.cycles ⟨t.frame, t.droopLeft, 0, 0, 0⟩
    have hsum := TowerCtrs.report_classes t.ctrs (t.activity a (runCycles t.bubble a.cycles ⟨t.frame, t.droopLeft, 0, 0, 0⟩).free)
      (runCycles t.bubble a.cycles ⟨t.frame, t.droopLeft, 0, 0, 0⟩) (by simpa using hf)
    refine ⟨?_, ?_⟩
    · rw [hslots] at hsum
      simpa using hsum
    · simp [TowerCtrs.report, hf, Ctr.add, (t.activity_bounds a _).1]

/-! ### The statement -/

/-- Settles O38: the slots of `runCycles` and their split by `report`; the frame through the permutation of its cycles. -/
theorem slotClassesSum : Obligations.SlotClassesSum := by
  refine ⟨fun s u a hp => ⟨fun hu hl hin => ?_, fun hlo hhi => ?_⟩, fun b hb => ?_⟩
  · have hlen : u < s.towers.length := by omega
    have hexec : exec (.towerActivityReport u a) s = .next (s.activityReport u a) := by
      simp [exec, execTowerActivityReport, State.whenOn, hp]
    obtain ⟨bf, heq⟩ := State.activityReport_tower a hu hin
    have htower : (s.activityReport u a).tower u = (s.tower u).report a s.belfry.cadence := by
      rw [heq]
      exact s.tower_modTower_same _ hlen
    obtain ⟨hcycles, hslots, hwork, hstarved, hstall⟩ := (s.tower u).activity_bounds a
      (runCycles (s.tower u).bubble a.cycles ⟨(s.tower u).frame, (s.tower u).droopLeft, 0, 0, 0⟩).free
    refine ⟨_, _, hexec, ?_, ?_, ?_, by rw [heq], hcycles, hslots, ?_, ?_, ?_, hstarved, ?_, hstall, ?_, by rw [heq]; rfl, ?_, ?_⟩
    · rw [heq]
      intro c hc
      cases c with
      | towers | measure | belfry => simp at hc
      | _ => rfl
    · rw [heq]
      exact fun k hk => s.towers_modTower_getElem?_other _ hk
    · rw [htower]
      exact (s.tower u).report_sum a s.belfry.cadence
    · rw [htower]
      exact Nat.sub_add_cancel hwork.1
    · rw [htower]
      exact Nat.sub_add_cancel hwork.2.1
    · rw [htower]
      exact Nat.sub_add_cancel hwork.2.2
    · rw [htower]; rfl
    · rw [htower]; rfl
    · rw [htower]; rfl
    · rw [htower]; rfl
  · refine ⟨s.activityReport u a, by simp [exec, execTowerActivityReport, State.whenOn, hp], ?_⟩
    rw [State.activityReport, if_neg (by omega), if_pos ⟨hlo, hhi⟩]
  · obtain ⟨hpower, hfree⟩ := runCycles_frame hb
    exact ⟨hpower, hfree, fun i hi => runCycles_power_succ b hi⟩

end Sys2Proof.Machine
end

section
/-!
SUPPORT. The fast loop (R311, R312, R317, R324): how far the bubble count moves, and the five things that a ramp can do at the end of a
period.
-/
namespace Sys2Proof.Machine

open Sys2Proof

/-! ### The bubble count -/

/-- The target lies between none and 60 (R317). -/
theorem bubbleTarget_le (est twr cap b : Nat) : bubbleTarget est twr cap b ≤ 60 := by
  unfold bubbleTarget
  dsimp only
  split
  · omega
  · split
    · omega
    · generalize (64 - -(((est : Int) - twr - cap) * ((64 - b : Nat) : Int)) / (twr : Int)) = c
      omega

/-- b falls by at most 4 a period, never past 60, and never below a floor in force (R317). -/
theorem nextBubble_bounds {target b : Nat} (ht : target ≤ 60) (hb : b ≤ 60) (floored : Bool) :
    nextBubble target b floored ≤ 60 ∧ b ≤ nextBubble target b floored + 4 ∧ (floored = true → 48 ≤ nextBubble target b floored) := by
  unfold nextBubble
  dsimp only
  generalize hn : (if target ≥ b then target else max target (b - 4)) = n
  have hbounds : n ≤ 60 ∧ b ≤ n + 4 := by split at hn <;> omega
  cases floored
  · simpa using hbounds
  · simp only [if_true]
    omega

/-! ### Ramps -/

theorem State.sendBeacon_frame (s : State) : Frame [.out] s s.sendBeacon := by
  unfold State.sendBeacon
  split
  · exact s.set_out_frame _
  · exact Frame.refl _ _

section
variable {s : State}

theorem State.rampStep_settling (h : s.belfry.settling = true) : s.rampStep = s := by
  simp [State.rampStep, h]

theorem State.rampStep_rests (ht : s.belfry.rampTarget = s.belfry.cadence) (hr : s.belfry.ramping = false) : s.rampStep = s := by
  simp [State.rampStep, ht, hr]

/-- A ramp that stands at its target ends with the set-points of the code in force (R311). -/
theorem State.rampStep_ends (hs : s.belfry.settling = false) (ht : s.belfry.rampTarget = s.belfry.cadence) (hr : s.belfry.ramping = true) :
    s.rampStep = ({ s with
      belfry := { s.belfry with ramping := false }
      thermal := { s.thermal with setpoint := s.thermal.setpoints s.belfry.cadence } } : State).sendBeacon := by
  simp [State.rampStep, hs, ht, hr]

/-- A droop window of the period pauses the ramp, and the pause counts (R324). -/
theorem State.rampStep_pauses (hs : s.belfry.settling = false) (ht : s.belfry.rampTarget ≠ s.belfry.cadence) (hd : s.belfry.droopSeen = true) :
    s.rampStep = { s with measure := { s.measure with rampPause := s.measure.rampPause + 1 } } := by
  simp [State.rampStep, hs, ht, hd]

/-- A ramp moves one code toward its target, and every tower's clock follows the step before (R21, R324). -/
theorem State.rampStep_moves (hs : s.belfry.settling = false) (ht : s.belfry.rampTarget ≠ s.belfry.cadence) (hd : s.belfry.droopSeen = false) :
    ∃ th r, s.rampStep = ({ s with
      towers := s.towers.map fun t => { t with clock := s.belfry.cadence }
      belfry := { s.belfry with
        cadence := if s.belfry.cadence < s.belfry.rampTarget then s.belfry.cadence + 1 else s.belfry.cadence - 1
        ramping := r }
      thermal := th } : State).sendBeacon := by
  simp only [State.rampStep, hs, ht, hd, Bool.false_eq_true, or_self, if_false, gt_iff_lt, decide_eq_true_eq]
  exact ⟨_, _, rfl⟩

end

/-- What a ramp's step at the end of a period can do: nothing, the end of the ramp, a pause, or a step (R324). The frame and what it leaves
of Belfry's other fields are the same in every case. -/
theorem State.rampStep_frame (s : State) : Frame [.measure, .belfry, .thermal, .towers, .out] s s.rampStep
    ∧ s.rampStep.belfry = { s.belfry with cadence := s.rampStep.belfry.cadence, ramping := s.rampStep.belfry.ramping }
    ∧ s.rampStep.measure = { s.measure with rampPause := s.rampStep.measure.rampPause } := by
  have hbeacon (bf : Belfry) (th : Thermal) (tw : List Tower) :
      let u : State := { s with belfry := bf, thermal := th, towers := tw }
      Frame [.measure, .belfry, .thermal, .towers, .out] s u.sendBeacon ∧ u.sendBeacon.belfry = bf ∧ u.sendBeacon.measure = s.measure := by
    intro u
    have hframe := State.sendBeacon_frame u
    refine ⟨fun c hc => ?_, hframe.belfry_eq, hframe.measure_eq⟩
    have hout : c ∉ [Component.out] := fun h => hc (by simp_all)
    refine Component.Same.trans ?_ (hframe c hout)
    cases c with
    | measure | belfry | thermal | towers => simp at hc
    | _ => rfl
  rcases hs : s.belfry.settling with _ | _
  · by_cases ht : s.belfry.rampTarget = s.belfry.cadence
    · rcases hr : s.belfry.ramping with _ | _
      · rw [State.rampStep_rests ht hr]
        exact ⟨Frame.refl _ _, rfl, rfl⟩
      · rw [State.rampStep_ends hs ht hr]
        obtain ⟨hframe, hb, hm⟩ := hbeacon { s.belfry with ramping := false }
          { s.thermal with setpoint := s.thermal.setpoints s.belfry.cadence } s.towers
        exact ⟨hframe, by rw [hb], by rw [hm]⟩
    · rcases hd : s.belfry.droopSeen with _ | _
      · obtain ⟨th, r, heq⟩ := State.rampStep_moves hs ht hd
        rw [heq]
        obtain ⟨hframe, hb, hm⟩ := hbeacon _ th (s.towers.map fun t => { t with clock := s.belfry.cadence })
        exact ⟨hframe, by rw [hb], by rw [hm]⟩
      · rw [State.rampStep_pauses hs ht hd]
        exact ⟨(s.set_measure_frame _).weaken (by simp), rfl, rfl⟩
  · rw [State.rampStep_settling hs]
    exact ⟨Frame.refl _ _, rfl, rfl⟩

/-- A step leaves the cadence and every tower as they were, or moves the cadence while every tower's clock stands at the code before (R21). -/
theorem State.rampStep_clocks (s : State) :
    s.rampStep.belfry.cadence = s.belfry.cadence ∧ s.rampStep.towers = s.towers
      ∨ s.rampStep.belfry.cadence ≠ s.belfry.cadence ∧ ∀ x ∈ s.rampStep.towers, x.clock = s.belfry.cadence := by
  rcases hs : s.belfry.settling with _ | _
  · by_cases ht : s.belfry.rampTarget = s.belfry.cadence
    · rcases hr : s.belfry.ramping with _ | _
      · rw [State.rampStep_rests ht hr]
        exact .inl ⟨rfl, rfl⟩
      · rw [State.rampStep_ends hs ht hr]
        rw [(State.sendBeacon_frame _).belfry_eq, (State.sendBeacon_frame _).towers_eq]
        exact .inl ⟨rfl, rfl⟩
    · rcases hd : s.belfry.droopSeen with _ | _
      · obtain ⟨th, r, heq⟩ := State.rampStep_moves hs ht hd
        rw [heq, (State.sendBeacon_frame _).belfry_eq, (State.sendBeacon_frame _).towers_eq]
        refine .inr ⟨?_, fun x hx => ?_⟩
        · dsimp only
          split <;> omega
        · obtain ⟨y, -, rfl⟩ := List.mem_map.mp hx
          rfl
      · rw [State.rampStep_pauses hs ht hd]
        exact .inl ⟨rfl, rfl⟩
  · rw [State.rampStep_settling hs]
    exact .inl ⟨rfl, rfl⟩

/-- A ramp that moves takes one code toward its target (R324). -/
theorem State.rampStep_cadence {s : State} (hs : s.belfry.settling = false) (ht : s.belfry.rampTarget ≠ s.belfry.cadence)
    (hd : s.belfry.droopSeen = false) : s.rampStep.belfry.cadence =
      if s.belfry.cadence < s.belfry.rampTarget then s.belfry.cadence + 1 else s.belfry.cadence - 1 := by
  obtain ⟨th, r, heq⟩ := State.rampStep_moves hs ht hd
  rw [heq, (State.sendBeacon_frame _).belfry_eq]

/-! ### The fast loop -/

/-- The fast loop is a new estimate and bubble count, then the ramp's step, then the end of the period (R317, R324). -/
theorem State.fastLoop_eq (s : State) : ∃ m target floored full low,
    target ≤ 60 ∧ floored = (s.belfry.supplyFloor || s.belfry.thermalFloor) ∧ m.reports = [] ∧ m.rampPause = s.measure.rampPause ∧
    let b : Belfry := { s.belfry with
      capEff := s.belfry.cap, bubble := nextBubble target s.belfry.bubble floored, fullPeriods := full, lowPeriods := low }
    let u : State := ({ s with measure := m, belfry := b } : State).rampStep
    s.fastLoop = { u with belfry := { u.belfry with droopSeen := false } } := by
  refine ⟨_, _, _, _, _, ?_, rfl, ?_, ?_, rfl⟩
  · exact bubbleTarget_le _ _ _ _
  · rfl
  · rfl

/-! ### The statement -/

/-- Settles O39: the bounds of `nextBubble`, and the cases of a ramp's step. -/
theorem fastLoopMovesBubblesAndRamps : Obligations.FastLoopMovesBubblesAndRamps := by
  have hexec (s : State) (hp : s.power.powered = true) : exec .fastLoopPeriod s = .next s.fastLoop := by
    simp [exec, execFastLoopPeriod, State.whenOn, hp]
  refine ⟨fun s hp hb => ⟨_, hexec s hp, ?_⟩, fun s hp => ⟨⟨_, hexec s hp, ?_⟩, _, rfl, by simp [State.whenOn, hp]⟩⟩
  · obtain ⟨m, target, floored, full, low, ht, hfl, hrep, -, heq⟩ := s.fastLoop_eq
    obtain ⟨hle, hfall, hfloor⟩ := nextBubble_bounds ht hb floored
    dsimp only at heq
    generalize hu : ({ s with
      measure := m
      belfry := { s.belfry with
        capEff := s.belfry.cap, bubble := nextBubble target s.belfry.bubble floored, fullPeriods := full, lowPeriods := low } } : State) = u at heq
    obtain ⟨hframe, hbel, hmeas⟩ := u.rampStep_frame
    have hframe' : Frame [.measure, .belfry, .thermal, .towers, .out] s s.fastLoop := by
      rw [heq]
      intro c hc
      have hstep := hframe c hc
      subst hu
      cases c with
      | measure | belfry | thermal | towers | out => simp at hc
      | _ => exact hstep
    have hbub : s.fastLoop.belfry.bubble = nextBubble target s.belfry.bubble floored := by
      rw [heq, hbel, ← hu]
    refine ⟨hframe', ?_, ?_, ?_, ?_, ?_, ?_, ?_⟩
    · rw [heq, hbel, ← hu]
    · rw [hbub]; exact hle
    · rw [hbub]; exact hfall
    · intro h
      rw [hbub]
      exact hfloor (by rw [hfl, h])
    · rw [heq, hmeas, ← hu]
      exact hrep
    · rw [heq]
    · rw [heq, hbel, ← hu]
  · obtain ⟨m, target, floored, full, low, -, -, -, hpause, heq⟩ := s.fastLoop_eq
    dsimp only at heq
    generalize hu : ({ s with
      measure := m
      belfry := { s.belfry with
        capEff := s.belfry.cap, bubble := nextBubble target s.belfry.bubble floored, fullPeriods := full, lowPeriods := low } } : State) = u at heq
    have hbel : u.belfry.settling = s.belfry.settling ∧ u.belfry.rampTarget = s.belfry.rampTarget ∧ u.belfry.cadence = s.belfry.cadence
        ∧ u.belfry.ramping = s.belfry.ramping ∧ u.belfry.droopSeen = s.belfry.droopSeen ∧ u.towers = s.towers ∧ u.thermal = s.thermal
        ∧ u.measure = m := by
      subst hu
      exact ⟨rfl, rfl, rfl, rfl, rfl, rfl, rfl, rfl⟩
    obtain ⟨hset, htar, hcad, hram, hdro, htow, hthe, hmea⟩ := hbel
    rw [heq, ← hset, ← htar, ← hcad, ← hram, ← hdro, ← htow, ← hthe]
    refine ⟨fun hs => ?_, fun hs hd ht => ?_, fun hs hd hlt => ?_, fun hs hd hlt => ?_, fun hne => ?_, fun hcadence => ?_, fun hs hr ht => ?_⟩
    · rw [State.rampStep_settling hs]
    · rw [State.rampStep_pauses hs ht hd, hmea, ← hpause]
      exact ⟨rfl, rfl⟩
    · dsimp only
      rw [State.rampStep_cadence hs (by omega) hd, if_pos hlt]
    · dsimp only
      rw [State.rampStep_cadence hs (by omega) hd, if_neg (by omega)]
      omega
    · rcases u.rampStep_clocks with ⟨hc, -⟩ | ⟨-, hclock⟩
      · exact absurd hc hne
      · exact hclock
    · rcases u.rampStep_clocks with ⟨-, htowers⟩ | ⟨hc, -⟩
      · exact htowers
      · exact absurd hcadence hc
    · have hframe := State.sendBeacon_frame ({ u with
        belfry := { u.belfry with ramping := false }
        thermal := { u.thermal with setpoint := u.thermal.setpoints u.belfry.cadence } } : State)
      rw [State.rampStep_ends hs ht hr]
      dsimp only
      rw [hframe.belfry_eq, hframe.thermal_eq]
      exact ⟨rfl, rfl, rfl⟩

end Sys2Proof.Machine
end

section
/-!
SUPPORT. Work stealing (R29): the order of a thief's candidates, what a victim takes from the tail of its queue, and whom a tower asks.
-/
namespace Sys2Proof.Machine

open Sys2Proof

/-! ### The order of the candidates -/

/-- A thief's candidates at one distance, in rising order. -/
def stealRing (me d : Nat) : List Nat := (List.range 324).filter fun u => towerDist me u == d && quarterOf u == quarterOf me

theorem stealOrder_eq (me : Nat) : stealOrder me = stealRing me 1 ++ (stealRing me 2 ++ stealRing me 3) := by
  simp [stealOrder, stealRing]

theorem mem_stealRing {me d v : Nat} : v ∈ stealRing me d ↔ v < 324 ∧ towerDist me v = d ∧ quarterOf v = quarterOf me := by
  simp [stealRing]

theorem mem_stealOrder {me v : Nat} :
    v ∈ stealOrder me ↔ v < 324 ∧ quarterOf v = quarterOf me ∧ 1 ≤ towerDist me v ∧ towerDist me v ≤ 3 := by
  simp only [stealOrder_eq, List.mem_append, mem_stealRing]
  omega

/-- Nearer towers come first, and of those at one distance the lower number (R29). -/
theorem stealOrder_pairwise (me : Nat) :
    (stealOrder me).Pairwise fun a b => towerDist me a < towerDist me b ∨ towerDist me a = towerDist me b ∧ a < b := by
  have hring (d : Nat) : (stealRing me d).Pairwise fun a b => towerDist me a < towerDist me b ∨ towerDist me a = towerDist me b ∧ a < b := by
    refine (List.pairwise_lt_range.filter _).imp_of_mem fun ha hb hab => .inr ⟨?_, hab⟩
    rw [(mem_stealRing.mp ha).2.1, (mem_stealRing.mp hb).2.1]
  rw [stealOrder_eq]
  refine List.pairwise_append.mpr ⟨hring 1, List.pairwise_append.mpr ⟨hring 2, hring 3, fun a ha b hb => .inl ?_⟩, fun a ha b hb => .inl ?_⟩
  · rw [(mem_stealRing.mp ha).2.1, (mem_stealRing.mp hb).2.1]
    omega
  · rw [(mem_stealRing.mp ha).2.1]
    rcases List.mem_append.mp hb with hb | hb <;> rw [(mem_stealRing.mp hb).2.1] <;> omega

/-! ### What a victim gives -/

/-- One item of the queue, from the tail: it is taken while fewer than `k` are and it is not pinned. -/
def takeStep (k : Nat) (i : Item) (a : List Item × List Item) : List Item × List Item :=
  if a.1.length < k && !i.pinned then (i :: a.1, a.2) else (a.1, i :: a.2)

theorem takeTail_eq_foldr (k : Nat) (q : List Item) : takeTail k q = q.foldr (takeStep k) ([], []) := by
  exact List.foldl_reverse

/-- The items that are taken are the last `k` unpinned ones, and nothing is lost. -/
theorem takeTail_spec (k : Nat) (q : List Item) :
    (takeTail k q).1 = (q.filter fun i => !i.pinned).drop ((q.filter fun i => !i.pinned).length - k)
      ∧ ((takeTail k q).1 ++ (takeTail k q).2).Perm q := by
  rw [takeTail_eq_foldr]
  induction q with
  | nil => simp
  | cons i q ih =>
    obtain ⟨htaken, hperm⟩ := ih
    rw [List.foldr_cons]
    generalize q.foldr (takeStep k) ([], []) = r at htaken hperm
    have hlen : r.1.length = min k (q.filter fun i => !i.pinned).length := by
      rw [htaken, List.length_drop]
      omega
    by_cases htake : (decide (r.1.length < k) && !i.pinned) = true
    · obtain ⟨hroom, hfree⟩ := Bool.and_eq_true_iff.mp htake
      have hroom' : (q.filter fun i => !i.pinned).length < k := by
        have := of_decide_eq_true hroom
        omega
      rw [takeStep, if_pos htake]
      refine ⟨?_, hperm.cons i⟩
      rw [htaken, List.filter_cons_of_pos (by simpa using hfree), List.length_cons,
        show (q.filter fun i => !i.pinned).length - k = 0 by omega, show (q.filter fun i => !i.pinned).length + 1 - k = 0 by omega]
      rfl
    · rw [takeStep, if_neg htake]
      refine ⟨?_, List.perm_middle.trans (hperm.cons i)⟩
      rw [htaken]
      by_cases hfree : (!i.pinned) = true
      · have hfull : k ≤ (q.filter fun i => !i.pinned).length := by
          simp only [hfree, Bool.and_true, decide_eq_true_eq] at htake
          omega
        rw [List.filter_cons_of_pos (by simpa using hfree), List.length_cons, Nat.succ_sub hfull, List.drop_succ_cons]
      · rw [List.filter_cons_of_neg (by simpa using hfree)]

theorem Tower.give_of_two {t : Tower} (h : 2 ≤ stealable t.queue) : ∃ c, t.give =
    ((takeTail (min 16 (stealable t.queue / 2)) t.queue).1,
      { t with queue := (takeTail (min 16 (stealable t.queue / 2)) t.queue).2, ctrs := c }) := by
  rw [Tower.give, if_neg (Nat.not_lt.mpr h)]
  exact ⟨_, rfl⟩

theorem Tower.give_none {t : Tower} (h : stealable t.queue < 2) : t.give = ([], t) := by
  rw [Tower.give, if_pos h]

/-! ### The statement -/

/-- Settles O46: the order ring by ring, the victim's share by the items that `takeTail` takes, the thief's choice by the cases of
`nextVictim`. -/
theorem stealingRule : Obligations.StealingRule := by
  refine ⟨fun me _ => ⟨fun v => mem_stealOrder, stealOrder_pairwise me⟩, fun t => ⟨fun h => ?_, fun h => ?_⟩, fun t me => ⟨fun h => ?_,
    fun hin hst hq hout => ?_⟩⟩
  · obtain ⟨htaken, hperm⟩ := takeTail_spec (min 16 (stealable t.queue / 2)) t.queue
    obtain ⟨c, hgive⟩ := Tower.give_of_two h
    rw [hgive]
    exact ⟨htaken, hperm, rfl⟩
  · exact Tower.give_none h
  · unfold Tower.nextVictim
    rcases h with h | h | h
    · simp [h]
    · rw [h]
      exact ite_self _
    · simp [h]
  · have hroom : ¬ 512 ≤ t.outSlots := by omega
    simp only [Tower.nextVictim, hin, hst, hq, hroom, Bool.not_true, List.isEmpty_nil, decide_false, Bool.or_self, Bool.false_eq_true, if_false]
    cases t.candidates.getD (stealOrder me) <;> rfl

end Sys2Proof.Machine
end

section
/-!
SUPPORT. The routers of a mesh route (R11, R12, R22) and the ports that they serve (R25): a route runs along x and then along y, meets no
router twice, and each router on the way serves the port through which the transaction came.
-/
namespace Sys2Proof.Machine

open Sys2Proof

/-! ### Lines -/

theorem lineOf_eq_cons (a b : Nat) : lineOf a b = a :: (lineOf a b).drop 1 := by
  unfold lineOf
  split <;> rw [List.range_succ_eq_map] <;> simp

theorem mem_lineOf {a b z : Nat} : z ∈ lineOf a b ↔ (a ≤ z ∧ z ≤ b) ∨ (b ≤ z ∧ z ≤ a) := by
  unfold lineOf
  split
  · simp only [List.mem_map, List.mem_range]
    constructor
    · rintro ⟨k, hk, rfl⟩
      omega
    · intro h
      exact ⟨z - a, by omega, by omega⟩
  · simp only [List.mem_map, List.mem_range]
    constructor
    · rintro ⟨k, hk, rfl⟩
      omega
    · intro h
      exact ⟨a - z, by omega, by omega⟩

theorem lineOf_nodup (a b : Nat) : (lineOf a b).Nodup := by
  unfold lineOf
  split
  · exact List.nodup_range.map fun i j h => by simpa using h
  · refine List.nodup_range.map_on fun i hi j hj h => ?_
    simp only [List.mem_range] at hi hj
    omega

theorem getLast?_lineOf (a b : Nat) : (lineOf a b).getLast? = some b := by
  unfold lineOf
  split <;> rw [List.range_succ, List.map_append, List.map_singleton, List.getLast?_concat, Option.some.injEq] <;> omega

theorem not_mem_lineOf_tail (a b : Nat) : a ∉ (lineOf a b).drop 1 := by
  have h := lineOf_nodup a b
  rw [lineOf_eq_cons] at h
  exact (List.nodup_cons.mp h).1

/-! ### Routes -/

/-- The routers of a route: along x to the column of its end, then along y (R22). -/
theorem routeOf_eq (a b : Node) : routeOf a b = (lineOf (nodeAt a).1 (nodeAt b).1).map (18 * (nodeAt a).2 + ·)
    ++ ((lineOf (nodeAt a).2 (nodeAt b).2).drop 1).map (18 * · + (nodeAt b).1) := by
  rw [lineOf_eq_cons (nodeAt a).1 (nodeAt b).1]
  simp [routeOf, hopsOf, Function.comp_def]

section
variable {a b : Node} (h : ∀ n ∈ [a, b], (nodeAt n).1 < 18 ∧ (nodeAt n).2 < 18)
include h

theorem nodeAt_bounds : (nodeAt a).1 < 18 ∧ (nodeAt a).2 < 18 ∧ (nodeAt b).1 < 18 ∧ (nodeAt b).2 < 18 := by
  have ha := h a (by simp)
  have hb := h b (by simp)
  exact ⟨ha.1, ha.2, hb.1, hb.2⟩

theorem routeOf_lt {r : Nat} (hr : r ∈ routeOf a b) : r < 324 := by
  obtain ⟨hxa, hya, hxb, hyb⟩ := nodeAt_bounds h
  rw [routeOf_eq, List.mem_append, List.mem_map, List.mem_map] at hr
  rcases hr with ⟨z, hz, rfl⟩ | ⟨z, hz, rfl⟩
  · have := mem_lineOf.mp hz
    omega
  · have := mem_lineOf.mp (List.mem_of_mem_drop hz)
    omega

/-- Every router of a route lies in the row of its start or in the column of its end. -/
theorem routeOf_bends {r : Nat} (hr : r ∈ routeOf a b) : r / 18 = (nodeAt a).2 ∨ r % 18 = (nodeAt b).1 := by
  obtain ⟨hxa, hya, hxb, hyb⟩ := nodeAt_bounds h
  rw [routeOf_eq, List.mem_append, List.mem_map, List.mem_map] at hr
  rcases hr with ⟨z, hz, rfl⟩ | ⟨z, hz, rfl⟩
  · have := mem_lineOf.mp hz
    exact .inl (by omega)
  · exact .inr (by omega)

/-- A route meets no router twice. -/
theorem routeOf_nodup : (routeOf a b).Nodup := by
  obtain ⟨hxa, hya, hxb, hyb⟩ := nodeAt_bounds h
  rw [routeOf_eq]
  refine List.Nodup.append ((lineOf_nodup _ _).map fun i j hij => by simpa using hij)
    (((lineOf_nodup _ _).sublist (List.drop_sublist 1 _)).map fun i j hij => by simpa using hij) ?_
  intro r hx hy
  obtain ⟨z, hz, rfl⟩ := List.mem_map.mp hx
  obtain ⟨y, hy, heq⟩ := List.mem_map.mp hy
  have := mem_lineOf.mp hz
  have hne : y ≠ (nodeAt a).2 := fun e => not_mem_lineOf_tail _ _ (e ▸ hy)
  omega

end

theorem head?_routeOf (a b : Node) : (routeOf a b).head? = some (18 * (nodeAt a).2 + (nodeAt a).1) := by
  rw [routeOf_eq, lineOf_eq_cons]
  rfl

/-- A route ends at the router where its endpoint joins the mesh. -/
theorem getLast?_routeOf (a b : Node) : (routeOf a b).getLast? = some (18 * (nodeAt b).2 + (nodeAt b).1) := by
  have hx := getLast?_lineOf (nodeAt a).1 (nodeAt b).1
  have hy := getLast?_lineOf (nodeAt a).2 (nodeAt b).2
  rw [lineOf_eq_cons (nodeAt a).2 (nodeAt b).2, List.getLast?_cons, Option.some.injEq] at hy
  rw [routeOf_eq, List.getLast?_append, List.getLast?_map, List.getLast?_map, hx]
  rcases hd : ((lineOf (nodeAt a).2 (nodeAt b).2).drop 1).getLast? with _ | y
  · rw [hd] at hy
    simp_all
  · rw [hd] at hy
    simp_all

theorem hopsOf_ne_nil (a b : Node) : hopsOf a b ≠ [] := by
  simp [hopsOf]

/-- The last hop of a route: its endpoint's router, entered through `entryPort`. -/
theorem hopsOf_eq_concat (a b : Node) :
    hopsOf a b = (hopsOf a b).dropLast ++ [(18 * (nodeAt b).2 + (nodeAt b).1, entryPort a b)] := by
  have hlast := List.getLast?_eq_some_getLast (hopsOf_ne_nil a b)
  have hrouter := getLast?_routeOf a b
  rw [routeOf, List.getLast?_map, hlast, Option.map_some, Option.some.injEq] at hrouter
  have hport : entryPort a b = ((hopsOf a b).getLast (hopsOf_ne_nil a b)).2 := by
    simp [entryPort, hlast]
  rw [hport, ← hrouter]
  exact (List.dropLast_append_getLast (hopsOf_ne_nil a b)).symm

/-- A router has seven input ports (R25). -/
theorem entryPort_lt (a b : Node) : entryPort a b < 7 := by
  have hall : ∀ q ∈ hopsOf a b, q.2 < 7 := by
    intro q hq
    simp only [hopsOf, List.cons_append, List.mem_cons, List.mem_append, List.mem_map] at hq
    rcases hq with rfl | ⟨z, -, rfl⟩ | ⟨z, -, rfl⟩
    · cases a <;> simp
    · dsimp only
      split <;> omega
    · dsimp only
      split <;> omega
  refine hall (18 * (nodeAt b).2 + (nodeAt b).1, entryPort a b) ?_
  rw [hopsOf_eq_concat]
  simp

/-! ### Ports that have been served -/

/-- Routers serve ports one after another on a plane. -/
def State.serveHops (s : State) (plane : Bool) (hs : List (Nat × Nat)) : State :=
  hs.foldl (fun s h => s.modTower h.1 fun t => t.serve plane h.2) s

/-- The ports that a router has served last, after one more on a plane. -/
def servedWith (plane : Bool) (old : Nat × Nat) (p : Nat) : Nat × Nat := if plane then (old.1, p) else (p, old.2)

theorem State.passRouters_eq (s : State) (x : MeshTx) : s.passRouters x = s.serveHops x.plane (hopsOf x.src x.dst).dropLast := rfl

theorem State.serveHops_frame (s : State) (plane : Bool) (hs : List (Nat × Nat)) : Frame [.towers] s (s.serveHops plane hs) := by
  induction hs generalizing s with
  | nil => exact Frame.refl _ _
  | cons h hs ih => exact Frame.trans (s.modTower_frame _ h.1) (ih _) (by simp) (by simp)

theorem State.serveHops_length (s : State) (plane : Bool) (hs : List (Nat × Nat)) :
    (s.serveHops plane hs).towers.length = s.towers.length := by
  induction hs generalizing s with
  | nil => rfl
  | cons h hs ih => exact (ih _).trans (s.towers_modTower_length _ h.1)

/-- Serving changes of a tower the served ports alone. -/
theorem State.tower_serveHops (s : State) (plane : Bool) (hs : List (Nat × Nat)) (k : Nat) :
    ∃ p, (s.serveHops plane hs).tower k = { s.tower k with served := p } := by
  induction hs generalizing s with
  | nil => exact ⟨_, rfl⟩
  | cons h hs ih =>
    obtain ⟨p, hp⟩ := ih (s.modTower h.1 fun t => t.serve plane h.2)
    refine ⟨p, hp.trans ?_⟩
    by_cases hk : k = h.1
    · subst hk
      by_cases hl : h.1 < s.towers.length
      · rw [s.tower_modTower_same _ hl]
        rfl
      · simp [State.tower, updAt, List.getD_eq_getElem?_getD, List.getElem?_eq_none (Nat.le_of_not_lt hl)]
    · rw [s.tower_modTower_other _ hk]

theorem State.tower_serveHops_other (s : State) (plane : Bool) {hs : List (Nat × Nat)} {k : Nat} (hk : k ∉ hs.map Prod.fst) :
    (s.serveHops plane hs).tower k = s.tower k := by
  induction hs generalizing s with
  | nil => rfl
  | cons h hs ih =>
    rw [List.map_cons, List.mem_cons, not_or] at hk
    exact (ih _ hk.2).trans (s.tower_modTower_other _ hk.1)

/-- A router that a route meets once has served the port of its hop. -/
theorem State.served_serveHops (s : State) (plane : Bool) {hs : List (Nat × Nat)} (hnd : (hs.map Prod.fst).Nodup)
    {h : Nat × Nat} (hmem : h ∈ hs) (hl : h.1 < s.towers.length) :
    ((s.serveHops plane hs).tower h.1).served = servedWith plane (s.tower h.1).served h.2 := by
  induction hs generalizing s with
  | nil => cases hmem
  | cons g hs ih =>
    rw [List.map_cons, List.nodup_cons] at hnd
    have hstep : s.serveHops plane (g :: hs) = (s.modTower g.1 fun t => t.serve plane g.2).serveHops plane hs := rfl
    rw [hstep]
    rcases List.mem_cons.mp hmem with rfl | hmem
    · rw [State.tower_serveHops_other _ plane hnd.1, s.tower_modTower_same _ hl]
      rfl
    · have hne : h.1 ≠ g.1 := fun e => hnd.1 (e ▸ List.mem_map_of_mem hmem)
      rw [ih _ hnd.2 hmem (by rw [State.towers_modTower_length]; exact hl), s.tower_modTower_other _ hne]

end Sys2Proof.Machine
end

section
/-!
SUPPORT. The inbound window of a tower (R18, R23, R25; log 89): what enters it, what waits, and that neither loses a transfer nor changes the
order of one source on one plane.
-/
namespace Sys2Proof.Machine

open Sys2Proof

/-! ### Transfers that enter -/

theorem Tower.inSlots_eq_sum (t : Tower) : t.inSlots = (t.inbound.map txSlots).sum := by
  rw [Tower.inSlots, List.sum_eq_foldl]

/-- May a waiting transfer enter: it is the oldest of its source on its plane, and its slots are free (R18, R23)? -/
structure Tower.MayEnter (t : Tower) (i : Nat) (w : MeshTx) : Prop where
  waits : t.waiting[i]? = some w
  first : isFirst t.waiting i = true
  room : t.inSlots + txSlots w ≤ 512

/-- What `nextIn` picks may enter, and is of the plane asked for. -/
theorem Tower.nextIn_some {t : Tower} {me : Nat} {plane : Bool} {i p : Nat} (h : t.nextIn me plane = some (i, p)) :
    ∃ w, t.MayEnter i w ∧ w.plane = plane := by
  obtain ⟨k, -, hk⟩ := List.exists_of_findSome?_eq_some h
  obtain ⟨j, hj, hjp⟩ := Option.map_eq_some_iff.mp hk
  have hfind := List.find?_some hj
  simp only [Prod.mk.injEq] at hjp
  obtain ⟨rfl, -⟩ := hjp
  rcases hw : t.waiting[j]? with _ | w
  · simp [hw] at hfind
  · simp only [hw, Bool.and_eq_true, beq_iff_eq, decide_eq_true_eq] at hfind
    obtain ⟨⟨⟨hplane, -⟩, hfirst⟩, hroom⟩ := hfind
    exact ⟨w, ⟨hw, hfirst, hroom⟩, hplane⟩

/-- While a transfer of a plane may enter, one is picked: the seven ports are all asked in turn (R25). -/
theorem Tower.nextIn_isSome {t : Tower} (me : Nat) {i : Nat} {w : MeshTx} (h : t.MayEnter i w) : (t.nextIn me w.plane).isSome = true := by
  rw [Option.isSome_iff_ne_none]
  intro hnone
  obtain ⟨hw, hfirst, hroom⟩ := h
  have hp := entryPort_lt w.src (.tower me)
  obtain ⟨k, hk, hport⟩ : ∃ k < 7, ((if w.plane then t.served.2 else t.served.1) + 1 + k) % 7 = entryPort w.src (.tower me) :=
    ⟨(entryPort w.src (.tower me) + 6 * ((if w.plane then t.served.2 else t.served.1) + 1)) % 7, Nat.mod_lt _ (by omega), by omega⟩
  have hstep := List.findSome?_eq_none_iff.mp hnone k (List.mem_range.mpr hk)
  rw [Option.map_eq_none_iff, List.find?_eq_none] at hstep
  have hlt : i < t.waiting.length := (List.getElem?_eq_some_iff.mp hw).1
  refine hstep i (List.mem_range.mpr hlt) ?_
  simp [hw, hfirst, hroom, hport]

/-- The tower after a waiting transfer has entered through a port. -/
def Tower.entered (t : Tower) (i : Nat) (w : MeshTx) (p : Nat × Nat) : Tower :=
  { t with inbound := t.inbound ++ [w], waiting := t.waiting.eraseIdx i, served := p }

/-- One round of `admitIn`: a transfer that may enter enters, or none may. -/
theorem Tower.admitIn_succ (t : Tower) (me n : Nat) :
    (∃ i w p, t.MayEnter i w ∧ t.admitIn me (n + 1) = (t.entered i w p).admitIn me n)
      ∨ (t.nextIn me false = none ∧ t.nextIn me true = none ∧ t.admitIn me (n + 1) = t) := by
  rcases hf : t.nextIn me false with _ | ⟨i, p⟩
  · rcases ht : t.nextIn me true with _ | ⟨i, p⟩
    · exact .inr ⟨rfl, rfl, by simp only [Tower.admitIn, hf, ht]⟩
    · obtain ⟨w, hw, -⟩ := Tower.nextIn_some ht
      refine .inl ⟨i, w, (t.served.1, p), hw, ?_⟩
      simp only [Tower.admitIn, hf, ht, hw.waits]
      rfl
  · obtain ⟨w, hw, -⟩ := Tower.nextIn_some hf
    refine .inl ⟨i, w, (p, t.served.2), hw, ?_⟩
    simp only [Tower.admitIn, hf, hw.waits]
    rfl

/-! ### What the window keeps -/

/-- The transfers that one source has sent on one plane. -/
def ofFlow (plane : Bool) (src : Node) (q : MeshTx) : Bool := q.plane == plane && q.src == src

/-- From `t` to `y` transfers have entered the ring: none is lost, each flow keeps its order, and the ring holds no more than 512 slots if
it did before. -/
structure Tower.Admits (t y : Tower) : Prop where
  rest : y = { t with inbound := y.inbound, waiting := y.waiting, served := y.served }
  perm : (y.inbound ++ y.waiting).Perm (t.inbound ++ t.waiting)
  order : ∀ plane src, (y.inbound ++ y.waiting).filter (ofFlow plane src) = (t.inbound ++ t.waiting).filter (ofFlow plane src)
  room : t.inSlots ≤ 512 → y.inSlots ≤ 512

theorem Tower.Admits.refl (t : Tower) : t.Admits t := ⟨rfl, .refl _, fun _ _ => rfl, id⟩

theorem Tower.Admits.trans {t y z : Tower} (a : t.Admits y) (b : y.Admits z) : t.Admits z :=
  ⟨by rw [b.rest, a.rest], b.perm.trans a.perm, fun p s => (b.order p s).trans (a.order p s), fun h => b.room (a.room h)⟩

/-- The first of its flow leaves the waiting transfers in front of its flow. -/
theorem filter_cons_eraseIdx {ws : List MeshTx} {i : Nat} {w : MeshTx} (hw : ws[i]? = some w) (hf : isFirst ws i = true)
    (plane : Bool) (src : Node) : (w :: ws.eraseIdx i).filter (ofFlow plane src) = ws.filter (ofFlow plane src) := by
  obtain ⟨hlt, hget⟩ := List.getElem?_eq_some_iff.mp hw
  have hsplit : ws = ws.take i ++ w :: ws.drop (i + 1) := by
    rw [← hget, List.getElem_cons_drop, List.take_append_drop]
  have herase : ws.eraseIdx i = ws.take i ++ ws.drop (i + 1) := List.eraseIdx_eq_take_drop_succ ws i
  rw [herase]
  conv_rhs => rw [hsplit]
  by_cases hm : ofFlow plane src w = true
  · have hnone : (ws.take i).filter (ofFlow plane src) = [] := by
      rw [List.filter_eq_nil_iff]
      intro q hq hflow
      simp only [isFirst, hw, List.all_eq_true] at hf
      have hdiff := hf q hq
      simp only [ofFlow, Bool.and_eq_true, beq_iff_eq] at hm hflow
      simp [hm.1, hm.2, hflow.1, hflow.2] at hdiff
    simp [List.filter_append, List.filter_cons_of_pos hm, hnone]
  · simp [List.filter_append, List.filter_cons_of_neg hm]

theorem Tower.entered_admits {t : Tower} {i : Nat} {w : MeshTx} (h : t.MayEnter i w) (p : Nat × Nat) : t.Admits (t.entered i w p) := by
  obtain ⟨hw, hfirst, hroom⟩ := h
  obtain ⟨hlt, hget⟩ := List.getElem?_eq_some_iff.mp hw
  refine ⟨rfl, ?_, fun plane src => ?_, fun _ => ?_⟩
  · simp only [Tower.entered, List.append_assoc, List.singleton_append]
    refine List.Perm.append_left _ ?_
    rw [← hget]
    exact List.getElem_cons_eraseIdx_perm hlt
  · simp only [Tower.entered, List.append_assoc, List.singleton_append]
    rw [List.filter_append, List.filter_append, filter_cons_eraseIdx hw hfirst]
  · rw [Tower.inSlots_eq_sum] at hroom ⊢
    simpa [Tower.entered] using hroom

theorem Tower.admitIn_admits (t : Tower) (me n : Nat) : t.Admits (t.admitIn me n) := by
  induction n generalizing t with
  | zero => exact .refl t
  | succ n ih =>
    rcases t.admitIn_succ me n with ⟨i, w, p, hmay, heq⟩ | ⟨-, -, heq⟩ <;> rw [heq]
    · exact (Tower.entered_admits hmay p).trans (ih _)
    · exact .refl t

/-- A transfer alone at the router with room for it in the ring enters at once. -/
theorem Tower.admitIn_alone {t : Tower} (me : Nat) {x : MeshTx} (hw : t.waiting = [x]) (hroom : t.inSlots + txSlots x ≤ 512) :
    (t.admitIn me 1).inbound = t.inbound ++ [x] ∧ (t.admitIn me 1).waiting = [] := by
  have hmay : t.MayEnter 0 x := ⟨by simp [hw], by simp [hw, isFirst], hroom⟩
  have hsome := Tower.nextIn_isSome me hmay
  rcases t.admitIn_succ me 0 with ⟨i, w, p, hi, heq⟩ | ⟨hf, ht, -⟩
  · have hwi := hi.waits
    rw [hw, List.getElem?_singleton] at hwi
    split at hwi
    next h0 =>
      rw [Option.some.injEq] at hwi
      rw [heq, h0, ← hwi]
      exact ⟨rfl, by simp [Tower.admitIn, Tower.entered, hw]⟩
    · cases hwi
  · cases hp : x.plane <;> rw [hp] at hsome <;> simp [hf, ht] at hsome

/-! ### Arrivals -/

theorem Tower.arrive_spec (t : Tower) (me : Nat) (x : MeshTx) :
    t.arrive me x = { t with inbound := (t.arrive me x).inbound, waiting := (t.arrive me x).waiting, served := (t.arrive me x).served }
      ∧ ((t.arrive me x).inbound ++ (t.arrive me x).waiting).Perm (t.inbound.drop x.taken ++ t.waiting ++ [x])
      ∧ (∀ plane src, ((t.arrive me x).inbound ++ (t.arrive me x).waiting).filter (ofFlow plane src)
          = (t.inbound.drop x.taken ++ t.waiting ++ [x]).filter (ofFlow plane src))
      ∧ (t.inSlots ≤ 512 → (t.arrive me x).inSlots ≤ 512) := by
  have hadm := Tower.admitIn_admits { t with inbound := t.inbound.drop x.taken, waiting := t.waiting ++ [x] } me (t.waiting.length + 1)
  obtain ⟨hrest, hperm, horder, hroom⟩ := hadm
  rw [← List.append_assoc] at hperm
  refine ⟨hrest, hperm, fun plane src => ?_, fun h => hroom ?_⟩
  · have ho := horder plane src
    rw [← List.append_assoc] at ho
    exact ho
  · rw [Tower.inSlots_eq_sum] at h ⊢
    exact Nat.le_trans (((List.drop_sublist _ _).map _).sum_le_sum (by simp)) h

/-- A transfer that finds no other waiting and slots enough is delivered at once (R18). -/
theorem Tower.arrive_delivers {t : Tower} (me : Nat) {x : MeshTx} (hw : t.waiting = [])
    (hroom : ((t.inbound.drop x.taken ++ [x]).map txSlots).sum ≤ 512) :
    (t.arrive me x).inbound = t.inbound.drop x.taken ++ [x] ∧ (t.arrive me x).waiting = [] := by
  have harrive : t.arrive me x = Tower.admitIn me 1 { t with inbound := t.inbound.drop x.taken, waiting := [x] } := by
    simp [Tower.arrive, hw]
  rw [harrive]
  refine Tower.admitIn_alone (t := { t with inbound := t.inbound.drop x.taken, waiting := [x] }) me rfl ?_
  rw [Tower.inSlots_eq_sum]
  simpa using hroom

/-- A transfer of another epoch is dropped and counted (R24). -/
theorem Tower.receive_stale {t : Tower} (me : Nat) {e : Word} (x : MeshTx) (h : e ≠ t.epoch) : t.receive me e x = { t with
    ctrs := { t.ctrs with staleDrop := t.ctrs.staleDrop + (if t.inService && !t.ctrs.freeze then 1 else 0) } } := by
  rw [Tower.receive, if_pos h, Tower.staleDrop]
  split
  · rfl
  · simp

theorem Tower.receive_absent {t : Tower} (me : Nat) {e : Word} (x : MeshTx) (h : e = t.epoch) (hs : t.inService = false) :
    t.receive me e x = t := by
  simp [Tower.receive, h, hs]

theorem Tower.receive_own {t : Tower} (me : Nat) {e : Word} (x : MeshTx) (h : e = t.epoch) (hs : t.inService = true) :
    t.receive me e x = t.arrive me x := by
  simp [Tower.receive, h, hs]

end Sys2Proof.Machine
end

section
/-!
SUPPORT. A mesh transaction from its sender's outbound ring to its destination (R12, R18, R22 to R26, R427).
-/
namespace Sys2Proof.Machine

open Sys2Proof

/-! ### The sender -/

/-- Leaving the outbound ring changes that ring alone, and looks at nothing else. -/
theorem Tower.leave_served (t : Tower) (p : Nat × Nat) (plane : Bool) (dst : Node) :
    ({ t with served := p } : Tower).leave plane dst = { t.leave plane dst with served := p } := by
  unfold Tower.leave
  dsimp only
  split <;> rfl

/-- The towers once the mesh has read a transaction out of its sender's ring (R18). -/
def State.sentOf (s : State) (x : MeshTx) (k : Nat) : Tower := if x.src = .tower k then (s.tower k).leave x.plane x.dst else s.tower k

/-- The state in which the routers before the last have served and the sender's ring has given the transaction up. -/
def State.underWay (s : State) (x : MeshTx) : State :=
  match x.src with
  | .tower u => (s.passRouters x).modTower u fun t => t.leave x.plane x.dst
  | _ => s.passRouters x

section
variable (s : State) (x : MeshTx)

theorem State.underWay_frame : Frame [.towers] s (s.underWay x) ∧ (s.underWay x).towers.length = s.towers.length := by
  have hf := s.serveHops_frame x.plane (hopsOf x.src x.dst).dropLast
  have hl := s.serveHops_length x.plane (hopsOf x.src x.dst).dropLast
  unfold State.underWay
  split
  · exact ⟨Frame.trans hf (State.modTower_frame _ _ _) (by simp) (by simp), (State.towers_modTower_length _ _ _).trans hl⟩
  · exact ⟨hf, hl⟩

/-- Under way a transaction changes of a tower the ring that it leaves and the ports served. -/
theorem State.tower_underWay {k : Nat} (hk : k < s.towers.length) :
    (s.underWay x).tower k = { s.sentOf x k with served := ((s.passRouters x).tower k).served } := by
  obtain ⟨p, hp⟩ := s.tower_serveHops x.plane (hopsOf x.src x.dst).dropLast k
  have hlen : k < (s.passRouters x).towers.length := by
    rw [State.passRouters_eq, State.serveHops_length]
    exact hk
  rw [← State.passRouters_eq] at hp
  have hp' : (s.passRouters x).tower k = { s.tower k with served := ((s.passRouters x).tower k).served } := by rw [hp]
  unfold State.underWay State.sentOf
  split
  next u hsrc =>
    by_cases hu : u = k
    · subst hu
      rw [State.tower_modTower_same _ _ hlen, if_pos hsrc, hp, Tower.leave_served]
    · rw [State.tower_modTower_other _ _ (Ne.symm hu), if_neg (by simpa [hsrc] using hu)]
      exact hp'
  next hsrc =>
    rw [if_neg (hsrc k)]
    exact hp'

/-- The endpoint's own router serves the port through which the transaction enters. -/
def State.atEnd (s : State) (x : MeshTx) : State := s.serveHops x.plane [(18 * (nodeAt x.dst).2 + (nodeAt x.dst).1, entryPort x.src x.dst)]

theorem State.meshTransaction_down (h : s.routeUp x.src x.dst = false) : s.meshTransaction x = s := by
  simp [State.meshTransaction, h]

variable (h : s.routeUp x.src x.dst = true)
include h

theorem State.meshTransaction_tower {v : Nat} (hd : x.dst = .tower v) :
    s.meshTransaction x = (s.underWay x).modTower v fun t => t.receive v (s.epochOf x) x := by
  rw [State.meshTransaction, if_neg (by simp [h]), State.underWay, hd] <;> rfl

/-- A transaction to a stack or an I/O port ends at its router (R12). -/
theorem State.meshTransaction_die (hd : ∀ v, x.dst ≠ .tower v) : s.meshTransaction x = (s.underWay x).atEnd x := by
  rcases hx : x.dst with v | ⟨st, k⟩ | c
  · exact absurd hx (hd v)
  all_goals rw [State.meshTransaction, if_neg (by simp [h]), State.underWay, State.atEnd, hx] <;> rfl

end

/-! ### Ports on the way -/

section
variable {s : State} {x : MeshTx} (hc : ∀ n ∈ [x.src, x.dst], (nodeAt n).1 < 18 ∧ (nodeAt n).2 < 18)
include hc

theorem hopsOf_dropLast_nodup : ((hopsOf x.src x.dst).dropLast.map Prod.fst).Nodup
    ∧ 18 * (nodeAt x.dst).2 + (nodeAt x.dst).1 ∉ (hopsOf x.src x.dst).dropLast.map Prod.fst := by
  have hnd := routeOf_nodup hc
  rw [routeOf, hopsOf_eq_concat, List.map_append, List.map_singleton] at hnd
  exact ⟨(List.nodup_append.mp hnd).1, fun hm => (List.nodup_append.mp hnd).2.2 _ hm _ (List.mem_singleton.mpr rfl) rfl⟩

variable (hl : s.towers.length = 324)
include hl

/-- A router before the last has served the port of its hop (R25). -/
theorem State.served_passRouters {h : Nat × Nat} (hm : h ∈ (hopsOf x.src x.dst).dropLast) :
    ((s.passRouters x).tower h.1).served = servedWith x.plane (s.tower h.1).served h.2 := by
  have hlt : h.1 < 324 := routeOf_lt hc (List.mem_map_of_mem (List.mem_of_mem_dropLast hm))
  exact s.served_serveHops x.plane (hopsOf_dropLast_nodup hc).1 hm (by omega)

/-- The last router has served its port once the transaction is at its end (R25). -/
theorem State.served_atEnd {h : Nat × Nat} (hm : h ∈ hopsOf x.src x.dst) :
    (((s.underWay x).atEnd x).tower h.1).served = servedWith x.plane (s.tower h.1).served h.2 := by
  have hlen := (s.underWay_frame x).2
  have hlt : h.1 < 324 := routeOf_lt hc (List.mem_map_of_mem hm)
  have hway : ((s.underWay x).tower h.1).served = ((s.passRouters x).tower h.1).served := by
    rw [s.tower_underWay x (by omega)]
  rw [hopsOf_eq_concat, List.mem_append, List.mem_singleton] at hm
  rcases hm with hm | rfl
  · have hne : h.1 ∉ [(18 * (nodeAt x.dst).2 + (nodeAt x.dst).1, entryPort x.src x.dst)].map Prod.fst := by
      rw [List.map_singleton, List.mem_singleton]
      intro e
      have hmem : h.1 ∈ (hopsOf x.src x.dst).dropLast.map Prod.fst := List.mem_map_of_mem hm
      rw [e] at hmem
      exact (hopsOf_dropLast_nodup hc).2 hmem
    rw [State.atEnd, State.tower_serveHops_other _ _ hne, hway, State.served_passRouters hc hl hm]
  · rw [State.atEnd, State.served_serveHops _ _ (by simp) (List.mem_singleton.mpr rfl) (by omega), hway, State.passRouters_eq,
      State.tower_serveHops_other _ _ (hopsOf_dropLast_nodup hc).2]

end

/-! ### The statement -/

/-- Settles O45: the routers by `serveHops`, the sender by `sentOf`, the destination by the cases of `Tower.receive` and by what its window
keeps. -/
theorem meshDeliversByEpoch : Obligations.MeshDeliversByEpoch := by
  refine ⟨fun s x hp hl => ⟨fun hdown => ?_, fun hup => ?_⟩, fun a b hab => ⟨fun r hr => routeOf_bends hab hr, head?_routeOf a b,
    getLast?_routeOf a b⟩⟩
  · simp [exec, execMeshTransaction, State.whenOn, hp, s.meshTransaction_down x hdown]
  · have hexec : exec (.meshTransaction x) s = .next (s.meshTransaction x) := by
      simp [exec, execMeshTransaction, State.whenOn, hp]
    obtain ⟨hframe, hlen⟩ := s.underWay_frame x
    intro sent e
    have hsent : sent = s.sentOf x := rfl
    have he : e = s.epochOf x := rfl
    rw [hsent, he]
    refine ⟨_, hexec, ?_⟩
    by_cases hd : ∃ v, x.dst = .tower v
    · obtain ⟨v, hv⟩ := hd
      rw [s.meshTransaction_tower x hup hv]
      have hother {k : Nat} (hk : x.dst ≠ .tower k) : k ≠ v := fun e => hk (e ▸ hv)
      refine ⟨Frame.trans hframe (State.modTower_frame _ _ v) (by simp) (by simp), by rw [State.towers_modTower_length, hlen, hl],
        fun k hk hne => ?_, fun hc h hm hne => ?_, fun w hw hlt => ?_⟩
      · rw [State.tower_modTower_other _ _ (hother hne), s.tower_underWay x (by omega)]
      · have hlt : h.1 < 324 := routeOf_lt hc (List.mem_map_of_mem hm)
        have hlast : h ∈ (hopsOf x.src x.dst).dropLast := by
          rw [hopsOf_eq_concat, List.mem_append, List.mem_singleton] at hm
          refine hm.resolve_right fun e => hne ?_
          have hend : 18 * (v / 18) + v % 18 = v := Nat.div_add_mod v 18
          rw [hv, e, hv]
          exact congrArg Node.tower hend.symm
        rw [State.tower_modTower_other _ _ (hother hne), s.tower_underWay x (by omega)]
        exact State.served_passRouters hc hl hlast
      · obtain rfl : v = w := by simpa [hv] using hw
        intro d y
        have hy : y = ((s.underWay x).tower v).receive v (s.epochOf x) x := State.tower_modTower_same _ _ (by omega)
        have hd : d = s.sentOf x v := rfl
        rw [s.tower_underWay x (by omega), ← hd] at hy
        have harr := Tower.arrive_spec { d with served := ((s.passRouters x).tower v).served } v x
        refine ⟨fun hne => ?_, fun heq hout => ?_, fun heq hin => ?_⟩
        · rw [Tower.receive_stale v x (by exact hne)] at hy
          rw [hy]
          rfl
        · rw [Tower.receive_absent v x (by exact heq) (by exact hout)] at hy
          rw [hy]
        · rw [Tower.receive_own v x (by exact heq) (by exact hin)] at hy
          rw [← hy] at harr
          obtain ⟨hrest, hperm, horder, hroom⟩ := harr
          refine ⟨hrest, hperm, horder, hroom, fun hw hfits => ?_⟩
          have hone := Tower.arrive_delivers (t := { d with served := ((s.passRouters x).tower v).served }) v (x := x) hw hfits
          rw [← hy] at hone
          exact hone
    · rw [not_exists] at hd
      rw [s.meshTransaction_die x hup hd]
      refine ⟨Frame.trans hframe (State.serveHops_frame _ _ _) (by simp) (by simp), by rw [State.atEnd, State.serveHops_length, hlen, hl],
        fun k hk _ => ?_, fun hc h hm _ => State.served_atEnd hc hl hm, fun v hv _ => absurd hv (hd v)⟩
      obtain ⟨p, hp⟩ := (s.underWay x).tower_serveHops x.plane [(18 * (nodeAt x.dst).2 + (nodeAt x.dst).1, entryPort x.src x.dst)] k
      rw [State.atEnd, hp, s.tower_underWay x (by omega)]

end Sys2Proof.Machine
end

section
/-!
SUPPORT. COMMIT (R159, R222, R372, R393): what it stores in the slot, the completion of the RUN_STEP, and that a dome whose towers are all used
puts none to sleep (R28).
-/
namespace Sys2Proof.Machine

open Sys2Proof

section
variable (s : State)

theorem State.set_window_steps_frame (w : Window) (l : List Step) : Frame [.window, .steps] s { s with window := w, steps := l } := by
  intro p hp
  cases p with
  | window | steps => simp at hp
  | _ => rfl

theorem State.slot_modSlot_same {n : Nat} (f : Slot → Slot) (hn : n < s.slots.length) : (s.modSlot n f).slot n = f (s.slot n) := by
  simp [State.slot, updAt, List.getD_eq_getElem?_getD, hn]

theorem State.slots_modSlot_getElem?_other {n k : Nat} (f : Slot → Slot) (h : k ≠ n) : (s.modSlot n f).slots[k]? = s.slots[k]? := by
  simp [updAt, h.symm]

theorem State.length_stepBytes (p : Step) : (s.stepBytes p).length = 32 := by
  simp [State.stepBytes, toLe_eq_map_range]

/-! ### The end of a step -/

/-- The towers once a step's items have left them, with the window rewritten and the step gone. -/
def State.stepGone (i : Nat) (p : Step) (status : Nat) (updated : Bool) : State :=
  ({ s with window := s.rewriteWindow p status updated, steps := s.steps.eraseIdx i } : State).dropItems fun it =>
    it.slot == p.slot && it.step == p.number.toNat

theorem State.stepGone_frame (i : Nat) (p : Step) (status : Nat) (updated : Bool) :
    Frame [.window, .steps, .towers] s (s.stepGone i p status updated) :=
  Frame.trans (s.set_window_steps_frame _ _) (State.dropItems_frame _ _) (by simp) (by simp)

/-- A RUN_STEP whose device writes stand completes at once, and vector 9 is raised (R338, R354, R372). -/
theorem State.finishStep_settled {s : State} {i : Nat} {p : Step} (status : Nat) (updated : Bool) (h : s.steps[i]? = some p)
    (hm : p.mbx < 4) (hw : s.mem.owes p.mbx = false) :
    s.finishStep i status updated = ((s.stepGone i p status updated).deliver p.mbx status (s.stepBytes p)).raise 9 := by
  simp only [State.finishStep, h]
  rw [← State.complete_settled (s := s.stepGone i p status updated) status (s.stepBytes p) hm hw]
  rfl

/-- Where every tower in service is used, none goes to sleep (R28). -/
theorem State.sleepUnused_used {s : State} (begun : Bool) (hs : s.steps = []) (hu : ∀ x ∈ s.towers, x.inService = true → x.used = true) :
    s.sleepUnused begun = { s with towers := s.towers.map fun (x : Tower) => { x with used := false } } := by
  have hnone (k : Nat) : ((s.tower k).inService && !(s.tower k).used) = false := by
    by_cases hk : k < s.towers.length
    · have hmem : s.tower k ∈ s.towers := by
        rw [s.tower_eq_getElem hk]
        exact List.getElem_mem hk
      have hused := hu _ hmem
      rcases hin : (s.tower k).inService with _ | _
      · rfl
      · simp [hused hin]
    · have hreset : s.tower k = Tower.reset := by
        simp [State.tower, List.getD_eq_getElem?_getD, List.getElem?_eq_none (Nat.le_of_not_lt hk)]
      rw [hreset]
      rfl
  have hfold (l : List Nat) : l.foldl (fun s t =>
      if (s.tower t).inService && !(s.tower t).used && Config.sleepUnused t && decide (1 < s.activeTowers) then
        match s.moveEntries t with
        | some s' => s'.modTower t fun x => { x.emptied with state := 1 }
        | none => s
      else s) s = s := by
    induction l with
    | nil => rfl
    | cons k l ih => rwa [List.foldl_cons, hnone k, if_neg (by simp)]
  unfold State.sleepUnused
  rw [if_neg (by simp [hs])]
  cases begun
  · rfl
  · have hloop := hfold (List.range 324)
    dsimp only
    rw [if_pos rfl]
    exact congrArg (fun a : State => { a with towers := a.towers.map fun (x : Tower) => { x with used := false } }) hloop

theorem State.applySetT_none {s : State} (n : Nat) (hs : s.steps = []) : s.applySetT n = s := by
  simp [State.applySetT, State.earlyIdx, hs]

/-- COMMIT of the one step, whose updates have ended. -/
theorem State.commit_eq {s : State} {r : Run} {upd : Bool} {status : Nat} (hs : s.steps = [r.st]) (hr : s.run 0 = some r)
    (hd : r.st.decided = some (upd, status)) (he : r.updatesEnded = true) :
    s.commit = (((s.modSlot r.st.slot fun x => x.commit r.st (upd && r.st.updFault.isEmpty)).finishStep 0
      (if r.st.updFault.isEmpty then status else stBUS_ERROR) (upd && r.st.updFault.isEmpty)).applySetT r.st.slot).sleepUnused
        r.st.sample.isSome := by
  have hlate : s.lateIdx = some 0 := by simp [State.lateIdx, hs, hd]
  simp [State.commit, State.onLate, hlate, hr, he, hd]

end

/-! ### The statement -/

/-- Settles O56: the slot by `Slot.commit`, the completion by `finishStep_settled`, and the placer finds no tower to put to sleep. -/
theorem commitCompletesTheStep : Obligations.CommitCompletesTheStep := by
  intro s r upd status hp hs hr hd he hslot hslots hmbx hmbxs hwf howes hused fault
  have hexec : exec .commit s = .next s.commit := by simp [exec, execCommit, State.whenOn, hp]
  have hx : r.x = s.slot r.st.slot := (State.run_eq_some.mp hr).2.1
  have hupd : (upd && r.st.updFault.isEmpty) = (upd && !fault) := by simp [fault]
  have hst : (if r.st.updFault.isEmpty then status else stBUS_ERROR) = if fault then 0x0120 else status := by
    cases h : r.st.updFault.isEmpty <;> simp [fault, h, stBUS_ERROR]
  rw [hexec, State.commit_eq hs hr hd he, hupd, hst]
  generalize hu : (upd && !fault) = updated
  generalize (if fault then 0x0120 else status) = st
  -- the slot has committed
  let a := s.modSlot r.st.slot fun x => x.commit r.st updated
  have hasteps : a.steps[0]? = some r.st := by simp [a, hs]
  have hgone := a.stepGone_frame 0 r.st st updated
  let d := (a.stepGone 0 r.st st updated).deliver r.st.mbx st (a.stepBytes r.st)
  have hdel := (a.stepGone 0 r.st st updated).deliver_frame r.st.mbx st (a.stepBytes r.st)
  have hraise := d.raise_frame 9
  have hfin : a.finishStep 0 st updated = d.raise 9 := State.finishStep_settled st updated hasteps hmbx howes
  have hdsteps : (d.raise 9).steps = [] := by
    rw [hraise.steps_eq, hdel.steps_eq]
    simp [State.stepGone, a, hs]
  have hdtowers : (d.raise 9).towers = (a.stepGone 0 r.st st updated).towers := by rw [hraise.towers_eq, hdel.towers_eq]
  have hdused : ∀ x ∈ (d.raise 9).towers, x.inService = true → x.used = true := by
    intro x hmem hin
    rw [hdtowers] at hmem
    obtain ⟨y, hy, rfl⟩ := List.mem_map.mp hmem
    exact hused y hy hin
  have hframe : Frame [.steps, .slots, .mailboxes, .window, .towers, .ints, .out] s (d.raise 9) :=
    Frame.trans (Frame.trans (k := [.steps, .slots, .window, .towers]) (s.modSlot_frame _ _) hgone (by simp) (by simp))
      (Frame.trans (k := [.mailboxes, .ints, .out]) hdel hraise (by simp) (by simp)) (by simp) (by simp)
  have hslotsEq : (d.raise 9).slots = a.slots := by rw [hraise.slots_eq, hdel.slots_eq, hgone.slots_eq]
  have hslotEq : (d.raise 9).slot r.st.slot = (s.slot r.st.slot).commit r.st updated := by
    rw [State.slot, hslotsEq, ← State.slot, s.slot_modSlot_same _ (by omega)]
  have hmbxEq : (d.raise 9).mailboxes = d.mailboxes := hraise.mailboxes_eq
  have hwindow : (d.raise 9).window = a.rewriteWindow r.st st updated := by rw [hraise.window_eq, hdel.window_eq]; rfl
  obtain ⟨pend, o, hraised⟩ := d.raise_eq 9
  rw [hfin, State.applySetT_none _ hdsteps, State.sleepUnused_used _ hdsteps hdused]
  refine ⟨_, a.stepBytes r.st, rfl, hdsteps, ?_, a.length_stepBytes r.st, fun k hk => ?_, ?_, ?_, ?_, fun k hk => ?_, ?_, ?_, ?_, ?_,
    Frame.trans hframe (State.set_towers_frame _ _) (by simp) (by simp)⟩
  · have hholds := State.deliver_holds (a.stepGone 0 r.st st updated) st (a.stepBytes r.st) hmbx hmbxs hwf
    rw [State.mbx, ← hmbxEq] at hholds
    exact hholds
  · have hother := State.deliver_others (a.stepGone 0 r.st st updated) r.st.mbx st (a.stepBytes r.st) k hk
    exact (congrArg (·[k]?) hmbxEq).trans hother
  · exact (congrArg Slot.t hslotEq).trans (by rw [hx]; rfl)
  · exact congrArg Slot.commitStep hslotEq
  · exact (congrArg Slot.prog hslotEq).trans (by rw [hx]; rfl)
  · exact (congrArg (·[k]?) hslotsEq).trans (s.slots_modSlot_getElem?_other _ hk)
  · exact congrArg Window.seq hwindow
  · exact congrArg (fun w : Window => w.step.v) hwindow
  · exact congrArg Window.updated hwindow
  · change ((d.raise 9).ints).raised.getLsbD 9 = true
    rw [hraised]
    simp

end Sys2Proof.Machine
end

section
/-!
O50. A layer operation stands or wants a repeat, stops, and restarts (R33, R152, R156, R171 to R174, Table 5.8).
-/
namespace Sys2Proof.Machine

open Sys2Proof

/-! ### The running step -/

theorem State.onRunning_running {s : State} {i : Nat} {p : Step} (f : State → Nat → State) (hi : s.earlyIdx = some i)
    (hp : s.steps[i]? = some p) (he : p.ended = .running) (hg : p.stage = .running) : s.onRunning f = f s i := by
  simp [State.onRunning, hi, hp, he, hg]

/-- A step that has failed is left alone. -/
theorem State.onRunning_failed {s : State} {i : Nat} {p : Step} (f : State → Nat → State) (hi : s.earlyIdx = some i)
    (hp : s.steps[i]? = some p) (he : p.ended ≠ .running) : s.onRunning f = s := by
  simp [State.onRunning, hi, hp, he]

/-! ### The judgement -/

/-- What is in the statistics of a tensor that has not jumped leaves no event and no count (R161, R168). -/
theorem State.normJumps_quiet (s : State) (i : Nat) (op : LayerOp) {e : PlanEnt} {k : Tracker} {xs : List StatEnt}
    (h : ∀ x ∈ xs, jumpOf e k x = none) : s.normJumps i op e k xs = s := by
  have hmiss (role : Nat) : ((xs.filter fun x => x.role == role).findSome? fun x => (jumpOf e k x).map fun q => (x, q)) = none := by
    rw [List.findSome?_eq_none_iff]
    intro x hx
    simp [h x (List.mem_filter.mp hx).1]
  refine List.foldl_fixed' (fun role => ?_) _
  dsimp only
  rw [hmiss]
  split
  · rfl
  · simp

/-- An operation stands: its progress is done, and of the step nothing else but the marks of its events has changed. -/
theorem State.opStands_noted {s : State} {i : Nat} {op : LayerOp} {p : Step} (hp : s.steps[i]? = some p)
    (hop : (p.layerProg op).isSome = true) (he : p.ended = .running) :
    Frame [.steps, .evt] s ((s.noteEvents i op).opStands i op) ∧ ∃ q, ((s.noteEvents i op).opStands i op).steps[i]? = some q
      ∧ (q.layerProg op).map LayerProg.done = some true ∧ q.recs = p.recs ∧ q.ended = .running ∧ q.rungs = p.rungs
      ∧ ∀ k, k ≠ i → ((s.noteEvents i op).opStands i op).steps[k]? = s.steps[k]? := by
  obtain ⟨hagree, hframe⟩ := s.noteEvents_agrees i op
  obtain ⟨p1, hp1, hg⟩ := hagree.get hp
  obtain ⟨hlayers, hrungs, -, hrecs, hended⟩ := Step.of_unmarked hg
  exact ⟨Frame.trans hframe (State.modStep_frame _ i _) (fun _ h => h) (by simp), _, State.steps_modStep_getElem?_same _ hp1,
    Step.map_layerProg_modLayer _ _ (by rwa [Step.layerProg_congr hlayers]) (fun _ => rfl) fun _ => rfl, hrecs, hended.trans he, hrungs,
    fun k hk => (State.steps_modStep_getElem?_other _ _ hk).trans (hagree.1 k hk)⟩

/-- A condition below the top widens the index by one rung at least, and is counted (R172, R173). -/
theorem State.fallback_below {s : State} {i : Nat} {p : Step} (layer mb phase : Nat) {ran : Nat} {e : PlanEnt} {c : Cond}
    (hp : s.steps[i]? = some p) (hran : ran < e.top c.grad) (hl : layer < p.rungs.length) :
    (s.fallback i layer mb phase ran e c).2 = true ∧ ∃ q, (s.fallback i layer mb phase ran e c).1.steps[i]? = some q
      ∧ q.layers = p.layers ∧ q.fallbacks = p.fallbacks + 1 ∧ (q.rung layer).at c.grad = max (ran + 1) ((p.rung layer).at c.grad)
      ∧ (q.rung layer).fell = true := by
  have hnot : ¬ e.top c.grad ≤ ran := by omega
  have hwide (g : LayerRung) (b : Bool) (n : Nat) : (g.widenTo b n).at b = n ∧ (g.widenTo b n).fell = true := by
    cases b <;> exact ⟨rfl, rfl⟩
  have hrung (q : Step) (g : LayerRung → LayerRung) (h : q.rungs = updAt p.rungs layer g) : q.rung layer = g (p.rung layer) := by
    simp [Step.rung, h, updAt, List.getD_eq_getElem?_getD, hl]
  have hev (src : EvSrc) (code : Nat) (fs : List (Nat × Nat)) : (s.event src code fs).steps[i]? = some p := by
    rw [(s.event_frame src code fs).steps_eq, hp]
  simp only [State.fallback, hp, hnot, decide_false, Bool.not_false, Bool.false_eq_true, if_false, true_and]
  refine ⟨_, State.steps_modStep_getElem?_same _ (hev _ _ _), rfl, rfl, ?_, ?_⟩
  · rw [hrung _ _ rfl]
    exact (hwide _ _ _).1
  · rw [hrung _ _ rfl]
    exact (hwide _ _ _).2

/-- The judgement of an operation whose condition widens (R172 to R174). -/
theorem State.widens_repeat {s : State} {i : Nat} {p : Step} {op : LayerOp} {ran : Nat} {e : PlanEnt} {c : Cond}
    (hp : s.steps[i]? = some p) (hop : (p.layerProg op).isSome = true) (hran : ran < e.top c.grad) (hl : op.layer < p.rungs.length) :
    let t := (s.fallback i op.layer op.mb op.phase ran e c).1.modStep i fun p => p.modLayer op fun q => { q with want := 2 }
    ∃ q, (if c.grad then t else t.copyRung i op.layer false).steps[i]? = some q
      ∧ (q.layerProg op).map LayerProg.want = some 2 ∧ q.fallbacks = p.fallbacks + 1
      ∧ (q.rung op.layer).at c.grad = max (ran + 1) ((p.rung op.layer).at c.grad) ∧ (q.rung op.layer).fell = true := by
  intro t
  obtain ⟨-, q, hq, hlayers, hcount, hat, hfell⟩ := State.fallback_below op.layer op.mb op.phase hp hran hl
  have ht : t.steps[i]? = some (q.modLayer op fun q => { q with want := 2 }) := State.steps_modStep_getElem?_same _ hq
  have hwant : ((q.modLayer op fun q => { q with want := 2 }).layerProg op).map LayerProg.want = some 2 :=
    Step.map_layerProg_modLayer _ _ (by rwa [Step.layerProg_congr hlayers]) (fun _ => rfl) fun _ => rfl
  split
  · exact ⟨_, ht, hwant, hcount, hat, hfell⟩
  · obtain ⟨q', hq', hb⟩ := (t.copyRung_agrees i op.layer false).get ht
    obtain ⟨hlayers', hrungs', hcount'⟩ := Step.of_bare hb
    have hrung : q'.rung op.layer = q.rung op.layer := by
      rw [Step.rung, hrungs']
      rfl
    exact ⟨q', hq', by rw [Step.layerProg_congr hlayers', hwant], hcount'.trans hcount, by rw [hrung, hat], by rw [hrung, hfell]⟩

theorem any_jump_false {e : PlanEnt} {k : Tracker} {xs : List StatEnt} (h : ∀ x ∈ xs, jumpOf e k x = none) :
    (xs.any fun x => (jumpOf e k x).isSome) = false := by
  rw [List.any_eq_false]
  intro x hx
  simp [h x hx]

/-- The tensors that an operation is judged anew on for a jump are of those that it is judged on. -/
theorem mem_of_mem_fresh {phase : Nat} {xs : List StatEnt} {x : StatEnt}
    (h : x ∈ if phase = 0 then xs else xs.filter fun x => x.phase == 1) : x ∈ xs := by
  split at h
  · exact h
  · exact (List.mem_filter.mp h).1

section
variable (s : State) (i : Nat) {r : Run} {q : LayerProg} {pl : Plan} {e : PlanEnt} {k : Tracker} (hplan : r.x.plan = some pl)
  (he : pl.layers[q.op.layer]? = some e) (hk : r.x.trackers[q.op.layer]? = some k) (hj : ∀ x ∈ r.judged q, jumpOf e k x = none)
include hplan he hk hj

/-- Without a jump and without a condition the operation stands (R171). -/
theorem State.judge_stands (hc : conditionOf e k ((r.st.latched q.op).rung q.op.layer) q.op.phase (r.judged q) = none) :
    s.judge i r q = (s.noteEvents i q.op).opStands i q.op := by
  have hfresh := fun x hx => hj x (mem_of_mem_fresh (phase := q.op.phase) hx)
  unfold State.judge
  simp only [hplan, Option.bind_some, he, hk, State.normJumps_quiet _ _ _ hfresh, any_jump_false hfresh, Bool.false_eq_true, and_false, if_false, hc]

/-- Without a jump a condition that widens wants a repeat (R172). -/
theorem State.judge_widens {c : Cond} (hc : conditionOf e k ((r.st.latched q.op).rung q.op.layer) q.op.phase (r.judged q) = some c)
    (hw : ((s.noteEvents i q.op).fallback i q.op.layer q.op.mb q.op.phase (((r.st.latched q.op).rung q.op.layer).at c.grad) e c).2 = true) :
    let t := ((s.noteEvents i q.op).fallback i q.op.layer q.op.mb q.op.phase (((r.st.latched q.op).rung q.op.layer).at c.grad) e c).1.modStep i
      fun p => p.modLayer q.op fun q => { q with want := 2 }
    s.judge i r q = if c.grad then t else t.copyRung i q.op.layer false := by
  have hfresh := fun x hx => hj x (mem_of_mem_fresh (phase := q.op.phase) hx)
  unfold State.judge
  simp only [hplan, Option.bind_some, he, hk, State.normJumps_quiet _ _ _ hfresh, any_jump_false hfresh, Bool.false_eq_true,
    and_false, if_false, hc, hw, if_true]

end

/-- Without a plan every operation stands. -/
theorem State.judge_unplanned (s : State) (i : Nat) {r : Run} (q : LayerProg) (hplan : r.x.plan = none) :
    s.judge i r q = (s.noteEvents i q.op).opStands i q.op := by
  simp [State.judge, hplan]

/-- LAYER_OPERATION_COMPLETE judges an operation whose records are complete (R33, R171). -/
theorem State.opComplete_ready {s : State} {i : Nat} {op : LayerOp} {r : Run} {q : LayerProg} (hr : s.run i = some r)
    (hq : r.st.layerProg op = some q) (hd : q.done = false) (hb : q.begun = true) (ho : r.opOpen op = true) (hrec : r.opRecs op ≠ [])
    (hdone : ∀ x ∈ r.opRecs op, x.done = true) (hin : r.statsIn op = true) : s.opComplete i op = (s.judge i r q).settle i := by
  have hall : (r.opRecs op).all RecProg.done = true := List.all_eq_true.mpr hdone
  simp [State.opComplete, hr, hq, hd, hb, ho, hrec, hall, hin]

/-- The operation that `layerProg` finds is the one that it was asked for. -/
theorem Step.layerProg_op {p : Step} {op : LayerOp} {q : LayerProg} (h : p.layerProg op = some q) : q.op = op := by
  simpa using List.find?_some h

/-! ### The stop -/

/-- What a stopped operation leaves of its step: its progress stands stopped, its records are unplaced, its statistics gone (Table 5.8). -/
structure Step.Discarded (op : LayerOp) (recs : List Nat) (q : LayerProg) (p : Step) : Prop where
  prog : p.layerProg op = some { q with stopped := true, done := false }
  unplaced : ∀ x ∈ p.recs, x.mb = op.mb → min x.phase 1 = op.phase → x.record ∈ recs → x.placed = 0 ∧ x.retired = 0 ∧ x.done = false
  cleared : ∀ x ∈ p.stats, ¬ (x.layer = op.layer ∧ x.mb = op.mb ∧ x.phase = op.phase ∧ x.role ≠ 1)

/-- Fewer records and statistics, and the same forward operations, leave a discarded forward operation discarded. -/
theorem Step.Discarded.drop {op : LayerOp} {recs : List Nat} {q : LayerProg} {p p' : Step} (h : p.Discarded op recs q)
    (hprog : p'.layerProg op = p.layerProg op) (hrecs : ∀ x ∈ p'.recs, x ∈ p.recs) (hstats : ∀ x ∈ p'.stats, x ∈ p.stats) :
    p'.Discarded op recs q :=
  ⟨hprog.trans h.prog, fun x hx => h.unplaced x (hrecs x hx), fun x hx => h.cleared x (hstats x hx)⟩

/-- An item that stays queued was queued, and is none of those dropped. -/
theorem State.mem_queue_dropItems {s : State} {p : Item → Bool} {x : Tower} {it : Item} (hx : x ∈ (s.dropItems p).towers) (hit : it ∈ x.queue) :
    p it = false ∧ ∃ y ∈ s.towers, it ∈ y.queue := by
  obtain ⟨y, hy, rfl⟩ := List.mem_map.mp hx
  obtain ⟨hin, hp⟩ := List.mem_filter.mp hit
  exact ⟨by simpa using hp, y, hy, hin⟩

/-- BWD that is discarded with its LOSS: items and backward work go, and a forward operation's progress stands (Table 5.8). -/
theorem State.dropBackward_leaves (s : State) (i mb : Nat) {p : Step} (hp : s.steps[i]? = some p) :
    Frame [.steps, .towers] s (s.dropBackward i mb)
      ∧ (∃ p', (s.dropBackward i mb).steps[i]? = some p' ∧ (∀ op : LayerOp, op.phase = 0 → p'.layerProg op = p.layerProg op)
          ∧ (∀ x ∈ p'.recs, x ∈ p.recs) ∧ ∀ x ∈ p'.stats, x ∈ p.stats)
      ∧ ∀ x ∈ (s.dropBackward i mb).towers, ∀ it ∈ x.queue, ∃ y ∈ s.towers, it ∈ y.queue := by
  unfold State.dropBackward
  split
  · exact ⟨Frame.refl _ _, ⟨p, hp, fun _ _ => rfl, fun _ h => h, fun _ h => h⟩, fun x hx it hit => ⟨x, hx, hit⟩⟩
  · refine ⟨Frame.trans (s.dropItems_frame _) (State.modStep_frame _ i _) (by simp) (by simp),
      ⟨_, State.steps_modStep_getElem?_same _ hp, fun op hop => ?_, fun x hx => List.mem_of_mem_filter hx,
        fun x hx => List.mem_of_mem_filter hx⟩, fun x hx it hit => (State.mem_queue_dropItems hx hit).2⟩
    refine List.find?_filter.trans (congrArg (List.find? · p.layers) (funext fun q => ?_))
    by_cases hq : q.op = op
    · subst hq
      simp [hop]
    · simp [hq]

/-- An operation has stopped: of the step, and of the queues, what its records had is gone (R152, Table 5.8). -/
structure State.OpStopped (s : State) (i : Nat) (op : LayerOp) (r : Run) (q : LayerProg) (t : State) : Prop where
  frame : Frame [.steps, .towers] s t
  step : ∃ p, t.steps[i]? = some p ∧ p.Discarded op ((r.opRecs op).map RecProg.record) q
  queues : ∀ x ∈ t.towers, ∀ it ∈ x.queue, ¬ (it.slot = r.st.slot ∧ it.step = r.st.number.toNat ∧ it.mb = op.mb
    ∧ min it.phase 1 = op.phase ∧ it.record ∈ (r.opRecs op).map RecProg.record)

theorem State.OpStopped.dropBackward {s t : State} {i : Nat} {op : LayerOp} {r : Run} {q : LayerProg} (h : s.OpStopped i op r q t)
    (hop : op.phase = 0) : s.OpStopped i op r q (t.dropBackward i op.mb) := by
  obtain ⟨hframe, ⟨p, hp, hdisc⟩, hqueues⟩ := h
  obtain ⟨hf, ⟨p', hp', hprog, hrecs, hstats⟩, hq⟩ := t.dropBackward_leaves i op.mb hp
  refine ⟨Frame.trans hframe hf (fun _ h => h) fun _ h => h, ⟨p', hp', hdisc.drop (hprog op hop) hrecs hstats⟩, fun x hx it hit => ?_⟩
  obtain ⟨y, hy, hity⟩ := hq x hx it hit
  exact hqueues y hy it hity

/-- What is discarded of one operation that will run in the rung that it began in (R152, Table 5.8). -/
theorem State.discardOp_stopped {s : State} {i : Nat} {op : LayerOp} {r : Run} {q : LayerProg} (hr : s.run i = some r)
    (hq : r.st.layerProg op = some q) : s.OpStopped i op r q (s.discardOp i op true) := by
  obtain ⟨hst, -, -⟩ := State.run_eq_some.mp hr
  have hmod (hit : Item → Bool) (f : Step → Step) (hf : (f r.st).Discarded op ((r.opRecs op).map RecProg.record) q)
      (hhit : ∀ it, hit it = false → ¬ (it.slot = r.st.slot ∧ it.step = r.st.number.toNat ∧ it.mb = op.mb
        ∧ min it.phase 1 = op.phase ∧ it.record ∈ (r.opRecs op).map RecProg.record)) :
      s.OpStopped i op r q ((s.dropItems hit).modStep i f) :=
    ⟨Frame.trans (s.dropItems_frame hit) (State.modStep_frame _ i f) (by simp) (by simp),
      ⟨_, State.steps_modStep_getElem?_same f hst, hf⟩, fun x hx it hin => hhit it (State.mem_queue_dropItems hx hin).1⟩
  have hends {t : State} (h : s.OpStopped i op r q t) {c : Bool} (hc : c = true → op.phase = 0) :
      s.OpStopped i op r q (if c then t.dropBackward i op.mb else t) := by
    split
    next h1 => exact h.dropBackward (hc h1)
    · exact h
  unfold State.discardOp
  simp only [hr]
  refine hends (hmod _ _ ⟨?_, ?_, ?_⟩ ?_) fun h => by simpa using (Bool.and_eq_true_iff.mp h).1
  · refine (Step.layerProg_congr rfl op).trans ((r.st.layerProg_modLayer op
      (f := fun q => { q with begun := q.begun && true, stopped := true, done := false }) fun _ => rfl).trans ?_)
    simp [hq]
  · intro x hx hmb hph hrec
    obtain ⟨y, -, hy⟩ := List.mem_map.mp hx
    split at hy
    · rw [← hy]
      exact ⟨rfl, rfl, rfl⟩
    next h =>
      subst hy
      rw [List.mem_map] at hrec
      simp [hmb, hph, hrec] at h
  · intro x hx h
    have := (List.mem_filter.mp hx).2
    simp [h] at this
  · rintro it h ⟨hslot, hstep, hmb, hph, hrec⟩
    simp [hslot, hstep, hmb, hph, hrec] at h

/-- A closure that an operation alone is in does not widen. -/
theorem State.layerStop_skew {s : State} {i : Nat} {op : LayerOp} {r : Run} {q : LayerProg} (hr : s.run i = some r)
    (hq : r.st.layerProg op = some q) (hw : q.want = 1) (hs : q.stopped = false)
    (hc : s.closure r op.phase op.mb none r.p.nLayers [op.layer] = [op.layer]) : s.layerStop i ⟨op, []⟩ = s.discardOp i op true := by
  have hnotice : s.peerNotice i op = s := by
    unfold State.peerNotice
    simp only [hr, hq]
    split
    next heq _ =>
      obtain rfl := Option.some.inj heq
      simp [hw]
    · rfl
  have hhalt : s.haltWords ⟨op, []⟩ = s := rfl
  unfold State.layerStop
  simp only [hhalt, hnotice, hr, hq, hw, hs]
  simp [hc]

/-! ### The restart -/

theorem State.placeItem_agrees (s : State) (i : Nat) (it : Item) : s.StepsAgree i Step.layers (s.placeItem i it) := by
  unfold State.placeItem
  have hback (s : State) (it : Item) : s.StepsAgree i Step.layers (s.backlogItem i it) := s.modStep_agrees fun _ => rfl
  split
  · exact hback s it
  · dsimp only
    split
    · exact (s.modTower_frame _ _).stepsAgree i _
    · exact ((s.modTower_frame _ _).stepsAgree i _).trans (hback _ _)

theorem State.placeRecord_agrees (s : State) (i : Nat) (o : OpRec) (rec mb phase : Nat) :
    s.StepsAgree i Step.layers (s.placeRecord i o rec mb phase) := by
  unfold State.placeRecord
  split
  · exact .refl i _ s
  · refine (s.modStep_agrees fun p => ?_).trans (State.foldl_agrees (fun s it => s.placeItem_agrees i it) _ _)
    split <;> rfl

/-- The progress of an operation whose work is placed again (R152). -/
theorem State.refill_prog {s : State} {i : Nat} {op : LayerOp} {r : Run} {q : LayerProg} (hr : s.run i = some r)
    (hq : r.st.layerProg op = some q) : ((s.refill i op).steps[i]?).bind (fun p => p.layerProg op) = some q.again := by
  obtain ⟨hst, -, -⟩ := State.run_eq_some.mp hr
  unfold State.refill
  simp only [hr]
  obtain ⟨p, hp, hlayers⟩ := (State.foldl_agrees (i := i) (g := Step.layers)
    (fun s (q : OpRec × Nat × Nat) => s.placeRecord_agrees i q.1 q.2.1 op.mb q.2.2)
    ((r.p.phaseWork op.phase).filter fun q => q.1.layer == op.layer) (s.modStep i fun p => p.modLayer op LayerProg.again)).get
    (State.steps_modStep_getElem?_same _ hst)
  rw [hp, Option.bind_some, Step.layerProg_congr hlayers, Step.layerProg_modLayer _ _ (f := LayerProg.again) fun _ => rfl, hq]
  rfl

/-- A stopped operation without stopped readers restarts alone. -/
theorem State.layerRestart_alone {s : State} {i : Nat} {op : LayerOp} {p : Step} {q : LayerProg} (hp : s.steps[i]? = some p)
    (hq : p.layerProg op = some q) (hs : q.stopped = true) (hone : ∀ x ∈ p.layers, x.op ≠ op → x.stopped = false) :
    s.layerRestart i op = (s.refill i op).advanceAll i := by
  have hnone : (p.layers.filter fun x => x.stopped && x.want == 0 && x.op != op && x.op.mb == op.mb && x.op.phase == op.phase) = [] := by
    rw [List.filter_eq_nil_iff]
    intro x hx h
    simp only [Bool.and_eq_true, bne_iff_ne] at h
    obtain ⟨⟨⟨⟨hstop, -⟩, hne⟩, -⟩, -⟩ := h
    simp [hone x hx hne] at hstop
  unfold State.layerRestart
  simp only [hp, hq, hs, hnone]
  rfl

/-! ### The obligation -/

/-- Settles O50: the completion through the judgement of the operation, without and with a condition; the stop through what is discarded; the
restart through the placing of the operation's work, which leaves the progress of every operation. -/
theorem layerOperations : Obligations.LayerOperations := by
  refine ⟨fun s op i r q hpow hi hr => ⟨fun he hg hq hd hb ho hrec hdone hin => ?_, fun he => ?_⟩,
    fun s op i r q hpow hi hr he hg hq hone => ⟨fun hw hs hc => ?_, fun hs hothers => ?_⟩⟩
  all_goals obtain ⟨hst, -, -⟩ := State.run_eq_some.mp hr
  · have hexec : exec (.layerOperationComplete op) s = .next ((s.judge i r q).settle i) := by
      simp [exec, execLayerOperationComplete, State.whenOn, hpow, State.onRunning_running _ hi hst he hg,
        State.opComplete_ready hr hq hd hb ho hrec hdone hin]
    have hop := Step.layerProg_op hq
    subst hop
    have hsome : (r.st.layerProg q.op).isSome = true := by simp [hq]
    intro stands
    have hstands (h : s.judge i r q = (s.noteEvents i q.op).opStands i q.op) : stands := by
      obtain ⟨hframe, p, hp, hrest⟩ := State.opStands_noted hst hsome he
      exact ⟨_, p, h ▸ hexec, hframe, hp, hrest⟩
    refine ⟨fun hplan => hstands (s.judge_unplanned i q hplan), fun pl e k hplan hpe hk hj => ⟨fun hc =>
      hstands (s.judge_stands i hplan hpe hk hj hc), fun c hc hbelow hlen => ?_⟩⟩
    obtain ⟨p, hp, hmarked⟩ := (s.noteEvents_agrees i q.op).1.get hst
    obtain ⟨hlayers, hrungs, hcount, -, -⟩ := Step.of_unmarked hmarked
    have hlen' : q.op.layer < p.rungs.length := hrungs ▸ hlen
    have hwidens := (State.fallback_below q.op.layer q.op.mb q.op.phase hp hbelow hlen').1
    obtain ⟨p', hp', hwant, hcount', hat, hfell⟩ := State.widens_repeat hp (by rwa [Step.layerProg_congr hlayers]) hbelow hlen'
    refine ⟨_, p', hexec, (s.judge_widens i hplan hpe hk hj hc hwidens) ▸ hp', hwant, hcount ▸ hcount', ?_, hfell⟩
    rw [hat, show p.rung q.op.layer = r.st.rung q.op.layer by rw [Step.rung, hrungs, Step.rung]]
  · simp [exec, execLayerOperationComplete, State.whenOn, hpow, State.onRunning_failed _ hi hst he]
  · have hstop := State.discardOp_stopped hr hq
    obtain ⟨p, hp, hdisc⟩ := hstop.step
    refine ⟨_, ?_, hstop.frame, ⟨p, hp, hdisc.prog, hdisc.unplaced, hdisc.cleared⟩, hstop.queues⟩
    simp [exec, execLayerStop, State.whenOn, hpow, State.onRunning_running _ hi hst he hg, State.layerStop_skew hr hq hw hs hc]
  · refine ⟨?_, State.refill_prog hr hq⟩
    simp [exec, execLayerRestart, State.whenOn, hpow, State.onRunning_running _ hi hst he hg, State.layerRestart_alone hst hq hs hothers]

end Sys2Proof.Machine
end

section
/-!
O49. A tower starts the item that it may take next, and an item whose spans have run retires (R27, R31, R33, R186, R190, R197, R207).
-/
namespace Sys2Proof.Machine

open Sys2Proof

/-! ### The module has as many towers as before -/

theorem Frame.towers_length {l : List Component} {s t : State} (h : Frame l s t) (hl : Component.towers ∉ l := by simp) :
    t.towers.length = s.towers.length := by
  rw [h.towers_eq hl]

theorem State.failStep_towers_length (s : State) (i status : Nat) : (s.failStep i status).towers.length = s.towers.length := by
  unfold State.failStep
  split
  · rfl
  · split
    · rfl
    · exact List.length_map _

theorem State.copyRung_towers_length (s : State) (i l : Nat) (all : Bool) : (s.copyRung i l all).towers.length = s.towers.length := by
  unfold State.copyRung
  split
  · rfl
  next r _ =>
    have hread := (s.readRuns_reads rqJasper r.st.number []
      ((r.x.toCopy r.p l (fun k => (r.st.rung k).rf) all).map fun d => (d.addr, r.p.hostBytes d))).frame.towers_length
    dsimp only
    split
    · exact ((State.putW_frame _ i l).towers_length.trans (State.copyLayer_frame _ _ _ _ _ _ _).towers_length).trans hread
    · exact (State.failStep_towers_length _ i _).trans hread

theorem State.fallback_frame (s : State) (i layer mb phase ran : Nat) (e : PlanEnt) (c : Cond) :
    Frame [.steps, .evt] s (s.fallback i layer mb phase ran e c).1 := by
  unfold State.fallback
  split
  · exact Frame.refl _ _
  · exact Frame.trans (s.event_frame _ _ _) (State.modStep_frame _ i _) (by simp) (by simp)

theorem State.beginLayer_towers_length (s : State) (i l : Nat) : (s.beginLayer i l).towers.length = s.towers.length := by
  unfold State.beginLayer
  split
  · rfl
  next r _ =>
    dsimp only
    split
    · rfl
    · have hcopy := s.copyRung_towers_length i l (r.x.stale.contains l)
      split
      · split
        · exact hcopy
        · split
          · exact (State.copyRung_towers_length _ i l false).trans ((State.fallback_frame _ _ _ _ _ _ _ _).towers_length.trans hcopy)
          · exact (State.fallback_frame _ _ _ _ _ _ _ _).towers_length.trans hcopy
      · exact hcopy

theorem State.beginOp_towers_length (s : State) (i : Nat) (o : OpRec) (mb phase : Nat) :
    (s.beginOp i o mb phase).towers.length = s.towers.length := by
  have hfold (ls : List Nat) (s : State) : (ls.foldl (fun s l => s.beginLayer i l) s).towers.length = s.towers.length := by
    induction ls generalizing s with
    | nil => rfl
    | cons l ls ih => exact (ih _).trans (s.beginLayer_towers_length i l)
  unfold State.beginOp
  split
  · rfl
  · exact hfold _ s

/-! ### What a tower opens -/

/-- Opening the streams of an item adds one for each walk, and leaves the number of the next item. -/
theorem Tower.openFor_adds (t : Tower) (m : Mem) (n : Nat) (it : Item) (ws : List Walk) :
    (t.openFor m n it ws).nextNum = t.nextNum ∧ (t.openFor m n it ws).streams.length = t.streams.length + ws.length := by
  unfold Tower.openFor
  induction ws generalizing t with
  | nil => exact ⟨rfl, rfl⟩
  | cons w ws ih =>
    obtain ⟨hnum, hlen⟩ := ih { t with streams := t.streams ++ [w.stream m t.freeNum n it] }
    rw [List.foldl_cons]
    refine ⟨hnum, hlen.trans ?_⟩
    simp only [List.length_append, List.length_cons, List.length_nil]
    omega

theorem State.workStart_clean (s : State) (u : Nat) : s.workStart ⟨u, []⟩ = s.startItem u := by
  unfold State.workStart
  dsimp only
  split <;> rfl

/-! ### The retirement -/

/-- An item that holds a tile which has not taken every span stays (R31). -/
theorem State.workRetire_unformed {s : State} {u k : Nat} {w : Started} (hw : (s.tower u).started[k]? = some w)
    (hh : w.item.holds = true) (hf : w.formed = false) : s.workRetire u k = s := by
  unfold State.workRetire
  simp only [hw]
  split
  · rfl
  · split
    · simp [hh, hf]
    · rfl

/-- The tower of an item that retires: the item, its streams and its accumulators are gone. -/
def Tower.without (k num : Nat) (y : Tower) : Tower :=
  { y with
    started := y.started.eraseIdx k, streams := y.streams.filter fun z => z.item != num
    fwdSets := y.fwdSets.filter fun z => z.item != num
    bwdSets := y.bwdSets.filter fun z => z.item != num }

/-- An item that may retire leaves its tower, and is counted in its record, which the last item completes (R31, R190). -/
theorem State.workRetire_ready {s : State} {u k i : Nat} {w : Started} {r : Run} {op : LayerOp} {q : RecProg}
    (hw : (s.tower u).started[k]? = some w) (hi : s.stepOf w.item = some i) (hr : s.run i = some r) (hop : s.opOf w.item = some op)
    (hin : (s.tower u).inService = true) (ho : r.opOpen op = true) (hspan : w.item.hi ≤ w.span)
    (hform : w.item.holds = true → w.formed = true) (hcomp : ∀ y ∈ (s.tower u).streams, y.item = w.num → y.complete = true)
    (hq : ((((s.modTower u (Tower.without k w.num)).issueAll u).modStep i fun p =>
      p.modRec w.item.record w.item.mb w.item.phase fun q => { q with retired := q.retired + 1 }).steps[i]?).bind
        (fun p => p.recProg w.item.record w.item.mb w.item.phase) = some q) :
    let s2 := ((s.modTower u (Tower.without k w.num)).issueAll u).modStep i fun p =>
      p.modRec w.item.record w.item.mb w.item.phase fun q => { q with retired := q.retired + 1 }
    s.workRetire u k = if q.retired = q.placed then (s2.completeRec i w.item.record w.item.mb w.item.phase).advanceAll i else s2.pump i := by
  have hstreams : ((s.tower u).streams.filter fun y => y.item == w.num).all Stream.complete = true := by
    rw [List.all_eq_true]
    intro y hy
    obtain ⟨hmem, hnum⟩ := List.mem_filter.mp hy
    exact hcomp y hmem (by simpa using hnum)
  have hheld : (w.item.holds && !w.formed) = false := by
    cases hh : w.item.holds
    · rfl
    · simp [hform hh]
  have hrun : decide (w.span < w.item.hi) = false := by simp [hspan]
  unfold State.workRetire
  simp only [hw, hi, hr, hop, hin, ho, hrun, hheld, hstreams, Bool.not_true, Bool.or_false, Bool.false_eq_true, if_false]
  unfold Tower.without at hq
  rw [hq]
  rfl

/-! ### The obligation -/

/-- Settles O49: the start by following the tower's own pick through the beginning of its operation, which keeps the number of towers; the
retirement by the three conditions that let an item go. -/
theorem workItemsStartAndRetire : Obligations.WorkItemsStartAndRetire := by
  refine ⟨fun s u k i it r r1 o hpow hpick hu hk hi hr ho hr1 => ?_,
    fun s u k i w r op q hpow hw hi hr hop hin hopen => ⟨fun hh hf => ?_, fun hspan hform hcomp => ?_⟩⟩
  · intro n s1 c size hroom s2
    have hlen : u < s1.towers.length := by rwa [show s1.towers.length = _ from s.beginOp_towers_length i o it.mb it.phase]
    have htower : s2.tower u = _ := s1.tower_modTower_same _ hlen
    refine ⟨_, ?_, rfl, fun hlo => ?_, ?_, ?_⟩
    · have hexec : exec (.workItemStart ⟨u, []⟩) s = .next (s.startItem u) := by
        simp [exec, execWorkItemStart, State.whenOn, hpow, State.workStart_clean]
      have hfits : ¬ (s.tower u).streams.length + (c.walks o it).length > 16 := by omega
      rw [hexec]
      unfold State.startItem
      simp only [hpick, hk, hi, hr, ho, hr1]
      exact congrArg _ (if_neg hfits)
    · simp [State.claimFold, hlo]
    · rw [htower, (Tower.openFor_adds _ _ _ _ _).1]
    · rw [htower, (Tower.openFor_adds _ _ _ _ _).2]
  · simp [exec, execWorkItemRetire, State.whenOn, hpow, State.workRetire_unformed hw hh hf]
  · intro s1 s2 hq
    have hret := State.workRetire_ready hw hi hr hop hin hopen hspan hform hcomp hq
    refine ⟨fun hne => ?_, fun heq => ?_⟩
    · simp only [exec, execWorkItemRetire, State.whenOn, hpow, if_true, hret, if_neg hne]
      rfl
    · simp only [exec, execWorkItemRetire, State.whenOn, hpow, if_true, hret, if_pos heq]
      rfl

end Sys2Proof.Machine
end

section
/-!
SUPPORT. Reads of device memory by the towers' own units, and answers that a tower reads out of its inbound window (R18, R24, R25, R427).
-/
namespace Sys2Proof.Machine

open Sys2Proof

/-! ### Reads from the tower side of the mesh -/

section
variable (s : State) {req : Nat} (hreq : ioSide req = false) (step : Quad)
include hreq

/-- A requester off the I/O die reads a beat without an error in a page that is not retired (R12, R284). -/
theorem State.readBeat_tower {a : Nat} (h : s.mem.pageRetired (a / 32 * 32 / 65536) = false) :
    s.readBeat req step [] a = (some (memRead s.mem.cells (a / 32 * 32) 32), s) := by
  unfold State.readBeat
  dsimp only
  rw [if_neg (by simp [hreq]), if_neg (by simp [h])]
  simp only [decodeBeat, syndromes, xorSyms, List.find?_nil, List.foldl_nil, and_self, if_true, List.filter_nil, Prod.mk.injEq,
    Option.some.injEq, and_true]
  exact List.ext_getElem (by simp) (by simp)

theorem State.readBeats_tower {k b : Nat} (acc : List Byte) (hb : b % 32 = 0)
    (h : ∀ i < k, s.mem.pageRetired ((b + 32 * i) / 65536) = false) :
    ∃ bs, s.readBeats req step [] k b acc = (some (acc ++ bs), s) ∧ bs.length = 32 * k := by
  induction k generalizing b acc with
  | zero => exact ⟨[], by simp [State.readBeats], rfl⟩
  | succ k ih =>
    have hb' : b / 32 * 32 = b := by omega
    have h0 := s.readBeat_tower hreq step (a := b) (by rw [hb']; simpa using h 0 (by omega))
    obtain ⟨bs, hread, hlen⟩ := ih (b := b + 32) (acc ++ memRead s.mem.cells b 32) (by omega) fun i hi => by
      have := h (i + 1) (by omega)
      rwa [show b + 32 * (i + 1) = b + 32 + 32 * i by omega] at this
    refine ⟨memRead s.mem.cells b 32 ++ bs, ?_, ?_⟩
    · rw [State.readBeats, h0, hb']
      dsimp only
      rw [hread, List.append_assoc]
    · rw [List.length_append, hlen]
      simp [memRead]
      omega

/-- An extent that touches no retired page reads whole, and the read changes nothing. -/
theorem State.readDev_tower {a len : Nat} (h : s.mem.touchesRetired a len = false) (hl : 0 < len) :
    ∃ bs, s.readDev req step [] a len = (some bs, s) ∧ bs.length = len := by
  have hd : 32 * ceilDiv (a - a / 32 * 32 + len) 32 ≥ a - a / 32 * 32 + len := by unfold ceilDiv; omega
  have hu : 32 * ceilDiv (a - a / 32 * 32 + len) 32 ≤ a - a / 32 * 32 + len + 31 := by unfold ceilDiv; omega
  obtain ⟨bs, hread, hlen⟩ := s.readBeats_tower hreq step (k := ceilDiv (a - a / 32 * 32 + len) 32) (b := a / 32 * 32) [] (by omega)
    fun i hi => Mem.pageRetired_of_touches h hl (by omega) (by omega)
  refine ⟨((([] : List Byte) ++ bs).drop (a - a / 32 * 32)).take len, ?_, ?_⟩
  · unfold State.readDev
    dsimp only
    rw [hread]
  · rw [List.nil_append, List.length_take, List.length_drop, hlen]
    omega

end

/-- Pieces that touch no retired page read whole, one after another (R199). -/
theorem State.readPieces_whole (s : State) (step : Quad) {ps : List (Nat × Nat)}
    (h : ∀ p ∈ ps, 0 < p.2 ∧ s.mem.touchesRetired p.1 p.2 = false) (acc : List Byte) :
    ∃ bs, s.readPieces step [] ps acc = (some bs, s) ∧ bs.length = acc.length + (ps.map Prod.snd).sum := by
  induction ps generalizing acc with
  | nil => exact ⟨acc, rfl, by simp⟩
  | cons p ps ih =>
    obtain ⟨hlen, hret⟩ := h p (by simp)
    obtain ⟨bs, hread, hbs⟩ := s.readDev_tower (req := rqJasper) rfl step hret hlen
    obtain ⟨cs, hrest, hcs⟩ := ih (fun q hq => h q (List.mem_cons_of_mem _ hq)) (acc ++ bs)
    refine ⟨cs, ?_, ?_⟩
    · rw [State.readPieces, hread]
      exact hrest
    · rw [hcs, List.length_append, hbs, List.map_cons, List.sum_cons]
      omega

/-! ### What a tower reads out of its window -/

/-- From `t` to `y` only the inbound window of a tower has changed: its ring, the transfers that wait for it, and the ports served. -/
def Tower.WindowOnly (t y : Tower) : Prop := y = { t with inbound := y.inbound, waiting := y.waiting, served := y.served }

theorem Tower.WindowOnly.refl (t : Tower) : t.WindowOnly t := rfl

theorem Tower.WindowOnly.of (t : Tower) (inbound waiting : List MeshTx) (served : Nat × Nat) :
    t.WindowOnly { t with inbound := inbound, waiting := waiting, served := served } := rfl

theorem Tower.WindowOnly.trans {t y z : Tower} (a : t.WindowOnly y) (b : y.WindowOnly z) : t.WindowOnly z := by
  unfold Tower.WindowOnly at *
  rw [b, a]

theorem Tower.readUntil_window (t : Tower) (me : Nat) (x : MeshTx) (n : Nat) : t.WindowOnly (t.readUntil me x n) := by
  induction n generalizing t with
  | zero => exact .refl t
  | succ n ih =>
    have hadm : t.WindowOnly (t.admitIn me (t.waiting.length + 1)) := (t.admitIn_admits me _).rest
    unfold Tower.readUntil
    dsimp only
    split
    · exact hadm.trans rfl
    · exact hadm.trans ((Tower.WindowOnly.of _ [] _ _).trans (ih _))

theorem Tower.pass_window (t : Tower) (me : Nat) (x : MeshTx) : t.WindowOnly (t.pass me x) :=
  (Tower.WindowOnly.of t _ (t.waiting ++ [x]) _).trans (Tower.readUntil_window _ me x _)

/-! ### What acts at one tower -/

/-- From `s` to `t` only towers have changed, and of every tower but `u` only the ports that its router has served (R25). -/
structure State.ActsAt (u : Nat) (s t : State) : Prop where
  frame : Frame [.towers] s t
  length : t.towers.length = s.towers.length
  others : ∀ k, k ≠ u → t.tower k = { s.tower k with served := (t.tower k).served }

theorem State.ActsAt.refl (u : Nat) (s : State) : s.ActsAt u s := ⟨Frame.refl _ _, rfl, fun _ _ => rfl⟩

theorem State.ActsAt.trans {u : Nat} {s t w : State} (a : State.ActsAt u s t) (b : State.ActsAt u t w) : State.ActsAt u s w :=
  ⟨Frame.trans a.frame b.frame (fun _ h => h) fun _ h => h, b.length.trans a.length, fun k hk => by rw [b.others k hk, a.others k hk]⟩

theorem State.modTower_actsAt (s : State) (u : Nat) (f : Tower → Tower) : s.ActsAt u (s.modTower u f) :=
  ⟨s.modTower_frame f u, s.towers_modTower_length f u, fun _ hk => by rw [s.tower_modTower_other f hk]⟩

/-- The routers on the way change of every tower the ports served alone. -/
theorem State.passRouters_actsAt (s : State) (u : Nat) (xs : List MeshTx) :
    s.ActsAt u (xs.foldl (fun s x => s.passRouters x) s)
      ∧ (s.tower u).WindowOnly ((xs.foldl (fun s x => s.passRouters x) s).tower u) := by
  induction xs generalizing s with
  | nil => exact ⟨.refl u s, .refl _⟩
  | cons x xs ih =>
    obtain ⟨hacts, hwin⟩ := ih (s.passRouters x)
    have hserve (k : Nat) : (s.passRouters x).tower k = { s.tower k with served := ((s.passRouters x).tower k).served } := by
      obtain ⟨p, hp⟩ := s.tower_serveHops x.plane (hopsOf x.src x.dst).dropLast k
      rw [s.passRouters_eq, hp]
    refine ⟨State.ActsAt.trans ⟨s.serveHops_frame _ _, s.serveHops_length _ _, fun k _ => hserve k⟩ hacts, Tower.WindowOnly.trans ?_ hwin⟩
    rw [hserve u]
    rfl

/-- An answer that carries its tower's epoch to a tower in service acts behind the window: the routers on its way have served their ports, and
the tower has read it (R18, R24, R25). -/
theorem State.answered_own {s : State} {u : Nat} {src : Node} {epoch : Word} (data : List Byte) (f : State → State)
    (hu : u < s.towers.length) (hroute : s.routeUp src (.tower u) = true) (hepoch : epoch = (s.tower u).epoch)
    (hin : (s.tower u).inService = true) :
    ∃ t, s.answered u src epoch data f = f t ∧ s.ActsAt u t ∧ (s.tower u).WindowOnly (t.tower u) := by
  have hfold (xs : List MeshTx) (z : Tower) : z.WindowOnly (xs.foldl (fun z x => z.pass u x) z) := by
    induction xs generalizing z with
    | nil => exact .refl z
    | cons x xs ih => exact (z.pass_window u x).trans (ih _)
  unfold State.answered
  dsimp only
  rw [if_neg (by simp [hroute]), if_neg (by simp [hepoch]), if_neg (by simp [hin])]
  refine ⟨_, rfl, ?_, ?_⟩
  · exact (s.passRouters_actsAt u _).1.trans (State.modTower_actsAt _ u _)
  · rw [State.tower_modTower_same _ _ (by rw [(s.passRouters_actsAt u _).1.length]; exact hu)]
    exact (s.passRouters_actsAt u _).2.trans (hfold _ _)

end Sys2Proof.Machine
end

section
/-!
SUPPORT. Landing, packing, skew and bus error at a tower's Jasper (R151, R152, R189, R191, R202).
-/
namespace Sys2Proof.Machine

open Sys2Proof

/-! ### The parts of a tower that its window leaves -/

section
variable {t y : Tower} (h : t.WindowOnly y)
include h

theorem Tower.WindowOnly.stream (num : Nat) : y.stream num = t.stream num := by rw [show y = _ from h]; rfl
theorem Tower.WindowOnly.jsp : y.jsp = t.jsp := by rw [show y = _ from h]
theorem Tower.WindowOnly.itemOf (x : Stream) : y.itemOf x = t.itemOf x := by rw [show y = _ from h]; rfl

end

section
variable {l : List Component} {s t : State} (h : Frame l s t)
include h

theorem Frame.slot_eq (n : Nat) (hl : Component.slots ∉ l := by simp) : t.slot n = s.slot n := by
  simp [State.slot, h.slots_eq hl]

theorem Frame.opOf_eq (it : Item) (hl : Component.slots ∉ l := by simp) : t.opOf it = s.opOf it := by
  simp only [State.opOf, h.slot_eq it.slot hl]

theorem Frame.stepOf_eq (it : Item) (hl : Component.steps ∉ l := by simp) : t.stepOf it = s.stepOf it := by
  simp only [State.stepOf, h.steps_eq hl]

theorem Frame.routeUp_eq (a b : Node) (hl : Component.towers ∉ l := by simp) : t.routeUp a b = s.routeUp a b := by
  simp only [State.routeUp, h.towers_eq hl]

end

/-! ### Streams of a tower -/

theorem Tower.stream_modStream (t : Tower) (num : Nat) {f : Stream → Stream} (hf : ∀ x, (f x).num = x.num) :
    (t.modStream num f).stream num = (t.stream num).map f := by
  unfold Tower.modStream Tower.stream
  dsimp only
  induction t.streams with
  | nil => rfl
  | cons x l ih =>
    by_cases hx : x.num = num
    · simp [hx, hf x]
    · simpa [hx] using ih

theorem Tower.stream_map_keeps (t : Tower) {num : Nat} {x : Stream} {f : Stream → Stream} (hf : ∀ y, (f y).num = y.num)
    (hx : t.stream num = some x) (hfix : f x = x) : ({ t with streams := t.streams.map f } : Tower).stream num = some x := by
  unfold Tower.stream at hx ⊢
  simp [List.find?_map, hf, hx, hfix]

theorem Tower.landed_stream (t : Tower) (n num : Nat) : (t.landed n).stream num = t.stream num := by
  unfold Tower.landed
  split <;> rfl

/-! ### Packing -/

/-- What packing makes of a landed stream with at most one burst to pack: nothing, or the burst that is whole and right is handed over
(R151, R202). -/
def Stream.PacksTo (z : Stream) (flips : List (Nat × Byte)) (y : Stream) : Prop :=
  z.bursts.head?.any (fun b => b.needs.all z.landed.contains) = false ∧ y = z
    ∨ ∃ b, z.bursts = [b] ∧ b.needs.all z.landed.contains = true ∧ b.blocks ≠ 0 ∧ y = z.deliver b
      ∧ (b.bytes = [] ∨ burstSound (b.arrives flips) = true ∧ burstSeq (b.arrives flips) = z.nextSeq b)

/-- A stream whose front burst is not whole, or that has none, packs nothing. -/
theorem State.packStream_waits {s : State} {u num : Nat} {z : Stream} (n : Nat) (flips : List (Nat × Byte))
    (hz : (s.tower u).stream num = some z) (h : z.bursts.head?.any (fun b => b.needs.all z.landed.contains) = false) :
    State.packStream u num n flips s = s := by
  cases n with
  | zero => rfl
  | succ n =>
    unfold State.packStream
    simp only [hz]
    split
    · rfl
    next b bs hb =>
      have hneeds : b.needs.all z.landed.contains = false := by simpa only [hb, List.head?_cons, Option.any_some] using h
      simp [hneeds]

theorem Stream.deliver_num (z : Stream) (b : Burst) : (z.deliver b).num = z.num := rfl

theorem State.packStream_packs {s : State} {u num : Nat} {z y : Stream} {flips : List (Nat × Byte)} (hu : u < s.towers.length)
    (hz : (s.tower u).stream num = some z) (hh : z.halted = false) (h : z.PacksTo flips y) :
    s.ActsAt u (State.packStream u num (z.bursts.length + 1) flips s)
      ∧ ((State.packStream u num (z.bursts.length + 1) flips s).tower u).stream num = some y
      ∧ ((State.packStream u num (z.bursts.length + 1) flips s).tower u).jsp = (s.tower u).jsp := by
  rcases h with ⟨hwait, rfl⟩ | ⟨b, hb, hwhole, hblocks, rfl, hright⟩
  · rw [State.packStream_waits _ flips hz hwait]
    exact ⟨.refl u s, hz, rfl⟩
  · have hsound : (!b.bytes.isEmpty && (!burstSound (b.arrives flips) || burstSeq (b.arrives flips) != z.nextSeq b)) = false := by
      rcases hright with hnil | ⟨hcheck, hseq⟩
      · simp [hnil]
      · simp [hcheck, hseq]
    have hlen : z.bursts.length + 1 = 1 + 1 := by rw [hb]; rfl
    have htower := s.tower_modTower_same (fun y => y.modStream num fun z => z.deliver b) hu
    have hstream : ((s.modTower u fun y => y.modStream num fun z => z.deliver b).tower u).stream num = some (z.deliver b) := by
      rw [htower, Tower.stream_modStream _ _ fun x => x.deliver_num b, hz, Option.map_some]
    have hempty : (z.deliver b).bursts = [] := by simp [Stream.deliver, Stream.consume, hb]
    have hpack : State.packStream u num (z.bursts.length + 1) flips s = s.modTower u fun y => y.modStream num fun z => z.deliver b := by
      rw [hlen]
      unfold State.packStream
      simp only [hz, hb, hh, hwhole, hsound, hblocks, Bool.not_true, Bool.or_self, Bool.false_eq_true, if_false]
      exact State.packStream_waits 1 _ hstream (by rw [hempty]; rfl)
    rw [hpack]
    exact ⟨s.modTower_actsAt u _, hstream, by rw [htower]; rfl⟩

/-! ### Landing -/

/-- What has landed is packed; behind it spans run, the order is checked, and Jasper goes on (R188, R189). -/
theorem State.land_packs {s : State} {u slot n : Nat} {x y : Stream} {flips : List (Nat × Byte)} (hu : u < s.towers.length)
    (hx : (s.tower u).stream x.num = some x) (hh : x.halted = false) (h : (x.land slot).PacksTo flips y) :
    ∃ s2, s.land u x.num slot n flips = ((State.runSpans u x.item 1024 s2).checkOrder u x.num).issueAll u ∧ s.ActsAt u s2
      ∧ (s2.tower u).stream x.num = some y ∧ (s2.tower u).jsp = ((s.tower u).landed n).jsp := by
  have htower := s.tower_modTower_same (fun y => (y.modStream x.num fun z => z.land slot).landed n) hu
  have hstream : ((s.modTower u fun y => (y.modStream x.num fun z => z.land slot).landed n).tower u).stream x.num = some (x.land slot) := by
    rw [htower, Tower.landed_stream, Tower.stream_modStream _ _ (f := fun z => z.land slot) fun _ => rfl, hx, Option.map_some]
  have hjsp : (((s.tower u).modStream x.num fun z => z.land slot).landed n).jsp = ((s.tower u).landed n).jsp := by
    unfold Tower.landed
    rw [show ((s.tower u).modStream x.num fun z => z.land slot).jsp = (s.tower u).jsp from rfl]
    split <;> rfl
  obtain ⟨hacts, hy, hj⟩ := State.packStream_packs (by rwa [State.towers_modTower_length]) hstream hh h
  refine ⟨_, ?_, (s.modTower_actsAt u _).trans hacts, hy, by rw [hj, htower, hjsp]⟩
  unfold State.land
  simp only [hstream]
  rfl

/-- The bytes that have landed count unless the counters are frozen (R205). -/
theorem Tower.landed_jsp (t : Tower) (n : Nat) :
    (t.landed n).jsp.rdBytes.v = t.jsp.rdBytes.v + (if t.jsp.freeze then 0 else BitVec.ofNat 64 n) ∧ (t.landed n).jsp.skew = t.jsp.skew := by
  unfold Tower.landed
  split
  · simp
  · simp [Ctr.add]

/-! ### Skew -/

/-- The tower that has met a skew: the stream halts, and JSP_SKEW counts unless it is frozen (R151, R205). -/
def Tower.skewMet (num : Nat) (y : Tower) : Tower :=
  let y := y.modStream num fun z => { z with halted := true }
  if y.jsp.freeze then y else { y with jsp := { y.jsp with skew := y.jsp.skew + 1 } }

theorem Tower.skewMet_spec {t : Tower} {x : Stream} (hx : t.stream x.num = some x) :
    (t.skewMet x.num).stream x.num = some { x with halted := true } ∧ (t.skewMet x.num).jsp.rdBytes = t.jsp.rdBytes
      ∧ (t.skewMet x.num).jsp.skew = t.jsp.skew + (if t.jsp.freeze then 0 else 1) := by
  have hhalt : (t.modStream x.num fun z => { z with halted := true }).stream x.num = some { x with halted := true } := by
    rw [Tower.stream_modStream _ _ (f := fun z => { z with halted := true }) fun _ => rfl, hx, Option.map_some]
  have hjsp : (t.modStream x.num fun z => { z with halted := true }).jsp = t.jsp := rfl
  unfold Tower.skewMet
  dsimp only
  split
  next h =>
    rw [hjsp] at h
    exact ⟨hhalt, rfl, by simp [hjsp, h]⟩
  next h =>
    rw [hjsp] at h
    exact ⟨hhalt, rfl, by simp [hjsp, h]⟩

theorem State.skew_unstarted {s : State} {u : Nat} {x : Stream} (data scale : Nat) (h : (s.tower u).itemOf x = none) :
    s.skew u x.num x data scale = s.modTower u (Tower.skewMet x.num) := by
  unfold State.skew
  simp only [h]
  rfl

/-- Halting a layer operation's streams leaves a stream that has halted. -/
theorem State.haltStreams_halted {s : State} {u num : Nat} {x : Stream} (op : LayerOp) (slot : Nat) (hu : u < s.towers.length)
    (hx : (s.tower u).stream num = some x) (hh : x.halted = true) :
    ((s.haltStreams u op slot).tower u).stream num = some x ∧ ((s.haltStreams u op slot).tower u).jsp = (s.tower u).jsp := by
  have hnum (y : Stream) : (s.haltIf (s.tower u) op slot y).num = y.num := by
    unfold State.haltIf
    split
    · split <;> rfl
    · rfl
  have hfix : s.haltIf (s.tower u) op slot x = x := by
    unfold State.haltIf
    split
    · split
      · rw [← hh]
      · rfl
    · rfl
  rw [State.haltStreams, State.tower_modTower_same _ _ hu]
  exact ⟨Tower.stream_map_keeps _ hnum hx hfix, rfl⟩

/-- The two numbers in the body of SCALE_SKEW. -/
theorem skewFields (layer mb u desc data scale n : Nat) :
    fieldLe (packFields [(2, layer), (1, mb), (2, u), (4, desc), (1, data), (1, scale), (1, n)] []) 12 1 = data % 256
      ∧ fieldLe (packFields [(2, layer), (1, mb), (2, u), (4, desc), (1, data), (1, scale), (1, n)] []) 13 1 = scale % 256 := by
  constructor <;> simp [packFields, toLe, roundUp, ceilDiv, fieldLe, sliceB, ofLe]

end Sys2Proof.Machine
end

section
/-!
O48. Jasper lands responses and far-end gathers, meets skew and bus errors, and takes the acknowledgements of writes (R151, R152, R189 to R191,
R199, R427).
-/
namespace Sys2Proof.Machine

open Sys2Proof

/-! ### A skew of a started item -/

/-- What a skew of a started item leaves, with its event (R151, R152, R189). -/
structure State.Skewed (s : State) (u i : Nat) (x : Stream) (op : LayerOp) (data scale : Nat) (t : State) (e : EvRec) : Prop where
  frame : Frame [.towers, .steps, .evt] s t
  stream : (t.tower u).stream x.num = some { x with halted := true }
  bytes : (t.tower u).jsp.rdBytes = (s.tower u).jsp.rdBytes
  count : (t.tower u).jsp.skew = (s.tower u).jsp.skew + (if (s.tower u).jsp.freeze then 0 else 1)
  want : ((t.steps[i]?).bind fun p => (p.layerProg op).map LayerProg.want) = some 1
  ring : t.evt.ring = s.evt.ring ++ [e]
  code : e.code = 0x0105
  dataNo : fieldLe e.body 12 1 = data % 256
  scaleNo : fieldLe e.body 13 1 = scale % 256

/-- The tower has met a skew, and the streams of the layer operation halt (Table 5.8). -/
def State.skewHalted (s : State) (u num : Nat) (op : LayerOp) (slot : Nat) : State :=
  (s.modTower u (Tower.skewMet num)).haltStreams u op slot

theorem State.skewHalted_frame (s : State) (u num : Nat) (op : LayerOp) (slot : Nat) : Frame [.towers] s (s.skewHalted u num op slot) :=
  Frame.trans (s.modTower_frame _ u) (State.modTower_frame _ _ u) (by simp) (by simp)

theorem State.skewHalted_tower {s : State} {u : Nat} {x : Stream} (op : LayerOp) (slot : Nat) (hu : u < s.towers.length)
    (hx : (s.tower u).stream x.num = some x) :
    ((s.skewHalted u x.num op slot).tower u).stream x.num = some { x with halted := true }
      ∧ ((s.skewHalted u x.num op slot).tower u).jsp.rdBytes = (s.tower u).jsp.rdBytes
      ∧ ((s.skewHalted u x.num op slot).tower u).jsp.skew = (s.tower u).jsp.skew + (if (s.tower u).jsp.freeze then 0 else 1) := by
  obtain ⟨hstream, hbytes, hcount⟩ := Tower.skewMet_spec hx
  rw [← s.tower_modTower_same (Tower.skewMet x.num) hu] at hstream hbytes hcount
  obtain ⟨hhalt, hjsp⟩ := State.haltStreams_halted op slot (by rwa [State.towers_modTower_length]) hstream rfl
  rw [State.skewHalted, hjsp]
  exact ⟨hhalt, hbytes, hcount⟩

/-- A repeat of a layer operation is wanted after a skew (R152). -/
def State.wantRepeat (s : State) (i : Nat) (op : LayerOp) : State := s.modStep i fun p => p.modLayer op fun q => { q with want := 1 }

theorem State.want_wantRepeat {s : State} {i : Nat} {op : LayerOp} {lp : LayerProg}
    (hlp : ((s.steps[i]?).bind fun p => p.layerProg op) = some lp) :
    (((s.wantRepeat i op).steps[i]?).bind fun p => (p.layerProg op).map LayerProg.want) = some 1 := by
  obtain ⟨p, hp, hop⟩ := Option.bind_eq_some_iff.mp hlp
  rw [State.wantRepeat, State.steps_modStep_getElem?_same _ hp, Option.bind_some]
  exact Step.map_layerProg_modLayer _ _ (by simp [hop]) (fun _ => rfl) fun _ => rfl

/-- The first skew of an attempt (R152). -/
theorem State.repeatOnce_first {s : State} {i : Nat} {op : LayerOp} {lp : LayerProg} (status : Nat)
    (hlp : ((s.steps[i]?).bind fun p => p.layerProg op) = some lp) (hw : lp.want = 0) (hr : lp.retried = false) :
    s.repeatOnce i op status = (some 1, s.wantRepeat i op) := by
  simp [State.repeatOnce, hlp, hw, hr, State.wantRepeat]

theorem State.skew_first {s : State} {u i : Nat} {x : Stream} {it : Item} {op : LayerOp} {lp : LayerProg} (data scale : Nat)
    (hit : (s.tower u).itemOf x = some it) (hop : s.opOf it = some op) (hi : s.stepOf it = some i)
    (hlp : ((s.steps[i]?).bind fun p => p.layerProg op) = some lp) (hw : lp.want = 0) (hr : lp.retried = false) :
    s.skew u x.num x data scale = ((s.skewHalted u x.num op it.slot).wantRepeat i op).event ⟨it.slot, BitVec.ofNat 64 it.step, u⟩ 0x0105
      [(2, op.layer), (1, op.mb), (2, u), (4, x.desc), (1, data), (1, scale), (1, 1)] := by
  have hfirst := State.repeatOnce_first (s := s.skewHalted u x.num op it.slot) stSCALE_SKEW hlp hw hr
  unfold State.skewHalted Tower.skewMet at hfirst ⊢
  unfold State.skew
  simp only [hit, hop, hi, hfirst]

theorem State.skew_started {s : State} {u i : Nat} {x : Stream} {it : Item} {op : LayerOp} {lp : LayerProg} (data scale : Nat)
    (hu : u < s.towers.length) (hx : (s.tower u).stream x.num = some x) (hit : (s.tower u).itemOf x = some it) (hop : s.opOf it = some op)
    (hi : s.stepOf it = some i) (hlp : ((s.steps[i]?).bind fun p => p.layerProg op) = some lp) (hw : lp.want = 0)
    (hr : lp.retried = false) (hen : s.evt.en = true) (hb : s.power.berylStop = false) :
    ∃ e, s.Skewed u i x op data scale (s.skew u x.num x data scale) e := by
  have hs0 := s.skewHalted_frame u x.num op it.slot
  obtain ⟨hstream, hbytes, hcount⟩ := State.skewHalted_tower op it.slot hu hx
  rw [State.skew_first data scale hit hop hi hlp hw hr]
  have hs1 := State.modStep_frame (s.skewHalted u x.num op it.slot) i fun p => p.modLayer op fun q => { q with want := 1 }
  have hwant := State.want_wantRepeat (s := s.skewHalted u x.num op it.slot) hlp
  change Frame _ _ (State.wantRepeat _ i op) at hs1
  generalize s.skewHalted u x.num op it.slot = s0 at *
  have hsum := Frame.trans (k := [.towers, .steps]) hs0 hs1 (by simp) (by simp)
  rw [← hs1.tower_eq] at hstream hbytes hcount
  generalize s0.wantRepeat i op = s1 at *
  have hevt := s1.event_frame ⟨it.slot, BitVec.ofNat 64 it.step, u⟩ 0x0105
    [(2, op.layer), (1, op.mb), (2, u), (4, x.desc), (1, data), (1, scale), (1, 1)]
  obtain ⟨hdata, hscale⟩ := skewFields op.layer op.mb u x.desc data scale 1
  rw [← hevt.tower_eq] at hstream hbytes hcount
  rw [← hevt.steps_eq] at hwant
  have hring := congrArg (fun t => t.evt.ring) (s1.event_en ⟨it.slot, BitVec.ofNat 64 it.step, u⟩ 0x0105
    [(2, op.layer), (1, op.mb), (2, u), (4, x.desc), (1, data), (1, scale), (1, 1)] (by rw [hsum.power_eq]; exact hb)
    (by rw [hsum.evt_eq]; exact hen))
  have hold : s1.evt.ring = s.evt.ring := by rw [hsum.evt_eq]
  exact ⟨_, Frame.trans hsum hevt (by simp) (by simp), hstream, hbytes, hcount, hwant, hring.trans (congrArg (· ++ _) hold), rfl, hdata, hscale⟩

/-! ### Answers to a stream -/

section
variable {s : State} {u : Nat} {x : Stream} {q : OutReq} (hu : u < s.towers.length) (hin : (s.tower u).inService = true)
  (hx : (s.tower u).stream x.num = some x) (hh : x.halted = false) (he : q.epoch = (s.tower u).epoch)
  (hto : s.routeUp (.tower u) (q.req.port s.mem u) = true) (hback : s.routeUp (q.req.port s.mem u) (.tower u) = true)

section
variable (hq : x.sent.find? (fun z => z.slot == q.slot && z.epoch == q.epoch) = some q)

include hx hq in
theorem Tower.awaits_sent : (s.tower u).awaits x.num q.slot q.epoch = some (x, q) := by
  simp [Tower.awaits, hx, hq]

include hu hin hx he hto hback hq

/-- What comes back of a direct read whose extent reads without an error acts on the stream behind the window (R189). -/
theorem State.jasperResponse_whole (hk : x.kind ≠ 5) (seq : Nat) (flips : List (Nat × Byte)) (hp : q.req.pieces = []) (hl : 0 < q.req.len)
    (hr : s.mem.touchesRetired q.req.addr q.req.len = false) :
    ∃ t, s.jasperResponse u ⟨x.num, q.slot, q.epoch, seq, flips, [], none⟩ = t.landRead u x q seq q.req.len flips ∧ s.ActsAt u t
      ∧ (s.tower u).WindowOnly (t.tower u) := by
  obtain ⟨bs, hread, -⟩ := s.readDev_tower (req := rqJasper) rfl (s.streamStep u x) hr hl
  obtain ⟨t, ht, hacts, hwin⟩ := State.answered_own bs (fun t => match (t.tower u).stream x.num with
    | some x => t.landRead u x q seq q.req.len flips
    | none => t) hu hback he hin
  refine ⟨t, ?_, hacts, hwin⟩
  have hstream : (t.tower u).stream x.num = some x := by rw [hwin.stream, hx]
  simp only [hstream] at ht
  rw [← ht]
  unfold State.jasperResponse
  simp only [Tower.awaits_sent hx hq, hread, hto, hp]
  simp [hk] <;> rfl

/-- A far-end gather whose pieces read without an error lands whole (R199). -/
theorem State.farEnd_whole (seq : Nat) (flips : List (Nat × Byte)) (hp : q.req.pieces ≠ [])
    (hr : ∀ p ∈ q.req.pieces, 0 < p.2 ∧ s.mem.touchesRetired p.1 p.2 = false) :
    ∃ t, s.farEnd u x.num q.slot ⟨q.epoch, seq, flips, []⟩ = t.landRead u x q seq (q.req.pieces.map Prod.snd).sum flips ∧ s.ActsAt u t
      ∧ (s.tower u).WindowOnly (t.tower u) := by
  obtain ⟨bs, hread, hlen⟩ := s.readPieces_whole (s.streamStep u x) hr []
  obtain ⟨t, ht, hacts, hwin⟩ := State.answered_own bs (fun t => t.landRead u x q seq bs.length flips) hu hback he hin
  refine ⟨t, ?_, hacts, hwin⟩
  rw [show (q.req.pieces.map Prod.snd).sum = bs.length by simpa using hlen.symm, ← ht]
  unfold State.farEnd
  simp only [Tower.awaits_sent hx hq, hread, hto]
  simp [hp]

include hh

/-- An uncorrectable read halts the stream and fails the step with BUS_ERROR (R191). -/
theorem State.jasperResponse_uncorrectable (hk : x.kind ≠ 5) (seq : Nat) (flips : List (Nat × Byte)) (errs : List BeatErr)
    {it : Item} {op : LayerOp} {i : Nat} {p : Step} (hp : q.req.pieces = []) (hread : (s.readDev rqJasper (s.streamStep u x) errs q.req.addr q.req.len).1 = none)
    (hit : (s.tower u).itemOf x = some it) (hop : s.opOf it = some op) (hi : s.stepOf it = some i) (hst : s.steps[i]? = some p)
    (hd : p.decided = none) (hrun : p.ended = .running) :
    ∃ p1 : Step, (s.jasperResponse u ⟨x.num, q.slot, q.epoch, seq, flips, errs, none⟩).steps[i]? = some { p1 with ended := .failed stBUS_ERROR }
      ∧ p1.unmarked = p.unmarked := by
  have hreads := (s.readDev_reads rqJasper (s.streamStep u x) errs q.req.addr q.req.len).frame
  rcases hs1 : s.readDev rqJasper (s.streamStep u x) errs q.req.addr q.req.len with ⟨o, s1⟩
  rw [hs1] at hread hreads
  dsimp only at hread hreads
  subst hread
  obtain ⟨t, ht, hacts, hwin⟩ := State.answered_own (s := s1) (epoch := q.epoch) [] (fun t => if x.halted then t else t.jasperBusError u x.num x)
    (by rwa [hreads.towers_eq]) ((hreads.routeUp_eq _ _).trans hback) (by rwa [hreads.tower_eq]) (by rwa [hreads.tower_eq])
  rw [hreads.tower_eq] at hwin
  have hresp : s.jasperResponse u ⟨x.num, q.slot, q.epoch, seq, flips, errs, none⟩ = t.jasperBusError u x.num x := by
    simp only [hh, Bool.false_eq_true, if_false] at ht
    rw [← ht]
    unfold State.jasperResponse
    simp only [Tower.awaits_sent hx hq, hs1, hto, hp, hh]
    simp [hk]
  have hst' : t.steps[i]? = some p := by rw [hacts.frame.steps_eq, hreads.steps_eq, hst]
  have hhalt := t.modTower_frame (fun y => y.modStream x.num fun z => { z with halted := true }) u
  rw [← hhalt.steps_eq] at hst'
  obtain ⟨p1, hp1, hmarks⟩ := (State.noteOnce_agrees _ i op 0x0101 fun a b => keyLe a.pos b.pos).1.get hst'
  have hp1eq := Step.eq_of_unmarked hmarks
  refine ⟨p1, ?_, hmarks⟩
  have hbus : t.jasperBusError u x.num x
      = ((t.modTower u fun y => y.modStream x.num fun z => { z with halted := true }).noteRange i op).failStep i stBUS_ERROR := by
    unfold State.jasperBusError
    simp only [hwin.itemOf, hit, hacts.frame.opOf_eq, hreads.opOf_eq, hop, hacts.frame.stepOf_eq, hreads.stepOf_eq, hi]
  rw [hresp, hbus]
  exact State.failStep_steps stBUS_ERROR hp1 (by rw [hp1eq]; exact hd) (by rw [hp1eq]; exact hrun)

end

/-! ### Acknowledged writes -/

theorem State.writeFor_frame (s : State) (it : Item) (d addr len : Nat) : Frame [.mem, .out, .freeCtr] s (s.writeFor it d addr len) := by
  unfold State.writeFor
  split
  · exact Frame.refl _ _
  · split
    · exact Frame.refl _ _
    · refine Frame.foldl (fun s e => ?_) _ s
      split
      · exact Frame.refl _ _
      · exact s.writeDev_frame e.1 e.2

/-- What the write behind a request takes to device memory before it is acknowledged (R190). -/
def State.written (s : State) (u : Nat) (x : Stream) (q : OutReq) : State :=
  ((s.tower u).itemOf x).elim s fun it => s.writeFor it x.desc q.req.addr q.req.len

theorem State.written_frame (s : State) (u : Nat) (x : Stream) (q : OutReq) : Frame [.mem, .out, .freeCtr] s (s.written u x q) := by
  unfold State.written
  rcases (s.tower u).itemOf x with _ | it
  · exact Frame.refl _ _
  · exact s.writeFor_frame it _ _ _

/-- The tower behind an acknowledgement: the write is no longer outstanding, and its bytes count unless the counters are frozen (R190, R205). -/
def Tower.acked (num : Nat) (q : OutReq) (z : Tower) : Tower :=
  let z := z.modStream num fun w => { w with sent := w.sent.filter fun y => y.slot != q.slot }
  if z.jsp.freeze then z else { z with jsp := { z.jsp with wrBytes := z.jsp.wrBytes.add q.req.bytes } }

theorem Tower.acked_spec {t : Tower} {x : Stream} (q : OutReq) (hx : t.stream x.num = some x) :
    (t.acked x.num q).stream x.num = some { x with sent := x.sent.filter fun z => z.slot ≠ q.slot }
      ∧ (t.acked x.num q).jsp.wrBytes.v = t.jsp.wrBytes.v + (if t.jsp.freeze then 0 else BitVec.ofNat 64 q.req.bytes) := by
  have hne : (fun z : OutReq => z.slot != q.slot) = fun z => decide (z.slot ≠ q.slot) := by
    funext z
    by_cases h : z.slot = q.slot <;> simp [h]
  have hsent : (t.modStream x.num fun w => { w with sent := w.sent.filter fun y => y.slot != q.slot }).stream x.num
      = some { x with sent := x.sent.filter fun z => z.slot ≠ q.slot } := by
    rw [Tower.stream_modStream _ _ (f := fun w => { w with sent := w.sent.filter fun y => y.slot != q.slot }) fun _ => rfl, hx,
      Option.map_some, hne]
  have hjsp : (t.modStream x.num fun w => { w with sent := w.sent.filter fun y => y.slot != q.slot }).jsp = t.jsp := rfl
  unfold Tower.acked
  dsimp only
  rw [hjsp]
  split
  · exact ⟨hsent, by simp [hjsp]⟩
  · exact ⟨hsent, rfl⟩

section
variable (hk : x.kind = 5) (hq : x.sent.find? (fun z => z.slot == q.slot) = some q)
include hx hk hq

theorem State.writeAck_eq : s.writeAck u x.num q.slot = if !(s.written u x q).mem.settled q.req.addr q.req.len then s.written u x q
    else (s.written u x q).answered u (q.req.port s.mem u) q.epoch [] fun t => (t.modTower u (Tower.acked x.num q)).issueAll u := by
  unfold State.writeAck State.written Tower.acked
  simp only [hx, Option.bind_some, hq, Option.map_some, hk]
  rcases (s.tower u).itemOf x with _ | it <;> rfl

theorem State.writeAck_waits (h : (s.written u x q).mem.settled q.req.addr q.req.len = false) :
    s.writeAck u x.num q.slot = s.written u x q := by
  rw [State.writeAck_eq hx hk hq, if_pos (by simp [h])]

include hu hin he hback

/-- A write that stands in device memory is acknowledged, and Jasper goes on (R190). -/
theorem State.writeAck_acks (h : (s.written u x q).mem.settled q.req.addr q.req.len = true) :
    ∃ s2, s.writeAck u x.num q.slot = s2.issueAll u ∧ (s.written u x q).ActsAt u s2
      ∧ (s2.tower u).stream x.num = some { x with sent := x.sent.filter fun z => z.slot ≠ q.slot }
      ∧ (s2.tower u).jsp.wrBytes.v = (s.tower u).jsp.wrBytes.v + (if (s.tower u).jsp.freeze then 0 else BitVec.ofNat 64 q.req.bytes) := by
  have hw := s.written_frame u x q
  obtain ⟨t, ht, hacts, hwin⟩ := State.answered_own (s := s.written u x q) (epoch := q.epoch) []
    (fun t => (t.modTower u (Tower.acked x.num q)).issueAll u) (by rwa [hw.towers_eq]) ((hw.routeUp_eq _ _).trans hback) (by rwa [hw.tower_eq]) (by rwa [hw.tower_eq])
  rw [hw.tower_eq] at hwin
  obtain ⟨hstream, hbytes⟩ := Tower.acked_spec q (hwin.stream x.num ▸ hx)
  rw [hwin.jsp] at hbytes
  have htower := t.tower_modTower_same (Tower.acked x.num q) (by rw [hacts.length, hw.towers_eq]; exact hu)
  refine ⟨t.modTower u (Tower.acked x.num q), ?_, hacts.trans (t.modTower_actsAt u _), by rw [htower, hstream], by rw [htower, hbytes]⟩
  rw [State.writeAck_eq hx hk hq, if_neg (by simp [h]), ht]

end

end

/-! ### The obligation -/

/-- The number that was due is taken. -/
theorem State.landRead_due (s : State) (u : Nat) {x : Stream} (q : OutReq) (n : Nat) (flips : List (Nat × Byte)) (hh : x.halted = false) :
    s.landRead u x q (q.req.block % 64) n flips = s.land u x.num q.slot n flips := by
  simp [State.landRead, hh]

/-- Another number is a skew, of the data or of the scale (R189). -/
theorem State.landRead_skew (s : State) (u : Nat) {x : Stream} (q : OutReq) {seq : Nat} (n : Nat) (flips : List (Nat × Byte))
    (hh : x.halted = false) (hseq : seq ≠ q.req.block % 64) : s.landRead u x q seq n flips
      = if q.req.sub = 0 then s.skew u x.num x seq (q.req.block % 64) else s.skew u x.num x (q.req.block % 64) seq := by
  simp [State.landRead, hh, hseq]

/-- Settles O48: each answer is brought to the stream behind the window of its tower, whose other parts and every other tower it leaves; there it
lands and is packed, meets a skew, fails the step, or frees the write that its tag names. -/
theorem jasperServesStreams : Obligations.JasperServesStreams := by
  intro s u x q hpow hu hlen hin hx hh he hto hback here count due
  have hul : u < s.towers.length := by omega
  refine ⟨fun hk hq => ⟨?_, ?_, ?_⟩, ?_, ?_⟩
  · intro flips y hpacks lands
    have hlands (n : Nat) (i : Instr) (t : State) (hexec : exec i s = .next (t.landRead u x q due n flips)) (hacts : s.ActsAt u t)
        (hwin : (s.tower u).WindowOnly (t.tower u)) : lands n i := by
      obtain ⟨s2, hland, hacts2, hy, hjsp⟩ := State.land_packs (n := n) (by rwa [hacts.length]) (hwin.stream x.num ▸ hx) hh hpacks
      obtain ⟨hbytes, hskew⟩ := (t.tower u).landed_jsp n
      have hall := hacts.trans hacts2
      refine ⟨s2, ?_, hall.frame, fun k _ hne => hall.others k hne, hy, ?_, ?_⟩
      · rw [hexec, t.landRead_due u q n flips hh, hland]
      · rw [hjsp, hbytes, hwin.jsp]
      · rw [hjsp, hskew, hwin.jsp]
    refine ⟨fun hp hl hr => ?_, fun hp hr => ?_⟩
    · obtain ⟨t, ht, hacts, hwin⟩ := State.jasperResponse_whole hul hin hx he hto hback hq hk due flips hp hl hr
      exact hlands _ _ t (by simp [exec, execJasperResponse, State.whenOn, hpow, ht]) hacts hwin
    · obtain ⟨t, ht, hacts, hwin⟩ := State.farEnd_whole hul hin hx he hto hback hq due flips hp hr
      exact hlands _ _ t (by simp [exec, execFarEndGather, State.whenOn, hpow, ht]) hacts hwin
  · intro seq flips hp hl hr hseq r skewed
    obtain ⟨t, ht, hacts, hwin⟩ := State.jasperResponse_whole hul hin hx he hto hback hq hk seq flips hp hl hr
    have hstream : (t.tower u).stream x.num = some x := by rw [hwin.stream, hx]
    have hut : u < t.towers.length := by rwa [hacts.length]
    have hexec : exec (.jasperResponse u r) s = .next (if q.req.sub = 0 then t.skew u x.num x seq due else t.skew u x.num x due seq) := by
      simp [exec, execJasperResponse, State.whenOn, hpow, r, ht, t.landRead_skew u q q.req.len flips hh hseq, due]
    refine ⟨fun hit => ?_, fun it op i lp hit hop hi hlp hw hret hen hb => ?_⟩
    · obtain ⟨hhalt, hbytes, hcount⟩ := Tower.skewMet_spec hstream
      have htower := t.tower_modTower_same (Tower.skewMet x.num) hut
      have hall := hacts.trans (t.modTower_actsAt u (Tower.skewMet x.num))
      have hitem : (t.tower u).itemOf x = none := by rw [hwin.itemOf, hit]
      refine ⟨t.modTower u (Tower.skewMet x.num), ?_, hall.frame, fun k _ hne => hall.others k hne, ?_, ?_, ?_⟩
      · rw [hexec, State.skew_unstarted _ _ hitem, State.skew_unstarted _ _ hitem, ite_self]
      · rw [htower, hhalt]
      · rw [htower, hbytes, hwin.jsp]
      · rw [htower, hcount, hwin.jsp]
    · have hdue : due % 256 = due := by omega
      have hskew (data scale : Nat) := State.skew_started data scale hut hstream (by rw [hwin.itemOf, hit]) (by rw [hacts.frame.opOf_eq, hop])
        (by rw [hacts.frame.stepOf_eq, hi]) (by rw [hacts.frame.steps_eq, hlp]) hw hret (by rw [hacts.frame.evt_eq, hen])
        (by rw [hacts.frame.power_eq, hb])
      have hleaves {data scale : Nat} {w : State} {e : EvRec} (h : t.Skewed u i x op data scale w e) : Frame [.towers, .steps, .evt] s w
          ∧ skewed w ∧ ((w.steps[i]?).bind fun p => (p.layerProg op).map LayerProg.want) = some 1 ∧ w.evt.ring = s.evt.ring ++ [e] := by
        refine ⟨Frame.trans hacts.frame h.frame (by simp) fun _ h => h, ⟨h.stream, ?_, ?_⟩, h.want, ?_⟩
        · rw [h.bytes, hwin.jsp]
        · rw [h.count, hwin.jsp]
        · rw [h.ring, hacts.frame.evt_eq]
      by_cases hsub : q.req.sub = 0
      · obtain ⟨e, h⟩ := hskew seq due
        obtain ⟨hframe, hsk, hwant, hring⟩ := hleaves h
        exact ⟨_, e, by rw [hexec, if_pos hsub], hframe, hsk, hwant, hring, h.code, by
          rw [if_pos hsub]
          exact ⟨h.dataNo, h.scaleNo.trans hdue⟩⟩
      · obtain ⟨e, h⟩ := hskew due seq
        obtain ⟨hframe, hsk, hwant, hring⟩ := hleaves h
        exact ⟨_, e, by rw [hexec, if_neg hsub], hframe, hsk, hwant, hring, h.code, by
          rw [if_neg hsub]
          exact ⟨h.dataNo.trans hdue, h.scaleNo⟩⟩
  · intro seq flips errs it op i p hp hread hit hop hi hst hd hrun
    obtain ⟨p1, hp1, hmarks⟩ := State.jasperResponse_uncorrectable hul hin hx hh he hto hback hq hk seq flips errs hp hread hit hop hi hst hd hrun
    exact ⟨_, p1, by simp only [exec, execJasperResponse, State.whenOn, hpow, if_true], hp1, congrArg Step.notes hmarks,
      Step.eq_of_unmarked hmarks⟩
  · intro r hr hnone
    refine ⟨_, ?_, rfl⟩
    simp [exec, execJasperResponse, State.whenOn, hpow, State.jasperResponse, hnone, hr]
  · intro hk hq w
    have hw : w = s.written u x q := by
      simp only [w, State.written]
      rcases (s.tower u).itemOf x with _ | it <;> rfl
    rw [hw]
    refine ⟨fun h => ?_, fun h => ?_⟩
    · simp [exec, execWriteAck, State.whenOn, hpow, State.writeAck_waits hx hk hq h]
    · obtain ⟨s2, heq, hacts, hstream, hbytes⟩ := State.writeAck_acks hul hin hx he hback hk hq h
      refine ⟨s2, by simp [exec, execWriteAck, State.whenOn, hpow, heq], hacts.frame, fun k _ hne => ?_, hstream, hbytes⟩
      rw [hacts.others k hne, (s.written_frame u x q).tower_eq]

end Sys2Proof.Machine
end

section
/-!
O18. PLACE_HINT, SET_STEP_SIZE and ABORT_STEP (R74, R75, R227, R240, R363, R374, Table 14.9).
-/
namespace Sys2Proof.Machine

open Sys2Proof

/-! ### Commands that only their payload refuses -/

/-- A submission as Beryl takes it. -/
abbrev asked (c : Sub) (op : Nat) : Ask := ⟨op, c.mbx, c.mbx, c.payload.length, c.payload, c.env⟩

/-- Before its payload nothing refuses a PLACE_HINT, a SET_STEP_SIZE or an ABORT_STEP of the right length in an open life-cycle state (R363). -/
theorem State.judge'_slotSetting {s : State} {c : Sub} {op : Nat} (ho : s.Open) (hf : c.payload.length ≤ 4064)
    (hop : op = 0x0108 ∨ op = 0x0203 ∨ op = 0x0204) (hlen : romLen op (fieldLe c.payload 2 1) = some c.payload.length) :
    (s.submitted c op).judge' (asked c op) = none := by
  have hrange : 0x0108 ≤ op ∧ op ≤ 0x0204 ∧ op ≠ 0x0201 ∧ op ≠ 0x0202 := by omega
  have hstage : (s.submitted c op).stage1 (asked c op) = none := by
    simp only [State.stage1, hlen]
    rw [if_neg (by omega), if_neg (by omega)]
  have hadv : (s.submitted c op).keep.advanced = false := ho.stays
  have hst : (s.submitted c op).fuses.state ≠ 4 := ho.state
  have hlocked : (s.submitted c op).locked (asked c op) = false := by
    rcases hop with rfl | rfl | rfl <;> simp [State.locked, hadv, hst]
  have hbusy : (s.submitted c op).busy (asked c op) = false := by
    rcases hop with rfl | rfl | rfl <;> simp [State.busy, State.meets, loadsSlot, savesSlot, isExt]
  simp [State.judge', hstage, hlocked, hbusy, hrange]

/-- A command whose body completes it at once answers, and leaves everything else as it was. -/
theorem State.command_unchanged {s : State} {c : Sub} {op : Nat} {i : Instr} {status : Nat} {data : List Byte}
    (hi : exec i s = .next (s.command c op)) (h : s.Takes c) (ho : op < 0x0F00) (hj : (s.submitted c op).judge' (asked c op) = none)
    (hb : State.romBody (asked c op) ((s.submitted c op).writingFor c.mbx)
      = ((s.submitted c op).writingFor c.mbx).complete c.mbx status data) :
    ∃ t, exec i s = .next t ∧ s.Answers c status data [] t :=
  ⟨_, State.command_answers hi h ho hj hb rfl h.settled (Frame.refl _ _)⟩

/-- A command whose body sets a program slot and completes with OK. -/
theorem State.command_setsSlot {s : State} {c : Sub} {op : Nat} {i : Instr} {n : Nat} {f : Slot → Slot}
    (hi : exec i s = .next (s.command c op)) (h : s.Takes c) (ho : op < 0x0F00) (hj : (s.submitted c op).judge' (asked c op) = none)
    (hn : n < s.slots.length) (hb : State.romBody (asked c op) ((s.submitted c op).writingFor c.mbx)
      = (((s.submitted c op).writingFor c.mbx).modSlot n f).complete c.mbx stOK []) :
    ∃ t, exec i s = .next t ∧ s.Answers c 0 [] [.slots] t ∧ t.slot n = f (s.slot n) ∧ ∀ k, k ≠ n → t.slots[k]? = s.slots[k]? := by
  obtain ⟨hexec, hans⟩ := State.command_answers hi h ho hj hb rfl h.settled (State.modSlot_frame _ n f)
  have hslots := (State.deliver_frame ((((s.submitted c op).writingFor c.mbx).modSlot n f).writingFor s.mem.writer) c.mbx stOK []).slots_eq
  refine ⟨_, hexec, hans, ?_, fun k hk => ?_⟩
  · rw [State.slot, hslots]
    exact s.slot_modSlot_same f hn
  · rw [hslots]
    exact s.slots_modSlot_getElem?_other f hk

/-! ### The step of a slot -/

/-- The step before its decision, where it is one of the slot. -/
def State.earlyOf (s : State) (n : Nat) : Option (Nat × Nat) :=
  (s.earlyIdx.bind fun i => (s.steps[i]?).map fun p => (i, p.slot)).filter fun q => q.2 == n

theorem State.earlyOf_eq_some {s : State} {n i : Nat} {p : Step} (hi : s.earlyIdx = some i) (hp : s.steps[i]? = some p) (hs : p.slot = n) :
    s.earlyOf n = some (i, n) := by
  simp [State.earlyOf, hi, hp, hs]

theorem State.earlyOf_eq_none {s : State} {n : Nat} (h : ∀ i p, s.earlyIdx = some i → s.steps[i]? = some p → p.slot ≠ n) :
    s.earlyOf n = none := by
  unfold State.earlyOf
  rcases hi : s.earlyIdx with _ | i
  · rfl
  · rcases hp : s.steps[i]? with _ | p
    · simp [hp]
    · simp [hp, h i p hi hp]

theorem State.slotRunning_of_step {s : State} {i : Nat} {p : Step} (hp : s.steps[i]? = some p) : s.slotRunning p.slot = true :=
  List.any_eq_true.mpr ⟨p, List.mem_of_getElem? hp, by simp⟩

/-- A slot without a step in flight has none before its decision. -/
theorem State.earlyOf_idle {s : State} {n : Nat} (h : s.slotRunning n = false) : s.earlyOf n = none := by
  refine State.earlyOf_eq_none fun i p _ hp hs => ?_
  rw [← hs, State.slotRunning_of_step hp] at h
  cases h

/-- ABORT_STEP by what it finds in flight: a step past its decision, a payload out of form, a step that fails, or none (R227, R363). -/
theorem cmdAbortStep_eq (x : Cmd) (s : State) : cmdAbortStep x s =
    if (s.earlyOf (fieldLe x.payload 0 1)).isNone && s.slotRunning (fieldLe x.payload 0 1) then s.refuse x stBUSY 0
    else if fieldLe x.payload 0 1 > 3 ∨ ¬ zeroAt x.payload 1 3 then s.refuse x stBAD_PARAM 0
    else match s.earlyOf (fieldLe x.payload 0 1) with
      | some q => (s.failStep q.1 stABORTED).done x []
      | none => s.done x [] := rfl

/-- The step before its decision fails where it still runs, and its items leave the towers; the other steps stand (R224, R227). -/
theorem State.failStep_fails {s : State} {i : Nat} {p : Step} (status : Nat) (hi : s.earlyIdx = some i) (hp : s.steps[i]? = some p) :
    (s.failStep i status).steps[i]? = some { p with ended := if p.ended = .running then .failed status else p.ended }
      ∧ (∀ k, k ≠ i → (s.failStep i status).steps[k]? = s.steps[k]?)
      ∧ ∀ x ∈ (s.failStep i status).towers, ∀ it ∈ x.queue, ¬ (it.slot = p.slot ∧ it.step = p.number.toNat) := by
  have hd := State.earlyIdx_undecided hi hp
  have hmod : s.modStep i (fun q => match q.ended with | .running => { q with ended := .failed status } | .failed _ => q)
      = s.modStep i fun _ => { p with ended := if p.ended = .running then .failed status else p.ended } := by
    refine State.modStep_congr hp ?_
    split
    next he => simp [he]
    next he => rw [if_neg (by simp [he])]
  have heq : s.failStep i status = (s.modStep i fun _ =>
      { p with ended := if p.ended = .running then .failed status else p.ended }).dropItems fun it =>
        it.slot == p.slot && it.step == p.number.toNat := by
    unfold State.failStep
    rw [hp]
    dsimp only
    rw [if_neg (by simp [hd])]
    exact congrArg (State.dropItems · _) hmod
  rw [heq]
  refine ⟨State.steps_modStep_getElem?_same _ hp, fun k hk => s.steps_modStep_getElem?_other _ hk, fun x hx it hit h => ?_⟩
  have hkept := (State.mem_queue_dropItems hx hit).1
  simp [h] at hkept

/-! ### ABORT_STEP -/

section
variable {s : State} {c : Sub} (h : s.Takes c) (ho : s.Open) (hlen : c.payload.length = 4)
include h ho hlen

theorem State.judge'_abortStep : (s.submitted c 0x0204).judge' (asked c 0x0204) = none :=
  State.judge'_slotSetting ho h.fits (by decide) (by rw [hlen]; rfl)

/-- A slot whose step is past its decision is BUSY, whatever the payload (R227, R363, R374). -/
theorem exec_abortStep_busy (hr : s.slotRunning (fieldLe c.payload 0 1) = true)
    (he : ∀ i p, s.earlyIdx = some i → s.steps[i]? = some p → p.slot ≠ fieldLe c.payload 0 1) :
    ∃ t, exec (.abortStep c) s = .next t ∧ s.Answers c 0x0001 [] [] t := by
  refine State.command_unchanged rfl h (by decide) (State.judge'_abortStep h ho hlen) ((cmdAbortStep_eq _ _).trans (if_pos ?_))
  exact Bool.and_eq_true_iff.mpr ⟨Option.isNone_iff_eq_none.mpr (State.earlyOf_eq_none (s := s) he), hr⟩

section
variable (hr : s.slotRunning (fieldLe c.payload 0 1) = false)
include hr

/-- With no step of the slot in flight a payload out of form is BAD_PARAM (R374). -/
theorem exec_abortStep_badParam (hbad : 3 < fieldLe c.payload 0 1 ∨ zeroAt c.payload 1 3 = false) :
    ∃ t, exec (.abortStep c) s = .next t ∧ s.Answers c 0x0011 [] [] t := by
  have hidle : ((s.submitted c 0x0204).writingFor c.mbx).slotRunning (fieldLe c.payload 0 1) = false := hr
  refine State.command_unchanged rfl h (by decide) (State.judge'_abortStep h ho hlen) ((cmdAbortStep_eq _ _).trans
    ((if_neg (by simp [hidle])).trans (if_pos ?_)))
  simpa using hbad

/-- With no step of the slot in flight there is nothing to abort (R374). -/
theorem exec_abortStep_nothing (hn : fieldLe c.payload 0 1 ≤ 3) (hz : zeroAt c.payload 1 3 = true) :
    ∃ t, exec (.abortStep c) s = .next t ∧ s.Answers c 0 [] [] t := by
  have hnone : ((s.submitted c 0x0204).writingFor c.mbx).earlyOf (fieldLe c.payload 0 1) = none := State.earlyOf_idle (s := s) hr
  have hidle : ((s.submitted c 0x0204).writingFor c.mbx).slotRunning (fieldLe c.payload 0 1) = false := hr
  refine State.command_unchanged rfl h (by decide) (State.judge'_abortStep h ho hlen) ((cmdAbortStep_eq _ _).trans ?_)
  simp [hnone, hidle, hz, Nat.not_lt.mpr hn, State.done, stOK]

end

/-- The step of the slot before its decision fails with ABORTED (R227). -/
theorem exec_abortStep_aborts (hn : fieldLe c.payload 0 1 ≤ 3) (hz : zeroAt c.payload 1 3 = true) {i : Nat} {p : Step}
    (hi : s.earlyIdx = some i) (hp : s.steps[i]? = some p) (hs : p.slot = fieldLe c.payload 0 1) :
    ∃ t, exec (.abortStep c) s = .next t ∧ s.Answers c 0 [] [.steps, .towers] t
      ∧ t.steps[i]? = some { p with ended := if p.ended = .running then .failed 0x0103 else p.ended }
      ∧ (∀ k, k ≠ i → t.steps[k]? = s.steps[k]?)
      ∧ ∀ x ∈ t.towers, ∀ it ∈ x.queue, ¬ (it.slot = p.slot ∧ it.step = p.number.toNat) := by
  let a := (s.submitted c 0x0204).writingFor c.mbx
  have hsome : a.earlyOf (fieldLe c.payload 0 1) = some (i, fieldLe c.payload 0 1) := State.earlyOf_eq_some (s := s) hi hp hs
  have hfail := a.failStep_frame i stABORTED
  have hbody : State.romBody (asked c 0x0204) a = (a.failStep i stABORTED).complete c.mbx stOK [] := by
    refine (cmdAbortStep_eq _ _).trans ?_
    simp [hsome, hz, Nat.not_lt.mpr hn, State.done]
  have howes : (a.failStep i stABORTED).mem.owes c.mbx = false := by
    rw [hfail .mem (by simp)]
    exact h.settled
  obtain ⟨hexec, hans⟩ := State.command_answers (i := .abortStep c) rfl h (by decide)
    (State.judge'_abortStep h ho hlen) hbody hfail.mailboxes_eq howes hfail
  have hdel := ((a.failStep i stABORTED).writingFor s.mem.writer).deliver_frame c.mbx stOK []
  obtain ⟨hstep, hothers, hqueues⟩ := State.failStep_fails (s := a) stABORTED hi hp
  refine ⟨_, hexec, hans, ?_, fun k hk => ?_, fun x hx => hqueues x ?_⟩
  · rw [hdel.steps_eq]
    exact hstep
  · rw [hdel.steps_eq]
    exact hothers k hk
  · rw [hdel.towers_eq] at hx
    exact hx

end

/-! ### PLACE_HINT and SET_STEP_SIZE -/

section
variable {s : State} {c : Sub} {n : Nat} {p : Program} (h : s.Takes c) (ho : s.Open) (hslots : s.slots.length = 4) (hn : n < 4)
  (hf : fieldLe c.payload 0 1 = n) (hp : (s.slot n).prog = some p)
include h ho hslots hn hf hp

/-- PLACE_HINT stores what Table 14.9 makes of the hint, and refuses one that it does not allow (R74, R75). -/
theorem exec_placeHint (hlen : c.payload.length = 16) (hz : zeroAt c.payload 2 2 = true) :
    match applyHint p (s.slot n).hints (fieldLe c.payload 1 1) (fieldLe c.payload 4 4) (fieldLe c.payload 8 4) (fieldLe c.payload 12 4) with
    | some hs => ∃ t, exec (.placeHint c) s = .next t ∧ s.Answers c 0 [] [.slots] t
        ∧ t.slot n = { s.slot n with hints := hs, rebind := true } ∧ ∀ k, k ≠ n → t.slots[k]? = s.slots[k]?
    | none => ∃ t, exec (.placeHint c) s = .next t ∧ s.Answers c 0x0011 [] [] t := by
  have hj : (s.submitted c 0x0108).judge' (asked c 0x0108) = none :=
    State.judge'_slotSetting ho h.fits (by decide) (by rw [hlen]; rfl)
  let a := (s.submitted c 0x0108).writingFor c.mbx
  have hslot : a.slot n = s.slot n := rfl
  have hbody : State.romBody (asked c 0x0108) a = match applyHint p (s.slot n).hints (fieldLe c.payload 1 1) (fieldLe c.payload 4 4)
      (fieldLe c.payload 8 4) (fieldLe c.payload 12 4) with
    | none => a.complete c.mbx stBAD_PARAM []
    | some hs => (a.modSlot n fun y => { y with hints := hs, rebind := true }).complete c.mbx stOK [] := by
    change cmdPlaceHint _ a = _
    unfold cmdPlaceHint
    dsimp only
    rw [hf, if_neg (by simp [hz]; omega), hslot, hp]
    rfl
  split
  next hs hap =>
    rw [hap] at hbody
    exact State.command_setsSlot rfl h (by decide) hj (by omega) hbody
  next hap =>
    rw [hap] at hbody
    exact State.command_unchanged rfl h (by decide) hj hbody

/-- SET_STEP_SIZE stores an ETA that is finite and not negative, and refuses any other (R240, R374). -/
theorem exec_setStepSize (hlen : c.payload.length = 8) (hz : zeroAt c.payload 1 3 = true) :
    let eta : Word := BitVec.ofNat 32 (fieldLe c.payload 4 4)
    (f32nonneg eta = true → ∃ t, exec (.setStepSize c) s = .next t ∧ s.Answers c 0 [] [.slots] t
        ∧ t.slot n = { s.slot n with eta := some eta } ∧ ∀ k, k ≠ n → t.slots[k]? = s.slots[k]?)
      ∧ (f32nonneg eta = false → ∃ t, exec (.setStepSize c) s = .next t ∧ s.Answers c 0x0011 [] [] t) := by
  intro eta
  have hj : (s.submitted c 0x0203).judge' (asked c 0x0203) = none :=
    State.judge'_slotSetting ho h.fits (by decide) (by rw [hlen]; rfl)
  let a := (s.submitted c 0x0203).writingFor c.mbx
  have hslot : a.slot n = s.slot n := rfl
  have hbody : State.romBody (asked c 0x0203) a = if ¬ f32nonneg eta then a.complete c.mbx stBAD_PARAM []
      else (a.modSlot n fun y => { y with eta := some eta }).complete c.mbx stOK [] := by
    change cmdSetStepSize _ a = _
    have hle : ¬ n > 3 := by omega
    simp only [cmdSetStepSize, hf, hslot, hp, hz, hle, Option.isNone_some, not_true_eq_false, Bool.false_eq_true, false_or]
    rfl
  refine ⟨fun hfin => ?_, fun hfin => ?_⟩
  · exact State.command_setsSlot rfl h (by decide) hj (by omega) (hbody.trans (if_neg (by simp [hfin])))
  · exact State.command_unchanged rfl h (by decide) hj (hbody.trans (if_pos (by simp [hfin])))

end

/-! ### The obligation -/

/-- Settles O18: each command passes the judgement before its payload, so that its body alone decides between the answers. -/
theorem hintsStepSizesAborts : Obligations.HintsStepSizesAborts := by
  refine ⟨fun s c n p h ho hslots hn hf hp => ⟨exec_placeHint h ho hslots hn hf hp, exec_setStepSize h ho hslots hn hf hp⟩,
    fun s c n h ho hn hpay => ?_, fun s c h ho hlen => ⟨exec_abortStep_busy h ho hlen, exec_abortStep_badParam h ho hlen⟩⟩
  have hlen : c.payload.length = 4 := by rw [hpay]; rfl
  have hfield : fieldLe c.payload 0 1 = n := by
    rw [hpay]
    interval_cases n <;> rfl
  have hz : zeroAt c.payload 1 3 = true := by
    rw [hpay]
    rfl
  subst hfield
  refine ⟨fun hr => exec_abortStep_nothing h ho hlen hr (by omega) hz, fun i p hi hp hs => ?_, exec_abortStep_busy h ho hlen⟩
  rw [← hs]
  exact exec_abortStep_aborts h ho hlen (by omega) hz hi hp hs

end Sys2Proof.Machine
end

section
/-!
SUPPORT. What goes on in a step of its own accord (exchanges that are joined and finished, shards that land, gradients that are added) leaves its
stage: only the barrier, the last retirement, an abort and CHECK change it (R207, R215, R226).
-/
namespace Sys2Proof.Machine

open Sys2Proof

/-! ### Through a function of the step -/

section
variable {α β : Type} {i : Nat} {g : Step → α} {s t : State}

theorem State.StepsAgree.map (f : α → β) (h : State.StepsAgree i g s t) : State.StepsAgree i (fun p => f (g p)) s t := by
  refine ⟨h.1, ?_⟩
  have hmap := congrArg (Option.map f) h.2
  rwa [Option.map_map, Option.map_map] at hmap

theorem State.StepsAgree.ite {u : State} {c : Prop} [Decidable c] (ht : State.StepsAgree i g s t) (hu : State.StepsAgree i g s u) :
    State.StepsAgree i g s (if c then t else u) := by
  split
  · exact ht
  · exact hu

end

theorem State.StepsAgree.stage_of_bare {i : Nat} {s t : State} (h : State.StepsAgree i Step.bare s t) : s.StepsAgree i Step.stage t :=
  h.map Step.stage

theorem State.StepsAgree.stage_of_unmarked {i : Nat} {s t : State} (h : State.StepsAgree i Step.unmarked s t) : s.StepsAgree i Step.stage t :=
  h.map Step.stage

/-! ### What reaches device memory and the fabric -/

theorem State.writeTensor_frame (s : State) (x : Slot) (p : Program) (d : Desc) (half : Nat) (t : Tensor) (chan : List ChanEnt) :
    Frame [.mem, .out, .freeCtr] s (s.writeTensor x p d half t chan) := by
  have hpart (b : Bool) (u : State) (kind : PartKind) (id : Nat) (bs : List Byte) :
      Frame [.mem, .out, .freeCtr] u (if b then u.writePart x kind id half bs else u) := by
    split
    · exact u.writePart_frame x kind id half bs
    · exact Frame.refl _ _
  have hscales (u : State) : Frame [.mem, .out, .freeCtr] u (match p.desc d.scaleId with
      | some z => if t.fmt.b32 then u.writePart x .tensor z.id half (t.scaleBytes z d.bdim d.budget) else u
      | none => u) := by
    split
    · exact hpart _ u _ _ _
    · exact Frame.refl _ _
  have hsets (b : Bool) (u : State) : Frame [.mem, .out, .freeCtr] u (if b then u.writeSets x d.cset half chan else u) := by
    split
    · exact u.writeSets_frame x d.cset half chan
    · exact Frame.refl _ _
  unfold State.writeTensor
  exact Frame.trans (Frame.trans (Frame.trans (s.writePart_frame x _ _ _ _) (hscales _) (fun _ h => h) fun _ h => h)
    (hpart _ _ _ _ _) (fun _ h => h) fun _ h => h) (hsets _ _) (fun _ h => h) fun _ h => h

theorem State.storeOut_frame (s : State) (x : Slot) (p : Program) (o : OpRec) (mb : Nat) (w : Written) :
    Frame [.mem, .out, .freeCtr] s (s.storeOut x p o mb w) := by
  unfold State.storeOut
  split
  · split
    · exact Frame.refl _ _
    · exact s.writeTensor_frame x p _ _ _ _
  · exact Frame.refl _ _

theorem State.storeGrads_frame (s : State) (i : Nat) (ds : List Nat) (mb : Nat) : Frame [.mem, .out, .freeCtr] s (s.storeGrads i ds mb) := by
  unfold State.storeGrads
  split
  · exact Frame.refl _ _
  · refine Frame.foldl (fun s d => ?_) ds s
    split
    · exact s.writePart_frame _ _ _ _ _
    · exact Frame.refl _ _

theorem State.storeSum_frame (s : State) (i d : Nat) : Frame [.mem, .out, .freeCtr] s (s.storeSum i d) := by
  unfold State.storeSum
  split
  · exact Frame.refl _ _
  · split
    · exact s.writePart_frame _ _ _ _ _
    · exact Frame.refl _ _

theorem State.set_fabric_frame (s : State) (f : Fabric) : Frame [.fabric] s { s with fabric := f } := by
  intro p hp
  cases p with
  | fabric => simp at hp
  | _ => rfl

theorem State.put_frame (s : State) (way : Route) (m : Message) : Frame [.out] s (s.put way m) := s.set_out_frame _

theorem State.post_frame (s : State) (rank : Nat) (way : Route) (m : Message) : Frame [.fabric, .out] s (s.post rank way m) := by
  unfold State.post
  dsimp only
  split
  · split
    · exact (s.set_fabric_frame _).weaken (by simp)
    · exact Frame.trans (s.set_fabric_frame _) (State.put_frame _ _ m) (by simp) (by simp)
  · exact (s.put_frame way m).weaken (by simp)

/-! ### Collectives -/

section
variable (s : State) (i : Nat)

theorem State.withColl_stage (r : Run) (u : CollUse) (kind group : Nat) (f : Coll → Coll) :
    s.StepsAgree i Step.stage (s.withColl i r u kind group f) := by
  refine s.modStep_agrees fun p => ?_
  split <;> rfl

theorem State.joinUse_stage (u : CollUse) (kind group : Nat) : s.StepsAgree i Step.stage (s.joinUse i u kind group) := by
  unfold State.joinUse
  split
  · exact .refl i _ s
  · split
    · exact .refl i _ s
    · exact s.withColl_stage i _ u kind group _

theorem State.joinFailed_stage : s.StepsAgree i Step.stage (s.joinFailed i) := by
  unfold State.joinFailed
  split
  · exact .refl i _ s
  · exact State.foldl_agrees (fun s (q : CollUse × Nat × Nat) => s.withColl_stage i _ q.1 q.2.1 q.2.2 _) _ s

theorem State.sendChunk_stage (st : Step) (c : Coll) (x : Nat × Nat × List Byte) : s.StepsAgree i Step.stage (s.sendChunk i st c x) := by
  unfold State.sendChunk
  split
  · exact .refl i _ s
  · exact ((s.post_frame _ _ _).stepsAgree i _).trans (State.modStep_agrees _ fun _ => by rfl)

theorem State.pump_stage : s.StepsAgree i Step.stage (s.pump i) := by
  unfold State.pump
  split
  · exact .refl i _ s
  · refine State.foldl_agrees (fun s c => ?_) _ s
    split
    · exact .refl i _ s
    · exact State.foldl_agrees (fun s x => s.sendChunk_stage i _ c x) _ s

theorem State.nonfinite_stage (cause layer mb : Nat) : s.StepsAgree i Step.stage (s.nonfinite i cause layer mb) :=
  s.modStep_agrees fun _ => rfl

/-! ### Records -/

theorem State.orderStop_stage (op : LayerOp) (desc pos : Nat) : s.StepsAgree i Step.stage (s.orderStop i op desc pos) := by
  unfold State.orderStop
  split
  · exact .refl i _ s
  · exact ((s.noteOnce_agrees i op 0x0101 _).1.stage_of_unmarked.trans ((State.event_frame _ _ _ _).stepsAgree i _)).trans
      (State.failStep_agrees _ _ fun _ _ => rfl)

theorem State.putForward_stage (r : Run) (o : OpRec) (k mb : Nat) (c : Ctx) (out : RecOut) :
    s.StepsAgree i Step.stage (s.putForward i r o k mb c out) := by
  unfold State.putForward
  split
  · exact (s.modStep_agrees fun _ => by rfl).trans (State.orderStop_stage _ i _ _ _)
  · have hstore := Frame.foldl (fun s w => s.storeOut_frame r.x r.p o mb w) out.outs s
    exact ((hstore.stepsAgree i _).trans ((State.writePart_frame _ _ _ _ _ _).stepsAgree i _)).trans (State.modStep_agrees _ fun _ => by rfl)

theorem State.putBackward_stage (c : Ctx) (o : OpRec) (k mb phase : Nat) (g : GradOut) :
    s.StepsAgree i Step.stage (s.putBackward i c o k mb phase g) :=
  (s.modStep_agrees fun _ => by rfl).trans ((State.storeGrads_frame _ i _ mb).stepsAgree i _)

theorem State.finishRecord_stage (r : Run) (group k mb phase : Nat) (res : List (List Byte)) :
    s.StepsAgree i Step.stage (s.finishRecord i r group k mb phase res) := by
  unfold State.finishRecord
  split
  · exact .refl i _ s
  · dsimp only
    split
    · split
      · exact s.putForward_stage i r _ k mb _ _
      · exact s.putBackward_stage i _ _ k mb _ _
    · split
      · exact .refl i _ s
      · split
        · exact s.putForward_stage i r _ k mb _ _
        · split
          · exact .refl i _ s
          · exact s.putBackward_stage i _ _ k mb _ _

theorem State.landShards_stage (c : Coll) : s.StepsAgree i Step.stage (s.landShards i c) := by
  have hstore (x : Slot) (p : Program) (half : Nat) (s : State) (ws : List Written) : Frame [.mem, .out, .freeCtr] s
      (ws.foldl (fun s (w : Written) => match p.desc w.desc with | some d => s.writeTensor x p d half w.t w.chan | none => s) s) := by
    refine Frame.foldl (fun s w => ?_) ws s
    split
    · exact s.writeTensor_frame x p _ _ _ _
    · exact Frame.refl _ _
  unfold State.landShards
  split
  · split
    · exact .refl i _ s
    · split
      · exact .refl i _ s
      · dsimp only
        refine State.StepsAgree.ite (.refl i _ s) ?_
        exact ((Frame.foldl (fun s m => hstore _ _ _ s _) _ s).stepsAgree i _).trans (State.modStep_agrees _ fun _ => by rfl)
  · exact .refl i _ s

/-! ### Layers and their operations -/

theorem State.fallback_stage (layer mb phase ran : Nat) (e : PlanEnt) (c : Cond) :
    s.StepsAgree i Step.stage (s.fallback i layer mb phase ran e c).1 := by
  unfold State.fallback
  split
  · exact .refl i _ s
  · exact ((s.event_frame _ _ _).stepsAgree i _).trans (State.modStep_agrees _ fun _ => by rfl)

theorem State.beginLayer_stage (l : Nat) : s.StepsAgree i Step.stage (s.beginLayer i l) := by
  unfold State.beginLayer
  split
  · exact .refl i _ s
  next r _ =>
    dsimp only
    split
    · exact .refl i _ s
    · have hcopied := ((s.copyRung_agrees i l (r.x.stale.contains l)).stage_of_bare.trans
        ((State.modSlot_frame _ r.st.slot fun x => { x with stale := x.stale.filter (· != l) }).stepsAgree i Step.stage)).trans
          (State.modStep_agrees _ (f := fun p => { p with rungs := updAt p.rungs l fun q => { q with begun := true } }) fun _ => rfl)
      split
      · split
        · exact hcopied
        · split
          · exact (hcopied.trans (State.fallback_stage _ i _ _ _ _ _ _)).trans (State.copyRung_agrees _ i l false).stage_of_bare
          · exact hcopied.trans (State.fallback_stage _ i _ _ _ _ _ _)
      · exact hcopied

theorem State.beginOp_stage (o : OpRec) (mb phase : Nat) : s.StepsAgree i Step.stage (s.beginOp i o mb phase) := by
  unfold State.beginOp
  split
  · exact .refl i _ s
  · refine (State.foldl_agrees (fun s l => s.beginLayer_stage i l) _ s).trans (State.modStep_agrees _ fun p => ?_)
    dsimp only
    split
    · rfl
    · split <;> rfl

/-! ### Exchanges join, land and finish -/

theorem State.joinReady_stage : s.StepsAgree i Step.stage (s.joinReady i) := by
  unfold State.joinReady
  split
  · exact .refl i _ s
  · refine State.foldl_agrees (fun s q => ?_) _ s
    split
    · dsimp only
      split
      · exact .refl i _ s
      · split
        · exact .refl i _ s
        · exact (s.beginOp_stage i _ _ _).trans (State.joinUse_stage _ i _ _ _)
    · exact .refl i _ s

theorem State.finishColl_stage (r : Run) (c : Coll) (res : List (List Byte)) : s.StepsAgree i Step.stage (s.finishColl i r c res) := by
  have hdone : s.StepsAgree i Step.stage (s.modStep i fun p => p.modColl c.use fun d => { d with done := true }) :=
    s.modStep_agrees fun _ => rfl
  have hsum (f : Step → Step) (hf : ∀ p, (f p).stage = p.stage) (d : Nat) : s.StepsAgree i Step.stage
      (((s.modStep i fun p => p.modColl c.use fun d => { d with done := true }).modStep i f).storeSum i d) :=
    (hdone.trans (State.modStep_agrees _ hf)).trans ((State.storeSum_frame _ i d).stepsAgree i _)
  unfold State.finishColl
  dsimp only
  split
  · split
    · exact hdone.trans (State.finishRecord_stage _ i r _ _ _ _ res)
    · exact hdone
  · split
    · split
      · refine hdone.trans (State.modStep_agrees _ fun p => ?_)
        unfold Step.takeStats
        split
        · split <;> rfl
        · rfl
      · exact hdone
    · exact hdone
  · split
    · exact hsum _ (fun _ => by rfl) _
    · exact (hsum _ (fun _ => by rfl) _).trans (State.nonfinite_stage _ i _ _ _)
  · exact hdone

theorem State.finishReady_stage : s.StepsAgree i Step.stage (s.finishReady i) := by
  unfold State.finishReady
  split
  · exact .refl i _ s
  · refine State.foldl_agrees (fun s c => ?_) _ s
    split
    · exact .refl i _ s
    · split
      · exact .refl i _ s
      · split
        · exact .refl i _ s
        · exact s.finishColl_stage i _ c _

theorem State.landRings_stage : s.StepsAgree i Step.stage (s.landRings i) := by
  unfold State.landRings
  split
  · exact .refl i _ s
  · refine State.foldl_agrees (fun s c => ?_) _ s
    split
    · exact s.landShards_stage i c
    · exact .refl i _ s

theorem State.advance_stage (n : Nat) : s.StepsAgree i Step.stage (State.advance i n s) := by
  induction n generalizing s with
  | zero => exact .refl i _ s
  | succ n ih =>
    have hround := ((s.joinReady_stage i).trans (State.landRings_stage _ i)).trans (State.finishReady_stage _ i)
    unfold State.advance
    dsimp only
    split
    · exact hround
    · exact hround.trans (ih _)

theorem State.advanceAll_stage : s.StepsAgree i Step.stage (s.advanceAll i) := by
  unfold State.advanceAll
  split
  · exact .refl i _ s
  · split
    · exact (s.advance_stage i _).trans (State.pump_stage _ i)
    · exact (s.joinFailed_stage i).trans (State.pump_stage _ i)

/-! ### Step gradients -/

theorem State.joinLayers_stage (all : Bool) : s.StepsAgree i Step.stage (s.joinLayers i all) := by
  unfold State.joinLayers
  split
  · exact .refl i _ s
  next r _ =>
    refine State.foldl_agrees (fun s d => ?_) _ s
    split
    · split
      · exact .refl i _ s
      · refine State.StepsAgree.trans ?_ (State.joinUse_stage _ i _ _ _)
        unfold State.localNonfinite
        split
        · exact .refl i _ s
        · exact s.nonfinite_stage i _ _ _
    · exact .refl i _ s

theorem State.addGrad_stage (d n : Nat) : s.StepsAgree i Step.stage (State.addGrad i d n s) := by
  induction n generalizing s with
  | zero => exact .refl i _ s
  | succ n ih =>
    unfold State.addGrad
    split
    · exact .refl i _ s
    · split
      · dsimp only
        split
        · exact .refl i _ s
        · exact ((State.modStep_agrees _ fun _ => by rfl).trans ((State.storeSum_frame _ i d).stepsAgree i _)).trans (ih _)
      · exact .refl i _ s

end

end Sys2Proof.Machine
end

section
/-!
O51. The step barrier (R74, R326, R327, R394), a loss that stands (R207, R220, R225, R226, R229) and the retirement of a micro-batch (R215).
-/
namespace Sys2Proof.Machine

open Sys2Proof

/-! ### The barrier -/

/-- The state in which FWD(0) begins: the sample is taken, and each hint without a tower is recorded (R74, R394). -/
def State.barrierPassed (s : State) (i : Nat) (p : Step) : State :=
  (ignoredHints p.hints s.serving).foldl (fun s r => s.event p.src 0x0106 [(2, r)])
    ((s.bindLate p).modStep i fun q => { q with sample := some (s.bindLate p).sampleNow, stage := .running })

theorem State.barrierPassed_frame (s : State) (i : Nat) (p : Step) :
    Frame [.evt] ((s.bindLate p).modStep i fun q => { q with sample := some (s.bindLate p).sampleNow, stage := .running }) (s.barrierPassed i p) :=
  Frame.foldl (fun s r => s.event_frame p.src 0x0106 [(2, r)]) _ _

theorem State.stepBarrier_eq {s : State} {i : Nat} {p : Step} (hi : s.barrierIdx = some i) (hp : s.steps[i]? = some p) :
    s.stepBarrier = if s.barrierPasses p then (s.barrierPassed i p).tryForward i else s := by
  simp only [State.stepBarrier, hi, hp]
  rfl

/-- A step that waits too long leaves with CADENCE_HOLD: its mailbox, the window and vector 9 tell it, and its items are gone (R327, R354, R393). -/
theorem State.refuseBarrier_completes {s : State} {i : Nat} {p : Step} (hp : s.steps[i]? = some p) (hm : p.mbx < 4)
    (hl : s.mailboxes.length = 4) (hwf : (s.mbx p.mbx).payload.wf = true) (howes : s.mem.owes p.mbx = false) :
    ∃ d, (s.refuseBarrier i).steps = s.steps.eraseIdx i ∧ ((s.refuseBarrier i).mbx p.mbx).Holds 0x0140 d ∧ d.length = 32
      ∧ s.OthersKept p.mbx (s.refuseBarrier i)
      ∧ (s.refuseBarrier i).window.status = 0x0140 ∧ (s.refuseBarrier i).window.updated = false ∧ (s.refuseBarrier i).window.step.v = p.number
      ∧ (s.refuseBarrier i).window.seq = s.window.seq + 2 ∧ (s.refuseBarrier i).ints.raised.getLsbD 9 = true
      ∧ Frame [.steps, .mailboxes, .window, .towers, .evt, .ints, .out] s (s.refuseBarrier i) := by
  obtain ⟨e, he⟩ : ∃ e, e = s.cadenceMismatch p p.cadence
      ((s.peerLinks.filterMap s.freshBeacon).map fun b => b.cadenceAt p.number) 0 := ⟨_, rfl⟩
  have hev : Frame [.evt] s e := he ▸ s.event_frame _ _ _
  have hesteps := hev.steps_eq
  have hembx : e.mailboxes = s.mailboxes := hev.mailboxes_eq
  have hemem : e.mem = s.mem := hev .mem (by simp)
  let gone := e.stepGone i p 0x0140 false
  have hgone := e.stepGone_frame i p 0x0140 false
  let d := gone.deliver p.mbx 0x0140 (e.stepBytes p)
  have hdel : Frame [.mailboxes, .ints, .out] gone d := gone.deliver_frame p.mbx 0x0140 (e.stepBytes p)
  have hraise := d.raise_frame 9
  have hgmbx : gone.mailboxes = s.mailboxes := hgone.mailboxes_eq.trans hembx
  have hfin : s.refuseBarrier i = d.raise 9 := by
    unfold State.refuseBarrier
    simp only [hp]
    rw [← he]
    exact State.finishStep_settled 0x0140 false (hesteps ▸ hp) hm (hemem ▸ howes)
  have hmbx : (d.raise 9).mailboxes = d.mailboxes := hraise.mailboxes_eq
  have hwindow : (d.raise 9).window = e.rewriteWindow p 0x0140 false := hraise.window_eq.trans hdel.window_eq
  have hraised : (d.raise 9).ints.raised.getLsbD 9 = true := by
    obtain ⟨pend, o, h⟩ := d.raise_eq 9
    rw [h]
    simp
  rw [hfin]
  refine ⟨e.stepBytes p, ?_, ?_, e.length_stepBytes p, fun k hk => ?_, ?_, ?_, ?_, ?_, hraised, ?_⟩
  · exact (hraise.steps_eq.trans hdel.steps_eq).trans (congrArg (·.eraseIdx i) hesteps)
  · rw [State.mbx, hmbx]
    exact State.deliver_holds gone 0x0140 _ hm (hgmbx ▸ hl) (by rw [State.mbx, hgmbx]; exact hwf)
  · rw [hmbx, gone.deliver_others p.mbx 0x0140 _ k hk, hgmbx]
  · exact congrArg Window.status hwindow
  · exact congrArg Window.updated hwindow
  · exact congrArg (fun w : Window => w.step.v) hwindow
  · exact (congrArg Window.seq hwindow).trans (congrArg (fun w : Window => w.seq + 2) hev.window_eq)
  · exact Frame.trans (Frame.trans (k := [.evt, .window, .steps, .towers]) hev hgone (by simp) (by simp))
      (Frame.trans (k := [.mailboxes, .ints, .out]) hdel hraise (by simp) (by simp)) (by simp) (by simp)

/-! ### A loss that stands -/

/-- A step that is changed in place runs with its slot and program as before. -/
theorem State.run_modStep {s : State} {i : Nat} {r : Run} {f : Step → Step} (hr : s.run i = some r) (hf : (f r.st).slot = r.st.slot) :
    (s.modStep i f).run i = some { r with st := f r.st } := by
  obtain ⟨hst, hx, hprog⟩ := State.run_eq_some.mp hr
  refine State.run_eq_some.mpr ⟨State.steps_modStep_getElem?_same f hst, ?_, ?_⟩
  · rw [hx]
    exact congrArg s.slot hf.symm
  · exact (congrArg (fun n => (s.slot n).prog) hf).trans hprog

theorem Frame.run_eq {l : List Component} {s t : State} (h : Frame l s t) (i : Nat) (hst : Component.steps ∉ l := by simp)
    (hsl : Component.slots ∉ l := by simp) : t.run i = s.run i := by
  simp [State.run, State.slot, h.steps_eq hst, h.slots_eq hsl]

/-- The layer of the LOSS record of a program. -/
def Program.lossLayer (p : Program) : Nat := match p.ops.find? fun o => o.opcode == 0x0010 with | some o => o.layer | none => 0xFFFF

/-- The state in which a loss that is not finite has been recorded: its event, the first cause of R220, and the mark of the event. -/
def State.lossNoted (s : State) (i mb : Nat) (r : Run) (w : Word) : State :=
  ((s.event r.st.src 0x0301 [(1, mb), (4, w.toNat)]).nonfinite i 0 r.p.lossLayer mb).modStep i fun p =>
    p.mark ⟨r.p.lossLayer, mb, 0⟩ 0x0301 0

theorem State.lossNoted_frame (s : State) (i mb : Nat) (r : Run) (w : Word) : Frame [.steps, .evt] s (s.lossNoted i mb r w) :=
  Frame.trans (s.event_frame _ _ _) (Frame.trans (k := [.steps]) (State.modStep_frame _ i _) (State.modStep_frame _ i _) (by simp) (by simp))
    (by simp) (by simp)

section
variable {s : State} {i mb : Nat} {r : Run} (hr : s.run i = some r)
include hr

/-- A finite loss leaves no record, nor does one before its forward operations stand (R220, R229). -/
theorem State.noteLoss_quiet (h : ∀ w, (r.st.losses[mb]?).bind id = some w → f32isFin w = true ∨ r.phaseJudged mb 0 = false) :
    s.noteLoss i mb = s := by
  simp only [State.noteLoss, hr]
  split
  · rfl
  next w hw =>
    rw [if_pos]
    rcases h w hw with hfin | hjudged
    · simp [hfin]
    · simp [hjudged]

/-- A loss that is not finite is recorded once its forward operations stand, and under ABORT_ON_NONFINITE the work stops (R220, R225, R226). -/
theorem State.noteLoss_nonfinite {w : Word} (hw : (r.st.losses[mb]?).bind id = some w) (hfin : f32isFin w = false)
    (hg : r.st.stage = .running) (hdone : mb ∈ r.st.lossDone) (hjudged : r.phaseJudged mb 0 = true)
    (hnotes : ∀ n ∈ r.st.notes, n.code ≠ 0x8301) :
    s.noteLoss i mb = if r.st.abortNonfin then (s.lossNoted i mb r w).abortWork i else s.lossNoted i mb r w := by
  have hmarked (op : LayerOp) : r.st.marked op 0x0301 0 = false := by
    rw [Step.marked, List.any_eq_false]
    intro n hn
    have hcode := (List.mem_filter.mp hn).2
    simp only [Bool.and_eq_true, beq_iff_eq] at hcode
    exact absurd hcode.1.1.1 (hnotes n (List.mem_filter.mp hn).1)
  simp only [State.noteLoss, hr, hw]
  rw [if_neg (by simp [hfin, hg, hdone, hjudged, hmarked])]
  rfl

theorem State.lossNoted_run (w : Word) : (s.lossNoted i mb r w).run i = some { r with
    st := Step.mark { r.st with nonfin := r.st.nonfin.or (some (0, r.p.lossLayer, mb)) } ⟨r.p.lossLayer, mb, 0⟩ 0x0301 0 } :=
  State.run_modStep (State.run_modStep (((s.event_frame _ _ _).run_eq i).trans hr) rfl) rfl

/-- After an abort the step is in REDUCE (R226). -/
theorem State.abortWork_reduces : ∃ p, (s.abortWork i).steps[i]? = some p ∧ p.stage = .reduce := by
  obtain ⟨hst, -, -⟩ := State.run_eq_some.mp hr
  unfold State.abortWork
  simp only [hr]
  obtain ⟨p, hp, -⟩ := (State.foldl_agrees (fun s (q : CollUse × Nat × Nat) => s.joinUse_stage i q.1 q.2.1 q.2.2) _ s).get hst
  refine ((State.joinLayers_stage _ i true).trans (State.advanceAll_stage _ i)).get (p := { p with backlog := [], stage := .reduce }) ?_
  exact State.steps_modStep_getElem?_same _ hp

end

/-- What follows the record of a loss: the step that still runs begins BWD of the micro-batch, and FWD of the next when it may (R207). -/
def State.afterLoss (s : State) (i mb : Nat) : State :=
  match s.steps[i]? with
  | some st => if st.stage == .running then ((s.placePhase i mb 1).tryForward i).advanceAll i else s
  | none => s

theorem State.afterLoss_running {s : State} {i mb : Nat} {p : Step} (hp : s.steps[i]? = some p) (hg : p.stage = .running) :
    s.afterLoss i mb = ((s.placePhase i mb 1).tryForward i).advanceAll i := by
  simp [State.afterLoss, hp, hg]

theorem State.afterLoss_reduces {s : State} {i mb : Nat} {p : Step} (hp : s.steps[i]? = some p) (hg : p.stage = .reduce) :
    s.afterLoss i mb = s := by
  simp [State.afterLoss, hp, hg]

/-- LOSS_COMPLETE of a loss that stands takes it once, records it and goes on (R207, R225, R226). -/
theorem State.lossComplete_eq {s : State} {i mb : Nat} {r : Run} {w : Word} (hr : s.run i = some r)
    (hw : (r.st.losses[mb]?).bind id = some w) (hnew : mb ∉ r.st.lossDone) :
    s.lossComplete i mb = ((s.modStep i fun p => { p with lossDone := p.lossDone ++ [mb] }).noteLoss i mb).afterLoss i mb := by
  simp only [State.lossComplete, hr, hw]
  rw [if_neg (by simpa using hnew)]
  rfl

/-! ### The retirement -/

/-- A micro-batch retires once BWD of it stands (R207, R215). -/
theorem State.microBatchRetire_eq {s : State} {i mb : Nat} {r : Run} (hr : s.run i = some r) (hdone : mb ∈ r.st.lossDone)
    (hnew : mb ∉ r.st.retired) (hjudged : r.phaseJudged mb 1 = true) :
    s.microBatchRetire i mb = (s.modStep i fun p => { p with retired := p.retired ++ [mb] }).settle i := by
  simp only [State.microBatchRetire, hr]
  rw [if_neg (by simp [hdone, hnew, hjudged])]

/-- Once every micro-batch has ended and no loss waits to be recorded, the step is in REDUCE (R207, R209, R215). -/
theorem State.settle_reduces {s : State} {i : Nat} {r : Run} (hr : s.run i = some r) (he : r.st.ended = .running) (hg : r.st.stage = .running)
    (hended : ∀ u < r.st.mbs.length, r.mbEnded u = true)
    (hfin : ∀ (u : Nat) w, (r.st.losses[u]?).bind id = some w → f32isFin w = true) :
    ∃ (s2 : State) (p : Step), s.settle i = s2.advanceAll i ∧ s2.steps[i]? = some p ∧ p.stage = .reduce := by
  obtain ⟨hst, -, -⟩ := State.run_eq_some.mp hr
  have hquiet : (List.range r.st.mbs.length).foldl (fun s u => s.noteLoss i u) s = s := by
    generalize List.range r.st.mbs.length = us
    induction us with
    | nil => rfl
    | cons u us ih => rwa [List.foldl_cons, State.noteLoss_quiet hr fun w hw => .inl (hfin u w hw)]
  have hall : (List.range r.st.mbs.length).filter r.mbEnded = List.range r.st.mbs.length :=
    List.filter_eq_self.mpr fun u hu => hended u (List.mem_range.mp hu)
  obtain ⟨p, hp, -⟩ := (((State.foldl_agrees (fun s d => s.addGrad_stage i d (r.st.mbs.length + 1)) r.p.gradWeights s).trans
    (State.joinLayers_stage _ i false)).trans (State.foldl_agrees (f := fun s u => s.modStep i fun p => p.release u)
      (fun s u => s.modStep_agrees fun _ => rfl) (List.range r.st.mbs.length) _)).get hst
  refine ⟨_, _, ?_, State.steps_modStep_getElem?_same (fun p => { p with stage := .reduce }) hp, rfl⟩
  simp only [State.settle, hst, he, beq_self_eq_true, if_true, hquiet, hr]
  rw [if_neg (by simp [hg]), hall, if_pos List.length_range]

/-! ### The obligation -/

/-- Settles O51: the barrier by its two outcomes, the loss by what `noteLoss` records of it, and the retirement by `settle`; that a step stays in
REDUCE rests on the stage that its exchanges leave. -/
theorem barrierAndMicroBatches : Obligations.BarrierAndMicroBatches := by
  refine ⟨fun s i p hpow hi hp => ⟨fun hpass => ?_, fun hwait => ?_, fun hm hl hwf howes => ?_⟩,
    fun s mb i r hpow hi hr he hg => ⟨fun w hw hnew => ?_, fun hdone hnew hjudged => ?_⟩⟩
  · have hf := s.barrierPassed_frame i p
    refine ⟨s.barrierPassed i p, ?_, Frame.trans (State.modStep_frame _ i _) hf (by simp) (by simp), hf.steps_eq, fun hnone => ?_⟩
    · simp [exec, execStepBarrier, State.whenOn, hpow, State.stepBarrier_eq hi hp, hpass]
    · rw [State.barrierPassed, hnone]
      rfl
  · simp [exec, execStepBarrier, State.whenOn, hpow, State.stepBarrier_eq hi hp, hwait]
  · obtain ⟨d, h⟩ := State.refuseBarrier_completes hp hm hl hwf howes
    refine ⟨_, d, ?_, h⟩
    simp [exec, execStepBarrierTimeout, State.whenOn, hpow, State.barrierTimeout, hi]
  all_goals obtain ⟨hst, -, -⟩ := State.run_eq_some.mp hr
  · have hexec : exec (.lossComplete mb) s =
        .next (((s.modStep i fun p => { p with lossDone := p.lossDone ++ [mb] }).noteLoss i mb).afterLoss i mb) := by
      simp [exec, execLossComplete, State.whenOn, hpow, State.onRunning_running _ hi hst he hg, State.lossComplete_eq hr hw hnew]
    have hr1 := State.run_modStep (f := fun p => { p with lossDone := p.lossDone ++ [mb] }) hr rfl
    have hst1 := State.steps_modStep_getElem?_same (fun p => { p with lossDone := p.lossDone ++ [mb] }) hst
    intro s1 goes
    refine ⟨fun hquiet => ?_, fun hfin hjudged hnotes => ?_⟩
    · have hsame : s1.noteLoss i mb = s1 := State.noteLoss_quiet hr1 fun w' hw' => by
        obtain rfl : w = w' := Option.some.inj (hw.symm.trans hw')
        exact hquiet
      rw [hexec, hsame, State.afterLoss_running hst1 hg]
    · have hnoted := State.noteLoss_nonfinite hr1 hw hfin hg (List.mem_append_right _ (List.mem_singleton.mpr rfl)) hjudged hnotes
      have hr2 := State.lossNoted_run (mb := mb) hr1 w
      obtain ⟨hp, -, -⟩ := State.run_eq_some.mp hr2
      refine ⟨_, ?_, Frame.trans (s.modStep_frame i _) (State.lossNoted_frame _ i mb _ w) (by simp) (by simp), _, hp, rfl, ?_, fun hnone => ?_⟩
      · rw [hexec, hnoted]
        dsimp only
        split
        · obtain ⟨q, hq, hred⟩ := State.abortWork_reduces hr2
          rw [State.afterLoss_reduces hq hred]
        · rw [State.afterLoss_running hp hg]
      · simp [Step.mark]
      · simp [Step.mark, hnone]
  · have hr1 := State.run_modStep (f := fun p => { p with retired := p.retired ++ [mb] }) hr rfl
    refine ⟨?_, fun r1 hrun hended hfin => ?_⟩
    · simp [exec, execMicroBatchRetire, State.whenOn, hpow, State.onRunning_running _ hi hst he hg,
        State.microBatchRetire_eq hr hdone hnew hjudged]
    · obtain rfl := Option.some.inj (hr1.symm.trans hrun)
      exact State.settle_reduces hr1 he hg hended hfin

end Sys2Proof.Machine
end

section
/-!
O17. A LOAD_PROGRAM that a check refuses still gives regions back to ALL mode, and so changes more than its mailbox (R45, R193, R370).
-/
namespace Sys2Proof.Machine

open Sys2Proof

/-! ### A group of regions under the master copy of a loaded program -/

/-- A weight of eight BF16 elements at the bottom of device memory, and a program that holds it alone. -/
def lowWeight : Desc := ⟨1, 1, 0x0A, 1, 0, [8], [0], 0xFF, 0xFF, 0, 0, noId, 0xFFFF, 0, 0, 0, 0⟩
def lowProgram : Program := ⟨0x0100, 1, [0, 0, 0, 0], [lowWeight], []⟩

/-- A Ready block between steps in which the group of regions that serves slot 2 holds the master copy of slot 1. Loading slot 1 during a step
leaves it so, since regions go back to ALL mode between steps only (R193), and the end of the step does not change it. -/
def servedLow : State := { State.reset with
  fuses := Fuses.delivered
  power := { Power.reset with linkUp := true, hdm := some (0, devEnd), phase := 6, ready := true }
  keep := { Keep.reset with state := 1, armed := true }
  fabric := { Fabric.reset with topo := some ⟨0, 5, 0, 0, 1, 1000, 0, [⟨1, 0, 2, 0x10000000⟩], []⟩ }
  slots := updAt State.reset.slots 1 fun x => { x with prog := some lowProgram }
  mem := { State.reset.mem with affine := [(0, 2)] } }

/-- An image of version 0, which the check of the header refuses. -/
def blankImage : List Byte := List.replicate 32 0

/-- LOAD_PROGRAM of slot 0 on mailbox 0, with `blankImage` at the bottom of host memory. -/
def loadBlank : Sub := ⟨0, 16, 0, List.replicate 15 0 ++ [0x80], { Env.quiet with cache := some blankImage }⟩

theorem servedLow_takes : servedLow.Takes loadBlank where
  io := by decide +kernel
  reach := by decide +kernel
  alone := rfl
  settled := rfl
  now := rfl
  buffer := rfl
  ready := rfl
  live := rfl
  runs := rfl
  mailbox := by decide
  four := by decide +kernel
  free := by decide +kernel
  wf := by decide +kernel
  fits := by decide
  len := rfl
  closed := fun _ => rfl

theorem servedLow_open : servedLow.Open := ⟨rfl, by decide +kernel⟩

theorem blankImage_at : ImageAt servedLow loadBlank 8 blankImage := by
  have haddr : fieldLe loadBlank.payload 8 8 = 2 ^ 63 := by decide
  unfold ImageAt
  rw [haddr]
  exact ⟨by decide, .inl ⟨by decide, by decide, rfl⟩⟩

theorem checkImage_blank : servedLow.checkImage blankImage = .error ⟨stBAD_PARAM, 1, noId⟩ := by
  unfold State.checkImage State.checkProgram
  exact if_pos (by decide)

/-- The refused LOAD_PROGRAM has taken the group from slot 2. -/
theorem servedLow_released : (servedLow.command loadBlank 0x0201).mem.affine = [] := by
  decide +kernel

/-! ### The obligation -/

/-- Refutes O17: `servedLow` refuses `blankImage` with BAD_PARAM, but the command gives back to ALL mode the group of slot 2, in which the
weight of slot 1 lies, so that device memory's modes and slot 2 have changed. -/
theorem not_loadProgramInstalls : ¬ Obligations.LoadProgramInstalls := by
  intro h
  have hcase := h servedLow loadBlank 0 blankImage servedLow_takes servedLow_open (by decide +kernel) (by decide) rfl (by decide)
    (by decide) (by decide +kernel) rfl blankImage_at (by decide)
  rw [checkImage_blank] at hcase
  obtain ⟨t, hexec, hanswers⟩ := hcase
  have ht : servedLow.command loadBlank 0x0201 = t := Host.Outcome.next.inj hexec
  have hreleased : t.mem.affine = [] := ht ▸ servedLow_released
  rw [hanswers.frame .mem (by simp)] at hreleased
  cases hreleased

end Sys2Proof.Machine
end

section
/-!
SUPPORT. Images laid out in little-endian fields: what a reader finds at an offset of bytes that stand one part after another (R7, R8).
-/
namespace Sys2Proof.Machine

open Sys2Proof

/-! ### Numbers as bytes -/

@[simp] theorem length_toLe (k n : Nat) : (toLe k n).length = k := by
  rw [toLe_eq_map_range, List.length_map, List.length_range]

theorem ofLe_toLe {k n : Nat} (h : n < 256 ^ k) : ofLe (toLe k n) = n := by
  induction k generalizing n with
  | zero => simpa [toLe, ofLe, eq_comm] using h
  | succ k ih =>
    rw [Nat.pow_succ] at h
    simp only [toLe, ofLe, BitVec.toNat_ofNat, ih (show n / 256 < 256 ^ k by omega)]
    omega

/-! ### Parts one after another -/

section
variable {a r : List Byte} {o k : Nat}

/-- The slice at the offset of a part is that part. -/
theorem sliceB_append_self (h : a.length = k) : sliceB (a ++ r) 0 k = a := by
  subst h
  simp [sliceB]

/-- A slice behind a part is a slice of what follows it. -/
theorem sliceB_append_skip (h : a.length ≤ o) : sliceB (a ++ r) o k = sliceB r (o - a.length) k := by
  simp [sliceB, List.drop_append, List.drop_eq_nil_of_le h]

/-- Bytes beyond the end of an image read as zero. -/
theorem sliceB_eq_map_range (b : List Byte) (o k : Nat) : sliceB b o k = (List.range k).map fun j => b.getD (o + j) 0 := by
  refine List.ext_getElem (by simp [sliceB]) fun j h1 h2 => ?_
  simp only [List.length_map, List.length_range] at h2
  by_cases hj : o + j < b.length
  · rw [List.getElem_map, List.getElem_range, List.getD_eq_getElem _ _ hj]
    simp [sliceB, h2, show j < b.length - o by omega]
  · rw [List.getElem_map, List.getElem_range, List.getD_eq_default _ _ (by omega)]
    simp [sliceB, List.getElem_append, show ¬ j < b.length - o by omega]

/-- A slice of a slice. -/
theorem sliceB_sliceB (b : List Byte) (p : Nat) {w : Nat} (h : o + k ≤ w) : sliceB (sliceB b p w) o k = sliceB b (p + o) k := by
  rw [sliceB_eq_map_range, sliceB_eq_map_range b (p + o), sliceB_eq_map_range b p]
  refine List.map_congr_left fun j hj => ?_
  have hj := List.mem_range.mp hj
  rw [List.getD_eq_getElem _ _ (by simp; omega), List.getElem_map, List.getElem_range, Nat.add_assoc]

/-- A slice within the first bytes of an image is that of the image. -/
theorem sliceB_take {n : Nat} (h : o + k ≤ n) : sliceB (a.take n) o k = sliceB a o k := by
  simp only [sliceB, List.drop_take, List.take_take, Nat.min_eq_left (show k ≤ n - o by omega)]

theorem fieldLe_take {n : Nat} (h : o + k ≤ n) : fieldLe (a.take n) o k = fieldLe a o k := by
  rw [fieldLe, fieldLe, sliceB_take h]

theorem zeroAt_take {n : Nat} (h : o + k ≤ n) : zeroAt (a.take n) o k = zeroAt a o k := by
  rw [zeroAt, zeroAt, sliceB_take h]

/-- A field of the bytes of a number is that number. -/
theorem fieldLe_toLe_append {n : Nat} (h : n < 256 ^ k) : fieldLe (toLe k n ++ r) 0 k = n := by
  rw [fieldLe, sliceB_append_self (length_toLe k n), ofLe_toLe h]

theorem fieldLe_append_skip (h : a.length ≤ o) : fieldLe (a ++ r) o k = fieldLe r (o - a.length) k := by
  rw [fieldLe, fieldLe, sliceB_append_skip h]

theorem zeroAt_append_skip (h : a.length ≤ o) : zeroAt (a ++ r) o k = zeroAt r (o - a.length) k := by
  rw [zeroAt, zeroAt, sliceB_append_skip h]

/-- Bytes of zeros are a reserved field (R8). -/
theorem zeroAt_replicate_append : zeroAt (List.replicate k 0#8 ++ r) 0 k = true := by
  rw [zeroAt, sliceB_append_self List.length_replicate]
  simp

theorem zeroAt_toLe_append : zeroAt (toLe k 0 ++ r) 0 k = true := by
  rw [zeroAt, sliceB_append_self (length_toLe k 0), toLe_eq_map_range]
  simp

end

/-- Records of one length: the slice at the offset of a record is that record. -/
theorem sliceB_flatMap_append {α : Type} {f : α → List Byte} {w : Nat} (hw : ∀ x, (f x).length = w) (l : List α) (r : List Byte) {i : Nat}
    (hi : i < l.length) : sliceB (l.flatMap f ++ r) (w * i) w = f l[i] := by
  induction l generalizing i with
  | nil => simp at hi
  | cons x l ih =>
    rw [List.flatMap_cons, List.append_assoc]
    cases i with
    | zero => exact sliceB_append_self (hw x)
    | succ i =>
      have hoff : w * (i + 1) - (f x).length = w * i := by rw [hw, Nat.mul_succ, Nat.add_sub_cancel]
      rw [sliceB_append_skip (by rw [hw, Nat.mul_succ]; omega), hoff]
      exact ih (by simpa using hi)

end Sys2Proof.Machine
end

section
/-!
O15. Tracker images (R182, Tables 6.9 and 6.10): the entry of a layer reads back role by role, and an image entry by entry.
-/
namespace Sys2Proof.Machine

open Sys2Proof

/-! ### The history of a role -/

/-- The fields of a role that Table 6.10 can hold. -/
def RoleHist.Fits (r : RoleHist) : Prop := r.hist.length = 16 ∧ r.count < 256 ∧ r.head < 256 ∧ r.e ≠ some f32nan

/-- The fields of a layer's entry that Table 6.10 can hold. -/
def Tracker.Fits (t : Tracker) : Prop :=
  t.rf < 256 ∧ t.rg < 256 ∧ t.cleanF < 256 ∧ t.cleanG < 256 ∧ t.coldLeft < 256 ∧ t.roles.length = 4 ∧ ∀ r ∈ t.roles, r.Fits

/-- A list of known length by its positions. -/
theorem map_range_getD {α : Type} {l : List α} {n : Nat} (d : α) (h : l.length = n) : ((List.range n).map fun i => l.getD i d) = l := by
  subst h
  exact List.ext_getElem (by simp) fun i h1 h2 => by simp [List.getD_eq_getElem?_getD, h2]

theorem RoleHist.bytes_eq (r : RoleHist) : r.bytes = (List.range 16).flatMap (fun i => toLe 4 (r.hist.getD i 0).toNat)
    ++ (toLe 4 (r.e.getD f32nan).toNat ++ (toLe 1 r.count ++ (toLe 1 r.head ++ toLe 2 0))) := by
  simp only [RoleHist.bytes, List.append_assoc]

theorem RoleHist.length_bytes (r : RoleHist) : r.bytes.length = 72 := by
  simp [RoleHist.bytes_eq]

/-- The reserved bytes of a role are zero (Table 6.10). -/
theorem RoleHist.zeroAt_bytes (r : RoleHist) : zeroAt r.bytes 0x46 2 = true := by
  have hreserved : zeroAt (toLe 2 0) 0 2 = true := rfl
  simp [RoleHist.bytes_eq, zeroAt_append_skip, hreserved]

theorem parseRole_bytes {r : RoleHist} (h : r.Fits) : parseRole r.bytes = r := by
  obtain ⟨hlen, hcount, hhead, he⟩ := h
  have hhist : ∀ i ∈ List.range 16, BitVec.ofNat 32 (fieldLe r.bytes (4 * i) 4) = r.hist.getD i 0 := by
    intro i hi
    have hslice := sliceB_flatMap_append (fun i => length_toLe 4 (r.hist.getD i 0).toNat) (List.range 16)
      (toLe 4 (r.e.getD f32nan).toNat ++ (toLe 1 r.count ++ (toLe 1 r.head ++ toLe 2 0))) (i := i) (by simpa using hi)
    rw [fieldLe, RoleHist.bytes_eq, hslice, List.getElem_range, ofLe_toLe (r.hist.getD i 0).isLt, BitVec.ofNat_toNat, BitVec.setWidth_eq]
  have hE : fieldLe r.bytes 0x40 4 = (r.e.getD f32nan).toNat := by
    simp [RoleHist.bytes_eq, fieldLe_append_skip, fieldLe_toLe_append (k := 4) (r.e.getD f32nan).isLt]
  have hC : fieldLe r.bytes 0x44 1 = r.count := by
    simp [RoleHist.bytes_eq, fieldLe_append_skip, fieldLe_toLe_append (k := 1) hcount]
  have hH : fieldLe r.bytes 0x45 1 = r.head := by
    simp [RoleHist.bytes_eq, fieldLe_append_skip, fieldLe_toLe_append (k := 1) hhead]
  have hnone : (if r.e.getD f32nan = f32nan then none else some (r.e.getD f32nan)) = r.e := by
    cases hr : r.e with
    | none => simp
    | some w => exact if_neg fun hw => he (hr.trans (congrArg some hw))
  simp only [parseRole, hE, hC, hH, List.map_congr_left hhist, map_range_getD 0 hlen, BitVec.ofNat_toNat, BitVec.setWidth_eq, hnone]

/-! ### The entry of a layer -/

theorem Tracker.bytes_eq (t : Tracker) : t.bytes = toLe 1 t.rf ++ (toLe 1 t.rg ++ (toLe 1 t.cleanF ++ (toLe 1 t.cleanG ++ (toLe 1 t.coldLeft
    ++ (toLe 1 (if t.fellBack then 1 else 0) ++ (List.replicate 26 0
      ++ (List.range 4).flatMap fun i => (t.roles.getD i RoleHist.empty).bytes)))))) := by
  simp only [Tracker.bytes, List.append_assoc]

theorem Tracker.length_bytes (t : Tracker) : t.bytes.length = 320 := by
  simp [Tracker.bytes_eq, List.length_flatMap, RoleHist.length_bytes]

theorem Tracker.sliceB_role (t : Tracker) {i : Nat} (hi : i < 4) : sliceB t.bytes (0x20 + 72 * i) 72 = (t.roles.getD i RoleHist.empty).bytes := by
  have hslice := sliceB_flatMap_append (fun i => (t.roles.getD i RoleHist.empty).length_bytes) (List.range 4) [] (i := i) (by simpa using hi)
  rw [List.append_nil, List.getElem_range] at hslice
  rw [← hslice, Tracker.bytes_eq]
  simp (disch := (simp only [length_toLe, List.length_replicate]; omega)) only [sliceB_append_skip, length_toLe, List.length_replicate]
  congr 1
  omega

theorem Tracker.zeroAt_bytes (t : Tracker) : zeroAt t.bytes 6 26 = true := by
  simp [Tracker.bytes_eq, zeroAt_append_skip, zeroAt_replicate_append, -List.reduceReplicate]

/-- An entry whose rungs lie within their ladders reads back (Table 6.10). -/
theorem parseTracker_bytes {pe : PlanEnt} {t : Tracker} (h : t.Fits) (hf : t.rf ≤ pe.fwdTop) (hg : t.rg ≤ pe.gradTop) :
    parseTracker pe t.bytes = some t := by
  obtain ⟨hrf, hrg, hcf, hcg, hcold, hlen, hroles⟩ := h
  have hfell : (if t.fellBack then 1 else 0) < 256 ^ 1 := by split <;> omega
  have h0 : fieldLe t.bytes 0 1 = t.rf := by simp [Tracker.bytes_eq, fieldLe_toLe_append (k := 1) hrf]
  have h1 : fieldLe t.bytes 1 1 = t.rg := by simp [Tracker.bytes_eq, fieldLe_append_skip, fieldLe_toLe_append (k := 1) hrg]
  have h2 : fieldLe t.bytes 2 1 = t.cleanF := by simp [Tracker.bytes_eq, fieldLe_append_skip, fieldLe_toLe_append (k := 1) hcf]
  have h3 : fieldLe t.bytes 3 1 = t.cleanG := by simp [Tracker.bytes_eq, fieldLe_append_skip, fieldLe_toLe_append (k := 1) hcg]
  have h4 : fieldLe t.bytes 4 1 = t.coldLeft := by simp [Tracker.bytes_eq, fieldLe_append_skip, fieldLe_toLe_append (k := 1) hcold]
  have h5 : fieldLe t.bytes 5 1 = if t.fellBack then 1 else 0 := by simp [Tracker.bytes_eq, fieldLe_append_skip, fieldLe_toLe_append hfell]
  have hrole : ∀ i ∈ List.range 4, parseRole (sliceB t.bytes (0x20 + 72 * i) 72) = t.roles.getD i RoleHist.empty := by
    intro i hi
    have hi : i < t.roles.length := by simpa [hlen] using hi
    rw [t.sliceB_role (by omega), List.getD_eq_getElem _ _ hi, parseRole_bytes (hroles _ (List.getElem_mem hi))]
  have hpad : ∀ i ∈ List.range 4, zeroAt t.bytes (0x20 + 72 * i + 0x46) 2 = true := by
    intro i hi
    rw [zeroAt, ← sliceB_sliceB (w := 72) _ _ (by omega), t.sliceB_role (List.mem_range.mp hi)]
    exact RoleHist.zeroAt_bytes _
  have hbit : ((if t.fellBack then 1 else 0) == 1) = t.fellBack := by cases t.fellBack <;> rfl
  have hle : (if t.fellBack then 1 else 0) ≤ 1 := by split <;> omega
  unfold parseTracker
  simp only [h0, h1, h2, h3, h4, h5, hbit, List.map_congr_left hrole, map_range_getD _ hlen]
  exact if_pos ⟨hf, hg, hle, t.zeroAt_bytes, List.all_eq_true.mpr hpad⟩

/-! ### The image -/

theorem parseTrackers_flatMap {ls : List PlanEnt} {ts : List Tracker} (hlen : ts.length = ls.length)
    (hle : ∀ q ∈ ts.zip ls, q.1.rf ≤ q.2.fwdTop ∧ q.1.rg ≤ q.2.gradTop) (hfit : ∀ t ∈ ts, t.Fits) :
    parseTrackers ls (ts.flatMap Tracker.bytes) = some ts := by
  induction ls generalizing ts with
  | nil =>
    obtain rfl := List.eq_nil_of_length_eq_zero hlen
    rfl
  | cons pe ls ih =>
    obtain _ | ⟨t, ts⟩ := ts
    · cases hlen
    · obtain ⟨hrf, hrg⟩ := hle (t, pe) (by simp)
      have htail := ih (ts := ts) (by simpa using hlen) (fun q hq => hle q (by simp [hq])) fun k hk => hfit k (by simp [hk])
      rw [List.flatMap_cons, parseTrackers, ← t.length_bytes, List.take_left, List.drop_left,
        parseTracker_bytes (hfit t (by simp)) hrf hrg, htail]
      rfl

/-- The header of a tracker image with a CHECK (Table 6.9). -/
def Slot.trackerHead (x : Slot) (pl : Plan) (check : Nat) : List Byte :=
  toLe 2 0x0100 ++ (toLe 2 pl.layers.length ++ (toLe 4 pl.tag ++ (toLe 1 x.widenLeft ++ (toLe 1 (if x.stormChain then 1 else 0)
    ++ (toLe 2 0 ++ (toLe 4 check ++ List.replicate 48 0))))))

theorem Slot.length_trackerHead (x : Slot) (pl : Plan) (check : Nat) : (x.trackerHead pl check).length = 64 := by
  simp [Slot.trackerHead]

theorem Slot.trackerImage_eq (x : Slot) (pl : Plan) : x.trackerImage pl =
    x.trackerHead pl (crc32 (x.trackerHead pl 0 ++ x.trackers.flatMap Tracker.bytes)) ++ x.trackers.flatMap Tracker.bytes := by
  simp only [Slot.trackerImage, Slot.trackerHead, List.append_assoc]

theorem Slot.drop_trackerImage (x : Slot) (pl : Plan) : (x.trackerImage pl).drop 64 = x.trackers.flatMap Tracker.bytes := by
  rw [Slot.trackerImage_eq, List.drop_left' (x.length_trackerHead pl _)]

/-- Settles O15: entry by entry, each of 320 bytes. -/
theorem trackerImagesReadBack : Obligations.TrackerImagesReadBack := by
  intro x pl hlen hle hfit
  rw [Slot.drop_trackerImage]
  exact parseTrackers_flatMap hlen hle hfit

end Sys2Proof.Machine
end

section
/-!
SUPPORT. How a command with an image of a slot begins: nothing refuses it before its payload, and Beryl reads its image first by its header
and then whole (R339, R363, R364).
-/
namespace Sys2Proof.Machine

open Sys2Proof

/-- Before its payload nothing refuses a LOAD_PLAN, LOAD_COEFF or LOAD_TRACKERS of a slot without a step in flight, nor a SAVE_TRACKERS,
while no other command is in flight (R363, R369, R388, Table 14.19). -/
theorem State.judge'_slotImage {s : State} {c : Sub} {op : Nat} (h : s.Takes c) (ho : s.Open) (hlen : c.payload.length = 16)
    (hop : op = 0x0104 ∨ op = 0x0105 ∨ op = 0x0106 ∨ op = 0x0107)
    (hidle : op = 0x0107 ∨ s.slotRunning (fieldLe c.payload 0 1) = false) : (s.submitted c op).judge' (asked c op) = none := by
  have hstage : (s.submitted c op).stage1 (asked c op) = none := by
    rcases hop with rfl | rfl | rfl | rfl <;> simp [State.stage1, romLen, hlen]
  have hadv : (s.submitted c op).keep.advanced = false := ho.stays
  have hst : (s.submitted c op).fuses.state ≠ 4 := ho.state
  have hlocked : (s.submitted c op).locked (asked c op) = false := by
    rcases hop with rfl | rfl | rfl | rfl <;> simp [State.locked, hadv, hst]
  have hmeets : (s.submitted c op).meets (asked c op) = false := by
    have hjobs : (s.submitted c op).jobs = [] := h.alone
    rcases hop with rfl | rfl | rfl | rfl <;> simp [State.meets, loadsSlot, savesSlot, hjobs]
  have hrun : (s.submitted c op).slotRunning (fieldLe c.payload 0 1) = s.slotRunning (fieldLe c.payload 0 1) := rfl
  have hbusy : (s.submitted c op).busy (asked c op) = false := by
    rcases hop with rfl | rfl | rfl | rfl <;> simp_all [State.busy, isExt]
  rcases hop with rfl | rfl | rfl | rfl <;> simp [State.judge', hstage, hlocked, hbusy]

/-- The state in which Beryl runs a command that it has taken. -/
abbrev State.running (s : State) (c : Sub) (op : Nat) : State := (s.submitted c op).writingFor c.mbx

theorem ImageAt.running {s : State} {c : Sub} {off : Nat} {im : List Byte} (h : ImageAt s c off im) (op : Nat) :
    ImageAt (s.running c op) c off im := h

/-- An image reads from its start as it stands, and the read changes nothing. -/
theorem State.imgRead_start {s : State} {c : Sub} {off len : Nat} {im : List Byte} (h : ImageAt s c off im) (h0 : 0 < len)
    (hlen : len ≤ im.length) : s.imgRead c.env (fieldLe c.payload off 8) 0 len = (.ok (im.take len), s) := by
  rw [State.imgRead_image h (by omega) h0, List.drop_zero]

theorem Img.andThen_ok {α β : Type} (a : α) (s : State) (f : α → State → Img β × State) : Img.andThen (.ok a, s) f = f a s := rfl

end Sys2Proof.Machine
end

section
/-!
SUPPORT. LOAD_TRACKERS (R182, Table 6.9): the header of a tracker image and its CHECK.
-/
namespace Sys2Proof.Machine

open Sys2Proof

/-! ### CHECK -/

theorem crc32Bit_lt {k c : Nat} (hc : c < 2 ^ 32) : crc32Bit k c < 2 ^ 32 := by
  induction k generalizing c with
  | zero => exact hc
  | succ k ih =>
    refine ih ?_
    split
    · exact Nat.xor_lt_two_pow (by omega) (by decide)
    · omega

theorem crc32Go_lt (bs : List Byte) {c : Nat} (hc : c < 2 ^ 32) : crc32Go bs c < 2 ^ 32 := by
  induction bs generalizing c with
  | nil => exact hc
  | cons b bs ih => exact ih (crc32Bit_lt (Nat.xor_lt_two_pow hc (by omega)))

/-- A CHECK fits its field (Table 6.9). -/
theorem crc32_lt (bs : List Byte) : crc32 bs < 256 ^ 4 := Nat.xor_lt_two_pow (n := 32) (crc32Go_lt bs (by decide)) (by decide)

/-! ### The header -/

section
variable (x : Slot) (pl : Plan) (check : Nat) (r : List Byte)

theorem Slot.version_trackerHead : fieldLe (x.trackerHead pl check ++ r) 0 2 = 0x0100 := by
  simp [Slot.trackerHead, fieldLe_toLe_append (k := 2) (n := 256)]

theorem Slot.layers_trackerHead (h : pl.layers.length < 65536) : fieldLe (x.trackerHead pl check ++ r) 2 2 = pl.layers.length := by
  simp [Slot.trackerHead, fieldLe_append_skip, fieldLe_toLe_append (k := 2) h]

theorem Slot.tag_trackerHead (h : pl.tag < 2 ^ 32) : fieldLe (x.trackerHead pl check ++ r) 4 4 = pl.tag := by
  simp [Slot.trackerHead, fieldLe_append_skip, fieldLe_toLe_append (k := 4) h]

theorem Slot.widenLeft_trackerHead (h : x.widenLeft < 256) : fieldLe (x.trackerHead pl check ++ r) 8 1 = x.widenLeft := by
  simp [Slot.trackerHead, fieldLe_append_skip, fieldLe_toLe_append (k := 1) h]

theorem Slot.stormChain_trackerHead : (fieldLe (x.trackerHead pl check ++ r) 9 1 == 1) = x.stormChain := by
  have hlt : (if x.stormChain then 1 else 0) < 256 ^ 1 := by split <;> omega
  simp only [Slot.trackerHead, List.append_assoc]
  simp [fieldLe_append_skip, fieldLe_toLe_append hlt]
  cases x.stormChain <;> rfl

theorem Slot.check_trackerHead (h : check < 256 ^ 4) : fieldLe (x.trackerHead pl check ++ r) 0xC 4 = check := by
  simp [Slot.trackerHead, fieldLe_append_skip, fieldLe_toLe_append h]

theorem Slot.reserved_trackerHead :
    zeroAt (x.trackerHead pl check ++ r) 0xA 2 = true ∧ zeroAt (x.trackerHead pl check ++ r) 0x10 48 = true := by
  simp [Slot.trackerHead, zeroAt_append_skip, zeroAt_replicate_append, zeroAt_toLe_append, -List.reduceReplicate]

/-- The bytes that a CHECK covers: the image with its own field zero (Table 6.9). -/
theorem Slot.checked_trackerHead :
    (x.trackerHead pl check ++ r).take 12 ++ [0, 0, 0, 0] ++ (x.trackerHead pl check ++ r).drop 16 = x.trackerHead pl 0 ++ r := by
  obtain ⟨p, hp, hparts⟩ : ∃ p, p.length = 12 ∧ ∀ n, x.trackerHead pl n = p ++ (toLe 4 n ++ List.replicate 48 0) :=
    ⟨toLe 2 0x0100 ++ (toLe 2 pl.layers.length ++ (toLe 4 pl.tag ++ (toLe 1 x.widenLeft ++ (toLe 1 (if x.stormChain then 1 else 0)
      ++ toLe 2 0)))), by simp, fun n => by simp only [Slot.trackerHead, List.append_assoc]⟩
  have hzero : toLe 4 0 = [0, 0, 0, 0] := rfl
  have hdrop : List.drop 16 p = [] := List.drop_of_length_le (by omega)
  simp [hparts, hzero, List.drop_append, hp, hdrop]

end

/-! ### LOAD_TRACKERS -/

theorem Slot.length_trackerImage (x : Slot) (pl : Plan) : (x.trackerImage pl).length = 64 + 320 * x.trackers.length := by
  have hbody : (x.trackers.flatMap Tracker.bytes).length = 320 * x.trackers.length := by
    simp [List.length_flatMap, Tracker.length_bytes, Nat.mul_comm]
  rw [Slot.trackerImage_eq, List.length_append, Slot.length_trackerHead, hbody]

/-- The trackers of a slot, saved under a plan whose image holds them (Tables 6.9 and 6.10). -/
structure Slot.SavedUnder (x : Slot) (pl : Plan) : Prop where
  tag : pl.tag < 2 ^ 32
  layers : pl.layers.length < 65536
  widen : x.widenLeft < 256
  parses : parseTrackers pl.layers ((x.trackerImage pl).drop 64) = some x.trackers
  count : x.trackers.length = pl.layers.length

/-- A tracker image that SAVE_TRACKERS wrote for the plan of the slot passes every check of LOAD_TRACKERS (R182, Table 6.9). -/
theorem cmdLoadTrackers_image {s : State} {c : Sub} {n : Nat} {x : Slot} {pl : Plan} (hn : n < 4) (hf : fieldLe c.payload 0 1 = n)
    (hz : zeroAt c.payload 1 7 = true) (hplan : (s.slot n).plan = some pl) (hsaved : x.SavedUnder pl) (him : ImageAt s c 8 (x.trackerImage pl)) :
    cmdLoadTrackers ⟨c.mbx, c.payload, c.env⟩ s = (s.modSlot n fun y => { y with
      trackers := x.trackers, widenLeft := x.widenLeft, stormChain := x.stormChain, stale := List.range pl.layers.length }).done
        ⟨c.mbx, c.payload, c.env⟩ [] := by
  have himlen : (x.trackerImage pl).length = 64 + 320 * pl.layers.length := by rw [Slot.length_trackerImage, hsaved.count]
  have hfields : fieldLe (x.trackerImage pl) 0 2 = 0x0100 ∧ fieldLe (x.trackerImage pl) 2 2 = pl.layers.length := by
    rw [Slot.trackerImage_eq]
    exact ⟨x.version_trackerHead .., x.layers_trackerHead _ _ _ hsaved.layers⟩
  unfold cmdLoadTrackers
  dsimp only
  rw [hf, if_neg (by simp [hz]; omega), hplan]
  dsimp only
  rw [State.imgRead_start him (by decide) (by omega), Img.andThen_ok, fieldLe_take (by decide), fieldLe_take (by decide), hfields.1, hfields.2,
    if_neg (by simp), State.imgRead_start him (by omega) (by omega), List.take_of_length_le (by omega)]
  dsimp only
  rw [hsaved.parses]
  dsimp only
  rw [Slot.trackerImage_eq, Slot.checked_trackerHead, x.tag_trackerHead pl _ _ hsaved.tag, x.check_trackerHead pl _ _ (crc32_lt _),
    (x.reserved_trackerHead pl _ _).1, (x.reserved_trackerHead pl _ _).2, x.widenLeft_trackerHead pl _ _ hsaved.widen, x.stormChain_trackerHead pl,
    if_neg (by simp)]

section
variable {s : State} {c : Sub} {n : Nat} (h : s.Takes c) (ho : s.Open) (hslots : s.slots.length = 4) (hn : n < 4)
  (hpay : c.payload.length = 16) (hf : fieldLe c.payload 0 1 = n) (hz : zeroAt c.payload 1 7 = true) (hidle : s.slotRunning n = false)
include h ho hslots hn hpay hf hz hidle

/-- LOAD_TRACKERS takes an image that SAVE_TRACKERS wrote for the plan of its slot (R182). -/
theorem exec_loadTrackers {x : Slot} {pl : Plan} (hplan : (s.slot n).plan = some pl) (hsaved : x.SavedUnder pl)
    (him : ImageAt s c 8 (x.trackerImage pl)) :
    ∃ t, exec (.loadTrackers c) s = .next t ∧ s.Answers c 0 [] [.slots] t ∧ (t.slot n).trackers = x.trackers
      ∧ (t.slot n).widenLeft = x.widenLeft ∧ (t.slot n).stormChain = x.stormChain ∧ (t.slot n).plan = some pl
      ∧ ∀ k, k ≠ n → t.slots[k]? = s.slots[k]? := by
  have hj := State.judge'_slotImage h ho hpay (op := 0x0106) (by simp) (.inr (hf ▸ hidle))
  have hbody := cmdLoadTrackers_image (s := s.running c 0x0106) hn hf hz hplan hsaved (him.running _)
  obtain ⟨t, hexec, hans, hslot, hothers⟩ := State.command_setsSlot (i := .loadTrackers c) rfl h (by decide) hj (by omega) hbody
  refine ⟨t, hexec, hans, ?_, ?_, ?_, ?_, hothers⟩ <;> rw [hslot]
  exact hplan

end

end Sys2Proof.Machine
end

section
/-!
SUPPORT. What a write of device memory can do (R190, R282, R338): it writes whole beats line by line; a line that the host may hold waits for
the host's answer, and every other line is stored.
-/
namespace Sys2Proof.Machine

open Sys2Proof

/-! ### What a write leaves -/

/-- A write within an extent leaves every byte outside, and all that decides how later writes go: the snoop filter, the retired pages, and
for whom Beryl writes. Commands whose writes wait wait on (R309, R338). -/
structure State.Wrote (lo hi : Nat) (s t : State) : Prop where
  frame : Frame [.mem, .out, .freeCtr] s t
  snoop : t.mem.snoop = s.mem.snoop
  retired : t.mem.pageRetired = s.mem.pageRetired
  writer : t.mem.writer = s.mem.writer
  owes : ∀ n, n ≠ wbOwner → s.mem.owes n = true → t.mem.owes n = true
  outside : ∀ q, q < lo ∨ hi ≤ q → memGet t.mem.cells q = memGet s.mem.cells q

section
variable {s t u : State} {lo hi : Nat}

theorem State.Wrote.refl (lo hi : Nat) (s : State) : s.Wrote lo hi s := ⟨Frame.refl _ _, rfl, rfl, rfl, fun _ _ h => h, fun _ _ => rfl⟩

theorem State.Wrote.trans (h : s.Wrote lo hi t) (k : t.Wrote lo hi u) : s.Wrote lo hi u where
  frame := Frame.trans h.frame k.frame (by simp) (by simp)
  snoop := k.snoop.trans h.snoop
  retired := k.retired.trans h.retired
  writer := k.writer.trans h.writer
  owes n hn ho := k.owes n hn (h.owes n hn ho)
  outside q hq := (k.outside q hq).trans (h.outside q hq)

theorem State.Wrote.widen {lo' hi' : Nat} (h : s.Wrote lo' hi' t) (hlo : lo ≤ lo') (hhi : hi' ≤ hi) : s.Wrote lo hi t where
  frame := h.frame
  snoop := h.snoop
  retired := h.retired
  writer := h.writer
  owes := h.owes
  outside q hq := h.outside q (by omega)

end

theorem State.set_mem_out_frame (s : State) (m : Mem) (o : Out) : Frame [.mem, .out, .freeCtr] s { s with mem := m, out := o } := by
  intro p hp
  cases p with
  | mem | out | freeCtr => simp at hp
  | _ => rfl

theorem State.set_freeCtr_frame (s : State) (k : Nat) : Frame [.freeCtr] s { s with freeCtr := k } := by
  intro p hp
  cases p with
  | freeCtr => simp at hp
  | _ => rfl

theorem State.wrote_freeCtr (lo hi : Nat) (s : State) (k : Nat) : s.Wrote lo hi { s with freeCtr := k } where
  frame := (s.set_freeCtr_frame k).weaken (by simp)
  snoop := rfl
  retired := rfl
  writer := rfl
  owes _ _ h := h
  outside _ _ := rfl

/-! ### One line -/

/-- Write-backs may be dropped with a write; the writes of a command wait on (R309). -/
theorem owes_filter_writeBacks {ws : List WaitWrite} {n : Nat} (hn : n ≠ wbOwner) (p : WaitWrite → Bool)
    (h : ws.any (fun w => w.owner == n) = true) : (ws.filter fun w => !(w.owner == wbOwner && p w)).any (fun w => w.owner == n) = true := by
  obtain ⟨w, hw, ho⟩ := List.any_eq_true.mp h
  refine List.any_eq_true.mpr ⟨w, List.mem_filter.mpr ⟨hw, ?_⟩, ho⟩
  have hwb : (w.owner == wbOwner) = false := by rw [beq_iff_eq.mp ho]; exact beq_false_of_ne hn
  simp [hwb]

theorem State.putPage_wrote (s : State) (a : Nat) (bs : List Byte) : s.Wrote a (a + bs.length) (s.putPage a bs) := by
  unfold State.putPage
  split
  · exact State.Wrote.refl _ _ _
  · split
    · exact ⟨s.set_mem_out_frame _ s.out, rfl, rfl, rfl, fun _ _ h => h, fun _ _ => rfl⟩
    · refine ⟨s.set_mem_out_frame _ s.out, rfl, rfl, rfl, fun n hn h => ?_, fun q hq => memGet_memWrite_other bs hq⟩
      have hkept := owes_filter_writeBacks hn (fun w => decide (a / 32 * 32 ≤ w.addr) && decide (w.addr < a + bs.length)) h
      simpa only [Mem.owes, Bool.and_assoc] using hkept

/-- A line that the host may hold waits, snooped (R338). -/
theorem State.writeLine_tracked {s : State} {a : Nat} (bs : List Byte) (h : a / 64 ∈ s.mem.snoop) : s.writeLine a bs =
    ({ s with mem := { s.mem with waiting := s.mem.waiting ++ [(⟨a, bs, s.mem.writer⟩ : WaitWrite)] } }).emit (.snoop (a / 64)) :=
  if_pos (List.contains_iff_mem.mpr h)

theorem State.writeLine_untracked {s : State} {a : Nat} (bs : List Byte) (h : a / 64 ∉ s.mem.snoop) : s.writeLine a bs = s.putPage a bs :=
  if_neg (by simpa using h)

theorem State.writeLine_owes {s : State} {a : Nat} (bs : List Byte) (h : a / 64 ∈ s.mem.snoop) :
    (s.writeLine a bs).mem.owes s.mem.writer = true := by
  rw [State.writeLine_tracked bs h]
  simp [Mem.owes, State.emit]

theorem State.writeLine_wrote (s : State) (a : Nat) (bs : List Byte) : s.Wrote a (a + bs.length) (s.writeLine a bs) := by
  by_cases h : a / 64 ∈ s.mem.snoop
  · rw [State.writeLine_tracked bs h]
    refine ⟨s.set_mem_out_frame _ _, rfl, rfl, rfl, fun n _ ho => ?_, fun _ _ => rfl⟩
    simp only [Mem.owes, State.emit, List.any_append, Bool.or_eq_true]
    exact .inl ho
  · rw [State.writeLine_untracked bs h]
    exact s.putPage_wrote a bs

/-- Where the host may hold no line of an extent, it holds not the first one, and none of what lies behind that. -/
theorem State.Untracked.head {s : State} {a len : Nat} (h : s.Untracked a len) (hpos : 0 < len) : a / 64 ∉ s.mem.snoop := by
  intro hmem
  have := h _ hmem
  simp only [overlaps, Bool.and_eq_false_iff, decide_eq_false_iff_not] at this
  omega

theorem State.Untracked.behind {s t : State} {a len k : Nat} (h : s.Untracked a len) (ht : t.mem.snoop = s.mem.snoop) (hk : k ≤ len) :
    t.Untracked (a + k) (len - k) := by
  intro l hl
  have := h l (ht ▸ hl)
  simp only [overlaps, Bool.and_eq_false_iff, decide_eq_false_iff_not] at this ⊢
  omega

/-! ### Lines one after another -/

/-- Lines written one after another. -/
def State.writeLines (s : State) (fuel a : Nat) (bs : List Byte) : State := (linesOf fuel a bs).foldl (fun s p => s.writeLine p.1 p.2) s

theorem State.writeBeats_eq (s : State) (a : Nat) (bs : List Byte) : s.writeBeats a bs = s.writeLines (bs.length / 64 + 2) a bs := rfl

theorem State.writeLines_nil (s : State) (fuel a : Nat) : s.writeLines fuel a [] = s := by
  cases fuel <;> rfl

theorem State.writeLines_line (s : State) (fuel a : Nat) {bs : List Byte} (h : bs ≠ []) (hk : bs.length ≤ 64 - a % 64) :
    s.writeLines (fuel + 1) a bs = s.writeLine a bs := by
  have hne : bs.isEmpty = false := by simpa using h
  simp only [State.writeLines, linesOf, hne, List.take_of_length_le hk, List.drop_eq_nil_of_le hk]
  cases fuel <;> rfl

theorem State.writeLines_succ (s : State) (fuel a : Nat) {bs : List Byte} (h : bs ≠ []) : s.writeLines (fuel + 1) a bs =
    (s.writeLine a (bs.take (64 - a % 64))).writeLines fuel (a + (64 - a % 64)) (bs.drop (64 - a % 64)) := by
  have hne : bs.isEmpty = false := by simpa using h
  simp [State.writeLines, linesOf, hne]

theorem State.writeLines_wrote (s : State) (fuel a : Nat) (bs : List Byte) : s.Wrote a (a + bs.length) (s.writeLines fuel a bs) := by
  induction fuel generalizing s a bs with
  | zero => exact State.Wrote.refl _ _ _
  | succ fuel ih =>
    by_cases hbs : bs = []
    · rw [hbs, State.writeLines_nil]
      exact State.Wrote.refl _ _ _
    · by_cases hk : bs.length ≤ 64 - a % 64
      · rw [State.writeLines_line _ _ _ hbs hk]
        exact s.writeLine_wrote a bs
      · rw [State.writeLines_succ _ _ _ hbs]
        exact ((s.writeLine_wrote _ _).widen (Nat.le_refl _) (by simp)).trans ((ih _ _ _).widen (by omega) (by simp; omega))

/-- A line of the extent that the host may hold leaves a write waiting (R338). -/
theorem State.writeLines_owes {s : State} {fuel a l : Nat} {bs : List Byte} (hw : s.mem.writer ≠ wbOwner) (hl : l ∈ s.mem.snoop)
    (hpos : 0 < bs.length) (hover : overlaps a bs.length (64 * l) 64 = true) (hfuel : a % 64 + bs.length ≤ 64 * fuel) :
    (s.writeLines fuel a bs).mem.owes s.mem.writer = true := by
  simp only [overlaps, Bool.and_eq_true, decide_eq_true_eq] at hover
  induction fuel generalizing s a bs with
  | zero => omega
  | succ fuel ih =>
    rw [State.writeLines_succ _ _ _ (List.ne_nil_of_length_pos hpos)]
    have hline := s.writeLine_wrote a (bs.take (64 - a % 64))
    by_cases hhead : a / 64 ∈ s.mem.snoop
    · exact (State.writeLines_wrote _ _ _ _).owes _ hw (State.writeLine_owes _ hhead)
    · have hne : l ≠ a / 64 := fun e => hhead (e ▸ hl)
      rw [← hline.writer] at hw ⊢
      refine ih hw (hline.snoop ▸ hl) ?_ ?_ ?_ <;> rw [List.length_drop] <;> omega

/-! ### Bytes that are stored -/

theorem memWrite_append (m : Memory) (a : Nat) (b c : List Byte) : memWrite m a (b ++ c) = memWrite (memWrite m a b) (a + b.length) c := by
  induction b generalizing m a with
  | nil => rfl
  | cons x b ih => rw [List.cons_append, memWrite, memWrite, ih, List.length_cons, Nat.add_right_comm, Nat.add_assoc]

/-- What a read finds of bytes written before and behind others. -/
theorem memRead_memWrite_middle {m : Memory} (h : m.wf = true) (a : Nat) (pre bs post : List Byte) :
    memRead (memWrite m a (pre ++ bs ++ post)) (a + pre.length) bs.length = bs := by
  rw [← memRead_drop_take _ a (pre ++ bs ++ post).length _ _ (by simp), memRead_memWrite h]
  simp

/-- A stored page: its bytes stand, and no write waits that did not wait before (R282, R309). -/
theorem State.putPage_stores (s : State) {a : Nat} {bs : List Byte} (h : s.mem.pageRetired (a / 65536) = false) :
    (s.putPage a bs).mem.cells = memWrite s.mem.cells a bs := by
  unfold State.putPage
  split
  next hnil =>
    rw [List.isEmpty_iff.mp hnil]
    rfl
  next => rw [if_neg (by simp [h])]

theorem State.putPage_waiting (s : State) (a : Nat) (bs : List Byte) : (s.putPage a bs).mem.waiting ⊆ s.mem.waiting := by
  unfold State.putPage
  split
  · exact List.Subset.refl _
  · split
    · exact List.Subset.refl _
    · exact List.filter_subset_self _

/-- Where the host may hold no line of an extent, no write of it waits (R338). -/
theorem State.writeLines_waiting {s : State} (fuel : Nat) {a : Nat} {bs : List Byte} (h : s.Untracked a bs.length) :
    (s.writeLines fuel a bs).mem.waiting ⊆ s.mem.waiting := by
  induction fuel generalizing s a bs with
  | zero => exact List.Subset.refl _
  | succ fuel ih =>
    by_cases hbs : bs = []
    · rw [hbs, State.writeLines_nil]
      exact List.Subset.refl _
    · have hpos := List.length_pos_of_ne_nil hbs
      have hout := State.Untracked.head h hpos
      by_cases hk : bs.length ≤ 64 - a % 64
      · rw [State.writeLines_line _ _ _ hbs hk, State.writeLine_untracked _ hout]
        exact s.putPage_waiting _ _
      · have hline := s.writeLine_wrote a (bs.take (64 - a % 64))
        have htail := State.Untracked.behind h hline.snoop (Nat.le_of_not_le hk)
        rw [← List.length_drop] at htail
        rw [State.writeLines_succ _ _ _ hbs]
        refine List.Subset.trans (ih htail) ?_
        rw [State.writeLine_untracked _ hout]
        exact s.putPage_waiting _ _

/-- Where besides no page is retired, the bytes are stored (R282, R293). -/
theorem State.writeLines_stores {s : State} {fuel a : Nat} {bs : List Byte} (h : s.Untracked a bs.length)
    (hret : ∀ q, a ≤ q → q < a + bs.length → s.mem.pageRetired (q / 65536) = false) (hfuel : a % 64 + bs.length ≤ 64 * fuel) :
    (s.writeLines fuel a bs).mem.cells = memWrite s.mem.cells a bs := by
  induction fuel generalizing s a bs with
  | zero =>
    obtain rfl : bs = [] := List.eq_nil_of_length_eq_zero (by omega)
    rfl
  | succ fuel ih =>
    by_cases hbs : bs = []
    · rw [hbs, State.writeLines_nil]
      rfl
    · have hpos := List.length_pos_of_ne_nil hbs
      have hout := State.Untracked.head h hpos
      have hpage := hret a (Nat.le_refl _) (by omega)
      by_cases hk : bs.length ≤ 64 - a % 64
      · rw [State.writeLines_line _ _ _ hbs hk, State.writeLine_untracked _ hout, s.putPage_stores hpage]
      · have hline := s.writeLine_wrote a (bs.take (64 - a % 64))
        have htail := State.Untracked.behind h hline.snoop (Nat.le_of_not_le hk)
        rw [← List.length_drop] at htail
        rw [State.writeLines_succ _ _ _ hbs, ih htail (fun q h1 h2 => ?_) (by rw [List.length_drop]; omega),
          State.writeLine_untracked _ hout, s.putPage_stores hpage]
        · conv_rhs => rw [← List.take_append_drop (64 - a % 64) bs, memWrite_append, List.length_take_of_le (Nat.le_of_not_le hk)]
        · rw [hline.retired]
          rw [List.length_drop] at h2
          exact hret q (by omega) (by omega)

/-! ### Whole beats -/

/-- The beats that an extent touches (R282). -/
theorem State.writeDev_beats (s : State) (a : Nat) {bs : List Byte} (h : bs ≠ []) : ∃ k pre post,
    s.writeDev a bs = ({ s with freeCtr := k } : State).writeBeats (a / 32 * 32) (pre ++ bs ++ post)
      ∧ a / 32 * 32 + pre.length = a ∧ a + bs.length + post.length = roundUp (a + bs.length) 32 := by
  have hne : bs.isEmpty = false := by simpa using h
  unfold State.writeDev
  rw [hne, if_neg (by simp)]
  split
  next hal =>
    refine ⟨s.freeCtr, [], [], ?_, ?_, ?_⟩
    · rw [show a / 32 * 32 = a by omega, List.nil_append, List.append_nil]
    · simp; omega
    · simp only [List.length_nil, roundUp, ceilDiv]; omega
  next =>
    refine ⟨s.freeCtr + 1, _, _, rfl, ?_, ?_⟩
    · simp; omega
    · simp [roundUp, ceilDiv]; omega

/-- A write touches nothing outside its beats. -/
theorem State.writeIo_wrote (s : State) (a : Nat) (bs : List Byte) :
    s.Wrote (a / 32 * 32) (roundUp (a + bs.length) 32) (s.writeIo a bs) := by
  unfold State.writeIo
  split
  · by_cases hbs : bs = []
    · subst hbs
      exact State.Wrote.refl _ _ _
    · obtain ⟨k, pre, post, hdev, hpre, hpost⟩ := s.writeDev_beats a hbs
      rw [hdev, State.writeBeats_eq]
      exact (s.wrote_freeCtr _ _ k).trans ((State.writeLines_wrote _ _ _ _).widen (Nat.le_refl _) (by simp; omega))
  · exact State.Wrote.refl _ _ _

section
variable {s : State} {a : Nat} {bs : List Byte} (hbs : bs ≠ []) (hreach : s.ioReach a = true)
include hbs hreach

/-- Where the host may hold no line of its beats, nothing of a write waits (R338). -/
theorem State.writeIo_waiting (h : s.Untracked (a / 32 * 32) (roundUp (a + bs.length) 32 - a / 32 * 32)) :
    (s.writeIo a bs).mem.waiting ⊆ s.mem.waiting := by
  obtain ⟨k, pre, post, hdev, hpre, hpost⟩ := s.writeDev_beats a hbs
  have hlen : roundUp (a + bs.length) 32 - a / 32 * 32 = (pre ++ bs ++ post).length := by simp; omega
  rw [hlen] at h
  rw [State.writeIo, if_pos hreach, hdev]
  exact State.writeLines_waiting _ h

/-- A write of memory that is not retired, of which the host may hold no line, stands (R282, R293, R338). -/
theorem State.writeIo_reads (h : s.Untracked (a / 32 * 32) (roundUp (a + bs.length) 32 - a / 32 * 32)) (hwf : s.mem.cells.wf = true)
    (hret : s.mem.touchesRetired a bs.length = false) : memRead (s.writeIo a bs).mem.cells a bs.length = bs := by
  obtain ⟨k, pre, post, hdev, hpre, hpost⟩ := s.writeDev_beats a hbs
  have hpos := List.length_pos_of_ne_nil hbs
  have hlen : roundUp (a + bs.length) 32 - a / 32 * 32 = (pre ++ bs ++ post).length := by simp; omega
  have hend : a / 32 * 32 + (pre ++ bs ++ post).length = roundUp (a + bs.length) 32 := by simp; omega
  rw [hlen] at h
  rw [State.writeIo, if_pos hreach, hdev, State.writeBeats_eq, State.writeLines_stores (s := { s with freeCtr := k }) h ?_ (by omega)]
  · have hread := memRead_memWrite_middle hwf (a / 32 * 32) pre bs post
    rwa [hpre] at hread
  · intro q h1 h2
    rw [hend] at h2
    exact Mem.pageRetired_of_touches hret hpos (by omega) (by simp only [roundUp, ceilDiv] at h2; omega)

/-- Where the host may hold a line of its beats, a part of a write waits (R338). -/
theorem State.writeIo_owes (h : ¬ s.Untracked (a / 32 * 32) (roundUp (a + bs.length) 32 - a / 32 * 32)) (hw : s.mem.writer ≠ wbOwner) :
    (s.writeIo a bs).mem.owes s.mem.writer = true := by
  obtain ⟨k, pre, post, hdev, hpre, hpost⟩ := s.writeDev_beats a hbs
  have hpos := List.length_pos_of_ne_nil hbs
  have hlen : roundUp (a + bs.length) 32 - a / 32 * 32 = (pre ++ bs ++ post).length := by simp; omega
  rw [hlen] at h
  obtain ⟨l, hl, hover⟩ : ∃ l ∈ s.mem.snoop, overlaps (a / 32 * 32) (pre ++ bs ++ post).length (64 * l) 64 = true := by
    simpa [State.Untracked] using h
  rw [State.writeIo, if_pos hreach, hdev]
  exact State.writeLines_owes (s := { s with freeCtr := k }) hw hl (by simp; omega) hover (by omega)

end

end Sys2Proof.Machine
end

section
/-!
O16. LOAD_TRACKERS and SAVE_TRACKERS (R182, R282, R338, R369, Tables 6.9 and 6.10).
-/
namespace Sys2Proof.Machine

open Sys2Proof

theorem Mem.owes_false_of_subset {m k : Mem} {n : Nat} (h : m.owes n = false) (hsub : k.waiting ⊆ m.waiting) : k.owes n = false := by
  rw [Mem.owes, List.any_eq_false] at h ⊢
  exact fun w hw => h w (hsub hw)

/-- A completion whose command has device writes that wait, waits with them (R338). -/
theorem State.complete_owing {s : State} {n : Nat} (status : Nat) (data : List Byte) (hn : n < 4) (hw : s.mem.owes n = true) :
    s.complete n status data = { s with late := s.late ++ [⟨n, status, data⟩] } := by
  unfold State.complete
  rw [if_neg (by omega), if_pos hw]

/-! ### A command whose body ends with a write of device memory -/

section
variable {s : State} {c : Sub} {op : Nat} {i : Instr} {a : Nat} {bs d : List Byte} (hi : exec i s = .next (s.command c op)) (h : s.Takes c)
  (ho : op < 0x0F00) (hj : (s.submitted c op).judge' (asked c op) = none)
  (hb : State.romBody (asked c op) (s.running c op) = ((s.running c op).writeIo a bs).complete c.mbx stOK d)
  (hbs : bs ≠ []) (hreach : s.ioReach a = true)
include hi h ho hj hb hbs hreach

/-- Where the host may hold no line of the beats, the bytes stand and the command completes (R282, R338). -/
theorem State.command_writes (hun : s.Untracked (a / 32 * 32) (roundUp (a + bs.length) 32 - a / 32 * 32)) (hwf : s.mem.cells.wf = true)
    (hret : s.mem.touchesRetired a bs.length = false) :
    ∃ t, exec i s = .next t ∧ s.Answers c 0 d [.mem, .freeCtr] t ∧ memRead t.mem.cells a bs.length = bs
      ∧ ∀ q, q < a / 32 * 32 ∨ roundUp (a + bs.length) 32 ≤ q → memGet t.mem.cells q = memGet s.mem.cells q := by
  have hwrote := (s.running c op).writeIo_wrote a bs
  have howes : ((s.running c op).writeIo a bs).mem.owes c.mbx = false :=
    Mem.owes_false_of_subset h.settled (State.writeIo_waiting (s := s.running c op) hbs hreach hun)
  obtain ⟨hexec, hans⟩ := State.command_answers hi h ho hj hb hwrote.frame.mailboxes_eq howes hwrote.frame
  refine ⟨_, hexec, ⟨hans.holds, hans.others, hans.frame.weaken (by simp)⟩, ?_, ?_⟩
  all_goals rw [State.deliver_frame _ c.mbx stOK d .mem (by simp)]
  · exact State.writeIo_reads (s := s.running c op) hbs hreach hun hwf hret
  · exact hwrote.outside

/-- Where the host may hold a line of the beats, the completion waits for its answer (R338). -/
theorem State.command_writes_waits (hun : ¬ s.Untracked (a / 32 * 32) (roundUp (a + bs.length) 32 - a / 32 * 32)) :
    ∃ t, exec i s = .next t ∧ (t.mbx c.mbx).own = true ∧ t.late = s.late ++ [⟨c.mbx, 0, d⟩] ∧ t.mem.owes c.mbx = true
      ∧ Frame [.mailboxes, .mem, .late, .out, .freeCtr] s t
      ∧ ∀ q, q < a / 32 * 32 ∨ roundUp (a + bs.length) 32 ≤ q → memGet t.mem.cells q = memGet s.mem.cells q := by
  have hwrote := (s.running c op).writeIo_wrote a bs
  have hmbx := h.mailbox
  have howes : ((s.running c op).writeIo a bs).mem.owes c.mbx = true :=
    State.writeIo_owes (s := s.running c op) hbs hreach hun (show c.mbx ≠ wbOwner by unfold wbOwner; omega)
  rw [State.complete_owing stOK d hmbx howes] at hb
  have hrun : exec i s = .next (State.writingFor
      { (s.running c op).writeIo a bs with late := ((s.running c op).writeIo a bs).late ++ [⟨c.mbx, stOK, d⟩] } s.mem.writer) := by
    rw [hi, State.command_takes h ho hj, State.runRom]
    exact congrArg (fun t : State => Host.Outcome.next (t.writingFor s.mem.writer)) hb
  have hlate : ((s.running c op).writeIo a bs).late = s.late := hwrote.frame .late (by simp)
  refine ⟨_, hrun, ?_, congrArg (· ++ _) hlate, howes, fun p hp => ?_, hwrote.outside⟩
  · have hown : ((s.running c op).writeIo a bs).mbx c.mbx = (s.submitted c op).mbx c.mbx := by
      simp only [State.mbx, hwrote.frame.mailboxes_eq]
      rfl
    have hsub : ((s.submitted c op).mbx c.mbx).own = true := by rw [State.submitted_mbx h op]
    exact hown ▸ hsub
  · have hkept := hwrote.frame p
    cases p with
    | mailboxes | mem | late | out | freeCtr => simp at hp
    | _ => exact hkept (by simp)

end

/-! ### SAVE_TRACKERS -/

/-- SAVE_TRACKERS at an address that its checks pass writes the image and completes (R182, R369). -/
theorem cmdSaveTrackers_saves {s : State} {c : Sub} {pl : Plan} (hn : fieldLe c.payload 0 1 < 4) (hz : zeroAt c.payload 1 7 = true)
    (hplan : (s.slot (fieldLe c.payload 0 1)).plan = some pl) {len : Nat} (hlen : len = 64 + 320 * pl.layers.length)
    (hend : fieldLe c.payload 8 8 + len ≤ devEnd) (hallocs : ∀ x ∈ s.allocs, x.hits (fieldLe c.payload 8 8) len = false)
    (hring : s.ringHits (fieldLe c.payload 8 8) len = false) (hland : s.landing = true → fieldLe c.payload 8 8 + len ≤ landBase)
    (hret : s.mem.touchesRetired (fieldLe c.payload 8 8) len = false) :
    cmdSaveTrackers ⟨c.mbx, c.payload, c.env⟩ s =
      (s.writeIo (fieldLe c.payload 8 8) ((s.slot (fieldLe c.payload 0 1)).trackerImage pl)).complete c.mbx stOK
        (toLe 4 len ++ toLe 4 0 ++ toLe 8 ((s.slot (fieldLe c.payload 0 1)).commitStep.getD noStep).toNat) := by
  have hfree : s.allocs.any (fun x => x.hits (fieldLe c.payload 8 8) len) = false := by simpa using hallocs
  have hclear : ¬ (s.landing = true ∧ overlaps landBase (devEnd - landBase) (fieldLe c.payload 8 8) len = true) := by
    rintro ⟨hl, ho⟩
    have := hland hl
    simp only [overlaps, Bool.and_eq_true, decide_eq_true_eq] at ho
    omega
  unfold cmdSaveTrackers
  dsimp only
  rw [if_neg (by simp [hz]; omega), hplan]
  dsimp only
  rw [← hlen, if_neg (by rw [hfree, hring, hret]; simp [hclear]; omega)]
  rfl

/-! ### The obligation -/

/-- Settles O16: LOAD_TRACKERS by the checks that the image passes, SAVE_TRACKERS by what a write of device memory can do. -/
theorem trackersSaveAndLoad : Obligations.TrackersSaveAndLoad := by
  refine ⟨fun s c n x pl h ho hn hslots hpay hf hz hidle hplan htag hlayers hwiden hparse hcount _ him =>
      exec_loadTrackers h ho hslots hn hpay hf hz hidle hplan ⟨htag, hlayers, hwiden, hparse, hcount⟩ him,
    ?_⟩
  intro s c n pl h ho hn hwf hpay hf hz hplan hcount _ a len hend hallocs hring hland hret hreach lo hi d
  subst hf
  have hj := State.judge'_slotImage h ho hpay (op := 0x0107) (by simp) (.inl rfl)
  have hbody : State.romBody (asked c 0x0107) (s.running c 0x0107) =
      ((s.running c 0x0107).writeIo a ((s.slot (fieldLe c.payload 0 1)).trackerImage pl)).complete c.mbx stOK d :=
    cmdSaveTrackers_saves (s := s.running c 0x0107) hn hz hplan rfl hend hallocs hring hland hret
  have himage : ((s.slot (fieldLe c.payload 0 1)).trackerImage pl).length = len := by rw [Slot.length_trackerImage, hcount]
  have hne : (s.slot (fieldLe c.payload 0 1)).trackerImage pl ≠ [] := List.ne_nil_of_length_pos (by omega)
  have hwrites := State.command_writes (i := .saveTrackers c) rfl h (by decide) hj hbody hne hreach
  have hwaits := State.command_writes_waits (i := .saveTrackers c) rfl h (by decide) hj hbody hne hreach
  rw [himage] at hwrites hwaits
  exact ⟨fun hun => hwrites hun hwf hret, hwaits⟩

end Sys2Proof.Machine
end

section
/-!
SUPPORT. The allocator for a command that Beryl runs: for whom device writes are made plays no part in what it finds (R72; log 10), and what it
leaves.
-/
namespace Sys2Proof.Machine

open Sys2Proof

/-! ### Places -/

theorem State.place1_writingFor (s : State) (w : Nat) (extra : List (Nat × Nat)) (n : Nat) :
    (s.writingFor w).place1 extra n = (s.place1 extra n).map fun q => (q.1, q.2.writingFor w) := by
  have hgaps : (s.writingFor w).gaps extra n = s.gaps extra n := rfl
  unfold State.place1
  rw [hgaps]
  cases s.gaps extra n <;> rfl

theorem State.placeAll_writingFor (s : State) (w : Nat) (extra : List (Nat × Nat)) (ns : List Nat) :
    (s.writingFor w).placeAll extra ns = (s.placeAll extra ns).map fun q => (q.1, q.2.writingFor w) := by
  induction ns generalizing s extra with
  | nil => rfl
  | cons n ns ih =>
    by_cases hn : n = 0
    · simp only [State.placeAll, if_pos hn, ih]
      cases s.placeAll extra ns <;> rfl
    · simp only [State.placeAll, if_neg hn, State.place1_writingFor]
      cases s.place1 extra n with
      | none => rfl
      | some q =>
        simp only [Option.map_some, ih]
        cases q.2.placeAll ((q.1, n) :: extra) ns <;> rfl

/-- Finding places draws free values and changes nothing else (log 10). -/
theorem State.placeAll_eq {s t : State} {extra : List (Nat × Nat)} {ns as : List Nat} (h : s.placeAll extra ns = some (as, t)) :
    t = { s with freeCtr := t.freeCtr } := by
  induction ns generalizing s extra as with
  | nil =>
    cases h
    rfl
  | cons n ns ih =>
    unfold State.placeAll at h
    split at h
    · split at h
      · cases h
      next hrest =>
        cases h
        exact ih hrest
    · split at h
      · cases h
      next hplace =>
        split at h
        · cases h
        next hrest =>
          cases h
          obtain ⟨rfl, -⟩ := State.place1_spec hplace
          have hfree := ih hrest
          exact hfree

/-! ### Shares of tracker entries -/

/-- No share holds an entry of the slot. -/
def State.clearEntries (s : State) (n : Nat) : State :=
  { s with towers := s.towers.map fun (t : Tower) => { t with entries := t.entries.filter fun e => e.1 != n } }

/-- One tracker entry for each layer of the slot, over the towers `ts` in turn (R160). -/
def State.spreadEntries (s : State) (n : Nat) (ts : List Nat) (k : Nat) : State :=
  (List.range k).foldl (fun (s : State) l => s.modTower (ts.getD (l % ts.length) 0) fun t => { t with entries := t.entries ++ [(n, l)] }) s

/-- The towers in service, which the entries of a slot go to. -/
def State.sharers (s : State) (n : Nat) : List Nat := (List.range 324).filter fun t => ((s.clearEntries n).tower t).inService

theorem State.shareEntries_eq (s : State) (n k : Nat) : s.shareEntries n k =
    if k > 64 * (s.sharers n).length then none
    else if ((s.clearEntries n).spreadEntries n (s.sharers n) k).towers.any (fun t => decide (t.entries.length > 64)) then none
    else some ((s.clearEntries n).spreadEntries n (s.sharers n) k) := rfl

theorem State.spreadEntries_writingFor (s : State) (w n : Nat) (ts : List Nat) (k : Nat) :
    (s.writingFor w).spreadEntries n ts k = (s.spreadEntries n ts k).writingFor w :=
  List.foldl_hom (State.writingFor · w) fun _ _ => rfl

theorem State.shareEntries_writingFor (s : State) (w n k : Nat) :
    (s.writingFor w).shareEntries n k = (s.shareEntries n k).map (State.writingFor · w) := by
  have hsharers : (s.writingFor w).sharers n = s.sharers n := rfl
  have hclear : (s.writingFor w).clearEntries n = (s.clearEntries n).writingFor w := rfl
  rw [State.shareEntries_eq, State.shareEntries_eq, hsharers, hclear, State.spreadEntries_writingFor]
  split
  · rfl
  · rw [apply_ite (Option.map (State.writingFor · w))]
    rfl

/-- The shares lie in the towers, and nothing else changes. -/
theorem State.shareEntries_frame {s t : State} {n k : Nat} (h : s.shareEntries n k = some t) : Frame [.towers] s t := by
  have hspread (ts l : List Nat) (u : State) : Frame [.towers] u
      (l.foldl (fun (s : State) l => s.modTower (ts.getD (l % ts.length) 0) fun t => { t with entries := t.entries ++ [(n, l)] }) u) := by
    induction l generalizing u with
    | nil => exact Frame.refl _ _
    | cons x l ih => exact Frame.trans (u.modTower_frame _ _) (ih _) (by simp) (by simp)
  rw [State.shareEntries_eq] at h
  split at h
  · cases h
  · split at h
    · cases h
    · cases h
      exact Frame.trans (s.set_towers_frame _) (hspread _ _ _) (by simp) (by simp)

/-! ### Writes while the host holds no line -/

/-- What writes of device memory leave while the host may hold no line: memory and free values change, and no write waits that did not wait
before (R338). -/
structure State.Stores (s t : State) : Prop where
  frame : Frame [.mem, .out, .freeCtr] s t
  snoop : t.mem.snoop = s.mem.snoop
  waiting : s.mem.snoop = [] → t.mem.waiting ⊆ s.mem.waiting

theorem State.Stores.refl (s : State) : s.Stores s := ⟨Frame.refl _ _, rfl, fun _ => List.Subset.refl _⟩

theorem State.Stores.trans {s t u : State} (h : s.Stores t) (k : t.Stores u) : s.Stores u where
  frame := Frame.trans h.frame k.frame (by simp) (by simp)
  snoop := k.snoop.trans h.snoop
  waiting hs := List.Subset.trans (k.waiting (h.snoop.trans hs)) (h.waiting hs)

theorem State.stores_freeCtr (s : State) (k : Nat) : s.Stores { s with freeCtr := k } :=
  ⟨(s.set_freeCtr_frame k).weaken (by simp), rfl, fun _ => List.Subset.refl _⟩

theorem State.writeIo_stores (s : State) (a : Nat) (bs : List Byte) : s.Stores (s.writeIo a bs) := by
  refine ⟨s.writeIo_frame a bs, (s.writeIo_wrote a bs).snoop, fun hs => ?_⟩
  by_cases hreach : s.ioReach a = true
  · by_cases hbs : bs = []
    · rw [hbs, State.writeIo, if_pos hreach]
      exact List.Subset.refl _
    · exact State.writeIo_waiting hbs hreach (by simp [State.Untracked, hs])
  · rw [State.writeIo, if_neg hreach]
    exact List.Subset.refl _

theorem State.putPage_writingFor (s : State) (w a : Nat) (bs : List Byte) : (s.writingFor w).putPage a bs = (s.putPage a bs).writingFor w := by
  have hretired : (s.writingFor w).mem.pageRetired = s.mem.pageRetired := rfl
  unfold State.putPage
  rw [hretired]
  split
  · rfl
  · split <;> rfl

section
variable {s : State} (hs : s.mem.snoop = []) (w : Nat)
include hs

theorem State.writeLines_writingFor (fuel a : Nat) (bs : List Byte) :
    (s.writingFor w).writeLines fuel a bs = (s.writeLines fuel a bs).writingFor w := by
  unfold State.writeLines
  generalize linesOf fuel a bs = l
  induction l generalizing s with
  | nil => rfl
  | cons q l ih =>
    have hline : (s.writingFor w).writeLine q.1 q.2 = (s.writeLine q.1 q.2).writingFor w := by
      rw [State.writeLine_untracked (s := s.writingFor w) _ (by simp [State.writingFor, hs]), State.writeLine_untracked _ (by simp [hs]),
        State.putPage_writingFor]
    rw [List.foldl_cons, List.foldl_cons, hline]
    exact ih ((s.writeLine_wrote _ _).snoop.trans hs)

theorem State.writeIo_writingFor (a : Nat) (bs : List Byte) : (s.writingFor w).writeIo a bs = (s.writeIo a bs).writingFor w := by
  have hreach : (s.writingFor w).ioReach a = s.ioReach a := rfl
  unfold State.writeIo State.writeDev
  rw [hreach]
  split
  · split
    · rfl
    · split
      · exact State.writeLines_writingFor hs w _ _ _
      · exact State.writeLines_writingFor (s := { s with freeCtr := s.freeCtr + 1 }) hs w _ _ _
  · rfl

end

/-! ### The state of a coefficient table -/

/-- Allocations filled with zeros. -/
def State.zeroAllocs (s : State) (l : List Alloc) : State := l.foldl (fun s (a : Alloc) => s.writeIo a.addr (List.replicate a.len 0)) s

theorem State.zeroAllocs_stores (s : State) (l : List Alloc) : s.Stores (s.zeroAllocs l) := by
  induction l generalizing s with
  | nil => exact State.Stores.refl s
  | cons a l ih => exact (s.writeIo_stores _ _).trans (ih _)

theorem State.zeroAllocs_writingFor {s : State} (hs : s.mem.snoop = []) (w : Nat) (l : List Alloc) :
    (s.writingFor w).zeroAllocs l = (s.zeroAllocs l).writingFor w := by
  induction l generalizing s with
  | nil => rfl
  | cons a l ih =>
    simp only [State.zeroAllocs, List.foldl_cons, State.writeIo_writingFor hs]
    exact ih ((s.writeIo_stores _ _).snoop.trans hs)

section
variable {s : State} {p : Program} {n : Nat} {es : List Coeff} {kept : List (Nat × Nat)} {made : List Alloc}

theorem State.newState_writingFor (hs : s.mem.snoop = []) (w : Nat) (wr : WeightRec) :
    (s.writingFor w).newState p n es kept wr made = (s.newState p n es kept wr made).map fun q => (q.1, q.2.1, q.2.2.writingFor w) := by
  have hslot : (s.writingFor w).slot n = s.slot n := rfl
  unfold State.newState
  rw [hslot]
  rcases p.desc wr.desc with _ | d
  · rfl
  rcases es[wr.entry]? with _ | e
  · rfl
  simp only [Option.bind_eq_bind, Option.bind_some]
  split
  · rfl
  · rw [State.placeAll_writingFor]
    rcases hplace : s.placeAll _ _ with _ | ⟨as, t⟩
    · rfl
    · have ht : t.mem.snoop = [] := (congrArg (fun u : State => u.mem.snoop) (State.placeAll_eq hplace)).trans hs
      simp only [Option.map_some, Option.bind_some, Option.some.injEq, Prod.mk.injEq, true_and]
      exact State.zeroAllocs_writingFor ht w _

/-- A weight has its state under its own descriptor and entry (R238, R239). -/
theorem State.newState_spec {t : State} {wr : WeightRec} {o : OptState} {made' : List Alloc}
    (h : s.newState p n es kept wr made = some (o, made', t)) : o.desc = wr.desc ∧ o.entry = wr.entry ∧ s.Stores t := by
  unfold State.newState at h
  simp only [Option.bind_eq_bind, Option.bind_eq_some_iff] at h
  obtain ⟨d, -, e, -, h⟩ := h
  split at h
  next old hold =>
    cases h
    have hdesc := List.find?_some hold
    rw [Bool.and_eq_true, beq_iff_eq] at hdesc
    exact ⟨hdesc.1, rfl, State.Stores.refl s⟩
  next =>
    simp only [Option.bind_eq_some_iff] at h
    obtain ⟨⟨as, u⟩, hplace, h⟩ := h
    cases h
    refine ⟨rfl, rfl, State.Stores.trans ?_ (u.zeroAllocs_stores _)⟩
    rw [State.placeAll_eq hplace]
    exact s.stores_freeCtr _

end

section
variable {p : Program} {n : Nat} {es : List Coeff} {kept : List (Nat × Nat)}

theorem State.newStates_writingFor {s : State} (hs : s.mem.snoop = []) (w : Nat) (ws : List WeightRec) (made : List Alloc) :
    (s.writingFor w).newStates p n es kept ws made = (s.newStates p n es kept ws made).map fun q => (q.1, q.2.1, q.2.2.writingFor w) := by
  induction ws generalizing s made with
  | nil => rfl
  | cons wr ws ih =>
    simp only [State.newStates, State.newState_writingFor hs]
    rcases hnew : s.newState p n es kept wr made with _ | ⟨o, made1, s1⟩
    · rfl
    · have hs1 := (State.newState_spec hnew).2.2.snoop.trans hs
      simp only [Option.map_some, ih hs1]
      rcases s1.newStates p n es kept ws made1 with _ | ⟨os, made2, s2⟩ <;> rfl

theorem State.newStates_spec {s t : State} {ws : List WeightRec} {made made' : List Alloc} {os : List OptState}
    (h : s.newStates p n es kept ws made = some (os, made', t)) :
    os.map OptState.desc = ws.map WeightRec.desc ∧ os.map OptState.entry = ws.map WeightRec.entry ∧ s.Stores t := by
  induction ws generalizing s made os with
  | nil =>
    cases h
    exact ⟨rfl, rfl, State.Stores.refl _⟩
  | cons wr ws ih =>
    unfold State.newStates at h
    split at h
    · cases h
    next hnew =>
      split at h
      · cases h
      next hrest =>
        cases h
        obtain ⟨hdesc, hentry, hone⟩ := State.newState_spec hnew
        obtain ⟨hdescs, hentries, hall⟩ := ih hrest
        exact ⟨by simp [hdesc, hdescs], by simp [hentry, hentries], hone.trans hall⟩

end

end Sys2Proof.Machine
end

section
/-!
O14. LOAD_PLAN and LOAD_COEFF (R160, R162, R176, R181, R234 to R239).
-/
namespace Sys2Proof.Machine

open Sys2Proof

/-- A slot set twice, and the other slots. -/
theorem State.slots_modSlot_twice {s t : State} {n : Nat} {f g : Slot → Slot} (hn : n < s.slots.length)
    (ht : t.slots = ((s.modSlot n f).modSlot n g).slots) : t.slot n = g (f (s.slot n)) ∧ ∀ k, k ≠ n → t.slots[k]? = s.slots[k]? := by
  have hn' : n < (s.modSlot n f).slots.length := by
    rw [State.modSlot_slots, updAt_length]
    exact hn
  refine ⟨?_, fun k hk => ?_⟩
  · rw [State.slot, ht]
    exact ((s.modSlot n f).slot_modSlot_same g hn').trans (congrArg g (s.slot_modSlot_same f hn))
  · rw [ht, State.slots_modSlot_getElem?_other _ _ hk, State.slots_modSlot_getElem?_other _ _ hk]

/-! ### LOAD_PLAN -/

/-- While EN is 1 each event joins the ring's queue (R355). -/
theorem State.events_ring {α : Type} (l : List α) (src : α → EvSrc) (code : Nat) (fs : α → List (Nat × Nat)) {s : State}
    (hb : s.power.berylStop = false) :
    Frame [.evt] s (l.foldl (fun s x => s.event (src x) code (fs x)) s)
      ∧ (s.evt.en = true → (l.foldl (fun s x => s.event (src x) code (fs x)) s).evt.ring.length = s.evt.ring.length + l.length) := by
  induction l generalizing s with
  | nil => exact ⟨Frame.refl _ _, fun _ => rfl⟩
  | cons x l ih =>
    have hone := s.event_frame (src x) code (fs x)
    obtain ⟨hframe, hring⟩ := ih (s := s.event (src x) code (fs x)) (hone.power_eq ▸ hb)
    refine ⟨Frame.trans hone hframe (by simp) (by simp), fun he => ?_⟩
    rw [State.event_en s _ _ _ hb he] at hring
    have hrest := hring he
    rw [List.foldl_cons, State.event_en s _ _ _ hb he, hrest]
    simp only [List.length_append, List.length_cons, List.length_nil]
    omega

/-- A slot without the reservation of its plan. -/
def State.withoutReserve (s : State) (n : Nat) : State :=
  s.modSlot n fun y => { y with allocs := y.allocs.filter fun (a : Alloc) => a.kind != 1 }

/-- The slot of a plan in force, its trackers cold and its formats to be requantized (R162, R176, R181). -/
def Slot.planned (pl : Plan) (p : Program) (addr size : Nat) (y : Slot) : Slot :=
  { y with
    plan := some pl, reserve := addr, trackers := pl.layers.map Tracker.cold, widenLeft := 0, stormChain := false, stormHalt := false
    stale := List.range p.nLayers, allocs := y.allocs ++ (if size = 0 then ([] : List Alloc) else [⟨1, addr, size⟩]) }

/-- One TRACKER_COLD event a layer (R181). -/
def State.coldEvents (s : State) (n k : Nat) : State :=
  (List.range k).foldl (fun s l => s.event ⟨n, noStep, 0xFFFF⟩ 0x0205 [(2, l), (1, 1)]) s

/-- A checked plan is put in force where there is room for its memory and for its tracker entries. -/
def State.installPlan (s : State) (x : Cmd) (n : Nat) (p : Program) (pl : Plan) : State :=
  match (s.withoutReserve n).placeAll [] [pl.reserve p], (s.withoutReserve n).shareEntries n p.nLayers with
  | some (as, s1), some s2 =>
    ((({ s2 with freeCtr := s1.freeCtr } : State).modSlot n (Slot.planned pl p (as.headD 0) (pl.reserve p))).coldEvents n p.nLayers).done x
      (toLe 8 (pl.reserve p))
  | _, _ => s.refuse x stNO_RESOURCE 8

/-- The header of an image of another version, or for another number of layers, is not that of a plan (R162). -/
theorem parsePlan_header {p : Program} {b : List Byte} {pl : Plan} (h : parsePlan p b = some pl) :
    fieldLe b 0 2 = 0x0100 ∧ fieldLe b 2 2 = p.nLayers := by
  simp only [parsePlan, Option.bind_eq_bind, Option.bind_eq_some_iff, Option.ite_none_right_eq_some] at h
  obtain ⟨es, -, ⟨hversion, hlayers, -⟩, -⟩ := h
  exact ⟨hversion, hlayers⟩

/-- LOAD_PLAN by what its checks find of the image (R162, R164). -/
theorem cmdLoadPlan_image {s : State} {c : Sub} {n : Nat} {p : Program} {im : List Byte} (hn : n < 4) (hf : fieldLe c.payload 0 1 = n)
    (hz : zeroAt c.payload 1 7 = true) (hp : (s.slot n).prog = some p) (him : ImageAt s c 8 im) (hlen : 32 + 32 * p.nLayers ≤ im.length) :
    cmdLoadPlan ⟨c.mbx, c.payload, c.env⟩ s = match parsePlan p (im.take (32 + 32 * p.nLayers)) with
      | none => s.refuse ⟨c.mbx, c.payload, c.env⟩ stBAD_PARAM 8
      | some pl => s.installPlan ⟨c.mbx, c.payload, c.env⟩ n p pl := by
  have hfields (o k : Nat) (h : o + k ≤ 32) : fieldLe (im.take 32) o k = fieldLe (im.take (32 + 32 * p.nLayers)) o k := by
    rw [fieldLe_take h, fieldLe_take (by omega)]
  unfold cmdLoadPlan
  dsimp only
  rw [hf, if_neg (by simp [hz]; omega), hp]
  dsimp only
  rw [State.imgRead_start him (by decide) (by omega), Img.andThen_ok, hfields 0 2 (by decide), hfields 2 2 (by decide)]
  generalize himg : im.take (32 + 32 * p.nLayers) = b
  by_cases hbad : fieldLe b 0 2 ≠ 0x0100 ∨ fieldLe b 2 2 ≠ p.nLayers
  · have hnone : parsePlan p b = none := by
      rw [Option.eq_none_iff_forall_ne_some]
      intro pl hparse
      obtain ⟨hversion, hlayers⟩ := parsePlan_header hparse
      omega
    rw [if_pos hbad, hnone]
  · rw [if_neg hbad, State.imgRead_start him (by omega) hlen, himg]
    dsimp only
    cases parsePlan p b <;> rfl

/-- Is there room for the memory of a plan and for its tracker entries? -/
def State.planRoom (s : State) (n : Nat) (p : Program) (pl : Plan) : Bool :=
  ((s.withoutReserve n).placeAll [] [pl.reserve p]).isSome && ((s.withoutReserve n).shareEntries n p.nLayers).isSome

theorem State.planRoom_writingFor (s : State) (w n : Nat) (p : Program) (pl : Plan) :
    (s.writingFor w).planRoom n p pl = s.planRoom n p pl := by
  have hfree : (s.writingFor w).withoutReserve n = (s.withoutReserve n).writingFor w := rfl
  simp only [State.planRoom, hfree, State.placeAll_writingFor, State.shareEntries_writingFor, Option.isSome_map]

section
variable {s : State} {x : Cmd} {n : Nat} {p : Program} {pl : Plan}

theorem State.installPlan_noRoom (h : s.planRoom n p pl = false) : s.installPlan x n p pl = s.refuse x stNO_RESOURCE 8 := by
  unfold State.installPlan
  split
  next hplace hshare => simp [State.planRoom, hplace, hshare] at h
  next => rfl

/-- What a plan with room leaves: its slot planned, the other slots as they stood, and an event for each layer. -/
theorem State.installPlan_room (h : s.planRoom n p pl = true) (hb : s.power.berylStop = false) :
    ∃ u addr, s.installPlan x n p pl = u.complete x.mbx stOK (toLe 8 (pl.reserve p)) ∧ Frame [.towers, .slots, .evt, .freeCtr] s u
      ∧ u.slots = ((s.withoutReserve n).modSlot n (Slot.planned pl p addr (pl.reserve p))).slots
      ∧ (s.evt.en = true → u.evt.ring.length = s.evt.ring.length + p.nLayers) := by
  obtain ⟨hplace, hshare⟩ := Bool.and_eq_true_iff.mp h
  obtain ⟨⟨as, s1⟩, hplace⟩ := Option.isSome_iff_exists.mp hplace
  obtain ⟨s2, hshare⟩ := Option.isSome_iff_exists.mp hshare
  let s3 := ({ s2 with freeCtr := s1.freeCtr } : State).modSlot n (Slot.planned pl p (as.headD 0) (pl.reserve p))
  have htowers := State.shareEntries_frame hshare
  have hbefore : Frame [.towers, .slots, .freeCtr] s s3 := by
    have hshared : Frame [.towers, .slots, .freeCtr] s s2 := Frame.trans (s.modSlot_frame n _) htowers (by simp) (by simp)
    have hcounted : Frame [.towers, .slots, .freeCtr] s { s2 with freeCtr := s1.freeCtr } :=
      Frame.trans hshared (s2.set_freeCtr_frame _) (by simp) (by simp)
    exact Frame.trans hcounted (State.modSlot_frame _ n _) (by simp) (by simp)
  obtain ⟨hevents, hring⟩ := State.events_ring (List.range p.nLayers) (fun _ => ⟨n, noStep, 0xFFFF⟩) 0x0205 (fun l => [(2, l), (1, 1)])
    (s := s3) (hbefore.power_eq ▸ hb)
  refine ⟨s3.coldEvents n p.nLayers, as.headD 0, ?_, Frame.trans hbefore hevents (by simp) (by simp), ?_, fun he => ?_⟩
  · simp only [State.installPlan, hplace, hshare]
    rfl
  · refine hevents.slots_eq.trans ?_
    simp only [s3, State.modSlot_slots, htowers.slots_eq]
  · have hlen := hring (hbefore.evt_eq ▸ he)
    rw [List.length_range, hbefore.evt_eq] at hlen
    exact hlen

end

section
variable {s : State} {c : Sub} {n : Nat} {p : Program} (h : s.Takes c) (ho : s.Open) (hslots : s.slots.length = 4) (hn : n < 4)
  (hpay : c.payload.length = 16) (hf : fieldLe c.payload 0 1 = n) (hz : zeroAt c.payload 1 7 = true) (hidle : s.slotRunning n = false)
  (hp : (s.slot n).prog = some p)
include h ho hslots hn hpay hf hz hidle hp

/-- LOAD_PLAN by what its checks find and by the room that there is (R160, R162, R176, R181). -/
theorem exec_loadPlan {im : List Byte} (him : ImageAt s c 8 im) (hlen : 32 + 32 * p.nLayers ≤ im.length) :
    match parsePlan p (im.take (32 + 32 * p.nLayers)) with
    | none => ∃ t, exec (.loadPlan c) s = .next t ∧ s.Answers c 0x0011 (List.replicate 8 0) [] t
    | some pl =>
      ((s.submitted c 0x0104).planRoom n p pl = true → ∃ t, exec (.loadPlan c) s = .next t
        ∧ s.Answers c 0 (toLe 8 (pl.reserve p)) [.towers, .slots, .evt, .freeCtr] t
        ∧ (t.slot n).plan = some pl ∧ (t.slot n).trackers = pl.layers.map Tracker.cold ∧ (t.slot n).prog = some p
        ∧ (t.slot n).stormHalt = false ∧ (t.slot n).widenLeft = 0 ∧ (∀ k, k ≠ n → t.slots[k]? = s.slots[k]?)
        ∧ (s.evt.en = true → t.evt.ring.length = s.evt.ring.length + p.nLayers))
      ∧ ((s.submitted c 0x0104).planRoom n p pl = false → ∃ t, exec (.loadPlan c) s = .next t
        ∧ s.Answers c 0x0020 (List.replicate 8 0) [] t) := by
  have hj := State.judge'_slotImage h ho hpay (op := 0x0104) (by simp) (.inr (hf ▸ hidle))
  have hbody : State.romBody (asked c 0x0104) (s.running c 0x0104) = _ :=
    cmdLoadPlan_image (s := s.running c 0x0104) hn hf hz hp (him.running _) hlen
  split
  next hparse =>
    rw [hparse] at hbody
    exact State.command_unchanged rfl h (by decide) hj hbody
  next pl hparse =>
    rw [hparse] at hbody
    have hroom := (s.submitted c 0x0104).planRoom_writingFor c.mbx n p pl
    refine ⟨fun hyes => ?_, fun hno => ?_⟩
    · obtain ⟨u, addr, hinst, hframe, hafter, hring⟩ := State.installPlan_room (s := s.running c 0x0104)
        (x := ⟨c.mbx, c.payload, c.env⟩) (hroom.trans hyes) h.runs
      obtain ⟨hexec, hans⟩ := State.command_answers (i := .loadPlan c) rfl h (by decide) hj (hbody.trans hinst) hframe.mailboxes_eq
        (hframe .mem (by simp) ▸ h.settled) hframe
      have hdel := (u.writingFor s.mem.writer).deliver_frame c.mbx stOK (toLe 8 (pl.reserve p))
      refine ⟨_, hexec, hans, ?_⟩
      obtain ⟨hslot, hothers⟩ := State.slots_modSlot_twice (s := s.running c 0x0104) (show n < s.slots.length by omega)
        (hdel.slots_eq.trans hafter)
      rw [hslot, hdel.evt_eq]
      exact ⟨rfl, rfl, hp, rfl, rfl, hothers, hring⟩
    · exact State.command_unchanged rfl h (by decide) hj (hbody.trans (State.installPlan_noRoom (hroom.trans hno)))

end

/-! ### LOAD_COEFF -/

/-- The directory of a slot, where one of the length stands (R238). -/
def State.oldDirectory (s : State) (n dirLen : Nat) : Option Nat :=
  ((s.slot n).allocs.find? fun a => a.kind == 3 && a.len == dirLen).map (·.addr)

/-- What a new table keeps of a slot: the state of the weights whose LAYOUT stands, and the directory (R238, R239). -/
def State.keptExtents (s : State) (p : Program) (n : Nat) (es : List Coeff) (ws : List WeightRec) (dirLen : Nat) : List (Nat × Nat) :=
  s.keptState p n es ws ++ (match s.oldDirectory n dirLen with | some a => [(a, dirLen)] | none => [])

/-- A slot without optimiser state and directory. -/
def State.withoutCoeffs (s : State) (n : Nat) : State :=
  s.modSlot n fun y => { y with allocs := y.allocs.filter fun (a : Alloc) => a.kind != 2 && a.kind != 3 }

/-- A directory: the old one, or a place for a new one. -/
def State.placeDirectory (s : State) (old : Option Nat) (taken : List (Nat × Nat)) (dirLen : Nat) : Option (Nat × State) :=
  match old with
  | some a => some (a, s)
  | none => (s.placeAll taken [dirLen]).map fun (q : List Nat × State) => (q.1.headD 0, q.2)

/-- The slot with a table in force (R234, R238). -/
def Slot.withCoeffs (es : List Coeff) (ws : List WeightRec) (os : List OptState) (made : List Alloc) (dir dirLen : Nat) (y : Slot) : Slot :=
  { y with
    coeff := some ⟨es, ws, dir⟩, opt := os
    allocs := y.allocs.filter (fun (a : Alloc) => a.kind != 2 && a.kind != 3)
      ++ (made ++ (if dirLen = 0 then ([] : List Alloc) else [⟨3, dir, dirLen⟩])) }

/-- A table whose optimiser state is made is put in force where its directory has a place. -/
def State.finishCoeffs (s : State) (x : Cmd) (n : Nat) (es : List Coeff) (ws : List WeightRec) (os : List OptState) (made : List Alloc) :
    Option (Nat × State) → State
  | none => s.refuse x stNO_RESOURCE 16
  | some (dir, s2) =>
    ((s2.writeIo dir (os.flatMap OptState.bytes)).modSlot n (Slot.withCoeffs es ws os made dir (roundUp (48 * ws.length) 256))).done x
      (toLe 8 dir ++ toLe 8 (stateTotal os + 48 * ws.length))

/-- The optimiser state of a checked table. -/
def State.tableStates (s : State) (p : Program) (n : Nat) (es : List Coeff) (ws : List WeightRec) :
    Option (List OptState × List Alloc × State) :=
  (s.withoutCoeffs n).newStates p n es (s.keptExtents p n es ws (roundUp (48 * ws.length) 256)) ws []

/-- What the directory of a table must avoid: what the table keeps, and what was made for it. -/
def State.tableTaken (s : State) (p : Program) (n : Nat) (es : List Coeff) (ws : List WeightRec) (made : List Alloc) : List (Nat × Nat) :=
  s.keptExtents p n es ws (roundUp (48 * ws.length) 256) ++ made.map fun (a : Alloc) => (a.addr, a.len)

/-- A checked table is put in force where there is room. -/
def State.installCoeffs (s : State) (x : Cmd) (n : Nat) (p : Program) (es : List Coeff) (ws : List WeightRec) : State :=
  match s.tableStates p n es ws with
  | none => s.refuse x stNO_RESOURCE 16
  | some (os, made, s1) => s.finishCoeffs x n es ws os made
      (s1.placeDirectory (s.oldDirectory n (roundUp (48 * ws.length) 256)) (s.tableTaken p n es ws made) (roundUp (48 * ws.length) 256))

/-- Is there room for the optimiser state of a table and for its directory? -/
def State.coeffRoom (s : State) (p : Program) (n : Nat) (es : List Coeff) (ws : List WeightRec) : Bool :=
  match s.tableStates p n es ws with
  | none => false
  | some (_, made, s1) => (s.oldDirectory n (roundUp (48 * ws.length) 256)).isSome
      || (s1.placeAll (s.tableTaken p n es ws made) [roundUp (48 * ws.length) 256]).isSome

/-- An image whose header is that of a table of the program (Table 9.1). -/
structure CoeffHeader (p : Program) (nE : Nat) (im : List Byte) : Prop where
  length : 32 + 64 * nE + 16 * p.weights.length ≤ im.length
  version : fieldLe im 0 2 = 0x0100
  entries : fieldLe im 2 2 = nE
  nonempty : 1 ≤ nE
  few : nE ≤ 256
  weights : fieldLe im 4 4 = p.weights.length
  reserved : zeroAt im 8 24 = true

/-- LOAD_COEFF of a table that its checks pass (R234, R235). -/
theorem cmdLoadCoeff_image {s : State} {c : Sub} {n nE : Nat} {p : Program} {im : List Byte} {es : List Coeff} {ws : List WeightRec}
    (hn : n < 4) (hf : fieldLe c.payload 0 1 = n) (hz : zeroAt c.payload 1 7 = true) (hp : (s.slot n).prog = some p)
    (him : ImageAt s c 8 im) (hhead : CoeffHeader p nE im)
    (hparse : parseCoeffs p nE (im.take (32 + 64 * nE + 16 * p.weights.length)) = some (es, ws)) :
    cmdLoadCoeff ⟨c.mbx, c.payload, c.env⟩ s = s.installCoeffs ⟨c.mbx, c.payload, c.env⟩ n p es ws := by
  obtain ⟨hlen, hversion, hentries, hsome, hfew, hweights, hreserved⟩ := hhead
  unfold cmdLoadCoeff
  dsimp only
  rw [hf, if_neg (by simp [hz]; omega), hp]
  dsimp only
  rw [State.imgRead_start him (by decide) (by omega), Img.andThen_ok, fieldLe_take (by decide), fieldLe_take (by decide),
    fieldLe_take (by decide), zeroAt_take (by decide), hversion, hentries, hweights,
    hreserved, if_neg (by simp; omega), State.imgRead_start him (by omega) (by omega), Img.andThen_ok]
  dsimp only
  rw [hparse]
  dsimp only
  rfl

theorem State.placeDirectory_isSome (s : State) (old : Option Nat) (taken : List (Nat × Nat)) (dirLen : Nat) :
    (s.placeDirectory old taken dirLen).isSome = (old.isSome || (s.placeAll taken [dirLen]).isSome) := by
  cases old <;> simp [State.placeDirectory]

theorem State.placeDirectory_writingFor (s : State) (w : Nat) (old : Option Nat) (taken : List (Nat × Nat)) (dirLen : Nat) :
    (s.writingFor w).placeDirectory old taken dirLen = (s.placeDirectory old taken dirLen).map fun q => (q.1, q.2.writingFor w) := by
  cases old with
  | some a => rfl
  | none =>
    rw [State.placeDirectory, State.placeDirectory, State.placeAll_writingFor]
    cases s.placeAll taken [dirLen] <;> rfl

theorem State.placeDirectory_stores {s t : State} {old : Option Nat} {taken : List (Nat × Nat)} {dirLen dir : Nat}
    (h : s.placeDirectory old taken dirLen = some (dir, t)) : s.Stores t := by
  cases old with
  | some a =>
    cases h
    exact State.Stores.refl s
  | none =>
    obtain ⟨⟨as, u⟩, hplace, hu⟩ := Option.map_eq_some_iff.mp h
    cases hu
    rw [State.placeAll_eq hplace]
    exact s.stores_freeCtr _

theorem State.tableStates_writingFor {s : State} (hs : s.mem.snoop = []) (w : Nat) (p : Program) (n : Nat) (es : List Coeff) (ws : List WeightRec) :
    (s.writingFor w).tableStates p n es ws = (s.tableStates p n es ws).map fun q => (q.1, q.2.1, q.2.2.writingFor w) :=
  State.newStates_writingFor (s := s.withoutCoeffs n) hs w ws []

theorem State.coeffRoom_writingFor {s : State} (hs : s.mem.snoop = []) (w : Nat) (p : Program) (n : Nat) (es : List Coeff) (ws : List WeightRec) :
    (s.writingFor w).coeffRoom p n es ws = s.coeffRoom p n es ws := by
  have hold (k : Nat) : (s.writingFor w).oldDirectory n k = s.oldDirectory n k := rfl
  have htaken (made : List Alloc) : (s.writingFor w).tableTaken p n es ws made = s.tableTaken p n es ws made := rfl
  simp only [State.coeffRoom, State.tableStates_writingFor hs, hold, htaken]
  rcases s.tableStates p n es ws with _ | ⟨os, made, s1⟩
  · rfl
  · simp only [Option.map_some, State.placeAll_writingFor, Option.isSome_map]

section
variable {s : State} {x : Cmd} {n : Nat} {p : Program} {es : List Coeff} {ws : List WeightRec}

theorem State.installCoeffs_noRoom (h : s.coeffRoom p n es ws = false) : s.installCoeffs x n p es ws = s.refuse x stNO_RESOURCE 16 := by
  unfold State.installCoeffs
  unfold State.coeffRoom at h
  rcases hstates : s.tableStates p n es ws with _ | ⟨os, made, s1⟩
  · rfl
  · rw [hstates] at h
    have hdir := (s1.placeDirectory_isSome _ _ _).trans h
    dsimp only
    rw [Option.isNone_iff_eq_none.mp (Option.isSome_eq_false_iff.mp hdir)]
    rfl

/-- What a table with room leaves: its slot with the table in force, the other slots as they stood, and, while the host holds no line, no write
that waits. -/
theorem State.installCoeffs_room (h : s.coeffRoom p n es ws = true) : ∃ u os made dir,
    s.installCoeffs x n p es ws = u.complete x.mbx stOK (toLe 8 dir ++ toLe 8 (stateTotal os + 48 * ws.length))
      ∧ Frame [.mem, .slots, .out, .freeCtr] s u
      ∧ u.slots = ((s.withoutCoeffs n).modSlot n (Slot.withCoeffs es ws os made dir (roundUp (48 * ws.length) 256))).slots
      ∧ (s.mem.snoop = [] → u.mem.waiting ⊆ s.mem.waiting)
      ∧ os.map OptState.desc = ws.map WeightRec.desc ∧ os.map OptState.entry = ws.map WeightRec.entry := by
  unfold State.installCoeffs
  unfold State.coeffRoom at h
  rcases hstates : s.tableStates p n es ws with _ | ⟨os, made, s1⟩
  · rw [hstates] at h
    cases h
  · rw [hstates] at h
    have hdir := (s1.placeDirectory_isSome _ _ _).trans h
    obtain ⟨⟨dir, s2⟩, hdir⟩ := Option.isSome_iff_exists.mp hdir
    obtain ⟨hdesc, hentry, hmade⟩ := State.newStates_spec hstates
    have hstored := (hmade.trans (State.placeDirectory_stores hdir)).trans (s2.writeIo_stores dir (os.flatMap OptState.bytes))
    have hframe : Frame [.mem, .slots, .out, .freeCtr] s (s2.writeIo dir (os.flatMap OptState.bytes)) :=
      Frame.trans (s.modSlot_frame n _) hstored.frame (by simp) (by simp)
    dsimp only
    rw [hdir]
    exact ⟨_, os, made, dir, rfl, Frame.trans hframe (State.modSlot_frame _ n _) (by simp) (by simp),
      congrArg (updAt · n _) hstored.frame.slots_eq, hstored.waiting, hdesc, hentry⟩

/-- The directory of a table with weights is an allocation of its slot (R238). -/
theorem Slot.directory_mem (os : List OptState) (made : List Alloc) (dir : Nat) (y : Slot) (hws : ws ≠ []) :
    (⟨3, dir, roundUp (48 * ws.length) 256⟩ : Alloc) ∈ (Slot.withCoeffs es ws os made dir (roundUp (48 * ws.length) 256) y).allocs := by
  have hpos := List.length_pos_of_ne_nil hws
  have hne : roundUp (48 * ws.length) 256 ≠ 0 := by
    simp only [roundUp, ceilDiv]
    omega
  simp [Slot.withCoeffs, hne]

end

section
variable {s : State} {c : Sub} {n nE : Nat} {p : Program} (h : s.Takes c) (ho : s.Open) (hslots : s.slots.length = 4) (hn : n < 4)
  (hpay : c.payload.length = 16) (hf : fieldLe c.payload 0 1 = n) (hz : zeroAt c.payload 1 7 = true) (hidle : s.slotRunning n = false)
  (hp : (s.slot n).prog = some p)
include h ho hslots hn hpay hf hz hidle hp

/-- LOAD_COEFF of a table that its checks pass, by the room that there is (R234 to R239). -/
theorem exec_loadCoeff {im : List Byte} {es : List Coeff} {ws : List WeightRec} (him : ImageAt s c 8 im) (hhead : CoeffHeader p nE im)
    (hparse : parseCoeffs p nE (im.take (32 + 64 * nE + 16 * p.weights.length)) = some (es, ws)) (hsnoop : s.mem.snoop = []) :
    ((s.submitted c 0x0105).coeffRoom p n es ws = true → ∃ t dir, exec (.loadCoeff c) s = .next t
        ∧ s.Answers c 0 (toLe 8 dir ++ toLe 8 (stateTotal (t.slot n).opt + 48 * ws.length)) [.mem, .slots, .freeCtr] t
        ∧ (t.slot n).coeff = some ⟨es, ws, dir⟩ ∧ (t.slot n).prog = some p
        ∧ (t.slot n).opt.map OptState.desc = ws.map WeightRec.desc ∧ (t.slot n).opt.map OptState.entry = ws.map WeightRec.entry
        ∧ (ws ≠ [] → ∃ a ∈ (t.slot n).allocs, a.kind = 3 ∧ a.addr = dir) ∧ ∀ k, k ≠ n → t.slots[k]? = s.slots[k]?)
      ∧ ((s.submitted c 0x0105).coeffRoom p n es ws = false → ∃ t, exec (.loadCoeff c) s = .next t
        ∧ s.Answers c 0x0020 (List.replicate 16 0) [] t) := by
  have hj := State.judge'_slotImage h ho hpay (op := 0x0105) (by simp) (.inr (hf ▸ hidle))
  have hbody : State.romBody (asked c 0x0105) (s.running c 0x0105) = _ :=
    cmdLoadCoeff_image (s := s.running c 0x0105) hn hf hz hp (him.running _) hhead hparse
  have hroom := State.coeffRoom_writingFor (s := s.submitted c 0x0105) hsnoop c.mbx p n es ws
  refine ⟨fun hyes => ?_, fun hno =>
    State.command_unchanged rfl h (by decide) hj (hbody.trans (State.installCoeffs_noRoom (hroom.trans hno)))⟩
  obtain ⟨u, os, made, dir, hinst, hframe, hafter, hwaiting, hdesc, hentry⟩ := State.installCoeffs_room (s := s.running c 0x0105)
    (x := ⟨c.mbx, c.payload, c.env⟩) (hroom.trans hyes)
  obtain ⟨hexec, hans⟩ := State.command_answers (i := .loadCoeff c) rfl h (by decide) hj (hbody.trans hinst) hframe.mailboxes_eq
    (Mem.owes_false_of_subset h.settled (hwaiting hsnoop)) hframe
  have hdel := (u.writingFor s.mem.writer).deliver_frame c.mbx stOK (toLe 8 dir ++ toLe 8 (stateTotal os + 48 * ws.length))
  obtain ⟨hslot, hothers⟩ := State.slots_modSlot_twice (s := s.running c 0x0105) (show n < s.slots.length by omega)
    (hdel.slots_eq.trans hafter)
  refine ⟨_, dir, hexec, ?_⟩
  rw [hslot]
  exact ⟨⟨hans.holds, hans.others, hans.frame.weaken (by simp)⟩, rfl, hp, hdesc, hentry,
    fun hws => ⟨_, Slot.directory_mem os made dir _ hws, rfl, rfl⟩, hothers⟩

end

/-! ### The obligation -/

/-- Settles O14: what the checks find of the image and the room that there is decide how each command ends. -/
theorem plansAndCoefficientsInstall : Obligations.PlansAndCoefficientsInstall := by
  refine ⟨fun s c n p im h ho hslots hn hpay hf hz hidle hp him hlen => exec_loadPlan h ho hslots hn hpay hf hz hidle hp him hlen, ?_⟩
  intro s c n nE p im es ws h ho hslots hn hpay hf hz hidle hp him hlen hversion hentries hsome hfew hweights hreserved hparse hsnoop
  exact exec_loadCoeff h ho hslots hn hpay hf hz hidle hp him ⟨hlen, hversion, hentries, hsome, hfew, hweights, hreserved⟩ hparse hsnoop

end Sys2Proof.Machine
end

section
/-!
SUPPORT. What the emptying of program slots leaves (R45, R193, R234; log 10): the slots that it names stand empty, and no byte of memory changes
but those that they had put into affine regions.
-/
namespace Sys2Proof.Machine

open Sys2Proof

/-! ### Holes in memory -/

/-- A write of device memory retires nothing (R293, R294). -/
theorem State.putPage_holes (s : State) (a : Nat) (bs : List Byte) :
    (s.putPage a bs).mem.pages = s.mem.pages ∧ (s.putPage a bs).mem.banks = s.mem.banks := by
  unfold State.putPage
  split
  · exact ⟨rfl, rfl⟩
  · split <;> exact ⟨rfl, rfl⟩

theorem State.writeLine_holes (s : State) (a : Nat) (bs : List Byte) :
    (s.writeLine a bs).mem.pages = s.mem.pages ∧ (s.writeLine a bs).mem.banks = s.mem.banks := by
  by_cases h : a / 64 ∈ s.mem.snoop
  · rw [State.writeLine_tracked bs h]
    exact ⟨rfl, rfl⟩
  · rw [State.writeLine_untracked bs h]
    exact s.putPage_holes a bs

theorem State.writeBeats_holes (s : State) (a : Nat) (bs : List Byte) :
    (s.writeBeats a bs).mem.pages = s.mem.pages ∧ (s.writeBeats a bs).mem.banks = s.mem.banks := by
  unfold State.writeBeats
  generalize linesOf (bs.length / 64 + 2) a bs = l
  induction l generalizing s with
  | nil => exact ⟨rfl, rfl⟩
  | cons q l ih =>
    have hline := s.writeLine_holes q.1 q.2
    have hrest := ih (s.writeLine q.1 q.2)
    exact ⟨hrest.1.trans hline.1, hrest.2.trans hline.2⟩

/-! ### Extents that are cleared -/

/-- The byte lies in the allocation. -/
def Alloc.Has (a : Alloc) (q : Nat) : Prop := a.addr ≤ q ∧ q < a.addr + a.len

/-- What the clearing of allocations leaves: every byte outside them, the retired memory and the lines that the host may hold; where it holds none
of theirs, no write waits that did not wait before (R338). -/
structure State.Clears (l : List Alloc) (s t : State) : Prop where
  frame : Frame [.mem, .out] s t
  snoop : t.mem.snoop = s.mem.snoop
  pages : t.mem.pages = s.mem.pages
  banks : t.mem.banks = s.mem.banks
  waiting : (∀ a ∈ l, s.Untracked a.addr a.len) → t.mem.waiting ⊆ s.mem.waiting
  outside : ∀ q, (∀ a ∈ l, ¬ a.Has q) → memGet t.mem.cells q = memGet s.mem.cells q

/-- The allocations are filled with zeros, one after another. -/
def State.clearAllocs (s : State) (l : List Alloc) : State := l.foldl (fun s a => s.writeBeats a.addr (List.replicate a.len 0)) s

theorem State.clearAllocs_clears (s : State) (l : List Alloc) : s.Clears l (s.clearAllocs l) := by
  induction l generalizing s with
  | nil => exact ⟨Frame.refl _ _, rfl, rfl, rfl, fun _ => List.Subset.refl _, fun _ _ => rfl⟩
  | cons a l ih =>
    have hone := State.writeLines_wrote s ((List.replicate a.len (0 : Byte)).length / 64 + 2) a.addr (List.replicate a.len 0)
    rw [← State.writeBeats_eq, List.length_replicate] at hone
    have hholes := s.writeBeats_holes a.addr (List.replicate a.len 0)
    obtain ⟨hframe, hsnoop, hpages, hbanks, hwaiting, houtside⟩ := ih (s.writeBeats a.addr (List.replicate a.len 0))
    refine ⟨Frame.trans (s.writeBeats_frame _ _) hframe (by simp) (by simp), hsnoop.trans hone.snoop, hpages.trans hholes.1,
      hbanks.trans hholes.2, fun hun => ?_, fun q hq => ?_⟩
    · have hhead : s.Untracked a.addr (List.replicate a.len (0 : Byte)).length := by
        rw [List.length_replicate]
        exact hun a (List.mem_cons_self ..)
      refine List.Subset.trans (hwaiting fun b hb => ?_) (State.writeLines_waiting _ hhead)
      rw [State.Untracked, hone.snoop]
      exact hun b (List.mem_cons_of_mem _ hb)
    · have hhead : q < a.addr ∨ a.addr + a.len ≤ q := by
        have hnot := hq a (List.mem_cons_self ..)
        unfold Alloc.Has at hnot
        omega
      exact (houtside q fun b hb => hq b (List.mem_cons_of_mem _ hb)).trans (hone.outside q hhead)

/-- Groups of regions that go back to ALL mode take no byte, no line and no hole with them (R193). -/
theorem State.releaseGroups_eq (s : State) : ∃ l, s.releaseGroups = { s with mem := { s.mem with affine := l } } := by
  unfold State.releaseGroups
  split
  · exact ⟨s.mem.affine, rfl⟩
  · exact ⟨_, rfl⟩

/-! ### Slots that are emptied -/

theorem State.slot_modSlot_other {n k : Nat} (s : State) (f : Slot → Slot) (h : k ≠ n) : (s.modSlot n f).slot k = s.slot k := by
  rw [State.slot, State.slot, List.getD_eq_getElem?_getD, List.getD_eq_getElem?_getD, s.slots_modSlot_getElem?_other f h]

/-- What a slot puts into affine regions (R194). -/
def Slot.affineAllocs (x : Slot) : List Alloc := x.allocs.filter fun a => a.kind == 4

theorem Slot.mem_affineAllocs {x : Slot} {a : Alloc} : a ∈ x.affineAllocs ↔ a ∈ x.allocs ∧ a.kind = 4 := by
  simp [Slot.affineAllocs]

theorem Slot.movedAt_iff {x : Slot} {q : Nat} : x.MovedAt q ↔ ∃ a ∈ x.affineAllocs, a.Has q := by
  simp only [Slot.MovedAt, Slot.mem_affineAllocs, Alloc.Has, and_assoc]

/-- An empty slot keeps the number of its last step alone (R206). -/
def Slot.emptied (x : Slot) : Slot := { Slot.reset with lastStep := x.lastStep }

/-- The host may hold no line of what the slots of a list have put into affine regions. -/
def State.SlotsUntracked (s : State) (l : List Nat) : Prop := ∀ n ∈ l, ∀ a ∈ (s.slot n).affineAllocs, s.Untracked a.addr a.len

/-- What the emptying of the slots of a list leaves. -/
structure State.Empties (l : List Nat) (s t : State) : Prop where
  frame : Frame [.mem, .slots, .towers, .out] s t
  snoop : t.mem.snoop = s.mem.snoop
  pages : t.mem.pages = s.mem.pages
  banks : t.mem.banks = s.mem.banks
  waiting : s.SlotsUntracked l → t.mem.waiting ⊆ s.mem.waiting
  emptied : ∀ n ∈ l, t.slot n = (s.slot n).emptied
  others : ∀ n, n ∉ l → t.slot n = s.slot n
  cells : ∀ q, (∀ n ∈ l, ¬ (s.slot n).MovedAt q) → memGet t.mem.cells q = memGet s.mem.cells q

theorem State.slot_modSlot_emptied (s : State) (n : Nat) : (s.modSlot n Slot.emptied).slot n = (s.slot n).emptied := by
  by_cases hn : n < s.slots.length
  · exact s.slot_modSlot_same _ hn
  · simp [State.slot, updAt, List.getD_eq_getElem?_getD, List.getElem?_eq_none (Nat.le_of_not_lt hn), Slot.emptied]

theorem State.emptySlot_eq (s : State) (n : Nat) :
    s.emptySlot n = (((s.clearMoved (s.slot n)).modSlot n Slot.emptied).clearEntries n).releaseGroups := rfl

/-- A slot emptied in a state that has been cleared of what it had in affine regions. -/
theorem State.Clears.empties {s t : State} {n : Nat} (h : s.Clears (s.slot n).affineAllocs t) :
    s.Empties [n] ((t.modSlot n Slot.emptied).clearEntries n).releaseGroups := by
  obtain ⟨hframe, hsnoop, hpages, hbanks, hwaiting, houtside⟩ := h
  obtain ⟨groups, hgroups⟩ := ((t.modSlot n Slot.emptied).clearEntries n).releaseGroups_eq
  have hslots (k : Nat) : ((t.modSlot n Slot.emptied).clearEntries n).releaseGroups.slot k = (t.modSlot n Slot.emptied).slot k := by
    rw [hgroups]
    rfl
  refine ⟨fun p hp => ?_, ?_, ?_, ?_, fun hun => ?_, fun k hk => ?_, fun k hk => ?_, fun q hq => ?_⟩
  · have hkept := hframe p
    rw [hgroups]
    cases p with
    | mem | slots | towers | out => simp at hp
    | _ => exact hkept (by simp)
  · rw [hgroups]
    exact hsnoop
  · rw [hgroups]
    exact hpages
  · rw [hgroups]
    exact hbanks
  · rw [hgroups]
    exact hwaiting (hun n (List.mem_singleton_self n))
  · obtain rfl := List.mem_singleton.mp hk
    rw [hslots, State.slot_modSlot_emptied, hframe.slot_eq]
  · rw [hslots, State.slot_modSlot_other _ _ (by simpa using hk), hframe.slot_eq]
  · rw [hgroups]
    exact houtside q fun a ha hhas => hq n (List.mem_singleton_self n) (Slot.movedAt_iff.mpr ⟨a, ha, hhas⟩)

theorem State.emptySlot_empties (s : State) (n : Nat) : s.Empties [n] (s.emptySlot n) :=
  State.emptySlot_eq s n ▸ (s.clearAllocs_clears (s.slot n).affineAllocs).empties

theorem Slot.affineAllocs_emptied (x : Slot) : x.emptied.affineAllocs = [] := rfl

theorem State.Empties.refl (s : State) : s.Empties [] s :=
  ⟨Frame.refl _ _, rfl, rfl, rfl, fun _ => List.Subset.refl _, by simp, fun _ _ => rfl, fun _ _ => rfl⟩

/-- What a slot has in affine regions after the emptying, it had before. -/
theorem State.Empties.affineAllocs_subset {l : List Nat} {s t : State} (h : s.Empties l t) (n : Nat) :
    (t.slot n).affineAllocs ⊆ (s.slot n).affineAllocs := by
  by_cases hn : n ∈ l
  · rw [h.emptied n hn, Slot.affineAllocs_emptied]
    exact List.nil_subset _
  · rw [h.others n hn]
    exact List.Subset.refl _

theorem State.Empties.trans {k l : List Nat} {s t u : State} (h : s.Empties k t) (h' : t.Empties l u) : s.Empties (k ++ l) u where
  frame := Frame.trans h.frame h'.frame (by simp) (by simp)
  snoop := h'.snoop.trans h.snoop
  pages := h'.pages.trans h.pages
  banks := h'.banks.trans h.banks
  waiting hun := by
    refine List.Subset.trans (h'.waiting fun n hn a ha => ?_) (h.waiting fun n hn => hun n (List.mem_append_left _ hn))
    rw [State.Untracked, h.snoop]
    exact hun n (List.mem_append_right _ hn) a (h.affineAllocs_subset n ha)
  emptied n hn := by
    by_cases hl : n ∈ l
    · rw [h'.emptied n hl]
      by_cases hk : n ∈ k
      · rw [h.emptied n hk]
        rfl
      · rw [h.others n hk]
    · rw [h'.others n hl]
      exact h.emptied n ((List.mem_append.mp hn).resolve_right hl)
  others n hn := by
    rw [List.mem_append, not_or] at hn
    exact (h'.others n hn.2).trans (h.others n hn.1)
  cells q hq := by
    refine (h'.cells q fun n hn hmoved => ?_).trans (h.cells q fun n hn => hq n (List.mem_append_left _ hn))
    obtain ⟨a, ha, hhas⟩ := Slot.movedAt_iff.mp hmoved
    exact hq n (List.mem_append_right _ hn) (Slot.movedAt_iff.mpr ⟨a, h.affineAllocs_subset n ha, hhas⟩)

theorem State.emptySlots_empties (s : State) (l : List Nat) : s.Empties l (s.emptySlots l) := by
  induction l generalizing s with
  | nil => exact State.Empties.refl s
  | cons n l ih => exact (s.emptySlot_empties n).trans (ih _)

/-- Where the host may hold no line of what any slot has in affine regions, it holds none of those of a list. -/
theorem State.MovedUntracked.slots {s : State} (h : s.MovedUntracked) (l : List Nat) : s.SlotsUntracked l := by
  intro n _ a ha
  obtain ⟨hmem, hkind⟩ := Slot.mem_affineAllocs.mp ha
  by_cases hn : n < s.slots.length
  · refine h a (List.mem_flatMap.mpr ⟨s.slot n, ?_, hmem⟩) hkind
    rw [State.slot, List.getD_eq_getElem _ _ hn]
    exact List.getElem_mem hn
  · rw [State.slot, List.getD_eq_default _ _ (Nat.le_of_not_lt hn)] at hmem
    exact absurd hmem List.not_mem_nil

/-! ### The mask of slots -/

/-- The mask of the slots below a bound that pass a test has their bits. -/
theorem maskOf_filter_range (p : Nat → Bool) (k : Nat) :
    maskOf ((List.range k).filter p) < 2 ^ k ∧ ∀ n < k, (maskOf ((List.range k).filter p)).testBit n = p n := by
  induction k with
  | zero => exact ⟨Nat.one_pos, fun n hn => absurd hn (Nat.not_lt_zero n)⟩
  | succ k ih =>
    obtain ⟨hlt, hbits⟩ := ih
    have hsplit : maskOf ((List.range (k + 1)).filter p) = maskOf ((List.range k).filter p) + if p k then 2 ^ k else 0 := by
      rw [List.range_succ, List.filter_append, maskOf, List.foldl_append, List.filter_singleton]
      cases p k <;> rfl
    rw [hsplit, Nat.pow_succ]
    refine ⟨by split <;> omega, fun n hn => ?_⟩
    rcases Nat.lt_succ_iff_lt_or_eq.mp hn with hn | rfl
    · rw [← hbits n hn]
      split
      · rw [Nat.add_comm, Nat.testBit_two_pow_add_gt hn]
      · rfl
    · split
      next hp => rw [Nat.add_comm, Nat.testBit_two_pow_add_eq, Nat.testBit_lt_two_pow hlt, hp]; rfl
      next hp => rw [Nat.add_zero, Nat.testBit_lt_two_pow hlt]; simpa using hp

theorem State.mem_slotsHit {s : State} {p : Alloc → Bool} {n : Nat} : n ∈ s.slotsHit p ↔ n < 4 ∧ (s.slot n).allocs.any p = true := by
  simp only [State.slotsHit, List.mem_filter, List.mem_range]

/-! ### Commands that wait for no step -/

/-- Before its payload nothing refuses a SET_TOPOLOGY, RETIRE_PAGE or RETIRE_BANK of the right length between steps, while no other command is in
flight (R363, Table 14.19). -/
theorem State.judge'_betweenSteps {s : State} {c : Sub} {op : Nat} (h : s.Takes c) (ho : s.Open) (hsteps : s.steps = [])
    (hop : op = 0x0101 ∧ c.payload.length = 16 ∨ op = 0x0301 ∧ c.payload.length = 8 ∨ op = 0x0302 ∧ c.payload.length = 4) :
    (s.submitted c op).judge' (asked c op) = none := by
  have hstage : (s.submitted c op).stage1 (asked c op) = none := by
    rcases hop with ⟨rfl, hlen⟩ | ⟨rfl, hlen⟩ | ⟨rfl, hlen⟩ <;> simp [State.stage1, romLen, hlen]
  have hadv : (s.submitted c op).keep.advanced = false := ho.stays
  have hst : (s.submitted c op).fuses.state ≠ 4 := ho.state
  have hlocked : (s.submitted c op).locked (asked c op) = false := by
    rcases hop with ⟨rfl, -⟩ | ⟨rfl, -⟩ | ⟨rfl, -⟩ <;> simp [State.locked, hadv, hst]
  have hjobs : (s.submitted c op).jobs = [] := h.alone
  have hidle : (s.submitted c op).steps = [] := hsteps
  have hbusy : (s.submitted c op).busy (asked c op) = false := by
    rcases hop with ⟨rfl, -⟩ | ⟨rfl, -⟩ | ⟨rfl, -⟩ <;>
      simp [State.busy, State.meets, loadsSlot, savesSlot, hjobs, State.stepRunning, hidle]
  rcases hop with ⟨rfl, -⟩ | ⟨rfl, -⟩ | ⟨rfl, -⟩ <;> simp [State.judge', hstage, hlocked, hbusy]

end Sys2Proof.Machine
end

section
/-!
O20. RETIRE_PAGE and RETIRE_BANK (R293 to R296).
-/
namespace Sys2Proof.Machine

open Sys2Proof

/-! ### Fields of a payload and of a completion -/

theorem fieldLe_toLe {k n : Nat} (h : n < 256 ^ k) : fieldLe (toLe k n) 0 k = n := by
  have hfield := fieldLe_toLe_append (r := []) h
  rwa [List.append_nil] at hfield

/-- The completion of a retirement: the mask of the slots emptied, and a number of pages (R293, R294). -/
def retireData (hit : List Nat) (k : Nat) : List Byte := toLe 1 (maskOf hit) ++ toLe 3 0 ++ toLe 4 k

theorem length_retireData (hit : List Nat) (k : Nat) : (retireData hit k).length = 8 := by
  simp [retireData]

theorem fieldLe_retireData_pages (hit : List Nat) {k : Nat} (h : k < 256 ^ 4) : fieldLe (retireData hit k) 4 4 = k := by
  simp [retireData, fieldLe_append_skip, fieldLe_toLe h]

theorem State.testBit_retireData (s : State) (p : Alloc → Bool) (k : Nat) {n : Nat} (hn : n < 4) :
    (fieldLe (retireData (s.slotsHit p) k) 0 1).testBit n = (s.slot n).allocs.any p := by
  obtain ⟨hlt, hbits⟩ := maskOf_filter_range (fun n => (s.slot n).allocs.any p) 4
  rw [retireData, List.append_assoc, State.slotsHit, fieldLe_toLe_append (Nat.lt_of_lt_of_le hlt (by decide)), hbits n hn]

/-! ### A command that empties slots and makes a hole -/

section
variable {s : State} {c : Sub} {op : Nat} {i : Instr} {l : List Nat} {m : Mem} {d : List Byte}

/-- A command whose body empties slots, changes memory besides in neither its bytes nor its waiting writes, and completes. -/
theorem State.command_empties (hi : exec i s = .next (s.command c op)) (h : s.Takes c) (ho : op < 0x0F00)
    (hj : (s.submitted c op).judge' (asked c op) = none) (hun : s.MovedUntracked)
    (hb : State.romBody (asked c op) (s.running c op) = ({ (s.running c op).emptySlots l with mem := m } : State).complete c.mbx stOK d)
    (hcells : m.cells = ((s.running c op).emptySlots l).mem.cells) (hwaiting : m.waiting = ((s.running c op).emptySlots l).mem.waiting) :
    ∃ t, exec i s = .next t ∧ s.Answers c 0 d [.mem, .slots, .towers] t ∧ t.mem = { m with writer := s.mem.writer }
      ∧ (∀ n ∈ l, t.slot n = (s.slot n).emptied) ∧ (∀ n, n ∉ l → t.slot n = s.slot n)
      ∧ ∀ q, (∀ n ∈ l, ¬ (s.slot n).MovedAt q) → memGet t.mem.cells q = memGet s.mem.cells q := by
  have hemp := (s.running c op).emptySlots_empties l
  have hframe : Frame [.mem, .slots, .towers, .out] (s.running c op) { (s.running c op).emptySlots l with mem := m } := by
    intro p hp
    have hkept := hemp.frame p hp
    cases p with
    | mem => simp at hp
    | _ => exact hkept
  have howes : m.owes c.mbx = false :=
    Mem.owes_false_of_subset h.settled (hwaiting ▸ hemp.waiting (State.MovedUntracked.slots (s := s) hun l))
  obtain ⟨hexec, hans⟩ := State.command_answers hi h ho hj hb hframe.mailboxes_eq howes hframe
  have hdel := (State.writingFor { (s.running c op).emptySlots l with mem := m } s.mem.writer).deliver_frame c.mbx stOK d
  have hslot (n : Nat) : (State.deliver _ c.mbx stOK d).slot n = _ := hdel.slot_eq n
  have hmem : (State.deliver _ c.mbx stOK d).mem = _ := hdel .mem (by simp)
  refine ⟨_, hexec, ⟨hans.holds, hans.others, hans.frame.weaken (by simp)⟩, hmem, fun n hn => ?_, fun n hn => ?_, fun q hq => ?_⟩
  · exact (hslot n).trans (hemp.emptied n hn)
  · exact (hslot n).trans (hemp.others n hn)
  · rw [hmem]
    exact (congrArg (memGet · q) hcells).trans (hemp.cells q hq)

end

/-! ### RETIRE_PAGE -/

/-- The allocation lies in part in the page. -/
def Alloc.inPage (p : Nat) (a : Alloc) : Bool := a.hits (p * 65536) 65536

/-- RETIRE_PAGE by the state of its page (R293, R295, R296). -/
theorem cmdRetirePage_eq (x : Cmd) (s : State) : cmdRetirePage x s =
    if s.landing && decide (landBase ≤ fieldLe x.payload 0 8 * 65536) && decide (fieldLe x.payload 0 8 ≤ 12582911) then s.refuse x stBUSY 8
    else if fieldLe x.payload 0 8 > 12582911 then s.refuse x stBAD_PARAM 8
    else if s.mem.pages.contains (fieldLe x.payload 0 8) then s.done x (toLe 1 0 ++ toLe 3 0 ++ toLe 4 s.mem.pages.length)
    else if s.mem.pages.length ≥ 4096 then s.refuse x stNO_RESOURCE 8
    else
      let t := s.emptySlots (s.slotsHit (Alloc.inPage (fieldLe x.payload 0 8)))
      let m : Mem := { t.mem with pages := t.mem.pages ++ [fieldLe x.payload 0 8] }
      ({ t with mem := m } : State).done x (retireData (s.slotsHit (Alloc.inPage (fieldLe x.payload 0 8))) m.pages.length) := rfl

theorem fieldLe_page {p : Nat} {bs : List Byte} (hp : p < 2 ^ 64) (hpay : bs = toLe 8 p) : fieldLe bs 0 8 = p := by
  rw [hpay]
  exact fieldLe_toLe hp

theorem State.judge'_retirePage {s : State} {c : Sub} {p : Nat} (h : s.Takes c) (ho : s.Open) (hsteps : s.steps = [])
    (hpay : c.payload = toLe 8 p) : (s.submitted c 0x0301).judge' (asked c 0x0301) = none :=
  State.judge'_betweenSteps h ho hsteps (.inr (.inl ⟨rfl, by rw [hpay, length_toLe]⟩))

/-- A page that exists outside a landing area in use is retired, unless it is so already or 4,096 are (R293, R295). -/
theorem cmdRetirePage_free {s : State} {c : Sub} {p : Nat} (hp : p < 2 ^ 64) (hpay : c.payload = toLe 8 p) (hle : p ≤ 12582911)
    (hland : ¬ (s.landing = true ∧ landBase ≤ p * 65536)) : cmdRetirePage ⟨c.mbx, c.payload, c.env⟩ (s.running c 0x0301) =
    if s.mem.pages.contains p then (s.running c 0x0301).complete c.mbx stOK ([0, 0, 0, 0] ++ toLe 4 s.mem.pages.length)
    else if s.mem.pages.length ≥ 4096 then (s.running c 0x0301).complete c.mbx stNO_RESOURCE (List.replicate 8 0)
    else
      let t := (s.running c 0x0301).emptySlots (s.slotsHit (Alloc.inPage p))
      let m : Mem := { t.mem with pages := t.mem.pages ++ [p] }
      ({ t with mem := m } : State).complete c.mbx stOK (retireData (s.slotsHit (Alloc.inPage p)) m.pages.length) := by
  have huse : (s.running c 0x0301).landing = s.landing := rfl
  rw [cmdRetirePage_eq, fieldLe_page hp hpay, if_neg, if_neg (Nat.not_lt.mpr hle)]
  · rfl
  · simpa [huse, hle] using hland

section
variable {s : State} {c : Sub} {p : Nat} (h : s.Takes c) (ho : s.Open) (hsteps : s.steps = []) (hp : p < 2 ^ 64) (hpay : c.payload = toLe 8 p)
include h ho hsteps hp hpay

/-- A page of a landing area in use is BUSY (R295). -/
theorem exec_retirePage_busy (hle : p ≤ 12582911) (hland : s.landing = true ∧ landBase ≤ p * 65536) :
    ∃ t, exec (.retirePage c) s = .next t ∧ s.Answers c 0x0001 (List.replicate 8 0) [] t := by
  have huse : (s.running c 0x0301).landing = true := hland.1
  refine State.command_unchanged rfl h (by decide) (State.judge'_retirePage h ho hsteps hpay) ((cmdRetirePage_eq _ _).trans (if_pos ?_))
  rw [fieldLe_page hp hpay]
  simp [huse, hland.2, hle]

/-- A page that does not exist is BAD_PARAM (R293). -/
theorem exec_retirePage_beyond (hle : 12582911 < p) :
    ∃ t, exec (.retirePage c) s = .next t ∧ s.Answers c 0x0011 (List.replicate 8 0) [] t := by
  refine State.command_unchanged rfl h (by decide) (State.judge'_retirePage h ho hsteps hpay)
    ((cmdRetirePage_eq _ _).trans ((if_neg ?_).trans (if_pos ?_))) <;> rw [fieldLe_page hp hpay]
  · simp [Nat.not_le.mpr hle]
  · exact hle

section
variable (hle : p ≤ 12582911) (hland : ¬ (s.landing = true ∧ landBase ≤ p * 65536))
include hle hland

theorem exec_retirePage_again (hold : p ∈ s.mem.pages) :
    ∃ t, exec (.retirePage c) s = .next t ∧ s.Answers c 0 ([0, 0, 0, 0] ++ toLe 4 s.mem.pages.length) [] t :=
  State.command_unchanged rfl h (by decide) (State.judge'_retirePage h ho hsteps hpay)
    ((cmdRetirePage_free hp hpay hle hland).trans (if_pos (List.contains_iff_mem.mpr hold)))

theorem exec_retirePage_full (hnew : p ∉ s.mem.pages) (hfull : 4096 ≤ s.mem.pages.length) :
    ∃ t, exec (.retirePage c) s = .next t ∧ s.Answers c 0x0020 (List.replicate 8 0) [] t :=
  State.command_unchanged rfl h (by decide) (State.judge'_retirePage h ho hsteps hpay)
    ((cmdRetirePage_free hp hpay hle hland).trans ((if_neg (by simpa using hnew)).trans (if_pos hfull)))

/-- The page becomes a hole, and every slot with an allocation in it is emptied (R293, R296). -/
theorem exec_retirePage_retires (hnew : p ∉ s.mem.pages) (hroom : s.mem.pages.length < 4096) (hun : s.MovedUntracked) :
    ∃ t, exec (.retirePage c) s = .next t
      ∧ s.Answers c 0 (retireData (s.slotsHit (Alloc.inPage p)) (s.mem.pages.length + 1)) [.mem, .slots, .towers] t
      ∧ t.mem.pages = s.mem.pages ++ [p] ∧ t.mem.banks = s.mem.banks
      ∧ (∀ n ∈ s.slotsHit (Alloc.inPage p), t.slot n = (s.slot n).emptied) ∧ (∀ n, n ∉ s.slotsHit (Alloc.inPage p) → t.slot n = s.slot n)
      ∧ ∀ q, (∀ n ∈ s.slotsHit (Alloc.inPage p), ¬ (s.slot n).MovedAt q) → memGet t.mem.cells q = memGet s.mem.cells q := by
  have hemp := (s.running c 0x0301).emptySlots_empties (s.slotsHit (Alloc.inPage p))
  have hpages : ((s.running c 0x0301).emptySlots (s.slotsHit (Alloc.inPage p))).mem.pages ++ [p] = s.mem.pages ++ [p] :=
    congrArg (· ++ [p]) hemp.pages
  have hbody := (cmdRetirePage_free hp hpay hle hland).trans
    ((if_neg (by simpa using hnew)).trans (if_neg (Nat.not_le.mpr hroom)))
  dsimp only at hbody
  rw [hpages, List.length_append, List.length_singleton] at hbody
  obtain ⟨t, hexec, hans, hmem, hhit, hothers, hcells⟩ := State.command_empties (i := .retirePage c) rfl h (by decide)
    (State.judge'_retirePage h ho hsteps hpay) hun hbody rfl rfl
  exact ⟨t, hexec, hans, congrArg Mem.pages hmem, (congrArg Mem.banks hmem).trans hemp.banks, hhit, hothers, hcells⟩

end

end

/-! ### RETIRE_BANK -/

/-- The allocation touches a page that holds a granule of the bank (R294). -/
def Mem.inBank (m : Mem) (b : Bank) (a : Alloc) : Bool := ({ m with banks := [b], pages := [] } : Mem).touchesRetired a.addr a.len

/-- The pages that the retirement of a bank adds to the retired ones (R294). -/
def Mem.freshPages (m : Mem) (b : Bank) : List Nat := (m.bankPages b).filter fun p => !m.pageRetired p

theorem Mem.length_freshPages_lt (m : Mem) (b : Bank) : (m.freshPages b).length < 256 ^ 4 := by
  refine Nat.lt_of_le_of_lt (List.length_filter_le _ _) ?_
  simp [Mem.bankPages]

/-- The bank is one of the hardware (Table 11.1). -/
def Bank.Real (b : Bank) : Prop := b.stack ≤ 11 ∧ b.channel ≤ 31 ∧ b.bank ≤ 31

/-- RETIRE_BANK of a bank, by its state (R294 to R296). -/
theorem cmdRetireBank_eq {x : Cmd} {b : Bank} (hs : fieldLe x.payload 0 1 = b.stack) (hc : fieldLe x.payload 1 1 = b.channel)
    (hb : fieldLe x.payload 2 1 = b.bank) (s : State) : cmdRetireBank x s =
    if s.landing && decide (b.stack ≤ 11) && decide (b.channel ≤ 31) && decide (b.bank ≤ 31) then s.refuse x stBUSY 8
    else if b.stack > 11 ∨ b.channel > 31 ∨ b.bank > 31 ∨ ¬ zeroAt x.payload 3 1 then s.refuse x stBAD_PARAM 8
    else if s.mem.banks.contains b then s.done x (List.replicate 8 0)
    else if s.mem.banks.length ≥ 8 then s.refuse x stNO_RESOURCE 8
    else
      let t := s.emptySlots (s.slotsHit (s.mem.inBank b))
      let m : Mem := { t.mem with banks := t.mem.banks ++ [b] }
      ({ t with mem := m } : State).done x (retireData (s.slotsHit (s.mem.inBank b)) (s.mem.freshPages b).length) := by
  unfold cmdRetireBank
  rw [hs, hc, hb]
  rfl

/-- The payload of a RETIRE_BANK (Table 14.12). -/
structure BankPayload (b : Bank) (bs : List Byte) : Prop where
  eq : bs = toLe 1 b.stack ++ toLe 1 b.channel ++ toLe 1 b.bank ++ [0]
  stack : b.stack < 256
  channel : b.channel < 256
  bank : b.bank < 256

theorem BankPayload.fields {b : Bank} {bs : List Byte} (h : BankPayload b bs) :
    fieldLe bs 0 1 = b.stack ∧ fieldLe bs 1 1 = b.channel ∧ fieldLe bs 2 1 = b.bank ∧ zeroAt bs 3 1 = true := by
  obtain ⟨rfl, hs, hc, hb⟩ := h
  have hzero : zeroAt [0#8] 0 1 = true := rfl
  simp only [List.append_assoc]
  refine ⟨fieldLe_toLe_append (k := 1) hs, ?_, ?_, ?_⟩
  · simp [fieldLe_append_skip, fieldLe_toLe_append (k := 1) hc]
  · simp [fieldLe_append_skip, fieldLe_toLe_append (k := 1) hb]
  · simp [zeroAt_append_skip, hzero]

theorem State.judge'_retireBank {s : State} {c : Sub} {b : Bank} (h : s.Takes c) (ho : s.Open) (hsteps : s.steps = [])
    (hpay : BankPayload b c.payload) : (s.submitted c 0x0302).judge' (asked c 0x0302) = none :=
  State.judge'_betweenSteps h ho hsteps (.inr (.inr ⟨rfl, by simp [hpay.eq]⟩))

/-- A bank of the hardware is retired while no landing area is in use, unless it is so already or eight are (R294, R295). -/
theorem cmdRetireBank_free {s : State} {c : Sub} {b : Bank} (hpay : BankPayload b c.payload) (hreal : b.Real) (hland : s.landing = false) :
    cmdRetireBank ⟨c.mbx, c.payload, c.env⟩ (s.running c 0x0302) =
      if s.mem.banks.contains b then (s.running c 0x0302).complete c.mbx stOK (List.replicate 8 0)
      else if s.mem.banks.length ≥ 8 then (s.running c 0x0302).complete c.mbx stNO_RESOURCE (List.replicate 8 0)
      else
        let t := (s.running c 0x0302).emptySlots (s.slotsHit (s.mem.inBank b))
        let m : Mem := { t.mem with banks := t.mem.banks ++ [b] }
        ({ t with mem := m } : State).complete c.mbx stOK (retireData (s.slotsHit (s.mem.inBank b)) (s.mem.freshPages b).length) := by
  obtain ⟨hs, hc, hb, hz⟩ := hpay.fields
  have huse : (s.running c 0x0302).landing = false := hland
  obtain ⟨h1, h2, h3⟩ := hreal
  rw [cmdRetireBank_eq hs hc hb, if_neg (by simp [huse]), if_neg (by simp [hz]; omega)]
  rfl

section
variable {s : State} {c : Sub} {b : Bank} (h : s.Takes c) (ho : s.Open) (hsteps : s.steps = []) (hpay : BankPayload b c.payload)
include h ho hsteps hpay

/-- While the landing area is in use every bank of the hardware is BUSY (R295). -/
theorem exec_retireBank_busy (hland : s.landing = true) (hreal : b.Real) :
    ∃ t, exec (.retireBank c) s = .next t ∧ s.Answers c 0x0001 (List.replicate 8 0) [] t := by
  obtain ⟨hs, hc, hb, -⟩ := hpay.fields
  have huse : (s.running c 0x0302).landing = true := hland
  obtain ⟨h1, h2, h3⟩ := hreal
  exact State.command_unchanged rfl h (by decide) (State.judge'_retireBank h ho hsteps hpay)
    ((cmdRetireBank_eq hs hc hb _).trans (if_pos (by simp [huse, h1, h2, h3])))

/-- A bank that does not exist is BAD_PARAM (R294). -/
theorem exec_retireBank_beyond (hreal : ¬ b.Real) :
    ∃ t, exec (.retireBank c) s = .next t ∧ s.Answers c 0x0011 (List.replicate 8 0) [] t := by
  obtain ⟨hs, hc, hb, -⟩ := hpay.fields
  unfold Bank.Real at hreal
  exact State.command_unchanged rfl h (by decide) (State.judge'_retireBank h ho hsteps hpay)
    ((cmdRetireBank_eq hs hc hb _).trans ((if_neg (by simp; omega)).trans (if_pos (by omega))))

section
variable (hland : s.landing = false) (hreal : b.Real)
include hland hreal

theorem exec_retireBank_again (hold : b ∈ s.mem.banks) :
    ∃ t, exec (.retireBank c) s = .next t ∧ s.Answers c 0 (List.replicate 8 0) [] t :=
  State.command_unchanged rfl h (by decide) (State.judge'_retireBank h ho hsteps hpay)
    ((cmdRetireBank_free hpay hreal hland).trans (if_pos (List.contains_iff_mem.mpr hold)))

theorem exec_retireBank_full (hnew : b ∉ s.mem.banks) (hfull : 8 ≤ s.mem.banks.length) :
    ∃ t, exec (.retireBank c) s = .next t ∧ s.Answers c 0x0020 (List.replicate 8 0) [] t :=
  State.command_unchanged rfl h (by decide) (State.judge'_retireBank h ho hsteps hpay)
    ((cmdRetireBank_free hpay hreal hland).trans ((if_neg (by simpa using hnew)).trans (if_pos hfull)))

/-- The bank is retired, and every slot with an allocation in it is emptied (R294, R296). -/
theorem exec_retireBank_retires (hnew : b ∉ s.mem.banks) (hroom : s.mem.banks.length < 8) (hun : s.MovedUntracked) :
    ∃ t, exec (.retireBank c) s = .next t
      ∧ s.Answers c 0 (retireData (s.slotsHit (s.mem.inBank b)) (s.mem.freshPages b).length) [.mem, .slots, .towers] t
      ∧ t.mem.banks = s.mem.banks ++ [b] ∧ t.mem.pages = s.mem.pages
      ∧ (∀ n ∈ s.slotsHit (s.mem.inBank b), t.slot n = (s.slot n).emptied) ∧ (∀ n, n ∉ s.slotsHit (s.mem.inBank b) → t.slot n = s.slot n)
      ∧ ∀ q, (∀ n ∈ s.slotsHit (s.mem.inBank b), ¬ (s.slot n).MovedAt q) → memGet t.mem.cells q = memGet s.mem.cells q := by
  have hemp := (s.running c 0x0302).emptySlots_empties (s.slotsHit (s.mem.inBank b))
  have hbody := (cmdRetireBank_free hpay hreal hland).trans
    ((if_neg (by simpa using hnew)).trans (if_neg (Nat.not_le.mpr hroom)))
  obtain ⟨t, hexec, hans, hmem, hhit, hothers, hcells⟩ := State.command_empties (i := .retireBank c) rfl h (by decide)
    (State.judge'_retireBank h ho hsteps hpay) hun hbody rfl rfl
  exact ⟨t, hexec, hans, (congrArg Mem.banks hmem).trans (congrArg (· ++ [b]) hemp.banks), (congrArg Mem.pages hmem).trans hemp.pages,
    hhit, hothers, hcells⟩

end

end

/-! ### The obligation -/

/-- Settles O20: each command by the branch that its operand takes; the slots that the new hole hits are emptied one after another, each leaving
all but what it had in affine regions. -/
theorem retirementMakesHoles : Obligations.RetirementMakesHoles := by
  refine ⟨fun s c p h ho hsteps hp hpay _ hun => ⟨fun hle hland hnew hroom => ?_, exec_retirePage_again h ho hsteps hp hpay,
      exec_retirePage_busy h ho hsteps hp hpay, exec_retirePage_beyond h ho hsteps hp hpay, exec_retirePage_full h ho hsteps hp hpay⟩,
    fun s c b h ho hsteps hstack hchannel hbank hbytes _ hun => ?_⟩
  · obtain ⟨t, hexec, hans, hpages, hbanks, hhit, hothers, hcells⟩ := exec_retirePage_retires h ho hsteps hp hpay hle hland hnew hroom hun
    have hmem (n : Nat) : n ∈ s.slotsHit (Alloc.inPage p) ↔ n < 4 ∧ ∃ a ∈ (s.slot n).allocs, a.hits (p * 65536) 65536 = true := by
      rw [State.mem_slotsHit, List.any_eq_true]
      rfl
    refine ⟨t, _, hexec, hans, length_retireData _ _, fieldLe_retireData_pages _ (by omega), hpages, hbanks,
      by simp [Mem.pageRetired, hpages], fun q hq => hcells q fun n hn => ?_, fun n hn => ⟨fun hsome => ?_, fun hnone => ?_⟩⟩
    · obtain ⟨hn4, hsome⟩ := (hmem n).mp hn
      exact hq n hn4 hsome
    · have hbit := s.testBit_retireData (Alloc.inPage p) (s.mem.pages.length + 1) hn
      rw [hhit n ((hmem n).mpr ⟨hn, hsome⟩), hbit, List.any_eq_true]
      exact ⟨rfl, rfl, hsome⟩
    · have hbit := s.testBit_retireData (Alloc.inPage p) (s.mem.pages.length + 1) hn
      rw [hothers n fun hin => ?_, hbit, List.any_eq_false]
      · exact ⟨rfl, fun a ha => ne_true_of_eq_false (hnone a ha)⟩
      · obtain ⟨-, a, ha, hhits⟩ := (hmem n).mp hin
        simp [hnone a ha] at hhits
  · have hpay : BankPayload b c.payload := ⟨hbytes, hstack, hchannel, hbank⟩
    refine ⟨exec_retireBank_busy h ho hsteps hpay, fun hland hreal hnew hroom => ?_, exec_retireBank_again h ho hsteps hpay,
      exec_retireBank_full h ho hsteps hpay, exec_retireBank_beyond h ho hsteps hpay⟩
    obtain ⟨t, hexec, hans, hbanks, hpages, hhit, hothers, hcells⟩ := exec_retireBank_retires h ho hsteps hpay hland hreal hnew hroom hun
    refine ⟨t, _, hexec, hans, length_retireData _ _, hbanks, fun q hq => hcells q fun n hn => ?_, hpages,
      fieldLe_retireData_pages _ (s.mem.length_freshPages_lt b), fun n hn => ⟨fun hsome => ?_, fun hnone => ?_⟩⟩
    · obtain ⟨hn4, hsome⟩ := State.mem_slotsHit.mp hn
      exact hq n hn4 hsome
    · rw [hhit n (State.mem_slotsHit.mpr ⟨hn, hsome⟩)]
      exact ⟨rfl, rfl⟩
    · refine hothers n fun hin => ?_
      exact Bool.false_ne_true (hnone.symm.trans (State.mem_slotsHit.mp hin).2)

end Sys2Proof.Machine
end

section
/-!
SUPPORT. The image of a topology (R258, Tables 10.2 to 10.4) reads back part by part: its header, its module entries, its group entries.
-/
namespace Sys2Proof.Machine

open Sys2Proof

/-! ### The parts of the image -/

/-- The header of a topology image (Table 10.2). -/
def Topology.head (t : Topology) : List Byte :=
  toLe 2 0x0100 ++ (toLe 2 t.groups.length ++ (toLe 4 t.modules.length ++ (toLe 4 t.myRank ++ (toLe 4 t.jobId ++ (toLe 2 t.dataGroup
    ++ (toLe 2 t.splitGroup ++ (toLe 4 t.splitMin ++ (toLe 4 t.timeoutMs ++ (toLe 1 t.coolant ++ (List.replicate 35 0#8 ++ []))))))))))

/-- A module entry (Table 10.3). -/
def ModEnt.bytes (m : ModEnt) : List Byte :=
  toLe 2 m.board ++ (toLe 1 m.slot ++ (toLe 1 0 ++ (toLe 2 m.pbr ++ (toLe 2 0 ++ (toLe 8 m.fabricBase ++ (List.replicate 16 0#8 ++ []))))))

/-- The first eight bytes of a group entry (Table 10.4). -/
def GroupEnt.head (g : GroupEnt) : List Byte := toLe 2 g.group ++ (toLe 2 g.ranks.length ++ (toLe 4 0 ++ []))

/-- The ranks of a group entry, padded to a multiple of eight bytes (Table 10.4). -/
def GroupEnt.rankBytes (g : GroupEnt) : List Byte := g.ranks.flatMap (toLe 4) ++ List.replicate (4 * (g.ranks.length % 2)) 0

def GroupEnt.bytes (g : GroupEnt) : List Byte := g.head ++ g.rankBytes

theorem Topology.image_eq (t : Topology) :
    t.image = t.head ++ (t.modules.flatMap ModEnt.bytes ++ t.groups.flatMap GroupEnt.bytes) := by
  simp only [Topology.image, Topology.head, List.append_assoc, List.append_nil]
  rfl

@[simp] theorem Topology.length_head (t : Topology) : t.head.length = 64 := by
  simp [Topology.head]

@[simp] theorem ModEnt.length_bytes (m : ModEnt) : m.bytes.length = 32 := by
  simp [ModEnt.bytes]

@[simp] theorem GroupEnt.length_head (g : GroupEnt) : g.head.length = 8 := by
  simp [GroupEnt.head]

theorem length_flatMap_const {α β : Type} {f : α → List β} {w : Nat} (hw : ∀ x, (f x).length = w) (l : List α) :
    (l.flatMap f).length = w * l.length := by
  simp [List.length_flatMap, hw, Nat.mul_comm]

theorem GroupEnt.length_rankBytes (g : GroupEnt) : g.rankBytes.length = 4 * (g.ranks.length + g.ranks.length % 2) := by
  rw [GroupEnt.rankBytes, List.length_append, length_flatMap_const (length_toLe 4), List.length_replicate, Nat.mul_add]

/-! ### Each part reads back -/

/-- The header alone of a topology. -/
def Topology.bare (t : Topology) : Topology := { t with modules := [], groups := [] }

/-- The header reads back field by field: each offset is that of its own part (Table 10.2). -/
theorem topoHeader_head {t : Topology} (h : t.Fits) : topoHeader t.head = some (t.groups.length, t.modules.length, t.bare) := by
  obtain ⟨hgroups, hmin, hmods, hrank, hjob, hdata, hsplit, hsmin, hsmin', htmo, htmo', hcool, -, -⟩ := h
  unfold topoHeader Topology.head
  simp (disch := (simp only [length_toLe]; omega)) only [fieldLe_append_skip, zeroAt_append_skip, length_toLe, Nat.reduceSub]
  simp (disch := omega) only [fieldLe_toLe_append, zeroAt_replicate_append, ne_eq, not_true_eq_false, false_or]
  rw [if_neg (by omega), if_neg (by omega), if_neg (by omega)]
  rfl

/-- The fields of a module entry that Table 10.3 can hold. -/
def ModEnt.Fits (m : ModEnt) : Prop := m.board ≤ 1023 ∧ m.slot ≤ 7 ∧ m.pbr ≤ 4095 ∧ m.fabricBase < 2 ^ 64 ∧ m.fabricBase % 268435456 = 0

theorem modEntry_bytes {m : ModEnt} (h : m.Fits) : modEntry m.bytes = some m := by
  obtain ⟨hboard, hslot, hpbr, hbase, halign⟩ := h
  unfold modEntry ModEnt.bytes
  simp (disch := (simp only [length_toLe]; omega)) only [fieldLe_append_skip, zeroAt_append_skip, length_toLe, Nat.reduceSub]
  simp (disch := omega) only [fieldLe_toLe_append, zeroAt_toLe_append, zeroAt_replicate_append, halign, ne_eq, not_true_eq_false, or_false]
  rw [if_neg (by omega)]

/-- Entries that are each read back are read back one after another. -/
theorem cutAll_flatMap {α : Type} {w : Nat} {f : List Byte → Option α} {g : α → List Byte} {l : List α} (hw : ∀ x, (g x).length = w)
    (hf : ∀ x ∈ l, f (g x) = some x) : cutAll w f l.length (l.flatMap g) = some l := by
  induction l with
  | nil => rfl
  | cons x l ih =>
    rw [List.flatMap_cons, List.length_cons, cutAll, List.take_left' (hw x), List.drop_left' (hw x), hf x (List.mem_cons_self ..),
      ih fun y hy => hf y (List.mem_cons_of_mem _ hy)]
    rfl

/-- The fields of a group entry that Table 10.4 can hold. -/
def GroupEnt.Fits (g : GroupEnt) : Prop :=
  1 ≤ g.group ∧ g.group ≤ 0xFFFE ∧ 1 ≤ g.ranks.length ∧ g.ranks.length ≤ 1024 ∧ ∀ r ∈ g.ranks, r < 2 ^ 32

theorem GroupEnt.fields_head {g : GroupEnt} (h : g.Fits) :
    fieldLe g.head 0 2 = g.group ∧ fieldLe g.head 2 2 = g.ranks.length ∧ zeroAt g.head 4 4 = true := by
  obtain ⟨hgroup, hgroup', hsome, hfew, -⟩ := h
  refine ⟨fieldLe_toLe_append (by omega), ?_, ?_⟩
  · simp [GroupEnt.head, fieldLe_append_skip, fieldLe_toLe_append (k := 2) (n := g.ranks.length) (by omega)]
  · simp [GroupEnt.head, zeroAt_append_skip, zeroAt_toLe_append, -List.append_nil]

/-- The ranks of a group entry read back, and what pads them is zero. -/
theorem GroupEnt.ranks_rankBytes {g : GroupEnt} (h : g.Fits) :
    ((List.range g.ranks.length).map fun i => fieldLe g.rankBytes (4 * i) 4) = g.ranks
      ∧ (g.ranks.length % 2 = 1 → zeroAt g.rankBytes (4 * g.ranks.length) 4 = true) := by
  obtain ⟨-, -, -, -, hranks⟩ := h
  refine ⟨List.ext_getElem (by simp) fun i _ hi => ?_, fun hodd => ?_⟩
  · rw [List.getElem_map, List.getElem_range, fieldLe, GroupEnt.rankBytes, sliceB_flatMap_append (length_toLe 4) _ _ hi,
      ofLe_toLe (hranks _ (List.getElem_mem hi))]
  · rw [GroupEnt.rankBytes, zeroAt_append_skip (by rw [length_flatMap_const (length_toLe 4)]), length_flatMap_const (length_toLe 4), hodd,
      Nat.sub_self]
    rfl

/-! ### The whole image -/

/-- A part of an image is read as it stands, and the read changes nothing (R339, R364). -/
theorem State.imgRead_part {s : State} {c : Sub} {off : Nat} {pre part post : List Byte} (h : ImageAt s c off (pre ++ (part ++ post)))
    {o len : Nat} (ho : pre.length = o) (hl : part.length = len) (h0 : 0 < len) :
    s.imgRead c.env (fieldLe c.payload off 8) o len = (.ok part, s) := by
  rw [State.imgRead_image h (by simp; omega) h0, List.drop_left' ho, List.take_left' hl]

/-- Group entries are read one after another (R258, Table 10.4). -/
theorem State.readGroups_image {s : State} {c : Sub} {off : Nat} {gs : List GroupEnt} (hgs : ∀ g ∈ gs, g.Fits) {pre : List Byte} {o : Nat}
    (ho : pre.length = o) (h : ImageAt s c off (pre ++ gs.flatMap GroupEnt.bytes)) (acc : List GroupEnt) :
    State.readGroups c.env (fieldLe c.payload off 8) gs.length o acc s = (.ok (acc ++ gs), s) := by
  induction gs generalizing pre o acc with
  | nil => rw [List.append_nil]; rfl
  | cons g gs ih =>
    have hg := hgs g (List.mem_cons_self ..)
    obtain ⟨hgroup, hcount, hzero⟩ := GroupEnt.fields_head hg
    obtain ⟨hranks, hpad⟩ := GroupEnt.ranks_rankBytes hg
    obtain ⟨hlo, hhi, hsome, hfew, -⟩ := hg
    have hlen := g.length_rankBytes
    rw [List.flatMap_cons, GroupEnt.bytes, List.append_assoc] at h
    have h' := h
    rw [← List.append_assoc] at h'
    have hhead := State.imgRead_part h ho g.length_head (by decide)
    have hrest := State.imgRead_part h' (o := o + 8) (by simp [ho]) hlen (by omega)
    rw [← List.append_assoc] at h'
    have hnext := ih (fun x hx => hgs x (List.mem_cons_of_mem _ hx)) (o := o + 8 + 4 * (g.ranks.length + g.ranks.length % 2))
      (by simp [ho, hlen, Nat.add_assoc]) h' (acc ++ [g])
    rw [List.length_cons, State.readGroups, hhead, Img.andThen_ok]
    dsimp only
    rw [hgroup, hcount, hzero]
    rw [if_neg (by simp only [not_true_eq_false, or_false]; omega), hrest, Img.andThen_ok, hranks, if_neg (by simpa using hpad), hnext,
      List.append_assoc]
    rfl

/-- SET_TOPOLOGY reads the topology that an image lays out (R258, Tables 10.2 to 10.4). -/
theorem State.readTopology_image {s : State} {c : Sub} {t : Topology} (hfits : t.Fits) (him : ImageAt s c 8 t.image) :
    s.readTopology c.env (fieldLe c.payload 8 8) = (.ok t, s) := by
  have hhead := topoHeader_head hfits
  obtain ⟨-, hsome, -, -, -, -, -, -, -, -, -, -, hmods, hgroups⟩ := hfits
  rw [Topology.image_eq] at him
  have hread := State.imgRead_part (pre := []) (o := 0) him rfl t.length_head (by decide)
  have hreadMods := State.imgRead_part him t.length_head (length_flatMap_const ModEnt.length_bytes _) (by omega)
  have hcut := cutAll_flatMap ModEnt.length_bytes fun m hm => modEntry_bytes (hmods m hm)
  rw [← List.append_assoc] at him
  have hreadGroups := State.readGroups_image hgroups (by rw [List.length_append, t.length_head, length_flatMap_const ModEnt.length_bytes]) him []
  rw [State.readTopology, hread, Img.andThen_ok, hhead]
  dsimp only
  rw [hreadMods, Img.andThen_ok, hcut]
  dsimp only
  rw [hreadGroups, Img.andThen_ok]
  rfl

end Sys2Proof.Machine
end

section
/-!
O13. SET_TOPOLOGY (R193, R258 to R260, R267, R295).
-/
namespace Sys2Proof.Machine

open Sys2Proof

/-! ### Links under a topology -/

theorem State.reroute_frame (s : State) : Frame [.fabric] s s.reroute := s.set_fabric_frame _

/-- New links, perhaps after an event, leave the topology in force. -/
theorem Frame.relinked {s e : State} (h : Frame [.evt] s e) (l : List Link) :
    Frame [.fabric, .evt] s { e with fabric := { e.fabric with links := l } }
      ∧ ({ e with fabric := { e.fabric with links := l } } : State).fabric.topo = s.fabric.topo := by
  have hfabric : e.fabric = s.fabric := h .fabric (by simp)
  have htopo : e.fabric.topo = s.fabric.topo := congrArg Fabric.topo hfabric
  exact ⟨Frame.trans h (e.set_fabric_frame _) (by simp) (by simp), htopo⟩

/-- A link that is judged may be recorded; the topology that judges it stands (R261). -/
theorem State.judgeLink_frame (t : Topology) (s : State) (i : Nat) :
    Frame [.fabric, .evt] s (State.judgeLink t s i) ∧ (State.judgeLink t s i).fabric.topo = s.fabric.topo := by
  unfold State.judgeLink
  dsimp only
  split
  · exact (Frame.refl [.evt] s).relinked _
  · split
    · exact (s.event_frame _ _ _).relinked _
    · exact (Frame.refl [.evt] s).relinked _

theorem State.judgeLinks_frame (s : State) : Frame [.fabric, .evt] s s.judgeLinks ∧ s.judgeLinks.fabric.topo = s.fabric.topo := by
  have hfold (t : Topology) (l : List Nat) (u : State) :
      Frame [.fabric, .evt] u (l.foldl (State.judgeLink t) u) ∧ (l.foldl (State.judgeLink t) u).fabric.topo = u.fabric.topo := by
    induction l generalizing u with
    | nil => exact ⟨Frame.refl _ _, rfl⟩
    | cons i l ih =>
      obtain ⟨hframe, htopo⟩ := State.judgeLink_frame t u i
      obtain ⟨hframe', htopo'⟩ := ih (State.judgeLink t u i)
      exact ⟨Frame.trans hframe hframe' (by simp) (by simp), htopo'.trans htopo⟩
  unfold State.judgeLinks
  split
  · exact ⟨Frame.refl _ _, rfl⟩
  · exact hfold _ _ _

/-! ### The body of the command -/

/-- Do at most TIMEOUT and COOLANT differ from the topology in force (R260)? -/
def State.keepsTopology (s : State) (t : Topology) : Bool :=
  match s.fabric.topo with
  | some o => { t with timeoutMs := o.timeoutMs, coolant := o.coolant } == o
  | none => false

theorem State.keepsTopology_iff {s : State} {t : Topology} : s.keepsTopology t = true ↔
    ∃ o, s.fabric.topo = some o ∧ ({ t with timeoutMs := o.timeoutMs, coolant := o.coolant } : Topology) = o := by
  unfold State.keepsTopology
  cases s.fabric.topo <;> simp

/-- The slots that a topology empties (R260). -/
def State.cleared (s : State) (t : Topology) : List Nat := if s.keepsTopology t then [] else List.range 4

/-- Those of them that hold a program. -/
def State.discarded (s : State) (t : Topology) : List Nat :=
  if s.keepsTopology t then [] else (List.range 4).filter fun n => (s.slot n).prog.isSome

/-- A topology in force, with its coolant class; what belongs to another topology is forgotten (R258, R260). -/
def State.withTopology (s : State) (t : Topology) (keep : Bool) : State :=
  { s with
    belfry := { s.belfry with coolant := t.coolant }
    fabric := { s.fabric with
      topo := some t
      noCredit := if keep then s.fabric.noCredit else []
      resent := if keep then s.fabric.resent else []
      writing := if keep then s.fabric.writing else []
      outbox := if keep then s.fabric.outbox else [] } }

theorem State.withTopology_frame (s : State) (t : Topology) (keep : Bool) : Frame [.belfry, .fabric] s (s.withTopology t keep) := by
  intro p hp
  cases p with
  | belfry | fabric => simp at hp
  | _ => rfl

/-- A topology in force, under which the links have their relays and are judged (R257, R261). -/
def State.establish (s : State) (t : Topology) (keep : Bool) : State := (s.withTopology t keep).reroute.judgeLinks

/-- A legal topology with room, once it is in force (R258 to R261). -/
def State.installTopology (s : State) (t : Topology) : State := (s.emptySlots (s.cleared t)).establish t (s.keepsTopology t)

/-- The completion of SET_TOPOLOGY: the slots that lost a program, and whether the landing area is in use (R260, R267). -/
def topologyData (lost : List Nat) (many : Bool) : List Byte := toLe 1 (maskOf lost) ++ toLe 1 (if many then 1 else 0) ++ toLe 2 0

/-- Do the landing areas fit, in memory that is not retired (R267, R295)? -/
def State.LandingFits (s : State) (t : Topology) : Prop :=
  (∀ r < t.modules.length, (t.others r).length ≤ 384) ∧ s.mem.touchesRetired landBase (0x400000 * (t.others t.myRank).length) = false

/-- What the command asks of them. -/
def State.landingBlocked (s : State) (t : Topology) : Bool :=
  ((List.range t.modules.length).any fun r => decide ((t.others r).length > 384))
    || s.mem.touchesRetired landBase (0x400000 * (t.others t.myRank).length)

theorem State.landingBlocked_iff {s : State} {t : Topology} : s.landingBlocked t = true ↔ ¬ s.LandingFits t := by
  simp only [State.landingBlocked, State.LandingFits, Bool.or_eq_true, List.any_eq_true, List.mem_range, decide_eq_true_eq, not_and_or,
    not_forall, Nat.not_le, Bool.not_eq_false, exists_prop, gt_iff_lt]

/-- SET_TOPOLOGY of the image of a topology (R258 to R260, R267, R295). -/
theorem cmdSetTopology_image {s : State} {c : Sub} {t : Topology} (hz : zeroAt c.payload 0 8 = true) (hfits : t.Fits) (him : ImageAt s c 8 t.image) :
    cmdSetTopology ⟨c.mbx, c.payload, c.env⟩ s =
      if !t.legal then s.refuse ⟨c.mbx, c.payload, c.env⟩ stBAD_PARAM 4
      else if s.landingBlocked t then s.refuse ⟨c.mbx, c.payload, c.env⟩ stNO_RESOURCE 4
      else (s.installTopology t).done ⟨c.mbx, c.payload, c.env⟩ (topologyData (s.discarded t) t.manyBoards) := by
  have hempty : (if s.keepsTopology t then s else s.emptySlots (List.range 4)) = s.emptySlots (s.cleared t) := by
    unfold State.cleared
    split <;> rfl
  unfold cmdSetTopology State.installTopology
  dsimp only
  rw [if_neg (by simp [hz]), State.readTopology_image hfits him, ← hempty]
  rfl

theorem State.establish_frame (s : State) (t : Topology) (keep : Bool) :
    Frame [.belfry, .fabric, .evt] s (s.establish t keep) ∧ (s.establish t keep).fabric.topo = some t
      ∧ (s.establish t keep).belfry = { s.belfry with coolant := t.coolant } := by
  obtain ⟨hjudged, htopo⟩ := (s.withTopology t keep).reroute.judgeLinks_frame
  have hrouted := (s.withTopology t keep).reroute_frame
  have hput := Frame.trans (k := [.belfry, .fabric]) (s.withTopology_frame t keep) hrouted (by simp) (by simp)
  exact ⟨Frame.trans hput hjudged (by simp) (by simp), htopo, hjudged.belfry_eq.trans hrouted.belfry_eq⟩

/-! ### How the command ends -/

section
variable {s : State} {c : Sub} {t : Topology} (h : s.Takes c) (ho : s.Open) (hlen : c.payload.length = 16) (hsteps : s.steps = [])
include h ho hlen hsteps

theorem State.judge'_setTopology : (s.submitted c 0x0101).judge' (asked c 0x0101) = none :=
  State.judge'_betweenSteps h ho hsteps (.inl ⟨rfl, hlen⟩)

/-- A reserved byte that is not zero is BAD_PARAM, whatever the image (R8, R258). -/
theorem exec_setTopology_reserved (hz : zeroAt c.payload 0 8 = false) :
    ∃ u, exec (.setTopology c) s = .next u ∧ s.Answers c 0x0011 [0, 0, 0, 0] [] u :=
  State.command_unchanged rfl h (by decide) (State.judge'_setTopology h ho hlen hsteps) (if_pos (by simp [hz]))

section
variable (hfits : t.Fits) (him : ImageAt s c 8 t.image) (hz : zeroAt c.payload 0 8 = true)
include hfits him hz

/-- An illegal topology is BAD_PARAM (R259). -/
theorem exec_setTopology_illegal (hbad : t.legal = false) :
    ∃ u, exec (.setTopology c) s = .next u ∧ s.Answers c 0x0011 [0, 0, 0, 0] [] u :=
  State.command_unchanged rfl h (by decide) (State.judge'_setTopology h ho hlen hsteps)
    ((cmdSetTopology_image hz hfits (him.running _)).trans (if_pos (by simp [hbad])))

variable (hlegal : t.legal = true)
include hlegal

/-- Landing areas that do not fit, or lie in retired memory, are NO_RESOURCE (R267, R295). -/
theorem exec_setTopology_noRoom (hroom : ¬ s.LandingFits t) :
    ∃ u, exec (.setTopology c) s = .next u ∧ s.Answers c 0x0020 [0, 0, 0, 0] [] u := by
  have hblocked : (s.running c 0x0101).landingBlocked t = true := State.landingBlocked_iff (s := s).mpr hroom
  exact State.command_unchanged rfl h (by decide) (State.judge'_setTopology h ho hlen hsteps)
    ((cmdSetTopology_image hz hfits (him.running _)).trans ((if_neg (by simp [hlegal])).trans (if_pos hblocked)))

/-- A legal topology whose landing areas fit is put in force (R258 to R260, R267). -/
theorem exec_setTopology_installs (hroom : s.LandingFits t) (hun : s.MovedUntracked) :
    ∃ u, exec (.setTopology c) s = .next u
      ∧ s.Answers c 0 (topologyData (s.discarded t) t.manyBoards) [.belfry, .fabric, .slots, .towers, .mem, .evt] u
      ∧ u.fabric.topo = some t ∧ u.belfry = { s.belfry with coolant := t.coolant }
      ∧ u.slots = ((s.running c 0x0101).emptySlots (s.cleared t)).slots
      ∧ u.mem = { ((s.running c 0x0101).emptySlots (s.cleared t)).mem with writer := s.mem.writer } := by
  have hblocked : ¬ (s.running c 0x0101).landingBlocked t = true := mt (State.landingBlocked_iff (s := s)).mp (not_not_intro hroom)
  have hbody : State.romBody (asked c 0x0101) (s.running c 0x0101) =
      (((s.running c 0x0101).emptySlots (s.cleared t)).establish t (s.keepsTopology t)).complete c.mbx stOK
        (topologyData (s.discarded t) t.manyBoards) :=
    (cmdSetTopology_image hz hfits (him.running 0x0101)).trans ((if_neg (by simp [hlegal])).trans (if_neg hblocked))
  have hemp := (s.running c 0x0101).emptySlots_empties (s.cleared t)
  generalize (s.running c 0x0101).emptySlots (s.cleared t) = e at hbody hemp ⊢
  obtain ⟨hset, htopo, hbelfry⟩ := e.establish_frame t (s.keepsTopology t)
  generalize e.establish t (s.keepsTopology t) = w at hbody hset htopo hbelfry
  have hmem : w.mem = e.mem := hset .mem (by simp)
  have hkept : e.belfry = s.belfry := hemp.frame.belfry_eq
  have howes : w.mem.owes c.mbx = false := by
    rw [hmem]
    exact Mem.owes_false_of_subset h.settled (hemp.waiting (State.MovedUntracked.slots (s := s) hun _))
  have hframe := Frame.trans (k := [.belfry, .fabric, .slots, .towers, .mem, .evt, .out]) hemp.frame hset (by simp) (by simp)
  obtain ⟨hexec, hans⟩ := State.command_answers (i := .setTopology c) rfl h (by decide) (State.judge'_setTopology h ho hlen hsteps) hbody
    hframe.mailboxes_eq howes hframe
  have hdel := (w.writingFor s.mem.writer).deliver_frame c.mbx stOK (topologyData (s.discarded t) t.manyBoards)
  have hfabric : ((w.writingFor s.mem.writer).deliver c.mbx stOK (topologyData (s.discarded t) t.manyBoards)).fabric = w.fabric :=
    hdel .fabric (by simp)
  refine ⟨_, hexec, ⟨hans.holds, hans.others, hans.frame.weaken (by simp)⟩, ?_, ?_, hdel.slots_eq.trans hset.slots_eq, ?_⟩
  · rw [hfabric, htopo]
  · rw [← hkept]
    exact hdel.belfry_eq.trans hbelfry
  · rw [← hmem]
    exact hdel .mem (by simp)

end

end

/-! ### The obligation -/

theorem length_topologyData (lost : List Nat) (many : Bool) : (topologyData lost many).length = 4 := by
  simp [topologyData]

theorem fieldLe_topologyData_many (lost : List Nat) (many : Bool) : fieldLe (topologyData lost many) 1 1 = if many then 1 else 0 := by
  have hbit : (if many then 1 else 0) < 256 ^ 1 := by split <;> omega
  simp [topologyData, fieldLe_append_skip, fieldLe_toLe_append hbit]

/-- Settles O13: the image reads back as its topology, and the branch that the topology takes decides the answer; the slots are emptied one after
another, each leaving all but what it had in affine regions. -/
theorem setTopologyInstalls : Obligations.SetTopologyInstalls := by
  intro s c t h ho hlen hsteps hfits him hun
  refine ⟨fun hbad => ?_, fun hz hlegal hroom => exec_setTopology_noRoom h ho hlen hsteps hfits him hz hlegal hroom, fun hz hlegal hroom => ?_⟩
  · rcases hz : zeroAt c.payload 0 8 with _ | _
    · exact exec_setTopology_reserved h ho hlen hsteps hz
    · exact exec_setTopology_illegal h ho hlen hsteps hfits him hz (hbad.resolve_left (by simp [hz]))
  · obtain ⟨u, hexec, hans, htopo, hbelfry, hslots, hmem⟩ := exec_setTopology_installs h ho hlen hsteps hfits him hz hlegal hroom hun
    have hemp := (s.running c 0x0101).emptySlots_empties (s.cleared t)
    refine ⟨u, _, hexec, hans, length_topologyData _ _, htopo, hbelfry, fieldLe_topologyData_many _ _, ⟨fun hsame => ?_, fun hnew n hn => ?_⟩,
      fun q hq => ?_⟩
    · have hkeep : s.keepsTopology t = true := State.keepsTopology_iff.mpr hsame
      have hnone : s.cleared t = [] := if_pos hkeep
      have hlost : s.discarded t = [] := if_pos hkeep
      rw [hnone] at hslots hmem
      rw [hlost]
      exact ⟨hslots, hmem, fieldLe_toLe_append (by decide)⟩
    · have hkeep : ¬ s.keepsTopology t = true := mt State.keepsTopology_iff.mp hnew
      have hall : n ∈ s.cleared t := by
        rw [State.cleared, if_neg hkeep]
        exact List.mem_range.mpr hn
      obtain ⟨hlt, hbits⟩ := maskOf_filter_range (fun n => (s.slot n).prog.isSome) 4
      have hslot : u.slot n = (s.slot n).emptied := by
        rw [State.slot, hslots]
        exact hemp.emptied n hall
      rw [hslot, State.discarded, if_neg hkeep, topologyData, List.append_assoc,
        fieldLe_toLe_append (Nat.lt_of_lt_of_le hlt (by decide)), hbits n hn]
      exact ⟨rfl, rfl, rfl, rfl⟩
    · rw [hmem]
      refine hemp.cells q fun n hn => hq n ?_
      rw [State.cleared] at hn
      split at hn
      · cases hn
      · exact List.mem_range.mp hn

end Sys2Proof.Machine
end

section
/-!
O55. UPDATE begins layers in order (R209, R218), UPDATE_PASS runs their passes (R246, R253) or halts the slot (R228, R293, Table 11.6), and
LAYER_COMMIT makes the new version visible (R217, R230).
-/
namespace Sys2Proof.Machine

open Sys2Proof

/-! ### What exchanges leave of a step -/

/-- What CHECK has decided of a step, and the layers whose update has met a fault. -/
def Step.ruling (p : Step) : Option (Bool × Nat) × List Nat := (p.decided, p.updFault)

section
variable (s : State) (i : Nat)

theorem State.withColl_frame (r : Run) (u : CollUse) (kind group : Nat) (f : Coll → Coll) :
    Frame [.steps] s (s.withColl i r u kind group f) := s.modStep_frame i _

theorem State.withColl_ruling (r : Run) (u : CollUse) (kind group : Nat) (f : Coll → Coll) :
    s.StepsAgree i Step.ruling (s.withColl i r u kind group f) := by
  refine s.modStep_agrees fun p => ?_
  split <;> rfl

theorem State.joinFailed_frame : Frame [.steps] s (s.joinFailed i) := by
  unfold State.joinFailed
  split
  · exact Frame.refl _ _
  · exact Frame.foldl (fun s (q : CollUse × Nat × Nat) => s.withColl_frame i _ q.1 q.2.1 q.2.2 _) _ s

theorem State.sendChunk_frame (st : Step) (c : Coll) (x : Nat × Nat × List Byte) :
    Frame [.steps, .fabric, .out] s (s.sendChunk i st c x) := by
  unfold State.sendChunk
  split
  · exact Frame.refl _ _
  · exact Frame.trans (s.post_frame _ _ _) (State.modStep_frame _ i _) (by simp) (by simp)

theorem State.sendChunk_ruling (st : Step) (c : Coll) (x : Nat × Nat × List Byte) :
    s.StepsAgree i Step.ruling (s.sendChunk i st c x) := by
  unfold State.sendChunk
  split
  · exact .refl i _ s
  · exact ((s.post_frame _ _ _).stepsAgree i _).trans (State.modStep_agrees _ fun _ => rfl)

theorem State.pump_frame : Frame [.steps, .fabric, .out] s (s.pump i) := by
  unfold State.pump
  split
  · exact Frame.refl _ _
  · refine Frame.foldl (fun s c => ?_) _ s
    split
    · exact Frame.refl _ _
    · exact Frame.foldl (fun s x => s.sendChunk_frame i _ c x) _ s

theorem State.pump_ruling : s.StepsAgree i Step.ruling (s.pump i) := by
  unfold State.pump
  split
  · exact .refl i _ s
  · refine State.foldl_agrees (fun s c => ?_) _ s
    split
    · exact .refl i _ s
    · exact State.foldl_agrees (fun s x => s.sendChunk_ruling i _ c x) _ s

theorem State.failSums_frame (r : Run) : Frame [.steps] s (s.failSums i r) :=
  Frame.foldl (fun s (q : CollUse × Nat × Nat) => s.withColl_frame i r q.1 q.2.1 q.2.2 _) _ s

theorem State.failSums_ruling (r : Run) : s.StepsAgree i Step.ruling (s.failSums i r) :=
  State.foldl_agrees (fun s (q : CollUse × Nat × Nat) => s.withColl_ruling i r q.1 q.2.1 q.2.2 _) _ s

end

/-- A step that has failed goes no further than to tell the others so (R224). -/
theorem State.advanceAll_failed {s : State} {i : Nat} {p : Step} (hp : s.steps[i]? = some p) (he : p.ended ≠ .running) :
    s.advanceAll i = (s.joinFailed i).pump i := by
  simp [State.advanceAll, hp, he]

/-! ### A fault in an update -/

/-- The step before its decision fails where it is one of the slot (R229). -/
def State.failQueued (s : State) (n : Nat) : State :=
  match s.earlyIdx with
  | some j => match s.steps[j]? with
    | some q => if q.slot = n then (s.failStep j stBUS_ERROR).advanceAll j else s
    | none => s
  | none => s

/-- The queued step that fails leaves the slots as they are, and every step past its decision (R229). -/
theorem State.failQueued_leaves (s : State) (n : Nat) :
    (s.failQueued n).slots = s.slots
      ∧ ∀ (k : Nat) (p : Step), s.steps[k]? = some p → p.decided.isSome = true → (s.failQueued n).steps[k]? = some p := by
  unfold State.failQueued
  split
  next j hj =>
    split
    next q hq =>
      split
      · obtain ⟨hfailed, hothers, -⟩ := State.failStep_fails stBUS_ERROR hj hq
        have hended : (if q.ended = .running then StepEnd.failed stBUS_ERROR else q.ended) ≠ .running := by
          split
          · simp
          · assumption
        rw [State.advanceAll_failed hfailed hended]
        have hjoin := State.joinFailed_frame (s.failStep j stBUS_ERROR) j
        have hpump := State.pump_frame ((s.failStep j stBUS_ERROR).joinFailed j) j
        refine ⟨by rw [hpump.slots_eq, hjoin.slots_eq, (s.failStep_frame j stBUS_ERROR).slots_eq], fun k p hp hdec => ?_⟩
        have hk : k ≠ j := by
          rintro rfl
          rw [State.earlyIdx_undecided hj hp] at hdec
          cases hdec
        rw [(State.pump_stage _ j).1 k hk, (State.joinFailed_stage _ j).1 k hk, hothers k hk, hp]
      · exact ⟨rfl, fun _ _ hp _ => hp⟩
    next => exact ⟨rfl, fun _ _ hp _ => hp⟩
  next => exact ⟨rfl, fun _ _ hp _ => hp⟩

/-- The state in which a fault of a layer's update has been recorded: the event, the layer among the faulted ones, the halt of the slot (R228). -/
def State.faultNoted (s : State) (i : Nat) (r : Run) (l stack : Nat) : State :=
  ((s.event r.st.src 0x0305 [(2, l), (1, stack)]).modStep i fun p => { p with updFault := p.updFault ++ [l] }).modSlot r.st.slot
    fun x => { x with faultHalt := true }

theorem State.updateFault_eq (s : State) (i : Nat) (r : Run) (l stack : Nat) : s.updateFault i r l stack =
    (((((s.faultNoted i r l stack).scrambleLayer r.x r.p l).failSums i r).pump i).failQueued r.st.slot) := rfl

/-- A fault in an update halts the slot, and the step keeps the layer among its faulted ones (R228). -/
theorem State.updateFault_halts {s : State} {i : Nat} {r : Run} (l stack : Nat) (hst : s.steps[i]? = some r.st)
    (hlate : r.st.decided.isSome = true) (hslot : r.st.slot < s.slots.length) :
    ((s.updateFault i r l stack).slot r.st.slot).faultHalt = true
      ∧ ∃ p, (s.updateFault i r l stack).steps[i]? = some p ∧ l ∈ p.updFault := by
  have hevent := s.event_frame r.st.src 0x0305 [(2, l), (1, stack)]
  let a := (s.faultNoted i r l stack).scrambleLayer r.x r.p l
  have hast : a.steps[i]? = some { r.st with updFault := r.st.updFault ++ [l] } :=
    State.steps_modStep_getElem?_same (fun p => { p with updFault := p.updFault ++ [l] }) (hevent.steps_eq ▸ hst)
  have hahalt : (a.slot r.st.slot).faultHalt = true := by
    refine congrArg Slot.faultHalt (State.slot_modSlot_same _ (fun x => { x with faultHalt := true }) ?_)
    rw [State.modStep_slots, hevent.slots_eq]
    exact hslot
  obtain ⟨p, hp, hruling⟩ := ((a.failSums_ruling i r).trans (State.pump_ruling _ i)).get hast
  obtain ⟨hdec, hfault⟩ := Prod.mk.inj hruling
  obtain ⟨hslots, hlates⟩ := ((a.failSums i r).pump i).failQueued_leaves r.st.slot
  rw [State.updateFault_eq]
  refine ⟨?_, p, hlates i p hp (hdec ▸ hlate), hfault ▸ List.mem_append_right _ (List.mem_singleton.mpr rfl)⟩
  rw [State.slot, hslots, (State.pump_frame _ i).slots_eq, (a.failSums_frame i r).slots_eq]
  exact hahalt

/-! ### What the engines read -/

theorem State.sramEvent_reads (s : State) (src : EvSrc) (unit bank word req : Nat) (work : List (Nat × Nat)) :
    s.Reads (s.sramEvent src unit bank word req work) :=
  State.Reads.event ((State.Reads.refl s).upd (m := { s.mem with sramUe := s.mem.sramUe + 1 }) rfl) _ _ _

/-- What the engines meet as they read for a pass is counted and recorded, and changes no step and no slot (R287, Table 11.10). -/
theorem State.engineReads_reads (s : State) (r : Run) (l : Nat) (e : PassErr) : s.Reads (s.engineReads r l e).2 := by
  have hread := s.readRuns_reads rqUpdate r.st.number e.errs (r.x.engineRuns r.p l)
  unfold State.engineReads
  dsimp only
  split
  · exact hread.trans (State.sramEvent_reads _ _ _ _ _ _ _)
  · exact hread

/-- Without an error and without a retired page the engines read everything, and nothing changes. -/
theorem State.engineReads_quiet {s : State} {r : Run} {l : Nat}
    (h : ∀ q ∈ r.x.engineRuns r.p l, s.mem.touchesRetired q.1 q.2 = false) : s.engineReads r l ⟨[], none⟩ = (none, s) := by
  have hnone : (r.x.engineRuns r.p l).any (fun q => s.mem.touchesRetired q.1 q.2) = false :=
    List.any_eq_false.mpr fun q hq => by simp [h q hq]
  have hread : s.readRuns rqUpdate r.st.number [] (r.x.engineRuns r.p l) = (true, s) := by
    simp [State.readRuns, hnone]
  simp [State.engineReads, hread]

/-- An uncorrectable word of an engine's buffer, or bytes that could not be read, fail the pass at a stack (R228, Table 11.6). -/
theorem State.engineReads_fails {s : State} {r : Run} {l : Nat} {e : PassErr}
    (h : e.buffer.isSome = true ∨ (s.readRuns rqUpdate r.st.number e.errs (r.x.engineRuns r.p l)).1 = false) :
    ∃ stack, (s.engineReads r l e).1 = some stack := by
  unfold State.engineReads
  dsimp only
  split
  next => exact ⟨_, rfl⟩
  next hb => exact ⟨_, if_neg (by simpa [hb] using h)⟩

/-! ### The commands of an update -/

section
variable {s : State} {i : Nat} {r : Run} (hi : s.lateIdx = some i) (hr : s.run i = some r)
include hi hr

theorem State.onLate_late (f : State → Nat → Run → State) : s.onLate f = f s i r := by
  simp [State.onLate, hi, hr]

/-- A layer may begin: the step updates, no layer has met a fault, the layer is the next one, and the fence is open (R209, R218). -/
theorem State.beginUpdate_next {l : Nat} (hg : r.st.stage = .updating) (hf : r.st.updFault = []) (hl : l = r.st.updBegun.length)
    (hn : l < r.p.nLayers) (ho : s.fenceOpen r.st = true) :
    s.beginUpdate l = s.modStep i fun p => { p with updBegun := p.updBegun ++ [(l, 0)] } := by
  rw [State.beginUpdate, State.onLate_late hi hr, if_pos (by simp [hg, hf, ← hl, hn, ho])]

theorem State.beginUpdate_other {l : Nat} (hl : l ≠ r.st.updBegun.length) : s.beginUpdate l = s := by
  rw [State.beginUpdate, State.onLate_late hi hr, if_neg (by simp [hl])]

section
variable {l k pass : Nat} (hk : r.st.passesDone l = some k)
  (hpass : (s.passes r.x r.p r.st l (r.st.singular.contains l))[k]? = some pass)
include hk hpass

theorem State.updatePass_unsettled (e : PassErr) (hw : s.layerSettled r.x r.p l = false) : s.updatePass l e = s := by
  simp only [State.updatePass, State.onLate_late hi hr, hk, hpass]
  rw [if_pos (by simp [hw])]

variable (hw : s.layerSettled r.x r.p l = true)
include hw

theorem State.updatePass_runs {e : PassErr} (he : s.engineReads r l e = (none, s)) : s.updatePass l e = s.nextPass i r l pass := by
  simp only [State.updatePass, State.onLate_late hi hr, hk, hpass]
  rw [if_neg (by simp [hw])]
  simp only [he, hr]

theorem State.updatePass_faults {e : PassErr} {stack : Nat} (he : (s.engineReads r l e).1 = some stack) :
    s.updatePass l e = (s.engineReads r l e).2.updateFault i r l stack := by
  have hpair : s.engineReads r l e = (some stack, (s.engineReads r l e).2) := Prod.ext he rfl
  simp only [State.updatePass, State.onLate_late hi hr, hk, hpass]
  rw [if_neg (by simp [hw]), hpair]

end

/-- A layer commits once its passes have run and its writes stand (R217, R230). -/
theorem State.layerCommit_settled {l k : Nat} (hk : r.st.passesDone l = some k)
    (hall : (s.passes r.x r.p r.st l (r.st.singular.contains l)).length ≤ k) (hw : s.layerSettled r.x r.p l = true) :
    s.layerCommit l = (s.modStep i fun p => { p with updDone := p.updDone ++ [l] }).modSlot r.st.slot fun x =>
      { x with versions := updAt x.versions l (· + 1) } := by
  simp only [State.layerCommit, State.onLate_late hi hr, hk]
  rw [if_neg (by rw [decide_eq_false (Nat.not_lt.mpr hall), hw]; decide)]

end

/-- A pass that needs no sums of other modules runs at once (R246). -/
theorem State.nextPass_alone {s : State} {i : Nat} {r r1 : Run} {l pass : Nat} (h : s.sumNeeds r l pass = [])
    (hr : (s.pump i).run i = some r1) : s.nextPass i r l pass = ((s.pump i).runPass i r1.st r1.x r1.p l pass).modStep i fun p => { p with
      updBegun := p.updBegun.map fun q => if q.1 = l then (q.1, q.2 + 1) else q } := by
  simp [State.nextPass, h, hr]

/-- The step past its decision has been decided. -/
theorem State.lateIdx_decided {s : State} {i : Nat} {p : Step} (h : s.lateIdx = some i) (hp : s.steps[i]? = some p) :
    p.decided.isSome = true := by
  obtain ⟨hlt, hdec, -⟩ := List.findIdx?_eq_some_iff_getElem.mp h
  rw [List.getElem?_eq_getElem hlt, Option.some.injEq] at hp
  exact hp ▸ hdec

/-! ### The obligation -/

/-- Settles O55: each command by the one branch that its hypotheses leave; a fault halts the slot through what the failing of a queued step
leaves. -/
theorem updateRuns : Obligations.UpdateRuns := by
  intro s i l r hpow hi hr hslots hslot
  obtain ⟨hst, hx, -⟩ := State.run_eq_some.mp hr
  have hexec {f : State → State} : s.whenOn f = f s := by simp [State.whenOn, hpow]
  have hup : exec (.update l) s = .next (s.beginUpdate l) := congrArg Host.Outcome.next hexec
  have hcommit : exec (.layerCommit l) s = .next (s.layerCommit l) := congrArg Host.Outcome.next hexec
  have hpass (e : PassErr) : exec (.updatePass l e) s = .next (s.updatePass l e) := congrArg Host.Outcome.next hexec
  refine ⟨fun hg hf hl hn ho => ?_, fun hl => ?_, fun k pass hk hp => ⟨fun hw e => ?_, fun hw => ⟨fun hq => ?_, fun hn r1 hr1 => ?_,
    fun e he => ?_⟩⟩, fun k hk hall hw => ?_⟩
  · exact ⟨_, by rw [hup, State.beginUpdate_next hi hr hg hf hl hn ho], s.modStep_frame i _, State.steps_modStep_getElem?_same _ hst⟩
  · rw [hup, State.beginUpdate_other hi hr hl]
  · rw [hpass, State.updatePass_unsettled hi hr hk hp e hw]
  · rw [hpass, State.updatePass_runs hi hr hk hp hw (State.engineReads_quiet hq)]
  · exact State.nextPass_alone hn hr1
  · obtain ⟨stack, hstack⟩ := State.engineReads_fails he
    have hread := (s.engineReads_reads r l e).frame
    refine ⟨_, by rw [hpass, State.updatePass_faults hi hr hk hp hw hstack],
      State.updateFault_halts l stack (hread.steps_eq ▸ hst) (State.lateIdx_decided hi hst) ?_⟩
    rw [hread.slots_eq, hslots]
    exact hslot
  · refine ⟨_, by rw [hcommit, State.layerCommit_settled hi hr hk hall hw],
      Frame.trans (s.modStep_frame i _) (State.modSlot_frame _ _ _) (by simp) (by simp),
      State.steps_modStep_getElem?_same (fun p => { p with updDone := p.updDone ++ [l] }) hst, ?_, fun n hn => ?_⟩
    · rw [State.slot_modSlot_same _ _ (by simpa [hslots] using hslot), hx]
      rfl
    · exact State.slots_modSlot_getElem?_other _ _ hn

end Sys2Proof.Machine
end

section
/-!
SUPPORT. A block with a small program loaded, from which the counterexamples to O19 and O54 are made.
-/
namespace Sys2Proof.Machine

open Sys2Proof

/-- A program of one layer: the LOSS of rows of two FP32 elements that the host writes, against a target. -/
def lossProgram : Program := ⟨0x0100, 1, [0, 0, 0, 0],
  [⟨1, 2, 0x0B, 0, 0, [1, 2], [0, 1], 0xFF, 0xFF, 0, 0, noId, 0xFFFF, 0, 0, 0, 0⟩,
    ⟨2, 2, 0x0B, 0, 0, [1, 2], [0, 1], 0xFF, 0xFF, 0, 0, noId, 0xFFFF, 0, 0, 0, 0x100⟩,
    ⟨3, 1, 0x0B, 2, 0, [1], [0], 0xFF, 0xFF, 0, 0, noId, 0xFFFF, 0, 0, 0, 0⟩],
  [⟨0x0010, 0, 0, 2, 1, [1, 2], [3], 1 :: List.replicate 23 0, false⟩]⟩

/-- A Ready block of a module alone on its board, with `lossProgram` in slot 0 and an ETA for it. -/
def lossLoaded : State := { State.reset with
  power := { Power.reset with linkUp := true, hdm := some (0, devEnd), phase := 6, ready := true }
  keep := { Keep.reset with state := 1, armed := true }
  towers := List.replicate 324 { Tower.reset with admitted := true, epoch := 1 }
  domeEpoch := 1
  fabric := { Fabric.reset with topo := some ⟨0, 5, 0, 0, 1, 1000, 0, [⟨1, 0, 2, 0x10000000⟩], []⟩ }
  slots := updAt State.reset.slots 0 fun x => { x with
    prog := some lossProgram, eta := some 0x3F800000, trackers := [Tracker.bare], versions := [0] } }

end Sys2Proof.Machine
end

section
/-!
O19. A RUN_STEP that nothing refuses takes back the towers that sleep (R28, R428), and collects the droop windows that they have not reported
(R397), which the statement leaves out.
-/
namespace Sys2Proof.Machine

open Sys2Proof

/-- Tower 0 sleeps with a droop window that it has not reported: the placer leaves it so at the end of a step (R28), as `Tower.emptied` keeps the
windows. -/
def napping : State := { lossLoaded with
  towers := updAt lossLoaded.towers 0 fun x => { x.emptied with state := 1, droopNew := 1 } }

/-- RUN_STEP of slot 0 on mailbox 0: step 5, the ETA of the slot, one micro-batch at 0x100000 (Table 14.10). -/
def runFive : Sub := ⟨0, 56, 0, [0, 0, 1, 0] ++ toLe 4 0xFFFFFFFF ++ toLe 8 5 ++ List.replicate 16 0 ++ toLe 8 0x100000 ++ List.replicate 16 0,
  Env.quiet⟩

theorem napping_takes : napping.Takes runFive where
  io := by decide +kernel
  reach := by decide +kernel
  alone := rfl
  settled := rfl
  now := rfl
  buffer := rfl
  ready := rfl
  live := rfl
  runs := rfl
  mailbox := by decide
  four := by decide +kernel
  free := by decide +kernel
  wf := by decide +kernel
  fits := by decide
  len := by decide
  closed := fun _ => rfl

theorem napping_open : napping.Open := ⟨rfl, by decide +kernel⟩

theorem napping_accepts : ((napping.submitted runFive 0x0202).runOk runFive.payload).isSome = true := by
  decide +kernel

/-- Taking tower 0 back, the accepted RUN_STEP has counted its droop window. -/
theorem napping_counts : (napping.command runFive 0x0202).measure.droopWin.v = 1 := by
  decide +kernel

/-- Refutes O19: `napping` accepts `runFive`, and the tower that it takes back brings a droop window to the counter of the module, a part that
the frame of the statement does not let change. -/
theorem not_runStepIsAccepted : ¬ Obligations.RunStepIsAccepted := by
  intro h
  obtain ⟨-, haccepted⟩ := h napping runFive 0 napping_takes napping_open (by decide +kernel) (by decide) (by decide) rfl rfl rfl
    (by decide +kernel) (by decide +kernel)
  obtain ⟨t, st, hexec, -, -, -, -, -, -, -, -, -, -, -, -, -, -, -, -, -, hframe⟩ :=
    haccepted (Option.isSome_iff_ne_none.mp napping_accepts) (by decide +kernel) (fun l hl => absurd hl (by revert l; decide +kernel))
  have ht : napping.command runFive 0x0202 = t := Host.Outcome.next.inj hexec
  have hcounts : t.measure.droopWin.v = 1 := ht ▸ napping_counts
  rw [hframe .measure (by simp)] at hcounts
  exact absurd hcounts (by decide)

end Sys2Proof.Machine
end

section
/-!
O54. CHECK sends the statistics of the step by telemetry, and with them what telemetry has waited (R157, R290); a write of part of a beat draws a
free value (R282; log 83), which the statement leaves out.
-/
namespace Sys2Proof.Machine

open Sys2Proof

/-- A step of slot 0 in REDUCE, with every exchange over. -/
def readyStep : Step := { Step.ofPayload [] 0 0 with stage := .reduce, rungs := [⟨0, 0, 0, 0, false, false, false, false⟩] }

/-- `readyStep` before its decision, while one byte of telemetry waits. The model's own telemetry waits in whole beats; the statement is about
every state. -/
def strayTelemetry : State := { lossLoaded with
  steps := [readyStep]
  mem := { lossLoaded.mem with telemetry := [⟨0, [1], 4⟩] } }

/-- `readyStep` with its slot and program. -/
def readyRun : Run := ⟨readyStep, lossLoaded.slot 0, lossProgram⟩

theorem strayTelemetry_ready :
    (strayTelemetry.closingReady readyRun && (strayTelemetry.closingResult readyRun).isSome) = true := by
  decide +kernel

/-- The exchanges of the step draw no free value; CHECK draws one for the beat that the byte shares. -/
theorem strayTelemetry_draws : ((strayTelemetry.advanceAll 0).sendClosing 0).freeCtr = 0 ∧ strayTelemetry.check.freeCtr = 1 := by
  decide +kernel

/-- Refutes O54: CHECK decides `readyStep` in `strayTelemetry`, and writes the byte that waits as a whole beat with a free value, a part that the
frame of the statement does not let change. -/
theorem not_checkDecides : ¬ Obligations.CheckDecides := by
  intro h
  obtain ⟨hdecides, -⟩ := h.2 strayTelemetry 0 readyRun rfl rfl rfl
  obtain ⟨t, hexec, hframe, -⟩ := hdecides strayTelemetry_ready
  obtain ⟨hbefore, hafter⟩ := strayTelemetry_draws
  have ht : strayTelemetry.check = t := Host.Outcome.next.inj hexec
  have hfree : t.freeCtr = ((strayTelemetry.advanceAll 0).sendClosing 0).freeCtr := hframe .freeCtr (by simp)
  rw [← ht, hbefore, hafter] at hfree
  cases hfree

end Sys2Proof.Machine
end

section
/-!
O52. Messages between modules: what is dropped (R265, R278), passed on (R257) and taken (R266, R269), what a bad word on the way does
(Tables 11.3 and 11.6), and the doorbells, credits and writes of the fabric (R267, R278).
-/
namespace Sys2Proof.Machine

open Sys2Proof

/-! ### Commands of a powered block -/

section
variable {s : State} (h : s.power.powered = true)
include h

theorem State.whenOn_powered (f : State → State) : s.whenOn f = f s := if_pos h

theorem exec_campanileData_mine {m : Message} (hd : m.dest = s.myRank) (f : XferFault) :
    exec (.campanileData m f) s = .next (s.campanileData m f) :=
  congrArg Host.Outcome.next ((State.whenOn_powered h _).trans (if_pos hd))

theorem exec_campanileData_passed {m : Message} (hd : m.dest ≠ s.myRank) (f : XferFault) :
    exec (.campanileData m f) s = .next (s.relayOn m) :=
  congrArg Host.Outcome.next ((State.whenOn_powered h _).trans (if_neg hd))

theorem exec_closing_mine {m : Message} (hd : m.dest = s.myRank) (hk : m.kind = 3) (c : ClosingRec) :
    exec (.closing m c) s = .next (s.accept m fun s i => s.takeClosing i m.srcRank m.chunk c) :=
  congrArg Host.Outcome.next ((State.whenOn_powered h _).trans ((if_neg (not_not_intro hd)).trans (if_pos hk)))

theorem exec_closing_passed {m : Message} (hd : m.dest ≠ s.myRank) (c : ClosingRec) :
    exec (.closing m c) s = .next (s.relayOn { m with payload := c.bytes }) :=
  congrArg Host.Outcome.next ((State.whenOn_powered h _).trans (if_pos hd))

theorem exec_doorbell (slot : Nat) (m : Message) (errs : List BeatErr) :
    exec (.doorbell slot m errs) s = .next (s.doorbell slot m errs) :=
  congrArg Host.Outcome.next (State.whenOn_powered h _)

theorem exec_credit {m : Message} (hk : m.kind = 2) : exec (.credit m) s = .next (s.accept m fun s _ => s.credit m.srcRank) :=
  congrArg Host.Outcome.next ((State.whenOn_powered h _).trans (if_pos hk))

theorem exec_fabricWriteCompletion (rank : Nat) (ok : Bool) : exec (.fabricWriteCompletion rank ok) s = .next (s.fabricWrite rank ok) :=
  congrArg Host.Outcome.next (State.whenOn_powered h _)

end

/-! ### The step that a message names -/

theorem State.accept_unnamed {s : State} {m : Message} (h : s.stepNamed m = none) (f : State → Nat → State) :
    s.accept m f = s.dropMessage m.srcRank := by
  simp [State.accept, h]

theorem State.accept_named {s : State} {m : Message} {i : Nat} (h : s.stepNamed m = some i) (f : State → Nat → State) :
    s.accept m f = f s i := by
  simp [State.accept, h]

/-- A message of another step than the current one names none, but for the sums of an update (R246, R278). -/
theorem State.stepNamed_otherStep {s : State} {m : Message} {i : Nat} {p : Step} (hi : s.currentIdx = some i) (hp : s.steps[i]? = some p)
    (hc : m.coll ≠ 4) (hlo : p.number.toNat % 2 ^ 32 ≠ m.stepLo) : s.stepNamed m = none := by
  have hnames : ((s.steps[i]?).any fun p => p.number.toNat % 2 ^ 32 == m.stepLo) = false := by
    rw [hp]
    exact beq_false_of_ne hlo
  unfold State.stepNamed
  dsimp only
  split
  · rfl
  · split
    · rw [hi, Option.filter_some, if_neg (by rw [hnames]; decide)]
    · rfl

/-- A dropped message changes the counters of the fabric and its links alone (R265). -/
theorem State.dropMessage_frame (s : State) (rank : Nat) : Frame [.fabric] s (s.dropMessage rank) := by
  unfold State.dropMessage
  split <;> exact s.set_fabric_frame _

theorem State.dropMessage_topo (s : State) (rank : Nat) : (s.dropMessage rank).fabric.topo = s.fabric.topo := by
  unfold State.dropMessage
  split <;> rfl

theorem State.dropMessage_unlinked {s : State} {rank : Nat} (h : (s.fabric.topo.bind fun t => t.linkTo rank) = none) :
    (s.dropMessage rank).fabric = { s.fabric with fabricDrops := s.fabric.fabricDrops + 1 } := by
  simp [State.dropMessage, h]

/-- Over a link in service a message for a board-mate leaves as it came (R257). -/
theorem State.relayOn_linked {s : State} {m : Message} {l : Nat} (hl : (s.fabric.topo.bind fun t => t.linkTo m.dest) = some l)
    (hup : (s.link l).state ≠ 0) :
    s.relayOn m = { s with out := { s.out with sent := s.out.sent ++ [(.link m.dest l, m)] } } := by
  unfold State.relayOn
  rw [hl]
  exact if_pos hup

/-! ### DATA -/

theorem Coll.use_take (c : Coll) (m : Message) : (c.take m).use = c.use := by
  unfold Coll.take
  split
  · rfl
  · split <;> rfl

theorem Coll.mem_failed_take (c : Coll) {m : Message} (h : bitOf m.flags 0 = true) : m.srcRank ∈ (c.take m).failed := by
  simp [Coll.take, h]

theorem Coll.part_take (c : Coll) {m : Message} (h : bitOf m.flags 0 = false) : ((c.take m).part m.srcRank m.chunk).isSome = true := by
  unfold Coll.take
  rw [if_neg (by simp [h])]
  split
  · assumption
  · simp [Coll.part]

/-- A collective that changes is listed after it, whether the step listed it before or not. -/
theorem State.withColl_lists {s : State} {i : Nat} {p : Step} (hp : s.steps[i]? = some p) (r : Run) (u : CollUse) (kind group : Nat)
    (f : Coll → Coll) :
    ∃ q, (s.withColl i r u kind group f).steps[i]? = some q ∧ ∃ c : Coll, c.use = u ∧ f c ∈ q.colls := by
  refine ⟨_, State.steps_modStep_getElem?_same _ hp, ?_⟩
  split
  next hlisted =>
    obtain ⟨c, hc, hu⟩ := List.any_eq_true.mp hlisted
    exact ⟨c, eq_of_beq hu, List.mem_map.mpr ⟨c, hc, if_pos (eq_of_beq hu)⟩⟩
  next => exact ⟨⟨s.seqOf r u, kind, group, u, [], [], [], [], false, false⟩, rfl, by simp⟩

/-- DATA of a member enters its collective, and the step before its decision goes on with it (R265, R266). -/
theorem State.landData_member {s : State} {i : Nat} {r : Run} {m : Message} {u : CollUse} {kind group : Nat} {rs : List Nat} {t : Topology}
    (hr : s.run i = some r) (hu : s.useAt r m.seq = some (u, kind, group)) (hm : s.members group = some (rs, t)) (hmem : m.srcRank ∈ rs)
    (hd : r.st.decided = none) : s.landData i m = (s.withColl i r u kind group fun c => c.take m).advanceAll i := by
  simp [State.landData, hr, hu, hm, hmem, hd]

/-! ### Bad words on the way -/

/-- The step before its decision that still runs fails with the status (R224). -/
theorem State.failEarly_steps {s : State} {i : Nat} {p : Step} (status : Nat) (hi : s.earlyIdx = some i) (hp : s.steps[i]? = some p)
    (he : p.ended = .running) : (s.failEarly status).steps[i]? = some { p with ended := .failed status } := by
  rw [State.failEarly, hi]
  exact State.failStep_steps status hp (State.earlyIdx_undecided hi hp) he

theorem Frame.earlyIdx_eq {l : List Component} {s t : State} (h : Frame l s t) (hl : Component.steps ∉ l := by simp) :
    t.earlyIdx = s.earlyIdx := by
  simp only [State.earlyIdx, h.steps_eq hl]

/-- The step before its decision fails the same after an operation that leaves the steps alone. -/
theorem Frame.failEarly_steps {l : List Component} {s t : State} (h : Frame l s t) {i : Nat} {p : Step} (status : Nat)
    (hi : s.earlyIdx = some i) (hp : s.steps[i]? = some p) (he : p.ended = .running) (hl : Component.steps ∉ l := by simp) :
    (t.failEarly status).steps[i]? = some { p with ended := .failed status } :=
  State.failEarly_steps status (by rw [h.earlyIdx_eq hl, hi]) (by rw [h.steps_eq hl, hp]) he

theorem Frame.mem_eq {l : List Component} {s t : State} (h : Frame l s t) (hl : Component.mem ∉ l := by simp) : t.mem = s.mem := h .mem hl

/-- The source of an event in the step before its decision, or of the module without one (Table 11.10). -/
def State.earlySrc (s : State) : EvSrc := match s.earlyIdx.bind fun i => s.steps[i]? with | some p => p.src | none => .module

/-- The layer and the micro-batch that a message is for, where it names a step. -/
def State.namedWork (s : State) (m : Message) : List (Nat × Nat) := match s.stepNamed m with | some i => s.collWork i m.seq | none => []

/-- An uncorrectable word of a buffer is counted and recorded. -/
theorem State.sramEvent_frame (s : State) (src : EvSrc) (unit bank word req : Nat) (work : List (Nat × Nat)) :
    Frame [.mem, .evt] s (s.sramEvent src unit bank word req work) := by
  have hcount : Frame [.mem] s { s with mem := { s.mem with sramUe := s.mem.sramUe + 1 } } := by
    intro c hc
    cases c with
    | mem => simp at hc
    | _ => rfl
  exact Frame.trans hcount (State.event_frame _ _ _ _) (by simp) (by simp)

theorem State.sramEvent_mem (s : State) (src : EvSrc) (unit bank word req : Nat) (work : List (Nat × Nat)) :
    (s.sramEvent src unit bank word req work).mem = { s.mem with sramUe := s.mem.sramUe + 1 } :=
  (State.event_frame _ _ _ _).mem_eq

section
variable {s : State} {i : Nat} {p : Step} (hi : s.earlyIdx = some i) (hp : s.steps[i]? = some p) (he : p.ended = .running)
include hi hp he

/-- Device memory that cannot be read for the transfer fails the step, and no stored byte changes (Table 11.3). -/
theorem State.campanileData_deviceFails (m : Message) {errs : List BeatErr} (hbad : (s.readRuns rqCampanile p.number errs []).1 = false) :
    (s.campanileData m (.device errs)).steps[i]? = some { p with ended := .failed stBUS_ERROR }
      ∧ Frame [.mem, .evt, .ints, .out, .steps, .towers] s (s.campanileData m (.device errs))
      ∧ (s.campanileData m (.device errs)).mem.cells = s.mem.cells := by
  have heq : s.campanileData m (.device errs) = (s.readRuns rqCampanile p.number errs []).2.failEarly stBUS_ERROR := by
    simp [State.campanileData, hi, hp, hbad]
  have hread := s.readRuns_reads rqCampanile p.number errs []
  have hfail := State.failEarly_frame (s.readRuns rqCampanile p.number errs []).2 stBUS_ERROR
  rw [heq]
  exact ⟨hread.frame.failEarly_steps stBUS_ERROR hi hp he, Frame.trans hread.frame hfail (by simp) (by simp),
    (congrArg Mem.cells hfail.mem_eq).trans hread.cells⟩

/-- An uncorrectable word of a staging buffer is counted and recorded, and fails the step (Table 11.6). -/
theorem State.campanileData_stagingFails (m : Message) (bank word : Nat) :
    (s.campanileData m (.staging bank word)).steps[i]? = some { p with ended := .failed stBUS_ERROR }
      ∧ Frame [.mem, .evt, .steps, .towers] s (s.campanileData m (.staging bank word))
      ∧ (s.campanileData m (.staging bank word)).mem = { s.mem with sramUe := s.mem.sramUe + 1 } := by
  have heq : s.campanileData m (.staging bank word) =
      (s.sramEvent s.earlySrc 0xFFFF bank word rqCampanile (s.namedWork m)).failEarly stBUS_ERROR := rfl
  have hevent := s.sramEvent_frame s.earlySrc 0xFFFF bank word rqCampanile (s.namedWork m)
  have hfail := State.failEarly_frame (s.sramEvent s.earlySrc 0xFFFF bank word rqCampanile (s.namedWork m)) stBUS_ERROR
  rw [heq]
  exact ⟨hevent.failEarly_steps stBUS_ERROR hi hp he, Frame.trans hevent hfail (by simp) (by simp),
    hfail.mem_eq.trans (s.sramEvent_mem _ _ _ _ _ _)⟩

end

/-! ### Doorbells -/

/-- An extent whose pages are none of them retired touches no retired page. -/
theorem Mem.touchesRetired_of_pages {m : Mem} {a len : Nat}
    (h : ∀ p, a / 65536 ≤ p → p ≤ (a + len - 1) / 65536 → m.pageRetired p = false) : m.touchesRetired a len = false := by
  have hpage (p : Nat) (h1 : a / 65536 ≤ p) (h2 : p ≤ (a + len - 1) / 65536) : p ∉ m.pages ∧ m.bankHitsPage p = false := by
    simpa [Mem.pageRetired] using h p h1 h2
  unfold Mem.touchesRetired
  split
  · rfl
  · dsimp only
    rw [Bool.or_eq_false_iff]
    constructor
    · refine List.any_eq_false.mpr fun p hp hin => ?_
      simp only [Bool.and_eq_true, decide_eq_true_eq] at hin
      exact (hpage p hin.1 hin.2).1 hp
    · have hbanks : ((List.range ((a + len - 1) / 65536 + 1 - a / 65536)).any fun k => m.bankHitsPage (a / 65536 + k)) = false := by
        refine List.any_eq_false.mpr fun k hk => ?_
        rw [List.mem_range] at hk
        simp [(hpage (a / 65536 + k) (by omega) (by omega)).2]
      simp [hbanks]

/-- A part of an extent that can be read can be read. -/
theorem State.readDev_part {s : State} {a len b n : Nat} (req : Nat) (step : Quad) (hret : s.mem.touchesRetired a len = false)
    (hreach : s.Reached a len) (hlo : a ≤ b) (hhi : b + n ≤ a + len) (hb : b % 32 = 0) :
    s.readDev req step [] b n = (some (memRead s.mem.cells b n), s) := by
  rcases Nat.eq_zero_or_pos n with rfl | hn
  · have hbeats : ceilDiv (b - b / 32 * 32) 32 = 0 := by unfold ceilDiv; omega
    simp [State.readDev, hbeats, State.readBeats, memRead]
  · refine s.readDev_quiet req step b n (Mem.touchesRetired_of_pages fun p h1 h2 => ?_) (fun x h1 h2 => hreach x ?_ ?_) hn
    · exact Mem.pageRetired_of_touches hret (by omega) (by omega) (by omega)
    · omega
    · omega

/-- The message that stands in a landing slot, under the job and the rank that its doorbell carries (R267). -/
def State.landed (s : State) (slot : Nat) (m : Message) : Message :=
  let h := memRead s.mem.cells (landBase + 0x400000 * slot) 32
  messageOf m.jobId m.dest (h ++ memRead s.mem.cells (landBase + 0x400000 * slot + 32) (min (fieldLe h 0x14 4) (0x400000 - 32)))

/-- A doorbell reads the header and the payload of the landed message, which acts by its kind, and the CREDIT leaves (R267). -/
theorem State.doorbell_lands {s : State} {m : Message} {i slot rank : Nat} (hi : s.stepNamed m = some i) (hk : m.kind = 1)
    (hslot : s.slotRank slot = some rank) (hret : s.mem.touchesRetired (landBase + 0x400000 * slot) 0x400000 = false)
    (hreach : s.Reached (landBase + 0x400000 * slot) 0x400000) :
    s.doorbell slot m [] = (s.received (s.landed slot m)).sendCredit i rank m := by
  have hbase : landBase % 32 = 0 := by decide
  have hpart (num : Quad) {b n : Nat} (hlo : landBase + 0x400000 * slot ≤ b) (hhi : b + n ≤ landBase + 0x400000 * slot + 0x400000)
      (hb : b % 32 = 0) : s.readDev rqCampanile num [] b n = (some (memRead s.mem.cells b n), s) :=
    State.readDev_part _ _ hret hreach hlo hhi hb
  unfold State.doorbell
  rw [if_neg (not_not_intro hk), hslot]
  dsimp only
  rw [State.accept_named hi, hpart _ (by omega) (by omega) (by omega)]
  dsimp only
  rw [hpart _ (by omega) (by omega) (by omega)]
  rfl

theorem State.srcRank_message' (s : State) (st : Step) (kind coll group seq chunk : Nat) (fail : Bool) (payload : List Byte) :
    (s.message' st kind coll group seq chunk fail payload).srcRank = s.myRank := by
  unfold State.message' State.myRank
  cases s.fabric.topo <;> rfl

/-- CHECK covers the header without the rank that the route names (R265). -/
theorem msgSound_message' (s : State) (st : Step) (kind coll group seq chunk : Nat) (fail : Bool) (payload : List Byte) (dest : Nat) :
    msgSound { s.message' st kind coll group seq chunk fail payload with dest := dest } = true := beq_self_eq_true _

theorem State.sendCredit_frame (s : State) (i rank : Nat) (m : Message) : Frame [.out] s (s.sendCredit i rank m) := by
  unfold State.sendCredit
  split
  · exact s.put_frame _ _
  · exact Frame.refl _ _

/-- The CREDIT leaves by the way to its rank: a header that names the step and the landing slot. -/
theorem State.sendCredit_sends {s : State} {i rank : Nat} {m : Message} {p : Step} {way : Route} (hp : s.steps[i]? = some p)
    (hway : s.routeTo rank = some way) : ∃ x, (s.sendCredit i rank m).out = { s.out with sent := s.out.sent ++ [(way, x)] }
      ∧ x.kind = 2 ∧ x.srcRank = s.myRank ∧ x.stepLo = p.number.toNat % 2 ^ 32 ∧ x.chunk = m.chunk ∧ x.payload = [] ∧ msgSound x = true := by
  have heq : s.sendCredit i rank m = s.put way (s.message' p 2 m.coll m.group m.seq m.chunk false []) := by
    simp [State.sendCredit, hp, hway]
  rw [heq]
  exact ⟨_, rfl, rfl, s.srcRank_message' p 2 m.coll m.group m.seq m.chunk false [], rfl, rfl, rfl,
    msgSound_message' s p 2 m.coll m.group m.seq m.chunk false [] _⟩

/-! ### Credits and the messages that wait -/

theorem State.startNext_none {s : State} {rank : Nat} (h : (s.fabric.outbox.find? fun q => q.1 == rank) = none) : s.startNext rank = s := by
  simp [State.startNext, h]

theorem State.startNext_begins {s : State} {rank : Nat} {q : Nat × Message} {way : Route}
    (hq : (s.fabric.outbox.find? fun q => q.1 == rank) = some q) (hway : s.routeTo rank = some way) :
    s.startNext rank = ({ s with fabric := { s.fabric with
      outbox := s.fabric.outbox.erase q, writing := s.fabric.writing ++ [q] } }).put way q.2 := by
  simp [State.startNext, hq, hway]

theorem State.startNext_frame (s : State) (rank : Nat) : Frame [.fabric, .out] s (s.startNext rank) := by
  unfold State.startNext
  dsimp only
  split
  · exact Frame.trans (s.set_fabric_frame _) (State.put_frame _ _ _) (by simp) (by simp)
  · exact Frame.refl _ _

/-- A message that begins changes nothing of the credits that are awaited. -/
theorem State.startNext_noCredit (s : State) (rank : Nat) : (s.startNext rank).fabric.noCredit = s.fabric.noCredit := by
  unfold State.startNext
  dsimp only
  split <;> rfl

/-- The state in which the credit of a rank has come. -/
def State.credited (s : State) (rank : Nat) : State :=
  { s with fabric := { s.fabric with noCredit := s.fabric.noCredit.filter fun r => r != rank } }

theorem State.credited_frame (s : State) (rank : Nat) : Frame [.fabric] s (s.credited rank) := s.set_fabric_frame _

theorem State.not_mem_noCredit_credited (s : State) (rank : Nat) : rank ∉ (s.credited rank).fabric.noCredit := by
  simp [State.credited]

theorem State.credit_unawaited {s : State} {rank : Nat} (h : rank ∉ s.fabric.noCredit) : s.credit rank = s :=
  if_neg (mt List.contains_iff_mem.mp h)

section
variable {s : State} {rank : Nat} (h : rank ∈ s.fabric.noCredit)
include h

theorem State.credit_awaited : s.credit rank = (s.credited rank).startNext rank := if_pos (List.contains_iff_mem.mpr h)

/-- The rank may be written to again (R267). -/
theorem State.credit_frees : Frame [.fabric, .out] s (s.credit rank) ∧ rank ∉ (s.credit rank).fabric.noCredit := by
  rw [State.credit_awaited h, State.startNext_noCredit]
  exact ⟨Frame.trans (s.credited_frame rank) (State.startNext_frame _ rank) (by simp) (by simp), s.not_mem_noCredit_credited rank⟩

theorem State.credit_nothingWaits (hnone : (s.fabric.outbox.find? fun q => q.1 == rank) = none) : s.credit rank = s.credited rank := by
  rw [State.credit_awaited h]
  exact State.startNext_none hnone

/-- The first message that has waited for the rank begins (R267). -/
theorem State.credit_begins {q : Nat × Message} {way : Route} (hq : (s.fabric.outbox.find? fun q => q.1 == rank) = some q)
    (hway : s.routeTo rank = some way) : q ∈ (s.credit rank).fabric.writing ∧ (s.credit rank).fabric.outbox = s.fabric.outbox.erase q
      ∧ ∃ x, (s.credit rank).out.sent = s.out.sent ++ [(way, x)] ∧ x = { q.2 with dest := x.dest } := by
  rw [State.credit_awaited h, State.startNext_begins (s := s.credited rank) hq hway]
  exact ⟨List.mem_append_right _ (List.mem_singleton.mpr rfl), rfl, _, rfl, rfl⟩

end

/-! ### Writes over the fabric -/

theorem State.fabricWrite_none {s : State} {rank : Nat} (h : (s.fabric.writing.find? fun q => q.1 == rank) = none) (ok : Bool) :
    s.fabricWrite rank ok = s := by
  simp [State.fabricWrite, h]

/-- What stands once a rank has no write under way. -/
def Fabric.withoutWrite (f : Fabric) (rank : Nat) : Fabric := { f with
  resent := f.resent.filter fun r => r != rank
  writing := f.writing.filter fun q => q.1 != rank }

theorem Fabric.mem_writing_withoutWrite {f : Fabric} {rank : Nat} {q : Nat × Message} (h : q ∈ (f.withoutWrite rank).writing) : q.1 ≠ rank :=
  bne_iff_ne.mp (List.mem_filter.mp h).2

theorem Fabric.not_mem_resent_withoutWrite (f : Fabric) (rank : Nat) : rank ∉ (f.withoutWrite rank).resent := by
  simp [Fabric.withoutWrite]

section
variable {s : State} {rank : Nat} {q : Nat × Message} {tp : Topology} {way : Route}
  (hq : (s.fabric.writing.find? fun q => q.1 == rank) = some q) (htp : s.fabric.topo = some tp) (hway : s.routeTo rank = some way)
include hq htp hway

/-- A write whose data stand leaves the list of writes, its doorbell leaves, and its credit is awaited (R267). -/
theorem State.fabricWrite_completes : s.fabricWrite rank true = ({ s with fabric := { s.fabric.withoutWrite rank with
    noCredit := (s.fabric.noCredit ++ [rank]).dedup } }).put way (tp.doorbell rank q.2) := by
  simp [State.fabricWrite, Fabric.withoutWrite, hq, htp, hway]

theorem State.fabricWrite_awaitsCredit : Frame [.fabric, .out] s (s.fabricWrite rank true) ∧ rank ∈ (s.fabricWrite rank true).fabric.noCredit
    ∧ rank ∉ (s.fabricWrite rank true).fabric.resent ∧ ∀ z ∈ (s.fabricWrite rank true).fabric.writing, z.1 ≠ rank := by
  rw [State.fabricWrite_completes hq htp hway]
  exact ⟨Frame.trans (s.set_fabric_frame _) (State.put_frame _ _ _) (by simp) (by simp),
    List.mem_dedup.mpr (List.mem_append_right _ (List.mem_singleton.mpr rfl)), s.fabric.not_mem_resent_withoutWrite rank,
    fun _ hz => Fabric.mem_writing_withoutWrite (f := s.fabric) hz⟩

theorem State.fabricWrite_sendsDoorbell : ∃ x, (s.fabricWrite rank true).out.sent = s.out.sent ++ [(way, x)] ∧ x.kind = 1
    ∧ x.srcRank = q.2.srcRank ∧ x.chunk = (tp.others rank).idxOf tp.myRank := by
  rw [State.fabricWrite_completes hq htp hway]
  exact ⟨_, rfl, rfl, rfl, rfl⟩

/-- The first error of a write resends it (R278). -/
theorem State.fabricWrite_resends (hr : rank ∉ s.fabric.resent) : s.fabricWrite rank false = ({ s with
    fabric := { s.fabric with resent := s.fabric.resent ++ [rank] }
    out := { s.out with resends := s.out.resends ++ [rank] } }).put way q.2 := by
  simp [State.fabricWrite, hq, htp, hway, hr]

/-- The second error of a write fails the step, and the next message begins (R267, R278). -/
theorem State.fabricWrite_fails (hr : rank ∈ s.fabric.resent) {i : Nat} {p : Step} (hi : s.earlyIdx = some i) (hp : s.steps[i]? = some p)
    (he : p.ended = .running) : (s.fabricWrite rank false).steps[i]? = some { p with ended := .failed stBUS_ERROR }
      ∧ Frame [.fabric, .steps, .towers, .out] s (s.fabricWrite rank false) := by
  have heq : s.fabricWrite rank false = (({ s with fabric := s.fabric.withoutWrite rank }).failEarly stBUS_ERROR).startNext rank := by
    simp [State.fabricWrite, Fabric.withoutWrite, hq, htp, hway, hr]
  have hset := s.set_fabric_frame (s.fabric.withoutWrite rank)
  have hfail := State.failEarly_frame { s with fabric := s.fabric.withoutWrite rank } stBUS_ERROR
  have hnext := State.startNext_frame (({ s with fabric := s.fabric.withoutWrite rank } : State).failEarly stBUS_ERROR) rank
  rw [heq, hnext.steps_eq]
  exact ⟨hset.failEarly_steps stBUS_ERROR hi hp he,
    Frame.trans (Frame.trans (k := [.fabric, .steps, .towers]) hset hfail (by simp) (by simp)) hnext (by simp) (by simp)⟩

end

/-! ### What the commands do with a message -/

section
variable {s : State} (h : s.power.powered = true)
include h

/-- A message that names no step is dropped, of every kind that is judged (R265). -/
theorem exec_unnamed {m : Message} (hn : s.stepNamed m = none) :
    (m.kind = 0 → m.dest = s.myRank → exec (.campanileData m .none) s = .next (s.dropMessage m.srcRank))
    ∧ (m.kind = 2 → exec (.credit m) s = .next (s.dropMessage m.srcRank))
    ∧ ∀ c, m.kind = 3 → m.dest = s.myRank → exec (.closing m c) s = .next (s.dropMessage m.srcRank) := by
  refine ⟨fun hk hd => ?_, fun hk => ?_, fun c hk hd => ?_⟩
  · rw [exec_campanileData_mine h hd]
    exact congrArg Host.Outcome.next ((if_pos hk).trans (State.accept_unnamed hn _))
  · rw [exec_credit h hk, State.accept_unnamed hn]
  · rw [exec_closing_mine h hd hk, State.accept_unnamed hn]

/-- DATA of a member, taken into its collective. -/
theorem exec_campanileData_enters {m : Message} {i : Nat} {r : Run} {u : CollUse} {kind group : Nat} {rs : List Nat} {t : Topology}
    (hi : s.stepNamed m = some i) (hk : m.kind = 0) (hd : m.dest = s.myRank) (hr : s.run i = some r)
    (hu : s.useAt r m.seq = some (u, kind, group)) (hm : s.members group = some (rs, t)) (hmem : m.srcRank ∈ rs) (hdec : r.st.decided = none) :
    exec (.campanileData m .none) s = .next ((s.withColl i r u kind group fun c => c.take m).advanceAll i) := by
  rw [exec_campanileData_mine h hd, ← State.landData_member hr hu hm hmem hdec]
  exact congrArg Host.Outcome.next ((if_pos hk).trans (State.accept_named hi _))

/-- A doorbell leaves what the landed message has done, and a CREDIT for its sender (R265, R267). -/
theorem exec_doorbell_lands {m : Message} {i slot rank : Nat} (hi : s.stepNamed m = some i) (hk : m.kind = 1)
    (hslot : s.slotRank slot = some rank) (hret : s.mem.touchesRetired (landBase + 0x400000 * slot) 0x400000 = false)
    (hreach : s.Reached (landBase + 0x400000 * slot) 0x400000) :
    exec (.doorbell slot m []) s = .next ((s.received (s.landed slot m)).sendCredit i rank m) := by
  rw [exec_doorbell h, State.doorbell_lands hi hk hslot hret hreach]

end

/-- Settles O52: each message by the one branch that its hypotheses leave. -/
theorem messagesBetweenModules : Obligations.MessagesBetweenModules := by
  refine ⟨fun s m hpow => ⟨fun hn => ?_, fun i p hi hp hc hlo => State.stepNamed_otherStep hi hp hc hlo, fun l f c hd hl hup => ⟨?_, ?_⟩⟩,
    fun s m i hpow hi => ⟨?_, ?_, ?_⟩, fun s m i p hpow hd hi hp he => ⟨?_, ?_⟩, fun s rank hpow => ⟨?_, ?_⟩⟩
  · obtain ⟨hdata, hcredit, hclosing⟩ := exec_unnamed hpow hn
    exact ⟨hdata, hcredit, hclosing, s.dropMessage_frame _, s.dropMessage_topo _, State.dropMessage_unlinked⟩
  · exact ⟨_, exec_campanileData_passed hpow hd f, State.relayOn_linked hl hup⟩
  · exact ⟨_, exec_closing_passed hpow hd c, State.relayOn_linked (m := { m with payload := c.bytes }) hl hup⟩
  · intro r u kind group rs t hk hd hr hu hm hmem hdec
    obtain ⟨p, hp, c, hc, hcoll⟩ := State.withColl_lists (State.run_eq_some.mp hr).1 r u kind group fun c => c.take m
    exact ⟨_, p, exec_campanileData_enters hpow hi hk hd hr hu hm hmem hdec, s.withColl_frame i r u kind group _, hp,
      c.take m, hcoll, (c.use_take m).trans hc, c.mem_failed_take, c.part_take⟩
  · intro slot rank hk hslot hret hreach
    exact ⟨_, exec_doorbell_lands hpow hi hk hslot hret hreach, State.sendCredit_frame _ i rank m,
      fun p way hp hway => State.sendCredit_sends hp hway⟩
  · intro hk
    have hexec : exec (.credit m) s = .next (s.credit m.srcRank) := by rw [exec_credit hpow hk, State.accept_named hi]
    refine ⟨fun hno => by rw [hexec, State.credit_unawaited hno], fun hin => ?_⟩
    obtain ⟨hframe, hfree⟩ := State.credit_frees hin
    refine ⟨_, hexec, hframe, hfree, fun hnone => ?_, fun q way hq hway => State.credit_begins hin hq hway⟩
    rw [State.credit_nothingWaits hin hnone]
    exact ⟨rfl, rfl⟩
  · exact fun errs hbad => ⟨_, exec_campanileData_mine hpow hd _, State.campanileData_deviceFails hi hp he m hbad⟩
  · exact fun bank word => ⟨_, exec_campanileData_mine hpow hd _, State.campanileData_stagingFails hi hp he m bank word⟩
  · intro hnone ok
    rw [exec_fabricWriteCompletion hpow, State.fabricWrite_none hnone]
  · intro tp q way htp hq hway
    refine ⟨?_, fun hfirst => ?_, fun hagain i p hi hp he =>
      ⟨_, exec_fabricWriteCompletion hpow rank false, State.fabricWrite_fails hq htp hway hagain hi hp he⟩⟩
    · obtain ⟨hframe, hwaits, hfresh, hover⟩ := State.fabricWrite_awaitsCredit hq htp hway
      obtain ⟨x, hsent, hx⟩ := State.fabricWrite_sendsDoorbell hq htp hway
      exact ⟨_, x, exec_fabricWriteCompletion hpow rank true, hframe, hwaits, hfresh, hover, hsent, hx⟩
    · exact ⟨_, _, exec_fabricWriteCompletion hpow rank false, State.fabricWrite_resends hq htp hway hfirst, rfl⟩

end Sys2Proof.Machine
end

section
/-!
O12. The topology that SET_TOPOLOGY reads (R258, Tables 10.2 to 10.4).
-/
namespace Sys2Proof.Machine

open Sys2Proof

/-- Settles O12: header, module entries and group entries each read back, one after another. -/
theorem topologyImagesReadBack : Obligations.TopologyImagesReadBack := fun _ _ _ hfits him => State.readTopology_image hfits him

end Sys2Proof.Machine
end

section
/-!
O21. A destructive MARCH_TEST whose bank empties a slot gives regions back to ALL mode before it writes its failure records (R193, R303, R304),
and in ALL mode their page may be a retired one (R293, R294).
-/
namespace Sys2Proof.Machine

open Sys2Proof

/-! ### Records beside an allocation in affine regions -/

/-- A Ready block between steps in which slot 0 has put 256 bytes into a group of affine regions (R194), while bank 0 of channel 0 of stack 5 is
retired. In affine mode the first page of the group lies on stacks 0 to 2, in ALL mode on all twelve (R192, R193, Table 7.4). -/
def movedLow : State := { lossLoaded with
  slots := updAt lossLoaded.slots 0 fun x => { x with allocs := [⟨4, 0x1800, 256⟩] }
  mem := { lossLoaded.mem with affine := [(0, 0)], banks := [⟨5, 0, 0⟩] } }

/-- A bit of die 0 that reads as one where the march has written zeros. -/
def stuckBit : MarchBit := ⟨⟨0, false, 0, 0, 0, 0⟩, [⟨0, 1, 0, true⟩]⟩

/-- MARCH_TEST on mailbox 0: March C−, destructive, of bank 0 of channel 1 of stack 0, with one record at address 0 (Table 14.13). -/
def marchLow : Sub := ⟨0, 24, 0, [2, 0, 0, 0, 0, 0, 1, 0] ++ toLe 8 0 ++ toLe 4 1 ++ toLe 4 0, { Env.quiet with fails := [stuckBit] }⟩

theorem movedLow_takes : movedLow.Takes marchLow where
  io := by decide +kernel
  reach := by decide +kernel
  alone := rfl
  settled := rfl
  now := rfl
  buffer := rfl
  ready := rfl
  live := rfl
  runs := rfl
  mailbox := by decide
  four := by decide +kernel
  free := by decide +kernel
  wf := by decide +kernel
  fits := by decide
  len := by decide
  closed := fun _ => rfl

theorem movedLow_open : movedLow.Open := ⟨rfl, by decide +kernel⟩

/-- What the payload asks for. -/
def lowMarch : March := ⟨2, 0, 0, 0, 1, 0, 0, 1⟩

theorem march_marchLow : March.of marchLow.payload = lowMarch := by
  decide +kernel

/-- The payload passes the rules of Table 14.13. -/
theorem movedLow_allows : (movedLow.submitted marchLow 0x0304).marchOk lowMarch
    (zeroAt marchLow.payload 3 1 && zeroAt marchLow.payload 20 4) = true := by
  decide +kernel

/-- The failing bits of the march, with their repairs. -/
def lowRecords : List (MarchFail × Nat) := repairs movedLow.mem.repairs (marchRun lowMarch.alg (marchCells lowMarch marchLow.env.fails))

theorem length_lowRecords : lowRecords.length = 1 := by
  decide +kernel

/-- The record of the one failing bit names stack 0 by 0x8000 (Table 11.8). -/
theorem lowRecords_unit : ((lowRecords.take lowMarch.max).flatMap (failRecord lowMarch))[1]? = some 0x80 := by
  decide +kernel

/-- The page of the record was retired as the record was written. -/
theorem movedLow_loses : memGet (movedLow.command marchLow 0x0304).mem.cells 1 = 0 := by
  decide +kernel

/-! ### The obligation -/

/-- Refutes O21: in `movedLow` the march of `marchLow` empties slot 0, whose group of regions goes back to ALL mode, and the record, written after
that, falls on the retired bank and is discarded. -/
theorem not_marchesAndReadmission : ¬ Obligations.MarchesAndReadmission := by
  intro h
  have hmarch := h.1 movedLow marchLow movedLow_takes movedLow_open rfl rfl
  rw [march_marchLow] at hmarch
  obtain ⟨t, d, hexec, -, -, -, hrecords, -⟩ := hmarch.1 movedLow_allows rfl (by decide +kernel)
  have ht : movedLow.command marchLow 0x0304 = t := Host.Outcome.next.inj hexec
  have hread : memRead t.mem.cells 0 (16 * min lowMarch.max lowRecords.length) = (lowRecords.take lowMarch.max).flatMap (failRecord lowMarch) :=
    hrecords rfl
  rw [length_lowRecords] at hread
  have hbyte : (memRead t.mem.cells 0 16)[1]? = some (memGet t.mem.cells 1) := rfl
  rw [← ht, movedLow_loses, ht] at hbyte
  exact absurd ((congrArg (·[1]?) hread).symm.trans hbyte) (by rw [lowRecords_unit]; decide)

end Sys2Proof.Machine
end

section
/-!
SUPPORT. Beacons that leave (R275, R325), and the check of the cadence while no step stands at its barrier (R276).
-/
namespace Sys2Proof.Machine

open Sys2Proof

section
variable {s : State}

/-- A beacon leaves while a link is in service (R275). -/
theorem State.sendBeacon_sends (h : ∃ l ∈ s.fabric.links, l.state ≠ 0) :
    s.sendBeacon = { s with out := { s.out with beacons := s.out.beacons ++ [s.beacon] } } := by
  obtain ⟨l, hl, hs⟩ := h
  exact if_pos (List.any_eq_true.mpr ⟨l, hl, by simpa using hs⟩)

/-- With every link down no beacon leaves. -/
theorem State.sendBeacon_none (h : ∀ l ∈ s.fabric.links, l.state = 0) : s.sendBeacon = s := by
  refine if_neg fun hany => ?_
  obtain ⟨l, hl, hs⟩ := List.any_eq_true.mp hany
  simp [h l hl] at hs

theorem State.cadenceCheck_none (h : s.barrierIdx = none) : s.cadenceCheck = s := by
  simp [State.cadenceCheck, h]

end

theorem State.barrierIdx_congr {s t : State} (h : t.steps = s.steps) : t.barrierIdx = s.barrierIdx := by
  rw [State.barrierIdx, h, State.barrierIdx]

theorem State.set_belfry_frame (s : State) (b : Belfry) : Frame [.belfry] s { s with belfry := b } := by
  intro p hp
  cases p with
  | belfry => simp at hp
  | _ => rfl

end Sys2Proof.Machine
end

section
/-!
O42. CADENCE_HOLD and HOLD_CLEAR (R277, R325, R328, R329, Table 12.5).
-/
namespace Sys2Proof.Machine

open Sys2Proof

/-! ### A cause is raised -/

/-- Belfry with a cause of HOLD besides those that still hold (R328). -/
def Belfry.withCause (b : Belfry) (cause mx : Nat) : Belfry :=
  { b with holds := (b.holds.filter fun h => h.cause != cause && !h.cleared) ++ [⟨cause, mx, false⟩] }

/-- An upward ramp above HOLD_MAX turns to it (R329). -/
def Belfry.boundRamp (b : Belfry) : Belfry :=
  if decide (b.rampTarget > b.cadence) && decide (b.rampTarget > b.holdMax) then { b with rampTarget := b.holdMax } else b

theorem Belfry.holdMax_single {b : Belfry} {x : HoldCause} (h : b.holds = [x]) : b.holdMax = min 36 x.max := by
  simp [Belfry.holdMax, h]

theorem Belfry.boundRamp_leaves (b : Belfry) : b.boundRamp.holds = b.holds ∧ b.boundRamp.cadence = b.cadence := by
  unfold Belfry.boundRamp
  split <;> exact ⟨rfl, rfl⟩

theorem Belfry.rampTarget_boundRamp {b : Belfry} (h : b.cadence < b.rampTarget) : b.boundRamp.rampTarget ≤ b.holdMax := by
  unfold Belfry.boundRamp
  split
  next => exact Nat.le_refl _
  next hle => simpa [h] using hle

section
variable {s : State} (hbar : s.barrierIdx = none)
include hbar

/-- The first cause of HOLD bounds an upward ramp, is recorded, and raises vector 6 (R277, R328, R329). -/
theorem State.raiseHold_first (hnone : s.belfry.holds = []) (cause mx : Nat) :
    (s.raiseHold cause mx).belfry = (s.belfry.withCause cause mx).boundRamp
      ∧ (s.raiseHold cause mx).ints.raised = s.ints.raised ||| 64 ∧ Frame [.belfry, .evt, .ints, .out] s (s.raiseHold cause mx) := by
  let held : State := { s with belfry := (s.belfry.withCause cause mx).boundRamp }
  obtain ⟨fs, hraise⟩ : ∃ fs, s.raiseHold cause mx = (((held.event .module 0x0406 fs).raise 6).sendBeacon).cadenceCheck :=
    ⟨_, if_neg (by simp [hnone])⟩
  have hevent := held.event_frame .module 0x0406 fs
  have hraised := (held.event .module 0x0406 fs).raise_frame 6
  have hsent := ((held.event .module 0x0406 fs).raise 6).sendBeacon_frame
  have hout := Frame.trans (k := [.ints, .out]) hraised hsent (by simp) (by simp)
  have hframe := Frame.trans (k := [.belfry, .evt, .ints, .out]) (s.set_belfry_frame _)
    (Frame.trans (k := [.evt, .ints, .out]) hevent hout (by simp) (by simp)) (by simp) (by simp)
  rw [hraise, State.cadenceCheck_none ((State.barrierIdx_congr hframe.steps_eq).trans hbar)]
  refine ⟨hout.belfry_eq.trans hevent.belfry_eq, ?_, hframe⟩
  obtain ⟨p, o, hints⟩ := (held.event .module 0x0406 fs).raise_eq 6
  rw [hsent .ints (by simp), hints]
  exact congrArg (·.raised ||| 64) (hevent .ints (by simp))

/-- A cause of HOLD that is the first one: HOLD_MAX is its own (R328), and an upward ramp goes no further (R329). -/
theorem State.raiseHold_bounds (hnone : s.belfry.holds = []) (cause mx : Nat) :
    (s.raiseHold cause mx).belfry.holds = [⟨cause, mx, false⟩] ∧ (s.raiseHold cause mx).belfry.holdMax = min 36 mx
      ∧ (s.raiseHold cause mx).belfry.hold = true ∧ (s.raiseHold cause mx).belfry.cadence = s.belfry.cadence
      ∧ (s.belfry.cadence < s.belfry.rampTarget →
          (s.raiseHold cause mx).belfry.rampTarget ≤ (s.raiseHold cause mx).belfry.holdMax) := by
  obtain ⟨hbelfry, -, -⟩ := State.raiseHold_first hbar hnone cause mx
  obtain ⟨hkept, hcadence⟩ := (s.belfry.withCause cause mx).boundRamp_leaves
  have hjoined : (s.belfry.withCause cause mx).holds = [⟨cause, mx, false⟩] := by simp [Belfry.withCause, hnone]
  have hholds : (s.raiseHold cause mx).belfry.holds = [⟨cause, mx, false⟩] := by rw [hbelfry, hkept, hjoined]
  have hmax := Belfry.holdMax_single hholds
  refine ⟨hholds, hmax, by simp [Belfry.hold, hholds], by rw [hbelfry, hcadence]; rfl, fun hup => ?_⟩
  rw [hmax, hbelfry, ← Belfry.holdMax_single hjoined]
  exact Belfry.rampTarget_boundRamp hup

end

/-! ### A cause clears -/

/-- The causes of HOLD are these. -/
def State.withHolds (s : State) (l : List HoldCause) : State := { s with belfry := { s.belfry with holds := l } }

theorem State.withHolds_frame (s : State) (l : List HoldCause) : Frame [.belfry] s (s.withHolds l) := s.set_belfry_frame _

theorem State.holdMax_withHolds (s : State) (x : HoldCause) : (s.withHolds [x]).belfry.holdMax = min 36 x.max :=
  Belfry.holdMax_single rfl

/-- The only cause waits for the cadence when it clears, under the same HOLD_MAX (R328). -/
theorem State.causeClears_alone {s : State} {cause mx : Nat} {cl : Bool} (hholds : s.belfry.holds = [⟨cause, mx, cl⟩]) :
    s.causeClears cause = s.withHolds [⟨cause, mx, true⟩] := by
  have hclear : s.belfry.clearCause cause = { s.belfry with holds := [⟨cause, mx, true⟩] } := by
    simp [Belfry.clearCause, hholds]
  unfold State.causeClears
  rw [hclear]
  exact if_pos ((s.holdMax_withHolds _).trans (Belfry.holdMax_single hholds).symm)

/-- HOLD ends when the only cause has cleared and the cadence is at or below HOLD_MAX (R328). -/
theorem State.tryClearHold_ends {s : State} {cause mx : Nat} (hle : s.belfry.cadence ≤ min 36 mx) :
    (s.withHolds [⟨cause, mx, true⟩]).tryClearHold = (s.withHolds []).sendBeacon := by
  refine if_pos ?_
  rw [State.holdMax_withHolds]
  exact decide_eq_true hle

/-- A cause that has cleared waits for the cadence (R328). -/
theorem State.tryClearHold_waits {s : State} {cause mx : Nat} (hgt : min 36 mx < s.belfry.cadence) :
    (s.withHolds [⟨cause, mx, true⟩]).tryClearHold = s.withHolds [⟨cause, mx, true⟩] := by
  refine if_neg ?_
  rw [State.holdMax_withHolds]
  exact fun hle => Nat.not_le.mpr hgt (of_decide_eq_true hle)

/-- HOLD stands while a cause holds (R328). -/
theorem State.tryClearHold_holds {s : State} {h : HoldCause} (hm : h ∈ s.belfry.holds) (hcl : h.cleared = false) : s.tryClearHold = s := by
  refine if_neg fun hall => ?_
  simp only [Bool.and_eq_true, List.all_eq_true] at hall
  simp [hall.1.2 h hm] at hcl

/-- A cause that clears while another holds leaves, and the HOLD_MAX that rises goes out in a beacon (R325, R328). -/
theorem State.causeClears_other {s : State} {c1 c3 m1 m3 : Nat} (hne : c1 ≠ c3)
    (hholds : s.belfry.holds = [⟨c1, m1, false⟩, ⟨c3, m3, false⟩]) (h1 : m3 < m1) (h36 : m3 < 36) :
    s.causeClears c3 = (s.withHolds [⟨c1, m1, false⟩]).sendBeacon := by
  have hclear : s.belfry.clearCause c3 = { s.belfry with holds := [⟨c1, m1, false⟩] } := by
    simp [Belfry.clearCause, hholds, hne]
  have hbefore : s.belfry.holdMax = min (min 36 m1) m3 := by simp [Belfry.holdMax, hholds]
  have hafter : (s.withHolds [⟨c1, m1, false⟩]).belfry.holdMax = min 36 m1 := s.holdMax_withHolds _
  unfold State.causeClears
  rw [hclear]
  refine if_neg fun hsame => ?_
  have hmax : min 36 m1 = min (min 36 m1) m3 := hafter.symm.trans (hsame.trans hbefore)
  omega

/-! ### The commands -/

section
variable {s : State} (hpow : s.power.powered = true)
include hpow

theorem exec_cadenceHold_power (u : Nat) : exec (.cadenceHold 1 u) s = .next
    (if s.belfry.fullPeriods ≥ 10000 then s.raiseHold 1 (s.belfry.cadence - 4) else s) :=
  congrArg Host.Outcome.next (State.whenOn_powered hpow _)

theorem exec_cadenceHold_droop (u : Nat) : exec (.cadenceHold 3 u) s = .next
    (if (s.tower u).inService && (s.tower u).droopHigh then s.raiseHold 3 (s.belfry.cadence - 2) else s) :=
  congrArg Host.Outcome.next (State.whenOn_powered hpow _)

theorem exec_holdClear_droop : exec (.holdClear 3) s = .next
    (if (s.towers.filter Tower.inService).all Tower.droopLow then s.causeClears 3 else s).tryClearHold :=
  congrArg Host.Outcome.next (State.whenOn_powered hpow _)

end

/-- Settles O42: a first cause of HOLD through `raiseHold_bounds`; the clearing of DROOP by whether it has passed, whether POWER holds besides, and
where the cadence stands. -/
theorem cadenceHolds : Obligations.CadenceHolds := by
  intro s u hpow hbar
  dsimp only
  refine ⟨fun hnone _ hin hhigh => ?_, fun hlow => ?_, fun hnone hfull => ?_, fun hless => ?_, fun mx cl hholds hpast hle => ?_,
    fun mx cl hholds hpast hgt => ?_, fun mx hholds hpast => ?_, fun m1 m3 hholds hpast h1 h36 hlink => ?_⟩
  · obtain ⟨-, hraised, hframe⟩ := State.raiseHold_first hbar hnone 3 (s.belfry.cadence - 2)
    obtain ⟨hholds, hmax, hhold, hcadence, hramp⟩ := State.raiseHold_bounds hbar hnone 3 (s.belfry.cadence - 2)
    exact ⟨_, (exec_cadenceHold_droop hpow u).trans (by rw [if_pos (by simp [hin, hhigh])]), hholds, hmax, hhold, hcadence, hraised, hframe, hramp⟩
  · rw [exec_cadenceHold_droop hpow, if_neg (by simp [hlow])]
  · obtain ⟨-, -, hframe⟩ := State.raiseHold_first hbar hnone 1 (s.belfry.cadence - 4)
    obtain ⟨hholds, -⟩ := State.raiseHold_bounds hbar hnone 1 (s.belfry.cadence - 4)
    exact ⟨_, (exec_cadenceHold_power hpow u).trans (by rw [if_pos hfull]), hholds, hframe⟩
  · rw [exec_cadenceHold_power hpow, if_neg (Nat.not_le.mpr hless)]
  · rw [exec_holdClear_droop hpow, if_pos hpast, State.causeClears_alone hholds, State.tryClearHold_ends hle]
    have hsent := (s.withHolds []).sendBeacon_frame
    exact ⟨_, rfl, hsent.belfry_eq, Frame.trans (s.withHolds_frame _) hsent (by simp) (by simp)⟩
  · rw [exec_holdClear_droop hpow, if_pos hpast, State.causeClears_alone hholds, State.tryClearHold_waits hgt]
    exact ⟨_, rfl, rfl, s.withHolds_frame _⟩
  · have hheld : (⟨3, mx, false⟩ : HoldCause) ∈ s.belfry.holds := by simp [hholds]
    rw [exec_holdClear_droop hpow, if_neg (by simp [hpast]), State.tryClearHold_holds hheld rfl]
  · have hclear := (State.causeClears_other (by decide) hholds h1 h36).trans (State.sendBeacon_sends hlink)
    have hheld : (⟨1, m1, false⟩ : HoldCause) ∈ (s.causeClears 3).belfry.holds := by simp [hclear, State.withHolds]
    rw [exec_holdClear_droop hpow, if_pos hpast, State.tryClearHold_holds hheld rfl, hclear]
    exact ⟨_, _, rfl, Frame.trans (s.withHolds_frame _) (State.set_out_frame _ _) (by simp) (by simp), rfl, rfl, s.holdMax_withHolds _, rfl⟩

end Sys2Proof.Machine
end

section
/-!
SUPPORT. The place of a step among those in flight.
-/
namespace Sys2Proof.Machine

open Sys2Proof

/-- The first step that a test picks is the same one where the steps agree under the test. -/
theorem State.StepsAgree.findIdx?_eq {i : Nat} {p : Step → Bool} {s t : State} (h : s.StepsAgree i p t) :
    t.steps.findIdx? p = s.steps.findIdx? p := by
  have hmap : t.steps.map p = s.steps.map p := by
    apply List.ext_getElem?
    intro k
    rw [List.getElem?_map, List.getElem?_map]
    by_cases hk : k = i
    · rw [hk, h.2]
    · rw [h.1 k hk]
  have hfind (l : List Step) : l.findIdx? p = (l.map p).findIdx? id := by rw [List.findIdx?_map]; rfl
  rw [hfind, hmap, ← hfind]

end Sys2Proof.Machine
end

section
/-!
SUPPORT. Ovmen links (R257): what an update of one link, the choice of relays and the judging of beacons (R261) leave of each link.
-/
namespace Sys2Proof.Machine

open Sys2Proof

/-! ### One link -/

theorem State.modLink_frame (s : State) (l : Nat) (f : Link → Link) : Frame [.fabric] s (s.modLink l f) := s.set_fabric_frame _

theorem State.link_modLink_same {s : State} {l : Nat} (f : Link → Link) (hl : l < s.fabric.links.length) : (s.modLink l f).link l = f (s.link l) := by
  simp [State.link, updAt, List.getD_eq_getElem?_getD, hl]

theorem State.link_modLink_other (s : State) {k l : Nat} (f : Link → Link) (h : k ≠ l) : (s.modLink l f).link k = s.link k := by
  simp [State.link, updAt, List.getD_eq_getElem?_getD, h.symm]

/-! ### Relays -/

/-- The relay of a link (R257). -/
def State.relayFor (s : State) (k : Link) : Option Nat :=
  if k.state = 0 then (s.fabric.topo.bind Topology.me).bind fun m =>
    (((List.range 7).filter fun l => (s.link l).state != 0).find? k.mates.contains).map (peerSlot m.slot)
  else none

theorem State.link_reroute {s : State} {k : Nat} (hk : k < s.fabric.links.length) :
    s.reroute.link k = { s.link k with relay := s.relayFor (s.link k) } := by
  simp [State.link, State.reroute, State.relayFor, List.getD_eq_getElem?_getD, hk]

/-- Slots lie in the order of their links (R256). -/
theorem peerSlot_le {m j k : Nat} (h : j ≤ k) : peerSlot m j ≤ peerSlot m k := by
  unfold peerSlot
  split <;> split <;> omega

/-- A down link is relayed by the board-mate of lowest slot whose links to both ends are in service; by none where there is no such mate (R257). -/
theorem State.relayFor_lowest {s : State} {x : Link} {me : ModEnt} (hme : s.fabric.topo.bind Topology.me = some me) (hx : x.state = 0) :
    let ends (r : Nat) : Prop := ∃ k < 7, k ∈ x.mates ∧ (s.link k).state ≠ 0 ∧ r = peerSlot me.slot k
    (∀ r, s.relayFor x = some r → ends r ∧ ∀ q, ends q → r ≤ q) ∧ (s.relayFor x = none → ∀ q, ¬ ends q) := by
  intro ends
  have hrelay : s.relayFor x =
      (((List.range 7).filter fun l => (s.link l).state != 0).find? x.mates.contains).map (peerSlot me.slot) := by
    rw [State.relayFor, if_pos hx, hme, Option.bind_some]
  rw [List.find?_filter] at hrelay
  rw [hrelay]
  refine ⟨fun r hr => ?_, fun hnone q hq => ?_⟩
  · obtain ⟨k, hk, rfl⟩ := Option.map_eq_some_iff.mp hr
    obtain ⟨hboth, hlt, hfirst⟩ := List.find?_range_eq_some.mp hk
    obtain ⟨hup, hmate⟩ : (s.link k).state ≠ 0 ∧ k ∈ x.mates := by simpa using hboth
    refine ⟨⟨k, List.mem_range.mp hlt, hmate, hup, rfl⟩, ?_⟩
    rintro q ⟨j, -, hmate, hup, rfl⟩
    refine peerSlot_le (Nat.le_of_not_lt fun hj => ?_)
    simpa [hmate, hup] using hfirst j hj
  · obtain ⟨k, hk, hmate, hup, -⟩ := hq
    have hno := List.find?_range_eq_none.mp (Option.map_eq_none_iff.mp hnone) k hk
    simp [hmate, hup] at hno

/-! ### A link that changes, under new relays -/

/-- A link changes, and the relays are chosen anew. -/
def State.relink (s : State) (l : Nat) (f : Link → Link) : State := (s.modLink l f).reroute

section
variable {s : State} {l : Nat} (f : Link → Link)

theorem State.relink_frame : Frame [.fabric] s (s.relink l f) :=
  Frame.trans (s.modLink_frame l f) (State.reroute_frame _) (by simp) (by simp)

variable (hlen : s.fabric.links.length = 7)
include hlen

/-- The links are as many as before, and of the others only the relay may have changed. -/
theorem State.relink_keeps : (s.relink l f).fabric = { s.fabric with links := (s.relink l f).fabric.links }
    ∧ (s.relink l f).fabric.links.length = 7
    ∧ ∀ k, k ≠ l → k < 7 → (s.relink l f).link k = { s.link k with relay := ((s.relink l f).link k).relay } := by
  have hmod : (s.modLink l f).fabric.links.length = 7 := by simp [updAt, hlen]
  refine ⟨rfl, by simp [State.relink, State.reroute, updAt, hlen], fun k hk hlt => ?_⟩
  rw [State.relink, State.link_reroute (by omega), s.link_modLink_other f hk]

/-- The same of a state in which nothing of the fabric has changed since. -/
theorem State.relink_kept {t : State} (ht : t.fabric = (s.relink l f).fabric) : t.fabric = { s.fabric with links := t.fabric.links }
    ∧ t.fabric.links.length = 7 ∧ ∀ k, k ≠ l → k < 7 → t.link k = { s.link k with relay := (t.link k).relay } := by
  have hlink (k : Nat) : t.link k = (s.relink l f).link k := congrArg (·.links.getD k Link.reset) ht
  obtain ⟨hfabric, hcount, hothers⟩ := State.relink_keeps (l := l) f hlen
  refine ⟨by rw [ht]; exact hfabric, by rw [ht]; exact hcount, fun k hk hlt => ?_⟩
  rw [hlink]
  exact hothers k hk hlt

variable (hl : l < 7)
include hl

theorem State.link_relink : (s.relink l f).link l = { f (s.link l) with relay := (s.modLink l f).relayFor (f (s.link l)) } := by
  have hmod : (s.modLink l f).fabric.links.length = 7 := by simp [updAt, hlen]
  rw [State.relink, State.link_reroute (by omega), State.link_modLink_same f (by omega)]

/-- A link in service has no relay. -/
theorem State.link_relink_up (hup : (f (s.link l)).state ≠ 0) : (s.relink l f).link l = { f (s.link l) with relay := none } := by
  rw [State.link_relink f hlen hl, State.relayFor, if_neg hup]

end

/-! ### Links that are judged -/

/-- Judging changes of a link its mark of a disagreement alone (R261). -/
def Link.JudgedTo (x y : Link) : Prop := y = { x with mismatch := y.mismatch, named := y.named }

theorem State.modLink_judges {s e : State} (he : e.fabric = s.fabric) (i k : Nat) {f : Link → Link} (hf : ∀ x, Link.JudgedTo x (f x)) :
    (s.link k).JudgedTo ((e.modLink i f).link k) := by
  rcases hx : s.fabric.links[k]? with _ | x
  · simp [State.link, updAt, List.getD_eq_getElem?_getD, List.getElem?_modify, he, hx, Link.JudgedTo]
  · by_cases hi : i = k
    · simpa [State.link, updAt, List.getD_eq_getElem?_getD, he, hx, hi] using hf x
    · simp [State.link, updAt, List.getD_eq_getElem?_getD, he, hx, hi, Link.JudgedTo]

theorem State.judgeLink_link (t : Topology) (s : State) (i k : Nat) : (s.link k).JudgedTo ((State.judgeLink t s i).link k) := by
  unfold State.judgeLink
  dsimp only
  split
  · exact State.modLink_judges rfl i k fun _ => rfl
  · split
    · exact State.modLink_judges (s.event_frame _ _ _ .fabric (by simp)) i k fun _ => rfl
    · exact State.modLink_judges rfl i k fun _ => rfl

theorem State.judgeLinks_link (s : State) (k : Nat) : (s.link k).JudgedTo (s.judgeLinks.link k) := by
  have hfold (t : Topology) (l : List Nat) (u : State) : (u.link k).JudgedTo ((l.foldl (State.judgeLink t) u).link k) := by
    induction l generalizing u with
    | nil => rfl
    | cons i l ih =>
      have hone := State.judgeLink_link t u i k
      have hrest := ih (State.judgeLink t u i)
      unfold Link.JudgedTo at hone hrest
      rw [hone] at hrest
      exact hrest
  unfold State.judgeLinks
  split
  · rfl
  · exact hfold _ _ _

end Sys2Proof.Machine
end

section
/-!
O43. Beacons out and in (R261, R275, R276, Table 10.7), and links that degrade, go down and retrain (R257, R278, R434).
-/
namespace Sys2Proof.Machine

open Sys2Proof

/-! ### Beacons -/

section
variable {s : State} (hpow : s.power.powered = true)
include hpow

theorem exec_beaconSend : exec .beaconSend s = .next s.sendBeacon :=
  congrArg Host.Outcome.next (State.whenOn_powered hpow _)

/-- A beacon of a link in service is kept with its time, and judged under the topology; between barriers nothing waits for it (R261, R276). -/
theorem exec_beaconReceive {l : Nat} (hup : (s.link l).state ≠ 0) (hbar : s.barrierIdx = none) (b : Beacon) :
    exec (.beaconReceive l b) s = .next (s.modLink l fun k => { k with beacon := some b, seenAt := s.power.time.v }).judgeLinks := by
  obtain ⟨hframe, -⟩ := (s.modLink l fun k => { k with beacon := some b, seenAt := s.power.time.v }).judgeLinks_frame
  refine congrArg Host.Outcome.next ((State.whenOn_powered hpow _).trans ((if_neg hup).trans (State.cadenceCheck_none ?_)))
  exact (State.barrierIdx_congr hframe.steps_eq).trans hbar

/-- A received beacon is kept with its time (R276). -/
theorem beaconReceive_keeps {l : Nat} (hl : l < s.fabric.links.length) (hup : (s.link l).state ≠ 0) (hbar : s.barrierIdx = none) (b : Beacon) :
    ∃ t, exec (.beaconReceive l b) s = .next t ∧ Frame [.fabric, .evt] s t ∧ (t.link l).beacon = some b ∧ (t.link l).seenAt = s.power.time.v
      ∧ (t.link l).state = (s.link l).state ∧ t.fabric.topo = s.fabric.topo := by
  obtain ⟨hframe, htopo⟩ := (s.modLink l fun k => { k with beacon := some b, seenAt := s.power.time.v }).judgeLinks_frame
  have hlink := State.judgeLinks_link (s.modLink l fun k => { k with beacon := some b, seenAt := s.power.time.v }) l
  rw [State.link_modLink_same _ hl, Link.JudgedTo] at hlink
  refine ⟨_, exec_beaconReceive hpow hup hbar b, Frame.trans (s.modLink_frame l _) hframe (by simp) (by simp), ?_, ?_, ?_, htopo⟩ <;>
    rw [hlink]

end

/-! ### The fresh-beacon wait -/

/-- Without a board peer the check of the cadence waits for no beacon (R276). -/
theorem State.cadenceCheck_alone {s : State} {i : Nat} {p : Step} (hi : s.barrierIdx = some i) (hp : s.steps[i]? = some p)
    (hpeers : s.peerLinks = []) (hcheck : p.checked = false) (hle : p.cadence ≤ s.belfry.holdMax) :
    s.cadenceCheck = s.modStep i fun q => { q with checked := true } := by
  simp [State.cadenceCheck, hi, hp, hpeers, hcheck, Nat.not_lt.mpr hle]

/-- The end of the wait leaves the step at its barrier (R276). -/
theorem State.barrierIdx_waitOver (s : State) (i : Nat) : (s.modStep i fun p => { p with waitOver := true }).barrierIdx = s.barrierIdx :=
  State.StepsAgree.findIdx?_eq (s.modStep_agrees fun _ => rfl)

/-- The end of the wait decides the check of the step at its barrier (R276). -/
theorem freshBeaconWaitExpiry_checks {s : State} (hpow : s.power.powered = true) {i : Nat} {p : Step} (hi : s.barrierIdx = some i)
    (hp : s.steps[i]? = some p) (hpeers : s.peerLinks = []) (hcheck : p.checked = false) (hle : p.cadence ≤ s.belfry.holdMax) :
    ∃ t, exec .freshBeaconWaitExpiry s = .next t ∧ Frame [.steps] s t ∧ t.steps[i]? = some { p with waitOver := true, checked := true } := by
  let waited := s.modStep i fun p => { p with waitOver := true }
  have hat : waited.steps[i]? = some { p with waitOver := true } := State.steps_modStep_getElem?_same _ hp
  have hexec : exec .freshBeaconWaitExpiry s = .next waited.cadenceCheck := by
    simp [exec, execFreshBeaconWaitExpiry, State.whenOn, hpow, hi, waited]
  rw [State.cadenceCheck_alone ((s.barrierIdx_waitOver i).trans hi) hat hpeers hcheck hle] at hexec
  exact ⟨_, hexec, Frame.trans (s.modStep_frame i _) (State.modStep_frame _ i _) (by simp) (by simp),
    State.steps_modStep_getElem?_same _ hat⟩

/-! ### Links that degrade and retrain -/

section
variable {s : State} {l : Nat} (hpow : s.power.powered = true) (hl : l < 7)
include hpow hl

/-- A link degrades to eight lanes and counts its replays; one that is down comes back between steps alone (R257, R434). -/
theorem exec_linkDegraded (n : Nat) (h : (s.link l).down = false ∨ s.steps = []) : ∃ fs, exec (.linkDegraded l n) s = .next
    ((s.relink l fun k => { k with
      state := 1, lanes := 8, down := false, mates := [], replays := k.replays + BitVec.ofNat 32 n }).event .module 0x0401 fs) := by
  have hmay : ¬ (l > 6 ∨ (s.link l).down = true ∧ s.stepRunning = true) := by
    rintro (hgt | ⟨hdown, hrun⟩)
    · omega
    · rcases h with hup | hidle
      · simp [hup] at hdown
      · simp [State.stepRunning, hidle] at hrun
  exact ⟨_, congrArg Host.Outcome.next ((State.whenOn_powered hpow _).trans (if_neg hmay))⟩

/-- A link retrains to full service between steps (R257). -/
theorem exec_linkRetrain (hidle : s.steps = []) : exec (.linkRetrain l) s = .next
    (s.relink l fun k => { k with state := 2, lanes := 16, down := false, mates := [] }) :=
  congrArg Host.Outcome.next ((State.whenOn_powered hpow _).trans (if_neg (by simp [State.stepRunning, hidle]; omega)))

omit hl in
theorem exec_linkRetrain_running (hrun : s.steps ≠ []) : exec (.linkRetrain l) s = .next s :=
  congrArg Host.Outcome.next ((State.whenOn_powered hpow _).trans (if_pos (.inr (by simpa [State.stepRunning] using hrun))))

end

/-! ### A link that goes down -/

/-- Messages leave again by the ways that remain (R278). -/
def State.resend (s : State) (l : List (Route × Message)) : State :=
  l.foldl (fun s q => match s.routeTo q.2.dest with | some way => s.put way q.2 | none => s) s

theorem State.resend_frame (s : State) (l : List (Route × Message)) : Frame [.out] s (s.resend l) := by
  refine Frame.foldl (fun s q => ?_) l s
  split
  · exact s.put_frame _ _
  · exact Frame.refl _ _

/-- Over a down link the way is by its relay (R257). -/
theorem State.routeTo_down {s : State} {rank l : Nat} (hlink : (s.fabric.topo.bind fun x => x.linkTo rank) = some l) (hdown : (s.link l).state = 0) :
    s.routeTo rank = (s.link l).relay.map fun k => .relay rank k := by
  obtain ⟨t, ht, hl⟩ := Option.bind_eq_some_iff.mp hlink
  simp [State.routeTo, ht, hl, hdown]

/-- Messages that had left over a down link leave by its relay, in their order; without a relay none leaves (R257, R278). -/
theorem State.resend_down {s : State} {l : Nat} (hdown : (s.link l).state = 0) {ms : List (Route × Message)}
    (hms : ∀ q ∈ ms, (s.fabric.topo.bind fun x => x.linkTo q.2.dest) = some l) :
    (s.resend ms).out = { s.out with
      sent := s.out.sent ++ (s.link l).relay.elim [] fun k => ms.map fun q => (.relay q.2.dest k, q.2) } := by
  induction ms generalizing s with
  | nil => cases (s.link l).relay <;> simp [State.resend]
  | cons q ms ih =>
    obtain ⟨hq, hrest⟩ := List.forall_mem_cons.mp hms
    have hway := State.routeTo_down hq hdown
    rcases hrelay : (s.link l).relay with _ | k
    · have hstep : s.resend (q :: ms) = s.resend ms := by simp [State.resend, hway, hrelay]
      rw [hstep, ih hdown hrest, hrelay]
      rfl
    · have hstep : s.resend (q :: ms) = (s.put (.relay q.2.dest k) q.2).resend ms := by simp [State.resend, hway, hrelay]
      have hsame : (s.put (.relay q.2.dest k) q.2).link l = s.link l := rfl
      rw [hstep, ih (s := s.put (.relay q.2.dest k) q.2) hdown hrest, hsame, hrelay]
      simp [State.put]

/-- Has a message left over a link? -/
def Route.over (l : Nat) : Route → Bool
  | .link _ k => k == l
  | _ => false

/-- The last `n` messages that have left over a link (R278). -/
def State.lastOver (s : State) (l n : Nat) : List (Route × Message) :=
  (s.out.sent.filter fun q => q.1.over l).drop ((s.out.sent.filter fun q => q.1.over l).length - n)

/-- A link once it is down (R257). -/
def Link.lost (mates : List Nat) (k : Link) : Link := { k with state := 0, lanes := 0, down := true, mates := mates }

section
variable {s : State} {l : Nat} (hpow : s.power.powered = true)
include hpow

/-- A link goes down: relays are chosen, the event is recorded, and what is not acknowledged leaves again (R257, R278). -/
theorem exec_linkDown (hl : l < 7) (hup : (s.link l).down = false) (mates : List Nat) (n : Nat) : ∃ fs, exec (.linkDown ⟨l, mates, n⟩) s = .next
    (((s.relink l (Link.lost mates)).event .module 0x0402 fs).resend (s.lastOver l n)) := by
  have hmay : ¬ (l > 6 ∨ (s.link l).down = true) := by
    rw [hup]
    simp
    omega
  obtain ⟨fs, hlost⟩ : ∃ fs, s.linkLost ⟨l, mates, n⟩ = (s.relink l (Link.lost mates)).event .module 0x0402 fs := ⟨_, if_neg hmay⟩
  refine ⟨fs, congrArg Host.Outcome.next ((State.whenOn_powered hpow _).trans ((if_neg hmay).trans ?_))⟩
  rw [hlost]
  rfl

theorem exec_linkDown_again {x : LinkLoss} (hx : x.link = l) (hdown : (s.link l).down = true) : exec (.linkDown x) s = .next s :=
  congrArg Host.Outcome.next ((State.whenOn_powered hpow _).trans (if_pos (.inr (by rw [hx]; exact hdown))))

end

/-- The relay of a link that goes down is the board-mate of lowest slot, of those that the loss names and to which another link of this module is
in service (R257). -/
theorem State.relay_lost {s : State} {l : Nat} (hlen : s.fabric.links.length = 7) (hl : l < 7) (mates : List Nat) {me : ModEnt}
    (hme : s.fabric.topo.bind Topology.me = some me) :
    let relay := ((s.relink l (Link.lost mates)).link l).relay
    let ends (r : Nat) : Prop := ∃ k < 7, k ≠ l ∧ k ∈ mates ∧ (s.link k).state ≠ 0 ∧ r = peerSlot me.slot k
    (∀ r, relay = some r → ends r ∧ ∀ q, ends q → r ≤ q) ∧ (relay = none → ∀ q, ¬ ends q) := by
  intro relay ends
  have hchosen : relay = (s.modLink l (Link.lost mates)).relayFor (Link.lost mates (s.link l)) :=
    congrArg Link.relay (State.link_relink (Link.lost mates) hlen hl)
  have hends (r : Nat) : ends r ↔
      ∃ k < 7, k ∈ mates ∧ ((s.modLink l (Link.lost mates)).link k).state ≠ 0 ∧ r = peerSlot me.slot k := by
    refine exists_congr fun k => and_congr_right fun _ => ?_
    by_cases hk : k = l
    · rw [hk, State.link_modLink_same _ (by omega)]
      simp [Link.lost]
    · rw [s.link_modLink_other _ hk]
      simp [hk]
  simp only [hends, hchosen]
  exact State.relayFor_lowest (s := s.modLink l (Link.lost mates)) hme rfl

/-! ### The obligation -/

/-- What a link that goes down leaves, of the links and of the messages that had left over it (R257, R278). -/
theorem linkDown_leaves {s : State} {l : Nat} (hpow : s.power.powered = true) (hl : l < 7) (hlen : s.fabric.links.length = 7)
    (hup : (s.link l).down = false) (mates : List Nat) (n : Nat) : ∃ t, exec (.linkDown ⟨l, mates, n⟩) s = .next t
      ∧ Frame [.fabric, .evt, .out] s t ∧ t.fabric = (s.relink l (Link.lost mates)).fabric ∧ (n = 0 → t.out = s.out)
      ∧ ((∀ q ∈ s.lastOver l n, (s.fabric.topo.bind fun x => x.linkTo q.2.dest) = some l) → t.out = { s.out with
          sent := s.out.sent ++ (t.link l).relay.elim [] fun k => (s.lastOver l n).map fun q => (.relay q.2.dest k, q.2) }) := by
  obtain ⟨fs, hexec⟩ := exec_linkDown hpow hl hup mates n
  let lost := (s.relink l (Link.lost mates)).event .module 0x0402 fs
  have hevent : Frame [.evt] (s.relink l (Link.lost mates)) lost := State.event_frame _ _ _ _
  have hlost := Frame.trans (k := [.fabric, .evt]) (State.relink_frame _) hevent (by simp) (by simp)
  have hsent := lost.resend_frame (s.lastOver l n)
  have hfabric : (lost.resend (s.lastOver l n)).fabric = lost.fabric := hsent .fabric (by simp)
  have hlink : (lost.resend (s.lastOver l n)).link l = lost.link l := congrArg (·.links.getD l Link.reset) hfabric
  have hkept : lost.fabric = (s.relink l (Link.lost mates)).fabric := hevent .fabric (by simp)
  have hdown : (lost.link l).state = 0 := by
    have hsame : lost.link l = (s.relink l (Link.lost mates)).link l := congrArg (·.links.getD l Link.reset) hkept
    rw [hsame, State.link_relink _ hlen hl]
    rfl
  have htopo : lost.fabric.topo = s.fabric.topo := by rw [hkept]; rfl
  have hout : lost.out = s.out := hlost .out (by simp)
  refine ⟨_, hexec, Frame.trans hlost hsent (by simp) (by simp), hfabric.trans hkept, fun h0 => ?_, fun hq => ?_⟩
  · have hnone : s.lastOver l n = [] := by simp [State.lastOver, h0]
    rw [hnone]
    exact hout
  · rw [hlink, State.resend_down hdown (by rw [htopo]; exact hq), hout]

/-- Settles O43: beacons by what leaves and what judging keeps of a link, the wait by the check that it decides, and each change of a link as one
update under new relays. -/
theorem beaconsAndLinks : Obligations.BeaconsAndLinks := by
  refine ⟨fun s hpow => ⟨fun hlink => ?_, fun hnone => ?_, fun l b hl hlen hup hbar => ?_, fun i p hi hp hpeers hcheck hle => ?_⟩,
    fun s l hpow hl hlen => ?_⟩
  · refine ⟨_, s.beacon, exec_beaconSend hpow, s.sendBeacon_frame, congrArg State.out (State.sendBeacon_sends hlink), rfl, rfl, rfl, rfl, rfl,
      fun hpend => ?_⟩
    simp [State.beacon, hpend]
  · rw [exec_beaconSend hpow, State.sendBeacon_none hnone]
  · exact beaconReceive_keeps hpow (by omega) hup hbar b
  · exact freshBeaconWaitExpiry_checks hpow hi hp hpeers hcheck hle
  · intro others kept
    refine ⟨fun n hmay => ?_, fun mates unacked hup => ?_, fun x hx hdown => exec_linkDown_again hpow hx hdown, fun hidle => ?_,
      fun hrun => exec_linkRetrain_running hpow hrun⟩
    · obtain ⟨fs, hexec⟩ := exec_linkDegraded hpow hl n hmay
      have hevent := State.event_frame (s.relink l fun k => { k with
        state := 1, lanes := 8, down := false, mates := [], replays := k.replays + BitVec.ofNat 32 n }) .module 0x0401 fs
      have hfabric := hevent .fabric (by simp)
      refine ⟨_, hexec, Frame.trans (State.relink_frame _) hevent (by simp) (by simp), State.relink_kept _ hlen hfabric, ?_⟩
      exact (congrArg (·.links.getD l Link.reset) hfabric).trans (State.link_relink_up _ hlen hl (by simp))
    · intro gone last
      have hlast : last = s.lastOver l unacked := rfl
      obtain ⟨t, hexec, hframe, hfabric, hacked, hsent⟩ := linkDown_leaves hpow hl hlen hup mates unacked
      have hlink : t.link l = (s.relink l (Link.lost mates)).link l := congrArg (·.links.getD l Link.reset) hfabric
      refine ⟨t, hexec, hframe, State.relink_kept _ hlen hfabric, ?_, hacked, fun hq => ?_, fun me hme => ?_⟩
      · rw [hlink, State.link_relink _ hlen hl]
        rfl
      · rw [hsent hq]
        cases (t.link l).relay <;> rfl
      · rw [hlink]
        exact State.relay_lost hlen hl mates hme
    · exact ⟨_, exec_linkRetrain hpow hl hidle, State.relink_frame _, State.relink_kept _ hlen rfl, State.link_relink_up _ hlen hl (by simp)⟩

end Sys2Proof.Machine
end

section
/-!
O11. SET_CADENCE, SET_POWER_CAP, SCRUB_CTRL and CLEAR_DIVERGENCE (R274, R289, R312, R319, R325, R371, R375).
-/
namespace Sys2Proof.Machine

open Sys2Proof

/-! ### A command that sets one part of the state -/

theorem State.set_mem_frame (s : State) (m : Mem) : Frame [.mem] s { s with mem := m } := by
  intro p hp
  cases p with
  | mem => simp at hp
  | _ => rfl

/-- A completion sends messages of vectors: no beacon leaves with it. -/
theorem State.deliver_beacons (s : State) (n status : Nat) (data : List Byte) : (s.deliver n status data).out.beacons = s.out.beacons := by
  have hmsix (u : State) (v : Nat) : (u.emit (.msix v)).out.beacons = u.out.beacons := by
    unfold State.emit
    split <;> rfl
  have hmessage (u : State) (v : Nat) : (u.message v).out.beacons = u.out.beacons := by
    unfold State.message
    split
    · rfl
    · split
      · rfl
      · exact hmsix u v
  unfold State.deliver
  dsimp only
  split
  · exact hmessage _ n
  · rfl

section
variable {s : State} {c : Sub}

/-- Before its payload nothing refuses a settings command of the right length in an open life-cycle state, with a step in flight or without
(R363). -/
theorem State.judge'_setting (ho : s.Open) {op : Nat} (hop : op = 0x0102 ∧ c.payload.length = 16 ∨ op = 0x0103 ∧ c.payload.length = 4
    ∨ op = 0x0303 ∧ c.payload.length = 4 ∨ op = 0x0402 ∧ c.payload.length = 0) : (s.submitted c op).judge' (asked c op) = none := by
  have hstage : (s.submitted c op).stage1 (asked c op) = none := by
    rcases hop with ⟨rfl, hlen⟩ | ⟨rfl, hlen⟩ | ⟨rfl, hlen⟩ | ⟨rfl, hlen⟩ <;> simp [State.stage1, romLen, hlen]
  have hadv : (s.submitted c op).keep.advanced = false := ho.stays
  have hst : (s.submitted c op).fuses.state ≠ 4 := ho.state
  have hlocked : (s.submitted c op).locked (asked c op) = false := by
    rcases hop with ⟨rfl, -⟩ | ⟨rfl, -⟩ | ⟨rfl, -⟩ | ⟨rfl, -⟩ <;> simp [State.locked, hadv, hst]
  have hbusy : (s.submitted c op).busy (asked c op) = false := by
    rcases hop with ⟨rfl, -⟩ | ⟨rfl, -⟩ | ⟨rfl, -⟩ | ⟨rfl, -⟩ <;> simp [State.busy, State.meets, loadsSlot, savesSlot, isExt]
  have hno : op ≠ 0x0201 ∧ op ≠ 0x0202 := by omega
  simp [State.judge', hstage, hlocked, hbusy, hno]

end

/-! ### SET_CADENCE -/

/-- A cadence for a step that has been accepted already, or for one before it (R274). -/
def Belfry.late (b : Belfry) (step : Quad) : Bool :=
  match b.lastStep with
  | some n => decide (step.toNat ≤ n.toNat)
  | none => false

theorem Belfry.late_iff {b : Belfry} {step : Quad} : b.late step = true ↔ ∃ n, b.lastStep = some n ∧ step.toNat ≤ n.toNat := by
  unfold Belfry.late
  rcases b.lastStep with _ | n <;> simp

section
variable {s : State} {c : Sub} {code : Nat} {step : Quad}

/-- SET_CADENCE by its two fields (R274, R371, Table 14.9). -/
theorem cmdSetCadence_fields (hcode : code < 256) (hpay : c.payload = toLe 1 code ++ List.replicate 7 0 ++ toLe 8 step.toNat) (u : State) :
    cmdSetCadence ⟨c.mbx, c.payload, c.env⟩ u = if 36 < code ∨ u.belfry.late step = true then u.complete c.mbx stBAD_PARAM []
    else ({ u with belfry := { u.belfry with pending := some (code, step) } } : State).sendBeacon.complete c.mbx stOK [] := by
  have hfirst : fieldLe c.payload 0 1 = code := by
    rw [hpay, List.append_assoc]
    exact fieldLe_toLe_append hcode
  have hsecond : fieldLe c.payload 8 8 = step.toNat := by
    rw [hpay, fieldLe_append_skip (by simp)]
    exact fieldLe_toLe step.isLt
  have hzero : zeroAt c.payload 1 7 = true := by
    rw [hpay, List.append_assoc, zeroAt_append_skip (by simp)]
    exact zeroAt_replicate_append
  simp only [cmdSetCadence, hfirst, hsecond, hzero, BitVec.ofNat_toNat, BitVec.setWidth_eq, not_true_eq_false, false_or]
  rfl

theorem State.judge'_setCadence (ho : s.Open) (hpay : c.payload = toLe 1 code ++ List.replicate 7 0 ++ toLe 8 step.toNat) :
    (s.submitted c 0x0102).judge' (asked c 0x0102) = none :=
  State.judge'_setting ho (.inl ⟨rfl, by simp [hpay]⟩)

variable (h : s.Takes c) (ho : s.Open) (hcode : code < 256) (hpay : c.payload = toLe 1 code ++ List.replicate 7 0 ++ toLe 8 step.toNat)
include h ho hcode hpay

/-- A code above 36, or a step not above the last accepted one, is BAD_PARAM (R274, R371). -/
theorem exec_setCadence_badParam (hbad : 36 < code ∨ s.belfry.late step = true) :
    ∃ t, exec (.setCadence c) s = .next t ∧ s.Answers c 0x0011 [] [] t :=
  State.command_unchanged rfl h (by decide) (State.judge'_setCadence ho hpay)
    ((cmdSetCadence_fields hcode hpay _).trans (if_pos hbad))

/-- Any other cadence is held pending, and a beacon says so (R274, R325). -/
theorem exec_setCadence_pending (hgood : ¬ (36 < code ∨ s.belfry.late step = true)) :
    ∃ t, exec (.setCadence c) s = .next t ∧ s.Answers c 0 [] [.belfry] t ∧ t.belfry = { s.belfry with pending := some (code, step) }
      ∧ ((∃ l ∈ s.fabric.links, l.state ≠ 0) → ∃ b, t.out.beacons = s.out.beacons ++ [b] ∧ b.pending = code) := by
  let set : State := { s.running c 0x0102 with belfry := { s.belfry with pending := some (code, step) } }
  have hbody : State.romBody (asked c 0x0102) (s.running c 0x0102) = set.sendBeacon.complete c.mbx stOK [] :=
    (cmdSetCadence_fields hcode hpay _).trans (if_neg hgood)
  have hset : Frame [.belfry, .out] (s.running c 0x0102) set.sendBeacon :=
    Frame.trans (State.set_belfry_frame _ _) set.sendBeacon_frame (by simp) (by simp)
  have howes : set.sendBeacon.mem.owes c.mbx = false := (congrArg (Mem.owes · c.mbx) (hset .mem (by simp))).trans h.settled
  obtain ⟨hexec, hans⟩ := State.command_answers (i := .setCadence c) rfl h (by decide) (State.judge'_setCadence ho hpay) hbody
    (hset .mailboxes (by simp)) howes hset
  have hdel := (set.sendBeacon.writingFor s.mem.writer).deliver_frame c.mbx stOK []
  refine ⟨_, hexec, ⟨hans.holds, hans.others, hans.frame.weaken (by simp)⟩, ?_, fun hlink => ⟨set.beacon, ?_, rfl⟩⟩
  · exact hdel.belfry_eq.trans set.sendBeacon_frame.belfry_eq
  · rw [State.deliver_beacons]
    exact congrArg (·.out.beacons) (State.sendBeacon_sends (s := set) hlink)

end

/-! ### SET_POWER_CAP -/

section
variable {s : State} {c : Sub} {cap : Nat}

/-- SET_POWER_CAP by its field (R312, R371). -/
theorem cmdSetPowerCap_field (hcap : cap < 65536) (hpay : c.payload = toLe 2 cap ++ [0, 0]) (u : State) :
    ∃ eff, cmdSetPowerCap ⟨c.mbx, c.payload, c.env⟩ u =
      if cap < 80 ∨ 240 < cap ∨ u.fuses.ceiling < cap then u.complete c.mbx stBAD_PARAM [0, 0, 0, 0]
      else ({ u with belfry := { u.belfry with cap := cap } } : State).complete c.mbx stOK (toLe 2 eff ++ toLe 2 0) := by
  have hfield : fieldLe c.payload 0 2 = cap := by
    rw [hpay]
    exact fieldLe_toLe_append hcap
  have hzero : zeroAt c.payload 2 2 = true := by
    rw [hpay, zeroAt_append_skip (by simp)]
    rfl
  refine ⟨State.effCap { u with belfry := { u.belfry with cap := cap, capEff := cap } }, ?_⟩
  simp only [cmdSetPowerCap, hfield, hzero, not_true_eq_false, or_false]
  rfl

theorem State.judge'_setPowerCap (ho : s.Open) (hpay : c.payload = toLe 2 cap ++ [0, 0]) : (s.submitted c 0x0103).judge' (asked c 0x0103) = none :=
  State.judge'_setting ho (.inr (.inl ⟨rfl, by simp [hpay]⟩))

variable (h : s.Takes c) (ho : s.Open) (hcap : cap < 65536) (hpay : c.payload = toLe 2 cap ++ [0, 0])
include h ho hcap hpay

/-- A cap out of range, or above the fused ceiling, is BAD_PARAM (R312, R371). -/
theorem exec_setPowerCap_badParam (hbad : cap < 80 ∨ 240 < cap ∨ s.fuses.ceiling < cap) :
    ∃ t, exec (.setPowerCap c) s = .next t ∧ s.Answers c 0x0011 [0, 0, 0, 0] [] t := by
  obtain ⟨eff, hbody⟩ := cmdSetPowerCap_field hcap hpay (s.running c 0x0103)
  exact State.command_unchanged rfl h (by decide) (State.judge'_setPowerCap ho hpay) (hbody.trans (if_pos hbad))

theorem exec_setPowerCap_stores (hgood : ¬ (cap < 80 ∨ 240 < cap ∨ s.fuses.ceiling < cap)) :
    ∃ t d, exec (.setPowerCap c) s = .next t ∧ s.Answers c 0 d [.belfry] t ∧ t.belfry = { s.belfry with cap := cap } ∧ d.length = 4 := by
  obtain ⟨eff, hbody⟩ := cmdSetPowerCap_field hcap hpay (s.running c 0x0103)
  obtain ⟨hexec, hans⟩ := State.command_answers (i := .setPowerCap c) rfl h (by decide) (State.judge'_setPowerCap ho hpay) (hbody.trans (if_neg hgood))
    rfl h.settled (State.set_belfry_frame _ _)
  exact ⟨_, _, hexec, hans, State.deliver_frame _ c.mbx stOK _ .belfry (by simp), by simp⟩

end

/-! ### SCRUB_CTRL -/

/-- What an action of SCRUB_CTRL leaves of the memory block: another period, scrubbing stopped, or started (R289). -/
def Mem.scrubbed (m : Mem) (act hours : Nat) : Mem :=
  match act with
  | 0 => { m with scrubH := hours }
  | 1 => { m with scrubOn := false }
  | _ => { m with scrubOn := true }

theorem Mem.writer_scrubbed (m : Mem) (act hours n : Nat) :
    { Mem.scrubbed { m with writer := n } act hours with writer := m.writer } = m.scrubbed act hours := by
  unfold Mem.scrubbed
  split <;> rfl

theorem Mem.scrubStatus_scrubbed (m : Mem) (act hours n : Nat) :
    (Mem.scrubbed { m with writer := n } act hours).scrubStatus = (m.scrubbed act hours).scrubStatus := by
  unfold Mem.scrubbed
  split <;> rfl

theorem Mem.owes_scrubbed (m : Mem) (act hours n : Nat) : (m.scrubbed act hours).owes n = m.owes n := by
  unfold Mem.scrubbed
  split <;> rfl

section
variable {s : State} {c : Sub} {act hours : Nat}

/-- SCRUB_CTRL with an action that its hours fit (R289, R375). -/
theorem cmdScrubCtrl_fields (hpay : c.payload = toLe 1 act ++ [0] ++ toLe 2 hours) (hact : act ≤ 2) (hmax : hours ≤ 720)
    (hhours : act = 0 ∧ 1 ≤ hours ∨ act ≠ 0 ∧ hours = 0) (u : State) : cmdScrubCtrl ⟨c.mbx, c.payload, c.env⟩ u =
      ({ u with mem := u.mem.scrubbed act hours } : State).complete c.mbx stOK (toLe 4 (u.mem.scrubbed act hours).scrubStatus) := by
  have hfirst : fieldLe c.payload 0 1 = act := by
    rw [hpay, List.append_assoc]
    exact fieldLe_toLe_append (by omega)
  have hsecond : fieldLe c.payload 2 2 = hours := by
    rw [hpay, fieldLe_append_skip (by simp)]
    exact fieldLe_toLe (by omega)
  have hzero : zeroAt c.payload 1 1 = true := by
    rw [hpay, List.append_assoc, zeroAt_append_skip (by simp)]
    rfl
  simp only [cmdScrubCtrl, hfirst, hsecond, hzero]
  rw [if_neg (by simp; omega)]
  rfl

theorem exec_scrubCtrl (h : s.Takes c) (ho : s.Open) (hpay : c.payload = toLe 1 act ++ [0] ++ toLe 2 hours) (hact : act ≤ 2)
    (hmax : hours ≤ 720) (hhours : act = 0 ∧ 1 ≤ hours ∨ act ≠ 0 ∧ hours = 0) :
    ∃ t, exec (.scrubCtrl c) s = .next t ∧ s.Answers c 0 (toLe 4 (s.mem.scrubbed act hours).scrubStatus) [.mem] t
      ∧ t.mem = s.mem.scrubbed act hours := by
  have hj := State.judge'_setting ho (c := c) (op := 0x0303) (.inr (.inr (.inl ⟨rfl, by simp [hpay]⟩)))
  let set : State := { s.running c 0x0303 with mem := (s.running c 0x0303).mem.scrubbed act hours }
  have hbody : State.romBody (asked c 0x0303) (s.running c 0x0303)
      = set.complete c.mbx stOK (toLe 4 (s.mem.scrubbed act hours).scrubStatus) := by
    rw [← Mem.scrubStatus_scrubbed s.mem act hours c.mbx]
    exact cmdScrubCtrl_fields hpay hact hmax hhours (s.running c 0x0303)
  have howes : set.mem.owes c.mbx = false := (Mem.owes_scrubbed _ _ _ _).trans h.settled
  obtain ⟨hexec, hans⟩ := State.command_answers (i := .scrubCtrl c) rfl h (by decide) hj hbody rfl howes (State.set_mem_frame _ _)
  have hdel := (set.writingFor s.mem.writer).deliver_frame c.mbx stOK (toLe 4 (s.mem.scrubbed act hours).scrubStatus)
  exact ⟨_, hexec, hans, hdel.mem_eq.trans (Mem.writer_scrubbed s.mem act hours c.mbx)⟩

end

/-! ### CLEAR_DIVERGENCE -/

/-- The correction in force once the measured-only mode has ended (R319). -/
def Measure.cleared (m : Measure) : Measure :=
  if m.measOnly then { m with measOnly := false, cNum := 1, cDen := 1, divergent := 0 } else m

theorem State.clearDivergence_eq (s : State) : s.clearDivergence = { s with measure := s.measure.cleared } := by
  unfold State.clearDivergence Measure.cleared
  split <;> rfl

theorem exec_clearDivergence {s : State} {c : Sub} (h : s.Takes c) (ho : s.Open) (hpay : c.payload = []) :
    ∃ t, exec (.clearDivergence c) s = .next t ∧ s.Answers c 0 [] [.measure] t ∧ t.measure = s.measure.cleared := by
  have hj := State.judge'_setting ho (c := c) (op := 0x0402) (.inr (.inr (.inr ⟨rfl, by simp [hpay]⟩)))
  have hbody : State.romBody (asked c 0x0402) (s.running c 0x0402)
      = ({ s.running c 0x0402 with measure := s.measure.cleared } : State).complete c.mbx stOK [] :=
    congrArg (State.complete · c.mbx stOK []) (State.clearDivergence_eq _)
  obtain ⟨hexec, hans⟩ := State.command_answers (i := .clearDivergence c) rfl h (by decide) hj hbody rfl h.settled
    (State.set_measure_frame _ _)
  exact ⟨_, hexec, hans, State.deliver_frame _ c.mbx stOK _ .measure (by simp)⟩

/-- Settles O11: each command by what its payload names, a refusal without a change. -/
theorem settingsCommands : Obligations.SettingsCommands := by
  refine ⟨fun s c code step h ho hcode hpay => ?_, fun s c cap h ho hcap hpay => ⟨fun h80 h240 hceil => ?_, fun hbad => ?_⟩,
    fun s c h ho => ⟨fun act hours hpay => ⟨fun hact hmin hmax => ?_, fun hact hhours => ?_, fun hact hhours => ?_⟩,
      fun hpay => exec_clearDivergence h ho hpay⟩⟩
  · intro late
    have hlate : s.belfry.late step = true ↔ late := Belfry.late_iff
    refine ⟨fun hle hnot => exec_setCadence_pending h ho hcode hpay ?_, fun hbad => exec_setCadence_badParam h ho hcode hpay ?_⟩
    · rw [hlate, not_or]
      exact ⟨by omega, hnot⟩
    · rwa [hlate]
  · exact exec_setPowerCap_stores h ho hcap hpay (by omega)
  · exact exec_setPowerCap_badParam h ho hcap hpay hbad
  · subst hact
    exact exec_scrubCtrl h ho hpay (by decide) hmax (.inl ⟨rfl, hmin⟩)
  · subst hact hhours
    obtain ⟨t, hexec, hans, hmem⟩ := exec_scrubCtrl h ho hpay (by decide) (by decide) (.inr ⟨by decide, rfl⟩)
    have hstatus : (s.mem.scrubbed 1 0).scrubStatus = s.mem.passes.toNat * 65536 := Nat.zero_add _
    exact ⟨t, hexec, hstatus ▸ hans, hmem⟩
  · subst hact hhours
    exact exec_scrubCtrl h ho hpay (by decide) (by decide) (.inr ⟨by decide, rfl⟩)

end Sys2Proof.Machine
end

section
/-!
SUPPORT. The closing exchange: the records that leave, one by one, and what they leave of the step (R221, R269, R272).
-/
namespace Sys2Proof.Machine

open Sys2Proof

/-! ### Records that leave -/

/-- A step that has sent its record of a stage to a rank: one entry for the two, the last. -/
def Step.sentClosing (p : Step) (rank chunk : Nat) (fail : Bool) : Step :=
  { p with closed := (p.closed.filter fun x => !(x.1 == rank && x.2.1 == chunk)) ++ [(rank, chunk, fail)] }

/-- Need a record of a stage leave no more for a rank: it has left, and FAIL has not come to hold since (R227, R273)? -/
def Step.closingLeft (p : Step) (rank chunk : Nat) (fail : Bool) : Bool :=
  p.closed.any fun x => x.1 == rank && x.2.1 == chunk && (x.2.2 || !fail)

/-- One of the records that are due leaves. -/
def State.leaveClosing (i : Nat) (r : Run) (s : State) (q : Nat × Nat × ClosingRec) : State :=
  if r.st.closingLeft q.1 q.2.1 q.2.2.fail then s
  else match s.routeTo q.1 with
    | none => s
    | some way => (s.post q.1 way (s.message' r.st 3 5 0 (s.closingSeq r) q.2.1 q.2.2.fail q.2.2.bytes)).modStep i
        fun p => p.sentClosing q.1 q.2.1 q.2.2.fail

/-- A step but for the records that it has sent. -/
def Step.withoutClosed (p : Step) : Step := { p with closed := [] }

section
variable {s : State} {i : Nat} {r : Run}

theorem State.sendClosing_eq (hr : s.run i = some r) :
    s.sendClosing i = if s.closingReady r then (s.closingDue r).foldl (State.leaveClosing i r) s else s := by
  unfold State.sendClosing
  rw [hr]
  by_cases hready : s.closingReady r = true
  · simp only [hready, Bool.not_true, Bool.false_eq_true, if_false, if_true]
    rfl
  · simp only [hready, Bool.not_false, Bool.false_eq_true, if_false, if_true]

theorem State.leaveClosing_frame (s : State) (q : Nat × Nat × ClosingRec) : Frame [.steps, .fabric, .out] s (s.leaveClosing i r q) := by
  unfold State.leaveClosing
  split
  · exact Frame.refl _ _
  · split
    · exact Frame.refl _ _
    · exact Frame.trans (s.post_frame _ _ _) (State.modStep_frame _ i _) (by simp) (by simp)

theorem State.leaveClosing_agrees (s : State) (q : Nat × Nat × ClosingRec) : s.StepsAgree i Step.withoutClosed (s.leaveClosing i r q) := by
  unfold State.leaveClosing
  split
  · exact .refl i _ s
  · split
    · exact .refl i _ s
    · exact ((s.post_frame _ _ _).stepsAgree i _).trans (State.modStep_agrees _ fun _ => rfl)

variable (s i)

theorem State.sendClosing_frame : Frame [.steps, .fabric, .out] s (s.sendClosing i) := by
  rcases hr : s.run i with _ | r
  · simp only [State.sendClosing, hr]
    exact Frame.refl _ _
  · rw [State.sendClosing_eq hr]
    split
    · exact Frame.foldl (fun s q => s.leaveClosing_frame q) _ s
    · exact Frame.refl _ _

/-- Records that leave change nothing of a step but the entries of what has left. -/
theorem State.sendClosing_agrees : s.StepsAgree i Step.withoutClosed (s.sendClosing i) := by
  rcases hr : s.run i with _ | r
  · simp only [State.sendClosing, hr]
    exact .refl i _ s
  · rw [State.sendClosing_eq hr]
    split
    · exact State.foldl_agrees (fun s q => s.leaveClosing_agrees q) _ s
    · exact .refl i _ s

end

/-! ### A module that is not the owner on its board -/

/-- The message with the own record for the owner, as it leaves over a link (R269, R272). -/
def State.ownRecord (s : State) (r : Run) (dest : Nat) : Message :=
  { s.message' r.st 3 5 0 (s.closingSeq r) 0 (s.closingOwn r).fail (s.closingOwn r).bytes with dest := dest }

theorem State.bitOf_flags_ownRecord (s : State) (r : Run) (dest : Nat) : bitOf (s.ownRecord r dest).flags 0 = (s.closingOwn r).fail := by
  show bitOf (putBit (s.closingOwn r).fail 0 + putBit r.st.nonfin.isSome 1) 0 = _
  cases (s.closingOwn r).fail <;> cases r.st.nonfin.isSome <;> rfl

/-- To the owner alone it sends its record, over the link while that is in service (R269, R270). -/
theorem State.sendClosing_link {s : State} {i : Nat} {r : Run} {dest k : Nat} (hr : s.run i = some r) (hready : s.closingReady r = true)
    (hme : s.closingPath.me ≠ s.closingPath.owner) (hway : s.routeTo s.closingPath.owner = some (.link dest k))
    (hnot : r.st.closingLeft s.closingPath.owner 0 (s.closingOwn r).fail = false) :
    s.sendClosing i = ({ s with out := { s.out with sent := s.out.sent ++ [(.link dest k, s.ownRecord r dest)] } } : State).modStep i
      fun p => p.sentClosing s.closingPath.owner 0 (s.closingOwn r).fail := by
  have hdue : s.closingDue r = [(s.closingPath.owner, 0, s.closingOwn r)] := if_pos hme
  rw [State.sendClosing_eq hr, if_pos hready, hdue, List.foldl_cons, List.foldl_nil]
  simp only [State.leaveClosing, hnot, hway, Bool.false_eq_true, if_false]
  rfl

end Sys2Proof.Machine
end

section
/-!
O53. CLOSING of a peer, and COLL_TIMEOUT of the closing exchange (R269, R270, R272, R273, Table 10.6).
-/
namespace Sys2Proof.Machine

open Sys2Proof

/-! ### A record of a peer -/

/-- A step with a record of a rank and stage, in the place of an earlier one of the two. -/
def Step.withClosing (p : Step) (rank chunk : Nat) (c : ClosingRec) : Step :=
  { p with closing := (p.closing.filter fun q => !(q.1 == rank && q.2.1 == chunk)) ++ [(rank, chunk, c)] }

/-- Does a record that has come stand against a later one of its rank and stage (R272)? -/
def Step.closingStands (p : Step) (rank chunk : Nat) (fail : Bool) : Bool :=
  p.closing.any fun q => q.1 == rank && q.2.1 == chunk && (q.2.2.fail || !fail)

section
variable {s : State} {i : Nat} {r : Run} {rank chunk : Nat} {c : ClosingRec}

/-- Records of other ranks and stages stand beside the one that enters. -/
theorem filter_closing_others {l : List (Nat × Nat × ClosingRec)} (h : ∀ q ∈ l, ¬ (q.1 = rank ∧ q.2.1 = chunk)) :
    l.filter (fun q => !(q.1 == rank && q.2.1 == chunk)) = l := by
  rw [List.filter_eq_self]
  intro q hq
  simpa using Decidable.not_and_iff_or_not.mp (h q hq)

theorem Step.withClosing_first {p : Step} (h : ∀ q ∈ p.closing, ¬ (q.1 = rank ∧ q.2.1 = chunk)) :
    (p.withClosing rank chunk c).closing = p.closing ++ [(rank, chunk, c)] :=
  congrArg (· ++ [(rank, chunk, c)]) (filter_closing_others h)

theorem Step.withClosing_again {p : Step} {l : List (Nat × Nat × ClosingRec)} {old : ClosingRec} (hp : p.closing = l ++ [(rank, chunk, old)])
    (h : ∀ q ∈ l, ¬ (q.1 = rank ∧ q.2.1 = chunk)) : (p.withClosing rank chunk c).closing = l ++ [(rank, chunk, c)] := by
  simp only [Step.withClosing, hp, List.filter_append, filter_closing_others h]
  simp

theorem Step.closingStands_none {p : Step} {fail : Bool} (h : ∀ q ∈ p.closing, ¬ (q.1 = rank ∧ q.2.1 = chunk)) :
    p.closingStands rank chunk fail = false := by
  refine List.any_eq_false.mpr fun q hq => ?_
  have hother := h q hq
  simp only [Bool.and_eq_true, beq_iff_eq]
  tauto

theorem Step.closingStands_last {p : Step} {fail : Bool} {l : List (Nat × Nat × ClosingRec)} {old : ClosingRec}
    (hp : p.closing = l ++ [(rank, chunk, old)]) (h : ∀ q ∈ l, ¬ (q.1 = rank ∧ q.2.1 = chunk)) :
    p.closingStands rank chunk fail = (old.fail || !fail) := by
  have hl : (l.any fun q => q.1 == rank && q.2.1 == chunk && (q.2.2.fail || !fail)) = false := Step.closingStands_none (p := { p with closing := l }) h
  simp [Step.closingStands, hp, List.any_append, hl]

/-- The state that a record has entered: of another VERSION or number of layers it fails the step (R272). -/
def State.enterClosing (s : State) (i : Nat) (r : Run) (rank chunk : Nat) (c : ClosingRec) : State :=
  let t := s.modStep i fun p => p.withClosing rank chunk c
  if c.version = 0x0100 ∧ c.nLayers = r.p.nLayers then t else t.failStep i stBAD_PARAM

variable (hr : s.run i = some r)
include hr

theorem State.takeClosing_stands (h : r.st.closingStands rank chunk c.fail = true) : s.takeClosing i rank chunk c = s := by
  simp only [State.takeClosing, hr]
  exact if_pos (Bool.or_eq_true_iff.mpr (.inr h))

variable (hdec : r.st.decided = none)
include hdec

theorem State.takeClosing_enters (hpeer : rank ∈ s.peers) (h : r.st.closingStands rank chunk c.fail = false) :
    s.takeClosing i rank chunk c = (s.enterClosing i r rank chunk c).sendClosing i := by
  have hstands : (r.st.closing.any fun q => q.1 == rank && q.2.1 == chunk && (q.2.2.fail || !c.fail)) = false := h
  simp only [State.takeClosing, hr]
  rw [if_neg (by simp only [hdec, List.contains_iff_mem.mpr hpeer, hstands]; decide)]
  refine congrArg (State.sendClosing · i) ?_
  unfold State.enterClosing
  by_cases hform : c.version = 0x0100 ∧ c.nLayers = r.p.nLayers
  · rw [if_neg (by tauto), if_pos hform]
    rfl
  · rw [if_pos (by tauto), if_neg hform]
    rfl

theorem State.enterClosing_step (hrun : r.st.ended = .running) : ∃ p, (s.enterClosing i r rank chunk c).steps[i]? = some p
    ∧ p.closing = (r.st.withClosing rank chunk c).closing
    ∧ (if c.version = 0x0100 ∧ c.nLayers = r.p.nLayers then p.ended = .running ∧ Frame [.steps] s (s.enterClosing i r rank chunk c)
      else p.ended = .failed 0x0011 ∧ Frame [.steps, .towers] s (s.enterClosing i r rank chunk c)) := by
  obtain ⟨hst, -, -⟩ := State.run_eq_some.mp hr
  have hstep := State.steps_modStep_getElem?_same (fun p => p.withClosing rank chunk c) hst
  have hframe := s.modStep_frame i fun p => p.withClosing rank chunk c
  unfold State.enterClosing
  by_cases hform : c.version = 0x0100 ∧ c.nLayers = r.p.nLayers
  · simp only [if_pos hform]
    exact ⟨_, hstep, rfl, hrun, hframe⟩
  · simp only [if_neg hform]
    exact ⟨_, State.failStep_steps stBAD_PARAM hstep hdec hrun, rfl, rfl,
      Frame.trans hframe (State.failStep_frame _ i _) (by simp) (by simp)⟩

end

/-! ### The timeout -/

/-- A step that has timed out of the closing exchange, and whom it has not heard of (R273). -/
def Step.timedOutOf (p : Step) (silent : List Nat) : Step := { p with timedOut := true, silent := p.silent ++ silent }

/-- COLL_TIMEOUT of the closing exchange before the step has left it again (R273). -/
def State.closingTimedOut (s : State) (i : Nat) (r : Run) (silent : List Nat) : State :=
  ((s.sendClosing i).timeoutEvent r.st (s.closingSeq r) 5 0 (silent.headD 0)).modStep i fun p => p.timedOutOf silent

theorem State.lateIdx_of_closingReady {s : State} {r : Run} (h : s.closingReady r = true) : s.lateIdx = none := by
  simp only [State.closingReady, Bool.and_eq_true, Option.isNone_iff_eq_none] at h
  exact h.1.1

section
variable {s : State} {i : Nat} {r : Run} (silent : List Nat)

theorem State.closingTimedOut_frame : Frame [.steps, .evt, .fabric, .out] s (s.closingTimedOut i r silent) := by
  have hevent := (s.sendClosing i).event_frame r.st.src 0x0404 [(4, s.closingSeq r), (1, 5), (2, 0), (4, silent.headD 0)]
  have hsent := Frame.trans (k := [.steps, .evt, .fabric, .out]) (s.sendClosing_frame i) hevent (by simp) (by simp)
  exact Frame.trans hsent (State.modStep_frame _ i _) (by simp) (by simp)

/-- The record leaves before the event, and neither touches the step but for the entries of what has left. -/
theorem State.timeoutEvent_agrees : s.StepsAgree i Step.withoutClosed
    ((s.sendClosing i).timeoutEvent r.st (s.closingSeq r) 5 0 (silent.headD 0)) :=
  (s.sendClosing_agrees i).trans ((State.event_frame _ _ _ _).stepsAgree i _)

/-- No step comes past its decision with the timeout. -/
theorem State.lateIdx_closingTimedOut : (s.closingTimedOut i r silent).lateIdx = s.lateIdx :=
  State.StepsAgree.findIdx?_eq (((State.timeoutEvent_agrees silent).map fun p : Step => p.decided.isSome).trans
    (State.modStep_agrees _ fun _ => rfl))

theorem State.lateIdx_sendClosing (s : State) (i : Nat) : (s.sendClosing i).lateIdx = s.lateIdx :=
  State.StepsAgree.findIdx?_eq ((s.sendClosing_agrees i).map fun p : Step => p.decided.isSome)

/-- The event is COLL_TIMEOUT's alone (Table 10.9). -/
theorem State.ring_closingTimedOut (hen : s.evt.en = true) (hb : s.power.berylStop = false) :
    ((s.closingTimedOut i r silent).sendClosing i).evt.ring.length = s.evt.ring.length + 1 := by
  have hsent := s.sendClosing_frame i
  have hevent := (s.sendClosing i).event_en r.st.src 0x0404 [(4, s.closingSeq r), (1, 5), (2, 0), (4, silent.headD 0)]
    (by rw [hsent.power_eq, hb]) (by rw [hsent.evt_eq, hen])
  rw [((s.closingTimedOut i r silent).sendClosing_frame i).evt_eq]
  show ((s.sendClosing i).event _ _ _).evt.ring.length = _
  rw [hevent, ← hsent.evt_eq]
  simp

variable (hr : s.run i = some r)
include hr

theorem State.closingTimedOut_step : ∃ p : Step, (s.closingTimedOut i r silent).steps[i]? = some (p.timedOutOf silent)
    ∧ p.withoutClosed = r.st.withoutClosed := by
  obtain ⟨hst, -, -⟩ := State.run_eq_some.mp hr
  obtain ⟨p, hp, hsame⟩ := (State.timeoutEvent_agrees (r := r) silent).get hst
  exact ⟨p, State.steps_modStep_getElem?_same _ hp, hsame⟩

/-- After the timeout and what leaves on it the step has timed out, with the silent ranks (R273). -/
theorem State.sendClosing_timedOut : ∃ p, ((s.closingTimedOut i r silent).sendClosing i).steps[i]? = some p ∧ p.timedOut = true
    ∧ p.silent = r.st.silent ++ silent := by
  obtain ⟨p, hp, hsame⟩ := State.closingTimedOut_step silent hr
  obtain ⟨p2, hp2, hsame2⟩ := ((s.closingTimedOut i r silent).sendClosing_agrees i).get hp
  have hearlier := congrArg Step.silent hsame
  exact ⟨p2, hp2, congrArg Step.timedOut hsame2, (congrArg Step.silent hsame2).trans (congrArg (· ++ silent) hearlier)⟩

variable (hready : s.closingReady r = true)
include hready

/-- COLL_TIMEOUT of the closing exchange while ranks are silent (R273). -/
theorem State.collTimeout_closing {q : Nat} {qs : List Nat} (htimed : r.st.timedOut = false) (hresult : s.closingResult r = none)
    (hsilent : s.closingSilent r = q :: qs) :
    s.collTimeout i (s.closingSeq r) = (s.closingTimedOut i r (q :: qs)).sendClosing i := by
  simp only [State.collTimeout, hr, if_true]
  rw [if_neg (by simp [hready, htimed, hresult]), hsilent]
  rfl

theorem exec_collTimeout_closing (hpow : s.power.powered = true) (hi : s.earlyIdx = some i) {q : Nat} {qs : List Nat}
    (htimed : r.st.timedOut = false) (hresult : s.closingResult r = none) (hsilent : s.closingSilent r = q :: qs) :
    exec (.collTimeout (s.closingSeq r)) s = .next ((s.closingTimedOut i r (q :: qs)).sendClosing i) := by
  refine congrArg Host.Outcome.next ((State.whenOn_powered hpow _).trans ?_)
  have hlate : ((s.closingTimedOut i r (q :: qs)).sendClosing i).lateIdx = none := by
    rw [State.lateIdx_sendClosing, State.lateIdx_closingTimedOut]
    exact State.lateIdx_of_closingReady hready
  simp only [State.timeout, hi, State.collTimeout_closing hr hready htimed hresult hsilent, hlate]

end

/-! ### The record leaves twice -/

section
variable {s t : State} {i : Nat} {r : Run}

/-- The path of the closing exchange and the routes hang on the fabric alone. -/
theorem Frame.closingPath_eq {l : List Component} (h : Frame l s t) (hl : Component.fabric ∉ l := by simp) : t.closingPath = s.closingPath := by
  have hfabric : t.fabric = s.fabric := h .fabric hl
  rw [State.closingPath, hfabric, State.closingPath]

theorem Frame.routeTo_eq {l : List Component} (h : Frame l s t) (rank : Nat) (hl : Component.fabric ∉ l := by simp) :
    t.routeTo rank = s.routeTo rank := by
  have hfabric : t.fabric = s.fabric := h .fabric hl
  unfold State.routeTo State.link
  rw [hfabric]

/-- The own record of a step that runs on has no FAIL. -/
theorem State.closingOwn_running (hrun : r.st.ended = .running) (htimed : r.st.timedOut = false) : (s.closingOwn r).fail = false := by
  simp [State.closingOwn, State.ownClosing, htimed, hrun]

/-- That of a step that has timed out has FAIL set (R273). -/
theorem State.closingOwn_timedOut (htimed : r.st.timedOut = true) : (s.closingOwn r).fail = true := by
  simp [State.closingOwn, htimed]

variable {dest k : Nat} (hr : s.run i = some r) (hready : s.closingReady r = true) (hme : s.closingPath.me ≠ s.closingPath.owner)
  (hclosed : r.st.closed = []) (hway : s.routeTo s.closingPath.owner = some (.link dest k))
include hr hready hme hclosed hway

theorem State.sendClosing_link_first : s.sendClosing i
    = ({ s with out := { s.out with sent := s.out.sent ++ [(.link dest k, s.ownRecord r dest)] } } : State).modStep i
      fun p => p.sentClosing s.closingPath.owner 0 (s.closingOwn r).fail :=
  State.sendClosing_link hr hready hme hway (by simp [Step.closingLeft, hclosed])

/-- Over a link in service the record of a step that runs on leaves without FAIL, and after the timeout once more with it (R273). -/
theorem State.out_closingTimedOut (hrun : r.st.ended = .running) (htimed : r.st.timedOut = false) (silent : List Nat) :
    ∃ x y, ((s.closingTimedOut i r silent).sendClosing i).out
        = { s.out with sent := s.out.sent ++ [(.link dest k, x), (.link dest k, y)] }
      ∧ bitOf x.flags 0 = false ∧ bitOf y.flags 0 = true := by
  have hown := State.closingOwn_running (s := s) hrun htimed
  have hfirst := State.sendClosing_link_first hr hready hme hclosed hway
  rw [hown] at hfirst
  let sent : State := { s with out := { s.out with sent := s.out.sent ++ [(.link dest k, s.ownRecord r dest)] } }
  have hsent : Frame [.out] s sent := s.set_out_frame _
  have hevent := (s.sendClosing i).event_frame r.st.src 0x0404 [(4, s.closingSeq r), (1, 5), (2, 0), (4, silent.headD 0)]
  let t := s.closingTimedOut i r silent
  let late : Run := { r with st := (r.st.sentClosing s.closingPath.owner 0 false).timedOutOf silent }
  have hlate : t.run i = some late := by
    have hleft : (s.sendClosing i).run i = some { r with st := r.st.sentClosing s.closingPath.owner 0 false } := by
      rw [hfirst]
      exact State.run_modStep ((hsent.run_eq i).trans hr) rfl
    exact State.run_modStep ((hevent.run_eq i).trans hleft) rfl
  have hsame : Frame [.steps, .evt, .out] s t := by
    have hleft : Frame [.steps, .out] s (s.sendClosing i) := by
      rw [hfirst]
      exact Frame.trans hsent (State.modStep_frame _ i _) (by simp) (by simp)
    exact Frame.trans (k := [.steps, .evt, .out]) (Frame.trans (k := [.steps, .evt, .out]) hleft hevent (by simp) (by simp))
      (State.modStep_frame _ i _) (by simp) (by simp)
  have hout : t.out = sent.out := by
    have hev : t.out = (s.sendClosing i).out := hevent .out (by simp)
    rw [hev, hfirst]
    rfl
  have hpath := hsame.closingPath_eq
  have hagain : t.closingReady late = true := by
    have hnone : t.lateIdx = s.lateIdx := State.lateIdx_closingTimedOut silent
    rw [State.closingReady, hnone]
    exact hready
  have hfail : (t.closingOwn late).fail = true := State.closingOwn_timedOut rfl
  have hnot : late.st.closingLeft t.closingPath.owner 0 (t.closingOwn late).fail = false := by
    rw [hfail, hpath]
    simp [late, Step.closingLeft, Step.timedOutOf, Step.sentClosing, hclosed]
  have hsecond := State.sendClosing_link hlate hagain (by rw [hpath]; exact hme) (by rw [hpath, hsame.routeTo_eq]; exact hway) hnot
  refine ⟨s.ownRecord r dest, t.ownRecord late dest, ?_, (State.bitOf_flags_ownRecord _ _ _).trans hown,
    (State.bitOf_flags_ownRecord _ _ _).trans hfail⟩
  rw [show (s.closingTimedOut i r silent).sendClosing i = _ from hsecond, State.modStep_out, hout]
  simp [sent]

end

/-! ### The obligation -/

/-- Settles O53: a record by whether an earlier one stands against it, the path by the one record that is due off the owner, the timeout by the
two records that leave around it. -/
theorem closingExchange : Obligations.ClosingExchange := by
  intro s i r hpow hr hdec hrun path
  refine ⟨?_, fun dest k hready hme hclosed hway => ?_,
    fun q qs hen hb hi hready htimed hresult hsilent => ?_⟩
  · intro m c hk hd hn hpeer enters
    have hexec : exec (.closing m c) s = .next (s.takeClosing i m.srcRank m.chunk c) :=
      (exec_closing_mine hpow hd hk c).trans (congrArg Host.Outcome.next (State.accept_named hn _))
    have henters (hstands : r.st.closingStands m.srcRank m.chunk c.fail = false) : enters (r.st.withClosing m.srcRank m.chunk c).closing := by
      obtain ⟨p, hp, hclosing, hended⟩ := State.enterClosing_step (c := c) (rank := m.srcRank) (chunk := m.chunk) hr hdec hrun
      exact ⟨_, p, hexec.trans (congrArg Host.Outcome.next (State.takeClosing_enters hr hdec hpeer hstands)), hp, hclosing, hended⟩
    refine ⟨fun hfirst => ?_, fun old l hold hl => ⟨fun hno hfail => ?_, fun hstands => ?_⟩⟩
    · rw [← Step.withClosing_first hfirst]
      exact henters (Step.closingStands_none hfirst)
    · rw [← Step.withClosing_again hold hl]
      exact henters (by rw [Step.closingStands_last hold hl, hno, hfail]; rfl)
    · rw [hexec, State.takeClosing_stands hr]
      rw [Step.closingStands_last hold hl]
      simpa using hstands
  · have hsend := State.sendClosing_link_first hr hready hme hclosed hway
    refine ⟨s.ownRecord r dest, by rw [hsend]; rfl, ?_, rfl, rfl, rfl, msgSound_message' _ _ _ _ _ _ _ _ _ _⟩
    rw [hsend]
    exact Frame.trans (s.set_out_frame _) (State.modStep_frame _ i _) (by simp) (by simp)
  · obtain ⟨p, hp, htimedOut, hsilentOf⟩ := State.sendClosing_timedOut (q :: qs) hr
    refine ⟨_, p, exec_collTimeout_closing hr hready hpow hi htimed hresult hsilent, ?_, hp, htimedOut, hsilentOf,
      State.ring_closingTimedOut _ hen hb, fun dest k hme hclosed hway => ?_⟩
    · exact Frame.trans (State.closingTimedOut_frame _) (State.sendClosing_frame _ i) (fun _ h => h) (by simp)
    · exact State.out_closingTimedOut hr hready hme hclosed hway hrun htimed (q :: qs)

end Sys2Proof.Machine
end

section
/-!
SUPPORT. One step of the block: every command, and the idle step, answers a next state that leaves the queue's rest, only adds to the fuse
ledger and keeps the invariant (`State.Kept`).
-/
namespace Sys2Proof.Machine

open Sys2Proof

/-- An outcome is a next state that keeps what `State.Kept` asks. -/
def State.NextKept (s : State) (o : Out') : Prop := ∃ t, o = .next t ∧ s.Kept t

section
variable {s s0 : State} {f : State → State}

theorem State.Kept.next (h : s0.Kept s) : s0.NextKept (.next s) := ⟨s, rfl, h⟩

theorem State.nextKept_whenOn (hf : ∀ t, s.Kept t → s.Kept (f t)) : s.NextKept (.next (s.whenOn f)) :=
  (State.whenOn_kept hf (.refl s)).next

theorem State.nextKept_whenIo (hf : ∀ t, s.Kept t → s.Kept (f t)) : s.NextKept (.next (s.whenIo f)) :=
  (State.whenIo_kept hf (.refl s)).next

theorem State.nextKept_onRunning {g : State → Nat → State} (hg : ∀ t i, s.Kept t → s.Kept (g t i)) :
    s.NextKept (.next (s.whenOn fun t => t.onRunning g)) :=
  State.nextKept_whenOn fun _ h => State.onRunning_kept hg h

/-- What acts only under a condition keeps the invariant where it acts. -/
theorem State.Kept.guarded {p : Prop} [Decidable p] {t : State} (h : s0.Kept s) (ht : s0.Kept s → s0.Kept t) :
    s0.Kept (if p then t else s) :=
  State.Kept.ite (ht h) h

/-- The invariant asks nothing of these parts. -/
theorem State.Kept.free (h : s0.Kept s) (pw : Power) (ke : Keep) (be : Belfry) (ou : Out) :
    s0.Kept { s with power := pw, keep := ke, belfry := be, out := ou } :=
  State.Kept.upd h (MbxKept.refl _) rfl rfl (MemKept.refl _) rfl rfl

theorem State.lostBy_cutWrites_kept (c : LossBy) (h : s0.Kept s) : s0.Kept (s.cutWrites.lostBy c) :=
  State.lostBy_kept (State.cutWrites_kept h)

end

/-! ### Commands that choose between several acts -/

section
variable (s : State)

theorem execExtensionTimeout_kept : s.NextKept (execExtensionTimeout s) := by
  refine State.nextKept_whenOn fun t h => ?_
  cases t.ext.inFlight with
  | none => exact h
  | some n => exact State.endExt_kept h

theorem execForbiddenRegisterAccess_kept (a : Access) (w : Option WData) : s.NextKept (execForbiddenRegisterAccess a w s) := by
  refine State.nextKept_whenIo fun t h => ?_
  cases w with
  | none => exact State.readAccess_kept h
  | some v => exact State.registerWrite_kept h

theorem execUnorderedIoWrite_kept (a : Nat) (bs : List Byte) : s.NextKept (execUnorderedIoWrite a bs s) :=
  State.Kept.next (.ite (.refl s) (.ite (State.reply_kept (.refl s)) (State.writeIo_kept (.refl s))))

theorem execConventionalReset_kept (perst : Bool) : s.NextKept (execConventionalReset perst s) :=
  State.Kept.next (.ite (State.lostBy_cutWrites_kept _ (.refl s)) (State.Kept.free (.refl s) _ s.keep s.belfry s.out))

theorem execPerstDeassertion_kept : s.NextKept (execPerstDeassertion s) :=
  State.Kept.next (.ite (.ite (State.restart_kept (.refl s)) (State.Kept.free (.refl s) _ s.keep s.belfry s.out)) (.refl s))

theorem execTamper_kept (l : List Nat) : s.NextKept (execTamper l s) := by
  have hmark : s.Kept (s.tamperMark l) := State.tamperMark_kept (.refl s)
  have hended : s.Kept (s.tamperMark l).endBegun := State.endBegun_kept hmark
  exact State.Kept.next (.ite hmark (.ite (State.wipeKeep_kept hended) hended))

theorem execTamperInputInactive_kept (i : Nat) : s.NextKept (execTamperInputInactive i s) :=
  State.Kept.next (.ite (.refl s) (State.Kept.free (.refl s) s.power _ s.belfry s.out))

theorem execLinkDegraded_kept (l n : Nat) : s.NextKept (execLinkDegraded l n s) :=
  State.nextKept_whenOn fun _ h => .ite h (State.event_kept (State.reroute_kept (State.modLink_kept h)))

theorem execFreshBeaconWaitExpiry_kept : s.NextKept (execFreshBeaconWaitExpiry s) := by
  refine State.nextKept_whenOn fun t h => ?_
  cases t.barrierIdx with
  | none => exact h
  | some i => exact State.cadenceCheck_kept (State.modStep_kept h)

theorem execClosing_kept (m : Message) (c : ClosingRec) : s.NextKept (execClosing m c s) :=
  State.nextKept_whenOn fun _ h =>
    .ite (State.relayOn_kept h) (.ite (State.accept_kept (fun _ _ h => State.takeClosing_kept h) h) h)

theorem execBackgroundWindow_kept : s.NextKept (execBackgroundWindow s) :=
  State.nextKept_whenOn fun _ h => State.drainTelemetry_kept
    (State.Kept.upd h (MbxKept.refl _) rfl rfl ⟨id, id, rfl, List.length_map ..⟩ rfl rfl)

theorem execBucketLeak_kept : s.NextKept (execBucketLeak s) :=
  State.nextKept_whenOn fun _ h =>
    .ite h (State.Kept.upd h (MbxKept.refl _) rfl rfl ⟨id, leak_wf, rfl, rfl⟩ rfl rfl)

theorem execMsixEnable_kept (en fm : Bool) : s.NextKept (execMsixEnable en fm s) :=
  State.nextKept_whenIo fun _ h => State.flushAll_kept (State.Kept.upd h (MbxKept.refl _) rfl rfl (MemKept.refl _) rfl rfl)

end

/-! ### Every command -/

theorem exec_kept (i : Instr) (s : State) : s.NextKept (exec i s) := by
  have h : s.Kept s := .refl s
  cases i with
  | identify | getCaps | readLog | setTopology | setCadence | setPowerCap | loadPlan | loadCoeff | loadTrackers | saveTrackers | placeHint
  | loadProgram | runStep | setStepSize | abortStep | retirePage | retireBank | scrubCtrl | marchTest | belfryStatus | clearDivergence
  | attest | lifecycleAdvance | fuseLedger | loadExtension | extensionCommand | resetUnit | unitStatus => exact (State.command_kept h).next
  | extensionTimeout => exact execExtensionTimeout_kept s
  | mailboxWriteWhileOwned => exact State.nextKept_whenIo fun _ h => h.guarded State.hostStore_kept
  | registerWrite | reservedAddressWrite => exact State.nextKept_whenIo fun _ => State.registerWrite_kept
  | counterLowRead | reservedAddressRead => exact State.nextKept_whenIo fun _ => State.readAccess_kept
  | jspOutstPeakRead => exact State.nextKept_whenIo fun _ => State.peakRead_kept
  | forbiddenRegisterAccess a w => exact execForbiddenRegisterAccess_kept s a w
  | twrUtilCtrlFreeze | twrUtilCtrlClear | jspCtrlFreeze | jspCtrlClear | eccDieErase | eccBucketCfg | evtCtrlEn | evtTail
  | keepTamperClear => exact (State.hostStoreAt_kept h).next
  | msixUnmask => exact State.nextKept_whenIo fun _ h => h.guarded State.hostStore_kept
  | msixEnable en fm => exact execMsixEnable_kept s en fm
  | smbusWriteWord => exact State.nextKept_whenOn fun _ => State.smbus_kept
  | smbusAlertResponse => exact State.nextKept_whenOn fun _ h => .ite (State.answer_kept h) (State.answer_kept h)
  | hostMemRead => exact (h.guarded State.hostRead_kept).next
  | hostMemWrite => exact (h.guarded State.hostWrite_kept).next
  | unorderedIoWrite a bs => exact execUnorderedIoWrite_kept s a bs
  | backInvalidationResponse => exact (h.guarded State.backInvalidated_kept).next
  | spdmRequest => exact State.nextKept_whenOn fun _ h => h.guarded State.spdm_kept
  | keyExchange => exact State.nextKept_whenOn fun _ h => h.guarded State.keyExchange_kept
  | ideKm => exact State.nextKept_whenOn fun _ h => h.guarded State.ideKm_kept
  | ideDisable => exact State.nextKept_whenOn fun t h => h.free t.power _ t.belfry _
  | cdatRead => exact State.nextKept_whenOn fun _ h => h.guarded State.answer_kept
  | powerGood => exact (h.guarded State.restart_kept).next
  | startupPhaseEnd => exact State.nextKept_whenOn fun _ h => .ite h (State.phaseEnd_kept h)
  | powerLoss => exact (State.lostBy_cutWrites_kept _ h).next
  | overVoltage | thermalTrip => exact State.nextKept_whenOn fun _ => State.lostBy_cutWrites_kept _
  | conventionalReset perst => exact execConventionalReset_kept s perst
  | perstDeassertion => exact execPerstDeassertion_kept s
  | functionLevelReset => exact State.nextKept_whenIo fun _ => State.flr_kept
  | supplyWarn => exact State.nextKept_whenOn fun _ => State.supplyWarn_kept
  | supplyResume => exact State.nextKept_whenOn fun _ => State.supplyResume_kept
  | thermalSample => exact State.nextKept_whenOn fun _ => State.thermalSample_kept
  | thermalCapStep => exact State.nextKept_whenOn fun _ => State.thermalCapStep_kept
  | towerActivityReport => exact State.nextKept_whenOn fun _ => State.activityReport_kept
  | fastLoopPeriod => exact State.nextKept_whenOn fun _ => State.fastLoop_kept
  | slowLoopPeriod => exact State.nextKept_whenOn fun _ => State.slowLoop_kept
  | powerMeasurementSample => exact State.nextKept_whenOn fun _ => State.powerSample_kept
  | regulatorSettled => exact State.nextKept_whenOn fun t h => h.free t.power t.keep _ t.out
  | droopDetect | droopWindowEnd | stealTimeout | routerFault => exact State.nextKept_whenOn fun _ => State.modTower_kept
  | droopCalibration => exact State.nextKept_whenOn fun _ => State.calibrateDroop_kept
  | ageingMonitorRead => exact State.nextKept_whenOn fun _ => State.ageingRead_kept
  | cadenceHold => exact State.nextKept_whenOn fun _ => State.holdRow_kept
  | holdClear => exact State.nextKept_whenOn fun _ => State.holdClearRow_kept
  | beaconSend => exact State.nextKept_whenOn fun _ => State.sendBeacon_kept
  | beaconReceive => exact State.nextKept_whenOn fun _ => State.takeBeacon_kept
  | freshBeaconWaitExpiry => exact execFreshBeaconWaitExpiry_kept s
  | linkDegraded l n => exact execLinkDegraded_kept s l n
  | linkDown => exact State.nextKept_whenOn fun _ => State.linkDown_kept
  | linkRetrain => exact State.nextKept_whenOn fun _ h => .ite h (State.linkUpFull_kept h)
  | controlRingMessage => exact State.nextKept_whenOn fun _ => State.ringMessage_kept
  | meshTransaction => exact State.nextKept_whenOn fun _ => State.meshTransaction_kept
  | towerFault => exact State.nextKept_whenOn fun _ => State.towerFault_kept
  | stepBarrier => exact State.nextKept_whenOn fun _ => State.stepBarrier_kept
  | stepBarrierTimeout => exact State.nextKept_whenOn fun _ => State.barrierTimeout_kept
  | workItemStart => exact State.nextKept_whenOn fun _ => State.workStart_kept
  | workItemRetire => exact State.nextKept_whenOn fun _ => State.workRetire_kept
  | stealRequest => exact State.nextKept_whenOn fun _ => State.stealRequest_kept
  | stealReply => exact State.nextKept_whenOn fun _ => State.stealReply_kept
  | jasperResponse => exact State.nextKept_whenOn fun _ => State.jasperResponse_kept
  | farEndGather => exact State.nextKept_whenOn fun _ => State.farEnd_kept
  | writeAck => exact State.nextKept_whenOn fun _ => State.writeAck_kept
  | layerStop => exact State.nextKept_onRunning fun _ _ => State.layerStop_kept
  | layerRestart => exact State.nextKept_onRunning fun _ _ => State.layerRestart_kept
  | layerOperationComplete => exact State.nextKept_onRunning fun _ _ => State.opComplete_kept
  | lossComplete => exact State.nextKept_onRunning fun _ _ => State.lossComplete_kept
  | microBatchRetire => exact State.nextKept_onRunning fun _ _ => State.microBatchRetire_kept
  | campanileData => exact State.nextKept_whenOn fun _ h => .ite (State.campanileData_kept h) (State.relayOn_kept h)
  | doorbell => exact State.nextKept_whenOn fun _ => State.doorbell_kept
  | credit => exact State.nextKept_whenOn fun _ h => h.guarded (State.accept_kept fun _ _ => State.credit_kept)
  | closing m c => exact execClosing_kept s m c
  | fabricWriteCompletion => exact State.nextKept_whenOn fun _ => State.fabricWrite_kept
  | collTimeout => exact State.nextKept_whenOn fun _ => State.timeout_kept
  | check => exact State.nextKept_whenOn fun _ => State.check_kept
  | update => exact State.nextKept_whenOn fun _ => State.beginUpdate_kept
  | updatePass => exact State.nextKept_whenOn fun _ => State.updatePass_kept
  | layerCommit => exact State.nextKept_whenOn fun _ => State.layerCommit_kept
  | commit => exact State.nextKept_whenOn fun _ => State.commit_kept
  | eventPublish => exact State.nextKept_whenOn fun _ h => h.guarded State.publish_kept
  | writeBack => exact State.nextKept_whenOn fun _ => State.writeBack_kept
  | patrolScrub => exact State.nextKept_whenOn fun _ => State.patrolScrub_kept
  | backgroundWindow => exact execBackgroundWindow_kept s
  | bucketLeak => exact execBucketLeak_kept s
  | sramScrub => exact State.nextKept_whenOn fun _ => State.sramScrub_kept
  | tamper l => exact execTamper_kept s l
  | tamperInputInactive i => exact execTamperInputInactive_kept s i
  | cxlLinkUp => exact State.nextKept_whenOn fun _ => State.portUp_kept
  | hdmDecoderProgram => exact (State.Kept.ite (h.free _ s.keep s.belfry s.out) h).next

/-! ### The step -/

/-- A step takes from the queue the command that it runs, if there is one, and keeps the rest of what `State.Kept` asks. -/
theorem step_kept (s : State) : ({ s with pending := s.pending.tail } : State).NextKept (step s) := by
  cases hp : s.pending with
  | nil =>
    rw [show step s = .next s.onIdle by rw [step, hp], List.tail_nil, ← hp]
    exact (State.onIdle_kept (.refl s)).next
  | cons c rest =>
    rw [show step s = exec c { s with pending := rest } by rw [step, hp]]
    exact exec_kept c _

/-- Settles O3: what every step keeps (`step_kept`) holds the invariant, which says nothing of the queue. -/
theorem everyStepKeepsTheInvariant : Obligations.EveryStepKeepsTheInvariant := by
  intro s t hinv hstep
  obtain ⟨u, hu, hkept⟩ := step_kept s
  obtain rfl : u = t := by
    rw [hu] at hstep
    exact Host.Outcome.next.inj hstep
  exact hkept.inv hinv

end Sys2Proof.Machine
end

section
/-!
SUPPORT. The field of R283 as the decoder of Table 11.2 uses it: multiplication is XOR-linear, α and its powers differ on every word but
zero up to the 18th, so one wrong symbol is found at its own place; and what a correction leaves of memory (R284, R286, R291).
-/
namespace Sys2Proof.Machine

open Sys2Proof

/-! ### Linear maps on 16-bit words -/

/-- A map that sends the sum of two words of GF(2^16) to the sum of their images. -/
def XorLinear (f : Nat → Nat) : Prop := ∀ a b, a < 2 ^ 16 → b < 2 ^ 16 → f (a ^^^ b) = f a ^^^ f b

theorem XorLinear.zero {f : Nat → Nat} (hf : XorLinear f) : f 0 = 0 := by
  simpa using hf 0 0 (by decide) (by decide)

theorem two_pow_add_eq_xor {k r : Nat} (hr : r < 2 ^ k) : 2 ^ k + r = 2 ^ k ^^^ r := by
  have hor : 2 ^ k + r = 2 ^ k ||| r := by simpa using Nat.two_pow_add_eq_or_of_lt hr 1
  rw [hor]
  apply Nat.eq_of_testBit_eq
  intro i
  rw [Nat.testBit_or, Nat.testBit_xor, Nat.testBit_two_pow]
  by_cases hi : k = i
  · subst hi
    simp [Nat.testBit_lt_two_pow hr]
  · simp [hi]

/-- Linear maps that agree on the 16 single bits agree on every word. -/
theorem XorLinear.ext {f g : Nat → Nat} (hf : XorLinear f) (hg : XorLinear g) (h : ∀ i < 16, f (2 ^ i) = g (2 ^ i)) {n : Nat}
    (hn : n < 2 ^ 16) : f n = g n := by
  suffices key : ∀ k ≤ 16, ∀ n < 2 ^ k, f n = g n from key 16 le_rfl n hn
  intro k
  induction k with
  | zero =>
    intro _ n hn
    rw [Nat.lt_one_iff.1 hn, hf.zero, hg.zero]
  | succ k ih =>
    intro hk n hn
    rcases Nat.lt_or_ge n (2 ^ k) with hlo | hhi
    · exact ih (by omega) n hlo
    · have hpow : 2 ^ k < 2 ^ 16 := Nat.pow_lt_pow_right (by decide) (by omega)
      have hrest : n - 2 ^ k < 2 ^ k := by omega
      have hsum : n = 2 ^ k ^^^ (n - 2 ^ k) := by rw [← two_pow_add_eq_xor hrest, Nat.add_sub_cancel' hhi]
      rw [hsum, hf _ _ hpow (by omega), hg _ _ hpow (by omega), h k (by omega), ih (by omega) _ hrest]

theorem gfDouble_lt {a : Nat} (ha : a < 2 ^ 16) : gfDouble a < 2 ^ 16 := by
  unfold gfDouble
  split
  · exact Nat.xor_lt_two_pow (Nat.mod_lt _ (by decide)) (by decide)
  · omega

theorem gfDouble_eq {a : Nat} (ha : a < 2 ^ 16) : gfDouble a = (a <<< 1) % 2 ^ 16 ^^^ if a.testBit 15 then 0x100B else 0 := by
  have htop : a.testBit 15 = decide (0x8000 ≤ a) := by
    rw [Nat.testBit_eq_decide_div_mod_eq]
    simp only [decide_eq_decide]
    omega
  unfold gfDouble
  rw [htop, Nat.shiftLeft_eq]
  split <;> rename_i h
  · simp [h]
  · simp only [h, decide_false, Bool.false_eq_true, if_false, Nat.xor_zero]
    omega

theorem gfDouble_linear : XorLinear gfDouble := by
  intro a b ha hb
  rw [gfDouble_eq ha, gfDouble_eq hb, gfDouble_eq (Nat.xor_lt_two_pow ha hb), Nat.shiftLeft_xor_distrib, Nat.xor_mod_two_pow,
    Nat.testBit_xor]
  cases a.testBit 15 <;> cases b.testBit 15 <;> simp [Nat.xor_comm, Nat.xor_left_comm]

theorem gfDouble_eq_zero {a : Nat} (h : gfDouble a = 0) : a = 0 := by
  unfold gfDouble at h
  split at h
  · have := Nat.xor_eq_zero_iff.1 h
    omega
  · omega

theorem gfMulAlpha_lt (k : Nat) {a : Nat} (ha : a < 2 ^ 16) : gfMulAlpha k a < 2 ^ 16 := by
  induction k generalizing a with
  | zero => exact ha
  | succ k ih => exact ih (gfDouble_lt ha)

theorem gfMulAlpha_linear (k : Nat) : XorLinear (gfMulAlpha k) := by
  induction k with
  | zero => exact fun _ _ _ _ => rfl
  | succ k ih =>
    intro a b ha hb
    simp only [gfMulAlpha]
    rw [gfDouble_linear a b ha hb, ih _ _ (gfDouble_lt ha) (gfDouble_lt hb)]

theorem gfMulAlpha_add (j d a : Nat) : gfMulAlpha (d + j) a = gfMulAlpha j (gfMulAlpha d a) := by
  induction d generalizing a with
  | zero => rw [Nat.zero_add]; rfl
  | succ d ih => rw [Nat.add_right_comm]; exact ih _

theorem gfMulAlpha_eq_zero {k a : Nat} (h : gfMulAlpha k a = 0) : a = 0 := by
  induction k generalizing a with
  | zero => exact h
  | succ k ih => exact gfDouble_eq_zero (ih h)

theorem gfMulGo_xor (k b : Nat) {x y p q : Nat} (hx : x < 2 ^ 16) (hy : y < 2 ^ 16) (hp : p < 2 ^ 16) (hq : q < 2 ^ 16) :
    gfMulGo k (x ^^^ y) b (p ^^^ q) = gfMulGo k x b p ^^^ gfMulGo k y b q := by
  induction k generalizing p q with
  | zero => rfl
  | succ k ih =>
    simp only [gfMulGo]
    rw [gfDouble_linear p q hp hq]
    have hp2 := gfDouble_lt hp
    have hq2 := gfDouble_lt hq
    split
    · rw [← ih (Nat.xor_lt_two_pow hp2 hx) (Nat.xor_lt_two_pow hq2 hy)]
      congr 1
      simp only [Nat.xor_assoc, Nat.xor_left_comm, Nat.xor_comm]
    · simpa using ih hp2 hq2

theorem gfMul_linear (b : Nat) : XorLinear fun a => gfMul a b := fun x y hx hy => by
  simpa [gfMul] using gfMulGo_xor 16 b hx hy (p := 0) (q := 0) (by decide) (by decide)

/-- α^d + 1 has an inverse for d from 1 to 17: checked on the 16 single bits. -/
theorem gfMul_inverse_bits : ∀ d < 18, 0 < d → ∀ i < 16,
    gfMul (gfMulAlpha d (2 ^ i) ^^^ 2 ^ i) (gfInv (gfMulAlpha d 1 ^^^ 1)) = 2 ^ i := by
  decide +kernel

/-- A power of α below the 18th fixes no word but zero. -/
theorem gfMulAlpha_ne_self {d a : Nat} (hd : d < 18) (h0 : 0 < d) (ha : a < 2 ^ 16) (ha0 : a ≠ 0) : gfMulAlpha d a ≠ a := by
  intro h
  have hlin : XorLinear fun n => gfMul (gfMulAlpha d n ^^^ n) (gfInv (gfMulAlpha d 1 ^^^ 1)) := by
    intro x y hx hy
    have hx2 := Nat.xor_lt_two_pow (gfMulAlpha_lt d hx) hx
    have hy2 := Nat.xor_lt_two_pow (gfMulAlpha_lt d hy) hy
    rw [← gfMul_linear _ _ _ hx2 hy2]
    simp only [gfMulAlpha_linear d x y hx hy, Nat.xor_assoc, Nat.xor_left_comm]
  have hid := hlin.ext (g := id) (fun _ _ _ _ => rfl) (gfMul_inverse_bits d hd h0) ha
  simp only [h, Nat.xor_self] at hid
  exact ha0 (hid.symm.trans (gfMul_linear _).zero)

/-- Two places of the first eighteen tell the same word apart. -/
theorem gfMulAlpha_inj {j k a : Nat} (hj : j < 18) (hk : k < 18) (ha : a < 2 ^ 16) (ha0 : a ≠ 0)
    (h : gfMulAlpha j a = gfMulAlpha k a) : j = k := by
  wlog hle : j ≤ k generalizing j k
  · exact (this hk hj h.symm (by omega)).symm
  obtain ⟨d, rfl⟩ : ∃ d, k = d + j := ⟨k - j, by omega⟩
  by_contra hne
  rw [gfMulAlpha_add] at h
  have hsum : gfMulAlpha j (gfMulAlpha d a ^^^ a) = 0 := by
    rw [gfMulAlpha_linear j _ _ (gfMulAlpha_lt d ha) ha, h, Nat.xor_self]
  exact gfMulAlpha_ne_self (by omega) (by omega) ha ha0 (Nat.xor_eq_zero_iff.1 (gfMulAlpha_eq_zero hsum))

/-! ### The decoder -/

/-- One wrong symbol of the eighteen is found at its place, with its pattern (Table 11.2). -/
theorem decodeBeat_single {k e : Nat} (hk : k < 18) (h0 : e ≠ 0) (he : e < 2 ^ 16) :
    decodeBeat none [(k, e)] = .corrected k e false := by
  have hfind : (List.range 18).find? (fun j => gfMulAlpha j e == gfMulAlpha k e) = some k := by
    rw [List.find?_range_eq_some]
    refine ⟨beq_self_eq_true _, List.mem_range.2 hk, fun j hj => ?_⟩
    have : gfMulAlpha j e ≠ gfMulAlpha k e := fun h => by have := gfMulAlpha_inj (by omega) hk he h0 h; omega
    simpa using this
  simp [decodeBeat, syndromes, h0, hfind]

/-- A symbol XORed twice is as it was. -/
theorem xorSyms_twice (bs : List Byte) (p : Nat × Nat) : xorSyms bs [p, p] = bs := by
  apply List.ext_getElem (by simp [xorSyms])
  intro i h1 h2
  simp only [xorSyms, List.getElem_mapIdx, List.filter_cons, List.filter_nil]
  split <;> simp

/-! ### What a correction leaves of memory -/

section
variable (s : State) (p : Place) (die : Nat)

/-- The memory once the bucket of a bank has overflowed (R291). -/
def Mem.overflowed (m : Mem) (p : Place) : Mem :=
  { m with buckets := memSet m.buckets p.bankNo 0, ovf := m.ovf + 1, lastOvf := ⟨p.stack, p.channel, p.bank⟩ }

theorem State.bucketCount_counts (h : (memGet s.mem.buckets p.bankNo).toNat + 1 ≤ s.mem.threshold) :
    s.bucketCount p die = { s with mem := { s.mem with
      buckets := memSet s.mem.buckets p.bankNo (BitVec.ofNat 8 ((memGet s.mem.buckets p.bankNo).toNat + 1)) } } := by
  unfold State.bucketCount
  exact if_neg (by omega)

theorem State.bucketCount_overflows (h : s.mem.threshold < (memGet s.mem.buckets p.bankNo).toNat + 1) :
    s.bucketCount p die = (({ s with mem := s.mem.overflowed p } : State).event (.stack p.stack) 0x0502
      [(1, p.stack), (1, p.channel), (1, p.bank), (4, s.mem.threshold), (1, die)]).raise 5 := by
  unfold State.bucketCount
  exact if_pos h

theorem State.bucketCount_mem_of_overflow (h : s.mem.threshold < (memGet s.mem.buckets p.bankNo).toNat + 1) :
    (s.bucketCount p die).mem = s.mem.overflowed p := by
  rw [State.bucketCount_overflows s p die h, (State.raise_frame _ 5).mem_eq, (State.event_frame _ _ _ _).mem_eq]

theorem State.bucketCount_counters : (s.bucketCount p die).mem.ce = s.mem.ce ∧ (s.bucketCount p die).mem.ue = s.mem.ue := by
  rcases Nat.lt_or_ge s.mem.threshold ((memGet s.mem.buckets p.bankNo).toNat + 1) with h | h
  · rw [State.bucketCount_mem_of_overflow s p die h]
    exact ⟨rfl, rfl⟩
  · rw [State.bucketCount_counts s p die h]
    exact ⟨rfl, rfl⟩

/-- A correction is counted, in its bucket too, and the corrected beat joins the write-backs (R284, R286, R291). -/
def State.correctedAt (s : State) (p : Place) (die a : Nat) (bs : List Byte) : State :=
  (({ s with mem := { s.mem with ce := { s.mem.ce with v := s.mem.ce.v + 1 } } } : State).bucketCount p die).queueWriteBack p.stack a bs

theorem State.correctedAt_mem (a : Nat) (bs : List Byte) : (s.correctedAt p die a bs).mem.ce.v = s.mem.ce.v + 1
    ∧ (s.correctedAt p die a bs).mem.ue = s.mem.ue ∧ (s.correctedAt p die a bs).mem.cells = s.mem.cells := by
  let s1 : State := { s with mem := { s.mem with ce := { s.mem.ce with v := s.mem.ce.v + 1 } } }
  obtain ⟨hce, hue⟩ := s1.bucketCount_counters p die
  have hcells := (s1.bucketCount_reads p die).cells
  exact ⟨by rw [show (s.correctedAt p die a bs).mem.ce = _ from hce], hue, hcells⟩

end

/-! ### The obligation -/

/-- Settles O57: the decoder finds the symbol (`decodeBeat_single`), and XORed with its own pattern it is the stored one. -/
theorem singleSymbolErrorsAreCorrected : Obligations.SingleSymbolErrorsAreCorrected := by
  intro s req step a k e hk h0 he ha hretired hmark hreach
  have hbeat : a / 32 * 32 = a := by omega
  have hreached : ¬(ioSide req && !s.ioReach a) = true := by
    cases hside : ioSide req
    · simp
    · simp [hreach hside]
  have hread : s.readBeat req step [⟨a, [(k, e)]⟩] a = (some (xorSyms (memRead s.mem.cells a 32) [(k, e), (k, e)]),
      s.correctedAt (s.mem.place a) k a (xorSyms (memRead s.mem.cells a 32) [(k, e), (k, e)])) := by
    unfold State.readBeat
    simp only [hbeat, hretired, hmark, hreached, List.find?_cons, beq_self_eq_true, decodeBeat_single hk (by omega) he, List.cons_append,
      List.nil_append, Bool.false_eq_true, if_false]
    rfl
  rw [xorSyms_twice] at hread
  exact ⟨_, hread, State.correctedAt_mem s _ k a _⟩

end Sys2Proof.Machine
end

section
/-!
O28. ECC_DIE_ERASE, ECC_BUCKET_CFG, EVT_CTRL and EVT_TAIL (R285, R291, R292, R356, R357, Tables 11.9, 13.3 and 13.6).
-/
namespace Sys2Proof.Machine

open Sys2Proof

/-! ### Registers of several RW fields -/

/-- One bit of a RW field after a write through an alias (Table 13.3). -/
def aliasBit (al : Alias) (old v : Bool) : Bool :=
  match al with
  | .base => v
  | .set => old || v
  | .clr => old && !v
  | .tgl => old != v

theorem getLsbD_aliasApplied (al : Alias) (old v : Word) {k : Nat} (hk : k < 32) :
    (aliasApplied al old v).getLsbD k = aliasBit al (old.getLsbD k) (v.getLsbD k) := by
  cases al <;> simp [aliasApplied, aliasBit, hk, bne]

theorem Fld.testBit_write {f : Fld} (hf : f.acc = .rw) (al : Alias) (old v k : Nat) :
    (f.write al old v).1.testBit k = (f.mask.testBit k && aliasBit al (old.testBit k) (v.testBit k)) := by
  cases hm : f.mask.testBit k
  · rw [Fld.testBit_mask, decide_eq_false_iff_not] at hm
    rw [Fld.testBit_write_outside al old v (by omega), Bool.false_and]
  · rw [Fld.testBit_write_rw hf al old v hm, Bool.true_and]
    rfl

/-- A register whose fields are all RW, bit by bit. -/
theorem testBit_writeFields {fs : List Fld} (hrw : ∀ f ∈ fs, f.acc = .rw) (al : Alias) (old v k : Nat) :
    (writeFields fs al old v).1.testBit k = (fs.any (·.mask.testBit k) && aliasBit al (old.testBit k) (v.testBit k)) := by
  suffices key : ∀ acc : Nat × Nat, (fs.foldl (fun acc f => let (n, w) := f.write al old v; (acc.1 ||| n, acc.2 ||| w)) acc).1.testBit k
      = (acc.1.testBit k || (fs.any (·.mask.testBit k) && aliasBit al (old.testBit k) (v.testBit k))) by
    simpa [writeFields] using key (0, 0)
  induction fs with
  | nil => simp
  | cons f fs ih =>
    intro acc
    rw [List.foldl_cons, ih (fun g hg => hrw g (List.mem_cons_of_mem _ hg)), Nat.testBit_or, Fld.testBit_write (hrw f List.mem_cons_self)]
    rw [List.any_cons, Bool.and_or_distrib_right, Bool.or_assoc]

section
variable {fs : List Fld} (hrw : ∀ f ∈ fs, f.acc = .rw) (al : Alias) (old : Nat) (v : Word)
include hrw

theorem bitOf_writeFields {k : Nat} (hk : k < 32) (hcov : fs.any (·.mask.testBit k) = true) :
    bitOf (writeFields fs al old v.toNat).1 k = (aliasApplied al (BitVec.ofNat 32 old) v).getLsbD k := by
  rw [bitOf_eq_testBit, testBit_writeFields hrw, hcov, getLsbD_aliasApplied _ _ _ hk, BitVec.getLsbD_ofNat, BitVec.testBit_toNat]
  simp [hk]

/-- Bits that lie in RW fields hold what the whole word would hold. -/
theorem field_writeFields (lo w : Nat) (h32 : lo + w ≤ 32) (hcov : ∀ k, lo ≤ k → k < lo + w → fs.any (·.mask.testBit k) = true) :
    (writeFields fs al old v.toNat).1 / 2 ^ lo % 2 ^ w = (aliasApplied al (BitVec.ofNat 32 old) v).toNat / 2 ^ lo % 2 ^ w := by
  apply Nat.eq_of_testBit_eq
  intro i
  rw [Nat.testBit_mod_two_pow, Nat.testBit_mod_two_pow, Nat.testBit_div_two_pow, Nat.testBit_div_two_pow]
  by_cases hi : i < w
  · rw [← bitOf_eq_testBit, bitOf_writeFields hrw al old v (by omega) (hcov _ (by omega) (by omega)), BitVec.testBit_toNat]
  · simp [hi]

end

/-! ### Registers below the tower blocks -/

section
variable {b : Nat} (hb : b % 0x10000 < 0x2000)
include hb

theorem baseAddr_register (al : Alias) : baseAddr (b + aliasOffset al) = b := by
  cases al <;> simp only [baseAddr, aliasOffset] <;> omega

theorem aliasOf_register (al : Alias) : aliasOf (b + aliasOffset al) = al := by
  have hq : (b + aliasOffset al) % 0x10000 / 0x4000 = aliasOffset al / 0x4000 := by
    cases al <;> simp only [aliasOffset] <;> omega
  rw [aliasOf, hq]
  cases al <;> rfl

/-- A full host write of a register beside the mailboxes and the MSI-X structures reaches it once the block is Ready (R342, R417). -/
theorem State.hostStoreAt_register {s : State} {fs : List Fld} (hmbx : 0x14000 ≤ b) (hf : fieldsAt b = some fs) (hio : s.ioUp = true)
    (hr : s.power.ready = true) (al : Alias) (v : Word) : s.hostStoreAt b al v = s.storeReg b al v.toNat := by
  have hopen : s.forbids (b + aliasOffset al) = false := by
    have : ¬ b < 0x14000 := by omega
    simp [State.forbids, baseAddr_register hb, this]
  have hmsix : ¬ 0x2000 ≤ b % 0x10000 := by omega
  have hgood : badWrite (b + aliasOffset al) 15 = false := by
    simp [badWrite, definedAt, baseAddr_register hb, hf, hmsix]
  have htakes : s.takesWrite b = true := by simp [State.takesWrite, hr]
  simp [State.hostStoreAt, State.whenIo, hio, State.hostStore, hopen, hgood, baseAddr_register hb, aliasOf_register hb, htakes]

end

/-! ### The memory block and the event log -/

theorem ctrAt_below_ecc {a : Nat} (hl : 0x30039 ≤ a) (hh : a < 0x40048) : ctrAt a = none := by
  have ht : towerOf a = none := by rw [towerOf, if_neg (by omega)]
  simp only [ctrAt, ht]
  repeat rw [if_neg (by omega)]

section
variable (s : State) {off : Nat} {fs : List Fld} (hio : s.ioUp = true) (hr : s.power.ready = true) (al : Alias) (v : Word)
include hio hr

/-- A host write of a register of the memory block acts by the new contents of its fields (Table 11.9). -/
theorem State.hostStoreAt_ecc (ho : off ≤ 0x44) (hf : eccFields off = some fs) :
    s.hostStoreAt (0x40000 + off) al v = s.writeEcc off (writeFields fs al (s.eccReg off) v.toNat).1 := by
  have hmod : (0x40000 + off) % 0x10000 = off := by omega
  have hdiv : (0x40000 + off) / 0x10000 = 4 := by omega
  have htower : towerOf (0x40000 + off) = none := by rw [towerOf, if_neg (by omega)]
  have hfields : fieldsAt (0x40000 + off) = some fs := by simp [fieldsAt, htower, hdiv, hmod, hf]
  have h4 : ¬ 0x40000 + off < 4 := by omega
  have hold : s.regOld (0x40000 + off) = s.eccReg off := by
    simp only [State.regOld, htower, State.regRaw, ctrAt_below_ecc (a := 0x40000 + off) (by omega) (by omega),
      ctrAt_below_ecc (a := 0x40000 + off - 4) (by omega) (by omega), h4, if_false, hdiv, hmod]
  rw [State.hostStoreAt_register (by omega) (by omega) hfields hio hr]
  simp only [State.storeReg, hfields, htower, hold, hdiv, hmod]

/-- A host write of a register of the event log acts by the new contents of its fields (Table 13.6). -/
theorem State.hostStoreAt_evt (ho : off < 0x2000) (hf : evtFields off = some fs) :
    s.hostStoreAt (0x20000 + off) al v = s.writeEvt off (writeFields fs al (s.evtReg off) v.toNat).1 := by
  have hmod : (0x20000 + off) % 0x10000 = off := by omega
  have hdiv : (0x20000 + off) / 0x10000 = 2 := by omega
  have htower : towerOf (0x20000 + off) = none := by rw [towerOf, if_neg (by omega)]
  have hfields : fieldsAt (0x20000 + off) = some fs := by simp [fieldsAt, htower, hdiv, hmod, hf]
  have h4 : ¬ 0x20000 + off < 4 := by omega
  have hold : s.regOld (0x20000 + off) = s.evtReg off := by
    simp only [State.regOld, htower, State.regRaw, ctrAt_eq_none (a := 0x20000 + off) (by omega) (by omega),
      ctrAt_eq_none (a := 0x20000 + off - 4) (by omega) (by omega), h4, if_false, hdiv, hmod]
  rw [State.hostStoreAt_register (by omega) (by omega) hfields hio hr]
  simp only [State.storeReg, hfields, htower, hold, hdiv, hmod]

end

/-! ### What each written register does -/

section
variable {s : State} (hio : s.ioUp = true) (hr : s.power.ready = true) (al : Alias) (v : Word)
include hio hr

/-- A mark of a die of a stack, or its end; a die that does not exist is not marked (R285). -/
theorem exec_eccDieErase {k : Nat} (hk : k < 12) :
    let old := s.mem.erase.getD k ⟨0, false⟩
    let n := aliasApplied al (BitVec.ofNat 32 (old.die + if old.valid then 128 else 0)) v
    exec (.eccDieErase k al v) s = .next { s with mem := if 17 < n.toNat % 32 ∧ n.getLsbD 7 = true then s.mem
      else { s.mem with erase := updAt s.mem.erase k fun _ => ⟨n.toNat % 32, n.getLsbD 7⟩ } } := by
  have hf : eccFields (4 * k) = some [rw 0 5, rw 7 1] := by rw [eccFields, if_pos (by omega)]
  have hreg : s.eccReg (4 * k) = (s.mem.erase.getD k ⟨0, false⟩).die + if (s.mem.erase.getD k ⟨0, false⟩).valid then 128 else 0 := by
    simp only [State.eccReg]
    rw [if_pos (by omega), Nat.mul_div_cancel_left k (by omega)]
    rfl
  have hrw : ∀ f ∈ [rw 0 5, rw 7 1], f.acc = .rw := by decide
  have hdie := field_writeFields hrw al (s.eccReg (4 * k)) v 0 5 (by omega) (by decide)
  have hvalid := bitOf_writeFields hrw al (s.eccReg (4 * k)) v (k := 7) (by omega) (by decide)
  rw [Nat.pow_zero, Nat.div_one, Nat.div_one, show 2 ^ 5 = 32 from rfl] at hdie
  intro old n
  show Host.Outcome.next (s.hostStoreAt (0x40000 + 4 * k) al v) = _
  rw [s.hostStoreAt_ecc hio hr al v (by omega) hf]
  unfold State.writeEcc
  rw [if_pos (by omega), Nat.mul_div_cancel_left k (by omega)]
  dsimp only
  rw [hdie, hvalid, hreg]
  change Host.Outcome.next (if 17 < n.toNat % 32 ∧ n.getLsbD 7 = true then s else _) = _
  by_cases hnone : 17 < n.toNat % 32 ∧ n.getLsbD 7 = true
  · rw [if_pos hnone, if_pos hnone]
  · rw [if_neg hnone, if_neg hnone]

/-- A write of the bucket configuration clears every bucket (R291, R292). -/
theorem exec_eccBucketCfg :
    let n := aliasApplied al (BitVec.ofNat 32 (s.mem.threshold + s.mem.leakS * 256)) v
    exec (.eccBucketCfg al v) s = .next { s with mem := { s.mem with
      threshold := n.toNat % 256, leakS := n.toNat / 256 % 65536, buckets := [] } } := by
  have hrw : ∀ f ∈ [rw 0 8, rw 8 16], f.acc = .rw := by decide
  have hthreshold := field_writeFields hrw al (s.eccReg 0x40) v 0 8 (by omega) (by decide)
  have hleak := field_writeFields hrw al (s.eccReg 0x40) v 8 16 (by omega) (by decide)
  rw [Nat.pow_zero, Nat.div_one, Nat.div_one] at hthreshold
  intro n
  show Host.Outcome.next (s.hostStoreAt (0x40000 + 0x40) al v) = _
  rw [s.hostStoreAt_ecc hio hr al v (fs := [rw 0 8, rw 8 16]) (by omega) rfl]
  show Host.Outcome.next ({ s with mem := { s.mem with threshold := _ % 2 ^ 8, leakS := _ / 2 ^ 8 % 2 ^ 16, buckets := [] } } : State) = _
  rw [hthreshold, hleak]
  rfl

/-- EVT_CTRL by its two fields (R356). -/
theorem exec_evtCtrlEn :
    let n := aliasApplied al (BitVec.ofNat 32 ((if s.evt.en then 1 else 0) + if s.evt.intEn then 2 else 0)) v
    exec (.evtCtrlEn al v) s = .next (s.writeEvtCtrl (n.getLsbD 0) (n.getLsbD 1)) := by
  have hrw : ∀ f ∈ [rw 0 1, rw 1 1], f.acc = .rw := by decide
  have hen := bitOf_writeFields hrw al (s.evtReg 0x0C) v (k := 0) (by omega) (by decide)
  have hint := bitOf_writeFields hrw al (s.evtReg 0x0C) v (k := 1) (by omega) (by decide)
  intro n
  show Host.Outcome.next (s.hostStoreAt (0x20000 + 0x0C) al v) = _
  rw [s.hostStoreAt_evt hio hr al v (fs := [rw 0 1, rw 1 1]) (by omega) rfl]
  show Host.Outcome.next (s.writeEvtCtrl (bitOf _ 0) (bitOf _ 1)) = _
  rw [hen, hint]
  rfl

/-- EVT_TAIL as the word that its alias makes (R357). -/
theorem exec_evtTail : exec (.evtTail al v) s = .next (s.writeEvtTail (aliasApplied al s.evt.tail v)) := by
  show Host.Outcome.next (s.hostStoreAt (0x20000 + 0x14) al v) = _
  rw [s.hostStoreAt_evt hio hr al v (fs := [rw 0 32]) (by omega) rfl, show s.evtReg 0x14 = s.evt.tail.toNat from rfl, writeFields_rw_word]
  show Host.Outcome.next (s.writeEvtTail (BitVec.ofNat 32 _)) = _
  rw [BitVec.ofNat_toNat, BitVec.setWidth_eq]

end

theorem State.set_evt_frame (s : State) (e : EvtLog) : Frame [.evt] s { s with evt := e } := by
  intro p hp
  cases p with
  | evt => simp at hp
  | _ => rfl

/-! ### EN and TAIL of the event log -/

section
variable {s : State} {en : Bool}

theorem State.writeEvtCtrl_enables (hen : en = true) (hoff : s.evt.en = false) (b : Bool) : s.writeEvtCtrl en b = { s with
    evt := if s.ringOk then { s.evt with intEn := b, en := true, head := 0, tail := 0 } else { s.evt with intEn := b, badBase := true } } := by
  subst hen
  unfold State.writeEvtCtrl
  cases s.ringOk <;> simp [hoff]

theorem State.writeEvtCtrl_stands (hen : en = s.evt.en) (b : Bool) :
    s.writeEvtCtrl en b = { s with evt := { s.evt with intEn := b } } := by
  unfold State.writeEvtCtrl
  cases hold : s.evt.en <;> simp [hen, hold]

theorem State.writeEvtCtrl_disables (hen : en = false) (hon : s.evt.en = true) (b : Bool) :
    s.writeEvtCtrl en b = { s with evt := ({ s.evt with intEn := b } : EvtLog).disable } := by
  simp [State.writeEvtCtrl, hen, hon]

end

/-- A message of vector 4 leaves for a tail that the ring has not caught up with, where the host asks for one (R358). -/
theorem State.wakeHost_eq (s : State) : ∃ p o, s.wakeHost = { s with
    evt := { s.evt with out4 := s.evt.out4 || (s.evt.intEn && s.ints.enabled) }, ints := { s.ints with pending := p }, out := o } := by
  unfold State.wakeHost
  split
  next h =>
    obtain ⟨p, o, hmsg⟩ := ({ s with evt := { s.evt with out4 := true } } : State).message_eq 4
    have hon : (s.evt.out4 || (s.evt.intEn && s.ints.enabled)) = true := by
      simp only [Bool.and_eq_true] at h
      simp [h]
    exact ⟨p, o, by rw [hmsg, hon]⟩
  next h =>
    have hoff : (s.evt.out4 || (s.evt.intEn && s.ints.enabled)) = s.evt.out4 := by
      cases hout : s.evt.out4 <;> simp_all
    exact ⟨s.ints.pending, s.out, by rw [hoff]⟩

theorem State.writeEvtTail_takes {s : State} {n : Word} (h : (n - s.evt.tail).toNat ≤ (s.evt.head - s.evt.tail).toNat) :
    ∃ p o, s.writeEvtTail n = { s with
      evt := { s.evt with tail := n, out4 := s.evt.intEn && s.ints.enabled && decide (s.evt.head ≠ n) }
      ints := { s.ints with pending := p }, out := o } := by
  unfold State.writeEvtTail
  rw [if_pos h]
  by_cases hall : s.evt.head = n
  · exact ⟨s.ints.pending, s.out, by simp [hall]⟩
  · obtain ⟨p, o, hwake⟩ := ({ s with evt := { s.evt with tail := n, out4 := false } } : State).wakeHost_eq
    exact ⟨p, o, by simp [hall, hwake]⟩

theorem State.set_evt_ints_out_frame (s : State) (e : EvtLog) (i : Ints) (o : Out) :
    Frame [.evt, .ints, .out] s { s with evt := e, ints := i, out := o } := by
  intro p hp
  cases p with
  | evt | ints | out => simp at hp
  | _ => rfl

/-! ### The obligation -/

/-- Settles O28: each register by the word that its alias makes of it, and EVT_CTRL and EVT_TAIL by what that word asks. -/
theorem memoryAndEventRegisters : Obligations.MemoryAndEventRegisters := by
  refine ⟨fun s al v hio hr => ⟨fun k hk _ => ?_, ?_⟩, fun s al v hio hr => ?_⟩
  · exact ⟨_, exec_eccDieErase hio hr al v hk, s.set_mem_frame _, rfl⟩
  · exact ⟨_, exec_eccBucketCfg hio hr al v, s.set_mem_frame _, rfl⟩
  · have hctrl := exec_evtCtrlEn hio hr al v
    have htail := exec_evtTail hio hr al v
    refine ⟨⟨fun hon hoff => ?_, fun hsame => ?_, fun hoff hon => ?_⟩, fun htake => ?_, fun hpast => ?_⟩
    · exact ⟨_, hctrl.trans (congrArg Host.Outcome.next (State.writeEvtCtrl_enables hon hoff _)), s.set_evt_frame _, rfl⟩
    · exact ⟨_, hctrl.trans (congrArg Host.Outcome.next (State.writeEvtCtrl_stands hsame _)), s.set_evt_frame _, rfl⟩
    · exact ⟨_, hctrl.trans (congrArg Host.Outcome.next (State.writeEvtCtrl_disables hoff hon _)), s.set_evt_frame _, rfl⟩
    · obtain ⟨p, o, htakes⟩ := State.writeEvtTail_takes htake
      exact ⟨_, htail.trans (congrArg Host.Outcome.next htakes), s.set_evt_ints_out_frame _ _ _, rfl, rfl⟩
    · exact ⟨_, htail.trans (congrArg Host.Outcome.next (if_neg (by omega))), s.set_evt_frame _, rfl⟩

end Sys2Proof.Machine
end

section
/-!
O58. ECC buckets (R291), and write-backs, scrub reads and waiting statistics in the background window (R286, R289, R290, R338).
-/
namespace Sys2Proof.Machine

open Sys2Proof

/-! ### Buckets that leak -/

theorem memGet_below {m : Memory} {l a : Nat} (h : wfFrom (some l) m = true) (ha : a ≤ l) : memGet m a = 0 := by
  induction m generalizing l with
  | nil => rfl
  | cons c r ih =>
    obtain ⟨k, v⟩ := c
    rw [wfFrom_cons] at h
    obtain ⟨hk, -, hr⟩ := h
    have hlk : l < k := hk l rfl
    rw [memGet, if_neg (by omega)]
    exact ih hr (by omega)

/-- A leak takes one from every bucket that is not zero. -/
theorem memGet_leak {m : Memory} {lo : Option Nat} (h : wfFrom lo m = true) (a : Nat) :
    memGet (leak m) a = if memGet m a = 0 then memGet m a else memGet m a - 1 := by
  induction m generalizing lo with
  | nil => rfl
  | cons c r ih =>
    obtain ⟨k, v⟩ := c
    rw [wfFrom_cons] at h
    obtain ⟨-, hv, hr⟩ := h
    have hrest := ih hr
    by_cases hka : k = a
    · subst hka
      have hgone : memGet (leak r) k = 0 := by rw [hrest, memGet_below hr (Nat.le_refl _)]; rfl
      unfold leak
      split
      next h1 => simp [memGet, hgone, h1]
      next => simp [memGet, show ¬ v = 0#8 from hv]
    · unfold leak
      split <;> simp [memGet, hka, hrest]

/-! ### A page that is stored -/

/-- Memory once bytes of one page are stored: no write-back of them is left (R282, R309). -/
def Mem.stored (m : Mem) (a : Nat) (bs : List Byte) : Mem :=
  { m with
    cells := memWrite m.cells a bs
    waiting := m.waiting.filter fun (w : WaitWrite) =>
      !(w.owner == wbOwner && decide (a / 32 * 32 ≤ w.addr) && decide (w.addr < a + bs.length))
    onyx := m.onyx.map fun o => { o with
      writeBacks := o.writeBacks.filter fun w => !(decide (a / 32 * 32 ≤ w.addr) && decide (w.addr < a + bs.length)) } }

theorem State.putPage_stored {s : State} {a : Nat} {bs : List Byte} (hbs : bs ≠ []) (h : s.mem.pageRetired (a / 65536) = false) :
    s.putPage a bs = { s with mem := s.mem.stored a bs } := by
  have hne : ¬ bs.isEmpty = true := by simpa using hbs
  rw [State.putPage, if_neg hne, if_neg (by simp [h])]
  rfl

theorem Mem.bg_stored (m : Mem) (a : Nat) (bs : List Byte) (k : Nat) :
    ((m.stored a bs).onyx[k]?).map Stack.bg = (m.onyx[k]?).map Stack.bg := by
  simp only [Mem.stored, List.getElem?_map, Option.map_map]
  rfl

/-! ### Write-backs and scrub reads -/

section
variable {s : State} {k : Nat} {o : Stack} (hpow : s.power.powered = true) (ho : s.mem.onyx[k]? = some o)
include ho

theorem State.bgOpen_eq : s.bgOpen k = decide (o.bg < 100000) := by
  simp [State.bgOpen, ho]

/-- The state in which the oldest write-back of a stack leaves: out of its queue, its 32 bytes spent. -/
def State.taking (s : State) (k : Nat) : State :=
  ({ s with mem := { s.mem with onyx := updAt s.mem.onyx k fun o => { o with writeBacks := o.writeBacks.drop 1 } } } : State).bgSpend k 32

omit ho in
theorem State.taking_frame (s : State) (k : Nat) : Frame [.mem] s (s.taking k) := s.set_mem_frame _

theorem State.taking_spends : (s.taking k).mem.bgBytes.v = s.mem.bgBytes.v + 32
    ∧ ((s.taking k).mem.onyx[k]?).map Stack.bg = some (o.bg + 32) := by
  refine ⟨rfl, ?_⟩
  simp [State.taking, updAt, ho]

include hpow

/-- With the window spent a write-back and a scrub read wait (R290). -/
theorem exec_background_waits (hspent : 100000 ≤ o.bg) :
    exec (.writeBack k) s = .next s ∧ ∀ errs, exec (.patrolScrub k errs) s = .next s := by
  have hclosed : s.bgOpen k = false := by
    rw [State.bgOpen_eq ho, decide_eq_false_iff_not]
    omega
  refine ⟨?_, fun errs => ?_⟩
  · simp [exec, execWriteBack, State.whenOn, hpow, State.writeBack, hclosed]
  · simp [exec, execPatrolScrub, State.whenOn, hpow, State.patrolScrub, hclosed]

theorem exec_writeBack {w : WaitWrite} {ws : List WaitWrite} (hw : o.writeBacks = w :: ws) (hopen : o.bg < 100000) :
    exec (.writeBack k) s = .next ((s.taking k).writeLineBy wbOwner w.addr w.bytes) := by
  have hbg : s.bgOpen k = true := by rw [State.bgOpen_eq ho, decide_eq_true hopen]
  simp only [exec, execWriteBack, State.whenOn, hpow, if_true, State.writeBack, hbg, ho, hw, Bool.not_true, Bool.false_eq_true, if_false,
    Option.bind_some, List.head?_cons]
  rfl

/-- A scrub read of a beat without an error changes nothing but the share and the place of its stack (R289, R290). -/
theorem exec_patrolScrub (hopen : o.bg < 100000) (hon : s.mem.scrubOn = true) (hphase : 5 ≤ s.power.phase) (hpages : s.mem.pages = [])
    (hbanks : s.mem.banks = []) (hpos : o.scrubPos + 32 < 0x1000000000) :
    exec (.patrolScrub k []) s = .next { s.bgSpend k 32 with mem := (s.bgSpend k 32).mem.scrubTo k (o.scrubPos + 32) } := by
  have hbg : s.bgOpen k = true := by rw [State.bgOpen_eq ho, decide_eq_true hopen]
  have hgood (p : Nat) : s.mem.pageRetired p = false := by simp [Mem.pageRetired, Mem.bankHitsPage, hpages, hbanks]
  have hnext : s.mem.nextBeat k 0x80000 o.scrubPos = o.scrubPos := by
    rw [Mem.nextBeat, if_neg (by omega), hgood]
    rfl
  have hread := s.readBeat_tower (req := rqScrub) rfl noStep (a := s.mem.device k o.scrubPos) (hgood _)
  have hlow : ¬ 0x1000000000 ≤ o.scrubPos := by omega
  have hph : ¬ s.power.phase < 5 := by omega
  simp only [exec, execPatrolScrub, State.whenOn, hpow, if_true, State.patrolScrub, hon, hbg, ho, hnext, hlow, hread, hph, Bool.not_true,
    decide_false, Bool.or_false, Bool.false_eq_true, if_false]

end

/-- A scrubber that stays within its stack moves, and nothing else of memory but the count of passes. -/
theorem Mem.scrubTo_inside (m : Mem) {k a : Nat} (h : a < 0x1000000000) : ∃ n, m.scrubTo k a =
    { m with onyx := updAt m.onyx k fun o => { o with scrubPos := a }, passes := n } := by
  rw [Mem.scrubTo, if_neg (by omega)]
  exact ⟨_, rfl⟩

/-! ### Statistics that wait for a window -/

/-- The state at the beginning of a background window (R290). -/
def State.newWindow (s : State) : State :=
  { s with mem := { s.mem with onyx := s.mem.onyx.map fun (o : Stack) => { o with bg := 0 } } }

theorem exec_backgroundWindow {s : State} (hpow : s.power.powered = true) :
    exec .backgroundWindow s = .next (State.drainTelemetry s.mem.telemetry.length s.newWindow) := by
  simp only [exec, execBackgroundWindow, State.whenOn, hpow, if_true]
  rfl

/-- A line's beat of which the host may hold nothing is stored by a write from the I/O die. -/
theorem State.writeIo_beat {s : State} {a : Nat} {bs : List Byte} (ha : a % 32 = 0) (hlen : bs.length = 32) (hreach : s.ioReach a = true)
    (hret : s.mem.pageRetired (a / 65536) = false) (hout : a / 64 ∉ s.mem.snoop) : s.writeIo a bs = { s with mem := s.mem.stored a bs } := by
  have hbs : bs ≠ [] := List.ne_nil_of_length_pos (by omega)
  have hne : ¬ bs.isEmpty = true := by simpa using hbs
  rw [State.writeIo, if_pos hreach, State.writeDev, if_neg hne, if_pos ⟨ha, by omega⟩, State.writeBeats_eq,
    State.writeLines_line _ _ _ hbs (by omega), State.writeLine_untracked _ hout, State.putPage_stored hbs hret]

/-- A new window lets a statistics beat that waited leave, where a stack takes it (R290). -/
theorem State.drainTelemetry_newWindow {s : State} {k : Nat} {o : Stack} {w : WaitWrite} (ho : s.mem.onyx[k]? = some o)
    (ht : s.mem.telemetry = [w]) (hk : (s.mem.place w.addr).stack = k) : State.drainTelemetry 1 s.newWindow =
      (({ s.newWindow with mem := { s.newWindow.mem with telemetry := [] } } : State).bgSpend k 32).writeIo w.addr w.bytes := by
  have hopen : s.newWindow.bgOpen k = true := by simp [State.bgOpen, State.newWindow, ho]
  have hplace : (s.newWindow.mem.place w.addr).stack = k := hk
  have htel : s.newWindow.mem.telemetry = [w] := ht
  simp [State.drainTelemetry, htel, hplace, hopen]

/-! ### What each act does -/

theorem State.bucketCount_step {s : State} (hwf : s.mem.buckets.wf = true) (p : Place) (die : Nat) :
    let n := (memGet s.mem.buckets p.bankNo).toNat + 1
    let t := s.bucketCount p die
    (n ≤ s.mem.threshold → n < 256 → memGet t.mem.buckets p.bankNo = BitVec.ofNat 8 n ∧ t.mem.ovf = s.mem.ovf ∧ Frame [.mem] s t)
    ∧ (s.mem.threshold < n → memGet t.mem.buckets p.bankNo = 0 ∧ t.mem.ovf = s.mem.ovf + 1
        ∧ t.mem.lastOvf = ⟨p.stack, p.channel, p.bank⟩ ∧ t.ints.raised.getLsbD 5 = true ∧ Frame [.mem, .evt, .ints, .out] s t)
    ∧ ∀ k, k ≠ p.bankNo → memGet t.mem.buckets k = memGet s.mem.buckets k := by
  intro n t
  refine ⟨fun hle _ => ?_, fun hlt => ?_, fun k hk => ?_⟩
  · rw [show t = _ from s.bucketCount_counts p die hle]
    exact ⟨memGet_memSet_same hwf _ _, rfl, s.set_mem_frame _⟩
  · have hmem : t.mem = s.mem.overflowed p := s.bucketCount_mem_of_overflow p die hlt
    have hraised : t.ints.raised.getLsbD 5 = true := by
      obtain ⟨q, o, hraise⟩ := State.raise_eq (({ s with mem := s.mem.overflowed p } : State).event (.stack p.stack) 0x0502
        [(1, p.stack), (1, p.channel), (1, p.bank), (4, s.mem.threshold), (1, die)]) 5
      rw [show t = _ from s.bucketCount_overflows p die hlt, hraise]
      simp
    rw [hmem]
    exact ⟨memGet_memSet_same hwf _ _, rfl, rfl, hraised, (s.bucketCount_reads p die).frame⟩
  · rcases Nat.lt_or_ge s.mem.threshold n with h | h
    · rw [show t.mem = _ from s.bucketCount_mem_of_overflow p die h]
      exact memGet_memSet_other _ hk
    · rw [show t = _ from s.bucketCount_counts p die h]
      exact memGet_memSet_other _ hk

theorem exec_bucketLeak {s : State} (hwf : s.mem.buckets.wf = true) (hpow : s.power.powered = true) :
    ∃ t, exec .bucketLeak s = .next t ∧ Frame [.mem] s t ∧ t.mem = { s.mem with buckets := t.mem.buckets }
      ∧ ∀ k, memGet t.mem.buckets k = if s.mem.leakS = 0 ∨ memGet s.mem.buckets k = 0 then memGet s.mem.buckets k
          else memGet s.mem.buckets k - 1 := by
  have hexec : exec .bucketLeak s = .next (if s.mem.leakS = 0 then s else { s with mem := { s.mem with buckets := leak s.mem.buckets } }) := by
    simp only [exec, execBucketLeak, State.whenOn, hpow, if_true]
  refine ⟨_, hexec, ?_⟩
  by_cases hstop : s.mem.leakS = 0
  · rw [if_pos hstop]
    exact ⟨Frame.refl _ _, rfl, fun k => by rw [if_pos (.inl hstop)]⟩
  · rw [if_neg hstop]
    refine ⟨s.set_mem_frame _, rfl, fun k => ?_⟩
    rw [memGet_leak hwf]
    simp only [hstop, false_or]

section
variable {s : State} {k : Nat} {o : Stack} (hpow : s.power.powered = true) (ho : s.mem.onyx[k]? = some o)
  {w : WaitWrite}
include hpow ho

/-- A write-back of a line that the host does not hold stores its beat (R286). -/
theorem exec_writeBack_stores {ws : List WaitWrite} (hw : o.writeBacks = w :: ws) (hopen : o.bg < 100000) (hlen : w.bytes.length = 32)
    (hwf : s.mem.cells.wf = true) (hret : s.mem.pageRetired (w.addr / 65536) = false) (hout : w.addr / 64 ∉ s.mem.snoop) :
    ∃ t, exec (.writeBack k) s = .next t ∧ Frame [.mem] s t ∧ memRead t.mem.cells w.addr 32 = w.bytes
      ∧ (∀ q, q < w.addr ∨ w.addr + 32 ≤ q → memGet t.mem.cells q = memGet s.mem.cells q)
      ∧ t.mem.bgBytes.v = s.mem.bgBytes.v + 32 ∧ (t.mem.onyx[k]?).map Stack.bg = some (o.bg + 32) := by
  have hbs : w.bytes ≠ [] := List.ne_nil_of_length_pos (by omega)
  have hline : (s.taking k).writeLineBy wbOwner w.addr w.bytes = { s.taking k with mem := (s.taking k).mem.stored w.addr w.bytes } :=
    (if_neg (mt List.contains_iff_mem.mp hout)).trans (State.putPage_stored (s := s.taking k) hbs hret)
  obtain ⟨hbytes, hbg⟩ := State.taking_spends ho
  refine ⟨_, (exec_writeBack hpow ho hw hopen).trans (congrArg Host.Outcome.next hline),
    Frame.trans (s.taking_frame k) (State.set_mem_frame _ _) (by simp) (by simp), ?_, fun q hq => ?_, hbytes,
    (Mem.bg_stored _ _ _ _).trans hbg⟩
  · have hread := memRead_memWrite hwf w.addr w.bytes
    rwa [hlen] at hread
  · exact memGet_memWrite_other (m := s.mem.cells) w.bytes (by omega)

/-- A write-back of a line that the host may hold snoops it and waits (R338). -/
theorem exec_writeBack_snoops {ws : List WaitWrite} (hw : o.writeBacks = w :: ws) (hopen : o.bg < 100000)
    (hheld : w.addr / 64 ∈ s.mem.snoop) (hide : s.ideUp 3 = true) :
    ∃ t, exec (.writeBack k) s = .next t ∧ Frame [.mem, .out] s t ∧ t.mem.cells = s.mem.cells
      ∧ t.mem.waiting = s.mem.waiting ++ [⟨w.addr, w.bytes, 5⟩] ∧ t.out = { s.out with snoops := s.out.snoops ++ [w.addr / 64] }
      ∧ t.mem.bgBytes.v = s.mem.bgBytes.v + 32 ∧ (t.mem.onyx[k]?).map Stack.bg = some (o.bg + 32) := by
  have hline : (s.taking k).writeLineBy wbOwner w.addr w.bytes = ({ s.taking k with mem := { (s.taking k).mem with
      waiting := s.mem.waiting ++ [⟨w.addr, w.bytes, 5⟩] } } : State).emit (.snoop (w.addr / 64)) :=
    if_pos (List.contains_iff_mem.mpr hheld)
  obtain ⟨hbytes, hbg⟩ := State.taking_spends ho
  refine ⟨_, (exec_writeBack hpow ho hw hopen).trans (congrArg Host.Outcome.next hline),
    Frame.trans (Frame.trans (s.taking_frame k) (State.set_mem_frame _ _) (by simp) (by simp) (k := [.mem])) (State.emit_frame _ _)
      (by simp) (by simp), rfl, rfl, ?_, hbytes, hbg⟩
  exact if_pos hide

/-- The statistics beat that waited is stored once a new window begins (R290). -/
theorem exec_backgroundWindow_goesOn (ht : s.mem.telemetry = [w]) (hk : (s.mem.place w.addr).stack = k) (ha : w.addr % 32 = 0)
    (hlen : w.bytes.length = 32) (hwf : s.mem.cells.wf = true) (hret : s.mem.pageRetired (w.addr / 65536) = false)
    (hout : w.addr / 64 ∉ s.mem.snoop) (hreach : s.ioReach w.addr = true) :
    ∃ t, exec .backgroundWindow s = .next t ∧ Frame [.mem] s t ∧ t.mem.telemetry = [] ∧ memRead t.mem.cells w.addr 32 = w.bytes
      ∧ (∀ q, q < w.addr ∨ w.addr + 32 ≤ q → memGet t.mem.cells q = memGet s.mem.cells q)
      ∧ t.mem.bgBytes.v = s.mem.bgBytes.v + 32 ∧ (t.mem.onyx[k]?).map Stack.bg = some 32 := by
  let u : State := ({ s.newWindow with mem := { s.newWindow.mem with telemetry := [] } } : State).bgSpend k 32
  have hbg : (u.mem.onyx[k]?).map Stack.bg = some 32 := by simp [u, State.newWindow, updAt, ho]
  have hexec : exec .backgroundWindow s = .next { u with mem := u.mem.stored w.addr w.bytes } := by
    rw [exec_backgroundWindow hpow, ht, List.length_singleton, State.drainTelemetry_newWindow ho ht hk]
    exact congrArg Host.Outcome.next (State.writeIo_beat (s := u) ha hlen hreach hret hout)
  refine ⟨_, hexec, s.set_mem_frame _, rfl, ?_, fun q hq => ?_, rfl, (Mem.bg_stored _ _ _ _).trans hbg⟩
  · have hread := memRead_memWrite hwf w.addr w.bytes
    rwa [hlen] at hread
  · exact memGet_memWrite_other (m := s.mem.cells) w.bytes (by omega)

end

/-! ### The obligation -/

/-- Settles O58: the bucket by whether the count passes THRESHOLD, and each background command by the one branch that its hypotheses leave. -/
theorem bucketsAndBackground : Obligations.BucketsAndBackground := by
  refine ⟨fun s hwf => ⟨State.bucketCount_step hwf, exec_bucketLeak hwf⟩, fun s k o hpow _ _ ho => ⟨fun w ws hw hopen => ⟨?_, ?_⟩,
    exec_background_waits hpow ho, fun hopen hon hphase hpages hbanks hpos => ?_, fun ht => ?_, fun w ht hk ha hlen hwf hret hout hreach => ?_⟩⟩
  · exact exec_writeBack_stores hpow ho hw hopen
  · exact exec_writeBack_snoops hpow ho hw hopen
  · obtain ⟨n, hscrub⟩ := Mem.scrubTo_inside (s.bgSpend k 32).mem (k := k) hpos
    refine ⟨_, exec_patrolScrub hpow ho hopen hon hphase hpages hbanks hpos, s.set_mem_frame _, ?_⟩
    rw [hscrub]
    refine ⟨rfl, rfl, rfl, ?_⟩
    simp [updAt, ho]
  · exact ⟨_, exec_backgroundWindow hpow, by rw [ht]; rfl⟩
  · exact exec_backgroundWindow_goesOn hpow ho ht hk ha hlen hwf hret hout hreach

end Sys2Proof.Machine
end

section
/-!
O60. SRAM scrubbing (R297 to R299, Tables 11.5 and 11.6): what an uncorrectable word does to the unit that holds it, and how commands in flight
end when their mailbox's buffer or Beryl fails (R362, R373, R380).
-/
namespace Sys2Proof.Machine

open Sys2Proof

/-! ### A command that ends with its completion on failure -/

/-- Between two states one command has completed: its mailbox holds the completion, and but for the statistics window, interrupts and what the
port has put out nothing else has changed. -/
structure State.Completed (n status : Nat) (d : List Byte) (s t : State) : Prop where
  frame : Frame [.mailboxes, .ints, .out, .window] s t
  mailboxes : t.mailboxes = updAt s.mailboxes n fun m => m.completed status d

/-- What a command writes on failure (R362, R373, R380), by its opcode. -/
def State.FailsWith (s : State) (op : Nat) (d : List Byte) : Prop :=
  (op = 0x0101 → d = [0, 0, 0, 0]) ∧ (op = 0x0202 → d.length = 32) ∧ (op = 0x0503 → d = s.fuses.bytes)

theorem Mailbox.completed_holds {m : Mailbox} (h : m.payload.wf = true) (status : Nat) (d : List Byte) : (m.completed status d).Holds status d :=
  ⟨rfl, rfl, rfl, rfl, memRead_memWrite h 0 d⟩

theorem State.deliver_completed (s : State) (n status : Nat) (d : List Byte) : s.Completed n status d (s.deliver n status d) where
  frame := (s.deliver_frame n status d).weaken (by simp)
  mailboxes := by
    obtain ⟨i, o, h, -⟩ := s.deliver_eq n status d
    rw [h]

theorem State.complete_completed {s : State} {n : Nat} (hn : n < 4) (ho : s.mem.owes n = false) (status : Nat) (d : List Byte) :
    s.Completed n status d (s.complete n status d) := by
  rw [State.complete_settled status d hn ho]
  exact s.deliver_completed n status d

theorem State.set_window_frame (s : State) (w : Window) : Frame [.window] s { s with window := w } := by
  intro p hp
  cases p with
  | window => simp at hp
  | _ => rfl

/-- A RUN_STEP that is refused rewrites the window and raises vector 9 besides (R373, R393). -/
theorem State.refuseRun_completed {s : State} {x : Cmd} (hn : x.mbx < 4) (ho : s.mem.owes x.mbx = false) (status : Nat) :
    ∃ d, s.Completed x.mbx status d (s.refuseRun x status) ∧ d.length = 32 := by
  let p := Step.ofPayload x.payload x.mbx s.power.time.v
  let s1 : State := { s with window := s.rewriteWindow { p with slot := p.slot % 4 } status false }
  have hdone : s1.Completed x.mbx status (s1.stepBytes p) (s1.complete x.mbx status (s1.stepBytes p)) :=
    State.complete_completed (s := s1) hn ho status _
  have hraise := (s1.complete x.mbx status (s1.stepBytes p)).raise_frame 9
  refine ⟨s1.stepBytes p, ⟨?_, hraise.mailboxes_eq.trans hdone.mailboxes⟩, s1.length_stepBytes p⟩
  exact Frame.trans (Frame.trans (s.set_window_frame _) hdone.frame (by simp) (by simp)) hraise (fun _ h => h) (by simp)

/-- A command that is turned away completes with what it writes on failure (R362). -/
theorem State.turnAway_completed {s : State} {q : Ask} (hn : q.mbx < 4) (ho : s.mem.owes q.mbx = false) (status : Nat) :
    ∃ d, s.Completed q.mbx status d (s.turnAway q status) ∧ s.FailsWith q.opcode d := by
  unfold State.turnAway
  dsimp only
  split
  next hop => exact ⟨_, State.complete_completed hn ho status _, by simp [State.FailsWith, hop]⟩
  next hop =>
    obtain ⟨d, hdone, hlen⟩ := State.refuseRun_completed (x := ⟨q.mbx, q.payload, q.env⟩) hn ho status
    exact ⟨d, hdone, by simp [State.FailsWith, hop, hlen]⟩
  next hop => exact ⟨_, State.complete_completed hn ho status _, by simp [State.FailsWith, hop]⟩
  next hload hrun hfuse =>
    refine ⟨_, State.complete_completed hn ho status _, fun hop => ?_, fun hop => absurd hop hrun, fun hop => absurd hop hfuse⟩
    rw [hop]
    rfl

/-- The command that a mailbox holds fails with BUS_ERROR (Table 11.6). -/
theorem State.busFail_completed {s : State} {n : Nat} (hn : n < 4) (ho : s.mem.owes n = false) :
    ∃ d, s.Completed n stBUS_ERROR d (s.busFail (s.askOf n Env.quiet)) ∧ s.FailsWith (s.mbx n).opcode.toNat d :=
  State.turnAway_completed (q := s.askOf n Env.quiet) hn ho stBUS_ERROR

section
variable {s t : State} {n status : Nat} {d : List Byte} (h : s.Completed n status d t)
include h

theorem State.Completed.mbx_eq (hn : n < s.mailboxes.length) : t.mbx n = (s.mbx n).completed status d := by
  rw [State.mbx, h.mailboxes]
  exact s.mbx_updAt _ hn

theorem State.Completed.others : s.OthersKept n t := by
  intro k hk
  rw [h.mailboxes]
  simp [updAt, hk.symm]

theorem State.Completed.mbx_other {k : Nat} (hk : k ≠ n) : t.mbx k = s.mbx k := by
  simp only [State.mbx, List.getD_eq_getElem?_getD, h.others k hk]

theorem State.Completed.holds (hn : n < s.mailboxes.length) (hwf : (s.mbx n).payload.wf = true) : (t.mbx n).Holds status d := by
  rw [h.mbx_eq hn]
  exact Mailbox.completed_holds hwf status d

end

/-- Every command that the device holds, by mailbox, fails with BUS_ERROR (Table 11.6). -/
def State.failOwned (s : State) (l : List Nat) : State :=
  l.foldl (fun s n => if (s.mbx n).own then s.busFail (s.askOf n Env.quiet) else s) s

/-- What `failOwned` leaves of each mailbox that it names: a free one as it was, an owned one with BUS_ERROR. -/
theorem State.failOwned_ends (l : List Nat) (hnd : l.Nodup) {s : State} (hlt : ∀ n ∈ l, n < s.mailboxes.length) (h4 : s.mailboxes.length = 4)
    (hw : s.mem.waiting = []) : Frame [.mailboxes, .ints, .out, .window] s (s.failOwned l)
      ∧ (∀ n, n ∉ l → (s.failOwned l).mbx n = s.mbx n)
      ∧ ∀ n ∈ l, ((s.mbx n).own = false → (s.failOwned l).mbx n = s.mbx n)
        ∧ ((s.mbx n).own = true → (s.mbx n).payload.wf = true →
            ∃ d, ((s.failOwned l).mbx n).Holds stBUS_ERROR d ∧ s.FailsWith (s.mbx n).opcode.toNat d) := by
  induction l generalizing s with
  | nil => exact ⟨Frame.refl _ _, fun _ _ => rfl, fun n hn => absurd hn List.not_mem_nil⟩
  | cons m l ih =>
    obtain ⟨hm, hl⟩ := List.nodup_cons.mp hnd
    have hmlt : m < s.mailboxes.length := hlt m List.mem_cons_self
    by_cases hown : (s.mbx m).own = true
    · have hstep : s.failOwned (m :: l) = (s.busFail (s.askOf m Env.quiet)).failOwned l := by
        simp only [State.failOwned, List.foldl_cons, hown, if_true]
      obtain ⟨d, hdone, hfails⟩ := State.busFail_completed (s := s) (n := m) (by omega) (by simp [Mem.owes, hw])
      rw [hstep]
      generalize s.busFail (s.askOf m Env.quiet) = u at hdone
      have hlen : u.mailboxes.length = s.mailboxes.length := by rw [hdone.mailboxes, updAt_length]
      have hfuses : u.fuses = s.fuses := hdone.frame .fuses (by simp)
      obtain ⟨hframe, hout, hin⟩ := ih hl (s := u) (fun n hn => hlen ▸ hlt n (List.mem_cons_of_mem _ hn)) (hlen.trans h4)
        (hdone.frame.mem_eq ▸ hw)
      refine ⟨Frame.trans hdone.frame hframe (fun _ h => h) (fun _ h => h), fun n hn => ?_, fun n hn => ?_⟩
      · obtain ⟨hnm, hnl⟩ := not_or.mp (mt List.mem_cons.mpr hn)
        rw [hout n hnl, hdone.mbx_other hnm]
      · rcases List.mem_cons.mp hn with rfl | hnl
        · refine ⟨fun hfree => absurd hown (by simp [hfree]), fun _ hwf => ⟨d, ?_, hfails⟩⟩
          rw [hout n hm]
          exact hdone.holds hmlt hwf
        · have hrest := hin n hnl
          rw [hdone.mbx_other fun e => hm (e ▸ hnl)] at hrest
          simpa only [State.FailsWith, hfuses] using hrest
    · have hstep : s.failOwned (m :: l) = s.failOwned l := by
        simp only [State.failOwned, List.foldl_cons, hown]
        rfl
      obtain ⟨hframe, hout, hin⟩ := ih hl (fun n hn => hlt n (List.mem_cons_of_mem _ hn)) h4 hw
      rw [hstep]
      refine ⟨hframe, fun n hn => hout n fun h => hn (List.mem_cons_of_mem _ h), fun n hn => ?_⟩
      rcases List.mem_cons.mp hn with rfl | hnl
      · exact ⟨fun _ => hout n hm, fun h => absurd h hown⟩
      · exact hin n hnl

/-! ### Beryl stops, and a mailbox's buffer fails -/

/-- Beryl's own state once it stops with nothing but mailbox commands in flight: nothing is queued, and SB_ALERT tells (Table 18.4). -/
def State.halting (s : State) : State :=
  { s with
    power := { s.power with smbAlert := s.power.smbAlert ||| 16 }
    goOrder := []
    jobs := []
    late := []
    ext := { s.ext with inFlight := none } }

theorem State.stopBeryl_idle {s : State} (hsteps : s.steps = []) (hjobs : s.jobs = []) (hlate : s.late = []) :
    s.stopBeryl = { s.halting.failOwned (List.range 4) with
      power := { (s.halting.failOwned (List.range 4)).power with berylStop := true } } := by
  have hmarches : s.stopMarches = s := by rw [State.stopMarches, hjobs]; rfl
  have hscramble : (List.range s.steps.length).foldl State.scrambleStep s.stopMarches = s := by rw [hsteps, hmarches]; rfl
  have hfinish : s.steps.foldl (fun s _ => s.finishStep 0 stBUS_ERROR false) s = s := by rw [hsteps]; rfl
  rw [State.stopBeryl, if_neg (by simp [hjobs])]
  simp only [State.berylHalt, hscramble, hfinish, hlate, List.foldl_nil]
  rfl

/-- A mailbox whose command Beryl gives up: neither queued nor, as an extension command, in flight. -/
def State.givenUp (s : State) (n : Nat) : State :=
  { s with
    ext := if s.ext.inFlight = some n then { s.ext with inFlight := none } else s.ext
    goOrder := s.goOrder.filter fun m => m != n }

theorem State.givenUp_frame (s : State) (n : Nat) : Frame [.goOrder, .ext] s (s.givenUp n) := by
  intro p hp
  cases p with
  | goOrder | ext => simp at hp
  | _ => rfl

theorem State.givenUp_inFlight (s : State) (n : Nat) : (s.givenUp n).ext.inFlight ≠ some n := by
  unfold State.givenUp
  dsimp only
  split
  next => simp
  next h => exact h

/-- The command of a mailbox that no step and no command taken names is the one that its registers hold. -/
theorem State.hostSram_alone {s : State} {n : Nat} (hown : (s.mbx n).own = true) (hlate : s.late = []) (hsteps : ∀ q ∈ s.steps, q.mbx ≠ n)
    (hjobs : s.jobs = []) : s.hostSram n = (s.givenUp n).busFail ((s.givenUp n).askOf n Env.quiet) := by
  have hnone : s.steps.findIdx? (fun p => p.mbx == n) = none := List.findIdx?_eq_none_iff.mpr fun q hq => by simpa using hsteps q hq
  have hnolate : s.late.any (fun (l : Late) => l.mbx == n) = false := by rw [hlate]; rfl
  have hnojob : s.jobs.find? (fun j => j.1.mbx == n) = none := by rw [hjobs]; rfl
  unfold State.hostSram
  simp only [hown, hnolate, hnone, hnojob, Bool.not_true, Bool.false_eq_true, if_false]
  by_cases hext : s.ext.inFlight = some n
  · simp only [hext, if_true, State.givenUp]
    rfl
  · simp only [hext, if_false, State.givenUp]
    rfl

/-! ### A scrubbed word -/

section
variable {s : State} {bank word b c : Nat} (hpow : s.power.powered = true)

theorem sramDecode_two (hbc : b ≠ c) : sramDecode [b, c] = 2 := by
  simp [sramDecode, hbc]

include hpow

theorem exec_sramScrub_none {p : SramPlace} (hno : sramWordOk p bank word = false) (flips : List Nat) :
    exec (.sramScrub p bank word flips) s = .next s := by
  simp [exec, execSramScrub, State.whenOn, hpow, State.sramScrub, hno]

theorem exec_sramScrub_clean (p : SramPlace) : exec (.sramScrub p bank word []) s = .next s := by
  simp [exec, execSramScrub, State.whenOn, hpow, State.sramScrub, sramDecode]

theorem exec_sramScrub_one {p : SramPlace} (hok : sramWordOk p bank word = true) :
    exec (.sramScrub p bank word [b]) s = .next { s with mem := { s.mem with sramCe := s.mem.sramCe + 1 } } := by
  simp [exec, execSramScrub, State.whenOn, hpow, State.sramScrub, hok, sramDecode]

theorem exec_sramScrub_two {p : SramPlace} (hok : sramWordOk p bank word = true) (hbc : b ≠ c) :
    exec (.sramScrub p bank word [b, c]) s = .next (s.scrubFound p bank word) := by
  simp [exec, execSramScrub, State.whenOn, hpow, State.sramScrub, hok, sramDecode_two hbc]

end

/-! ### The obligation -/

/-- The registers of OPCODE as the statement names them. -/
theorem State.FailsWith.of_opcode {s : State} {op : Half} {d : List Byte} (h : s.FailsWith op.toNat d) :
    (op = 0x0101 → d = [0, 0, 0, 0]) ∧ (op = 0x0202 → d.length = 32) ∧ (op = 0x0503 → d = s.fuses.bytes) := by
  obtain ⟨htopology, hrun, hfuses⟩ := h
  exact ⟨fun e => htopology (by rw [e]; rfl), fun e => hrun (by rw [e]; rfl), fun e => hfuses (by rw [e]; rfl)⟩

theorem State.mbx_mem {s : State} {n : Nat} (hn : n < s.mailboxes.length) : s.mbx n ∈ s.mailboxes := by
  rw [State.mbx, List.getD_eq_getElem _ _ hn]
  exact List.getElem_mem hn

section
variable {s : State} (hsteps : s.steps = []) (hjobs : s.jobs = []) (hlate : s.late = []) (hw : s.mem.waiting = [])
  (h4 : s.mailboxes.length = 4) (hwf : ∀ m ∈ s.mailboxes, m.payload.wf = true)
include hsteps hjobs hlate hw h4 hwf

/-- Beryl stops with nothing but mailbox commands in flight: every one of them ends with BUS_ERROR (R362, R373, R380). -/
theorem State.stopBeryl_ends : s.stopBeryl.power = { s.power with berylStop := true, smbAlert := s.power.smbAlert ||| 16 }
    ∧ s.stopBeryl.steps = [] ∧ s.stopBeryl.goOrder = [] ∧ s.stopBeryl.ext.inFlight = none
    ∧ ∀ n < 4, ((s.mbx n).own = false → s.stopBeryl.mbx n = s.mbx n)
      ∧ ((s.mbx n).own = true → ∃ d, (s.stopBeryl.mbx n).Holds stBUS_ERROR d ∧ s.FailsWith (s.mbx n).opcode.toNat d) := by
  obtain ⟨hframe, -, hends⟩ := State.failOwned_ends (List.range 4) List.nodup_range (s := s.halting)
    (fun n hn => h4 ▸ List.mem_range.mp hn) h4 hw
  rw [State.stopBeryl_idle hsteps hjobs hlate]
  generalize s.halting.failOwned (List.range 4) = u at hframe hends
  have hpower : u.power = s.halting.power := hframe.power_eq
  have hsteps' : u.steps = s.halting.steps := hframe.steps_eq
  have hgo : u.goOrder = s.halting.goOrder := hframe .goOrder (by simp)
  have hext : u.ext = s.halting.ext := hframe .ext (by simp)
  refine ⟨by rw [hpower]; rfl, hsteps'.trans hsteps, hgo, by rw [hext]; rfl, fun n hn => ?_⟩
  obtain ⟨hfree, hown⟩ := hends n (List.mem_range.mpr hn)
  exact ⟨hfree, fun ho => hown ho (hwf _ (State.mbx_mem (by omega)))⟩

end

/-- The state once an uncorrectable word has been counted and recorded, which is all that has changed (R299). -/
structure State.Recorded (s e : State) : Prop where
  frame : Frame [.mem, .evt] s e
  mem : e.mem = { s.mem with sramUe := s.mem.sramUe + 1 }

theorem State.sramEvent_recorded (s : State) (src : EvSrc) (unit bank word req : Nat) (work : List (Nat × Nat)) :
    s.Recorded (s.sramEvent src unit bank word req work) :=
  ⟨s.sramEvent_frame src unit bank word req work, s.sramEvent_mem src unit bank word req work⟩

section
variable {s e : State} (h : s.Recorded e)
include h

theorem State.Recorded.mbx_eq (n : Nat) : e.mbx n = s.mbx n := by
  rw [State.mbx, State.mbx, h.frame.mailboxes_eq]

theorem State.Recorded.owes_eq (n : Nat) : e.mem.owes n = s.mem.owes n := by
  rw [h.mem]
  rfl

theorem State.Recorded.failsWith {op : Nat} {d : List Byte} (hd : e.FailsWith op d) : s.FailsWith op d := by
  have hfuses : e.fuses = s.fuses := h.frame .fuses (by simp)
  simpa only [State.FailsWith, hfuses] using hd

/-- A Keep whose code or data is lost is faulty. -/
theorem State.Recorded.keepFaulty : ({ e with keep := { e.keep with state := 3 } } : State).keep = { s.keep with state := 3 }
    ∧ Frame [.keep, .mem, .evt] s { e with keep := { e.keep with state := 3 } } := by
  have hkeep : e.keep = s.keep := h.frame .keep (by simp)
  refine ⟨by rw [← hkeep], Frame.trans (m := [.keep]) h.frame (fun c hc => ?_) (by simp) (by simp)⟩
  cases c with
  | keep => simp at hc
  | _ => rfl

/-- Beryl stops on an uncorrectable word of its working memory. -/
theorem State.Recorded.berylStops (hsteps : s.steps = []) (hjobs : s.jobs = []) (hlate : s.late = []) (hw : s.mem.waiting = [])
    (h4 : s.mailboxes.length = 4) (hwf : ∀ m ∈ s.mailboxes, m.payload.wf = true) :
    e.stopBeryl.power = { s.power with berylStop := true, smbAlert := s.power.smbAlert ||| 16 } ∧ e.stopBeryl.steps = []
      ∧ e.stopBeryl.goOrder = [] ∧ e.stopBeryl.ext.inFlight = none
      ∧ ∀ n < 4, ((s.mbx n).own = false → e.stopBeryl.mbx n = s.mbx n)
        ∧ ((s.mbx n).own = true → ∃ d, (e.stopBeryl.mbx n).Holds stBUS_ERROR d ∧ s.FailsWith (s.mbx n).opcode.toNat d) := by
  have hsteps' : e.steps = [] := h.frame.steps_eq.trans hsteps
  have hjobs' : e.jobs = [] := Eq.trans (h.frame .jobs (by simp)) hjobs
  have hlate' : e.late = [] := Eq.trans (h.frame .late (by simp)) hlate
  have hw' : e.mem.waiting = [] := by rw [h.mem]; exact hw
  have hboxes : e.mailboxes = s.mailboxes := h.frame.mailboxes_eq
  obtain ⟨hpower, hnosteps, hgo, hext, hends⟩ := State.stopBeryl_ends hsteps' hjobs' hlate' hw' (hboxes ▸ h4) (hboxes ▸ hwf)
  refine ⟨hpower.trans (by rw [h.frame.power_eq]), hnosteps, hgo, hext, fun n hn => ?_⟩
  obtain ⟨hfree, hown⟩ := hends n hn
  rw [h.mbx_eq n] at hfree hown
  refine ⟨hfree, fun ho => ?_⟩
  obtain ⟨d, hholds, hd⟩ := hown ho
  exact ⟨d, hholds, h.failsWith hd⟩

/-- A mailbox's command that nothing but its registers holds fails on an uncorrectable word of its buffer. -/
theorem State.Recorded.bufferFails {n : Nat} (hn : n < 4) (h4 : s.mailboxes.length = 4) (hown : (s.mbx n).own = true)
    (hwf : (s.mbx n).payload.wf = true) (hsteps : ∀ q ∈ s.steps, q.mbx ≠ n) (hjobs : s.jobs = []) (hlate : s.late = [])
    (ho : s.mem.owes n = false) : ∃ d, ((e.hostSram n).mbx n).Holds stBUS_ERROR d ∧ s.OthersKept n (e.hostSram n)
      ∧ (e.hostSram n).mem = e.mem ∧ (e.hostSram n).goOrder = (s.goOrder.filter fun m => m != n) ∧ (e.hostSram n).ext.inFlight ≠ some n
      ∧ s.FailsWith (s.mbx n).opcode.toNat d ∧ Frame [.mailboxes, .goOrder, .ext, .mem, .evt, .ints, .out, .window] s (e.hostSram n) := by
  have hboxes : e.mailboxes = s.mailboxes := h.frame.mailboxes_eq
  have hgo : e.goOrder = s.goOrder := h.frame .goOrder (by simp)
  have hsteps' : ∀ q ∈ e.steps, q.mbx ≠ n := by rw [h.frame.steps_eq]; exact hsteps
  have hjobs' : e.jobs = [] := Eq.trans (h.frame .jobs (by simp)) hjobs
  have hlate' : e.late = [] := Eq.trans (h.frame .late (by simp)) hlate
  have halone := State.hostSram_alone (s := e) (by rwa [h.mbx_eq n]) hlate' hsteps' hjobs'
  have hgiven := e.givenUp_frame n
  have hmbx : (e.givenUp n).mbx n = s.mbx n := h.mbx_eq n
  have hinFlight : (e.givenUp n).ext.inFlight ≠ some n := e.givenUp_inFlight n
  have hgivenGo : (e.givenUp n).goOrder = s.goOrder.filter fun m => m != n := by rw [← hgo]; rfl
  obtain ⟨d, hdone, hfails⟩ := State.busFail_completed (s := e.givenUp n) hn (by rw [hgiven.mem_eq, h.owes_eq, ho])
  rw [halone]
  generalize e.givenUp n = g at *
  generalize g.busFail (g.askOf n Env.quiet) = t at *
  have hlen : g.mailboxes.length = 4 := by rw [hgiven.mailboxes_eq, hboxes, h4]
  have hext : t.ext = g.ext := hdone.frame .ext (by simp)
  have hgoT : t.goOrder = g.goOrder := hdone.frame .goOrder (by simp)
  have hfuses : g.fuses = e.fuses := hgiven .fuses (by simp)
  refine ⟨d, hdone.holds (by omega) (by rwa [hmbx]), fun k hk => ?_, hdone.frame.mem_eq.trans hgiven.mem_eq, hgoT.trans hgivenGo,
    by rwa [hext], h.failsWith ?_, ?_⟩
  · rw [hdone.others k hk, hgiven.mailboxes_eq, hboxes]
  · rw [hmbx] at hfails
    simpa only [State.FailsWith, hfuses] using hfails
  · have hgave : Frame [.mem, .evt, .goOrder, .ext] s g := Frame.trans h.frame hgiven (by simp) (by simp)
    exact Frame.trans hgave hdone.frame (by simp) (by simp)

/-- A word of the staging buffers fails the step that is before its decision. -/
theorem State.Recorded.stagingFails {i : Nat} {q : Step} (hi : s.earlyIdx = some i) (hq : s.steps[i]? = some q) (hr : q.ended = .running) :
    (e.failEarly stBUS_ERROR).mem = e.mem ∧ (e.failEarly stBUS_ERROR).steps[i]? = some { q with ended := .failed stBUS_ERROR }
      ∧ Frame [.mem, .evt, .steps, .towers] s (e.failEarly stBUS_ERROR) := by
  have hfail := e.failEarly_frame stBUS_ERROR
  exact ⟨hfail.mem_eq, h.frame.failEarly_steps stBUS_ERROR hi hq hr, Frame.trans h.frame hfail (by simp) (by simp)⟩

/-- An update engine with no step past its decision updates nothing. -/
theorem State.Recorded.engineIdle (hidle : s.lateIdx = none) (k : Nat) : e.engineSram k = e := by
  have hidle' : e.lateIdx = none := by rw [← hidle, State.lateIdx, State.lateIdx, h.frame.steps_eq]
  simp only [State.engineSram, State.onLate, hidle']

end

/-- A tower that works on nothing: the word is recorded and no more. -/
theorem State.towerWord_idle {s : State} {u : Nat} (hidle : (s.tower u).started = []) (req bank word : Nat) :
    s.towerWord u req bank word (s.itemAt u) = s.sramEvent (.tower u) u bank word req [] := by
  rw [State.itemAt, hidle]
  rfl

/-- Settles O60: the word is recorded first, which only counts and logs it; each place then does what its own lemma says, and commands end
one by one with BUS_ERROR. -/
theorem sramScrubActs : Obligations.SramScrubActs := by
  intro s bank word b c hpow hbc counted
  refine ⟨fun p flips hno => exec_sramScrub_none hpow hno flips, exec_sramScrub_clean hpow,
    fun p hok => ⟨_, exec_sramScrub_one hpow hok, rfl⟩, fun hok => ?_, fun hok hsteps hjobs hlate hw h4 hwf => ?_,
    fun i q hok hi hq hr => ?_, fun n hn hok h4 hown hwf hsteps hjobs hlate ho => ?_, fun u sc hok hidle => ?_, fun k hidle => ?_⟩
  · have hrec := s.sramEvent_recorded .module (SramPlaceUnit .keep) bank word rqScrub []
    obtain ⟨hkeep, hframe⟩ := hrec.keepFaulty
    exact ⟨_, exec_sramScrub_two hpow hok hbc, hkeep, hrec.mem, hframe⟩
  · have hrec := s.sramEvent_recorded .module (SramPlaceUnit .working) bank word rqScrub []
    obtain ⟨hpower, hnosteps, hgo, hext, hends⟩ := hrec.berylStops hsteps hjobs hlate hw h4 hwf
    refine ⟨_, exec_sramScrub_two hpow hok hbc, hpower, hnosteps, hgo, hext, fun n hn => ?_⟩
    obtain ⟨hfree, hown⟩ := hends n hn
    refine ⟨hfree, fun hheld => ?_⟩
    obtain ⟨d, hholds, hfails⟩ := hown hheld
    exact ⟨d, hholds, hfails.of_opcode⟩
  · have hrec := s.sramEvent_recorded s.earlySrc (SramPlaceUnit .staging) bank word rqScrub []
    obtain ⟨hmem, hfailed, hframe⟩ := hrec.stagingFails hi hq hr
    exact ⟨_, exec_sramScrub_two hpow hok hbc, hmem.trans hrec.mem, hfailed, hframe⟩
  · have hrec := s.sramEvent_recorded .module (SramPlaceUnit (.hostBuf n)) bank word rqScrub []
    obtain ⟨d, hholds, hothers, hmem, hgo, hext, hfails, hframe⟩ := hrec.bufferFails hn h4 hown hwf hsteps hjobs hlate ho
    obtain ⟨htopology, -, hfuses⟩ := hfails.of_opcode
    refine ⟨_, d, exec_sramScrub_two hpow hok hbc, hholds, hothers, hmem.trans hrec.mem, hgo.trans ?_, hext, htopology, hfuses, hframe⟩
    simp only [bne, beq_eq_decide, ne_eq, decide_not]
  · have hrec := s.sramEvent_recorded (.tower u) u bank word rqScrub []
    rw [← State.towerWord_idle hidle] at hrec
    exact ⟨_, exec_sramScrub_two hpow hok hbc, hrec.mem, hrec.frame⟩
  · have hrec := s.sramEvent_recorded (.stack k) (SramPlaceUnit (.engine k)) bank word rqScrub []
    rw [← hrec.engineIdle hidle k] at hrec
    exact ⟨_, exec_sramScrub_two hpow rfl hbc, hrec.mem, hrec.frame⟩

end Sys2Proof.Machine
end

section
/-!
O30. The host's reads and writes of device memory through its window (R282, R293, R304, R337, R402), and the snoop filter's answers to the
block's own writes (R338).
-/
namespace Sys2Proof.Machine

open Sys2Proof

/-! ### What leaves on an open stream -/

theorem State.emit_open {s : State} {p : Posted} (h : s.ideUp p.stream = true) : s.emit p = { s with out := s.out.sendOne p } := by
  rw [State.emit, if_pos h]

/-- Snoops leave in order (R338). -/
theorem State.foldl_emit_snoops {s : State} (h : s.ideUp 3 = true) (ls : List Nat) :
    ls.foldl (fun s l => s.emit (.snoop l)) s = { s with out := { s.out with snoops := s.out.snoops ++ ls } } := by
  induction ls generalizing s with
  | nil => rw [List.foldl_nil, List.append_nil]
  | cons l ls ih =>
    rw [List.foldl_cons, State.emit_open (p := .snoop l) h, ih (by exact h)]
    simp only [Out.sendOne, List.append_assoc, List.singleton_append]

/-! ### The window -/

section
variable {s : State} {base a : Nat}

theorem State.windowAddr_inside (hdm : s.power.hdm = some (base, devEnd)) (ha : a < devEnd) : s.windowAddr (base + a) = some a := by
  simp only [State.windowAddr, hdm]
  rw [if_pos (by omega), Nat.add_sub_cancel_left]

theorem State.windowAddr_outside (hdm : s.power.hdm = some (base, devEnd)) (ha : a < base ∨ base + devEnd ≤ a) : s.windowAddr a = none := by
  simp only [State.windowAddr, hdm]
  rw [if_neg (by omega)]

theorem exec_hostMemRead (hup : s.memUp = true) (addr : Nat) (errs : List BeatErr) :
    exec (.hostMemRead addr errs) s = .next (s.hostRead errs addr) := by
  simp only [exec, execHostMemRead, hup, if_true]

theorem exec_hostMemWrite (hup : s.memUp = true) (addr : Nat) (bs : List Byte) :
    exec (.hostMemWrite addr bs) s = .next (s.hostWrite addr bs) := by
  simp only [exec, execHostMemWrite, hup, if_true]

theorem State.hostRead_outside {addr : Nat} (hw : s.windowAddr addr = none) (errs : List BeatErr) :
    s.hostRead errs addr = s.emit (.answer 3 .unsupported) := by
  rw [State.hostRead, hw]
  rfl

theorem State.hostWrite_outside {addr : Nat} (hw : s.windowAddr addr = none) (bs : List Byte) :
    s.hostWrite addr bs = s.emit (.answer 3 .unsupported) := by
  rw [State.hostWrite, hw]
  rfl

section
variable {addr : Nat} (hw : s.windowAddr addr = some a) (ha : a < devEnd)
include hw ha

theorem State.hostRead_scrapped (hf : s.fuses.state = 4) (errs : List BeatErr) : s.hostRead errs addr = s.emit (.answer 3 .poison) := by
  simp only [State.hostRead, hw, if_neg (show ¬ a ≥ devEnd by omega), if_pos hf]
  rfl

theorem State.hostWrite_scrapped (hf : s.fuses.state = 4) (bs : List Byte) : s.hostWrite addr bs = s := by
  simp only [State.hostWrite, hw, if_neg (show ¬ a ≥ devEnd by omega), if_pos hf]

variable (hf : s.fuses.state ≠ 4)
include hf

/-- A region under a march answers with free bytes (R304). -/
theorem State.hostRead_march (hm : s.underMarch (a / 64) = true) (errs : List BeatErr) : s.hostRead errs addr =
    ({ s with freeCtr := s.freeCtr + 1 } : State).emit
      (.answer 3 (.data ((List.range 64).map fun k => Config.padByte s.freeCtr (64 * (a / 64) + k)))) := by
  simp only [State.hostRead, hw, if_neg (show ¬ a ≥ devEnd by omega), if_neg hf, hm, if_true]
  rfl

theorem State.hostRead_march_open (hm : s.underMarch (a / 64) = true) (hide : s.ideUp 3 = true) (errs : List BeatErr) :
    ∃ bs : List Byte, Frame [.out, .freeCtr] s (s.hostRead errs addr) ∧ (s.hostRead errs addr).out = { s.out with resp := .data bs }
      ∧ bs.length = 64 := by
  refine ⟨(List.range 64).map fun k => Config.padByte s.freeCtr (64 * (a / 64) + k), ?_⟩
  rw [State.hostRead_march hw ha hf hm, State.emit_open (by exact hide)]
  exact ⟨Frame.trans (s.set_freeCtr_frame _) (State.set_out_frame _ _) (by simp) (by simp), rfl, by simp⟩

/-- Under a march a free value says whether a write is lost (R304). -/
theorem State.hostWrite_march (hm : s.underMarch (a / 64) = true) (bs : List Byte) : s.hostWrite addr bs =
    if (s.free 2).1 = 0 then (s.free 2).2 else (s.free 2).2.putPage (a / 64 * 64) (sliceB bs 0 64) := by
  simp only [State.hostWrite, hw, if_neg (show ¬ a ≥ devEnd by omega), if_neg hf, hm, if_true]

variable (hm : s.underMarch (a / 64) = false)
include hm

theorem State.hostRead_line {errs : List BeatErr} {bs : List Byte} {t : State} (hread : s.readLine errs (a / 64) = (some bs, t)) :
    s.hostRead errs addr = (t.track (a / 64)).emit (.answer 3 (.data bs)) := by
  simp only [State.hostRead, hw, if_neg (show ¬ a ≥ devEnd by omega), if_neg hf, hm, Bool.false_eq_true, if_false, hread]
  rfl

theorem State.hostRead_failed {errs : List BeatErr} {t : State} (hread : s.readLine errs (a / 64) = (none, t)) :
    s.hostRead errs addr = t.emit (.answer 3 .poison) := by
  simp only [State.hostRead, hw, if_neg (show ¬ a ≥ devEnd by omega), if_neg hf, hm, Bool.false_eq_true, if_false, hread]
  rfl

theorem State.hostWrite_line (bs : List Byte) : s.hostWrite addr bs = s.putPage (a / 64 * 64) (sliceB bs 0 64) := by
  simp only [State.hostWrite, hw, if_neg (show ¬ a ≥ devEnd by omega), if_neg hf, hm, Bool.false_eq_true, if_false]

end

/-! ### A line that is read -/

/-- A line without an error in a page that is not retired reads as it is stored (R282). -/
theorem State.readLine_quiet (hret : s.mem.pageRetired (a / 65536) = false) (hreach : s.Reached (a / 64 * 64) 64) :
    s.readLine [] (a / 64) = (some (memRead s.mem.cells (a / 64 * 64) 64), s) := by
  have hlow : a / 64 * 64 / 32 * 32 = a / 64 * 64 := by omega
  have hhigh : (a / 64 * 64 + 32) / 32 * 32 = a / 64 * 64 + 32 := by omega
  have hpage : a / 64 * 64 / 65536 = a / 65536 := by omega
  have hpage' : (a / 64 * 64 + 32) / 65536 = a / 65536 := by omega
  have hfirst := s.readBeat_quiet rqHost noStep (a / 64 * 64) (by rw [hlow, hpage, hret]) (by rw [hlow]; exact hreach _ (by omega) (by omega))
  have hsecond := s.readBeat_quiet rqHost noStep (a / 64 * 64 + 32) (by rw [hhigh, hpage', hret])
    (by rw [hhigh]; exact hreach _ (by omega) (by omega))
  rw [hlow] at hfirst
  rw [hhigh] at hsecond
  rw [State.readLine, hpage, hret, if_neg (by simp), hfirst]
  dsimp only
  rw [hsecond]
  dsimp only
  rw [memRead_append]

/-- A line of a retired page is not read, which counts once (R293). -/
theorem State.readLine_retired (hret : s.mem.pageRetired (a / 65536) = true) (errs : List BeatErr) :
    s.readLine errs (a / 64) = (none, { s with mem := { s.mem with retiredHit := s.mem.retiredHit + 1 } }) := by
  rw [State.readLine, if_pos (by rw [show a / 64 * 64 / 65536 = a / 65536 by omega, hret])]

theorem State.track_held {l : Nat} (h : s.mem.snoop.contains l = true) : s.track l = s := if_pos h

theorem State.track_room {l : Nat} (h : ¬ s.mem.snoop.contains l = true) (hroom : s.mem.snoop.length < 1048576) :
    s.track l = { s with mem := { s.mem with snoop := s.mem.snoop ++ [l] } } := by
  simp only [State.track, if_neg h, if_pos hroom]

/-- A full filter snoops its oldest line first (R338). -/
theorem State.track_full {l : Nat} (h : ¬ s.mem.snoop.contains l = true) (hfull : ¬ s.mem.snoop.length < 1048576) (hide : s.ideUp 3 = true) :
    s.track l = { s with
      mem := { s.mem with snoop := s.mem.snoop.drop 1 ++ [l] }
      out := { s.out with snoops := s.out.snoops ++ s.mem.snoop.take 1 } } := by
  have hsnoops := State.foldl_emit_snoops (s := { s with mem := { s.mem with snoop := s.mem.snoop.drop 1 } }) hide (s.mem.snoop.take 1)
  simp only [State.track, if_neg h, if_neg hfull, hsnoops]

/-- A line that has been read is answered and tracked (R338). -/
theorem State.track_answers {l : Nat} (hide : s.ideUp 3 = true) (bs : List Byte) :
    let t := (s.track l).emit (.answer 3 (.data bs))
    Frame [.mem, .out] s t ∧ t.out.resp = .data bs
      ∧ (if s.mem.snoop.contains l then t.mem = s.mem ∧ t.out.snoops = s.out.snoops
        else if s.mem.snoop.length < 1048576 then t.mem = { s.mem with snoop := s.mem.snoop ++ [l] } ∧ t.out.snoops = s.out.snoops
        else t.mem = { s.mem with snoop := s.mem.snoop.drop 1 ++ [l] } ∧ t.out.snoops = s.out.snoops ++ s.mem.snoop.take 1) := by
  have hsend (u : State) (hu : u.ideUp 3 = true) : u.emit (.answer 3 (.data bs)) = { u with out := { u.out with resp := .data bs } } :=
    State.emit_open (p := .answer 3 (.data bs)) hu
  dsimp only
  by_cases hheld : s.mem.snoop.contains l = true
  · rw [State.track_held hheld, hsend s hide, if_pos hheld]
    exact ⟨(s.set_out_frame _).weaken (by simp), rfl, rfl, rfl⟩
  · rw [if_neg hheld]
    by_cases hroom : s.mem.snoop.length < 1048576
    · rw [State.track_room hheld hroom, hsend _ (by exact hide), if_pos hroom]
      exact ⟨Frame.trans (s.set_mem_frame _) (State.set_out_frame _ _) (by simp) (by simp), rfl, rfl, rfl⟩
    · rw [State.track_full hheld hroom hide, hsend _ (by exact hide), if_neg hroom]
      exact ⟨Frame.trans (s.set_mem_frame _) (State.set_out_frame _ _) (by simp) (by simp), rfl, rfl, rfl⟩

/-! ### A line that is written -/

theorem sliceB_whole {bs : List Byte} {k : Nat} (h : bs.length = k) : sliceB bs 0 k = bs := by
  have hself := sliceB_append_self (r := []) h
  rwa [List.append_nil] at hself

/-- A host's line is stored, in place of every write-back of it (R282, R309). -/
theorem State.putPage_line (hwf : s.mem.cells.wf = true) (hret : s.mem.pageRetired (a / 65536) = false) {bs : List Byte}
    (hlen : bs.length = 64) :
    let lo := a / 64 * 64
    let t := s.putPage lo bs
    Frame [.mem] s t ∧ memRead t.mem.cells lo 64 = bs
      ∧ (∀ q, q < lo ∨ lo + 64 ≤ q → memGet t.mem.cells q = memGet s.mem.cells q)
      ∧ t.mem.waiting = s.mem.waiting.filter (fun (w : WaitWrite) => !(w.owner == 5 && decide (lo ≤ w.addr) && decide (w.addr < lo + 64)))
      ∧ (∀ o ∈ t.mem.onyx, ∀ w ∈ o.writeBacks, w.addr < lo ∨ lo + 64 ≤ w.addr)
      ∧ t.mem = { s.mem with cells := t.mem.cells, onyx := t.mem.onyx, waiting := t.mem.waiting } := by
  have hbs : bs ≠ [] := List.ne_nil_of_length_pos (by omega)
  have hbeat : a / 64 * 64 / 32 * 32 = a / 64 * 64 := by omega
  have hpage : s.mem.pageRetired (a / 64 * 64 / 65536) = false := by rw [show a / 64 * 64 / 65536 = a / 65536 by omega, hret]
  dsimp only
  rw [State.putPage_stored hbs hpage]
  refine ⟨s.set_mem_frame _, ?_, fun q hq => memGet_memWrite_other bs (hlen ▸ hq), ?_, fun o ho w hwb => ?_, rfl⟩
  · have hread := memRead_memWrite hwf (a / 64 * 64) bs
    rwa [hlen] at hread
  · simp only [Mem.stored, hbeat, hlen]
    rfl
  · simp only [Mem.stored, hbeat, hlen, List.mem_map] at ho
    obtain ⟨o', -, rfl⟩ := ho
    have hkept := (List.mem_filter.mp hwb).2
    simp only [Bool.not_eq_true', Bool.and_eq_false_iff, decide_eq_false_iff_not] at hkept
    omega

theorem State.putPage_retired {s : State} {a : Nat} {bs : List Byte} (hbs : bs ≠ []) (hret : s.mem.pageRetired (a / 65536) = true) :
    s.putPage a bs = { s with mem := { s.mem with retiredHit := s.mem.retiredHit + 1 } } := by
  have hne : ¬ bs.isEmpty = true := by simpa using hbs
  rw [State.putPage, if_neg hne, if_pos hret]

/-- A region under a march: the free value says whether the line is stored or lost (R304). -/
theorem State.hostWrite_march_line {addr : Nat} (hw : s.windowAddr addr = some a) (ha : a < devEnd) (hf : s.fuses.state ≠ 4)
    (hm : s.underMarch (a / 64) = true) (hwf : s.mem.cells.wf = true) (hret : s.mem.pageRetired (a / 65536) = false) {bs : List Byte}
    (hlen : bs.length = 64) : Frame [.mem, .freeCtr] s (s.hostWrite addr bs)
      ∧ ((s.hostWrite addr bs).mem = s.mem ∨ memRead (s.hostWrite addr bs).mem.cells (a / 64 * 64) 64 = bs) := by
  have hfree := s.set_freeCtr_frame (s.freeCtr + 1)
  rw [State.hostWrite_march hw ha hf hm, sliceB_whole hlen]
  by_cases hlost : (s.free 2).1 = 0
  · rw [if_pos hlost]
    exact ⟨hfree.weaken (by simp), .inl rfl⟩
  · rw [if_neg hlost]
    obtain ⟨hframe, hread, -⟩ := State.putPage_line (s := (s.free 2).2) hwf hret hlen
    exact ⟨Frame.trans hfree hframe (by simp) (by simp), .inr hread⟩

end

/-! ### The host's answer to a snoop -/

/-- Waiting writes take place in order (R338). -/
def State.putWaiting (s : State) (ws : List WaitWrite) : State := ws.foldl (fun s w => s.putPage w.addr w.bytes) s

/-- What waiting writes of one line leave once they have taken place: their bytes, and of all else in memory that an answer speaks of
nothing changed. -/
structure State.TookPlace (ws : List WaitWrite) (s t : State) : Prop where
  frame : Frame [.mem] s t
  snoop : t.mem.snoop = s.mem.snoop
  waiting : t.mem.waiting = s.mem.waiting
  cells : t.mem.cells = ws.foldl (fun c (w : WaitWrite) => memWrite c w.addr w.bytes) s.mem.cells

theorem State.putPage_frame (s : State) (a : Nat) (bs : List Byte) : Frame [.mem] s (s.putPage a bs) := by
  obtain ⟨m, hm⟩ := s.putPage_eq a bs
  rw [hm]
  exact s.set_mem_frame m

/-- A write within one line drops no waiting write of another line. -/
theorem State.putPage_waiting_line {s : State} {a l : Nat} {bs : List Byte} (ha : a / 64 = l) (hlen : a % 64 + bs.length ≤ 64)
    (hrest : ∀ w ∈ s.mem.waiting, w.addr / 64 ≠ l) (hret : s.mem.pageRetired (a / 65536) = false) :
    (s.putPage a bs).mem.waiting = s.mem.waiting := by
  by_cases hbs : bs = []
  · rw [hbs]
    rfl
  · rw [State.putPage_stored hbs hret]
    refine List.filter_eq_self.mpr fun w hw => ?_
    have hother := hrest w hw
    simp only [Bool.not_eq_true', Bool.and_eq_false_iff, decide_eq_false_iff_not]
    omega

theorem State.putWaiting_tookPlace {l : Nat} (ws : List WaitWrite) {s : State} (hrest : ∀ w ∈ s.mem.waiting, w.addr / 64 ≠ l)
    (hws : ∀ w ∈ ws, w.addr / 64 = l ∧ s.mem.pageRetired (w.addr / 65536) = false ∧ w.addr % 64 + w.bytes.length ≤ 64) :
    s.TookPlace ws (s.putWaiting ws) := by
  induction ws generalizing s with
  | nil => exact ⟨Frame.refl _ _, rfl, rfl, rfl⟩
  | cons w ws ih =>
    obtain ⟨hline, hret, hlen⟩ := hws w List.mem_cons_self
    have hwrote := s.putPage_wrote w.addr w.bytes
    have hwaiting := State.putPage_waiting_line hline hlen hrest hret
    have hcells := s.putPage_stores (bs := w.bytes) hret
    have hframe := s.putPage_frame w.addr w.bytes
    have hstep : s.putWaiting (w :: ws) = (s.putPage w.addr w.bytes).putWaiting ws := rfl
    rw [hstep]
    generalize s.putPage w.addr w.bytes = u at *
    have hlater := ih (s := u) (hwaiting ▸ hrest) fun x hx => by
      rw [hwrote.retired]
      exact hws x (List.mem_cons_of_mem _ hx)
    exact ⟨Frame.trans hframe hlater.frame (by simp) (by simp), hlater.snoop.trans hwrote.snoop, hlater.waiting.trans hwaiting, by
      rw [hlater.cells, hcells, List.foldl_cons]⟩

/-- The state once a line has left the filter and the writes that wait for it have left the queue. -/
def State.unheld (s : State) (l : Nat) : State :=
  { s with mem := { s.mem with
    snoop := s.mem.snoop.filter fun k => k != l
    waiting := s.mem.waiting.filter fun (w : WaitWrite) => w.addr / 64 != l } }

/-- The state once, besides, those writes have taken place. -/
def State.released (s : State) (l : Nat) : State := (s.unheld l).putWaiting (s.mem.waiting.filter fun (w : WaitWrite) => w.addr / 64 == l)

theorem exec_backInvalidationResponse {s : State} {l : Nat} (hpow : s.power.powered = true) (hlink : s.power.linkUp = true)
    (hide : s.ideUp 2 = true) : exec (.backInvalidationResponse l) s = .next (s.released l).deliverLate := by
  simp only [exec, execBackInvalidationResponse, hpow, hlink, hide, Bool.and_self, if_true]
  rfl

/-- What an answer of the host does to memory (R338). -/
structure State.Answered (l : Nat) (s t : State) : Prop where
  frame : Frame [.mem] s t
  snoop : t.mem.snoop = s.mem.snoop.filter fun k => k ≠ l
  waiting : t.mem.waiting = s.mem.waiting.filter fun (w : WaitWrite) => w.addr / 64 ≠ l
  cells : t.mem.cells = (s.mem.waiting.filter fun (w : WaitWrite) => w.addr / 64 = l).foldl
    (fun c (w : WaitWrite) => memWrite c w.addr w.bytes) s.mem.cells

theorem State.released_answered {s : State} {l : Nat}
    (hws : ∀ w ∈ s.mem.waiting, w.addr / 64 = l → s.mem.pageRetired (w.addr / 65536) = false ∧ w.addr % 64 + w.bytes.length ≤ 64) :
    s.Answered l (s.released l) := by
  have htook := State.putWaiting_tookPlace (l := l) (s.mem.waiting.filter fun (w : WaitWrite) => w.addr / 64 == l) (s := s.unheld l)
    (fun w hw => by simpa using (List.mem_filter.mp hw).2) fun w hw => by
      obtain ⟨hmem, hline⟩ := List.mem_filter.mp hw
      exact ⟨beq_iff_eq.mp hline, hws w hmem (beq_iff_eq.mp hline)⟩
  refine ⟨Frame.trans (s.set_mem_frame _) htook.frame (by simp) (by simp), ?_, ?_, htook.cells⟩
  · rw [State.released, htook.snoop]
    simp only [State.unheld, bne, beq_eq_decide, ne_eq, decide_not]
  · rw [State.released, htook.waiting]
    simp only [State.unheld, bne, beq_eq_decide, ne_eq, decide_not]

/-! ### Completions that waited -/

theorem State.set_late_frame (s : State) (l : List Late) : Frame [.late] s { s with late := l } := by
  intro p hp
  cases p with
  | late => simp at hp
  | _ => rfl

/-- Completions leave once no write of their commands waits (R338). -/
theorem State.deliverLate_frame (s : State) : Frame [.late, .mailboxes, .ints, .out] s s.deliverLate
    ∧ s.deliverLate.late = s.late.filter fun (d : Late) => s.mem.owes d.mbx := by
  have hdeliver : Frame [.mailboxes, .ints, .out] { s with late := s.late.filter fun (l : Late) => s.mem.owes l.mbx } s.deliverLate :=
    Frame.foldl (fun (s : State) (l : Late) => s.deliver_frame l.mbx l.status l.data) _ _
  exact ⟨Frame.trans (s.set_late_frame _) hdeliver (by simp) (by simp), hdeliver .late (by simp)⟩

theorem State.deliverLate_none {s : State} (h : s.late = []) : s.deliverLate = s := by
  have hnone : s.deliverLate = { s with late := [] } := by
    rw [State.deliverLate, h]
    rfl
  rw [hnone, ← h]

/-- A command that owes no write any more completes. -/
theorem State.deliverLate_one {s : State} {d : Late} (h : s.late = [d]) (ho : s.mem.owes d.mbx = false) :
    s.deliverLate = ({ s with late := [] } : State).deliver d.mbx d.status d.data := by
  simp only [State.deliverLate, h, List.filter_cons, ho, Bool.not_false, if_true, Bool.false_eq_true, if_false, List.filter_nil,
    List.foldl_cons, List.foldl_nil]

/-- The command whose last write took place completes (R338). -/
theorem State.Answered.completes {s t : State} {l : Nat} (h : s.Answered l t) {d : Late} (hlate : s.late = [d]) (hd : d.mbx < 4)
    (h4 : s.mailboxes.length = 4) (hwf : (s.mbx d.mbx).payload.wf = true) (hlast : ∀ w ∈ s.mem.waiting, w.owner = d.mbx → w.addr / 64 = l) :
    t.deliverLate.late = [] ∧ (t.deliverLate.mbx d.mbx).Holds d.status d.data ∧ s.OthersKept d.mbx t.deliverLate := by
  have hboxes : t.mailboxes = s.mailboxes := h.frame.mailboxes_eq
  have hlate' : t.late = [d] := Eq.trans (h.frame .late (by simp)) hlate
  have howes : t.mem.owes d.mbx = false := by
    rw [Mem.owes, h.waiting, List.any_eq_false]
    intro w hw
    obtain ⟨hmem, hother⟩ := List.mem_filter.mp hw
    intro howner
    exact of_decide_eq_true hother (hlast w hmem (beq_iff_eq.mp howner))
  have hmbx : t.mbx d.mbx = s.mbx d.mbx := by rw [State.mbx, State.mbx, hboxes]
  rw [State.deliverLate_one hlate' howes]
  refine ⟨State.deliver_frame _ _ _ _ .late (by simp), State.deliver_holds _ _ _ hd (by exact hboxes ▸ h4) (by exact hmbx ▸ hwf), ?_⟩
  intro k hk
  rw [State.deliver_others _ _ _ _ k hk, hboxes]

/-! ### A write that waits for the host -/

/-- The state in which a write waits for the host, which has been snooped for its line (R338); the filling of its beats has moved the free
values on. -/
def State.awaiting (s : State) (w : WaitWrite) (k : Nat) : State :=
  { s with
    mem := { s.mem with waiting := s.mem.waiting ++ [w] }
    out := { s.out with snoops := s.out.snoops ++ [w.addr / 64] }
    freeCtr := k }

/-- An unordered write within a line that the host may hold: its beats wait, and the line is snooped (R338, R340). -/
theorem exec_unorderedIoWrite_tracked {s : State} {a : Nat} {bs : List Byte} (hio : s.ioUp = true) (hide : s.ideUp 3 = true)
    (hlo : 0xBFA0000000 ≤ a) (hhi : a + bs.length ≤ 0xC000000000) (hbs : bs ≠ []) (hline : a % 64 + bs.length ≤ 64)
    (hreach : s.ioReach a = true) (hheld : a / 64 ∈ s.mem.snoop) : ∃ k pre post,
      exec (.unorderedIoWrite a bs) s = .next (s.awaiting ⟨a / 32 * 32, pre ++ bs ++ post, s.mem.writer⟩ k)
      ∧ a / 32 * 32 + pre.length = a ∧ a + bs.length + post.length = roundUp (a + bs.length) 32 := by
  obtain ⟨k, pre, post, hdev, hpre, hpost⟩ := s.writeDev_beats a hbs
  have hin : ¬ (a < landBase ∨ a + bs.length > devEnd) := by simp only [landBase, devEnd]; omega
  have hsame : a / 32 * 32 / 64 = a / 64 := by omega
  have hnil : pre ++ bs ++ post ≠ [] := by simp [hbs]
  have hfits : (pre ++ bs ++ post).length ≤ 64 - a / 32 * 32 % 64 := by
    simp only [List.length_append]
    simp only [roundUp, ceilDiv] at hpost
    omega
  have hheld' : a / 32 * 32 / 64 ∈ ({ s with freeCtr := k } : State).mem.snoop := hsame ▸ hheld
  refine ⟨k, pre, post, ?_, hpre, hpost⟩
  simp only [exec, execUnorderedIoWrite, hio, Bool.not_true, Bool.false_eq_true, if_false, if_neg hin, State.writeIo, hreach, if_true]
  rw [hdev, State.writeBeats_eq, State.writeLines_line _ _ _ hnil hfits, State.writeLine_tracked _ hheld',
    State.emit_open (p := .snoop (a / 32 * 32 / 64)) (by exact hide)]
  rfl

/-- The host's answer stores the write that waits alone, within its line. -/
theorem State.awaiting_answered {s : State} {w : WaitWrite} (k : Nat) (hio : s.ioUp = true) (hide : s.ideUp 2 = true)
    (hnone : s.mem.waiting = []) (hlate : s.late = []) (hret : s.mem.pageRetired (w.addr / 65536) = false)
    (hlen : w.addr % 64 + w.bytes.length ≤ 64) : ∃ u, exec (.backInvalidationResponse (w.addr / 64)) (s.awaiting w k) = .next u
      ∧ w.addr / 64 ∉ u.mem.snoop ∧ u.mem.waiting = [] ∧ u.mem.cells = memWrite s.mem.cells w.addr w.bytes := by
  obtain ⟨⟨hpow, hlink⟩, -⟩ : (s.power.powered = true ∧ s.power.linkUp = true) ∧ s.ideUp 0 = true := by
    simpa only [State.ioUp, Bool.and_eq_true] using hio
  have hone : (s.awaiting w k).mem.waiting = [w] := congrArg (· ++ [w]) hnone
  have hrel := State.released_answered (s := s.awaiting w k) (l := w.addr / 64) fun x hx _ => by
    rw [hone, List.mem_singleton] at hx
    rw [hx]
    exact ⟨hret, hlen⟩
  have hnolate : ((s.awaiting w k).released (w.addr / 64)).late = [] := Eq.trans (hrel.frame .late (by simp)) hlate
  have hanswer := exec_backInvalidationResponse (s := s.awaiting w k) (l := w.addr / 64) hpow hlink hide
  rw [State.deliverLate_none hnolate] at hanswer
  refine ⟨_, hanswer, ?_, ?_, ?_⟩
  · rw [hrel.snoop]
    simp
  · rw [hrel.waiting, hone]
    simp
  · rw [hrel.cells, hone]
    simp [State.awaiting]

/-! ### The obligation -/

/-- Settles O30: the window by the cases of a host's access, the host's answer by the writes that it releases, and an unordered write by
both, since its one waiting write is what the answer releases. -/
theorem hostMemoryAccesses : Obligations.HostMemoryAccesses := by
  refine ⟨fun s base hup hdm hwf => ⟨fun errs bs a ha i hi => ?_, fun a errs ha hf => ?_, fun a bs ha hf => ?_, fun a ha hf hm => ⟨?_, ?_⟩,
    fun a ha hf hm => ⟨?_, ?_, ?_⟩⟩, ?_, ?_⟩
  · have hw := State.windowAddr_outside hdm ha
    rcases List.mem_pair.mp hi with rfl | rfl
    · exact ⟨_, exec_hostMemRead hup a errs, State.hostRead_outside hw errs⟩
    · exact ⟨_, exec_hostMemWrite hup a bs, State.hostWrite_outside hw bs⟩
  · exact ⟨_, exec_hostMemRead hup _ errs, State.hostRead_scrapped (State.windowAddr_inside hdm ha) ha hf errs⟩
  · exact ⟨_, exec_hostMemWrite hup _ bs, State.hostWrite_scrapped (State.windowAddr_inside hdm ha) ha hf bs⟩
  · intro errs hide
    obtain ⟨bs, hfree⟩ := State.hostRead_march_open (State.windowAddr_inside hdm ha) ha hf hm hide errs
    exact ⟨_, bs, exec_hostMemRead hup _ errs, hfree⟩
  · intro bs hlen hret
    exact ⟨_, exec_hostMemWrite hup _ bs, State.hostWrite_march_line (State.windowAddr_inside hdm ha) ha hf hm hwf hret hlen⟩
  · intro hide hret hreach
    refine ⟨_, exec_hostMemRead hup _ [], ?_⟩
    rw [State.hostRead_line (State.windowAddr_inside hdm ha) ha hf hm (State.readLine_quiet hret hreach)]
    exact State.track_answers hide _
  · intro errs hret
    exact ⟨_, exec_hostMemRead hup _ errs, State.hostRead_failed (State.windowAddr_inside hdm ha) ha hf hm (State.readLine_retired hret errs)⟩
  · intro bs hlen
    have hwrite := State.hostWrite_line (State.windowAddr_inside hdm ha) ha hf hm bs
    rw [sliceB_whole hlen] at hwrite
    refine ⟨fun hret => ⟨_, exec_hostMemWrite hup _ bs, ?_⟩, fun hret => ⟨_, exec_hostMemWrite hup _ bs, ?_⟩⟩
    · rw [hwrite]
      exact State.putPage_line hwf hret hlen
    · rw [hwrite]
      exact State.putPage_retired (List.ne_nil_of_length_pos (by omega)) (by rw [show a / 64 * 64 / 65536 = a / 65536 by omega, hret])
  · intro s l hpow hlink hide hws
    have hrel := State.released_answered hws
    obtain ⟨hframe, hlate⟩ := (s.released l).deliverLate_frame
    have hmem : (s.released l).deliverLate.mem = (s.released l).mem := hframe.mem_eq
    have hlate' : (s.released l).late = s.late := hrel.frame .late (by simp)
    refine ⟨_, exec_backInvalidationResponse hpow hlink hide, Frame.trans hrel.frame hframe (by simp) (by simp), ?_, ?_, ?_, ?_, ?_, ?_⟩
    · rw [hmem, hrel.snoop]
    · rw [hmem, hrel.waiting]
    · rw [hmem, hrel.cells]
    · rw [hlate, hmem, hlate']
    · intro hnone
      rw [State.deliverLate_none (hlate'.trans hnone)]
      exact hrel.frame
    · intro d hd hd4 h4 hpay hlast
      exact hrel.completes hd hd4 h4 hpay hlast
  · intro s a bs hio hide2 hide3 hlo hbs hline hhi hwf hnone hlate hret hreach hheld
    obtain ⟨k, pre, post, hexec, hpre, hpost⟩ := exec_unorderedIoWrite_tracked hio hide3 hlo hhi hbs hline hreach hheld
    have hsame : a / 32 * 32 / 64 = a / 64 := by omega
    have hend : a / 32 * 32 + (pre ++ bs ++ post).length = roundUp (a + bs.length) 32 := by
      simp only [List.length_append]
      omega
    have hfits : a / 32 * 32 % 64 + (pre ++ bs ++ post).length ≤ 64 := by
      simp only [roundUp, ceilDiv] at hend
      omega
    obtain ⟨u, hanswer, hsnoop, hwaiting, hcells⟩ := State.awaiting_answered (w := ⟨a / 32 * 32, pre ++ bs ++ post, s.mem.writer⟩) k hio hide2
      hnone hlate (by rwa [show a / 32 * 32 / 65536 = a / 65536 by omega]) hfits
    refine ⟨_, u, hexec, rfl, congrArg (fun l => s.out.snoops ++ [l]) hsame, hsame ▸ hanswer, hsame ▸ hsnoop, hwaiting, ?_, fun q hq => ?_⟩
    · have hread := memRead_memWrite_middle hwf (a / 32 * 32) pre bs post
      rw [hcells]
      rwa [hpre] at hread
    · rw [hcells]
      exact memGet_memWrite_other _ (hend ▸ hq)

end Sys2Proof.Machine
end

section
/-!
SUPPORT. An event of Belfry that raises a vector with its record (R354, R355).
-/
namespace Sys2Proof.Machine

open Sys2Proof

/-- A record and its vector: the vector's bit of INT_RAISED is set, and but for the event log, interrupts and messages nothing changes. -/
theorem State.event_raise (s : State) (src : EvSrc) (code : Nat) (fs : List (Nat × Nat)) (v : Nat) :
    ((s.event src code fs).raise v).ints.raised = s.ints.raised ||| (1#10 <<< v)
      ∧ Frame [.evt, .ints, .out] s ((s.event src code fs).raise v) := by
  have hevent := s.event_frame src code fs
  refine ⟨?_, Frame.trans hevent (State.raise_frame _ v) (by simp) (by simp)⟩
  obtain ⟨p, o, hraise⟩ := (s.event src code fs).raise_eq v
  rw [hraise]
  exact congrArg (·.raised ||| (1#10 <<< v)) (hevent .ints (by simp))

end Sys2Proof.Machine
end

section
/-!
O37. The supply floor (R323, Table 12.4) and the thermal cap (R316, R322, Table 12.3).
-/
namespace Sys2Proof.Machine

open Sys2Proof

theorem State.set_thermal_frame (s : State) (th : Thermal) : Frame [.thermal] s { s with thermal := th } := by
  intro p hp
  cases p with
  | thermal => simp at hp
  | _ => rfl

/-! ### Supply -/

section
variable (s : State)

/-- What a supply below 49.0 V sets before it is recorded: the floor, the count, and the alert bit (Table 12.4). -/
def State.supplyFloored : State := { s with
  belfry := { s.belfry with supplyFloor := true, bubble := max s.belfry.bubble 48 }
  measure := { s.measure with supplyWarn := s.measure.supplyWarn + 1 }
  power := { s.power with smbAlert := s.power.smbAlert ||| 4 } }

theorem State.supplyFloored_frame : Frame [.belfry, .measure, .power] s s.supplyFloored := by
  intro p hp
  cases p with
  | belfry | measure | power => simp at hp
  | _ => rfl

theorem State.supplyWarn_low {mv : Nat} (h : mv < 49000) :
    ∃ src, s.supplyWarn mv = (s.supplyFloored.event src 0x0602 [(2, mv)]).raise 6 :=
  ⟨_, if_pos (decide_eq_true h)⟩

theorem State.supplyWarn_high {mv : Nat} (h : 49000 ≤ mv) : s.supplyWarn mv = s :=
  if_neg (by simpa using h)

end

/-! ### Junction samples -/

section
variable (s : State) (j : Junction)

/-- The register of a tower in service holds the reading as a byte of two's complement (Table 15.6). -/
theorem tempByte_ofInt (i : Int) : BitVec.ofNat 8 (tempByte i) = BitVec.ofInt 8 i := by
  rw [← BitVec.ofInt_natCast, tempByte, Int.toNat_of_nonneg (Int.emod_nonneg i (by decide))]
  exact BitVec.eq_of_toInt_eq (by simpa [BitVec.toInt_ofInt] using Int.emod_bmod i 256)

theorem State.storeTj_frame : Frame [.towers] s (s.storeTj [j]) := by
  unfold State.storeTj
  exact Frame.foldl (fun t k => by split; exacts [t.modTower_frame _ _, Frame.refl _ _]) _ _

theorem State.storeTj_tower {s : State} {j : Junction} (hlen : s.towers.length = 324) (hj : j.unit < 324)
    (hin : (s.tower j.unit).inService = true) : ((s.storeTj [j]).tower j.unit).tj = BitVec.ofInt 8 j.temp := by
  have hstore : s.storeTj [j] = s.modTower j.unit _ := if_pos hj
  rw [hstore, State.tower_modTower_same _ _ (hlen ▸ hj), if_pos hin]
  exact tempByte_ofInt j.temp

/-- The rail of the only sensor takes its reading, and every other rail keeps its last (R316). -/
theorem railTemps_single (old : List Int) (r : Nat) :
    (railTemps old [j])[r]? = (old[r]?).map fun x => if railOf j.unit = r then j.temp else x := by
  rw [railTemps, List.getElem?_mapIdx]
  by_cases hr : railOf j.unit = r <;> simp [hottest, hr]

/-- What a warning of 95 °C leaves: whether the sample is above it, and vector 7 at an upward crossing (Table 12.3). -/
theorem State.thermalWarn_crossing : (s.thermalWarn j).thermal = { s.thermal with above95 := decide (95 ≤ j.temp) }
    ∧ (s.thermalWarn j).ints.raised = (if 95 ≤ j.temp ∧ s.thermal.above95 = false then s.ints.raised ||| 128 else s.ints.raised)
    ∧ Frame [.thermal, .power, .evt, .ints, .out] s (s.thermalWarn j) := by
  have hset (pw : Power) (th : Thermal) : Frame [.thermal, .power] s { s with thermal := th, power := pw } := by
    intro p hp
    cases p with
    | thermal | power => simp at hp
    | _ => rfl
  unfold State.thermalWarn
  by_cases hup : 95 ≤ j.temp ∧ s.thermal.above95 = false
  · rw [if_pos (by simpa using hup), if_pos hup]
    obtain ⟨hraised, hframe⟩ := State.event_raise { s with
      thermal := { s.thermal with above95 := decide (j.temp ≥ 95) }
      power := { s.power with smbAlert := s.power.smbAlert ||| 1 } } .module 0x0604 [(2, j.unit), (1, tempByte j.temp)] 7
    exact ⟨hframe.thermal_eq, hraised, Frame.trans (hset _ _) hframe (by simp) (by simp)⟩
  · rw [if_neg (by simpa using hup), if_neg hup]
    exact ⟨rfl, rfl, (hset s.power _).weaken (by simp)⟩

theorem State.thermalCapSample_frame : Frame [.thermal, .belfry] s (s.thermalCapSample j) := by
  intro p hp
  cases p with
  | thermal | belfry => simp at hp
  | _ => rfl

/-- From 100 °C the thermal cap falls by 20 W at once, where it does not fall already (Table 12.3). -/
theorem State.thermalCapSample_belfry : (s.thermalCapSample j).belfry = if 100 ≤ j.temp ∧ s.thermal.falling = false then
    { s.belfry with thermalCap := max 80 (s.belfry.thermalCap - 2) } else s.belfry := by
  simp [State.thermalCapSample]

/-- Below 105 °C with no floor in force the last row of Table 12.3 does nothing. -/
theorem State.thermalCrit_below {s : State} {j : Junction} (hfloor : s.belfry.thermalFloor = false) (hj : j.temp < 105) :
    s.thermalCrit j = s := by
  unfold State.thermalCrit
  rw [if_neg (by simp; omega), if_neg (by simp [hfloor])]

/-- The state with a sample's reading stored: the register of its tower, the hottest junction and its rail (R316, R322). -/
def State.junctionStored : State := { s.storeTj [j] with
  thermal := { s.thermal with temp := j.temp, unit := j.unit, rails := railTemps s.thermal.rails [j] } }

theorem State.junctionStored_frame : Frame [.towers, .thermal] s (s.junctionStored j) := by
  exact Frame.trans (s.storeTj_frame j) ((s.storeTj [j]).set_thermal_frame _) (by simp) (by simp)

/-- A sample of one reading, below 105 °C and with no floor in force: it is stored, and the rows of 95 and 100 °C act (Table 12.3). -/
theorem State.thermalSample_below {s : State} {j : Junction} (hfloor : s.belfry.thermalFloor = false) (hj : j.temp < 105) :
    s.thermalSample [j] = ((s.junctionStored j).thermalWarn j).thermalCapSample j := by
  have hstored : s.thermalSample [j] = (((s.junctionStored j).thermalWarn j).thermalCapSample j).thermalCrit j := by
    rw [State.junctionStored, ← (s.storeTj_frame j).thermal_eq]
    rfl
  have hwarn := (State.thermalWarn_crossing (s.junctionStored j) j).2.2
  have hkept : ((s.junctionStored j).thermalWarn j).belfry = s.belfry := hwarn.belfry_eq.trans (s.junctionStored_frame j).belfry_eq
  rw [hstored, State.thermalCrit_below ?_ hj]
  rw [State.thermalCapSample_belfry, hkept]
  split <;> exact hfloor

end

/-! ### The commands -/

section
variable {s : State} (hpow : s.power.powered = true)
include hpow

theorem exec_supplyWarn (mv : Nat) : exec (.supplyWarn mv) s = .next (s.supplyWarn mv) :=
  congrArg Host.Outcome.next (State.whenOn_powered hpow _)

theorem exec_supplyResume (lowest micros : Nat) (hfloor : s.belfry.supplyFloor = true) : exec (.supplyResume lowest micros) s = .next
    ((({ s with belfry := { s.belfry with supplyFloor := false } } : State).event .module 0x0603 [(2, lowest), (4, micros)]).raise 6) :=
  congrArg Host.Outcome.next ((State.whenOn_powered hpow _).trans (if_pos hfloor))

theorem exec_thermalSample (l : List Junction) : exec (.thermalSample l) s = .next (s.thermalSample l) :=
  congrArg Host.Outcome.next (State.whenOn_powered hpow _)

/-- A step of the thermal cap, down while the sample is at or above 100 °C, up while it is at or below 97 °C (Table 12.3). -/
theorem exec_thermalCapStep : exec .thermalCapStep s = .next { s with
    belfry := { s.belfry with thermalCap := if s.thermal.falling then max 80 (s.belfry.thermalCap - 2)
      else if s.thermal.rising then min 240 (s.belfry.thermalCap + 2) else s.belfry.thermalCap } } := by
  refine congrArg Host.Outcome.next ((State.whenOn_powered hpow _).trans ?_)
  unfold State.thermalCapStep
  cases s.thermal.falling <;> cases s.thermal.rising <;> rfl

end

/-- Settles O37: the events of the supply as a record and a vector; a sample by the rows of Table 12.3 one after another. -/
theorem supplyAndThermal : Obligations.SupplyAndThermal := by
  refine ⟨fun s hpow => ⟨fun mv hlow => ?_, fun mv hhigh => ?_, fun lowest micros hfloor => ?_⟩,
    fun s j hpow hfloor hlen => ⟨fun hj => ?_, _, exec_thermalCapStep hpow, s.set_belfry_frame _, rfl⟩⟩
  · obtain ⟨src, hwarn⟩ := s.supplyWarn_low hlow
    obtain ⟨hraised, hframe⟩ := s.supplyFloored.event_raise src 0x0602 [(2, mv)] 6
    refine ⟨_, (exec_supplyWarn hpow mv).trans (congrArg Host.Outcome.next hwarn), hframe.belfry_eq, hframe.measure_eq, hframe.power_eq, hraised,
      Frame.trans s.supplyFloored_frame hframe (by simp) (by simp)⟩
  · rw [exec_supplyWarn hpow, s.supplyWarn_high hhigh]
  · obtain ⟨hraised, hframe⟩ := State.event_raise { s with belfry := { s.belfry with supplyFloor := false } } .module 0x0603
      [(2, lowest), (4, micros)] 6
    exact ⟨_, exec_supplyResume hpow lowest micros hfloor, hframe.belfry_eq, hraised,
      Frame.trans (s.set_belfry_frame _) hframe (by simp) (by simp)⟩
  · have hstore := s.junctionStored_frame j
    obtain ⟨hthermal, hraised, hwarn⟩ := (s.junctionStored j).thermalWarn_crossing j
    have hcap := ((s.junctionStored j).thermalWarn j).thermalCapSample_frame j
    have htherm : (((s.junctionStored j).thermalWarn j).thermalCapSample j).thermal = { (s.junctionStored j).thermal with
        above95 := decide (95 ≤ j.temp), falling := decide (100 ≤ j.temp), rising := decide (j.temp ≤ 97) } :=
      congrArg (fun th : Thermal => { th with falling := decide (j.temp ≥ 100), rising := decide (j.temp ≤ 97) }) hthermal
    refine ⟨_, (exec_thermalSample hpow [j]).trans (congrArg Host.Outcome.next (State.thermalSample_below hfloor hj)),
      congrArg Thermal.temp htherm, congrArg Thermal.unit htherm, congrArg Thermal.falling htherm, congrArg Thermal.rising htherm,
      congrArg Thermal.above95 htherm, ?_, ?_, fun hunit hin => ?_, fun r => ?_, ?_⟩
    · rw [State.thermalCapSample_belfry, hwarn.belfry_eq, hthermal, hstore.belfry_eq]
      rfl
    · refine (congrArg Ints.raised (hcap .ints (by simp))).trans (hraised.trans ?_)
      rw [hstore .ints (by simp)]
      rfl
    · rw [hcap.tower_eq, hwarn.tower_eq]
      exact State.storeTj_tower hlen hunit hin
    · rw [htherm]
      exact railTemps_single j s.thermal.rails r
    · exact Frame.trans hstore (Frame.trans (k := [.thermal, .belfry, .power, .evt, .ints, .out]) hwarn hcap (by simp) (by simp))
        (by simp) (by simp)

end Sys2Proof.Machine
end

section
/-!
O40. The slow loop (R315, R319) and the power sample (R310, Table 12.1).
-/
namespace Sys2Proof.Machine

open Sys2Proof

/-! ### The correction and the clamp -/

/-- The correction lies between 0.85 and 1.15, as a fraction of a positive denominator (R319). -/
theorem correction_bounds (meas raw : Nat) : (correction meas raw).1 * 100 ≥ 85 * (correction meas raw).2
    ∧ (correction meas raw).1 * 100 ≤ 115 * (correction meas raw).2 ∧ 0 < (correction meas raw).2 := by
  unfold correction
  split
  · simp
  · split
    · simp
    · split
      · simp
      · dsimp only
        omega

/-- The clamp of the coolant class: closed above the limit, open at 98% of it, and between them as it stood (R315). -/
def nextClamp (lim avg : Nat) (old : Bool) : Bool := if avg > lim then true else if avg * 100 ≤ lim * 98 then false else old

theorem nextClamp_closes {lim avg : Nat} (h : avg > lim) (old : Bool) : nextClamp lim avg old = true := if_pos h

theorem nextClamp_opens {lim avg : Nat} (h : avg * 100 ≤ lim * 98) (old : Bool) : nextClamp lim avg old = false :=
  (if_neg (by omega)).trans (if_pos h)

/-! ### The end of a millisecond -/

section
variable (m : Measure)

/-- The means of the measured and of the raw power over the millisecond that ends, of the last values without a sample. -/
def Measure.measMean : Nat := if m.measN = 0 then m.meas else m.measSum / m.measN
def Measure.rawMean : Nat := if m.rawN = 0 then m.raw else m.rawSum / m.rawN

/-- The milliseconds in a row in which the two means lie more than 15% apart (R319). -/
def Measure.divergence : Nat :=
  if m.measOnly then 0
  else if (if m.rawMean ≥ m.measMean then m.rawMean - m.measMean else m.measMean - m.rawMean) * 100 > 15 * m.measMean then m.divergent + 1
  else 0

/-- The measurements at the start of the next millisecond. -/
def Measure.nextPeriod : Measure := { m with
  rawSum := 0, rawN := 0, measSum := 0, measN := 0
  window := (m.measMean :: m.window).take 10000
  cNum := (correction m.measMean m.rawMean).1, cDen := (correction m.measMean m.rawMean).2, divergent := m.divergence }

end

/-- The state at the end of a millisecond, before a divergence of fifty is judged. -/
def State.periodClosed (s : State) : State := { s with
  measure := s.measure.nextPeriod
  belfry := { s.belfry with clamp := nextClamp (classLimit s.belfry.coolant * 10000) s.measure.nextPeriod.average s.belfry.clamp }
  towers := s.towers.map fun x => { x with droopHist := ((0, 0) :: x.droopHist).take 101 } }

/-- The slow loop closes the millisecond; at fifty of divergence the block goes over to measurement only, with its record and vector 6
(R319). -/
theorem State.slowLoop_eq (s : State) : ∃ fs, s.slowLoop =
    if s.measure.divergence ≥ 50 then
      (({ s.periodClosed with measure := { s.measure.nextPeriod with measOnly := true, divergent := 0 } } : State).event .module 0x0601 fs).raise 6
    else s.periodClosed :=
  ⟨_, rfl⟩

/-- In both cases the slow loop leaves what closes the millisecond, but for the mode and the count of divergence. -/
theorem State.slowLoop_leaves (s : State) : ∃ only div, (s.measure.measOnly = true → only = true)
    ∧ s.slowLoop.measure = { s.measure.nextPeriod with measOnly := only, divergent := div }
    ∧ s.slowLoop.belfry = s.periodClosed.belfry ∧ s.slowLoop.towers = s.periodClosed.towers
    ∧ Frame [.measure, .belfry, .towers, .evt, .ints, .out] s s.slowLoop := by
  have hclosed (m : Measure) : Frame [.measure, .belfry, .towers] s { s.periodClosed with measure := m } := by
    intro p hp
    cases p with
    | measure | belfry | towers => simp at hp
    | _ => rfl
  obtain ⟨fs, hloop⟩ := s.slowLoop_eq
  rw [hloop]
  split
  · obtain ⟨-, hframe⟩ := State.event_raise
      { s.periodClosed with measure := { s.measure.nextPeriod with measOnly := true, divergent := 0 } } .module 0x0601 fs 6
    exact ⟨true, 0, fun _ => rfl, hframe.measure_eq, hframe.belfry_eq, hframe.towers_eq, Frame.trans (hclosed _) hframe (by simp) (by simp)⟩
  · exact ⟨_, _, id, rfl, rfl, rfl, (hclosed _).weaken (by simp)⟩

/-! ### The power sample -/

/-- The input voltage of a sample is the lowest of its converters' (R310). -/
theorem lowestVin {l : List Reading} (h : l ≠ []) :
    (∃ c ∈ l, c.mv = ((l.map Reading.mv).min?).getD 0) ∧ ∀ c ∈ l, ((l.map Reading.mv).min?).getD 0 ≤ c.mv := by
  obtain ⟨v, hv⟩ := Option.isSome_iff_exists.mp (List.isSome_min?_of_ne_nil (l := l.map Reading.mv) (by simpa using h))
  obtain ⟨hmem, hle⟩ := List.min?_eq_some_iff.mp hv
  rw [hv]
  exact ⟨List.mem_map.mp hmem, fun c hc => hle _ (List.mem_map_of_mem hc)⟩

/-- A sample takes the converters' power together, and its energy over 50 microseconds (R310). -/
theorem State.powerSample_measure (s : State) (converters rails : List Reading) :
    let uw := (converters.map fun c => c.mv * c.ma).sum
    (s.powerSample converters rails).measure = { s.measure with
      meas := uw / 1000, measSum := s.measure.measSum + uw / 1000, measN := s.measure.measN + 1
      vin := ((converters.map Reading.mv).min?).getD 0, converters := converters, rails := rails
      energy := ⟨s.measure.energy.v + BitVec.ofNat 64 ((s.measure.energyRem + 50 * uw) / 1000000000), s.measure.energy.shadow⟩
      energyRem := (s.measure.energyRem + 50 * uw) % 1000000000 } := by
  dsimp only
  rw [List.sum_eq_foldl, List.foldl_map, Nat.mul_comm 50]
  rfl

/-! ### The commands -/

section
variable {s : State} (hpow : s.power.powered = true)
include hpow

theorem exec_slowLoopPeriod : exec .slowLoopPeriod s = .next s.slowLoop :=
  congrArg Host.Outcome.next (State.whenOn_powered hpow _)

theorem exec_powerMeasurementSample (converters rails : List Reading) :
    exec (.powerMeasurementSample converters rails) s = .next (s.powerSample converters rails) :=
  congrArg Host.Outcome.next (State.whenOn_powered hpow _)

end

/-- Settles O40: what the slow loop leaves by the correction and the clamp, and the sample by its sum and its minimum. -/
theorem slowLoopCorrects : Obligations.SlowLoopCorrects := by
  refine fun s hpow => ⟨⟨_, exec_slowLoopPeriod hpow, ?_⟩, fun converters rails => ?_⟩
  · obtain ⟨only, div, hkeeps, hmeasure, hbelfry, htowers, hframe⟩ := s.slowLoop_leaves
    obtain ⟨hlow, hhigh, hpos⟩ := correction_bounds s.measure.measMean s.measure.rawMean
    rw [hmeasure, hbelfry, htowers]
    refine ⟨hframe, rfl, hlow, hhigh, hpos, rfl, rfl, List.length_take_le _ _, rfl, fun habove => nextClamp_closes habove _,
      fun hbelow => nextClamp_opens hbelow _, hkeeps⟩
  · dsimp only
    have hmeasure := s.powerSample_measure converters rails
    refine ⟨_, exec_powerMeasurementSample hpow converters rails, s.set_measure_frame _, ?_, fun hne => ?_⟩
    · rw [hmeasure]
    · rw [hmeasure]
      exact lowestVin hne

end Sys2Proof.Machine
end

section
/-!
SUPPORT. AGEING as a cause of HOLD: raised whatever holds already (R331, R332), and bounded by the HOLD_MAX found.
-/
namespace Sys2Proof.Machine

open Sys2Proof

/-- HOLD_MAX lies at or below that of the cause that was raised last (R328). -/
theorem Belfry.holdMax_withCause_le (b : Belfry) (cause mx : Nat) : (b.withCause cause mx).holdMax ≤ mx := by
  rw [Belfry.holdMax, Belfry.withCause, List.foldl_append]
  exact Nat.min_le_right _ _

theorem Belfry.holdMax_boundRamp (b : Belfry) : b.boundRamp.holdMax = b.holdMax := by
  rw [Belfry.holdMax, b.boundRamp_leaves.1, Belfry.holdMax]

/-- AGEING joins the causes that hold, is recorded, and raises vector 6; no step stands at its barrier (R331). -/
theorem State.raiseHold_ageing {s : State} (hbar : s.barrierIdx = none) (mx : Nat) :
    (s.raiseHold 4 mx).belfry = (s.belfry.withCause 4 mx).boundRamp
      ∧ (s.raiseHold 4 mx).ints.raised = s.ints.raised ||| 64 ∧ Frame [.belfry, .evt, .ints, .out] s (s.raiseHold 4 mx) := by
  let held : State := { s with belfry := (s.belfry.withCause 4 mx).boundRamp }
  obtain ⟨fs, hraise⟩ : ∃ fs, s.raiseHold 4 mx = (((held.event .module 0x0406 fs).raise 6).sendBeacon).cadenceCheck := ⟨_, rfl⟩
  obtain ⟨hraised, hrecord⟩ := held.event_raise .module 0x0406 fs 6
  have hsent := ((held.event .module 0x0406 fs).raise 6).sendBeacon_frame
  have hout := Frame.trans (k := [.evt, .ints, .out]) hrecord hsent (by simp) (by simp)
  have hframe := Frame.trans (k := [.belfry, .evt, .ints, .out]) (s.set_belfry_frame _) hout (by simp) (by simp)
  rw [hraise, State.cadenceCheck_none ((State.barrierIdx_congr hframe.steps_eq).trans hbar)]
  exact ⟨hout.belfry_eq, (congrArg Ints.raised (hsent .ints (by simp))).trans hraised, hframe⟩

/-- AGEING holds then, and HOLD_MAX is at or below what its monitors allow (R332). -/
theorem State.raiseHold_ageing_bounds {s : State} (hbar : s.barrierIdx = none) (mx : Nat) :
    ⟨4, mx, false⟩ ∈ (s.raiseHold 4 mx).belfry.holds ∧ (s.raiseHold 4 mx).belfry.holdMax ≤ mx := by
  rw [(State.raiseHold_ageing hbar mx).1, Belfry.holdMax_boundRamp, (Belfry.boundRamp_leaves _).1]
  exact ⟨List.mem_append_right _ (List.mem_singleton_self _), s.belfry.holdMax_withCause_le 4 mx⟩

end Sys2Proof.Machine
end

section
/-!
O41. Droop windows and their calibration (R320), and the ageing monitors (R331, R332).
-/
namespace Sys2Proof.Machine

open Sys2Proof

/-! ### Droop -/

section
variable {s : State} (hpow : s.power.powered = true)
include hpow

theorem exec_droopDetect (u : Nat) : exec (.droopDetect u) s = .next
    (s.modTower u fun t => if t.inService && !t.droopOn then t.startWindow else t) :=
  congrArg Host.Outcome.next (State.whenOn_powered hpow _)

theorem exec_droopWindowEnd (u : Nat) (low : Bool) : exec (.droopWindowEnd u low) s = .next (s.modTower u fun t =>
    if t.inService && t.droopOn then (if low then t.startWindow else { t with droopOn := false }) else t) :=
  congrArg Host.Outcome.next (State.whenOn_powered hpow _)

theorem exec_droopCalibration : exec .droopCalibration s = .next s.calibrateDroop :=
  congrArg Host.Outcome.next (State.whenOn_powered hpow _)

theorem exec_ageingMonitorRead (counts : List (Nat × List Nat)) : exec (.ageingMonitorRead counts) s = .next (s.ageingRead counts) :=
  congrArg Host.Outcome.next (State.whenOn_powered hpow _)

end

/-! ### One place of a list -/

theorem getD_updAt_same {l : List Nat} {i : Nat} (f : Nat → Nat) (h : i < l.length) : (updAt l i f).getD i 0 = f (l.getD i 0) := by
  simp [updAt, List.getD_eq_getElem?_getD, h]

theorem getD_updAt_other (l : List Nat) {i k : Nat} (f : Nat → Nat) (h : k ≠ i) : (updAt l i f).getD k 0 = l.getD k 0 := by
  simp [updAt, List.getD_eq_getElem?_getD, h.symm]

/-- A count that starts anew where none stands is the same list. -/
theorem updAt_zero_eq_self {l : List Nat} {i : Nat} (h : l.getD i 0 = 0) : (updAt l i fun _ => 0) = l := by
  apply List.ext_getElem?
  intro k
  simp only [updAt, List.getElem?_modify]
  by_cases hk : i = k
  · subst hk
    rw [List.getD_eq_getElem?_getD] at h
    cases hx : l[i]? <;> simp_all
  · cases l[k]? <;> simp [hk]

/-! ### The reading of one quarter -/

/-- The count of short readings in a row of a quarter, which the trim and the set-point leave. -/
def State.withShort (s : State) (q n : Nat) : State :=
  { s with thermal := { s.thermal with short := updAt s.thermal.short q fun _ => n } }

theorem State.withShort_frame (s : State) (q n : Nat) : Frame [.thermal] s (s.withShort q n) := s.set_thermal_frame _

section
variable {s : State} {counts : List (Nat × List Nat)}

/-- A quarter without a reading and without a short count stands as it is. -/
theorem State.ageQuarter_unread {p : Nat} (hnone : ∀ r ∈ counts, quarterOf r.1 ≠ p) (hshort : s.thermal.short.getD p 0 = 0) :
    s.ageQuarter counts p = s := by
  have hmine : counts.filter (fun r => quarterOf r.1 == p) = [] := List.filter_eq_nil_iff.mpr fun r hr => by simpa using hnone r hr
  unfold State.ageQuarter
  rw [hmine]
  show s.withShort p 0 = s
  rw [State.withShort, updAt_zero_eq_self hshort]

variable {q : Nat} (hq : ∀ r ∈ counts, quarterOf r.1 = q)
include hq

theorem filter_quarter_eq_self : counts.filter (fun r => quarterOf r.1 == q) = counts :=
  List.filter_eq_self.mpr fun r hr => by simpa using hq r hr

/-- A reading that meets every monitor starts the count anew (R331). -/
theorem State.ageQuarter_meets (hmeet : ∀ r ∈ counts, monitorsMeet s.belfry.cadence r = true) : s.ageQuarter counts q = s.withShort q 0 := by
  have hfind : counts.find? (fun r => !monitorsMeet s.belfry.cadence r) = none := List.find?_eq_none.mpr fun r hr => by simp [hmeet r hr]
  simp only [State.ageQuarter, filter_quarter_eq_self hq, hfind]
  rfl

variable (hbad : ∃ r ∈ counts, monitorsMeet s.belfry.cadence r = false)
include hbad

/-- A short reading counts up to the eighth in a row, which raises the trim by a step, or at the bound AGEING (R331, R332). -/
theorem State.ageQuarter_short : ∃ r : Nat × List Nat, s.ageQuarter counts q =
    if s.thermal.short.getD q 0 + 1 < 8 then s.withShort q (s.thermal.short.getD q 0 + 1)
    else if s.thermal.trim.getD q 0 < 20 then { s with thermal := { s.thermal with
      short := updAt s.thermal.short q fun _ => 0, trim := updAt s.thermal.trim q (· + 1), setpoint := updAt s.thermal.setpoint q (· + 25) } }
    else (((s.withShort q 0).event .module 0x0606 [(1, q), (2, r.1), (2, 50), (1, ageingMax counts)]).raise 6).raiseHold 4
      (ageingMax counts) := by
  obtain ⟨b, hb, hshort⟩ := hbad
  obtain ⟨r, hfind⟩ : ∃ r, counts.find? (fun r => !monitorsMeet s.belfry.cadence r) = some r :=
    Option.isSome_iff_exists.mp (List.find?_isSome.mpr ⟨b, hb, by simp [hshort]⟩)
  refine ⟨r, ?_⟩
  simp only [State.ageQuarter, filter_quarter_eq_self hq, hfind]
  rfl

end

/-! ### A reading of one quarter only -/

theorem foldl_eq_self {α β : Type} {f : α → β → α} {a : α} {l : List β} (h : ∀ b ∈ l, f a b = a) : l.foldl f a = a := by
  induction l with
  | nil => rfl
  | cons b l ih =>
    rw [List.foldl_cons, h b (by simp)]
    exact ih fun c hc => h c (by simp [hc])

/-- Readings of one quarter act on it alone, where no other quarter has a short count. -/
theorem State.ageingRead_quarter {s : State} {q : Nat} {counts : List (Nat × List Nat)} (hq4 : q < 4) (hq : ∀ r ∈ counts, quarterOf r.1 = q)
    (hshort : ∀ p < 4, p ≠ q → s.thermal.short.getD p 0 = 0) {f : Nat → Nat}
    (hf : (s.ageQuarter counts q).thermal.short = updAt s.thermal.short q f) : s.ageingRead counts = s.ageQuarter counts q := by
  obtain ⟨l, m, hsplit⟩ := List.append_of_mem (List.mem_range.mpr hq4)
  have hnodup := List.nodup_middle.mp (hsplit ▸ List.nodup_range (n := 4))
  have hother {p : Nat} (hp : p ∈ l ++ m) : p < 4 ∧ p ≠ q := by
    refine ⟨List.mem_range.mp (hsplit ▸ ?_), fun h => (List.nodup_cons.mp hnodup).1 (h ▸ hp)⟩
    rcases List.mem_append.mp hp with h | h <;> simp [h]
  have hunread {p : Nat} (hp : p ∈ l ++ m) : ∀ r ∈ counts, quarterOf r.1 ≠ p := fun r hr h => (hother hp).2 (h ▸ hq r hr)
  have hbefore : l.foldl (State.ageQuarter counts) s = s := foldl_eq_self fun p hp =>
    State.ageQuarter_unread (hunread (by simp [hp])) (hshort p (hother (by simp [hp])).1 (hother (by simp [hp])).2)
  have hafter : m.foldl (State.ageQuarter counts) (s.ageQuarter counts q) = s.ageQuarter counts q := foldl_eq_self fun p hp => by
    have hp' : p ∈ l ++ m := by simp [hp]
    refine State.ageQuarter_unread (hunread hp') ?_
    rw [hf, getD_updAt_other _ _ (hother hp').2, hshort p (hother hp').1 (hother hp').2]
  rw [State.ageingRead, hsplit, List.foldl_append, hbefore, List.foldl_cons, hafter]

/-- The command on such readings, by what the one quarter makes of them. -/
theorem exec_ageingMonitorRead_quarter {s t : State} {q : Nat} {counts : List (Nat × List Nat)} (hpow : s.power.powered = true) (hq4 : q < 4)
    (hq : ∀ r ∈ counts, quarterOf r.1 = q) (hshort : ∀ p < 4, p ≠ q → s.thermal.short.getD p 0 = 0) (hquarter : s.ageQuarter counts q = t)
    {f : Nat → Nat} (hf : t.thermal.short = updAt s.thermal.short q f) : exec (.ageingMonitorRead counts) s = .next t :=
  (exec_ageingMonitorRead hpow counts).trans
    (congrArg Host.Outcome.next ((State.ageingRead_quarter hq4 hq hshort (hquarter ▸ hf)).trans hquarter))

/-! ### The statement -/

/-- Settles O41: a window at its tower by `modTower`; a reading of one quarter by whether it is short, and whether it is the eighth, below the
bound or at it. -/
theorem droopAndAgeing : Obligations.DroopAndAgeing := by
  refine ⟨fun s hpow => ⟨fun u hu hlen hin hoff => ?_, fun u hu low hlen hin hon => ?_, _, exec_droopCalibration hpow, rfl⟩,
    fun s q counts hpow hq4 hlens hlent hlenp hother hq hshort htrim => ?_,
    fun s q counts hpow hq4 hlens hother hq hshort htrim hbad hbar => ?_⟩
  · refine ⟨_, exec_droopDetect hpow u, s.modTower_frame _ u, fun k hk => s.towers_modTower_getElem?_other _ hk, ?_⟩
    rw [State.tower_modTower_same _ _ (hlen ▸ hu), if_pos (by simp [hin, hoff])]
    rfl
  · refine ⟨_, exec_droopWindowEnd hpow u low, s.modTower_frame _ u, fun k hk => s.towers_modTower_getElem?_other _ hk, ?_⟩
    rw [State.tower_modTower_same _ _ (hlen ▸ hu), if_pos (by simp [hin, hon])]
    cases low <;> exact ⟨rfl, rfl⟩
  · have hsame (f : Nat → Nat) := getD_updAt_same (l := s.thermal.short) (i := q) f (by omega)
    by_cases hbad : ∃ r ∈ counts, monitorsMeet s.belfry.cadence r = false
    · have hany : (counts.any fun r => !monitorsMeet s.belfry.cadence r) = true := by simpa using hbad
      obtain ⟨r, hquarter⟩ := State.ageQuarter_short hq hbad
      by_cases heighth : s.thermal.short.getD q 0 = 7
      · rw [if_neg (by omega), if_pos htrim] at hquarter
        refine ⟨_, exec_ageingMonitorRead_quarter hpow hq4 hq hother hquarter rfl, s.set_thermal_frame _, ?_, ?_, ?_,
          fun p _ hp => getD_updAt_other _ _ hp⟩
        · rw [hany, heighth]
          exact hsame _
        · rw [hany, heighth]
          exact getD_updAt_same _ (by omega)
        · rw [hany, heighth]
          exact getD_updAt_same _ (by omega)
      · rw [if_pos (by omega)] at hquarter
        refine ⟨_, exec_ageingMonitorRead_quarter hpow hq4 hq hother hquarter rfl, s.withShort_frame _ _, ?_, ?_, ?_,
          fun p _ hp => rfl⟩
        · rw [hany, beq_eq_false_iff_ne.mpr heighth]
          exact hsame _
        · rw [hany, beq_eq_false_iff_ne.mpr heighth]
          rfl
        · rw [hany, beq_eq_false_iff_ne.mpr heighth]
          rfl
    · have hmeet : ∀ r ∈ counts, monitorsMeet s.belfry.cadence r = true := by simpa using hbad
      have hany : (counts.any fun r => !monitorsMeet s.belfry.cadence r) = false := by simpa using hmeet
      refine ⟨_, exec_ageingMonitorRead_quarter hpow hq4 hq hother (State.ageQuarter_meets hq hmeet) rfl, s.withShort_frame _ _, ?_, ?_, ?_,
          fun p _ hp => rfl⟩
      · rw [hany]
        exact hsame _
      · rw [hany]
        rfl
      · rw [hany]
        rfl
  · obtain ⟨r, hquarter⟩ := State.ageQuarter_short hq hbad
    rw [if_neg (by omega), if_neg (by omega)] at hquarter
    have hcount := s.withShort_frame q 0
    obtain ⟨hraised, hrecord⟩ := (s.withShort q 0).event_raise .module 0x0606 [(1, q), (2, r.1), (2, 50), (1, ageingMax counts)] 6
    have hbefore := Frame.trans (k := [.thermal, .evt, .ints, .out]) hcount hrecord (by simp) (by simp)
    have hstays := (State.barrierIdx_congr hbefore.steps_eq).trans hbar
    obtain ⟨-, hagain, hheld⟩ := State.raiseHold_ageing hstays (ageingMax counts)
    obtain ⟨hcause, hmax⟩ := State.raiseHold_ageing_bounds hstays (ageingMax counts)
    have hthermal := hheld.thermal_eq.trans hrecord.thermal_eq
    refine ⟨_, exec_ageingMonitorRead_quarter hpow hq4 hq hother hquarter (congrArg Thermal.short hthermal),
      Frame.trans hbefore hheld (by simp) (by simp), hthermal, hcause, hmax, ?_⟩
    rw [hagain, hraised, BitVec.or_assoc]
    rfl

end Sys2Proof.Machine
end

section
/-!
SUPPORT. The six phases of a start-up (R416, R418, Table 17.1): what the end of each leaves.
-/
namespace Sys2Proof.Machine

open Sys2Proof

/-! ### The command -/

/-- A start-up under way in which no command waits. -/
structure State.Starting (s : State) : Prop where
  powered : s.power.powered = true
  perst : s.power.perstLow = false
  ready : s.power.ready = false
  halted : s.power.halted = false
  queue : s.goOrder = []

/-- What the end of the phase under way does, before waiting commands are taken (Table 17.1). -/
def State.phaseAct (s : State) (r : PhaseReport) : State :=
  match s.power.phase with
  | 1 => s.endPhase1 r
  | 2 => s.endPhase2 r
  | 3 => s.endPhase3 r
  | 4 => s.endPhase4 r
  | 5 => s.endPhase5 r
  | 6 => if r.overrun then s.haltStartup 0xFFFF 1 else s.becomeReady
  | _ => s

/-- Where no command waits, none is taken (R350). -/
theorem State.phaseEnd_eq_phaseAct {s : State} {r : PhaseReport} (h : (s.phaseAct r).goOrder = []) : s.phaseEnd r = s.phaseAct r := by
  have htaken : State.drain (s.phaseAct r).goOrder r.envs { s.phaseAct r with goOrder := [] } = s.phaseAct r := by
    rw [h]
    show { s.phaseAct r with goOrder := [] } = s.phaseAct r
    rw [← h]
  show (if _ then State.drain (s.phaseAct r).goOrder r.envs { s.phaseAct r with goOrder := [] } else s.phaseAct r) = _
  rw [htaken, ite_self]

theorem exec_startupPhaseEnd {s t : State} {r : PhaseReport} {l : List Component} (h : s.Starting) (hact : s.phaseAct r = t)
    (hframe : Frame l s t) (hl : Component.goOrder ∉ l := by simp) : exec (.startupPhaseEnd r) s = .next t := by
  have hgo : (s.phaseAct r).goOrder = [] := by
    rw [hact]
    exact Eq.trans (b := s.goOrder) (hframe .goOrder hl) h.queue
  refine congrArg Host.Outcome.next ((State.whenOn_powered h.powered _).trans ((if_neg ?_).trans ((State.phaseEnd_eq_phaseAct hgo).trans hact)))
  simp [h.perst, h.halted, h.ready]

/-! ### Frames of the parts that start-up sets -/

section
variable (s : State)

theorem State.set_power_frame (pw : Power) : Frame [.power] s { s with power := pw } := by
  intro p hp
  cases p with
  | power => simp at hp
  | _ => rfl

theorem State.set_power_keep_frame (pw : Power) (k : Keep) : Frame [.power, .keep] s { s with power := pw, keep := k } := by
  intro p hp
  cases p with
  | power | keep => simp at hp
  | _ => rfl

theorem State.set_power_mem_frame (pw : Power) (m : Mem) : Frame [.power, .mem] s { s with power := pw, mem := m } := by
  intro p hp
  cases p with
  | power | mem => simp at hp
  | _ => rfl

theorem State.set_power_thermal_frame (pw : Power) (th : Thermal) : Frame [.power, .thermal] s { s with power := pw, thermal := th } := by
  intro p hp
  cases p with
  | power | thermal => simp at hp
  | _ => rfl

theorem State.set_admission_frame (pw : Power) (l : List Tower) (e : Word) (m : Mem) :
    Frame [.power, .towers, .domeEpoch, .mem] s { s with power := pw, towers := l, domeEpoch := e, mem := m } := by
  intro p hp
  cases p with
  | power | towers | domeEpoch | mem => simp at hp
  | _ => rfl

theorem State.setPhase_frame (n : Nat) : Frame [.power] s (s.setPhase n) := s.set_power_frame _

end

/-! ### A start-up that halts -/

/-- A halted start-up keeps its phase and READY at 0, and is recorded (R418). -/
theorem State.haltStartup_leaves (s : State) (unit attempts : Nat) :
    (s.haltStartup unit attempts).power = { s.power with halted := true } ∧ Frame [.power, .evt] s (s.haltStartup unit attempts) := by
  have hevent := State.event_frame { s with power := { s.power with halted := true } } (if unit < 12 then .stack unit else .module) 0x0505
    [(1, s.power.phase), (2, unit), (1, attempts)]
  exact ⟨hevent.power_eq, Frame.trans (s.set_power_frame _) hevent (by simp) (by simp)⟩

section
variable {s : State} {r : PhaseReport}

theorem State.phaseAct_halts1 (hp : s.power.phase = 1) (hslots : s.fuses.interruptedSlots = []) (h : r.workingBad = true ∨ r.overrun = true) :
    s.phaseAct r = s.haltStartup 0xFFFF 1 := by
  simp [State.phaseAct, hp, State.endPhase1, hslots, h]

theorem State.phaseAct_halts4 (hp : s.power.phase = 4) (h : r.stackBad.isSome = true ∨ r.overrun = true) :
    ∃ unit attempts, s.phaseAct r = s.haltStartup unit attempts := by
  cases hbad : r.stackBad with
  | some k => exact ⟨k, 3, by simp [State.phaseAct, hp, State.endPhase4, hbad]⟩
  | none =>
    have hover : r.overrun = true := by simpa [hbad] using h
    exact ⟨0xFFFF, 1, by simp [State.phaseAct, hp, State.endPhase4, hbad, hover]⟩

/-- A phase after the second that overruns its time halts the start-up (R418, Table 17.2). -/
theorem State.phaseAct_overrun (hp : s.power.phase = 3 ∨ s.power.phase = 5 ∨ s.power.phase = 6) (h : r.overrun = true) :
    s.phaseAct r = s.haltStartup 0xFFFF 1 := by
  rcases hp with hp | hp | hp
  · simp [State.phaseAct, hp, State.endPhase3, h]
  · simp [State.phaseAct, hp, State.endPhase5, h]
  · simp [State.phaseAct, hp, h]

end

/-! ### Phases 1 and 2 -/

section
variable {s : State} {r : PhaseReport}

theorem State.phaseAct_1 (hp : s.power.phase = 1) (hslots : s.fuses.interruptedSlots = []) (hretired : s.fuses.retiredTowers = [])
    (hworking : r.workingBad = false) (hover : r.overrun = false) :
    s.phaseAct r = { s with power := { s.power with phase := 2 }, keep := { s.keep with state := if r.keepBad then 3 else 0 } } := by
  simp [State.phaseAct, hp, State.endPhase1, hslots, hretired, hworking, hover, State.setPhase]

theorem State.fireTampers_nil (s : State) : s.fireTampers [] = s := by
  simp [State.fireTampers, State.tamperMark, State.tamperNew]

/-- Phase 2 arms the tamper inputs, none of which is active, and derives the identity key where an identity is in force (R409, R411). -/
theorem State.phaseAct_2 (hp : s.power.phase = 2) (hlive : s.keep.live = 0) (hstate : s.keep.state ≠ 3) (hkeep : r.keepBad = false)
    (hover : r.overrun = false) : s.phaseAct r = { s with
      power := { s.power with phase := 3 }
      keep := { s.keep with
        state := if s.fuses.hasIdentity then 1 else 0, armed := true
        identity := if s.fuses.hasIdentity then some (identityKey s.fuses.secret) else none } } := by
  have hnone : (List.range 3).filter s.keep.live.getLsbD = [] := by
    rw [hlive]
    decide
  simp only [State.phaseAct, hp, State.endPhase2, hnone, State.fireTampers_nil, hstate, hkeep, hover]
  cases s.fuses.hasIdentity <;> rfl

end

/-! ### Phases 3 and 4 -/

/-- A tower as phase 3 without a failing cell admits it: one that is fused out stays so (Table 17.1). -/
def Tower.admittedAtStart (x : Tower) : Tower := if x.state = 3 then x else { x with admitted := true, epoch := 1 }

theorem Tower.admittedAtStart_state (x : Tower) : x.admittedAtStart.state = x.state := by
  unfold Tower.admittedAtStart
  split <;> rfl

theorem Tower.admittedAtStart_serves {x : Tower} (h : x.admittedAtStart.state = 0) :
    x.admittedAtStart.admitted = true ∧ x.admittedAtStart.epoch = 1 := by
  rw [x.admittedAtStart_state] at h
  rw [Tower.admittedAtStart, if_neg (by omega)]
  exact ⟨rfl, rfl⟩

section
variable {s : State} {r : PhaseReport}

theorem State.phaseAct_3 (hp : s.power.phase = 3) (hover : r.overrun = false) (hfails : r.fails = []) : s.phaseAct r = { s with
    towers := s.towers.map Tower.admittedAtStart
    domeEpoch := 1
    mem := s.mem.repair []
    power := { s.power with phase := 4, ioSramBad := false } } := by
  have hnone : repairs [] (marchRun 0 []) = [] := rfl
  have hmap : (s.towers.mapIdx fun _ x => x.admittedAtStart) = s.towers.map Tower.admittedAtStart := List.ext_getElem (by simp) (by simp)
  rw [← hmap]
  simp [State.phaseAct, hp, State.endPhase3, hover, hfails, hnone, Tower.admittedAtStart]

theorem State.phaseAct_4 (hp : s.power.phase = 4) (hover : r.overrun = false) (hstack : r.stackBad = none) :
    s.phaseAct r = { s with power := { s.power with phase := 5 }, mem := { s.mem with cells := [] } } := by
  simp [State.phaseAct, hp, State.endPhase4, hover, hstack, State.setPhase]

end

/-! ### Phase 5 -/

section
variable (readings : List (List (Nat × List Nat))) (q k : Nat)

/-- The monitors of a quarter pass with `k` steps of trim (R332). -/
def QuarterPasses : Prop := ∀ c ∈ readings.getD k [], quarterOf c.1 = q → monitorsMeet 36 c = true

theorem quarterPasses_iff :
    QuarterPasses readings q k ↔ ((readings.getD k []).filter fun c => quarterOf c.1 == q).all (monitorsMeet 36) = true := by
  simp [QuarterPasses, imp_iff_not_or]

variable {readings q k}

/-- The trim of a quarter is the first step at which its monitors pass (R332). -/
theorem trimOf_some (h : trimOf readings q = some k) : QuarterPasses readings q k ∧ ∀ i < k, ¬ QuarterPasses readings q i := by
  obtain ⟨hpass, -, hfirst⟩ := List.find?_range_eq_some.mp h
  refine ⟨(quarterPasses_iff ..).mpr hpass, fun i hi hbefore => ?_⟩
  have hearlier := hfirst i hi
  rw [(quarterPasses_iff ..).mp hbefore] at hearlier
  cases hearlier

theorem trimOf_none_iff : trimOf readings q = none ↔ ∀ i ≤ 20, ¬ QuarterPasses readings q i := by
  simp only [trimOf, List.find?_range_eq_none, quarterPasses_iff, Bool.not_eq_true', Bool.not_eq_true, Nat.lt_succ_iff]

theorem trimOf_passes (h : ∃ i ≤ 20, QuarterPasses readings q i) : ∃ i, trimOf readings q = some i := by
  refine Option.ne_none_iff_exists'.mp fun hnone => ?_
  obtain ⟨i, hi, hpass⟩ := h
  exact trimOf_none_iff.mp hnone i hi hpass

end

/-- The trims that phase 5 finds, and the set-points of code 36 with them (R311, R332). -/
def State.trimmed (s : State) (r : PhaseReport) : State :=
  let th : Thermal := { s.thermal with trim := (List.range 4).map fun q => (trimOf r.readings q).getD 20 }
  { s with thermal := { th with setpoint := th.setpoints 36 } }

section
variable {s : State} {r : PhaseReport}

theorem State.trimmed_frame (s : State) (r : PhaseReport) : Frame [.thermal] s (s.trimmed r) := s.set_thermal_frame _

theorem State.trimmed_trim (s : State) (r : PhaseReport) {q : Nat} (hq : q < 4) :
    (s.trimmed r).thermal.trim.getD q 0 = (trimOf r.readings q).getD 20 := by
  simp [State.trimmed, List.getD_eq_getElem?_getD, hq]

/-- Phase 5 trims every quarter; one that never passes raises AGEING (R332). -/
theorem State.phaseAct_5 (hp : s.power.phase = 5) (hover : r.overrun = false) : s.phaseAct r =
    (if (List.range 4).any fun q => (trimOf r.readings q).isNone then (s.trimmed r).raiseHold 4 (ageingMax (finalCounts r.readings))
      else s.trimmed r).setPhase 6 := by
  simp only [State.phaseAct, hp, State.endPhase5, hover]
  rfl

theorem State.phaseAct_5_passes (hp : s.power.phase = 5) (hover : r.overrun = false)
    (hpass : ∀ q < 4, ∃ k ≤ 20, QuarterPasses r.readings q k) : s.phaseAct r = (s.trimmed r).setPhase 6 := by
  rw [State.phaseAct_5 hp hover, if_neg]
  simp only [List.any_eq_true, List.mem_range, not_exists, not_and]
  intro q hq
  obtain ⟨k, hk⟩ := trimOf_passes (hpass q hq)
  simp [hk]

theorem State.phaseAct_5_fails (hp : s.power.phase = 5) (hover : r.overrun = false) {q : Nat} (hq : q < 4)
    (hfail : ∀ k ≤ 20, ¬ QuarterPasses r.readings q k) :
    s.phaseAct r = ((s.trimmed r).raiseHold 4 (ageingMax (finalCounts r.readings))).setPhase 6 := by
  rw [State.phaseAct_5 hp hover, if_pos]
  simp only [List.any_eq_true, List.mem_range]
  exact ⟨q, hq, by simp [trimOf_none_iff.mpr hfail]⟩

/-! ### Ready -/

theorem State.phaseAct_6 (hp : s.power.phase = 6) (hover : r.overrun = false) : s.phaseAct r = { s with
    power := { s.power with ready := true, smbAlert := s.power.smbAlert ||| 8 }
    thermal := { s.thermal with droopAt := s.thermal.setpoint.map fun v => v - 400 } } := by
  simp [State.phaseAct, hp, hover, State.becomeReady, State.calibrateDroop]

end

end Sys2Proof.Machine
end

section
/-!
O34. A start-up to Ready, and one that halts (R350, R416 to R418, Tables 17.1 and 17.2).
-/
namespace Sys2Proof.Machine

open Sys2Proof

section
variable {s : State} {r : PhaseReport} (h : s.Starting)
include h

/-- The end of phase 5 where every quarter passes at some step (R332). -/
theorem exec_phase5_passes (hp : s.power.phase = 5) (hover : r.overrun = false) (hpass : ∀ q < 4, ∃ k ≤ 20, QuarterPasses r.readings q k) :
    ∃ t, exec (.startupPhaseEnd r) s = .next t ∧ t.power = { s.power with phase := 6 }
      ∧ (∀ q < 4, QuarterPasses r.readings q (t.thermal.trim.getD q 0) ∧ ∀ k < t.thermal.trim.getD q 0, ¬ QuarterPasses r.readings q k)
      ∧ t.thermal = { s.thermal with trim := t.thermal.trim, setpoint := ({ s.thermal with trim := t.thermal.trim } : Thermal).setpoints 36 }
      ∧ Frame [.power, .thermal] s t := by
  have hframe := Frame.trans (k := [.power, .thermal]) (s.trimmed_frame r) ((s.trimmed r).setPhase_frame 6) (by simp) (by simp)
  refine ⟨_, exec_startupPhaseEnd h (State.phaseAct_5_passes hp hover hpass) hframe, rfl, fun q hq => ?_, rfl, hframe⟩
  obtain ⟨k, hk⟩ := trimOf_passes (hpass q hq)
  rw [State.setPhase_thermal, s.trimmed_trim r hq, hk]
  exact trimOf_some hk

/-- The end of phase 5 where a quarter fails at every step: it stands at the bound, and AGEING holds (R332). -/
theorem exec_phase5_fails (hp : s.power.phase = 5) (hover : r.overrun = false) {q : Nat} (hq : q < 4)
    (hfail : ∀ k ≤ 20, ¬ QuarterPasses r.readings q k) (hholds : s.belfry.holds = []) (hbar : s.barrierIdx = none) :
    ∃ t, exec (.startupPhaseEnd r) s = .next t ∧ t.power = { s.power with phase := 6 } ∧ t.thermal.trim.getD q 0 = 20
      ∧ (∃ mx, t.belfry.holds = [⟨4, mx, false⟩]) ∧ Frame [.power, .thermal, .belfry, .evt, .ints, .out] s t := by
  have htrim := s.trimmed_frame r
  have hstays := (State.barrierIdx_congr htrim.steps_eq).trans hbar
  obtain ⟨-, -, hheld⟩ := State.raiseHold_first hstays hholds 4 (ageingMax (finalCounts r.readings))
  obtain ⟨hcause, -⟩ := State.raiseHold_bounds hstays hholds 4 (ageingMax (finalCounts r.readings))
  have hbefore := Frame.trans (k := [.thermal, .belfry, .evt, .ints, .out]) htrim hheld (by simp) (by simp)
  have hframe := Frame.trans (k := [.power, .thermal, .belfry, .evt, .ints, .out]) hbefore (State.setPhase_frame _ 6) (by simp) (by simp)
  refine ⟨_, exec_startupPhaseEnd h (State.phaseAct_5_fails hp hover hq hfail) hframe, ?_, ?_, ⟨_, hcause⟩, hframe⟩
  · exact congrArg (fun p : Power => { p with phase := 6 }) hbefore.power_eq
  · rw [State.setPhase_thermal, hheld.thermal_eq, s.trimmed_trim r hq, trimOf_none_iff.mpr hfail]
    rfl

/-- A start-up that halts (R418). -/
theorem exec_startupPhaseEnd_halts (hact : ∃ unit attempts, s.phaseAct r = s.haltStartup unit attempts) :
    ∃ t, exec (.startupPhaseEnd r) s = .next t ∧ t.power = { s.power with halted := true } ∧ Frame [.power, .evt] s t := by
  obtain ⟨unit, attempts, hhalt⟩ := hact
  obtain ⟨hpower, hframe⟩ := s.haltStartup_leaves unit attempts
  exact ⟨_, exec_startupPhaseEnd h hhalt hframe, hpower, hframe⟩

end

/-- Settles O34: the phase under way by what its end leaves; a start-up that halts by the phase that Table 17.2 names. -/
theorem startupPhases : Obligations.StartupPhases := by
  refine ⟨fun s r hpow hperst hready hhalted hgo hover hworking hkeep hfails hstack hlive _ hslots => ?_,
    fun s r hpow hperst hready hhalted hgo hcase => ?_⟩
  · have h : s.Starting := ⟨hpow, hperst, hready, hhalted, hgo⟩
    refine ⟨fun hp hretired => ?_, fun hp hstate => ?_, fun hp => ?_, fun hp => ?_,
      fun hp => ⟨exec_phase5_passes h hp hover, ?_⟩, fun hp => ?_⟩
    · have hframe := s.set_power_keep_frame { s.power with phase := 2 } { s.keep with state := if r.keepBad then 3 else 0 }
      exact ⟨_, exec_startupPhaseEnd h (State.phaseAct_1 hp hslots hretired hworking hover) hframe, rfl, hframe⟩
    · have hact := State.phaseAct_2 hp hlive hstate hkeep hover
      exact ⟨_, exec_startupPhaseEnd h hact (s.set_power_keep_frame _ _), rfl, rfl, s.set_power_keep_frame _ _⟩
    · have hact := State.phaseAct_3 hp hover hfails
      have hframe := s.set_admission_frame
      refine ⟨_, exec_startupPhaseEnd h hact (hframe _ _ _ _), rfl, rfl, fun x hx hserves => ?_, List.length_map _, hframe _ _ _ _⟩
      obtain ⟨y, -, rfl⟩ := List.mem_map.mp hx
      exact y.admittedAtStart_serves hserves
    · have hact := State.phaseAct_4 hp hover hstack
      exact ⟨_, exec_startupPhaseEnd h hact (s.set_power_mem_frame _ _), rfl, rfl, s.set_power_mem_frame _ _⟩
    · exact fun q hq hfail hholds hbar => exec_phase5_fails h hp hover hq hfail hholds hbar
    · have hact := State.phaseAct_6 hp hover
      exact ⟨_, exec_startupPhaseEnd h hact (s.set_power_thermal_frame _ _), rfl, s.set_power_thermal_frame _ _⟩
  · have h : s.Starting := ⟨hpow, hperst, hready, hhalted, hgo⟩
    refine exec_startupPhaseEnd_halts h ?_
    rcases hcase with ⟨hp, hslots, hbad⟩ | ⟨hp, hover⟩ | ⟨hp, hbad⟩ | ⟨hp, hover⟩ | ⟨hp, hover⟩
    · exact ⟨_, _, State.phaseAct_halts1 hp hslots hbad⟩
    · exact ⟨_, _, State.phaseAct_overrun (.inl hp) hover⟩
    · exact State.phaseAct_halts4 hp hbad
    · exact ⟨_, _, State.phaseAct_overrun (.inr (.inl hp)) hover⟩
    · exact ⟨_, _, State.phaseAct_overrun (.inr (.inr hp)) hover⟩

end Sys2Proof.Machine
end

section
/-!
O1 and O4. A step of the block (R350), and the state after reset (R348, R417, Tables 11.9, 12.6, 13.4, 13.6, 15.2, 15.4 and 15.5).
-/
namespace Sys2Proof.Machine

open Sys2Proof

/-- Settles O1: the queue of the state holds the command in front, and `step` takes that one. -/
theorem stepRunsTheFrontCommand : Obligations.StepRunsTheFrontCommand := fun _ _ _ => rfl

/-- Memories are empty after reset, and every unit is there. -/
theorem State.reset_inv : State.reset.Inv := by
  refine ⟨⟨rfl, rfl, fun m hm => ?_⟩, rfl, rfl, List.length_replicate, rfl, rfl, rfl, rfl⟩
  rw [List.eq_of_mem_replicate hm]
  rfl

/-- Settles O4: the invariant by `State.reset_inv`, each register by its value. -/
theorem resetIsInitial : Obligations.ResetIsInitial := ⟨State.reset_inv, by decide +kernel⟩

end Sys2Proof.Machine
end

section
/-!
O25. The high word of STW_STEP reads all ones after reset (Table 15.4), and it reads as the shadow of its counter (R344), which is then not zero
as the statement has it of every counter.
-/
namespace Sys2Proof.Machine

open Sys2Proof

/-- STW_STEP_HI after reset, for no step (Table 15.4). -/
theorem State.reset_stwStep_shadow : (State.reset.getCtr .stwStep).shadow = 0xFFFFFFFF := rfl

/-- Refutes O25: the shadow of STW_STEP is all ones after reset. -/
theorem not_countersLatchTheirShadow : ¬ Obligations.CountersLatchTheirShadow := by
  rintro ⟨-, -, hzero, -⟩
  have hstep := hzero .stwStep
  rw [State.reset_stwStep_shadow] at hstep
  exact absurd hstep (by decide)

end Sys2Proof.Machine
end

section
/-!
O9. A mailbox that the device owns is frozen (R349, Table 13.4).
-/
namespace Sys2Proof.Machine

open Sys2Proof

/-! ### A write of an owned mailbox, register by register -/

/-- A bit that one field of a register holds alone. -/
theorem testBit_writeFields_field {fs : List Fld} {f : Fld} {k : Nat} (hf : f ∈ fs)
    (halone : ∀ g ∈ fs, g = f ∨ k < g.lo ∨ g.lo + g.width ≤ k) (al : Alias) (old v : Nat) :
    (writeFields fs al old v).1.testBit k = (f.write al old v).1.testBit k := by
  have hany : (writeFields fs al old v).1.testBit k = fs.any fun g => (g.write al old v).1.testBit k := by
    suffices key : ∀ acc : Nat × Nat, (fs.foldl (fun acc f => let (n, w) := f.write al old v; (acc.1 ||| n, acc.2 ||| w)) acc).1.testBit k
        = (acc.1.testBit k || fs.any fun g => (g.write al old v).1.testBit k) by
      simpa [writeFields] using key (0, 0)
    clear hf halone
    induction fs with
    | nil => simp
    | cons g gs ih =>
      intro acc
      rw [List.foldl_cons, ih, Nat.testBit_or, List.any_cons, Bool.or_assoc]
  rw [hany, Bool.eq_iff_iff, List.any_eq_true]
  refine ⟨fun ⟨g, hg, hbit⟩ => ?_, fun hbit => ⟨f, hf, hbit⟩⟩
  rcases halone g hg with rfl | hout
  · exact hbit
  · rw [Fld.testBit_write_outside al old v hout] at hbit
    cases hbit

/-- A bit that a write-one-to-clear field holds alone, written at the base address (Table 13.3). -/
theorem testBit_writeFields_w1c {fs : List Fld} {f : Fld} {k : Nat} (hacc : f.acc = .w1c) (hf : f ∈ fs)
    (halone : ∀ g ∈ fs, g = f ∨ k < g.lo ∨ g.lo + g.width ≤ k) (hl : f.lo ≤ k) (hh : k < f.lo + f.width) (old v : Nat) :
    (writeFields fs .base old v).1.testBit k = (old.testBit k && !v.testBit k) := by
  rw [testBit_writeFields_field hf halone, Fld.testBit_write_w1c hacc _ _ _ (Fld.testBit_mask_inside hl hh)]

section
variable (m : Mailbox) (v : Nat)

theorem Mailbox.write_frozen {m : Mailbox} {off : Nat} (hown : m.own = true) (h0 : off ≠ 0x000) (h4 : off ≠ 0x004) (new wo : Nat) :
    m.write off new wo = { m with clobber := true } := by
  simp [Mailbox.write, hown, h0, h4]

/-- MBX_CTRL: IRQ_EN is stored, and GO sets CLOBBER. -/
theorem Mailbox.write_ctrl (hown : m.own = true) (old : Nat) :
    let r := writeFields [wo 0 1, rw 1 1] .base old v
    m.write 0x000 r.1 r.2 = { m with irqEn := v.testBit 1, clobber := m.clobber || v.testBit 0 } := by
  have hfields : writeFields [wo 0 1, rw 1 1] .base old v = (v &&& 2, v &&& 1) := by
    simp [writeFields, Fld.write, Fld.mask, wo, rw]
  dsimp only
  rw [hfields]
  simp only [Mailbox.write, if_true, bitOf_eq_testBit, hown, Bool.true_and, Nat.testBit_and]
  simp [show Nat.testBit 2 1 = true from rfl]

/-- MBX_STATUS: DONE and CLOBBER are cleared by ones. -/
theorem Mailbox.write_status :
    let r := writeFields [ro 0 16, ro 16 1, w1c 17 1, w1c 18 1] .base (m.reg 0x004) v
    m.write 0x004 r.1 r.2 = { m with done := m.done && !v.testBit 17, clobber := m.clobber && !v.testBit 18 } := by
  have hold : bitOf (m.reg 0x004) 17 = m.done ∧ bitOf (m.reg 0x004) 18 = m.clobber := by
    have hcode := m.code.isLt
    have hreg : m.reg 0x004 = m.code.toNat + putBit m.own 16 + putBit m.done 17 + putBit m.clobber 18 := rfl
    rw [hreg]
    cases m.own <;> cases m.done <;> cases m.clobber <;> simp [bitOf, putBit] <;> omega
  obtain ⟨hdone, hclobber⟩ := hold
  have h17 := testBit_writeFields_w1c (fs := [ro 0 16, ro 16 1, w1c 17 1, w1c 18 1]) (f := w1c 17 1) (k := 17) rfl (by decide) (by decide)
    (by decide) (by decide) (m.reg 0x004) v
  have h18 := testBit_writeFields_w1c (fs := [ro 0 16, ro 16 1, w1c 17 1, w1c 18 1]) (f := w1c 18 1) (k := 18) rfl (by decide) (by decide)
    (by decide) (by decide) (m.reg 0x004) v
  show ({ m with done := bitOf _ 17, clobber := bitOf _ 18 } : Mailbox) = _
  rw [bitOf_eq_testBit, bitOf_eq_testBit, h17, h18, ← bitOf_eq_testBit, ← bitOf_eq_testBit (m.reg 4) 18, hdone, hclobber]

end

/-! ### A host write of an owned mailbox -/

section
variable {s : State} {n off : Nat} (hio : s.ioUp = true) (hn : n < 4) (hown : (s.mbx n).own = true) (hs : s.fuses.state ≠ 4)
include hio hn hown hs

/-- A write of a register of an owned mailbox acts on that mailbox only, by the contents that its fields take. -/
theorem exec_mailboxWriteWhileOwned {fs : List Fld} (ho : off < 0x1000) (hf : mbxFields off = some fs) (v : Word) :
    let r := writeFields fs .base ((s.mbx n).reg off) v.toNat
    exec (.mailboxWriteWhileOwned (mbxAddr n off) v) s = .next { s with mailboxes := updAt s.mailboxes n fun m => m.write off r.1 r.2 } := by
  have hbase : baseAddr (mbxAddr n off) = mbxAddr n off := baseAddr_mbxAddr hn ho .base
  have howned : s.ownedAt (mbxAddr n off) = true := by
    simp [State.ownedAt, hbase, mbxAddr_block hn ho, mbxAddr_mailbox hn ho, hown]
  have hstore := State.hostStore_mbxAddr s hn ho hf hs .base (be := 15) (.inl rfl) v.toNat
  rw [if_pos rfl, State.storeReg_mbxAddr s hn ho hf] at hstore
  simp only [exec, execMailboxWriteWhileOwned, State.whenIo, hio, if_true, howned]
  exact congrArg Host.Outcome.next hstore

/-- What the write makes of the mailbox is all that it does. -/
theorem exec_mailboxWriteWhileOwned_leaves (h4 : s.mailboxes.length = 4) {fs : List Fld} (ho : off < 0x1000) (hf : mbxFields off = some fs)
    {v : Word} {m : Mailbox} (hm : let r := writeFields fs .base ((s.mbx n).reg off) v.toNat; (s.mbx n).write off r.1 r.2 = m) :
    ∃ t, exec (.mailboxWriteWhileOwned (mbxAddr n off) v) s = .next t ∧ t.mbx n = m ∧ s.OthersKept n t ∧ Frame [.mailboxes] s t := by
  refine ⟨_, exec_mailboxWriteWhileOwned hio hn hown hs ho hf v, ?_, s.updAt_mailboxes_others n _, s.updAt_mailboxes_frame n _⟩
  rw [State.mbx_updAt s _ (by omega)]
  exact hm

end

theorem mbxFields_frozen {off : Nat} (ha : off % 4 = 0) (h : off = 0x008 ∨ off = 0x00C ∨ off = 0x010 ∨ 0x020 ≤ off ∧ off < 0x1000) :
    ∃ fs, mbxFields off = some fs := by
  rcases h with rfl | rfl | rfl | ⟨hl, hh⟩
  · exact ⟨_, rfl⟩
  · exact ⟨_, rfl⟩
  · exact ⟨_, rfl⟩
  · refine ⟨[rw 0 32], ?_⟩
    unfold mbxFields
    repeat rw [if_neg (by omega)]
    rw [if_pos ⟨hl, hh, ha⟩]

/-- Settles O9: each register by what its write makes of the mailbox. -/
theorem ownedMailboxIsFrozen : Obligations.OwnedMailboxIsFrozen := by
  intro s n off v hio hn h4 hown hs
  refine ⟨fun ha hoff => ?_, ?_, ?_⟩
  · obtain ⟨fs, hf⟩ := mbxFields_frozen ha hoff
    exact exec_mailboxWriteWhileOwned_leaves hio hn hown hs h4 (by omega) hf (Mailbox.write_frozen hown (by omega) (by omega) _ _)
  · have hctrl := Mailbox.write_ctrl (s.mbx n) v.toNat hown ((s.mbx n).reg 0x000)
    simp only [BitVec.testBit_toNat] at hctrl
    exact exec_mailboxWriteWhileOwned_leaves hio hn hown hs h4 (off := 0x000) (by decide) rfl hctrl
  · have hstatus := Mailbox.write_status (s.mbx n) v.toNat
    simp only [BitVec.testBit_toNat] at hstatus
    exact exec_mailboxWriteWhileOwned_leaves hio hn hown hs h4 (off := 0x004) (by decide) rfl hstatus

end Sys2Proof.Machine
end

section
/-!
O27. Reserved and closed addresses of BAR0 (R343, R345, R346, R402, R413).
-/
namespace Sys2Proof.Machine

open Sys2Proof

/-! ### Reserved addresses -/

theorem State.forbids_undefined (s : State) {a : Nat} (h : definedAt a = false) : s.forbids a = false := by
  simp [State.forbids, h]

theorem State.readWords_undefined (s : State) (lo hi : Nat) {ws : List Nat} (h : ∀ w ∈ ws, definedAt w = false) :
    s.readWords lo hi ws = (ws.map fun _ => none, s) := by
  induction ws with
  | nil => rfl
  | cons w ws ih =>
    have hword : s.readWord w = (none, s) := by simp [State.readWord, h w List.mem_cons_self]
    simp only [State.readWords, hword, ih fun x hx => h x (List.mem_cons_of_mem _ hx), Option.map_none, List.map_cons]

theorem respOf_unsupported {l : List (Option (List Byte))} (h : ∀ x ∈ l, x = none) : respOf l = .unsupported := by
  unfold respOf
  split
  next bs => exact absurd (h (some bs) List.mem_cons_self) (by simp)
  next => exact if_pos (List.all_eq_true.mpr fun x hx => by rw [h x hx]; rfl)

/-- A read that meets no register is an unsupported request (R345). -/
theorem State.readAccess_undefined (s : State) {a : Access}
    (h : ∀ w, a.addr / 4 ≤ w → 4 * w < a.addr + a.len → definedAt (4 * w) = false) : s.readAccess a = s.emit (.answer 1 .unsupported) := by
  have hwords := s.readWords_undefined a.addr (a.addr + a.len)
    (ws := (List.range (ceilDiv (a.addr + a.len) 4 - a.addr / 4)).map fun k => 4 * (a.addr / 4 + k)) fun w hw => by
      obtain ⟨k, hk, rfl⟩ := List.mem_map.mp hw
      have hlt := List.mem_range.mp hk
      unfold ceilDiv at hlt
      exact h _ (by omega) (by omega)
  unfold State.readAccess
  dsimp only
  rw [hwords, respOf_unsupported (by simp)]
  rfl

/-- A write that no register takes is reported with its address (R343, R345). -/
theorem State.wordWrite_bad (s : State) {a be : Nat} (hopen : s.forbids a = false) (hbad : badWrite a be = true) (v : Word) (env : Env) :
    s.wordWrite a v be env = s.emit (.aer a) := by
  have hstore : s.hostStore a be v.toNat = s.emit (.aer a) := by simp [State.hostStore, hopen, hbad, State.aer]
  have hgo : goWrite a be v = none := by
    unfold badWrite at hbad
    unfold goWrite
    rw [if_neg]
    intro h
    simp only [Bool.and_eq_true, beq_iff_eq] at h
    obtain ⟨⟨⟨⟨⟨hdef, hfull⟩, -⟩, -⟩, -⟩, -⟩ := h
    simp [hdef, hfull] at hbad
  simp only [State.wordWrite, hstore, hgo]

/-! ### Closed registers -/

section
variable {s : State} {a : Nat} (h : s.forbids a = true)
include h

theorem State.definedAt_of_forbids : definedAt a = true := by
  unfold State.forbids at h
  simp only [Bool.and_eq_true] at h
  exact h.1.1.1

theorem State.readWord_forbidden : s.readWord a = (some 0, s.violate a) := by
  simp [State.readWord, State.definedAt_of_forbids h, h]

/-- A write of a closed register counts, and starts no command (R346). -/
theorem State.wordWrite_forbidden (v : Word) (be : Nat) (env : Env) : s.wordWrite a v be env = s.violate a := by
  have hstore : s.hostStore a be v.toNat = s.violate a := by simp [State.hostStore, h]
  unfold State.wordWrite
  rw [hstore]
  split
  · simp [h]
  · rfl

end

/-- Bytes of a word of zeros, and the answer that carries them. -/
theorem accessBytes_zero {b len : Nat} (h : b + len ≤ 4) : accessBytes 0 b (b + len) = List.replicate len 0 := by
  have hbytes : toLe 4 (0 : Word).toNat = List.replicate 4 0 := rfl
  rw [accessBytes, hbytes, List.take_replicate, List.drop_replicate]
  congr 1
  omega

theorem respOf_zeros (len : Nat) : respOf [some (List.replicate len 0)] = if len = 4 then .word 0 else .parts [some (List.replicate len 0)] := by
  unfold respOf
  dsimp only
  rw [List.length_replicate]
  split
  next h =>
    rw [h]
    rfl
  next => rfl

/-- The closing of registers looks at the life-cycle state alone. -/
theorem State.forbids_congr {s t : State} (h : t.fuses = s.fuses) (a : Nat) : t.forbids a = s.forbids a := by
  simp [State.forbids, h]

theorem mbxFields_aligned {off : Nat} (h : (mbxFields off).isSome = true) : off % 4 = 0 := by
  by_contra hoff
  have hnone : mbxFields off = none := by
    unfold mbxFields
    repeat rw [if_neg (by omega)]
  simp [hnone] at h

section
variable {n off : Nat} (hn : n < 4) (ho : off < 0x1000)
include hn ho

theorem mbxAddr_aligned (hdef : definedAt (mbxAddr n off) = true) : mbxAddr n off % 4 = 0 := by
  have hsome : (mbxFields off).isSome = true := (definedAt_mbxAddr hn ho .base).symm.trans hdef
  have := mbxFields_aligned hsome
  unfold mbxAddr
  omega

/-- A closed register counts with its offset in the base range (R346; log 34). -/
theorem State.violate_mbxAddr (s : State) : s.violate (mbxAddr n off)
    = { s with keep := { s.keep with violCount := s.keep.violCount + 1, violAddr := BitVec.ofNat 26 (mbxAddr n off) } } := by
  have hbase : baseAddr (mbxAddr n off) = mbxAddr n off := baseAddr_mbxAddr hn ho .base
  rw [State.violate, hbase]

/-- The second of two closed registers counts after the first. -/
theorem State.violate_two (ho4 : off + 4 < 0x1000) (s : State) : (s.violate (mbxAddr n off)).violate (mbxAddr n (off + 4))
    = { s with keep := { s.keep with violCount := s.keep.violCount + BitVec.ofNat 32 2, violAddr := BitVec.ofNat 26 (mbxAddr n (off + 4)) } } := by
  rw [State.violate_mbxAddr hn ho4, State.violate_mbxAddr hn ho]
  dsimp only
  rw [BitVec.add_assoc]
  rfl

end

section
variable {s : State} {n off : Nat} (hs : s.fuses.state = 4) (h1 : 1 ≤ n) (hn : n < 4) (ho : off < 0x1000)
  (hdef : definedAt (mbxAddr n off) = true)
include hs h1 hn ho hdef

theorem State.forbids_mbxAddr : s.forbids (mbxAddr n off) = true := by
  have hbase : baseAddr (mbxAddr n off) = mbxAddr n off := baseAddr_mbxAddr hn ho .base
  unfold State.forbids
  simp only [hbase, hdef, hs, Bool.true_and, beq_self_eq_true, Bool.and_eq_true, decide_eq_true_eq]
  unfold mbxAddr
  omega

/-- A read within a closed register gives zeros (R346). -/
theorem State.readAccess_closed {b len : Nat} (hfit : b + len ≤ 4) (hlen : 1 ≤ len) : s.readAccess ⟨mbxAddr n off + b, len⟩
    = (s.violate (mbxAddr n off)).emit (.answer 1 (if len = 4 then .word 0 else .parts [some (List.replicate len 0)])) := by
  have halign := mbxAddr_aligned hn ho hdef
  have hfirst : (mbxAddr n off + b) / 4 = mbxAddr n off / 4 := by omega
  have hcount : ceilDiv (mbxAddr n off + b + len) 4 - mbxAddr n off / 4 = 1 := by
    unfold ceilDiv
    omega
  have hword : 4 * (mbxAddr n off / 4 + 0) = mbxAddr n off := by omega
  have hbytes : accessBytes 0 (mbxAddr n off + b - mbxAddr n off) (mbxAddr n off + b + len - mbxAddr n off) = List.replicate len 0 := by
    rw [Nat.add_sub_cancel_left, Nat.add_assoc, Nat.add_sub_cancel_left]
    exact accessBytes_zero hfit
  simp only [State.readAccess, hfirst, hcount, List.range_one, List.map_cons, List.map_nil, hword, State.readWords,
    State.readWord_forbidden (s.forbids_mbxAddr hs h1 hn ho hdef), Option.map_some, hbytes, respOf_zeros]
  rfl

variable (ho4 : off + 4 < 0x1000) (hdef4 : definedAt (mbxAddr n (off + 4)) = true)
include ho4 hdef4

theorem State.readAccess_closed_two : s.readAccess ⟨mbxAddr n off, 8⟩
    = ((s.violate (mbxAddr n off)).violate (mbxAddr n (off + 4))).emit (.answer 1 (.parts [some [0, 0, 0, 0], some [0, 0, 0, 0]])) := by
  have halign := mbxAddr_aligned hn ho hdef
  have hcount : ceilDiv (mbxAddr n off + 8) 4 - mbxAddr n off / 4 = 2 := by
    unfold ceilDiv
    omega
  have hfirst : 4 * (mbxAddr n off / 4 + 0) = mbxAddr n off := by omega
  have hsecond : 4 * (mbxAddr n off / 4 + 1) = mbxAddr n (off + 4) := by
    unfold mbxAddr at halign ⊢
    omega
  have hbytes : accessBytes 0 (mbxAddr n off - mbxAddr n off) (mbxAddr n off + 8 - mbxAddr n off) = [0, 0, 0, 0] := by
    rw [Nat.sub_self, Nat.add_sub_cancel_left]
    rfl
  have hbytes4 : accessBytes 0 (mbxAddr n off - mbxAddr n (off + 4)) (mbxAddr n off + 8 - mbxAddr n (off + 4)) = [0, 0, 0, 0] := by
    have hlo : mbxAddr n off - mbxAddr n (off + 4) = 0 := by
      unfold mbxAddr
      omega
    have hhi : mbxAddr n off + 8 - mbxAddr n (off + 4) = 4 := by
      unfold mbxAddr
      omega
    rw [hlo, hhi]
    rfl
  have hclosed : (s.violate (mbxAddr n off)).forbids (mbxAddr n (off + 4)) = true :=
    (State.forbids_congr rfl _).trans (s.forbids_mbxAddr hs h1 hn ho4 hdef4)
  simp only [State.readAccess, hcount, List.range_succ, List.range_zero, List.nil_append, List.cons_append, List.map_cons, List.map_nil, hfirst,
    hsecond, State.readWords, State.readWord_forbidden (s.forbids_mbxAddr hs h1 hn ho hdef), State.readWord_forbidden hclosed,
    Option.map_some, hbytes, hbytes4]
  rfl

end

/-! ### The obligation -/

/-- A write of reserved addresses carries no command (R345). -/
theorem State.registerWrite_bad {s : State} {a be : Nat} (hopen : s.forbids a = false) (hbad : badWrite a (be % 16) = true) (v : Word) (env : Env) :
    s.registerWrite a ⟨v, none⟩ be env = s.emit (.aer a) := s.wordWrite_bad hopen hbad v env

/-- A write of two closed registers counts both. -/
theorem State.registerWrite_forbidden {s : State} {a : Nat} (h : s.forbids a = true) (h4 : (s.violate a).forbids (a + 4) = true) (v x : Word)
    (be : Nat) (env : Env) : s.registerWrite a ⟨v, some x⟩ be env = (s.violate a).violate (a + 4) := by
  simp only [State.registerWrite, State.wordWrite_forbidden h, State.wordWrite_forbidden h4]

theorem badWrite_undefined {a : Nat} (h : definedAt a = false) (be : Nat) : badWrite a be = true := by simp [badWrite, h]

/-- Settles O27: reserved addresses by the word that no register answers or takes, closed registers by the violation that each one counts. -/
theorem reservedAndClosedAddresses : Obligations.ReservedAndClosedAddresses := by
  refine ⟨fun s hio => ⟨fun a ha => ?_, fun a v be ha => ?_, fun a v w be ha ha4 => ?_, fun p => ⟨State.emit_open, fun hp => ?_⟩⟩,
    fun s n off hio hs h1 hn ho => ?closed⟩
  case closed =>
    intro w hdef k
    refine ⟨fun b len hfit hlen => ⟨?_, fun v => ?_⟩, fun ho4 hdef4 => ⟨?_, fun v x => ?_⟩⟩
    · refine ⟨_, rfl, ?_⟩
      rw [State.whenIo, if_pos hio]
      exact (s.readAccess_closed hs h1 hn ho hdef hfit hlen).trans (congrArg (State.emit · _) (State.violate_mbxAddr hn ho _))
    · have hword : (w + b) / 4 * 4 = w := by
        have : w % 4 = 0 := mbxAddr_aligned hn ho hdef
        omega
      refine ⟨_, rfl, ?_⟩
      rw [State.whenIo, if_pos hio]
      dsimp only
      rw [hword]
      exact (State.wordWrite_forbidden (s.forbids_mbxAddr hs h1 hn ho hdef) v _ _).trans (State.violate_mbxAddr hn ho _)
    · refine ⟨_, rfl, ?_⟩
      rw [State.whenIo, if_pos hio]
      exact (s.readAccess_closed_two hs h1 hn ho hdef ho4 hdef4).trans (congrArg (State.emit · _) (State.violate_two hn ho ho4 _))
    · have hword : w / 4 * 4 = w := by
        have : w % 4 = 0 := mbxAddr_aligned hn ho hdef
        omega
      refine ⟨_, rfl, ?_⟩
      rw [State.whenIo, if_pos hio]
      have hclosed : (s.violate (mbxAddr n off)).forbids (mbxAddr n (off + 4)) = true :=
        (State.forbids_congr rfl _).trans (s.forbids_mbxAddr hs h1 hn ho4 hdef4)
      dsimp only
      rw [hword]
      exact (State.registerWrite_forbidden (s.forbids_mbxAddr hs h1 hn ho hdef) hclosed v x _ _).trans (State.violate_two hn ho ho4 _)
  · refine ⟨_, rfl, ?_⟩
    rw [State.whenIo, if_pos hio]
    exact s.readAccess_undefined ha
  · have hopen : s.forbids a = false := ha.elim s.forbids_undefined And.left
    have hbad : badWrite a (be % 16) = true := by
      rcases ha with ha | ⟨-, hbe, hpay⟩
      · exact badWrite_undefined ha _
      · simp [badWrite, hbe, hpay]
    refine ⟨⟨_, rfl, ?_⟩, fun env => ⟨_, rfl, ?_⟩⟩ <;> rw [State.whenIo, if_pos hio] <;> exact State.registerWrite_bad hopen hbad v _
  · refine ⟨_, rfl, ?_⟩
    rw [State.whenIo, if_pos hio]
    have hfirst := s.wordWrite_bad (s.forbids_undefined ha) (badWrite_undefined ha (be % 16)) v Env.quiet
    have hsecond := (s.emit (.aer a)).wordWrite_bad (State.forbids_undefined _ ha4) (badWrite_undefined ha4 (be / 16 % 16)) w Env.quiet
    simp only [State.registerWrite, hfirst, hsecond]
  · rw [State.emit, if_neg (by simp [hp])]

end Sys2Proof.Machine
end

section
/-!
O29. The messages of the 16 vectors and the management bus (R354, R413, R442, Table 18.4).
-/
namespace Sys2Proof.Machine

open Sys2Proof

theorem State.set_ints_out_frame (s : State) (i : Ints) (o : Out) : Frame [.ints, .out] s { s with ints := i, out := o } := by
  intro p hp
  cases p with
  | ints | out => simp at hp
  | _ => rfl

/-! ### A vector that is flushed -/

/-- Does the message of a vector leave when the vector is flushed? -/
def Ints.flushes (i : Ints) (v : Nat) : Bool := i.enabled && !i.fmask && !(i.table.getD v ⟨0, 0, true⟩).masked && i.pending.getLsbD v

theorem State.flushVector_sends {s : State} {v : Nat} (h : s.ints.flushes v = true) :
    s.flushVector v = ({ s with ints := { s.ints with pending := s.ints.pending &&& ~~~(1#16 <<< v) } } : State).emit (.msix v) := if_pos h

theorem State.flushVector_keeps {s : State} {v : Nat} (h : s.ints.flushes v = false) : s.flushVector v = s :=
  if_neg (by simpa [Ints.flushes] using h)

theorem getLsbD_clear_vector (p : BitVec 16) {k v : Nat} (hk : k < 16) :
    (p &&& ~~~(1#16 <<< v)).getLsbD k = (p.getLsbD k && !decide (k = v)) := by
  rw [BitVec.getLsbD_and, BitVec.getLsbD_not, BitVec.getLsbD_shiftLeft, BitVec.getLsbD_one]
  by_cases h : k = v
  · simp [h]
  · by_cases hlt : k < v
    · simp [hk, h, hlt]
    · have : k - v ≠ 0 := by omega
      simp [hk, h, hlt, this]

/-! ### The vector control of an entry -/

section
variable {k : Nat} (hk : k < 16)
include hk

theorem fieldsAt_vectorControl : fieldsAt (0x2200C + 16 * k) = some [rw 0 1] := by
  have htower : towerOf (0x2200C + 16 * k) = none := by rw [towerOf, if_neg (by omega)]
  have hdiv : (0x2200C + 16 * k) / 0x10000 = 2 := by omega
  have hmod : (0x2200C + 16 * k) % 0x10000 = 0x200C + 16 * k := by omega
  have hlow : ¬ 0x200C + 16 * k < 0x2000 := by omega
  have hentry : 0x2000 ≤ 0x200C + 16 * k ∧ 0x200C + 16 * k < 0x2100 ∧ (0x200C + 16 * k) % 4 = 0 := by omega
  have hword : (0x200C + 16 * k) % 16 / 4 = 3 := by omega
  simp only [fieldsAt, htower, hdiv, hmod, evtFields, hentry, and_self, if_true, hword]
  repeat rw [if_neg (by omega)]

theorem baseAddr_vectorControl : baseAddr (0x2200C + 16 * k) = 0x2200C + 16 * k := by
  unfold baseAddr
  omega

theorem aliasOf_vectorControl : aliasOf (0x2200C + 16 * k) = .base := by
  have : (0x2200C + 16 * k) % 0x10000 / 0x4000 = 0 := by omega
  simp [aliasOf, this]

/-- A zero written to the vector control of an entry unmasks the vector and sends what is pending (R354). -/
theorem State.hostStore_vectorControl {s : State} (hr : s.power.ready = true) :
    s.hostStore (0x2200C + 16 * k) 15 0
      = ({ s with ints := { s.ints with table := updAt s.ints.table k fun x => { x with masked := false } } } : State).flushVector k := by
  have hbase := baseAddr_vectorControl hk
  have halias := aliasOf_vectorControl hk
  have hfields := fieldsAt_vectorControl hk
  have htower : towerOf (0x2200C + 16 * k) = none := by rw [towerOf, if_neg (by omega)]
  have hdiv : (0x2200C + 16 * k) / 0x10000 = 2 := by omega
  have hmod : (0x2200C + 16 * k) % 0x10000 = 0x200C + 16 * k := by omega
  have hopen : s.forbids (0x2200C + 16 * k) = false := by
    have : ¬ 0x2200C + 16 * k < 0x14000 := by omega
    simp [State.forbids, hbase, this]
  have hgood : badWrite (0x2200C + 16 * k) 15 = false := by simp [badWrite, definedAt, hbase, halias, hfields]
  have htakes : s.takesWrite (0x2200C + 16 * k) = true := by simp [State.takesWrite, hr]
  have hentry : 0x2000 ≤ 0x200C + 16 * k ∧ 0x200C + 16 * k < 0x2100 := by omega
  have hvec : (0x200C + 16 * k - 0x2000) / 16 = k := by omega
  have hword : (0x200C + 16 * k) % 16 / 4 = 3 := by omega
  have hnew (old : Nat) : (writeFields [rw 0 1] .base old 0).1 = 0 := by simp [writeFields, Fld.write, rw]
  have hstore : s.storeReg (0x2200C + 16 * k) .base 0 = s.writeEvt (0x200C + 16 * k) 0 := by
    simp only [State.storeReg, hfields, htower, hdiv, hmod, hnew]
  simp only [State.hostStore, hopen, hgood, hbase, halias, htakes, hstore, Bool.not_true, Bool.false_eq_true, if_false, Nat.reduceMod, if_true]
  simp only [State.writeEvt, hentry, and_self, if_true, hvec, hword]
  repeat rw [if_neg (by omega)]
  rfl

theorem getD_unmasked {l : List MsixEnt} (hl : l.length = 16) (d : MsixEnt) :
    ((updAt l k fun x => { x with masked := false }).getD k d).masked = false := by
  simp [updAt, List.getD_eq_getElem?_getD, hl, hk]

end

/-! ### Every vector flushed in order -/

section
variable {s : State}

/-- Flushing touches the pending bits and the traffic alone. -/
theorem State.flushVector_shape (s : State) (v : Nat) :
    s.flushVector v = { s with ints := { s.ints with pending := (s.flushVector v).ints.pending }, out := (s.flushVector v).out } := by
  cases h : s.ints.flushes v
  · rw [State.flushVector_keeps h]
  · rw [State.flushVector_sends h]
    rfl

theorem State.foldl_flushVector_shape (l : List Nat) (s : State) :
    l.foldl State.flushVector s = { s with ints := { s.ints with pending := (l.foldl State.flushVector s).ints.pending },
                                           out := (l.foldl State.flushVector s).out } := by
  induction l generalizing s with
  | nil => rfl
  | cons v l ih =>
    rw [List.foldl_cons, ih, State.flushVector_shape s v]

theorem State.foldl_flushVector_disabled (l : List Nat) (h : (s.ints.enabled && !s.ints.fmask) = false) : l.foldl State.flushVector s = s := by
  induction l with
  | nil => rfl
  | cons v l ih => rw [List.foldl_cons, State.flushVector_keeps (by simp [Ints.flushes, h]), ih]

/-- The vectors of a list whose messages leave. -/
def State.sentVectors (s : State) (l : List Nat) : List Nat :=
  l.filter fun k => s.ints.pending.getLsbD k && !(s.ints.table.getD k ⟨0, 0, true⟩).masked

/-- Traffic of messages that leave together: by the CXL.io stream, or behind it while it is Insecure (R413). -/
def State.sendMsix (s : State) (vs : List Nat) : Out :=
  if s.ideUp 1 = true then { s.out with msix := s.out.msix ++ vs } else { s.out with stalled := s.out.stalled ++ vs.map Posted.msix }

theorem State.sendMsix_nil (s : State) : s.sendMsix [] = s.out := by simp [State.sendMsix]

theorem State.sendMsix_cons (s : State) (v : Nat) (vs : List Nat) : (s.emit (.msix v)).sendMsix vs = s.sendMsix (v :: vs) := by
  have hide : (s.emit (.msix v)).ideUp 1 = s.ideUp 1 := rfl
  rw [State.sendMsix, State.sendMsix, hide]
  cases h : s.ideUp 1
  · simp [State.emit, Posted.stream, h]
  · simp [State.emit, Posted.stream, h, Out.sendOne]

/-- A vector that is flushed clears its own pending bit alone. -/
theorem State.flushVector_pending {v k : Nat} (hen : (s.ints.enabled && !s.ints.fmask) = true) (hk : k < 16) :
    (s.flushVector v).ints.pending.getLsbD k
      = (s.ints.pending.getLsbD k && !(decide (k = v) && !(s.ints.table.getD v ⟨0, 0, true⟩).masked)) := by
  by_cases hkv : k = v
  · subst hkv
    cases h : s.ints.flushes k
    · rw [State.flushVector_keeps h]
      simp only [Ints.flushes, hen, Bool.true_and, Bool.and_eq_false_iff] at h
      rcases h with h | h <;> rw [h] <;> simp
    · simp only [State.flushVector_sends h, State.emit_ints, getLsbD_clear_vector _ hk]
      simp only [Ints.flushes, hen, Bool.true_and, Bool.and_eq_true] at h
      obtain ⟨hopen, -⟩ := h
      rw [hopen]
      simp
  · cases h : s.ints.flushes v
    · rw [State.flushVector_keeps h]
      simp [hkv]
    · rw [State.flushVector_sends h]
      have hclear := getLsbD_clear_vector s.ints.pending (v := v) hk
      simp [hclear, hkv]

theorem State.foldl_flushVector_pending (l : List Nat) {k : Nat} (hen : (s.ints.enabled && !s.ints.fmask) = true) (hk : k < 16) :
    (l.foldl State.flushVector s).ints.pending.getLsbD k
      = (s.ints.pending.getLsbD k && !(decide (k ∈ l) && !(s.ints.table.getD k ⟨0, 0, true⟩).masked)) := by
  induction l generalizing s with
  | nil => simp
  | cons v l ih =>
    have hshape := s.flushVector_shape v
    have htable : (s.flushVector v).ints.table = s.ints.table := by rw [hshape]
    rw [List.foldl_cons, ih (by rw [hshape]; exact hen), htable, State.flushVector_pending hen hk]
    by_cases hkv : k = v
    · subst hkv
      cases s.ints.pending.getLsbD k <;> cases (s.ints.table.getD k ⟨0, 0, true⟩).masked <;> simp
    · simp [hkv]

/-- The messages of distinct vectors that are flushed in order. -/
theorem State.foldl_flushVector_out {l : List Nat} (hd : l.Nodup) (hl : ∀ v ∈ l, v < 16) (hen : (s.ints.enabled && !s.ints.fmask) = true) :
    (l.foldl State.flushVector s).out = s.sendMsix (s.sentVectors l) := by
  induction l generalizing s with
  | nil => exact s.sendMsix_nil.symm
  | cons v l ih =>
    obtain ⟨hv, hd⟩ := List.nodup_cons.mp hd
    have hflush : s.ints.flushes v = (s.ints.pending.getLsbD v && !(s.ints.table.getD v ⟨0, 0, true⟩).masked) := by
      rw [Ints.flushes, hen, Bool.true_and, Bool.and_comm]
    have hrest : (s.flushVector v).sentVectors l = s.sentVectors l := by
      refine List.filter_congr fun k hk => ?_
      have htable : (s.flushVector v).ints.table = s.ints.table := by rw [s.flushVector_shape v]
      rw [htable, State.flushVector_pending hen (hl k (List.mem_cons_of_mem _ hk))]
      have hne : k ≠ v := fun h => hv (h ▸ hk)
      simp [hne]
    rw [List.foldl_cons, ih hd (fun k hk => hl k (List.mem_cons_of_mem _ hk)) (by rw [s.flushVector_shape v]; exact hen), hrest]
    cases h : s.ints.flushes v
    · rw [State.flushVector_keeps h, State.sentVectors, State.sentVectors, List.filter_cons_of_neg (by rw [← hflush, h]; decide)]
    · rw [State.flushVector_sends h, State.sentVectors, State.sentVectors, List.filter_cons_of_pos (by rw [← hflush, h])]
      exact State.sendMsix_cons _ v _

end

/-! ### The management bus -/

section
variable {s : State} (hp : s.power.powered = true)
include hp

theorem exec_smbusWriteWord (code : Nat) (op : SmbusOp) : exec (.smbusWriteWord code op) s = .next (s.smbus code op) :=
  congrArg Host.Outcome.next (if_pos hp)

end

/-- A word of the bus is the low half of the register's value. -/
theorem ofNat_half_mod (n : Nat) : BitVec.ofNat 16 (n % 65536) = BitVec.ofNat 16 n := by
  apply BitVec.eq_of_toNat_eq
  simp

theorem State.smbusRead_some {s : State} {code n m : Nat} (h : s.smbusReg code = some m) (hn : BitVec.ofNat 16 m = BitVec.ofNat 16 n) (pec : Bool) :
    s.smbusRead code pec = s.answer (.smbus (BitVec.ofNat 16 n) (if pec
      then some (smbusPec ([0xB0, BitVec.ofNat 8 code, 0xB1] ++ toLe 2 (BitVec.ofNat 16 n : Half).toNat)) else none)) := by
  simp only [State.smbusRead, h, hn]

theorem State.smbusReg_unlisted (s : State) {code : Nat} (h : 11 < code) : s.smbusReg code = none := by
  obtain ⟨c, rfl⟩ : ∃ c, code = c + 12 := ⟨code - 12, by omega⟩
  simp [State.smbusReg]

/-- The words of Table 18.4, in the order of their codes. -/
def State.smbusWords (s : State) : List Nat := [0xB0,
  (1 + (if s.power.ready then 2 else 0) + s.power.phase * 4 + s.fuses.state * 32 + (if s.belfry.hold then 256 else 0)
    + if s.power.berylStop then 512 else 0),
  s.measure.vin, s.measure.meas / 1000, tempByte s.thermal.temp, s.effCap % 512, s.power.smbAlert.toNat, s.power.smbAlertEn.toNat,
  Config.serial.toNat, Config.serial.toNat / 2 ^ 16, Config.serial.toNat / 2 ^ 32, Config.serial.toNat / 2 ^ 48]

theorem State.smbusReg_listed (s : State) {code : Nat} (h : code ≤ 11) :
    ∃ m, s.smbusReg code = some m ∧ BitVec.ofNat 16 m = BitVec.ofNat 16 (s.smbusWords.getD code 0) := by
  have hlist : ∀ c < 12, ∃ m, s.smbusReg c = some m ∧ BitVec.ofNat 16 m = BitVec.ofNat 16 (s.smbusWords.getD c 0) := by
    intro c hc
    match c with
    | 0 => exact ⟨_, rfl, rfl⟩
    | 1 => exact ⟨_, rfl, rfl⟩
    | 2 => exact ⟨_, rfl, ofNat_half_mod _⟩
    | 3 => exact ⟨_, rfl, ofNat_half_mod _⟩
    | 4 => exact ⟨_, rfl, rfl⟩
    | 5 => exact ⟨_, rfl, rfl⟩
    | 6 => exact ⟨_, rfl, rfl⟩
    | 7 => exact ⟨_, rfl, rfl⟩
    | 8 => exact ⟨_, rfl, by rw [Nat.sub_self, Nat.pow_zero, Nat.div_one]; exact ofNat_half_mod _⟩
    | 9 => exact ⟨_, rfl, ofNat_half_mod (Config.serial.toNat / 65536 ^ 1)⟩
    | 10 => exact ⟨_, rfl, ofNat_half_mod (Config.serial.toNat / 65536 ^ 2)⟩
    | 11 => exact ⟨_, rfl, ofNat_half_mod (Config.serial.toNat / 65536 ^ 3)⟩
  exact hlist code (by omega)

/-! ### The obligation -/

/-- Settles O29: an unmasked vector by its flush, the enabled function by the flush of its ten vectors in order, the bus by its registers. -/
theorem interruptsAndManagementBus : Obligations.InterruptsAndManagementBus := by
  intro s
  refine ⟨fun k hio hr hk hlen => ?_, fun en fm hio => ?_, fun hp code v => ⟨fun pec hpec => ?_, fun p hne => ?_⟩,
    fun hp code pec => ⟨fun hcode => ?_, fun hcode => ?_⟩, fun hp => ?_⟩
  · have hexec : exec (.msixUnmask k) s = .next (s.hostStore (0x2200C + 16 * k) 15 0) := by
      simp only [exec, execMsixUnmask, State.whenIo, hio, if_true, hk]
    rw [State.hostStore_vectorControl hk hr] at hexec
    refine ⟨_, hexec, ?_⟩
    set u : State := { s with ints := { s.ints with table := updAt s.ints.table k fun x => { x with masked := false } } }
    have hflush : u.ints.flushes k = (s.ints.enabled && !s.ints.fmask && s.ints.pending.getLsbD k) := by
      have hopen : (u.ints.table.getD k ⟨0, 0, true⟩).masked = false := getD_unmasked hk hlen _
      rw [Ints.flushes, hopen, Bool.not_false, Bool.and_true]
    rw [← hflush]
    cases h : u.ints.flushes k
    · rw [State.flushVector_keeps h]
      exact ⟨s.set_ints_out_frame _ _, rfl, rfl, rfl, rfl⟩
    · rw [State.flushVector_sends h]
      exact ⟨s.set_ints_out_frame _ _, rfl, rfl, rfl, rfl⟩
  · have hexec : exec (.msixEnable en fm) s = .next (({ s with ints := { s.ints with enabled := en, fmask := fm } } : State).flushAll) := by
      simp only [exec, execMsixEnable, State.whenIo, hio, if_true]
    refine ⟨_, hexec, ?_⟩
    set u : State := { s with ints := { s.ints with enabled := en, fmask := fm } }
    have hshape := u.foldl_flushVector_shape (List.range 10)
    refine ⟨?_, ?_, fun hoff => ?_, fun hon => ?_⟩
    · rw [State.flushAll, hshape]
      exact s.set_ints_out_frame _ _
    · rw [State.flushAll, hshape]
    · rw [State.flushAll, State.foldl_flushVector_disabled _ hoff]
      exact ⟨rfl, rfl⟩
    · have hout : u.flushAll.out = u.sendMsix (u.sentVectors (List.range 10)) :=
        State.foldl_flushVector_out List.nodup_range (fun v hv => by have := List.mem_range.mp hv; omega) hon
      refine ⟨fun k hk => ?_, fun hup => hout.trans (if_pos hup), fun hdown => hout.trans (if_neg (Bool.eq_false_iff.mp hdown))⟩
      have hmem : decide (k ∈ List.range 10) = !decide (10 ≤ k) := by
        rw [← decide_not]
        exact decide_eq_decide.mpr (by rw [List.mem_range]; omega)
      rw [State.flushAll, State.foldl_flushVector_pending _ hon hk, hmem, Bool.not_and, Bool.not_not]
  · refine ⟨_, exec_smbusWriteWord hp code _, ?_⟩
    cases pec with
    | none => rfl
    | some p =>
      cases hpec p rfl
      simp only [State.smbus, State.smbusWrite, beq_self_eq_true, Bool.not_true, Bool.false_eq_true, if_false]
  · refine ⟨_, exec_smbusWriteWord hp code _, ?_⟩
    simp only [State.smbus, State.smbusWrite, beq_eq_false_iff_ne.mpr hne, Bool.not_false, if_true]
  · refine ⟨_, exec_smbusWriteWord hp code _, ?_⟩
    obtain ⟨m, hreg, hm⟩ := s.smbusReg_listed hcode
    exact State.smbusRead_some hreg hm pec
  · refine ⟨_, exec_smbusWriteWord hp code _, ?_⟩
    simp only [State.smbus, State.smbusRead, s.smbusReg_unlisted hcode]
  · refine ⟨_, congrArg Host.Outcome.next (if_pos hp), ?_⟩
    dsimp only
    by_cases hlow : s.power.smbAlert &&& s.power.smbAlertEn = 0
    · rw [if_pos hlow, if_neg fun h : s.smbAlertLow = true => bne_iff_ne.mp h hlow]
    · rw [if_neg hlow, if_pos (show s.smbAlertLow = true from bne_iff_ne.mpr hlow)]

end Sys2Proof.Machine
end

section
/-!
O59. Publications of the event log (R338, R356, R357, Table 13.7).
-/
namespace Sys2Proof.Machine

open Sys2Proof

/-! ### The record that is taken -/

theorem EvtLog.nextRecord_early {e : EvtLog} {r : EvRec} {rest : List EvRec} (h : e.early = r :: rest) :
    e.nextRecord = some ({ r with lost := r.lost || e.lostNext }, { e with early := rest, lostNext := false }) := by
  simp only [EvtLog.nextRecord, h]

theorem EvtLog.nextRecord_ring {e : EvtLog} {r : EvRec} {rest : List EvRec} (hearly : e.early = []) (h : e.ring = r :: rest) :
    e.nextRecord = some ({ r with lost := r.lost || e.lostNext }, { e with ring := rest, lostNext := false }) := by
  simp only [EvtLog.nextRecord, hearly, h]

/-- A record is 64 bytes long (Table 13.7). -/
theorem EvRec.length_bytes {r : EvRec} (h : r.body.length = 32) : r.bytes.length = 64 := by
  simp [EvRec.bytes, h]

/-! ### The branches of a publication -/

theorem State.set_evt_mem_ints_out_frame (s : State) (e : EvtLog) (m : Mem) (i : Ints) (o : Out) :
    Frame [.evt, .mem, .ints, .out] s { s with evt := e, mem := m, ints := i, out := o } := by
  intro p hp
  cases p with
  | evt | mem | ints | out => simp at hp
  | _ => rfl

/-- The address of the record at HEAD (R356). -/
def EvtLog.headAddr (e : EvtLog) : Nat := e.base.toNat + 64 * (e.head.toNat % 2 ^ e.log2)

section
variable {s : State} {r : EvRec} {e1 : EvtLog} (hnext : s.evt.nextRecord = some (r, e1))
include hnext

/-- A full ring drops the record (R357). -/
theorem State.publish_full (hfull : 2 ^ s.evt.log2 ≤ (s.evt.head - s.evt.tail).toNat) :
    s.publish = { s with evt := { e1 with lostCount := s.evt.lostCount + 1, lostNext := true } } := by
  simp only [State.publish, hnext]
  exact if_pos hfull

variable (hroom : (s.evt.head - s.evt.tail).toNat < 2 ^ s.evt.log2) (hopen : s.bgOpen (s.mem.place s.evt.headAddr).stack = true)
include hroom hopen

/-- A line that the host may hold is snooped, and the record waits for the answer (R338). -/
theorem State.publish_snoops (hline : s.evt.headAddr / 64 ∈ s.mem.snoop)
    (hfresh : ∀ w ∈ s.mem.waiting, ¬ (w.addr = s.evt.headAddr ∧ w.bytes = r.bytes)) :
    s.publish = ({ s with mem := { s.mem with waiting := s.mem.waiting ++ [⟨s.evt.headAddr, r.bytes, s.mem.writer⟩] } } : State).emit
      (.snoop (s.evt.headAddr / 64)) := by
  have hnone : (s.mem.waiting.any fun (w : WaitWrite) => w.addr == s.evt.headAddr && w.bytes == r.bytes) = false := by
    rw [List.any_eq_false]
    intro w hw h
    rw [Bool.and_eq_true, beq_iff_eq, beq_iff_eq] at h
    exact hfresh w hw h
  have hheld : s.mem.snoop.contains (s.evt.headAddr / 64) = true := List.contains_iff_mem.mpr hline
  rw [← State.writeLine_tracked r.bytes hline]
  simp only [State.publish, hnext]
  simp only [EvtLog.headAddr] at *
  rw [if_neg (by omega), hopen, hheld, hnone]
  rfl

variable (hfree : s.evt.headAddr / 64 ∉ s.mem.snoop) (hret : s.mem.pageRetired (s.evt.headAddr / 65536) = false) (hlen : r.bytes.length = 64)
include hfree hret hlen

/-- Else the record is stored, HEAD advances past it, and the host is told (R357, R358, R392). -/
theorem State.publish_eq : ∃ p o, s.publish = { s with
    evt := { e1 with head := e1.head + 1, out4 := e1.out4 || (e1.intEn && s.ints.enabled) }
    mem := (s.bgSpend (s.mem.place s.evt.headAddr).stack 64).mem.stored s.evt.headAddr r.bytes
    ints := { s.ints with raised := s.ints.raised ||| (1#10 <<< 4), pending := p }, out := o } := by
  have hheld : s.mem.snoop.contains (s.evt.headAddr / 64) = false := by simpa using hfree
  have hne : r.bytes ≠ [] := fun h => by simp [h] at hlen
  have hput := State.putPage_stored (s := ({ s with evt := e1 } : State).bgSpend (s.mem.place s.evt.headAddr).stack 64) (a := s.evt.headAddr) hne hret
  obtain ⟨p, o, hwake⟩ := (({ s with
    evt := { e1 with head := e1.head + 1 }
    mem := (s.bgSpend (s.mem.place s.evt.headAddr).stack 64).mem.stored s.evt.headAddr r.bytes } : State).latch 4).wakeHost_eq
  refine ⟨p, o, ?_⟩
  simp only [State.publish, hnext]
  simp only [EvtLog.headAddr] at *
  rw [if_neg (by omega), hopen, hheld, hput]
  exact hwake

theorem State.publish_stores : s.publish.evt = { e1 with head := e1.head + 1, out4 := s.publish.evt.out4 }
    ∧ s.publish.mem.cells = memWrite s.mem.cells s.evt.headAddr r.bytes
    ∧ s.publish.ints.raised = s.ints.raised ||| (1#10 <<< 4) ∧ Frame [.evt, .mem, .ints, .out] s s.publish := by
  obtain ⟨p, o, hpub⟩ := State.publish_eq hnext hroom hopen hfree hret hlen
  rw [hpub]
  exact ⟨rfl, by simp only [Mem.stored, State.bgSpend_mem], rfl, s.set_evt_mem_ints_out_frame _ _ _ _⟩

end

/-! ### The obligation -/

theorem exec_eventPublish {s : State} (hp : s.power.powered = true) (hen : s.evt.en = true) (hb : s.power.berylStop = false) :
    exec .eventPublish s = .next s.publish := by
  simp only [exec, execEventPublish, State.whenOn, hp, hen, hb, if_true, Bool.not_false, Bool.and_self]

/-- Settles O59, by the branches of a publication. -/
theorem eventsArePublishedInOrder : Obligations.EventsArePublishedInOrder := by
  intro s r0 r rest e1 hp hen hb hr hnext hwf hbody size a
  have hrec : s.evt.nextRecord = some (r, e1) := by
    rcases hnext with ⟨hearly, rfl⟩ | ⟨hearly, hring, rfl⟩
    · rw [hr, EvtLog.nextRecord_early hearly]
    · rw [hr, EvtLog.nextRecord_ring hearly hring]
  have hexec := exec_eventPublish hp hen hb
  have hlen := EvRec.length_bytes hbody
  refine ⟨fun hroom hopen => ⟨fun hfree hret => ?_, fun hline hfresh => ⟨_, hexec, State.publish_snoops hrec hroom hopen hline hfresh⟩⟩,
    fun hfull => ⟨_, hexec, State.publish_full hrec hfull⟩⟩
  obtain ⟨hevt, hcells, hraised, hframe⟩ := State.publish_stores hrec hroom hopen hfree hret hlen
  refine ⟨_, hexec, hevt, ?_, fun q hq => ?_, ?_, hframe⟩
  · rw [hcells, ← hlen]
    exact memRead_memWrite hwf _ r.bytes
  · rw [hcells]
    exact memGet_memWrite_other r.bytes (hlen.symm ▸ hq)
  · rw [hraised]
    simp

end Sys2Proof.Machine
end

section
/-!
O32. Sessions, IDE streams and CDAT (R341, R412, R413, Table 16.8).
-/
namespace Sys2Proof.Machine

open Sys2Proof

theorem State.set_out_freeCtr_frame (s : State) (o : Out) (c : Nat) : Frame [.out, .freeCtr] s { s with out := o, freeCtr := c } := by
  intro p hp
  cases p with
  | out | freeCtr => simp at hp
  | _ => rfl

theorem State.set_keep_out_freeCtr_frame (s : State) (k : Keep) (o : Out) (c : Nat) :
    Frame [.keep, .out, .freeCtr] s { s with keep := k, out := o, freeCtr := c } := by
  intro p hp
  cases p with
  | keep | out | freeCtr => simp at hp
  | _ => rfl

theorem State.set_keep_out_frame (s : State) (k : Keep) (o : Out) : Frame [.keep, .out] s { s with keep := k, out := o } := by
  intro p hp
  cases p with
  | keep | out => simp at hp
  | _ => rfl

/-! ### Answers to requests -/

/-- An answer of the Keep: what it says, in bytes of free values (log 19). -/
theorem State.spdmAnswer_eq (s : State) (m : List Byte) (r : SpdmSays) (signed : Bool) :
    ∃ bs, s.spdmAnswer m r signed = { s with out := { s.out with resp := .spdm r bs }, freeCtr := s.freeCtr + 1 } := ⟨_, rfl⟩

section
variable {s : State} (m : List Byte)

theorem State.spdmSays_caps (h : fieldLe m 1 1 = 0xE1) : s.spdmSays m = some (.caps spdmCaps) := by simp only [State.spdmSays, h]

theorem State.spdmSays_algs (h : fieldLe m 1 1 = 0xE3) : s.spdmSays m = some (.algs spdmAlgs) := by simp only [State.spdmSays, h]

theorem State.spdmSays_count (h : fieldLe m 1 1 = 0xE0) (h0 : fieldLe m 3 1 = 0) : s.spdmSays m = some (.count 4) := by
  simp only [State.spdmSays, h, h0, if_true]

/-- GET_MEASUREMENTS of an index: the blocks that have it, if any (Table 16.8). -/
theorem State.spdmSays_blocks {k : Nat} {l : List (Nat × List Byte)} (h : fieldLe m 1 1 = 0xE0) (hk : fieldLe m 3 1 = k) (h0 : k ≠ 0)
    (hl : (s.spdmBlocks.filter fun b => k == 0xFF || b.1 == k) = l) : s.spdmSays m = if l.isEmpty then none else some (.blocks l) := by
  simp only [State.spdmSays, h, hk, h0, if_false, hl]

/-- Digests, certificates and pre-shared keys are not answered (R412). -/
theorem State.spdmSays_unsupported (h : fieldLe m 1 1 ∈ [0x81, 0x82, 0xE6, 0xE7]) : s.spdmSays m = none := by
  simp only [List.mem_cons, List.not_mem_nil, or_false] at h
  rcases h with h | h | h | h <;> simp only [State.spdmSays, h] <;> rfl

theorem State.spdmSays_other (h : fieldLe m 1 1 ∉ [0xE0, 0xE1, 0xE3, 0x81, 0x82, 0xE6, 0xE7]) : s.spdmSays m = some .other := by
  unfold State.spdmSays
  split
  next hc => simp [hc] at h
  next hc => simp [hc] at h
  next hc => simp [hc] at h
  next =>
    refine if_neg fun hin => h ?_
    have := List.contains_iff_mem.mp hin
    simp only [List.mem_cons, List.not_mem_nil, or_false] at this ⊢
    omega

theorem State.spdmBlocks_eq (s : State) : s.spdmBlocks = [(1, sliceB Config.romDigest 0 64), (2, sliceB s.ext.digest 0 64),
    (3, sha512 (s.fuses.bytes ++ sliceB s.fuses.ownerHash 0 64)), (4, [BitVec.ofNat 8 s.fuses.state, if s.keep.advanced then 1 else 0])] := by
  have hlast : toLe 1 s.fuses.state ++ toLe 1 (if s.keep.advanced then 1 else 0)
      = [BitVec.ofNat 8 s.fuses.state, if s.keep.advanced then 1 else 0] := by cases s.keep.advanced <;> rfl
  rw [State.spdmBlocks, hlast]

theorem State.spdmBlocks_all {k : Nat} (h : k = 0xFF) : (s.spdmBlocks.filter fun b => k == 0xFF || b.1 == k) = s.spdmBlocks := by
  rw [h]
  rfl

theorem State.spdmBlocks_one {k : Nat} (h1 : 1 ≤ k) (h4 : k ≤ 4) :
    (s.spdmBlocks.filter fun b => k == 0xFF || b.1 == k) = (s.spdmBlocks.drop (k - 1)).take 1 := by
  obtain rfl | rfl | rfl | rfl : k = 1 ∨ k = 2 ∨ k = 3 ∨ k = 4 := by omega
  all_goals rfl

theorem State.spdmBlocks_one_isEmpty {k : Nat} (h1 : 1 ≤ k) (h4 : k ≤ 4) : ((s.spdmBlocks.drop (k - 1)).take 1).isEmpty = false := by
  obtain rfl | rfl | rfl | rfl : k = 1 ∨ k = 2 ∨ k = 3 ∨ k = 4 := by omega
  all_goals rfl

theorem State.spdmBlocks_none {k : Nat} (h4 : 4 < k) (hall : k ≠ 0xFF) : (s.spdmBlocks.filter fun b => k == 0xFF || b.1 == k) = [] := by
  rw [List.filter_eq_nil_iff]
  intro b hb
  have hidx : b.1 ≤ 4 := by
    simp only [State.spdmBlocks, List.mem_cons, List.not_mem_nil, or_false] at hb
    rcases hb with rfl | rfl | rfl | rfl <;> simp
  have : b.1 ≠ k := by omega
  simp [hall, this]

end

/-! ### Requests -/

/-- The message of a request, with the session's number in front where it comes in one (log 19). -/
def State.spdmMessage (s : State) (req : List Byte) : List Byte := if s.keep.sessions.any fun p => p.1 == fieldLe req 0 4 then req.drop 4 else req

section
variable {s : State} {req : List Byte}

theorem State.spdmMessage_eq : (if (s.sessionOf req).isSome then req.drop 4 else req) = s.spdmMessage req := by
  unfold State.sessionOf State.spdmMessage
  dsimp only
  split <;> rfl

theorem State.spdm_refused (h : s.keep.state ≠ 1 ∨ s.spdmSays (s.spdmMessage req) = none) : s.spdm req = s.answer (.data [0x12, 0x7F]) := by
  unfold State.spdm
  dsimp only
  rw [State.spdmMessage_eq]
  split
  next r hkeep hsays =>
    rcases h with h | h
    · exact absurd (beq_iff_eq.mp hkeep) h
    · simp [h] at hsays
  next => rfl

variable (hkeep : s.keep.state = 1) {r : SpdmSays} (hsays : s.spdmSays (s.spdmMessage req) = some r)
include hkeep hsays

theorem State.spdm_says (hcode : fieldLe (s.spdmMessage req) 1 1 ≠ 0xEC) :
    ∃ bs, s.spdm req = { s with out := { s.out with resp := .spdm r bs }, freeCtr := s.freeCtr + 1 } := by
  have husable : s.keepUsable = true := beq_iff_eq.mpr hkeep
  unfold State.spdm
  dsimp only
  rw [State.spdmMessage_eq, husable, hsays, if_neg (by simpa using hcode)]
  exact s.spdmAnswer_eq _ _ _

/-- END_SESSION ends the session that it comes in. -/
theorem State.spdm_ends (hcode : fieldLe (s.spdmMessage req) 1 1 = 0xEC) :
    ∃ bs, s.spdm req = { s with
      keep := { s.keep with sessions :=
        if s.keep.sessions.any fun p => p.1 == fieldLe req 0 4 then s.keep.sessions.filter fun p => p.1 != fieldLe req 0 4 else s.keep.sessions }
      out := { s.out with resp := .spdm r bs }, freeCtr := s.freeCtr + 1 } := by
  have husable : s.keepUsable = true := beq_iff_eq.mpr hkeep
  have hrest : (s.keep.sessions.filter fun p => some p.1 != s.sessionOf req)
      = if s.keep.sessions.any fun p => p.1 == fieldLe req 0 4 then s.keep.sessions.filter fun p => p.1 != fieldLe req 0 4 else s.keep.sessions := by
    unfold State.sessionOf
    dsimp only
    split
    · exact List.filter_congr fun p _ => by simp [bne]
    · exact List.filter_eq_self.mpr fun p _ => rfl
  unfold State.spdm
  dsimp only
  rw [State.spdmMessage_eq, husable, hsays, if_pos (by simpa using hcode), hrest]
  exact State.spdmAnswer_eq _ _ _ _

end

/-! ### Key exchange -/

theorem any_session_iff {l : List (Nat × List Byte)} {k : Nat} : (l.any fun p => p.1 == k) = true ↔ k ∈ l.map Prod.fst := by
  rw [List.any_eq_true, List.mem_map]
  exact exists_congr fun p => and_congr_right fun _ => beq_iff_eq

theorem not_any_session_iff {l : List (Nat × List Byte)} {k : Nat} : (!l.any fun p => p.1 == k) = true ↔ k ∉ l.map Prod.fst := by
  rw [← any_session_iff, Bool.not_eq_true', Bool.not_eq_true]

/-- One of five numbers is free while fewer than four sessions stand (R412). -/
theorem exists_free_session {l : List Nat} (h : l.length < 4) : ∃ k ∈ List.range 5, k ∉ l := by
  by_contra hall
  push Not at hall
  have hsub : List.range 5 ⊆ l := hall
  have := (List.nodup_range.subperm hsub).length_le
  rw [List.length_range] at this
  omega

section
variable {s : State} {req : List Byte}

theorem State.keyExchange_refused (h : s.keep.state ≠ 1 ∨ 4 ≤ s.keep.sessions.length) : s.keyExchange req = s.answer (.data [0x12, 0x7F]) := by
  have : (!s.keepUsable || decide (s.keep.sessions.length ≥ 4)) = true := by simpa [State.keepUsable] using h
  rw [State.keyExchange, if_pos this]
  rfl

theorem State.keyExchange_opens (hkeep : s.keep.state = 1) (h : s.keep.sessions.length < 4) : ∃ k bs, k.1 ∉ s.keep.sessions.map Prod.fst
    ∧ s.keyExchange req = { s with
        keep := { s.keep with sessions := s.keep.sessions ++ [k] }, out := { s.out with resp := .spdm .other bs }, freeCtr := s.freeCtr + 1 } := by
  have hopen : (!s.keepUsable || decide (s.keep.sessions.length ≥ 4)) = false := by simpa [State.keepUsable, hkeep] using h
  obtain ⟨j, hj, hfree⟩ := exists_free_session (l := s.keep.sessions.map Prod.fst) (by simpa using h)
  have hfind : ((List.range 5).find? fun k => !s.keep.sessions.any fun p => p.1 == k).isSome = true := by
    rw [List.find?_isSome]
    exact ⟨j, hj, not_any_session_iff.mpr hfree⟩
  obtain ⟨id, hid⟩ := Option.isSome_iff_exists.mp hfind
  have hnew : (!s.keep.sessions.any fun p => p.1 == id) = true := by simpa only using List.find?_some hid
  let k := (id, Config.sessionSecret req s.freeCtr)
  obtain ⟨bs, hanswer⟩ := ({ s with keep := { s.keep with sessions := s.keep.sessions ++ [k] } } : State).spdmAnswer_eq req .other true
  refine ⟨k, bs, not_any_session_iff.mp hnew, ?_⟩
  rw [State.keyExchange, if_neg (by simp [hopen]), hid]
  exact hanswer

end

/-! ### IDE streams -/

section
variable {s : State} {k i : Nat} {req : List Byte}

theorem State.ideKm_refused (h : s.keep.state ≠ 1 ∨ k ∉ s.keep.sessions.map Prod.fst) : s.ideKm k i req = s.answer (.data [0x12, 0x7F]) := by
  have : ¬ (s.keepUsable && s.keep.sessions.any fun p => p.1 == k) = true := by
    rw [Bool.and_eq_true, any_session_iff, State.keepUsable, beq_iff_eq]
    tauto
  rw [State.ideKm, if_neg this]
  rfl

theorem State.ideKm_programs (hkeep : s.keep.state = 1) (h : k ∈ s.keep.sessions.map Prod.fst) : ∃ o, s.ideKm k i req = { s with
    keep := { s.keep with
      ideKeys := updAt s.keep.ideKeys i fun _ => Config.sessionSecret req s.freeCtr
      ide := updAt s.keep.ide i fun x => if x = IdeState.insecure then x else IdeState.secure }
    out := o, freeCtr := s.freeCtr + 1 } := by
  have : (s.keepUsable && s.keep.sessions.any fun p => p.1 == k) = true := by
    rw [Bool.and_eq_true, any_session_iff, State.keepUsable, beq_iff_eq]
    exact ⟨hkeep, h⟩
  exact ⟨_, by rw [State.ideKm, if_pos this]; rfl⟩

end

/-- Keys make their own stream secure, but an Insecure one stays so (R413). -/
theorem getD_updAt_secured {l : List IdeState} {i j : Nat} (h : j < l.length) :
    (updAt l i fun x => if x = IdeState.insecure then x else IdeState.secure).getD j .off
      = if j = i ∧ l.getD j .off ≠ .insecure then .secure else l.getD j .off := by
  simp only [updAt, List.getD_eq_getElem?_getD, List.getElem?_modify]
  by_cases hi : i = j
  · by_cases hins : l[j] = .insecure <;> simp [hi, h, hins]
  · simp [hi, Ne.symm hi]

section
variable (l : List Posted) (o : Out)

/-- What waited for a stream leaves in order, each by its kind. -/
theorem Out.foldl_sendOne : (l.foldl Out.sendOne o).stalled = o.stalled
    ∧ (l.foldl Out.sendOne o).msix = o.msix ++ l.filterMap (fun | .msix v => some v | _ => none)
    ∧ (l.foldl Out.sendOne o).snoops = o.snoops ++ l.filterMap (fun | .snoop x => some x | _ => none)
    ∧ (l.foldl Out.sendOne o).aer = o.aer ++ l.filterMap (fun | .aer a => some a | _ => none) := by
  induction l generalizing o with
  | nil => simp
  | cons p l ih =>
    obtain ⟨hstalled, hmsix, hsnoops, haer⟩ := ih (o.sendOne p)
    rw [List.foldl_cons, hstalled, hmsix, hsnoops, haer]
    cases p <;> simp [Out.sendOne]

end

/-! ### The obligation -/

/-- Settles O32, request by request. -/
theorem sessionsAndStreams : Obligations.SessionsAndStreams := by
  intro s req hp hl
  have hspdm : exec (.spdmRequest req) s = .next (s.spdm req) := by
    simp only [exec, execSpdmRequest, State.whenOn, hp, hl, if_true]
  have hkeys : exec (.keyExchange req) s = .next (s.keyExchange req) := by
    simp only [exec, execKeyExchange, State.whenOn, hp, hl, if_true]
  have hide (k : Nat) (cm th : Bool) : exec (.ideKm k cm th req) s = .next (s.ideKm k (ideIndex cm th) req) := by
    simp only [exec, execIdeKm, State.whenOn, hp, hl, if_true]
  refine ⟨fun hkeep h => ?_, fun h => ⟨_, hkeys, State.keyExchange_refused h⟩, fun h => ⟨_, hspdm, State.spdm_refused (.inl h)⟩,
    fun hkeep => ?_, fun k cm th hkeep hk h4 => ?_, fun k cm th h => ?_, ?_, ?_⟩
  · obtain ⟨k, bs, hfree, hopens⟩ := State.keyExchange_opens (req := req) hkeep h
    exact ⟨_, k, bs, hkeys.trans (congrArg _ hopens), hfree, rfl, s.set_keep_out_freeCtr_frame _ _ _, rfl⟩
  · intro inside m code block blocks saying
    have hm : s.spdmMessage req = m := rfl
    have hblocks : s.spdmBlocks = blocks := s.spdmBlocks_eq
    have hsay {r : SpdmSays} (hsays : s.spdmSays m = some r) (hcode : code ≠ 0xEC) : saying r := by
      obtain ⟨bs, hbs⟩ := State.spdm_says (req := req) hkeep hsays hcode
      exact ⟨_, bs, hspdm.trans (congrArg _ hbs), s.set_out_freeCtr_frame _ _, rfl⟩
    have hrefuse (hsays : s.spdmSays m = none) : ∃ t, exec (.spdmRequest req) s = .next t ∧ t = s.answer (.data [0x12, 0x7F]) :=
      ⟨_, hspdm, State.spdm_refused (.inr hsays)⟩
    refine ⟨fun hc => hsay (State.spdmSays_caps m hc) (by omega), fun hc => hsay (State.spdmSays_algs m hc) (by omega),
      fun hc hb => hsay (State.spdmSays_count m hc hb) (by omega), fun hc hb => hsay ?_ (by omega), fun hc h1 hb4 => hsay ?_ (by omega),
      fun hc => hrefuse ?_, fun hc => hsay ?_ ?_, fun hc => ?_⟩
    · exact State.spdmSays_blocks m hc hb (by omega) ((State.spdmBlocks_all rfl).trans hblocks)
    · have hone := State.spdmSays_blocks (s := s) m hc rfl (by omega) (State.spdmBlocks_one h1 hb4)
      rw [hone, if_neg (ne_true_of_eq_false (State.spdmBlocks_one_isEmpty h1 hb4)), hblocks]
    · rcases hc with hc | ⟨hc, h4, hall⟩
      · exact State.spdmSays_unsupported m hc
      · exact State.spdmSays_blocks m hc rfl (by omega) (State.spdmBlocks_none h4 hall)
    · exact State.spdmSays_other m fun h => hc (by simp only [List.mem_cons] at h ⊢; tauto)
    · exact fun h => hc (by simp [h])
    · have hother : s.spdmSays m = some .other := State.spdmSays_other m (by rw [show fieldLe m 1 1 = 0xEC from hc]; decide)
      obtain ⟨bs, hbs⟩ := State.spdm_ends (req := req) hkeep hother hc
      exact ⟨_, bs, hspdm.trans (congrArg _ hbs), s.set_keep_out_freeCtr_frame _ _ _, rfl, rfl⟩
  · obtain ⟨o, hprog⟩ := State.ideKm_programs (i := ideIndex cm th) (req := req) hkeep hk
    refine ⟨_, (hide k cm th).trans (congrArg _ hprog), s.set_keep_out_freeCtr_frame _ _ _, rfl, fun j hj => ⟨?_, fun hne => ?_⟩⟩
    · exact getD_updAt_secured (by omega)
    · exact List.getElem?_modify_ne _ _ (Ne.symm hne)
  · exact ⟨_, hide k cm th, State.ideKm_refused h⟩
  · obtain ⟨hstalled, hmsix, hsnoops, haer⟩ := Out.foldl_sendOne s.out.stalled { s.out with stalled := [] }
    refine ⟨_, congrArg Host.Outcome.next (if_pos hp), s.set_keep_out_frame _ _, rfl, hstalled, hmsix, hsnoops, haer, fun hnone => ?_⟩
    dsimp only
    rw [hnone, List.foldl_nil, ← hnone]
  · exact ⟨_, cdatBytes, by simp only [exec, execCdatRead, State.whenOn, hp, hl, if_true], rfl, by simp [cdatBytes, toLe]⟩

end Sys2Proof.Machine
end

section
/-!
O35. The port's link, the HDM decoder and the tamper inputs (R337, R396, R410, R411, R415, R416, Table 13.3).
-/
namespace Sys2Proof.Machine

open Sys2Proof

/-! ### What a security event and a completion raise -/

theorem State.securityEvent_eq (s : State) (code : Nat) (fs : List (Nat × Nat)) :
    ∃ e p o, s.securityEvent code fs
      = { s with evt := e, ints := { s.ints with raised := s.ints.raised ||| (1#10 <<< 8), pending := p }, out := o } := by
  obtain ⟨e, hevent⟩ := s.event_eq .module code fs
  obtain ⟨p, o, hraise⟩ := (s.event .module code fs).raise_eq 8
  exact ⟨e, p, o, by rw [State.securityEvent, hraise, hevent]⟩

theorem State.deliver_raised (s : State) (n status : Nat) (d : List Byte) : (s.deliver n status d).ints.raised = s.ints.raised ||| (1#10 <<< n) := by
  unfold State.deliver
  dsimp only
  split
  · obtain ⟨p, o, hraise⟩ := ({ s with mailboxes := updAt s.mailboxes n fun m => m.completed status d } : State).raise_eq n
    exact congrArg (fun t : State => t.ints.raised) hraise
  · rfl

theorem State.set_keep_frame (s : State) (k : Keep) : Frame [.keep] s { s with keep := k } := by
  intro p hp
  cases p with
  | keep => simp at hp
  | _ => rfl

theorem State.set_keep_evt_ints_out_frame (s : State) (k : Keep) (e : EvtLog) (i : Ints) (o : Out) :
    Frame [.keep, .evt, .ints, .out] s { s with keep := k, evt := e, ints := i, out := o } := by
  intro p hp
  cases p with
  | keep | evt | ints | out => simp at hp
  | _ => rfl

theorem State.set_keep_evt_ints_out_jobs_frame (s : State) (k : Keep) (e : EvtLog) (i : Ints) (o : Out) (j : List (Ask × Bool)) :
    Frame [.keep, .evt, .ints, .out, .jobs] s { s with keep := k, jobs := j, evt := e, ints := i, out := o } := by
  intro p hp
  cases p with
  | keep | evt | ints | out | jobs => simp at hp
  | _ => rfl

theorem State.set_power_freeCtr_frame (s : State) (pw : Power) (c : Nat) : Frame [.power, .freeCtr] s { s with power := pw, freeCtr := c } := by
  intro p hp
  cases p with
  | power | freeCtr => simp at hp
  | _ => rfl

/-! ### The tamper inputs -/

/-- The inputs of a list as bits. -/
def tamperBits (l : List Nat) : BitVec 3 := (l.filter fun i => decide (i ≤ 2)).foldl (fun b i => b ||| tamperBit i) 0

theorem getLsbD_tamperBit {i j : Nat} (hj : j < 3) : (tamperBit i).getLsbD j = (i == j) := by
  rw [tamperBit, BitVec.getLsbD_shiftLeft, BitVec.getLsbD_one]
  rcases Nat.lt_trichotomy i j with h | h | h
  · have : j - i ≠ 0 := by omega
    simp [this, h.ne]
  · simp [h, hj]
  · simp [h, h.ne']

theorem getLsbD_tamperBits (l : List Nat) {j : Nat} (hj : j < 3) : (tamperBits l).getLsbD j = l.contains j := by
  have hfold : ∀ (m : List Nat) (b : BitVec 3), (m.foldl (fun b i => b ||| tamperBit i) b).getLsbD j = (b.getLsbD j || m.contains j) := by
    intro m
    induction m with
    | nil => simp
    | cons i m ih =>
      intro b
      rw [List.foldl_cons, ih, BitVec.getLsbD_or, getLsbD_tamperBit hj, List.contains_cons, Bool.or_assoc, BEq.comm (a := i)]
  have hmem : (l.filter fun i => decide (i ≤ 2)).contains j = l.contains j := by
    rw [Bool.eq_iff_iff, List.contains_iff_mem, List.contains_iff_mem, List.mem_filter]
    exact and_iff_left (by simpa using Nat.le_of_lt_succ hj)
  rw [tamperBits, hfold, hmem]
  simp

/-- The Keep with the inputs of a list active: their levels, and the bits of those that fire (R396, R411). -/
def State.tamperKeep (s : State) (l : List Nat) : Keep :=
  { s.keep with
    live := s.keep.live ||| tamperBits l
    tamper := s.keep.tamper ||| tamperBits (s.tamperNew l)
    fired := s.keep.fired ||| tamperBits (s.tamperNew l) }

section
variable (s : State) (l : List Nat)

theorem State.tamperMark_eq :
    s.tamperMark l = (s.tamperNew l).foldl (fun s i => s.securityEvent 0x0701 [(1, i)]) { s with keep := s.tamperKeep l } := rfl

/-- Inputs that become active change the Keep, and record what fires. -/
theorem State.tamperMark_marks : ∃ e i o, s.tamperMark l = { s with keep := s.tamperKeep l, evt := e, ints := i, out := o } := by
  rw [State.tamperMark_eq]
  have hfold : ∀ (m : List Nat) (s : State), ∃ e i o,
      m.foldl (fun s i => s.securityEvent 0x0701 [(1, i)]) s = { s with evt := e, ints := i, out := o } := by
    intro m
    induction m with
    | nil => exact fun s => ⟨s.evt, s.ints, s.out, rfl⟩
    | cons i m ih =>
      intro s
      obtain ⟨e, p, o, hevent⟩ := s.securityEvent_eq 0x0701 [(1, i)]
      obtain ⟨e', i', o', hrest⟩ := ih (s.securityEvent 0x0701 [(1, i)])
      exact ⟨e', i', o', by rw [List.foldl_cons, hrest, hevent]⟩
  obtain ⟨e, i, o, h⟩ := hfold (s.tamperNew l) { s with keep := s.tamperKeep l }
  exact ⟨e, i, o, h⟩

theorem State.tamperNew_contains (j : Nat) (hj : j < 3) :
    (s.tamperNew l).contains j = (l.contains j && s.keep.armed && !s.keep.fired.getLsbD j) := by
  rw [Bool.eq_iff_iff, List.contains_iff_mem, State.tamperNew, List.mem_filter, List.mem_dedup]
  have : j ≤ 2 := by omega
  simp [this, Bool.and_assoc]

theorem State.tamperKeep_live (j : Nat) (hj : j < 3) : (s.tamperKeep l).live.getLsbD j = (s.keep.live.getLsbD j || l.contains j) := by
  rw [State.tamperKeep, BitVec.getLsbD_or, getLsbD_tamperBits l hj]

/-- An input that is not armed, or that has fired, shows its level only (R396, R411). -/
theorem State.tamperMark_level (h : s.keep.armed = false ∨ ∀ i ∈ l, i < 3 → s.keep.fired.getLsbD i = true) :
    s.tamperNew l = [] ∧ s.tamperMark l = { s with keep := { s.keep with live := s.keep.live ||| tamperBits l } } := by
  have hnone : s.tamperNew l = [] := by
    rw [State.tamperNew, List.filter_eq_nil_iff]
    intro i hi
    rw [List.mem_dedup] at hi
    rcases h with h | h
    · simp [h]
    · by_cases h3 : i < 3
      · simp [h i hi h3]
      · have : ¬ i ≤ 2 := by omega
        simp [this]
  have hzero (b : BitVec 3) : b ||| tamperBits [] = b := BitVec.or_zero
  refine ⟨hnone, ?_⟩
  rw [State.tamperMark_eq, hnone, State.tamperKeep, hnone, hzero, hzero, List.foldl_nil]

end

/-! ### The wipe -/

/-- The Keep after a wipe (R396, R410). -/
def Keep.wiped (k : Keep) : Keep :=
  { k with
    state := 2, wipes := k.wipes + 1, identity := none, sessions := [], ideKeys := List.replicate 4 []
    ide := k.ide.map fun x => if x = IdeState.off then IdeState.off else IdeState.insecure }

theorem State.wipeKeep_eq (s : State) (cause : Nat) : ∃ e p o, s.wipeKeep cause = State.lockJobs
    { s with keep := s.keep.wiped, evt := e, ints := { s.ints with raised := s.ints.raised ||| (1#10 <<< 8), pending := p }, out := o } := by
  obtain ⟨e, p, o, hevent⟩ := ({ s with keep := s.keep.wiped } : State).securityEvent_eq 0x0702 [(1, cause)]
  exact ⟨e, p, o, congrArg State.lockJobs hevent⟩

theorem State.lockJobs_none {s : State} (h : s.jobs = []) : s.lockJobs = s := by
  rw [State.lockJobs, h]
  show { s with jobs := [] } = s
  rw [← h]

/-- ATTEST in flight ends LOCKED, with zeros (R362, R410). -/
theorem State.lockJobs_attest {s : State} {q : Ask} (h : s.jobs = [(q, false)]) (hop : q.opcode = 0x0501) :
    s.lockJobs = ({ s with jobs := [] } : State).complete q.mbx stLOCKED (List.replicate 768 0) := by
  have hlock : lockable (q, false) = true := by simp [lockable, hop]
  have hdata (t : State) : t.lockedData q.opcode = List.replicate 768 0 := by rw [hop]; rfl
  rw [State.lockJobs, h, List.filter_cons_of_pos hlock, List.filter_nil, List.filter_cons_of_neg (by simp [hlock]), List.filter_nil,
    List.foldl_cons, List.foldl_nil, hdata]

theorem State.endBegun_none {s : State} (h : ∀ j ∈ s.jobs, j.2 = false) : s.endBegun = s := by
  have hbegun : s.jobs.filter (·.2) = [] := List.filter_eq_nil_iff.mpr fun j hj => by simp [h j hj]
  have hrest : (s.jobs.filter fun j => !j.2) = s.jobs := List.filter_eq_self.mpr fun j hj => by simp [h j hj]
  rw [State.endBegun, hbegun, hrest, List.foldl_nil]

/-- An armed input that fires wipes the Keep once, after a fuse write that has begun (R411, R415). -/
theorem exec_tamper_fires {s : State} {l : List Nat} (harmed : s.keep.armed = true) (h : ∃ i ∈ l, i < 3 ∧ s.keep.fired.getLsbD i = false)
    (hjobs : ∀ j ∈ s.jobs, j.2 = false) : ∃ e i o, i.raised.getLsbD 8 = true ∧ exec (.tamper l) s
      = .next ({ s with keep := (s.tamperKeep l).wiped, evt := e, ints := i, out := o } : State).lockJobs := by
  obtain ⟨j, hj, h3, hfired⟩ := h
  have hfresh : (s.tamperNew l).contains j = true := by
    rw [s.tamperNew_contains l j h3, List.contains_iff_mem.mpr hj, harmed, hfired]
    rfl
  have hsome : ¬ (s.tamperNew l).isEmpty = true := by
    intro hnil
    rw [List.isEmpty_iff.mp hnil] at hfresh
    cases hfresh
  obtain ⟨e, i, o, hmark⟩ := s.tamperMark_marks l
  have hend := State.endBegun_none (s := s.tamperMark l) (by rw [hmark]; exact hjobs)
  have hstill : (s.tamperMark l).keep.armed = true := by rw [hmark]; exact harmed
  obtain ⟨e', p, o', hwipe⟩ := (s.tamperMark l).wipeKeep_eq 0
  refine ⟨e', { i with raised := i.raised ||| (1#10 <<< 8), pending := p }, o', by simp, congrArg Host.Outcome.next ?_⟩
  dsimp only
  rw [if_neg hsome, hend, if_pos hstill, hwipe, hmark]

theorem exec_tamper_level {s : State} {l : List Nat} (h : s.keep.armed = false ∨ ∀ i ∈ l, i < 3 → s.keep.fired.getLsbD i = true) :
    exec (.tamper l) s = .next { s with keep := { s.keep with live := s.keep.live ||| tamperBits l } } := by
  obtain ⟨hnone, hmark⟩ := s.tamperMark_level l h
  simp only [exec, execTamper, hnone, List.isEmpty_nil, if_true, hmark]

/-- What a wipe by tamper inputs leaves of the Keep, and vector 8. -/
theorem State.wiped_keep {s t : State} {l : List Nat} (harmed : s.keep.armed = true) (hkeep : t.keep = (s.tamperKeep l).wiped) :
    t.keep = { s.keep with
        state := 2, sessions := [], identity := none, ideKeys := List.replicate 4 [], wipes := s.keep.wipes + 1
        ide := s.keep.ide.map (fun x => if x = .off then .off else .insecure)
        live := t.keep.live, tamper := t.keep.tamper, fired := t.keep.fired }
      ∧ ∀ i < 3, t.keep.live.getLsbD i = (s.keep.live.getLsbD i || l.contains i)
        ∧ t.keep.fired.getLsbD i = (s.keep.fired.getLsbD i || l.contains i)
        ∧ t.keep.tamper.getLsbD i = (s.keep.tamper.getLsbD i || (l.contains i && !s.keep.fired.getLsbD i)) := by
  rw [hkeep]
  refine ⟨rfl, fun i hi => ⟨s.tamperKeep_live l i hi, ?_, ?_⟩⟩
  · have hbit : (s.keep.fired ||| tamperBits (s.tamperNew l)).getLsbD i = (s.keep.fired.getLsbD i || l.contains i) := by
      rw [BitVec.getLsbD_or, getLsbD_tamperBits _ hi, s.tamperNew_contains l i hi, harmed]
      cases s.keep.fired.getLsbD i <;> simp
    exact hbit
  · have hbit : (s.keep.tamper ||| tamperBits (s.tamperNew l)).getLsbD i
        = (s.keep.tamper.getLsbD i || (l.contains i && !s.keep.fired.getLsbD i)) := by
      rw [BitVec.getLsbD_or, getLsbD_tamperBits _ hi, s.tamperNew_contains l i hi, harmed, Bool.and_true]
    exact hbit

/-! ### The port -/

theorem getD_mem {l : List Nat} {i : Nat} (h : i < l.length) (d : Nat) : l.getD i d ∈ l := by
  rw [List.getD_eq_getElem _ _ h]
  exact List.getElem_mem h

/-- CXL.mem accesses pass while the decoder covers all 768 GiB (R337). -/
theorem State.memUp_programmed {s : State} (hio : s.ioUp = true) (hide : s.ideUp 2 = true) (base size : Nat) :
    ({ s with power := { s.power with hdm := some (base, size) } } : State).memUp = true ↔ size = 0xC000000000 := by
  unfold State.ioUp at hio
  simp only [Bool.and_eq_true] at hio
  obtain ⟨⟨hpow, hlink⟩, -⟩ := hio
  show (s.power.powered && s.power.linkUp && (size == devEnd) && s.ideUp 2) = true ↔ _
  rw [hpow, hlink, hide, Bool.and_true, Bool.and_true, Bool.true_and]
  exact beq_iff_eq

/-! ### KEEP_TAMPER -/

theorem State.hostStoreAt_keepTamper {s : State} (hio : s.ioUp = true) (al : Alias) (v : Word) : s.hostStoreAt 0x60008 al v
    = s.writeKeep 0x08 (writeFields [w1c 0 1, w1c 1 1, w1c 2 1] al s.keep.tamper.toNat v.toNat).1 := by
  have hb : 0x60008 % 0x10000 < 0x2000 := by decide
  have hfields : fieldsAt 0x60008 = some [w1c 0 1, w1c 1 1, w1c 2 1] := rfl
  have hbase := baseAddr_register hb al
  have hopen : s.forbids (0x60008 + aliasOffset al) = false := by simp [State.forbids, hbase]
  have hgood : badWrite (0x60008 + aliasOffset al) 15 = false := by simp [badWrite, definedAt, hbase, hfields]
  have htakes : s.takesWrite 0x60008 = true := by simp [State.takesWrite]
  have hstore : s.hostStore (0x60008 + aliasOffset al) 15 v.toNat = s.storeReg 0x60008 al v.toNat := by
    simp [State.hostStore, hopen, hgood, hbase, aliasOf_register hb, htakes]
  rw [State.hostStoreAt, State.whenIo, if_pos hio, hstore]
  rfl

/-- KEEP_TAMPER is cleared by ones, at the base and SET addresses (Table 13.3). -/
theorem ofNat_writeFields_keepTamper (al : Alias) (b : BitVec 3) (v : Word) :
    BitVec.ofNat 3 (writeFields [w1c 0 1, w1c 1 1, w1c 2 1] al b.toNat v.toNat).1
      = if al = .base ∨ al = .set then b &&& ~~~(v.setWidth 3) else b := by
  apply BitVec.eq_of_getLsbD_eq
  intro k hk
  have hmem : w1c k 1 ∈ [w1c 0 1, w1c 1 1, w1c 2 1] := by
    obtain rfl | rfl | rfl : k = 0 ∨ k = 1 ∨ k = 2 := by omega
    all_goals decide
  have halone : ∀ g ∈ [w1c 0 1, w1c 1 1, w1c 2 1], g = w1c k 1 ∨ k < g.lo ∨ g.lo + g.width ≤ k := by
    obtain rfl | rfl | rfl : k = 0 ∨ k = 1 ∨ k = 2 := by omega
    all_goals decide
  have hmask : (w1c k 1).mask.testBit k = true := Fld.testBit_mask_inside (Nat.le_refl k) (Nat.lt_succ_self k)
  rw [BitVec.getLsbD_ofNat, testBit_writeFields_field hmem halone, Fld.testBit_write_w1c rfl _ _ _ hmask]
  cases al <;> simp [hk, BitVec.testBit_toNat]

/-! ### The obligation -/

/-- Settles O35: the port and its decoder by their definitions, the tamper inputs by the Keep that they leave. -/
theorem portAndTamper : Obligations.PortAndTamper := by
  intro s
  refine ⟨fun hp => ?_, fun base size hio => ?_, fun l harmed h => ?fires, fun l h => ⟨_, exec_tamper_level h, s.set_keep_frame _, rfl,
    fun i hi => s.tamperKeep_live l i hi⟩, fun i hi => ?_, fun al v hio => ?_⟩
  case fires =>
    intro wiped
    refine ⟨fun hjobs => ?_, fun q hq hop hn h4 hwf howes => ?_⟩
    · obtain ⟨e, i, o, hraised, hexec⟩ := exec_tamper_fires harmed h (by simp [hjobs])
      replace hexec := hexec.trans (congrArg Host.Outcome.next (State.lockJobs_none (by exact hjobs)))
      obtain ⟨hkeep, hbits⟩ := State.wiped_keep (t := { s with keep := (s.tamperKeep l).wiped, evt := e, ints := i, out := o }) harmed rfl
      exact ⟨_, hexec, ⟨hkeep, hbits, hraised⟩, s.set_keep_evt_ints_out_frame _ _ _ _⟩
    · obtain ⟨e, i, o, hraised, hexec⟩ := exec_tamper_fires harmed h (by simp [hq])
      let u : State := { s with keep := (s.tamperKeep l).wiped, jobs := [], evt := e, ints := i, out := o }
      replace hexec := hexec.trans (congrArg Host.Outcome.next (State.lockJobs_attest (by exact hq) hop))
      replace hexec := hexec.trans (congrArg Host.Outcome.next (State.complete_settled (s := u) _ _ hn howes))
      refine ⟨_, hexec, ?_⟩
      have hframe := u.deliver_frame q.mbx stLOCKED (List.replicate 768 0)
      obtain ⟨hkeep, hbits⟩ := State.wiped_keep (t := u.deliver q.mbx stLOCKED (List.replicate 768 0)) harmed (hframe .keep (by simp))
      refine ⟨⟨hkeep, hbits, ?_⟩, hframe .jobs (by simp), u.deliver_holds _ _ hn h4 hwf, u.deliver_others _ _ _, ?_⟩
      · rw [u.deliver_raised, BitVec.getLsbD_or, hraised, Bool.true_or]
      · exact Frame.trans (s.set_keep_evt_ints_out_jobs_frame _ _ _ _ _) hframe (by simp) (by simp)
  · refine ⟨_, congrArg Host.Outcome.next (if_pos hp), s.set_power_freeCtr_frame _ _, rfl, ?_, ?_, rfl⟩
    · exact getD_mem (l := linkRates) (Nat.mod_lt _ (by decide)) 64
    · exact getD_mem (l := linkWidths) (Nat.mod_lt _ (by decide)) 16
  · refine ⟨_, congrArg Host.Outcome.next (if_pos hio), rfl, fun hide => ?_⟩
    exact State.memUp_programmed hio hide base size
  · refine ⟨_, congrArg Host.Outcome.next (if_neg (by omega)), rfl⟩
  · refine ⟨_, rfl, ?_⟩
    rw [State.hostStoreAt_keepTamper hio, State.writeKeep, if_pos rfl, ofNat_writeFields_keepTamper]

end Sys2Proof.Machine
end

section
/-!
O7. The vector of a completion (R353, R354, R392, R413, Table 13.4).
-/
namespace Sys2Proof.Machine

open Sys2Proof

/-! ### The message of a vector -/

/-- Is a vector masked, by its entry or with the function (R354)? -/
def Ints.masks (i : Ints) (v : Nat) : Bool := i.fmask || (i.table.getD v ⟨0, 0, true⟩).masked

theorem State.message_disabled {s : State} (h : s.ints.enabled = false) (v : Nat) : s.message v = s := if_pos (by simp [h])

theorem State.message_masked {s : State} {v : Nat} (h : s.ints.enabled = true) (hm : s.ints.masks v = true) :
    s.message v = { s with ints := { s.ints with pending := s.ints.pending ||| (1#16 <<< v) } } :=
  (if_neg (by simp [h])).trans (if_pos hm)

theorem State.message_open {s : State} {v : Nat} (h : s.ints.enabled = true) (hm : s.ints.masks v = false) : s.message v = s.emit (.msix v) :=
  (if_neg (by simp [h])).trans (if_neg (ne_true_of_eq_false hm))

section
variable (s : State) (n status : Nat) (d : List Byte)

/-- The state with a completion in its mailbox and the cause latched, its message not yet sent. -/
def State.latched (s : State) (n status : Nat) (d : List Byte) : State :=
  ({ s with mailboxes := updAt s.mailboxes n fun m => m.completed status d } : State).latch n

theorem State.deliver_cases : s.deliver n status d = if (s.mbx n).irqEn then (s.latched n status d).message n else s.latched n status d := rfl

/-- The message of a completion leaves the table and the two enables of MSI-X alone. -/
theorem State.deliver_ints :
    (s.deliver n status d).ints = { s.ints with raised := s.ints.raised ||| (1#10 <<< n), pending := (s.deliver n status d).ints.pending } := by
  rw [State.deliver_cases]
  split
  · obtain ⟨p, o, hmsg⟩ := (s.latched n status d).message_eq n
    rw [hmsg]
    rfl
  · rfl

variable {s n}

/-- With IRQ_EN 0, or MSI-X disabled, nothing leaves and nothing stands pending (log 38). -/
theorem State.deliver_silent (h : ((s.mbx n).irqEn && s.ints.enabled) = false) :
    (s.deliver n status d).ints.pending = s.ints.pending ∧ (s.deliver n status d).out = s.out := by
  rw [State.deliver_cases]
  split
  next hirq =>
    have hoff : (s.latched n status d).ints.enabled = false := by
      rw [hirq, Bool.true_and] at h
      exact h
    rw [State.message_disabled hoff]
    exact ⟨rfl, rfl⟩
  next => exact ⟨rfl, rfl⟩

variable (h : ((s.mbx n).irqEn && s.ints.enabled) = true)
include h

/-- While the vector or the function is masked, the message stands pending (R354). -/
theorem State.deliver_pends (hm : s.ints.masks n = true) :
    (s.deliver n status d).ints.pending = s.ints.pending ||| (1#16 <<< n) ∧ (s.deliver n status d).out = s.out := by
  obtain ⟨hirq, hen⟩ := Bool.and_eq_true_iff.mp h
  have hon : (s.latched n status d).ints.enabled = true := hen
  rw [State.deliver_cases, if_pos hirq, State.message_masked hon hm]
  exact ⟨rfl, rfl⟩

/-- Else it leaves, or waits behind the stream toward the host (R354, R413). -/
theorem State.deliver_sends (hm : s.ints.masks n = false) : (s.deliver n status d).ints.pending = s.ints.pending
    ∧ (s.deliver n status d).out = if s.ideUp 1 then { s.out with msix := s.out.msix ++ [n] }
        else { s.out with stalled := s.out.stalled ++ [.msix n] } := by
  obtain ⟨hirq, hen⟩ := Bool.and_eq_true_iff.mp h
  have hon : (s.latched n status d).ints.enabled = true := hen
  rw [State.deliver_cases, if_pos hirq, State.message_open hon hm]
  exact ⟨rfl, rfl⟩

end

/-! ### The commands that only read -/

/-- Before its payload nothing refuses a command that only reads, unless a transition has locked it (R363, R379, R401). -/
theorem State.judge'_reading (s : State) {c : Sub} (hadv : s.keep.advanced = false) (hlen : c.payload = []) {op : Nat}
    (hop : op ∈ [0x0001, 0x0002, 0x0401]) : (s.submitted c op).judge' (asked c op) = none := by
  have hstage : (s.submitted c op).stage1 (asked c op) = none := by
    simp only [List.mem_cons, List.not_mem_nil, or_false] at hop
    rcases hop with rfl | rfl | rfl <;> simp [State.stage1, romLen, hlen]
  have hstays : (s.submitted c op).keep.advanced = false := hadv
  have hlocked : (s.submitted c op).locked (asked c op) = false := by
    simp only [List.mem_cons, List.not_mem_nil, or_false] at hop
    rcases hop with rfl | rfl | rfl <;> simp [State.locked, hstays]
  have hbusy : (s.submitted c op).busy (asked c op) = false := by
    simp only [List.mem_cons, List.not_mem_nil, or_false] at hop
    rcases hop with rfl | rfl | rfl <;> simp [State.busy, State.meets, loadsSlot, savesSlot, isExt]
  have hno : op ≠ 0x0201 ∧ op ≠ 0x0202 := by
    simp only [List.mem_cons, List.not_mem_nil, or_false] at hop
    omega
  simp [State.judge', hstage, hlocked, hbusy, hno]

section
variable {s : State} {c : Sub} (h : s.Takes c) (hadv : s.keep.advanced = false) (hlen : c.payload = [])
include h hadv hlen

/-- A command that only reads is a completion of the state in which it was submitted. -/
theorem State.command_reading {op : Nat} {i : Instr} {d : List Byte} (hi : exec i s = .next (s.command c op)) (hop : op ∈ [0x0001, 0x0002, 0x0401])
    (hb : State.romBody (asked c op) (s.running c op) = (s.running c op).complete c.mbx stOK d) :
    exec i s = .next ((s.submitted c op).deliver c.mbx stOK d) := by
  have hlt : op < 0x0F00 := by
    simp only [List.mem_cons, List.not_mem_nil, or_false] at hop
    omega
  exact (State.command_answers hi h hlt (s.judge'_reading hadv hlen hop) hb rfl h.settled (Frame.refl [] _)).1

/-- The three commands, each with its completion. -/
theorem exec_reading {i : Instr} (hi : i ∈ [Instr.identify c, .getCaps c, .belfryStatus c]) :
    ∃ op d, exec i s = .next ((s.submitted c op).deliver c.mbx stOK d) := by
  simp only [List.mem_cons, List.not_mem_nil, or_false] at hi
  rcases hi with rfl | rfl | rfl
  · exact ⟨0x0001, _, State.command_reading h hadv hlen rfl (by decide) rfl⟩
  · exact ⟨0x0002, _, State.command_reading h hadv hlen rfl (by decide) rfl⟩
  · exact ⟨0x0401, _, State.command_reading h hadv hlen rfl (by decide) rfl⟩

end

/-- Settles O7: the completion of a submitted command by the cases of its message. -/
theorem completionRaisesTheVector : Obligations.CompletionRaisesTheVector := by
  intro s c h hadv hlen i hi
  obtain ⟨op, d, hexec⟩ := exec_reading h hadv hlen hi
  refine ⟨_, hexec, ?_⟩
  intro masked
  have hints := (s.submitted c op).deliver_ints c.mbx stOK d
  have hirq : ((s.submitted c op).mbx c.mbx).irqEn = (s.mbx c.mbx).irqEn := by rw [State.submitted_mbx h]
  rw [← hirq]
  refine ⟨?_, ?_, ?_, ?_, State.deliver_silent _ _, State.deliver_pends _ _, State.deliver_sends _ _⟩ <;> rw [hints] <;> rfl

end Sys2Proof.Machine
end

section
/-!
O8. A command that is turned away (R351, R361 to R363, R373, R380).
-/
namespace Sys2Proof.Machine

open Sys2Proof

/-! ### Commands that are turned away -/

/-- What stages 1 to 5 of R363 look at is no mailbox. -/
theorem State.judge'_submitted (s : State) (c : Sub) (op : Nat) (q : Ask) : (s.submitted c op).judge' q = s.judge' q := rfl

section
variable {s : State} {c : Sub} (h : s.Takes c)
include h

/-- A command that the judgement refuses is turned away at once. -/
theorem State.command_refused {op st : Nat} (ho : op < 0x0F00) (hj : s.judge' (asked c op) = some st) :
    s.command c op = (s.submitted c op).turnAway (asked c op) st := by
  rw [State.command_taken h ho, State.takeRom, s.judge'_submitted c op, hj]

/-- A completion of a submitted command changes its mailbox, interrupts and what the port has put out, and nothing else. -/
theorem State.submitted_complete_answers (op st : Nat) (d : List Byte) : s.Answers c st d [] ((s.submitted c op).complete c.mbx st d) := by
  have howes : (s.submitted c op).mem.owes c.mbx = false := h.settled
  rw [State.complete_settled st d h.mailbox howes]
  refine ⟨State.deliver_holds _ st d h.mailbox ?_ ?_, fun k hk => ?_, ?_⟩
  · exact (updAt_length _ _ _).trans h.four
  · rw [State.submitted_mbx h]
    exact memWrite_wf _ _ h.wf
  · exact (State.deliver_others _ _ _ _ k hk).trans (s.submitted_others c op k hk)
  · exact Frame.trans (s.submitted_frame c op) (State.deliver_frame _ _ _ _) (by simp) (by simp)

end

/-- An opcode whose completion on failure is zeros (R362). -/
theorem State.turnAway_zeros (s : State) {q : Ask} (h : q.opcode ∉ [0x0201, 0x0202, 0x0503]) (st : Nat) :
    s.turnAway q st = s.complete q.mbx st (List.replicate (doneLen q.opcode (fieldLe q.payload 0 1)) 0) := by
  obtain ⟨hload, hrun, hledger⟩ : q.opcode ≠ 0x0201 ∧ q.opcode ≠ 0x0202 ∧ q.opcode ≠ 0x0503 := by simpa using h
  unfold State.turnAway
  dsimp only
  split
  next hop => exact absurd hop hload
  next hop => exact absurd hop hrun
  next hop => exact absurd hop hledger
  next => rfl

/-- LOAD_PROGRAM on failure names no record (R362). -/
theorem loadRefused_eq : loadRefused = List.replicate 4 0xFF ++ List.replicate 44 0 := by decide

/-- A step that is refused: the window has its status, not updated (R393). -/
theorem State.refuseRun_window (s : State) (x : Cmd) (st : Nat) :
    (s.refuseRun x st).window.status = st ∧ (s.refuseRun x st).window.updated = false := by
  let p := Step.ofPayload x.payload x.mbx s.power.time.v
  let u : State := { s with window := s.rewriteWindow { p with slot := p.slot % 4 } st false }
  have hframe : Frame [.mailboxes, .late, .ints, .out] u (s.refuseRun x st) :=
    Frame.trans (u.complete_frame x.mbx st (u.stepBytes p)) (State.raise_frame _ 9) (by simp) (by simp)
  rw [hframe.window_eq]
  exact ⟨rfl, rfl⟩

/-- RUN_STEP on failure: its 32 bytes, and the window (R373, R393). -/
theorem State.refuseRun_answers {s : State} {c : Sub} (h : s.Takes c) (st : Nat) :
    ∃ t d, (s.submitted c 0x0202).turnAway (asked c 0x0202) st = t ∧ (t.mbx c.mbx).Holds st d ∧ d.length = 32 ∧ s.OthersKept c.mbx t
      ∧ Frame [.mailboxes, .window, .ints, .out] s t ∧ t.window.status = st ∧ t.window.updated = false := by
  let u := s.submitted c 0x0202
  obtain ⟨d, hdone, hlen⟩ := State.refuseRun_completed (s := u) (x := ⟨c.mbx, c.payload, c.env⟩) h.mailbox h.settled st
  obtain ⟨hstatus, hupdated⟩ := u.refuseRun_window ⟨c.mbx, c.payload, c.env⟩ st
  have hfour : c.mbx < u.mailboxes.length := by
    have hu : u.mailboxes.length = 4 := (updAt_length _ _ _).trans h.four
    have := h.mailbox
    omega
  have hwf : (u.mbx c.mbx).payload.wf = true := by
    rw [State.submitted_mbx h]
    exact memWrite_wf _ _ h.wf
  exact ⟨_, d, rfl, hdone.holds hfour hwf, hlen, fun k hk => (hdone.others k hk).trans (s.submitted_others c 0x0202 k hk),
    Frame.trans (s.submitted_frame c 0x0202) hdone.frame (by simp) (by simp), hstatus, hupdated⟩

/-! ### The commands -/

/-- The ROM commands whose completion on failure is zeros, each with its opcode. -/
def zeroCommands (c : Sub) : List (Instr × Nat) :=
  [(Instr.identify c, 0x0001), (.getCaps c, 0x0002), (.readLog c, 0x0003), (.setTopology c, 0x0101), (.setCadence c, 0x0102),
    (.setPowerCap c, 0x0103), (.loadPlan c, 0x0104), (.loadCoeff c, 0x0105), (.loadTrackers c, 0x0106), (.saveTrackers c, 0x0107),
    (.placeHint c, 0x0108), (.setStepSize c, 0x0203), (.abortStep c, 0x0204), (.retirePage c, 0x0301), (.retireBank c, 0x0302),
    (.scrubCtrl c, 0x0303), (.marchTest c, 0x0304), (.belfryStatus c, 0x0401), (.clearDivergence c, 0x0402), (.attest c, 0x0501),
    (.lifecycleAdvance c, 0x0502), (.loadExtension c, 0x0504), (.resetUnit c, 0x0601), (.unitStatus c, 0x0602)]

theorem exec_zeroCommands (s : State) (c : Sub) : ∀ p ∈ zeroCommands c, exec p.1 s = .next (s.command c p.2) := by
  simp only [zeroCommands, List.forall_mem_cons]
  exact ⟨rfl, rfl, rfl, rfl, rfl, rfl, rfl, rfl, rfl, rfl, rfl, rfl, rfl, rfl, rfl, rfl, rfl, rfl, rfl, rfl, rfl, rfl, rfl, rfl,
    fun _ h => absurd h List.not_mem_nil⟩

theorem zeroCommands_opcodes (c : Sub) : ∀ p ∈ zeroCommands c, p.2 < 0x0F00 ∧ p.2 ∉ [0x0201, 0x0202, 0x0503] := by
  have hops : ∀ op ∈ (zeroCommands c).map Prod.snd, op < 0x0F00 ∧ op ∉ [0x0201, 0x0202, 0x0503] := by
    show ∀ op ∈ [0x0001, 0x0002, 0x0003, 0x0101, 0x0102, 0x0103, 0x0104, 0x0105, 0x0106, 0x0107, 0x0108, 0x0203, 0x0204, 0x0301, 0x0302,
      0x0303, 0x0304, 0x0401, 0x0402, 0x0501, 0x0502, 0x0504, 0x0601, 0x0602], op < 0x0F00 ∧ op ∉ [0x0201, 0x0202, 0x0503]
    decide
  exact fun p hp => hops p.2 (List.mem_map_of_mem hp)

section
variable {s : State} {c : Sub} (h : s.Takes c) {st : Nat}
include h

theorem exec_zeroCommand_refused {p : Instr × Nat} (hp : p ∈ zeroCommands c) (hj : s.judge' (asked c p.2) = some st) :
    ∃ t, exec p.1 s = .next t ∧ s.Answers c st (List.replicate (doneLen p.2 (fieldLe c.payload 0 1)) 0) [] t := by
  obtain ⟨hlt, hzero⟩ := zeroCommands_opcodes c p hp
  have hexec := exec_zeroCommands s c p hp
  rw [State.command_refused h hlt hj, State.turnAway_zeros _ hzero] at hexec
  exact ⟨_, hexec, State.submitted_complete_answers h _ _ _⟩

theorem exec_loadProgram_refused (hj : s.judge' (asked c 0x0201) = some st) :
    ∃ t, exec (.loadProgram c) s = .next t ∧ s.Answers c st (List.replicate 4 0xFF ++ List.replicate 44 0) [] t := by
  have hexec : exec (.loadProgram c) s = .next (s.command c 0x0201) := rfl
  rw [State.command_refused h (by decide) hj] at hexec
  exact ⟨_, hexec, loadRefused_eq ▸ State.submitted_complete_answers h 0x0201 st loadRefused⟩

theorem exec_fuseLedger_refused (hj : s.judge' (asked c 0x0503) = some st) :
    ∃ t, exec (.fuseLedger c) s = .next t ∧ s.Answers c st s.fuses.bytes [] t := by
  have hexec : exec (.fuseLedger c) s = .next (s.command c 0x0503) := rfl
  rw [State.command_refused h (by decide) hj] at hexec
  exact ⟨_, hexec, State.submitted_complete_answers h 0x0503 st s.fuses.bytes⟩

end

/-! ### Stage 1 -/

section
variable {s : State} {c : Sub} {op n : Nat} (hop : romLen op (fieldLe c.payload 2 1) = some n)
include hop

/-- A security or diagnostics opcode on another mailbox than 0 is bad (R351). -/
theorem State.judge'_otherMailbox (hm : c.mbx ≠ 0) (hclass : op / 256 = 5 ∨ op / 256 = 6) : s.judge' (asked c op) = some stBAD_OPCODE := by
  have hstage : s.stage1 (asked c op) = some stBAD_OPCODE := by
    simp only [State.stage1, hop]
    exact if_pos ⟨hm, hclass⟩
  simp only [State.judge', hstage]

/-- A payload of another length than the command's is bad (R362). -/
theorem State.judge'_otherLength (hlen : c.payload.length ≠ n) (hclass : ¬ (op / 256 = 5 ∨ op / 256 = 6)) :
    s.judge' (asked c op) = some stBAD_PARAM := by
  have hstage : s.stage1 (asked c op) = some stBAD_PARAM := by
    simp only [State.stage1, hop]
    exact (if_neg fun h => hclass h.2).trans (if_pos (.inr hlen))
  simp only [State.judge', hstage]

end

theorem unitLen_eq (k : Nat) : unitLen k = [288, 128, 8].getD k 0 := by
  match k with
  | 0 | 1 | 2 => rfl
  | _ + 3 => rfl

section
variable {s : State} {c : Sub} (h : s.Takes c) {i : Instr} {op n : Nat} (hp : (i, op) ∈ zeroCommands c)
  (hop : romLen op (fieldLe c.payload 2 1) = some n)
include h hp hop

theorem exec_zeroCommand_otherMailbox (hm : c.mbx ≠ 0) (hclass : op / 256 = 5 ∨ op / 256 = 6) :
    ∃ t, exec i s = .next t ∧ s.Answers c stBAD_OPCODE (List.replicate (doneLen op (fieldLe c.payload 0 1)) 0) [] t :=
  exec_zeroCommand_refused h hp (State.judge'_otherMailbox hop hm hclass)

theorem exec_zeroCommand_otherLength (hlen : c.payload.length ≠ n) (hclass : ¬ (op / 256 = 5 ∨ op / 256 = 6)) :
    ∃ t, exec i s = .next t ∧ s.Answers c stBAD_PARAM (List.replicate (doneLen op (fieldLe c.payload 0 1)) 0) [] t :=
  exec_zeroCommand_refused h hp (State.judge'_otherLength hop hlen hclass)

end

/-! ### The obligation -/

/-- Settles O8: a command that the judgement refuses is its completion on failure. -/
theorem refusedCommandsDoNothing : Obligations.RefusedCommandsDoNothing := by
  refine ⟨fun s c h => ?judged, fun s c h hopen => ?stage1⟩
  case judged =>
    intro q
    refine ⟨fun p hp st hj => exec_zeroCommand_refused h hp hj, fun st hj => exec_loadProgram_refused h hj,
      fun st hj => exec_fuseLedger_refused h hj, fun st hj => ?_⟩
    obtain ⟨t, d, hturn, hans⟩ := State.refuseRun_answers h st
    have hexec : exec (.runStep c) s = .next (s.command c 0x0202) := rfl
    rw [State.command_refused h (by decide) hj, hturn] at hexec
    exact ⟨t, d, hexec, hans⟩
  case stage1 =>
    refine ⟨fun hm => ⟨fun p hp => ?_, ?_⟩, fun hlen => ?_, fun hlen => ?_, fun hlen => ?_⟩
    · simp only [List.mem_cons, List.not_mem_nil, or_false] at hp
      rcases hp with rfl | rfl | rfl | rfl | rfl
      · exact exec_zeroCommand_otherMailbox h (op := 0x0501) (by simp [zeroCommands]) rfl hm (by decide)
      · exact exec_zeroCommand_otherMailbox h (op := 0x0502) (by simp [zeroCommands]) rfl hm (by decide)
      · exact exec_zeroCommand_otherMailbox h (op := 0x0504) (by simp [zeroCommands]) rfl hm (by decide)
      · exact exec_zeroCommand_otherMailbox h (op := 0x0601) (by simp [zeroCommands]) rfl hm (by decide)
      · rw [← unitLen_eq]
        exact exec_zeroCommand_otherMailbox h (op := 0x0602) (by simp [zeroCommands]) rfl hm (by decide)
    · exact exec_fuseLedger_refused h (State.judge'_otherMailbox rfl hm (by decide))
    · exact exec_zeroCommand_otherLength h (op := 0x0001) (by simp [zeroCommands]) rfl hlen (by decide)
    · exact exec_zeroCommand_otherLength h (op := 0x0102) (by simp [zeroCommands]) rfl hlen (by decide)
    · exact exec_loadProgram_refused h (State.judge'_otherLength rfl hlen (by decide))

end Sys2Proof.Machine
end

section
/-!
O31. Unordered I/O writes (R293, R338, R340): device memory as the module's units see it holds their bytes, in place or waiting for the host.
-/
namespace Sys2Proof.Machine

open Sys2Proof

/-! ### Memory read byte by byte -/

theorem memRead_congr {m m' : Memory} {a n : Nat} (h : ∀ q, a ≤ q → q < a + n → memGet m q = memGet m' q) :
    memRead m a n = memRead m' a n := by
  induction n generalizing a with
  | zero => rfl
  | succ n ih => rw [memRead, memRead, h a (Nat.le_refl _) (by omega), ih fun q h1 h2 => h q (by omega) (by omega)]

/-- A write makes the same of two memories that agree. -/
theorem memGet_memWrite_congr {m m' : Memory} (h : m.wf = true) (h' : m'.wf = true) {q : Nat} (hq : memGet m q = memGet m' q) (a : Nat)
    (bs : List Byte) : memGet (memWrite m a bs) q = memGet (memWrite m' a bs) q := by
  by_cases hin : a ≤ q ∧ q < a + bs.length
  · obtain ⟨i, rfl⟩ := Nat.exists_eq_add_of_le hin.1
    rw [memGet_memWrite h a bs i (by omega), memGet_memWrite h' a bs i (by omega)]
  · rw [memGet_memWrite_other bs (by omega), memGet_memWrite_other bs (by omega), hq]

/-! ### Writes that wait -/

/-- Memory once waiting writes have taken place in order. -/
def afterWrites (m : Memory) (ws : List WaitWrite) : Memory := ws.foldl (fun c (w : WaitWrite) => memWrite c w.addr w.bytes) m

theorem Mem.view_eq (m : Mem) : m.view = afterWrites m.cells m.waiting := rfl

theorem afterWrites_cons (m : Memory) (w : WaitWrite) (ws : List WaitWrite) :
    afterWrites m (w :: ws) = afterWrites (memWrite m w.addr w.bytes) ws := rfl

theorem afterWrites_append_one (m : Memory) (ws : List WaitWrite) (w : WaitWrite) :
    afterWrites m (ws ++ [w]) = memWrite (afterWrites m ws) w.addr w.bytes := by
  rw [afterWrites, List.foldl_append]
  rfl

theorem afterWrites_wf {m : Memory} (ws : List WaitWrite) (h : m.wf = true) : (afterWrites m ws).wf = true := by
  induction ws generalizing m with
  | nil => exact h
  | cons w ws ih => exact ih (memWrite_wf _ _ h)

theorem memGet_afterWrites_congr {m m' : Memory} (ws : List WaitWrite) (h : m.wf = true) (h' : m'.wf = true) {q : Nat}
    (hq : memGet m q = memGet m' q) : memGet (afterWrites m ws) q = memGet (afterWrites m' ws) q := by
  induction ws generalizing m m' with
  | nil => exact hq
  | cons w ws ih => exact ih (memWrite_wf _ _ h) (memWrite_wf _ _ h') (memGet_memWrite_congr h h' hq _ _)

/-- A waiting write begins and ends before an extent, or begins behind it. -/
def WaitWrite.Clear (w : WaitWrite) (lo hi : Nat) : Prop := w.addr < lo ∧ w.addr + w.bytes.length ≤ lo ∨ hi ≤ w.addr

theorem memGet_afterWrites_clear (m : Memory) {ws : List WaitWrite} {lo hi q : Nat} (h : ∀ w ∈ ws, w.Clear lo hi) (hlo : lo ≤ q)
    (hhi : q < hi) : memGet (afterWrites m ws) q = memGet m q := by
  induction ws generalizing m with
  | nil => rfl
  | cons w ws ih =>
    have hw : w.Clear lo hi := h w List.mem_cons_self
    unfold WaitWrite.Clear at hw
    rw [afterWrites_cons, ih _ fun x hx => h x (List.mem_cons_of_mem _ hx), memGet_memWrite_other _ (by omega)]

/-- A write before waiting ones that are clear of it is seen as one behind them. -/
theorem memGet_afterWrites_memWrite {m : Memory} (hwf : m.wf = true) {ws : List WaitWrite} {a : Nat} {bs : List Byte}
    (h : ∀ w ∈ ws, w.Clear a (a + bs.length)) (q : Nat) :
    memGet (afterWrites (memWrite m a bs) ws) q = memGet (memWrite (afterWrites m ws) a bs) q := by
  by_cases hin : a ≤ q ∧ q < a + bs.length
  · rw [memGet_afterWrites_clear _ h hin.1 hin.2]
    obtain ⟨i, rfl⟩ := Nat.exists_eq_add_of_le hin.1
    rw [memGet_memWrite hwf a bs i (by omega), memGet_memWrite (afterWrites_wf ws hwf) a bs i (by omega)]
  · have hout : q < a ∨ a + bs.length ≤ q := by omega
    rw [memGet_memWrite_other bs hout]
    exact memGet_afterWrites_congr ws (memWrite_wf a bs hwf) hwf (memGet_memWrite_other bs hout)

/-! ### Bytes that land -/

/-- Between two states bytes have landed at an address: the module's units see them there, in place or waiting for the host's answer, and where
the host may hold no line of them nothing waits that did not, and nothing has left. -/
structure State.Lands (a : Nat) (bs : List Byte) (s t : State) : Prop where
  view : ∀ q, memGet t.mem.view q = memGet (memWrite s.mem.view a bs) q
  wf : t.mem.cells.wf = true
  snoop : t.mem.snoop = s.mem.snoop
  waits : ∀ w ∈ t.mem.waiting, w ∈ s.mem.waiting ∨ w.addr < a + bs.length ∧ w.addr + w.bytes.length ≤ a + bs.length
  free : s.Untracked a bs.length → t.mem.waiting = s.mem.waiting ∧ t.out = s.out

theorem State.Untracked.before {s : State} {a m n : Nat} (h : s.Untracked a n) (hm : m ≤ n) : s.Untracked a m := by
  intro l hl
  have := h l hl
  simp only [overlaps, Bool.and_eq_false_iff, decide_eq_false_iff_not] at this ⊢
  omega

theorem State.Lands.trans {s t u : State} {a b : Nat} {bs cs : List Byte} (hwf : s.mem.cells.wf = true) (h : s.Lands a bs t)
    (hb : b = a + bs.length) (k : t.Lands b cs u) : s.Lands a (bs ++ cs) u where
  view q := by
    rw [k.view, memWrite_append, hb]
    exact memGet_memWrite_congr (afterWrites_wf _ h.wf) (memWrite_wf _ _ (afterWrites_wf _ hwf)) (h.view q) _ _
  wf := k.wf
  snoop := k.snoop.trans h.snoop
  waits w hw := by
    rw [List.length_append]
    rcases k.waits w hw with hw | hw
    · refine (h.waits w hw).imp_right fun hend => ?_
      omega
    · exact .inr (by omega)
  free hfree := by
    rw [List.length_append] at hfree
    have hrest := State.Untracked.behind hfree h.snoop (Nat.le_add_right bs.length cs.length)
    rw [Nat.add_sub_cancel_left, ← hb] at hrest
    obtain ⟨hwaiting, hout⟩ := h.free (hfree.before (Nat.le_add_right _ _))
    obtain ⟨hwaiting', hout'⟩ := k.free hrest
    exact ⟨hwaiting'.trans hwaiting, hout'.trans hout⟩

/-- Bytes of one line land, if no waiting write lies among them (R338). -/
theorem State.writeLine_lands {s : State} {a : Nat} {bs : List Byte} (hbs : bs ≠ []) (ha : a % 32 = 0) (hwf : s.mem.cells.wf = true)
    (hret : s.mem.pageRetired (a / 65536) = false) (hclear : ∀ w ∈ s.mem.waiting, w.Clear a (a + bs.length)) :
    s.Lands a bs (s.writeLine a bs) := by
  by_cases hheld : a / 64 ∈ s.mem.snoop
  · rw [State.writeLine_tracked bs hheld]
    refine ⟨fun q => ?_, hwf, rfl, fun w hw => ?_, fun hfree => absurd hheld (hfree.head (List.length_pos_of_ne_nil hbs))⟩
    · exact congrArg (memGet · q) (afterWrites_append_one s.mem.cells s.mem.waiting ⟨a, bs, s.mem.writer⟩)
    · refine (List.mem_append.mp hw).imp_right fun hnew => ?_
      rw [List.mem_singleton.mp hnew]
      have := List.length_pos_of_ne_nil hbs
      exact ⟨by dsimp only; omega, Nat.le_refl _⟩
  · rw [State.writeLine_untracked bs hheld, State.putPage_stored hbs hret]
    have hwaiting : (s.mem.stored a bs).waiting = s.mem.waiting := by
      refine List.filter_eq_self.mpr fun w hw => ?_
      have hw := hclear w hw
      unfold WaitWrite.Clear at hw
      simp only [Bool.not_eq_true', Bool.and_eq_false_iff, decide_eq_false_iff_not]
      omega
    refine ⟨fun q => ?_, memWrite_wf _ _ hwf, rfl, fun w hw => .inl (hwaiting ▸ hw), fun _ => ⟨hwaiting, rfl⟩⟩
    have hview : (s.mem.stored a bs).view = afterWrites (memWrite s.mem.cells a bs) s.mem.waiting := by rw [Mem.view_eq, hwaiting]; rfl
    exact (congrArg (memGet · q) hview).trans (memGet_afterWrites_memWrite hwf hclear q)

/-- Lines one after another land. -/
theorem State.writeLines_lands {s : State} {fuel a : Nat} {bs : List Byte} (ha : a % 32 = 0) (hwf : s.mem.cells.wf = true)
    (hret : ∀ q, a ≤ q → q < a + bs.length → s.mem.pageRetired (q / 65536) = false)
    (hclear : ∀ w ∈ s.mem.waiting, w.Clear a (a + bs.length)) (hfuel : a % 64 + bs.length ≤ 64 * fuel) :
    s.Lands a bs (s.writeLines fuel a bs) := by
  induction fuel generalizing s a bs with
  | zero =>
    obtain rfl : bs = [] := List.eq_nil_of_length_eq_zero (by omega)
    exact ⟨fun _ => rfl, hwf, rfl, fun _ hw => .inl hw, fun _ => ⟨rfl, rfl⟩⟩
  | succ fuel ih =>
    by_cases hbs : bs = []
    · rw [hbs, State.writeLines_nil]
      exact ⟨fun _ => rfl, hwf, rfl, fun _ hw => .inl hw, fun _ => ⟨rfl, rfl⟩⟩
    · have hpos := List.length_pos_of_ne_nil hbs
      have hpage := hret a (Nat.le_refl _) (by omega)
      by_cases hk : bs.length ≤ 64 - a % 64
      · rw [State.writeLines_line _ _ _ hbs hk]
        exact State.writeLine_lands hbs ha hwf hpage hclear
      · have hlen : (bs.take (64 - a % 64)).length = 64 - a % 64 := List.length_take_of_le (Nat.le_of_not_le hk)
        have hne : bs.take (64 - a % 64) ≠ [] := List.ne_nil_of_length_pos (by omega)
        have hline : s.Lands a (bs.take (64 - a % 64)) (s.writeLine a (bs.take (64 - a % 64))) :=
          State.writeLine_lands hne ha hwf hpage fun w hw => by
            have := hclear w hw
            unfold WaitWrite.Clear at this ⊢
            omega
        have hrest : (s.writeLine a (bs.take (64 - a % 64))).Lands (a + (64 - a % 64)) (bs.drop (64 - a % 64))
            ((s.writeLine a (bs.take (64 - a % 64))).writeLines fuel (a + (64 - a % 64)) (bs.drop (64 - a % 64))) := by
          refine ih (by omega) hline.wf (fun q h1 h2 => ?_) (fun w hw => ?_) (by rw [List.length_drop]; omega)
          · rw [(s.writeLine_wrote a _).retired]
            rw [List.length_drop] at h2
            exact hret q (by omega) (by omega)
          · have hend : a + (64 - a % 64) + (bs.drop (64 - a % 64)).length = a + bs.length := by
              rw [List.length_drop]
              omega
            rw [hend]
            rcases hline.waits w hw with hold | hnew
            · have := hclear w hold
              unfold WaitWrite.Clear at this ⊢
              omega
            · rw [hlen] at hnew
              exact .inl (by omega)
        rw [State.writeLines_succ _ _ _ hbs]
        have hall := hline.trans hwf (congrArg (a + ·) hlen.symm) hrest
        rwa [List.take_append_drop] at hall

/-! ### An unordered write -/

theorem exec_unorderedIoWrite {s : State} {a : Nat} {bs : List Byte} (hio : s.ioUp = true) (hlo : 0xBFA0000000 ≤ a)
    (hhi : a + bs.length ≤ 0xC000000000) : exec (.unorderedIoWrite a bs) s = .next (s.writeIo a bs) := by
  have hin : ¬ (a < landBase ∨ a + bs.length > devEnd) := by simp only [landBase, devEnd]; omega
  simp only [exec, execUnorderedIoWrite, hio, Bool.not_true, Bool.false_eq_true, if_false, if_neg hin]

/-- Any other device address is an unsupported request (R340). -/
theorem exec_unorderedIoWrite_outside {s : State} {a : Nat} {bs : List Byte} (hio : s.ioUp = true)
    (h : a < 0xBFA0000000 ∨ 0xC000000000 < a + bs.length) : exec (.unorderedIoWrite a bs) s = .next (s.emit (.answer 1 .unsupported)) := by
  have hout : a < landBase ∨ a + bs.length > devEnd := h
  simp only [exec, execUnorderedIoWrite, hio, Bool.not_true, Bool.false_eq_true, if_false, if_pos hout]
  rfl

/-- A line that holds bytes of an extent holds bytes of its beats, and none beside holds any (R282). -/
theorem State.Untracked.beats {s : State} {a len : Nat} (h : s.Untracked a len) (hpos : 0 < len) :
    s.Untracked (a / 32 * 32) (roundUp (a + len) 32 - a / 32 * 32) := by
  intro l hl
  have := h l hl
  unfold roundUp ceilDiv
  simp only [overlaps, Bool.and_eq_false_iff, decide_eq_false_iff_not] at this ⊢
  omega

section
variable {s : State} {a : Nat} {bs : List Byte} (hbs : bs ≠ []) (hreach : s.ioReach a = true)
include hbs hreach

/-- The beats of a write land. -/
theorem State.writeIo_lands (hwf : s.mem.cells.wf = true) (hret : s.mem.touchesRetired a bs.length = false)
    (hclear : ∀ w ∈ s.mem.waiting, w.Clear (a / 32 * 32) (roundUp (a + bs.length) 32)) : ∃ pre post,
      s.Lands (a / 32 * 32) (pre ++ bs ++ post) (s.writeIo a bs) ∧ a / 32 * 32 + pre.length = a
      ∧ a / 32 * 32 + (pre ++ bs ++ post).length = roundUp (a + bs.length) 32 := by
  obtain ⟨k, pre, post, hdev, hpre, hpost⟩ := s.writeDev_beats a hbs
  have hpos := List.length_pos_of_ne_nil hbs
  have hend : a / 32 * 32 + (pre ++ bs ++ post).length = roundUp (a + bs.length) 32 := by simp; omega
  have hlands : ({ s with freeCtr := k } : State).Lands (a / 32 * 32) (pre ++ bs ++ post)
      (({ s with freeCtr := k } : State).writeLines ((pre ++ bs ++ post).length / 64 + 2) (a / 32 * 32) (pre ++ bs ++ post)) := by
    refine State.writeLines_lands (by omega) hwf (fun q h1 h2 => ?_) (hend ▸ hclear) (by omega)
    rw [hend] at h2
    exact Mem.pageRetired_of_touches hret hpos (by omega) (by simp only [roundUp, ceilDiv] at h2; omega)
  rw [State.writeIo, if_pos hreach, hdev, State.writeBeats_eq]
  exact ⟨pre, post, ⟨hlands.view, hlands.wf, hlands.snoop, hlands.waits, hlands.free⟩, hpre, hend⟩

/-- Bytes of a retired page are discarded and counted (R293). -/
theorem State.writeIo_retired (hline : a % 64 + bs.length ≤ 64) (hfree : a / 64 ∉ s.mem.snoop) (hret : s.mem.pageRetired (a / 65536) = true) :
    ∃ k, s.writeIo a bs = { s with mem := { s.mem with retiredHit := s.mem.retiredHit + 1 }, freeCtr := k } := by
  obtain ⟨k, pre, post, hdev, hpre, hpost⟩ := s.writeDev_beats a hbs
  have hnil : pre ++ bs ++ post ≠ [] := by simp [hbs]
  have hfits : (pre ++ bs ++ post).length ≤ 64 - a / 32 * 32 % 64 := by
    simp only [List.length_append]
    simp only [roundUp, ceilDiv] at hpost
    omega
  have hfree' : a / 32 * 32 / 64 ∉ ({ s with freeCtr := k } : State).mem.snoop := by rwa [show a / 32 * 32 / 64 = a / 64 by omega]
  have hret' : ({ s with freeCtr := k } : State).mem.pageRetired (a / 32 * 32 / 65536) = true := by
    rwa [show a / 32 * 32 / 65536 = a / 65536 by omega]
  rw [State.writeIo, if_pos hreach, hdev, State.writeBeats_eq, State.writeLines_line _ _ _ hnil hfits, State.writeLine_untracked _ hfree',
    State.putPage_retired hnil hret']
  exact ⟨k, rfl⟩

end

theorem State.set_mem_freeCtr_frame (s : State) (m : Mem) (k : Nat) : Frame [.mem, .freeCtr] s { s with mem := m, freeCtr := k } := by
  intro p hp
  cases p with
  | mem | freeCtr => simp at hp
  | _ => rfl

/-! ### The obligation -/

/-- Settles O31: what the landed beats of a write show of it, in place and waiting for the host. -/
theorem unorderedWritesOnlyToLandingArea : Obligations.UnorderedWritesOnlyToLandingArea := by
  intro s a bs hio
  refine ⟨fun h => ⟨_, exec_unorderedIoWrite_outside hio h, rfl⟩, fun hlo hhi hbs hreach => ?_⟩
  have hexec := exec_unorderedIoWrite hio hlo hhi
  have hpos := List.length_pos_of_ne_nil hbs
  refine ⟨fun hwf hret hclear => ⟨_, hexec, s.writeIo_frame a bs, ?_⟩, fun hline hfree hret => ?_⟩
  · obtain ⟨pre, post, hlands, hpre, hend⟩ := State.writeIo_lands hbs hreach hwf hret hclear
    refine ⟨?_, fun q hq => ?_, fun hfree => ?_⟩
    · rw [memRead_congr fun q _ _ => hlands.view q]
      have hread := memRead_memWrite_middle (afterWrites_wf s.mem.waiting hwf) (a / 32 * 32) pre bs post
      rwa [hpre] at hread
    · rw [hlands.view, memGet_memWrite_other _ (hend ▸ hq)]
    · have hbeats := hfree.beats hpos
      have hlen : roundUp (a + bs.length) 32 - a / 32 * 32 = (pre ++ bs ++ post).length := by omega
      obtain ⟨hwaiting, hout⟩ := hlands.free (hlen ▸ hbeats)
      refine ⟨fun p hp => ?_, hwaiting, State.writeIo_reads hbs hreach hbeats hwf hret, (s.writeIo_wrote a bs).outside⟩
      by_cases hpo : p = .out
      · rw [hpo]
        exact hout
      · exact s.writeIo_frame a bs p (by simpa [hpo] using hp)
  · obtain ⟨k, hdiscard⟩ := State.writeIo_retired hbs hreach hline hfree hret
    exact ⟨_, hexec.trans (congrArg _ hdiscard), s.set_mem_freeCtr_frame _ _, rfl⟩

end Sys2Proof.Machine
end

section
/-!
O2 and O5. What one step takes from the queue, what an idle one ticks, and what it leaves of the fuse ledger (R350, R391, R399, R405; log 2).
-/
namespace Sys2Proof.Machine

open Sys2Proof

/-! ### The fuse ledger -/

/-- The least of a value and the arguments of slots is at most that value. -/
theorem foldl_min_arg_le (l : List FuseSlot) (a : Nat) : l.foldl (fun a s => min a s.arg) a ≤ a := by
  induction l generalizing a with
  | nil => exact Nat.le_refl a
  | cons x l ih => exact Nat.le_trans (ih _) (Nat.min_le_left a x.arg)

section
variable {f g : Fuses} (h : f.Grows g)
include h

/-- A slot more can only lower the ceiling (R405). -/
theorem Fuses.Grows.ceiling_le : g.ceiling ≤ f.ceiling := by
  obtain ⟨more, hceil⟩ := h.ceil
  rw [Fuses.ceiling, ← hceil, List.filter_append, List.foldl_append]
  exact foldl_min_arg_le _ _

/-- A retired tower stays retired (R405). -/
theorem Fuses.Grows.retiredTowers_isPrefix : f.retiredTowers <+: g.retiredTowers :=
  (h.tower.filter _).map FuseSlot.arg

end

/-- Settles O5: a step only adds to the ledger (`step_kept`), and what is added neither raises the ceiling nor takes a retired tower back. -/
theorem fusesAreNeverUnwritten : Obligations.FusesAreNeverUnwritten := by
  intro s t hstep
  obtain ⟨u, hu, hkept⟩ := step_kept s
  obtain rfl : u = t := Host.Outcome.next.inj (hu.symm.trans hstep)
  have hgrows : s.fuses.Grows u.fuses := hkept.fuses
  exact ⟨hgrows, hgrows.ceiling_le, fun k hk => hgrows.retiredTowers_isPrefix.subset hk⟩

/-! ### The queue -/

theorem State.idle_noStep {s : State} (h : s.earlyIdx = none) : s.idle = s.tick := by
  have htick : s.tick.earlyIdx = none := by
    rw [State.tick]
    split <;> exact h
  rw [State.idle, State.whenOn, htick]
  split <;> rfl

theorem State.tick_eq (s : State) : s.tick = { s with power := { s.power with
    time := ⟨if s.power.powered then s.power.time.v + 1 else s.power.time.v, s.power.time.shadow⟩ } } := by
  rw [State.tick]
  split <;> rfl

theorem State.endAny_noJob {s : State} (h : s.jobs = []) : s.endAny = s := by
  have hnone : s.runnable = [] := by simp [State.runnable, h]
  rw [State.endAny, hnone]

/-- Without a step before its decision and a command in flight, idling is a tick of the time base (R391; log 2). -/
theorem State.onIdle_ticks {s : State} (hstep : s.earlyIdx = none) (hjobs : s.jobs = []) : s.onIdle = s.tick := by
  have htick : s.tick.jobs = [] := by
    rw [State.tick_eq]
    exact hjobs
  rw [State.onIdle, State.idle_noStep hstep, State.endAny_noJob htick]

/-- Settles O2: a step keeps the queue's rest (`step_kept`), which on an empty queue is empty. -/
theorem queueIsServedInOrder : Obligations.QueueIsServedInOrder := by
  refine ⟨fun s hempty => ?_, fun s c q hq => ?_⟩
  · have hstep : step s = .next s.onIdle := by rw [step, hempty]
    have hkept : s.Kept s.onIdle := State.onIdle_kept (.refl s)
    refine ⟨s.onIdle, hstep, hkept.pending.trans hempty, fun hearly hjobs => ?_⟩
    rw [State.onIdle_ticks hearly hjobs, State.tick_eq]
  · obtain ⟨t, hstep, hkept⟩ := step_kept s
    refine ⟨t, hstep, hkept.pending.trans ?_⟩
    rw [hq]
    rfl

end Sys2Proof.Machine
end

section
/-!
O33. Losses of power and the resets that act as one (R406, R407, R416, R419, R421, Tables 12.3, 12.4, 17.3 and 18.6).
-/
namespace Sys2Proof.Machine

open Sys2Proof

/-! ### A fuse write that is cut -/

/-- No fuse write has begun: the ledger stands (R406). -/
theorem State.cutWrites_none {s : State} (h : ∀ j ∈ s.jobs, j.2 = false) : s.cutWrites = s := by
  have hbegun : s.jobs.filter (·.2) = [] := List.filter_eq_nil_iff.mpr fun j hj => by simp [h j hj]
  rw [State.cutWrites, hbegun, List.foldl_nil]

/-- However far a lowering of the ceiling has come, its slot has begun: it is programmed or interrupted (R406). -/
theorem Fuses.write_cut (f : Fuses) (arg n : Nat) :
    f.write 1 arg (cutEnd n) = { f with ceil := f.ceil ++ [⟨arg, none, [], [], cutEnd n == .committed⟩] } := by
  unfold cutEnd
  split <;> rfl

/-- A lowering of the ceiling that is cut (R406, R407). -/
theorem State.cutWrites_ceiling {s : State} {q : Ask} (hjobs : s.jobs = [(q, true)]) (hop : q.opcode = 0x0503)
    (hact : fieldLe q.payload 0 1 = 1) : s.cutWrites = { s with
      freeCtr := s.freeCtr + 1
      fuses := { s.fuses with
        ceil := s.fuses.ceil ++ [⟨fieldLe q.payload 2 2, none, [], [], cutEnd (Config.freeNat s.freeCtr) == .committed⟩] } } := by
  have hbegun : s.jobs.filter (·.2) = [(q, true)] := by rw [hjobs]; rfl
  have hledger : q.opcode ≠ 0x0502 := by omega
  rw [State.cutWrites, hbegun, List.foldl_cons, List.foldl_nil]
  dsimp only
  rw [if_neg hledger, hact, Fuses.write_cut]

/-! ### What a loss of power leaves -/

/-- The state at power-good but for its power pins, the tamper inputs and the counter of free values (log 5). -/
theorem State.powerUp_frame (s : State) (pw : Power) :
    Frame [.power, .keep, .freeCtr] (State.powerUp s.pending s.fuses)
      { State.powerUp s.pending s.fuses with power := pw, keep := { Keep.reset with live := s.keep.live }, freeCtr := s.freeCtr } := by
  intro p hp
  cases p with
  | power | keep | freeCtr => simp at hp
  | _ => rfl

/-- Phase 1 begins from power-up values (R416, R419). -/
theorem State.restart_frame (s : State) (low : Bool) : Frame [.power, .keep, .freeCtr] (State.powerUp s.pending s.fuses) (s.restart low) :=
  s.powerUp_frame _

theorem exec_overVoltage {s : State} (h : s.power.powered = true) : exec .overVoltage s = .next (s.cutWrites.lostBy .overVoltage) :=
  congrArg Host.Outcome.next (if_pos h)

theorem exec_thermalTrip {s : State} (h : s.power.powered = true) : exec .thermalTrip s = .next (s.cutWrites.lostBy .trip) :=
  congrArg Host.Outcome.next (if_pos h)

theorem exec_conventionalReset {s : State} (perst : Bool) (h : s.power.powered = true) :
    exec (.conventionalReset perst) s = .next (s.cutWrites.lostBy (.reset perst)) :=
  congrArg Host.Outcome.next (if_pos h)

/-- The three ways to lose power, each with what cuts it off. -/
theorem exec_loses {s : State} (h : s.power.powered = true) {i : Instr} (hi : i ∈ [Instr.powerLoss, .overVoltage, .thermalTrip]) :
    ∃ l ∈ [LossBy.supply, .overVoltage, .trip], exec i s = .next (s.cutWrites.lostBy l) := by
  simp only [List.mem_cons, List.not_mem_nil, or_false] at hi
  rcases hi with rfl | rfl | rfl
  · exact ⟨.supply, by simp, rfl⟩
  · exact ⟨.overVoltage, by simp, exec_overVoltage h⟩
  · exact ⟨.trip, by simp, exec_thermalTrip h⟩

/-- A loss of power leaves the ledger, and the block without power (R421). -/
theorem State.lostBy_off (s : State) {l : LossBy} (hl : l ∈ [LossBy.supply, .overVoltage, .trip]) :
    (s.lostBy l).power.powered = false ∧ (s.lostBy l).fuses = s.fuses := by
  simp only [List.mem_cons, List.not_mem_nil, or_false] at hl
  rcases hl with rfl | rfl | rfl <;> exact ⟨rfl, rfl⟩

/-- Settles O33: each row is a loss of power, which cuts the fuse write that has begun, or a start from power-up values. -/
theorem powerLossAndResets : Obligations.PowerLossAndResets := by
  refine ⟨fun s hp hjobs => ?losses, fun s => ⟨_, rfl, rfl, rfl⟩, fun s q hp hjobs hop hact i hi => ?cut, fun s hjobs => ?resets⟩
  case losses =>
    have hcut : s.cutWrites = s := State.cutWrites_none hjobs
    simp only [List.forall_mem_cons]
    refine ⟨?_, ?_, ?_, fun _ h => absurd h List.not_mem_nil⟩
    · exact ⟨s.lostBy .supply, congrArg (fun t : State => Host.Outcome.next (t.lostBy .supply)) hcut, rfl, rfl, s.powerUp_frame _, rfl, rfl, rfl⟩
    · exact ⟨s.lostBy .overVoltage, by rw [exec_overVoltage hp, hcut], rfl, rfl, s.powerUp_frame _, rfl, rfl, rfl⟩
    · exact ⟨s.lostBy .trip, by rw [exec_thermalTrip hp, hcut], rfl, rfl, s.powerUp_frame _, rfl, rfl, rfl⟩
  case cut =>
    obtain ⟨l, hl, hexec⟩ := exec_loses hp hi
    obtain ⟨hoff, hfuses⟩ := s.cutWrites.lostBy_off hl
    refine ⟨_, hexec, hoff, cutEnd (Config.freeNat s.freeCtr) == .committed, ?_⟩
    rw [hfuses, State.cutWrites_ceiling hjobs hop hact]
  case resets =>
    refine ⟨fun hoff htrip => ?_, fun hoff htrip => ?_, fun perst hp => ?_, fun hp hlow => ?_⟩
    · exact ⟨_, congrArg Host.Outcome.next (if_pos (by simp [hoff, htrip])), rfl, rfl, s.restart_frame _⟩
    · exact congrArg Host.Outcome.next (if_neg (by simp [htrip]))
    · refine ⟨s.restart (s.power.perstLow || perst), ?_, rfl, rfl, s.restart_frame _⟩
      rw [exec_conventionalReset perst hp, State.cutWrites_none hjobs]
      rfl
    · exact ⟨_, congrArg Host.Outcome.next ((if_pos hlow).trans (if_pos hp)), rfl, rfl, s.restart_frame false⟩

end Sys2Proof.Machine
end

section
/-!
O36. A function level reset (R193, R420, R431; log 44).
-/
namespace Sys2Proof.Machine

open Sys2Proof

/-! ### What stops leaves undefined -/

/-- What a march or an update that stops leaves undefined is in memory, and takes a free value (R228, R431). -/
structure State.Scrambles (s t : State) : Prop where
  frame : Frame [.mem, .freeCtr] s t
  pages : t.mem.pages = s.mem.pages
  banks : t.mem.banks = s.mem.banks

theorem State.Scrambles.refl (s : State) : s.Scrambles s := ⟨Frame.refl _ _, rfl, rfl⟩

theorem State.Scrambles.trans {s t u : State} (a : s.Scrambles t) (b : t.Scrambles u) : s.Scrambles u :=
  ⟨Frame.trans a.frame b.frame (fun _ h => h) (fun _ h => h), b.pages.trans a.pages, b.banks.trans a.banks⟩

theorem State.Scrambles.foldl {α : Type} {f : State → α → State} (hf : ∀ (s : State) (a : α), s.Scrambles (f s a)) (l : List α) (s : State) :
    s.Scrambles (l.foldl f s) := by
  induction l generalizing s with
  | nil => exact .refl s
  | cons a l ih => exact (hf s a).trans (ih _)

theorem State.scrambleBank_eq (s : State) (b : Bank) : ∃ cells onyx, s.scrambleBank b
    = { s with mem := { s.mem with cells := cells, onyx := onyx }, freeCtr := s.freeCtr + 1 } := by
  unfold State.scrambleBank
  generalize List.range 0x4000000 = bytes
  dsimp only
  exact ⟨_, _, rfl⟩

theorem State.scrambleBank_scrambles (s : State) (b : Bank) : s.Scrambles (s.scrambleBank b) := by
  obtain ⟨cells, onyx, hbank⟩ := s.scrambleBank_eq b
  rw [hbank]
  exact ⟨s.set_mem_freeCtr_frame _ _, rfl, rfl⟩

theorem State.scrambleLayer_scrambles (s : State) (x : Slot) (p : Program) (l : Nat) : s.Scrambles (s.scrambleLayer x p l) :=
  ⟨s.set_mem_freeCtr_frame _ _, rfl, rfl⟩

theorem State.stopMarch_scrambles (s : State) (q : Ask) : s.Scrambles (s.stopMarch q) := by
  unfold State.stopMarch
  dsimp only
  split
  · exact s.scrambleBank_scrambles _
  · exact .refl s

theorem State.scrambleStep_scrambles (s : State) (i : Nat) : s.Scrambles (s.scrambleStep i) := by
  unfold State.scrambleStep
  split
  · exact .refl s
  · exact .foldl (fun t l => t.scrambleLayer_scrambles _ _ l) _ s

/-- The steps and marches in flight, as they are stopped. -/
def State.stopped (s : State) : State := (List.range s.steps.length).foldl State.scrambleStep s.stopMarches

theorem State.stopMarches_scrambles (s : State) : s.Scrambles s.stopMarches :=
  .foldl (fun t (j : Ask × Bool) => t.stopMarch_scrambles j.1) s.jobs s

theorem State.stopped_scrambles (s : State) : s.Scrambles s.stopped :=
  s.stopMarches_scrambles.trans (.foldl State.scrambleStep_scrambles _ _)

/-- With no march in flight, and no layer in UPDATE, no byte of memory loses its content (R420, R431). -/
theorem State.stopped_quiet {s : State} (hupd : ∀ p ∈ s.steps, p.inUpdate = []) (hmarch : ∀ j ∈ s.jobs, j.1.opcode ≠ 0x0304) :
    s.stopped = s := by
  have hmarches : s.stopMarches = s := by
    have hfold (l : List (Ask × Bool)) (hl : ∀ j ∈ l, j.1.opcode ≠ 0x0304) : l.foldl (fun s j => s.stopMarch j.1) s = s := by
      induction l with
      | nil => rfl
      | cons j l ih =>
        have hj : s.stopMarch j.1 = s := if_neg fun h => hl j List.mem_cons_self h.1
        rw [List.foldl_cons, hj, ih fun k hk => hl k (List.mem_cons_of_mem _ hk)]
    exact hfold s.jobs hmarch
  have hstep (i : Nat) : s.scrambleStep i = s := by
    unfold State.scrambleStep
    split
    next => rfl
    next r hr =>
      rw [hupd r.st (List.mem_of_getElem? (State.run_eq_some.mp hr).1)]
      rfl
  rw [State.stopped, hmarches]
  exact List.foldl_fixed' hstep _

/-! ### The reset -/

/-- What a function level reset clears, once steps and marches have stopped (R420). -/
def State.flrCleared (s : State) : State :=
  { s with
    steps := []
    power := { s.power with berylStop := false }
    mailboxes := List.replicate 4 Mailbox.reset
    goOrder := []
    jobs := []
    late := []
    ints := Ints.reset
    evt := { EvtLog.reset with seq := s.evt.seq }
    belfry := { s.belfry with coolant := 3 }
    towers := (s.towers.map (Tower.dropItems fun _ => true)).map fun (t : Tower) => { t with entries := [] }
    fabric := { s.fabric with
      topo := none, noCredit := [], resent := [], writing := [], outbox := []
      links := s.fabric.links.map fun (l : Link) => { l with mismatch := false, named := none, relay := none } }
    slots := List.replicate 4 Slot.reset
    ext := Extension.reset }

theorem State.flrClear_eq (s : State) : s.flrClear = s.stopped.flrCleared.releaseGroups := by
  have hsteps : s.stopMarches.steps = s.steps := s.stopMarches_scrambles.frame.steps_eq
  rw [State.flrClear, State.dropSteps, hsteps]
  rfl

theorem exec_functionLevelReset {s : State} (hio : s.ioUp = true) (hjobs : ∀ j ∈ s.jobs, j.2 = false) :
    exec .functionLevelReset s = .next s.stopped.flrCleared.releaseGroups := by
  have hbegun : ¬ s.jobs.any (·.2) = true := by
    rw [List.any_eq_true]
    rintro ⟨j, hj, htrue⟩
    rw [hjobs j hj] at htrue
    cases htrue
  rw [← State.flrClear_eq, ← show s.flr = s.flrClear from if_neg hbegun]
  exact congrArg Host.Outcome.next (if_pos hio)

/-- A tower that has dropped all its work holds none (R224). -/
theorem Tower.dropItems_all (x : Tower) : (x.dropItems fun _ => true).queue = [] ∧ (x.dropItems fun _ => true).started = [] := by
  simp [Tower.dropItems]

theorem State.flrCleared_towers (s : State) : ∀ x ∈ s.flrCleared.towers, x.queue = [] ∧ x.started = [] ∧ x.entries = [] := by
  intro x hx
  simp only [State.flrCleared, List.map_map, List.mem_map] at hx
  obtain ⟨y, -, rfl⟩ := hx
  exact ⟨y.dropItems_all.1, y.dropItems_all.2, rfl⟩

theorem State.flrCleared_frame (s : State) (m : Mem) :
    Frame [.steps, .slots, .mailboxes, .goOrder, .jobs, .late, .ints, .evt, .ext, .fabric, .belfry, .mem, .towers, .power] s
      { s.flrCleared with mem := m } := by
  intro p hp
  cases p with
  | pending | fuses | keep | measure | thermal | domeEpoch | window | out | freeCtr => rfl
  | _ => simp at hp

/-- Settles O36: what stops leaves memory undefined at most, and the rest is one update of the state. -/
theorem functionLevelReset : Obligations.FunctionLevelReset := by
  intro s hio hjobs
  have hstop := s.stopped_scrambles
  obtain ⟨groups, hrelease⟩ := s.stopped.flrCleared.releaseGroups_eq
  refine ⟨_, exec_functionLevelReset hio hjobs, ?_⟩
  rw [hrelease]
  refine ⟨rfl, rfl, rfl, rfl, rfl, rfl, rfl, ?evt, rfl, ?fabric, ?power, ?belfry, hstop.pages, hstop.banks, s.stopped.flrCleared_towers,
    fun hupd hmarch => ?quiet, ?frame⟩
  case evt => exact congrArg (fun e : EvtLog => { EvtLog.reset with seq := e.seq }) hstop.frame.evt_eq
  case fabric =>
    have hfabric : s.stopped.fabric = s.fabric := hstop.frame .fabric (by simp)
    rw [← hfabric]
    rfl
  case power =>
    rw [← hstop.frame.power_eq]
    rfl
  case belfry =>
    rw [← hstop.frame.belfry_eq]
    rfl
  case quiet =>
    rw [State.stopped_quiet hupd hmarch]
    exact ⟨rfl, rfl⟩
  case frame => exact Frame.trans hstop.frame (s.stopped.flrCleared_frame _) (by simp) (by simp)

end Sys2Proof.Machine
end

section
/-!
SUPPORT. Fields of bytes that are laid out one after another, without a bound on the numbers they hold (R7), and bits of masks.
-/
namespace Sys2Proof.Machine

open Sys2Proof

/-- Bytes of a number hold it modulo their range. -/
theorem ofLe_toLe_mod (k n : Nat) : ofLe (toLe k n) = n % 256 ^ k := by
  induction k generalizing n with
  | zero => simp [toLe, ofLe, Nat.mod_one]
  | succ k ih =>
    rw [toLe, ofLe, ih, Nat.pow_succ']
    exact (Nat.mod_mul ..).symm

theorem fieldLe_toLe_append_mod (k n : Nat) (r : List Byte) : fieldLe (toLe k n ++ r) 0 k = n % 256 ^ k := by
  rw [fieldLe, sliceB_append_self (length_toLe k n), ofLe_toLe_mod]

theorem fieldLe_toLe_mod (k n : Nat) : fieldLe (toLe k n) 0 k = n % 256 ^ k := by
  have hfield := fieldLe_toLe_append_mod k n []
  rwa [List.append_nil] at hfield

theorem ofLe_append (a b : List Byte) : ofLe (a ++ b) = ofLe a + 256 ^ a.length * ofLe b := by
  induction a with
  | nil => simp [ofLe]
  | cons x a ih =>
    simp only [List.cons_append, ofLe, ih, List.length_cons, Nat.pow_succ']
    rw [Nat.mul_add, Nat.mul_assoc, Nat.add_assoc]

/-- A field of two parts. -/
theorem fieldLe_add (b : List Byte) (o m n : Nat) : fieldLe b o (m + n) = fieldLe b o m + 256 ^ m * fieldLe b (o + m) n := by
  have hsplit : sliceB b o (m + n) = sliceB b o m ++ sliceB b (o + m) n := by
    simp only [sliceB_eq_map_range, List.range_add, List.map_append, List.map_map, Function.comp_def, Nat.add_assoc]
  rw [fieldLe, hsplit, ofLe_append, sliceB_eq_map_range, List.length_map, List.length_range, ← sliceB_eq_map_range]
  rfl

theorem getD_sliceB (b : List Byte) (o : Nat) {k j : Nat} (h : j < k) : (sliceB b o k).getD j 0 = b.getD (o + j) 0 := by
  rw [sliceB_eq_map_range, List.getD_eq_getElem _ _ (by simpa using h), List.getElem_map, List.getElem_range]

/-- The slice at the offset of a record, behind which nothing follows. -/
theorem sliceB_flatMap {α : Type} {f : α → List Byte} {w : Nat} (hw : ∀ x, (f x).length = w) (l : List α) {i : Nat} (hi : i < l.length) :
    sliceB (l.flatMap f) (w * i) w = f l[i] := by
  have hslice := sliceB_flatMap_append hw l [] hi
  rwa [List.append_nil] at hslice

/-- A sum of bits is the mask of the places whose bit is set. -/
theorem foldl_putBit (p : Nat → Bool) (l : List Nat) : l.foldl (fun a b => a + putBit (p b) b) 0 = maskOf (l.filter p) := by
  rw [maskOf, List.foldl_filter]
  congr
  funext a b
  rw [putBit]
  split <;> rfl

end Sys2Proof.Machine
end

section
/-!
O6. The commands that report status: IDENTIFY, GET_CAPS, BELFRY_STATUS and UNIT_STATUS (R367, R377, R387, Tables 12.6, 14.3, 14.4 and 14.18).
-/
namespace Sys2Proof.Machine

open Sys2Proof

/-! ### Commands that are open in every life-cycle state -/

/-- Before its payload nothing refuses an IDENTIFY, a READ_LOG or a UNIT_STATUS of the right length, whatever the life-cycle state (R363, R379,
R401). -/
theorem State.judge'_always (s : State) {c : Sub} {op : Nat}
    (hop : op = 0x0001 ∧ c.payload.length = 0 ∨ op = 0x0003 ∧ c.payload.length = 8 ∨ op = 0x0602 ∧ c.payload.length = 4 ∧ c.mbx = 0) :
    (s.submitted c op).judge' (asked c op) = none := by
  have hstage : (s.submitted c op).stage1 (asked c op) = none := by
    rcases hop with ⟨rfl, hlen⟩ | ⟨rfl, hlen⟩ | ⟨rfl, hlen, hmbx⟩
    · simp [State.stage1, romLen, hlen]
    · simp [State.stage1, romLen, hlen]
    · simp [State.stage1, romLen, hlen, hmbx]
  have hop' : op = 0x0001 ∨ op = 0x0003 ∨ op = 0x0602 := by tauto
  have hlocked : (s.submitted c op).locked (asked c op) = false := by
    rcases hop' with rfl | rfl | rfl <;> simp [State.locked]
  have hbusy : (s.submitted c op).busy (asked c op) = false := by
    rcases hop' with rfl | rfl | rfl <;> simp [State.busy, State.meets, loadsSlot, savesSlot, isExt]
  have hno : op ≠ 0x0201 ∧ op ≠ 0x0202 := by omega
  simp [State.judge', hstage, hlocked, hbusy, hno]

section
variable {s : State} {c : Sub} (h : s.Takes c)
include h

/-- A ROM command whose body completes it from the state in which it runs changes its mailbox, its vector and what the port has put out. -/
theorem State.command_completes {op : Nat} {i : Instr} {status : Nat} {d : List Byte} (hi : exec i s = .next (s.command c op)) (ho : op < 0x0F00)
    (hj : (s.submitted c op).judge' (asked c op) = none)
    (hb : State.romBody (asked c op) (s.running c op) = (s.running c op).complete c.mbx status d) :
    ∃ t, exec i s = .next t ∧ s.Answers c status d [] t :=
  ⟨_, State.command_answers hi h ho hj hb rfl h.settled (Frame.refl [] _)⟩

theorem exec_identify (hpay : c.payload = []) : ∃ t, exec (.identify c) s = .next t ∧ s.Answers c 0 s.identifyBytes [] t :=
  State.command_completes h rfl (by decide) (s.judge'_always (.inl ⟨rfl, by rw [hpay]; rfl⟩)) rfl

theorem exec_getCaps (hadv : s.keep.advanced = false) (hpay : c.payload = []) :
    ∃ t, exec (.getCaps c) s = .next t ∧ s.Answers c 0 s.capsBytes [] t :=
  State.command_completes h rfl (by decide) (s.judge'_reading hadv hpay (by decide)) rfl

theorem exec_belfryStatus (hadv : s.keep.advanced = false) (hpay : c.payload = []) :
    ∃ t, exec (.belfryStatus c) s = .next t ∧ s.Answers c 0 s.belfryWords [] t :=
  State.command_completes h rfl (by decide) (s.judge'_reading hadv hpay (by decide)) rfl

variable (hm : c.mbx = 0)
include hm

theorem exec_unitStatus {kind : Nat} (hkind : kind ≤ 2) (hpay : c.payload = [BitVec.ofNat 8 kind, 0, 0, 0]) :
    ∃ t, exec (.unitStatus c) s = .next t ∧ s.Answers c 0 (s.unitBytes kind) [] t := by
  have hfield : fieldLe c.payload 0 1 = kind := by
    rw [hpay]
    simp [fieldLe, sliceB, ofLe]
    omega
  have hzero : zeroAt c.payload 1 3 = true := by rw [hpay]; rfl
  refine State.command_completes h rfl (by decide) (s.judge'_always (.inr (.inr ⟨rfl, by rw [hpay]; rfl, hm⟩))) ?_
  have hbody (u : State) : cmdUnitStatus ⟨c.mbx, c.payload, c.env⟩ u = u.complete c.mbx stOK (u.unitBytes kind) := by
    rw [cmdUnitStatus]
    dsimp only
    rw [hfield, if_neg (by simp [hzero]; omega)]
    rfl
  exact hbody _

theorem exec_unitStatus_bad (hlen : c.payload.length = 4) (hbad : 2 < fieldLe c.payload 0 1 ∨ zeroAt c.payload 1 3 = false) :
    ∃ t, exec (.unitStatus c) s = .next t ∧ s.Answers c stBAD_PARAM (List.replicate (unitLen (fieldLe c.payload 0 1)) 0) [] t := by
  refine State.command_completes h rfl (by decide) (s.judge'_always (.inr (.inr ⟨rfl, hlen, hm⟩))) ?_
  have hbody (u : State) : cmdUnitStatus ⟨c.mbx, c.payload, c.env⟩ u
      = u.complete c.mbx stBAD_PARAM (List.replicate (unitLen (fieldLe c.payload 0 1)) 0) := if_pos (by simpa using hbad)
  exact hbody _

end

/-! ### The words of BELFRY_STATUS -/

/-- One word of BELFRY_STATUS: that of its register, but for the 64-bit counters (R377). -/
def State.belfryWord (s : State) (k : Nat) : Nat :=
  if 4 * k = 0x30 then s.measure.energy.v.toNat % 2 ^ 32
  else if 4 * k = 0x34 then s.measure.energy.v.toNat / 2 ^ 32
  else if 4 * k = 0x38 then s.measure.droopWin.v.toNat % 2 ^ 32
  else if 4 * k = 0x3C then s.measure.droopWin.v.toNat / 2 ^ 32
  else s.belfryReg (4 * k)

section
variable (s : State)

theorem State.belfryWords_eq : s.belfryWords = (List.range 18).flatMap fun k => toLe 4 (s.belfryWord k) := by
  unfold State.belfryWords
  congr 1
  funext k
  simp only [State.belfryWord, apply_ite (toLe 4)]

theorem State.length_belfryWords : s.belfryWords.length = 72 := by
  rw [s.belfryWords_eq, length_flatMap_const fun _ => length_toLe 4 _]
  rfl

theorem State.fieldLe_belfryWords {k : Nat} (hk : k < 18) : fieldLe s.belfryWords (4 * k) 4 = s.belfryWord k % 2 ^ 32 := by
  rw [fieldLe, s.belfryWords_eq, sliceB_flatMap (fun _ => length_toLe 4 _) _ (by simpa using hk), List.getElem_range, ofLe_toLe_mod]
  rfl

theorem State.belfryWord_register {k : Nat} (hk : k ∉ [12, 13, 14, 15]) : s.belfryWord k = s.belfryReg (4 * k) := by
  simp only [List.mem_cons, List.not_mem_nil, or_false, not_or] at hk
  rw [State.belfryWord, if_neg (by omega), if_neg (by omega), if_neg (by omega), if_neg (by omega)]

/-- A 64-bit counter stands in two words, the low one first. -/
theorem State.fieldLe_belfryWords_counter {k : Nat} (hk : k + 1 < 18) {v : Quad} (hlo : s.belfryWord k = v.toNat % 2 ^ 32)
    (hhi : s.belfryWord (k + 1) = v.toNat / 2 ^ 32) : fieldLe s.belfryWords (4 * k) 8 = v.toNat := by
  have hlow := s.fieldLe_belfryWords (k := k) (by omega)
  have hhigh := s.fieldLe_belfryWords hk
  rw [Nat.mul_add] at hhigh
  rw [fieldLe_add _ _ 4 4, hlow, hhigh, hlo, hhi]
  have := v.isLt
  omega

/-! ### The bitmaps of UNIT_STATUS -/

theorem State.length_bitmap (p : Tower → Bool) : (s.bitmap p).length = 48 := by
  rw [State.bitmap, List.length_map, List.length_range]

/-- A tower's bit in a bitmap (Table 14.18). -/
theorem State.bitmap_bit (p : Tower → Bool) {k : Nat} (hk : k < 384) :
    ((s.bitmap p).getD (k / 8) 0).getLsbD (k % 8) = (decide (k < 324) && p (s.tower k)) := by
  have hbyte : k / 8 < (s.bitmap p).length := by
    rw [s.length_bitmap]
    omega
  have hplace : 8 * (k / 8) + k % 8 = k := Nat.div_add_mod k 8
  obtain ⟨hlt, hbits⟩ := maskOf_filter_range (fun b => decide (8 * (k / 8) + b < 324) && p (s.tower (8 * (k / 8) + b))) 8
  rw [List.getD_eq_getElem _ _ hbyte]
  simp only [State.bitmap, List.getElem_map, List.getElem_range]
  rw [foldl_putBit fun b => decide (8 * (k / 8) + b < 324) && p (s.tower (8 * (k / 8) + b)), BitVec.getLsbD_ofNat, hbits _ (Nat.mod_lt k (by decide)),
    hplace]
  simp [Nat.mod_lt k (show 8 > 0 by decide)]

/-- The tests of the six bitmaps, in the order of Table 14.18. -/
def unitTests : List (Tower → Bool) :=
  [Tower.inService, fun x => x.state == 1, fun x => x.state == 2, fun x => x.state == 3, fun x => x.state == 4, fun x => x.routerFault]

theorem State.unitBytes_towers : s.unitBytes 0 = unitTests.flatMap s.bitmap := by
  simp [State.unitBytes, unitTests, List.flatMap_cons]

theorem State.unitBytes_bit {i : Nat} {p : Tower → Bool} (hp : unitTests[i]? = some p) {k : Nat} (hk : k < 384) :
    ((s.unitBytes 0).getD (48 * i + k / 8) 0).getLsbD (k % 8) = (decide (k < 324) && p (s.tower k)) := by
  obtain ⟨hi, rfl⟩ := List.getElem?_eq_some_iff.mp hp
  rw [← s.bitmap_bit _ hk, ← sliceB_flatMap s.length_bitmap unitTests hi, ← s.unitBytes_towers, getD_sliceB _ _ (by omega)]

/-! ### The links of UNIT_STATUS -/

/-- The slot of the module on its board, while a topology names it. -/
def State.seat (s : State) : Option Nat := s.fabric.topo.bind fun t => t.me.map ModEnt.slot

theorem State.linkBytes_eq (l : Nat) : s.linkBytes l = toLe 1 (s.link l).state
    ++ (toLe 1 (match s.seat with | some m => if l < m then l else l + 1 | none => 0xFF)
    ++ (toLe 1 (match s.seat, (s.link l).relay with | some _, some r => r | _, _ => 0xFF)
    ++ (toLe 1 0 ++ (toLe 4 (s.link l).replays.toNat ++ (toLe 4 (s.link l).dropped.toNat ++ toLe 4 0))))) := by
  unfold State.linkBytes State.seat
  cases s.fabric.topo <;> simp only [List.append_assoc] <;> rfl

theorem State.length_linkBytes (l : Nat) : (s.linkBytes l).length = 16 := by
  rw [State.linkBytes_eq]
  simp

theorem State.length_unitBytes_links : ((List.range 7).flatMap s.linkBytes).length = 112 := by
  rw [length_flatMap_const s.length_linkBytes]
  rfl

theorem State.unitBytes_links :
    s.unitBytes 1 = (List.range 7).flatMap s.linkBytes ++ (toLe 4 s.fabric.fabricDrops.toNat ++ List.replicate 12 0) :=
  List.append_assoc ..

/-- A field of a link's 16 bytes. -/
theorem State.fieldLe_link {l : Nat} (hl : l < 7) {o k : Nat} (h : o + k ≤ 16) :
    fieldLe (s.unitBytes 1) (16 * l + o) k = fieldLe (s.linkBytes l) o k := by
  have hslice := sliceB_flatMap_append s.length_linkBytes (List.range 7) (toLe 4 s.fabric.fabricDrops.toNat ++ List.replicate 12 0) (i := l)
    (by simpa using hl)
  rw [← s.unitBytes_links, List.getElem_range] at hslice
  rw [fieldLe, fieldLe, ← hslice, sliceB_sliceB _ _ h]

/-! ### The causes of UNIT_STATUS -/

theorem putBit_causes (a b c d : Bool) :
    let n := putBit a 0 + putBit b 1 + putBit c 2 + putBit d 3
    n < 16 ∧ (n % 4 ≠ 0 ↔ (a || b) = true) ∧ n.testBit 2 = c ∧ n.testBit 3 = d := by
  revert a b c d
  decide

theorem State.unitBytes_causes : s.unitBytes 2 = toLe 1 (if s.causes % 4 = 0 then 1 else 0)
    ++ (toLe 1 s.causes ++ (toLe 2 s.activeTowers ++ toLe 4 ((s.towers.map fun x => x.ctrs.staleDrop.toNat).sum))) := by
  simp only [State.unitBytes, List.append_assoc, List.sum_eq_foldl, List.foldl_map]

end

/-! ### The obligation -/

theorem State.identifyBytes_eq (s : State) : s.identifyBytes
    = ([0x57, 0x59, 0x2D, 0x53, 0x57, 0x34, 0x30, 0x2D, 0x4C] : List Byte) ++ List.replicate 7 0 ++ [0xB0] ++ toLe 1 s.fuses.state
        ++ [0x00, 0x01, 0x00, 0x01] ++ toLe 2 s.activeTowers ++ toLe 8 Config.serial.toNat ++ toLe 8 s.ext.version.toNat
        ++ toLe 2 s.fuses.ceiling ++ toLe 1 s.slotMask ++ toLe 1 (if s.fabric.topo.isSome then 1 else 0) ++ List.replicate 4 0 := by
  have hname : asciiPad "WY-SW40-L" 16 = ([0x57, 0x59, 0x2D, 0x53, 0x57, 0x34, 0x30, 0x2D, 0x4C] : List Byte) ++ List.replicate 7 0 := by decide
  have hrev : toLe 1 0xB0 = [0xB0] := rfl
  have hversions (a : List Byte) : a ++ toLe 2 0x0100 ++ toLe 2 0x0100 = a ++ [0x00, 0x01, 0x00, 0x01] := List.append_assoc ..
  have hreserved : toLe 4 0 = List.replicate 4 0 := rfl
  rw [State.identifyBytes, hname, hrev, hversions, hreserved]

/-- What UNIT_STATUS tells of the links (Table 14.18). -/
theorem State.unitBytes_tellsLinks (s : State) :
    let d := s.unitBytes 1
    let seat : Option Nat := s.fabric.topo.bind fun t => t.me.map ModEnt.slot
    (∀ l < 7, fieldLe d (16 * l) 1 = (s.link l).state % 256
      ∧ fieldLe d (16 * l + 1) 1 = (match seat with | some m => (if l < m then l else l + 1) % 256 | none => 0xFF)
      ∧ fieldLe d (16 * l + 2) 1 = (match seat, (s.link l).relay with | some _, some r => r % 256 | _, _ => 0xFF)
      ∧ fieldLe d (16 * l + 3) 1 = 0 ∧ fieldLe d (16 * l + 4) 4 = (s.link l).replays.toNat
      ∧ fieldLe d (16 * l + 8) 4 = (s.link l).dropped.toNat ∧ fieldLe d (16 * l + 12) 4 = 0)
    ∧ fieldLe d 112 4 = s.fabric.fabricDrops.toNat ∧ zeroAt d 116 12 = true := by
  intro d seat
  refine ⟨fun l hl => ?link, ?drops, ?reserved⟩
  case link =>
    have hfield {o k : Nat} (h : o + k ≤ 16) : fieldLe d (16 * l + o) k = fieldLe (s.linkBytes l) o k := s.fieldLe_link hl h
    have hfirst : fieldLe d (16 * l) 1 = fieldLe (s.linkBytes l) 0 1 := hfield (o := 0) (by omega)
    have hseat : s.seat = seat := rfl
    rw [hfirst, hfield (by omega), hfield (by omega), hfield (by omega), hfield (by omega), hfield (by omega), hfield (by omega),
      s.linkBytes_eq, hseat]
    have hreplays := (s.link l).replays.isLt
    have hdropped := (s.link l).dropped.isLt
    simp only [fieldLe_append_skip, fieldLe_toLe_append_mod, fieldLe_toLe_mod, length_toLe, Nat.reduceLeDiff, Nat.reduceSub, Nat.le_refl, Nat.sub_self]
    refine ⟨rfl, ?_, ?_, rfl, Nat.mod_eq_of_lt hreplays, Nat.mod_eq_of_lt hdropped, rfl⟩
    · cases seat <;> rfl
    · cases seat <;> cases (s.link l).relay <;> rfl
  case drops =>
    have hdrops := s.fabric.fabricDrops.isLt
    simp only [d]
    rw [s.unitBytes_links, fieldLe_append_skip (by rw [s.length_unitBytes_links]), s.length_unitBytes_links, Nat.sub_self,
      fieldLe_toLe_append_mod]
    exact Nat.mod_eq_of_lt hdrops
  case reserved =>
    simp only [d]
    rw [s.unitBytes_links, zeroAt_append_skip (by rw [s.length_unitBytes_links]; omega), s.length_unitBytes_links,
      zeroAt_append_skip (by simp), length_toLe]
    rfl

/-- What UNIT_STATUS tells of the module (Table 14.18). -/
theorem State.unitBytes_tellsCauses (s : State) :
    let d := s.unitBytes 2
    let down : Prop := (∃ x ∈ s.towers, x.routerFault = true) ∨ s.power.ioSramBad = true
    fieldLe d 0 1 = (if s.causes % 4 = 0 then 1 else 0) ∧ fieldLe d 1 1 = s.causes ∧ (s.causes % 4 ≠ 0 ↔ down)
      ∧ (s.causes.testBit 2 = true ↔ s.keep.state = 3) ∧ (s.causes.testBit 3 = true ↔ ∃ l ∈ s.fabric.links, l.mismatch = true)
      ∧ fieldLe d 2 2 = s.activeTowers % 65536
      ∧ fieldLe d 4 4 = (s.towers.map fun x => x.ctrs.staleDrop.toNat).sum % 2 ^ 32 := by
  intro d down
  obtain ⟨hlt, hdown, hkeep, hmates⟩ := putBit_causes (s.towers.any fun t => t.routerFault) s.power.ioSramBad (s.keep.state == 3)
    (s.fabric.links.any fun l => l.mismatch)
  have hcauses : s.causes < 16 := hlt
  have hd : d = s.unitBytes 2 := rfl
  rw [hd, s.unitBytes_causes]
  simp only [fieldLe_append_skip, fieldLe_toLe_append_mod, fieldLe_toLe_mod, length_toLe, Nat.reduceLeDiff, Nat.reduceSub, Nat.le_refl, Nat.sub_self]
  refine ⟨by split <;> rfl, Nat.mod_eq_of_lt (by omega), hdown.trans ?_, ?_, ?_, rfl, rfl⟩
  · rw [Bool.or_eq_true, List.any_eq_true]
  · exact hkeep ▸ beq_iff_eq
  · exact hmates ▸ List.any_eq_true

/-- Settles O6: each status command is a completion of the state in which it runs. -/
theorem statusCommandsAnswer : Obligations.StatusCommandsAnswer := by
  refine ⟨fun s c h hpay => ?identify, fun s c h hadv hpay => ⟨?caps, ?belfry⟩, fun s c h hm => ⟨fun kind hkind hpay => ?unit, fun hlen hbad => ?bad⟩⟩
  case identify => exact s.identifyBytes_eq ▸ exec_identify h hpay
  case caps =>
    exact exec_getCaps h hadv hpay
  case belfry =>
    obtain ⟨t, hexec, hanswers⟩ := exec_belfryStatus h hadv hpay
    refine ⟨t, _, hexec, hanswers, s.length_belfryWords, fun k hk hreg => ?_, ?_, ?_⟩
    · rw [s.fieldLe_belfryWords hk, s.belfryWord_register hreg]
    · exact s.fieldLe_belfryWords_counter (k := 12) (by decide) rfl rfl
    · exact s.fieldLe_belfryWords_counter (k := 14) (by decide) rfl rfl
  case unit =>
    obtain ⟨t, hexec, hanswers⟩ := exec_unitStatus h hm hkind hpay
    refine ⟨t, _, hexec, hanswers, ?length, ?towers, ?links, ?causes⟩
    case length =>
      match kind, hkind with
      | 0, _ =>
        rw [s.unitBytes_towers, length_flatMap_const s.length_bitmap]
        rfl
      | 1, _ =>
        rw [s.unitBytes_links, List.length_append, s.length_unitBytes_links]
        simp
      | 2, _ => simp [s.unitBytes_causes]
    case towers =>
      rintro rfl
      intro p hp k
      have htest : unitTests[p.1]? = some p.2 := by
        simp only [List.mem_cons, List.not_mem_nil, or_false] at hp
        rcases hp with rfl | rfl | rfl | rfl | rfl | rfl <;> rfl
      exact s.unitBytes_bit htest
    case links =>
      rintro rfl
      exact s.unitBytes_tellsLinks
    case causes =>
      rintro rfl
      exact s.unitBytes_tellsCauses
  case bad =>
    rw [← unitLen_eq]
    exact exec_unitStatus_bad h hm hlen hbad

end Sys2Proof.Machine
end

section
/-!
O10. READ_LOG (R368).
-/
namespace Sys2Proof.Machine

open Sys2Proof

/-! ### The ring as it lies in device memory -/

/-- The address of a record of the ring (R355). -/
def EvtLog.place (e : EvtLog) (i : Word) : Nat := e.base.toNat + 64 * (i.toNat % 2 ^ e.log2)

/-- Records that a route leads to, in pages that stand, read as they lie, and the read changes nothing (R368). -/
theorem State.ringRead_quiet (s : State) (n : Nat) (i : Word) (acc : List Byte)
    (h : ∀ k < n, s.mem.touchesRetired (s.evt.place (i + BitVec.ofNat 32 k)) 64 = false ∧ s.Reached (s.evt.place (i + BitVec.ofNat 32 k)) 64) :
    s.ringRead [] n i acc = (some (acc ++ (List.range n).flatMap fun k => memRead s.mem.cells (s.evt.place (i + BitVec.ofNat 32 k)) 64), s) := by
  induction n generalizing i acc with
  | zero => simp [State.ringRead]
  | succ n ih =>
    have hnext (k : Nat) : i + BitVec.ofNat 32 (k + 1) = i + 1 + BitVec.ofNat 32 k := by
      rw [Nat.add_comm, BitVec.ofNat_add, BitVec.add_assoc]
      rfl
    have hfirst : i + BitVec.ofNat 32 0 = i := BitVec.add_zero i
    obtain ⟨hret, hreach⟩ := h 0 (Nat.succ_pos n)
    rw [hfirst] at hret hreach
    have hread : s.readDev rqBeryl noStep [] (s.evt.base.toNat + 64 * (i.toNat % 2 ^ s.evt.log2)) 64
        = (some (memRead s.mem.cells (s.evt.place i) 64), s) := s.readDev_quiet rqBeryl noStep _ 64 hret hreach (by decide)
    rw [State.ringRead, hread]
    dsimp only
    rw [ih (i + 1) _ fun k hk => hnext k ▸ h (k + 1) (Nat.succ_lt_succ hk), List.range_succ_eq_map, List.flatMap_cons, List.flatMap_map, hfirst,
      List.append_assoc]
    simp only [Nat.succ_eq_add_one, hnext]

/-! ### The command -/

section
variable {s : State} {c : Sub} {which count : Nat} {start : Word} (h : s.Takes c) (hcount : count < 256) (hwhich : which < 256)
  (hpay : c.payload = toLe 1 which ++ toLe 1 count ++ toLe 2 0 ++ toLe 4 start.toNat)
include h hpay

/-- READ_LOG is its body, in every life-cycle state. -/
theorem exec_readLog {status : Nat} {d : List Byte}
    (hb : cmdReadLog ⟨c.mbx, c.payload, c.env⟩ (s.running c 0x0003) = (s.running c 0x0003).complete c.mbx status d) :
    ∃ t, exec (.readLog c) s = .next t ∧ s.Answers c status d [] t :=
  State.command_completes h rfl (by decide) (s.judge'_always (.inr (.inl ⟨rfl, by rw [hpay]; simp⟩))) hb

omit h
include hcount hwhich

/-- The fields of its payload. -/
theorem readLog_fields : fieldLe c.payload 0 1 = which ∧ fieldLe c.payload 1 1 = count ∧ fieldLe c.payload 4 4 = start.toNat
    ∧ zeroAt c.payload 2 2 = true := by
  rw [hpay]
  simp only [List.append_assoc]
  refine ⟨fieldLe_toLe_append hwhich, ?_, ?_, ?_⟩
  · rw [fieldLe_append_skip (by simp)]
    exact fieldLe_toLe_append hcount
  · rw [fieldLe_append_skip (by simp), fieldLe_append_skip (by simp), fieldLe_append_skip (by simp)]
    exact fieldLe_toLe start.isLt
  · rw [zeroAt_append_skip (by simp), zeroAt_append_skip (by simp)]
    exact zeroAt_toLe_append

/-- A START or a COUNT out of range (R368). -/
theorem cmdReadLog_bad (u : State) (hbad : 1 < which ∨ count = 0 ∨ 62 < count ∨ which = 0 ∧ 256 ≤ start.toNat ∨ which = 1 ∧ u.evt.en = false
      ∨ which = 1 ∧ (u.evt.head - u.evt.tail).toNat < (start - u.evt.tail).toNat) :
    cmdReadLog ⟨c.mbx, c.payload, c.env⟩ u = u.complete c.mbx stBAD_PARAM (List.replicate 32 0) := by
  obtain ⟨hf0, hf1, hf4, hz⟩ := readLog_fields hcount hwhich hpay
  rw [cmdReadLog]
  dsimp only
  rw [hf0, hf1, hf4, BitVec.ofNat_toNat, BitVec.setWidth_eq]
  by_cases hfields : 1 < which ∨ count = 0 ∨ 62 < count
  · exact if_pos (by omega)
  · have hrest : which = 0 ∧ 256 ≤ start.toNat
        ∨ which = 1 ∧ (u.evt.en = false ∨ (u.evt.head - u.evt.tail).toNat < (start - u.evt.tail).toNat) := by tauto
    rw [if_neg (by simp [hz]; omega)]
    rcases hrest with ⟨rfl, hstart⟩ | ⟨rfl, hout⟩
    · exact (if_pos rfl).trans (if_pos hstart)
    · exact (if_neg (by decide)).trans (if_pos (by simpa using hout))

variable (u : State) (hlow : 1 ≤ count) (hhigh : count ≤ 62)
include hlow hhigh

/-- The early buffer from START on (R368). -/
theorem cmdReadLog_early (hzero : which = 0) (hstart : start.toNat < 256) : cmdReadLog ⟨c.mbx, c.payload, c.env⟩ u
    = u.complete c.mbx stOK (toLe 1 (min count (u.evt.early.length - start.toNat)) ++ [0, 0, 0] ++ toLe 4 u.evt.early.length
        ++ toLe 4 u.evt.lostCount.toNat ++ List.replicate 20 0 ++ ((u.evt.early.drop start.toNat).take count).flatMap EvRec.bytes) := by
  obtain ⟨hf0, hf1, hf4, hz⟩ := readLog_fields hcount hwhich hpay
  rw [cmdReadLog]
  dsimp only
  rw [hf0, hf1, hf4, if_neg (by simp [hz]; omega), if_pos hzero, if_neg (by omega), List.length_take, List.length_drop]
  rfl

/-- The ring from START on, not beyond HEAD (R368). -/
theorem cmdReadLog_ring (hone : which = 1) (hen : u.evt.en = true) (hrange : (start - u.evt.tail).toNat ≤ (u.evt.head - u.evt.tail).toNat)
    (herrs : c.env.errs = [])
    (hreads : ∀ k < min count (u.evt.head - start).toNat, u.mem.touchesRetired (u.evt.place (start + BitVec.ofNat 32 k)) 64 = false
      ∧ u.Reached (u.evt.place (start + BitVec.ofNat 32 k)) 64) :
    cmdReadLog ⟨c.mbx, c.payload, c.env⟩ u = u.complete c.mbx stOK (toLe 1 (min count (u.evt.head - start).toNat) ++ [0, 0, 0]
      ++ toLe 4 u.evt.head.toNat ++ toLe 4 u.evt.lostCount.toNat ++ List.replicate 20 0
      ++ (List.range (min count (u.evt.head - start).toNat)).flatMap fun k =>
          memRead u.mem.cells (u.evt.place (start + BitVec.ofNat 32 k)) 64) := by
  obtain ⟨hf0, hf1, hf4, hz⟩ := readLog_fields hcount hwhich hpay
  rw [cmdReadLog]
  dsimp only
  rw [hf0, hf1, hf4, if_neg (by simp [hz]; omega), if_neg (by omega), BitVec.ofNat_toNat, BitVec.setWidth_eq, if_neg (by rw [hen]; simpa using hrange), herrs,
    u.ringRead_quiet _ _ _ hreads]
  rfl

end

/-- Settles O10: the three answers of READ_LOG, each of which changes nothing but its mailbox. -/
theorem readLogConsumesNothing : Obligations.ReadLogConsumesNothing := by
  intro s c which count start h hcount hwhich hpay
  refine ⟨fun hzero hlow hhigh hstart => ?_, fun hone hen hlow hhigh hrange herrs => ?_, fun hbad => ?_⟩
  · exact exec_readLog h hpay (cmdReadLog_early hcount hwhich hpay _ hlow hhigh hzero hstart)
  · intro n at' hreads
    exact exec_readLog h hpay (cmdReadLog_ring hcount hwhich hpay _ hlow hhigh hone hen hrange herrs hreads)
  · exact exec_readLog h hpay (cmdReadLog_bad hcount hwhich hpay _ hbad)

end Sys2Proof.Machine
end

section
/-!
O23. An extension command leaves the owner of device writes at the mark that no mailbox has (R338, R383), whatever it was before, which the frame
of the statement does not let change.
-/
namespace Sys2Proof.Machine

open Sys2Proof

/-- After an extension command no mailbox owns the device writes. -/
theorem State.runExt_writer (s : State) (q : Ask) : (s.runExt q).mem.writer = 4 := rfl

/-- A Ready module with an extension of one command, 0x0F00 on mailbox 0, between whose commands the device writes are marked as those of mailbox 0.
The model's own commands leave them marked 4; the statement is about every state. -/
def extended : State := { State.reset with
  power := { Power.reset with linkUp := true, phase := 6, ready := true }
  mem := { State.reset.mem with writer := 0 }
  ext := { Extension.reset with cmds := [(0x0F00, 0)], loaded := true } }

/-- A command of that extension which finishes at once with OK and no data. -/
def finishing : Sub := ⟨0, 0, 0, [], { Env.quiet with acts := [.finish 0 []] }⟩

theorem extended_takes : extended.Takes finishing where
  io := by decide +kernel
  reach := by decide +kernel
  alone := rfl
  settled := rfl
  now := rfl
  buffer := rfl
  ready := rfl
  live := rfl
  runs := rfl
  mailbox := by decide
  four := by decide +kernel
  free := by decide +kernel
  wf := by decide +kernel
  fits := by decide
  len := rfl
  closed := fun _ => rfl

theorem extended_open : extended.Open := ⟨rfl, by decide +kernel⟩

/-- The command has run. -/
theorem extended_unmarks : (extended.command finishing 0x0F00).mem.writer = 4 := by
  decide +kernel

/-- Refutes O23: in `extended` the command `finishing` completes with OK, and it changes the mark of device writes, a part of device memory's state
that the frame of the statement does not let change. -/
theorem not_extensionsRun : ¬ Obligations.ExtensionsRun := by
  intro h
  obtain ⟨-, hfinishes, -⟩ := h.1 extended finishing extended_takes extended_open
  obtain ⟨t, hexec, hanswers⟩ := hfinishes 0x0F00 0 0 [] (by decide) (by decide) rfl rfl rfl (.inl rfl) (by decide) rfl
  have ht : extended.command finishing 0x0F00 = t := Host.Outcome.next.inj hexec
  have hmark : t.mem.writer = 4 := ht ▸ extended_unmarks
  rw [hanswers.frame .mem (by simp)] at hmark
  cases hmark

end Sys2Proof.Machine
end

section
/-!
SUPPORT. Reads of device memory add no write that waits, and play no part in whose writes run (R282, R338, R339).
-/
namespace Sys2Proof.Machine

open Sys2Proof

/-! ### Writes that wait -/

theorem State.bucketCount_waiting (s : State) (p : Place) (die : Nat) : (s.bucketCount p die).mem.waiting = s.mem.waiting := by
  unfold State.bucketCount
  dsimp only
  split
  · rw [(State.raise_frame _ 5).mem_eq, (State.event_frame _ _ _ _).mem_eq]
  · rfl

theorem State.readBeat_waiting (s : State) (req : Nat) (step : Quad) (errs : List BeatErr) (a : Nat) :
    (s.readBeat req step errs a).2.mem.waiting = s.mem.waiting := by
  unfold State.readBeat
  dsimp only
  split
  next => rfl
  next =>
    split
    next => rfl
    next =>
      split
      next => rfl
      next =>
        split
        next => rfl
        next => exact State.bucketCount_waiting _ _ _
      next => rw [(State.event_frame _ _ _ _).mem_eq]

theorem State.readBeats_waiting (s : State) (req : Nat) (step : Quad) (errs : List BeatErr) (k b : Nat) (acc : List Byte) :
    (s.readBeats req step errs k b acc).2.mem.waiting = s.mem.waiting := by
  induction k generalizing s b acc with
  | zero => rfl
  | succ k ih =>
    have hbeat := s.readBeat_waiting req step errs b
    unfold State.readBeats
    split
    next heq => rw [heq] at hbeat; exact hbeat
    next heq => rw [heq] at hbeat; exact (ih _ _ _).trans hbeat

theorem State.readDev_waiting (s : State) (req : Nat) (step : Quad) (errs : List BeatErr) (a len : Nat) :
    (s.readDev req step errs a len).2.mem.waiting = s.mem.waiting := by
  have hbeats := s.readBeats_waiting req step errs (ceilDiv (a - a / 32 * 32 + len) 32) (a / 32 * 32) []
  unfold State.readDev
  dsimp only
  split
  next heq => rw [heq] at hbeats; exact hbeats
  next heq => rw [heq] at hbeats; exact hbeats

theorem State.imgRead_waiting (s : State) (env : Env) (a off len : Nat) : (s.imgRead env a off len).2.mem.waiting = s.mem.waiting := by
  have hread := s.readDev_waiting rqBeryl noStep env.errs (a + off) len
  unfold State.imgRead
  split
  next => rfl
  next =>
    split
    next =>
      split
      next => rfl
      next => split <;> rfl
    next =>
      split
      next => rfl
      next =>
        split
        next heq => rw [heq] at hread; exact hread
        next heq => rw [heq] at hread; exact hread

/-! ### Whose writes run -/

section
variable (s : State) (w : Nat)

theorem State.event_writingFor (src : EvSrc) (code : Nat) (fs : List (Nat × Nat)) :
    (s.writingFor w).event src code fs = (s.event src code fs).writingFor w := by
  unfold State.event
  rw [apply_ite (State.writingFor · w)]
  rfl

theorem State.message_writingFor (v : Nat) : (s.writingFor w).message v = (s.message v).writingFor w := by
  unfold State.message
  rw [apply_ite (State.writingFor · w), apply_ite (State.writingFor · w)]
  rfl

theorem State.raise_writingFor (v : Nat) : (s.writingFor w).raise v = (s.raise v).writingFor w := (s.latch v).message_writingFor w v

theorem State.securityEvent_writingFor (code : Nat) (fs : List (Nat × Nat)) :
    (s.writingFor w).securityEvent code fs = (s.securityEvent code fs).writingFor w := by
  rw [State.securityEvent, State.event_writingFor, State.raise_writingFor, State.securityEvent]

theorem State.bucketCount_writingFor (p : Place) (die : Nat) : (s.writingFor w).bucketCount p die = (s.bucketCount p die).writingFor w := by
  unfold State.bucketCount
  rw [apply_ite (State.writingFor · w), ← State.raise_writingFor, ← State.event_writingFor]
  rfl

theorem State.queueWriteBack_writingFor (k a : Nat) (bs : List Byte) :
    (s.writingFor w).queueWriteBack k a bs = (s.queueWriteBack k a bs).writingFor w := rfl

/-- What a read answers, with the state as the read leaves it written for another. -/
def writingForPair {α : Type} (w : Nat) (q : α × State) : α × State := (q.1, q.2.writingFor w)

theorem State.readBeat_writingFor (req : Nat) (step : Quad) (errs : List BeatErr) (a : Nat) :
    (s.writingFor w).readBeat req step errs a = writingForPair w (s.readBeat req step errs a) := by
  have hreach (b : Nat) : (s.writingFor w).ioReach b = s.ioReach b := rfl
  have hret (p : Nat) : (s.writingFor w).mem.pageRetired p = s.mem.pageRetired p := rfl
  have hplace (b : Nat) : (s.writingFor w).mem.place b = s.mem.place b := rfl
  have hmark (k : Nat) : (s.writingFor w).mem.mark k = s.mem.mark k := rfl
  have hcells : (s.writingFor w).mem.cells = s.mem.cells := rfl
  unfold State.readBeat
  dsimp only
  rw [hreach, hret, hplace, hmark, hcells]
  split
  next => rfl
  next =>
    split
    next => rfl
    next =>
      split
      next => rfl
      next k s0 erased _ =>
        cases erased with
        | true => rfl
        | false =>
          simp only [Bool.false_eq_true, if_false, writingForPair]
          rw [← State.queueWriteBack_writingFor, ← State.bucketCount_writingFor]
          rfl
      next =>
        simp only [writingForPair]
        rw [← State.event_writingFor]
        rfl

theorem State.readBeats_writingFor (req : Nat) (step : Quad) (errs : List BeatErr) (k b : Nat) (acc : List Byte) :
    (s.writingFor w).readBeats req step errs k b acc = writingForPair w (s.readBeats req step errs k b acc) := by
  induction k generalizing s b acc with
  | zero => rfl
  | succ k ih =>
    unfold State.readBeats
    rw [State.readBeat_writingFor]
    rcases s.readBeat req step errs b with ⟨_ | bs, t⟩
    · rfl
    · exact ih t _ _

theorem State.readDev_writingFor (req : Nat) (step : Quad) (errs : List BeatErr) (a len : Nat) :
    (s.writingFor w).readDev req step errs a len = writingForPair w (s.readDev req step errs a len) := by
  unfold State.readDev
  dsimp only
  rw [State.readBeats_writingFor]
  rcases s.readBeats req step errs (ceilDiv (a - a / 32 * 32 + len) 32) (a / 32 * 32) [] with ⟨_ | bs, t⟩ <;> rfl

theorem State.imgRead_writingFor (env : Env) (a off len : Nat) :
    (s.writingFor w).imgRead env a off len = writingForPair w (s.imgRead env a off len) := by
  have hret : (s.writingFor w).mem.touchesRetired (a + off) len = s.mem.touchesRetired (a + off) len := rfl
  unfold State.imgRead
  rw [State.readDev_writingFor, hret]
  split
  next => rfl
  next =>
    split
    next =>
      split
      next => rfl
      next => split <;> rfl
    next =>
      split
      next => rfl
      next => rcases s.readDev rqBeryl noStep env.errs (a + off) len with ⟨_ | bs, t⟩ <;> rfl

/-- Whether an authorisation verifies does not depend on whose writes run. -/
theorem State.authorise_writingFor (x : Cmd) (op addr : Nat) (want : Want) :
    (s.writingFor w).authorise x op addr want = writingForPair w (s.authorise x op addr want) := by
  unfold State.authorise
  rw [State.imgRead_writingFor]
  rcases s.imgRead x.env addr 0 1120 with ⟨im | _ | _, t⟩
  · dsimp only [writingForPair]
    have hfuses : (t.writingFor w).fuses = t.fuses := rfl
    rw [hfuses]
    split
    next => rfl
    next =>
      split
      next => rfl
      next => exact congrArg (Prod.mk _) (State.securityEvent_writingFor _ w _ _)
  · rfl
  · rfl

end

end Sys2Proof.Machine
end

section
/-!
SUPPORT. A command that ends with its completion and perhaps more behind it (R349, R353), and the length of a digest and a signature (R408).
-/
namespace Sys2Proof.Machine

open Sys2Proof

/-- A command whose body completes it, with the mailboxes otherwise as the submission left them, answers with that completion and changes
nothing else than its body does. -/
theorem State.command_ends {s : State} {c : Sub} {op : Nat} {i : Instr} (hi : exec i s = .next (s.command c op)) (h : s.Takes c) (ho : op < 0x0F00)
    (hj : (s.submitted c op).judge' (asked c op) = none) {v : State} (hb : State.romBody (asked c op) (s.running c op) = v)
    {status : Nat} {d : List Byte} {changed : List Component}
    (hm : v.mailboxes = updAt (s.running c op).mailboxes c.mbx fun m => m.completed status d)
    (hf : Frame (changed ++ [.mailboxes, .ints, .out]) (s.running c op) v) :
    exec i s = .next (v.writingFor s.mem.writer) ∧ s.Answers c status d changed (v.writingFor s.mem.writer) := by
  have hlt : c.mbx < (s.running c op).mailboxes.length := by
    have hfour : (s.running c op).mailboxes.length = 4 := (updAt_length _ _ _).trans h.four
    have := h.mailbox
    omega
  refine ⟨?_, ?_, fun k hk => ?_, fun p hp => ?_⟩
  · rw [hi, State.command_takes h ho hj, State.runRom]
    exact congrArg (fun t : State => Host.Outcome.next (t.writingFor s.mem.writer)) hb
  · have hmbx : (v.writingFor s.mem.writer).mbx c.mbx = ((s.submitted c op).mbx c.mbx).completed status d := by
      have hv : (v.writingFor s.mem.writer).mailboxes = updAt (s.running c op).mailboxes c.mbx fun m => m.completed status d := hm
      rw [State.mbx, hv]
      exact (s.running c op).mbx_updAt _ hlt
    rw [hmbx]
    refine Mailbox.completed_holds ?_ status d
    rw [State.submitted_mbx h]
    exact memWrite_wf _ _ h.wf
  · have hother : v.mailboxes[k]? = (s.running c op).mailboxes[k]? := by
      rw [hm]
      simp [updAt, hk.symm]
    exact hother.trans (s.submitted_others c op k hk)
  · have hkept := hf p hp
    have hsub : p.Same s (s.submitted c op) := s.submitted_frame c op p fun hmem => hp (List.mem_append_right _ (by simp_all))
    cases p with
    | mem =>
      have hv : v.mem = { s.mem with writer := c.mbx } := hkept
      show { v.mem with writer := s.mem.writer } = s.mem
      rw [hv]
    | _ => exact Eq.trans hkept hsub

/-! ### SHA-512 -/

theorem length_shaRound {v : List Quad} (h : v.length = 8) (kw : Quad) : (shaRound v kw).length = 8 := by
  match v, h with
  | [_, _, _, _, _, _, _, _], _ => rfl

theorem length_shaBlock {v : List Quad} (h : v.length = 8) (bs : List Byte) : (shaBlock v bs).length = 8 := by
  have hrounds (l : List (Quad × Quad)) (u : List Quad) (hu : u.length = 8) : (l.foldl (fun v p => shaRound v (p.1 + p.2)) u).length = 8 := by
    induction l generalizing u with
    | nil => exact hu
    | cons p l ih => exact ih _ (length_shaRound hu _)
  rw [shaBlock, List.length_zipWith, h, hrounds _ _ h]
  rfl

theorem length_shaBlocks (n : Nat) {v : List Quad} (h : v.length = 8) (bs : List Byte) : (shaBlocks n v bs).length = 8 := by
  induction n generalizing v bs with
  | zero => exact h
  | succ n ih => exact ih (length_shaBlock h _) _

theorem length_toBe (k n : Nat) : (toBe k n).length = k := by
  rw [toBe, List.length_reverse, length_toLe]

theorem length_sha512 (m : List Byte) : (sha512 m).length = 64 := by
  rw [sha512, length_flatMap_const fun w : Quad => length_toBe 8 w.toNat, length_shaBlocks _ rfl]

theorem length_pssSign (k : KeyPair) (msg salt : List Byte) : (pssSign k msg salt).length = 512 := length_toBe _ _

theorem length_sliceB (b : List Byte) (o k : Nat) : (sliceB b o k).length = k := by
  rw [sliceB_eq_map_range, List.length_map, List.length_range]

end Sys2Proof.Machine
end

section
/-!
O22. ATTEST, LIFECYCLE_ADVANCE and FUSE_LEDGER (R378 to R380, R400, R404, R405, R408, R410).
-/
namespace Sys2Proof.Machine

open Sys2Proof

/-! ### The judgement of a security command -/

/-- Before its payload nothing refuses a security command on mailbox 0 of the right length that its life-cycle state and the Keep allow, between
steps where it writes fuses (R363, R379, R401, R410, Table 14.19). -/
theorem State.judge'_security {s : State} {c : Sub} {op : Nat} (h : s.Takes c) (ho : s.Open) (hm : c.mbx = 0)
    (hop : op = 0x0501 ∧ c.payload.length = 32 ∧ s.fuses.state ≠ 0 ∧ s.keep.state < 2
      ∨ op = 0x0502 ∧ c.payload.length = 16 ∧ s.keep.state < 2 ∧ s.steps = []
      ∨ op = 0x0503 ∧ c.payload.length = 16 ∧ (fieldLe c.payload 0 1 = 0
          ∨ s.keep.state < 2 ∧ s.steps = [] ∧ (fieldLe c.payload 0 1 = 1 → s.fuses.state ≠ 3))) :
    (s.submitted c op).judge' (asked c op) = none := by
  have hadv : s.keep.advanced = false := ho.stays
  have hst : s.fuses.state ≠ 4 := ho.state
  have hjobs : (s.submitted c op).jobs = [] := h.alone
  have hsteps : (s.submitted c op).steps = s.steps := rfl
  have hfuses : (s.submitted c op).fuses = s.fuses := rfl
  have hkeep : (s.submitted c op).keep = s.keep := rfl
  have hmarch : (s.submitted c op).marchTowers = [] := by rw [State.marchTowers, hjobs]; rfl
  rcases hop with ⟨rfl, hlen, hunborn, hk⟩ | ⟨rfl, hlen, hk, hs⟩ | ⟨rfl, hlen, hact⟩
  · have hk' : ¬ 2 ≤ s.keep.state := by omega
    simp [State.judge', State.stage1, romLen, hlen, hm, State.locked, hadv, hst, hfuses, hkeep, hunborn, hk', State.busy, State.meets, loadsSlot,
      savesSlot, isExt]
  · have hk' : ¬ 2 ≤ s.keep.state := by omega
    simp [State.judge', State.stage1, romLen, hlen, hm, State.locked, hadv, hst, hfuses, hkeep, hk', State.busy, State.meets, loadsSlot, savesSlot,
      State.stepRunning, hsteps, hs]
  · have hlocked : (s.submitted c 0x0503).locked (asked c 0x0503) = false := by
      rcases hact with hread | ⟨hk, -, hpre⟩
      · simp [State.locked, hkeep, hadv, hread]
      · have hk' : ¬ 2 ≤ s.keep.state := by omega
        simpa [State.locked, hadv, hst, hkeep, hfuses, hk'] using hpre
    have hbusy : (s.submitted c 0x0503).busy (asked c 0x0503) = false := by
      rcases hact with hread | ⟨-, hs, -⟩
      · simp [State.busy, State.meets, loadsSlot, savesSlot, hread]
      · simp [State.busy, State.meets, loadsSlot, savesSlot, hmarch, State.stepRunning, hsteps, hs]
    simp [State.judge', State.stage1, romLen, hlen, hm, hlocked, hbusy]

/-! ### ATTEST -/

theorem State.length_attestBody (s : State) (nonce : List Byte) : (s.attestBody nonce).length = 256 := by
  simp [State.attestBody, length_sliceB, length_sha512]

/-- The report begins with the nonce, the serial number and the life-cycle state (Table 14.15). -/
theorem State.attestBody_fields (s : State) {nonce : List Byte} (h : nonce.length = 32) (sig : List Byte) :
    (s.attestBody nonce ++ sig).take 32 = nonce ∧ fieldLe (s.attestBody nonce ++ sig) 32 8 = Config.serial.toNat
      ∧ fieldLe (s.attestBody nonce ++ sig) 40 1 = s.fuses.state % 256 := by
  have hnonce : sliceB nonce 0 32 = nonce := by
    have hwhole := sliceB_append_self (r := []) h
    rwa [List.append_nil] at hwhole
  have hserial := Config.serial.isLt
  simp only [State.attestBody, hnonce, List.append_assoc]
  refine ⟨by rw [List.take_append_of_le_length h.ge, List.take_of_length_le h.le], ?_, ?_⟩
  · rw [fieldLe_append_skip h.le, h]
    exact fieldLe_toLe_append hserial
  · rw [fieldLe_append_skip (by omega), h, fieldLe_append_skip (by simp), length_toLe]
    exact fieldLe_toLe_append_mod 1 _ _

section
variable {s : State} {c : Sub} (h : s.Takes c) (ho : s.Open) (hm : c.mbx = 0) (hlen : c.payload.length = 32)
include h ho hm hlen

/-- ATTEST answers the report and its signature (R378, R408). -/
theorem exec_attest (hk : s.keep.state < 2) (hunborn : s.fuses.state ≠ 0) {k : KeyPair} (hkey : s.keep.identity = some k) :
    ∃ t, exec (.attest c) s = .next t ∧ s.Answers c 0 (s.attestBody c.payload
      ++ pssSign k (s.attestBody c.payload) (sliceB (Config.pssSalt s.freeCtr) 0 64)) [.freeCtr] t := by
  have hbody : State.romBody (asked c 0x0501) (s.running c 0x0501) = ({ s.running c 0x0501 with freeCtr := s.freeCtr + 1 } : State).complete c.mbx stOK
      (s.attestBody c.payload ++ pssSign k (s.attestBody c.payload) (sliceB (Config.pssSalt s.freeCtr) 0 64)) := by
    have hrun : (s.running c 0x0501).keep.identity = some k := hkey
    show cmdAttest ⟨c.mbx, c.payload, c.env⟩ (s.running c 0x0501) = _
    rw [cmdAttest, hrun]
    rfl
  exact ⟨_, State.command_answers rfl h (by decide) (State.judge'_security h ho hm (.inl ⟨rfl, hlen, hunborn, hk⟩)) hbody rfl h.settled
    ((s.running c 0x0501).set_freeCtr_frame _)⟩

/-- ATTEST without an identity key is LOCKED (R378). -/
theorem exec_attest_locked (hk : s.keep.state < 2) (hnone : s.fuses.state = 0 ∨ s.keep.identity = none) :
    ∃ t, exec (.attest c) s = .next t ∧ s.Answers c stLOCKED (List.replicate 768 0) [] t := by
  by_cases hunborn : s.fuses.state = 0
  · have hp : (Instr.attest c, 0x0501) ∈ zeroCommands c := by simp [zeroCommands]
    have hj : s.judge' (asked c 0x0501) = some stLOCKED := by
      simp [State.judge', State.stage1, romLen, hlen, hm, State.locked, hunborn]
    exact exec_zeroCommand_refused h hp hj
  · have hkey : (s.running c 0x0501).keep.identity = none := hnone.resolve_left hunborn
    refine State.command_completes h rfl (by decide) (State.judge'_security h ho hm (.inl ⟨rfl, hlen, hunborn, hk⟩)) ?_
    show cmdAttest ⟨c.mbx, c.payload, c.env⟩ (s.running c 0x0501) = _
    rw [cmdAttest, hkey]
    rfl

end

/-! ### Security events and wipes -/

theorem State.securityEvent_frame (s : State) (code : Nat) (fs : List (Nat × Nat)) : Frame [.evt, .ints, .out] s (s.securityEvent code fs) :=
  Frame.trans (s.event_frame .module code fs) (State.raise_frame _ 8) (by simp) (by simp)

/-- A security event raises vector 8 (R414). -/
theorem State.securityEvent_raised (s : State) (code : Nat) (fs : List (Nat × Nat)) : (s.securityEvent code fs).ints.raised.getLsbD 8 = true := by
  obtain ⟨e, p, o, hevent⟩ := s.securityEvent_eq code fs
  rw [hevent, BitVec.getLsbD_or]
  simp

theorem State.wipeKeep_wipes {s : State} (h : s.jobs = []) (cause : Nat) :
    Frame [.keep, .evt, .ints, .out] s (s.wipeKeep cause) ∧ (s.wipeKeep cause).keep = s.keep.wiped
      ∧ (s.wipeKeep cause).ints.raised.getLsbD 8 = true := by
  obtain ⟨e, p, o, hwipe⟩ := s.wipeKeep_eq cause
  rw [State.lockJobs_none (by exact h)] at hwipe
  rw [hwipe]
  refine ⟨s.set_keep_evt_ints_out_frame _ _ _ _, rfl, ?_⟩
  rw [BitVec.getLsbD_or]
  simp

/-- Inputs that fire while a fuse write runs wipe the Keep besides (R415): nothing but the Keep, events and interrupts changes. -/
theorem State.fireTampers_frame {s : State} (h : s.jobs = []) (l : List Nat) : Frame [.keep, .evt, .ints, .out] s (s.fireTampers l) := by
  obtain ⟨e, i, o, hmark⟩ := s.tamperMark_marks l
  have hframe : Frame [.keep, .evt, .ints, .out] s (s.tamperMark l) := by
    rw [hmark]
    exact s.set_keep_evt_ints_out_frame _ _ _ _
  have hjobs : (s.tamperMark l).jobs = [] := by
    rw [hmark]
    exact h
  unfold State.fireTampers
  dsimp only
  split
  · exact hframe
  · exact Frame.trans hframe (State.wipeKeep_wipes hjobs 0).1 (by simp) (by simp)

/-- A Keep that a transition has shut: wiped, and locked until the next reset (R379, R410). -/
structure Keep.Shut (k : Keep) : Prop where
  state : k.state = 2
  advanced : k.advanced = true
  sessions : k.sessions = []
  identity : k.identity = none
  keys : ∀ x ∈ k.ideKeys, x = []

theorem Keep.wiped_shut {k : Keep} (h : k.advanced = true) : k.wiped.Shut :=
  ⟨rfl, h, rfl, rfl, fun _ hx => List.eq_of_mem_replicate hx⟩

theorem State.tamperKeep_shut {s : State} (h : s.keep.Shut) (l : List Nat) : (s.tamperKeep l).Shut :=
  ⟨h.state, h.advanced, h.sessions, h.identity, h.keys⟩

/-- Inputs that fire leave a Keep that is shut as it is, and a vector 8 that is raised. -/
theorem State.fireTampers_shut {s : State} (h : s.jobs = []) (hshut : s.keep.Shut) (hraised : s.ints.raised.getLsbD 8 = true) (l : List Nat) :
    (s.fireTampers l).keep.Shut ∧ (s.fireTampers l).ints.raised.getLsbD 8 = true := by
  obtain ⟨e, i, o, hmark⟩ := s.tamperMark_marks l
  have hkeep : (s.tamperMark l).keep.Shut := by
    rw [hmark]
    exact s.tamperKeep_shut hshut l
  have hjobs : (s.tamperMark l).jobs = [] := by
    rw [hmark]
    exact h
  have hevents (m : List Nat) (t : State) (ht : t.ints.raised.getLsbD 8 = true) :
      (m.foldl (fun s i => s.securityEvent 0x0701 [(1, i)]) t).ints.raised.getLsbD 8 = true := by
    induction m generalizing t with
    | nil => exact ht
    | cons i m ih => exact ih _ (t.securityEvent_raised _ _)
  unfold State.fireTampers
  dsimp only
  split
  · exact ⟨hkeep, hevents _ _ hraised⟩
  · obtain ⟨-, hwiped, hr⟩ := State.wipeKeep_wipes hjobs 0
    exact ⟨hwiped ▸ Keep.wiped_shut hkeep.advanced, hr⟩

/-! ### What an authorisation leaves -/

/-- What a judgement leaves: nothing but what its reads count and record, and no write that waits. -/
structure State.Judges (s t : State) : Prop where
  frame : Frame [.mem, .evt, .ints, .out] s t
  waiting : t.mem.waiting = s.mem.waiting

theorem State.authorise_judges (s : State) (x : Cmd) (op addr : Nat) (want : Want) : s.Judges (s.authorise x op addr want).2 := by
  have hread : s.Judges (s.imgRead x.env addr 0 1120).2 := ⟨(s.imgRead_reads x.env addr 0 1120).frame, s.imgRead_waiting x.env addr 0 1120⟩
  unfold State.authorise
  revert hread
  rcases s.imgRead x.env addr 0 1120 with ⟨im | _ | _, t⟩ <;> intro hread
  · dsimp only
    split
    next => exact hread
    next =>
      split
      next => exact hread
      next k _ =>
        have hevent := t.securityEvent_frame 0x0706 [(2, op), (1, fieldLe im 3 1), (1, k)]
        exact ⟨Frame.trans hread.frame hevent (by simp) (by simp), (congrArg Mem.waiting hevent.mem_eq).trans hread.waiting⟩
  · exact hread
  · exact hread

theorem State.Judges.owes {s t : State} (h : s.Judges t) (n : Nat) : t.mem.owes n = s.mem.owes n := by
  rw [Mem.owes, Mem.owes, h.waiting]

end Sys2Proof.Machine
end

section
/-!
SUPPORT. LIFECYCLE_ADVANCE and FUSE_LEDGER behind the checks of their authorisation (R379, R380, R405, R410, R415).
-/
namespace Sys2Proof.Machine

open Sys2Proof

section
variable {l : List Component} {s t : State} (h : Frame l s t)
include h

theorem Frame.jobs_eq (hl : Component.jobs ∉ l := by simp) : t.jobs = s.jobs := h .jobs hl
theorem Frame.fuses_eq (hl : Component.fuses ∉ l := by simp) : t.fuses = s.fuses := h .fuses hl
theorem Frame.keep_eq (hl : Component.keep ∉ l := by simp) : t.keep = s.keep := h .keep hl
theorem Frame.ext_eq (hl : Component.ext ∉ l := by simp) : t.ext = s.ext := h .ext hl

end

/-! ### A transition of the life cycle -/

/-- A permitted transition with a slot free for it is decided by its authorisation (R379, R404). -/
theorem lifeJudge_eq {x : Cmd} {s : State} {target : Nat} (htarget : fieldLe x.payload 0 1 = target) (hsupply : s.supplyOk = true)
    (hz : zeroAt x.payload 1 7 = true) (hsigners : (transitionSigners s.fuses.state target).isEmpty = false) (hlife : s.fuses.life.length < 8)
    (hident : target = 1 → s.fuses.ident.length < 2) : lifeJudge x s = s.authorise x 0x0502 (fieldLe x.payload 8 8)
      ⟨1, target, s.fuses.life.length, transitionSigners s.fuses.state target⟩ := by
  have hfuses := (s.authorise_judges x 0x0502 (fieldLe x.payload 8 8) ⟨1, target, s.fuses.life.length, transitionSigners s.fuses.state target⟩).frame.fuses_eq
  unfold lifeJudge
  dsimp only
  rw [htarget, if_neg (by simp [hsupply]), if_neg (by simp [hz, hsigners])]
  revert hfuses
  rcases s.authorise x 0x0502 (fieldLe x.payload 8 8) ⟨1, target, s.fuses.life.length, transitionSigners s.fuses.state target⟩ with ⟨im | st, t⟩
  · intro (hfuses : t.fuses = s.fuses)
    have hroom : ¬ (t.fuses.life.length ≥ 8 ∨ target = 1 ∧ t.fuses.ident.length ≥ 2) := by
      rw [hfuses]
      omega
    exact if_neg hroom
  · exact fun _ => rfl

/-- A committed transition puts its state in force (R399, R405). -/
theorem Fuses.state_advance (f : Fuses) (target : Nat) (secret hash : List Byte) : (f.advance target secret hash .committed).state = target := by
  unfold Fuses.advance
  cases target == 1 <;> simp [Fuses.state, slotOf]

theorem State.set_ext_frame (s : State) (e : Extension) : Frame [.ext] s { s with ext := e } := by
  intro p hp
  cases p with
  | ext => simp at hp
  | _ => rfl

theorem State.unloadExtension_free {s : State} (h : s.ext.inFlight = none) : s.unloadExtension = { s with ext := Extension.reset } := by
  rw [State.unloadExtension, h]

/-- What a committed transition does while no other command is in flight (R379, R384, R410). -/
theorem State.lifecycleEffect_shuts {s : State} (hjobs : s.jobs = []) (hfree : s.ext.inFlight = none) (old new : Nat) :
    Frame [.keep, .ext, .evt, .ints, .out] s (s.lifecycleEffect old new) ∧ (s.lifecycleEffect old new).keep.Shut
      ∧ (s.lifecycleEffect old new).ext = Extension.reset ∧ (s.lifecycleEffect old new).ints.raised.getLsbD 8 = true := by
  let t := s.securityEvent 0x0703 [(1, old), (1, new)]
  let u : State := { t with keep := { t.keep with advanced := true } }
  have hevent : Frame [.evt, .ints, .out] s t := s.securityEvent_frame _ _
  have hlock : Frame [.keep] t u := t.set_keep_frame _
  obtain ⟨hwipe, hkeep, hraised⟩ := State.wipeKeep_wipes (s := u) (hevent.jobs_eq.trans hjobs) 1
  have hframe : Frame [.keep, .evt, .ints, .out] s (u.wipeKeep 1) :=
    Frame.trans (Frame.trans (k := [.keep, .evt, .ints, .out]) hevent hlock (by simp) (by simp)) hwipe (by simp) (by simp)
  have hidle : (u.wipeKeep 1).ext.inFlight = none := by rw [hframe.ext_eq, hfree]
  have heq : s.lifecycleEffect old new = { u.wipeKeep 1 with ext := Extension.reset } := State.unloadExtension_free hidle
  rw [heq]
  exact ⟨Frame.trans hframe (State.set_ext_frame _ _) (by simp) (by simp), hkeep ▸ Keep.wiped_shut rfl, rfl, hraised⟩

section
variable {x : Cmd} {s : State} (hjobs : s.jobs = []) (hn : x.mbx < 4) (howes : s.mem.owes x.mbx = false)
include hjobs hn howes

/-- A committed transition: the ledger grows, the Keep is shut, the extension goes, and the command completes (R379, R384, R405, R410, R415). -/
theorem lifeWrite_committed (hfree : s.ext.inFlight = none) (hfuse : x.env.fuse = .committed) (im : List Byte) :
    (lifeWrite x im s).mailboxes = updAt s.mailboxes x.mbx (fun m => m.completed stOK [])
      ∧ Frame [.fuses, .keep, .ext, .evt, .freeCtr, .mailboxes, .ints, .out] s (lifeWrite x im s)
      ∧ (lifeWrite x im s).fuses = s.fuses.advance (fieldLe x.payload 0 1) (Config.fuseSecret s.freeCtr) (sliceB im 0x20 64) .committed
      ∧ (lifeWrite x im s).keep.Shut ∧ (lifeWrite x im s).ext = Extension.reset ∧ (lifeWrite x im s).ints.raised.getLsbD 8 = true := by
  let t : State := { s with
    fuses := s.fuses.advance (fieldLe x.payload 0 1) (Config.fuseSecret s.freeCtr) (sliceB im 0x20 64) .committed
    freeCtr := s.freeCtr + 1 }
  let u := t.fuseEvent 0 s.fuses.life.length (fieldLe x.payload 0 1) stOK
  let a := u.lifecycleEffect s.fuses.state (fieldLe x.payload 0 1)
  have heq : lifeWrite x im s = (a.done x []).fireTampers x.env.tamper := by
    unfold lifeWrite
    rw [hfuse]
  have hwrite : Frame [.fuses, .freeCtr] s t := fun p hp => by
    cases p with
    | fuses | freeCtr => simp at hp
    | _ => rfl
  have hevent : Frame [.evt, .ints, .out] t u := t.securityEvent_frame _ _
  have hbegun : Frame [.fuses, .freeCtr, .evt, .ints, .out] s u := Frame.trans hwrite hevent (by simp) (by simp)
  obtain ⟨heffect, hshut, hext, hraised⟩ := State.lifecycleEffect_shuts (s := u) (hbegun.jobs_eq.trans hjobs)
    (by rw [hbegun.ext_eq, hfree]) s.fuses.state (fieldLe x.payload 0 1)
  have hacted : Frame [.fuses, .freeCtr, .keep, .ext, .evt, .ints, .out] s a := Frame.trans hbegun heffect (by simp) (by simp)
  have hdone : a.done x [] = a.deliver x.mbx stOK [] := State.complete_settled stOK [] hn (by rw [hacted.mem_eq, howes])
  have hdeliver : Frame [.mailboxes, .ints, .out] a (a.deliver x.mbx stOK []) := a.deliver_frame _ _ _
  have hended : Frame [.fuses, .keep, .ext, .evt, .freeCtr, .mailboxes, .ints, .out] s (a.deliver x.mbx stOK []) :=
    Frame.trans hacted hdeliver (by simp) (by simp)
  have hmarked : (a.deliver x.mbx stOK []).ints.raised.getLsbD 8 = true := by
    rw [a.deliver_raised, BitVec.getLsbD_or, hraised, Bool.true_or]
  have hidle : (a.deliver x.mbx stOK []).jobs = [] := hended.jobs_eq.trans hjobs
  have htamper := State.fireTampers_frame hidle x.env.tamper
  obtain ⟨hkeep, hbit⟩ := State.fireTampers_shut hidle ((hdeliver.keep_eq).symm ▸ hshut) hmarked x.env.tamper
  rw [heq, hdone]
  refine ⟨?_, Frame.trans hended htamper (by simp) (by simp), ?_, hkeep, ?_, hbit⟩
  · rw [htamper.mailboxes_eq, (a.deliver_completed x.mbx stOK []).mailboxes, hacted.mailboxes_eq]
  · rw [htamper.fuses_eq, hdeliver.fuses_eq, heffect.fuses_eq, hevent.fuses_eq]
  · rw [htamper.ext_eq, hdeliver.ext_eq, hext]

/-! ### A write of the ledger -/

/-- A write of the ledger ends: its event, its completion with the ledger, and what fired meanwhile (R380, R415). -/
theorem State.ledgerEnded (kind slot arg : Nat) (l : List Nat) :
    let v := ((s.fuseEvent kind slot arg stOK).ledgerEnd x stOK).fireTampers l
    v.mailboxes = updAt s.mailboxes x.mbx (fun m => m.completed stOK s.fuses.bytes) ∧ Frame [.keep, .evt, .mailboxes, .ints, .out] s v
      ∧ (l = [] → v.keep = s.keep) := by
  intro v
  let u := s.fuseEvent kind slot arg stOK
  have hevent : Frame [.evt, .ints, .out] s u := s.securityEvent_frame _ _
  have hdone : u.ledgerEnd x stOK = u.deliver x.mbx stOK u.fuses.bytes := State.complete_settled stOK _ hn (by rw [hevent.mem_eq, howes])
  have hdeliver : Frame [.mailboxes, .ints, .out] u (u.deliver x.mbx stOK u.fuses.bytes) := u.deliver_frame _ _ _
  have hended : Frame [.evt, .mailboxes, .ints, .out] s (u.deliver x.mbx stOK u.fuses.bytes) := Frame.trans hevent hdeliver (by simp) (by simp)
  have hv : v = (u.deliver x.mbx stOK u.fuses.bytes).fireTampers l := congrArg (State.fireTampers · l) hdone
  have htamper := State.fireTampers_frame (s := u.deliver x.mbx stOK u.fuses.bytes) (hended.jobs_eq.trans hjobs) l
  rw [hv]
  refine ⟨?_, Frame.trans hended htamper (by simp) (by simp), ?_⟩
  · rw [htamper.mailboxes_eq, (u.deliver_completed x.mbx stOK u.fuses.bytes).mailboxes, hevent.mailboxes_eq, hevent.fuses_eq]
  · rintro rfl
    rw [State.fireTampers_nil]
    exact hended.keep_eq

end

/-- A tower without tracker entries leaves none to place (R160). -/
theorem State.moveEntries_none {s : State} {u : Nat} (h : (s.tower u).entries = []) :
    s.moveEntries u = some (s.modTower u fun x => { x with entries := [] }) := by
  rw [State.moveEntries, h]
  rfl

theorem updAt_other {α : Type} (l : List α) {n k : Nat} (h : k ≠ n) (f : α → α) : (updAt l n f)[k]? = l[k]? := by
  simp [updAt, h.symm]

/-- A tower without tracker entries is fused-retired, and nothing else but the count of droop windows changes (R28, R160, R380). -/
theorem State.fuseRetire_retires {s : State} {u : Nat} (h : (s.tower u).entries = []) (hu : u < s.towers.length) :
    Frame [.towers, .measure] s (s.fuseRetire u) ∧ ((s.fuseRetire u).tower u).state = 3 ∧ ∀ k, k ≠ u → (s.fuseRetire u).towers[k]? = s.towers[k]? := by
  let t := s.modTower u fun x => { x with entries := [] }
  have heq : s.fuseRetire u = (t.collectDroop u).modTower u fun x => { x with state := 3 } := by
    rw [State.fuseRetire, State.moveEntries_none h]
    rfl
  have hcollect : (t.collectDroop u).towers = updAt (updAt s.towers u fun x => { x with entries := [] }) u fun x => { x with droopNew := 0 } := rfl
  rw [heq]
  refine ⟨?_, ?_, fun k hk => ?_⟩
  · exact Frame.trans (Frame.trans (s.modTower_frame _ u) (t.collectDroop_frame u) (by simp) (by simp)) (State.modTower_frame _ _ u)
      (fun _ hc => hc) (by simp)
  · have hlt : u < (t.collectDroop u).towers.length := by rw [hcollect, updAt_length, updAt_length]; exact hu
    simp [State.tower, State.modTower, updAt, List.getD_eq_getElem?_getD, hlt]
  · rw [State.modTower_towers, updAt_other _ hk, hcollect, updAt_other _ hk, updAt_other _ hk]

section
variable {x : Cmd} {s : State} {action arg : Nat} (haction : fieldLe x.payload 0 1 = action) (harg : fieldLe x.payload 2 2 = arg)
include haction harg

/-- A write that its argument allows, with a slot free for it, is decided by its authorisation (R380, R404). -/
theorem ledgerJudge_eq (hz1 : zeroAt x.payload 1 1 = true) (hz4 : zeroAt x.payload 4 4 = true) (hsupply : s.supplyOk = true)
    (hwrite : action = 1 ∧ 80 ≤ arg ∧ arg < s.fuses.ceiling ∧ s.fuses.ceil.length < 8
      ∨ action = 2 ∧ arg < 324 ∧ arg ∉ s.fuses.retiredTowers ∧ (s.tower arg).entries = [] ∧ s.fuses.tower.length < 16) :
    ledgerJudge x s = s.authorise x 0x0503 (fieldLe x.payload 8 8)
      ⟨action + 1, arg, s.fuses.usedBy action, actionSigners s.fuses.state action⟩ := by
  have hframe := (s.authorise_judges x 0x0503 (fieldLe x.payload 8 8)
    ⟨action + 1, arg, s.fuses.usedBy action, actionSigners s.fuses.state action⟩).frame
  have hroom : ¬ s.fuses.usedBy action ≥ if action = 1 then 8 else 16 := by
    rcases hwrite with ⟨rfl, -, -, hfree⟩ | ⟨rfl, -, -, -, hfree⟩ <;> simp [Fuses.usedBy, hfree]
  have hstands : ¬ (action = 2 ∧ s.fuses.retiredTowers.contains arg = true) := by
    rintro ⟨hact, hmem⟩
    rcases hwrite with ⟨hone, -⟩ | ⟨-, -, hnew, -⟩
    · omega
    · exact hnew (List.contains_iff_mem.mp hmem)
  unfold ledgerJudge
  dsimp only
  rw [haction, harg, if_neg (by simp [hz1, hz4]; omega), if_neg (by omega), if_neg (by simp [hsupply]), if_neg (by omega), if_neg (by omega),
    if_neg hstands]
  revert hframe
  rcases s.authorise x 0x0503 (fieldLe x.payload 8 8) ⟨action + 1, arg, s.fuses.usedBy action, actionSigners s.fuses.state action⟩ with ⟨im | st, t⟩
  · intro (hframe : Frame [.mem, .evt, .ints, .out] s t)
    have hplaced : ¬ (action = 2 ∧ (t.moveEntries arg).isNone = true) := by
      rintro ⟨rfl, hnone⟩
      have hentries : (t.tower arg).entries = [] := by
        rw [hframe.tower_eq arg]
        tauto
      rw [State.moveEntries_none hentries] at hnone
      cases hnone
    exact (if_neg hplaced).trans (if_neg hroom)
  · exact fun _ => rfl

/-- A read of the ledger, and the retirement of a tower that is retired, need no authorisation (R380). -/
theorem ledgerJudge_answers (hz1 : zeroAt x.payload 1 1 = true) (hz4 : zeroAt x.payload 4 4 = true)
    (hread : action = 0 ∧ arg = 0 ∨ action = 2 ∧ s.supplyOk = true ∧ arg < 324 ∧ arg ∈ s.fuses.retiredTowers) :
    ledgerJudge x s = (.inr stOK, s) := by
  unfold ledgerJudge
  dsimp only
  rw [haction, harg, if_neg (by simp [hz1, hz4]; omega)]
  rcases hread with ⟨rfl, rfl⟩ | ⟨rfl, hsupply, hlt, hmem⟩
  · rfl
  · rw [if_neg (by omega), if_neg (by simp [hsupply]), if_neg (by omega), if_neg (by omega), if_pos (by simpa using hmem)]

end

/-- A committed slot is the last of its kind (R405). -/
theorem Fuses.ceiling_write {f : Fuses} {arg : Nat} (h : arg ≤ f.ceiling) : (f.write 1 arg .committed).ceiling = arg := by
  have hceil : (f.write 1 arg .committed).ceil.filter (·.committed) = f.ceil.filter (·.committed) ++ [slotOf arg none [] [] true] := by
    show (f.ceil ++ [slotOf arg none [] [] true]).filter (·.committed) = _
    rw [List.filter_append]
    rfl
  rw [Fuses.ceiling, hceil, List.foldl_append]
  exact Nat.min_eq_right h

theorem Fuses.retiredTowers_write (f : Fuses) (arg : Nat) : (f.write 2 arg .committed).retiredTowers = f.retiredTowers ++ [arg] := by
  show ((f.tower ++ [slotOf arg none [] [] true]).filter (·.committed)).map FuseSlot.arg = _
  rw [List.filter_append, List.map_append]
  rfl

end Sys2Proof.Machine
end

section
/-!
O22. The security commands as a host submits them (R378 to R380, R400, R404, R405, R408, R410).
-/
namespace Sys2Proof.Machine

open Sys2Proof

section
variable {s : State} {c : Sub} (h : s.Takes c)
include h

/-- A command that completes once its judgement has read what it needed changes its mailbox, and what the reads count and record. -/
theorem State.command_judged {op : Nat} {i : Instr} {status : Nat} {d : List Byte} {t : State} (hi : exec i s = .next (s.command c op))
    (hop : op < 0x0F00) (hj : (s.submitted c op).judge' (asked c op) = none) (hreads : (s.running c op).Judges t)
    (hb : State.romBody (asked c op) (s.running c op) = t.complete c.mbx status d) : ∃ u, exec i s = .next u ∧ s.Answers c status d [.mem, .evt] u := by
  have howes : t.mem.owes c.mbx = false := (hreads.owes _).trans h.settled
  rw [State.complete_settled status d h.mailbox howes] at hb
  refine ⟨_, State.command_ends hi h hop hj hb ?_ (Frame.trans hreads.frame (t.deliver_frame _ _ _) (by simp) (by simp))⟩
  rw [(t.deliver_completed c.mbx status d).mailboxes, hreads.frame.mailboxes_eq]

/-! ### LIFECYCLE_ADVANCE -/

theorem exec_lifecycleAdvance (hj : (s.submitted c 0x0502).judge' (asked c 0x0502) = none) (hsupply : s.supplyOk = true)
    (hz : zeroAt c.payload 1 7 = true) (hfree : s.ext.inFlight = none) (hfuse : c.env.fuse = .committed)
    (hsigners : (transitionSigners s.fuses.state (fieldLe c.payload 0 1)).isEmpty = false) (hlife : s.fuses.life.length < 8)
    (hident : fieldLe c.payload 0 1 = 1 → s.fuses.ident.length < 2) :
    match (s.submitted c 0x0502).authorise ⟨c.mbx, c.payload, c.env⟩ 0x0502 (fieldLe c.payload 8 8)
      ⟨1, fieldLe c.payload 0 1, s.fuses.life.length, transitionSigners s.fuses.state (fieldLe c.payload 0 1)⟩ with
    | (.inl _, _) => ∃ t, exec (.lifecycleAdvance c) s = .next t ∧ s.Answers c 0 [] [.fuses, .keep, .ext, .mem, .evt, .freeCtr] t
      ∧ t.fuses.state = fieldLe c.payload 0 1 ∧ s.fuses.Grows t.fuses ∧ t.keep.state = 2 ∧ t.keep.advanced = true ∧ t.keep.sessions = []
      ∧ t.keep.identity = none ∧ (∀ k ∈ t.keep.ideKeys, k = []) ∧ t.ext.loaded = false
      ∧ t.ints.raised.getLsbD 8 = true
    | (.inr st, _) => ∃ t, exec (.lifecycleAdvance c) s = .next t ∧ s.Answers c st [] [.mem, .evt] t := by
  let x : Cmd := ⟨c.mbx, c.payload, c.env⟩
  let want : Want := ⟨1, fieldLe c.payload 0 1, s.fuses.life.length, transitionSigners s.fuses.state (fieldLe c.payload 0 1)⟩
  have hreads := (s.running c 0x0502).authorise_judges x 0x0502 (fieldLe c.payload 8 8) want
  have hjudge : lifeJudge x (s.running c 0x0502) = (s.running c 0x0502).authorise x 0x0502 (fieldLe c.payload 8 8) want :=
    lifeJudge_eq rfl hsupply hz hsigners hlife hident
  have hcmd : State.romBody (asked c 0x0502) (s.running c 0x0502) = match lifeJudge x (s.running c 0x0502) with
    | (.inl im, s1) => lifeWrite x im s1
    | (.inr st, s1) => s1.refuse x st 0 := rfl
  have hcommutes := (s.submitted c 0x0502).authorise_writingFor c.mbx x 0x0502 (fieldLe c.payload 8 8) want
  rw [hcommutes] at hreads hjudge
  rcases hauth : (s.submitted c 0x0502).authorise x 0x0502 (fieldLe c.payload 8 8) want with ⟨im | st, t⟩
  · rw [hauth] at hreads hjudge
    rw [hjudge] at hcmd
    let a := t.writingFor c.mbx
    have hframe : Frame [.mem, .evt, .ints, .out] (s.running c 0x0502) a := hreads.frame
    obtain ⟨hmail, hwrite, hfuses, hshut, hext, hraised⟩ := lifeWrite_committed (x := x) (s := a) (hframe.jobs_eq.trans h.alone) h.mailbox
      ((hreads.owes _).trans h.settled) ((congrArg Extension.inFlight hframe.ext_eq).trans hfree) hfuse im
    obtain ⟨hexec, hanswers⟩ := State.command_ends (i := .lifecycleAdvance c) (status := 0) (d := []) (changed := [.fuses, .keep, .ext, .mem, .evt, .freeCtr]) rfl h
      (by decide) hj hcmd (hmail.trans (congrArg (updAt · _ _) hframe.mailboxes_eq)) (Frame.trans hframe hwrite (by simp) (by simp))
    have hledger : a.fuses = s.fuses := hframe.fuses_eq
    refine ⟨_, hexec, hanswers, ?_, ?_, hshut.state, hshut.advanced, hshut.sessions, hshut.identity, hshut.keys, congrArg Extension.loaded hext,
      hraised⟩
    · exact (congrArg Fuses.state hfuses).trans (Fuses.state_advance _ _ _ _)
    · have hgrows := a.fuses.advance_grows (fieldLe c.payload 0 1) (Config.fuseSecret a.freeCtr) (sliceB im 0x20 64) .committed
      rw [hledger] at hgrows hfuses
      exact hfuses ▸ hgrows
  · rw [hauth] at hreads hjudge
    rw [hjudge] at hcmd
    exact State.command_judged h rfl (by decide) hj hreads hcmd

/-! ### FUSE_LEDGER -/

section
variable (hj : (s.submitted c 0x0503).judge' (asked c 0x0503) = none)
include hj

/-- A command that needs no authorisation answers the ledger as it stands (R380). -/
theorem exec_fuseLedger_answers {action arg : Nat} (haction : fieldLe c.payload 0 1 = action) (harg : fieldLe c.payload 2 2 = arg)
    (hz1 : zeroAt c.payload 1 1 = true) (hz4 : zeroAt c.payload 4 4 = true)
    (hread : action = 0 ∧ arg = 0 ∨ action = 2 ∧ s.supplyOk = true ∧ arg < 324 ∧ arg ∈ s.fuses.retiredTowers) :
    ∃ t, exec (.fuseLedger c) s = .next t ∧ s.Answers c 0 s.fuses.bytes [] t := by
  refine State.command_completes h rfl (by decide) hj ?_
  have hjudge : ledgerJudge ⟨c.mbx, c.payload, c.env⟩ (s.running c 0x0503) = (.inr stOK, s.running c 0x0503) :=
    ledgerJudge_answers haction harg hz1 hz4 hread
  show cmdFuseLedger ⟨c.mbx, c.payload, c.env⟩ (s.running c 0x0503) = _
  rw [cmdFuseLedger, hjudge]
  rfl

variable {action arg : Nat} (haction : fieldLe c.payload 0 1 = action) (harg : fieldLe c.payload 2 2 = arg)
  (hz1 : zeroAt c.payload 1 1 = true) (hz4 : zeroAt c.payload 4 4 = true) (hsupply : s.supplyOk = true) (hfuse : c.env.fuse = .committed)
  (hwrite : action = 1 ∧ 80 ≤ arg ∧ arg < s.fuses.ceiling ∧ s.fuses.ceil.length < 8
    ∨ action = 2 ∧ arg < 324 ∧ arg ∉ s.fuses.retiredTowers ∧ (s.tower arg).entries = [] ∧ s.fuses.tower.length < 16)
include haction harg hz1 hz4 hsupply hfuse hwrite

/-- A write of the ledger by its authorisation: where it verifies, the state `a` is left with the slot programmed and, of a tower, its retirement;
where it does not, the ledger is answered as it stands (R380, R404). -/
theorem exec_fuseLedger_writes {q : (List Byte ⊕ Nat) × State}
    (hauth : (s.submitted c 0x0503).authorise ⟨c.mbx, c.payload, c.env⟩ 0x0503 (fieldLe c.payload 8 8)
      ⟨action + 1, arg, s.fuses.usedBy action, actionSigners s.fuses.state action⟩ = q) :
    (∀ im t, q = (.inl im, t) → ∃ a, (s.running c 0x0503).Judges a ∧
      let w : State := { a with fuses := s.fuses.write action arg .committed }
      State.romBody (asked c 0x0503) (s.running c 0x0503) = (((if action = 2 then w.fuseRetire arg else w).fuseEvent (action + 1)
        (s.fuses.usedBy action) arg stOK).ledgerEnd ⟨c.mbx, c.payload, c.env⟩ stOK).fireTampers c.env.tamper)
    ∧ ∀ st t, q = (.inr st, t) → ∃ u, exec (.fuseLedger c) s = .next u ∧ s.Answers c st s.fuses.bytes [.mem, .evt] u := by
  let x : Cmd := ⟨c.mbx, c.payload, c.env⟩
  let want : Want := ⟨action + 1, arg, s.fuses.usedBy action, actionSigners s.fuses.state action⟩
  have hreads := (s.running c 0x0503).authorise_judges x 0x0503 (fieldLe c.payload 8 8) want
  have hjudge : ledgerJudge x (s.running c 0x0503) = (s.running c 0x0503).authorise x 0x0503 (fieldLe c.payload 8 8) want :=
    ledgerJudge_eq haction harg hz1 hz4 hsupply hwrite
  have hcmd : State.romBody (asked c 0x0503) (s.running c 0x0503) = match ledgerJudge x (s.running c 0x0503) with
    | (.inl _, s1) => ledgerWrite x s1
    | (.inr st, s1) => s1.ledgerEnd x st := rfl
  rw [(s.submitted c 0x0503).authorise_writingFor c.mbx x 0x0503 (fieldLe c.payload 8 8) want, hauth] at hreads hjudge
  rw [hjudge] at hcmd
  refine ⟨?_, ?_⟩
  · rintro im t rfl
    have hledger : (t.writingFor c.mbx).fuses = s.fuses := hreads.frame.fuses_eq
    refine ⟨t.writingFor c.mbx, hreads, hcmd.trans ?_⟩
    show ledgerWrite x (t.writingFor c.mbx) = _
    unfold ledgerWrite
    dsimp only
    rw [haction, harg, hfuse, hledger]
  · rintro st t rfl
    have hledger : (t.writingFor c.mbx).fuses = s.fuses := hreads.frame.fuses_eq
    refine State.command_judged h rfl (by decide) hj hreads (hcmd.trans ?_)
    show (t.writingFor c.mbx).complete c.mbx st (t.writingFor c.mbx).fuses.bytes = _
    rw [hledger]
    rfl

end

/-- A committed lowering of the ceiling (R380, R405). -/
theorem exec_fuseLedger_lowers (hj : (s.submitted c 0x0503).judge' (asked c 0x0503) = none) {a : State} {arg : Nat} (hlow : arg < s.fuses.ceiling)
    (hreads : (s.running c 0x0503).Judges a) (hb : State.romBody (asked c 0x0503) (s.running c 0x0503)
      = ((({ a with fuses := s.fuses.write 1 arg .committed } : State).fuseEvent 2 (s.fuses.usedBy 1) arg stOK).ledgerEnd
          ⟨c.mbx, c.payload, c.env⟩ stOK).fireTampers c.env.tamper) :
    ∃ t, exec (.fuseLedger c) s = .next t ∧ s.Answers c 0 t.fuses.bytes [.fuses, .mem, .evt, .keep] t
      ∧ t.fuses.ceiling = arg ∧ s.fuses.Grows t.fuses ∧ t.fuses.life = s.fuses.life ∧ (c.env.tamper = [] → t.keep = s.keep) := by
  let w : State := { a with fuses := s.fuses.write 1 arg .committed }
  have hframe := hreads.frame
  obtain ⟨hmail, hended, hkeep⟩ := State.ledgerEnded (x := ⟨c.mbx, c.payload, c.env⟩) (s := w) (hframe.jobs_eq.trans h.alone) h.mailbox
    ((hreads.owes _).trans h.settled) 2 (s.fuses.usedBy 1) arg c.env.tamper
  have hwrite : Frame [.fuses] a w := fun p hp => by
    cases p with
    | fuses => simp at hp
    | _ => rfl
  have hwritten : Frame [.fuses, .mem, .evt, .ints, .out] (s.running c 0x0503) w := Frame.trans hframe hwrite (by simp) (by simp)
  obtain ⟨hexec, hanswers⟩ := State.command_ends (i := .fuseLedger c) (status := 0) (changed := [.fuses, .mem, .evt, .keep]) rfl h (by decide) hj hb
    (hmail.trans (congrArg (updAt · _ _) hwritten.mailboxes_eq)) (Frame.trans hwritten hended (by simp) (by simp))
  have hfuses := hended.fuses_eq
  refine ⟨_, hexec, hfuses.symm ▸ hanswers, ?_, ?_, ?_, fun htamper => (hkeep htamper).trans hwritten.keep_eq⟩
  · exact (congrArg Fuses.ceiling hfuses).trans (Fuses.ceiling_write hlow.le)
  · exact hfuses.symm ▸ s.fuses.write_grows 1 arg .committed
  · exact (congrArg Fuses.life hfuses).trans rfl

/-- A committed retirement of a tower without tracker entries (R28, R380, R405). -/
theorem exec_fuseLedger_retires (hj : (s.submitted c 0x0503).judge' (asked c 0x0503) = none) {a : State} {arg : Nat} (hlt : arg < s.towers.length)
    (hentries : (s.tower arg).entries = []) (hreads : (s.running c 0x0503).Judges a) (hb : State.romBody (asked c 0x0503) (s.running c 0x0503)
      = (((({ a with fuses := s.fuses.write 2 arg .committed } : State).fuseRetire arg).fuseEvent 3 (s.fuses.usedBy 2) arg stOK).ledgerEnd
          ⟨c.mbx, c.payload, c.env⟩ stOK).fireTampers c.env.tamper) :
    ∃ t, exec (.fuseLedger c) s = .next t ∧ s.Answers c 0 t.fuses.bytes [.fuses, .towers, .mem, .evt, .keep, .measure] t
      ∧ (c.env.tamper = [] → t.keep = s.keep) ∧ t.fuses.retiredTowers = s.fuses.retiredTowers ++ [arg] ∧ s.fuses.Grows t.fuses
      ∧ (t.tower arg).state = 3 ∧ ∀ k, k ≠ arg → t.towers[k]? = s.towers[k]? := by
  let w : State := { a with fuses := s.fuses.write 2 arg .committed }
  have hframe := hreads.frame
  have htowers : a.towers = s.towers := hframe.towers_eq
  obtain ⟨hretire, hstate, hothers⟩ := State.fuseRetire_retires (s := w) (u := arg) ((congrArg Tower.entries (hframe.tower_eq arg)).trans hentries)
    (htowers.symm ▸ hlt)
  have hwrite : Frame [.fuses] a w := fun p hp => by
    cases p with
    | fuses => simp at hp
    | _ => rfl
  have hretired : Frame [.fuses, .towers, .measure, .mem, .evt, .ints, .out] (s.running c 0x0503) (w.fuseRetire arg) :=
    Frame.trans (Frame.trans (k := [.fuses, .mem, .evt, .ints, .out]) hframe hwrite (by simp) (by simp)) hretire (by simp) (by simp)
  have howes : (w.fuseRetire arg).mem.owes c.mbx = false := by
    rw [hretire.mem_eq]
    exact (hreads.owes _).trans h.settled
  obtain ⟨hmail, hended, hkeep⟩ := State.ledgerEnded (x := ⟨c.mbx, c.payload, c.env⟩) (s := w.fuseRetire arg)
    (hretired.jobs_eq.trans h.alone) h.mailbox howes 3 (s.fuses.usedBy 2) arg c.env.tamper
  obtain ⟨hexec, hanswers⟩ := State.command_ends (i := .fuseLedger c) (status := 0) (changed := [.fuses, .towers, .mem, .evt, .keep, .measure]) rfl h (by decide) hj hb
    (hmail.trans (congrArg (updAt · _ _) hretired.mailboxes_eq)) (Frame.trans hretired hended (by simp) (by simp))
  have hfuses := hended.fuses_eq.trans hretire.fuses_eq
  refine ⟨_, hexec, ?_, fun htamper => (hkeep htamper).trans hretired.keep_eq, ?_, ?_, ?_, fun k hk => ?_⟩
  · exact hended.fuses_eq.symm ▸ hanswers
  · exact (congrArg Fuses.retiredTowers hfuses).trans (s.fuses.retiredTowers_write arg)
  · exact hfuses.symm ▸ s.fuses.write_grows 2 arg .committed
  · exact (congrArg Tower.state (hended.tower_eq arg)).trans hstate
  · exact (congrArg (·[k]?) hended.towers_eq).trans ((hothers k hk).trans (congrArg (·[k]?) htowers))

end

/-- Settles O22: the report and its signature, and the two writes of the ledger by whether their authorisation verifies. -/
theorem securityCommands : Obligations.SecurityCommands := by
  refine ⟨fun s c h ho hm hlen hk => ⟨fun hunborn k hkey => ?attest, fun hnone => exec_attest_locked h ho hm hlen hk hnone⟩,
    fun s c h ho hm hlen hk hs hsupply hz hfree hfuse hsigners hlife hident => ?advance,
    fun s c arg h ho hm => ⟨fun hpay => ?read, fun hlen hk hs hsupply hz1 hz4 harg hfuse => ⟨fun hact hpre hmin hlow hroom => ?lower, fun hact hlt hmem => ?retired,
      fun hact hlt hnew hfour hentries hroom => ?retire⟩⟩⟩
  case attest =>
    obtain ⟨t, hexec, hanswers⟩ := exec_attest h ho hm hlen hk hunborn hkey
    obtain ⟨hnonce, hserial, hstate⟩ := s.attestBody_fields hlen (pssSign k (s.attestBody c.payload) (sliceB (Config.pssSalt s.freeCtr) 0 64))
    have hbody := s.length_attestBody c.payload
    refine ⟨t, _, sliceB (Config.pssSalt s.freeCtr) 0 64, hexec, hanswers, ?_, hnonce, hserial, hstate, ?_⟩
    · rw [List.length_append, hbody, length_pssSign]
    · rw [List.drop_left' hbody, List.take_left' hbody]
  case advance =>
    exact exec_lifecycleAdvance h (State.judge'_security h ho hm (.inr (.inl ⟨rfl, hlen, hk, hs⟩))) hsupply hz hfree hfuse hsigners hlife hident
  case read =>
    have hlen : c.payload.length = 16 := by rw [hpay]; rfl
    have hzero : fieldLe c.payload 0 1 = 0 ∧ fieldLe c.payload 2 2 = 0 ∧ zeroAt c.payload 1 1 = true ∧ zeroAt c.payload 4 4 = true := by
      rw [hpay]
      decide
    obtain ⟨haction, harg, hz1, hz4⟩ := hzero
    exact exec_fuseLedger_answers h (State.judge'_security h ho hm (.inr (.inr ⟨rfl, hlen, .inl haction⟩))) haction harg hz1 hz4 (.inl ⟨rfl, rfl⟩)
  case lower =>
    have hj := State.judge'_security (op := 0x0503) h ho hm (.inr (.inr ⟨rfl, hlen, .inr ⟨hk, hs, fun _ => hpre⟩⟩))
    obtain ⟨hverified, hrefused⟩ := exec_fuseLedger_writes h hj hact harg hz1 hz4 hsupply hfuse (.inl ⟨rfl, hmin, hlow, hroom⟩) rfl
    split
    next im t hauth =>
      obtain ⟨a, hreads, hb⟩ := hverified im t hauth
      exact exec_fuseLedger_lowers h hj hlow hreads hb
    next st t hauth => exact hrefused st t hauth
  case retired =>
    have hj := State.judge'_security (op := 0x0503) h ho hm (.inr (.inr ⟨rfl, hlen, .inr ⟨hk, hs, fun hone => by omega⟩⟩))
    exact exec_fuseLedger_answers h hj hact harg hz1 hz4 (.inr ⟨rfl, hsupply, hlt, hmem⟩)
  case retire =>
    have hj := State.judge'_security (op := 0x0503) h ho hm (.inr (.inr ⟨rfl, hlen, .inr ⟨hk, hs, fun hone => by omega⟩⟩))
    obtain ⟨hverified, hrefused⟩ := exec_fuseLedger_writes h hj hact harg hz1 hz4 hsupply hfuse (.inr ⟨rfl, hlt, hnew, hentries, hroom⟩) rfl
    split
    next im t hauth =>
      obtain ⟨a, hreads, hb⟩ := hverified im t hauth
      exact exec_fuseLedger_retires h hj (by omega) hentries hreads hb
    next st t hauth => exact hrefused st t hauth

end Sys2Proof.Machine
end
